-- ==== Sys2Proof/Word.lean ====
section
/-! DEFINITION. The machine word, the byte and the cell, and the names of the four streams. -/

namespace Sys2Proof

/-- A 64-bit scalar register value (R51). -/
abbrev Word := BitVec 64

/-- A byte of scratchpad or global memory. -/
abbrev Byte := BitVec 8

/-- The four streams of a core, each with its own section (R17, Table 1-3). -/
inductive Sec where
  | ctl | copy | mat | vec
  deriving DecidableEq, Repr

end Sys2Proof
end

