-- ==== Sys2Proof/Syntax.lean ====
section
/-! DEFINITION. The instruction set as syntax: operand kinds, operand structures, the payloads of the
events, and `Instr`, one constructor for each row of the opcode table. Rows with an encoding are instruction words;
the other rows are EVENTS, a step of an engine, of the host, of firmware or of the fabric. -/

namespace Sys2Proof

/-- A scalar source operand (R54): codes 0-15 name q0-q15 by age, codes 16-31 name n0-n15. -/
inductive SSrc where
  | q (i : Fin 16)
  | n (i : Fin 16)
  deriving DecidableEq, Repr

/-- A scalar destination operand (R54): code 0 pushes, codes 16-31 name n0-n15. -/
inductive SDst where
  | push
  | n (i : Fin 16)
  deriving DecidableEq, Repr

/-- A vector source operand (Table 3-2). -/
inductive VSrc where
  | q (i : Fin 16)
  | v (i : Fin 24)
  | zero
  | lane
  deriving DecidableEq, Repr

/-- A vector destination operand (Table 3-2). -/
inductive VDst where
  | push
  | v (i : Fin 24)
  deriving DecidableEq, Repr

/-- A scope (R57); code 7 is reserved. -/
inductive Scope where
  | stream | core | cluster | die | device | domain | system
  deriving DecidableEq, Repr

/-! ### Operand structures. The field `s` is the settle bit (R51, R67). -/

/-- Q3 format with dest, a, b and guard. -/
structure DABP where
  s : Bool
  d : SDst
  a : SSrc
  b : SSrc
  p : Fin 16
  deriving DecidableEq, Repr

/-- Q3 format with dest, a and guard. -/
structure DAP where
  s : Bool
  d : SDst
  a : SSrc
  p : Fin 16
  deriving DecidableEq, Repr

/-- Q3 format with dest and guard. -/
structure DP where
  s : Bool
  d : SDst
  p : Fin 16
  deriving DecidableEq, Repr

/-- Q3 format with a, b and guard. -/
structure ABP where
  s : Bool
  a : SSrc
  b : SSrc
  p : Fin 16
  deriving DecidableEq, Repr

/-- Q3 format with a and guard. -/
structure AP where
  s : Bool
  a : SSrc
  p : Fin 16
  deriving DecidableEq, Repr

/-- Q3 format with the guard alone. -/
structure GP where
  s : Bool
  p : Fin 16
  deriving DecidableEq, Repr

/-- CMP: the condition stands in the function field (Table 3-3). -/
structure CmpOps where
  s : Bool
  pd : Fin 16
  a : SSrc
  b : SSrc
  p : Fin 16
  c : Fin 6
  deriving DecidableEq, Repr

/-- PLOG: predicates in dest, a and b; t is the truth table (R92). -/
structure PlogOps where
  s : Bool
  pd : Fin 16
  pa : Fin 16
  pb : Fin 16
  p : Fin 16
  t : BitVec 4
  deriving DecidableEq, Repr

/-- SEL: t names the selecting predicate (R92). -/
structure SelOps where
  s : Bool
  d : SDst
  a : SSrc
  b : SSrc
  p : Fin 16
  t : Fin 16
  deriving DecidableEq, Repr

/-- TRAP: n is the software trap number (Table 3-3). -/
structure TrapOps where
  s : Bool
  n : Fin 32
  p : Fin 16
  deriving DecidableEq, Repr

/-- MODE: l is 0 exposed, 1 interlocked (Table 3-3). -/
structure ModeOps where
  s : Bool
  l : Bool
  p : Fin 16
  deriving DecidableEq, Repr

/-- QI format with a signed immediate. -/
structure DAI where
  s : Bool
  d : SDst
  a : SSrc
  p : Fin 16
  i : BitVec 11
  deriving DecidableEq, Repr

/-- SHLI, SHRI, SHAI: h is the shift amount (Table 3-3). -/
structure DAH where
  s : Bool
  d : SDst
  a : SSrc
  p : Fin 16
  h : Fin 64
  deriving DecidableEq, Repr

/-- BFX, BFI: o is the position, w the width minus one (R90). -/
structure BfOps where
  s : Bool
  d : SDst
  a : SSrc
  p : Fin 16
  o : Fin 64
  w : Fin 32
  deriving DecidableEq, Repr

/-- CMPI: c is the condition, i the comparand (R91). -/
structure CmpiOps where
  s : Bool
  pd : Fin 16
  a : SSrc
  p : Fin 16
  c : Fin 6
  i : BitVec 8
  deriving DecidableEq, Repr

/-- QL format with dest and a 20-bit immediate (R89). -/
structure DI where
  s : Bool
  d : SDst
  i : BitVec 20
  deriving DecidableEq, Repr

/-- FENCE: m is the class mask, c the scope (R119). -/
structure FenceOps where
  s : Bool
  m : BitVec 16
  c : Scope
  deriving DecidableEq, Repr

/-- B format: p the predicate, n negate, o the signed word offset. -/
structure BOps where
  s : Bool
  p : Fin 16
  n : Bool
  o : BitVec 20
  deriving DecidableEq, Repr

/-- NDIM: l is the levels minus one (R95). -/
structure NdimOps where
  s : Bool
  a : SSrc
  l : Fin 6
  deriving DecidableEq, Repr

/-- NEST: w is the body words minus one (R96). -/
structure NestOps where
  s : Bool
  w : Fin 64
  deriving DecidableEq, Repr

/-- LIDX: l is the level (R98). -/
structure LidxOps where
  s : Bool
  d : SDst
  p : Fin 16
  l : Fin 6
  deriving DecidableEq, Repr

/-- M format load: b base, k class, z size code, o offset units (R99). -/
structure LdOps where
  s : Bool
  d : SDst
  b : SSrc
  k : Fin 16
  z : Fin 4
  o : BitVec 9
  deriving DecidableEq, Repr

/-- M format store: x is the data register (R99). -/
structure StOps where
  s : Bool
  x : SSrc
  b : SSrc
  k : Fin 16
  z : Fin 4
  o : BitVec 9
  deriving DecidableEq, Repr

/-- LDN: o is the offset in nibbles (R100). -/
structure LdnOps where
  s : Bool
  d : SDst
  b : SSrc
  k : Fin 16
  o : BitVec 9
  deriving DecidableEq, Repr

/-- STN: o is the offset in nibbles (R100). -/
structure StnOps where
  s : Bool
  x : SSrc
  b : SSrc
  k : Fin 16
  o : BitVec 9
  deriving DecidableEq, Repr

/-- FLD: q is the acquire mark, c its scope, o the offset units (R103). -/
structure FldOps where
  s : Bool
  d : SDst
  b : SSrc
  k : Fin 16
  z : Fin 4
  q : Bool
  c : Scope
  o : BitVec 5
  deriving DecidableEq, Repr

/-- FST: q is the release mark, c its scope, o the offset units (R103). -/
structure FstOps where
  s : Bool
  x : SSrc
  b : SSrc
  k : Fin 16
  z : Fin 4
  q : Bool
  c : Scope
  o : BitVec 5
  deriving DecidableEq, Repr

/-- CSRR: c is the CSR number (R106). -/
structure CsrrOps where
  s : Bool
  d : SDst
  p : Fin 16
  c : Fin 1024
  deriving DecidableEq, Repr

/-- CSRW: c is the CSR number (R106). -/
structure CsrwOps where
  s : Bool
  a : SSrc
  p : Fin 16
  c : Fin 1024
  deriving DecidableEq, Repr

/-- Y format with a, b, scope and class. -/
structure YABsk where
  s : Bool
  a : SSrc
  b : SSrc
  c : Scope
  k : Fin 16
  deriving DecidableEq, Repr

/-- Y format with dest, a, b, scope and class. -/
structure YDABsk where
  s : Bool
  d : SDst
  a : SSrc
  b : SSrc
  c : Scope
  k : Fin 16
  deriving DecidableEq, Repr

/-- Y format with dest, a, scope and class. -/
structure YDAsk where
  s : Bool
  d : SDst
  a : SSrc
  c : Scope
  k : Fin 16
  deriving DecidableEq, Repr

/-- Y format with a, scope and class. -/
structure YAsk where
  s : Bool
  a : SSrc
  c : Scope
  k : Fin 16
  deriving DecidableEq, Repr

/-- Y format with a and class. -/
structure YAk where
  s : Bool
  a : SSrc
  k : Fin 16
  deriving DecidableEq, Repr

/-- Y format with a alone. -/
structure YA where
  s : Bool
  a : SSrc
  deriving DecidableEq, Repr

/-- Y format with a, b and class. -/
structure YABk where
  s : Bool
  a : SSrc
  b : SSrc
  k : Fin 16
  deriving DecidableEq, Repr

/-- Y format with a and b. -/
structure YAB where
  s : Bool
  a : SSrc
  b : SSrc
  deriving DecidableEq, Repr

/-- Y format with dest, a and b. -/
structure YDAB where
  s : Bool
  d : SDst
  a : SSrc
  b : SSrc
  deriving DecidableEq, Repr

/-- Y format with dest, a, b and class. -/
structure YDABk where
  s : Bool
  d : SDst
  a : SSrc
  b : SSrc
  k : Fin 16
  deriving DecidableEq, Repr

/-- An instruction with no field but the settle bit. -/
structure Bare where
  s : Bool
  deriving DecidableEq, Repr

/-- C format with a and a queue number (Table 10-2). -/
structure CAQ where
  s : Bool
  a : SSrc
  q : Fin 16
  p : Fin 16
  deriving DecidableEq, Repr

/-- C format with a and a channel number (Table 10-2). -/
structure CAH where
  s : Bool
  a : SSrc
  h : Fin 64
  p : Fin 16
  deriving DecidableEq, Repr

/-- SENDS: predicate destination, a and channel (Table 10-2). -/
structure CPAH where
  s : Bool
  pd : Fin 16
  a : SSrc
  h : Fin 64
  p : Fin 16
  deriving DecidableEq, Repr

/-- C format with dest, a and a queue number (Table 10-2). -/
structure CDAQ where
  s : Bool
  d : SDst
  a : SSrc
  q : Fin 16
  p : Fin 16
  deriving DecidableEq, Repr

/-- PEEK: dest and a queue number (Table 10-2). -/
structure CDQ where
  s : Bool
  d : SDst
  q : Fin 16
  p : Fin 16
  deriving DecidableEq, Repr

/-- QSTAT: dest, selector and a queue or channel number (Table 10-2). -/
structure CDAH where
  s : Bool
  d : SDst
  a : SSrc
  h : Fin 64
  p : Fin 16
  deriving DecidableEq, Repr

/-- K format with a command register and a register operand (R53). -/
structure KRA where
  s : Bool
  r : Fin 16
  a : SSrc
  deriving DecidableEq, Repr

/-- CSETI: a command register and an 18-bit signed immediate (R53). -/
structure KRI where
  s : Bool
  r : Fin 16
  i : BitVec 18
  deriving DecidableEq, Repr

/-- CDIM: r is the dimension; two register operands (R161). -/
structure KDim where
  s : Bool
  r : Fin 6
  a : SSrc
  b : SSrc
  deriving DecidableEq, Repr

/-- VSHAPE: the shape word in a (R253). -/
structure VShapeOps where
  s : Bool
  a : SSrc
  deriving DecidableEq, Repr

/-- V format: vector destination, scalar a, mask. -/
structure VWA where
  s : Bool
  v : VDst
  a : SSrc
  m : Fin 16
  deriving DecidableEq, Repr

/-- V format store: scalar a, vector source vb, mask. -/
structure VSA where
  s : Bool
  a : SSrc
  x : VSrc
  m : Fin 16
  deriving DecidableEq, Repr

/-- VLDM: mask destination, scalar address (R258). -/
structure VMA where
  s : Bool
  v : Fin 16
  a : SSrc
  deriving DecidableEq, Repr

/-- VSTM: scalar address, mask source (R258). -/
structure VAM where
  s : Bool
  a : SSrc
  b : Fin 16
  deriving DecidableEq, Repr

/-- VGAT: vector destination, gather word a, index vector x (R271). -/
structure VGatOps where
  s : Bool
  v : VDst
  a : SSrc
  x : VSrc
  m : Fin 16
  deriving DecidableEq, Repr

/-- VSCT: data source v, gather word a, index vector x (R267). -/
structure VSctOps where
  s : Bool
  v : VSrc
  a : SSrc
  x : VSrc
  m : Fin 16
  deriving DecidableEq, Repr

/-- VMOVS: scalar destination, vector source, lane number b (R259). -/
structure VMovsOps where
  s : Bool
  d : SDst
  x : VSrc
  b : SSrc
  deriving DecidableEq, Repr

/-- VIOTA: start a, step b (R259). -/
structure VIotaOps where
  s : Bool
  v : VDst
  a : SSrc
  b : SSrc
  m : Fin 16
  deriving DecidableEq, Repr

/-- V format: vector destination, vector sources x (va) and y (vb), mask. -/
structure VWXY where
  s : Bool
  v : VDst
  x : VSrc
  y : VSrc
  m : Fin 16
  deriving DecidableEq, Repr

/-- V format: vector destination, vector source x (va), mask. -/
structure VWX where
  s : Bool
  v : VDst
  x : VSrc
  m : Fin 16
  deriving DecidableEq, Repr

/-- V format: vector destination, vector source x (va), scalar control b, mask. -/
structure VWXB where
  s : Bool
  v : VDst
  x : VSrc
  b : SSrc
  m : Fin 16
  deriving DecidableEq, Repr

/-- VQUANT: destination and two sources, no mask (R266). -/
structure VQuantOps where
  s : Bool
  v : VDst
  x : VSrc
  y : VSrc
  deriving DecidableEq, Repr

/-- VCMP, VICMP: j names the mask pair m2j, m2j+1 (R263). -/
structure VCmpOps where
  s : Bool
  j : Fin 8
  x : VSrc
  y : VSrc
  m : Fin 16
  deriving DecidableEq, Repr

/-- VMLOG: mask destination, mask source, truth table in b (R264). -/
structure VMlogOps where
  s : Bool
  v : Fin 16
  x : Fin 16
  b : SSrc
  m : Fin 16
  deriving DecidableEq, Repr

/-- VMPOP, VMFIRST: scalar destination, mask source (R264). -/
structure VMdOps where
  s : Bool
  d : SDst
  x : Fin 16
  m : Fin 16
  deriving DecidableEq, Repr

/-- VOSM: v and x name the even registers v(2v) and v(2x) (R267). -/
structure VOsmOps where
  s : Bool
  v : Fin 12
  x : Fin 12
  deriving DecidableEq, Repr

/-- VFMA: f is the sign variant (R260). -/
structure VFmaOps where
  s : Bool
  v : VDst
  x : VSrc
  y : VSrc
  m : Fin 16
  f : Fin 4
  deriving DecidableEq, Repr

/-- T format with a and guard. -/
structure TA where
  s : Bool
  a : SSrc
  p : Fin 16
  deriving DecidableEq, Repr

/-- T format with scalar destination, a, b and guard. -/
structure TDAB where
  s : Bool
  d : SDst
  a : SSrc
  b : SSrc
  p : Fin 16
  deriving DecidableEq, Repr

/-- T format with a, b and guard. -/
structure TAB where
  s : Bool
  a : SSrc
  b : SSrc
  p : Fin 16
  deriving DecidableEq, Repr

/-- TTMASK: mask destination and a. -/
structure TMA where
  s : Bool
  v : Fin 16
  a : SSrc
  p : Fin 16
  deriving DecidableEq, Repr

/-- T format with vector destination, a and guard. -/
structure TWA where
  s : Bool
  v : VDst
  a : SSrc
  p : Fin 16
  deriving DecidableEq, Repr

/-- TTDEPTH: vector destination, a, b and guard. -/
structure TWAB where
  s : Bool
  v : VDst
  a : SSrc
  b : SSrc
  p : Fin 16
  deriving DecidableEq, Repr

/-- TTSTAT: scalar destination, a and guard. -/
structure TDA where
  s : Bool
  d : SDst
  a : SSrc
  p : Fin 16
  deriving DecidableEq, Repr

/-! ### Payloads of events -/

/-- A 64-byte cell with its 16-bit tag, S in [15:8] and F in [7:0] (R32). -/
structure CellData where
  bytes : BitVec 512
  tag : BitVec 16
  deriving DecidableEq, Repr

/-- The semaphore operations that travel to a remote file (R135, R137). -/
inductive SemOp where
  | sig | wait | try_ | add | cas | read | withdraw
  deriving DecidableEq, Repr

/-- A semaphore operation sent to the file of another core (R135): the requesting core's coordinate word and stream,
the request's number at its core, the physical semaphore, the operation and its second operand. -/
structure SemReq where
  from_ : BitVec 32
  sec : Sec
  id : Nat
  phys : Nat
  op : SemOp
  b : Word
  deriving DecidableEq, Repr

/-- What the owning file answers (R135, R136): a result, a refusal for want of a wait entry, a withdrawal, an overflow (reason 0x03), or
only that the request was received. -/
inductive SemAnswer where
  | result (v : Word)
  | refused
  | withdrawn
  | overflow
  | acknowledged
  deriving DecidableEq, Repr

/-- A queue entry in flight: its cell and origin word, and whether its source could not be read, so that it lands poisoned (R190, R199, R207). -/
structure Entry where
  cell : CellData
  origin : Word
  bad : Bool
  deriving DecidableEq, Repr

/-- Who awaits the acknowledgement of a write that goes to another core or module: nobody, an FST of a core by its number (R105, R119), or a
command of a core's copy engine with the number of its run or item (R118, R154, R159), a CTXSAVE of a core (R383), or,
of a read, an FLD of a core (R104). -/
inductive Requester where
  | nobody
  | store (core id : Nat)
  | command (core : Nat) (seq : BitVec 16) (item : Nat)
  | context (core : Nat)
  | load (core id : Nat)
  deriving DecidableEq, Repr

/-- A remote frame write or Ikindi cell write at the target core (R159): the sending module and requester, frame, offset, bytes, the tag of a
whole cell, and whether the cell is poisoned. -/
structure RemoteWrite where
  module : Nat
  who : Requester
  core : Nat
  frame : Fin 16
  off : Nat
  bytes : List Byte
  tag : Option (BitVec 16)
  poison : Bool
  deriving DecidableEq, Repr

/-- A firmware event record (Table 21-14) before its sequence number and cycle: type, CONT and payload. -/
structure EventRec where
  type : Nat
  cont : Bool
  payload : BitVec 384
  deriving DecidableEq, Repr

/-- What an Ikindi flit asks for (Table 21-9), or the data that answers a read, marked where it could not be read. A write or poison of a cell says whether its
page is described (R36, R37). The layout of REQ is the part's own. -/
inductive FlitAct where
  | read (addr : Nat)
  | data (addr : Nat) (cell : CellData) (bad : Bool)
  | write (addr : Nat) (cell : CellData) (desc : Bool)
  | bytes (addr : Nat) (bs : List Byte)
  | poison (addr : Nat) (desc : Bool)
  | frameWrite (w : RemoteWrite)
  | message (core q : Nat) (e : Entry)
  | multicast (group q : Nat) (e : Entry)
  | legCell (group legno walk cells : Nat) (cell : CellData) (bad : Bool)
  | legReady (group legno walk : Nat)
  | legGone (group legno walk : Nat)
  | credit (core : Nat) (sec : Sec) (ch n : Nat)
  | delivered (core : Nat) (sec : Sec) (ch code : Nat)
  | semaphore (core : Nat) (r : SemReq)
  | answer (core : Nat) (sec : Sec) (id : Nat) (a : SemAnswer)
  | membership (m : Nat) (joined : Bool)
  | acked (who : Requester) (code : Nat)
  deriving DecidableEq, Repr

/-- A flit: SEQ, ACK, lane, route, whether its CRC check passes, the ordering class and requester of what it asks for, and that (R419). -/
structure Flit where
  seq : BitVec 16
  ack : BitVec 16
  lane : Fin 8
  dst : BitVec 12
  src : BitVec 12
  intact : Bool
  cls : Fin 16
  who : Requester
  act : FlitAct
  deriving DecidableEq, Repr

/-- What an event carries beside its numbers. -/
inductive EventData where
  | none
  | sem (r : SemReq)
  | answer (a : SemAnswer)
  | entry (e : Entry)
  | cell (c : CellData)
  | legCell (c : CellData) (bad : Bool)
  | write (w : RemoteWrite)
  | record (e : EventRec)
  | flit (f : Flit)
  | word (v : Word)
  deriving DecidableEq, Repr

/-- The operands of an event: the core and stream it concerns, two numbers whose meaning the event's docstring gives, and data.
The constructors of events in `Instr` carry no fields; the operands of the event in hand stand in the state. -/
structure EventArg where
  core : Nat
  sec : Sec
  a : Nat
  b : Nat
  data : EventData
  deriving DecidableEq, Repr

/-- The instructions and events of the opcode table, one constructor a row. -/
inductive Instr where
  /-- ADD (R86). -/
  | add (o : DABP)
  /-- SUB (R86). -/
  | sub (o : DABP)
  /-- MUL (R86). -/
  | mul (o : DABP)
  /-- MULH (R86). -/
  | mulh (o : DABP)
  /-- MULHZ (R86). -/
  | mulhz (o : DABP)
  /-- DIV (R87). -/
  | div (o : DABP)
  /-- DIVZ (R87). -/
  | divz (o : DABP)
  /-- REM (R87). -/
  | rem (o : DABP)
  /-- REMZ (R87). -/
  | remz (o : DABP)
  /-- AND (R86). -/
  | and (o : DABP)
  /-- OR (R86). -/
  | or (o : DABP)
  /-- XOR (R86). -/
  | xor (o : DABP)
  /-- ANDN (R86). -/
  | andn (o : DABP)
  /-- SHL (R86). -/
  | shl (o : DABP)
  /-- SHR (R86). -/
  | shr (o : DABP)
  /-- SHA (R86). -/
  | sha (o : DABP)
  /-- MIN (R86). -/
  | min (o : DABP)
  /-- MAX (R86). -/
  | max (o : DABP)
  /-- MINZ (R86). -/
  | minz (o : DABP)
  /-- MAXZ (R86). -/
  | maxz (o : DABP)
  /-- ADDA (R86). -/
  | adda (o : DABP)
  /-- CLZ (R86). -/
  | clz (o : DAP)
  /-- CTZ (R86). -/
  | ctz (o : DAP)
  /-- POPC (R86). -/
  | popc (o : DAP)
  /-- SEXT (R86). -/
  | sext (o : DABP)
  /-- PICK (R86). -/
  | pick (o : DABP)
  /-- ADDI (R88). -/
  | addi (o : DAI)
  /-- ANDI (R88). -/
  | andi (o : DAI)
  /-- ORI (R88). -/
  | ori (o : DAI)
  /-- XORI (R88). -/
  | xori (o : DAI)
  /-- SHLI (R88). -/
  | shli (o : DAH)
  /-- SHRI (R88). -/
  | shri (o : DAH)
  /-- SHAI (R88). -/
  | shai (o : DAH)
  /-- LIL (R89). -/
  | lil (o : DI)
  /-- LIH (R89). -/
  | lih (o : DI)
  /-- BFX (R90). -/
  | bfx (o : BfOps)
  /-- BFI (R90). -/
  | bfi (o : BfOps)
  /-- CMP (R91). -/
  | cmp (o : CmpOps)
  /-- CMPI (R91). -/
  | cmpi (o : CmpiOps)
  /-- PLOG (R92). -/
  | plog (o : PlogOps)
  /-- SEL (R92). -/
  | sel (o : SelOps)
  /-- BR (R93). -/
  | br (o : BOps)
  /-- CALL (R82). -/
  | call (o : BOps)
  /-- JMP (R94). -/
  | jmp (o : AP)
  /-- CALLR (R94). -/
  | callr (o : AP)
  /-- RET (R83). -/
  | ret (o : GP)
  /-- NDIM (R95). -/
  | ndim (o : NdimOps)
  /-- NEST (R96). -/
  | nest (o : NestOps)
  /-- LIDX (R98). -/
  | lidx (o : LidxOps)
  /-- LD (R99). -/
  | ld (o : LdOps)
  /-- LDZ (R99). -/
  | ldz (o : LdOps)
  /-- ST (R99). -/
  | st (o : StOps)
  /-- LDN (R100). -/
  | ldn (o : LdnOps)
  /-- STN (R100). -/
  | stn (o : StnOps)
  /-- FLD (R104). -/
  | fld (o : FldOps)
  /-- FST (R105). -/
  | fst (o : FstOps)
  /-- CSRR (R106). -/
  | csrr (o : CsrrOps)
  /-- CSRW (R106). -/
  | csrw (o : CsrwOps)
  /-- CYC (R107). -/
  | cyc (o : DP)
  /-- NOP (R107). -/
  | nop (o : Bare)
  /-- TRAP (R107). -/
  | trap (o : TrapOps)
  /-- FENCE (R119). -/
  | fence (o : FenceOps)
  /-- SEMSIG (R137). -/
  | semsig (o : YABsk)
  /-- SEMWAIT (R137). -/
  | semwait (o : YABsk)
  /-- SEMTRY (R137). -/
  | semtry (o : YDABsk)
  /-- SEMADD (R137). -/
  | semadd (o : YDABsk)
  /-- SEMCAS (R137). -/
  | semcas (o : YDABsk)
  /-- SEMRD (R137). -/
  | semrd (o : YDAsk)
  /-- MTXLOCK (R139). -/
  | mtxlock (o : YAsk)
  /-- MTXTRY (R139). -/
  | mtxtry (o : YDAsk)
  /-- MTXFREE (R139). -/
  | mtxfree (o : YAsk)
  /-- BARARR (R141). -/
  | bararr (o : YDABsk)
  /-- BARWAIT (R141). -/
  | barwait (o : YDABsk)
  /-- RDV (R142). -/
  | rdv (o : Bare)
  /-- EVSET (R143). -/
  | evset (o : YAk)
  /-- EVCLR (R143). -/
  | evclr (o : YA)
  /-- EVWAIT (R143). -/
  | evwait (o : YABk)
  /-- WAITLT (R145). -/
  | waitlt (o : YAB)
  /-- CLAIM (R148). -/
  | claim (o : YDABk)
  /-- COMMIT (R148). -/
  | commit (o : YDABk)
  /-- AWAIT (R148). -/
  | await (o : YDABk)
  /-- RETIRE (R148). -/
  | retire (o : YDABk)
  /-- SLEEPU (R149). -/
  | sleepu (o : YA)
  /-- WAITA (R150). -/
  | waita (o : YDAB)
  /-- MODE (R68). -/
  | mode (o : ModeOps)
  /-- TRET (R377). -/
  | tret (o : GP)
  /-- CTXSAVE (R383). -/
  | ctxsave (o : ABP)
  /-- CTXLOAD (R384). -/
  | ctxload (o : ABP)
  /-- PREEMPT (R380). -/
  | preempt (o : AP)
  /-- SEMMAP (R392). -/
  | semmap (o : ABP)
  /-- TLBINV (R389). -/
  | tlbinv (o : ABP)
  /-- TLBPROBE (R390). -/
  | tlbprobe (o : DABP)
  /-- HINT (R391). -/
  | hint (o : ABP)
  /-- HALT (R381). -/
  | halt (o : AP)
  /-- WFLUSH (R385). -/
  | wflush (o : AP)
  /-- QCFG (R202). -/
  | qcfg (o : CAQ)
  /-- CHMAP (R203). -/
  | chmap (o : CAH)
  /-- SEND (R205). -/
  | send (o : CAH)
  /-- SENDS (R205). -/
  | sends (o : CPAH)
  /-- RECV (R208). -/
  | recv (o : CDAQ)
  /-- RECVS (R208). -/
  | recvs (o : CDAQ)
  /-- PEEK (R208). -/
  | peek (o : CDQ)
  /-- QSTAT (R211). -/
  | qstat (o : CDAH)
  /-- QFREE (R208). -/
  | qfree (o : CAQ)
  /-- MCAST (R204). -/
  | mcast (o : CAQ)
  /-- FGSTART (R335). -/
  | fgstart (o : ABP)
  /-- FGSTOP (R336). -/
  | fgstop (o : AP)
  /-- FGSTAT (R338). -/
  | fgstat (o : DAP)
  /-- FGLATE (R339). -/
  | fglate (o : DAP)
  /-- FGWIN (R337). -/
  | fgwin (o : ABP)
  /-- FGPACE (R327). -/
  | fgpace (o : ABP)
  /-- FGMC (R337). -/
  | fgmc (o : AP)
  /-- FGMARK (R337). -/
  | fgmark (o : ABP)
  /-- LAUNCH (R359). -/
  | launch (o : DABP)
  /-- POST (R360). -/
  | post (o : DABP)
  /-- TAKE (R361). -/
  | take (o : DAP)
  /-- YIELD (R362). -/
  | yieldJob (o : AP)
  /-- DONE (R363). -/
  | doneJob (o : AP)
  /-- COORD (R364). -/
  | coord (o : DAP)
  /-- SWCFG (R365). -/
  | swcfg (o : AP)
  /-- SWTAKE (R366). -/
  | swtake (o : DABP)
  /-- STGQ (R367). -/
  | stgq (o : DAP)
  /-- ASAMP (R312). -/
  | asamp (o : ABP)
  /-- AMODE (R313). -/
  | amode (o : AP)
  /-- ATHR (R314). -/
  | athr (o : ABP)
  /-- AOWN (R314). -/
  | aown (o : AP)
  /-- AFORCE (R314). -/
  | aforce (o : AP)
  /-- AHIST (R315). -/
  | ahist (o : DABP)
  /-- ACLR (R315). -/
  | aclr (o : AP)
  /-- ASTAT (R315). -/
  | astat (o : DAP)
  /-- AREL (R316). -/
  | arel (o : GP)
  /-- CSET (R161). -/
  | cset (o : KRA)
  /-- CSETI (R161). -/
  | cseti (o : KRI)
  /-- CDIM (R161). -/
  | cdim (o : KDim)
  /-- CLDC (R162). -/
  | cldc (o : KRA)
  /-- CSTC (R162). -/
  | cstc (o : KRA)
  /-- COPY (R164). -/
  | copy (o : DP)
  /-- GATHER (R178). -/
  | gather (o : DP)
  /-- SCATTER (R178). -/
  | scatter (o : DP)
  /-- CFILL (R165). -/
  | cfill (o : DP)
  /-- KVLIST (R183). -/
  | kvlist (o : DP)
  /-- TTILE (R189). -/
  | ttile (o : DP)
  /-- CFOLLOW (R166). -/
  | cfollow (o : AP)
  /-- TDEF (R187). -/
  | tdef (o : DABP)
  /-- PUBLISH (R175). -/
  | publish (o : AP)
  /-- FRMAP (R174). -/
  | frmap (o : DABP)
  /-- CSTAT (R191). -/
  | cstat (o : DAP)
  /-- CBMAP (R182). -/
  | cbmap (o : DABP)
  /-- CRESUME (R193). -/
  | cresume (o : DAP)
  /-- CCANCEL (R194). -/
  | ccancel (o : DAP)
  /-- CWAIT (R195). -/
  | cwait (o : AP)
  /-- MCFG (R239). -/
  | mcfg (o : AP)
  /-- MREL (R239). -/
  | mrel (o : GP)
  /-- WLOAD (R234). -/
  | wload (o : AP)
  /-- WFLIP (R235). -/
  | wflip (o : AP)
  /-- MMUL (R233). -/
  | mmul (o : AP)
  /-- MBAND (R243). -/
  | mband (o : ABP)
  /-- MTAG (R243). -/
  | mtag (o : AP)
  /-- MSWAP (R240). -/
  | mswap (o : GP)
  /-- MCLR (R240). -/
  | mclr (o : AP)
  /-- MSAVE (R242). -/
  | msave (o : ABP)
  /-- MREST (R242). -/
  | mrest (o : ABP)
  /-- MPACE (R243). -/
  | mpace (o : AP)
  /-- MDRAIN (R239). -/
  | mdrain (o : GP)
  /-- MSTAT (R244). -/
  | mstat (o : DAP)
  /-- VSHAPE (R253). -/
  | vshape (o : VShapeOps)
  /-- VLD (R255). -/
  | vld (o : VWA)
  /-- VST (R256). -/
  | vst (o : VSA)
  /-- VLDM (R258). -/
  | vldm (o : VMA)
  /-- VSTM (R258). -/
  | vstm (o : VAM)
  /-- VGAT (R271). -/
  | vgat (o : VGatOps)
  /-- VSCT (R271). -/
  | vsct (o : VSctOps)
  /-- VSPLAT (R259). -/
  | vsplat (o : VWA)
  /-- VMOVS (R259). -/
  | vmovs (o : VMovsOps)
  /-- VIOTA (R259). -/
  | viota (o : VIotaOps)
  /-- VACCR (R281). -/
  | vaccr (o : VWA)
  /-- VACCW (R281). -/
  | vaccw (o : VSA)
  /-- VADD (R260). -/
  | vadd (o : VWXY)
  /-- VSUB (R260). -/
  | vsub (o : VWXY)
  /-- VMUL (R260). -/
  | vmul (o : VWXY)
  /-- VMAX (R260). -/
  | vmax (o : VWXY)
  /-- VMIN (R260). -/
  | vmin (o : VWXY)
  /-- VABS (R260). -/
  | vabs (o : VWX)
  /-- VNEG (R260). -/
  | vneg (o : VWX)
  /-- VCLAMP (R260). -/
  | vclamp (o : VWXY)
  /-- VSCALE (R260). -/
  | vscale (o : VWXY)
  /-- VRCP (R261). -/
  | vrcp (o : VWX)
  /-- VRSQ (R261). -/
  | vrsq (o : VWX)
  /-- VEXP (R261). -/
  | vexp (o : VWX)
  /-- VLOG (R261). -/
  | vlog (o : VWX)
  /-- VCVT (R265). -/
  | vcvt (o : VWXB)
  /-- VQUANT (R266). -/
  | vquant (o : VQuantOps)
  /-- VIADD (R262). -/
  | viadd (o : VWXY)
  /-- VISUB (R262). -/
  | visub (o : VWXY)
  /-- VIMUL (R262). -/
  | vimul (o : VWXY)
  /-- VAND (R262). -/
  | vand (o : VWXY)
  /-- VOR (R262). -/
  | vor (o : VWXY)
  /-- VXOR (R262). -/
  | vxor (o : VWXY)
  /-- VSHL (R262). -/
  | vshl (o : VWXY)
  /-- VSHR (R262). -/
  | vshr (o : VWXY)
  /-- VSHA (R262). -/
  | vsha (o : VWXY)
  /-- VCMP (R263). -/
  | vcmp (o : VCmpOps)
  /-- VICMP (R263). -/
  | vicmp (o : VCmpOps)
  /-- VSEL (R264). -/
  | vsel (o : VWXY)
  /-- VMLOG (R264). -/
  | vmlog (o : VMlogOps)
  /-- VMPOP (R264). -/
  | vmpop (o : VMdOps)
  /-- VMFIRST (R264). -/
  | vmfirst (o : VMdOps)
  /-- VRED (R274). -/
  | vred (o : VWXB)
  /-- VREDC (R274). -/
  | vredc (o : VWXB)
  /-- VSCAN (R275). -/
  | vscan (o : VWXB)
  /-- VPART (R276). -/
  | vpart (o : VWX)
  /-- VHIST (R277). -/
  | vhist (o : VWXB)
  /-- VORD (R278). -/
  | vord (o : VWXB)
  /-- VTRN (R279). -/
  | vtrn (o : VWX)
  /-- VPERM (R279). -/
  | vperm (o : VWXY)
  /-- VOSM (R280). -/
  | vosm (o : VOsmOps)
  /-- VFMA (R260). -/
  | vfma (o : VFmaOps)
  /-- TTCLR (R289). -/
  | ttclr (o : TA)
  /-- TTNEW (R289). -/
  | ttnew (o : TDAB)
  /-- TTADD (R289). -/
  | ttadd (o : TDAB)
  /-- TTLOAD (R290). -/
  | ttload (o : TDAB)
  /-- TTSTORE (R290). -/
  | ttstore (o : TAB)
  /-- TTMASK (R291). -/
  | ttmask (o : TMA)
  /-- TTPOS (R292). -/
  | ttpos (o : TWA)
  /-- TTDEPTH (R292). -/
  | ttdepth (o : TWAB)
  /-- TTPATH (R294). -/
  | ttpath (o : TWA)
  /-- TTPRUNE (R295). -/
  | ttprune (o : TWA)
  /-- TTSTAT (R293). -/
  | ttstat (o : TDA)
  /-- Event BART_WRITE (R140). -/
  | bartWrite
  /-- Event SLEEP_WAKE (R149). -/
  | sleepWake
  /-- Event WATCH_EVENT (R150). -/
  | watchEvent
  /-- Event WATCH_POLL (R150). -/
  | watchPoll
  /-- Event WATCH_TIMEOUT (R151). -/
  | watchTimeout
  /-- Event REMOTE_SEM_REQUEST (R135). -/
  | remoteSemRequest
  /-- Event REMOTE_SEM_ANSWER (R135). -/
  | remoteSemAnswer
  /-- Event REMOTE_SEM_RESEND (R135). -/
  | remoteSemResend
  /-- Event REMOTE_SEM_TIMEOUT (R135). -/
  | remoteSemTimeout
  /-- Event REMOTE_WITHDRAWAL (R136). -/
  | remoteWithdrawal
  /-- Event QUEUE_ENTRY_ARRIVAL (R207). -/
  | queueEntryArrival
  /-- Event CREDIT_RETURN (R206). -/
  | creditReturn
  /-- Event MESSAGE_ACK_TIMEOUT (R207). -/
  | messageAckTimeout
  /-- Event TIMED_RECV_DUE (R209). -/
  | timedRecvDue
  /-- Event LEG_READ (R322). -/
  | legRead
  /-- Event LEG_START (R323). -/
  | legStart
  /-- Event CONTROL_LEG (R323). -/
  | controlLeg
  /-- Event SOURCE_LEG_SEND (R328). -/
  | sourceLegSend
  /-- Event READY_NOTICE (R328). -/
  | readyNotice
  /-- Event GONE_ANSWER (R328). -/
  | goneAnswer
  /-- Event MULTICAST_CELL_ARRIVAL (R328). -/
  | multicastCellArrival
  /-- Event MULTICAST_SILENCE (R328). -/
  | multicastSilence
  /-- Event LEG_LAND (R325). -/
  | legLand
  /-- Event MARK_FIRE (R337). -/
  | markFire
  /-- Event SCHEDULER_DECISION (R344). -/
  | schedulerDecision
  /-- Event PACKET_DEADLINE (R347). -/
  | packetDeadline
  /-- Event BALANCER (R350). -/
  | balancer
  /-- Event RECORD_DISPATCH (R353). -/
  | recordDispatch
  /-- Event JOB_RETIRE (R343). -/
  | jobRetire
  /-- Event SWARM_RING_POLL (R354). -/
  | swarmRingPoll
  /-- Event BATCH_EMIT (R355). -/
  | batchEmit
  /-- Event AUDIT_CHECK_END (R308). -/
  | auditCheckEnd
  /-- Event COMMAND_START (R153). -/
  | commandStart
  /-- Event CELL_ARRIVAL (R169). -/
  | cellArrival
  /-- Event PROMISE_DUE (R170). -/
  | promiseDue
  /-- Event FREEZE_LIMIT (R170). -/
  | freezeLimit
  /-- Event COMMAND_COMPLETE (R154). -/
  | commandComplete
  /-- Event FOLLOW_ON_ARRIVAL (R237). -/
  | followOnArrival
  /-- Event LISTED_ITEM_FINISH (R180). -/
  | listedItemFinish
  /-- Event TOLERANT_RETRY (R184). -/
  | tolerantRetry
  /-- Event INCOMING_WRITE (R159). -/
  | incomingWrite
  /-- Event WLOAD_DISPATCH (R234). -/
  | wloadDispatch
  /-- Event WLOAD_FILL_END (R234). -/
  | wloadFillEnd
  /-- Event WFLIP_DISPATCH (R235). -/
  | wflipDispatch
  /-- Event MMUL_DISPATCH (R233). -/
  | mmulDispatch
  /-- Event MMUL_FINISH (R223). -/
  | mmulFinish
  /-- Event RESULT_LAND (R64). -/
  | resultLand
  /-- Event TRAP_ENTRY (R373). -/
  | trapEntry
  /-- Event ASYNC_TRAP_DELIVERY (R375). -/
  | asyncTrapDelivery
  /-- Event WATCHDOG_EXPIRY (R376). -/
  | watchdogExpiry
  /-- Event DOORBELL (R376). -/
  | doorbell
  /-- Event CORE_RETIRE (R317). -/
  | coreRetire
  /-- Event LQWIN (R408). -/
  | lqwin
  /-- Event HOST_MEM_READ (R405). -/
  | hostMemRead
  /-- Event HOST_MEM_WRITE (R405). -/
  | hostMemWrite
  /-- Event LINK_STATE_CHANGE (R396). -/
  | linkStateChange
  /-- Event MODULE_RESET (R409). -/
  | moduleReset
  /-- Event BOOTGO (R409). -/
  | bootgo
  /-- Event BOOT_VERIFY (R409). -/
  | bootVerify
  /-- Event SELF_TEST_DONE (R411). -/
  | selfTestDone
  /-- Event HELPER (R410). -/
  | helper
  /-- Event ENROL (R410). -/
  | enrol
  /-- Event ATTEST (R415). -/
  | attest
  /-- Event EVRING (R414). -/
  | evring
  /-- Event POWERCAP (R413). -/
  | powercap
  /-- Event HISTORY (R411). -/
  | history
  /-- Event UNKNOWN_COMMAND (R413). -/
  | unknownCommand
  /-- Event MAILBOX_DONE (R412). -/
  | mailboxDone
  /-- Event GO (R417). -/
  | go
  /-- Event REGISTER_WRITE (R407). -/
  | registerWrite
  /-- Event EVENT_POST (R414). -/
  | eventPost
  /-- Event FLIT_RECEIVE (R419). -/
  | flitReceive
  /-- Event NAK_RECEIVE (R419). -/
  | nakReceive
  /-- Event LINK_RETRAIN (R420). -/
  | linkRetrain
  /-- Event RETRAIN_END (R420). -/
  | retrainEnd
  /-- Event ROUTE_LOSS_TIMEOUT (R420). -/
  | routeLossTimeout
  /-- Event MODULE_JOIN (R418). -/
  | moduleJoin
  /-- Event MODULE_LEAVE (R210). -/
  | moduleLeave
  /-- Event PATROL_SCRUB (R397). -/
  | patrolScrub
  /-- Event LAYER_MAP_OUT (R398). -/
  | layerMapOut
  /-- Event STAGE_BANK_SPARE (R401). -/
  | stageBankSpare
  /-- Event BULK_BANK_SPARE (R402). -/
  | bulkBankSpare
  /-- Event ALERT_BACK_OFF (R403). -/
  | alertBackOff
  /-- Event THERMAL_STEP (R421). -/
  | thermalStep
  /-- Event THERMAL_TRIP (R421). -/
  | thermalTrip
  /-- Event POWER_CAP_STEP (R421). -/
  | powerCapStep
  /-- Event FAR_STORE_ACKNOWLEDGED (R119). -/
  | farStoreAcknowledged
  /-- Event TRANSLATION_WALK_END (R388). -/
  | translationWalkEnd
  /-- Event SPARE_ROW_COPIED (R401). -/
  | spareRowCopied
  /-- Event BANK_BLOCK_END (R403). -/
  | bankBlockEnd
  /-- Event MSIX_VECTOR_UNMASK (R310). -/
  | msixVectorUnmask
  deriving DecidableEq, Repr

/-- An event with its operands. -/
structure Event where
  i : Instr
  arg : EventArg
  deriving DecidableEq, Repr

end Sys2Proof
end

