-- ==== Sys2Proof/Config.lean ====
section
/-! DEFINITION. What an implementation fixes and the spec leaves open. Every constant here is opaque and has no body: a claim that
mentions one holds whatever its value is. The first argument of a free value is the counter `tick` of State, so that two
readings need not agree. -/

namespace Sys2Proof.Config

/-- An exposed-mode read of a scalar location before it is readable (R66): counter, location. Log entry 3. -/
opaque freeWord : Nat → Nat → Word

/-- An exposed-mode read of a predicate before it is readable (R66). Log entry 3. -/
opaque freeBool : Nat → Nat → Bool

/-- An exposed-mode read of a vector register before it is readable (R66). Log entry 3. -/
opaque freeImage : Nat → Nat → BitVec 131072

/-- An exposed-mode read of a mask before it is readable (R66). Log entry 3. -/
opaque freeMask : Nat → Nat → BitVec 4096

/-- A byte of an uncorrectable unit (R190), or of an extent whose arrangement is the part's own (R187, R302): counter, address. Log entries 4, 12, 13. -/
opaque freeByte : Nat → Nat → Byte

/-- How far a stream's load of another class finds the stores of the stream performed: those made at an earlier count (R102): counter. Log entry 8. -/
opaque foundBefore : Nat → Nat

/-- Whether a fetch finds the old word at an address written since the stream's last FENCE kall (R121): counter, address. Log entry 8. -/
opaque staleFetch : Nat → Nat → Bool

/-- The bytes of a cell held by another module, or of a tensor cell never stored (R187): counter, address. Log entries 6, 12. -/
opaque freeCell : Nat → Nat → BitVec 512

/-- The tag of such a cell. Log entries 6, 12. -/
opaque freeTag : Nat → Nat → BitVec 16

/-- Device cycles from the start of a command, FLD or leg to the arrival of its data (R6, R168). Log entry 7. -/
opaque fetchLatency : Nat → Nat

/-- Whether the acknowledgement, answer or link of another agent fails in a way only that agent decides: counter, what is asked. Log entry 6. -/
opaque outside : Nat → Nat → Bool

/-- Whether the host or a pool device answers a read of a 32-byte unit with an error or data-poison (R23, R396): counter, unit. Log entry 6. -/
opaque readFails : Nat → Nat → Bool

/-- Whether the memory controller corrects a unit on reading it (R395): counter, unit. Log entry 16. -/
opaque corrected : Nat → Nat → Bool

/-- Whether a walk uses a cached table entry rather than reading the table again (R388): counter, address. Log entry 37. -/
opaque walkCached : Nat → Nat → Bool

/-- Which of several items of a list that may come next the copy engine performs (R179): counter. Log entry 7. -/
opaque itemOrder : Nat → Nat

/-- SHA-256 of a message of bytes (R409, R410): an external standard. Log entry 14. -/
opaque sha256 : List Byte → BitVec 256

/-- Validity of an SLH-DSA-SHA2-128s signature: public key, message, signature (R409). Log entry 14. -/
opaque slhDsaValid : BitVec 256 → List Byte → List Byte → Bool

/-- An SLH-DSA-SHA2-128s signature under the secret key derived from a seed (R415): counter, seed, message. Log entry 14. -/
opaque slhDsaSign : Nat → BitVec 256 → List Byte → List Byte

/-- The root-key hash held in the mask ROM (R409). Log entry 14. -/
opaque rootKeyHash : BitVec 256

/-- The identity seed from helper data, `none` when no seed can be derived (R410). Log entry 14. -/
opaque identityFrom : List Byte → Option (BitVec 256)

/-- New helper data from an enrolment, by counter (R410). Log entry 14. -/
opaque enrolData : Nat → List Byte

/-- The public key derived from a seed (R410). Log entry 14. -/
opaque publicKey : BitVec 256 → BitVec 256

/-- The repair history sealed under a key derived from the identity seed (R411): seed, the history accepted at boot, and the repairs made since, latest
first. Log entry 14. -/
opaque sealedHistory : BitVec 256 → List Byte → List EventRec → List Byte

/-- Whether a history's seal holds under the key derived from a seed (R411). Log entry 14. -/
opaque sealHolds : BitVec 256 → List Byte → Bool

/-- The repair map that self-test builds, in firmware's own encoding: counter, the history it accepted (R411, R415). Log entry 14. -/
opaque repairMap : Nat → List Byte → List Byte

/-- The repair map after one more repair in the field (R411). Log entry 14. -/
opaque mapAfter : List Byte → EventRec → List Byte

/-- The self-test's findings: healthy cores of die 0 and die 1, healthy Ikindi ports, the presence map (R411). Log entry 14. -/
opaque selfTestCounts : Nat → Word

/-- The presence map that self-test publishes (R411). Log entry 14. -/
opaque selfTestPresent : Nat → BitVec 192

/-- Spill base and limit that the loader writes for a stream (R106): image base, stage, stream number. No field of the image gives them. Log entry 17. -/
opaque spillArea : Nat → Nat → Nat → BitVec 16 × BitVec 16

/-- The kind of a suspended command that CTXLOAD restores: 0 GATHER, 1 SCATTER, 2 KVLIST; no field of the area gives it (R384). Log entry 18. -/
opaque restoredKind : Nat → Fin 3

/-- The pseudo-channel or channel and the bank, 256 x channel + bank, of its stack or package that a 32-byte unit of the part's own memory lies in, by
local unit number (R401, R402). Log entry 16. -/
opaque bankIn : Nat → BitVec 16

/-- The layer of its stack that a 32-byte stage unit lies in (R398). Log entry 16. -/
opaque layerIn : Nat → Fin 16

/-- What the patrol finds at an atom: 0 no error, 1 a correctable one, 2 an uncorrectable one (R397): counter, unit. Log entry 16. -/
opaque patrolFinds : Nat → Nat → Fin 3

/-- What firmware's test of a suspected core finds (R317): 0 nothing, 1 a failing macro column, 2 a failing core: counter, core. Log entry 53. -/
opaque coreTest : Nat → Nat → Fin 3

/-- Rows of a bank, less one (R401). Log entry 16. -/
opaque bankRows : Nat

/-- The port that carries traffic to a module, as firmware's route tables have it (R418): the set of ports that are up, module. Log entry 6. -/
opaque route : Nat → Nat → Fin 16

/-- The REQ field of a flit, whose layout is the part's own (Table 21-9): counter. Log entry 6. -/
opaque flitReq : Nat → BitVec 272

/-- The CRC-64 of a flit's bytes 0-247 (Table 21-9), whose polynomial the spec does not give. Log entry 6. -/
opaque crc64 : List Byte → BitVec 64

/-- The part of a request's ordered lane that its class, or the layout of its kind, decides (R419): counter, request number. Log entry 6. -/
opaque laneClass : Nat → Nat → Fin 8

/-- The hottest sensor of a die in degrees Celsius at a thermal step (R421): counter, die. Log entry 15. -/
opaque hottest : Nat → Nat → Int

/-- Whether the module's mean power over the last period is above the cap (R421). Log entry 15. -/
opaque overCap : Nat → Nat → Bool

/-- The new physical core that the record of a retirement names where no spare is left (R411): counter, logical core. Log entry 53. -/
opaque physicalCore : Nat → Nat → BitVec 16

/-- The order in which boot takes the physical cores of its dies (R15): counter, core as 256 x die + index. Log entry 53. -/
opaque coreRank : Nat → Nat → Nat

/-- Whether self-test found a physical core sound that it did not expose (R15): counter, core as 256 x die + index. Log entry 53. -/
opaque spareSound : Nat → Nat → Bool

/-- Which of the free spares of a die a retirement takes (R15): counter, logical core. Log entry 53. -/
opaque spareChoice : Nat → Nat → Nat

/-- The macro whose column a test of a core finds failing (R317): counter, core. Log entry 53. -/
opaque failingMacro : Nat → Nat → Fin 32

/-- The core, if any, that firmware tests upon a patrol finding (R317, R397): counter, atom; 192 and above none. Log entry 53. -/
opaque patrolSuspect : Nat → Nat → Nat

/-- The event record of a repair that no row of Table 21-15 describes (R411): counter. Log entry 53. -/
opaque repairRecord : Nat → BitVec 8 × BitVec 384

/-- The atom of its extent, by number, that holds the half of a stored cell of a tensor: first unit of the extent, 2 x cell + half (R187). Log entry 16. -/
opaque tileAtom : Nat → Nat → Nat

/-- Which of the layers still in use takes the row of a unit of a layer that is mapped out (R398): layer, unit. Log entry 16. -/
opaque rowAfter : Nat → Nat → Nat

/-- Whether layer map-out finds no room to move a handle (R398): counter, handle. Log entry 16. -/
opaque handleLost : Nat → Nat → Bool

/-- Whether a stage cell held by a failing layer or bank cannot be read (R398, R401): counter, address. Log entry 16. -/
opaque unreadable : Nat → Nat → Bool

/-- Whether a bank's refreshes are postponed to the maximum when an alert back-off arrives (R403). Log entry 16. -/
opaque postponed : Nat → Nat → Bool

end Sys2Proof.Config
end

