-- ==== Sys2Proof/WellFormed.lean ====
section
/-! DEFINITION. What makes an instruction well formed beyond the types of its operands: the literal ranges and reserved
combinations of Tables 3-3 and 6-5. An event has no operands of its own and is well formed. -/

namespace Sys2Proof

/-- BFX, BFI: position plus width must not exceed 64 (R90). -/
def bfFits (o : BfOps) : Bool := decide (o.o.val + o.w.val + 1 ≤ 64)

/-- FLD, FST: the scope field is reserved when the mark is absent (Table 3-3). -/
def scopeMarked (q : Bool) (c : Scope) : Bool := q || decide (c = .stream)

/-- Well-formedness. -/
def wellFormed : Instr → Bool
  | .add _ => true
  | .sub _ => true
  | .mul _ => true
  | .mulh _ => true
  | .mulhz _ => true
  | .div _ => true
  | .divz _ => true
  | .rem _ => true
  | .remz _ => true
  | .and _ => true
  | .or _ => true
  | .xor _ => true
  | .andn _ => true
  | .shl _ => true
  | .shr _ => true
  | .sha _ => true
  | .min _ => true
  | .max _ => true
  | .minz _ => true
  | .maxz _ => true
  | .adda _ => true
  | .clz _ => true
  | .ctz _ => true
  | .popc _ => true
  | .sext _ => true
  | .pick _ => true
  | .addi _ => true
  | .andi _ => true
  | .ori _ => true
  | .xori _ => true
  | .shli _ => true
  | .shri _ => true
  | .shai _ => true
  | .lil _ => true
  | .lih _ => true
  | .bfx o => bfFits o
  | .bfi o => bfFits o
  | .cmp _ => true
  | .cmpi _ => true
  | .plog _ => true
  | .sel _ => true
  | .br _ => true
  | .call _ => true
  | .jmp _ => true
  | .callr _ => true
  | .ret _ => true
  | .ndim _ => true
  | .nest _ => true
  | .lidx _ => true
  | .ld _ => true
  | .ldz o => decide (o.z.val ≠ 3)
  | .st _ => true
  | .ldn _ => true
  | .stn _ => true
  | .fld o => scopeMarked o.q o.c
  | .fst o => scopeMarked o.q o.c
  | .csrr _ => true
  | .csrw _ => true
  | .cyc _ => true
  | .nop _ => true
  | .trap _ => true
  | .fence o => decide (o.m ≠ 0)
  | .semsig _ => true
  | .semwait _ => true
  | .semtry _ => true
  | .semadd _ => true
  | .semcas _ => true
  | .semrd _ => true
  | .mtxlock _ => true
  | .mtxtry _ => true
  | .mtxfree _ => true
  | .bararr _ => true
  | .barwait _ => true
  | .rdv _ => true
  | .evset _ => true
  | .evclr _ => true
  | .evwait _ => true
  | .waitlt _ => true
  | .claim _ => true
  | .commit _ => true
  | .await _ => true
  | .retire _ => true
  | .sleepu _ => true
  | .waita _ => true
  | .mode _ => true
  | .tret _ => true
  | .ctxsave _ => true
  | .ctxload _ => true
  | .preempt _ => true
  | .semmap _ => true
  | .tlbinv _ => true
  | .tlbprobe _ => true
  | .hint _ => true
  | .halt _ => true
  | .wflush _ => true
  | .qcfg _ => true
  | .chmap _ => true
  | .send _ => true
  | .sends _ => true
  | .recv _ => true
  | .recvs _ => true
  | .peek _ => true
  | .qstat _ => true
  | .qfree _ => true
  | .mcast _ => true
  | .fgstart _ => true
  | .fgstop _ => true
  | .fgstat _ => true
  | .fglate _ => true
  | .fgwin _ => true
  | .fgpace _ => true
  | .fgmc _ => true
  | .fgmark _ => true
  | .launch _ => true
  | .post _ => true
  | .take _ => true
  | .yieldJob _ => true
  | .doneJob _ => true
  | .coord _ => true
  | .swcfg _ => true
  | .swtake _ => true
  | .stgq _ => true
  | .asamp _ => true
  | .amode _ => true
  | .athr _ => true
  | .aown _ => true
  | .aforce _ => true
  | .ahist _ => true
  | .aclr _ => true
  | .astat _ => true
  | .arel _ => true
  | .cset _ => true
  | .cseti _ => true
  | .cdim _ => true
  | .cldc _ => true
  | .cstc _ => true
  | .copy _ => true
  | .gather _ => true
  | .scatter _ => true
  | .cfill _ => true
  | .kvlist _ => true
  | .ttile _ => true
  | .cfollow _ => true
  | .tdef _ => true
  | .publish _ => true
  | .frmap _ => true
  | .cstat _ => true
  | .cbmap _ => true
  | .cresume _ => true
  | .ccancel _ => true
  | .cwait _ => true
  | .mcfg _ => true
  | .mrel _ => true
  | .wload _ => true
  | .wflip _ => true
  | .mmul _ => true
  | .mband _ => true
  | .mtag _ => true
  | .mswap _ => true
  | .mclr _ => true
  | .msave _ => true
  | .mrest _ => true
  | .mpace _ => true
  | .mdrain _ => true
  | .mstat _ => true
  | .vshape _ => true
  | .vld _ => true
  | .vst _ => true
  | .vldm _ => true
  | .vstm _ => true
  | .vgat _ => true
  | .vsct _ => true
  | .vsplat _ => true
  | .vmovs _ => true
  | .viota _ => true
  | .vaccr _ => true
  | .vaccw _ => true
  | .vadd _ => true
  | .vsub _ => true
  | .vmul _ => true
  | .vmax _ => true
  | .vmin _ => true
  | .vabs _ => true
  | .vneg _ => true
  | .vclamp _ => true
  | .vscale _ => true
  | .vrcp _ => true
  | .vrsq _ => true
  | .vexp _ => true
  | .vlog _ => true
  | .vcvt _ => true
  | .vquant _ => true
  | .viadd _ => true
  | .visub _ => true
  | .vimul _ => true
  | .vand _ => true
  | .vor _ => true
  | .vxor _ => true
  | .vshl _ => true
  | .vshr _ => true
  | .vsha _ => true
  | .vcmp _ => true
  | .vicmp _ => true
  | .vsel _ => true
  | .vmlog _ => true
  | .vmpop _ => true
  | .vmfirst _ => true
  | .vred _ => true
  | .vredc _ => true
  | .vscan _ => true
  | .vpart _ => true
  | .vhist _ => true
  | .vord _ => true
  | .vtrn _ => true
  | .vperm _ => true
  | .vosm _ => true
  | .vfma _ => true
  | .ttclr _ => true
  | .ttnew _ => true
  | .ttadd _ => true
  | .ttload _ => true
  | .ttstore _ => true
  | .ttmask _ => true
  | .ttpos _ => true
  | .ttdepth _ => true
  | .ttpath _ => true
  | .ttprune _ => true
  | .ttstat _ => true
  | .bartWrite => true
  | .sleepWake => true
  | .watchEvent => true
  | .watchPoll => true
  | .watchTimeout => true
  | .remoteSemRequest => true
  | .remoteSemAnswer => true
  | .remoteSemResend => true
  | .remoteSemTimeout => true
  | .remoteWithdrawal => true
  | .queueEntryArrival => true
  | .creditReturn => true
  | .messageAckTimeout => true
  | .timedRecvDue => true
  | .legRead => true
  | .legStart => true
  | .controlLeg => true
  | .sourceLegSend => true
  | .readyNotice => true
  | .goneAnswer => true
  | .multicastCellArrival => true
  | .multicastSilence => true
  | .legLand => true
  | .markFire => true
  | .schedulerDecision => true
  | .packetDeadline => true
  | .balancer => true
  | .recordDispatch => true
  | .jobRetire => true
  | .swarmRingPoll => true
  | .batchEmit => true
  | .auditCheckEnd => true
  | .commandStart => true
  | .cellArrival => true
  | .promiseDue => true
  | .freezeLimit => true
  | .commandComplete => true
  | .followOnArrival => true
  | .listedItemFinish => true
  | .tolerantRetry => true
  | .incomingWrite => true
  | .wloadDispatch => true
  | .wloadFillEnd => true
  | .wflipDispatch => true
  | .mmulDispatch => true
  | .mmulFinish => true
  | .resultLand => true
  | .trapEntry => true
  | .asyncTrapDelivery => true
  | .watchdogExpiry => true
  | .doorbell => true
  | .coreRetire => true
  | .lqwin => true
  | .hostMemRead => true
  | .hostMemWrite => true
  | .linkStateChange => true
  | .moduleReset => true
  | .bootgo => true
  | .bootVerify => true
  | .selfTestDone => true
  | .helper => true
  | .enrol => true
  | .attest => true
  | .evring => true
  | .powercap => true
  | .history => true
  | .unknownCommand => true
  | .mailboxDone => true
  | .go => true
  | .registerWrite => true
  | .eventPost => true
  | .flitReceive => true
  | .nakReceive => true
  | .linkRetrain => true
  | .retrainEnd => true
  | .routeLossTimeout => true
  | .moduleJoin => true
  | .moduleLeave => true
  | .patrolScrub => true
  | .layerMapOut => true
  | .stageBankSpare => true
  | .bulkBankSpare => true
  | .alertBackOff => true
  | .thermalStep => true
  | .thermalTrip => true
  | .powerCapStep => true
  | .farStoreAcknowledged => true
  | .translationWalkEnd => true
  | .spareRowCopied => true
  | .bankBlockEnd => true
  | .msixVectorUnmask => true

end Sys2Proof
end

