-- ==== Sys2Proof/Decode.lean ====
section
/-! DEFINITION. The decoder: total on any word, rejecting by the failing check of Table 3-5; after it the encoder,
written from the same encoding tables. -/

namespace Sys2Proof

/-- Bits [lo + n - 1 : lo] of a number. -/
def fld (w lo n : Nat) : Nat := w / 2 ^ lo % 2 ^ n

/-- Bit [lo] of a number. -/
def flag (w lo : Nat) : Bool := fld w lo 1 == 1

/-- Why a word is an illegal encoding: checks 1 to 4 of Table 3-5 (R61). -/
inductive DecodeError where
  | unassignedMajor
  | unassignedFunction
  | reservedField
  | reservedOperand
  deriving DecidableEq, Repr

/-- The number of the failing check, as the illegal-encoding record reports it (R61). -/
def checkNumber : DecodeError → Nat
  | .unassignedMajor => 1
  | .unassignedFunction => 2
  | .reservedField => 3
  | .reservedOperand => 4

/-! ### Operand codes (R54, R55, R57) -/

/-- A scalar source code (R54); in a 6-bit field bit [5] is zero (R55). -/
def ssrc (x : Nat) : Except DecodeError SSrc :=
  if h : x < 16 then .ok (.q ⟨x, h⟩)
  else if h : x - 16 < 16 then .ok (.n ⟨x - 16, h⟩)
  else .error .reservedOperand

/-- A scalar destination code: 0 pushes, 16-31 name n0-n15, 1-15 are reserved (R54). -/
def sdst (x : Nat) : Except DecodeError SDst :=
  if x = 0 then .ok .push
  else if x < 16 then .error .reservedOperand
  else if h : x - 16 < 16 then .ok (.n ⟨x - 16, h⟩)
  else .error .reservedOperand

/-- A vector source code (Table 3-2). -/
def vsrc (x : Nat) : Except DecodeError VSrc :=
  if h : x < 16 then .ok (.q ⟨x, h⟩)
  else if h : x - 16 < 24 then .ok (.v ⟨x - 16, h⟩)
  else if x = 40 then .ok .zero
  else if x = 41 then .ok .lane
  else .error .reservedOperand

/-- A vector destination code (Table 3-2). -/
def vdst (x : Nat) : Except DecodeError VDst :=
  if x = 0 then .ok .push
  else if x < 16 then .error .reservedOperand
  else if h : x - 16 < 24 then .ok (.v ⟨x - 16, h⟩)
  else .error .reservedOperand

/-- A literal below `n` (check 4: a literal out of its stated range). -/
def lit (n x : Nat) : Except DecodeError (Fin n) :=
  if h : x < n then .ok ⟨x, h⟩ else .error .reservedOperand

/-- An even code `base + 2j` with `j < n`: the mask pairs of VCMP and VICMP, the register pairs of VOSM. -/
def even (n base x : Nat) : Except DecodeError (Fin n) :=
  if x < base ∨ x % 2 = 1 then .error .reservedOperand else lit n ((x - base) / 2)

/-- A scope code (R57). -/
def scope (x : Nat) : Except DecodeError Scope :=
  match x with
  | 0 => .ok .stream
  | 1 => .ok .core
  | 2 => .ok .cluster
  | 3 => .ok .die
  | 4 => .ok .device
  | 5 => .ok .domain
  | 6 => .ok .system
  | _ => .error .reservedOperand

/-- The code of a scalar source. -/
def ssrcCode : SSrc → Nat
  | .q i => i.val
  | .n i => 16 + i.val

/-- The code of a scalar destination. -/
def sdstCode : SDst → Nat
  | .push => 0
  | .n i => 16 + i.val

/-- The code of a vector source. -/
def vsrcCode : VSrc → Nat
  | .q i => i.val
  | .v i => 16 + i.val
  | .zero => 40
  | .lane => 41

/-- The code of a vector destination. -/
def vdstCode : VDst → Nat
  | .push => 0
  | .v i => 16 + i.val

/-- The code of a scope. -/
def scopeCode : Scope → Nat
  | .stream => 0
  | .core => 1
  | .cluster => 2
  | .die => 3
  | .device => 4
  | .domain => 5
  | .system => 6

/-- Check 3: every listed field `(lo, width)` is zero, else a reserved field is nonzero. -/
def whenZero {α : Type} (w : Nat) (fs : List (Nat × Nat)) (x : Except DecodeError α) : Except DecodeError α :=
  if fs.all (fun f => fld w f.1 f.2 == 0) then x else .error .reservedField

/-- A function code that is assigned in the ctl section only (R59). -/
def inCtl {α : Type} (sec : Sec) (x : Except DecodeError α) : Except DecodeError α :=
  if sec = .ctl then x else .error .unassignedFunction

/-! ### Operand structures read from a word, and their fields put back into one -/

/-- Reads the fields of `DABP` (check 4 of R61 on operand codes). -/
def getDABP (w : Nat) : Except DecodeError DABP :=
  do
  let d' ← sdst (fld w 20 5)
  let a' ← ssrc (fld w 15 5)
  let b' ← ssrc (fld w 10 5)
  let p' ← lit 16 (fld w 6 4)
  pure { s := flag w 31, d := d', a := a', b := b', p := p' }

/-- The bits that the fields of `DABP` put into a word. -/
def putDABP (o : DABP) : Nat :=
  (if o.s then 1 else 0) * 2 ^ 31 + sdstCode o.d * 2 ^ 20 + ssrcCode o.a * 2 ^ 15 + ssrcCode o.b * 2 ^ 10 + o.p.val * 2 ^ 6

/-- Reads the fields of `DAP` (check 4 of R61 on operand codes). -/
def getDAP (w : Nat) : Except DecodeError DAP :=
  do
  let d' ← sdst (fld w 20 5)
  let a' ← ssrc (fld w 15 5)
  let p' ← lit 16 (fld w 6 4)
  pure { s := flag w 31, d := d', a := a', p := p' }

/-- The bits that the fields of `DAP` put into a word. -/
def putDAP (o : DAP) : Nat :=
  (if o.s then 1 else 0) * 2 ^ 31 + sdstCode o.d * 2 ^ 20 + ssrcCode o.a * 2 ^ 15 + o.p.val * 2 ^ 6

/-- Reads the fields of `DP` (check 4 of R61 on operand codes). -/
def getDP (w : Nat) : Except DecodeError DP :=
  do
  let d' ← sdst (fld w 20 5)
  let p' ← lit 16 (fld w 6 4)
  pure { s := flag w 31, d := d', p := p' }

/-- The bits that the fields of `DP` put into a word. -/
def putDP (o : DP) : Nat :=
  (if o.s then 1 else 0) * 2 ^ 31 + sdstCode o.d * 2 ^ 20 + o.p.val * 2 ^ 6

/-- Reads the fields of `ABP` (check 4 of R61 on operand codes). -/
def getABP (w : Nat) : Except DecodeError ABP :=
  do
  let a' ← ssrc (fld w 15 5)
  let b' ← ssrc (fld w 10 5)
  let p' ← lit 16 (fld w 6 4)
  pure { s := flag w 31, a := a', b := b', p := p' }

/-- The bits that the fields of `ABP` put into a word. -/
def putABP (o : ABP) : Nat :=
  (if o.s then 1 else 0) * 2 ^ 31 + ssrcCode o.a * 2 ^ 15 + ssrcCode o.b * 2 ^ 10 + o.p.val * 2 ^ 6

/-- Reads the fields of `AP` (check 4 of R61 on operand codes). -/
def getAP (w : Nat) : Except DecodeError AP :=
  do
  let a' ← ssrc (fld w 15 5)
  let p' ← lit 16 (fld w 6 4)
  pure { s := flag w 31, a := a', p := p' }

/-- The bits that the fields of `AP` put into a word. -/
def putAP (o : AP) : Nat :=
  (if o.s then 1 else 0) * 2 ^ 31 + ssrcCode o.a * 2 ^ 15 + o.p.val * 2 ^ 6

/-- Reads the fields of `GP` (check 4 of R61 on operand codes). -/
def getGP (w : Nat) : Except DecodeError GP :=
  do
  let p' ← lit 16 (fld w 6 4)
  pure { s := flag w 31, p := p' }

/-- The bits that the fields of `GP` put into a word. -/
def putGP (o : GP) : Nat :=
  (if o.s then 1 else 0) * 2 ^ 31 + o.p.val * 2 ^ 6

/-- Reads the fields of `CmpOps` (check 4 of R61 on operand codes). -/
def getCmpOps (w : Nat) : Except DecodeError CmpOps :=
  do
  let pd' ← lit 16 (fld w 20 4)
  let a' ← ssrc (fld w 15 5)
  let b' ← ssrc (fld w 10 5)
  let p' ← lit 16 (fld w 6 4)
  let c' ← lit 6 (fld w 0 6)
  pure { s := flag w 31, pd := pd', a := a', b := b', p := p', c := c' }

/-- The bits that the fields of `CmpOps` put into a word. -/
def putCmpOps (o : CmpOps) : Nat :=
  (if o.s then 1 else 0) * 2 ^ 31 + o.pd.val * 2 ^ 20 + ssrcCode o.a * 2 ^ 15 + ssrcCode o.b * 2 ^ 10 + o.p.val * 2 ^ 6 + o.c.val * 2 ^ 0

/-- Reads the fields of `PlogOps` (check 4 of R61 on operand codes). -/
def getPlogOps (w : Nat) : Except DecodeError PlogOps :=
  do
  let pd' ← lit 16 (fld w 20 5)
  let pa' ← lit 16 (fld w 15 5)
  let pb' ← lit 16 (fld w 10 5)
  let p' ← lit 16 (fld w 6 4)
  pure { s := flag w 31, pd := pd', pa := pa', pb := pb', p := p', t := BitVec.ofNat 4 (fld w 0 4) }

/-- The bits that the fields of `PlogOps` put into a word. -/
def putPlogOps (o : PlogOps) : Nat :=
  (if o.s then 1 else 0) * 2 ^ 31 + o.pd.val * 2 ^ 20 + o.pa.val * 2 ^ 15 + o.pb.val * 2 ^ 10 + o.p.val * 2 ^ 6 + o.t.toNat * 2 ^ 0

/-- Reads the fields of `SelOps` (check 4 of R61 on operand codes). -/
def getSelOps (w : Nat) : Except DecodeError SelOps :=
  do
  let d' ← sdst (fld w 20 5)
  let a' ← ssrc (fld w 15 5)
  let b' ← ssrc (fld w 10 5)
  let p' ← lit 16 (fld w 6 4)
  let t' ← lit 16 (fld w 0 4)
  pure { s := flag w 31, d := d', a := a', b := b', p := p', t := t' }

/-- The bits that the fields of `SelOps` put into a word. -/
def putSelOps (o : SelOps) : Nat :=
  (if o.s then 1 else 0) * 2 ^ 31 + sdstCode o.d * 2 ^ 20 + ssrcCode o.a * 2 ^ 15 + ssrcCode o.b * 2 ^ 10 + o.p.val * 2 ^ 6 + o.t.val * 2 ^ 0

/-- Reads the fields of `TrapOps` (check 4 of R61 on operand codes). -/
def getTrapOps (w : Nat) : Except DecodeError TrapOps :=
  do
  let n' ← lit 32 (fld w 10 5)
  let p' ← lit 16 (fld w 6 4)
  pure { s := flag w 31, n := n', p := p' }

/-- The bits that the fields of `TrapOps` put into a word. -/
def putTrapOps (o : TrapOps) : Nat :=
  (if o.s then 1 else 0) * 2 ^ 31 + o.n.val * 2 ^ 10 + o.p.val * 2 ^ 6

/-- Reads the fields of `ModeOps` (check 4 of R61 on operand codes). -/
def getModeOps (w : Nat) : Except DecodeError ModeOps :=
  do
  let p' ← lit 16 (fld w 6 4)
  pure { s := flag w 31, l := flag w 10, p := p' }

/-- The bits that the fields of `ModeOps` put into a word. -/
def putModeOps (o : ModeOps) : Nat :=
  (if o.s then 1 else 0) * 2 ^ 31 + (if o.l then 1 else 0) * 2 ^ 10 + o.p.val * 2 ^ 6

/-- Reads the fields of `DAI` (check 4 of R61 on operand codes). -/
def getDAI (w : Nat) : Except DecodeError DAI :=
  do
  let d' ← sdst (fld w 20 5)
  let a' ← ssrc (fld w 15 5)
  let p' ← lit 16 (fld w 11 4)
  pure { s := flag w 31, d := d', a := a', p := p', i := BitVec.ofNat 11 (fld w 0 11) }

/-- The bits that the fields of `DAI` put into a word. -/
def putDAI (o : DAI) : Nat :=
  (if o.s then 1 else 0) * 2 ^ 31 + sdstCode o.d * 2 ^ 20 + ssrcCode o.a * 2 ^ 15 + o.p.val * 2 ^ 11 + o.i.toNat * 2 ^ 0

/-- Reads the fields of `DAH` (check 4 of R61 on operand codes). -/
def getDAH (w : Nat) : Except DecodeError DAH :=
  do
  let d' ← sdst (fld w 20 5)
  let a' ← ssrc (fld w 15 5)
  let p' ← lit 16 (fld w 11 4)
  let h' ← lit 64 (fld w 0 6)
  pure { s := flag w 31, d := d', a := a', p := p', h := h' }

/-- The bits that the fields of `DAH` put into a word. -/
def putDAH (o : DAH) : Nat :=
  (if o.s then 1 else 0) * 2 ^ 31 + sdstCode o.d * 2 ^ 20 + ssrcCode o.a * 2 ^ 15 + o.p.val * 2 ^ 11 + o.h.val * 2 ^ 0

/-- Reads the fields of `BfOps` (check 4 of R61 on operand codes). -/
def getBfOps (w : Nat) : Except DecodeError BfOps :=
  do
  let d' ← sdst (fld w 20 5)
  let a' ← ssrc (fld w 15 5)
  let p' ← lit 16 (fld w 11 4)
  let o' ← lit 64 (fld w 5 6)
  let w' ← lit 32 (fld w 0 5)
  pure { s := flag w 31, d := d', a := a', p := p', o := o', w := w' }

/-- The bits that the fields of `BfOps` put into a word. -/
def putBfOps (o : BfOps) : Nat :=
  (if o.s then 1 else 0) * 2 ^ 31 + sdstCode o.d * 2 ^ 20 + ssrcCode o.a * 2 ^ 15 + o.p.val * 2 ^ 11 + o.o.val * 2 ^ 5 + o.w.val * 2 ^ 0

/-- Reads the fields of `CmpiOps` (check 4 of R61 on operand codes). -/
def getCmpiOps (w : Nat) : Except DecodeError CmpiOps :=
  do
  let pd' ← lit 16 (fld w 20 4)
  let a' ← ssrc (fld w 15 5)
  let p' ← lit 16 (fld w 11 4)
  let c' ← lit 6 (fld w 8 3)
  pure { s := flag w 31, pd := pd', a := a', p := p', c := c', i := BitVec.ofNat 8 (fld w 0 8) }

/-- The bits that the fields of `CmpiOps` put into a word. -/
def putCmpiOps (o : CmpiOps) : Nat :=
  (if o.s then 1 else 0) * 2 ^ 31 + o.pd.val * 2 ^ 20 + ssrcCode o.a * 2 ^ 15 + o.p.val * 2 ^ 11 + o.c.val * 2 ^ 8 + o.i.toNat * 2 ^ 0

/-- Reads the fields of `DI` (check 4 of R61 on operand codes). -/
def getDI (w : Nat) : Except DecodeError DI :=
  do
  let d' ← sdst (fld w 20 5)
  pure { s := flag w 31, d := d', i := BitVec.ofNat 20 (fld w 0 20) }

/-- The bits that the fields of `DI` put into a word. -/
def putDI (o : DI) : Nat :=
  (if o.s then 1 else 0) * 2 ^ 31 + sdstCode o.d * 2 ^ 20 + o.i.toNat * 2 ^ 0

/-- Reads the fields of `FenceOps` (check 4 of R61 on operand codes). -/
def getFenceOps (w : Nat) : Except DecodeError FenceOps :=
  do
  let c' ← scope (fld w 1 3)
  pure { s := flag w 31, m := BitVec.ofNat 16 (fld w 4 16), c := c' }

/-- The bits that the fields of `FenceOps` put into a word. -/
def putFenceOps (o : FenceOps) : Nat :=
  (if o.s then 1 else 0) * 2 ^ 31 + o.m.toNat * 2 ^ 4 + scopeCode o.c * 2 ^ 1

/-- Reads the fields of `BOps` (check 4 of R61 on operand codes). -/
def getBOps (w : Nat) : Except DecodeError BOps :=
  do
  let p' ← lit 16 (fld w 21 4)
  pure { s := flag w 31, p := p', n := flag w 20, o := BitVec.ofNat 20 (fld w 0 20) }

/-- The bits that the fields of `BOps` put into a word. -/
def putBOps (o : BOps) : Nat :=
  (if o.s then 1 else 0) * 2 ^ 31 + o.p.val * 2 ^ 21 + (if o.n then 1 else 0) * 2 ^ 20 + o.o.toNat * 2 ^ 0

/-- Reads the fields of `NdimOps` (check 4 of R61 on operand codes). -/
def getNdimOps (w : Nat) : Except DecodeError NdimOps :=
  do
  let a' ← ssrc (fld w 15 5)
  let l' ← lit 6 (fld w 0 3)
  pure { s := flag w 31, a := a', l := l' }

/-- The bits that the fields of `NdimOps` put into a word. -/
def putNdimOps (o : NdimOps) : Nat :=
  (if o.s then 1 else 0) * 2 ^ 31 + ssrcCode o.a * 2 ^ 15 + o.l.val * 2 ^ 0

/-- Reads the fields of `NestOps` (check 4 of R61 on operand codes). -/
def getNestOps (w : Nat) : Except DecodeError NestOps :=
  do
  let w' ← lit 64 (fld w 0 6)
  pure { s := flag w 31, w := w' }

/-- The bits that the fields of `NestOps` put into a word. -/
def putNestOps (o : NestOps) : Nat :=
  (if o.s then 1 else 0) * 2 ^ 31 + o.w.val * 2 ^ 0

/-- Reads the fields of `LidxOps` (check 4 of R61 on operand codes). -/
def getLidxOps (w : Nat) : Except DecodeError LidxOps :=
  do
  let d' ← sdst (fld w 20 5)
  let p' ← lit 16 (fld w 11 4)
  let l' ← lit 6 (fld w 0 3)
  pure { s := flag w 31, d := d', p := p', l := l' }

/-- The bits that the fields of `LidxOps` put into a word. -/
def putLidxOps (o : LidxOps) : Nat :=
  (if o.s then 1 else 0) * 2 ^ 31 + sdstCode o.d * 2 ^ 20 + o.p.val * 2 ^ 11 + o.l.val * 2 ^ 0

/-- Reads the fields of `LdOps` (check 4 of R61 on operand codes). -/
def getLdOps (w : Nat) : Except DecodeError LdOps :=
  do
  let d' ← sdst (fld w 20 5)
  let b' ← ssrc (fld w 15 5)
  let k' ← lit 16 (fld w 11 4)
  let z' ← lit 4 (fld w 9 2)
  pure { s := flag w 31, d := d', b := b', k := k', z := z', o := BitVec.ofNat 9 (fld w 0 9) }

/-- The bits that the fields of `LdOps` put into a word. -/
def putLdOps (o : LdOps) : Nat :=
  (if o.s then 1 else 0) * 2 ^ 31 + sdstCode o.d * 2 ^ 20 + ssrcCode o.b * 2 ^ 15 + o.k.val * 2 ^ 11 + o.z.val * 2 ^ 9 + o.o.toNat * 2 ^ 0

/-- Reads the fields of `StOps` (check 4 of R61 on operand codes). -/
def getStOps (w : Nat) : Except DecodeError StOps :=
  do
  let x' ← ssrc (fld w 20 5)
  let b' ← ssrc (fld w 15 5)
  let k' ← lit 16 (fld w 11 4)
  let z' ← lit 4 (fld w 9 2)
  pure { s := flag w 31, x := x', b := b', k := k', z := z', o := BitVec.ofNat 9 (fld w 0 9) }

/-- The bits that the fields of `StOps` put into a word. -/
def putStOps (o : StOps) : Nat :=
  (if o.s then 1 else 0) * 2 ^ 31 + ssrcCode o.x * 2 ^ 20 + ssrcCode o.b * 2 ^ 15 + o.k.val * 2 ^ 11 + o.z.val * 2 ^ 9 + o.o.toNat * 2 ^ 0

/-- Reads the fields of `LdnOps` (check 4 of R61 on operand codes). -/
def getLdnOps (w : Nat) : Except DecodeError LdnOps :=
  do
  let d' ← sdst (fld w 20 5)
  let b' ← ssrc (fld w 15 5)
  let k' ← lit 16 (fld w 11 4)
  pure { s := flag w 31, d := d', b := b', k := k', o := BitVec.ofNat 9 (fld w 0 9) }

/-- The bits that the fields of `LdnOps` put into a word. -/
def putLdnOps (o : LdnOps) : Nat :=
  (if o.s then 1 else 0) * 2 ^ 31 + sdstCode o.d * 2 ^ 20 + ssrcCode o.b * 2 ^ 15 + o.k.val * 2 ^ 11 + o.o.toNat * 2 ^ 0

/-- Reads the fields of `StnOps` (check 4 of R61 on operand codes). -/
def getStnOps (w : Nat) : Except DecodeError StnOps :=
  do
  let x' ← ssrc (fld w 20 5)
  let b' ← ssrc (fld w 15 5)
  let k' ← lit 16 (fld w 11 4)
  pure { s := flag w 31, x := x', b := b', k := k', o := BitVec.ofNat 9 (fld w 0 9) }

/-- The bits that the fields of `StnOps` put into a word. -/
def putStnOps (o : StnOps) : Nat :=
  (if o.s then 1 else 0) * 2 ^ 31 + ssrcCode o.x * 2 ^ 20 + ssrcCode o.b * 2 ^ 15 + o.k.val * 2 ^ 11 + o.o.toNat * 2 ^ 0

/-- Reads the fields of `FldOps` (check 4 of R61 on operand codes). -/
def getFldOps (w : Nat) : Except DecodeError FldOps :=
  do
  let d' ← sdst (fld w 20 5)
  let b' ← ssrc (fld w 15 5)
  let k' ← lit 16 (fld w 11 4)
  let z' ← lit 4 (fld w 9 2)
  let c' ← scope (fld w 5 3)
  pure { s := flag w 31, d := d', b := b', k := k', z := z', q := flag w 8, c := c', o := BitVec.ofNat 5 (fld w 0 5) }

/-- The bits that the fields of `FldOps` put into a word. -/
def putFldOps (o : FldOps) : Nat :=
  (if o.s then 1 else 0) * 2 ^ 31 + sdstCode o.d * 2 ^ 20 + ssrcCode o.b * 2 ^ 15 + o.k.val * 2 ^ 11 + o.z.val * 2 ^ 9 + (if o.q then 1 else 0) * 2 ^ 8 + scopeCode o.c * 2 ^ 5 + o.o.toNat * 2 ^ 0

/-- Reads the fields of `FstOps` (check 4 of R61 on operand codes). -/
def getFstOps (w : Nat) : Except DecodeError FstOps :=
  do
  let x' ← ssrc (fld w 20 5)
  let b' ← ssrc (fld w 15 5)
  let k' ← lit 16 (fld w 11 4)
  let z' ← lit 4 (fld w 9 2)
  let c' ← scope (fld w 5 3)
  pure { s := flag w 31, x := x', b := b', k := k', z := z', q := flag w 8, c := c', o := BitVec.ofNat 5 (fld w 0 5) }

/-- The bits that the fields of `FstOps` put into a word. -/
def putFstOps (o : FstOps) : Nat :=
  (if o.s then 1 else 0) * 2 ^ 31 + ssrcCode o.x * 2 ^ 20 + ssrcCode o.b * 2 ^ 15 + o.k.val * 2 ^ 11 + o.z.val * 2 ^ 9 + (if o.q then 1 else 0) * 2 ^ 8 + scopeCode o.c * 2 ^ 5 + o.o.toNat * 2 ^ 0

/-- Reads the fields of `CsrrOps` (check 4 of R61 on operand codes). -/
def getCsrrOps (w : Nat) : Except DecodeError CsrrOps :=
  do
  let d' ← sdst (fld w 20 5)
  let p' ← lit 16 (fld w 11 4)
  let c' ← lit 1024 (fld w 0 10)
  pure { s := flag w 31, d := d', p := p', c := c' }

/-- The bits that the fields of `CsrrOps` put into a word. -/
def putCsrrOps (o : CsrrOps) : Nat :=
  (if o.s then 1 else 0) * 2 ^ 31 + sdstCode o.d * 2 ^ 20 + o.p.val * 2 ^ 11 + o.c.val * 2 ^ 0

/-- Reads the fields of `CsrwOps` (check 4 of R61 on operand codes). -/
def getCsrwOps (w : Nat) : Except DecodeError CsrwOps :=
  do
  let a' ← ssrc (fld w 15 5)
  let p' ← lit 16 (fld w 11 4)
  let c' ← lit 1024 (fld w 0 10)
  pure { s := flag w 31, a := a', p := p', c := c' }

/-- The bits that the fields of `CsrwOps` put into a word. -/
def putCsrwOps (o : CsrwOps) : Nat :=
  (if o.s then 1 else 0) * 2 ^ 31 + ssrcCode o.a * 2 ^ 15 + o.p.val * 2 ^ 11 + o.c.val * 2 ^ 0

/-- Reads the fields of `YABsk` (check 4 of R61 on operand codes). -/
def getYABsk (w : Nat) : Except DecodeError YABsk :=
  do
  let a' ← ssrc (fld w 15 5)
  let b' ← ssrc (fld w 10 5)
  let c' ← scope (fld w 7 3)
  let k' ← lit 16 (fld w 3 4)
  pure { s := flag w 31, a := a', b := b', c := c', k := k' }

/-- The bits that the fields of `YABsk` put into a word. -/
def putYABsk (o : YABsk) : Nat :=
  (if o.s then 1 else 0) * 2 ^ 31 + ssrcCode o.a * 2 ^ 15 + ssrcCode o.b * 2 ^ 10 + scopeCode o.c * 2 ^ 7 + o.k.val * 2 ^ 3

/-- Reads the fields of `YDABsk` (check 4 of R61 on operand codes). -/
def getYDABsk (w : Nat) : Except DecodeError YDABsk :=
  do
  let d' ← sdst (fld w 20 5)
  let a' ← ssrc (fld w 15 5)
  let b' ← ssrc (fld w 10 5)
  let c' ← scope (fld w 7 3)
  let k' ← lit 16 (fld w 3 4)
  pure { s := flag w 31, d := d', a := a', b := b', c := c', k := k' }

/-- The bits that the fields of `YDABsk` put into a word. -/
def putYDABsk (o : YDABsk) : Nat :=
  (if o.s then 1 else 0) * 2 ^ 31 + sdstCode o.d * 2 ^ 20 + ssrcCode o.a * 2 ^ 15 + ssrcCode o.b * 2 ^ 10 + scopeCode o.c * 2 ^ 7 + o.k.val * 2 ^ 3

/-- Reads the fields of `YDAsk` (check 4 of R61 on operand codes). -/
def getYDAsk (w : Nat) : Except DecodeError YDAsk :=
  do
  let d' ← sdst (fld w 20 5)
  let a' ← ssrc (fld w 15 5)
  let c' ← scope (fld w 7 3)
  let k' ← lit 16 (fld w 3 4)
  pure { s := flag w 31, d := d', a := a', c := c', k := k' }

/-- The bits that the fields of `YDAsk` put into a word. -/
def putYDAsk (o : YDAsk) : Nat :=
  (if o.s then 1 else 0) * 2 ^ 31 + sdstCode o.d * 2 ^ 20 + ssrcCode o.a * 2 ^ 15 + scopeCode o.c * 2 ^ 7 + o.k.val * 2 ^ 3

/-- Reads the fields of `YAsk` (check 4 of R61 on operand codes). -/
def getYAsk (w : Nat) : Except DecodeError YAsk :=
  do
  let a' ← ssrc (fld w 15 5)
  let c' ← scope (fld w 7 3)
  let k' ← lit 16 (fld w 3 4)
  pure { s := flag w 31, a := a', c := c', k := k' }

/-- The bits that the fields of `YAsk` put into a word. -/
def putYAsk (o : YAsk) : Nat :=
  (if o.s then 1 else 0) * 2 ^ 31 + ssrcCode o.a * 2 ^ 15 + scopeCode o.c * 2 ^ 7 + o.k.val * 2 ^ 3

/-- Reads the fields of `YAk` (check 4 of R61 on operand codes). -/
def getYAk (w : Nat) : Except DecodeError YAk :=
  do
  let a' ← ssrc (fld w 15 5)
  let k' ← lit 16 (fld w 3 4)
  pure { s := flag w 31, a := a', k := k' }

/-- The bits that the fields of `YAk` put into a word. -/
def putYAk (o : YAk) : Nat :=
  (if o.s then 1 else 0) * 2 ^ 31 + ssrcCode o.a * 2 ^ 15 + o.k.val * 2 ^ 3

/-- Reads the fields of `YA` (check 4 of R61 on operand codes). -/
def getYA (w : Nat) : Except DecodeError YA :=
  do
  let a' ← ssrc (fld w 15 5)
  pure { s := flag w 31, a := a' }

/-- The bits that the fields of `YA` put into a word. -/
def putYA (o : YA) : Nat :=
  (if o.s then 1 else 0) * 2 ^ 31 + ssrcCode o.a * 2 ^ 15

/-- Reads the fields of `YABk` (check 4 of R61 on operand codes). -/
def getYABk (w : Nat) : Except DecodeError YABk :=
  do
  let a' ← ssrc (fld w 15 5)
  let b' ← ssrc (fld w 10 5)
  let k' ← lit 16 (fld w 3 4)
  pure { s := flag w 31, a := a', b := b', k := k' }

/-- The bits that the fields of `YABk` put into a word. -/
def putYABk (o : YABk) : Nat :=
  (if o.s then 1 else 0) * 2 ^ 31 + ssrcCode o.a * 2 ^ 15 + ssrcCode o.b * 2 ^ 10 + o.k.val * 2 ^ 3

/-- Reads the fields of `YAB` (check 4 of R61 on operand codes). -/
def getYAB (w : Nat) : Except DecodeError YAB :=
  do
  let a' ← ssrc (fld w 15 5)
  let b' ← ssrc (fld w 10 5)
  pure { s := flag w 31, a := a', b := b' }

/-- The bits that the fields of `YAB` put into a word. -/
def putYAB (o : YAB) : Nat :=
  (if o.s then 1 else 0) * 2 ^ 31 + ssrcCode o.a * 2 ^ 15 + ssrcCode o.b * 2 ^ 10

/-- Reads the fields of `YDAB` (check 4 of R61 on operand codes). -/
def getYDAB (w : Nat) : Except DecodeError YDAB :=
  do
  let d' ← sdst (fld w 20 5)
  let a' ← ssrc (fld w 15 5)
  let b' ← ssrc (fld w 10 5)
  pure { s := flag w 31, d := d', a := a', b := b' }

/-- The bits that the fields of `YDAB` put into a word. -/
def putYDAB (o : YDAB) : Nat :=
  (if o.s then 1 else 0) * 2 ^ 31 + sdstCode o.d * 2 ^ 20 + ssrcCode o.a * 2 ^ 15 + ssrcCode o.b * 2 ^ 10

/-- Reads the fields of `YDABk` (check 4 of R61 on operand codes). -/
def getYDABk (w : Nat) : Except DecodeError YDABk :=
  do
  let d' ← sdst (fld w 20 5)
  let a' ← ssrc (fld w 15 5)
  let b' ← ssrc (fld w 10 5)
  let k' ← lit 16 (fld w 3 4)
  pure { s := flag w 31, d := d', a := a', b := b', k := k' }

/-- The bits that the fields of `YDABk` put into a word. -/
def putYDABk (o : YDABk) : Nat :=
  (if o.s then 1 else 0) * 2 ^ 31 + sdstCode o.d * 2 ^ 20 + ssrcCode o.a * 2 ^ 15 + ssrcCode o.b * 2 ^ 10 + o.k.val * 2 ^ 3

/-- Reads the fields of `Bare` (check 4 of R61 on operand codes). -/
def getBare (w : Nat) : Except DecodeError Bare :=
  .ok { s := flag w 31 }

/-- The bits that the fields of `Bare` put into a word. -/
def putBare (o : Bare) : Nat :=
  (if o.s then 1 else 0) * 2 ^ 31

/-- Reads the fields of `CAQ` (check 4 of R61 on operand codes). -/
def getCAQ (w : Nat) : Except DecodeError CAQ :=
  do
  let a' ← ssrc (fld w 15 5)
  let q' ← lit 16 (fld w 9 4)
  let p' ← lit 16 (fld w 5 4)
  pure { s := flag w 31, a := a', q := q', p := p' }

/-- The bits that the fields of `CAQ` put into a word. -/
def putCAQ (o : CAQ) : Nat :=
  (if o.s then 1 else 0) * 2 ^ 31 + ssrcCode o.a * 2 ^ 15 + o.q.val * 2 ^ 9 + o.p.val * 2 ^ 5

/-- Reads the fields of `CAH` (check 4 of R61 on operand codes). -/
def getCAH (w : Nat) : Except DecodeError CAH :=
  do
  let a' ← ssrc (fld w 15 5)
  let h' ← lit 64 (fld w 9 6)
  let p' ← lit 16 (fld w 5 4)
  pure { s := flag w 31, a := a', h := h', p := p' }

/-- The bits that the fields of `CAH` put into a word. -/
def putCAH (o : CAH) : Nat :=
  (if o.s then 1 else 0) * 2 ^ 31 + ssrcCode o.a * 2 ^ 15 + o.h.val * 2 ^ 9 + o.p.val * 2 ^ 5

/-- Reads the fields of `CPAH` (check 4 of R61 on operand codes). -/
def getCPAH (w : Nat) : Except DecodeError CPAH :=
  do
  let pd' ← lit 16 (fld w 20 4)
  let a' ← ssrc (fld w 15 5)
  let h' ← lit 64 (fld w 9 6)
  let p' ← lit 16 (fld w 5 4)
  pure { s := flag w 31, pd := pd', a := a', h := h', p := p' }

/-- The bits that the fields of `CPAH` put into a word. -/
def putCPAH (o : CPAH) : Nat :=
  (if o.s then 1 else 0) * 2 ^ 31 + o.pd.val * 2 ^ 20 + ssrcCode o.a * 2 ^ 15 + o.h.val * 2 ^ 9 + o.p.val * 2 ^ 5

/-- Reads the fields of `CDAQ` (check 4 of R61 on operand codes). -/
def getCDAQ (w : Nat) : Except DecodeError CDAQ :=
  do
  let d' ← sdst (fld w 20 5)
  let a' ← ssrc (fld w 15 5)
  let q' ← lit 16 (fld w 9 4)
  let p' ← lit 16 (fld w 5 4)
  pure { s := flag w 31, d := d', a := a', q := q', p := p' }

/-- The bits that the fields of `CDAQ` put into a word. -/
def putCDAQ (o : CDAQ) : Nat :=
  (if o.s then 1 else 0) * 2 ^ 31 + sdstCode o.d * 2 ^ 20 + ssrcCode o.a * 2 ^ 15 + o.q.val * 2 ^ 9 + o.p.val * 2 ^ 5

/-- Reads the fields of `CDQ` (check 4 of R61 on operand codes). -/
def getCDQ (w : Nat) : Except DecodeError CDQ :=
  do
  let d' ← sdst (fld w 20 5)
  let q' ← lit 16 (fld w 9 4)
  let p' ← lit 16 (fld w 5 4)
  pure { s := flag w 31, d := d', q := q', p := p' }

/-- The bits that the fields of `CDQ` put into a word. -/
def putCDQ (o : CDQ) : Nat :=
  (if o.s then 1 else 0) * 2 ^ 31 + sdstCode o.d * 2 ^ 20 + o.q.val * 2 ^ 9 + o.p.val * 2 ^ 5

/-- Reads the fields of `CDAH` (check 4 of R61 on operand codes). -/
def getCDAH (w : Nat) : Except DecodeError CDAH :=
  do
  let d' ← sdst (fld w 20 5)
  let a' ← ssrc (fld w 15 5)
  let h' ← lit 64 (fld w 9 6)
  let p' ← lit 16 (fld w 5 4)
  pure { s := flag w 31, d := d', a := a', h := h', p := p' }

/-- The bits that the fields of `CDAH` put into a word. -/
def putCDAH (o : CDAH) : Nat :=
  (if o.s then 1 else 0) * 2 ^ 31 + sdstCode o.d * 2 ^ 20 + ssrcCode o.a * 2 ^ 15 + o.h.val * 2 ^ 9 + o.p.val * 2 ^ 5

/-- Reads the fields of `KRA` (check 4 of R61 on operand codes). -/
def getKRA (w : Nat) : Except DecodeError KRA :=
  do
  let r' ← lit 16 (fld w 21 4)
  let a' ← ssrc (fld w 13 5)
  pure { s := flag w 31, r := r', a := a' }

/-- The bits that the fields of `KRA` put into a word. -/
def putKRA (o : KRA) : Nat :=
  (if o.s then 1 else 0) * 2 ^ 31 + o.r.val * 2 ^ 21 + ssrcCode o.a * 2 ^ 13

/-- Reads the fields of `KRI` (check 4 of R61 on operand codes). -/
def getKRI (w : Nat) : Except DecodeError KRI :=
  do
  let r' ← lit 16 (fld w 21 4)
  pure { s := flag w 31, r := r', i := BitVec.ofNat 18 (fld w 0 18) }

/-- The bits that the fields of `KRI` put into a word. -/
def putKRI (o : KRI) : Nat :=
  (if o.s then 1 else 0) * 2 ^ 31 + o.r.val * 2 ^ 21 + o.i.toNat * 2 ^ 0

/-- Reads the fields of `KDim` (check 4 of R61 on operand codes). -/
def getKDim (w : Nat) : Except DecodeError KDim :=
  do
  let r' ← lit 6 (fld w 21 4)
  let a' ← ssrc (fld w 13 5)
  let b' ← ssrc (fld w 8 5)
  pure { s := flag w 31, r := r', a := a', b := b' }

/-- The bits that the fields of `KDim` put into a word. -/
def putKDim (o : KDim) : Nat :=
  (if o.s then 1 else 0) * 2 ^ 31 + o.r.val * 2 ^ 21 + ssrcCode o.a * 2 ^ 13 + ssrcCode o.b * 2 ^ 8

/-- Reads the fields of `VShapeOps` (check 4 of R61 on operand codes). -/
def getVShapeOps (w : Nat) : Except DecodeError VShapeOps :=
  do
  let a' ← ssrc (fld w 13 6)
  pure { s := flag w 31, a := a' }

/-- The bits that the fields of `VShapeOps` put into a word. -/
def putVShapeOps (o : VShapeOps) : Nat :=
  (if o.s then 1 else 0) * 2 ^ 31 + ssrcCode o.a * 2 ^ 13

/-- Reads the fields of `VWA` (check 4 of R61 on operand codes). -/
def getVWA (w : Nat) : Except DecodeError VWA :=
  do
  let v' ← vdst (fld w 19 6)
  let a' ← ssrc (fld w 13 6)
  let m' ← lit 16 (fld w 3 4)
  pure { s := flag w 31, v := v', a := a', m := m' }

/-- The bits that the fields of `VWA` put into a word. -/
def putVWA (o : VWA) : Nat :=
  (if o.s then 1 else 0) * 2 ^ 31 + vdstCode o.v * 2 ^ 19 + ssrcCode o.a * 2 ^ 13 + o.m.val * 2 ^ 3

/-- Reads the fields of `VSA` (check 4 of R61 on operand codes). -/
def getVSA (w : Nat) : Except DecodeError VSA :=
  do
  let a' ← ssrc (fld w 13 6)
  let x' ← vsrc (fld w 7 6)
  let m' ← lit 16 (fld w 3 4)
  pure { s := flag w 31, a := a', x := x', m := m' }

/-- The bits that the fields of `VSA` put into a word. -/
def putVSA (o : VSA) : Nat :=
  (if o.s then 1 else 0) * 2 ^ 31 + ssrcCode o.a * 2 ^ 13 + vsrcCode o.x * 2 ^ 7 + o.m.val * 2 ^ 3

/-- Reads the fields of `VMA` (check 4 of R61 on operand codes). -/
def getVMA (w : Nat) : Except DecodeError VMA :=
  do
  let v' ← lit 16 (fld w 19 6)
  let a' ← ssrc (fld w 13 6)
  pure { s := flag w 31, v := v', a := a' }

/-- The bits that the fields of `VMA` put into a word. -/
def putVMA (o : VMA) : Nat :=
  (if o.s then 1 else 0) * 2 ^ 31 + o.v.val * 2 ^ 19 + ssrcCode o.a * 2 ^ 13

/-- Reads the fields of `VAM` (check 4 of R61 on operand codes). -/
def getVAM (w : Nat) : Except DecodeError VAM :=
  do
  let a' ← ssrc (fld w 13 6)
  let b' ← lit 16 (fld w 7 6)
  pure { s := flag w 31, a := a', b := b' }

/-- The bits that the fields of `VAM` put into a word. -/
def putVAM (o : VAM) : Nat :=
  (if o.s then 1 else 0) * 2 ^ 31 + ssrcCode o.a * 2 ^ 13 + o.b.val * 2 ^ 7

/-- Reads the fields of `VGatOps` (check 4 of R61 on operand codes). -/
def getVGatOps (w : Nat) : Except DecodeError VGatOps :=
  do
  let v' ← vdst (fld w 19 6)
  let a' ← ssrc (fld w 13 6)
  let x' ← vsrc (fld w 7 6)
  let m' ← lit 16 (fld w 3 4)
  pure { s := flag w 31, v := v', a := a', x := x', m := m' }

/-- The bits that the fields of `VGatOps` put into a word. -/
def putVGatOps (o : VGatOps) : Nat :=
  (if o.s then 1 else 0) * 2 ^ 31 + vdstCode o.v * 2 ^ 19 + ssrcCode o.a * 2 ^ 13 + vsrcCode o.x * 2 ^ 7 + o.m.val * 2 ^ 3

/-- Reads the fields of `VSctOps` (check 4 of R61 on operand codes). -/
def getVSctOps (w : Nat) : Except DecodeError VSctOps :=
  do
  let v' ← vsrc (fld w 19 6)
  let a' ← ssrc (fld w 13 6)
  let x' ← vsrc (fld w 7 6)
  let m' ← lit 16 (fld w 3 4)
  pure { s := flag w 31, v := v', a := a', x := x', m := m' }

/-- The bits that the fields of `VSctOps` put into a word. -/
def putVSctOps (o : VSctOps) : Nat :=
  (if o.s then 1 else 0) * 2 ^ 31 + vsrcCode o.v * 2 ^ 19 + ssrcCode o.a * 2 ^ 13 + vsrcCode o.x * 2 ^ 7 + o.m.val * 2 ^ 3

/-- Reads the fields of `VMovsOps` (check 4 of R61 on operand codes). -/
def getVMovsOps (w : Nat) : Except DecodeError VMovsOps :=
  do
  let d' ← sdst (fld w 19 6)
  let x' ← vsrc (fld w 13 6)
  let b' ← ssrc (fld w 7 6)
  pure { s := flag w 31, d := d', x := x', b := b' }

/-- The bits that the fields of `VMovsOps` put into a word. -/
def putVMovsOps (o : VMovsOps) : Nat :=
  (if o.s then 1 else 0) * 2 ^ 31 + sdstCode o.d * 2 ^ 19 + vsrcCode o.x * 2 ^ 13 + ssrcCode o.b * 2 ^ 7

/-- Reads the fields of `VIotaOps` (check 4 of R61 on operand codes). -/
def getVIotaOps (w : Nat) : Except DecodeError VIotaOps :=
  do
  let v' ← vdst (fld w 19 6)
  let a' ← ssrc (fld w 13 6)
  let b' ← ssrc (fld w 7 6)
  let m' ← lit 16 (fld w 3 4)
  pure { s := flag w 31, v := v', a := a', b := b', m := m' }

/-- The bits that the fields of `VIotaOps` put into a word. -/
def putVIotaOps (o : VIotaOps) : Nat :=
  (if o.s then 1 else 0) * 2 ^ 31 + vdstCode o.v * 2 ^ 19 + ssrcCode o.a * 2 ^ 13 + ssrcCode o.b * 2 ^ 7 + o.m.val * 2 ^ 3

/-- Reads the fields of `VWXY` (check 4 of R61 on operand codes). -/
def getVWXY (w : Nat) : Except DecodeError VWXY :=
  do
  let v' ← vdst (fld w 19 6)
  let x' ← vsrc (fld w 13 6)
  let y' ← vsrc (fld w 7 6)
  let m' ← lit 16 (fld w 3 4)
  pure { s := flag w 31, v := v', x := x', y := y', m := m' }

/-- The bits that the fields of `VWXY` put into a word. -/
def putVWXY (o : VWXY) : Nat :=
  (if o.s then 1 else 0) * 2 ^ 31 + vdstCode o.v * 2 ^ 19 + vsrcCode o.x * 2 ^ 13 + vsrcCode o.y * 2 ^ 7 + o.m.val * 2 ^ 3

/-- Reads the fields of `VWX` (check 4 of R61 on operand codes). -/
def getVWX (w : Nat) : Except DecodeError VWX :=
  do
  let v' ← vdst (fld w 19 6)
  let x' ← vsrc (fld w 13 6)
  let m' ← lit 16 (fld w 3 4)
  pure { s := flag w 31, v := v', x := x', m := m' }

/-- The bits that the fields of `VWX` put into a word. -/
def putVWX (o : VWX) : Nat :=
  (if o.s then 1 else 0) * 2 ^ 31 + vdstCode o.v * 2 ^ 19 + vsrcCode o.x * 2 ^ 13 + o.m.val * 2 ^ 3

/-- Reads the fields of `VWXB` (check 4 of R61 on operand codes). -/
def getVWXB (w : Nat) : Except DecodeError VWXB :=
  do
  let v' ← vdst (fld w 19 6)
  let x' ← vsrc (fld w 13 6)
  let b' ← ssrc (fld w 7 6)
  let m' ← lit 16 (fld w 3 4)
  pure { s := flag w 31, v := v', x := x', b := b', m := m' }

/-- The bits that the fields of `VWXB` put into a word. -/
def putVWXB (o : VWXB) : Nat :=
  (if o.s then 1 else 0) * 2 ^ 31 + vdstCode o.v * 2 ^ 19 + vsrcCode o.x * 2 ^ 13 + ssrcCode o.b * 2 ^ 7 + o.m.val * 2 ^ 3

/-- Reads the fields of `VQuantOps` (check 4 of R61 on operand codes). -/
def getVQuantOps (w : Nat) : Except DecodeError VQuantOps :=
  do
  let v' ← vdst (fld w 19 6)
  let x' ← vsrc (fld w 13 6)
  let y' ← vsrc (fld w 7 6)
  pure { s := flag w 31, v := v', x := x', y := y' }

/-- The bits that the fields of `VQuantOps` put into a word. -/
def putVQuantOps (o : VQuantOps) : Nat :=
  (if o.s then 1 else 0) * 2 ^ 31 + vdstCode o.v * 2 ^ 19 + vsrcCode o.x * 2 ^ 13 + vsrcCode o.y * 2 ^ 7

/-- Reads the fields of `VCmpOps` (check 4 of R61 on operand codes). -/
def getVCmpOps (w : Nat) : Except DecodeError VCmpOps :=
  do
  let j' ← even 8 0 (fld w 19 6)
  let x' ← vsrc (fld w 13 6)
  let y' ← vsrc (fld w 7 6)
  let m' ← lit 16 (fld w 3 4)
  pure { s := flag w 31, j := j', x := x', y := y', m := m' }

/-- The bits that the fields of `VCmpOps` put into a word. -/
def putVCmpOps (o : VCmpOps) : Nat :=
  (if o.s then 1 else 0) * 2 ^ 31 + 2 * o.j.val * 2 ^ 19 + vsrcCode o.x * 2 ^ 13 + vsrcCode o.y * 2 ^ 7 + o.m.val * 2 ^ 3

/-- Reads the fields of `VMlogOps` (check 4 of R61 on operand codes). -/
def getVMlogOps (w : Nat) : Except DecodeError VMlogOps :=
  do
  let v' ← lit 16 (fld w 19 6)
  let x' ← lit 16 (fld w 13 6)
  let b' ← ssrc (fld w 7 6)
  let m' ← lit 16 (fld w 3 4)
  pure { s := flag w 31, v := v', x := x', b := b', m := m' }

/-- The bits that the fields of `VMlogOps` put into a word. -/
def putVMlogOps (o : VMlogOps) : Nat :=
  (if o.s then 1 else 0) * 2 ^ 31 + o.v.val * 2 ^ 19 + o.x.val * 2 ^ 13 + ssrcCode o.b * 2 ^ 7 + o.m.val * 2 ^ 3

/-- Reads the fields of `VMdOps` (check 4 of R61 on operand codes). -/
def getVMdOps (w : Nat) : Except DecodeError VMdOps :=
  do
  let d' ← sdst (fld w 19 6)
  let x' ← lit 16 (fld w 13 6)
  let m' ← lit 16 (fld w 3 4)
  pure { s := flag w 31, d := d', x := x', m := m' }

/-- The bits that the fields of `VMdOps` put into a word. -/
def putVMdOps (o : VMdOps) : Nat :=
  (if o.s then 1 else 0) * 2 ^ 31 + sdstCode o.d * 2 ^ 19 + o.x.val * 2 ^ 13 + o.m.val * 2 ^ 3

/-- Reads the fields of `VOsmOps` (check 4 of R61 on operand codes). -/
def getVOsmOps (w : Nat) : Except DecodeError VOsmOps :=
  do
  let v' ← even 12 16 (fld w 19 6)
  let x' ← even 12 16 (fld w 13 6)
  pure { s := flag w 31, v := v', x := x' }

/-- The bits that the fields of `VOsmOps` put into a word. -/
def putVOsmOps (o : VOsmOps) : Nat :=
  (if o.s then 1 else 0) * 2 ^ 31 + (16 + 2 * o.v.val) * 2 ^ 19 + (16 + 2 * o.x.val) * 2 ^ 13

/-- Reads the fields of `VFmaOps` (check 4 of R61 on operand codes). -/
def getVFmaOps (w : Nat) : Except DecodeError VFmaOps :=
  do
  let v' ← vdst (fld w 19 6)
  let x' ← vsrc (fld w 13 6)
  let y' ← vsrc (fld w 7 6)
  let m' ← lit 16 (fld w 3 4)
  let f' ← lit 4 (fld w 0 3)
  pure { s := flag w 31, v := v', x := x', y := y', m := m', f := f' }

/-- The bits that the fields of `VFmaOps` put into a word. -/
def putVFmaOps (o : VFmaOps) : Nat :=
  (if o.s then 1 else 0) * 2 ^ 31 + vdstCode o.v * 2 ^ 19 + vsrcCode o.x * 2 ^ 13 + vsrcCode o.y * 2 ^ 7 + o.m.val * 2 ^ 3 + o.f.val * 2 ^ 0

/-- Reads the fields of `TA` (check 4 of R61 on operand codes). -/
def getTA (w : Nat) : Except DecodeError TA :=
  do
  let a' ← ssrc (fld w 14 5)
  let p' ← lit 16 (fld w 5 4)
  pure { s := flag w 31, a := a', p := p' }

/-- The bits that the fields of `TA` put into a word. -/
def putTA (o : TA) : Nat :=
  (if o.s then 1 else 0) * 2 ^ 31 + ssrcCode o.a * 2 ^ 14 + o.p.val * 2 ^ 5

/-- Reads the fields of `TDAB` (check 4 of R61 on operand codes). -/
def getTDAB (w : Nat) : Except DecodeError TDAB :=
  do
  let d' ← sdst (fld w 19 6)
  let a' ← ssrc (fld w 14 5)
  let b' ← ssrc (fld w 9 5)
  let p' ← lit 16 (fld w 5 4)
  pure { s := flag w 31, d := d', a := a', b := b', p := p' }

/-- The bits that the fields of `TDAB` put into a word. -/
def putTDAB (o : TDAB) : Nat :=
  (if o.s then 1 else 0) * 2 ^ 31 + sdstCode o.d * 2 ^ 19 + ssrcCode o.a * 2 ^ 14 + ssrcCode o.b * 2 ^ 9 + o.p.val * 2 ^ 5

/-- Reads the fields of `TAB` (check 4 of R61 on operand codes). -/
def getTAB (w : Nat) : Except DecodeError TAB :=
  do
  let a' ← ssrc (fld w 14 5)
  let b' ← ssrc (fld w 9 5)
  let p' ← lit 16 (fld w 5 4)
  pure { s := flag w 31, a := a', b := b', p := p' }

/-- The bits that the fields of `TAB` put into a word. -/
def putTAB (o : TAB) : Nat :=
  (if o.s then 1 else 0) * 2 ^ 31 + ssrcCode o.a * 2 ^ 14 + ssrcCode o.b * 2 ^ 9 + o.p.val * 2 ^ 5

/-- Reads the fields of `TMA` (check 4 of R61 on operand codes). -/
def getTMA (w : Nat) : Except DecodeError TMA :=
  do
  let v' ← lit 16 (fld w 19 6)
  let a' ← ssrc (fld w 14 5)
  let p' ← lit 16 (fld w 5 4)
  pure { s := flag w 31, v := v', a := a', p := p' }

/-- The bits that the fields of `TMA` put into a word. -/
def putTMA (o : TMA) : Nat :=
  (if o.s then 1 else 0) * 2 ^ 31 + o.v.val * 2 ^ 19 + ssrcCode o.a * 2 ^ 14 + o.p.val * 2 ^ 5

/-- Reads the fields of `TWA` (check 4 of R61 on operand codes). -/
def getTWA (w : Nat) : Except DecodeError TWA :=
  do
  let v' ← vdst (fld w 19 6)
  let a' ← ssrc (fld w 14 5)
  let p' ← lit 16 (fld w 5 4)
  pure { s := flag w 31, v := v', a := a', p := p' }

/-- The bits that the fields of `TWA` put into a word. -/
def putTWA (o : TWA) : Nat :=
  (if o.s then 1 else 0) * 2 ^ 31 + vdstCode o.v * 2 ^ 19 + ssrcCode o.a * 2 ^ 14 + o.p.val * 2 ^ 5

/-- Reads the fields of `TWAB` (check 4 of R61 on operand codes). -/
def getTWAB (w : Nat) : Except DecodeError TWAB :=
  do
  let v' ← vdst (fld w 19 6)
  let a' ← ssrc (fld w 14 5)
  let b' ← ssrc (fld w 9 5)
  let p' ← lit 16 (fld w 5 4)
  pure { s := flag w 31, v := v', a := a', b := b', p := p' }

/-- The bits that the fields of `TWAB` put into a word. -/
def putTWAB (o : TWAB) : Nat :=
  (if o.s then 1 else 0) * 2 ^ 31 + vdstCode o.v * 2 ^ 19 + ssrcCode o.a * 2 ^ 14 + ssrcCode o.b * 2 ^ 9 + o.p.val * 2 ^ 5

/-- Reads the fields of `TDA` (check 4 of R61 on operand codes). -/
def getTDA (w : Nat) : Except DecodeError TDA :=
  do
  let d' ← sdst (fld w 19 6)
  let a' ← ssrc (fld w 14 5)
  let p' ← lit 16 (fld w 5 4)
  pure { s := flag w 31, d := d', a := a', p := p' }

/-- The bits that the fields of `TDA` put into a word. -/
def putTDA (o : TDA) : Nat :=
  (if o.s then 1 else 0) * 2 ^ 31 + sdstCode o.d * 2 ^ 19 + ssrcCode o.a * 2 ^ 14 + o.p.val * 2 ^ 5

/-! ### The opcode map, one function a major (Tables 3-3 and 3-4) -/

/-- Major 0x00. -/
def major00 (w : Nat) : Except DecodeError Instr :=
  match fld w 0 6 with
  | 0 => (getDABP w).map .add
  | 1 => (getDABP w).map .sub
  | 2 => (getDABP w).map .mul
  | 3 => (getDABP w).map .mulh
  | 4 => (getDABP w).map .mulhz
  | 5 => (getDABP w).map .div
  | 6 => (getDABP w).map .divz
  | 7 => (getDABP w).map .rem
  | 8 => (getDABP w).map .remz
  | 9 => (getDABP w).map .and
  | 10 => (getDABP w).map .or
  | 11 => (getDABP w).map .xor
  | 12 => (getDABP w).map .andn
  | 13 => (getDABP w).map .shl
  | 14 => (getDABP w).map .shr
  | 15 => (getDABP w).map .sha
  | 16 => (getDABP w).map .min
  | 17 => (getDABP w).map .max
  | 18 => (getDABP w).map .minz
  | 19 => (getDABP w).map .maxz
  | 20 => (getDABP w).map .adda
  | 21 => whenZero w [(10, 5)] ((getDAP w).map .clz)
  | 22 => whenZero w [(10, 5)] ((getDAP w).map .ctz)
  | 23 => whenZero w [(10, 5)] ((getDAP w).map .popc)
  | 24 => (getDABP w).map .sext
  | 25 => (getDABP w).map .pick
  | _ => .error .unassignedFunction

/-- Major 0x01. -/
def major01 (w : Nat) : Except DecodeError Instr :=
  (getDAI w).map .addi

/-- Major 0x02. -/
def major02 (w : Nat) : Except DecodeError Instr :=
  (getDAI w).map .andi

/-- Major 0x03. -/
def major03 (w : Nat) : Except DecodeError Instr :=
  (getDAI w).map .ori

/-- Major 0x04. -/
def major04 (w : Nat) : Except DecodeError Instr :=
  (getDAI w).map .xori

/-- Major 0x05. -/
def major05 (w : Nat) : Except DecodeError Instr :=
  match fld w 9 2 with
  | 0 => whenZero w [(6, 3)] ((getDAH w).map .shli)
  | 1 => whenZero w [(6, 3)] ((getDAH w).map .shri)
  | 2 => whenZero w [(6, 3)] ((getDAH w).map .shai)
  | _ => .error .unassignedFunction

/-- Major 0x06. -/
def major06 (w : Nat) : Except DecodeError Instr :=
  (getDI w).map .lil

/-- Major 0x07. -/
def major07 (w : Nat) : Except DecodeError Instr :=
  (getDI w).map .lih

/-- Major 0x08. -/
def major08 (w : Nat) : Except DecodeError Instr :=
  (getBfOps w).bind fun o => if o.o.val + o.w.val + 1 ≤ 64 then .ok (.bfx o) else .error .reservedOperand

/-- Major 0x09. -/
def major09 (w : Nat) : Except DecodeError Instr :=
  (getBfOps w).bind fun o => if o.o.val + o.w.val + 1 ≤ 64 then .ok (.bfi o) else .error .reservedOperand

/-- Major 0x0A. -/
def major0A (w : Nat) : Except DecodeError Instr :=
  if fld w 0 6 < 6 then whenZero w [(24, 1)] ((getCmpOps w).map .cmp) else .error .unassignedFunction

/-- Major 0x0B. -/
def major0B (w : Nat) : Except DecodeError Instr :=
  if fld w 8 3 < 6 then whenZero w [(24, 1)] ((getCmpiOps w).map .cmpi) else .error .unassignedFunction

/-- Major 0x0C. -/
def major0C (w : Nat) : Except DecodeError Instr :=
  match fld w 4 2 with
  | 0 => (getPlogOps w).map .plog
  | 1 => (getSelOps w).map .sel
  | _ => .error .unassignedFunction

/-- Major 0x0D. -/
def major0D (w : Nat) : Except DecodeError Instr :=
  (getBOps w).map .br

/-- Major 0x0E. -/
def major0E (w : Nat) : Except DecodeError Instr :=
  (getBOps w).map .call

/-- Major 0x0F. -/
def major0F (w : Nat) : Except DecodeError Instr :=
  match fld w 0 6 with
  | 0 => whenZero w [(10, 5), (20, 5)] ((getAP w).map .jmp)
  | 1 => whenZero w [(10, 5), (20, 5)] ((getAP w).map .callr)
  | 2 => whenZero w [(10, 15)] ((getGP w).map .ret)
  | _ => .error .unassignedFunction

/-- Major 0x10. -/
def major10 (w : Nat) : Except DecodeError Instr :=
  match fld w 9 2 with
  | 0 => whenZero w [(3, 6), (11, 4), (20, 5)] ((getNdimOps w).map .ndim)
  | 1 => whenZero w [(6, 3), (11, 14)] ((getNestOps w).map .nest)
  | 2 => whenZero w [(3, 6), (15, 5)] ((getLidxOps w).map .lidx)
  | _ => .error .unassignedFunction

/-- Major 0x11. -/
def major11 (w : Nat) : Except DecodeError Instr :=
  (getLdOps w).map .ld

/-- Major 0x12. A LDZ of the reserved size code 3 (Table 3-3, R99) fails check 4 of Table 3-5, reserved operand (DESIGN CHOICE, log entry
50). -/
def major12 (w : Nat) : Except DecodeError Instr :=
  (getLdOps w).bind fun o => if o.z.val = 3 then .error .reservedOperand else .ok (.ldz o)

/-- Major 0x13. -/
def major13 (w : Nat) : Except DecodeError Instr :=
  (getStOps w).map .st

/-- Major 0x14. -/
def major14 (w : Nat) : Except DecodeError Instr :=
  match fld w 9 2 with
  | 0 => (getLdnOps w).map .ldn
  | 1 => (getStnOps w).map .stn
  | _ => .error .unassignedFunction

/-- Major 0x15. -/
def major15 (w : Nat) : Except DecodeError Instr :=
  if fld w 8 1 = 0 ∧ fld w 5 3 ≠ 0 then .error .reservedField else (getFldOps w).map .fld

/-- Major 0x16. -/
def major16 (w : Nat) : Except DecodeError Instr :=
  if fld w 8 1 = 0 ∧ fld w 5 3 ≠ 0 then .error .reservedField else (getFstOps w).map .fst

/-- Major 0x17. -/
def major17 (w : Nat) : Except DecodeError Instr :=
  match fld w 10 1 with
  | 0 => whenZero w [(15, 5)] ((getCsrrOps w).map .csrr)
  | 1 => whenZero w [(20, 5)] ((getCsrwOps w).map .csrw)
  | _ => .error .unassignedFunction

/-- Major 0x18. -/
def major18 (w : Nat) : Except DecodeError Instr :=
  match fld w 0 6 with
  | 0 => whenZero w [(10, 10)] ((getDP w).map .cyc)
  | 1 => whenZero w [(6, 19)] ((getBare w).map .nop)
  | 2 => whenZero w [(15, 10)] ((getTrapOps w).map .trap)
  | _ => .error .unassignedFunction

/-- Major 0x19. -/
def major19 (w : Nat) : Except DecodeError Instr :=
  whenZero w [(0, 1), (20, 5)] ((getFenceOps w).bind fun o => if o.m = 0 then .error .reservedOperand else .ok (.fence o))

/-- Major 0x1A. -/
def major1A (w : Nat) : Except DecodeError Instr :=
  match fld w 0 3 with
  | 0 => whenZero w [(20, 5)] ((getYABsk w).map .semsig)
  | 1 => whenZero w [(20, 5)] ((getYABsk w).map .semwait)
  | 2 => (getYDABsk w).map .semtry
  | 3 => (getYDABsk w).map .semadd
  | 4 => (getYDABsk w).map .semcas
  | 5 => whenZero w [(10, 5)] ((getYDAsk w).map .semrd)
  | _ => .error .unassignedFunction

/-- Major 0x1B. -/
def major1B (w : Nat) : Except DecodeError Instr :=
  match fld w 0 3 with
  | 0 => whenZero w [(10, 5), (20, 5)] ((getYAsk w).map .mtxlock)
  | 1 => whenZero w [(10, 5)] ((getYDAsk w).map .mtxtry)
  | 2 => whenZero w [(10, 5), (20, 5)] ((getYAsk w).map .mtxfree)
  | 3 => (getYDABsk w).map .bararr
  | 4 => (getYDABsk w).map .barwait
  | 5 => whenZero w [(3, 22)] ((getBare w).map .rdv)
  | _ => .error .unassignedFunction

/-- Major 0x1C. -/
def major1C (w : Nat) : Except DecodeError Instr :=
  match fld w 0 3 with
  | 0 => whenZero w [(7, 8), (20, 5)] ((getYAk w).map .evset)
  | 1 => whenZero w [(3, 12), (20, 5)] ((getYA w).map .evclr)
  | 2 => whenZero w [(7, 3), (20, 5)] ((getYABk w).map .evwait)
  | 3 => whenZero w [(3, 7), (20, 5)] ((getYAB w).map .waitlt)
  | _ => .error .unassignedFunction

/-- Major 0x1D. -/
def major1D (w : Nat) : Except DecodeError Instr :=
  match fld w 0 3 with
  | 0 => whenZero w [(7, 3)] ((getYDABk w).map .claim)
  | 1 => whenZero w [(7, 3)] ((getYDABk w).map .commit)
  | 2 => whenZero w [(7, 3)] ((getYDABk w).map .await)
  | 3 => whenZero w [(7, 3)] ((getYDABk w).map .retire)
  | _ => .error .unassignedFunction

/-- Major 0x1E. -/
def major1E (w : Nat) : Except DecodeError Instr :=
  match fld w 0 3 with
  | 0 => whenZero w [(3, 12), (20, 5)] ((getYA w).map .sleepu)
  | 1 => whenZero w [(3, 7)] ((getYDAB w).map .waita)
  | _ => .error .unassignedFunction

/-- Major 0x1F. -/
def major1F (sec : Sec) (w : Nat) : Except DecodeError Instr :=
  match fld w 0 6 with
  | 0 => whenZero w [(11, 14)] ((getModeOps w).map .mode)
  | 1 => whenZero w [(10, 15)] ((getGP w).map .tret)
  | 2 => inCtl sec (whenZero w [(20, 5)] ((getABP w).map .ctxsave))
  | 3 => inCtl sec (whenZero w [(20, 5)] ((getABP w).map .ctxload))
  | 4 => inCtl sec (whenZero w [(10, 5), (20, 5)] ((getAP w).map .preempt))
  | 5 => inCtl sec (whenZero w [(20, 5)] ((getABP w).map .semmap))
  | 6 => inCtl sec (whenZero w [(20, 5)] ((getABP w).map .tlbinv))
  | 7 => inCtl sec ((getDABP w).map .tlbprobe)
  | 8 => inCtl sec (whenZero w [(20, 5)] ((getABP w).map .hint))
  | 9 => inCtl sec (whenZero w [(10, 5), (20, 5)] ((getAP w).map .halt))
  | 10 => inCtl sec (whenZero w [(10, 5), (20, 5)] ((getAP w).map .wflush))
  | _ => .error .unassignedFunction

/-- Major 0x20. -/
def major20 (w : Nat) : Except DecodeError Instr :=
  match fld w 0 4 with
  | 0 => whenZero w [(4, 1), (13, 2), (20, 5)] ((getCAQ w).map .qcfg)
  | 1 => whenZero w [(4, 1), (20, 5)] ((getCAH w).map .chmap)
  | 2 => whenZero w [(4, 1), (20, 5)] ((getCAH w).map .send)
  | 3 => whenZero w [(4, 1), (24, 1)] ((getCPAH w).map .sends)
  | 4 => whenZero w [(4, 1), (13, 2)] ((getCDAQ w).map .recv)
  | 5 => whenZero w [(4, 1), (13, 2)] ((getCDAQ w).map .recvs)
  | 6 => whenZero w [(4, 1), (13, 7)] ((getCDQ w).map .peek)
  | 7 => whenZero w [(4, 1)] ((getCDAH w).map .qstat)
  | 8 => whenZero w [(4, 1), (13, 2), (20, 5)] ((getCAQ w).map .qfree)
  | 9 => whenZero w [(4, 1), (13, 2), (20, 5)] ((getCAQ w).map .mcast)
  | _ => .error .unassignedFunction

/-- Major 0x21. -/
def major21 (w : Nat) : Except DecodeError Instr :=
  match fld w 0 6 with
  | 0 => whenZero w [(20, 5)] ((getABP w).map .fgstart)
  | 1 => whenZero w [(10, 5), (20, 5)] ((getAP w).map .fgstop)
  | 2 => whenZero w [(10, 5)] ((getDAP w).map .fgstat)
  | 3 => whenZero w [(10, 5)] ((getDAP w).map .fglate)
  | 4 => whenZero w [(20, 5)] ((getABP w).map .fgwin)
  | 5 => whenZero w [(20, 5)] ((getABP w).map .fgpace)
  | 6 => whenZero w [(10, 5), (20, 5)] ((getAP w).map .fgmc)
  | 7 => whenZero w [(20, 5)] ((getABP w).map .fgmark)
  | _ => .error .unassignedFunction

/-- Major 0x22. -/
def major22 (w : Nat) : Except DecodeError Instr :=
  match fld w 0 6 with
  | 0 => (getDABP w).map .launch
  | 1 => (getDABP w).map .post
  | 2 => whenZero w [(10, 5)] ((getDAP w).map .take)
  | 3 => whenZero w [(10, 5), (20, 5)] ((getAP w).map .yieldJob)
  | 4 => whenZero w [(10, 5), (20, 5)] ((getAP w).map .doneJob)
  | 5 => whenZero w [(10, 5)] ((getDAP w).map .coord)
  | 6 => whenZero w [(10, 5), (20, 5)] ((getAP w).map .swcfg)
  | 7 => (getDABP w).map .swtake
  | 8 => whenZero w [(10, 5)] ((getDAP w).map .stgq)
  | _ => .error .unassignedFunction

/-- Major 0x23. -/
def major23 (w : Nat) : Except DecodeError Instr :=
  match fld w 0 6 with
  | 0 => whenZero w [(20, 5)] ((getABP w).map .asamp)
  | 1 => whenZero w [(10, 5), (20, 5)] ((getAP w).map .amode)
  | 2 => whenZero w [(20, 5)] ((getABP w).map .athr)
  | 3 => whenZero w [(10, 5), (20, 5)] ((getAP w).map .aown)
  | 4 => whenZero w [(10, 5), (20, 5)] ((getAP w).map .aforce)
  | 5 => (getDABP w).map .ahist
  | 6 => whenZero w [(10, 5), (20, 5)] ((getAP w).map .aclr)
  | 7 => whenZero w [(10, 5)] ((getDAP w).map .astat)
  | 8 => whenZero w [(10, 15)] ((getGP w).map .arel)
  | _ => .error .unassignedFunction

/-- Major 0x24. -/
def major24 (w : Nat) : Except DecodeError Instr :=
  match fld w 18 3 with
  | 0 => whenZero w [(0, 13)] ((getKRA w).map .cset)
  | 1 => (getKRI w).map .cseti
  | 2 => whenZero w [(0, 8)] ((getKDim w).map .cdim)
  | 3 => whenZero w [(0, 13)] ((getKRA w).map .cldc)
  | 4 => whenZero w [(0, 13)] ((getKRA w).map .cstc)
  | _ => .error .unassignedFunction

/-- Major 0x25. -/
def major25 (w : Nat) : Except DecodeError Instr :=
  match fld w 0 6 with
  | 0 => whenZero w [(10, 10)] ((getDP w).map .copy)
  | 1 => whenZero w [(10, 10)] ((getDP w).map .gather)
  | 2 => whenZero w [(10, 10)] ((getDP w).map .scatter)
  | 3 => whenZero w [(10, 10)] ((getDP w).map .cfill)
  | 4 => whenZero w [(10, 10)] ((getDP w).map .kvlist)
  | 5 => whenZero w [(10, 10)] ((getDP w).map .ttile)
  | 6 => whenZero w [(10, 5), (20, 5)] ((getAP w).map .cfollow)
  | _ => .error .unassignedFunction

/-- Major 0x26. -/
def major26 (w : Nat) : Except DecodeError Instr :=
  match fld w 0 6 with
  | 0 => (getDABP w).map .tdef
  | 1 => whenZero w [(10, 5), (20, 5)] ((getAP w).map .publish)
  | 2 => (getDABP w).map .frmap
  | 3 => whenZero w [(10, 5)] ((getDAP w).map .cstat)
  | 4 => (getDABP w).map .cbmap
  | 5 => whenZero w [(10, 5)] ((getDAP w).map .cresume)
  | 6 => whenZero w [(10, 5)] ((getDAP w).map .ccancel)
  | 7 => whenZero w [(10, 5), (20, 5)] ((getAP w).map .cwait)
  | _ => .error .unassignedFunction

/-- Major 0x28. -/
def major28 (w : Nat) : Except DecodeError Instr :=
  match fld w 0 6 with
  | 0 => whenZero w [(10, 5), (20, 5)] ((getAP w).map .mcfg)
  | 1 => whenZero w [(10, 15)] ((getGP w).map .mrel)
  | 2 => whenZero w [(10, 5), (20, 5)] ((getAP w).map .wload)
  | 3 => whenZero w [(10, 5), (20, 5)] ((getAP w).map .wflip)
  | 4 => whenZero w [(10, 5), (20, 5)] ((getAP w).map .mmul)
  | 5 => whenZero w [(20, 5)] ((getABP w).map .mband)
  | 6 => whenZero w [(10, 5), (20, 5)] ((getAP w).map .mtag)
  | 7 => whenZero w [(10, 15)] ((getGP w).map .mswap)
  | 8 => whenZero w [(10, 5), (20, 5)] ((getAP w).map .mclr)
  | 9 => whenZero w [(20, 5)] ((getABP w).map .msave)
  | 10 => whenZero w [(20, 5)] ((getABP w).map .mrest)
  | 11 => whenZero w [(10, 5), (20, 5)] ((getAP w).map .mpace)
  | 12 => whenZero w [(10, 15)] ((getGP w).map .mdrain)
  | 13 => whenZero w [(10, 5)] ((getDAP w).map .mstat)
  | _ => .error .unassignedFunction

/-- Major 0x30. -/
def major30 (w : Nat) : Except DecodeError Instr :=
  match fld w 0 3 with
  | 0 => whenZero w [(3, 10), (19, 6)] ((getVShapeOps w).map .vshape)
  | 1 => whenZero w [(7, 6)] ((getVWA w).map .vld)
  | 2 => whenZero w [(19, 6)] ((getVSA w).map .vst)
  | 3 => whenZero w [(3, 10)] ((getVMA w).map .vldm)
  | 4 => whenZero w [(3, 4), (19, 6)] ((getVAM w).map .vstm)
  | 5 => (getVGatOps w).map .vgat
  | 6 => (getVSctOps w).map .vsct
  | 7 => whenZero w [(7, 6)] ((getVWA w).map .vsplat)
  | _ => .error .unassignedFunction

/-- Major 0x31. -/
def major31 (w : Nat) : Except DecodeError Instr :=
  match fld w 0 3 with
  | 0 => whenZero w [(3, 4)] ((getVMovsOps w).map .vmovs)
  | 1 => (getVIotaOps w).map .viota
  | 2 => whenZero w [(7, 6)] ((getVWA w).map .vaccr)
  | 3 => whenZero w [(19, 6)] ((getVSA w).map .vaccw)
  | _ => .error .unassignedFunction

/-- Major 0x32. -/
def major32 (w : Nat) : Except DecodeError Instr :=
  match fld w 0 3 with
  | 0 => (getVWXY w).map .vadd
  | 1 => (getVWXY w).map .vsub
  | 2 => (getVWXY w).map .vmul
  | 3 => (getVWXY w).map .vmax
  | 4 => (getVWXY w).map .vmin
  | 5 => whenZero w [(7, 6)] ((getVWX w).map .vabs)
  | 6 => whenZero w [(7, 6)] ((getVWX w).map .vneg)
  | 7 => (getVWXY w).map .vclamp
  | _ => .error .unassignedFunction

/-- Major 0x33. -/
def major33 (w : Nat) : Except DecodeError Instr :=
  match fld w 0 3 with
  | 0 => (getVWXY w).map .vscale
  | 1 => whenZero w [(7, 6)] ((getVWX w).map .vrcp)
  | 2 => whenZero w [(7, 6)] ((getVWX w).map .vrsq)
  | 3 => whenZero w [(7, 6)] ((getVWX w).map .vexp)
  | 4 => whenZero w [(7, 6)] ((getVWX w).map .vlog)
  | _ => .error .unassignedFunction

/-- Major 0x34. -/
def major34 (w : Nat) : Except DecodeError Instr :=
  match fld w 0 3 with
  | 0 => (getVWXB w).map .vcvt
  | 1 => whenZero w [(3, 4)] ((getVQuantOps w).map .vquant)
  | _ => .error .unassignedFunction

/-- Major 0x35. -/
def major35 (w : Nat) : Except DecodeError Instr :=
  match fld w 0 3 with
  | 0 => (getVWXY w).map .viadd
  | 1 => (getVWXY w).map .visub
  | 2 => (getVWXY w).map .vimul
  | 3 => (getVWXY w).map .vand
  | 4 => (getVWXY w).map .vor
  | 5 => (getVWXY w).map .vxor
  | 6 => (getVWXY w).map .vshl
  | 7 => (getVWXY w).map .vshr
  | _ => .error .unassignedFunction

/-- Major 0x36. -/
def major36 (w : Nat) : Except DecodeError Instr :=
  match fld w 0 3 with
  | 0 => (getVWXY w).map .vsha
  | _ => .error .unassignedFunction

/-- Major 0x37. -/
def major37 (w : Nat) : Except DecodeError Instr :=
  match fld w 0 3 with
  | 0 => (getVCmpOps w).map .vcmp
  | 1 => (getVCmpOps w).map .vicmp
  | 2 => (getVWXY w).map .vsel
  | 3 => (getVMlogOps w).map .vmlog
  | 4 => whenZero w [(7, 6)] ((getVMdOps w).map .vmpop)
  | 5 => whenZero w [(7, 6)] ((getVMdOps w).map .vmfirst)
  | _ => .error .unassignedFunction

/-- Major 0x38. -/
def major38 (w : Nat) : Except DecodeError Instr :=
  match fld w 0 3 with
  | 0 => (getVWXB w).map .vred
  | 1 => (getVWXB w).map .vredc
  | 2 => (getVWXB w).map .vscan
  | 3 => whenZero w [(7, 6)] ((getVWX w).map .vpart)
  | 4 => (getVWXB w).map .vhist
  | 5 => (getVWXB w).map .vord
  | 6 => whenZero w [(7, 6)] ((getVWX w).map .vtrn)
  | 7 => (getVWXY w).map .vperm
  | _ => .error .unassignedFunction

/-- Major 0x39. -/
def major39 (w : Nat) : Except DecodeError Instr :=
  match fld w 0 3 with
  | 0 => whenZero w [(3, 10)] ((getVOsmOps w).map .vosm)
  | _ => .error .unassignedFunction

/-- Major 0x3A. -/
def major3A (w : Nat) : Except DecodeError Instr :=
  if fld w 0 3 < 4 then (getVFmaOps w).map .vfma else .error .unassignedFunction

/-- Major 0x3C. -/
def major3C (w : Nat) : Except DecodeError Instr :=
  match fld w 0 4 with
  | 0 => whenZero w [(4, 1), (9, 5), (19, 6)] ((getTA w).map .ttclr)
  | 1 => whenZero w [(4, 1)] ((getTDAB w).map .ttnew)
  | 2 => whenZero w [(4, 1)] ((getTDAB w).map .ttadd)
  | 3 => whenZero w [(4, 1)] ((getTDAB w).map .ttload)
  | 4 => whenZero w [(4, 1), (19, 6)] ((getTAB w).map .ttstore)
  | 5 => whenZero w [(4, 1), (9, 5)] ((getTMA w).map .ttmask)
  | 6 => whenZero w [(4, 1), (9, 5)] ((getTWA w).map .ttpos)
  | 7 => whenZero w [(4, 1)] ((getTWAB w).map .ttdepth)
  | 8 => whenZero w [(4, 1), (9, 5)] ((getTWA w).map .ttpath)
  | 9 => whenZero w [(4, 1), (9, 5)] ((getTWA w).map .ttprune)
  | 10 => whenZero w [(4, 1), (9, 5)] ((getTDA w).map .ttstat)
  | _ => .error .unassignedFunction

/-- Decodes one word in the section of a stream: checks 1 to 4 of Table 3-5, in order (R61). The check of a CSR
number against the executing stream, also check 4, is made where CSRR and CSRW run (R106). -/
def decodeIn (sec : Sec) (w : Nat) : Except DecodeError Instr :=
  match fld w 25 6 with
  | 0x00 => major00 w
  | 0x01 => major01 w
  | 0x02 => major02 w
  | 0x03 => major03 w
  | 0x04 => major04 w
  | 0x05 => major05 w
  | 0x06 => major06 w
  | 0x07 => major07 w
  | 0x08 => major08 w
  | 0x09 => major09 w
  | 0x0A => major0A w
  | 0x0B => major0B w
  | 0x0C => major0C w
  | 0x0D => major0D w
  | 0x0E => major0E w
  | 0x0F => major0F w
  | 0x10 => major10 w
  | 0x11 => major11 w
  | 0x12 => major12 w
  | 0x13 => major13 w
  | 0x14 => major14 w
  | 0x15 => if sec = .ctl then major15 w else .error .unassignedMajor
  | 0x16 => if sec = .ctl then major16 w else .error .unassignedMajor
  | 0x17 => major17 w
  | 0x18 => major18 w
  | 0x19 => major19 w
  | 0x1A => major1A w
  | 0x1B => major1B w
  | 0x1C => major1C w
  | 0x1D => major1D w
  | 0x1E => major1E w
  | 0x1F => major1F sec w
  | 0x20 => if sec = .ctl ∨ sec = .copy then major20 w else .error .unassignedMajor
  | 0x21 => if sec = .ctl then major21 w else .error .unassignedMajor
  | 0x22 => if sec = .ctl then major22 w else .error .unassignedMajor
  | 0x23 => if sec = .ctl then major23 w else .error .unassignedMajor
  | 0x24 => if sec = .copy then major24 w else .error .unassignedMajor
  | 0x25 => if sec = .copy then major25 w else .error .unassignedMajor
  | 0x26 => if sec = .copy then major26 w else .error .unassignedMajor
  | 0x28 => if sec = .mat then major28 w else .error .unassignedMajor
  | 0x30 => if sec = .vec then major30 w else .error .unassignedMajor
  | 0x31 => if sec = .vec then major31 w else .error .unassignedMajor
  | 0x32 => if sec = .vec then major32 w else .error .unassignedMajor
  | 0x33 => if sec = .vec then major33 w else .error .unassignedMajor
  | 0x34 => if sec = .vec then major34 w else .error .unassignedMajor
  | 0x35 => if sec = .vec then major35 w else .error .unassignedMajor
  | 0x36 => if sec = .vec then major36 w else .error .unassignedMajor
  | 0x37 => if sec = .vec then major37 w else .error .unassignedMajor
  | 0x38 => if sec = .vec then major38 w else .error .unassignedMajor
  | 0x39 => if sec = .vec then major39 w else .error .unassignedMajor
  | 0x3A => if sec = .vec then major3A w else .error .unassignedMajor
  | 0x3C => if sec = .vec then major3C w else .error .unassignedMajor
  | _ => .error .unassignedMajor

/-- The word of an instruction, from the encoding tables; an event has no word. -/
def encode : Instr → Option Nat
  | .add o => some (0x00000000 + putDABP o)
  | .sub o => some (0x00000001 + putDABP o)
  | .mul o => some (0x00000002 + putDABP o)
  | .mulh o => some (0x00000003 + putDABP o)
  | .mulhz o => some (0x00000004 + putDABP o)
  | .div o => some (0x00000005 + putDABP o)
  | .divz o => some (0x00000006 + putDABP o)
  | .rem o => some (0x00000007 + putDABP o)
  | .remz o => some (0x00000008 + putDABP o)
  | .and o => some (0x00000009 + putDABP o)
  | .or o => some (0x0000000A + putDABP o)
  | .xor o => some (0x0000000B + putDABP o)
  | .andn o => some (0x0000000C + putDABP o)
  | .shl o => some (0x0000000D + putDABP o)
  | .shr o => some (0x0000000E + putDABP o)
  | .sha o => some (0x0000000F + putDABP o)
  | .min o => some (0x00000010 + putDABP o)
  | .max o => some (0x00000011 + putDABP o)
  | .minz o => some (0x00000012 + putDABP o)
  | .maxz o => some (0x00000013 + putDABP o)
  | .adda o => some (0x00000014 + putDABP o)
  | .clz o => some (0x00000015 + putDAP o)
  | .ctz o => some (0x00000016 + putDAP o)
  | .popc o => some (0x00000017 + putDAP o)
  | .sext o => some (0x00000018 + putDABP o)
  | .pick o => some (0x00000019 + putDABP o)
  | .addi o => some (0x02000000 + putDAI o)
  | .andi o => some (0x04000000 + putDAI o)
  | .ori o => some (0x06000000 + putDAI o)
  | .xori o => some (0x08000000 + putDAI o)
  | .shli o => some (0x0A000000 + putDAH o)
  | .shri o => some (0x0A000200 + putDAH o)
  | .shai o => some (0x0A000400 + putDAH o)
  | .lil o => some (0x0C000000 + putDI o)
  | .lih o => some (0x0E000000 + putDI o)
  | .bfx o => some (0x10000000 + putBfOps o)
  | .bfi o => some (0x12000000 + putBfOps o)
  | .cmp o => some (0x14000000 + putCmpOps o)
  | .cmpi o => some (0x16000000 + putCmpiOps o)
  | .plog o => some (0x18000000 + putPlogOps o)
  | .sel o => some (0x18000010 + putSelOps o)
  | .br o => some (0x1A000000 + putBOps o)
  | .call o => some (0x1C000000 + putBOps o)
  | .jmp o => some (0x1E000000 + putAP o)
  | .callr o => some (0x1E000001 + putAP o)
  | .ret o => some (0x1E000002 + putGP o)
  | .ndim o => some (0x20000000 + putNdimOps o)
  | .nest o => some (0x20000200 + putNestOps o)
  | .lidx o => some (0x20000400 + putLidxOps o)
  | .ld o => some (0x22000000 + putLdOps o)
  | .ldz o => some (0x24000000 + putLdOps o)
  | .st o => some (0x26000000 + putStOps o)
  | .ldn o => some (0x28000000 + putLdnOps o)
  | .stn o => some (0x28000200 + putStnOps o)
  | .fld o => some (0x2A000000 + putFldOps o)
  | .fst o => some (0x2C000000 + putFstOps o)
  | .csrr o => some (0x2E000000 + putCsrrOps o)
  | .csrw o => some (0x2E000400 + putCsrwOps o)
  | .cyc o => some (0x30000000 + putDP o)
  | .nop o => some (0x30000001 + putBare o)
  | .trap o => some (0x30000002 + putTrapOps o)
  | .fence o => some (0x32000000 + putFenceOps o)
  | .semsig o => some (0x34000000 + putYABsk o)
  | .semwait o => some (0x34000001 + putYABsk o)
  | .semtry o => some (0x34000002 + putYDABsk o)
  | .semadd o => some (0x34000003 + putYDABsk o)
  | .semcas o => some (0x34000004 + putYDABsk o)
  | .semrd o => some (0x34000005 + putYDAsk o)
  | .mtxlock o => some (0x36000000 + putYAsk o)
  | .mtxtry o => some (0x36000001 + putYDAsk o)
  | .mtxfree o => some (0x36000002 + putYAsk o)
  | .bararr o => some (0x36000003 + putYDABsk o)
  | .barwait o => some (0x36000004 + putYDABsk o)
  | .rdv o => some (0x36000005 + putBare o)
  | .evset o => some (0x38000000 + putYAk o)
  | .evclr o => some (0x38000001 + putYA o)
  | .evwait o => some (0x38000002 + putYABk o)
  | .waitlt o => some (0x38000003 + putYAB o)
  | .claim o => some (0x3A000000 + putYDABk o)
  | .commit o => some (0x3A000001 + putYDABk o)
  | .await o => some (0x3A000002 + putYDABk o)
  | .retire o => some (0x3A000003 + putYDABk o)
  | .sleepu o => some (0x3C000000 + putYA o)
  | .waita o => some (0x3C000001 + putYDAB o)
  | .mode o => some (0x3E000000 + putModeOps o)
  | .tret o => some (0x3E000001 + putGP o)
  | .ctxsave o => some (0x3E000002 + putABP o)
  | .ctxload o => some (0x3E000003 + putABP o)
  | .preempt o => some (0x3E000004 + putAP o)
  | .semmap o => some (0x3E000005 + putABP o)
  | .tlbinv o => some (0x3E000006 + putABP o)
  | .tlbprobe o => some (0x3E000007 + putDABP o)
  | .hint o => some (0x3E000008 + putABP o)
  | .halt o => some (0x3E000009 + putAP o)
  | .wflush o => some (0x3E00000A + putAP o)
  | .qcfg o => some (0x40000000 + putCAQ o)
  | .chmap o => some (0x40000001 + putCAH o)
  | .send o => some (0x40000002 + putCAH o)
  | .sends o => some (0x40000003 + putCPAH o)
  | .recv o => some (0x40000004 + putCDAQ o)
  | .recvs o => some (0x40000005 + putCDAQ o)
  | .peek o => some (0x40000006 + putCDQ o)
  | .qstat o => some (0x40000007 + putCDAH o)
  | .qfree o => some (0x40000008 + putCAQ o)
  | .mcast o => some (0x40000009 + putCAQ o)
  | .fgstart o => some (0x42000000 + putABP o)
  | .fgstop o => some (0x42000001 + putAP o)
  | .fgstat o => some (0x42000002 + putDAP o)
  | .fglate o => some (0x42000003 + putDAP o)
  | .fgwin o => some (0x42000004 + putABP o)
  | .fgpace o => some (0x42000005 + putABP o)
  | .fgmc o => some (0x42000006 + putAP o)
  | .fgmark o => some (0x42000007 + putABP o)
  | .launch o => some (0x44000000 + putDABP o)
  | .post o => some (0x44000001 + putDABP o)
  | .take o => some (0x44000002 + putDAP o)
  | .yieldJob o => some (0x44000003 + putAP o)
  | .doneJob o => some (0x44000004 + putAP o)
  | .coord o => some (0x44000005 + putDAP o)
  | .swcfg o => some (0x44000006 + putAP o)
  | .swtake o => some (0x44000007 + putDABP o)
  | .stgq o => some (0x44000008 + putDAP o)
  | .asamp o => some (0x46000000 + putABP o)
  | .amode o => some (0x46000001 + putAP o)
  | .athr o => some (0x46000002 + putABP o)
  | .aown o => some (0x46000003 + putAP o)
  | .aforce o => some (0x46000004 + putAP o)
  | .ahist o => some (0x46000005 + putDABP o)
  | .aclr o => some (0x46000006 + putAP o)
  | .astat o => some (0x46000007 + putDAP o)
  | .arel o => some (0x46000008 + putGP o)
  | .cset o => some (0x48000000 + putKRA o)
  | .cseti o => some (0x48040000 + putKRI o)
  | .cdim o => some (0x48080000 + putKDim o)
  | .cldc o => some (0x480C0000 + putKRA o)
  | .cstc o => some (0x48100000 + putKRA o)
  | .copy o => some (0x4A000000 + putDP o)
  | .gather o => some (0x4A000001 + putDP o)
  | .scatter o => some (0x4A000002 + putDP o)
  | .cfill o => some (0x4A000003 + putDP o)
  | .kvlist o => some (0x4A000004 + putDP o)
  | .ttile o => some (0x4A000005 + putDP o)
  | .cfollow o => some (0x4A000006 + putAP o)
  | .tdef o => some (0x4C000000 + putDABP o)
  | .publish o => some (0x4C000001 + putAP o)
  | .frmap o => some (0x4C000002 + putDABP o)
  | .cstat o => some (0x4C000003 + putDAP o)
  | .cbmap o => some (0x4C000004 + putDABP o)
  | .cresume o => some (0x4C000005 + putDAP o)
  | .ccancel o => some (0x4C000006 + putDAP o)
  | .cwait o => some (0x4C000007 + putAP o)
  | .mcfg o => some (0x50000000 + putAP o)
  | .mrel o => some (0x50000001 + putGP o)
  | .wload o => some (0x50000002 + putAP o)
  | .wflip o => some (0x50000003 + putAP o)
  | .mmul o => some (0x50000004 + putAP o)
  | .mband o => some (0x50000005 + putABP o)
  | .mtag o => some (0x50000006 + putAP o)
  | .mswap o => some (0x50000007 + putGP o)
  | .mclr o => some (0x50000008 + putAP o)
  | .msave o => some (0x50000009 + putABP o)
  | .mrest o => some (0x5000000A + putABP o)
  | .mpace o => some (0x5000000B + putAP o)
  | .mdrain o => some (0x5000000C + putGP o)
  | .mstat o => some (0x5000000D + putDAP o)
  | .vshape o => some (0x60000000 + putVShapeOps o)
  | .vld o => some (0x60000001 + putVWA o)
  | .vst o => some (0x60000002 + putVSA o)
  | .vldm o => some (0x60000003 + putVMA o)
  | .vstm o => some (0x60000004 + putVAM o)
  | .vgat o => some (0x60000005 + putVGatOps o)
  | .vsct o => some (0x60000006 + putVSctOps o)
  | .vsplat o => some (0x60000007 + putVWA o)
  | .vmovs o => some (0x62000000 + putVMovsOps o)
  | .viota o => some (0x62000001 + putVIotaOps o)
  | .vaccr o => some (0x62000002 + putVWA o)
  | .vaccw o => some (0x62000003 + putVSA o)
  | .vadd o => some (0x64000000 + putVWXY o)
  | .vsub o => some (0x64000001 + putVWXY o)
  | .vmul o => some (0x64000002 + putVWXY o)
  | .vmax o => some (0x64000003 + putVWXY o)
  | .vmin o => some (0x64000004 + putVWXY o)
  | .vabs o => some (0x64000005 + putVWX o)
  | .vneg o => some (0x64000006 + putVWX o)
  | .vclamp o => some (0x64000007 + putVWXY o)
  | .vscale o => some (0x66000000 + putVWXY o)
  | .vrcp o => some (0x66000001 + putVWX o)
  | .vrsq o => some (0x66000002 + putVWX o)
  | .vexp o => some (0x66000003 + putVWX o)
  | .vlog o => some (0x66000004 + putVWX o)
  | .vcvt o => some (0x68000000 + putVWXB o)
  | .vquant o => some (0x68000001 + putVQuantOps o)
  | .viadd o => some (0x6A000000 + putVWXY o)
  | .visub o => some (0x6A000001 + putVWXY o)
  | .vimul o => some (0x6A000002 + putVWXY o)
  | .vand o => some (0x6A000003 + putVWXY o)
  | .vor o => some (0x6A000004 + putVWXY o)
  | .vxor o => some (0x6A000005 + putVWXY o)
  | .vshl o => some (0x6A000006 + putVWXY o)
  | .vshr o => some (0x6A000007 + putVWXY o)
  | .vsha o => some (0x6C000000 + putVWXY o)
  | .vcmp o => some (0x6E000000 + putVCmpOps o)
  | .vicmp o => some (0x6E000001 + putVCmpOps o)
  | .vsel o => some (0x6E000002 + putVWXY o)
  | .vmlog o => some (0x6E000003 + putVMlogOps o)
  | .vmpop o => some (0x6E000004 + putVMdOps o)
  | .vmfirst o => some (0x6E000005 + putVMdOps o)
  | .vred o => some (0x70000000 + putVWXB o)
  | .vredc o => some (0x70000001 + putVWXB o)
  | .vscan o => some (0x70000002 + putVWXB o)
  | .vpart o => some (0x70000003 + putVWX o)
  | .vhist o => some (0x70000004 + putVWXB o)
  | .vord o => some (0x70000005 + putVWXB o)
  | .vtrn o => some (0x70000006 + putVWX o)
  | .vperm o => some (0x70000007 + putVWXY o)
  | .vosm o => some (0x72000000 + putVOsmOps o)
  | .vfma o => some (0x74000000 + putVFmaOps o)
  | .ttclr o => some (0x78000000 + putTA o)
  | .ttnew o => some (0x78000001 + putTDAB o)
  | .ttadd o => some (0x78000002 + putTDAB o)
  | .ttload o => some (0x78000003 + putTDAB o)
  | .ttstore o => some (0x78000004 + putTAB o)
  | .ttmask o => some (0x78000005 + putTMA o)
  | .ttpos o => some (0x78000006 + putTWA o)
  | .ttdepth o => some (0x78000007 + putTWAB o)
  | .ttpath o => some (0x78000008 + putTWA o)
  | .ttprune o => some (0x78000009 + putTWA o)
  | .ttstat o => some (0x7800000A + putTDA o)
  | .bartWrite => none
  | .sleepWake => none
  | .watchEvent => none
  | .watchPoll => none
  | .watchTimeout => none
  | .remoteSemRequest => none
  | .remoteSemAnswer => none
  | .remoteSemResend => none
  | .remoteSemTimeout => none
  | .remoteWithdrawal => none
  | .queueEntryArrival => none
  | .creditReturn => none
  | .messageAckTimeout => none
  | .timedRecvDue => none
  | .legRead => none
  | .legStart => none
  | .controlLeg => none
  | .sourceLegSend => none
  | .readyNotice => none
  | .goneAnswer => none
  | .multicastCellArrival => none
  | .multicastSilence => none
  | .legLand => none
  | .markFire => none
  | .schedulerDecision => none
  | .packetDeadline => none
  | .balancer => none
  | .recordDispatch => none
  | .jobRetire => none
  | .swarmRingPoll => none
  | .batchEmit => none
  | .auditCheckEnd => none
  | .commandStart => none
  | .cellArrival => none
  | .promiseDue => none
  | .freezeLimit => none
  | .commandComplete => none
  | .followOnArrival => none
  | .listedItemFinish => none
  | .tolerantRetry => none
  | .incomingWrite => none
  | .wloadDispatch => none
  | .wloadFillEnd => none
  | .wflipDispatch => none
  | .mmulDispatch => none
  | .mmulFinish => none
  | .resultLand => none
  | .trapEntry => none
  | .asyncTrapDelivery => none
  | .watchdogExpiry => none
  | .doorbell => none
  | .coreRetire => none
  | .lqwin => none
  | .hostMemRead => none
  | .hostMemWrite => none
  | .linkStateChange => none
  | .moduleReset => none
  | .bootgo => none
  | .bootVerify => none
  | .selfTestDone => none
  | .helper => none
  | .enrol => none
  | .attest => none
  | .evring => none
  | .powercap => none
  | .history => none
  | .unknownCommand => none
  | .mailboxDone => none
  | .go => none
  | .registerWrite => none
  | .eventPost => none
  | .flitReceive => none
  | .nakReceive => none
  | .linkRetrain => none
  | .retrainEnd => none
  | .routeLossTimeout => none
  | .moduleJoin => none
  | .moduleLeave => none
  | .patrolScrub => none
  | .layerMapOut => none
  | .stageBankSpare => none
  | .bulkBankSpare => none
  | .alertBackOff => none
  | .thermalStep => none
  | .thermalTrip => none
  | .powerCapStep => none
  | .farStoreAcknowledged => none
  | .translationWalkEnd => none
  | .spareRowCopied => none
  | .bankBlockEnd => none
  | .msixVectorUnmask => none

/-- The 32-bit word of four bytes, the first the least significant (R4, R51). -/
def wordOfBytes (b0 b1 b2 b3 : Byte) : Nat :=
  b0.toNat + 2 ^ 8 * b1.toNat + 2 ^ 16 * b2.toNat + 2 ^ 24 * b3.toNat

/-- The four bytes of a 32-bit word as they lie in scratchpad, lowest address first (R4, R51). -/
def bytesOfWord (w : Nat) : List Byte :=
  [BitVec.ofNat 8 (fld w 0 8), BitVec.ofNat 8 (fld w 8 8), BitVec.ofNat 8 (fld w 16 8), BitVec.ofNat 8 (fld w 24 8)]

/-- Decodes the first instruction of a list of bytes and returns the rest; `none` when fewer than four bytes are left. -/
def decodeBytes (sec : Sec) : List Byte → Option (Except DecodeError Instr × List Byte)
  | b0 :: b1 :: b2 :: b3 :: rest => some (decodeIn sec (wordOfBytes b0 b1 b2 b3), rest)
  | _ => none

/-- The section in which a word's major is assigned (Table 3-4): ctl for the common majors and for majors that ctl shares. -/
def homeSec (w : Nat) : Sec :=
  if 0x24 ≤ fld w 25 6 ∧ fld w 25 6 < 0x28 then .copy
  else if 0x28 ≤ fld w 25 6 ∧ fld w 25 6 < 0x30 then .mat
  else if 0x30 ≤ fld w 25 6 then .vec
  else .ctl

/-- The instruction the decoder reads from an instruction whose bits are `w` (the opcode table's numbering), in the
section where its major is assigned. Every instruction is one 32-bit word. -/
def decodeTableWord (nbits w : Nat) : Option Instr :=
  match decodeBytes (homeSec (w % 2 ^ nbits)) (bytesOfWord (w % 2 ^ nbits)) with
  | some (.ok i, _) => some i
  | _ => none

end Sys2Proof
end

