-- ==== Sys2Proof/Machine/State.lean ====
section
/-! DEFINITION. The state of the module as plain data, its faults and refusals, and the state after reset. -/

namespace Sys2Proof.Machine

/-- Bytes by address, strictly rising, no entry equal to what an unlisted address reads as (zero: log entry 2). -/
abbrev Memory := List Host.Cell

/-- Addresses strictly rise from `lo`, and no entry holds the default `d`. -/
def sparseWf {α : Type} [DecidableEq α] (d : α) : Nat → List (Nat × α) → Bool
  | _, [] => true
  | lo, (k, v) :: rest => decide (lo ≤ k) && decide (v ≠ d) && sparseWf d (k + 1) rest

/-- The canonical form of a memory. -/
def Memory.wf (m : Memory) : Bool := sparseWf (0 : Byte) 0 m

/-! ### Scalar state of a stream -/

/-- A value with the issue cycle of its stream from which it is readable (R62, R66). -/
structure Timed (α : Type) where
  val : α
  ready : Nat
  deriving DecidableEq, Repr

/-- A q slot or a physical named register: its value, when it is readable, and the FLD that will fill it (R64, R104). -/
structure Slot where
  val : Word
  ready : Nat
  fld : Option Nat
  deriving DecidableEq, Repr

/-- One item for each stream of a core (R17). -/
structure PerSec (α : Type) where
  ctl : α
  copy : α
  mat : α
  vec : α
  deriving DecidableEq, Repr

/-- One level of a loop nest: passes and the byte increments of the four base registers (Table 5-3). -/
structure NestLevel where
  count : BitVec 32
  inc : Vector (BitVec 24) 4
  deriving DecidableEq, Repr

/-- The nest state of the loop buffer (R95-R98). `base j` names n0-n15; `pos` is the body word to issue next. -/
structure Nest where
  levels : Nat
  base : Vector (Option (Fin 16)) 4
  level : Vector NestLevel 6
  idx : Vector (BitVec 32) 6
  origin : Vector Word 4
  nestPc : BitVec 22
  words : Nat
  active : Bool
  pos : Nat
  deriving DecidableEq, Repr

/-- The scalar register bank of a job or of the supervisor (R80, R81, R368). The supervisor uses the first 64 physical
registers in 8 groups. `holds g` is the logical group that physical group g holds; `none` after a spill. -/
structure Bank where
  q : Vector Slot 16
  regs : Vector Slot 128
  holds : Vector (Option Nat) 16
  preds : Vector (Timed Bool) 16
  nest : Nest
  depth : Nat
  deriving DecidableEq, Repr

/-- Numeric control and status (Table 2-9). -/
structure Ncs where
  rm : BitVec 2
  nv : Bool
  dz : Bool
  of : Bool
  uf : Bool
  nx : Bool
  deriving DecidableEq, Repr

/-- A trap: its cause code (Table 19-1) and record (Table 19-2). -/
structure TrapRec where
  cause : Nat
  info : Word
  addr : Word
  deriving DecidableEq, Repr

/-- The trap registers of one level: TSTAT..TVEC or SSTAT..STVEC (Tables 19-9, 19-10). -/
structure TrapRegs where
  inh : Bool
  pmode : Bool
  ppriv : Bool
  nact : Bool
  npos : BitVec 6
  cause : BitVec 8
  info : Word
  addr : Word
  epc : BitVec 22
  vec : BitVec 22
  deriving DecidableEq, Repr

/-- An FLD in flight (R104): its number, which marks the slot it will fill, its class, promise, the cycle its data arrives, whether it
has arrived, the value and whether it was uncorrectable, its virtual address, its program counter, and the late mark (R170). -/
structure Fld where
  id : Nat
  cls : Fin 16
  /-- Bytes that its early data takes in the landing buffer (R104, R169). -/
  size : Nat
  promise : Nat
  arrive : Nat
  arrived : Bool
  val : Word
  bad : Bool
  va : Nat
  pa : Nat
  pc : BitVec 22
  late : Bool
  /-- Its destination is a named register (R65). -/
  named : Bool
  deriving DecidableEq, Repr

/-- A remote semaphore operation awaiting its answer (R135, R136). `withdraw`: it has been asked back, and `park`: the stream parks with the answer. -/
structure RemoteWait where
  owner : BitVec 32
  req : SemReq
  issued : Nat
  acked : Bool
  refusedAt : Option Nat
  withdraw : Bool
  park : Bool
  deriving DecidableEq, Repr

/-- What a stream waits for (R63, R133). Each carries what completing the instruction needs. -/
inductive Wait where
  /-- SEMWAIT of a local semaphore, in its FIFO. -/
  | sem (phys n : Nat)
  /-- MTXLOCK, in the mutex's FIFO. -/
  | mutex (m : Nat)
  /-- BARWAIT: the next phase completion of the barrier. -/
  | barrier (b : Nat) (d : SDst)
  /-- RDV at generation g. -/
  | rdv (g : BitVec 8)
  /-- EVWAIT, consuming or not. -/
  | flag (e : Nat) (consume : Bool)
  /-- WAITLT: counter below the threshold. -/
  | counter (c t : Nat)
  /-- AWAIT on a ring control block. -/
  | ring (a n : Nat) (d : SDst)
  /-- SLEEPU until a device cycle. -/
  | sleep (t : Nat)
  /-- WAITA: the watched word, in scratchpad or at a global physical address; `due` is when the timeout ends, `poll` the next
  periodic read. -/
  | watch (spad : Bool) (a : Nat) (old : Word) (d : SDst) (due : Option Nat) (poll : Option Nat)
  /-- A remote semaphore operation. -/
  | remote (r : RemoteWait) (d : Option SDst)
  /-- CWAIT for a command's completion. -/
  | command (seq : Nat)
  /-- A SEND without credit. -/
  | credit (ch : Nat) (a : Nat)
  /-- A RECV of an empty queue, or a timed one until its promise. -/
  | recv (q : Nat) (a : Nat) (d : SDst) (promise : Option Nat)
  /-- TAKE into the record at `a`. -/
  | take (a : Nat) (d : SDst)
  /-- SWTAKE of a swarm into `a`. -/
  | swtake (swarm a : Nat) (d : SDst)
  /-- HALT of the ctl stream until SPEND is nonzero (R381). -/
  | halt
  /-- CTXSAVE until its writes to another module have performed (R383). -/
  | saved
  deriving DecidableEq, Repr

/-- A waiting instruction: the condition, and its settle bit. -/
structure Waiting where
  on : Wait
  settle : Bool
  deriving DecidableEq, Repr

/-- Why a stream issues nothing: it has not started or was parked (R77, R379); `byTrap` holds the parked record and entry pc. `idle`: the core has not been
placed since module reset, and RUNST does not show the stream (Table 19-9). -/
structure Parked where
  byTrap : Option TrapRec
  idle : Bool := false
  deriving DecidableEq, Repr

/-- A vector-class result on its way (R48, R257): the issue cycle of its stream in which it lands, the flags that it then sets, and
the trap of a load with the load's program counter. -/
structure Landing where
  due : Nat
  flags : BitVec 5
  trap : Option (TrapRec × BitVec 22)
  deriving DecidableEq, Repr

/-- A trap found after its instruction (R155, R170, R104): its record, and the program counter that it saves where that is not the next
word to issue. -/
structure Deferred where
  record : TrapRec
  pc : Option (BitVec 22)
  deriving DecidableEq, Repr

/-- One stream: the state of R80, its trap registers (R394) and the model's record of what it waits for. -/
structure Stream where
  pc : BitVec 22
  /-- The stream's issue cycle count: at most one word a core cycle (R62). -/
  clk : Nat
  /-- The latest cycle in which some issued result becomes readable (R67). -/
  maxReady : Nat
  /-- The latest cycle in which some result issued to a named register becomes readable, whatever the register holds since (R65). -/
  namedReady : Nat
  /-- The last instruction issued had its settle bit set (R67). -/
  settling : Bool
  /-- true: interlocked; false: exposed (R68). -/
  mode : Bool
  job : Bank
  sup : Bank
  /-- true: supervisor mode (R368). -/
  priv : Bool
  parked : Option Parked
  /-- A PREEMPT or HALT asked the stream, which waits, to park at its own turn (R129, R133, R379). -/
  parkAsked : Bool
  ncs : Ncs
  wstOver : Bool
  wstUnder : Bool
  spb : BitVec 16
  spl : BitVec 16
  sspb : BitVec 16
  sspl : BitVec 16
  fldl : BitVec 16
  fldp : Word
  watcht : BitVec 32
  rcvl : BitVec 16
  rcvp : Word
  trap : TrapRegs
  strap : TrapRegs
  tdlg : Word
  /-- PKCAUSE, PKINFO, PKADDR of the context (Table 19-3). -/
  park : TrapRec
  waiting : Option Waiting
  /-- RDVP and RDVG: a rendezvous pending at this generation (R142). -/
  rdvPending : Option (BitVec 8)
  /-- Traps found after their instruction, taken at the next boundary (R155, R170, R257). -/
  deferred : List Deferred
  /-- Engine faults not yet taken (R145, R155). -/
  faults : List TrapRec
  flds : List Fld
  /-- Flags and load traps of vector-class results in flight. -/
  landing : List Landing
  /-- Eprev of the FLD promise chain (R168). -/
  eprev : Nat
  deriving DecidableEq, Repr

/-! ### The semaphore file (R128) -/

/-- One waiter in the FIFO of a semaphore: the core (coordinate word), stream and count; `remote` holds the number of the request
when it came by message. -/
structure SemWaiter where
  coord : BitVec 32
  sec : Sec
  n : Nat
  remote : Option Nat
  deriving DecidableEq, Repr

/-- A counting semaphore and its FIFO (R137, R138). -/
structure Semaphore where
  val : BitVec 32
  fifo : List SemWaiter
  deriving DecidableEq, Repr

/-- A mutex: the owning stream and the FIFO of waiters (R139). -/
structure Mutex where
  owner : Option Sec
  fifo : List Sec
  deriving DecidableEq, Repr

/-- A barrier (Table 7-7). -/
structure Barrier where
  target : BitVec 8
  arrived : BitVec 8
  phase : BitVec 8
  deriving DecidableEq, Repr

/-- The semaphore file of a core. -/
structure SyncFile where
  sems : Vector Semaphore 64
  mutexes : Vector Mutex 16
  barriers : Vector Barrier 8
  flags : BitVec 32
  counters : Vector (BitVec 16) 32
  rdvGen : BitVec 8
  rdvArrived : PerSec Bool
  /-- The semaphore map, 256 entries of Table 7-5. -/
  map : Vector Word 256
  deriving DecidableEq, Repr

/-! ### The copy engine (R152-R196) -/

/-- The command kinds of major 0x25, and TDEF. -/
inductive CmdKind where
  | copy | gather | scatter | cfill | kvlist | ttile
  deriving DecidableEq, Repr

/-- One scratchpad write of an engine: a byte, a whole cell's tag, or poison (R169, R190). `a` is an address before frame translation or, with a frame of the
core, an offset in its write window, which stands where the frame has it when the write performs (R125, R174). -/
inductive HeldWrite where
  | byte (f : Option (Fin 16)) (a : Nat) (b : Byte)
  | tag (f : Option (Fin 16)) (a : Nat) (t : BitVec 16)
  | poison (f : Option (Fin 16)) (a : Nat)
  deriving DecidableEq, Repr

/-- Where an issued command stands (Table 8-9): frozen and late are states of the core and of the mark `late`. -/
inductive CmdPhase where
  | queued | fetching | held | landed
  deriving DecidableEq, Repr

/-- An item of a list as read at the start: its number, the index or SRC, and for KVLIST the DOFF and LENI (R178, R183). -/
structure ListItem where
  idx : Nat
  x : Int
  doff : Nat
  len : Nat
  deriving DecidableEq, Repr

/-- A command of the copy engine and its status record (R152, R191). -/
structure Cmd where
  seq : BitVec 16
  kind : CmdKind
  /-- The sixteen captured command registers (R156). -/
  cw : Vector Word 16
  /-- NCS.RM of the copy stream at issue (Table 8-3). -/
  rm : BitVec 2
  /-- The physical semaphore of SEM, translated at issue: coordinate word when remote (R134, R163). -/
  sem : Option Word
  lsem : Option Word
  timed : Bool
  promise : Nat
  arrive : Nat
  phase : CmdPhase
  late : Bool
  cancelled : Bool
  fault : Nat
  first : Nat
  poison : Nat
  bitmap : Option (Fin 16)
  susp : Bool
  /-- Items finished so far, the slot number k of the landed ring (R185). -/
  ringCount : Nat
  /-- Items of a listed command still to finish, in list order; `skipped` wait for the tolerant retry (R184). -/
  todo : List ListItem
  skipped : List ListItem
  retried : Bool
  /-- Items finished whose writes still wait for the promise. -/
  heldItems : List Nat
  /-- Writes that wait for the promise (R169). -/
  held : List HeldWrite
  /-- Writes that wait for room in the landing buffer, cell by cell, and the items whose cells they are (R169). -/
  delayed : List HeldWrite
  delayedItems : List Nat
  /-- Items performed whose writes to another module are not all acknowledged (R178). -/
  unackedItems : List Nat
  /-- Flags that accrue at completion (R48). -/
  flags : BitVec 5
  published : Bool
  followed : Bool
  /-- FMT of the handle that a started TTILE uses (R189). -/
  fmt : Nat
  deriving DecidableEq, Repr

/-- Who owns a completion bitmap (Table 9-2). -/
inductive BitmapState where
  | free
  | running (seq : BitVec 16)
  | suspended (seq : BitVec 16)
  deriving DecidableEq, Repr

/-- The copy engine with its landing buffer and freeze state. -/
structure CopyEngine where
  cw : Vector (Timed Word) 16
  /-- Issued commands not yet completed, oldest first, at most 64 (R152). -/
  queue : List Cmd
  /-- Status records of completed commands, latest first (R191). -/
  records : List Cmd
  seq : BitVec 16
  eprev : Nat
  bitmaps : Vector (BitVec 4096) 16
  owners : Vector BitmapState 16
  /-- The device cycle in which the present freeze began (R170). -/
  frozenSince : Option Nat
  frzl : BitVec 16
  frzc : BitVec 32
  pgrq : BitVec 16
  pgdrp : BitVec 32
  deriving DecidableEq, Repr

/-! ### Message queues and channels (R197-R211) -/

/-- An inbound queue (R197, Table 10-4). `origins` holds the origin word of each occupied entry, head first;
`credits` the pending credit of each origin (R206). -/
structure MsgQueue where
  en : Bool
  base : BitVec 16
  lsize : Nat
  batch : Nat
  head : Nat
  origins : List Word
  drop : BitVec 16
  credits : List (Word × Nat)
  deriving DecidableEq, Repr

/-- A channel table entry with its live fields (Tables 10-1, 10-6). -/
structure Channel where
  coord : BitVec 32
  valid : Bool
  mc : Bool
  queue : BitVec 4
  credit : Nat
  fault : Nat
  sent : BitVec 16
  /-- Device cycles at which the entries in flight were sent, for the acknowledgement bound (R207). -/
  inFlight : List Nat
  deriving DecidableEq, Repr

/-- The queue unit of a core. -/
structure Messages where
  queues : Vector MsgQueue 16
  ctl : Vector Channel 64
  copy : Vector Channel 64
  /-- Multicast memberships (group, queue), at most 16 (R204). -/
  members : List (Nat × Nat)
  memqEn : Bool
  memq : BitVec 4
  deriving DecidableEq, Repr

/-! ### The vector stream's own state (R246, R282) -/

/-- The shape register VSH (Table 13-1). -/
structure Shape where
  type : BitVec 4
  rowsM1 : BitVec 6
  colsM1 : BitVec 12
  deriving DecidableEq, Repr

/-- The vector registers, queue and masks. -/
structure VectorFile where
  vq : Vector (Timed (BitVec 131072)) 16
  v : Vector (Timed (BitVec 131072)) 24
  m : Vector (Timed (BitVec 4096)) 16
  shape : Shape
  /-- The issue cycle in which the vector engine is next free (R250), and that by which the token-tree unit has performed (R288). -/
  busy : Nat
  treeBusy : Nat
  deriving DecidableEq, Repr

/-- A node of a token tree (R282). -/
structure TreeNode where
  token : BitVec 32
  parent : BitVec 8
  acc : Bool
  set : Bool
  deriving DecidableEq, Repr

/-- A tree: BASE and its nodes, node 0 first; SCNT is the number of settled nodes (R282, R283). -/
structure Tree where
  base : BitVec 32
  nodes : List TreeNode
  deriving DecidableEq, Repr

/-! ### The matrix array (R212-R245) -/

/-- What the array keeps of a group of 8 codes (R217). `nan fromInf`: the group is NaN, from an infinity code alone or not (R220). -/
inductive Group where
  | zero
  | nan (fromInf : Bool)
  | finite (ints : List Int) (x : Int) (gs : BitVec 8) (e : Int)
  deriving DecidableEq, Repr

/-- The state of the filling comb (Table 11-1). -/
inductive FillState where
  | empty | loading | loaded
  deriving DecidableEq, Repr

/-- The record of a comb (Table 12-10). -/
structure CombRecord where
  valid : Bool
  ww : Bool
  slot : BitVec 6
  samp : Bool
  addr : BitVec 16
  deriving DecidableEq, Repr

/-- A comb: its record and, in comb order, the decoded weight groups (patch, row, group) (R216). -/
structure Comb where
  record : CombRecord
  groups : List Group
  deriving DecidableEq, Repr

/-- An entry of the matrix queue: the command word and what it captured (R231, R232). -/
structure MatEntry where
  word : Word
  abv : BitVec 22
  bbv : BitVec 22
  slot : BitVec 6
  /-- A follow-on record (R237). -/
  fol : Bool
  /-- Entered by CTXLOAD: counts on no counter, never sampled (R245). -/
  reload : Bool
  deriving DecidableEq, Repr

/-- What a tap hands over (R303): the sample it was made for, the row, its decoded cells, the chain sums of the chosen columns and the MMUL's seq. -/
structure AuditTap where
  sample : Nat
  row : Nat
  /-- Cells of the row in the k K blocks: data cells and the scale cell, with tags (R303). -/
  aCells : List CellData
  sums : List (BitVec 32)
  seq : BitVec 32
  /-- CFG of the tapped MMUL. -/
  cfg : BitVec 8
  /-- Core cycles without a broadcast that the check still needs (R305). -/
  left : Nat
  deriving DecidableEq, Repr

/-- A WLOAD in the fill unit: when it ends, and what it writes or the fault that ends it. -/
structure FillJob where
  entry : MatEntry
  ends : Nat
  flags : BitVec 5
  fault : Option Nat
  deriving DecidableEq, Repr

/-- A dispatched MMUL: its broadcast's last core cycle, the cycle by which it finishes, the chain sums of its tile, and
what it hands the audit unit (R233, R236). -/
structure MmulJob where
  entry : MatEntry
  seq : BitVec 32
  lastPlane : Nat
  finish : Nat
  /-- Sums of R221 in tile order; `none` when the tile becomes NaN or nothing is written. -/
  sums : Option (List (BitVec 32))
  bandA : BitVec 16
  bandB : List (BitVec 16)
  flags : BitVec 5
  tap : Option AuditTap
  deriving DecidableEq, Repr

/-- The matrix fault record (Table 12-9). -/
structure MatFault where
  pend : Bool
  fol : Bool
  more : BitVec 6
  code : BitVec 8
  reason : BitVec 8
  kind : BitVec 2
  seq : BitVec 32
  deriving DecidableEq, Repr

/-- The matrix state of a core (Table 12-1) with the units behind the queue. -/
structure Matrix where
  cfg : BitVec 8
  wsel : Bool
  /-- Banks 0 and 1, element (r, c) at key 1024 r + c; an unlisted element is +0. -/
  bank0 : List (Nat × BitVec 32)
  bank1 : List (Nat × BitVec 32)
  residentValid : Bool
  resident : Comb
  fillState : FillState
  filling : Comb
  slot : BitVec 6
  abv : BitVec 22
  bbv : BitVec 22
  swl : BitVec 3
  mseq : BitVec 32
  mflt : MatFault
  queue : List MatEntry
  fill : Option FillJob
  /-- Dispatched MMULs, oldest first; the last one may still broadcast. -/
  running : List MmulJob
  /-- The core cycle at which the MMUL at the head has served its pace delay (R226). -/
  paceUntil : Option Nat
  /-- A WFLIP making its exchange counts until then (Table 11-6). -/
  mark : Option Nat
  /-- The MDRAIN that waits has made its check for a fault (R239). -/
  checked : Bool
  /-- Pace levels set by the forager and by firmware (R227). -/
  fgl : BitVec 3
  therm : BitVec 3
  deriving DecidableEq, Repr

/-! ### The audit unit (R296-R317) -/

/-- An audit record (Table 16-5). -/
structure AuditRecord where
  repl : Bool
  slot : BitVec 6
  bin : Nat
  row : Nat
  col : Nat
  seq : BitVec 32
  dev : BitVec 32
  ref : Word
  deriving DecidableEq, Repr

/-- A held sample (R302, R303), with a number of its own. `cells` is the shard as the WLOAD read it. -/
structure AuditSample where
  num : Nat
  slot : BitVec 6
  c0 : Nat
  ncols : Nat
  stride : Nat
  frame : Fin 16
  need : Nat
  cells : List CellData
  tap : Option AuditTap
  deriving DecidableEq, Repr

/-- The audit state of a core (Table 16-1) with AUDLK. -/
structure Audit where
  mode : BitVec 2
  frame : BitVec 4
  s : Nat
  lfsr : BitVec 32
  filter : Word
  owner : BitVec 2
  en : BitVec 64
  thresholds : Vector (BitVec 4) 64
  /-- Counter b of slot t at key 16 t + b. -/
  histograms : List (Nat × BitVec 32)
  farm : Bool
  fany : Bool
  fslot : BitVec 6
  sample : Option AuditSample
  records : List AuditRecord
  pend : Bool
  /-- A replica mismatch awaits delivery (R311): its INFO and ADDR. -/
  replicaPend : Option TrapRec
  sampled : Nat
  checked : Nat
  busy : Nat
  noframe : Nat
  noroom : Nat
  spoiled : Nat
  discard : Nat
  mismatch : Nat
  lost : Nat
  lock : Bool
  deriving DecidableEq, Repr

/-! ### Foragers (R318-R339) -/

/-- The state of a walk (R318). -/
inductive WalkState where
  | idle | running | draining
  deriving DecidableEq, Repr

/-- Per-hop state of a walk (Table 17-1). -/
structure Hop where
  lead : BitVec 32
  win : Nat
  infc : Nat
  late : Int
  lcnt : BitVec 32
  deriving DecidableEq, Repr

/-- A leg as read (Table 17-2). -/
structure Leg where
  index : Nat
  src : Word
  dst : Word
  due : Nat
  cells : Nat
  hop : Nat
  semen : Bool
  mc : Bool
  listen : Bool
  group : Nat
  sem : Nat
  dep : Nat
  legno : Nat
  deriving DecidableEq, Repr

/-- Where a leg stands (Table 17-4): read, a source leg that has started and waits for ready notices (R328), open, moving. A control leg
is `read` until it is processed. -/
inductive LegState where
  | read | waiting | open_ | moving | written | signalling
  deriving DecidableEq, Repr

/-- A leg in the forager: its place in walk order, due cycle D, state, cells already written, the device cycle by which a transfer's data has arrived or
in which its last cell was written, the cells of a multicast leg that wait to be written (true: one that could not be read), whether the cells still
unwritten are to be poisoned (R330), and the source that a listening leg takes cells from: 8 x module + walk (R328). -/
structure LegJob where
  leg : Leg
  order : Nat
  dueAt : Int
  state : LegState
  moved : Nat
  arrive : Nat
  held : List (CellData × Bool)
  spoil : Bool
  source : Option Nat
  deriving DecidableEq, Repr

/-- A walk's fault record (Table 17-6). -/
structure WalkFault where
  pend : Bool
  more : BitVec 7
  code : BitVec 8
  index : BitVec 24
  wraps : BitVec 16
  deriving DecidableEq, Repr

/-- One walk of a forager (R318, R319). -/
structure Walk where
  state : WalkState
  /-- The job whose ctl stream started it (R318). -/
  job : Option Nat
  asid : BitVec 16
  root : Word
  /-- The privilege of the issuing stream (R387). -/
  priv : Bool
  steer : Nat
  base : Nat
  origin : Word
  /-- DELAY and issue cycle of FGSTART until leg FIRST is read (R335). -/
  starting : Option (Nat × Nat)
  wraps : BitVec 16
  hops : Vector Hop 3
  poison : Nat
  drop : Nat
  fault : WalkFault
  /-- Armed mark: core, event flag and INDEX; `markHit` lists the orders of the legs whose landing it awaits (R337). -/
  mark : Option (Nat × Nat × Nat)
  markHit : Option (List Nat)
  /-- Legs read but not landed, in walk order. -/
  legs : List LegJob
  /-- The place in walk order of the next leg to read, and the index of that leg. -/
  order : Nat
  readNext : Nat
  /-- The device cycle of the last read: the model reads at most one leg a cycle, a pace that the spec leaves open. -/
  readAt : Nat
  /-- Multicast groups that the walk has joined. -/
  members : List Nat
  /-- (GROUP, LEGNO) of source legs that have begun reading (R328). -/
  sent : List (Nat × Nat)
  deriving DecidableEq, Repr

/-! ### Translation -/

/-- A cached leaf: address space, virtual page base, the level that mapped it and its entry (R388). -/
structure TlbEntry where
  asid : BitVec 16
  va : Nat
  level : Nat
  pte : Word
  deriving DecidableEq, Repr

/-- A cached entry of a table above the leaves: address space, level, address of the entry, and the entry (R388). -/
structure WalkEntry where
  asid : BitVec 16
  level : Nat
  addr : Nat
  va : Nat
  pte : Word
  deriving DecidableEq, Repr

/-! ### A core -/

/-- A record in a stage queue or inbox: its cell and origin word (R352, R361). -/
structure TaskRec where
  cell : BitVec 512
  origin : Word
  deriving DecidableEq, Repr

/-- A ready notice held for a source leg: its group and leg number, and the module and walk that sent it (R328). -/
structure Notice where
  group : Nat
  legno : Nat
  module : Nat
  walk : Nat
  deriving DecidableEq, Repr

/-- A subscription to a walk's lateness (R327). -/
structure Pace where
  walk : Nat
  th : BitVec 32
  step : BitVec 32
  hops : BitVec 3
  deriving DecidableEq, Repr

/-- A store of a stream that its accesses of other classes need not find yet (R102, R115, R116), while no other write has come there: the count at which
it was made, its physical address, the bytes before it, and the classes that find it. -/
structure Loose where
  time : Nat
  addr : Nat
  old : List Byte
  seen : BitVec 16
  deriving DecidableEq, Repr

/-- A core of the module. -/
structure CoreState where
  /-- Logical core number (R15). -/
  num : Nat
  streams : PerSec Stream
  sync : SyncFile
  copy : CopyEngine
  /-- FRM0-FRM15 (Table 8-11). -/
  frames : Vector Word 16
  msgs : Messages
  mat : Matrix
  vec : VectorFile
  trees : Vector (Option Tree) 64
  audit : Audit
  /-- The scratchpad's bytes, tags by cell number, and lines with an uncorrectable error. -/
  spad : Memory
  spadTags : List (Nat × BitVec 16)
  spadBad : List Nat
  /-- SRBASE and SRLIM in 4 KiB units (Table 19-9). -/
  srbase : BitVec 10
  srlim : BitVec 11
  ptroot : Word
  asid : BitVec 16
  smsel : BitVec 8
  wdog : Word
  dbe : Bool
  prqe : Bool
  stop : Bool
  /-- Pending asynchronous causes with their records (R375). -/
  pendWatchdog : Option Word
  pendParked : PerSec Bool
  pendPreempt : Bool
  pendHost : Option (BitVec 32)
  /-- What pends for the next task boundary (R362): a pre-emption, a move to a stage, the job's end. -/
  preemptReq : Bool
  moveReq : Option Nat
  jobEnd : Bool
  /-- A TAKE that waited was withdrawn for one of these, and ends the task when it reissues (R361). -/
  taskEnds : Bool
  /-- The job and stage the core is placed in. -/
  place : Option (Nat × Nat)
  inbox : List TaskRec
  /-- Core cycles lost to freezes: CCC is the device cycle less these (R19). -/
  frozen : Nat
  l1 : List TlbEntry
  pace : Option Pace
  /-- FSTs issued and not yet acknowledged (R105, R119): number and class. -/
  farStores : List (Nat × Fin 16)
  /-- Each stream's section: its base and size (Table 4-4). -/
  sections : PerSec (BitVec 22 × Nat)
  /-- Words of a stream's section that were written since its last FENCE kall, with the word before: a fetch finds either (R121). -/
  oldWords : PerSec (List (Nat × BitVec 32))
  /-- Scratchpad stores of each stream that it need not find in every class, latest first (R102, R116). -/
  loose : PerSec (List Loose)
  deriving DecidableEq, Repr

/-! ### Launch, scheduling and the swarm gatherer (R340-R367) -/

/-- A packet in a launch queue; `job` names the suspended job it will resume (R346), `late` that LATEC counted it (R347). -/
structure Packet where
  data : BitVec 512
  job : Option Nat
  late : Bool
  deriving DecidableEq, Repr

/-- A launch queue (R341, Table 21-4). -/
structure LaunchQueue where
  en : Bool
  devok : Bool
  tenant : BitVec 16
  drop : BitVec 8
  packets : List Packet
  deriving DecidableEq, Repr

/-- A section of a stage record: its load address, size, offset in the image and mode (Table 4-4). -/
structure Section where
  base : BitVec 22
  size : Nat
  offset : Nat
  mode : Bool
  deriving DecidableEq, Repr

/-- What placement read of a stage: its sections, its scratch area (load address, size, image offset) and the entries of its table block
(Tables 4-4, 4-6). A channel entry holds whether its stream is copy. -/
structure StageImage where
  secs : PerSec Section
  scratch : BitVec 22
  scratchSize : Nat
  scratchOffset : Nat
  frames : List (Fin 16 × Word)
  channels : List (Bool × Fin 64 × Word)
  sems : List (Nat × Word)
  deriving DecidableEq, Repr

/-- A stage of a placed job: its table entry, what placement read of it, and its queue (Table 18-1, R353). -/
structure Stage where
  min : Nat
  pinned : Bool
  inq : Nat
  image : StageImage
  records : List TaskRec
  deriving DecidableEq, Repr

/-- Where a job stands (Table 18-4); `dropped`: suspended, its late packet dropped, and its walks still to come idle (R343, R347). -/
inductive JobState where
  | running | suspended | ending | dropped
  deriving DecidableEq, Repr

/-- A job that has been placed and has not retired; `image` is the base of its image. -/
structure Job where
  num : Nat
  image : Nat
  packet : BitVec 512
  queue : Nat
  asid : BitVec 16
  root : Word
  stages : List Stage
  state : JobState
  code : BitVec 32
  start : Nat
  preempts : BitVec 32
  deriving DecidableEq, Repr

/-- The module scheduler. `heldFor` is the queue and the packet that freed cores are held for (R346); the last two are the device cycles of the latest
decision (R344) and balancing (R350). -/
structure Scheduler where
  queues : Vector LaunchQueue 64
  jobs : List Job
  nextJob : BitVec 32
  heldFor : Option (Nat × Packet)
  pmargin : BitVec 32
  latec : BitVec 32
  lastDecision : Nat
  lastBalance : Nat
  deriving DecidableEq, Repr

/-- A request ring of the gatherer (R354). -/
structure SwarmRing where
  en : Bool
  desc : Nat
  asid : BitVec 16
  root : Word
  deriving DecidableEq, Repr

/-- An emitted batch (Table 18-12). -/
structure Batch where
  num : BitVec 32
  rows : Nat
  deadline : Word
  full : Bool
  slack : Bool
  late : Bool
  /-- The address of its rows and MODEL, as the swarm stood when it was emitted. -/
  addr : Nat
  model : BitVec 16
  deriving DecidableEq, Repr

/-- A swarm (Table 18-7, R355). `openRows` are the 32-byte rows of the open batch; `emitted` wait to be taken; `taken` hold their slots. -/
structure Swarm where
  en : Bool
  model : BitVec 16
  target : Nat
  slack : Word
  slots : Nat
  nslot : Nat
  tenant : BitVec 16
  asid : BitVec 16
  root : Word
  openRows : List (BitVec 256)
  nextBatch : BitVec 32
  emitted : List Batch
  taken : List (BitVec 32)
  deriving DecidableEq, Repr

/-- The swarm gatherer, with the cores waiting at SWTAKE in order of arrival: (swarm, core). -/
structure Gatherer where
  rings : Vector SwarmRing 16
  swarms : Vector Swarm 16
  waiters : List (Nat × Nat)
  /-- The device cycle in which the rings were last polled (R354). -/
  lastPoll : Nat
  deriving DecidableEq, Repr

/-! ### Tensor handles (R187) -/

/-- A defined handle. `cells` holds the stored cells by logical cell number; an unlisted cell is a free value. -/
structure Handle where
  base : Nat
  size : Nat
  rows : Nat
  cols : Nat
  fmt : BitVec 8
  pad : BitVec 32
  asid : BitVec 16
  /-- The 64 KiB units of the part's own memory that the extent occupies. -/
  units : List Nat
  /-- Those of the units whose page is poison-on-access (R190). -/
  pacUnits : List Nat
  /-- Layer map-out has moved its rows into free stage space, out of the units of its extent (R398). -/
  moved : Bool
  cells : List (Nat × CellData)
  deriving DecidableEq, Repr

/-! ### Host attachment, boot and fabric (R405-R421) -/

/-- The boot states (Table 21-5). -/
inductive BootState where
  | wait | verify | test | negotiate | ready
  deriving DecidableEq, Repr

/-- The event ring that EVRING named (Table 21-13). -/
structure EventRing where
  desc : Nat
  base : Nat
  log2 : Nat
  prod : Word
  deriving DecidableEq, Repr

/-- The host register block (Table 21-2), the mailbox, and what firmware keeps for them. -/
structure HostBlock where
  offer : BitVec 256
  accept : BitVec 256
  locked : Bool
  fail : Bool
  counts : Word
  present : BitVec 192
  tentab : Word
  domid : BitVec 12
  linkst : Word
  bootaddr : Word
  bootlen : BitVec 32
  bootst : BitVec 8
  boot : BootState
  meas : BitVec 256
  idpub : BitVec 256
  mbcmd : BitVec 16
  mbarg0 : Word
  mbarg1 : Word
  /-- BUSY, LEN and STATUS of MBSTAT. -/
  busy : Bool
  mblen : BitVec 32
  mbstatus : BitVec 16
  /-- The command taken at MBGO, performed and awaiting MAILBOX_DONE: its status and length. -/
  mbresult : Option (BitVec 16 × BitVec 32)
  mbwin : BitVec 32768
  pdec : Vector (BitVec 32) 128
  pdsz : Vector (BitVec 32) 128
  srreg : Vector (BitVec 27) 192
  /-- The base of the HDM decoder, and whether the host has programmed it (R405). -/
  hdmBase : Nat
  hdmOn : Bool
  /-- Stage lines written by the host before the lock: line number and the bytes written (R401). -/
  earlyWrites : List (Nat × BitVec 64)
  hostUp : Bool
  poolUp : BitVec 8
  /-- An identity has been derived since boot, by ENROL when `idNew` (R410). -/
  identity : Bool
  idNew : Bool
  /-- The identity seed, and a seed derived by the command in hand, which takes effect when that completes: true for ENROL (R410). -/
  seed : BitVec 256
  newSeed : Option (BitVec 256 × Bool)
  /-- Public keys of identities enrolled so far, from which every later one differs (R410). -/
  enrolled : List (BitVec 256)
  /-- The sealed history that came after the image, accepted or not yet checked, and the repair map (R411, R415). -/
  history : List Byte
  map : List Byte
  evring : Option EventRing
  /-- Events found and not yet written, oldest first, with EVSEQ and the device cycle of each (R414). -/
  evWaiting : List (EventRec × BitVec 32 × Nat)
  /-- An event was dropped since the last record written. -/
  evLost : Bool
  evSeq : BitVec 32
  /-- MSI-X mask and pending bits, and the vectors sent, latest first (R310, R407). -/
  msixMask : BitVec 256
  msixPend : BitVec 256
  msixSent : List Nat
  powercap : BitVec 16
  /-- The repairs made since boot, which firmware adds to the sealed history (R411). -/
  repairs : List EventRec
  deriving DecidableEq, Repr

/-- A request on its way to another module: its destination, what it asks for, its ordering class, and who awaits its acknowledgement. -/
structure Outgoing where
  module : Nat
  act : FlitAct
  cls : Fin 16
  who : Requester
  deriving DecidableEq, Repr

/-- An Ikindi port (R418-R420). `replay` holds sent flits not yet acknowledged with how often each was resent; `sent` is what went out on the
link, flit by flit as the 256 bytes of Table 21-9, latest first. -/
structure Port where
  up : Bool
  spareUsed : Bool
  retraining : Bool
  expect : BitVec 16
  nextSeq : BitVec 16
  /-- A NAK was sent for this SEQ; later flits are discarded until it arrives. -/
  nakFor : Option (BitVec 16)
  replay : List (Flit × Nat)
  sent : List (List Byte)
  deriving DecidableEq, Repr

/-- Memory repair state (Table 20-1, R395-R403). -/
structure Tiers where
  stcap : Nat
  stlayr : BitVec 64
  corrs : BitVec 32
  corrb : BitVec 32
  uncs : BitVec 32
  uncb : BitVec 32
  aboall : BitVec 32
  abomax : BitVec 32
  patb : BitVec 32
  pats : BitVec 32
  /-- Bank copies in progress, stage and bulk: (bank, rows copied). -/
  copies : List (Nat × Nat)
  /-- Banks whose spare is in use. -/
  spares : List Nat
  /-- Banks blocked for owed refreshes, with the device cycle since which (R403). -/
  blocked : List (Nat × Nat)
  /-- The atoms that the patrol of the stage and of bulk reads next, by number within the tier, and the device cycles of its last reads (R397). -/
  nextStage : Nat
  nextBulk : Nat
  lastStage : Nat
  lastBulk : Nat
  /-- The layers mapped out, latest first: 16 x stack + layer (R398). -/
  retired : List Nat
  deriving DecidableEq, Repr

/-- Thermal and power control (R421): the level of each die by temperature, the power-cap level, and which dies stand at 115 degrees or more. -/
structure Thermal where
  level0 : BitVec 3
  level1 : BitVec 3
  cap : BitVec 3
  tripped : Bool
  hot0 : Bool
  hot1 : Bool
  /-- Device cycles of the last temperature step and the last power-cap step. -/
  lastStep : Nat
  lastCap : Nat
  deriving DecidableEq, Repr

/-! ### The module -/

/-- The state of the module: the core in focus and the other cores, in the order in which they take their turn; the stream
whose turn it is; the device cycle; the counter of free values (the model's own field); the events raised or put in from outside and not yet performed,
oldest first; global memory; and the module's units. -/
structure State where
  core : CoreState
  others : List CoreState
  turn : Sec
  now : Nat
  tick : Nat
  /-- Stores to global memory that the ctl stream of a core need not find in every class, latest first (R102, R116): core and store. -/
  farLoose : List (Nat × Loose)
  pending : List Event
  /-- The operands of the event in hand. -/
  arg : EventArg
  /-- Bytes of the module's global memory by local address (R22), tags by cell number, and the 32-byte units that read as uncorrectable. -/
  mem : Memory
  memTags : List (Nat × BitVec 16)
  memBad : List Nat
  /-- 32-byte units of stage cells that a layer map-out could not read: poisoned by tag in a described page, uncorrectable otherwise (R398). -/
  memLost : List Nat
  tlb0 : List TlbEntry
  tlb1 : List TlbEntry
  /-- The walk caches of the two dies. -/
  walk0 : List WalkEntry
  walk1 : List WalkEntry
  /-- Walks 0-3 of die 0, then 0-3 of die 1. -/
  walks : Vector Walk 8
  /-- Ready notices held for source legs. -/
  notices : List Notice
  sched : Scheduler
  gather : Gatherer
  handles : List (Nat × Handle)
  host : HostBlock
  tiers : Tiers
  thermal : Thermal
  ports : Vector Port 16
  /-- Modules of the domain other than the part's own (R23). -/
  members : List Nat
  /-- Members that have no route now, with the device cycle since which (R420). -/
  noRoute : List (Nat × Nat)
  /-- Requests sent to other modules, latest first. -/
  outbound : List Outgoing
  /-- Writes sent to other modules and not yet acknowledged, oldest first: the module and who waits for the acknowledgement (R119, R154). -/
  awaited : List (Nat × Requester)
  /-- Flits of other modules to be passed on, latest first. -/
  transit : List Flit
  /-- Reads of the part's memory answered to the host, latest first; the tag 0x00FF stands for data-poison (R405). -/
  hostReads : List CellData
  /-- Scratchpad lines reported to the housekeeping processor for an uncorrectable error, latest first: core and line (R101, R190). -/
  lineReports : List (Nat × Nat)
  /-- 32-byte units of memory reported to it by engines for the same reason, by physical address / 32, latest first (R190). -/
  unitReports : List Nat
  /-- Reads of BAR0 registers answered to the host, latest first (R407). -/
  barReads : List Word
  /-- The physical core behind each logical one, which boot fixes and a retirement changes (R15, R317). -/
  physical : Vector (BitVec 16) 192
  /-- The sound physical cores that no logical position stands on, die in [15:8] and index in [7:0] (R15). -/
  spares : List (BitVec 16)
  /-- Macro columns replaced in the field, by physical core and macro, at most 4 each (R212, R411). -/
  columnRepairs : List (BitVec 16 × Nat)
  /-- Scratchpad rows replaced in the field, by physical core, at most 64 each (R411). -/
  rowRepairs : List (BitVec 16)
  /-- Cores that firmware tests at their next pre-emption boundary, with the trigger and what the test will find (R317). -/
  suspects : List (Nat × Nat × Nat)
  deriving DecidableEq, Repr

/-! ### Reasons to stop -/

/-- Why the machine stops with a fault. -/
inductive Fault where
  /-- An event names an agent that the module does not have (a core number of 192 or more, a walk of 8 or more, a port of 16
  or more). Raised by the meanings of events. Safe: no agent of the part can raise such an event, only the pending list of an
  ill-formed state holds one. -/
  | noSuchAgent
  /-- The operands of an event are not of its kind (a message event without an entry). Raised by the meanings of events.
  Safe, for the same reason. -/
  | malformedEvent
  deriving DecidableEq, Repr

/-- Why the machine refuses. -/
inductive Refusal where
  /-- The instruction has no meaning in the model. Raised by Dispatch.lean. Safe: nothing can be proved of a run past it. -/
  | notModelled (mnemonic : String)
  deriving DecidableEq, Repr

/-! ### Reset -/

/-- A readable slot that holds `v`. -/
def Slot.reset : Slot := { val := 0, ready := 0, fld := none }

/-- A nest level of one pass with no increments (R95). -/
def NestLevel.reset : NestLevel := { count := 1, inc := Vector.replicate 4 0 }

/-- The one-pass nest of R95. -/
def Nest.reset : Nest :=
  { levels := 1, base := Vector.replicate 4 none, level := Vector.replicate 6 NestLevel.reset
    idx := Vector.replicate 6 0, origin := Vector.replicate 4 0, nestPc := 0, words := 0, active := false, pos := 0 }

/-- A bank at depth 0: physical groups 0 and 1 hold logical groups 0 and 1. -/
def Bank.reset : Bank :=
  { q := Vector.replicate 16 Slot.reset, regs := Vector.replicate 128 Slot.reset
    holds := Vector.ofFn fun g => if g.val < 2 then some g.val else none
    preds := Vector.ofFn fun p => { val := p.val == 0, ready := 0 }
    nest := Nest.reset, depth := 0 }

/-- NCS at reset (Table 2-9). -/
def Ncs.reset : Ncs := { rm := 0, nv := false, dz := false, of := false, uf := false, nx := false }

/-- The trap registers at reset (Tables 19-9, 19-10). -/
def TrapRegs.reset : TrapRegs :=
  { inh := false, pmode := false, ppriv := false, nact := false, npos := 0, cause := 0, info := 0, addr := 0, epc := 0, vec := 0 }

/-- A stream that has not started. -/
def Stream.reset : Stream :=
  { pc := 0, clk := 0, maxReady := 0, namedReady := 0, settling := false, mode := true, job := Bank.reset, sup := Bank.reset, priv := false
    parked := some { byTrap := none, idle := true }, parkAsked := false, ncs := Ncs.reset, wstOver := false, wstUnder := false, spb := 0, spl := 0, sspb := 0, sspl := 0
    fldl := 0, fldp := 0, watcht := 0x10000, rcvl := 0, rcvp := 0, trap := TrapRegs.reset, strap := TrapRegs.reset, tdlg := 0
    park := { cause := 0, info := 0, addr := 0 }, waiting := none, rdvPending := none, deferred := [], faults := [], flds := [], landing := [], eprev := 0 }

/-- The semaphore file after placement (Table 7-1), with an invalid map. -/
def SyncFile.reset : SyncFile :=
  { sems := Vector.replicate 64 { val := 0, fifo := [] }, mutexes := Vector.replicate 16 { owner := none, fifo := [] }
    barriers := Vector.replicate 8 { target := 0, arrived := 0, phase := 0 }, flags := 0, counters := Vector.replicate 32 0
    rdvGen := 0, rdvArrived := { ctl := false, copy := false, mat := false, vec := false }, map := Vector.replicate 256 0 }

/-- The copy engine at reset (Table 8-10, R156). -/
def CopyEngine.reset : CopyEngine :=
  { cw := Vector.replicate 16 { val := 0, ready := 0 }, queue := [], records := [], seq := 0, eprev := 0
    bitmaps := Vector.replicate 16 0, owners := Vector.replicate 16 .free, frozenSince := none, frzl := 0x1000, frzc := 0
    pgrq := 0, pgdrp := 0 }

/-- A channel that is not valid. -/
def Channel.reset : Channel :=
  { coord := 0, valid := false, mc := false, queue := 0, credit := 0, fault := 0, sent := 0, inFlight := [] }

/-- The queue unit after placement: every queue disabled (R197). -/
def Messages.reset : Messages :=
  { queues := Vector.replicate 16 { en := false, base := 0, lsize := 0, batch := 1, head := 0, origins := [], drop := 0, credits := [] }
    ctl := Vector.replicate 64 Channel.reset, copy := Vector.replicate 64 Channel.reset, members := [], memqEn := false, memq := 0 }

/-- An invalid comb record. -/
def CombRecord.reset : CombRecord := { valid := false, ww := false, slot := 0, samp := false, addr := 0 }

/-- An empty comb. -/
def Comb.reset : Comb := { record := CombRecord.reset, groups := [] }

/-- The matrix state at placement (Table 12-1). -/
def Matrix.reset : Matrix :=
  { cfg := 0x03, wsel := false, bank0 := [], bank1 := [], residentValid := false, resident := Comb.reset, fillState := .empty
    filling := Comb.reset, slot := 0, abv := 0, bbv := 0, swl := 0, mseq := 0
    mflt := { pend := false, fol := false, more := 0, code := 0, reason := 0, kind := 0, seq := 0 }
    queue := [], fill := none, running := [], paceUntil := none, mark := none, checked := false, fgl := 0, therm := 0 }

/-- VSH at task start: 64 by 64 FP32 (R246). -/
def Shape.reset : Shape := { type := 0, rowsM1 := 0x3F, colsM1 := 0x3F }

/-- The vector registers at reset. -/
def VectorFile.reset : VectorFile :=
  { vq := Vector.replicate 16 { val := 0, ready := 0 }, v := Vector.replicate 24 { val := 0, ready := 0 }
    m := Vector.ofFn fun i => { val := if i.val = 0 then BitVec.allOnes 4096 else 0, ready := 0 }, shape := Shape.reset, busy := 0, treeBusy := 0 }

/-- The audit state at placement (Table 16-1). -/
def Audit.reset : Audit :=
  { mode := 0, frame := 0, s := 0, lfsr := 1, filter := 0, owner := 0, en := 0, thresholds := Vector.replicate 64 0, histograms := []
    farm := false, fany := false, fslot := 0, sample := none, records := [], pend := false, replicaPend := none, sampled := 0
    checked := 0, busy := 0, noframe := 0, noroom := 0, spoiled := 0, discard := 0, mismatch := 0, lost := 0, lock := false }

/-- A core at reset: no job placed, no stream started. -/
def CoreState.reset (n : Nat) : CoreState :=
  { num := n, streams := { ctl := Stream.reset, copy := Stream.reset, mat := Stream.reset, vec := Stream.reset }
    sync := SyncFile.reset, copy := CopyEngine.reset, frames := Vector.replicate 16 0, msgs := Messages.reset, mat := Matrix.reset
    vec := VectorFile.reset, trees := Vector.replicate 64 none, audit := Audit.reset, spad := [], spadTags := [], spadBad := []
    srbase := 0, srlim := 0, ptroot := 0, asid := 0, smsel := 0, wdog := 0, dbe := true, prqe := false, stop := false
    pendWatchdog := none, pendParked := { ctl := false, copy := false, mat := false, vec := false }
    pendPreempt := false, pendHost := none, preemptReq := false, moveReq := none, jobEnd := false, taskEnds := false, place := none, inbox := []
    frozen := 0, l1 := [], pace := none, farStores := []
    sections := { ctl := (0, 0), copy := (0, 0), mat := (0, 0), vec := (0, 0) }, oldWords := { ctl := [], copy := [], mat := [], vec := [] }
    loose := { ctl := [], copy := [], mat := [], vec := [] } }

/-- An idle walk. -/
def Walk.reset : Walk :=
  { state := .idle, job := none, asid := 0, root := 0, priv := false, steer := 0, base := 0, origin := 0, starting := none, wraps := 0
    hops := Vector.replicate 3 { lead := 0, win := 0, infc := 0, late := 0, lcnt := 0 }, poison := 0, drop := 0
    fault := { pend := false, more := 0, code := 0, index := 0, wraps := 0 }, mark := none, markHit := none, legs := [], order := 0
    readNext := 0, readAt := 0, members := [], sent := [] }

/-- The scheduler at reset (Tables 18-5, 21-4). -/
def Scheduler.reset : Scheduler :=
  { queues := Vector.replicate 64 { en := false, devok := false, tenant := 0, drop := 0, packets := [] }, jobs := [], nextJob := 0
    heldFor := none, pmargin := 0x3A980, latec := 0, lastDecision := 0, lastBalance := 0 }

/-- The gatherer at reset: nothing configured. -/
def Gatherer.reset : Gatherer :=
  { rings := Vector.replicate 16 { en := false, desc := 0, asid := 0, root := 0 }
    swarms := Vector.replicate 16 { en := false, model := 0, target := 1, slack := 0, slots := 0, nslot := 1, tenant := 0, asid := 0, root := 0
                                    openRows := [], nextBatch := 0, emitted := [], taken := [] }
    waiters := [], lastPoll := 0 }

/-- The host register block at reset (Table 21-2): the Wait state. -/
def HostBlock.reset : HostBlock :=
  { offer := 0, accept := 0, locked := false, fail := false, counts := 0, present := 0, tentab := 0, domid := 0, linkst := 0
    bootaddr := 0, bootlen := 0, bootst := 0, boot := .wait, meas := 0, idpub := 0, mbcmd := 0, mbarg0 := 0, mbarg1 := 0, busy := false
    mblen := 0, mbstatus := 0, mbresult := none, mbwin := 0, pdec := Vector.replicate 128 0, pdsz := Vector.replicate 128 0
    srreg := Vector.replicate 192 0, hdmBase := 0, hdmOn := false, earlyWrites := [], hostUp := false, poolUp := 0, identity := false, idNew := false, seed := 0, newSeed := none
    enrolled := [], history := [], map := [], evring := none
    evWaiting := [], evLost := false, evSeq := 0, msixMask := 0, msixPend := 0, msixSent := [], powercap := 1900, repairs := [] }

/-- A port that is not cabled. -/
def Port.reset : Port :=
  { up := false, spareUsed := false, retraining := false, expect := 0, nextSeq := 0, nakFor := none, replay := [], sent := [] }

/-- The memory CSRs at reset (Table 20-1). -/
def Tiers.reset : Tiers :=
  { stcap := 0x2000000000, stlayr := 0, corrs := 0, corrb := 0, uncs := 0, uncb := 0, aboall := 0, abomax := 0, patb := 0, pats := 0
    copies := [], spares := [], blocked := [], nextStage := 0, nextBulk := 0, lastStage := 0, lastBulk := 0, retired := [] }

/-- The module right after module reset: the Wait boot state, device cycle 0, no job, no memory listed. -/
def State.reset : State :=
  { core := CoreState.reset 0, others := (List.range 191).map fun i => CoreState.reset (i + 1), turn := .ctl, now := 0, tick := 0
    farLoose := [], pending := [], arg := { core := 0, sec := .ctl, a := 0, b := 0, data := .none }, mem := [], memTags := [], memBad := [], memLost := [], tlb0 := [], tlb1 := [], walk0 := [], walk1 := [], walks := Vector.replicate 8 Walk.reset, notices := []
    sched := Scheduler.reset, gather := Gatherer.reset, handles := [], host := HostBlock.reset, tiers := Tiers.reset
    thermal := { level0 := 0, level1 := 0, cap := 0, tripped := false, hot0 := false, hot1 := false, lastStep := 0, lastCap := 0 }, ports := Vector.replicate 16 Port.reset, members := [], noRoute := []
    outbound := [], awaited := [], transit := [], hostReads := [], lineReports := [], unitReports := [], barReads := [], physical := Vector.ofFn fun i => BitVec.ofNat 16 (i.val / 96 * 256 + i.val % 96),
    spares := (List.range 16).map fun i => BitVec.ofNat 16 (i / 8 * 256 + 96 + i % 8), columnRepairs := [], rowRepairs := [], suspects := [] }

end Sys2Proof.Machine
end

