-- ==== Sys2Proof/Machine/Ops.lean ====
section
/-! DEFINITION. The named operations over registers, scratchpad, streams and cores, and taking an exception and returning
from one as one shared operation each. -/

namespace Sys2Proof.Machine

/-! ### Bit fields and sparse maps -/

/-- Bits [lo + n - 1 : lo] of a word (R3). -/
def bitsOf {w : Nat} (x : BitVec w) (lo n : Nat) : Nat := fld x.toNat lo n

/-- Bit [i] of a word. -/
def bitOf {w : Nat} (x : BitVec w) (i : Nat) : Bool := x.getLsbD i

/-- 1 or 0. -/
def bit (b : Bool) : Nat := if b then 1 else 0

/-- An n-bit field read as two's complement (SExt of Table 0-1). -/
def signed (n x : Nat) : Int := if 2 ^ (n - 1) ≤ x then (x : Int) - 2 ^ n else x

/-- An integer reduced to a word modulo 2^64. -/
def wordOfInt (x : Int) : Word := BitVec.ofInt 64 x

/-- 2^64 - 1, the word that several instructions return for refusal. -/
def allOnes : Word := BitVec.allOnes 64

/-- The value at a key of a sparse map, `d` where unlisted. -/
def sparseGet {α : Type} (d : α) : List (Nat × α) → Nat → α
  | [], _ => d
  | (a, v) :: rest, k => if a = k then v else sparseGet d rest k

/-- A sparse map with a key's value replaced, in canonical form. -/
def sparsePut {α : Type} [DecidableEq α] (d : α) : List (Nat × α) → Nat → α → List (Nat × α)
  | [], k, v => if v = d then [] else [(k, v)]
  | (a, w) :: rest, k, v =>
    if k < a then (if v = d then (a, w) :: rest else (k, v) :: (a, w) :: rest)
    else if k = a then (if v = d then rest else (k, v) :: rest)
    else (a, w) :: sparsePut d rest k v

/-- The byte at an address; an unlisted byte reads as zero (log entry 2). -/
def Memory.get (m : Memory) (a : Nat) : Byte := sparseGet 0 m a

/-- A memory with one byte written. -/
def Memory.put (m : Memory) (a : Nat) (b : Byte) : Memory := sparsePut 0 m a b

/-- A little-endian number from bytes (R4). -/
def numOfBytes : List Byte → Nat
  | [] => 0
  | b :: rest => b.toNat + 256 * numOfBytes rest

/-- The first n bytes of a number, least significant first (R4). -/
def bytesOfNum : Nat → Nat → List Byte
  | 0, _ => []
  | n + 1, x => BitVec.ofNat 8 x :: bytesOfNum n (x / 256)

/-- The address space of a scratchpad (R18). -/
def spadSize : Nat := 2 ^ 22

/-! ### One item per stream -/

/-- The item of a stream. -/
def PerSec.get {α : Type} (x : PerSec α) : Sec → α
  | .ctl => x.ctl
  | .copy => x.copy
  | .mat => x.mat
  | .vec => x.vec

/-- The items with one stream's replaced. -/
def PerSec.set {α : Type} (x : PerSec α) (t : Sec) (v : α) : PerSec α :=
  match t with
  | .ctl => { x with ctl := v }
  | .copy => { x with copy := v }
  | .mat => { x with mat := v }
  | .vec => { x with vec := v }

/-- The number of a stream in records and context areas: 0 ctl, 1 copy, 2 mat, 3 vec (Table 19-3). -/
def secNum : Sec → Nat
  | .ctl => 0
  | .copy => 1
  | .mat => 2
  | .vec => 3

/-- The stream of a number modulo 4. -/
def secOfNum (n : Nat) : Sec :=
  match n % 4 with
  | 0 => .ctl
  | 1 => .copy
  | 2 => .mat
  | _ => .vec

/-- The four streams in the fixed order of R129. -/
def allSecs : List Sec := [.ctl, .copy, .mat, .vec]

/-- A stream of the core in focus. -/
def State.str (s : State) (t : Sec) : Stream := s.core.streams.get t

/-- The stream whose turn it is. -/
def State.cur (s : State) : Stream := s.str s.turn

/-- The core in focus replaced. -/
def State.setCore (s : State) (c : CoreState) : State := { s with core := c }

/-- One stream of the core in focus replaced. -/
def State.setStr (s : State) (t : Sec) (st : Stream) : State :=
  { s with core := { s.core with streams := s.core.streams.set t st } }

/-- The stream whose turn it is replaced. -/
def State.setCur (s : State) (st : Stream) : State := s.setStr s.turn st

/-- One stream changed by a function. -/
def State.onStr (s : State) (t : Sec) (f : Stream → Stream) : State := s.setStr t (f (s.str t))

/-- The core cycle counter of the core in focus (R19, R80). -/
def State.ccc (s : State) : Nat := s.now - s.core.frozen

/-- A request sent to another module, whose acknowledgement nobody awaits unless `tagSent` names who does. -/
def State.send (s : State) (m : Nat) (a : FlitAct) : State := { s with outbound := { module := m, act := a, cls := 0, who := .nobody } :: s.outbound }

/-- A request that writes memory of another module, and is acknowledged there (R105, R154). -/
def flitIsWrite : FlitAct → Bool
  | .write _ _ _ => true
  | .bytes _ _ => true
  | .poison _ _ => true
  | .frameWrite _ => true
  | _ => false

/-- The same write with its requester named. -/
def flitNamed (who : Requester) : FlitAct → FlitAct
  | .frameWrite w => .frameWrite { w with who := who }
  | a => a

/-- A write sent to another module that nobody is named for yet. -/
def Outgoing.unnamed (o : Outgoing) : Bool := flitIsWrite o.act && decide (o.who = .nobody)

/-- Performs `f` for a requester of an ordering class: the writes it sends to other modules carry both, and their acknowledgements are awaited. -/
def tagSent (k : Fin 16) (who : Requester) (f : State → State) (s : State) : State :=
  let t := f { s with outbound := [] }
  { t with outbound := (t.outbound.map fun o => if o.unnamed then { o with act := flitNamed who o.act, cls := k, who := who } else o) ++ s.outbound
           awaited := t.awaited ++ (t.outbound.filter (·.unnamed)).map fun o => (o.module, who) }

/-- A write of this requester awaits its acknowledgement. -/
def State.awaits (s : State) (who : Requester) : Bool := s.awaited.any fun p => decide (p.2 = who)

/-- Events appended to the pending list. -/
def State.raise (s : State) (es : List Event) : State := { s with pending := s.pending ++ es }

/-! ### Other cores -/

/-- Replaces, in a list of cores, the core numbered `n` by `c`, and returns the one found. -/
def swapCore (n : Nat) (c : CoreState) : List CoreState → Option (CoreState × List CoreState)
  | [] => none
  | d :: rest =>
    if d.num = n then some (d, c :: rest)
    else match swapCore n c rest with
      | some (f, l) => some (f, d :: l)
      | none => none

/-- Brings the core numbered `n` into focus; `none` when the module has no such core. -/
def focus (n : Nat) (s : State) : Option State :=
  if s.core.num = n then some s
  else match swapCore n s.core s.others with
    | some (d, l) => some { s with core := d, others := l }
    | none => none

/-- Performs `f` with core `n` in focus and gives the focus back. Where there is no such core nothing happens. -/
def onCore (n : Nat) (f : State → State) (s : State) : State :=
  match focus n s with
  | none => s
  | some s1 =>
    match focus s.core.num (f s1) with
    | some s2 => s2
    | none => s

/-- A core of the module by number. -/
def coreAt (n : Nat) (s : State) : Option CoreState :=
  (focus n s).map (·.core)

/-- Performs an event on core `n`: the fault is for a core the module does not have. -/
def atCore (n : Nat) (f : State → State) (s : State) : Host.Outcome State Fault Refusal :=
  match focus n s with
  | none => .fault .noSuchAgent
  | some _ => .next (onCore n f s)

/-- Performs `f` as stream `t`, and gives the turn back. -/
def asSec (t : Sec) (f : State → State) (s : State) : State :=
  { f { s with turn := t } with turn := s.turn }

/-- The core numbers of a die (R15): 0-95 on die 0, 96-191 on die 1. -/
def dieOf (n : Nat) : Nat := n / 96

/-! ### Coordinates (R16, Table 1-2) -/

/-- The coordinate word of a place: module, logical core, stage. -/
def coordWord (m core stage : Nat) : BitVec 32 :=
  BitVec.ofNat 32 (m * 2 ^ 20 + core / 8 * 2 ^ 15 + core % 8 * 2 ^ 12 + stage)

/-- MODULE of a coordinate word. -/
def coordModule (w : BitVec 32) : Nat := bitsOf w 20 12

/-- The logical core number of a coordinate word. -/
def coordCore (w : BitVec 32) : Nat := bitsOf w 15 5 * 8 + bitsOf w 12 3

/-- A coordinate word is valid: cluster below 24 and reserved bits zero (R16). -/
def coordValid (w : BitVec 32) : Bool := decide (bitsOf w 15 5 < 24) && decide (bitsOf w 4 8 = 0)

/-- The part's own module number: DOMID (Table 21-2, R416). -/
def State.ownModule (s : State) : Nat := s.host.domid.toNat

/-- The coordinate word of the core in focus, STAGE zero. -/
def State.ownCoord (s : State) : BitVec 32 := coordWord s.ownModule s.core.num 0

/-- A logical position that is not marked absent (R15). -/
def State.isPresent (s : State) (n : Nat) : Bool := s.host.present.getLsbD n

/-- A module of the domain (R23). -/
def State.isMember (s : State) (m : Nat) : Bool := decide (m = s.ownModule) || s.members.contains m

/-! ### Frames and scratchpad (R172, R173) -/

/-- VALID of a frame register (Table 8-11). -/
def frmValid (f : Word) : Bool := bitOf f 0
/-- SWAP of a frame register. -/
def frmSwap (f : Word) : Bool := bitOf f 1
/-- SHEN of a frame register. -/
def frmShen (f : Word) : Bool := bitOf f 2
/-- DESC of a frame register. -/
def frmDesc (f : Word) : Bool := bitOf f 3
/-- PERSIST of a frame register. -/
def frmPersist (f : Word) : Bool := bitOf f 4
/-- Z, the size of a frame in bytes. -/
def frmSize (f : Word) : Nat := (bitsOf f 8 8 + 1) * 4096
/-- VB, the base of the visible window. -/
def frmVb (f : Word) : Nat := bitsOf f 16 10 * 4096
/-- SB, the base of the shadow window. -/
def frmSb (f : Word) : Nat := bitsOf f 26 10 * 4096

/-- Address `a` lies in [b, b + z). -/
def inRange (a b z : Nat) : Bool := decide (b ≤ a) && decide (a < b + z)

/-- A frame exchanges the storage of its windows, one of which holds `a` (R173). -/
def frmSwaps (f : Word) (a : Nat) : Bool :=
  frmValid f && frmShen f && frmSwap f && (inRange a (frmVb f) (frmSize f) || inRange a (frmSb f) (frmSize f))

/-- A valid frame one of whose windows holds `a`. -/
def frmHolds (f : Word) (a : Nat) : Bool :=
  frmValid f && (inRange a (frmVb f) (frmSize f) || (frmShen f && inRange a (frmSb f) (frmSize f)))

/-- The physical scratchpad address of an address (R173). -/
def spadPhys (c : CoreState) (a : Nat) : Nat :=
  match c.frames.toList.find? (fun f => frmSwaps f a) with
  | none => a
  | some f => if inRange a (frmVb f) (frmSize f) then frmSb f + (a - frmVb f) else frmVb f + (a - frmSb f)

/-- The byte at a scratchpad address, taken modulo 2^22. -/
def spadByte (c : CoreState) (a : Nat) : Byte := c.spad.get (spadPhys c (a % spadSize))

/-- n bytes from a scratchpad address. -/
def spadBytes (c : CoreState) (a n : Nat) : List Byte := (List.range n).map fun i => spadByte c (a + i)

/-- The byte that a read without an error check finds: free in an uncorrectable line (R190). -/
def spadRead (s : State) (a : Nat) : Byte :=
  if s.core.spadBad.contains (spadPhys s.core (a % spadSize) / 64) then Config.freeByte s.tick a else spadByte s.core a

/-- n bytes read without an error check, as a little-endian number. -/
def spadReadNum (s : State) (a n : Nat) : Nat := numOfBytes ((List.range n).map fun i => spadRead s (a + i))

/-- n bytes as a little-endian number. -/
def spadNum (c : CoreState) (a n : Nat) : Nat := numOfBytes (spadBytes c a n)

/-- The tag of the cell that holds an address (R32). -/
def spadTag (c : CoreState) (a : Nat) : BitVec 16 := sparseGet 0 c.spadTags (spadPhys c (a % spadSize) / 64)

/-- The line that holds an address has an uncorrectable error. -/
def spadIsBad (c : CoreState) (a : Nat) : Bool := c.spadBad.contains (spadPhys c (a % spadSize) / 64)

/-- F of a tag (R32). -/
def tagF (t : BitVec 16) : Nat := bitsOf t 0 8
/-- S of a tag (R32). -/
def tagS (t : BitVec 16) : Nat := bitsOf t 8 8

/-- Reading the cell at `a` consumes poison: F = 0xFF, or an uncorrectable line (Table 5-4). -/
def spadPoisoned (c : CoreState) (a : Nat) : Bool := decide (tagF (spadTag c a) = 0xFF) || spadIsBad c a

/-- The cell that holds `a`, with its tag. -/
def spadCell (c : CoreState) (a : Nat) : CellData :=
  { bytes := BitVec.ofNat 512 (spadNum c (a / 64 * 64) 64), tag := spadTag c a }

/-- The word of stream t's section that a write of the byte at `a` changes keeps what stood there at the stream's last FENCE kall (R121). -/
def keepWord (c : CoreState) (a : Nat) (t : Sec) : List (Nat × BitVec 32) :=
  let x := c.sections.get t
  let w := a / 4 * 4
  let l := c.oldWords.get t
  if inRange a x.1.toNat x.2 && l.all (fun p => p.1 != w) then (w, BitVec.ofNat 32 (spadNum c w 4)) :: l else l

/-- The words kept for the four streams at a write of the byte at `a`. -/
def keepWords (c : CoreState) (a : Nat) : PerSec (List (Nat × BitVec 32)) :=
  { ctl := keepWord c a .ctl, copy := keepWord c a .copy, mat := keepWord c a .mat, vec := keepWord c a .vec }

/-- A write of the byte at physical address `p` comes after every store there: each stream finds it (R111, R112). -/
def dropStores (p : Nat) (l : PerSec (List Loose)) : PerSec (List Loose) :=
  let keep (l : List Loose) : List Loose := l.filter fun e => !inRange p e.addr e.old.length
  { ctl := keep l.ctl, copy := keep l.copy, mat := keep l.mat, vec := keep l.vec }

/-- One byte written, tag kept. -/
def spadPutByte (c : CoreState) (a : Nat) (b : Byte) : CoreState :=
  let p := spadPhys c (a % spadSize)
  { c with spad := c.spad.put p b, oldWords := keepWords c (a % spadSize), loose := dropStores p c.loose }

/-- Bytes written from `a`, tags kept, with no other effect. -/
def spadRaw (c : CoreState) (a : Nat) : List Byte → CoreState
  | [] => c
  | b :: rest => spadRaw (spadPutByte c a b) (a + 1) rest

/-- A count of the audit unit, which saturates at 2^32 - 1 (Table 16-4). -/
def satCount (n : Nat) : Nat := min (n + 1) (2 ^ 32 - 1)

/-- The held sample ends: no comb awaits its tap any more (R236, R304). -/
def dropSample (c : CoreState) : CoreState :=
  let clear (b : Comb) : Comb := { b with record := { b.record with samp := false } }
  { c with audit := { c.audit with sample := none }, mat := { c.mat with resident := clear c.mat.resident, filling := clear c.mat.filling } }

/-- A write of n bytes at `a` by an agent other than the audit unit spoils a held sample whose extent it touches (R304). -/
def spoilSample (c : CoreState) (a n : Nat) : CoreState :=
  match c.audit.sample with
  | none => c
  | some x =>
    let vb := frmVb c.frames[x.frame]
    if decide (a % spadSize < vb + x.need) && decide (vb < a % spadSize + n) then
      dropSample { c with audit := { c.audit with spoiled := satCount c.audit.spoiled } }
    else c

/-- Bytes written from `a` by any agent but the audit unit, tags kept. -/
def spadPutBytes (c : CoreState) (a : Nat) (bs : List Byte) : CoreState := spadRaw (spoilSample c a bs.length) a bs

/-- The tag of the cell that holds `a` set; the line then has correct check bits. -/
def spadPutTag (c : CoreState) (a : Nat) (t : BitVec 16) : CoreState :=
  { c with spadTags := sparsePut 0 c.spadTags (spadPhys c (a % spadSize) / 64) t
           spadBad := c.spadBad.filter (· != spadPhys c (a % spadSize) / 64) }

/-- The tag of a poisoned cell (R33, R190). -/
def poisonTag : BitVec 16 := 0x00FF

/-- The tag that an engine cell write stores at `a`: 0x0000 in a window of a valid frame with DESC 0 (R173). -/
def storedTag (c : CoreState) (a : Nat) (t : BitVec 16) : BitVec 16 :=
  if c.frames.toList.any (fun f => frmHolds f (a % spadSize) && !frmDesc f) then 0 else t

/-- A whole-cell write by a cell-writing unit (R34, R112, R173). -/
def spadPutCell (c : CoreState) (a : Nat) (d : CellData) : CoreState :=
  spadPutTag (spadPutBytes c (a / 64 * 64) (bytesOfNum 64 d.bytes.toNat)) a (storedTag c a d.tag)

/-- A whole-cell write of a unit that could not be read: the tag 0x00FF even in a window with DESC 0 (R190). -/
def spadPutPoisoned (c : CoreState) (a : Nat) (b : BitVec 512) : CoreState :=
  spadPutTag (spadPutBytes c (a / 64 * 64) (bytesOfNum 64 b.toNat)) a poisonTag

/-- A scalar, RAW or scattered store of bytes: a line with an uncorrectable error is rewritten with F = 0xFF (R34, R101). -/
def spadStore (c : CoreState) (a : Nat) (bs : List Byte) : CoreState :=
  let c1 := spadPutBytes c a bs
  let lines := ((List.range bs.length).map fun i => a + i).filter fun x => spadIsBad c x
  lines.foldl (fun d x => spadPutTag d x poisonTag) c1

/-! ### What a stream finds of its own stores (R102, R115, R116) -/

/-- A load of class k at count `tick` finds store e not yet performed. It finds every store made before one free count, so that a store found leaves none
of the earlier ones unfound. -/
def Loose.late (tick : Nat) (k : Fin 16) (e : Loose) : Bool := !e.seen.getLsbD k.val && decide (Config.foundBefore tick ≤ e.time)

/-- The bytes of a list from address `a`. -/
def putEach (m : Memory) (a : Nat) : List Byte → Memory
  | [] => m
  | b :: rest => putEach (m.put a b) (a + 1) rest

/-- The scratchpad as a load of class k of stream t finds it. -/
def State.viewedBy (s : State) (t : Sec) (k : Fin 16) : CoreState :=
  { s.core with spad := ((s.core.loose.get t).filter (·.late s.tick k)).foldl (fun m e => putEach m e.addr e.old) s.core.spad }

/-- The scratchpad as a load of class k of the stream whose turn it is finds it. -/
def State.viewed (s : State) (k : Fin 16) : CoreState := s.viewedBy s.turn k

/-- The classes that find a store, for each store of stream t in scratchpad and, for the ctl stream, in global memory; a store that every class finds is
loose no more. -/
def State.markLoose (t : Sec) (f : Loose → BitVec 16) (s : State) : State :=
  let g (l : List Loose) : List Loose := (l.map fun e => { e with seen := f e }).filter fun e => e.seen != BitVec.allOnes 16
  { s with core := { s.core with loose := s.core.loose.set t (g (s.core.loose.get t)) }
           farLoose := if t = .ctl then s.farLoose.flatMap fun p => if p.1 = s.core.num then (g [p.2]).map fun e => (p.1, e) else [p] else s.farLoose }

/-- A load of class k of stream t that found the stores of a list has been made: later loads of the class find them and every earlier store, and what the
load's value reaches, an instruction of class k0, stands after the stores of class k (R111, R117). -/
def loadMade (t : Sec) (k : Fin 16) (found : List Loose) (s : State) : State :=
  let upTo := (found.map fun e => e.time + 1).foldl max 0
  s.markLoose t fun e =>
    let m := if e.time < upTo then e.seen ||| BitVec.ofNat 16 (2 ^ k.val) else e.seen
    if m.getLsbD k.val then m ||| 1 else m

/-- Some byte of store e lies in the scratchpad bytes [a, a + n). -/
def Loose.inScratch (c : CoreState) (a n : Nat) (e : Loose) : Bool := (List.range n).any fun i => inRange (spadPhys c ((a + i) % spadSize)) e.addr e.old.length

/-- A load of class k of n scratchpad bytes at `a` by stream t has been made: what it found performed stays so. -/
def sawBy (t : Sec) (k : Fin 16) (a n : Nat) (s : State) : State :=
  loadMade t k ((s.core.loose.get t).filter fun e => !e.late s.tick k && e.inScratch s.core a n) s

/-- The same of the stream whose turn it is. -/
def sawScratch (k : Fin 16) (a n : Nat) (s : State) : State := sawBy s.turn k a n s

/-- The pieces of [a, a + n) that lie in one cell each, as address and length; at most `fuel` of them. -/
def cellPieces : Nat → Nat → Nat → List (Nat × Nat)
  | 0, _, _ => []
  | fuel + 1, a, n => if n = 0 then [] else (a, min n (64 - a % 64)) :: cellPieces fuel (a + min n (64 - a % 64)) (n - min n (64 - a % 64))

/-- The n bytes at `a` are spilled or refilled by stream t: its stores there are ordered before, and every later access of it finds them (R84). -/
def settleStores (t : Sec) (a n : Nat) (s : State) : State :=
  s.setCore { s.core with loose := s.core.loose.set t ((s.core.loose.get t).filter fun e => !e.inScratch s.core a n) }

/-- A write of n scratchpad bytes at `a`, of class k, by stream t: accesses of its other classes may still find the bytes before it. -/
def storedBy (t : Sec) (k : Fin 16) (a n : Nat) (f : CoreState → CoreState) (s : State) : State :=
  let c := f s.core
  s.setCore { c with loose := c.loose.set t ((cellPieces (n / 64 + 2) a n).foldl (fun l p =>
    { time := s.tick, addr := spadPhys s.core (p.1 % spadSize), old := spadBytes s.core p.1 p.2, seen := BitVec.ofNat 16 (2 ^ k.val) } :: l) (c.loose.get t)) }

/-- A FENCE that names the classes of m orders every store that one of them finds before the later accesses of all of them (R116, R119). -/
def joinClasses (m : BitVec 16) (s : State) : State := s.markLoose s.turn fun e => if e.seen &&& m = 0 then e.seen else e.seen ||| m

/-- The stream whose turn it is has acquired in the classes of m: its later accesses of these classes stand after what it released, so that they find
every earlier store of it (R116, R121, R122). -/
def acquired (m : BitVec 16) (s : State) : State := s.markLoose s.turn fun e => e.seen ||| m

/-- Every access of stream t finds its stores. -/
def settleStream (t : Sec) (s : State) : State := s.markLoose t fun _ => BitVec.allOnes 16

/-- Every stream of the core finds its stores to the windows of a frame (R125). -/
def settleFrame (f : Word) (s : State) : State :=
  let keep (l : List Loose) : List Loose := l.filter fun e => !(inRange e.addr (frmVb f) (frmSize f) || inRange e.addr (frmSb f) (frmSize f))
  let l := s.core.loose
  s.setCore { s.core with loose := { ctl := keep l.ctl, copy := keep l.copy, mat := keep l.mat, vec := keep l.vec } }

/-- A line with an uncorrectable error is reported to the housekeeping processor (R101, R190), which then tests the core's rows: trigger 3, finding 3 (R317,
Table 21-7). -/
def reportLine (a : Nat) (s : State) : State :=
  { s with lineReports := (s.core.num, spadPhys s.core (a % spadSize) / 64) :: s.lineReports
           suspects := if s.suspects.contains (s.core.num, 3, 3) then s.suspects else s.suspects ++ [(s.core.num, 3, 3)] }

/-- The lines of [a, a + n) with an uncorrectable error are reported, each once. -/
def reportLines (a n : Nat) (s : State) : State :=
  (cellPieces (n / 64 + 2) a n).foldl (fun s p => if spadIsBad s.core p.1 then reportLine p.1 s else s) s

/-- A store of class k by the stream whose turn it is, as a scalar store makes it: a line with an uncorrectable error is rewritten with F = 0xFF and
reported (R34, R101). -/
def storeBytes (k : Fin 16) (a : Nat) (bs : List Byte) (s : State) : State :=
  storedBy s.turn k a bs.length (fun c => spadStore c a bs) (reportLines a bs.length s)

/-- A store of class k by stream t that keeps tags in every case (R34, R162, R258). -/
def storeKeepBy (t : Sec) (k : Fin 16) (a : Nat) (bs : List Byte) (s : State) : State := storedBy t k a bs.length (fun c => spadPutBytes c a bs) s

/-- The same by the stream whose turn it is. -/
def storeKeep (k : Fin 16) (a : Nat) (bs : List Byte) (s : State) : State := storeKeepBy s.turn k a bs s

/-- A whole-cell write of class k by stream t (R34, R115). -/
def storeCellBy (t : Sec) (k : Fin 16) (a : Nat) (d : CellData) (s : State) : State := storedBy t k (a / 64 * 64) 64 (fun c => spadPutCell c a d) s

/-- The same by the stream whose turn it is. -/
def storeCell (k : Fin 16) (a : Nat) (d : CellData) (s : State) : State := storeCellBy s.turn k a d s

/-- Loads of class k of n bytes at each address of a list have been made. -/
def sawEach (k : Fin 16) (n : Nat) (l : List Nat) (s : State) : State :=
  if (s.core.loose.get s.turn).isEmpty then s else l.foldl (fun s a => sawScratch k a n s) s

/-- The supervisor region [SRBASE, SRLIM) (R369). -/
def srLow (c : CoreState) : Nat := c.srbase.toNat * 4096
/-- The exclusive limit of the supervisor region. -/
def srHigh (c : CoreState) : Nat := c.srlim.toNat * 4096
/-- The core has no supervisor region (R369). -/
def noRegion (c : CoreState) : Bool := decide (srHigh c ≤ srLow c)

/-- [a, a + n) touches the supervisor region. -/
def touchesSr (c : CoreState) (a n : Nat) : Bool := decide (a < srHigh c) && decide (srLow c < a + n) && decide (srLow c < srHigh c)

/-! ### The scalar bank -/

/-- The bank in use: the supervisor's in supervisor mode (R368). -/
def Stream.bank (st : Stream) : Bank := if st.priv then st.sup else st.job

/-- The bank in use replaced. -/
def Stream.setBank (st : Stream) (b : Bank) : Stream := if st.priv then { st with sup := b } else { st with job := b }

/-- Physical groups of the bank in use: 16, or 8 in supervisor mode (R368). -/
def Stream.groups (st : Stream) : Nat := if st.priv then 8 else 16

/-- The physical register of n i at depth `d` with `g` physical groups (R81). -/
def physReg (g d i : Nat) : Fin 128 := Fin.ofNat 128 ((d + i / 8) % g * 8 + i % 8)

/-- The slot of n i. -/
def Stream.regSlot (st : Stream) (i : Fin 16) : Slot := st.bank.regs[physReg st.groups st.bank.depth i]

/-- The q queue with a new q0; q15 is lost (R64). -/
def pushSlot {α : Type} (q : Vector α 16) (x : α) : Vector α 16 :=
  #v[x, q[0], q[1], q[2], q[3], q[4], q[5], q[6], q[7], q[8], q[9], q[10], q[11], q[12], q[13], q[14]]

/-- The slot of a source operand. -/
def Stream.srcSlot (st : Stream) : SSrc → Slot
  | .q i => st.bank.q[i]
  | .n i => st.regSlot i

/-- A slot is readable at the stream's present issue cycle (R62, R104). -/
def Slot.readable (x : Slot) (clk : Nat) : Bool := decide (x.ready ≤ clk) && x.fld.isNone

/-- The location number of a source, for free values. -/
def srcLoc : SSrc → Nat
  | .q i => i.val
  | .n i => 16 + i.val

/-- The value a source operand reads as: in exposed mode a free value before it is readable (R66). -/
def Stream.readS (tick : Nat) (st : Stream) (x : SSrc) : Word :=
  if st.mode || (st.srcSlot x).readable st.clk then (st.srcSlot x).val else Config.freeWord tick (srcLoc x)

/-- The value a predicate reads as; p0 reads as true (R80, R66). -/
def Stream.readP (tick : Nat) (st : Stream) (p : Fin 16) : Bool :=
  if p = 0 then true
  else if st.mode || decide ((st.bank.preds[p]).ready ≤ st.clk) then (st.bank.preds[p]).val
  else Config.freeBool tick p.val

/-- A stream with the latest readable cycle raised. -/
def Stream.landAt (st : Stream) (r : Nat) : Stream := { st with maxReady := max st.maxReady r }

/-- A slot written into a destination (R64, R65). -/
def Stream.putSlot (st : Stream) (d : SDst) (x : Slot) : Stream :=
  match d with
  | .push => st.setBank { st.bank with q := pushSlot st.bank.q x }
  | .n i => st.setBank { st.bank with regs := st.bank.regs.set (physReg st.groups st.bank.depth i) x }

/-- A stream with the latest cycle of a result for a named register raised, where the destination is one (R65). -/
def Stream.noteNamed (st : Stream) (d : SDst) (r : Nat) : Stream :=
  match d with
  | .push => st
  | .n _ => { st with namedReady := max st.namedReady r }

/-- A result written into a destination with latency bound `b` (R62). -/
def Stream.writeD (st : Stream) (d : SDst) (v : Word) (b : Nat) : Stream :=
  ((st.putSlot d { val := v, ready := st.clk + b, fld := none }).landAt (st.clk + b)).noteNamed d (st.clk + b)

/-- A predicate written with latency bound `b`; a write of p0 is discarded (R54). -/
def Stream.writeP (st : Stream) (p : Fin 16) (v : Bool) (b : Nat) : Stream :=
  if p = 0 then st
  else (st.setBank { st.bank with preds := st.bank.preds.set p { val := v, ready := st.clk + b } }).landAt (st.clk + b)

/-- A scalar source operand of the stream whose turn it is. -/
def rdS (s : State) (x : SSrc) : Word := s.cur.readS s.tick x

/-- A predicate of the stream whose turn it is. -/
def rdP (s : State) (p : Fin 16) : Bool := s.cur.readP s.tick p

/-- A scalar result of the stream whose turn it is. -/
def wrD (d : SDst) (v : Word) (b : Nat) (s : State) : State := s.setCur (s.cur.writeD d v b)

/-- A predicate result of the stream whose turn it is. -/
def wrP (p : Fin 16) (v : Bool) (b : Nat) (s : State) : State := s.setCur (s.cur.writeP p v b)

/-! ### The nest and the program counter (R96, R97) -/

/-- The sum of the increments of base register j over the levels (R96). -/
def nestOffset (n : Nest) (j : Fin 4) : Int :=
  ((List.finRange 6).map fun l => if l.val < n.levels then ((n.idx[l]).toNat : Int) * signed 24 ((n.level[l]).inc[j]).toNat else 0).sum

/-- Writes the base registers of a nest: origin plus offset during a pass, the origin after the nest (R96). -/
def writeBases (clk : Nat) (g d : Nat) (inPass : Bool) (n : Nest) (regs : Vector Slot 128) : Vector Slot 128 :=
  (List.finRange 4).foldl (fun r j =>
    match n.base[j] with
    | none => r
    | some i => r.set (physReg g d i)
        { val := n.origin[j] + (if inPass then wordOfInt (nestOffset n j) else 0), ready := clk, fld := none }) regs

/-- The indices of the next pass: the lowest level that has passes left steps, and the levels below restart; `none` at the end (R96). -/
def nextIdx (n : Nest) : Option (Vector (BitVec 32) 6) :=
  match (List.finRange 6).find? (fun l => decide (l.val < n.levels) && decide ((n.idx[l]).toNat + 1 < ((n.level[l]).count).toNat)) with
  | none => none
  | some l => some (Vector.ofFn fun m => if m.val < l.val then 0 else if m = l then n.idx[m] + 1 else n.idx[m])

/-- The boundary after a word: the next body word, the next pass, the end of the nest, or the next word (R96, R97). -/
def Stream.advance (st : Stream) : Stream :=
  let b := st.bank
  let n := b.nest
  if n.active then
    if n.pos + 1 < n.words then ({ st with pc := st.pc + 4 }).setBank { b with nest := { n with pos := n.pos + 1 } }
    else match nextIdx n with
      | some ix =>
        let n' := { n with idx := ix, pos := 0 }
        ({ st with pc := n.nestPc + 4 }).setBank
          { b with nest := n', regs := writeBases st.clk st.groups b.depth true n' b.regs }
      | none =>
        ({ st with pc := n.nestPc + 4 + BitVec.ofNat 22 (4 * n.words) }).setBank
          { b with nest := { n with active := false, pos := 0 }, regs := writeBases st.clk st.groups b.depth false n b.regs }
  else { st with pc := st.pc + 4 }

/-- The boundary after the word of the stream whose turn it is. -/
def advance (s : State) : State := s.setCur s.cur.advance

/-! ### Traps (R370-R374) -/

/-- A trap with a cause and record. -/
def mkTrap (cause info addr : Nat) : TrapRec := { cause := cause, info := BitVec.ofNat 64 info, addr := BitVec.ofNat 64 addr }

/-- The cause codes of Table 19-1. -/
def cIllegal : Nat := 0x01
/-- Privilege. -/
def cPrivilege : Nat := 0x02
/-- Alignment. -/
def cAlignment : Nat := 0x03
/-- Format. -/
def cFormat : Nat := 0x04
/-- Poison consumed. -/
def cPoison : Nat := 0x05
/-- Translation. -/
def cTranslation : Nat := 0x06
/-- Window spill overflow. -/
def cSpill : Nat := 0x07
/-- Synchronisation misuse. -/
def cSync : Nat := 0x08
/-- Message misuse. -/
def cMessage : Nat := 0x09
/-- Matrix misuse. -/
def cMatrix : Nat := 0x0A
/-- Vector misuse. -/
def cVector : Nat := 0x0B
/-- Token-tree misuse. -/
def cTree : Nat := 0x0C
/-- Audit misuse. -/
def cAudit : Nat := 0x0D
/-- Forager misuse. -/
def cForager : Nat := 0x0E
/-- Launch misuse. -/
def cLaunch : Nat := 0x0F
/-- System misuse. -/
def cSystem : Nat := 0x10
/-- Promise missed. -/
def cMissed : Nat := 0x11
/-- Engine fault. -/
def cEngine : Nat := 0x12
/-- Audit divergence. -/
def cDivergence : Nat := 0x18
/-- Replica mismatch. -/
def cReplica : Nat := 0x19
/-- Forager fault. -/
def cForagerFault : Nat := 0x1A
/-- Pre-emption request. -/
def cPreempt : Nat := 0x1B
/-- Host interrupt. -/
def cHost : Nat := 0x1C
/-- Watchdog. -/
def cWatchdog : Nat := 0x1D
/-- Stream parked. -/
def cParked : Nat := 0x1E

/-- The Delegable column of Table 19-1; an audit divergence goes by OWNER (R310). -/
def delegable (c : Nat) : Bool :=
  [0x01, 0x03, 0x04, 0x05, 0x07, 0x08, 0x09, 0x0A, 0x0B, 0x0C, 0x0D, 0x0E, 0x0F, 0x11, 0x12, 0x1A].contains c
    || (decide (0x20 ≤ c) && decide (c < 0x40))

/-- A software trap (R107). -/
def isSoftware (c : Nat) : Bool := decide (0x20 ≤ c) && decide (c < 0x40)

/-- The trap goes to the stream's job handler (R372). -/
def toJobHandler (s : State) (t : Sec) (c : Nat) : Bool :=
  !(s.str t).priv && !(s.str t).trap.inh && (s.str t).trap.vec != 0 &&
    ((delegable c && bitOf (s.str t).tdlg c) || (decide (c = cDivergence) && s.core.audit.owner == 0))

/-- A nest made inactive, its other state kept (R373). -/
def Bank.stopNest (b : Bank) : Bank := { b with nest := { b.nest with active := false } }

/-- NCS with flags set as well: they are sticky (R47). A set holds NV [4], DZ [3], OF [2], UF [1], NX [0]. -/
def Ncs.accrue (n : Ncs) (f : BitVec 5) : Ncs :=
  { n with nv := n.nv || bitOf f 4, dz := n.dz || bitOf f 3, of := n.of || bitOf f 2, uf := n.uf || bitOf f 1, nx := n.nx || bitOf f 0 }

/-- NCS with the flags of all of a stream's results that land by cycle `clk` (R48). -/
def Stream.landedNcs (st : Stream) (clk : Nat) : Ncs :=
  (st.landing.filter fun l => decide (l.due ≤ clk)).foldl (fun n l => n.accrue l.flags) st.ncs

/-- The trap of a load that lands, set aside for the next boundary with the load's program counter (R257). -/
def Landing.setAside (l : Landing) : Option Deferred := l.trap.map fun p => { record := p.1, pc := some p.2 }

/-- Every issued result has landed: the stream's issue cycle passes the latest of them (R67, R69), their flags are set (R48), and the traps of
loads stand at the next boundary (R257). -/
def Stream.settled (st : Stream) : Stream :=
  let st := { st with clk := max st.clk st.maxReady }
  { st with ncs := st.landing.foldl (fun n l => n.accrue l.flags) st.ncs, landing := [], deferred := st.deferred ++ st.landing.filterMap Landing.setAside }

/-- A load trap is on its way: the stream's next trap waits for it (R69, R257). -/
def Stream.awaitsLoad (st : Stream) : Bool := st.landing.any (·.trap.isSome)

/-- Entry at job level (R373). -/
def Stream.enterJob (st : Stream) (r : TrapRec) (pc : BitVec 22) : Stream :=
  let st := st.settled
  { st with
    trap := { inh := true, pmode := st.mode, ppriv := false, nact := st.job.nest.active, npos := BitVec.ofNat 6 st.job.nest.pos
              cause := BitVec.ofNat 8 r.cause, info := r.info, addr := r.addr, epc := pc, vec := st.trap.vec }
    pc := st.trap.vec, mode := true, job := st.job.stopNest }

/-- A program counter from a register word: bits [21:2], for bits [1:0] of a program counter are zero (R51). -/
def pcOf (x : Word) : BitVec 22 := BitVec.ofNat 22 (bitsOf x 2 20 * 4)

/-- Entry to supervisor mode (R373). -/
def Stream.enterSup (st : Stream) (r : TrapRec) (pc : BitVec 22) : Stream :=
  let st := st.settled
  { st with
    strap := { inh := true, pmode := st.mode, ppriv := false, nact := st.job.nest.active, npos := BitVec.ofNat 6 st.job.nest.pos
               cause := BitVec.ofNat 8 r.cause, info := r.info, addr := r.addr, epc := pc, vec := st.strap.vec }
    pc := pcOf (st.strap.vec.setWidth 64), mode := true, priv := true, job := st.job.stopNest, sup := st.sup.stopNest }

/-- The firmware event of a record for the event ring (R414). -/
def recordEvent (e : EventRec) : Event :=
  { i := .eventPost, arg := { core := 0, sec := .ctl, a := 0, b := 0, data := .record e } }

/-- The report of a core stop (R374, R414). -/
def coreStopEvent (core : Nat) (r : TrapRec) : Event :=
  recordEvent { type := 2, cont := false
                payload := BitVec.ofNat 384 (core + r.cause % 256 * 2 ^ 16 + r.info.toNat * 2 ^ 64 + r.addr.toNat * 2 ^ 128) }

/-- Parks a stream at `pc`; by a trap it keeps the record (R379). -/
def Stream.parkAt (st : Stream) (r : Option TrapRec) (pc : BitVec 22) : Stream :=
  let st := st.settled
  { st with pc := pc, parked := some { byTrap := r }, parkAsked := false, park := r.getD st.park, waiting := none }

/-- A sem waiter of this core and stream. -/
def isWaiter (coord : BitVec 32) (t : Sec) (w : SemWaiter) : Bool := decide (w.coord = coord) && decide (w.sec = t) && w.remote.isNone

/-- Withdraws a stream's waiting instruction from every queue (R133). RDV keeps its arrival and records RDVP, RDVG (R142).
The queue mark of an MSWAP or MCLR that holds is dropped (R240), and so is the check of an MDRAIN that waits (R239). -/
def withdraw (t : Sec) (s : State) : State :=
  let s := if t = .mat then { s with core := { s.core with mat := { s.core.mat with mark := none, checked := false } } } else s
  match (s.str t).waiting with
  | none => s
  | some w =>
    let s0 := s.onStr t fun st => { st with waiting := none }
    match w.on with
    | .sem phys _ =>
      let y := s.core.sync
      let x := y.sems[Fin.ofNat 64 phys]
      s0.setCore { s0.core with sync := { y with sems := y.sems.set (Fin.ofNat 64 phys) { x with fifo := x.fifo.filter fun f => !isWaiter s.ownCoord t f } } }
    | .mutex m =>
      let y := s.core.sync
      let x := y.mutexes[Fin.ofNat 16 m]
      s0.setCore { s0.core with sync := { y with mutexes := y.mutexes.set (Fin.ofNat 16 m) { x with fifo := x.fifo.filter (· != t) } } }
    | .rdv g => s0.onStr t fun st => { st with rdvPending := some g }
    | .swtake _ _ _ => { s0 with gather := { s0.gather with waiters := s0.gather.waiters.filter fun p => p.2 != s.core.num } }
    | _ => s0

/-- A request that answers go to, sent to the file that owns a semaphore of another core, as an event there or by message (R135, R136). An event carries the
device cycle, plus 1, in which the request reaches the file (R129). A position that is absent never answers. -/
def sendToFile (i : Instr) (coord : BitVec 32) (r : SemReq) (s : State) : State :=
  if coordModule coord = s.ownModule then
    if coordCore coord < 192 ∧ s.isPresent (coordCore coord) then s.raise [{ i := i, arg := { core := coordCore coord, sec := .ctl, a := 0, b := s.now + 1, data := .sem r } }] else s
  else s.send (coordModule coord) (.semaphore (coordCore coord) r)

/-- A withdrawal request on its way to the owning file (R136). -/
def sendWithdrawal (coord : BitVec 32) (r : SemReq) (s : State) : State :=
  sendToFile .remoteWithdrawal coord (if coordModule coord = s.ownModule then r else { r with op := .withdraw }) s

/-- What stream `t` waits for. -/
def waitsOn (s : State) (t : Sec) : Option Wait := (s.str t).waiting.map (·.on)

/-- The remote semaphore operation that a stream awaits the answer of. -/
def remoteOf (s : State) (t : Sec) : Option (RemoteWait × Option SDst) :=
  match waitsOn s t with
  | some (.remote r d) => some (r, d)
  | _ => none

/-- The remote wait of a stream replaced. -/
def setRemote (t : Sec) (r : RemoteWait) (d : Option SDst) (s : State) : State :=
  s.onStr t fun st => { st with waiting := st.waiting.map fun w => { w with on := .remote r d } }

/-- A trap or a park (`park`) waits for stream `t`, whose remote SEMWAIT is asked back; a refused one is withdrawn at once (R136). -/
def askWithdrawal (park : Bool) (t : Sec) (s : State) : State :=
  match remoteOf s t with
  | some (r, d) =>
    let r := { r with park := r.park || park }
    if r.req.op ≠ .wait ∨ r.withdraw then setRemote t r d s
    else if r.refusedAt.isSome then s.onStr t fun st => { st with waiting := none }
    else sendWithdrawal r.owner r.req (setRemote t { r with withdraw := true, issued := s.now } d s)
  | none => s

/-- A stream stopped by CoreStop: one already parked keeps its record, and one that awaits the answer of a semaphore file of another core has asked
for it back and receives it while parked (R136, R374). -/
def Stream.stopHere (st : Stream) : Stream :=
  if st.parked.isSome then { st with parked := st.parked.map fun p => { p with idle := false } } else { st.parkAt none st.pc with waiting := st.waiting }

/-- The waits of stream `t` at a core stop: a remote one is asked back, every other one is withdrawn. -/
def stopWaits (s : State) (t : Sec) : State := if (remoteOf s t).isSome then askWithdrawal false t s else withdraw t s

/-- CoreStop parks all four streams, sets RUNST.STOP and reports to the housekeeping processor (R374). -/
def coreStop (t : Sec) (r : TrapRec) (pc : BitVec 22) (s : State) : State :=
  let s1 := allSecs.foldl stopWaits s
  let s2 := s1.onStr t fun st => { st with pc := pc }
  let park := Stream.stopHere
  let c := s2.core
  { s2 with core := { c with streams := { ctl := park c.streams.ctl, copy := park c.streams.copy, mat := park c.streams.mat, vec := park c.streams.vec }
                             stop := true } }.raise [coreStopEvent c.num r]

/-- Taking a trap in stream `t` of the core in focus: routing (R372) and entry (R373). `pc` is the entry pc. -/
def takeTrap (t : Sec) (r : TrapRec) (pc : BitVec 22) (s : State) : State :=
  let s := withdraw t s
  if toJobHandler s t r.cause then s.onStr t fun st => st.enterJob r pc
  else match t with
    | .ctl =>
      if (s.str .ctl).priv || noRegion s.core then coreStop .ctl r pc s
      else s.onStr .ctl fun st => st.enterSup r pc
    | _ =>
      let s1 := s.onStr t fun st => st.parkAt (some r) pc
      s1.setCore { s1.core with pendParked := s1.core.pendParked.set t true }

/-- The nest of a bank resumed by a return to `pc`: when the saved active flag is set and `pc` lies in the body, which may run past the end of the scratchpad and
on from its start, the nest resumes exactly from that body word, which is word NPOS unless the handler has moved the address (log entry 40), and it is inactive
elsewhere (R97, R377). -/
def Bank.resumeNest (b : Bank) (act : Bool) (pc : BitVec 22) : Bank :=
  let off := (pc - (b.nest.nestPc + 4)).toNat
  if act && decide (off < 4 * b.nest.words) then
    { b with nest := { b.nest with active := true, pos := off / 4 } }
  else b.stopNest

/-- Return from a handler of the stream's level (R377), after its INH was found set. Results in flight still land (R69). -/
def Stream.trapReturn (st : Stream) : Stream :=
  if st.priv then
    { st with strap := { st.strap with inh := false }, mode := st.strap.pmode, pc := st.strap.epc, priv := st.strap.ppriv
              job := if st.strap.ppriv then st.job else st.job.resumeNest st.strap.nact st.strap.epc
              sup := if st.strap.ppriv then st.sup.resumeNest st.strap.nact st.strap.epc else st.sup }
  else
    { st with trap := { st.trap with inh := false }, mode := st.trap.pmode, pc := st.trap.epc
              job := st.job.resumeNest st.trap.nact st.trap.epc }

end Sys2Proof.Machine
end

