-- ==== Sys2Proof/Machine/Operands.lean ====
section
/-! DEFINITION. How an instruction word issues: the section and privilege checks of R61, the guard (R56), the locations it
names and when it may read them (R62-R69), and the trap it may end in. -/

namespace Sys2Proof.Machine

/-! ### What an instruction names -/

/-- The locations that an instruction names: settle bit, guard, scalar sources and destination, predicates, vector sources and
destinations, and masks. -/
structure Use where
  settle : Bool
  guard : Fin 16
  srcs : List SSrc
  dst : Option SDst
  preds : List (Fin 16)
  vsrcs : List VSrc
  vdst : Option VDst
  vdsts : List (Fin 24)
  masks : List (Fin 16)

/-- An instruction that names nothing. -/
def noUse : Use :=
  { settle := false, guard := 0, srcs := [], dst := none, preds := [], vsrcs := [], vdst := none, vdsts := [], masks := [] }

/-- The even mask of a pair (R263). -/
def evenMask (j : Fin 8) : Fin 16 := Fin.ofNat 16 (2 * j.val)
/-- The odd mask of a pair. -/
def oddMask (j : Fin 8) : Fin 16 := Fin.ofNat 16 (2 * j.val + 1)
/-- The even vector register of a pair (R267). -/
def evenReg (j : Fin 12) : Fin 24 := Fin.ofNat 24 (2 * j.val)
/-- The odd vector register of a pair. -/
def oddReg (j : Fin 12) : Fin 24 := Fin.ofNat 24 (2 * j.val + 1)

/-- Q3 format with dest, a, b and guard: what it names. -/
def useDABP (o : DABP) : Use :=
  { noUse with settle := o.s, guard := o.p, srcs := [o.a, o.b], dst := some o.d }

/-- Q3 format with dest, a and guard: what it names. -/
def useDAP (o : DAP) : Use :=
  { noUse with settle := o.s, guard := o.p, srcs := [o.a], dst := some o.d }

/-- Q3 format with dest and guard: what it names. -/
def useDP (o : DP) : Use :=
  { noUse with settle := o.s, guard := o.p, dst := some o.d }

/-- Q3 format with a, b and guard: what it names. -/
def useABP (o : ABP) : Use :=
  { noUse with settle := o.s, guard := o.p, srcs := [o.a, o.b] }

/-- Q3 format with a and guard: what it names. -/
def useAP (o : AP) : Use :=
  { noUse with settle := o.s, guard := o.p, srcs := [o.a] }

/-- Q3 format with the guard alone: what it names. -/
def useGP (o : GP) : Use :=
  { noUse with settle := o.s, guard := o.p }

/-- CMP: the condition stands in the function field (Table 3-3): what it names. -/
def useCmpOps (o : CmpOps) : Use :=
  { noUse with settle := o.s, guard := o.p, srcs := [o.a, o.b], preds := [o.pd] }

/-- PLOG: predicates in dest, a and b; t is the truth table (R92): what it names. -/
def usePlogOps (o : PlogOps) : Use :=
  { noUse with settle := o.s, guard := o.p, preds := [o.pd, o.pa, o.pb] }

/-- SEL: t names the selecting predicate (R92): what it names. -/
def useSelOps (o : SelOps) : Use :=
  { noUse with settle := o.s, guard := o.p, srcs := [o.a, o.b], dst := some o.d, preds := [o.t] }

/-- TRAP: n is the software trap number (Table 3-3): what it names. -/
def useTrapOps (o : TrapOps) : Use :=
  { noUse with settle := o.s, guard := o.p }

/-- MODE: l is 0 exposed, 1 interlocked (Table 3-3): what it names. -/
def useModeOps (o : ModeOps) : Use :=
  { noUse with settle := o.s, guard := o.p }

/-- QI format with a signed immediate: what it names. -/
def useDAI (o : DAI) : Use :=
  { noUse with settle := o.s, guard := o.p, srcs := [o.a], dst := some o.d }

/-- SHLI, SHRI, SHAI: h is the shift amount (Table 3-3): what it names. -/
def useDAH (o : DAH) : Use :=
  { noUse with settle := o.s, guard := o.p, srcs := [o.a], dst := some o.d }

/-- BFX, BFI: o is the position, w the width minus one (R90): what it names. -/
def useBfOps (o : BfOps) : Use :=
  { noUse with settle := o.s, guard := o.p, srcs := [o.a], dst := some o.d }

/-- CMPI: c is the condition, i the comparand (R91): what it names. -/
def useCmpiOps (o : CmpiOps) : Use :=
  { noUse with settle := o.s, guard := o.p, srcs := [o.a], preds := [o.pd] }

/-- QL format with dest and a 20-bit immediate (R89): what it names. -/
def useDI (o : DI) : Use :=
  { noUse with settle := o.s, dst := some o.d }

/-- FENCE: m is the class mask, c the scope (R119): what it names. -/
def useFenceOps (o : FenceOps) : Use :=
  { noUse with settle := o.s }

/-- B format: p the predicate, n negate, o the signed word offset: what it names. -/
def useBOps (o : BOps) : Use :=
  { noUse with settle := o.s, preds := [o.p] }

/-- NDIM: l is the levels minus one (R95): what it names. -/
def useNdimOps (o : NdimOps) : Use :=
  { noUse with settle := o.s, srcs := [o.a] }

/-- NEST: w is the body words minus one (R96): what it names. -/
def useNestOps (o : NestOps) : Use :=
  { noUse with settle := o.s }

/-- LIDX: l is the level (R98): what it names. -/
def useLidxOps (o : LidxOps) : Use :=
  { noUse with settle := o.s, guard := o.p, dst := some o.d }

/-- M format load: b base, k class, z size code, o offset units (R99): what it names. -/
def useLdOps (o : LdOps) : Use :=
  { noUse with settle := o.s, srcs := [o.b], dst := some o.d }

/-- M format store: x is the data register (R99): what it names. -/
def useStOps (o : StOps) : Use :=
  { noUse with settle := o.s, srcs := [o.x, o.b] }

/-- LDN: o is the offset in nibbles (R100): what it names. -/
def useLdnOps (o : LdnOps) : Use :=
  { noUse with settle := o.s, srcs := [o.b], dst := some o.d }

/-- STN: o is the offset in nibbles (R100): what it names. -/
def useStnOps (o : StnOps) : Use :=
  { noUse with settle := o.s, srcs := [o.x, o.b] }

/-- FLD: q is the acquire mark, c its scope, o the offset units (R103): what it names. -/
def useFldOps (o : FldOps) : Use :=
  { noUse with settle := o.s, srcs := [o.b], dst := some o.d }

/-- FST: q is the release mark, c its scope, o the offset units (R103): what it names. -/
def useFstOps (o : FstOps) : Use :=
  { noUse with settle := o.s, srcs := [o.x, o.b] }

/-- CSRR: c is the CSR number (R106): what it names. -/
def useCsrrOps (o : CsrrOps) : Use :=
  { noUse with settle := o.s, guard := o.p, dst := some o.d }

/-- CSRW: c is the CSR number (R106): what it names. -/
def useCsrwOps (o : CsrwOps) : Use :=
  { noUse with settle := o.s, guard := o.p, srcs := [o.a] }

/-- Y format with a, b, scope and class: what it names. -/
def useYABsk (o : YABsk) : Use :=
  { noUse with settle := o.s, srcs := [o.a, o.b] }

/-- Y format with dest, a, b, scope and class: what it names. -/
def useYDABsk (o : YDABsk) : Use :=
  { noUse with settle := o.s, srcs := [o.a, o.b], dst := some o.d }

/-- Y format with dest, a, scope and class: what it names. -/
def useYDAsk (o : YDAsk) : Use :=
  { noUse with settle := o.s, srcs := [o.a], dst := some o.d }

/-- Y format with a, scope and class: what it names. -/
def useYAsk (o : YAsk) : Use :=
  { noUse with settle := o.s, srcs := [o.a] }

/-- Y format with a and class: what it names. -/
def useYAk (o : YAk) : Use :=
  { noUse with settle := o.s, srcs := [o.a] }

/-- Y format with a alone: what it names. -/
def useYA (o : YA) : Use :=
  { noUse with settle := o.s, srcs := [o.a] }

/-- Y format with a, b and class: what it names. -/
def useYABk (o : YABk) : Use :=
  { noUse with settle := o.s, srcs := [o.a, o.b] }

/-- Y format with a and b: what it names. -/
def useYAB (o : YAB) : Use :=
  { noUse with settle := o.s, srcs := [o.a, o.b] }

/-- Y format with dest, a and b: what it names. -/
def useYDAB (o : YDAB) : Use :=
  { noUse with settle := o.s, srcs := [o.a, o.b], dst := some o.d }

/-- Y format with dest, a, b and class: what it names. -/
def useYDABk (o : YDABk) : Use :=
  { noUse with settle := o.s, srcs := [o.a, o.b], dst := some o.d }

/-- An instruction with no field but the settle bit: what it names. -/
def useBare (o : Bare) : Use :=
  { noUse with settle := o.s }

/-- C format with a and a queue number (Table 10-2): what it names. -/
def useCAQ (o : CAQ) : Use :=
  { noUse with settle := o.s, guard := o.p, srcs := [o.a] }

/-- C format with a and a channel number (Table 10-2): what it names. -/
def useCAH (o : CAH) : Use :=
  { noUse with settle := o.s, guard := o.p, srcs := [o.a] }

/-- SENDS: predicate destination, a and channel (Table 10-2): what it names. -/
def useCPAH (o : CPAH) : Use :=
  { noUse with settle := o.s, guard := o.p, srcs := [o.a], preds := [o.pd] }

/-- C format with dest, a and a queue number (Table 10-2): what it names. -/
def useCDAQ (o : CDAQ) : Use :=
  { noUse with settle := o.s, guard := o.p, srcs := [o.a], dst := some o.d }

/-- PEEK: dest and a queue number (Table 10-2): what it names. -/
def useCDQ (o : CDQ) : Use :=
  { noUse with settle := o.s, guard := o.p, dst := some o.d }

/-- QSTAT: dest, selector and a queue or channel number (Table 10-2): what it names. -/
def useCDAH (o : CDAH) : Use :=
  { noUse with settle := o.s, guard := o.p, srcs := [o.a], dst := some o.d }

/-- K format with a command register and a register operand (R53): what it names. -/
def useKRA (o : KRA) : Use :=
  { noUse with settle := o.s, srcs := [o.a] }

/-- CSETI: a command register and an 18-bit signed immediate (R53): what it names. -/
def useKRI (o : KRI) : Use :=
  { noUse with settle := o.s }

/-- CDIM: r is the dimension; two register operands (R161): what it names. -/
def useKDim (o : KDim) : Use :=
  { noUse with settle := o.s, srcs := [o.a, o.b] }

/-- VSHAPE: the shape word in a (R253): what it names. -/
def useVShapeOps (o : VShapeOps) : Use :=
  { noUse with settle := o.s, srcs := [o.a] }

/-- V format: vector destination, scalar a, mask: what it names. -/
def useVWA (o : VWA) : Use :=
  { noUse with settle := o.s, srcs := [o.a], vdst := some o.v, masks := [o.m] }

/-- V format store: scalar a, vector source vb, mask: what it names. -/
def useVSA (o : VSA) : Use :=
  { noUse with settle := o.s, srcs := [o.a], vsrcs := [o.x], masks := [o.m] }

/-- VLDM: mask destination, scalar address (R258): what it names. -/
def useVMA (o : VMA) : Use :=
  { noUse with settle := o.s, srcs := [o.a], masks := [o.v] }

/-- VSTM: scalar address, mask source (R258): what it names. -/
def useVAM (o : VAM) : Use :=
  { noUse with settle := o.s, srcs := [o.a], masks := [o.b] }

/-- VGAT: vector destination, gather word a, index vector x (R271): what it names. -/
def useVGatOps (o : VGatOps) : Use :=
  { noUse with settle := o.s, srcs := [o.a], vsrcs := [o.x], vdst := some o.v, masks := [o.m] }

/-- VSCT: data source v, gather word a, index vector x (R267): what it names. -/
def useVSctOps (o : VSctOps) : Use :=
  { noUse with settle := o.s, srcs := [o.a], vsrcs := [o.v, o.x], masks := [o.m] }

/-- VMOVS: scalar destination, vector source, lane number b (R259): what it names. -/
def useVMovsOps (o : VMovsOps) : Use :=
  { noUse with settle := o.s, srcs := [o.b], dst := some o.d, vsrcs := [o.x] }

/-- VIOTA: start a, step b (R259): what it names. -/
def useVIotaOps (o : VIotaOps) : Use :=
  { noUse with settle := o.s, srcs := [o.a, o.b], vdst := some o.v, masks := [o.m] }

/-- V format: vector destination, vector sources x (va) and y (vb), mask: what it names. -/
def useVWXY (o : VWXY) : Use :=
  { noUse with settle := o.s, vsrcs := [o.x, o.y], vdst := some o.v, masks := [o.m] }

/-- V format: vector destination, vector source x (va), mask: what it names. -/
def useVWX (o : VWX) : Use :=
  { noUse with settle := o.s, vsrcs := [o.x], vdst := some o.v, masks := [o.m] }

/-- V format: vector destination, vector source x (va), scalar control b, mask: what it names. -/
def useVWXB (o : VWXB) : Use :=
  { noUse with settle := o.s, srcs := [o.b], vsrcs := [o.x], vdst := some o.v, masks := [o.m] }

/-- What an instruction that reads its old destination reads of a push: vq0 as it stands at issue (R260, R277). -/
def oldSource : VDst → List VSrc
  | .push => [.q 0]
  | .v _ => []

/-- VHIST in a state: with ACC set in the control word that B holds, a push reads vq0 too (R66, R277). -/
def useVhist (s : State) (o : VWXB) : Use :=
  { useVWXB o with vsrcs := o.x :: (if bitOf (s.cur.srcSlot o.b).val 13 then oldSource o.v else []) }

/-- VQUANT: destination and two sources, no mask (R266): what it names. -/
def useVQuantOps (o : VQuantOps) : Use :=
  { noUse with settle := o.s, vsrcs := [o.x, o.y], vdst := some o.v }

/-- VCMP, VICMP: j names the mask pair m2j, m2j+1 (R263): what it names. -/
def useVCmpOps (o : VCmpOps) : Use :=
  { noUse with settle := o.s, vsrcs := [o.x, o.y], masks := [o.m, evenMask o.j, oddMask o.j] }

/-- VMLOG: mask destination, mask source, truth table in b (R264): what it names. -/
def useVMlogOps (o : VMlogOps) : Use :=
  { noUse with settle := o.s, srcs := [o.b], masks := [o.m, o.v, o.x] }

/-- VMPOP, VMFIRST: scalar destination, mask source (R264): what it names. -/
def useVMdOps (o : VMdOps) : Use :=
  { noUse with settle := o.s, dst := some o.d, masks := [o.m, o.x] }

/-- VOSM: v and x name the even registers v(2v) and v(2x) (R267): what it names. -/
def useVOsmOps (o : VOsmOps) : Use :=
  { noUse with settle := o.s, vsrcs := [.v (evenReg o.x), .v (oddReg o.x)], vdsts := [evenReg o.v, oddReg o.v] }

/-- VFMA: f is the sign variant (R260): what it names. -/
def useVFmaOps (o : VFmaOps) : Use :=
  { noUse with settle := o.s, vsrcs := [o.x, o.y] ++ oldSource o.v, vdst := some o.v, masks := [o.m] }

/-- T format with a and guard: what it names. -/
def useTA (o : TA) : Use :=
  { noUse with settle := o.s, guard := o.p, srcs := [o.a] }

/-- T format with scalar destination, a, b and guard: what it names. -/
def useTDAB (o : TDAB) : Use :=
  { noUse with settle := o.s, guard := o.p, srcs := [o.a, o.b], dst := some o.d }

/-- T format with a, b and guard: what it names. -/
def useTAB (o : TAB) : Use :=
  { noUse with settle := o.s, guard := o.p, srcs := [o.a, o.b] }

/-- TTMASK: mask destination and a: what it names. -/
def useTMA (o : TMA) : Use :=
  { noUse with settle := o.s, guard := o.p, srcs := [o.a], masks := [o.v] }

/-- T format with vector destination, a and guard: what it names. -/
def useTWA (o : TWA) : Use :=
  { noUse with settle := o.s, guard := o.p, srcs := [o.a], vdst := some o.v }

/-- TTDEPTH: vector destination, a, b and guard: what it names. -/
def useTWAB (o : TWAB) : Use :=
  { noUse with settle := o.s, guard := o.p, srcs := [o.a, o.b], vdst := some o.v }

/-- TTSTAT: scalar destination, a and guard: what it names. -/
def useTDA (o : TDA) : Use :=
  { noUse with settle := o.s, guard := o.p, srcs := [o.a], dst := some o.d }

/-! ### Where a word may stand (R58-R60) -/

/-- The sections in which an instruction is assigned. -/
inductive Place where
  /-- Every section. -/
  | anywhere
  /-- A major of the ctl section alone: check 1 elsewhere. -/
  | ctlMajor
  /-- A function of major 0x1F that stands in the ctl section alone: check 2 elsewhere (R59). -/
  | ctlFunction
  /-- A major of the ctl and copy sections. -/
  | ctlCopy
  /-- A major of the copy section. -/
  | copyMajor
  /-- A major of the mat section. -/
  | matMajor
  /-- A major of the vec section. -/
  | vecMajor
  /-- An event, which stands in no section. -/
  | event
  deriving DecidableEq, Repr

/-- Where an instruction stands (Tables 3-3 and 3-4). -/
def place : Instr → Place
  | .add _ | .sub _ | .mul _ | .mulh _ | .mulhz _ | .div _ | .divz _ | .rem _ | .remz _ | .and _
  | .or _ | .xor _ | .andn _ | .shl _ | .shr _ | .sha _ | .min _ | .max _ | .minz _ | .maxz _
  | .adda _ | .clz _ | .ctz _ | .popc _ | .sext _ | .pick _ | .addi _ | .andi _ | .ori _ | .xori _
  | .shli _ | .shri _ | .shai _ | .lil _ | .lih _ | .bfx _ | .bfi _ | .cmp _ | .cmpi _ | .plog _
  | .sel _ | .br _ | .call _ | .jmp _ | .callr _ | .ret _ | .ndim _ | .nest _ | .lidx _ | .ld _
  | .ldz _ | .st _ | .ldn _ | .stn _ | .csrr _ | .csrw _ | .cyc _ | .nop _ | .trap _ | .fence _
  | .semsig _ | .semwait _ | .semtry _ | .semadd _ | .semcas _ | .semrd _ | .mtxlock _ | .mtxtry _ | .mtxfree _ | .bararr _
  | .barwait _ | .rdv _ | .evset _ | .evclr _ | .evwait _ | .waitlt _ | .claim _ | .commit _ | .await _ | .retire _
  | .sleepu _ | .waita _ | .mode _ | .tret _ => .anywhere
  | .fld _ | .fst _ | .fgstart _ | .fgstop _ | .fgstat _ | .fglate _ | .fgwin _ | .fgpace _ | .fgmc _ | .fgmark _
  | .launch _ | .post _ | .take _ | .yieldJob _ | .doneJob _ | .coord _ | .swcfg _ | .swtake _ | .stgq _ | .asamp _
  | .amode _ | .athr _ | .aown _ | .aforce _ | .ahist _ | .aclr _ | .astat _ | .arel _ => .ctlMajor
  | .ctxsave _ | .ctxload _ | .preempt _ | .semmap _ | .tlbinv _ | .tlbprobe _ | .hint _ | .halt _ | .wflush _ => .ctlFunction
  | .qcfg _ | .chmap _ | .send _ | .sends _ | .recv _ | .recvs _ | .peek _ | .qstat _ | .qfree _ | .mcast _ => .ctlCopy
  | .cset _ | .cseti _ | .cdim _ | .cldc _ | .cstc _ | .copy _ | .gather _ | .scatter _ | .cfill _ | .kvlist _
  | .ttile _ | .cfollow _ | .tdef _ | .publish _ | .frmap _ | .cstat _ | .cbmap _ | .cresume _ | .ccancel _ | .cwait _ => .copyMajor
  | .mcfg _ | .mrel _ | .wload _ | .wflip _ | .mmul _ | .mband _ | .mtag _ | .mswap _ | .mclr _ | .msave _
  | .mrest _ | .mpace _ | .mdrain _ | .mstat _ => .matMajor
  | .vshape _ | .vld _ | .vst _ | .vldm _ | .vstm _ | .vgat _ | .vsct _ | .vsplat _ | .vmovs _ | .viota _
  | .vaccr _ | .vaccw _ | .vadd _ | .vsub _ | .vmul _ | .vmax _ | .vmin _ | .vabs _ | .vneg _ | .vclamp _
  | .vscale _ | .vrcp _ | .vrsq _ | .vexp _ | .vlog _ | .vcvt _ | .vquant _ | .viadd _ | .visub _ | .vimul _
  | .vand _ | .vor _ | .vxor _ | .vshl _ | .vshr _ | .vsha _ | .vcmp _ | .vicmp _ | .vsel _ | .vmlog _
  | .vmpop _ | .vmfirst _ | .vred _ | .vredc _ | .vscan _ | .vpart _ | .vhist _ | .vord _ | .vtrn _ | .vperm _
  | .vosm _ | .vfma _ | .ttclr _ | .ttnew _ | .ttadd _ | .ttload _ | .ttstore _ | .ttmask _ | .ttpos _ | .ttdepth _
  | .ttpath _ | .ttprune _ | .ttstat _ => .vecMajor
  | .bartWrite | .sleepWake | .watchEvent | .watchPoll | .watchTimeout | .remoteSemRequest | .remoteSemAnswer | .remoteSemResend | .remoteSemTimeout | .remoteWithdrawal
  | .queueEntryArrival | .creditReturn | .messageAckTimeout | .timedRecvDue | .legRead | .legStart | .controlLeg | .sourceLegSend | .readyNotice | .goneAnswer
  | .multicastCellArrival | .multicastSilence | .legLand | .markFire | .schedulerDecision | .packetDeadline | .balancer | .recordDispatch | .jobRetire | .swarmRingPoll
  | .batchEmit | .auditCheckEnd | .commandStart | .cellArrival | .promiseDue | .freezeLimit | .commandComplete | .followOnArrival | .listedItemFinish | .tolerantRetry
  | .incomingWrite | .wloadDispatch | .wloadFillEnd | .wflipDispatch | .mmulDispatch | .mmulFinish | .resultLand | .trapEntry | .asyncTrapDelivery | .watchdogExpiry
  | .doorbell | .coreRetire | .lqwin | .hostMemRead | .hostMemWrite | .linkStateChange | .moduleReset | .bootgo | .bootVerify | .selfTestDone
  | .helper | .enrol | .attest | .evring | .powercap | .history | .unknownCommand | .mailboxDone | .go | .registerWrite
  | .eventPost | .flitReceive | .nakReceive | .linkRetrain | .retrainEnd | .routeLossTimeout | .moduleJoin | .moduleLeave | .patrolScrub | .layerMapOut
  | .stageBankSpare | .bulkBankSpare | .alertBackOff | .thermalStep | .thermalTrip | .powerCapStep | .farStoreAcknowledged | .translationWalkEnd | .spareRowCopied | .bankBlockEnd
  | .msixVectorUnmask => .event

/-- The check of Table 3-5 that an instruction fails by its section: 1 or 2, or none. -/
def sectionCheck (i : Instr) (t : Sec) : Option Nat :=
  match place i with
  | .anywhere => none
  | .ctlMajor => if t = .ctl then none else some 1
  | .ctlFunction => if t = .ctl then none else some 2
  | .ctlCopy => if t = .ctl ∨ t = .copy then none else some 1
  | .copyMajor => if t = .copy then none else some 1
  | .matMajor => if t = .mat then none else some 1
  | .vecMajor => if t = .vec then none else some 1
  | .event => some 1

/-- A supervisor instruction (R59, R357). -/
def isSupervisor : Instr → Bool
  | .ctxsave _ | .ctxload _ | .preempt _ | .semmap _ | .tlbinv _ | .tlbprobe _ | .halt _ | .wflush _ | .swcfg _ => true
  | _ => false

/-- The check that an ill-formed instruction fails: 3 for a scope without its mark, else 4 (R61). -/
def formCheck : Instr → Nat
  | .fld _ | .fst _ => 3
  | _ => 4

/-- The illegal-encoding record of a word (Table 19-2). -/
def illegalRec (word check addr : Nat) : TrapRec := mkTrap cIllegal (word % 2 ^ 32 + check % 8 * 2 ^ 32) addr

/-- The trap that the checks of Table 3-5 give an instruction in the stream whose turn it is, first failing check first. -/
def decodeTrap (i : Instr) (s : State) : Option TrapRec :=
  match sectionCheck i s.turn with
  | some k => some (illegalRec ((encode i).getD 0) k 0)
  | none =>
    if !wellFormed i then some (illegalRec ((encode i).getD 0) (formCheck i) 0)
    else if isSupervisor i && !s.cur.priv then some (mkTrap cPrivilege 0 0)
    else none

/-! ### When a location may be read or written (R62, R66, R67) -/

/-- The issue cycle of the next instruction of a stream, at core cycle `ccc` (R62). -/
def Stream.nextClk (ccc : Nat) (st : Stream) : Nat := max (st.clk + 1) ccc

/-- A vector source can be read at issue cycle `clk`. -/
def vsrcReady (v : VectorFile) (clk : Nat) : VSrc → Bool
  | .q i => decide ((v.vq[i]).ready ≤ clk)
  | .v i => decide ((v.v[i]).ready ≤ clk)
  | _ => true

/-- Every location that the instruction names is readable: what the interlocked scoreboard waits for (R66). -/
def interlockFree (u : Use) (clk : Nat) (st : Stream) (v : VectorFile) : Bool :=
  (u.srcs.all fun x => (st.srcSlot x).readable clk)
  && (match u.dst with
      | some (.n i) => (st.regSlot i).readable clk
      | _ => true)
  && ((u.guard :: u.preds).all fun p => decide ((st.bank.preds[p]).ready ≤ clk))
  && (u.vsrcs.all fun x => vsrcReady v clk x)
  && (match u.vdst with
      | some (.v i) => vsrcReady v clk (.v i)
      | _ => true)
  && (u.vdsts.all fun i => vsrcReady v clk (.v i))
  && (u.masks.all fun m => decide ((v.m[m]).ready ≤ clk))

/-- Every result that the stream has issued is readable, late far loads too (R67). -/
def Stream.drained (clk : Nat) (st : Stream) : Bool := decide (st.maxReady ≤ clk) && st.flds.isEmpty && !st.awaitsLoad

/-- The stream stalls before the instruction: its settle bit or the interlock (R66, R67). -/
def mustHold (u : Use) (s : State) : Bool :=
  let st := s.cur
  let clk := st.nextClk s.ccc
  (st.settling && !st.drained clk) || (st.mode && !interlockFree u clk st s.core.vec)

/-! ### Issue -/

/-- What the body of an instruction comes to. -/
inductive Eff where
  /-- Its effect is complete and the stream goes on at the next boundary. -/
  | done (s : State)
  /-- Its effect is complete and it has set the program counter or the stream's waiting state itself. -/
  | jump (s : State)
  /-- It stalls with no effect and is tried again. -/
  | hold
  /-- It raises a trap and has no effect. -/
  | trap (r : TrapRec)
  /-- It raises a trap in a state that keeps what its entry writes before the trap (R82, R83). -/
  | trapIn (s : State) (r : TrapRec)

/-- A trap of a misuse cause with a reason (Table 19-2). -/
def misuse (cause reason : Nat) : Eff := .trap (mkTrap cause reason 0)

/-- The alignment trap. -/
def misaligned (a : Nat) : Eff := .trap (mkTrap cAlignment 0 a)

/-- The privilege trap at an address. -/
def forbidden (a : Nat) : Eff := .trap (mkTrap cPrivilege 0 a)

/-- A trap of the instruction at the program counter: taken when the stream's results have landed (R69), so that it is set aside
while an FLD is in flight, late or not, and the instruction stalls while the trap of an earlier load is on its way (R257). A software trap
returns to the next word (R107). -/
def trapOut (r : TrapRec) (s : State) : State :=
  if s.cur.awaitsLoad then s else
  let s1 := if isSoftware r.cause then advance s else s
  if s.cur.flds.isEmpty then takeTrap s.turn r s1.cur.pc s1
  else s1.setCur { s1.cur with deferred := s1.cur.deferred ++ [{ record := r, pc := none }] }

/-- The stream at the issue cycle of the instruction (R62); the counter of free values moves on. -/
def startIssue (s : State) : State :=
  { s.setCur { s.cur with clk := s.cur.nextClk s.ccc, settling := false } with tick := s.tick + 1 }

/-- The classes in which an instruction is an acquire (Table 6-6). An operation of no class field, and one that may not succeed, is one in every class it
could be. -/
def acquires : Instr → Option (BitVec 16)
  | .semwait o => some (BitVec.ofNat 16 (2 ^ o.k.val))
  | .semtry o => some (BitVec.ofNat 16 (2 ^ o.k.val))
  | .semadd o => some (BitVec.ofNat 16 (2 ^ o.k.val))
  | .semcas o => some (BitVec.ofNat 16 (2 ^ o.k.val))
  | .semrd o => some (BitVec.ofNat 16 (2 ^ o.k.val))
  | .mtxlock o => some (BitVec.ofNat 16 (2 ^ o.k.val))
  | .mtxtry o => some (BitVec.ofNat 16 (2 ^ o.k.val))
  | .barwait o => some (BitVec.ofNat 16 (2 ^ o.k.val))
  | .evwait o => some (BitVec.ofNat 16 (2 ^ o.k.val))
  | .claim o => some (BitVec.ofNat 16 (2 ^ o.k.val))
  | .await o => some (BitVec.ofNat 16 (2 ^ o.k.val))
  | .fld o => if o.q then some (BitVec.ofNat 16 (2 ^ o.k.val)) else none
  | .rdv _ => some (BitVec.allOnes 16)
  | .waitlt _ => some (BitVec.allOnes 16)
  | .cwait _ => some (BitVec.allOnes 16)
  | .recv _ => some (BitVec.allOnes 16)
  | .recvs _ => some (BitVec.allOnes 16)
  | .peek _ => some (BitVec.allOnes 16)
  | _ => none

/-- The state in which the body of an instruction acts: its issue cycle has begun, and an acquire joins the classes it names (R120, R121). -/
def entered (i : Instr) (s : State) : State :=
  match acquires i with
  | some m => acquired m (startIssue s)
  | none => startIssue s

/-- After the instruction: its settle bit holds the next one (R67). -/
def endIssue (u : Use) (s : State) : State := if u.settle then s.setCur { s.cur with settling := true } else s

/-- A vector queue with a new vq0 (R64). -/
def VectorFile.push (v : VectorFile) (x : Timed (BitVec 131072)) : VectorFile := { v with vq := pushSlot v.vq x }

/-- What an instruction does when its guard is false: a push pushes zero, readable at once (R56). -/
def guardedOff (u : Use) (s : State) : State :=
  let s1 := match u.dst with
    | some .push => wrD .push 0 0 s
    | _ => s
  match u.vdst with
  | some .push => s1.setCore { s1.core with vec := s1.core.vec.push { val := 0, ready := 0 } }
  | _ => s1

/-- Issue of an instruction word in the stream whose turn it is: the checks of R61, the stalls of R66 and R67, the guard of R56,
then its body. -/
def issueWord (i : Instr) (u : Use) (body : State → Eff) (s : State) : State :=
  match decodeTrap i s with
  | some r => trapOut r s
  | none =>
    if mustHold u s then s
    else
      let s1 := startIssue s
      if rdP s1 u.guard then
        match body (entered i s) with
        | .done s2 => endIssue u (advance s2)
        | .jump s2 => endIssue u s2
        | .hold => s
        | .trap r => trapOut r s
        | .trapIn s2 r => if s.cur.awaitsLoad then s else trapOut r s2
      else endIssue u (advance (guardedOff u s1))

/-- Issue as an outcome of a step. -/
def issue (i : Instr) (u : Use) (body : State → Eff) (s : State) : Host.Outcome State Fault Refusal :=
  .next (issueWord i u body s)

end Sys2Proof.Machine
end

