-- ==== Sys2Proof/Machine/Flags.lean ====
section
/-! DEFINITION. Every numeric flag computation (R46-R50): exact values, rounding, and conversions with the flags that they set. -/

namespace Sys2Proof.Machine

/-! ### Flags (R46, R47) -/

/-- A set of flags, in the places of NCS: NV [4], DZ [3], OF [2], UF [1], NX [0] (Table 2-9). -/
abbrev FlagSet := BitVec 5

/-- Invalid. -/
def fNV : FlagSet := 16
/-- Divide by zero. -/
def fDZ : FlagSet := 8
/-- Overflow. -/
def fOF : FlagSet := 4
/-- Underflow. -/
def fUF : FlagSet := 2
/-- Inexact. -/
def fNX : FlagSet := 1

/-- The flags of NCS as a set. -/
def Ncs.flags (n : Ncs) : FlagSet :=
  BitVec.ofNat 5 (bit n.nv * 16 + bit n.dz * 8 + bit n.of * 4 + bit n.uf * 2 + bit n.nx)

/-- Flags accrue to a stream of the focused core (R48). -/
def accrueTo (t : Sec) (f : FlagSet) (s : State) : State := s.onStr t fun st => { st with ncs := st.ncs.accrue f }

/-! ### Exact values -/

/-- An exact value: NaN, an infinity, or (-1)^neg x m x 2^e, where m = 0 is a signed zero. -/
inductive Num where
  | nan
  | inf (neg : Bool)
  | fin (neg : Bool) (m : Nat) (e : Int)
  deriving DecidableEq, Repr

/-- A positive zero. -/
def Num.zero : Num := .fin false 0 0

/-- An integer as a value. -/
def Num.ofInt (x : Int) : Num := .fin (decide (x < 0)) x.natAbs 0

/-- The sign of a value. -/
def Num.neg : Num → Bool
  | .nan => false
  | .inf n => n
  | .fin n _ _ => n

/-- A finite nonzero value. -/
def Num.isNonzero : Num → Bool
  | .fin _ m _ => decide (m ≠ 0)
  | _ => false

/-- A zero. -/
def Num.isZero : Num → Bool
  | .fin _ m _ => decide (m = 0)
  | _ => false

/-- NaN. -/
def Num.isNan : Num → Bool
  | .nan => true
  | _ => false

/-- An infinity. -/
def Num.isInf : Num → Bool
  | .inf _ => true
  | _ => false

/-- The signed numerator of a finite value over 2^e, for an e at or below its own exponent. -/
def Num.over (e : Int) : Num → Int
  | .fin n m x => (if n then -1 else 1) * ((m * 2 ^ (x - e).toNat : Nat) : Int)
  | _ => 0

/-- The exponent of a finite value. -/
def Num.exp : Num → Int
  | .fin _ _ e => e
  | _ => 0

/-- The negated value. -/
def Num.negate : Num → Num
  | .nan => .nan
  | .inf n => .inf (!n)
  | .fin n m e => .fin (!n) m e

/-- The magnitude. -/
def Num.abs : Num → Num
  | .nan => .nan
  | .inf _ => .inf false
  | .fin _ m e => .fin false m e

/-- The exact sum of two finite values; a zero sum has the sign `z`. -/
def Num.addFin (z : Bool) (a b : Num) : Num :=
  let e := min a.exp b.exp
  let n := a.over e + b.over e
  if n = 0 then .fin z 0 0 else .fin (decide (n < 0)) n.natAbs e

/-- The sum of two values before rounding, with NV for opposite infinities; an exact zero has the sign of IEEE 754 under mode `rm`. -/
def Num.add (rm : BitVec 2) (a b : Num) : Num × FlagSet :=
  match a, b with
  | .nan, _ => (.nan, 0)
  | _, .nan => (.nan, 0)
  | .inf x, .inf y => if x = y then (.inf x, 0) else (.nan, fNV)
  | .inf x, _ => (.inf x, 0)
  | _, .inf y => (.inf y, 0)
  | a, b => (Num.addFin (if a.isZero && b.isZero && a.neg == b.neg then a.neg else decide (rm = 2)) a b, 0)

/-- The product of two values before rounding, with NV for zero times infinity. -/
def Num.mul (a b : Num) : Num × FlagSet :=
  match a, b with
  | .nan, _ => (.nan, 0)
  | _, .nan => (.nan, 0)
  | .inf x, b => if b.isZero then (.nan, fNV) else (.inf (x ^^ b.neg), 0)
  | a, .inf y => if a.isZero then (.nan, fNV) else (.inf (a.neg ^^ y), 0)
  | .fin x m e, .fin y n f => (.fin (x ^^ y) (m * n) (e + f), 0)

/-- a < b for values that are not NaN; zeros are equal. -/
def Num.lt (a b : Num) : Bool :=
  match a, b with
  | .inf true, .inf true => false
  | .inf true, _ => true
  | .inf false, _ => false
  | _, .inf n => !n
  | a, b => decide (a.over (min a.exp b.exp) < b.over (min a.exp b.exp))

/-- a = b for values that are not NaN. -/
def Num.same (a b : Num) : Bool := !a.lt b && !b.lt a

/-! ### Rounding (R45) -/

/-- n / d rounded to an integer under mode `rm` of Table 2-8, for a value of sign `neg`; and whether it was inexact. -/
def roundDiv (rm : BitVec 2) (neg : Bool) (n d : Nat) : Nat × Bool :=
  let q := n / d
  let r := n % d
  let up : Bool :=
    if r = 0 then false
    else if rm = 0 then decide (d < 2 * r) || (decide (2 * r = d) && decide (q % 2 = 1))
    else if rm = 1 then false
    else if rm = 2 then neg
    else !neg
  (if up then q + 1 else q, decide (r ≠ 0))

/-- The positive value p/q x 2^e in units of 2^x, rounded. -/
def roundUnits (rm : BitVec 2) (neg : Bool) (p q : Nat) (e x : Int) : Nat × Bool :=
  roundDiv rm neg (p * 2 ^ (e - x).toNat) (q * 2 ^ (x - e).toNat)

/-- floor(log2(p/q x 2^e)) of a positive value. -/
def floorLog (p q : Nat) (e : Int) : Int :=
  let l : Int := (Nat.log2 p : Int) - (Nat.log2 q : Int)
  let fits : Bool := decide (q * 2 ^ l.toNat ≤ p * 2 ^ (-l).toNat)
  (if fits then l else l - 1) + e

/-- m x 2^x at or above n x 2^y. -/
def magLe (n : Nat) (y : Int) (m : Nat) (x : Int) : Bool := decide (n * 2 ^ (y - x).toNat ≤ m * 2 ^ (x - y).toNat)

/-! ### Element formats (R25-R28) -/

/-- The element formats of Table 2-1, and the binary64 of the audit unit (R307). -/
inductive Fmt where
  | e2m1 | int4 | e4m3 | e5m2 | int8 | bf16 | fp16 | int16 | fp32 | int32 | fp64
  deriving DecidableEq, Repr

/-- Element width in bits. -/
def Fmt.width : Fmt → Nat
  | .e2m1 => 4
  | .int4 => 4
  | .e4m3 => 8
  | .e5m2 => 8
  | .int8 => 8
  | .bf16 => 16
  | .fp16 => 16
  | .int16 => 16
  | .fp32 => 32
  | .int32 => 32
  | .fp64 => 64

/-- An integer format. -/
def Fmt.isInt : Fmt → Bool
  | .int4 | .int8 | .int16 | .int32 => true
  | _ => false

/-- Mantissa bits. -/
def Fmt.mant : Fmt → Nat
  | .e2m1 => 1
  | .e4m3 => 3
  | .e5m2 => 2
  | .bf16 => 7
  | .fp16 => 10
  | .fp32 => 23
  | .fp64 => 52
  | _ => 0

/-- Exponent bias. -/
def Fmt.bias : Fmt → Nat
  | .e2m1 => 1
  | .e4m3 => 7
  | .e5m2 => 15
  | .bf16 => 127
  | .fp16 => 15
  | .fp32 => 127
  | .fp64 => 1023
  | _ => 0

/-- A format with infinities. -/
def Fmt.hasInf : Fmt → Bool
  | .e5m2 | .bf16 | .fp16 | .fp32 | .fp64 => true
  | _ => false

/-- The largest exponent field. -/
def Fmt.topExp (f : Fmt) : Nat := 2 ^ (f.width - 1 - f.mant) - 1

/-- The canonical NaN (Table 2-3); E2M1 has none. -/
def Fmt.nan : Fmt → Nat
  | .e4m3 => 0x7F
  | .e5m2 => 0x7E
  | .bf16 => 0x7FC0
  | .fp16 => 0x7E00
  | .fp32 => 0x7FC00000
  | .fp64 => 0x7FF8000000000000
  | _ => 0

/-- The code of the largest finite magnitude (Table 2-1). -/
def Fmt.maxCode : Fmt → Nat
  | .e2m1 => 0x7
  | .e4m3 => 0x7E
  | .e5m2 => 0x7B
  | .bf16 => 0x7F7F
  | .fp16 => 0x7BFF
  | .fp32 => 0x7F7FFFFF
  | .fp64 => 0x7FEFFFFFFFFFFFFF
  | _ => 0

/-- The exponent of the unit of the smallest values: 1 - bias - mantissa bits. -/
def Fmt.lsb (f : Fmt) : Int := 1 - (f.bias : Int) - (f.mant : Int)

/-- The value of a code (R25-R27). -/
def decodeFmt (f : Fmt) (code : Nat) : Num :=
  if f.isInt then Num.ofInt (signed f.width (code % 2 ^ f.width))
  else
    let m := code % 2 ^ f.mant
    let e := code / 2 ^ f.mant % (f.topExp + 1)
    let s := flag code (f.width - 1)
    if e = f.topExp ∧ f.hasInf then (if m = 0 then .inf s else .nan)
    else if f = .e4m3 ∧ e = f.topExp ∧ m = 7 then .nan
    else if e = 0 then .fin s m f.lsb
    else .fin s (2 ^ f.mant + m) (f.lsb + (e - 1 : Nat))

/-- The sign bit of a format. -/
def signBit (f : Fmt) (neg : Bool) : Nat := if neg then 2 ^ (f.width - 1) else 0

/-- The code of infinity. -/
def Fmt.infCode (f : Fmt) : Nat := f.topExp * 2 ^ f.mant

/-- The code of the magnitude n x 2^x with n below 2^(mant + 1), in range. -/
def encodeMag (f : Fmt) (n : Nat) (x : Int) : Nat :=
  if n < 2 ^ f.mant then n else ((x - f.lsb).toNat + 1) * 2 ^ f.mant + (n - 2 ^ f.mant)

/-- A code with the flags that forming it sets. -/
structure Rounded where
  code : Nat
  flags : FlagSet
  deriving DecidableEq, Repr

/-- A magnitude n x 2^x brought to n below 2^(t + 1). -/
def carryUp (t n : Nat) (x : Int) : Nat × Int := if n = 2 ^ (t + 1) then (2 ^ t, x + 1) else (n, x)

/-- The nonzero value (-1)^neg x p/q x 2^e rounded to a float format (R45, R49): the saturation of Table 2-11, and OF, UF and NX of Table 2-10. -/
def roundFloat (f : Fmt) (rm : BitVec 2) (sat neg : Bool) (p q : Nat) (e : Int) : Rounded :=
  let t := f.mant
  let l := floorLog p q e
  -- under an unbounded exponent
  let u := roundUnits rm neg p q e (l - t)
  let big := carryUp t u.1 (l - t)
  let maxN := f.maxCode % 2 ^ t + 2 ^ t
  let maxX : Int := f.lsb + ((f.maxCode / 2 ^ t - 1 : Nat) : Int)
  if !magLe big.1 big.2 maxN maxX then
    let toMax := { code := signBit f neg + f.maxCode, flags := fOF ||| fNX : Rounded }
    if sat || decide (f = .e2m1) then toMax
    else if f = .e4m3 then { code := f.nan, flags := fOF ||| fNX }
    else if rm = 0 ∨ (rm = 3 ∧ !neg) ∨ (rm = 2 ∧ neg) then { code := signBit f neg + f.infCode, flags := fOF ||| fNX }
    else toMax
  else
    let x := max (l - t) f.lsb
    let r := roundUnits rm neg p q e x
    let c := carryUp t r.1 x
    let tiny : Bool := decide (big.1 * 2 ^ (big.2 - f.lsb).toNat < 2 ^ t * 2 ^ (f.lsb - big.2).toNat)
    { code := signBit f neg + encodeMag f c.1 c.2
      flags := (if r.2 then fNX else 0) ||| (if r.2 && tiny then fUF else 0) }

/-- A value rounded to an integer of w bits, clamped to its range (Table 2-11): the integer and its flags. -/
def roundInt (w : Nat) (rm : BitVec 2) (v : Num) : Int × FlagSet :=
  let lo : Int := -(2 ^ (w - 1) : Nat)
  let hi : Int := (2 ^ (w - 1) : Nat) - 1
  match v with
  | .nan => (0, fNV)
  | .inf n => (if n then lo else hi, fNV)
  | .fin n m e =>
    let r := roundUnits rm n m 1 e 0
    let i : Int := if n then -(r.1 : Int) else r.1
    if i < lo then (lo, fNV) else if hi < i then (hi, fNV) else (i, if r.2 then fNX else 0)

/-- An integer as a code of w bits. -/
def codeOfInt (w : Nat) (i : Int) : Nat := (i % (2 ^ w : Nat)).toNat

/-- Whether a conversion saturates by R49's default and SATM (0 default, 1 saturating, 2 not). -/
def saturates (f : Fmt) (satm : Nat) : Bool :=
  if f = .e2m1 then true
  else if satm = 1 then true
  else if satm = 2 then false
  else decide (f = .e4m3)

/-- Conversion of a value to a format (Table 2-11). -/
def convert (f : Fmt) (rm : BitVec 2) (sat : Bool) (v : Num) : Rounded :=
  if f.isInt then
    let r := roundInt f.width rm v
    { code := codeOfInt f.width r.1, flags := r.2 }
  else match v with
    | .nan => if f = .e2m1 then { code := 0, flags := fNV } else { code := f.nan, flags := 0 }
    | .inf n =>
      if f.hasInf then { code := signBit f n + f.infCode, flags := 0 }
      else if f = .e4m3 ∧ !sat then { code := f.nan, flags := fNV }
      else { code := signBit f n + f.maxCode, flags := fNV }
    | .fin n m e => if m = 0 then { code := signBit f n, flags := 0 } else roundFloat f rm sat n m 1 e

/-- An arithmetic result in FP32, BF16 or FP16: as a conversion that does not saturate. -/
def roundTo (f : Fmt) (rm : BitVec 2) (v : Num) : Rounded := convert f rm false v

/-! ### Scales (R29, R30, R50) -/

/-- The value of an E3M5 group scale other than 0x00 and 0xFF (R29). -/
def decodeE3M5 (c : Nat) : Num :=
  let e := c / 32
  let m := c % 32
  if e = 0 then .fin false m (-7) else .fin false (32 + m) ((e : Int) - 8)

/-- The nonnegative value p/q x 2^e rounded to E3M5 (R50): above 31 it saturates to 0xFE. -/
def roundE3M5 (rm : BitVec 2) (p q : Nat) (e : Int) : Rounded :=
  if p = 0 then { code := 0, flags := 0 }
  else
    let l := floorLog p q e
    let u := roundUnits rm false p q e (l - 5)
    let big := carryUp 5 u.1 (l - 5)
    if !magLe big.1 big.2 62 (-1) then { code := 0xFE, flags := fOF ||| fNX }
    else
      let x := max (l - 5) (-7)
      let r := roundUnits rm false p q e x
      let c := carryUp 5 r.1 x
      let tiny : Bool := !magLe 32 (-7) big.1 big.2
      { code := if c.1 < 32 then c.1 else ((c.2 + 7).toNat + 1) * 32 + (c.1 - 32)
        flags := (if r.2 then fNX else 0) ||| (if r.2 && tiny then fUF else 0) }

/-! ### Cells (R32, R33, R40) -/

/-- The element format of a format byte; `none` for raw, scale, poisoned and reserved codes (Table 2-5). -/
def fmtOfF : Nat → Option Fmt
  | 0x90 => some .e2m1
  | 0x91 => some .int4
  | 0xA0 => some .e4m3
  | 0xA1 => some .e5m2
  | 0xA2 => some .int8
  | 0x20 => some .e4m3
  | 0x21 => some .e5m2
  | 0x22 => some .int8
  | 0x30 => some .bf16
  | 0x31 => some .fp16
  | 0x32 => some .int16
  | 0x40 => some .fp32
  | 0x41 => some .int32
  | _ => none

/-- An assigned format byte (Table 2-5). -/
def assignedF (f : Nat) : Bool := (fmtOfF f).isSome || decide (f = 0x00) || decide (f = 0x0F) || decide (f = 0xFF)

/-- G of a format byte. -/
def groupedF (f : Nat) : Bool := decide (0x80 ≤ f)

/-- The code of element i of a cell (R32). -/
def elementCode (f : Fmt) (bytes : BitVec 512) (i : Nat) : Nat := bitsOf bytes (f.width * i) f.width

/-- A value times 2^k. -/
def Num.scale (k : Int) : Num → Num
  | .fin n m e => .fin n m (e + k)
  | x => x

/-- A value times an E3M5 group scale, with its zero and NaN codes (R40). -/
def Num.groupScale (gs : Nat) (x : Num) : Num :=
  if gs = 0xFF then .nan
  else if gs = 0 then .zero
  else match x, decodeE3M5 gs with
    | .fin n m e, .fin _ m' e' => .fin n (m * m') (e + e')
    | x, _ => x

/-- The value of element i of a data cell whose F is assigned, with its group scale (R40). -/
def dataValue (c : CellData) (i : Nat) (gs : Option Nat) : Num :=
  let S := tagS c.tag
  if S = 0xFF then .nan
  else if S = 0 then .zero
  else match fmtOfF (tagF c.tag) with
    | none => .nan
    | some f =>
      let e := decodeFmt f (elementCode f c.bytes i)
      let e' := match gs with
        | some g => e.groupScale g
        | none => e
      e'.scale ((S : Int) - 127)

/-- The value of element i of a raw cell under the named format, or of a data cell (R40). -/
def elementValue (c : CellData) (i : Nat) (gs : Option Nat) (named : Fmt) : Num :=
  if tagF c.tag = 0 then decodeFmt named (elementCode named c.bytes i) else dataValue c i gs

end Sys2Proof.Machine
end

