-- ==== Sys2Proof/Machine/Global.lean ====
section
/-! DEFINITION. Global memory: the address map and routability (R22, R23), poisoned units (R37, R190), described pages (R36-R38),
translation (R386-R390), and cell and byte access through a translated address. -/

namespace Sys2Proof.Machine

/-! ### The address map (R22, R23) -/

/-- The tiers of a module (Table 1-7), and memory of another module. -/
inductive Tier where
  | stage | bulk | pool | host | other
  deriving DecidableEq, Repr

/-- The code of a tier in a page-table leaf (Table 19-6). -/
def tierCode : Tier → Nat
  | .stage => 0
  | .bulk => 1
  | .pool => 2
  | .host => 3
  | .other => 4

/-- The tier of a local address; `none` where Table 1-7 maps nothing. -/
def tierOfLocal (l : Nat) : Option Tier :=
  if l < 0x2000000000 then some .stage
  else if l < 0x10000000000 then none
  else if l < 0x20000000000 then some .bulk
  else if l < 0x4000000000000 then none
  else if l < 0x8000000000000 then some .host
  else if l < 0x10000000000000 then some .pool
  else none

/-- Whether an accepted feature bit (word w, bit b) holds: the set is locked and the bit was accepted (R11, R417). -/
def feature (s : State) (w b : Nat) : Bool := s.host.locked && bitOf s.host.accept (32 * w + b)

/-- The pool decoders that map a local address: their ports (R406). -/
def poolPorts (s : State) (l : Nat) : List Nat :=
  (List.range 128).filterMap fun k =>
    let d := s.host.pdec[Fin.ofNat 128 k]
    let z := bitsOf (s.host.pdsz[Fin.ofNat 128 k]) 0 28
    let base := bitsOf d 0 28
    if bitOf d 31 && decide (base ≤ l / 2 ^ 28) && decide (l / 2 ^ 28 < base + z) then some (k / 16) else none

/-- A local address of the part reaches memory (R23). -/
def routableLocal (s : State) (l : Nat) : Bool :=
  match tierOfLocal l with
  | none => false
  | some .stage => decide (l < s.tiers.stcap)
  | some .bulk => true
  | some .host => s.host.hostUp
  | some .pool =>
    feature s 0 1 && (match poolPorts s l with
      | [p] => bitOf s.host.poolUp p
      | _ => false)
  | some .other => false

/-- The module number of a global physical address (R22). -/
def moduleOf (pa : Nat) : Nat := pa / 2 ^ 52 % 2 ^ 12

/-- The local part of a global physical address (R22). -/
def localOf (pa : Nat) : Nat := pa % 2 ^ 52

/-- A global physical address of the part's own module. -/
def isOwn (s : State) (pa : Nat) : Bool := decide (moduleOf pa = s.ownModule)

/-- A global physical address is routable, as far as the part that makes the access can see: the capacity and the links of another module are judged
there (R23). -/
def routable (s : State) (pa : Nat) : Bool :=
  if isOwn s pa then routableLocal s (localOf pa) else s.isMember (moduleOf pa) && (tierOfLocal (localOf pa)).isSome

/-- The tier that a global physical address decodes to. -/
def tierOf (s : State) (pa : Nat) : Option Tier := if isOwn s pa then tierOfLocal (localOf pa) else some .other

/-! ### Bytes and units at a physical address -/

/-- The local address that a host physical address in the range of the HDM decoder reaches (R405). -/
def hdmLocal (s : State) (h : Nat) : Option Nat :=
  if s.host.hdmOn && inRange h s.host.hdmBase (2 ^ 41) then some (h - s.host.hdmBase) else none

/-- Where the byte at a local address lies: an address of the host window inside the HDM range reaches the part's own memory (R23, R405). -/
def homeLocal (s : State) (l : Nat) : Nat := if decide (2 ^ 50 ≤ l) && decide (l < 2 ^ 51) then (hdmLocal s (l - 2 ^ 50)).getD l else l

/-- The part's memory at a local address: not so where the HDM range leads to an unmapped address (R405). -/
def homeMapped (s : State) (l : Nat) : Bool := decide (homeLocal s l = l) || routableLocal s (homeLocal s l)

/-- The byte at a physical address. Memory of another module answers free bytes (log entry 6). -/
def memByte (s : State) (pa : Nat) : Byte :=
  if isOwn s pa then s.mem.get (homeLocal s (localOf pa)) else Config.freeByte s.tick pa

/-- A local address of the host window or the pool window. -/
def isAttached (l : Nat) : Bool := decide (tierOfLocal l = some .host) || decide (tierOfLocal l = some .pool)

/-- The 32-byte unit that holds a physical address is marked uncorrectable, or its host or pool device answers with an error or data-poison (R23,
R190, R395, R396). -/
def memUnitBad (s : State) (pa : Nat) : Bool :=
  if isOwn s pa then
    let l := homeLocal s (localOf pa)
    s.memBad.contains (l / 32) || !homeMapped s (localOf pa) || (isAttached l && Config.readFails s.tick (l / 32))
  else Config.outside s.tick pa

/-- The 32-byte unit that holds a physical address reads as uncorrectable, as a reader without tags finds it: one lost by a layer map-out too (R398). -/
def memIsBad (s : State) (pa : Nat) : Bool := memUnitBad s pa || (isOwn s pa && s.memLost.contains (homeLocal s (localOf pa) / 32))

/-- n bytes from a physical address as a little-endian number. -/
def memNum (s : State) (pa n : Nat) : Nat := numOfBytes ((List.range n).map fun i => memByte s (pa + i))

/-- Any unit of [pa, pa + n) reads as uncorrectable. -/
def memRangeBad (s : State) (pa n : Nat) : Bool := (List.range n).any fun i => memIsBad s (pa + i)

/-- Bytes written to the part's own memory. -/
def memPutOwn (m : Memory) (l : Nat) : List Byte → Memory
  | [] => m
  | b :: rest => memPutOwn (m.put l b) (l + 1) rest

/-- The 32-byte units that [l, l + n) covers whole. -/
def wholeUnits (l n : Nat) : List Nat :=
  (List.range (n / 32 + 1)).filterMap fun i =>
    let u := (l + 31) / 32 + i
    if u * 32 + 32 ≤ l + n then some u else none

/-- A write into the extent of a handle by other means than TTILE leaves its elements undefined (R187): they become free values again. -/
def spoilHandles (hs : List (Nat × Handle)) (l n : Nat) : List (Nat × Handle) :=
  hs.map fun p => if p.2.units.any (fun u => decide (u * 2 ^ 16 < l + n) && decide (l < u * 2 ^ 16 + 2 ^ 16)) then (p.1, { p.2 with cells := [] }) else p

/-- Bytes written to the part's memory, or to host or pool memory, where they lie. A unit written whole is correct again (R397). -/
def putLocal (s : State) (l : Nat) (bs : List Byte) : State :=
  let w := wholeUnits l bs.length
  { s with mem := memPutOwn s.mem l bs, memBad := s.memBad.filter (fun u => !w.contains u), memLost := s.memLost.filter (fun u => !w.contains u)
           handles := spoilHandles s.handles l bs.length
           farLoose := s.farLoose.filter fun p => !(decide (p.2.addr < l + bs.length) && decide (l < p.2.addr + p.2.old.length)) }

/-- Bytes written at a physical address: a write into another module is sent to it, and one to an unmapped address of the HDM range is discarded
(R405). -/
def memPutBytes (s : State) (pa : Nat) (bs : List Byte) : State :=
  if !isOwn s pa then s.send (moduleOf pa) (.bytes pa bs)
  else if homeMapped s (localOf pa) then putLocal s (homeLocal s (localOf pa)) bs
  else s

/-- Units of [pa, pa + n) of the part's own memory marked as uncorrectable (R37, R190). -/
def memPoison (s : State) (pa n : Nat) : State :=
  let us := (List.range ((n + 31) / 32)).map fun i => homeLocal s (localOf pa) / 32 + i
  if isOwn s pa && homeMapped s (localOf pa) then { s with memBad := s.memBad.filter (fun u => !us.contains u) ++ us } else s

/-! ### Host physical addresses (R405) -/

/-- Where a host physical address lies: in the HDM range the part's own memory, in the reach of the host window host memory at its local address, and
above it host memory that only firmware's CXL.io accesses reach, which the model keeps above every local address. -/
def hostToLocal (s : State) (h : Nat) : Nat :=
  match hdmLocal s h with
  | some l => l
  | none => if h < 2 ^ 50 then h + 2 ^ 50 else h + 2 ^ 52

/-- A byte at a host physical address that nothing maps, or that reads as uncorrectable or with an error. -/
def hostBad (s : State) (h : Nat) : Bool :=
  let l := hostToLocal s h
  s.memBad.contains (l / 32) || s.memLost.contains (l / 32) || (match hdmLocal s h with
    | some _ => !routableLocal s l
    | none => Config.readFails s.tick (l / 32))

/-- The part can access n bytes at a host physical address: each byte in the HDM range is its own, and for the others the link is up and the host takes the
access (Table 21-2, log entry 6). -/
def hostReach (s : State) (h n : Nat) : Bool :=
  decide (h + n ≤ 2 ^ 64) && ((s.host.hostUp && !Config.outside s.tick h) || (List.range n).all fun i => (hdmLocal s (h + i)).isSome)

/-- n bytes at a host physical address as firmware and the mask ROM read them; `none` when the access fails or returns data-poison. -/
def hostBytes (s : State) (h n : Nat) : Option (List Byte) :=
  if !hostReach s h n || (List.range n).any fun i => hostBad s (h + i) then none
  else some ((List.range n).map fun i => s.mem.get (hostToLocal s (h + i)))

/-- Bytes within one cell written at a host physical address, where it is mapped. -/
def hostPutPiece (h : Nat) (bs : List Byte) (s : State) : State :=
  match hdmLocal s h with
  | some l => if routableLocal s l then putLocal s l bs else s
  | none => putLocal s (hostToLocal s h) bs

/-- Bytes written from a host physical address on, each cell where it is mapped: a range may cross the edge of the HDM range or of the host window. -/
def hostPut (h : Nat) (bs : List Byte) (s : State) : State :=
  (cellPieces (bs.length / 64 + 2) h bs.length).foldl (fun s p => hostPutPiece p.1 ((bs.drop (p.1 - h)).take p.2) s) s

/-! ### Where a unit lies in its tier (R22) -/

/-- The stack of a stage unit or the package of a bulk unit: 4 KiB blocks go round the 4 stacks and the 16 packages in turn (R22). -/
def deviceOf (u : Nat) : Nat := u / 128 % (if u * 32 < 2 ^ 40 then 4 else 16)

/-- The stack and layer of a stage unit, 16 x stack + layer (R22, R398). -/
def layerOf (u : Nat) : Nat := deviceOf u * 16 + (Config.layerIn u).val

/-- The bank of a unit: tier x 2^24 + stack or package x 2^16 + channel x 2^8 + bank (R22, R401, R402; Table 21-15, type 7). -/
def bankOf (u : Nat) : Nat := bit (decide (2 ^ 40 ≤ u * 32)) * 2 ^ 24 + deviceOf u * 2 ^ 16 + (Config.bankIn u).toNat

/-- Some unit of [pa, pa + n) lies in a bank that is blocked: the access waits (R403). -/
def bankHeld (s : State) (pa n : Nat) : Bool :=
  !s.tiers.blocked.isEmpty && isOwn s pa && (List.range ((pa + n + 31) / 32 - pa / 32)).any fun i =>
    let u := homeLocal s (localOf pa) / 32 + i
    decide (u * 32 < 2 ^ 41) && s.tiers.blocked.any fun b => decide (b.1 = bankOf u)

/-! ### Translation (R386-R390) -/

/-- The page size of a level's leaf. -/
def pageSize : Nat → Nat
  | 0 => 2 ^ 16
  | 1 => 2 ^ 21
  | _ => 2 ^ 33

/-- A translated address: its page's physical base, the offset in the page, whether it is described, packed (R38) or poison-on-access, and
its tier. -/
structure Xlat where
  base : Nat
  off : Nat
  desc : Bool
  pac : Bool
  tier : Tier
  deriving DecidableEq, Repr

/-- A described pool or host page is stored as packed tag units (R38). -/
def Xlat.packed (x : Xlat) : Bool := x.desc && (decide (x.tier = .pool) || decide (x.tier = .host))

/-- The physical address of the data byte (R38). -/
def Xlat.pa (x : Xlat) : Nat :=
  if x.packed then x.base + x.off / 2048 * 2112 + x.off % 2048 else x.base + x.off

/-- The physical address of the packed tag of the cell (R38). -/
def Xlat.tagPa (x : Xlat) : Nat := x.base + x.off / 2048 * 2112 + 2048 + 2 * (x.off % 2048 / 64)

/-- The same page at the start of the cell. -/
def Xlat.cell (x : Xlat) : Xlat := { x with off := x.off / 64 * 64 }

/-- Who accesses: the address space, its root, job mode, and a write. -/
structure Access where
  asid : BitVec 16
  root : Word
  job : Bool
  write : Bool
  deriving DecidableEq, Repr

/-- The access of the stream whose turn it is (R369, R386). -/
def streamAccess (s : State) (w : Bool) : Access := { asid := s.core.asid, root := s.core.ptroot, job := !s.cur.priv, write := w }

/-- The checks at a leaf that maps `va` at `level`, in the order of R387: kinds 2, 1, 5, 4. -/
def leafCheck (s : State) (x : Access) (level va : Nat) (pte : Word) : Except Nat Xlat :=
  let size := pageSize level
  let base := bitsOf pte 16 48 * 2 ^ 16
  let tier := bitsOf pte 8 3
  let off := va % size
  let desc := bitOf pte 3
  if bitOf pte 11 && x.job then .error 2
  else if bitOf pte 2 && x.write then .error 1
  else match tierOf s (base + off) with
    | none => .error 5
    | some t =>
      let r : Xlat := { base := base, off := off, desc := desc, pac := bitOf pte 5, tier := t }
      if tierCode t ≠ tier then .error 5
      else if !routable s r.pa then .error 4
      else .ok r

/-- A valid leaf is malformed: reserved bits, a misaligned PA or a reserved tier (Table 19-7, kind 7). -/
def leafMalformed (level : Nat) (pte : Word) : Bool :=
  decide (bitsOf pte 12 4 ≠ 0) || decide (bitsOf pte 6 2 ≠ 0) || decide (4 < bitsOf pte 8 3)
    || decide (bitsOf pte 16 48 * 2 ^ 16 % pageSize level ≠ 0)

/-- The size of the table that a level's entries lie in (Table 19-5). -/
def tableSize : Nat → Nat
  | 3 => 2 ^ 14
  | 2 => 2 ^ 15
  | 1 => 2 ^ 15
  | _ => 2 ^ 8

/-- The index of an address at a level (Table 19-5). -/
def tableIndex (level va : Nat) : Nat :=
  match level with
  | 3 => fld va 45 11
  | 2 => fld va 33 12
  | 1 => fld va 21 12
  | _ => fld va 16 5

/-- What a walk finds: a leaf and the level that maps it, the fault kind, and whether a page is absent with TOL set (R184). -/
inductive WalkEnd where
  | leaf (level : Nat) (pte : Word)
  | fails (kind : Nat) (tol : Bool)
  deriving DecidableEq, Repr

/-- Bytes that an entry of a level above the leaves spans (Table 19-5). -/
def levelSpan : Nat → Nat
  | 3 => 2 ^ 45
  | 2 => 2 ^ 33
  | _ => 2 ^ 21

/-- The walk cache of a die (R388). -/
def walkCache (die : Nat) (s : State) : List WalkEntry := if die = 0 then s.walk0 else s.walk1

/-- The entry that the die's walk cache gives for a table entry, where it is used (R388). -/
def walkHit (s : State) (die : Nat) (asid : BitVec 16) (level a : Nat) : Option WalkEntry :=
  (walkCache die s).find? fun e => decide (e.asid = asid) && decide (e.level = level) && decide (e.addr = a) && Config.walkCached s.tick a

/-- The address of a table entry that a walk reads from memory. -/
def walkRead (s : State) (die : Nat) (asid : BitVec 16) (level a : Nat) : List Nat :=
  if (walkHit s die asid level a).isNone && routable s a then [a] else []

/-- The table entry at a physical address, which the die's walk cache may hold (R388); `none` when it is unroutable or its cell is uncorrectable or
poisoned (Table 19-7, kind 6). -/
def tableEntry (s : State) (die : Nat) (asid : BitVec 16) (level a : Nat) : Option Word :=
  match walkHit s die asid level a with
  | some e => some e.pte
  | none =>
    if !routable s a || memRangeBad s a 8 || (isOwn s a && decide (tagF (sparseGet 0 s.memTags (localOf a / 64)) = 0xFF)) then none
    else some (BitVec.ofNat 64 (memNum s a 8))

/-- What a walk finds, the valid entries above the leaf that it passes, and the addresses of those it reads from memory. -/
structure WalkTrace where
  result : WalkEnd
  passed : List WalkEntry
  reads : List Nat
  deriving DecidableEq, Repr

/-- A walk of the tables from level `n`, whose table lies at `table` (R386, R387), for the unit of a die. -/
def walkTrace (s : State) (die : Nat) (asid : BitVec 16) (va : Nat) : Nat → Nat → WalkTrace
  | 0, table =>
    let a := table + 8 * tableIndex 0 va
    let stop (r : WalkEnd) : WalkTrace := { result := r, passed := [], reads := walkRead s die asid 0 a }
    match tableEntry s die asid 0 a with
    | none => stop (.fails 6 false)
    | some e => stop (if !bitOf e 0 then .fails 0 (bitOf e 4) else if !bitOf e 1 || leafMalformed 0 e then .fails 7 false else .leaf 0 e)
  | n + 1, table =>
    let a := table + 8 * tableIndex (n + 1) va
    let stop (r : WalkEnd) : WalkTrace := { result := r, passed := [], reads := walkRead s die asid (n + 1) a }
    match tableEntry s die asid (n + 1) a with
    | none => stop (.fails 6 false)
    | some e =>
      if !bitOf e 0 then stop (.fails 0 (bitOf e 4))
      else if bitOf e 1 then stop (if n + 1 = 3 || leafMalformed (n + 1) e then .fails 7 false else .leaf (n + 1) e)
      else if bitsOf e 2 6 ≠ 0 ∨ bitsOf e 8 56 * 2 ^ 8 % tableSize n ≠ 0 then stop (.fails 7 false)
      else
        let r := walkTrace s die asid va n (bitsOf e 8 56 * 2 ^ 8)
        { r with reads := walkRead s die asid (n + 1) a ++ r.reads, passed := { asid := asid, level := n + 1, addr := a, va := va / levelSpan (n + 1) * levelSpan (n + 1), pte := e } :: r.passed }

/-- What a walk finds. -/
def walkFrom (s : State) (die : Nat) (asid : BitVec 16) (va level table : Nat) : WalkEnd := (walkTrace s die asid va level table).result

/-- Entries passed by a walk kept in the walk cache of a die, a later one in place of an earlier one at its address. -/
def fillWalk (die : Nat) (l : List WalkEntry) (s : State) : State :=
  let add (c : List WalkEntry) : List WalkEntry :=
    l ++ c.filter fun e => !l.any fun f => decide (f.asid = e.asid) && decide (f.level = e.level) && decide (f.addr = e.addr)
  if die = 0 then { s with walk0 := add s.walk0 } else { s with walk1 := add s.walk1 }

/-- A cached entry that maps an address. -/
def TlbEntry.maps (e : TlbEntry) (asid : BitVec 16) (va : Nat) : Bool :=
  decide (e.asid = asid) && decide (va / pageSize e.level * pageSize e.level = e.va)

/-- The cached entry for an address in the core's L1 and the die's TLB (R388). -/
def cachedLeaf (s : State) (asid : BitVec 16) (va : Nat) : Option TlbEntry :=
  let die := if dieOf s.core.num = 0 then s.tlb0 else s.tlb1
  match s.core.l1.find? fun e => e.maps asid va with
  | some e => some e
  | none => die.find? fun e => e.maps asid va

/-- A new entry at the head of a TLB of at most n entries (R388). -/
def tlbAdd (n : Nat) (l : List TlbEntry) (e : TlbEntry) : List TlbEntry := (e :: l.filter (· != e)).take n

/-- The TLB of a die with an entry added: 2,048 entries of 64 KiB and 2 MiB pages and 64 of 8 GiB pages. -/
def fillDie (die : Nat) (s : State) (e : TlbEntry) : State :=
  let add (l : List TlbEntry) : List TlbEntry :=
    let big := l.filter fun x => decide (x.level = 2)
    let small := l.filter fun x => decide (x.level ≠ 2)
    if e.level = 2 then small ++ tlbAdd 64 big e else tlbAdd 2048 small e ++ big
  if die = 0 then { s with tlb0 := add s.tlb0 } else { s with tlb1 := add s.tlb1 }

/-- Both TLBs filled by a walk for the focused core (R388). -/
def tlbFill (s : State) (e : TlbEntry) : State :=
  fillDie (dieOf s.core.num) (s.setCore { s.core with l1 := tlbAdd 64 s.core.l1 e }) e

/-- A saturating count of 32 bits one higher. -/
def countUp (x : BitVec 32) : BitVec 32 := if x = BitVec.allOnes 32 then x else x + 1

/-- An uncorrectable read counts in UNCS or UNCB (R395, Table 20-1). -/
def countBad (s : State) (t : Tier) : State :=
  match t with
  | .stage => { s with tiers := { s.tiers with uncs := countUp s.tiers.uncs } }
  | .other => s
  | _ => { s with tiers := { s.tiers with uncb := countUp s.tiers.uncb } }

/-- A corrected read counts in CORRS or CORRB (R395, Table 20-1); pool and host memory have no check bits of the part (R396). -/
def countCorrected (s : State) (t : Tier) : State :=
  match t with
  | .stage => { s with tiers := { s.tiers with corrs := countUp s.tiers.corrs } }
  | .bulk => { s with tiers := { s.tiers with corrb := countUp s.tiers.corrb } }
  | _ => s

/-- The 32-byte units that [pa, pa + n) touches, by the address of each one's first byte. -/
def unitsOf (pa n : Nat) : List Nat :=
  if n = 0 then [] else (List.range ((pa + n - 1) / 32 - pa / 32 + 1)).map fun i => (pa / 32 + i) * 32

/-- A read of [pa, pa + n) counted, unit by unit: the uncorrectable and the corrected (R395). A described page finds no unit lost by a map-out (R398). -/
def countUnits (t : Tier) (desc : Bool) (pa n : Nat) (s : State) : State :=
  (unitsOf pa n).foldl (fun s u =>
    if (if desc then memUnitBad s u else memIsBad s u) then countBad s t
    else if isOwn s u && Config.corrected s.tick (u / 32) then countCorrected s t else s) s

/-- A read of [pa, pa + n) made: counted in its tier, or asked of the module that holds it, cell by cell (R395, R419). -/
def countRead (t : Tier) (desc : Bool) (pa n : Nat) (s : State) : State :=
  match t with
  | .other => (cellPieces (n / 64 + 2) pa n).foldl (fun s p => s.send (moduleOf pa) (.read (p.1 / 64 * 64))) s
  | _ => countUnits t desc pa n s

/-- A read of n bytes at a host physical address counted (R395, R396). -/
def countHost (h n : Nat) (s : State) : State :=
  (unitsOf h n).foldl (fun s u =>
    let t : Tier := ((hdmLocal s u).bind tierOfLocal).getD .host
    if hostBad s u then countBad s t
    else if Config.corrected s.tick (hostToLocal s u / 32) then countCorrected s t else s) s

/-- A read of n bytes by firmware, the mask ROM or the scheduler at a host physical address counted, where it can be made (R394, R395, R396). -/
def countReach (h n : Nat) (s : State) : State := if hostReach s h n then countHost h n s else s

/-- A read of physical memory counted, whatever tier it lies in. -/
def countPhysical (pa n : Nat) (s : State) : State :=
  match tierOf s pa with
  | some t => countRead t false pa n s
  | none => s

/-- A walk made by the unit of a die: what it passed is kept, and its reads are counted (R388, R395). -/
def walked (die : Nat) (w : WalkTrace) (s : State) : State := fillWalk die w.passed (w.reads.foldl (fun s a => countPhysical a 8 s) s)

/-- Why a translation fails: its kind (Table 19-7), and whether the page is marked TOL. -/
structure XlatFail where
  kind : Nat
  tol : Bool
  deriving DecidableEq, Repr

/-- The result of a translation with the state after the TLBs were filled. -/
structure Translated where
  state : State
  result : Except XlatFail Xlat

/-- The translation of a virtual address (R386-R388) with the cached entry found for it and the TLBs that a walk fills. A cached entry is used
while it is held. -/
def translateBy (die : Nat) (cached : Option TlbEntry) (fill : State → TlbEntry → State) (s : State) (x : Access) (va : Nat) : Translated :=
  let check (s' : State) (level : Nat) (pte : Word) : Except XlatFail Xlat :=
    match leafCheck s' x level va pte with
    | .ok r => .ok r
    | .error k => .error { kind := k, tol := false }
  if 2 ^ 56 ≤ va then { state := s, result := .error { kind := 3, tol := false } }
  else match cached with
    | some e => { state := s, result := check s e.level e.pte }
    | none =>
      let w := walkTrace s die x.asid va 3 (bitsOf x.root 14 50 * 2 ^ 14)
      let s1 := walked die w s
      match w.result with
      | .fails k t => { state := s1, result := .error { kind := k, tol := t } }
      | .leaf level pte =>
        match check s level pte with
        | .ok r => { state := fill s1 { asid := x.asid, va := va / pageSize level * pageSize level, level := level, pte := pte }, result := .ok r }
        | .error e => { state := s1, result := .error e }

/-- A translation for the core in focus. -/
def translate (s : State) (x : Access) (va : Nat) : Translated := translateBy (dieOf s.core.num) (cachedLeaf s x.asid va) tlbFill s x va

/-- The TLB of a die. -/
def dieTlb (die : Nat) (s : State) : List TlbEntry := if die = 0 then s.tlb0 else s.tlb1

/-- A translation for a unit of a die through the die TLB (R318). -/
def translateDie (die : Nat) (s : State) (x : Access) (va : Nat) : Translated :=
  translateBy die ((dieTlb die s).find? fun e => e.maps x.asid va) (fillDie die) s x va

/-- The tier of the page that holds an address, as the die's TLB holds it (R168). -/
def dieTier (s : State) (asid : BitVec 16) (va : Nat) : Option Tier :=
  let die := if dieOf s.core.num = 0 then s.tlb0 else s.tlb1
  match die.find? fun e => e.maps asid va with
  | none => none
  | some e => tierOf s (bitsOf e.pte 16 48 * 2 ^ 16 + va % pageSize e.level)

/-- A walk of a die's unit for an address that no entry is cached for reads a table entry in a bank that is blocked: it waits (R403). -/
def walkHeldBy (die : Nat) (cached : Option TlbEntry) (s : State) (x : Access) (va : Nat) : Bool :=
  !s.tiers.blocked.isEmpty && cached.isNone
    && (walkTrace s die x.asid va 3 (bitsOf x.root 14 50 * 2 ^ 14)).reads.any fun a => bankHeld s a 8

/-- A walk for the core in focus meets a bank that is blocked (R403). -/
def walkHeld (s : State) (x : Access) (va : Nat) : Bool := walkHeldBy (dieOf s.core.num) (cachedLeaf s x.asid va) s x va

/-- An access of n bytes, or the walk for it, meets a bank that is blocked: it waits (R403). -/
def accessHeld (s : State) (x : Access) (va n : Nat) : Bool :=
  !s.tiers.blocked.isEmpty && (walkHeld s x va || match (translate s x va).result with
    | .ok r => bankHeld s r.pa n
    | .error _ => false)

/-- Base latencies for promises (Table 8-8). -/
def baseOfTier : Tier → Nat
  | .stage => 640
  | .bulk => 960
  | .other => 2048
  | .pool => 2880
  | .host => 2880

/-- Base of a virtual source: the pool row plus 1,024 when the TLB does not hold the page (R168). -/
def baseLatency (s : State) (asid : BitVec 16) (va : Nat) : Nat :=
  match dieTier s asid va with
  | some t => baseOfTier t
  | none => 2880 + 1024

/-- E of R168 for a transfer of `bd` bytes. -/
def promiseE (now base bd eprev : Nat) : Nat := max (now + 16 + base + (bd + 127) / 128) (eprev + (bd + 127) / 128)

/-- The translation trap (Table 19-2). -/
def translationTrap (kind va : Nat) : TrapRec := mkTrap cTranslation kind va

/-! ### Cells through a translated address -/

/-- A unit of a translated page reads as uncorrectable: one lost by a map-out reads so only where the page keeps no tags (R398). -/
def unitBad (s : State) (x : Xlat) (pa : Nat) : Bool := if x.desc then memUnitBad s pa else memIsBad s pa

/-- A cell as an engine reads it: its data, and whether any unit of it could not be read (R190). -/
structure CellRead where
  data : CellData
  bad : Bool
  deriving DecidableEq, Repr

/-- The tag of the cell at a translated address: 0x0000 in a plain page (R36-R38). -/
def tagAt (s : State) (x : Xlat) : BitVec 16 :=
  if !x.desc then 0
  else match x.tier with
    | .other => Config.freeTag s.tick x.cell.pa
    | .stage => sparseGet 0 s.memTags (localOf x.pa / 64)
    | .bulk => sparseGet 0 s.memTags (localOf x.pa / 64)
    | _ => BitVec.ofNat 16 (memNum s x.tagPa 2)

/-- A read of the whole cell at a translated address (R37, R38, R190, R395). -/
def readCellAt (s : State) (x : Xlat) : CellRead :=
  let y := x.cell
  { data := { bytes := match x.tier with
                | .other => Config.freeCell s.tick y.pa
                | _ => BitVec.ofNat 512 (memNum s y.pa 64)
              tag := tagAt s x }
    bad := x.pac || unitBad s x y.pa || unitBad s x (y.pa + 32) || (x.packed && unitBad s x x.tagPa) }

/-- The read of the packed tag unit of a cell counted (R38, R395). -/
def countTag (x : Xlat) (s : State) : State := if x.packed then countRead x.tier true x.tagPa 2 s else s

/-- The read of the cell at a translated address counted, its packed tag with it (R395). -/
def countCell (x : Xlat) (s : State) : State := countTag x (countRead x.tier x.desc x.cell.pa 64 s)

/-- The tag of the cell at a translated address written, where the page keeps one. -/
def putTagAt (s : State) (x : Xlat) (t : BitVec 16) : State :=
  if !x.desc then s
  else match x.tier with
    | .other => s
    | .stage => { s with memTags := sparsePut 0 s.memTags (localOf x.pa / 64) t }
    | .bulk => { s with memTags := sparsePut 0 s.memTags (localOf x.pa / 64) t }
    | _ => memPutBytes s x.tagPa (bytesOfNum 2 t.toNat)

/-- The tags of the cells that [pa, pa + n) of stage or bulk covers whole are lost: a plain page keeps none (R37). An access to a part of a cell changes no tag
(R34). -/
def dropTags (x : Xlat) (n : Nat) (s : State) : State :=
  if x.desc || !(decide (x.tier = .stage) || decide (x.tier = .bulk)) then s
  else { s with memTags := s.memTags.filter fun p => !(decide (localOf x.pa ≤ 64 * p.1) && decide (64 * p.1 + 64 ≤ localOf x.pa + n)) }

/-- A whole-cell write at a translated address. In a plain page the tag is lost, but poison is kept (R37). -/
def writeCellAt (s : State) (x : Xlat) (d : CellData) : State :=
  let y := x.cell
  match x.tier with
  | .other => s.send (moduleOf y.pa) (.write y.pa { d with tag := if x.desc then d.tag else if tagF d.tag = 0xFF then d.tag else 0 } x.desc)
  | _ =>
    let s1 := dropTags y 64 (putTagAt (memPutBytes s y.pa (bytesOfNum 64 d.bytes.toNat)) x d.tag)
    if !x.desc && tagF d.tag = 0xFF then memPoison s1 y.pa 64 else s1

/-- Bytes written at a translated address by an engine or a store: the tag is kept where the page keeps one (R159). -/
def writeBytesAt (s : State) (x : Xlat) (bs : List Byte) : State := dropTags x bs.length (memPutBytes s x.pa bs)

end Sys2Proof.Machine
end

