-- ==== Sys2Proof/Machine/Wait.lean ====
section
/-! DEFINITION. Waiting and waking (R63, R133): suspending a stream, completing its instruction, and the grants of the
semaphore file. -/

namespace Sys2Proof.Machine

/-! ### Suspending and resuming -/

/-- The stream whose turn it is waits at its instruction. -/
def suspend (w : Wait) (settle : Bool) (s : State) : Eff :=
  .jump (s.setCur { s.cur with waiting := some { on := w, settle := settle } })

/-- A waiting instruction completes: its result, if any, is readable by the next instruction, and the stream goes on (R63). -/
def resumeCur (res : Option (SDst × Word)) (s : State) : State :=
  match s.cur.waiting with
  | none => s
  | some w =>
    let s1 := s.setCur { s.cur with waiting := none }
    let s2 := match res with
      | some (d, v) => wrD d v 1 s1
      | none => s1
    let s3 := advance s2
    if w.settle then s3.setCur { s3.cur with settling := true } else s3

/-- The waiting instruction of stream `t` completes. -/
def resume (t : Sec) (res : Option (SDst × Word)) (s : State) : State := asSec t (resumeCur res) s

/-- A waiting instruction of stream `t` ends in a trap at its word. -/
def endWait (t : Sec) (r : TrapRec) (s : State) : State :=
  asSec t (fun s => trapOut r (s.setCur { s.cur with waiting := none })) s

/-- Resumes every stream, in the order of R129, whose wait `f` answers. -/
def resumeWhere (f : State → Wait → Option (Option (SDst × Word))) (s : State) : State :=
  allSecs.foldl (fun s t =>
    match waitsOn s t with
    | none => s
    | some w =>
      match f s w with
      | some res => resume t res s
      | none => s) s

/-! ### The semaphore file -/

/-- The semaphore file replaced. -/
def State.setSync (s : State) (y : SyncFile) : State := s.setCore { s.core with sync := y }

/-- A semaphore by number. -/
def semAt (s : State) (p : Nat) : Semaphore := s.core.sync.sems[Fin.ofNat 64 p]

/-- A semaphore replaced. -/
def setSem (s : State) (p : Nat) (x : Semaphore) : State :=
  s.setSync { s.core.sync with sems := s.core.sync.sems.set (Fin.ofNat 64 p) x }

/-- An answer sent to a stream of a core, in this module or another (R135). -/
def sendAnswer (coord : BitVec 32) (t : Sec) (id : Nat) (a : SemAnswer) (s : State) : State :=
  if coordModule coord = s.ownModule then
    s.raise [{ i := .remoteSemAnswer, arg := { core := coordCore coord, sec := t, a := id, b := 0, data := .answer a } }]
  else s.send (coordModule coord) (.answer (coordCore coord) t id a)

/-- Grants the heads of a semaphore's FIFO while the value covers them (R138), at most `fuel` of them. -/
def grantSem (p : Nat) : Nat → State → State
  | 0, s => s
  | fuel + 1, s =>
    let x := semAt s p
    match x.fifo with
    | [] => s
    | w :: rest =>
      if w.n ≤ x.val.toNat then
        let s1 := setSem s p { val := x.val - BitVec.ofNat 32 w.n, fifo := rest }
        let s2 := match w.remote with
          | some id => sendAnswer w.coord w.sec id (.result 0) s1
          | none => resume w.sec none s1
        grantSem p fuel s2
      else s

/-- A semaphore's value set; after an operation that raises it the waiters it now covers are granted (R138). -/
def putSemValue (p : Nat) (v : Nat) (s : State) : State :=
  let x := semAt s p
  let s1 := setSem s p { x with val := BitVec.ofNat 32 v }
  if x.val.toNat < v then grantSem p x.fifo.length s1 else s1

/-- An engine or forager signal adds 1; `none` when it would pass 2^32 - 1 and is lost (R137). -/
def signalLocal (p : Nat) (s : State) : Option State :=
  if (semAt s p).val.toNat + 1 < 2 ^ 32 then some (putSemValue p ((semAt s p).val.toNat + 1) s) else none

/-- Whether a flag is set. -/
def flagSet (s : State) (e : Nat) : Bool := s.core.sync.flags.getLsbD e

/-- A flag changed. -/
def setFlag (e : Nat) (v : Bool) (s : State) : State :=
  let m : BitVec 32 := BitVec.ofNat 32 (2 ^ e)
  s.setSync { s.core.sync with flags := if v then s.core.sync.flags ||| m else s.core.sync.flags &&& ~~~ m }

/-- Wakes the waiters of a flag that has been set: the non-consuming ones, and the first consuming one, which takes it (R143). Of several that began to
wait in different cycles the first is that of the fixed order of R129, not of arrival (log entry 42). -/
def wakeFlag (e : Nat) (s : State) : State :=
  if !flagSet s e then s
  else
    let s1 := resumeWhere (fun _ w => match w with
      | .flag e' false => if e' = e then some none else none
      | _ => none) s
    match allSecs.find? fun t => decide (waitsOn s1 t = some (.flag e true)) with
    | some t => resume t none (setFlag e false s1)
    | none => s1

/-- A flag set by a stream or an engine (R143). -/
def raiseFlag (e : Nat) (s : State) : State := wakeFlag e (setFlag e true s)

/-- The flags of a mask set by an engine, in ascending order (R143). -/
def raiseFlags (mask : BitVec 32) (s : State) : State :=
  (List.range 32).foldl (fun s e => if mask.getLsbD e then raiseFlag e s else s) s

/-- A completion counter's value. -/
def counterAt (s : State) (c : Nat) : Nat := (s.core.sync.counters[Fin.ofNat 32 c]).toNat

/-- A completion counter set. -/
def setCounter (c v : Nat) (s : State) : State :=
  s.setSync { s.core.sync with counters := s.core.sync.counters.set (Fin.ofNat 32 c) (BitVec.ofNat 16 v) }

/-- A command that names counter c is issued (R144). -/
def counterUp (c : Nat) (s : State) : State := setCounter c (counterAt s c + 1) s

/-- A command that names counter c completes, and WAITLT waiters below whose threshold it now lies complete (R144, R145). -/
def counterDown (c : Nat) (s : State) : State :=
  let s1 := setCounter c (counterAt s c - 1) s
  resumeWhere (fun s w => match w with
    | .counter c' t => if c' = c ∧ counterAt s c < t then some none else none
    | _ => none) s1

/-- A mutex. -/
def mutexAt (s : State) (m : Nat) : Mutex := s.core.sync.mutexes[Fin.ofNat 16 m]

/-- A mutex replaced. -/
def setMutex (m : Nat) (x : Mutex) (s : State) : State :=
  s.setSync { s.core.sync with mutexes := s.core.sync.mutexes.set (Fin.ofNat 16 m) x }

/-- A mutex freed and granted to the head of its FIFO (R139). -/
def freeMutex (m : Nat) (s : State) : State :=
  match (mutexAt s m).fifo with
  | [] => setMutex m { owner := none, fifo := [] } s
  | t :: rest => resume t none (setMutex m { owner := some t, fifo := rest } s)

/-- A barrier. -/
def barrierAt (s : State) (b : Nat) : Barrier := s.core.sync.barriers[Fin.ofNat 8 b]

/-- A barrier replaced. -/
def setBarrier (b : Nat) (x : Barrier) (s : State) : State :=
  s.setSync { s.core.sync with barriers := s.core.sync.barriers.set (Fin.ofNat 8 b) x }

/-- A write of BARTb (R140): TARGET is set and ARRIVED cleared as one operation. -/
def writeBart (b : Nat) (target : Nat) (s : State) : State :=
  setBarrier b { barrierAt s b with target := BitVec.ofNat 8 target, arrived := 0 } s

/-- Every BARWAIT on the barrier wakes with its PHASE (R141). -/
def wakeBarrier (b : Nat) (s : State) : State :=
  resumeWhere (fun s w => match w with
    | .barrier b' d => if b' = b then some (some (d, (barrierAt s b).phase.setWidth 64)) else none
    | _ => none) s

/-- All four streams have arrived: the bits are cleared, the generation advances and the waiting streams are released (R142). -/
def releaseRdv (s : State) : State :=
  let y := s.core.sync
  if y.rdvArrived = { ctl := true, copy := true, mat := true, vec := true } then
    let s1 := s.setSync { y with rdvGen := y.rdvGen + 1, rdvArrived := { ctl := false, copy := false, mat := false, vec := false } }
    resumeWhere (fun _ w => match w with
      | .rdv _ => some none
      | _ => none) s1
  else s

/-! ### Rings (R146-R148) -/

/-- A ring control block as read (Table 7-9). -/
structure Ring where
  base : Nat
  size : Nat
  claimed : Nat
  committed : Nat
  retired : Nat
  deriving DecidableEq, Repr

/-- Occ: committed and not retired, modulo 2^32. -/
def Ring.occ (r : Ring) : Nat := (r.committed + 2 ^ 32 - r.retired) % 2 ^ 32
/-- Pend: claimed and not committed. -/
def Ring.pend (r : Ring) : Nat := (r.claimed + 2 ^ 32 - r.committed) % 2 ^ 32
/-- Used: claimed and not retired. -/
def Ring.used (r : Ring) : Nat := (r.claimed + 2 ^ 32 - r.retired) % 2 ^ 32

/-- The address of a granule counter value. -/
def Ring.addr (r : Ring) (x : Nat) : Word := BitVec.ofNat 64 (r.base + 64 * (x % r.size))

/-- The control block at `a`, `none` when it is malformed (R147). A poisoned or uncorrectable line is read on (DESIGN CHOICE, log entry 57). -/
def readRing (s : State) (a : Nat) : Option Ring :=
  let r : Ring := { base := spadReadNum s a 4, size := spadReadNum s (a + 4) 4, claimed := spadReadNum s (a + 8) 4
                    committed := spadReadNum s (a + 12) 4, retired := spadReadNum s (a + 16) 4 }
  let pow2 := (List.range 17).any fun i => decide (r.size = 2 ^ i)
  if !pow2 || decide (r.base % 64 ≠ 0) || decide (2 ^ 22 ≤ r.base) || decide (2 ^ 22 < r.base + 64 * r.size)
      || decide (spadReadNum s (a + 20) 44 ≠ 0) || decide (r.size < r.used) || decide (r.used < r.occ) then none
  else some r

/-- A counter of a control block written in class k, its tag kept (R34, R115, R148). -/
def putRingCounter (k : Fin 16) (a off v : Nat) (s : State) : State := storeKeep k (a + off) (bytesOfNum 4 v) s

/-- AWAIT waiters on the control block whose count is committed complete (R148): at a COMMIT, not at a store to a counter (DESIGN CHOICE, log entry 57). -/
def wakeRing (a : Nat) (s : State) : State :=
  resumeWhere (fun s w => match w with
    | .ring a' n d =>
      if a' = a then
        match readRing s a with
        | some r => if n ≤ r.occ then some (some (d, r.addr r.retired)) else none
        | none => none
      else none
    | _ => none) s

/-! ### Walks -/

/-- A walk by its number in the module: 4 x die + walk. -/
def walkAt (s : State) (w : Nat) : Walk := s.walks[Fin.ofNat 8 w]

/-- A walk replaced. -/
def setWalk (w : Nat) (x : Walk) (s : State) : State := { s with walks := s.walks.set (Fin.ofNat 8 w) x }

/-- A walk changed. -/
def onWalk (w : Nat) (f : Walk → Walk) (s : State) : State := setWalk w (f (walkAt s w)) s

/-- A fault of a walk (R331): the first one fills the record, later ones raise MORE. -/
def Walk.fail (x : Walk) (code index : Nat) : Walk :=
  if x.fault.pend then { x with fault := { x.fault with more := if x.fault.more = 127 then 127 else x.fault.more + 1 } }
  else { x with fault := { pend := true, more := 0, code := BitVec.ofNat 8 code, index := BitVec.ofNat 24 index, wraps := x.wraps } }

/-- The number of the signal that leg `index` of a walk sends to another module: odd, as an engine's is. -/
def legSignalId (w index : Nat) : Nat := 2 * (index * 8 + w) + 1

/-- The owner of a semaphore in another module lost the signal of a leg: fault 0x08 (Table 17-5). -/
def lostLegSignal (id : Nat) (s : State) : State := onWalk (id / 2 % 8) (fun x => x.fail 8 (id / 2 / 8)) s

end Sys2Proof.Machine
end

