-- ==== Sys2Proof/Machine/Command.lean ====
section
/-! DEFINITION. A command of the copy engine: its fields (R156-R160), the addresses it names (R159), and the transfer of one run (R164,
R165, R190), shared by every kind. -/

namespace Sys2Proof.Machine

/-! ### The command registers (Tables 8-2 to 8-6, 9-1) -/

/-- An n-bit field of a captured command register. -/
def Cmd.get (c : Cmd) (i : Fin 16) (lo n : Nat) : Nat := bitsOf c.cw[i] lo n

/-- The ordering class of the command. -/
def Cmd.cls (c : Cmd) : Nat := c.get 0 0 4
/-- CONV. -/
def Cmd.conv (c : Cmd) : Nat := c.get 0 10 2
/-- SATM. -/
def Cmd.satm (c : Cmd) : Nat := c.get 0 12 2
/-- FTRAP. -/
def Cmd.ftrap (c : Cmd) : Bool := bitOf c.cw[0] 18
/-- PUBEN. -/
def Cmd.puben (c : Cmd) : Bool := bitOf c.cw[0] 19
/-- PUBFRM. -/
def Cmd.pubfrm (c : Cmd) : Fin 16 := Fin.ofNat 16 (c.get 0 20 4)
/-- FOLLOW. -/
def Cmd.follow (c : Cmd) : Bool := bitOf c.cw[0] 24
/-- CTREN. -/
def Cmd.ctren (c : Cmd) : Bool := bitOf c.cw[0] 25
/-- CTR. -/
def Cmd.ctr (c : Cmd) : Nat := c.get 0 26 5
/-- SEMEN. -/
def Cmd.semen (c : Cmd) : Bool := bitOf c.cw[0] 31
/-- LEN. -/
def Cmd.len (c : Cmd) : Nat := c.get 3 0 24
/-- SRCF. -/
def Cmd.srcf (c : Cmd) : Nat := c.get 3 32 8
/-- DSTF. -/
def Cmd.dstf (c : Cmd) : Nat := c.get 3 40 8
/-- TAG. -/
def Cmd.tag (c : Cmd) : BitVec 16 := BitVec.ofNat 16 (c.get 3 48 16)
/-- COUNTM1 + 1 of DIMd. -/
def Cmd.count (c : Cmd) (d : Fin 6) : Nat := c.get (Fin.ofNat 16 (8 + d.val)) 0 16 + 1
/-- The signed FSTR of DIMd. -/
def Cmd.fstr (c : Cmd) (d : Fin 6) : Int := signed 24 (c.get (Fin.ofNat 16 (8 + d.val)) 16 24)
/-- The signed TSTR of DIMd. -/
def Cmd.tstr (c : Cmd) (d : Fin 6) : Int := signed 24 (c.get (Fin.ofNat 16 (8 + d.val)) 40 24)
/-- Runs of the nest (R160). -/
def Cmd.runs (c : Cmd) : Nat := ((List.finRange 6).map fun d => c.count d).prod
/-- Items of the list (Table 9-1). -/
def Cmd.items (c : Cmd) : Nat := c.get 5 28 12 + 1
/-- TOL. -/
def Cmd.tol (c : Cmd) : Bool := bitOf c.cw[5] 25
/-- A kind that follows a list. -/
def CmdKind.listed : CmdKind → Bool
  | .gather | .scatter | .kvlist => true
  | _ => false
/-- A tolerant KVLIST (R184). -/
def Cmd.tolerant (c : Cmd) : Bool := decide (c.kind = .kvlist) && c.tol
/-- DIR of TILE2. -/
def Cmd.toStage (c : Cmd) : Bool := decide (c.kind = .ttile) && bitOf c.cw[15] 0

/-- Formats that SRCF and DSTF permit (Table 8-4). -/
def convFormat (f : Nat) : Option Fmt := if groupedF f then none else fmtOfF f

/-- Bytes of an element of SRCF, or 1 where it is not admitted. -/
def Cmd.ws (c : Cmd) : Nat := match convFormat c.srcf with
  | some f => f.width / 8
  | none => 1
/-- Bytes of an element of DSTF. -/
def Cmd.wd (c : Cmd) : Nat := match convFormat c.dstf with
  | some f => f.width / 8
  | none => 1

/-- Destination bytes of a run of n source bytes (R164). -/
def Cmd.destLen (c : Cmd) (n : Nat) : Nat := if c.conv = 2 ∧ c.kind ≠ .cfill then n * c.wd / c.ws else n

/-- The index of dimension d in run k, dimension 0 fastest (R160). -/
def Cmd.runIdx (c : Cmd) (k : Nat) (d : Fin 6) : Nat :=
  k / ((List.finRange 6).map fun e => if e < d then c.count e else 1).prod % c.count d

/-- The source displacement of run k. -/
def Cmd.runFrom (c : Cmd) (k : Nat) : Int := ((List.finRange 6).map fun d => (c.runIdx k d : Int) * c.fstr d).sum
/-- The destination displacement of run k. -/
def Cmd.runTo (c : Cmd) (k : Nat) : Int := ((List.finRange 6).map fun d => (c.runIdx k d : Int) * c.tstr d).sum

/-! ### Addresses (Table 8-5) -/

/-- An address of a command: its space and the address field. -/
inductive CopyAddr where
  | virt (a : Nat)
  | spad (a : Nat)
  | frame (f : Fin 16) (o : Nat)
  | remote (m core : Nat) (f : Fin 16) (o : Nat)
  deriving DecidableEq, Repr

/-- The address that a FROM, TO or SRC word holds; `none` for a pattern of no row of Table 8-5, or a cluster of 24 or more. -/
def copyAddr (w : Word) : Option CopyAddr :=
  match bitsOf w 62 2 with
  | 0 => if bitsOf w 56 6 = 0 then some (.virt (bitsOf w 0 56)) else none
  | 2 => if bitsOf w 22 40 = 0 then some (.spad (bitsOf w 0 22)) else none
  | 3 => if bitsOf w 28 34 = 0 ∧ bitsOf w 20 4 = 0 then some (.frame (Fin.ofNat 16 (bitsOf w 24 4)) (bitsOf w 0 20)) else none
  | _ =>
    if bitsOf w 60 2 = 0 ∧ bitsOf w 28 12 = 0 ∧ bitsOf w 20 4 = 0 ∧ bitsOf w 43 5 < 24 then
      some (.remote (bitsOf w 48 12) (bitsOf w 43 5 * 8 + bitsOf w 40 3) (Fin.ofNat 16 (bitsOf w 24 4)) (bitsOf w 0 20))
    else none

/-- The address field (Field of R160). -/
def CopyAddr.field : CopyAddr → Nat
  | .virt a => a
  | .spad a => a
  | .frame _ o => o
  | .remote _ _ _ o => o

/-- The frame register of a core of this module. -/
def frameOf (s : State) (n : Nat) (f : Fin 16) : Word :=
  match coreAt n s with
  | some c => c.frames[f]
  | none => 0

/-- The exclusive limit of the space of an address (R160). The frame of a core of another module is bounded by its offset field. -/
def CopyAddr.limit (s : State) : CopyAddr → Nat
  | .virt _ => 2 ^ 56
  | .spad _ => spadSize
  | .frame f _ => frmSize s.core.frames[f]
  | .remote m n f _ => if m = s.ownModule then frmSize (frameOf s n f) else 2 ^ 20

/-- The check of an address at start (R159): 0x02, 0x05, or none. -/
def CopyAddr.startFault (s : State) (write : Bool) : CopyAddr → Option Nat
  | .virt _ => none
  | .spad _ => none
  | .frame f _ => if frmValid s.core.frames[f] then none else some 0x02
  | .remote m n _ _ =>
    if !write then some 0x02
    else if m = s.ownModule then (if s.isPresent n then none else some 0x02)
    else if s.isMember m then none else some 0x05

/-! ### Endpoints of a run -/

/-- An endpoint of a run, resolved: scratchpad from an address, translated pages from a virtual address, the frame of another core, or, as a destination, an own
frame, whose window is translated when each write performs (R125, R174). -/
inductive Endpoint where
  | spad (a : Nat)
  | mem (va : Nat) (pages : List (Nat × Xlat))
  | remote (m core : Nat) (f : Fin 16) (o : Nat)
  | window (f : Fin 16) (o : Nat)

/-- Why a run fails: its code, and whether the page is marked TOL (R184), with the page's address. -/
structure RunFail where
  code : Nat
  tol : Bool
  va : Nat
  deriving DecidableEq, Repr

/-- The first addresses of [va, va + n) in each 64 KiB unit that it touches. -/
def granules (va n : Nat) : List Nat :=
  if n = 0 then []
  else (List.range ((va + n - 1) / 2 ^ 16 - va / 2 ^ 16 + 1)).map fun i => max va ((va / 2 ^ 16 + i) * 2 ^ 16)

/-- An access of the core in focus to n bytes from `va` meets a bank that is blocked, in its walks or its data: it waits (R403). -/
def spanHeld (s : State) (x : Access) (va n : Nat) : Bool :=
  !s.tiers.blocked.isEmpty && (granules va n).any fun g => accessHeld s x g (min (va + n) ((g / 2 ^ 16 + 1) * 2 ^ 16) - g)

/-- The chunks of [ta, ta + n) by destination cell: offset and length of each. -/
def chunks (ta n : Nat) : List (Nat × Nat) :=
  if n = 0 then []
  else (List.range ((ta + n - 1) / 64 - ta / 64 + 1)).map fun i =>
    let lo := max ta ((ta / 64 + i) * 64)
    let hi := min (ta + n) ((ta / 64 + i) * 64 + 64)
    (lo - ta, hi - lo)

/-- The part of a packed page that an access of n bytes from its address meets is routable, data and tags, cell by cell (R23, R38). -/
def packedReaches (s : State) (x : Xlat) (n : Nat) : Bool :=
  !x.packed || (chunks x.off n).all fun p =>
    let y : Xlat := { x with off := x.off + p.1 }
    routable s y.pa && routable s y.tagPa

/-- Translates the addresses of a list, which lie in [_, top) one in each 64 KiB unit; the first failure ends it. -/
def translateAll (x : Access) (top : Nat) : List Nat → State → State × Except RunFail (List (Nat × Xlat))
  | [], s => (s, .ok [])
  | va :: rest, s =>
    let t := translate s x va
    match t.result with
    | .error e => (t.state, .error { code := if e.kind = 4 then 0x05 else 0x04, tol := e.tol, va := va })
    | .ok r =>
      if !packedReaches t.state r (min top ((va / 2 ^ 16 + 1) * 2 ^ 16) - va) then (t.state, .error { code := 0x05, tol := false, va := va })
      else match translateAll x top rest t.state with
      | (s2, .ok l) => (s2, .ok ((va, r) :: l))
      | (s2, .error e) => (s2, .error e)

/-- The access of an engine on behalf of the job in the core (R386). -/
def jobAccess (s : State) (w : Bool) : Access := { asid := s.core.asid, root := s.core.ptroot, job := true, write := w }

/-- The base of the window that a frame address stands for (R159). -/
def frameBase (f : Word) (write : Bool) : Nat := if write && frmShen f then frmSb f else frmVb f

/-- The translated address of byte `a` of an endpoint's pages. -/
def pageAt (pages : List (Nat × Xlat)) (a : Nat) : Option Xlat :=
  match pages.find? fun p => decide (p.1 / 2 ^ 16 = a / 2 ^ 16) with
  | some (_, x) => some { x with off := x.off / 2 ^ 16 * 2 ^ 16 + a % 2 ^ 16 }
  | none => none

/-- The host refuses a write of some cell of [va, va + n) (R23). -/
def hostRefuses (s : State) (pages : List (Nat × Xlat)) (va n : Nat) : Bool :=
  (pages.any fun p => decide (p.2.tier = .host)) && (chunks va n).any fun p => match pageAt pages (va + p.1) with
    | some x => decide (x.tier = .host) && Config.outside s.tick x.cell.pa
    | none => false

/-- The write window of a frame of core `n` meets the supervisor region of that core at [o, o + len) of the frame (R369). -/
def frameMeetsSr (s : State) (n : Nat) (f : Fin 16) (o len : Nat) : Bool :=
  match coreAt n s with
  | some c => decide (0 < len) && touchesSr c (frameBase c.frames[f] true + o) len
  | none => false

/-- A run's endpoint resolved: its space (0x02), the supervisor region (0x03), translation (0x04) and routing, with a write that the host refuses
(0x05). `x` is the address on the field; an empty run holds no byte, so it lies outside no space. -/
def resolveEnd (k : CopyAddr) (x : Int) (n : Nat) (write : Bool) (s : State) : State × Except RunFail Endpoint :=
  let fail (c : Nat) : Except RunFail Endpoint := .error { code := c, tol := false, va := 0 }
  if 0 < n ∧ (x < 0 ∨ (k.limit s : Int) < x + n) then (s, fail 0x02)
  else
    let a := x.toNat
    match k with
    | .virt _ =>
      match translateAll (jobAccess s write) (a + n) (granules a n) s with
      | (s1, .ok l) => (s1, if write && hostRefuses s1 l a n then fail 0x05 else .ok (.mem a l))
      | (s1, .error e) => (s1, .error e)
    | .spad _ => (s, if 0 < n ∧ touchesSr s.core a n then fail 0x03 else .ok (.spad a))
    | .frame f _ =>
      let b := frameBase s.core.frames[f] write + a
      (s, if !frmValid s.core.frames[f] then fail 0x02 else if 0 < n ∧ touchesSr s.core b n then fail 0x03 else .ok (if write then .window f a else .spad b))
    | .remote m c f _ =>
      (s, if m ≠ s.ownModule then .ok (.remote m c f a)
          else if !frmValid (frameOf s c f) then fail 0x02
          else if frameMeetsSr s c f a n then fail 0x03
          else .ok (.remote m c f a))

/-- A byte as an engine reads it; `bad` when its unit could not be read or its page is poison-on-access (R190). -/
structure ReadByte where
  val : Byte
  bad : Bool
  deriving DecidableEq, Repr

/-- Byte i of an endpoint. -/
def Endpoint.byte (s : State) (i : Nat) : Endpoint → ReadByte
  | .spad a => { val := spadRead s (a + i), bad := spadIsBad s.core (a + i) }
  | .mem va pages =>
    match pageAt pages (va + i) with
    | some x =>
      let b := unitBad s x x.pa
      { val := if b then Config.freeByte s.tick x.pa else memByte s x.pa, bad := b || x.pac }
    | none => { val := 0, bad := true }
  | .remote _ _ _ _ => { val := 0, bad := true }
  | .window _ _ => { val := 0, bad := true }

/-- n bytes of an endpoint from offset i. -/
def Endpoint.bytes (s : State) (e : Endpoint) (i n : Nat) : List ReadByte := (List.range n).map fun j => e.byte s (i + j)

/-- The tag of the cell that holds byte i of an endpoint, and whether it could not be read. -/
def Endpoint.tag (s : State) (i : Nat) : Endpoint → BitVec 16 × Bool
  | .spad a => (spadTag s.core (a + i), false)
  | .mem va pages =>
    match pageAt pages (va + i) with
    | some x => (tagAt s x, x.packed && unitBad s x x.tagPa)
    | none => (0, true)
  | .remote _ _ _ _ => (0, true)
  | .window _ _ => (0, true)

/-- The uncorrectable units of [pa, pa + n) of a page reported to the housekeeping processor, with that of the packed tag of its cell (R38, R190). -/
def reportUnits (x : Xlat) (n : Nat) (s : State) : State :=
  let us := unitsOf x.pa n ++ (if x.packed then unitsOf x.tagPa 2 else [])
  { s with unitReports := (us.filter fun u => unitBad s x u).reverse.map (· / 32) ++ s.unitReports }

/-- A run of n source bytes has been read: its units are counted, and those with an uncorrectable error reported (R190, R395). -/
def Endpoint.account (n : Nat) (s : State) : Endpoint → State
  | .spad a => reportLines a n s
  | .mem va pages => (chunks va n).foldl (fun s p => match pageAt pages (va + p.1) with
    | some x => reportUnits x p.2 (countTag x (countRead x.tier x.desc x.pa p.2 s))
    | none => s) s
  | .remote _ _ _ _ => s
  | .window _ _ => s

/-! ### Writing -/

/-- The place of an engine write: its frame, and the address or offset. -/
def HeldWrite.place : HeldWrite → Option (Fin 16) × Nat
  | .byte f a _ => (f, a)
  | .tag f a _ => (f, a)
  | .poison f a => (f, a)

/-- A byte of data, which takes room in the landing buffer. -/
def HeldWrite.isByte : HeldWrite → Bool
  | .byte _ _ _ => true
  | _ => false

/-- Two engine writes go to one cell. -/
def HeldWrite.sameCell (w v : HeldWrite) : Bool := decide (w.place.1 = v.place.1) && decide (w.place.2 / 64 = v.place.2 / 64)

/-- The address of a place: an offset in the write window of a frame as the frame now stands. -/
def placeAddr (c : CoreState) : Option (Fin 16) × Nat → Nat
  | (none, a) => a
  | (some f, o) => frameBase c.frames[f] true + o

/-- Why an own frame refuses a write when it performs: 0x02 where it is not valid any more or too small, 0x03 where its window touches the supervisor region
(R125, R159, R369; log entry 52). -/
def placeRefused (c : CoreState) : Option (Fin 16) × Nat → Option Nat
  | (none, _) => none
  | (some f, o) =>
    let v := c.frames[f]
    if !frmValid v || decide (frmSize v ≤ o) then some 0x02 else if touchesSr c (frameBase v true + o) 1 then some 0x03 else none

/-- One engine write applied to the scratchpad (R34, R173, R190); one that its frame refuses changes nothing. -/
def applyHeld (c : CoreState) (w : HeldWrite) : CoreState :=
  let a := placeAddr c w.place
  if (placeRefused c w.place).isSome then c
  else match w with
    | .byte _ _ b => spadPutBytes c a [b]
    | .tag _ _ t => spadPutTag c a (storedTag c a t)
    | .poison _ _ => spadPutTag (spoilSample c (a / 64 * 64) 64) a poisonTag

/-- A transfer in progress: the state, who makes it and in which ordering class, the scratchpad writes made so far (latest first), the flags of
conversions, the cells poisoned, and the first fault with its run or item. -/
structure Xfer where
  s : State
  cls : Fin 16
  who : Requester
  log : List HeldWrite
  flags : FlagSet
  poison : Nat
  fault : Option (Nat × Nat)

/-- Scratchpad writes made and logged. -/
def Xfer.put (x : Xfer) (ws : List HeldWrite) : Xfer :=
  { x with s := x.s.setCore (ws.foldl applyHeld x.s.core), log := ws.reverse ++ x.log }

/-- A cell of translated memory marked poisoned: the tag 0x00FF where tags are kept, else the poison of the write (R37, R190). -/
def poisonMem (s : State) (x : Xlat) : State :=
  match x.tier with
  | .other => s.send (moduleOf x.cell.pa) (.poison x.cell.pa x.desc)
  | _ => if x.desc then putTagAt s x poisonTag else memPoison s x.cell.pa 64

/-- A write into the frame of another core, of this module or another (R159). It names its sender, who learns of a refusal. -/
def sendFrameWrite (m : Nat) (w : RemoteWrite) (s : State) : State :=
  if m = s.ownModule then s.raise [{ i := .incomingWrite, arg := { core := w.core, sec := .copy, a := 0, b := 0, data := .write w } }]
  else s.send m (.frameWrite w)

/-- Writes to memory made in the transfer's name. -/
def Xfer.memWrite (x : Xfer) (f : State → State) : Xfer := { x with s := tagSent x.cls x.who f x.s }

/-- One write of the transfer into the frame of another core. -/
def Xfer.remoteWrite (x : Xfer) (m core : Nat) (f : Fin 16) (off : Nat) (bs : List Byte) (tag : Option (BitVec 16)) (poison : Bool) : Xfer :=
  x.memWrite (sendFrameWrite m { module := x.s.ownModule, who := x.who, core := core, frame := f, off := off, bytes := bs, tag := tag, poison := poison })

/-- The writes that bring bytes to one cell of the core's scratchpad, with the tag of a whole cell, or poison (R164, R190). -/
def cellWrites (f : Option (Fin 16)) (a : Nat) (bs : List Byte) (tag : Option (BitVec 16)) (bad : Bool) : List HeldWrite :=
  (((List.range bs.length).zip bs).map fun p => HeldWrite.byte f (a + p.1) p.2)
    ++ (if bad then [.poison f a] else match tag with
      | some t => [.tag f a t]
      | none => [])

/-- The bytes of [off, off + length) written into one destination cell, with the tag of a whole cell, or poisoned (R164, R190). -/
def Xfer.chunk (x : Xfer) (e : Endpoint) (off : Nat) (bs : List Byte) (tag : Option (BitVec 16)) (bad : Bool) : Xfer :=
  let y : Xfer := if bad then { x with poison := x.poison + 1 } else x
  match e with
  | .spad a => y.put (cellWrites none (a + off) bs tag bad)
  | .window f o => y.put (cellWrites (some f) (o + off) bs tag bad)
  | .mem va pages =>
    match pageAt pages (va + off) with
    | none => y
    | some p =>
      y.memWrite fun s =>
        if bad then poisonMem (writeBytesAt s p bs) p
        else match tag with
          | some t => writeCellAt s p { bytes := BitVec.ofNat 512 (numOfBytes bs), tag := t }
          | none => writeBytesAt s p bs
  | .remote m c f o => y.remoteWrite m c f (o + off) bs (if bad then none else tag) bad

/-- F = 0xFF written into the destination cell that holds offset `off`, which counts as poisoned (R155, R191). -/
def Xfer.spoil (x : Xfer) (e : Endpoint) (off : Nat) : Xfer :=
  let y : Xfer := { x with poison := x.poison + 1 }
  match e with
  | .spad a => y.put [.poison none (a + off)]
  | .window f o => y.put [.poison (some f) (o + off)]
  | .mem va pages =>
    match pageAt pages (va + off) with
    | none => x
    | some p => y.memWrite fun s => poisonMem s p
  | .remote m c f o => y.remoteWrite m c f (o + off) [] none true

/-- Poisons every cell of a destination run from offset `from_` on, cell by cell, wherever it is writable (R155): a run that begins below its space is
poisoned from the start of the space on. -/
def Xfer.spoilRun (x : Xfer) (k : CopyAddr) (ta : Int) (n from_ : Nat) : Xfer :=
  let a := (ta + from_).toNat
  (chunks a ((ta + n).toNat - a)).foldl (fun x p =>
    match resolveEnd k (a + p.1 : Nat) p.2 true x.s with
    | (s1, .ok e) => ({ x with s := s1 }).spoil e 0
    | (s1, .error _) => { x with s := s1 }) x

/-! ### One run -/

/-- A plain move, with or without a new tag (R164, CONV 0 and 1). The run is read from the state before it. -/
def moveRun (c : Cmd) (src dst : Endpoint) (fa ta n : Nat) (x : Xfer) : Xfer :=
  let s0 := x.s
  let aligned : Bool := decide (fa % 64 = ta % 64)
  (chunks ta n).foldl (fun x p =>
    let bs := src.bytes s0 p.1 p.2
    let whole := decide (p.2 = 64) && aligned
    let st := src.tag s0 p.1
    let bad := bs.any (·.bad) || (whole && decide (c.conv = 0) && st.2)
    let tag := if whole then some (if c.conv = 1 then c.tag else st.1) else none
    x.chunk dst p.1 (bs.map (·.val)) tag bad) x

/-- A fill (R165). -/
def fillRun (c : Cmd) (dst : Endpoint) (ta n : Nat) (x : Xfer) : Xfer :=
  (chunks ta n).foldl (fun x p =>
    let bs := (List.range p.2).map fun j => BitVec.ofNat 8 (bitsOf c.cw[1] (8 * ((ta + p.1 + j) % 8)) 8)
    x.chunk dst p.1 bs (if p.2 = 64 then some c.tag else none) false) x

/-- The value that a conversion takes from element i of a source cell (R40): an integer destination uses the code of an INT16 or INT32
element alone, under the zero and NaN markers. -/
def convValue (toInt : Bool) (d : CellData) (i : Nat) (named : Fmt) : Num :=
  let f := tagF d.tag
  if toInt && (decide (f = 0x32) || decide (f = 0x41)) then elementValue { d with tag := if tagS d.tag = 0 ∨ tagS d.tag = 0xFF then d.tag else 0x7F00 + BitVec.ofNat 16 f } i none named
  else elementValue d i none named

/-- Whether a converted source cell faults: 0x07 for poison, 0x06 for a format that SRCF does not permit (Table 8-1). -/
def convFault (srcf : Nat) (t : BitVec 16) : Option Nat :=
  let f := tagF t
  if f = 0xFF then some 0x07
  else if f = 0 then none
  else if !assignedF f || decide (f = 0x0F) || groupedF f || decide (f / 16 ≠ srcf / 16) then some 0x06
  else none

/-- The converted elements of the source cells j, j + 1, ...: bytes with the mark of an unreadable unit, the flags, and the fault that ends
them with its source cell. -/
structure Converted where
  bytes : List ReadByte
  flags : FlagSet
  fault : Option (Nat × Nat)

/-- Conversion of `n` source cells from cell j of a run (R164, CONV 2). An element with a byte of a unit that could not be read is free, and the cells that
receive it are poisoned; where none of the source cell could be read it raises no fault (R190). -/
def convertCells (s : State) (c : Cmd) (sf df : Fmt) (src : Endpoint) : Nat → Nat → Converted
  | 0, _ => { bytes := [], flags := 0, fault := none }
  | n + 1, j =>
    let bs := src.bytes s (64 * j) 64
    let t := src.tag s (64 * j)
    let lost := t.2 || bs.all (·.bad)
    match if lost then none else convFault c.srcf t.1 with
    | some k => { bytes := [], flags := 0, fault := some (k, j) }
    | none =>
      let d : CellData := { bytes := BitVec.ofNat 512 (numOfBytes (bs.map (·.val))), tag := if lost then 0 else t.1 }
      let ws := sf.width / 8
      let bad (i : Nat) : Bool := t.2 || ((bs.drop (i * ws)).take ws).any (·.bad)
      let out := (List.range (512 / sf.width)).map fun i => (convert df c.rm (saturates df c.satm) (convValue df.isInt d i sf), bad i)
      let rest := convertCells s c sf df src n (j + 1)
      let bytes := (out.map fun r => (bytesOfNum (df.width / 8) r.1.code).map fun b => { val := b, bad := r.2 : ReadByte }).flatten
      { bytes := bytes ++ rest.bytes, flags := out.foldl (fun f r => if r.2 then f else f ||| r.1.flags) 0 ||| rest.flags, fault := rest.fault }

/-- A converting run: its cells, and the fault with the destination offset from which the run is poisoned. -/
def convRun (c : Cmd) (src dst : Endpoint) (ta n : Nat) (x : Xfer) : Xfer × Option (Nat × Nat) :=
  match convFormat c.srcf, convFormat c.dstf with
  | some sf, some df =>
    let v := convertCells x.s c sf df src (n / 64) 0
    let good := match v.fault with
      | some (_, j) => j * 64 * c.wd / c.ws / 64 * 64
      | none => c.destLen n
    let y := (chunks ta good).foldl (fun x p =>
      let bs := (v.bytes.drop p.1).take p.2
      x.chunk dst p.1 (bs.map (·.val)) (some (0x7F00 + BitVec.ofNat 16 c.dstf)) (bs.any (·.bad))) { x with flags := x.flags ||| v.flags }
    (y, v.fault.map fun f => (f.1, good))
  | _, _ => (x, some (0x01, 0))

/-- The outcome of a run: the transfer, and a fault that poisons its destination from an offset; an offset of `none` leaves it unwritten (R180). -/
structure RunEnd where
  x : Xfer
  fail : Option RunFail
  poisonFrom : Nat

/-- DoRun (R160, R164, R165): n source bytes from address fa of the source's space to address ta of the destination's. -/
def doRun (c : Cmd) (src dst : CopyAddr) (fa ta : Int) (n : Nat) (x : Xfer) : RunEnd :=
  let m := c.destLen n
  let fill : Bool := decide (c.kind = .cfill)
  match (if fill then (x.s, .ok (.spad 0)) else resolveEnd src fa n false x.s) with
  | (s1, .error e) => { x := { x with s := s1 }, fail := some e, poisonFrom := 0 }
  | (s1, .ok se) =>
    match resolveEnd dst ta m true s1 with
    | (s2, .error e) => { x := { x with s := s2 }, fail := some e, poisonFrom := 0 }
    | (s2, .ok de) =>
      let y := { x with s := s2 }
      if fill then { x := fillRun c de ta.toNat n y, fail := none, poisonFrom := 0 }
      else
        let y := { y with s := se.account n s2 }
        if c.conv = 2 then
          if fa.toNat % 64 ≠ 0 ∨ ta.toNat % 64 ≠ 0 ∨ n % 64 ≠ 0 ∨ m % 64 ≠ 0 then { x := y, fail := some { code := 0x01, tol := false, va := 0 }, poisonFrom := 0 }
          else
            let r := convRun c se de ta.toNat n y
            { x := r.1, fail := r.2.map (fun f => { code := f.1, tol := false, va := 0 }), poisonFrom := (r.2.map (·.2)).getD 0 }
        else { x := moveRun c se de fa.toNat ta.toNat n y, fail := none, poisonFrom := 0 }

end Sys2Proof.Machine
end

