-- ==== Sys2Proof/Machine/CopyEngine.lean ====
section
/-! DEFINITION. The copy engine's bookkeeping: commands by number, faults and traps of the copy stream, issue (R152, R163), landing (R167-R170)
and completion (R154). -/

namespace Sys2Proof.Machine

/-! ### Commands by number -/

/-- The copy engine replaced. -/
def State.setEngine (s : State) (e : CopyEngine) : State := s.setCore { s.core with copy := e }

/-- A command in the queue. -/
def liveCmd (s : State) (q : BitVec 16) : Option Cmd := s.core.copy.queue.find? fun c => decide (c.seq = q)

/-- A suspended command. -/
def suspCmd (s : State) (q : BitVec 16) : Option Cmd := s.core.copy.records.find? fun c => decide (c.seq = q) && c.susp

/-- The record that CSTAT names: a queued command's or a held one's (R191). -/
def recordCmd (s : State) (q : BitVec 16) : Option Cmd :=
  match liveCmd s q with
  | some c => some c
  | none => s.core.copy.records.find? fun c => decide (c.seq = q)

/-- A command in the queue changed. -/
def setCmd (c : Cmd) (s : State) : State :=
  s.setEngine { s.core.copy with queue := s.core.copy.queue.map fun d => if d.seq = c.seq then c else d }

/-- A queued command changed by a function. -/
def onCmd (q : BitVec 16) (f : Cmd → Cmd) (s : State) : State :=
  match liveCmd s q with
  | some c => setCmd (f c) s
  | none => s

/-- The engine-fault record of a command (Table 19-2). -/
def engineRec (c : Cmd) : TrapRec := mkTrap cEngine (c.fault + c.seq.toNat * 2 ^ 16) c.first

/-- The copy stream holds the trap of a command that has met a fault: at its next boundary with FTRAP, else at its next WAITLT or CWAIT (R155). -/
def holdEngineTrap (d : Cmd) (s : State) : State :=
  s.onStr .copy fun st =>
    if d.ftrap then { st with deferred := st.deferred ++ [{ record := engineRec d, pc := none }] } else { st with faults := st.faults ++ [engineRec d] }

/-- A fault of a command recorded: its first code and item stand in its status, and the copy stream holds the trap (R155). -/
def recordFault (q : BitVec 16) (code first : Nat) (s : State) : State :=
  match liveCmd s q with
  | none => s
  | some c =>
    if c.fault ≠ 0 then s
    else
      let d := { c with fault := code, first := min first 0xFFFF }
      holdEngineTrap d (setCmd d s)

/-- A fault that is learnt after the command's completion, recorded in the status that is kept of it (R137, R155). -/
def recordLate (q : BitVec 16) (code first : Nat) (s : State) : State :=
  if (liveCmd s q).isSome then recordFault q code first s
  else match s.core.copy.records.find? fun c => decide (c.seq = q) with
    | none => s
    | some c =>
      if c.fault ≠ 0 then s
      else
        let d := { c with fault := code, first := if c.susp then c.first else min first 0xFFFF }
        holdEngineTrap d (s.setEngine { s.core.copy with records := s.core.copy.records.map fun e => if e.seq = q then d else e })

/-- The number of an engine signal sent to a semaphore of another core, by command and item: odd, where the numbers of streams' requests are even. -/
def engineId (q : BitVec 16) (item : Nat) : Nat := 2 * (item % 2 ^ 16 * 2 ^ 16 + q.toNat) + 1

/-- The owner of a semaphore lost an engine signal: fault 0x09 of the command (R137, R155). -/
def lostSignal (id : Nat) (s : State) : State := recordLate (BitVec.ofNat 16 (id / 2)) 0x09 (id / 2 / 2 ^ 16) s

/-- Some write of command q to another module awaits its acknowledgement (R118, R154). -/
def unacked (s : State) (q : BitVec 16) : Bool :=
  s.awaited.any fun p => match p.2 with
    | .command n r _ => decide (n = s.core.num) && decide (r = q)
    | _ => false

/-! ### Promises (R168) -/

/-- The list entry i of a GATHER or SCATTER (Table 9-1). -/
def listIndex (s : State) (c : Cmd) (i : Nat) : Int :=
  let a := c.get 5 0 22
  match c.get 5 26 2 with
  | 0 => (spadReadNum s (a + 2 * i) 2 : Int)
  | 2 => signed 32 (spadReadNum s (a + 4 * i) 4)
  | _ => (spadReadNum s (a + 4 * i) 4 : Int)

/-- LENI of item i of a KVLIST (Table 9-3). -/
def listLen (s : State) (c : Cmd) (i : Nat) : Nat := spadReadNum s (c.get 5 0 22 + 16 * i + 12) 4

/-- The element width in bits of a handle's format; grouped patches count their cells (R41, R42). -/
def fmtWidth (f : Nat) : Nat := match fmtOfF f with
  | some x => x.width
  | none => 8

/-- Destination bytes of a TTILE: whole rows of a plain tile, or the patches of a grouped one (R189). -/
def tileBytes (s : State) (c : Cmd) : Nat :=
  let nr := c.get 15 32 16 + 1
  let nc := c.get 15 16 16 + 1
  match s.handles.find? fun p => decide (p.1 = c.get 7 50 14) with
  | none => 0
  | some (_, h) =>
    let f := h.fmt.toNat
    if groupedF f then nr / 64 * (nc / 128) * (if fmtWidth f = 4 then 5120 else 9216) else nr * (nc * fmtWidth f / 8)

/-- Bd: the destination bytes of a command (R168, R178, R183). -/
def destBytes (s : State) (c : Cmd) : Nat :=
  match c.kind with
  | .copy => c.destLen (c.len * c.runs)
  | .cfill => c.len * c.runs
  | .gather => c.destLen (c.len * c.items)
  | .scatter => c.destLen (c.len * c.items)
  | .kvlist => ((List.range c.items).map fun i => listLen s c i).sum
  | .ttile => tileBytes s c

/-- The first source address, from which Base is taken (R168, R178). -/
def firstSource (s : State) (c : Cmd) : Option CopyAddr :=
  match c.kind with
  | .kvlist => copyAddr (BitVec.ofNat 64 (spadReadNum s (c.get 5 0 22) 8))
  | .gather => match copyAddr c.cw[1] with
    | some (.virt a) => some (.virt ((a : Int) + listIndex s c 0 * (c.get 5 40 24 : Int)).toNat)
    | x => x
  | _ => copyAddr c.cw[1]

/-- Base of a command (Table 8-8). -/
def cmdBase (s : State) (c : Cmd) : Nat :=
  match c.kind with
  | .cfill => 32
  | .ttile => 640
  | _ => match firstSource s c with
    | some (.virt a) => baseLatency s s.core.asid a
    | _ => 32

/-- A command lands under a promise (R167, R184). -/
def isTimed (c : Cmd) : Bool :=
  bitOf c.cw[0] 17 && decide (2 ≤ bitsOf c.cw[2] 62 2) && !c.tolerant && !c.toStage

/-- E and P of a command issued now; P is 0 for an untimed one, and for one too large (R168). -/
def cmdPromise (s : State) (c : Cmd) : Option (Nat × Nat) :=
  let bd := destBytes s c
  if !isTimed c || decide (524288 < bd) then none
  else
    let e := promiseE s.now (cmdBase s c) bd s.core.copy.eprev
    some (e, max (c.get 6 0 64) e)

/-! ### Issue (R152, R163, R181) -/

/-- Commands that the queue holds at most. -/
def maxCmds : Nat := 64

/-- The records kept: those of the latest 128 issued commands, and the suspended ones (R191). -/
def keepRecords (latest : BitVec 16) (l : List Cmd) : List Cmd :=
  l.filter fun c => c.susp || decide ((latest - c.seq).toNat < 128)

/-- The map entry that a virtual semaphore number selects, when it is valid (R134). -/
def semEntry (s : State) (v : Nat) : Option Word :=
  let e := s.core.sync.map[Fin.ofNat 256 v]
  if bitOf e 31 then some e else none

/-- A fresh command of a kind with the captured registers. -/
def newCmd (kind : CmdKind) (cw : Vector Word 16) (s : State) : Cmd :=
  { seq := s.core.copy.seq + 1, kind := kind, cw := cw, rm := if bitOf cw[0] 16 then BitVec.ofNat 2 (bitsOf cw[0] 14 2) else s.cur.ncs.rm
    sem := none, lsem := none, timed := false, promise := 0, arrive := 0, phase := .queued, late := false, cancelled := false, fault := 0
    first := 0, poison := 0, bitmap := none, susp := false, ringCount := 0, todo := [], skipped := [], retried := false, heldItems := []
    held := [], delayed := [], delayedItems := [], unackedItems := [], flags := 0, published := false, followed := false, fmt := 0 }

/-- A command enters the queue: its sequence number, counter, semaphore translation and promise (R144, R152, R163, R168). `d` carries what
the issue found of the bitmap: a command that gets none completes at once (R181). One that meets 0x09 and 0x0D records 0x09 (DESIGN CHOICE, log entry 60). -/
def enterCmd (d : Cmd) (bitmapFault : Bool) (s : State) : State :=
  let p := cmdPromise s d
  let c := { d with sem := if d.semen then semEntry s (d.get 0 32 8) else none
                    lsem := if d.kind = .kvlist ∧ bitOf d.cw[7] 55 then semEntry s (d.get 7 56 8) else none
                    timed := isTimed d
                    promise := (p.map (·.2)).getD 0 }
  let e := s.core.copy
  let s1 := s.setEngine { e with queue := e.queue ++ [c], seq := c.seq, records := keepRecords c.seq e.records, eprev := (p.map (·.1)).getD e.eprev }
  let s2 := if c.ctren then counterUp c.ctr s1 else s1
  let s3 := if c.semen && c.sem.isNone then recordFault c.seq 0x09 0 s2 else s2
  if bitmapFault then onCmd c.seq (fun d => { d with phase := .landed }) (recordFault c.seq 0x0D 0 s3) else s3

/-- The lowest-numbered free bitmap (R181). -/
def freeBitmap (e : CopyEngine) : Option (Fin 16) := (List.finRange 16).find? fun i => decide (e.owners[i] = .free)

/-- An owned bitmap belongs to a command that has not completed. -/
def bitmapRunning (e : CopyEngine) : Bool :=
  e.owners.toList.any fun o => match o with
    | .running _ => true
    | _ => false

/-- A bitmap's owner set. -/
def setOwner (i : Fin 16) (o : BitmapState) (s : State) : State :=
  s.setEngine { s.core.copy with owners := s.core.copy.owners.set i o }

/-- The command registers as an issue captures them: free values for those not yet readable, in exposed mode (R161). -/
def captureCw (s : State) : Vector Word 16 :=
  Vector.ofFn fun i =>
    let x := s.core.copy.cw[i]
    if s.cur.mode || decide (x.ready ≤ s.cur.clk) then x.val else Config.freeWord s.tick (200 + i.val)

/-- Every command register is readable. -/
def cwReady (s : State) : Bool := s.core.copy.cw.toList.all fun x => decide (x.ready ≤ s.cur.clk)

/-- Issue of a command of a kind from the command registers (R152, R156, R163, R166, R181). -/
def issueCmd (kind : CmdKind) (d : SDst) (s : State) : Eff :=
  let e := s.core.copy
  if maxCmds ≤ e.queue.length then .hold
  else if s.cur.mode && !cwReady s then .hold
  else
    let cw := captureCw s
    let c := newCmd kind cw s
    let s1 := if c.follow then s.setEngine { e with cw := e.cw.set 0 { e.cw[0] with val := (e.cw[0]).val &&& ~~~(BitVec.ofNat 64 (2 ^ 24)) } } else s
    let promise (t : State) : Word := match liveCmd t c.seq with
      | some x => BitVec.ofNat 64 x.promise
      | none => 0
    if kind.listed then
      match freeBitmap e with
      | some i =>
        let s2 := s1.setEngine { s1.core.copy with bitmaps := s1.core.copy.bitmaps.set i 0 }
        let s3 := enterCmd { c with bitmap := some i } false (setOwner i (.running c.seq) s2)
        .done (wrD d (promise s3) 16 s3)
      | none =>
        if bitmapRunning e then .hold
        else
          let s3 := enterCmd c true s1
          .done (wrD d (promise s3) 16 s3)
    else
      let s3 := enterCmd c false s1
      .done (wrD d (promise s3) 16 s3)

/-! ### Ordering of writes (R118) -/

/-- Where a command writes: the space (0 own scratchpad, 1 global, 2 the frame of another core) and an interval that holds every byte. A remote address
that names the core itself is a frame of its own scratchpad. -/
def destBox (s : State) (c : Cmd) : Nat × Int × Int :=
  let spread (f : Fin 6 → Int) : Int × Int :=
    (((List.finRange 6).map fun d => min 0 ((c.count d - 1 : Nat) * f d)).sum, ((List.finRange 6).map fun d => max 0 ((c.count d - 1 : Nat) * f d)).sum)
  let rel : Int × Int := match c.kind with
    | .copy => ((spread c.tstr).1, (spread c.tstr).2 + c.destLen c.len)
    | .cfill => ((spread c.tstr).1, (spread c.tstr).2 + c.len)
    | .gather => (min 0 ((c.items - 1 : Nat) * c.tstr 0), max 0 ((c.items - 1 : Nat) * c.tstr 0) + c.destLen c.len)
    | _ => (-(2 ^ 56), 2 ^ 56)
  let own (f : Fin 16) (o : Nat) : Nat × Int × Int := (0, frameBase s.core.frames[f] true + o + rel.1, frameBase s.core.frames[f] true + o + rel.2)
  if c.toStage then (1, 0, 2 ^ 62)
  else match copyAddr c.cw[2] with
    | some (.spad a) => (0, a + rel.1, a + rel.2)
    | some (.frame f o) => own f o
    | some (.remote m n f o) => if m = s.ownModule ∧ n = s.core.num then own f o else (2, 0, 2 ^ 62)
    | _ => (1, 0, 2 ^ 62)

/-- Two intervals share a cell. -/
def boxesMeet (x y : Int × Int) : Bool := decide (x.1 / 64 * 64 < y.2) && decide (y.1 / 64 * 64 < x.2)

/-- The storage that an interval of scratchpad addresses may be: its own, and by each shadowed frame what lies in the other window where an exchange has it
(R173). -/
def storageOf (s : State) (x : Int × Int) : List (Int × Int) :=
  let part (from_ to_ z : Int) : List (Int × Int) :=
    let lo := max x.1 from_
    let hi := min x.2 (from_ + z)
    if lo < hi then [(lo - from_ + to_, hi - from_ + to_)] else []
  x :: s.core.frames.toList.flatMap fun f =>
    if frmValid f && frmShen f then part (frmVb f) (frmSb f) (frmSize f) ++ part (frmSb f) (frmVb f) (frmSize f) else []

/-- Two intervals may share a cell of storage, whatever windows of whatever frames they lie in. -/
def windowsMeet (s : State) (x y : Int × Int) : Bool := (storageOf s x).any fun p => (storageOf s y).any fun q => boxesMeet p q

/-- Two commands may write the same cell. -/
def mayMeet (s : State) (a b : Cmd) : Bool :=
  let x := destBox s a
  let y := destBox s b
  decide (x.1 = y.1) && (if x.1 = 0 then windowsMeet s x.2 y.2 else boxesMeet x.2 y.2)

/-- Every write of a command has performed at its target (R154, step 1). -/
def performedAll (s : State) (c : Cmd) : Bool := decide (c.phase = .landed) && !unacked s c.seq

/-- The commands of the queue issued before command c. -/
def earlierCmds (s : State) (c : Cmd) : List Cmd := s.core.copy.queue.takeWhile fun d => d.seq != c.seq

/-- An earlier command of the same class that may write the same cell has writes that have not performed: the later write is held (R118). -/
def heldByEarlier (s : State) (c : Cmd) : Bool :=
  (earlierCmds s c).any fun d => decide (d.phase ≠ .queued) && !performedAll s d && decide (d.cls = c.cls) && mayMeet s d c

/-! ### Landing (R167-R170) -/

/-- Bytes that the landing buffer holds (LBOCC): cells of timed commands, and early data of far loads (R104, R169). -/
def landingBytes (c : CoreState) : Nat :=
  (c.copy.queue.map fun c => (c.held.filter (·.isByte)).length).sum + (c.streams.ctl.flds.map fun f => if f.arrived then f.size else 0).sum

/-- The first cell of a list of writes, in the order in which they arrived. -/
def firstCell (l : List HeldWrite) : List HeldWrite :=
  match l with
  | [] => []
  | w :: _ => l.takeWhile (·.sameCell w)

/-- Bytes that the next cell of a command which waits for room brings to the landing buffer. -/
def nextBytes (c : Cmd) : Nat := ((firstCell c.delayed).filter (·.isByte)).length

/-- The cells of a list of writes that the landing buffer admits while `room` bytes are free, and those that it delays; at most `fuel` cells (R169). -/
def admitCells : Nat → Nat → List HeldWrite → List HeldWrite × List HeldWrite
  | 0, _, l => ([], l)
  | fuel + 1, room, l =>
    let cell := firstCell l
    let n := (cell.filter (·.isByte)).length
    if cell.isEmpty || decide (room < n) then ([], l)
    else
      let r := admitCells fuel (room - n) (l.drop cell.length)
      (cell ++ r.1, r.2)

/-- A command whose writes wait for its promise. -/
def Cmd.waits (now : Nat) (c : Cmd) : Bool := c.timed && decide (now < c.promise)

/-- Bytes of the landing buffer. -/
def landingSize : Nat := 524288

/-- Room in the landing buffer for the next cell of a command (R169). -/
def hasRoom (s : State) (c : Cmd) : Bool :=
  !c.waits s.now || decide (landingBytes s.core + nextBytes c ≤ landingSize)

/-- The cells of a list of writes that the core's landing buffer admits now, and those that it delays. -/
def admitted (s : State) (l : List HeldWrite) : List HeldWrite × List HeldWrite := admitCells l.length (landingSize - landingBytes s.core) l

/-- A timed RECV whose promise has come while its queue is empty: the queue and the promise (R209). -/
def recvMissing (s : State) (t : Sec) : Option (Nat × Nat) :=
  match waitsOn s t with
  | some (.recv q _ _ (some p)) => if decide (p ≤ s.now) && (s.core.msgs.queues[Fin.ofNat 16 q]).origins.isEmpty then some (q, p) else none
  | _ => none

/-- Cells of a timed command are missing after its promise (R170): it fetches, or is queued and will fetch; a faulted or cancelled one that has not
started writes nothing (R155). -/
def Cmd.missing (now : Nat) (c : Cmd) : Bool :=
  c.timed && !c.late && !c.cancelled && decide (c.promise ≤ now) && decide (0 < c.promise)
    && (decide (c.phase = .fetching) || (decide (c.phase = .queued) && decide (c.fault = 0)))

/-- A far load or a command whose data is missing after its promise (R170). -/
def missingNow (s : State) : Bool :=
  s.core.copy.queue.any (fun c => c.missing s.now)
  || s.core.streams.ctl.flds.any (fun f => !f.arrived && !f.late && decide (f.promise ≤ s.now))
  || allSecs.any fun t => (recvMissing s t).isSome

/-- The freeze ends when nothing is missing any more (R170). -/
def thaw (s : State) : State :=
  if s.core.copy.frozenSince.isSome && !missingNow s then s.setEngine { s.core.copy with frozenSince := none } else s

/-- A late request of a stream: its promise, INFO and ADDR (Table 19-2). -/
structure LateReq where
  promise : Nat
  info : Nat
  deriving DecidableEq, Repr

/-- The late request with the earliest promise, the first issued among equals. -/
def earliest : List LateReq → Option LateReq
  | [] => none
  | r :: rest =>
    match earliest rest with
    | some q => if q.promise < r.promise then some q else some r
    | none => some r

/-- A promise-missed trap set aside for a stream (R170). A RECV that missed its promise is withdrawn; any other waiting instruction is withdrawn when the
stream takes the trap, at its own turn (R129, R133). -/
def missTrap (t : Sec) (l : List LateReq) (s : State) : State :=
  match earliest l with
  | none => s
  | some r =>
    let s1 : State := match waitsOn s t with
      | some (.recv ..) => withdraw t s
      | _ => s
    s1.onStr t fun st => { st with deferred := st.deferred ++ [{ record := mkTrap cMissed r.info r.promise, pc := none }] }

/-- Every request still missing its data after its promise is marked late, and its stream takes the trap (R170). -/
def markLate (s : State) : State :=
  let cmds := s.core.copy.queue.filter fun c => c.missing s.now
  let flds := s.core.streams.ctl.flds.filter fun f => !f.arrived && !f.late && decide (f.promise ≤ s.now)
  let recvs (t : Sec) : List LateReq := match recvMissing s t with
    | some (q, p) => [{ promise := p, info := 2 * 2 ^ 16 + q % 16 * 2 ^ 18 }]
    | none => []
  let s1 := s.setEngine { s.core.copy with frozenSince := none, queue := s.core.copy.queue.map fun c => if cmds.any (fun d => d.seq = c.seq) then { c with late := true } else c }
  let s2 := s1.onStr .ctl fun st => { st with flds := st.flds.map fun f => if flds.any (fun g => g.id = f.id) then { f with late := true } else f }
  let s3 := missTrap .copy ((cmds.map fun c => { promise := c.promise, info := c.seq.toNat }) ++ recvs .copy) s2
  missTrap .ctl ((flds.map fun f => { promise := f.promise, info := 2 ^ 16 }) ++ recvs .ctl) s3

/-- The bits of finished items set in a command's bitmap (Table 9-2). -/
def setBits (c : Cmd) (items : List Nat) (s : State) : State :=
  match c.bitmap with
  | none => s
  | some i =>
    let b := items.foldl (fun b k => b ||| BitVec.ofNat 4096 (2 ^ k)) s.core.copy.bitmaps[i]
    s.setEngine { s.core.copy with bitmaps := s.core.copy.bitmaps.set i b }

/-- Runs a transfer for a command: while its promise lies ahead its scratchpad writes are kept out of sight, in the landing buffer as far as that has room
(R169). The transfer itself sees them. -/
def underPromise (q : BitVec 16) (f : Xfer → Xfer) (s : State) : State :=
  match liveCmd s q with
  | none => s
  | some c =>
    let hidden := c.waits s.now
    let s0 := if hidden then s.setCore (c.held.foldl applyHeld s.core) else s
    let x := f { s := s0, cls := Fin.ofNat 16 c.cls, who := .command s.core.num q 0, log := [], flags := 0, poison := 0, fault := none }
    let s1 := if hidden then x.s.setCore { x.s.core with spad := s.core.spad, spadTags := s.core.spadTags, spadBad := s.core.spadBad, audit := s.core.audit, oldWords := s.core.oldWords, loose := s.core.loose, mat := s.core.mat } else x.s
    let p := if !hidden then ([], []) else if c.delayed.isEmpty then admitted s1 x.log.reverse else ([], x.log.reverse)
    let s2 := onCmd q (fun d => { d with held := d.held ++ p.1, delayed := d.delayed ++ p.2
                                         flags := d.flags ||| x.flags, poison := min (d.poison + x.poison) 0xFFFF }) s1
    match x.fault with
    | some (code, first) => recordFault q code first s2
    | none => s2

/-! ### Completion (R154) -/

/-- An FRMAP or PUBLISH of the frame of a held sample spoils it (R304). -/
def spoilFrame (c : CoreState) (f : Fin 16) : CoreState :=
  match c.audit.sample with
  | some x => if x.frame = f then dropSample { c with audit := { c.audit with spoiled := satCount c.audit.spoiled } } else c
  | none => c

/-- PUBLISH of a frame: a valid shadowed frame inverts SWAP, and the swap releases what was written to its windows (R125, R175). -/
def publishFrame (f : Fin 16) (s : State) : State :=
  let c := spoilFrame s.core f
  let v := c.frames[f]
  if frmValid v && frmShen v then settleFrame v (s.setCore { c with frames := c.frames.set f (v ^^^ 2) }) else s.setCore c

/-- A signal of number `id` by an engine to a semaphore by its map entry (R129, R137, R163): whether it was not lost, and the state. A remote one goes
by request; its loss at the owner is learnt from the answer. -/
def signalEntry (id : Nat) (e : Word) (s : State) : Bool × State :=
  let coord : BitVec 32 := BitVec.ofNat 32 (bitsOf e 32 32)
  let p := bitsOf e 0 6
  if bitOf e 30 && !(decide (coordModule coord = s.ownModule) && decide (coordCore coord = s.core.num)) then
    (s.isMember (coordModule coord), if s.isMember (coordModule coord) then
        sendToFile .remoteSemRequest coord { from_ := s.ownCoord, sec := .copy, id := id, phys := p, op := .sig, b := 1 } s
      else s)
  else match signalLocal p s with
    | some s1 => (true, s1)
    | none => (false, s)

/-- Step 5 of R154 for the oldest command, and what follows: the record is kept, a listed command with a clear bit is suspended, and
the streams that wait for the command go on. -/
def completeHead (s : State) : State :=
  match s.core.copy.queue with
  | [] => s
  | c :: _ =>
    let s1 := if c.ctren then counterDown c.ctr s else s
    let s2 := raiseFlags (BitVec.ofNat 32 (c.get 4 32 32)) s1
    let s3 := match c.sem with
      | some e => match signalEntry (engineId c.seq 0) e s2 with
        | (true, t) => t
        | (false, t) => recordFault c.seq 0x09 0 t
      | none => s2
    let s4 := accrueTo .copy c.flags s3
    let d := match s4.core.copy.queue with
      | x :: _ => x
      | [] => c
    let clear := match d.bitmap with
      | some i => (List.range d.items).find? fun k => !(s4.core.copy.bitmaps[i]).getLsbD k
      | none => none
    let r := match clear with
      | some k => { d with susp := true, first := k }
      | none => d
    let s5 := match d.bitmap with
      | some i => setOwner i (if clear.isSome then .suspended d.seq else .free) s4
      | none => s4
    let e := s5.core.copy
    let s6 := s5.setEngine { e with queue := e.queue.drop 1, records := r :: e.records }
    resumeWhere (fun s w => match w with
      | .command q => if (liveCmd s (BitVec.ofNat 16 q)).isNone then some none else none
      | _ => none) s6

end Sys2Proof.Machine
end

