-- ==== Sys2Proof/Machine/Scratch.lean ====
section
/-! DEFINITION. Scalar scratchpad access (R99-R102), the cycle counter, NOP and the software trap (R107). -/

namespace Sys2Proof.Machine

/-- The bytes of a size code (R53). -/
def sizeBytes (z : Fin 4) : Nat := 2 ^ z.val

/-- The scratchpad address base + offset x size, modulo 2^22 (R53, R99). -/
def scratchAddr (base : Word) (o : BitVec 9) (z : Fin 4) : Nat := (base.toNat + o.toNat * sizeBytes z) % spadSize

/-- The faults of a scalar load of n bytes at `a`, in this order: alignment, the supervisor region, poison (Table 5-4). -/
def loadTrap (s : State) (a n : Nat) : Option TrapRec :=
  if a % n ≠ 0 then some (mkTrap cAlignment 0 a)
  else if !s.cur.priv && touchesSr s.core a n then some (mkTrap cPrivilege 0 a)
  else if spadPoisoned s.core a then some (mkTrap cPoison (bit (spadIsBad s.core a)) (a / 64 * 64))
  else none

/-- The faults of a scalar store (Table 5-4). -/
def storeTrap (s : State) (a n : Nat) : Option TrapRec :=
  if a % n ≠ 0 then some (mkTrap cAlignment 0 a)
  else if !s.cur.priv && touchesSr s.core a n then some (mkTrap cPrivilege 0 a)
  else none

/-- The trap of an access at `a`: an uncorrectable line that it meets is reported to the housekeeping processor (Table 5-4). -/
def loadFails (a : Nat) (r : TrapRec) (s : State) : Eff :=
  if decide (r.cause = cPoison) && spadIsBad s.core a then .trapIn (reportLine a s) r else .trap r

/-- A load of class k of n bytes at `a` with its result in `d`, the value computed by `f` (R101, R102). -/
def loadInto (k : Fin 16) (d : SDst) (a n : Nat) (f : Nat → Word) (s : State) : Eff :=
  match loadTrap s a n with
  | some r => loadFails a r s
  | none => .done (wrD d (f (spadNum (s.viewed k) a n)) 12 (sawScratch k a n s))

/-- A store of class k of bytes at `a` (R34, R99, R101, R102). -/
def storeAt (k : Fin 16) (a : Nat) (bs : List Byte) (s : State) : Eff :=
  match storeTrap s a bs.length with
  | some r => .trap r
  | none => .done (storeBytes k a bs s)

/-- The meaning of LD: sign-extending (R99). -/
def execLd (o : LdOps) (s : State) : Host.Outcome State Fault Refusal :=
  issue (.ld o) (useLdOps o) (fun s => loadInto o.k o.d (scratchAddr (rdS s o.b) o.o o.z) (sizeBytes o.z)
    (fun x => wordOfInt (signed (8 * sizeBytes o.z) x)) s) s

/-- The meaning of LDZ: zero-extending (R99). -/
def execLdz (o : LdOps) (s : State) : Host.Outcome State Fault Refusal :=
  issue (.ldz o) (useLdOps o) (fun s => loadInto o.k o.d (scratchAddr (rdS s o.b) o.o o.z) (sizeBytes o.z) (BitVec.ofNat 64) s) s

/-- The meaning of ST: the low bytes of the data register (R99). -/
def execSt (o : StOps) (s : State) : Host.Outcome State Fault Refusal :=
  issue (.st o) (useStOps o) (fun s => storeAt o.k (scratchAddr (rdS s o.b) o.o o.z) (bytesOfNum (sizeBytes o.z) (rdS s o.x).toNat) s) s

/-- The nibble address (2A + offset) mod 2^23 (R100). -/
def nibbleAddr (base : Word) (o : BitVec 9) : Nat := (2 * base.toNat + o.toNat) % 2 ^ 23

/-- A byte with nibble `h` (0 the low one) replaced. -/
def putNibble (b : Byte) (h : Nat) (x : Nat) : Byte :=
  if h = 0 then BitVec.ofNat 8 (b.toNat / 16 * 16 + x % 16) else BitVec.ofNat 8 (b.toNat % 16 + x % 16 * 16)

/-- The meaning of LDN: the zero-extended nibble (R100). -/
def execLdn (o : LdnOps) (s : State) : Host.Outcome State Fault Refusal :=
  issue (.ldn o) (useLdnOps o) (fun s =>
    let n := nibbleAddr (rdS s o.b) o.o
    loadInto o.k o.d (n / 2) 1 (fun x => BitVec.ofNat 64 (x / 16 ^ (n % 2) % 16)) s) s

/-- The meaning of STN: bits [3:0] of data into one nibble, the other kept (R100). -/
def execStn (o : StnOps) (s : State) : Host.Outcome State Fault Refusal :=
  issue (.stn o) (useStnOps o) (fun s =>
    let n := nibbleAddr (rdS s o.b) o.o
    storeAt o.k (n / 2) [putNibble (spadRead s (n / 2)) (n % 2) (rdS s o.x).toNat] s) s

/-- The meaning of CYC: Now() at the issue cycle (R107). -/
def execCyc (o : DP) (s : State) : Host.Outcome State Fault Refusal :=
  issue (.cyc o) (useDP o) (fun s => .done (wrD o.d (BitVec.ofNat 64 s.now) 2 s)) s

/-- The meaning of NOP (R107). -/
def execNop (o : Bare) (s : State) : Host.Outcome State Fault Refusal :=
  issue (.nop o) (useBare o) (fun s => .done s) s

/-- The meaning of TRAP: the software trap with number n, returning to the next word (R107). -/
def execTrap (o : TrapOps) (s : State) : Host.Outcome State Fault Refusal :=
  issue (.trap o) (useTrapOps o) (fun _ => .trap (mkTrap (0x20 + o.n.val) o.n.val 0)) s

end Sys2Proof.Machine
end

