-- ==== Sys2Proof/Machine/Far.lean ====
section
/-! DEFINITION. Far access from the ctl stream (R103-R105) and FENCE (R119). -/

namespace Sys2Proof.Machine

/-- The address A + offset x size, a 64-bit sum (R103). -/
def farAddr (base : Word) (o : BitVec 5) (z : Fin 4) : Nat := (base.toNat + o.toNat * sizeBytes z) % 2 ^ 64

/-- The checks of a far access in the order of Table 5-5, with the state after the TLBs were filled. -/
def farCheck (s : State) (va n : Nat) (write : Bool) : State × Except TrapRec Xlat :=
  if 2 ^ 56 ≤ va then (s, .error (translationTrap 3 va))
  else if va % n ≠ 0 then (s, .error (mkTrap cAlignment 0 va))
  else
    let t := translate s (streamAccess s write) va
    match t.result with
    | .ok x => (t.state, .ok x)
    | .error e => (t.state, .error (translationTrap e.kind va))

/-- FLDs a stream holds in flight (R104). -/
def maxFlds : Nat := 8

/-- The promise of an FLD issued now: E and P (R104, R168). -/
def fldPromise (s : State) (va n : Nat) : Nat × Nat :=
  let e := promiseE s.now (baseLatency s s.core.asid va) n s.cur.eprev
  let l := if s.cur.fldl = 0 then 0 else s.now + s.cur.fldl.toNat
  (e, max l e)

/-- The stores of the core's ctl stream to global memory that it need not find in every class. -/
def farStoresOf (s : State) : List Loose := (s.farLoose.filter fun p => decide (p.1 = s.core.num)).map (·.2)

/-- Global memory as an access of class k of the ctl stream finds it (R102, R116). -/
def State.farViewed (s : State) (k : Fin 16) : State :=
  { s with mem := ((farStoresOf s).filter (·.late s.tick k)).foldl (fun m e => putEach m e.addr e.old) s.mem }

/-- n bytes of global memory as a load of class k of the ctl stream finds them. -/
def farRead (s : State) (k : Fin 16) (pa n : Nat) : Nat := memNum (s.farViewed k) pa n

/-- A load of class k of n bytes of global memory by the ctl stream has been made: what it found performed stays so. -/
def sawFar (k : Fin 16) (pa n : Nat) (s : State) : State :=
  let l := homeLocal s (localOf pa)
  loadMade .ctl k ((farStoresOf s).filter fun e => !e.late s.tick k && isOwn s pa && decide (e.addr < l + n) && decide (l < e.addr + e.old.length)) s

/-- A write of n bytes of global memory, of class k, by the ctl stream: its accesses of other classes may still find the bytes before it. -/
def storedFar (k : Fin 16) (pa n : Nat) (f : State → State) (s : State) : State :=
  let t := f s
  if !isOwn s pa then t else
    let e : Loose := { time := s.tick, addr := homeLocal s (localOf pa), old := (List.range n).map fun i => memByte s (pa + i), seen := BitVec.ofNat 16 (2 ^ k.val) }
    { t with farLoose := (s.core.num, e) :: t.farLoose }

/-- The read of an FLD made: counted, or asked of the module that holds the cell, whose answer the FLD then awaits (R104, R395, R419). -/
def fldRead (k : Fin 16) (id : Nat) (x : Xlat) (n : Nat) (s : State) : State :=
  match x.tier with
  | .other =>
    let who : Requester := .load s.core.num id
    { s with outbound := { module := moduleOf x.pa, act := .read (x.pa / 64 * 64), cls := k, who := who } :: s.outbound
             awaited := s.awaited ++ [(moduleOf x.pa, who)] }
  | t => countRead t x.desc x.pa n s

/-- FLD issues (R104): the promise is made, the destination is reserved, and the value read is kept until it lands. -/
def fldIssue (o : FldOps) (s : State) : Eff :=
  let n := sizeBytes o.z
  let va := farAddr (rdS s o.b) o.o o.z
  if decide (maxFlds ≤ s.cur.flds.length) || walkHeld s (streamAccess s false) va then .hold
  else
    let p := fldPromise s va n
    match farCheck s va n false with
    | (s1, .error r) => .trapIn s1 r
    | (s1, .ok x) =>
      let bad := x.pac || unitBad s1 x x.pa
      let f : Fld := { id := s1.tick, cls := o.k, size := n, promise := p.2, arrive := s1.now + Config.fetchLatency s1.tick, arrived := false
                       val := if bad then 0 else BitVec.ofNat 64 (farRead s1 o.k x.pa n), bad := bad, va := va, pa := x.pa, pc := s.cur.pc, late := false
                       named := decide (o.d ≠ .push) }
      let s2 := sawFar o.k x.pa n (fldRead o.k s1.tick x n s1)
      let st := s2.cur.putSlot o.d { val := 0, ready := 0, fld := some f.id }
      .done (s2.setCur { st with flds := st.flds ++ [f], eprev := p.1, fldp := BitVec.ofNat 64 p.2 })

/-- The meaning of FLD (R103, R104). -/
def execFld (o : FldOps) (s : State) : Host.Outcome State Fault Refusal :=
  issue (.fld o) (useFldOps o) (fldIssue o) s

/-- The acknowledgement of an FST (R119). -/
def farAck (core id : Nat) : Event :=
  { i := .farStoreAcknowledged, arg := { core := core, sec := .ctl, a := id, b := 0, data := .none } }

/-- A far access of a class in `m` is outstanding (R119): an FLD whose data has not arrived, or an FST not acknowledged. -/
def farOutstanding (s : State) (m : BitVec 16) : Bool :=
  s.cur.flds.any (fun f => !f.arrived && bitOf m f.cls.val)
    || (decide (s.turn = .ctl) && s.core.farStores.any fun p => bitOf m p.2.val)

/-- What a release wider than the core, in the classes of m, waits for: the far accesses of the stream in these classes, and every FST of the core that is not
acknowledged, for the stream may have acquired what it wrote (R121). -/
def farHeld (m : BitVec 16) (s : State) : Bool := farOutstanding s m || !s.core.farStores.isEmpty

/-- A release of class k at a scope waits until every access that happens before it has performed there (R105, R116, R121): at a scope wider than the
core's, while a far access is outstanding that it may order. -/
def releaseWaits (k : Fin 16) (c : Scope) (s : State) : Bool :=
  decide (c ≠ .stream) && decide (c ≠ .core) && farHeld (BitVec.ofNat 16 (2 ^ k.val)) s

/-- FST issues (R105): the store is made, except that a write the host refuses is lost (R23). Its acknowledgement follows at once from the part's own
memory and from the host, and by message from another module. -/
def fstIssue (o : FstOps) (s : State) : Eff :=
  let n := sizeBytes o.z
  let va := farAddr (rdS s o.b) o.o o.z
  if (o.q && releaseWaits o.k o.c s) || accessHeld s (streamAccess s true) va n then .hold
  else match farCheck s va n true with
  | (s1, .error r) => .trapIn s1 r
  | (s1, .ok x) =>
    let lost := decide (x.tier = .host) && Config.outside s1.tick x.pa
    let who : Requester := .store s.core.num s1.tick
    let s2 := if lost then s1 else storedFar o.k x.pa n (tagSent o.k who fun t => writeBytesAt t x (bytesOfNum n (rdS s o.x).toNat)) s1
    let s3 := s2.setCore { s2.core with farStores := s2.core.farStores ++ [(s1.tick, o.k)] }
    .done (if s3.awaits who then s3 else s3.raise [farAck s.core.num s1.tick])

/-- The meaning of FST (R103, R105). -/
def execFst (o : FstOps) (s : State) : Host.Outcome State Fault Refusal :=
  issue (.fst o) (useFstOps o) (fstIssue o) s

/-- A FENCE of the classes of `m` has been passed (R116, R119): the stream's later accesses of these classes find its earlier stores of them, and
after FENCE kall it fetches the new words of its section (R121). -/
def fenced (m : BitVec 16) (s : State) : State :=
  let s1 := joinClasses m s
  if m = BitVec.allOnes 16 then s1.setCore { s1.core with oldWords := s1.core.oldWords.set s.turn [] } else s1

/-- The meaning of FENCE (R119): it waits for the stream's far accesses of the named classes; every other access of the model has
performed when it issues. -/
def execFence (o : FenceOps) (s : State) : Host.Outcome State Fault Refusal :=
  issue (.fence o) (useFenceOps o) (fun s => if farOutstanding s o.m then .hold else .done (fenced o.m s)) s

/-- The meaning of FAR_STORE_ACKNOWLEDGED (R119): FST number `a` of the core is no longer outstanding. -/
def execFarStoreAcknowledged (s : State) : Host.Outcome State Fault Refusal :=
  let id := s.arg.a
  atCore s.arg.core (fun s => s.setCore { s.core with farStores := s.core.farStores.filter fun p => p.1 != id }) s

end Sys2Proof.Machine
end

