-- ==== Sys2Proof/Machine/Sync.lean ====
section
/-! DEFINITION. The synchronisation class: semaphores, mutexes, barriers, rendezvous, flags, counters, rings and waits
(R128-R151), with the events of remote semaphores and of watches. -/

namespace Sys2Proof.Machine

/-- The synchronisation-misuse trap (Table 7-4). -/
def syncMisuse (reason : Nat) : Eff := misuse cSync reason

/-! ### Virtual semaphores (R134-R136) -/

/-- Where a virtual semaphore number leads: a misuse reason, a local semaphore, or one of another core. -/
inductive SemPlace where
  | bad (reason : Nat)
  | here (phys : Nat)
  | there (coord : BitVec 32) (phys : Nat)
  deriving DecidableEq, Repr

/-- VALID, REMOTE, COORD and PHYS of a map entry (Table 7-5), for the focused core. -/
def mapPlace (s : State) (e : Word) : SemPlace :=
  let coord : BitVec 32 := BitVec.ofNat 32 (bitsOf e 32 32)
  if !bitOf e 31 then .bad 0x02
  else if bitOf e 30 && !(decide (coordModule coord = s.ownModule) && decide (coordCore coord = s.core.num)) then .there coord (bitsOf e 0 6)
  else .here (bitsOf e 0 6)

/-- The translation of a virtual semaphore number (R134). -/
def semPlace (s : State) (a : Word) : SemPlace :=
  if 256 ≤ a.toNat then .bad 0x01 else mapPlace s s.core.sync.map[Fin.ofNat 256 a.toNat]

/-- A request on its way to the owning file (R135). -/
def sendRequest (coord : BitVec 32) (r : SemReq) (s : State) : State := sendToFile .remoteSemRequest coord r s

/-- A semaphore instruction of a remote semaphore: the request goes out and the stream waits for the answer (R135). -/
def remoteSem (coord : BitVec 32) (phys : Nat) (op : SemOp) (b : Word) (d : Option SDst) (settle : Bool) (s : State) : Eff :=
  if !s.isMember (coordModule coord) then syncMisuse 0x0D
  else
    let r : SemReq := { from_ := s.ownCoord, sec := s.turn, id := 2 * s.tick, phys := phys, op := op, b := b }
    suspend (.remote { owner := coord, req := r, issued := s.now, acked := false, refusedAt := none, withdraw := false, park := false } d) settle (sendRequest coord r s)

/-- What an operation other than SEMWAIT does to a value v with second operand b: the result and the new value, `none` where it
would pass 2^32 - 1 (R137). -/
def semEffect (op : SemOp) (v : Nat) (b : Word) : Option (Word × Option Nat) :=
  let n := bitsOf b 0 32
  match op with
  | .sig => if v + n < 2 ^ 32 then some (0, some (v + n)) else none
  | .try_ => some (if n ≤ v then (1, some (v - n)) else (0, none))
  | .add =>
    let t : Int := (v : Int) + signed 32 n
    some (if 0 ≤ t ∧ t < 2 ^ 32 then (BitVec.ofNat 64 v, some t.toNat) else (BitVec.ofNat 64 (v + 2 ^ 63), none))
  | .cas => some (BitVec.ofNat 64 v, if v = n then some (bitsOf b 32 32) else none)
  | .read => some (BitVec.ofNat 64 v, none)
  | .wait => some (0, none)
  | .withdraw => some (0, none)

/-- A value operation performed at the file of the focused core, with the grants that follow (R137, R138). -/
def performSem (op : SemOp) (p : Nat) (b : Word) (s : State) : Option (Word × State) :=
  match semEffect op (semAt s p).val.toNat b with
  | none => none
  | some (r, none) => some (r, s)
  | some (r, some v) => some (r, putSemValue p v s)

/-- An operation of Table 6-6 that is a release. -/
def semReleases : SemOp → Bool
  | .sig => true
  | .add => true
  | .cas => true
  | _ => false

/-- A semaphore instruction of class k at scope c that does not wait at a local semaphore. The number is checked before a release waits (R132, R134). -/
def semInstr (op : SemOp) (c : Scope) (k : Fin 16) (a b : Word) (d : Option SDst) (settle : Bool) (s : State) : Eff :=
  let held := semReleases op && releaseWaits k c s
  match semPlace s a with
  | .bad r => syncMisuse r
  | .there coord p => if held then .hold else remoteSem coord p op b d settle s
  | .here p =>
    if held then .hold
    else match performSem op p b s with
    | none => syncMisuse 0x03
    | some (v, s1) => match d with
      | some d => .done (wrD d v 10 s1)
      | none => .done s1

/-- The meaning of SEMSIG (R137). -/
def execSemsig (o : YABsk) (s : State) : Host.Outcome State Fault Refusal :=
  issue (.semsig o) (useYABsk o) (fun s => semInstr .sig o.c o.k (rdS s o.a) (rdS s o.b) none o.s s) s

/-- A semaphore that a SEMWAIT for n units finds takes them, or queues (R137, R138). -/
def semAdmits (x : Semaphore) (n : Nat) : Bool := decide (n = 0) || (x.fifo.isEmpty && decide (n ≤ x.val.toNat))

/-- The meaning of SEMWAIT (R137, R138). -/
def execSemwait (o : YABsk) (s : State) : Host.Outcome State Fault Refusal :=
  issue (.semwait o) (useYABsk o) (fun s =>
    let n := bitsOf (rdS s o.b) 0 32
    match semPlace s (rdS s o.a) with
    | .bad r => syncMisuse r
    | .there coord p => remoteSem coord p .wait (rdS s o.b) none o.s s
    | .here p =>
      let x := semAt s p
      if semAdmits x n then .done (setSem s p { x with val := x.val - BitVec.ofNat 32 n })
      else suspend (.sem p n) o.s (setSem s p { x with fifo := x.fifo ++ [{ coord := s.ownCoord, sec := s.turn, n := n, remote := none }] })) s

/-- The meaning of SEMTRY (R137). -/
def execSemtry (o : YDABsk) (s : State) : Host.Outcome State Fault Refusal :=
  issue (.semtry o) (useYDABsk o) (fun s => semInstr .try_ o.c o.k (rdS s o.a) (rdS s o.b) (some o.d) o.s s) s

/-- The meaning of SEMADD (R137). -/
def execSemadd (o : YDABsk) (s : State) : Host.Outcome State Fault Refusal :=
  issue (.semadd o) (useYDABsk o) (fun s => semInstr .add o.c o.k (rdS s o.a) (rdS s o.b) (some o.d) o.s s) s

/-- The meaning of SEMCAS (R137). -/
def execSemcas (o : YDABsk) (s : State) : Host.Outcome State Fault Refusal :=
  issue (.semcas o) (useYDABsk o) (fun s => semInstr .cas o.c o.k (rdS s o.a) (rdS s o.b) (some o.d) o.s s) s

/-- The meaning of SEMRD (R137). -/
def execSemrd (o : YDAsk) (s : State) : Host.Outcome State Fault Refusal :=
  issue (.semrd o) (useYDAsk o) (fun s => semInstr .read o.c o.k (rdS s o.a) 0 (some o.d) o.s s) s

/-! ### Remote semaphores: the owning file and the answers (R135, R136) -/

/-- The remote waiters that a file holds, at most 256 (R135). -/
def remoteWaiters (s : State) : Nat := (s.core.sync.sems.toList.map fun x => (x.fifo.filter fun w => w.remote.isSome).length).sum

/-- A request performed, queued or refused at the owning file. -/
def serveRequest (r : SemReq) (s : State) : State :=
  let reply (a : SemAnswer) (s : State) : State := sendAnswer r.from_ r.sec r.id a s
  match r.op with
  | .wait =>
    let n := bitsOf r.b 0 32
    let x := semAt s r.phys
    if semAdmits x n then reply (.result 0) (setSem s r.phys { x with val := x.val - BitVec.ofNat 32 n })
    else if 256 ≤ remoteWaiters s then reply .refused s
    else reply .acknowledged (setSem s r.phys { x with fifo := x.fifo ++ [{ coord := r.from_, sec := r.sec, n := n, remote := some r.id }] })
  | op =>
    match performSem op r.phys r.b s with
    | none => reply .overflow s
    | some (v, s1) => reply (.result v) s1

/-- The meaning of REMOTE_SEM_REQUEST (R135): the request `data` performs at the file of the core. -/
def execRemoteSemRequest (s : State) : Host.Outcome State Fault Refusal :=
  match s.arg.data with
  | .sem r => atCore s.arg.core (serveRequest r) s
  | _ => .fault .malformedEvent

/-- The trap of reason 0x0D, with the acknowledged bit (Table 19-2). -/
def noAnswerRec (acked : Bool) : TrapRec := mkTrap cSync (0x0D + bit acked * 2 ^ 24) 0

/-- A stream that a PREEMPT or HALT asked to park parks when the answer it awaited has come (R136, R379). -/
def parkAnswered (park : Bool) (t : Sec) (s : State) : State :=
  if park && (s.str t).parked.isNone then s.onStr t fun st => st.parkAt none st.pc else s

/-- A remote operation ends in a trap at its word; on a stopped core, which takes no trap, it ends with no more (R374). -/
def endRemote (t : Sec) (r : TrapRec) (s : State) : State :=
  if s.core.stop then s.onStr t fun st => { st with waiting := none } else endWait t r s

/-- An answer arrives at the waiting stream, or at the engine or forager whose signal was lost (R135-R137). An answer to a request no longer awaited is discarded, and one that refuses a request whose
withdrawal was asked for takes it out of the stream. -/
def takeAnswer (t : Sec) (id : Nat) (a : SemAnswer) (s : State) : State :=
  if id % 2 = 1 then (if a ≠ .overflow then s else if t = .mat then lostLegSignal id s else lostSignal id s)
  else match remoteOf s t with
  | none => s
  | some (r, d) =>
    if r.req.id ≠ id then s
    else match a with
      | .result v => parkAnswered r.park t (resume t (d.map fun x => (x, v)) s)
      | .acknowledged => setRemote t { r with acked := true } d s
      | .refused =>
        if r.withdraw then parkAnswered r.park t (s.onStr t fun st => { st with waiting := none })
        else setRemote t { r with refusedAt := some s.now } d s
      | .withdrawn => parkAnswered r.park t (s.onStr t fun st => { st with waiting := none })
      | .overflow => endRemote t (mkTrap cSync 0x03 0) s

/-- The meaning of REMOTE_SEM_ANSWER (R135): answer `data` to request `a` of the core's stream. -/
def execRemoteSemAnswer (s : State) : Host.Outcome State Fault Refusal :=
  let t := s.arg.sec
  let id := s.arg.a
  match s.arg.data with
  | .answer x => atCore s.arg.core (takeAnswer t id x) s
  | _ => .fault .malformedEvent

/-- The meaning of REMOTE_SEM_RESEND (R135): a refused request is sent again. -/
def execRemoteSemResend (s : State) : Host.Outcome State Fault Refusal :=
  let t := s.arg.sec
  atCore s.arg.core (fun s =>
    match remoteOf s t with
    | some (r, d) => if r.refusedAt.isSome then sendRequest r.owner r.req (setRemote t { r with refusedAt := none } d s) else s
    | none => s) s

/-- The meaning of REMOTE_SEM_TIMEOUT (R135): no answer came, and the stream takes reason 0x0D. After a withdrawal request bit [24]
is clear (R136). -/
def execRemoteSemTimeout (s : State) : Host.Outcome State Fault Refusal :=
  let t := s.arg.sec
  atCore s.arg.core (fun s =>
    match remoteOf s t with
    | some (r, _) => endRemote t (noAnswerRec (r.acked && !r.withdraw)) s
    | none => s) s

/-- A queued SEMWAIT is removed at the owner and answered "withdrawn"; one already granted has been answered (R136). -/
def serveWithdrawal (r : SemReq) (s : State) : State :=
  let x := semAt s r.phys
  let mine (w : SemWaiter) : Bool := decide (w.coord = r.from_) && decide (w.sec = r.sec) && decide (w.remote = some r.id)
  if x.fifo.any mine then sendAnswer r.from_ r.sec r.id .withdrawn (setSem s r.phys { x with fifo := x.fifo.filter fun w => !mine w })
  else s

/-- The meaning of REMOTE_WITHDRAWAL (R136): request `data` is withdrawn at the file of the core. -/
def execRemoteWithdrawal (s : State) : Host.Outcome State Fault Refusal :=
  match s.arg.data with
  | .sem r => atCore s.arg.core (serveWithdrawal r) s
  | _ => .fault .malformedEvent

/-! ### Mutexes (R139) -/

/-- The meaning of MTXLOCK (R139). -/
def execMtxlock (o : YAsk) (s : State) : Host.Outcome State Fault Refusal :=
  issue (.mtxlock o) (useYAsk o) (fun s =>
    let m := (rdS s o.a).toNat
    if 16 ≤ m then syncMisuse 0x04
    else
      let x := mutexAt s m
      if x.owner = some s.turn then syncMisuse 0x06
      else if x.owner = none then .done (setMutex m { x with owner := some s.turn } s)
      else suspend (.mutex m) o.s (setMutex m { x with fifo := x.fifo ++ [s.turn] } s)) s

/-- The meaning of MTXTRY (R139). -/
def execMtxtry (o : YDAsk) (s : State) : Host.Outcome State Fault Refusal :=
  issue (.mtxtry o) (useYDAsk o) (fun s =>
    let m := (rdS s o.a).toNat
    if 16 ≤ m then syncMisuse 0x04
    else
      let x := mutexAt s m
      if x.owner = some s.turn then syncMisuse 0x06
      else if x.owner = none then .done (wrD o.d 1 10 (setMutex m { x with owner := some s.turn } s))
      else .done (wrD o.d 0 10 s)) s

/-- The meaning of MTXFREE (R139). -/
def execMtxfree (o : YAsk) (s : State) : Host.Outcome State Fault Refusal :=
  issue (.mtxfree o) (useYAsk o) (fun s =>
    let m := (rdS s o.a).toNat
    if 16 ≤ m then syncMisuse 0x04
    else if (mutexAt s m).owner ≠ some s.turn then syncMisuse 0x05
    else if releaseWaits o.k o.c s then .hold
    else .done (freeMutex m s)) s

/-! ### Barriers (R140, R141) -/

/-- The meaning of BARARR (R141). Of a barrier with TARGET 0 and a weight out of range the trap names the target, as Table 7-4 numbers the reasons (log entry 41). -/
def execBararr (o : YDABsk) (s : State) : Host.Outcome State Fault Refusal :=
  issue (.bararr o) (useYDABsk o) (fun s =>
    let b := (rdS s o.a).toNat
    let w := (rdS s o.b).toNat
    if 8 ≤ b then syncMisuse 0x04
    else
      let x := barrierAt s b
      if x.target = 0 then syncMisuse 0x07
      else if w = 0 ∨ 255 < w then syncMisuse 0x08
      else if releaseWaits o.k o.c s then .hold
      else
        let total := x.arrived.toNat + w
        let done := total / x.target.toNat
        let y := { x with arrived := BitVec.ofNat 8 (total % x.target.toNat), phase := x.phase + BitVec.ofNat 8 done }
        let s1 := wrD o.d (x.phase.setWidth 64) 10 (setBarrier b y s)
        .done (if 0 < done then wakeBarrier b s1 else s1)) s

/-- The meaning of BARWAIT (R141). -/
def execBarwait (o : YDABsk) (s : State) : Host.Outcome State Fault Refusal :=
  issue (.barwait o) (useYDABsk o) (fun s =>
    let b := (rdS s o.a).toNat
    if 8 ≤ b then syncMisuse 0x04
    else
      let x := barrierAt s b
      if x.target = 0 then syncMisuse 0x07
      else if x.phase.toNat ≠ bitsOf (rdS s o.b) 0 8 then .done (wrD o.d (x.phase.setWidth 64) 1 s)
      else suspend (.barrier b o.d) o.s s) s

/-- The meaning of BART_WRITE (R140): barrier `a` of the core gets TARGET `b`. -/
def execBartWrite (s : State) : Host.Outcome State Fault Refusal :=
  let b := s.arg.a % 8
  let t := s.arg.b
  atCore s.arg.core (writeBart b t) s

/-! ### Rendezvous (R142) -/

/-- The meaning of RDV (R142): the stream arrives and waits for the other three; a rendezvous pending from before a trap is not
entered again. An RDV issued elsewhere while one is pending is taken for the pending one (DESIGN CHOICE, log entry 58). -/
def execRdv (o : Bare) (s : State) : Host.Outcome State Fault Refusal :=
  issue (.rdv o) (useBare o) (fun s =>
    let g := s.core.sync.rdvGen
    match s.cur.rdvPending with
    | some g0 =>
      let s1 := s.setCur { s.cur with rdvPending := none }
      if g0 ≠ g then .done s1 else suspend (.rdv g0) o.s s1
    | none =>
      let s1 := s.setSync { s.core.sync with rdvArrived := s.core.sync.rdvArrived.set s.turn true }
      let s2 := releaseRdv s1
      if s2.core.sync.rdvGen ≠ g then .done s2 else suspend (.rdv g) o.s s1) s

/-! ### Event flags and counters (R143-R145) -/

/-- The meaning of EVSET (R143). -/
def execEvset (o : YAk) (s : State) : Host.Outcome State Fault Refusal :=
  issue (.evset o) (useYAk o) (fun s =>
    let e := (rdS s o.a).toNat
    if 32 ≤ e then syncMisuse 0x04 else .done (raiseFlag e s)) s

/-- The meaning of EVCLR (R143). -/
def execEvclr (o : YA) (s : State) : Host.Outcome State Fault Refusal :=
  issue (.evclr o) (useYA o) (fun s =>
    let e := (rdS s o.a).toNat
    if 32 ≤ e then syncMisuse 0x04 else .done (setFlag e false s)) s

/-- The meaning of EVWAIT (R143). -/
def execEvwait (o : YABk) (s : State) : Host.Outcome State Fault Refusal :=
  issue (.evwait o) (useYABk o) (fun s =>
    let e := (rdS s o.a).toNat
    let consume := bitOf (rdS s o.b) 0
    if 32 ≤ e then syncMisuse 0x04
    else if flagSet s e then .done (if consume then setFlag e false s else s)
    else suspend (.flag e consume) o.s s) s

/-- The trap record of a matrix fault (Table 19-2). -/
def matrixRec (f : MatFault) : TrapRec := mkTrap cEngine (f.code.toNat + 2 ^ 8 + f.seq.toNat * 2 ^ 16) 0

/-- Taking a matrix fault clears PEND and MORE (R238). -/
def clearMflt (s : State) : State := s.setCore { s.core with mat := { s.core.mat with mflt := { s.core.mat.mflt with pend := false, more := 0 } } }

/-- An engine fault that the stream holds is taken first (R145, R155, R238): the record leaves the stream with the trap. -/
def takeFault (s : State) (otherwise : Eff) : Eff :=
  if s.turn = .mat then
    if s.core.mat.mflt.pend then .trapIn (clearMflt s) (matrixRec s.core.mat.mflt) else otherwise
  else match s.cur.faults with
    | r :: rest => .trapIn (s.setCur { s.cur with faults := rest }) r
    | [] => otherwise

/-- The meaning of WAITLT (R145). -/
def execWaitlt (o : YAB) (s : State) : Host.Outcome State Fault Refusal :=
  issue (.waitlt o) (useYAB o) (fun s => takeFault s (
    let c := (rdS s o.a).toNat
    let t := (rdS s o.b).toNat
    if 32 ≤ c then syncMisuse 0x04
    else if t = 0 then syncMisuse 0x09
    else if counterAt s c < t ∨ 100 < t then .done s
    else suspend (.counter c t) o.s s)) s

/-! ### Rings (R146-R148) -/

/-- The checks of a ring instruction of class k (R147), then its effect on the block at `a` with count n. Bits [63:22] of the address are ignored, and a block
in a poisoned or uncorrectable line raises no trap (DESIGN CHOICE, log entry 57). -/
def ringInstr (k : Fin 16) (a b : Word) (f : Nat → Ring → Nat → State → Eff) (s : State) : Eff :=
  let p := bitsOf a 0 22
  if bitsOf a 0 6 ≠ 0 then misaligned p
  else if !s.cur.priv && touchesSr s.core p 64 then forbidden p
  else match readRing (s.setCore (s.viewed k)) p with
    | none => syncMisuse 0x0A
    | some r => if b.toNat = 0 ∨ r.size < b.toNat then syncMisuse 0x0B else f p r b.toNat (sawScratch k p 64 s)

/-- The meaning of CLAIM (R148). -/
def execClaim (o : YDABk) (s : State) : Host.Outcome State Fault Refusal :=
  issue (.claim o) (useYDABk o) (fun s => ringInstr o.k (rdS s o.a) (rdS s o.b) (fun p r n s =>
    if n ≤ r.size - r.used then .done (wrD o.d (r.addr r.claimed) 12 (putRingCounter o.k p 8 (r.claimed + n) s))
    else .done (wrD o.d allOnes 12 s)) s) s

/-- The meaning of COMMIT (R148). -/
def execCommit (o : YDABk) (s : State) : Host.Outcome State Fault Refusal :=
  issue (.commit o) (useYDABk o) (fun s => ringInstr o.k (rdS s o.a) (rdS s o.b) (fun p r n s =>
    if r.pend < n then syncMisuse 0x0B
    else .done (wakeRing p (wrD o.d (BitVec.ofNat 64 (r.occ + n)) 12 (putRingCounter o.k p 12 (r.committed + n) s)))) s) s

/-- The meaning of AWAIT (R148). -/
def execAwait (o : YDABk) (s : State) : Host.Outcome State Fault Refusal :=
  issue (.await o) (useYDABk o) (fun s => ringInstr o.k (rdS s o.a) (rdS s o.b) (fun p r n s =>
    if n ≤ r.occ then .done (wrD o.d (r.addr r.retired) 1 s) else suspend (.ring p n o.d) o.s s) s) s

/-- The meaning of RETIRE (R148). -/
def execRetire (o : YDABk) (s : State) : Host.Outcome State Fault Refusal :=
  issue (.retire o) (useYDABk o) (fun s => ringInstr o.k (rdS s o.a) (rdS s o.b) (fun p r n s =>
    if r.occ < n then syncMisuse 0x0B
    else .done (wrD o.d (BitVec.ofNat 64 (r.occ - n)) 12 (putRingCounter o.k p 16 (r.retired + n) s))) s) s

/-! ### Waits on time and on addresses (R149-R151) -/

/-- The meaning of SLEEPU (R149). -/
def execSleepu (o : YA) (s : State) : Host.Outcome State Fault Refusal :=
  issue (.sleepu o) (useYA o) (fun s =>
    let a := (rdS s o.a).toNat
    if a ≤ s.now then .done s else suspend (.sleep a) o.s s) s

/-- The meaning of SLEEP_WAKE (R149): the core's stream has reached its cycle. -/
def execSleepWake (s : State) : Host.Outcome State Fault Refusal :=
  let t := s.arg.sec
  atCore s.arg.core (fun s => match waitsOn s t with
    | some (.sleep c) => if c ≤ s.now then resume t none s else s
    | _ => s) s

/-- The word that a watch of stream t reads in class k0 (R115); a word that cannot be read is a free value. -/
def watchRead (s : State) (t : Sec) (spad : Bool) (a : Nat) : Word :=
  if spad then BitVec.ofNat 64 (spadReadNum (s.setCore (s.viewedBy t 0)) a 8)
  else if memRangeBad s a 8 then Config.freeWord s.tick a
  else BitVec.ofNat 64 (farRead s 0 a 8)

/-- A watched word has been read: the read is counted (R395), and what it found stays so. -/
def sawWatched (t : Sec) (spad : Bool) (a : Nat) (s : State) : State := if spad then sawBy t 0 a 8 s else sawFar 0 a 8 (countPhysical a 8 s)

/-- A write to the cell of a watched word has come (Table 7-11): scratchpad, host, stage and bulk give notice, seen here by the word that has changed. Pool
memory gives none, and of another module's the notice is an event from there (log entry 6). -/
def watchNotice (s : State) (t : Sec) (spad : Bool) (a : Nat) (old : Word) (poll : Option Nat) : Bool :=
  (poll.isNone || (match tierOf s a with
    | some .stage => !memRangeBad s a 8
    | some .bulk => !memRangeBad s a 8
    | _ => false)) && decide (watchRead s t spad a ≠ old)

/-- The watch begins: it completes at once when the word differs, else it waits for the timeout of WATCHT (R150, R151). -/
def beginWatch (spad : Bool) (a : Nat) (poll : Bool) (old : Word) (d : SDst) (settle : Bool) (s : State) : Eff :=
  let v := watchRead s s.turn spad a
  let s := sawWatched s.turn spad a s
  if v ≠ old then .done (wrD d v 1 s)
  else
    let due := if s.cur.watcht = 0 then none else some (s.now + s.cur.watcht.toNat)
    suspend (.watch spad a old d due (if poll then some (s.now + 1024) else none)) settle s

/-- The meaning of WAITA (R150). -/
def execWaita (o : YDAB) (s : State) : Host.Outcome State Fault Refusal :=
  issue (.waita o) (useYDAB o) (fun s =>
    let a := rdS s o.a
    let old := rdS s o.b
    if bitOf a 63 then
      let p := bitsOf a 0 22
      if bitsOf a 22 41 ≠ 0 then syncMisuse 0x0C
      else if p % 8 ≠ 0 then misaligned p
      else if !s.cur.priv && touchesSr s.core p 8 then forbidden p
      else beginWatch true p false old o.d o.s s
    else if s.turn ≠ .ctl then syncMisuse 0x0C
    else if a.toNat % 8 ≠ 0 then misaligned a.toNat
    else if accessHeld s (streamAccess s false) a.toNat 8 then .hold
    else match farCheck s a.toNat 8 false with
      | (s1, .error r) => .trapIn s1 r
      | (s1, .ok x) => beginWatch false x.pa (decide (x.tier ≠ .host)) old o.d o.s s1) s

/-- A watched word is read again; the wait completes when it differs (R150), or in any case at the timeout. -/
def watchAgain (t : Sec) (timeout : Bool) (s : State) : State :=
  match waitsOn s t with
  | some (.watch spad a old d due poll) =>
    let v := watchRead s t spad a
    let s := sawWatched t spad a s
    if timeout || decide (v ≠ old) then resume t (some (d, v)) s
    else s.onStr t fun st => { st with waiting := st.waiting.map fun w => { w with on := .watch spad a old d due (poll.map fun _ => s.now + 1024) } }
  | _ => s

/-- The meaning of WATCH_EVENT (R150): a write to the watched cell, or a snoop, makes the core's stream read again. -/
def execWatchEvent (s : State) : Host.Outcome State Fault Refusal :=
  let t := s.arg.sec
  atCore s.arg.core (watchAgain t false) s

/-- The meaning of WATCH_POLL (R150): the periodic read of a watched global word. -/
def execWatchPoll (s : State) : Host.Outcome State Fault Refusal :=
  let t := s.arg.sec
  atCore s.arg.core (watchAgain t false) s

/-- The meaning of WATCH_TIMEOUT (R151): one last read completes the wait. -/
def execWatchTimeout (s : State) : Host.Outcome State Fault Refusal :=
  let t := s.arg.sec
  atCore s.arg.core (watchAgain t true) s

end Sys2Proof.Machine
end

