-- ==== Sys2Proof/Machine/Copy.lean ====
section
/-! DEFINITION. The copy class as instructions: building a command (R161, R162, R166), issuing one (R163, R196), frames (R172-R175), and
status and waiting (R182, R191-R195). -/

namespace Sys2Proof.Machine

/-! ### Building the command (R161, R162) -/

/-- A command register written with latency bound b. -/
def putCw (i : Fin 16) (v : Word) (b : Nat) (s : State) : State :=
  let r := s.cur.clk + b
  let s1 := s.setEngine { s.core.copy with cw := s.core.copy.cw.set i { val := v, ready := r } }
  s1.setCur (s1.cur.landAt r)

/-- The meaning of CSET (R161). -/
def execCset (o : KRA) (s : State) : Host.Outcome State Fault Refusal :=
  issue (.cset o) (useKRA o) (fun s => .done (putCw o.r (rdS s o.a) 2 s)) s

/-- The meaning of CSETI (R161). -/
def execCseti (o : KRI) (s : State) : Host.Outcome State Fault Refusal :=
  issue (.cseti o) (useKRI o) (fun s => .done (putCw o.r (o.i.signExtend 64) 2 s)) s

/-- The meaning of CDIM (R161): a count of 0 wraps to 65,536 passes. -/
def execCdim (o : KDim) (s : State) : Host.Outcome State Fault Refusal :=
  issue (.cdim o) (useKDim o) (fun s =>
    let a := rdS s o.a - 1
    .done (putCw (Fin.ofNat 16 (8 + o.r.val)) (BitVec.ofNat 64 (bitsOf (rdS s o.b) 0 48 * 2 ^ 16 + bitsOf a 0 16)) 2 s)) s

/-- The command registers cwN to cw15 with the scratchpad address of each (R162). -/
def cwSlots (n : Fin 16) (a : Nat) : List (Fin 16 × Nat) :=
  ((List.finRange 16).filter fun i => decide (n ≤ i)).map fun i => (i, (a + 8 * (i.val - n.val)) % spadSize)

/-- The first fault of accesses to words: alignment, then the supervisor region (R162, R369). -/
def wordsTrap (s : State) (a : Nat) (l : List (Fin 16 × Nat)) : Option TrapRec :=
  if a % 8 ≠ 0 then some (mkTrap cAlignment 0 a)
  else match l.find? fun p => !s.cur.priv && touchesSr s.core p.2 8 with
    | some p => some (mkTrap cPrivilege 0 p.2)
    | none => none

/-- The meaning of CLDC (R162): its loads are of class k0 (R115). -/
def execCldc (o : KRA) (s : State) : Host.Outcome State Fault Refusal :=
  issue (.cldc o) (useKRA o) (fun s =>
    let a := bitsOf (rdS s o.a) 0 22
    let l := cwSlots o.r a
    match wordsTrap s a l with
    | some r => .trap r
    | none =>
      match l.find? fun p => spadPoisoned s.core p.2 with
      | some p => loadFails p.2 (mkTrap cPoison (bit (spadIsBad s.core p.2)) (p.2 / 64 * 64)) s
      | none =>
        let c := s.viewed 0
        .done (l.foldl (fun t p => sawScratch 0 p.2 8 (putCw p.1 (BitVec.ofNat 64 (spadNum c p.2 8)) 12 t)) s)) s

/-- The meaning of CSTC (R162): its stores are of class k0, and tags stay as they were (R34). -/
def execCstc (o : KRA) (s : State) : Host.Outcome State Fault Refusal :=
  issue (.cstc o) (useKRA o) (fun s =>
    let a := bitsOf (rdS s o.a) 0 22
    let l := cwSlots o.r a
    match wordsTrap s a l with
    | some r => .trap r
    | none =>
      if s.cur.mode && !(l.all fun p => decide ((s.core.copy.cw[p.1]).ready ≤ s.cur.clk)) then .hold
      else
        let w := captureCw s
        .done (l.foldl (fun t p => storeKeep 0 p.2 (bytesOfNum 8 (w[p.1]).toNat) t) s)) s

/-- The meaning of CFOLLOW (R166): cw14 and FOLLOW of cw0 in one operation. -/
def execCfollow (o : AP) (s : State) : Host.Outcome State Fault Refusal :=
  issue (.cfollow o) (useAP o) (fun s =>
    .done (putCw 0 ((s.core.copy.cw[0]).val ||| BitVec.ofNat 64 (2 ^ 24)) 2 (putCw 14 (rdS s o.a) 2 s))) s

/-! ### Issuing commands (R163, R196) -/

/-- The meaning of COPY (R163, R164). -/
def execCopy (o : DP) (s : State) : Host.Outcome State Fault Refusal := issue (.copy o) (useDP o) (issueCmd .copy o.d) s

/-- The meaning of CFILL (R163, R165). -/
def execCfill (o : DP) (s : State) : Host.Outcome State Fault Refusal := issue (.cfill o) (useDP o) (issueCmd .cfill o.d) s

/-- The meaning of GATHER (R178, R196). -/
def execGather (o : DP) (s : State) : Host.Outcome State Fault Refusal := issue (.gather o) (useDP o) (issueCmd .gather o.d) s

/-- The meaning of SCATTER (R178, R196). -/
def execScatter (o : DP) (s : State) : Host.Outcome State Fault Refusal := issue (.scatter o) (useDP o) (issueCmd .scatter o.d) s

/-- The meaning of KVLIST (R183, R196). -/
def execKvlist (o : DP) (s : State) : Host.Outcome State Fault Refusal := issue (.kvlist o) (useDP o) (issueCmd .kvlist o.d) s

/-- The meaning of TTILE (R189, R196). -/
def execTtile (o : DP) (s : State) : Host.Outcome State Fault Refusal := issue (.ttile o) (useDP o) (issueCmd .ttile o.d) s

/-! ### Frames (R172-R175) -/

/-- Two ranges of z bytes overlap. -/
def overlaps (a b z : Nat) : Bool := decide (a < b + z) && decide (b < a + z)

/-- FRMAP refuses a value (R174). -/
def frameRefused (v : Word) : Bool :=
  let z := frmSize v
  decide (bitsOf v 36 28 ≠ 0) || decide (bitsOf v 5 3 ≠ 0)
    || (frmValid v && (decide (spadSize < frmVb v + z)
        || (frmShen v && (decide (spadSize < frmSb v + z) || overlaps (frmVb v) (frmSb v) z))))

/-- The first address of [b, b + z) inside the supervisor region. -/
def firstInSr (c : CoreState) (b : Nat) : Nat := max b (srLow c)

/-- The meaning of FRMAP (R174). A value that is both refusable and touches the supervisor region is refused, with no trap (DESIGN CHOICE, log entry 59). -/
def execFrmap (o : DABP) (s : State) : Host.Outcome State Fault Refusal :=
  issue (.frmap o) (useDABP o) (fun s =>
    let f : Fin 16 := Fin.ofNat 16 (bitsOf (rdS s o.a) 0 4)
    let v := rdS s o.b
    if frameRefused v then .done (wrD o.d allOnes 8 s)
    else if !s.cur.priv && frmValid v && touchesSr s.core (frmVb v) (frmSize v) then forbidden (firstInSr s.core (frmVb v))
    else if !s.cur.priv && frmValid v && frmShen v && touchesSr s.core (frmSb v) (frmSize v) then forbidden (firstInSr s.core (frmSb v))
    else
      let c := spoilFrame s.core f
      .done (wrD o.d c.frames[f] 8 (s.setCore { c with frames := c.frames.set f (if frmValid v then v else 0) }))) s

/-- The meaning of PUBLISH (R175): the copy stream's own accesses have performed when it issues. -/
def execPublish (o : AP) (s : State) : Host.Outcome State Fault Refusal :=
  issue (.publish o) (useAP o) (fun s => .done (publishFrame (Fin.ofNat 16 (bitsOf (rdS s o.a) 0 4)) s)) s

/-! ### Status, resumption and waiting (R182, R191-R195) -/

/-- The status word of a command (Table 9-11). -/
def statusWord (c : Cmd) (isDone : Bool) : Word :=
  BitVec.ofNat 64 (2 ^ 63 + bit isDone * 2 ^ 62 + bit c.late * 2 ^ 61 + bit c.susp * 2 ^ 60 + (match c.bitmap with
    | some i => i.val
    | none => 0) * 2 ^ 56 + c.fault % 256 * 2 ^ 48 + min c.poison 0xFFFF * 2 ^ 32 + min c.first 0xFFFF * 2 ^ 16 + c.seq.toNat)

/-- The sequence number in a word. -/
def seqOf (a : Word) : BitVec 16 := BitVec.ofNat 16 (bitsOf a 0 16)

/-- The meaning of CSTAT (R191): a number that has no record returns SEQ alone. -/
def execCstat (o : DAP) (s : State) : Host.Outcome State Fault Refusal :=
  issue (.cstat o) (useDAP o) (fun s =>
    let q := seqOf (rdS s o.a)
    .done (wrD o.d (match recordCmd s q with
      | some c => statusWord c (liveCmd s q).isNone
      | none => q.setWidth 64) 8 s)) s

/-- The meaning of CBMAP (R182). -/
def execCbmap (o : DABP) (s : State) : Host.Outcome State Fault Refusal :=
  issue (.cbmap o) (useDABP o) (fun s =>
    let b := s.core.copy.bitmaps[Fin.ofNat 16 (bitsOf (rdS s o.a) 0 4)]
    .done (wrD o.d (BitVec.ofNat 64 (bitsOf b (64 * bitsOf (rdS s o.b) 0 6) 64)) 8 s)) s

/-- A suspended command loses its mark, its record kept. -/
def unsuspend (q : BitVec 16) (s : State) : State :=
  s.setEngine { s.core.copy with records := s.core.copy.records.map fun c => if c.seq = q ∧ c.susp then { c with susp := false } else c }

/-- The meaning of CRESUME (R193): a new command over the items whose bits are clear. -/
def execCresume (o : DAP) (s : State) : Host.Outcome State Fault Refusal :=
  issue (.cresume o) (useDAP o) (fun s =>
    if maxCmds ≤ s.core.copy.queue.length then .hold
    else match suspCmd s (seqOf (rdS s o.a)) with
      | none => .done (wrD o.d allOnes 16 s)
      | some c =>
        let d := { newCmd c.kind c.cw s with bitmap := c.bitmap, ringCount := c.ringCount }
        let s1 := unsuspend c.seq s
        let s2 := match c.bitmap with
          | some i => setOwner i (.running d.seq) s1
          | none => s1
        .done (wrD o.d (d.seq.setWidth 64) 16 (enterCmd d false s2))) s

/-- A started command issues no further run or item (Table 9-13): requests in flight land, except that one cancelled before its promise
discards what is held. -/
def cancelStarted (c : Cmd) (s : State) : State :=
  let d := if c.waits s.now then
      { c with cancelled := true, todo := [], skipped := [], held := [], heldItems := [], delayed := [], delayedItems := [], phase := .landed }
    else if c.kind.listed then { c with cancelled := true, todo := [], skipped := [], phase := if c.delayed.isEmpty then .landed else c.phase }
    else { c with cancelled := true }
  thaw (recordFault c.seq 0x0C 0 (setCmd d s))

/-- The meaning of CCANCEL (R194). -/
def execCcancel (o : DAP) (s : State) : Host.Outcome State Fault Refusal :=
  issue (.ccancel o) (useDAP o) (fun s =>
    let q := seqOf (rdS s o.a)
    match liveCmd s q with
    | some c =>
      match c.phase with
      | .queued => .done (wrD o.d 1 8 (recordFault q 0x0C 0 (setCmd { c with cancelled := true } s)))
      | .landed => .done (wrD o.d 2 8 (recordFault q 0x0C 0 s))
      | _ => .done (wrD o.d 2 8 (cancelStarted c s))
    | none =>
      match suspCmd s q with
      | some c =>
        let s1 := s.setEngine { s.core.copy with records := s.core.copy.records.filter fun d => !(d.seq == q && d.susp) }
        .done (wrD o.d 3 8 (match c.bitmap with
          | some i => setOwner i .free s1
          | none => s1))
      | none => .done (wrD o.d 0 8 s)) s

/-- The meaning of CWAIT (R195). -/
def execCwait (o : AP) (s : State) : Host.Outcome State Fault Refusal :=
  issue (.cwait o) (useAP o) (fun s => takeFault s (
    let q := seqOf (rdS s o.a)
    if (liveCmd s q).isNone then .done s else suspend (.command q.toNat) o.s s)) s

end Sys2Proof.Machine
end

