-- ==== Sys2Proof/Machine/Tile.lean ====
section
/-! DEFINITION. Tensor handles: TDEF (R187), and the tile that a TTILE moves (R188, R189). -/

namespace Sys2Proof.Machine

/-! ### Handles -/

/-- The layout unit's handles, at most this many (R187). -/
def maxHandles : Nat := 16384

/-- A defined handle. -/
def handleAt (s : State) (h : Nat) : Option Handle := (s.handles.find? fun p => decide (p.1 = h)).map (·.2)

/-- The handles with one set or removed. -/
def putHandle (l : List (Nat × Handle)) (h : Nat) (v : Option Handle) : List (Nat × Handle) :=
  let r := l.filter fun p => p.1 != h
  match v with
  | some x => (h, x) :: r
  | none => r

/-- Cells of a row of a plain tensor: ⌈W w / 512⌉ (Table 9-8). -/
def rowCells (f cols : Nat) : Nat := (cols * fmtWidth f + 511) / 512

/-- Cells of a patch (R41, R42). -/
def patchCells (f : Nat) : Nat := if fmtWidth f = 4 then 80 else 144

/-- Data cells of a patch. -/
def patchData (f : Nat) : Nat := if fmtWidth f = 4 then 64 else 128

/-- Bytes that a tensor needs (Table 9-8, code 4). -/
def tensorBytes (f rows cols : Nat) : Nat :=
  if groupedF f then (rows + 63) / 64 * ((cols + 127) / 128) * (patchCells f * 64) else rows * (64 * rowCells f cols)

/-- The formats that a handle admits (Table 9-7). -/
def handleFormat (f : Nat) : Bool := (fmtOfF f).isSome

/-- A TTILE of the module that names the handle has been issued and has not completed (Table 9-8, code 2). -/
def handleBusy (s : State) (h : Nat) : Bool :=
  (s.core :: s.others).any fun c => c.copy.queue.any fun d => decide (d.kind = .ttile) && decide (d.get 7 50 14 = h)

/-- The pages of an extent, when each is a described stage page that the job may write (Table 9-8, code 5): the 64 KiB unit of each and whether it is
poison-on-access. -/
def extentPages (s : State) (base size : Nat) : State × Option (List (Nat × Bool)) :=
  match translateAll (jobAccess s true) (base + size) (granules base size) s with
  | (t, .ok l) => (t, if l.all fun p => p.2.desc && decide (p.2.tier = .stage) then some (l.map fun p => (localOf p.2.pa / 2 ^ 16, p.2.pac)) else none)
  | (t, .error _) => (t, none)

/-- The walks for the extent that a descriptor names meet a bank that is blocked (R403). -/
def extentHeld (s : State) (b : Nat) : Bool :=
  let v := s.viewed 0
  !s.tiers.blocked.isEmpty && (granules (spadNum v b 8) (spadNum v (b + 8) 8)).any (walkHeld s (jobAccess s true))

/-- The descriptor of Table 9-7 at a scratchpad address: its result code, in the order of Table 9-8, and the handles afterwards. -/
def defineHandle (s : State) (h : Nat) (b : Nat) : State × Nat :=
  let v := s.viewed 0
  let s := sawScratch 0 b 64 s
  let num (o n : Nat) : Nat := spadNum v (b + o) n
  let base := num 0 8
  let size := num 8 8
  let rows := num 0x10 4
  let cols := num 0x14 4
  let f := num 0x18 1
  let flags := num 0x19 1
  if maxHandles ≤ h then (s, 1)
  else if handleBusy s h then (s, 2)
  else if flags / 2 ≠ 0 ∨ num 0x1A 2 ≠ 0 ∨ num 0x20 32 ≠ 0 ∨ !handleFormat f ∨ rows = 0 ∨ 2 ^ 24 < rows ∨ cols = 0 ∨ 2 ^ 24 < cols
      ∨ size % 2 ^ 16 ≠ 0 ∨ base % 2 ^ 16 ≠ 0 then (s, 3)
  else if size < tensorBytes f rows cols then (s, 4)
  else match extentPages s base size with
    | (t, none) => (t, 5)
    | (t, some us) =>
      let old := handleAt t h
      if (match old with
          | some x => decide (x.asid ≠ t.core.asid)
          | none => false) then (t, 6)
      else
        let v : Option Handle := if flags % 2 = 0 then none
          else some { base := base, size := size, rows := rows, cols := cols, fmt := BitVec.ofNat 8 f, pad := BitVec.ofNat 32 (num 0x1C 4)
                      asid := t.core.asid, units := us.map (·.1), pacUnits := (us.filter (·.2)).map (·.1), moved := false, cells := [] }
        ({ t with handles := putHandle t.handles h v }, 0)

/-- The meaning of TDEF (R187): alignment, then the supervisor region, then poison, then the result code. -/
def execTdef (o : DABP) (s : State) : Host.Outcome State Fault Refusal :=
  issue (.tdef o) (useDABP o) (fun s =>
    let b := bitsOf (rdS s o.b) 0 22
    if maxCmds ≤ s.core.copy.queue.length then .hold
    else if b % 64 ≠ 0 then misaligned b
    else match loadTrap s b 64 with
      | some r => loadFails b r s
      | none =>
        if extentHeld s b then .hold
        else match defineHandle s (rdS s o.a).toNat b with
        | (t, code) => .done (wrD o.d (BitVec.ofNat 64 code) 1024 t)) s

/-! ### Tiles (R188, R189) -/

/-- An association list with one key's value set, keys ascending. -/
def cellPut : List (Nat × CellData) → Nat → CellData → List (Nat × CellData)
  | [], k, v => [(k, v)]
  | (a, w) :: rest, k, v =>
    if k < a then (k, v) :: (a, w) :: rest
    else if k = a then (k, v) :: rest
    else (a, w) :: cellPut rest k v

/-- The stored cell of a handle; one never stored is a free value (R187). -/
def Handle.cell (tick : Nat) (h : Handle) (k : Nat) : CellData :=
  match h.cells.find? fun p => decide (p.1 = k) with
  | some p => p.2
  | none => { bytes := Config.freeCell tick (h.base + 64 * k), tag := Config.freeTag tick (h.base + 64 * k) }

/-- Elements of w bits in a cell, element i given by f. -/
def cellOf (w : Nat) (f : Nat → Nat) : BitVec 512 :=
  BitVec.ofNat 512 (((List.range (512 / w)).map fun i => f i % 2 ^ w * 2 ^ (w * i)).sum)

/-- A cell with the elements from `n` on replaced by the pad code. -/
def padCell (w : Nat) (pad : BitVec 32) (n : Nat) (d : BitVec 512) : BitVec 512 :=
  cellOf w fun i => if i < n then bitsOf d (w * i) w else pad.toNat

/-- A cell of a tile: where it is stored, and how many of its elements are real. -/
structure TileCell where
  key : Option Nat
  real : Nat
  /-- A scale cell: the numbers of its rows and groups that serve real positions. -/
  scale : Option (Nat × Nat)
  deriving DecidableEq, Repr

/-- Cell j of row r of a plain tensor. -/
def plainCell (h : Handle) (r j : Nat) : TileCell :=
  let f := h.fmt.toNat
  let epc := 512 / fmtWidth f
  if h.rows ≤ r ∨ h.cols ≤ j * epc then { key := none, real := 0, scale := none }
  else { key := some (r * rowCells f h.cols + j), real := min epc (h.cols - j * epc), scale := none }

/-- Cell q of patch (b, j) of a grouped tensor (R41-R44). -/
def patchCell (h : Handle) (b j q : Nat) : TileCell :=
  let f := h.fmt.toNat
  let w := fmtWidth f
  let nb := (h.rows + 63) / 64
  let nj := (h.cols + 127) / 128
  let inside : Bool := decide (b < nb) && decide (j < nj)
  let key := (b * nj + j) * patchCells f + q
  if patchData f ≤ q then
    let r0 := 64 * b + 4 * (q - patchData f)
    { key := if inside then some key else none, real := 0
      scale := some (if inside then min 4 (h.rows - r0) else 0, if inside then min 16 ((h.cols - 128 * j + 7) / 8) else 0) }
  else
    let r := 64 * b + (if w = 4 then q else q / 2)
    let c0 := 128 * j + (if w = 4 then 0 else 64 * (q % 2))
    let epc := 512 / w
    if !inside || decide (h.rows ≤ r) || decide (h.cols ≤ c0) then { key := none, real := 0, scale := none }
    else { key := some key, real := min epc (h.cols - c0), scale := none }

/-- The atom of the part's memory that keeps a half of a stored cell of a handle: where in the extent is the layout unit's own matter (R187), but it stays
there. -/
def Handle.atom (h : Handle) (k i : Nat) : Nat :=
  let j := Config.tileAtom (h.units.headD 0) (2 * k + i) % (h.units.length * 2048)
  (h.units[j / 2048]?).getD 0 * 2048 + j % 2048

/-- A half of a stored cell of a handle cannot be read: its atom is uncorrectable, which a move has left behind (R398), or its page is poison-on-access
(R190). -/
def Handle.halfBad (s : State) (h : Handle) (k i : Nat) : Bool :=
  let u := h.atom k i
  h.pacUnits.contains (u / 2048) || (!h.moved && (s.memBad.contains u || s.memLost.contains u))

/-- A stored cell of a handle cannot be read (R190). -/
def Handle.cellBad (s : State) (h : Handle) (k : Nat) : Bool := h.halfBad s k 0 || h.halfBad s k 1

/-- A cell's bytes with free values in place of a half that cannot be read (R190). -/
def Handle.found (s : State) (h : Handle) (k : Nat) (d : BitVec 512) : BitVec 512 :=
  let free := (Config.freeCell s.tick (h.base + 64 * k)).toNat
  let half (i : Nat) : Nat := bitsOf (BitVec.ofNat 512 (if h.halfBad s k i then free else d.toNat)) (256 * i) 256
  BitVec.ofNat 512 (half 0 + 2 ^ 256 * half 1)

/-- A tile cell cannot be read. -/
def TileCell.bad (s : State) (h : Handle) (t : TileCell) : Bool :=
  match t.key with
  | some k => h.cellBad s k
  | none => false

/-- The read of a half of a handle's cell counted, and reported where it is uncorrectable (R190, R395). -/
def countHalf (h : Handle) (k i : Nat) (s : State) : State :=
  let u := h.atom k i
  if !h.moved && (s.memBad.contains u || s.memLost.contains u) then { countBad s .stage with unitReports := (s.ownModule * 2 ^ 47 + u) :: s.unitReports }
  else if Config.corrected s.tick u then countCorrected s .stage else s

/-- The reads of a handle's cells counted, unit by unit. -/
def countTile (h : Handle) (l : List TileCell) (s : State) : State :=
  l.foldl (fun s t => match t.key with
    | some k => countHalf h k 1 (countHalf h k 0 s)
    | none => s) s

/-- A tile cell as an engine finds it: its data, with free bytes where a half cannot be read. -/
def TileCell.found (s : State) (h : Handle) (t : TileCell) (d : CellData) : CellData :=
  match t.key with
  | some k => { d with bytes := h.found s k d.bytes }
  | none => d

/-- What a tile cell reads as (R44, R189). -/
def TileCell.read (tick : Nat) (h : Handle) (t : TileCell) : CellData :=
  let f := h.fmt.toNat
  let w := fmtWidth f
  match t.scale with
  | some (rows, groups) =>
    let d := match t.key with
      | some k => h.cell tick k
      | none => { bytes := 0, tag := 0x000F }
    { bytes := cellOf 8 fun i => if i / 16 < rows ∧ i % 16 < groups then bitsOf d.bytes (8 * i) 8 else 0x60
      tag := if rows = 0 ∨ groups = 0 then 0x000F else d.tag }
  | none =>
    match t.key with
    | none => { bytes := cellOf w fun _ => h.pad.toNat, tag := 0x7F00 + BitVec.ofNat 16 f }
    | some k =>
      let d := h.cell tick k
      { d with bytes := padCell w h.pad t.real d.bytes }

/-- The tile's cells in the order in which its rows or patches lie, as (run, cells of the run). -/
def tileRuns (h : Handle) (c : Cmd) : List (Nat × List TileCell) :=
  let row0 := c.get 7 24 24
  let col0 := c.get 7 0 24
  let nr := c.get 15 32 16 + 1
  let nc := c.get 15 16 16 + 1
  let f := h.fmt.toNat
  if groupedF f then
    [(0, ((List.range (nr / 64)).map fun b => ((List.range (nc / 128)).map fun j =>
      (List.range (patchCells f)).map fun q => patchCell h (row0 / 64 + b) (col0 / 128 + j) q).flatten).flatten)]
  else
    let w := fmtWidth f
    (List.range nr).map fun r => (r, (List.range (nc * w / 512)).map fun j => plainCell h (row0 + r) (col0 * w / 512 + j))

/-- A fault of a transfer, kept if it is the first. -/
def Xfer.fail (x : Xfer) (code at_ : Nat) : Xfer := if x.fault.isSome then x else { x with fault := some (code, at_) }

/-- A transfer with its writes named by run or item `k` of the command that makes it. -/
def Xfer.named (k : Nat) (x : Xfer) : Xfer :=
  { x with who := match x.who with
      | .command n q _ => .command n q k
      | w => w }

/-- DIR 0: one run of the tile written to the destination. -/
def tileOutRun (h : Handle) (c : Cmd) (dst : CopyAddr) (x : Xfer) (r : Nat × List TileCell) : Xfer :=
  let ta : Int := dst.field + (r.1 : Int) * c.tstr 0
  let n := 64 * r.2.length
  let x := x.named r.1
  if x.fault.isSome then x.spoilRun dst ta n 0
  else match resolveEnd dst ta n true x.s with
    | (s1, .error e) => (({ x with s := s1 }).fail e.code r.1).spoilRun dst ta n 0
    | (s1, .ok de) =>
      let ds := r.2.map fun t => (t.found s1 h (t.read s1.tick h), t.bad s1 h)
      let y := { x with s := countTile h r.2 s1 }
      if ta.toNat % 64 = 0 then
        ((List.range ds.length).zip ds).foldl (fun x p => x.chunk de (64 * p.1) (bytesOfNum 64 p.2.1.bytes.toNat) (some p.2.1.tag) p.2.2) y
      else
        let bs := (ds.map fun d => (bytesOfNum 64 d.1.bytes.toNat).map fun b => { val := b, bad := d.2 : ReadByte }).flatten
        (chunks ta.toNat n).foldl (fun x p =>
          let l := (bs.drop p.1).take p.2
          x.chunk de p.1 (l.map (·.val)) none (l.any (·.bad))) y

/-- A cell of a handle set, where the handle is defined: its atoms, written whole, are correct again (R397). -/
def setHandleCell (s : State) (h k : Nat) (d : CellData) : State :=
  let clean (l : List Nat) : List Nat := match handleAt s h with
    | some x => if x.moved then l else l.filter fun u => u != x.atom k 0 && u != x.atom k 1
    | none => l
  { s with handles := s.handles.map fun p => if p.1 = h then (p.1, { p.2 with cells := cellPut p.2.cells k d }) else p
           memBad := clean s.memBad, memLost := clean s.memLost }

/-- DIR 1: one source cell stored; one with F = 0xFF moves as it is (R190). After a fault the remaining cells are poisoned, and each counts (R155, R191). -/
def tileInCell (hn : Nat) (h : Handle) (run i : Nat) (src : Option Endpoint) (aligned : Bool) (x : Xfer) (t : TileCell) : Xfer :=
  match t.key with
  | none => x
  | some k =>
    let poisoned (x : Xfer) : Xfer := { x with s := setHandleCell x.s hn k { h.cell x.s.tick k with tag := poisonTag }, poison := x.poison + 1 }
    match src with
    | none => poisoned x
    | some e =>
      if x.fault.isSome then poisoned x
      else
        let bs := e.bytes x.s (64 * i) 64
        let tg := e.tag x.s (64 * i)
        let tag := if aligned then tg.1 else Config.freeTag x.s.tick i
        let d : CellData := { bytes := BitVec.ofNat 512 (numOfBytes (bs.map (·.val))), tag := tag }
        if bs.any (·.bad) || tg.2 then { x with s := setHandleCell x.s hn k { d with tag := poisonTag }, poison := x.poison + 1 }
        else
          let f := tagF tag
          let good := match t.scale with
            | some _ => decide (f = 0x0F)
            | none => decide (f / 16 = h.fmt.toNat / 16)
          if good || decide (f = 0xFF) then { x with s := setHandleCell x.s hn k d } else poisoned (x.fail 0x06 run)

/-- DIR 1: one run of the tile read from the source. -/
def tileInRun (hn : Nat) (h : Handle) (c : Cmd) (src : CopyAddr) (x : Xfer) (r : Nat × List TileCell) : Xfer :=
  let fa : Int := src.field + (r.1 : Int) * c.fstr 0
  let n := 64 * r.2.length
  let cells (e : Option Endpoint) (x : Xfer) : Xfer :=
    ((List.range r.2.length).zip r.2).foldl (fun x p => tileInCell hn h r.1 p.1 e (decide (fa.toNat % 64 = 0)) x p.2) x
  if x.fault.isSome then cells none x
  else match resolveEnd src fa n false x.s with
    | (s1, .error e) => cells none (({ x with s := s1 }).fail e.code r.1)
    | (s1, .ok se) => cells (some se) { x with s := se.account n s1 }

/-- The bytes of an extent become free values when the layout unit stores into it: their arrangement is its own (R187). -/
def scrambleExtent (h : Handle) (s : State) : State :=
  let units := if h.moved then [] else h.units
  { s with mem := units.foldl (fun m u => memPutOwn m (u * 2 ^ 16) ((List.range (2 ^ 16)).map fun i => Config.freeByte s.tick (u * 2 ^ 16 + i))) s.mem
           memTags := units.foldl (fun m u => (List.range (2 ^ 10)).foldl (fun m i => sparsePut 0 m (u * 2 ^ 10 + i) (Config.freeTag s.tick (u * 2 ^ 16 + 64 * i))) m) s.memTags }

/-- The destination of a DIR 0 TTILE as runs: the displacement and bytes of each, by the format that the handle had at the start (R189). -/
def tileSpans (c : Cmd) : List (Int × Nat) :=
  let nr := c.get 15 32 16 + 1
  let nc := c.get 15 16 16 + 1
  if groupedF c.fmt then [(0, nr / 64 * (nc / 128) * (patchCells c.fmt * 64))]
  else (List.range nr).map fun (r : Nat) => ((r : Int) * c.tstr 0, nc * fmtWidth c.fmt / 8)

/-- The transfer of a TTILE (R189). A handle invalidated meanwhile is fault 0x0A, and every destination cell of the tile is poisoned (R155). -/
def tileXfer (c : Cmd) (x : Xfer) : Xfer :=
  let hn := c.get 7 50 14
  match handleAt x.s hn, copyAddr (if c.toStage then c.cw[1] else c.cw[2]) with
  | some h, some k =>
    if c.toStage then
      let y := (tileRuns h c).foldl (tileInRun hn h c k) x
      { y with s := scrambleExtent h y.s }
    else (tileRuns h c).foldl (tileOutRun h c k) x
  | none, some k =>
    let y := x.fail 0x0A 0
    if c.toStage then y
    else (tileSpans c).foldl (fun x r => x.spoilRun k (k.field + r.1) r.2 0) y
  | _, none => x.fail 0x02 0

/-- The checks of a TTILE at start (R188, R189): 0x01 and 0x0A. -/
def tileStart (s : State) (c : Cmd) : Option Nat :=
  let row0 := c.get 7 24 24
  let col0 := c.get 7 0 24
  let nr := c.get 15 32 16 + 1
  let nc := c.get 15 16 16 + 1
  if c.get 7 48 2 ≠ 0 ∨ c.get 15 48 16 ≠ 0 ∨ c.get 15 1 15 ≠ 0 ∨ c.conv ≠ 0 ∨ c.count 0 ≠ 1 ∨ (if c.toStage then c.tstr 0 else c.fstr 0) ≠ 0 then some 0x01
  else match handleAt s (c.get 7 50 14) with
    | none => some 0x0A
    | some h =>
      let f := h.fmt.toNat
      let w := fmtWidth f
      if h.asid ≠ s.core.asid ∨ h.rows ≤ row0 ∨ h.cols ≤ col0 then some 0x0A
      else if groupedF f then (if row0 % 64 ≠ 0 ∨ nr % 64 ≠ 0 ∨ col0 % 128 ≠ 0 ∨ nc % 128 ≠ 0 then some 0x01 else none)
      else if col0 * w % 512 ≠ 0 ∨ nc * w % 512 ≠ 0 then some 0x01
      else none

end Sys2Proof.Machine
end

