-- ==== Sys2Proof/Machine/CopyRun.lean ====
section
/-! DEFINITION. The events of the copy engine: start (R153, R155), arrival and landing (R169, R170), the items of a list (R178-R186),
completion (R154), and writes that arrive from another core (R159). -/

namespace Sys2Proof.Machine

/-! ### Start (R152, R153, R155) -/

/-- The list of a listed command lies aligned in the scratchpad (R177). -/
def listSpan (c : Cmd) : Nat × Nat :=
  match c.kind with
  | .kvlist => (c.get 5 0 22, 16)
  | _ => (c.get 5 0 22, if c.get 5 26 2 = 0 then 2 else 4)

/-- Item i of a list as read (R177, R183). -/
def readItem (s : State) (c : Cmd) (i : Nat) : ListItem :=
  match c.kind with
  | .kvlist =>
    let a := c.get 5 0 22 + 16 * i
    { idx := i, x := spadReadNum s a 8, doff := spadReadNum s (a + 8) 4, len := spadReadNum s (a + 12) 4 }
  | _ => { idx := i, x := listIndex s c i, doff := 0, len := c.len }

/-- The items still to do: those whose bits are clear (R181, R193). -/
def openItems (s : State) (c : Cmd) : List ListItem :=
  ((List.range c.items).filter fun i => match c.bitmap with
    | some b => !(s.core.copy.bitmaps[b]).getLsbD i
    | none => false).map fun i => readItem s c i

/-- Source and destination address fields of an item before the Field of its kind (R178). -/
def itemFrom (c : Cmd) (i : ListItem) : Int :=
  match c.kind with
  | .gather => i.x * (c.get 5 40 24 : Int)
  | _ => (i.idx : Int) * c.fstr 0
/-- The destination side. -/
def itemTo (c : Cmd) (i : ListItem) : Int :=
  match c.kind with
  | .gather => (i.idx : Int) * c.tstr 0
  | .kvlist => i.doff
  | _ => i.x * (c.get 5 40 24 : Int)

/-- The bits of cw8-cw13 that a kind leaves to be zero (R178). -/
def dimsFault (c : Cmd) : Bool :=
  let d0 := match c.kind with
    | .gather => c.get 8 0 40
    | _ => c.get 8 0 16 + c.get 8 40 24
  decide (d0 ≠ 0) || [9, 10, 11, 12, 13].any fun i => decide (c.cw[Fin.ofNat 16 i] ≠ 0)

/-- The source of a KVLIST item: global virtual memory or the core's scratchpad (R183). -/
def itemSource (i : ListItem) : Option CopyAddr :=
  match copyAddr (BitVec.ofInt 64 i.x) with
  | some (.virt a) => some (.virt a)
  | some (.spad a) => some (.spad a)
  | _ => none

/-- A converting run of n bytes from fa to ta does not lie on cells (R164). -/
def runMisaligned (c : Cmd) (fa ta : Int) (n : Nat) : Bool :=
  decide (fa % 64 ≠ 0) || decide (ta % 64 ≠ 0) || decide (n % 64 ≠ 0) || decide (c.destLen n % 64 ≠ 0)

/-- A converting command some run of which does not lie on cells (R164, R178, R183): for a nest, its first run or a stride; for a list, an item that
moves bytes. -/
def convMisaligned (s : State) (c : Cmd) : Bool :=
  let f : Int := match copyAddr c.cw[1] with
    | some a => (a.field : Int)
    | none => 0
  let t : Int := match copyAddr c.cw[2] with
    | some a => (a.field : Int)
    | none => 0
  match c.kind with
  | .copy => runMisaligned c f t c.len || (List.finRange 6).any fun d => decide (c.count d ≠ 1) && (decide (c.fstr d % 64 ≠ 0) || decide (c.tstr d % 64 ≠ 0))
  | .kvlist => (openItems s c).any fun i => match itemSource i with
    | some a => decide (i.len ≠ 0) && decide (i.len ≤ 1048576) && runMisaligned c a.field (t + itemTo c i) i.len
    | none => false
  | .gather => (openItems s c).any fun i => runMisaligned c (f + itemFrom c i) (t + itemTo c i) c.len
  | .scatter => (openItems s c).any fun i => runMisaligned c (f + itemFrom c i) (t + itemTo c i) c.len
  | .ttile => false
  | .cfill => false

/-- Fault 0x01 at start that the registers alone show (Tables 8-1, 8-3, 8-4, 9-1, 9-4). -/
def malformed (c : Cmd) : Bool :=
  decide (c.get 0 40 24 ≠ 0) || decide (c.get 0 4 6 ≠ 0) || decide (c.conv = 3) || decide (c.satm = 3) || decide (c.get 3 24 8 ≠ 0)
    || ((decide (c.conv = 1) || decide (c.kind = .cfill)) && !assignedF (tagF c.tag))
    || (decide (c.kind = .cfill) && decide (c.conv ≠ 0))
    || (c.kind.listed && (decide (c.get 5 22 3 ≠ 0) || decide (c.get 5 26 2 = 3)
        || (if c.kind = .kvlist then decide (c.get 5 40 24 ≠ 0) || decide (c.get 5 26 2 ≠ 0) || decide (c.get 7 22 33 ≠ 0) else c.tol || dimsFault c)))
    || (decide (c.conv = 2) && decide (c.kind ≠ .ttile) && ((convFormat c.srcf).isNone || (convFormat c.dstf).isNone))

/-- The source and destination address words that a kind uses. -/
def usedAddrs (c : Cmd) : List (Word × Bool) :=
  match c.kind with
  | .cfill => [(c.cw[2], true)]
  | .kvlist => [(c.cw[2], true)]
  | .ttile => if c.toStage then [(c.cw[1], false)] else [(c.cw[2], true)]
  | _ => [(c.cw[1], false), (c.cw[2], true)]

/-- The faults of addresses at start (R159). -/
def addrFault (s : State) (c : Cmd) : Option Nat :=
  (usedAddrs c).findSome? fun p => match copyAddr p.1 with
    | none => some 0x02
    | some a => a.startFault s p.2

/-- The faults of the list itself (R177, R178). -/
def listFault (s : State) (c : Cmd) : Option Nat :=
  if !c.kind.listed then none
  else
    let a := (listSpan c).1
    let n := (listSpan c).2 * c.items
    if a % (listSpan c).2 ≠ 0 ∨ spadSize < a + n then some 0x02
    else if touchesSr s.core a n then some 0x03
    else if (List.range (n / 64 + 2)).any (fun i => decide (a / 64 * 64 + 64 * i < a + n) && spadPoisoned s.core (a / 64 * 64 + 64 * i)) then some 0x07
    else none

/-- The checks that need no data (R155, Table 8-1), the first that fails; the alignment of a converting list is checked when the list can be read. -/
def startFault (s : State) (c : Cmd) : Option Nat :=
  if malformed c then some 0x01
  else match addrFault s c with
    | some f => some f
    | none =>
      match (if c.kind = .ttile then tileStart s c else none) with
      | some f => some f
      | none =>
        if c.timed && decide (524288 < destBytes s c) then some 0x08
        else match listFault s c with
          | some f => some f
          | none => if decide (c.conv = 2) && convMisaligned s c then some 0x01 else none

/-- The next command to start: the first that is queued. -/
def nextQueued (s : State) : Option Cmd := s.core.copy.queue.find? fun c => decide (c.phase = .queued)

/-- The next command may start: the core is not frozen and its WAIT flags are set (R152, R153). -/
def canStart (s : State) : Option Cmd :=
  match nextQueued s with
  | some c => if s.core.copy.frozenSince.isNone && decide (s.core.sync.flags &&& BitVec.ofNat 32 (c.get 4 0 32) = BitVec.ofNat 32 (c.get 4 0 32)) then some c else none
  | none => none

/-- A command starts. One cancelled or faulted at its issue, or that fails a check, writes nothing (R155). -/
def startCmd (s : State) : State :=
  match canStart s with
  | none => s
  | some c =>
    if c.cancelled ∨ c.fault ≠ 0 then setCmd { c with phase := .landed } s
    else match startFault s c with
      | some k =>
        recordFault c.seq k 0 (setCmd { c with phase := .landed } s)
      | none =>
        let d := { c with phase := .fetching, arrive := s.now + Config.fetchLatency s.tick, todo := if c.kind.listed then openItems s c else []
                          fmt := match handleAt s (c.get 7 50 14) with
                            | some h => h.fmt.toNat
                            | none => 0 }
        { setCmd d s with tick := s.tick + 1 }

/-- The meaning of COMMAND_START (R153): the next command of the core's engine starts. -/
def execCommandStart (s : State) : Host.Outcome State Fault Refusal := atCore s.arg.core startCmd s

/-! ### The items of a list (R180, R184-R186) -/

/-- The landed ring's slot of a finished KVLIST item, and its signal (R185). With an LSEM map entry that is not valid the items are performed and each one
records 0x09; an odd ring address is written as it is, and a ring past the end of the scratchpad runs on at its start (DESIGN CHOICE, log entry 60). -/
def landedSlot (q : BitVec 16) (item : Nat) (s : State) : State :=
  match liveCmd s q with
  | none => s
  | some c =>
    if c.kind ≠ .kvlist then s
    else
      let a := (c.get 7 0 22 + 2 * (c.ringCount % 4096)) % spadSize
      let s1 := if touchesSr s.core a 2 then recordFault q 0x03 item s
        else s.setCore (spadPutBytes s.core a (bytesOfNum 2 item))
      let s2 := onCmd q (fun d => { d with ringCount := d.ringCount + 1 }) s1
      if !bitOf c.cw[7] 55 then s2
      else match c.lsem with
        | none => recordFault q 0x09 item s2
        | some e => match signalEntry (engineId q item) e s2 with
          | (true, t) => t
          | (false, t) => recordFault q 0x09 item t

/-- An item has finished: its bit is set, and its slot written (R180, R185). -/
def finishItem (q : BitVec 16) (item : Nat) (s : State) : State :=
  match liveCmd s q with
  | none => s
  | some c => landedSlot q item (setBits c [item] s)

/-- An item whose last write to another module has been acknowledged finishes (R178, R185). -/
def finishAwaited (q : BitVec 16) (item : Nat) (s : State) : State :=
  match liveCmd s q with
  | none => s
  | some c => if c.unackedItems.contains item then finishItem q item (setCmd { c with unackedItems := c.unackedItems.filter (· != item) } s) else s

/-- The item has been performed: it finishes now, at the command's promise, or when its writes to another module are acknowledged (R169, R178, R185). -/
def settleItem (q : BitVec 16) (item : Nat) (s : State) : State :=
  match liveCmd s q with
  | none => s
  | some c =>
    if !c.delayed.isEmpty then setCmd { c with delayedItems := c.delayedItems ++ [item] } s
    else if c.waits s.now then setCmd { c with heldItems := c.heldItems ++ [item] } s
    else if s.awaits (.command s.core.num q item) then setCmd { c with unackedItems := c.unackedItems ++ [item] } s
    else finishItem q item s

/-- Cells that waited for room go on: into the landing buffer as far as it has room, or, from the promise on, to their places; the items whose
cells are among them are settled with the last cell (R169). -/
def drainDelayed (q : BitVec 16) (s : State) : State :=
  match liveCmd s q with
  | none => s
  | some c =>
    let p := if c.waits s.now then admitted s c.delayed else ([], [])
    let s1 := if c.waits s.now then s else s.setCore (c.delayed.foldl applyHeld s.core)
    let s2 := setCmd { c with held := c.held ++ p.1, delayed := p.2, delayedItems := if p.2.isEmpty then [] else c.delayedItems } s1
    if p.2.isEmpty then c.delayedItems.foldl (fun t k => settleItem q k t) s2 else s2

/-- A page request appended to the ring that PGRQ names, or dropped (R186). -/
def pageRequest (q : BitVec 16) (item va : Nat) (s : State) : State :=
  let e := s.core.copy
  let a := e.pgrq.toNat * 64
  let drop : State := s.setEngine { e with pgdrp := if e.pgdrp = BitVec.allOnes 32 then e.pgdrp else e.pgdrp + 1 }
  if a = 0 then drop
  else match readRing s a with
    | none => drop
    | some r =>
      if r.size ≤ r.used then drop
      else
        let rec_ := va / 2 ^ 16 * 2 ^ 16 + q.toNat * 2 ^ 64 + item * 2 ^ 80 + s.ownCoord.toNat * 2 ^ 96
        let s1 := s.setCore (spadPutCell s.core (r.addr r.claimed).toNat { bytes := BitVec.ofNat 512 rec_, tag := 0 })
        let count (off v : Nat) (s : State) : State := s.setCore (spadPutBytes s.core (a + off) (bytesOfNum 4 v))
        wakeRing a (count 12 (r.committed + 1) (count 8 (r.claimed + 1) s1))

/-- What becomes of an item: finished or poisoned, or unwritten with its bit clear; a page request's address when it is skipped. -/
inductive ItemEnd where
  | finished
  | unwritten
  | skipped (va : Nat)
  deriving DecidableEq, Repr

/-- Poisons an item's destination from an offset on (R180). -/
def poisonItem (dst : CopyAddr) (ta : Int) (n from_ : Nat) (x : Xfer) : Xfer := x.spoilRun dst ta n from_

/-- One item of a listed command performed (R178-R180, R183, R184). -/
def runItem (c : Cmd) (i : ListItem) (x : Xfer) : Xfer × ItemEnd :=
  let x := x.named i.idx
  match copyAddr c.cw[2] with
  | none => (x.fail 0x02 i.idx, .finished)
  | some dst =>
    let ta : Int := dst.field + itemTo c i
    let n := c.destLen i.len
    let src := match c.kind with
      | .kvlist => itemSource i
      | _ => copyAddr c.cw[1]
    match src with
    | none => (poisonItem dst ta n 0 (x.fail (if c.kind = .kvlist then 0x0B else 0x02) i.idx), .finished)
    | some sa =>
      if c.kind = .kvlist ∧ 1048576 < i.len then (poisonItem dst ta n 0 (x.fail 0x0B i.idx), .finished)
      else if c.kind = .kvlist ∧ i.len = 0 then (x, .finished)
      else
        let fa : Int := sa.field + (if c.kind = .kvlist then 0 else itemFrom c i)
        let r := doRun c sa dst fa ta i.len x
        match r.fail with
        | none => (r.x, .finished)
        | some e =>
          if e.code = 0x04 then
            if c.tolerant && e.tol then (r.x, .skipped e.va) else (r.x.fail 0x04 i.idx, .unwritten)
          else (poisonItem dst ta n r.poisonFrom (r.x.fail e.code i.idx), .finished)

/-- Whether item i of command c, performed on the state, finishes. -/
def itemEnd (c : Cmd) (i : ListItem) (s : State) : ItemEnd :=
  (runItem c i { s := s, cls := 0, who := .nobody, log := [], flags := 0, poison := 0, fault := none }).2

/-- The phase after the last arrival: held until the promise, or landed (Table 8-9). -/
def arrivedPhase (s : State) (c : Cmd) : CmdPhase := if c.waits s.now then .held else .landed

/-- An item put into a list in list order. -/
def insertItem (i : ListItem) : List ListItem → List ListItem
  | [] => [i]
  | j :: rest => if i.idx < j.idx then i :: j :: rest else j :: insertItem i rest

/-- A listed command with nothing left to do goes on to its landing. -/
def endListed (q : BitVec 16) (s : State) : State :=
  match liveCmd s q with
  | none => s
  | some c =>
    if c.todo.isEmpty && c.delayed.isEmpty && decide (c.phase = .fetching) && (c.skipped.isEmpty || c.retried) then thaw (setCmd { c with phase := arrivedPhase s c } s) else s

/-- Performs item i of command q and settles what becomes of it. `retry`: a skipped item is tried once more (R184). -/
def doItem (q : BitVec 16) (i : ListItem) (retry : Bool) (s : State) : State :=
  match liveCmd s q with
  | none => s
  | some c =>
    let s0 := if c.waits s.now then s.setCore (c.held.foldl applyHeld s.core) else s
    let e := itemEnd c i s0
    let s1 := underPromise q (fun x => (runItem c i x).1) s
    match e with
    | .finished => settleItem q i.idx s1
    | .unwritten => s1
    | .skipped va =>
      if retry then s1 else pageRequest q i.idx va (onCmd q (fun d => { d with skipped := insertItem i d.skipped }) s1)

/-- The destination cells of an item: an interval of cell numbers in the destination's space. -/
def itemCells (c : Cmd) (i : ListItem) : Int × Int :=
  let a : Int := ((copyAddr c.cw[2]).map fun k => (k.field : Int)).getD 0 + itemTo c i
  (a / 64, (a + c.destLen i.len + 63) / 64)

/-- Item i may be performed before the earlier items of a list that are still to do (R179): those of a KVLIST in any order; those of a GATHER or SCATTER
where source and destination are of different kinds and no earlier one writes a cell of its own (log entry 7). -/
def mayPass (c : Cmd) (earlier : List ListItem) (i : ListItem) : Bool :=
  decide (c.kind = .kvlist)
    || (decide (bitsOf c.cw[1] 62 2 = 0) && decide (bitsOf c.cw[2] 62 2 ≠ 0)
        && earlier.all fun e => decide ((itemCells c e).2 ≤ (itemCells c i).1) || decide ((itemCells c i).2 ≤ (itemCells c e).1))

/-- The positions in a list of items at which one that may come next stands; the first always may. -/
def nextItems (c : Cmd) (l : List ListItem) : List Nat :=
  (List.range l.length).filter fun k => match l[k]? with
    | some i => mayPass c (l.take k) i
    | none => false

/-- The position of the item that the engine performs next. -/
def itemTurn (tick : Nat) (c : Cmd) : Nat :=
  match nextItems c c.todo with
  | [] => 0
  | [k] => k
  | l => (l[Config.itemOrder tick % l.length]?).getD 0

/-- An item of a listed command whose data has arrived, or cells of one that had to wait for room. -/
def listedStep (q : BitVec 16) (s : State) : State :=
  match liveCmd s q with
  | none => s
  | some c => if !c.delayed.isEmpty then endListed q (drainDelayed q s) else
    let k := itemTurn s.tick c
    match c.todo[k]? with
    | none => endListed q s
    | some i =>
      let s1 := setCmd { c with todo := c.todo.eraseIdx k, arrive := s.now + Config.fetchLatency s.tick } s
      endListed q (doItem q i false { s1 with tick := s1.tick + 1 })

/-- The meaning of LISTED_ITEM_FINISH (R180): the next item of command `a` of the core. -/
def execListedItemFinish (s : State) : Host.Outcome State Fault Refusal :=
  let q := BitVec.ofNat 16 s.arg.a
  atCore s.arg.core (listedStep q) s

/-- The meaning of TOLERANT_RETRY (R184): every skipped item of command `a` is tried once more, in list order. -/
def execTolerantRetry (s : State) : Host.Outcome State Fault Refusal :=
  let q := BitVec.ofNat 16 s.arg.a
  atCore s.arg.core (fun s =>
    match liveCmd s q with
    | none => s
    | some c =>
      if c.retried then s
      else endListed q (c.skipped.foldl (fun t i => doItem q i true t) (setCmd { c with retried := true } s))) s

/-! ### Arrival and landing (R169, R170) -/

/-- The runs of a COPY or CFILL from run k on; after a fault the later runs are poisoned (R155, R160). -/
def runLoop (c : Cmd) (src dst : CopyAddr) : Nat → Nat → Xfer → Xfer
  | 0, _, x => x
  | m + 1, k, x =>
    let fa : Int := src.field + c.runFrom k
    let ta : Int := dst.field + c.runTo k
    let n := c.destLen c.len
    let x := x.named k
    if x.fault.isSome then runLoop c src dst m (k + 1) (x.spoilRun dst ta n 0)
    else
      let r := doRun c src dst fa ta c.len x
      let y := match r.fail with
        | none => r.x
        | some e => (r.x.fail e.code k).spoilRun dst ta n r.poisonFrom
      runLoop c src dst m (k + 1) y

/-- The whole transfer of a command that follows no list. -/
def wholeXfer (c : Cmd) (x : Xfer) : Xfer :=
  match c.kind with
  | .ttile => tileXfer c x
  | _ =>
    match (if c.kind = .cfill then some (.spad 0) else copyAddr c.cw[1]), copyAddr c.cw[2] with
    | some src, some dst => runLoop c src dst c.runs 0 x
    | _, _ => x.fail 0x02 0

/-- The data of a command has arrived, or has room now: its transfer is made, out of sight before its promise. It has arrived when its last cell has. -/
def arriveCmd (q : BitVec 16) (s : State) : State :=
  match liveCmd s q with
  | none => s
  | some c =>
    if c.phase ≠ .fetching ∨ c.kind.listed then s
    else
      let s1 := if c.delayed.isEmpty then underPromise q (wholeXfer c) s else drainDelayed q s
      thaw (onCmd q (fun d => { d with phase := if d.delayed.isEmpty then arrivedPhase s c else d.phase }) s1)

/-- The data of an FLD has arrived (R104). -/
def arriveFld (id : Nat) (s : State) : State :=
  thaw (s.onStr .ctl fun st => { st with flds := st.flds.map fun f => if f.id = id then { f with arrived := true } else f })

/-- The meaning of CELL_ARRIVAL (R169): data of the core's command `a` (stream copy), or of its FLD number `a` (stream ctl). -/
def execCellArrival (s : State) : Host.Outcome State Fault Refusal :=
  let a := s.arg.a
  match s.arg.sec with
  | .copy => atCore s.arg.core (arriveCmd (BitVec.ofNat 16 a)) s
  | _ => atCore s.arg.core (arriveFld a) s

/-- A timed command whose promise has come and which holds arrived cells. -/
def Cmd.dueHeld (now : Nat) (c : Cmd) : Bool := c.timed && decide (c.promise ≤ now) && (decide (c.phase = .held) || !c.held.isEmpty || !c.heldItems.isEmpty)

/-- Writes that waited for the promise become visible, each translated now, and their items finish (R125, R169). One that its frame refuses now is a fault of
the command (log entry 52). -/
def landHeld (q : BitVec 16) (s : State) : State :=
  match liveCmd s q with
  | none => s
  | some c =>
    let s1 := s.setCore (c.held.foldl applyHeld s.core)
    let s2 := setCmd { c with held := [], heldItems := [], phase := if c.phase = .held then .landed else c.phase } s1
    let s3 := match c.held.findSome? fun w => placeRefused s.core w.place with
      | some k => recordFault q k 0 s2
      | none => s2
    c.heldItems.foldl (fun t k => finishItem q k t) s3

/-- The promises that have come: arrived cells become visible; when all are, missing ones freeze the core, or are late where FRZL is 0 (R169, R170). -/
def promisesDue (s : State) : State :=
  match s.core.copy.queue.filter fun c => c.dueHeld s.now with
  | [] =>
    if missingNow s && s.core.copy.frozenSince.isNone then
      if s.core.copy.frzl = 0 then markLate s
      else
        let e := s.core.copy
        s.setEngine { e with frozenSince := some s.now, frzc := if e.frzc = BitVec.allOnes 32 then e.frzc else e.frzc + 1 }
    else s
  | l => l.foldl (fun t c => landHeld c.seq t) s

/-- The meaning of PROMISE_DUE (R170). -/
def execPromiseDue (s : State) : Host.Outcome State Fault Refusal := atCore s.arg.core promisesDue s

/-- The meaning of FREEZE_LIMIT (R170): the core resumes, and what is still missing is late. -/
def execFreezeLimit (s : State) : Host.Outcome State Fault Refusal :=
  atCore s.arg.core (fun s => if s.core.copy.frozenSince.isSome then markLate s else s) s

/-- The slots that wait for an FLD filled with its value. -/
def fillBank (id : Nat) (v : Word) (clk : Nat) (b : Bank) : Bank :=
  let f (x : Slot) : Slot := if x.fld = some id then { val := v, ready := clk, fld := none } else x
  { b with q := b.q.map f, regs := b.regs.map f }

/-- An FLD lands (R104): its slot is readable; an uncorrectable unit lands zero and the poison trap follows at the next
boundary, with the program counter of the FLD (log entry 21). -/
def landFld (id : Nat) (s : State) : State :=
  match s.core.streams.ctl.flds.find? fun f => decide (f.id = id) with
  | none => s
  | some f =>
    s.onStr .ctl fun st =>
      { st with job := fillBank id f.val st.clk st.job, sup := fillBank id f.val st.clk st.sup
                flds := st.flds.filter fun g => g.id != id
                deferred := if f.bad then st.deferred ++ [{ record := mkTrap cPoison 1 (f.va / 64 * 64), pc := some f.pc }] else st.deferred }

/-- Entry i of a stream's results in flight lands: its flags are set (R48), and the trap of a load stands at the next boundary with the load's
program counter (R257, log entry 24). -/
def landResult (i : Nat) (t : Sec) (s : State) : State :=
  match (s.str t).landing[i]? with
  | none => s
  | some l => s.onStr t fun st => { st with ncs := st.ncs.accrue l.flags, landing := st.landing.eraseIdx i, deferred := st.deferred ++ l.setAside.toList }

/-- The meaning of RESULT_LAND (R64, R104, R257): the result of FLD number `a` of the core's ctl stream, or entry `a` of another stream's
results in flight. -/
def execResultLand (s : State) : Host.Outcome State Fault Refusal :=
  let a := s.arg.a
  let t := s.arg.sec
  atCore s.arg.core (fun s => if t = .ctl then landFld a s else landResult a t s) s

/-! ### Completion (R154) -/

/-- The next step of R154 for command q: the publication of its frame, or, for the oldest command, its completion. -/
def completeStep (q : BitVec 16) (s : State) : State :=
  match liveCmd s q with
  | none => s
  | some c =>
    if !performedAll s c then s
    else if c.puben && !c.published then publishFrame c.pubfrm (setCmd { c with published := true } s)
    else if c.follow && decide (c.fault = 0) && !c.followed then s
    else match s.core.copy.queue with
      | d :: _ => if d.seq = q then completeHead s else s
      | [] => s

/-- The meaning of COMMAND_COMPLETE (R154): the next completion step of command `a` of the core. -/
def execCommandComplete (s : State) : Host.Outcome State Fault Refusal :=
  let q := BitVec.ofNat 16 s.arg.a
  atCore s.arg.core (completeStep q) s

/-! ### Incoming writes (R159) -/

/-- A command's bytes [off, off + n) from an address lie in a bank that is blocked (R403). -/
def virtHeld (s : State) (k : Option CopyAddr) (off : Int) (n : Nat) (write : Bool) : Bool :=
  match k with
  | some (.virt a) =>
    let va := ((a : Int) + off).toNat
    (granules va n).any (walkHeld s (jobAccess s write)) || match (translateAll (jobAccess s write) (va + n) (granules va n) s).2 with
      | .ok l => l.any fun p => bankHeld s p.2.pa (min n (2 ^ 16))
      | .error _ => false
  | _ => false

/-- What a command does next reads or writes a bank that is blocked: it waits (R403). A TTILE waits for any bank of its tensor. -/
def cmdBanked (s : State) (c : Cmd) : Bool :=
  let src := copyAddr c.cw[1]
  let dst := copyAddr c.cw[2]
  !s.tiers.blocked.isEmpty && (match c.kind with
    | .ttile => (handleAt s (c.get 7 50 14)).any fun h => h.units.any fun u => bankHeld s (s.ownModule * 2 ^ 52 + u * 2 ^ 16) (2 ^ 16)
    | .copy => (List.range c.runs).any fun k => virtHeld s src (c.runFrom k) c.len false || virtHeld s dst (c.runTo k) (c.destLen c.len) true
    | .cfill => (List.range c.runs).any fun k => virtHeld s dst (c.runTo k) c.len true
    | _ => c.todo.any fun i => virtHeld s (if c.kind = .kvlist then itemSource i else src) (if c.kind = .kvlist then 0 else itemFrom c i) i.len false
        || virtHeld s dst (itemTo c i) (c.destLen i.len) true)

/-- Why a frame of the core in focus refuses a write (R159, R369): 0x02 where it is not valid or too small, 0x03 where the write would touch the supervisor
region. -/
def frameRefuses (w : RemoteWrite) (s : State) : Option Nat :=
  let f := s.core.frames[w.frame]
  let n := max 1 w.bytes.length
  if !frmValid f || decide (frmSize f < w.off + n) then some 0x02
  else if touchesSr s.core (frameBase f true + w.off) n then some 0x03
  else none

/-- A write into a frame performed at its core. -/
def incoming (w : RemoteWrite) (s : State) : State :=
  let a := frameBase s.core.frames[w.frame] true + w.off
  let c := spadPutBytes s.core a w.bytes
  s.setCore (if w.poison then applyHeld c (.poison none a) else match w.tag with
    | some t => applyHeld c (.tag none a t)
    | none => c)

/-- The outcome of a write told to who waits for it: a command of the module records a refusal, and a sender in another module is answered
(R118, R119, R154, R159). -/
def answerWrite (m : Nat) (who : Requester) (code : Nat) (s : State) : State :=
  if m ≠ s.ownModule then s.send m (.acked who code)
  else match who with
    | .command n q item => if code = 0 then s else onCore n (recordFault q code item) s
    | _ => s

/-- The meaning of INCOMING_WRITE (R159): write `data` performs at its core, or is refused, and its sender learns of it. -/
def execIncomingWrite (s : State) : Host.Outcome State Fault Refusal :=
  match s.arg.data with
  | .write w =>
    match focus w.core s with
    | none => .fault .noSuchAgent
    | some t =>
      match frameRefuses w t with
      | none => .next (answerWrite w.module w.who 0 (onCore w.core (incoming w) s))
      | some k => .next (answerWrite w.module w.who k s)
  | _ => .fault .malformedEvent

end Sys2Proof.Machine
end

