-- ==== Sys2Proof/Machine/MatArith.lean ====
section
/-! DEFINITION. The arithmetic of the matrix array: split modes (R214), DecodeGroup (R217), CellTerm (R220) and the chain of an operation (R221). -/

namespace Sys2Proof.Machine

/-! ### Configuration (Tables 11-2, 11-4, 12-7) -/

/-- SPLIT of a configuration byte. -/
def cfgSplit (c : BitVec 8) : Nat := bitsOf c 0 3
/-- AW. -/
def cfgAw (c : BitVec 8) : Nat := bitsOf c 4 2
/-- WW: 8-bit weights. -/
def cfgWw (c : BitVec 8) : Bool := bitOf c 6
/-- n, the N-groups. -/
def cfgN (c : BitVec 8) : Nat := 2 ^ cfgSplit c
/-- k, the K-stages. -/
def cfgK (c : BitVec 8) : Nat := 32 / cfgN c
/-- Nm, result columns of a group (R214). -/
def cfgNm (c : BitVec 8) : Nat := if cfgWw c then 64 else 128
/-- N, result columns of an operation. -/
def cfgCols (c : BitVec 8) : Nat := cfgNm c * cfgN c
/-- Rows of an operation. -/
def cfgRows (c : BitVec 8) : Nat := if cfgSplit c = 4 ∧ !cfgWw c then 32 else 64
/-- P, bit planes (Table 11-4). -/
def cfgPlanes (c : BitVec 8) : Nat := match cfgAw c with
  | 0 => 5
  | 1 => 9
  | _ => 8
/-- Cells of a patch of 4-bit or 8-bit elements. -/
def patchSize (wide : Bool) : Nat := if wide then 144 else 80
/-- A of 8 bits. -/
def cfgA8 (c : BitVec 8) : Bool := decide (cfgAw c ≠ 0)
/-- Data cells that an A operand admits (Table 11-4). -/
def admitA (c : BitVec 8) : List Nat := match cfgAw c with
  | 0 => [0x90, 0x91]
  | 1 => [0xA0, 0xA1, 0xA2]
  | _ => [0xA2]
/-- Data cells that a weight admits (Table 11-3). -/
def admitW (wide : Bool) : List Nat := if wide then [0xA0, 0xA1, 0xA2] else [0x90, 0x91]

/-! ### DecodeGroup (R217) -/

/-- mant x 2^q / 2^d rounded to the nearest integer, ties to even. -/
def roundEven (m q d : Nat) : Nat × Bool := roundDiv 0 false (m * 2 ^ q) (2 ^ d)

/-- The eight codes of a float8 group aligned to their largest exponent: the integers, x, and whether an alignment changed a value. -/
def alignGroup (f : Fmt) (codes : List Nat) : List Int × Int × Bool :=
  let q := if f = .e4m3 then 4 else 5
  let t := f.mant
  let parts := codes.map fun c =>
    let e := c / 2 ^ t % (f.topExp + 1)
    (flag c 7, max e 1, if e = 0 then c % 2 ^ t else 2 ^ t + c % 2 ^ t)
  let emax := (parts.map fun p => p.2.1).foldl max 0
  let ints := parts.map fun p =>
    let r := roundEven p.2.2 q (emax - p.2.1)
    ((if p.1 then -(r.1 : Int) else r.1), r.2)
  (ints.map (·.1), (emax : Int) - f.bias - t - q, ints.any (·.2))

/-- DecodeGroup: the group, and whether an alignment changed a value. -/
def decodeGroup (tag : BitVec 16) (codes : List Nat) (gsb : Nat) : Group × Bool :=
  let f := tagF tag
  let sx := tagS tag
  let e : Int := (sx : Int) - 127
  let gs := BitVec.ofNat 8 gsb
  if sx = 0xFF then (.nan false, false)
  else if sx = 0 then (.zero, false)
  else if gsb = 0xFF then (.nan false, false)
  else if gsb = 0 then (.zero, false)
  else match fmtOfF f with
    | some .e2m1 => (.finite (codes.map fun c => (decodeFmt .e2m1 c).over (-1)) (-1) gs e, false)
    | some .int4 => (.finite (codes.map fun c => 2 * signed 4 c) (-1) gs e, false)
    | some .int8 => (.finite (codes.map fun c => signed 8 c) 0 gs e, false)
    | some x =>
      let vals := codes.map fun c => decodeFmt x c
      if vals.any (·.isNan) then (.nan false, false)
      else if vals.any (·.isInf) then (.nan true, false)
      else
        let a := alignGroup x codes
        (.finite a.1 a.2.1 gs e, a.2.2)
    | none => (.nan false, false)

/-- Group g of row r of patch p, from the cells of grouped patches by cell index (R41, R42). -/
def bandGroup (wide : Bool) (cell : Nat → CellData) (p r g : Nat) : Group × Bool :=
  let base := p * patchSize wide
  let d := cell (base + (if wide then 2 * r + g / 8 else r))
  let sc := cell (base + (if wide then 128 else 64) + r / 4)
  let w := if wide then 8 else 4
  let g' := if wide then g % 8 else g
  decodeGroup d.tag ((List.range 8).map fun u => bitsOf d.bytes (w * (8 * g' + u)) w) (bitsOf sc.bytes (8 * (16 * (r % 4) + g)) 8)

/-- The 16 groups of row r of patch p, and whether an alignment changed a value. -/
def rowGroups (wide : Bool) (cell : Nat → CellData) (p r : Nat) : List Group × Bool :=
  let l := (List.range 16).map fun g => bandGroup wide cell p r g
  (l.map (·.1), l.any (·.2))

/-! ### CellTerm and the chain (R220, R221) -/

/-- An FP32 value with the flags that forming it set. -/
structure F32 where
  code : BitVec 32
  flags : FlagSet
  deriving DecidableEq, Repr

/-- A value rounded to FP32 under RNE. -/
def toF32 (v : Num) (f : FlagSet) : F32 :=
  let r := roundTo .fp32 0 v
  { code := BitVec.ofNat 32 r.code, flags := f ||| r.flags }

/-- The value of an FP32 code. -/
def f32 (c : BitVec 32) : Num := decodeFmt .fp32 c.toNat

/-- An FP32 addition under RNE. -/
def addF32 (a b : BitVec 32) : F32 :=
  let r := (f32 a).add 0 (f32 b)
  toF32 r.1 r.2

/-- The exact contribution of a pair of groups: zero unless both are finite. -/
def groupTerm (a b : Group) : Num :=
  match a, b with
  | .finite ia xa ga ea, .finite ib xb gb eb =>
    let d := (List.zipWith (· * ·) ia ib).sum
    match decodeE3M5 ga.toNat, decodeE3M5 gb.toNat with
    | .fin _ m e, .fin _ m' e' => .fin (decide (d < 0)) (d.natAbs * m * m') (xa + xb + ea + eb + e + e')
    | _, _ => .zero
  | _, _ => .zero

/-- A NaN group. -/
def Group.isNan : Group → Bool
  | .nan _ => true
  | _ => false
/-- A NaN group that came from an infinity code alone. -/
def Group.fromInf : Group → Bool
  | .nan x => x
  | _ => true

/-- CellTerm (R220). -/
def cellTerm (ga gb : List Group) : F32 :=
  if (ga ++ gb).any (·.isNan) then { code := 0x7FC00000, flags := if (ga ++ gb).all (·.fromInf) then fNV else 0 }
  else
    let v := (List.zipWith groupTerm ga gb).foldl (fun v t => Num.addFin false v t) .zero
    toF32 (if v.isZero then .zero else v) 0

/-- The chain sum of the terms of stages 0 to k - 1 (R221). -/
def chainSum : List F32 → F32
  | [] => { code := 0, flags := 0 }
  | t :: rest => rest.foldl (fun s x =>
      let r := addF32 s.code x.code
      { code := r.code, flags := s.flags ||| x.flags ||| r.flags }) t

/-- The chain sum of one result element: A groups and weight groups by stage. -/
def elementSum (k : Nat) (a b : Nat → List Group) : F32 := chainSum ((List.range k).map fun s => cellTerm (a s) (b s))

/-- Patch and row of result column c of the N-group g at stage s (R216): the shard's patch p = 2m or m of macro m = s n + g. -/
def weightPlace (cfg : BitVec 8) (s j : Nat) : Nat × Nat :=
  let m := s * cfgN cfg + j / cfgNm cfg
  let c := j % cfgNm cfg
  if cfgWw cfg then (m, c) else (2 * m + c / 64, c % 64)

end Sys2Proof.Machine
end

