-- ==== Sys2Proof/Machine/AuditUnit.lean ====
section
/-! DEFINITION. The sampling side of the audit unit (R301-R304): judging a WLOAD, taking a sample, its tap, and discards. -/

namespace Sys2Proof.Machine

/-- The audit state replaced. -/
def State.setAudit (s : State) (a : Audit) : State := s.setCore { s.core with audit := a }

/-- One step of the sampling register (R301). -/
def lfsrStep (x : BitVec 32) : BitVec 32 := if bitOf x 0 then (x >>> 1) ^^^ 0x80200003 else x >>> 1

/-- Step() as an operation on the audit state. -/
def auditStep (a : Audit) : Audit := { a with lfsr := lfsrStep a.lfsr }

/-- Ncols of a configuration (R302). -/
def auditCols (cfg : BitVec 8) : Nat := min 128 (cfgCols cfg)

/-- Need, the bytes of a sample's extent (R302). -/
def auditNeed (cfg : BitVec 8) : Nat :=
  let cb := if cfgWw cfg then 148 else 82
  let ab := if cfgA8 cfg then 148 else 82
  4096 * ((auditCols cfg * cfgK cfg * cb + cfgK cfg * ab + 512 + 4095) / 4096)

/-- The held sample is discarded (R304). -/
def discardSample (s : State) : State :=
  if s.core.audit.sample.isSome then s.setCore (dropSample { s.core with audit := { s.core.audit with discard := satCount s.core.audit.discard } }) else s

/-- A sample that awaits its tap is discarded. -/
def discardUntapped (s : State) : State :=
  match s.core.audit.sample with
  | some x => if x.tap.isNone then discardSample s else s
  | none => s

/-- A sample is taken (R302): its columns are fixed, the shard's cells are kept, and the extent's bytes become free values. -/
def takeSample (slot : BitVec 6) (cells : List CellData) (s : State) : State :=
  let cfg := s.core.mat.cfg
  let f : Fin 16 := Fin.ofNat 16 s.core.audit.frame.toNat
  let n := auditCols cfg
  let st := cfgCols cfg / n
  let a := auditStep s.core.audit
  let x : AuditSample := { num := s.tick, slot := slot, c0 := a.lfsr.toNat % st, ncols := n, stride := st, frame := f, need := auditNeed cfg, cells := cells, tap := none }
  let vb := frmVb s.core.frames[f]
  let c := spadRaw s.core vb ((List.range (auditNeed cfg)).map fun i => Config.freeByte s.tick (vb + i))
  s.setCore { c with audit := { a with farm := false, sampled := satCount a.sampled, sample := some x } }

/-- The judgement of a dispatched WLOAD (R301): the state, and whether a sample was taken. -/
def judge (slot : BitVec 6) (reload : Bool) (cells : List CellData) (s : State) : State × Bool :=
  let a := s.core.audit
  if a.mode = 0 ∨ reload then (s, false)
  else
    let forced : Bool := a.farm && (a.fany || decide (slot = a.fslot))
    if !forced && !(bitOf a.filter slot.toNat) then (s, false)
    else
      let a1 := if forced then a else auditStep a
      let s1 := s.setAudit a1
      if !forced && decide (a1.lfsr.toNat % 2 ^ a.s ≠ 0) then (s1, false)
      else if a1.sample.isSome then (s1.setAudit { a1 with busy := satCount a1.busy }, false)
      else
        let f := s.core.frames[Fin.ofNat 16 a.frame.toNat]
        if !frmValid f || frmShen f then (s1.setAudit { a1 with noframe := satCount a1.noframe }, false)
        else if frmSize f < auditNeed s.core.mat.cfg then (s1.setAudit { a1 with noroom := satCount a1.noroom }, false)
        else (takeSample slot cells s1, true)

/-- The tap of an MMUL on the sampled comb (R303): the row, its A cells in the k blocks, the chain sums of the chosen columns. -/
def makeTap (cfg : BitVec 8) (half : Nat) (seq : BitVec 32) (cell : Nat → CellData) (sums : List (BitVec 32)) (s : State) : State × Option AuditTap :=
  match s.core.audit.sample with
  | none => (s, none)
  | some x =>
    let a := auditStep s.core.audit
    let t := a.lfsr.toNat % cfgRows cfg
    let r := half * 32 + t
    let w := cfgA8 cfg
    let block (b : Nat) : List CellData :=
      let base := b * patchSize w
      if w then [cell (base + 2 * r), cell (base + 2 * r + 1), cell (base + 128 + r / 4)] else [cell (base + r), cell (base + 64 + r / 4)]
    let bound := 256 + x.ncols * (128 * cfgK cfg) / 64
    let bound := if a.mode = 3 then 2 * bound else bound
    let tap : AuditTap := { sample := x.num, row := t, aCells := ((List.range (cfgK cfg)).map block).flatten
                            sums := (List.range x.ncols).map fun i => (sums[t * cfgCols cfg + x.c0 + i * x.stride]?).getD 0
                            seq := seq, cfg := cfg, left := 1 + Config.fetchLatency s.tick % bound }
    (s.setAudit a, some tap)

/-- The tap reaches the audit unit, and its sample, if it is still held, moves to checking (R303). -/
def handTap (t : Option AuditTap) (s : State) : State :=
  match t, s.core.audit.sample with
  | some t, some x => if x.tap.isNone && decide (x.num = t.sample) then s.setAudit { s.core.audit with sample := some { x with tap := some t } } else s
  | _, _ => s

end Sys2Proof.Machine
end

