-- ==== Sys2Proof/Machine/Audit.lean ====
section
/-! DEFINITION. The audit class: its instructions (R297-R300, R312-R316), and the end of a check with its records and traps (R305-R311). -/

namespace Sys2Proof.Machine

/-- The audit-misuse trap (R299). -/
def auditMisuse (reason : Nat) : Eff := misuse cAudit reason

/-- The lock of R297 closes the configuration to job mode: the first check of R299. -/
def unlocked (s : State) (e : Eff) : Eff := if s.core.audit.lock && !s.cur.priv then forbidden 0 else e

/-! ### The instructions (R312-R316) -/

/-- The meaning of ASAMP (R312). -/
def execAsamp (o : ABP) (s : State) : Host.Outcome State Fault Refusal :=
  issue (.asamp o) (useABP o) (fun s => unlocked s (
    let a := rdS s o.a
    let seed : BitVec 32 := BitVec.ofNat 32 (bitsOf a 0 32)
    if bitsOf a 37 26 ≠ 0 then auditMisuse 0x01
    else if 24 < bitsOf a 32 5 then auditMisuse 0x02
    else
      let u := s.core.audit
      .done (s.setAudit { u with s := bitsOf a 32 5, lfsr := if bitOf a 63 then u.lfsr else if seed = 0 then 1 else seed, filter := rdS s o.b }))) s

/-- The meaning of AMODE (R313). -/
def execAmode (o : AP) (s : State) : Host.Outcome State Fault Refusal :=
  issue (.amode o) (useAP o) (fun s => unlocked s (
    let a := rdS s o.a
    if bitsOf a 8 56 ≠ 0 ∨ bitsOf a 2 2 ≠ 0 then auditMisuse 0x01
    else
      let s1 := discardSample s
      .done (s1.setAudit { s1.core.audit with mode := BitVec.ofNat 2 (bitsOf a 0 2), frame := BitVec.ofNat 4 (bitsOf a 4 4) }))) s

/-- The meaning of ATHR (R314). -/
def execAthr (o : ABP) (s : State) : Host.Outcome State Fault Refusal :=
  issue (.athr o) (useABP o) (fun s => unlocked s (
    let a := rdS s o.a
    let b := rdS s o.b
    if bitsOf a 6 57 ≠ 0 ∨ bitsOf b 5 59 ≠ 0 then auditMisuse 0x01
    else
      let u := s.core.audit
      let k := bitsOf a 0 6
      let t : BitVec 4 := BitVec.ofNat 4 (bitsOf b 0 4)
      let m : BitVec 64 := BitVec.ofNat 64 (2 ^ k)
      .done (s.setAudit (
        if bitOf a 63 then { u with en := if bitOf b 4 then BitVec.allOnes 64 else 0, thresholds := Vector.replicate 64 t }
        else { u with en := if bitOf b 4 then u.en ||| m else u.en &&& ~~~m, thresholds := u.thresholds.set (Fin.ofNat 64 k) t })))) s

/-- The meaning of AOWN (R314). -/
def execAown (o : AP) (s : State) : Host.Outcome State Fault Refusal :=
  issue (.aown o) (useAP o) (fun s => unlocked s (
    let a := rdS s o.a
    let w := bitsOf a 0 2
    if bitsOf a 2 62 ≠ 0 then auditMisuse 0x01
    else if w = 3 then auditMisuse 0x03
    else if w ≠ 0 ∧ !s.cur.priv then forbidden 0
    else .done (s.setAudit { s.core.audit with owner := BitVec.ofNat 2 w }))) s

/-- The meaning of AFORCE (R314). -/
def execAforce (o : AP) (s : State) : Host.Outcome State Fault Refusal :=
  issue (.aforce o) (useAP o) (fun s => unlocked s (
    let a := rdS s o.a
    if bitsOf a 6 57 ≠ 0 then auditMisuse 0x01
    else .done (s.setAudit { s.core.audit with farm := true, fany := bitOf a 63, fslot := BitVec.ofNat 6 (bitsOf a 0 6) }))) s

/-- Counter b of a slot's histogram. -/
def histKey (slot b : Nat) : Nat := 16 * slot + b

/-- The meaning of AHIST (R315). -/
def execAhist (o : DABP) (s : State) : Host.Outcome State Fault Refusal :=
  issue (.ahist o) (useDABP o) (fun s =>
    .done (wrD o.d ((sparseGet 0 s.core.audit.histograms (histKey (bitsOf (rdS s o.a) 0 6) (bitsOf (rdS s o.b) 0 4))).setWidth 64) 16 s)) s

/-- The meaning of ACLR (R315): FLUSH, POP, HIST, ALLH in this order. -/
def execAclr (o : AP) (s : State) : Host.Outcome State Fault Refusal :=
  issue (.aclr o) (useAP o) (fun s => unlocked s (
    let a := rdS s o.a
    if bitsOf a 6 2 ≠ 0 ∨ bitsOf a 12 52 ≠ 0 then auditMisuse 0x01
    else
      let u := s.core.audit
      let u1 := if bitOf a 11 then { u with records := [] } else u
      let u2 := if bitOf a 10 then { u1 with records := u1.records.drop 1 } else u1
      let u3 := if bitOf a 8 then { u2 with histograms := u2.histograms.filter fun p => !(p.1 / 16 == bitsOf a 0 6) } else u2
      .done (s.setAudit (if bitOf a 9 then { u3 with histograms := [] } else u3)))) s

/-- The words of a record (Table 16-5). -/
def auditRecWord (r : AuditRecord) : Nat → Nat
  | 0 => 2 ^ 63 + bit r.repl * 2 ^ 62 + r.slot.toNat * 2 ^ 56 + r.bin % 16 * 2 ^ 52 + r.row % 64 * 2 ^ 46 + r.col % 2048 * 2 ^ 35 + r.seq.toNat
  | 1 => r.dev.toNat
  | _ => r.ref.toNat

/-- HELD of ACS (Table 16-4). -/
def heldCode (u : Audit) : Nat := match u.sample with
  | none => 0
  | some x => if x.tap.isNone then 1 else 2

/-- The word that an ASTAT selector names (Table 16-4). Each count saturates at its width. -/
def auditStatus (u : Audit) (sel : Nat) : Nat :=
  let c16 (n : Nat) : Nat := min n 0xFFFF
  let rec_ (k : Nat) : Nat := match u.records with
    | [] => 0
    | r :: _ => auditRecWord r k
  match sel with
  | 0 => bit u.pend * 2 ^ 63 + heldCode u * 2 ^ 61 + u.records.length * 2 ^ 56 + bit u.farm * 2 ^ 55 + bit u.fany * 2 ^ 54 + u.fslot.toNat * 2 ^ 48
      + u.owner.toNat * 2 ^ 40 + u.s * 2 ^ 32 + u.frame.toNat * 2 ^ 4 + u.mode.toNat
  | 1 => u.lfsr.toNat
  | 2 => u.filter.toNat
  | 3 => u.sampled * 2 ^ 32 + u.checked
  | 4 => c16 u.noframe * 2 ^ 48 + c16 u.noroom * 2 ^ 32 + c16 u.busy * 2 ^ 16 + c16 u.spoiled
  | 5 => u.mismatch * 2 ^ 32 + c16 u.lost * 2 ^ 16 + c16 u.discard
  | 8 => rec_ 0
  | 9 => rec_ 1
  | 10 => rec_ 2
  | _ => 0

/-- The meaning of ASTAT (R315). -/
def execAstat (o : DAP) (s : State) : Host.Outcome State Fault Refusal :=
  issue (.astat o) (useDAP o) (fun s => .done (wrD o.d (BitVec.ofNat 64 (auditStatus s.core.audit (bitsOf (rdS s o.a) 0 4))) 16 s)) s

/-- The meaning of AREL (R316). -/
def execArel (o : GP) (s : State) : Host.Outcome State Fault Refusal :=
  issue (.arel o) (useGP o) (fun s => unlocked s (.done (discardSample s))) s

/-! ### The check (R305-R308) -/

/-- Cell i of the tapped A row's blocks, by cell index of the band. -/
def tapCell (t : AuditTap) (i : Nat) : CellData :=
  let wide := cfgA8 t.cfg
  let p := i / patchSize wide
  let off := i % patchSize wide
  let k := if wide then 3 * p + (if off < 128 then off % 2 else 2) else 2 * p + (if off < 64 then 0 else 1)
  (t.aCells[k]?).getD { bytes := 0, tag := 0 }

/-- Cell i of the retained shard. -/
def shardCell (x : AuditSample) (i : Nat) : CellData := (x.cells[i]?).getD { bytes := 0, tag := 0 }

/-- The value of position c of row r of patch p (R40). -/
def bandValue (wide : Bool) (cell : Nat → CellData) (p r c : Nat) : Num :=
  let base := p * patchSize wide
  let d := cell (base + (if wide then 2 * r + c / 64 else r))
  let sc := cell (base + (if wide then 128 else 64) + r / 4)
  elementValue d (if wide then c % 64 else c) (some (bitsOf sc.bytes (8 * (16 * (r % 4) + c / 8)) 8)) .fp32

/-- A value rounded to FP64 under RNE. -/
def toF64 (v : Num) : Num := decodeFmt .fp64 (roundTo .fp64 0 v).code

/-- ref and mag of a column (R307). -/
def reference (x : AuditSample) (t : AuditTap) (j : Nat) : Num × Num :=
  (List.range (128 * cfgK t.cfg)).foldl (fun acc kk =>
    let p := weightPlace t.cfg (kk / 128) j
    let a := bandValue (cfgA8 t.cfg) (tapCell t) (kk / 128) t.row (kk % 128)
    let b := bandValue (cfgWw t.cfg) (shardCell x) p.1 p.2 (kk % 128)
    let m := (a.mul b).1
    (toF64 (acc.1.add 0 m).1, toF64 (acc.2.add 0 m.abs).1)) (.zero, .zero)

/-- A finite value. -/
def Num.isFin : Num → Bool
  | .fin _ _ _ => true
  | _ => false

/-- The divergence d (R307). -/
def divergence (dev ref mag : Num) : Num :=
  if dev.isFin && ref.isFin then
    let n := (toF64 (dev.add 0 ref.negate).1).abs
    let den := if mag.lt (.fin false 1 (-126)) then Num.fin false 1 (-126) else mag
    match n, den with
    | .fin _ a e, .fin _ b f => if a = 0 then .zero else decodeFmt .fp64 (roundFloat .fp64 0 false false a b (e - f)).code
    | _, _ => .inf false
  else if (dev.isNan && ref.isNan) || (dev.isInf && ref.isInf && dev.neg == ref.neg) then .zero
  else .inf false

/-- The bin of a divergence (R308). -/
def divBin (d : Num) : Nat :=
  if d.isZero then 15
  else if !d.lt (.fin false 1 (-4)) then 0
  else ((List.range 13).find? fun (i : Nat) => !d.lt (.fin false 1 (-6 - 2 * (i : Int)))).elim 14 (fun (i : Nat) => i + 1)

/-- What a check finds of a chosen column: its number, the tapped sum, the recomputed sum, the reference and the divergence. -/
structure ColumnCheck where
  col : Nat
  dev : BitVec 32
  re : BitVec 32
  ref : Num
  d : Num

/-- A chosen column checked. -/
def checkColumn (x : AuditSample) (t : AuditTap) (i : Nat) : ColumnCheck :=
  let j := x.c0 + i * x.stride
  let dev := (t.sums[i]?).getD 0
  let re := elementSum (cfgK t.cfg) (fun b => (rowGroups (cfgA8 t.cfg) (tapCell t) b t.row).1)
    (fun b => (rowGroups (cfgWw t.cfg) (shardCell x) (weightPlace t.cfg b j).1 (weightPlace t.cfg b j).2).1)
  let r := reference x t j
  { col := j, dev := dev, re := re.code, ref := r.1, d := divergence (f32 dev) r.1 r.2 }

/-- The column of largest divergence, the lowest among equals (R308). -/
def worst : List ColumnCheck → Option ColumnCheck
  | [] => none
  | c :: rest => match worst rest with
    | some w => if c.d.lt w.d then some w else some c
    | none => some c

/-- A record appended, or lost when the queue is full (R309). -/
def pushRecord (r : AuditRecord) (u : Audit) : Audit :=
  if 16 ≤ u.records.length then { u with lost := satCount u.lost } else { u with records := u.records ++ [r] }

/-- The FP64 word of a value. -/
def f64Word (v : Num) : Word := BitVec.ofNat 64 (roundTo .fp64 0 v).code

/-- An MSI-X vector raised toward the host, or its pending bit set while it is masked (R310, R407). -/
def raiseMsix (v : Nat) (s : State) : State :=
  let m : BitVec 256 := BitVec.ofNat 256 (2 ^ v)
  if s.host.msixMask.getLsbD v then { s with host := { s.host with msixPend := s.host.msixPend ||| m } }
  else { s with host := { s.host with msixSent := v :: s.host.msixSent } }

/-- An audit divergence pends for its owner; under owner 2 the interrupt is raised at once (R310). -/
def raiseDivergence (s : State) : State :=
  let u := s.core.audit
  if u.pend then s
  else if u.owner = 2 then raiseMsix (3 + s.core.num) s
  else s.setAudit { u with pend := true }

/-- The report of a replica mismatch (Table 21-15, type 4). -/
def mismatchEvent (s : State) (x : AuditSample) (t : AuditTap) (col : Nat) : Event :=
  recordEvent { type := 4, cont := false
                payload := BitVec.ofNat 384 ((s.physical[Fin.ofNat 192 s.core.num]).toNat + s.core.num * 2 ^ 16 + x.slot.toNat * 2 ^ 32
                  + t.seq.toNat * 2 ^ 64 + col * 2 ^ 96) }

/-- A replica mismatch: its record, its trap for the supervisor, and its report, on which firmware will test the core (R306, R311, R317). -/
def replicaMismatch (x : AuditSample) (t : AuditTap) (c : ColumnCheck) (s : State) : State :=
  let u := pushRecord { repl := true, slot := x.slot, bin := 0, row := t.row, col := c.col, seq := t.seq, dev := c.dev, ref := c.re.setWidth 64 } s.core.audit
  let s1 := s.setAudit { u with mismatch := satCount u.mismatch, replicaPend := some (mkTrap cReplica x.slot.toNat t.seq.toNat) }
  State.raise { s1 with suspects := s1.suspects ++ [(s1.core.num, 1, (Config.coreTest s1.tick s1.core.num).val + 256 * (Config.failingMacro s1.tick s1.core.num).val)], tick := s1.tick + 1 }
    [mismatchEvent s x t c.col]

/-- The histograms and the divergence record of a wide check (R308). -/
def wideResult (x : AuditSample) (t : AuditTap) (cols : List ColumnCheck) (s : State) : State :=
  let u := s.core.audit
  let slot := x.slot.toNat
  let h := cols.foldl (fun h c =>
    let k := histKey slot (divBin c.d)
    let v := sparseGet (0 : BitVec 32) h k
    sparsePut 0 h k (if v = BitVec.allOnes 32 then v else v + 1)) u.histograms
  let s1 := s.setAudit { u with histograms := h, checked := satCount u.checked }
  match worst cols with
  | none => s1
  | some w =>
    if bitOf u.en slot && decide (divBin w.d ≤ (u.thresholds[Fin.ofNat 64 slot]).toNat) then
      raiseDivergence (s1.setAudit (pushRecord { repl := false, slot := x.slot, bin := divBin w.d, row := t.row, col := w.col, seq := t.seq, dev := w.dev, ref := f64Word w.ref } s1.core.audit))
    else s1

/-- A check ends (R306, R308): the sample ends and the frame is free. -/
def endCheck (s : State) : State :=
  match s.core.audit.sample with
  | none => s
  | some x => match x.tap with
    | none => s
    | some t =>
      let mode := s.core.audit.mode
      let cols := (List.range x.ncols).map fun i => checkColumn x t i
      let s1 := if mode = 2 ∨ mode = 3 then
          match cols.find? fun c => decide (c.re ≠ c.dev) with
          | some c => replicaMismatch x t c s
          | none => s
        else s
      let s2 := if mode = 2 then s1.setAudit { s1.core.audit with checked := satCount s1.core.audit.checked } else wideResult x t cols s1
      s2.setAudit { s2.core.audit with sample := none }

/-- The meaning of AUDIT_CHECK_END (R308). -/
def execAuditCheckEnd (s : State) : Host.Outcome State Fault Refusal := atCore s.arg.core endCheck s

end Sys2Proof.Machine
end

