-- ==== Sys2Proof/Machine/Base.lean ====
section
/-! DEFINITION. The base class: scalar arithmetic, constants, bit fields, compares and predicates (R86-R92). -/

namespace Sys2Proof.Machine

/-! ### Helpers of Table 5-1 -/

/-- DIV (R87): B = 0 gives 2^64 - 1; the wrap of -2^63 / -1 gives -2^63. -/
def signedQuotient (a b : Word) : Word := if b = 0 then allOnes else wordOfInt (a.toInt.tdiv b.toInt)

/-- DIVZ (R87). -/
def unsignedQuotient (a b : Word) : Word := if b = 0 then allOnes else BitVec.ofNat 64 (a.toNat / b.toNat)

/-- REM (R87): B = 0 gives A. -/
def signedRemainder (a b : Word) : Word := if b = 0 then a else wordOfInt (a.toInt.tmod b.toInt)

/-- REMZ (R87). -/
def unsignedRemainder (a b : Word) : Word := if b = 0 then a else BitVec.ofNat 64 (a.toNat % b.toNat)

/-- Zero bits from bit n - 1 down to the first one bit. -/
def zerosDown (x : Word) : Nat → Nat
  | 0 => 0
  | n + 1 => if bitOf x n then 0 else 1 + zerosDown x n

/-- CLZ. -/
def leadingZeros (x : Word) : Nat := zerosDown x 64

/-- CTZ. -/
def trailingZeros (x : Word) : Nat := ((List.range 64).find? fun i => bitOf x i).getD 64

/-- POPC. -/
def onesCount (x : Word) : Nat := ((List.range 64).filter fun i => bitOf x i).length

/-- The old value of a destination, q0 for a push (R89, R90). -/
def destOld : SDst → SSrc
  | .push => .q 0
  | .n i => .n i

/-- The condition of CMP and CMPI (R91): EQ, NE, LT, GE, LTZ, GEZ. -/
def compareHolds (c : Fin 6) (a b : Word) : Bool :=
  match c with
  | 0 => decide (a = b)
  | 1 => decide (a ≠ b)
  | 2 => a.slt b
  | 3 => !a.slt b
  | 4 => a.ult b
  | 5 => !a.ult b

/-! ### Arithmetic (R86-R88) -/

/-- ADD: A + B modulo 2^64 (R86). -/
def resultAdd (o : DABP) (s : State) : Word := rdS s o.a + rdS s o.b

/-- The meaning of ADD (R86). -/
def execAdd (o : DABP) (s : State) : Host.Outcome State Fault Refusal :=
  issue (.add o) (useDABP o) (fun s => .done (wrD o.d (resultAdd o s) 2 s)) s

/-- SUB: A - B modulo 2^64 (R86). -/
def resultSub (o : DABP) (s : State) : Word := rdS s o.a - rdS s o.b

/-- The meaning of SUB (R86). -/
def execSub (o : DABP) (s : State) : Host.Outcome State Fault Refusal :=
  issue (.sub o) (useDABP o) (fun s => .done (wrD o.d (resultSub o s) 2 s)) s

/-- MUL: the low 64 bits of A x B (R86). -/
def resultMul (o : DABP) (s : State) : Word := rdS s o.a * rdS s o.b

/-- The meaning of MUL (R86). -/
def execMul (o : DABP) (s : State) : Host.Outcome State Fault Refusal :=
  issue (.mul o) (useDABP o) (fun s => .done (wrD o.d (resultMul o s) 4 s)) s

/-- MULH: bits [127:64] of the signed product (R86). -/
def resultMulh (o : DABP) (s : State) : Word := wordOfInt ((rdS s o.a).toInt * (rdS s o.b).toInt / 2 ^ 64)

/-- The meaning of MULH (R86). -/
def execMulh (o : DABP) (s : State) : Host.Outcome State Fault Refusal :=
  issue (.mulh o) (useDABP o) (fun s => .done (wrD o.d (resultMulh o s) 4 s)) s

/-- MULHZ: bits [127:64] of the unsigned product (R86). -/
def resultMulhz (o : DABP) (s : State) : Word := BitVec.ofNat 64 ((rdS s o.a).toNat * (rdS s o.b).toNat / 2 ^ 64)

/-- The meaning of MULHZ (R86). -/
def execMulhz (o : DABP) (s : State) : Host.Outcome State Fault Refusal :=
  issue (.mulhz o) (useDABP o) (fun s => .done (wrD o.d (resultMulhz o s) 4 s)) s

/-- DIV: the signed quotient, truncated toward zero (R87). -/
def resultDiv (o : DABP) (s : State) : Word := signedQuotient (rdS s o.a) (rdS s o.b)

/-- The meaning of DIV (R87). -/
def execDiv (o : DABP) (s : State) : Host.Outcome State Fault Refusal :=
  issue (.div o) (useDABP o) (fun s => .done (wrD o.d (resultDiv o s) 68 s)) s

/-- DIVZ: the unsigned quotient (R87). -/
def resultDivz (o : DABP) (s : State) : Word := unsignedQuotient (rdS s o.a) (rdS s o.b)

/-- The meaning of DIVZ (R87). -/
def execDivz (o : DABP) (s : State) : Host.Outcome State Fault Refusal :=
  issue (.divz o) (useDABP o) (fun s => .done (wrD o.d (resultDivz o s) 68 s)) s

/-- REM: the signed remainder, with the sign of the dividend (R87). -/
def resultRem (o : DABP) (s : State) : Word := signedRemainder (rdS s o.a) (rdS s o.b)

/-- The meaning of REM (R87). -/
def execRem (o : DABP) (s : State) : Host.Outcome State Fault Refusal :=
  issue (.rem o) (useDABP o) (fun s => .done (wrD o.d (resultRem o s) 68 s)) s

/-- REMZ: the unsigned remainder (R87). -/
def resultRemz (o : DABP) (s : State) : Word := unsignedRemainder (rdS s o.a) (rdS s o.b)

/-- The meaning of REMZ (R87). -/
def execRemz (o : DABP) (s : State) : Host.Outcome State Fault Refusal :=
  issue (.remz o) (useDABP o) (fun s => .done (wrD o.d (resultRemz o s) 68 s)) s

/-- AND: A and B (R86). -/
def resultAnd (o : DABP) (s : State) : Word := rdS s o.a &&& rdS s o.b

/-- The meaning of AND (R86). -/
def execAnd (o : DABP) (s : State) : Host.Outcome State Fault Refusal :=
  issue (.and o) (useDABP o) (fun s => .done (wrD o.d (resultAnd o s) 2 s)) s

/-- OR: A or B (R86). -/
def resultOr (o : DABP) (s : State) : Word := rdS s o.a ||| rdS s o.b

/-- The meaning of OR (R86). -/
def execOr (o : DABP) (s : State) : Host.Outcome State Fault Refusal :=
  issue (.or o) (useDABP o) (fun s => .done (wrD o.d (resultOr o s) 2 s)) s

/-- XOR: A xor B (R86). -/
def resultXor (o : DABP) (s : State) : Word := rdS s o.a ^^^ rdS s o.b

/-- The meaning of XOR (R86). -/
def execXor (o : DABP) (s : State) : Host.Outcome State Fault Refusal :=
  issue (.xor o) (useDABP o) (fun s => .done (wrD o.d (resultXor o s) 2 s)) s

/-- ANDN: A and not B (R86). -/
def resultAndn (o : DABP) (s : State) : Word := rdS s o.a &&& ~~~ (rdS s o.b)

/-- The meaning of ANDN (R86). -/
def execAndn (o : DABP) (s : State) : Host.Outcome State Fault Refusal :=
  issue (.andn o) (useDABP o) (fun s => .done (wrD o.d (resultAndn o s) 2 s)) s

/-- SHL: A shifted left by Bits(B, 5, 0) (R86). -/
def resultShl (o : DABP) (s : State) : Word := rdS s o.a <<< bitsOf (rdS s o.b) 0 6

/-- The meaning of SHL (R86). -/
def execShl (o : DABP) (s : State) : Host.Outcome State Fault Refusal :=
  issue (.shl o) (useDABP o) (fun s => .done (wrD o.d (resultShl o s) 2 s)) s

/-- SHR: A shifted right logically by Bits(B, 5, 0) (R86). -/
def resultShr (o : DABP) (s : State) : Word := rdS s o.a >>> bitsOf (rdS s o.b) 0 6

/-- The meaning of SHR (R86). -/
def execShr (o : DABP) (s : State) : Host.Outcome State Fault Refusal :=
  issue (.shr o) (useDABP o) (fun s => .done (wrD o.d (resultShr o s) 2 s)) s

/-- SHA: A shifted right arithmetically by Bits(B, 5, 0) (R86). -/
def resultSha (o : DABP) (s : State) : Word := (rdS s o.a).sshiftRight (bitsOf (rdS s o.b) 0 6)

/-- The meaning of SHA (R86). -/
def execSha (o : DABP) (s : State) : Host.Outcome State Fault Refusal :=
  issue (.sha o) (useDABP o) (fun s => .done (wrD o.d (resultSha o s) 2 s)) s

/-- MIN: the smaller, signed (R86). -/
def resultMin (o : DABP) (s : State) : Word := if (rdS s o.a).sle (rdS s o.b) then rdS s o.a else rdS s o.b

/-- The meaning of MIN (R86). -/
def execMin (o : DABP) (s : State) : Host.Outcome State Fault Refusal :=
  issue (.min o) (useDABP o) (fun s => .done (wrD o.d (resultMin o s) 2 s)) s

/-- MAX: the larger, signed (R86). -/
def resultMax (o : DABP) (s : State) : Word := if (rdS s o.a).sle (rdS s o.b) then rdS s o.b else rdS s o.a

/-- The meaning of MAX (R86). -/
def execMax (o : DABP) (s : State) : Host.Outcome State Fault Refusal :=
  issue (.max o) (useDABP o) (fun s => .done (wrD o.d (resultMax o s) 2 s)) s

/-- MINZ: the smaller, unsigned (R86). -/
def resultMinz (o : DABP) (s : State) : Word := if rdS s o.a ≤ rdS s o.b then rdS s o.a else rdS s o.b

/-- The meaning of MINZ (R86). -/
def execMinz (o : DABP) (s : State) : Host.Outcome State Fault Refusal :=
  issue (.minz o) (useDABP o) (fun s => .done (wrD o.d (resultMinz o s) 2 s)) s

/-- MAXZ: the larger, unsigned (R86). -/
def resultMaxz (o : DABP) (s : State) : Word := if rdS s o.a ≤ rdS s o.b then rdS s o.b else rdS s o.a

/-- The meaning of MAXZ (R86). -/
def execMaxz (o : DABP) (s : State) : Host.Outcome State Fault Refusal :=
  issue (.maxz o) (useDABP o) (fun s => .done (wrD o.d (resultMaxz o s) 2 s)) s

/-- ADDA: (A + B) mod 2^56 (R86). -/
def resultAdda (o : DABP) (s : State) : Word := BitVec.ofNat 64 (bitsOf (rdS s o.a + rdS s o.b) 0 56)

/-- The meaning of ADDA (R86). -/
def execAdda (o : DABP) (s : State) : Host.Outcome State Fault Refusal :=
  issue (.adda o) (useDABP o) (fun s => .done (wrD o.d (resultAdda o s) 2 s)) s

/-- CLZ: the count of leading zero bits of A (R86). -/
def resultClz (o : DAP) (s : State) : Word := BitVec.ofNat 64 (leadingZeros (rdS s o.a))

/-- The meaning of CLZ (R86). -/
def execClz (o : DAP) (s : State) : Host.Outcome State Fault Refusal :=
  issue (.clz o) (useDAP o) (fun s => .done (wrD o.d (resultClz o s) 2 s)) s

/-- CTZ: the count of trailing zero bits of A (R86). -/
def resultCtz (o : DAP) (s : State) : Word := BitVec.ofNat 64 (trailingZeros (rdS s o.a))

/-- The meaning of CTZ (R86). -/
def execCtz (o : DAP) (s : State) : Host.Outcome State Fault Refusal :=
  issue (.ctz o) (useDAP o) (fun s => .done (wrD o.d (resultCtz o s) 2 s)) s

/-- POPC: the count of one bits of A (R86). -/
def resultPopc (o : DAP) (s : State) : Word := BitVec.ofNat 64 (onesCount (rdS s o.a))

/-- The meaning of POPC (R86). -/
def execPopc (o : DAP) (s : State) : Host.Outcome State Fault Refusal :=
  issue (.popc o) (useDAP o) (fun s => .done (wrD o.d (resultPopc o s) 2 s)) s

/-- SEXT: SExt(Bits(A, k, 0), k + 1) with k := Bits(B, 5, 0) (R86). -/
def resultSext (o : DABP) (s : State) : Word := wordOfInt (signed (bitsOf (rdS s o.b) 0 6 + 1) (bitsOf (rdS s o.a) 0 (bitsOf (rdS s o.b) 0 6 + 1)))

/-- The meaning of SEXT (R86). -/
def execSext (o : DABP) (s : State) : Host.Outcome State Fault Refusal :=
  issue (.sext o) (useDABP o) (fun s => .done (wrD o.d (resultSext o s) 2 s)) s

/-- PICK: byte j of A with j := Bits(B, 2, 0) (R86). -/
def resultPick (o : DABP) (s : State) : Word := BitVec.ofNat 64 (bitsOf (rdS s o.a) (8 * bitsOf (rdS s o.b) 0 3) 8)

/-- The meaning of PICK (R86). -/
def execPick (o : DABP) (s : State) : Host.Outcome State Fault Refusal :=
  issue (.pick o) (useDABP o) (fun s => .done (wrD o.d (resultPick o s) 2 s)) s

/-- ADDI: A + SExt(imm) (R88). -/
def resultAddi (o : DAI) (s : State) : Word := rdS s o.a + o.i.signExtend 64

/-- The meaning of ADDI (R88). -/
def execAddi (o : DAI) (s : State) : Host.Outcome State Fault Refusal :=
  issue (.addi o) (useDAI o) (fun s => .done (wrD o.d (resultAddi o s) 2 s)) s

/-- ANDI: A and SExt(imm) (R88). -/
def resultAndi (o : DAI) (s : State) : Word := rdS s o.a &&& o.i.signExtend 64

/-- The meaning of ANDI (R88). -/
def execAndi (o : DAI) (s : State) : Host.Outcome State Fault Refusal :=
  issue (.andi o) (useDAI o) (fun s => .done (wrD o.d (resultAndi o s) 2 s)) s

/-- ORI: A or SExt(imm) (R88). -/
def resultOri (o : DAI) (s : State) : Word := rdS s o.a ||| o.i.signExtend 64

/-- The meaning of ORI (R88). -/
def execOri (o : DAI) (s : State) : Host.Outcome State Fault Refusal :=
  issue (.ori o) (useDAI o) (fun s => .done (wrD o.d (resultOri o s) 2 s)) s

/-- XORI: A xor SExt(imm) (R88). -/
def resultXori (o : DAI) (s : State) : Word := rdS s o.a ^^^ o.i.signExtend 64

/-- The meaning of XORI (R88). -/
def execXori (o : DAI) (s : State) : Host.Outcome State Fault Refusal :=
  issue (.xori o) (useDAI o) (fun s => .done (wrD o.d (resultXori o s) 2 s)) s

/-- SHLI: A shifted left by imm [5:0] (R88). -/
def resultShli (o : DAH) (s : State) : Word := rdS s o.a <<< o.h.val

/-- The meaning of SHLI (R88). -/
def execShli (o : DAH) (s : State) : Host.Outcome State Fault Refusal :=
  issue (.shli o) (useDAH o) (fun s => .done (wrD o.d (resultShli o s) 2 s)) s

/-- SHRI: A shifted right logically by imm [5:0] (R88). -/
def resultShri (o : DAH) (s : State) : Word := rdS s o.a >>> o.h.val

/-- The meaning of SHRI (R88). -/
def execShri (o : DAH) (s : State) : Host.Outcome State Fault Refusal :=
  issue (.shri o) (useDAH o) (fun s => .done (wrD o.d (resultShri o s) 2 s)) s

/-- SHAI: A shifted right arithmetically by imm [5:0] (R88). -/
def resultShai (o : DAH) (s : State) : Word := (rdS s o.a).sshiftRight o.h.val

/-- The meaning of SHAI (R88). -/
def execShai (o : DAH) (s : State) : Host.Outcome State Fault Refusal :=
  issue (.shai o) (useDAH o) (fun s => .done (wrD o.d (resultShai o s) 2 s)) s

/-! ### Constants and bit fields (R89, R90) -/

/-- The meaning of LIL: SExt(c, 20) (R89). -/
def execLil (o : DI) (s : State) : Host.Outcome State Fault Refusal :=
  issue (.lil o) (useDI o) (fun s => .done (wrD o.d (o.i.signExtend 64) 2 s)) s

/-- LIH: the old value shifted left by 20 with c added (R89). -/
def resultLih (o : DI) (s : State) : Word := rdS s (destOld o.d) * 2 ^ 20 + o.i.setWidth 64

/-- The meaning of LIH (R89). -/
def execLih (o : DI) (s : State) : Host.Outcome State Fault Refusal :=
  issue (.lih o) { useDI o with srcs := [destOld o.d] } (fun s => .done (wrD o.d (resultLih o s) 2 s)) s

/-- BFX: the field of width w + 1 at position o (R90). -/
def resultBfx (o : BfOps) (s : State) : Word := BitVec.ofNat 64 (bitsOf (rdS s o.a) o.o.val (o.w.val + 1))

/-- The meaning of BFX (R90). -/
def execBfx (o : BfOps) (s : State) : Host.Outcome State Fault Refusal :=
  issue (.bfx o) (useBfOps o) (fun s => .done (wrD o.d (resultBfx o s) 2 s)) s

/-- The mask of a field. -/
def fieldMask (pos width : Nat) : Word := BitVec.ofNat 64 ((2 ^ width - 1) * 2 ^ pos)

/-- BFI: the low bits of A inserted into the old value of the destination (R90). -/
def resultBfi (o : BfOps) (s : State) : Word :=
  let m := fieldMask o.o.val (o.w.val + 1)
  (rdS s (destOld o.d) &&& ~~~ m) ||| ((rdS s o.a <<< o.o.val) &&& m)

/-- The meaning of BFI (R90). -/
def execBfi (o : BfOps) (s : State) : Host.Outcome State Fault Refusal :=
  issue (.bfi o) { useBfOps o with srcs := [o.a, destOld o.d] } (fun s => .done (wrD o.d (resultBfi o s) 2 s)) s

/-! ### Compares and predicates (R91, R92) -/

/-- The meaning of CMP (R91). -/
def execCmp (o : CmpOps) (s : State) : Host.Outcome State Fault Refusal :=
  issue (.cmp o) (useCmpOps o) (fun s => .done (wrP o.pd (compareHolds o.c (rdS s o.a) (rdS s o.b)) 2 s)) s

/-- The meaning of CMPI (R91). -/
def execCmpi (o : CmpiOps) (s : State) : Host.Outcome State Fault Refusal :=
  issue (.cmpi o) (useCmpiOps o) (fun s => .done (wrP o.pd (compareHolds o.c (rdS s o.a) (o.i.signExtend 64)) 2 s)) s

/-- PLOG: bit [2 x pa + pb] of the truth table (R92). -/
def resultPlog (o : PlogOps) (s : State) : Bool := bitOf o.t (2 * bit (rdP s o.pa) + bit (rdP s o.pb))

/-- The meaning of PLOG (R92). -/
def execPlog (o : PlogOps) (s : State) : Host.Outcome State Fault Refusal :=
  issue (.plog o) (usePlogOps o) (fun s => .done (wrP o.pd (resultPlog o s) 2 s)) s

/-- SEL: A when the selecting predicate is true, else B (R92). -/
def resultSel (o : SelOps) (s : State) : Word := if rdP s o.t then rdS s o.a else rdS s o.b

/-- The meaning of SEL (R92). -/
def execSel (o : SelOps) (s : State) : Host.Outcome State Fault Refusal :=
  issue (.sel o) (useSelOps o) (fun s => .done (wrD o.d (resultSel o s) 2 s)) s

end Sys2Proof.Machine
end

