-- ==== Sys2Proof/Machine/Message.lean ====
section
/-! DEFINITION. The message class: queues, channels, credits, multicast and membership records (R197-R211), with its events. -/

namespace Sys2Proof.Machine

/-- The message-misuse trap (Table 10-3). -/
def msgMisuse (reason : Nat) : Eff := misuse cMessage reason

/-! ### Queues and channels -/

/-- The message unit replaced. -/
def State.setMsgs (s : State) (m : Messages) : State := s.setCore { s.core with msgs := m }

/-- A queue of the focused core. -/
def queueAt (s : State) (q : Fin 16) : MsgQueue := s.core.msgs.queues[q]

/-- A queue replaced. -/
def setQueue (q : Fin 16) (x : MsgQueue) (s : State) : State := s.setMsgs { s.core.msgs with queues := s.core.msgs.queues.set q x }

/-- Occupancy. -/
def MsgQueue.occ (x : MsgQueue) : Nat := x.origins.length
/-- Entries of the ring. -/
def MsgQueue.size (x : MsgQueue) : Nat := 2 ^ x.lsize
/-- The address of the entry at index i past the head (R197). -/
def MsgQueue.addr (x : MsgQueue) (i : Nat) : Nat := x.base.toNat * 64 + 64 * ((x.head + i) % x.size)

/-- The channel table of a stream (R198); the other streams have none. -/
def channelTable (s : State) (t : Sec) : Vector Channel 64 := if t = .copy then s.core.msgs.copy else s.core.msgs.ctl

/-- A channel of a stream. -/
def channelAt (s : State) (t : Sec) (c : Nat) : Channel := (channelTable s t)[Fin.ofNat 64 c]

/-- A channel replaced. -/
def setChannel (t : Sec) (c : Nat) (x : Channel) (s : State) : State :=
  s.setMsgs (if t = .copy then { s.core.msgs with copy := s.core.msgs.copy.set (Fin.ofNat 64 c) x }
             else { s.core.msgs with ctl := s.core.msgs.ctl.set (Fin.ofNat 64 c) x })

/-! ### Origin words (R199) -/

/-- The stage number in which the focused core is placed. -/
def ownStage (s : State) : Nat := match s.core.place with
  | some (_, k) => k
  | none => 0

/-- The origin word of an entry that stream t sends on channel c. -/
def originWord (s : State) (t : Sec) (c : Nat) (mc : Bool) : Word :=
  BitVec.ofNat 64 ((coordWord s.ownModule s.core.num (ownStage s)).toNat + c % 64 * 2 ^ 32 + bit (decide (t = .copy)) * 2 ^ 38 + bit mc * 2 ^ 39)

/-- The coordinate word in an origin. -/
def originCoord (w : Word) : BitVec 32 := BitVec.ofNat 32 (bitsOf w 0 32)
/-- The channel in an origin. -/
def originChannel (w : Word) : Nat := bitsOf w 32 6
/-- The sending stream in an origin. -/
def originSec (w : Word) : Sec := if bitOf w 38 then .copy else .ctl
/-- A multicast entry or a membership record: it takes no credit. -/
def originFree (w : Word) : Bool := bitOf w 39 || bitOf w 40

/-! ### Credits (R206) -/

/-- One credit return sent to an origin. -/
def sendCredit (w : Word) (n : Nat) (s : State) : State :=
  let c := originCoord w
  if coordModule c = s.ownModule then
    if coordCore c < 192 then
      s.raise [{ i := .creditReturn, arg := { core := coordCore c, sec := originSec w, a := originChannel w, b := n, data := .none } }]
    else s
  else s.send (coordModule c) (.credit (coordCore c) (originSec w) (originChannel w) n)

/-- A pending credit added for an origin. -/
def addCredit (l : List (Word × Nat)) (w : Word) : List (Word × Nat) :=
  if l.any fun p => p.1 == w then l.map fun p => if p.1 = w then (w, p.2 + 1) else p else l ++ [(w, 1)]

/-- The pending credits of a queue returned: all of them when it is empty or `all`, else those that fill a batch. -/
def returnCredits (q : Fin 16) (all : Bool) (s : State) : State :=
  let x := queueAt s q
  let due := x.credits.filter fun p => all || x.origins.isEmpty || decide (x.batch ≤ p.2)
  let s1 := setQueue q { x with credits := x.credits.filter fun p => !(all || x.origins.isEmpty || decide (x.batch ≤ p.2)) } s
  due.foldl (fun t p => sendCredit p.1 p.2 t) s1

/-- The head entry leaves the queue, and its pending credit is counted (R206). -/
def popEntry (q : Fin 16) (s : State) : State :=
  let x := queueAt s q
  match x.origins with
  | [] => s
  | w :: rest =>
    let y := { x with head := (x.head + 1) % x.size, origins := rest, credits := if originFree w then x.credits else addCredit x.credits w }
    returnCredits q false (setQueue q y s)

/-! ### Receiving (R208, R209) -/

/-- A cell as a queue or channel moves it: a line with an uncorrectable error moves with the tag 0x00FF (R205). -/
def movedCell (s : State) (a : Nat) : CellData × Bool :=
  let bad := spadIsBad s.core a
  ({ bytes := BitVec.ofNat 512 (spadReadNum s (a / 64 * 64) 64), tag := if bad then poisonTag else spadTag s.core a }, bad)

/-- The write of a cell where a queue entry or message lands (R34). -/
def landCell (a : Nat) (d : CellData × Bool) (c : CoreState) : CoreState := if d.2 then spadPutPoisoned c a d.1.bytes else spadPutCell c a d.1

/-- The head entry taken by stream t: its cell goes to `a` in class k0, and its origin word is the result (R115, R208). -/
def takeEntry (t : Sec) (q : Fin 16) (a : Nat) (s : State) : Word × State :=
  let x := queueAt s q
  let d := movedCell s (x.addr 0)
  ((x.origins.head?).getD 0, popEntry q (storedBy t 0 a 64 (landCell a d) (if d.2 then reportLine (x.addr 0) s else s)))

/-- A waiting RECV of stream t takes the head entry, when there is one and its promise has come. -/
def tryRecv (t : Sec) (s : State) : State :=
  match waitsOn s t with
  | some (.recv q a d p) =>
    let q' : Fin 16 := Fin.ofNat 16 q
    if (queueAt s q').origins.isEmpty || (match p with
        | some p => decide (s.now < p)
        | none => false) then s
    else
      let r := takeEntry t q' a s
      resume t (some (d, r.1)) r.2
  | _ => s

/-- The waiting RECVs of a core tried, ctl first (R208). -/
def wakeRecv (s : State) : State := tryRecv .copy (tryRecv .ctl s)

/-! ### Arrival (R207) -/

/-- DROP, which saturates. -/
def dropUp (x : MsgQueue) : MsgQueue := { x with drop := if x.drop = BitVec.allOnes 16 then x.drop else x.drop + 1 }

/-- The fault code of an entry that a queue does not take (Table 10-5); 0 when it is appended. -/
def arrivalCode (x : MsgQueue) : Nat := if !x.en then 1 else if x.size ≤ x.occ then 2 else 0

/-- An entry appended at the tail, and the receivers that wait for it (R207). -/
def appendEntry (q : Fin 16) (e : Entry) (s : State) : State :=
  let x := queueAt s q
  let s1 := s.setCore (landCell (x.addr x.occ) (e.cell, e.bad) s.core)
  thaw (wakeRecv (setQueue q { x with origins := x.origins ++ [e.origin] } s1))

/-- The fault of a channel set (Table 10-5). -/
def channelFault (t : Sec) (c code : Nat) (s : State) : State := setChannel t c { channelAt s t c with fault := code } s

/-- The sender of a point-to-point entry learns what became of it: a fault, or from another module that it was taken. -/
def answerSender (w : Word) (code : Nat) (s : State) : State :=
  let c := originCoord w
  if originFree w then s
  else if coordModule c = s.ownModule then
    if code = 0 then s else onCore (coordCore c) (channelFault (originSec w) (originChannel w) code) s
  else s.send (coordModule c) (.delivered (coordCore c) (originSec w) (originChannel w) code)

/-- An entry arrives at a queue of the focused core (Table 10-5). -/
def arriveEntry (q : Fin 16) (e : Entry) (s : State) : State :=
  let code := arrivalCode (queueAt s q)
  if code = 0 then answerSender e.origin 0 (appendEntry q e s)
  else if originFree e.origin then setQueue q (dropUp (queueAt s q)) s
  else answerSender e.origin code s

/-- The meaning of QUEUE_ENTRY_ARRIVAL (R207): entry `data` arrives at queue `a` of the core. -/
def execQueueEntryArrival (s : State) : Host.Outcome State Fault Refusal :=
  let q : Fin 16 := Fin.ofNat 16 s.arg.a
  match s.arg.data with
  | .entry e => atCore s.arg.core (arriveEntry q e) s
  | _ => .fault .malformedEvent

/-! ### Sending (R205, R207) -/

/-- The arrival of an entry at a queue of a core of this module. -/
def arrivalEvent (core q : Nat) (e : Entry) : Event :=
  { i := .queueEntryArrival, arg := { core := core, sec := .ctl, a := q, b := 0, data := .entry e } }

/-- A multicast entry goes to the queue of each core of this module that has joined the group, and to the other modules of the domain (R204). -/
def multicastEntry (g : Nat) (e : Entry) (s : State) : State :=
  let here := ((s.core :: s.others).map fun c => (c.msgs.members.filter fun p => decide (p.1 = g)).map fun p => arrivalEvent c.num p.2 e).flatten
  (s.members.reverse.foldl (fun t m => t.send m (.multicast g 0 e)) s).raise here

/-- A sent entry on its way (Table 10-5). -/
def deliver (t : Sec) (c : Nat) (ch : Channel) (e : Entry) (s : State) : State :=
  if ch.mc then multicastEntry (bitsOf ch.coord 0 12) e s
  else
    let m := coordModule ch.coord
    let n := coordCore ch.coord
    if m = s.ownModule then
      if s.isPresent n ∧ n < 192 then s.raise [arrivalEvent n ch.queue.toNat e] else channelFault t c 3 s
    else if s.isMember m then
      let s1 := setChannel t c { channelAt s t c with inFlight := (channelAt s t c).inFlight ++ [s.now] } s
      s1.send m (.message n ch.queue.toNat e)
    else channelFault t c 3 s

/-- The cell at `a` sent on channel c of stream t: the credit is spent and SENT advances; an uncorrectable line is reported (R190, R205). The cell is read in
class k0 after every earlier access of the stream (R115, R126). -/
def sendNow (t : Sec) (c a : Nat) (s : State) : State :=
  let ch := channelAt s t c
  let x := { ch with credit := if ch.mc then ch.credit else ch.credit - 1, sent := ch.sent + 1 }
  let e : Entry := { cell := (movedCell s a).1, origin := originWord s t c ch.mc, bad := (movedCell s a).2 }
  let s1 := loadMade t 0 ((s.core.loose.get t).filter (·.inScratch s.core a 64)) s
  deliver t c ch e (setChannel t c x (if e.bad then reportLine a s1 else s1))

/-- The checks of SEND and SENDS in their order (R205). -/
def sendTrap (s : State) (c a : Nat) : Option Eff :=
  let ch := channelAt s s.turn c
  if !ch.valid then some (msgMisuse 0x01)
  else if ch.fault ≠ 0 then some (msgMisuse 0x02)
  else if a % 64 ≠ 0 then some (misaligned a)
  else if !s.cur.priv && touchesSr s.core a 64 then some (forbidden a)
  else none

/-- The meaning of SEND (R205): it performs after every earlier access of its stream (R126). -/
def execSend (o : CAH) (s : State) : Host.Outcome State Fault Refusal :=
  issue (.send o) (useCAH o) (fun s =>
    let a := bitsOf (rdS s o.a) 0 22
    match sendTrap s o.h.val a with
    | some e => e
    | none =>
      let ch := channelAt s s.turn o.h.val
      if farHeld (BitVec.allOnes 16) s then .hold
      else if !ch.mc && decide (ch.credit = 0) then suspend (.credit o.h.val a) o.s s else .done (sendNow s.turn o.h.val a s)) s

/-- The meaning of SENDS (R205): what it sends goes after every earlier access of its stream (R126). -/
def execSends (o : CPAH) (s : State) : Host.Outcome State Fault Refusal :=
  issue (.sends o) (useCPAH o) (fun s =>
    let a := bitsOf (rdS s o.a) 0 22
    match sendTrap s o.h.val a with
    | some e => e
    | none =>
      let ch := channelAt s s.turn o.h.val
      if !ch.mc && decide (ch.credit = 0) then .done (wrP o.pd false 8 s)
      else if farHeld (BitVec.allOnes 16) s then .hold
      else .done (wrP o.pd true 8 (sendNow s.turn o.h.val a s))) s

/-- The meaning of CREDIT_RETURN (R206): `b` credits for channel `a` of the core's stream. A SEND that waits for one completes. -/
def execCreditReturn (s : State) : Host.Outcome State Fault Refusal :=
  let t := s.arg.sec
  let c := s.arg.a
  let n := s.arg.b
  atCore s.arg.core (fun s =>
    let ch := channelAt s t c
    let s1 := setChannel t c { ch with credit := min 4096 (ch.credit + n) } s
    match waitsOn s1 t with
    | some (.credit c' a) => if c' = c % 64 ∧ 0 < (channelAt s1 t c).credit then resume t none (sendNow t c' a s1) else s1
    | _ => s1) s

/-- A delivery answer from another module: the oldest entry in flight of the channel is settled (Table 10-5). -/
def takeDelivery (t : Sec) (c code : Nat) (s : State) : State :=
  let ch := channelAt s t c
  setChannel t c { ch with inFlight := ch.inFlight.drop 1, fault := if code = 0 then ch.fault else code } s

/-- The meaning of MESSAGE_ACK_TIMEOUT (R207): no acknowledgement of an entry of channel `a` of the core's stream came. -/
def execMessageAckTimeout (s : State) : Host.Outcome State Fault Refusal :=
  let t := s.arg.sec
  let c := s.arg.a
  atCore s.arg.core (takeDelivery t c 4) s

/-! ### Configuring (R202-R204) -/

/-- Entries of the enabled queues but for queue q. -/
def otherEntries (s : State) (q : Fin 16) : Nat :=
  ((List.finRange 16).map fun i => if i ≠ q ∧ (queueAt s i).en then (queueAt s i).size else 0).sum

/-- A malformed queue descriptor, or one that does not fit (Table 10-3, reason 0x04). -/
def queueMalformed (s : State) (q : Fin 16) (a : Word) : Bool :=
  let l := bitsOf a 24 4
  decide (bitsOf a 38 25 ≠ 0) || decide (bitsOf a 28 4 ≠ 0) || decide (bitsOf a 22 2 ≠ 0) || decide (bitsOf a 0 6 ≠ 0) || decide (12 < l)
    || decide (spadSize < bitsOf a 6 16 * 64 + 64 * 2 ^ l)
    || (bitOf a 63 && decide (4096 < otherEntries s q + 2 ^ l))

/-- The meaning of QCFG (R202). -/
def execQcfg (o : CAQ) (s : State) : Host.Outcome State Fault Refusal :=
  issue (.qcfg o) (useCAQ o) (fun s =>
    let a := rdS s o.a
    let x := queueAt s o.q
    if queueMalformed s o.q a then msgMisuse 0x04
    else if x.en && !x.origins.isEmpty then msgMisuse 0x05
    else if bitOf a 63 then
      let base := bitsOf a 6 16 * 64
      if !s.cur.priv && touchesSr s.core base (64 * 2 ^ bitsOf a 24 4) then forbidden (firstInSr s.core base)
      else .done (setQueue o.q { x with en := true, base := BitVec.ofNat 16 (bitsOf a 6 16), lsize := bitsOf a 24 4, batch := bitsOf a 32 6 + 1, head := 0, origins := [], credits := [] } s)
    else
      let s1 := returnCredits o.q true s
      .done (setQueue o.q { queueAt s1 o.q with en := false } s1)) s

/-- A channel value that is refused by CHMAP (Table 10-3, reason 0x08) and by placement. That a nonzero STAGE (MC 0), QUEUE or COORD [31:12] (MC 1) is refused too is
the model's choice (DESIGN CHOICE, log entry 55). -/
def channelMalformed (a : Word) : Bool :=
  let c : BitVec 32 := BitVec.ofNat 32 (bitsOf a 32 32)
  decide (bitsOf a 20 10 ≠ 0) || decide (bitsOf a 13 3 ≠ 0) || decide (4096 < bitsOf a 0 13)
    || (if bitOf a 30 then decide (bitsOf c 12 20 ≠ 0) || decide (bitsOf a 16 4 ≠ 0) else !coordValid c || decide (bitsOf c 0 4 ≠ 0))

/-- The meaning of CHMAP (R203). -/
def execChmap (o : CAH) (s : State) : Host.Outcome State Fault Refusal :=
  issue (.chmap o) (useCAH o) (fun s =>
    let a := rdS s o.a
    if channelMalformed a then msgMisuse 0x08
    else .done (setChannel s.turn o.h.val { coord := BitVec.ofNat 32 (bitsOf a 32 32), valid := bitOf a 31, mc := bitOf a 30, queue := BitVec.ofNat 4 (bitsOf a 16 4)
                                            credit := bitsOf a 0 13, fault := 0, sent := 0, inFlight := (channelAt s s.turn o.h.val).inFlight } s)) s

/-- A group that firmware's group tables hold: every group in a domain of one (R204, R418); else the tables are firmware's own (log entry 6). -/
def groupKnown (s : State) (g : Nat) : Bool := s.members.isEmpty || Config.outside s.tick g

/-- The meaning of MCAST (R204). -/
def execMcast (o : CAQ) (s : State) : Host.Outcome State Fault Refusal :=
  issue (.mcast o) (useCAQ o) (fun s =>
    let a := rdS s o.a
    let g := bitsOf a 0 12
    let m := s.core.msgs.members
    let others := m.filter fun p => p.1 != g
    if bitsOf a 12 51 ≠ 0 then msgMisuse 0x07
    else if !bitOf a 63 then .done (s.setMsgs { s.core.msgs with members := others })
    else if !groupKnown s g then msgMisuse 0x07
    else if 16 ≤ others.length then msgMisuse 0x07
    else .done (s.setMsgs { s.core.msgs with members := others ++ [(g, o.q.val)] })) s

/-! ### Receiving instructions (R208-R211) -/

/-- The checks of RECV and RECVS: the queue, the alignment of the cell address and the supervisor region. -/
def recvTrap (s : State) (q : Fin 16) (a : Nat) : Option Eff :=
  if !(queueAt s q).en then some (msgMisuse 0x03)
  else if a % 64 ≠ 0 then some (misaligned a)
  else if !s.cur.priv && touchesSr s.core a 64 then some (forbidden a)
  else none

/-- The meaning of RECV (R208, R209). -/
def execRecv (o : CDAQ) (s : State) : Host.Outcome State Fault Refusal :=
  issue (.recv o) (useCDAQ o) (fun s =>
    let a := bitsOf (rdS s o.a) 0 22
    match recvTrap s o.q a with
    | some e => e
    | none =>
      if s.cur.rcvl ≠ 0 then
        let p := s.now + max s.cur.rcvl.toNat 49
        suspend (.recv o.q.val a o.d (some p)) o.s (s.setCur { s.cur with rcvp := BitVec.ofNat 64 p })
      else if (queueAt s o.q).origins.isEmpty then suspend (.recv o.q.val a o.d none) o.s s
      else
        let r := takeEntry s.turn o.q a s
        .done (wrD o.d r.1 1 r.2)) s

/-- The meaning of RECVS (R208). -/
def execRecvs (o : CDAQ) (s : State) : Host.Outcome State Fault Refusal :=
  issue (.recvs o) (useCDAQ o) (fun s =>
    let a := bitsOf (rdS s o.a) 0 22
    match recvTrap s o.q a with
    | some e => e
    | none =>
      if (queueAt s o.q).origins.isEmpty then .done (wrD o.d allOnes 12 s)
      else
        let r := takeEntry s.turn o.q a s
        .done (wrD o.d r.1 12 r.2)) s

/-- The meaning of PEEK (R208). -/
def execPeek (o : CDQ) (s : State) : Host.Outcome State Fault Refusal :=
  issue (.peek o) (useCDQ o) (fun s =>
    let x := queueAt s o.q
    if !x.en then msgMisuse 0x03
    else .done (wrD o.d (if x.origins.isEmpty then allOnes else BitVec.ofNat 64 (x.addr 0)) 12 s)) s

/-- n entries leave the queue. -/
def popEntries (q : Fin 16) : Nat → State → State
  | 0, s => s
  | n + 1, s => popEntries q n (popEntry q s)

/-- The meaning of QFREE (R208): it waits for the stream's earlier loads. -/
def execQfree (o : CAQ) (s : State) : Host.Outcome State Fault Refusal :=
  issue (.qfree o) (useCAQ o) (fun s =>
    let n := (rdS s o.a).toNat
    if !(queueAt s o.q).en then msgMisuse 0x03
    else if n = 0 ∨ (queueAt s o.q).occ < n then msgMisuse 0x06
    else if s.cur.flds.any fun f => !f.arrived then .hold
    else .done (popEntries o.q n s)) s

/-- The status word of a queue (Table 10-6). -/
def queueStatus (x : MsgQueue) : Nat := bit x.en * 2 ^ 63 + x.drop.toNat * 2 ^ 32 + x.occ * 2 ^ 16 + x.head % x.size

/-- The status word of a channel (Table 10-6). -/
def channelStatus (x : Channel) : Nat :=
  bit x.valid * 2 ^ 63 + bit x.mc * 2 ^ 62 + x.fault % 64 * 2 ^ 56 + x.sent.toNat * 2 ^ 16 + x.credit

/-- The meaning of QSTAT (R211). -/
def execQstat (o : CDAH) (s : State) : Host.Outcome State Fault Refusal :=
  issue (.qstat o) (useCDAH o) (fun s =>
    let n := o.h.val
    let v := if bitOf (rdS s o.a) 0 then channelStatus (channelAt s s.turn n)
      else if n < 16 then queueStatus (queueAt s (Fin.ofNat 16 n)) else 0
    .done (wrD o.d (BitVec.ofNat 64 v) 12 s)) s

/-- The meaning of TIMED_RECV_DUE (R209): the promise of the core's stream has come and its entry is taken. -/
def execTimedRecvDue (s : State) : Host.Outcome State Fault Refusal :=
  let t := s.arg.sec
  atCore s.arg.core (tryRecv t) s

/-! ### Membership records (R210) -/

/-- A record appended to the queue that MEMQ names, when EN is set; it is dropped when the queue does not take it. -/
def memqRecord (bytes : Nat) (s : State) : State :=
  let m := s.core.msgs
  let q : Fin 16 := Fin.ofNat 16 m.memq.toNat
  if !m.memqEn then s
  else arriveEntry q { cell := { bytes := BitVec.ofNat 512 bytes, tag := 0 }, origin := BitVec.ofNat 64 (2 ^ 40), bad := false } s

/-- The membership record of module m: 1 for one that left or was reset, 2 for one that joined. -/
def membershipRecord (m code : Nat) (s : State) : State := memqRecord (m + code * 2 ^ 32 + s.now * 2 ^ 64) s

/-- Every channel of the focused core that names module m gets FAULT 5. -/
def faultChannels (m : Nat) (s : State) : State :=
  let f (c : Channel) : Channel := if c.valid && !c.mc && decide (coordModule c.coord = m) then { c with fault := 5, inFlight := [] } else c
  s.setMsgs { s.core.msgs with ctl := s.core.msgs.ctl.map f, copy := s.core.msgs.copy.map f }

end Sys2Proof.Machine
end

