-- ==== Sys2Proof/Machine/Forager.lean ====
section
/-! DEFINITION. The foragers (R318-R339): walks, their legs, lateness and pacing, multicast legs, and the forager instructions. -/

namespace Sys2Proof.Machine

/-! ### Walks -/

/-- A hop's state. -/
def Walk.hop (x : Walk) (h : Nat) : Hop := x.hops[Fin.ofNat 3 h]

/-- A hop's state replaced. -/
def Walk.setHop (x : Walk) (h : Nat) (v : Hop) : Walk := { x with hops := x.hops.set (Fin.ofNat 3 h) v }

/-- The access of a walk's legs, with the privilege of the stream that started it (R318, R387). -/
def Walk.access (x : Walk) (write : Bool) : Access := { asid := x.asid, root := x.root, job := !x.priv, write := write }

/-- The leg has not started: it is only read, or a control leg not yet processed. -/
def LegJob.unstarted (j : LegJob) : Bool := decide (j.state = .read)

/-- A control leg (Table 17-3). -/
def Leg.isControl (l : Leg) : Bool := decide (6 ≤ l.hop)

/-- NEXT: the index of the oldest leg not yet started (R319). -/
def Walk.next (x : Walk) : Nat :=
  match x.legs.find? (·.unstarted) with
  | some j => j.leg.index
  | none => x.readNext

/-- The orders of the legs in flight. -/
def Walk.inFlight (x : Walk) : List Nat := (x.legs.filter fun j => !j.unstarted).map (·.order)

/-- The mark's moment (R337): NEXT equals INDEX or the walk drains; the legs started before it are kept. -/
def Walk.touchMark (x : Walk) : Walk :=
  match x.mark, x.markHit with
  | some (_, _, i), none => if decide (x.state = .draining) || decide (x.next = i) then { x with markHit := some x.inFlight } else x
  | _, _ => x

/-- A function of every core. -/
def mapCores (f : CoreState → CoreState) (s : State) : State := { s with core := f s.core, others := s.others.map f }

/-- A draining walk with no leg in flight becomes idle: its memberships end and its cores' subscriptions, with FGL 0 (R318, R327). -/
def settleWalk (w : Nat) (s : State) : State :=
  let x := walkAt s w
  if decide (x.state = .draining) && x.legs.isEmpty && x.mark.isNone then
    mapCores (fun c => if c.pace.any (fun p => decide (p.walk = w)) then { c with pace := none, mat := { c.mat with fgl := 0 } } else c)
      (setWalk w { x with state := .idle, members := [], job := none } s)
  else s

/-- The walk starts nothing new: legs that are only read are discarded (R318, R322). -/
def drainWalk (w : Nat) (s : State) : State :=
  let x := walkAt s w
  if x.state = .running then
    let y := { x with state := .draining, readNext := x.next, starting := none, legs := x.legs.filter fun j => !j.unstarted }
    settleWalk w (setWalk w y.touchMark s)
  else s

/-- A leg leaves the walk. -/
def Walk.retire (x : Walk) (j : LegJob) : Walk := { x with legs := x.legs.filter fun k => k.order != j.order }

/-- A leg's cells leave the window of its hop. -/
def Walk.shrink (x : Walk) (j : LegJob) : Walk :=
  let h := x.hop j.leg.hop
  x.setHop j.leg.hop { h with infc := h.infc - j.leg.cells }

/-- FGSTOP (R336, Table 17-4): the walk drains, and open legs close. -/
def stopWalk (w : Nat) (s : State) : State :=
  let s1 := drainWalk w s
  let x := walkAt s1 w
  let opens := x.legs.filter fun j => decide (j.state = .open_)
  if x.state = .idle then s1 else settleWalk w (setWalk w (opens.foldl (fun y j => (y.shrink j).retire j) x) s1)

/-- The fault record as a word (Table 17-6). -/
def faultWord (f : WalkFault) : Nat :=
  bit f.pend * 2 ^ 63 + f.more.toNat * 2 ^ 56 + f.code.toNat * 2 ^ 48 + f.index.toNat * 2 ^ 24 + f.wraps.toNat

/-! ### Legs (R320, R321) -/

/-- The leg that 32 bytes, as a number, hold (Table 17-2). -/
def legOf (index n : Nat) : Leg :=
  { index := index, src := BitVec.ofNat 64 n, dst := BitVec.ofNat 64 (n / 2 ^ 64), due := fld n 128 32, cells := fld n 160 24, hop := fld n 184 3
    semen := n.testBit 187, mc := n.testBit 188, listen := n.testBit 189, group := fld n 192 12, sem := fld n 208 6, dep := fld n 216 8
    legno := fld n 224 32 }

/-- The TO of an sf leg has kind 0b01 with its other bits zero (R321). -/
def sfAddress (a : Word) : Bool :=
  decide (bitsOf a 62 2 = 1) && decide (bitsOf a 60 2 = 0) && decide (bitsOf a 28 12 = 0) && decide (bitsOf a 20 4 = 0)

/-- A malformed leg (R321). -/
def legMalformed (n : Nat) : Bool :=
  let l := legOf 0 n
  let common := decide (fld n 190 2 ≠ 0) || decide (fld n 204 4 ≠ 0) || decide (fld n 214 2 ≠ 0) || (decide (3 ≤ l.hop) && decide (l.hop < 6))
  if 6 ≤ l.hop then
    common || decide (fld n 0 128 ≠ 0) || decide (fld n 160 24 ≠ 0) || decide (fld n 187 37 ≠ 0) || (decide (l.hop = 7) && decide (l.due ≠ 0))
  else
    common || decide (l.cells = 0) || decide (l.src.toNat % 64 ≠ 0) || decide (l.dst.toNat % 64 ≠ 0)
      || (if l.listen then !l.mc || decide (l.src ≠ 0) else decide (2 ^ 56 ≤ l.src.toNat))
      || (if l.hop = 2 then !sfAddress l.dst else decide (2 ^ 56 ≤ l.dst.toNat))

/-- The tier of a hop's source (Table 17-3). -/
def hopSource (h : Nat) : Tier := if h = 0 then .pool else if h = 1 then .bulk else .stage

/-- The tier of the destination of a pb or bs hop (Table 17-3). -/
def hopTarget (h : Nat) : Tier := if h = 0 then .bulk else .stage

/-- The page of a leg's address: fault 0x03, 0x04 or 0x02 (Table 17-5). A cell of a described pool page takes its packed tag unit too (R38). -/
def legPage (w va : Nat) (write : Bool) (t : Tier) (s : State) : State × Except Nat Xlat :=
  let r := translateDie (w / 4) s ((walkAt s w).access write) va
  match r.result with
  | .error e => (r.state, .error (if e.kind = 4 then 4 else 3))
  | .ok p => (r.state, if p.packed && !routable s p.tagPa then .error 4 else if p.tier = t then .ok p else .error 2)

/-- The core that an sf TO names. -/
def sfCore (a : Word) : Nat := bitsOf a 43 5 * 8 + bitsOf a 40 3

/-- An sf TO that names a core the module has. -/
def sfReachable (s : State) (a : Word) : Bool :=
  decide (bitsOf a 48 12 = s.ownModule) && decide (bitsOf a 43 5 < 24) && s.isPresent (sfCore a)

/-- The scratchpad address of cell i of an sf leg at its target, or fault 0x05 (R324, Table 17-5). -/
def sfCell (s : State) (job : Bool) (to_ : Word) (i : Nat) : Except Nat Nat :=
  let f := frameOf s (sfCore to_) (Fin.ofNat 16 (bitsOf to_ 24 4))
  let off := bitsOf to_ 0 20 + 64 * i
  let a := frameBase f true + off
  if !frmValid f || decide (frmSize f < off + 64) then .error 5
  else if job && (coreAt (sfCore to_) s).any (fun c => touchesSr c a 64) then .error 5
  else .ok a

/-- A write by an sf leg at a core. -/
def sfWrite (to_ : Word) (f : CoreState → CoreState) (s : State) : State := onCore (sfCore to_) (fun t => t.setCore (f t.core)) s

/-- Cell i of a leg written at its destination (R324). A cell that could not be read is stored as poison (R190). -/
def putLegCell (w : Nat) (l : Leg) (i : Nat) (d : CellData) (bad : Bool) (s : State) : State × Option Nat :=
  if l.hop = 2 then
    match sfCell s (!(walkAt s w).priv) l.dst i with
    | .error e => (s, some e)
    | .ok a => (sfWrite l.dst (fun c => if bad then spadPutPoisoned c a d.bytes else spadPutCell c a d) s, none)
  else
    match legPage w (l.dst.toNat + 64 * i) true (hopTarget l.hop) s with
    | (s1, .error e) => (s1, some e)
    | (s1, .ok p) => (writeCellAt s1 p d, none)

/-- F = 0xFF written into destination cell i, wherever it is writable (R330): the frame of another module's core judges for itself. -/
def poisonLegCell (w : Nat) (l : Leg) (i : Nat) (s : State) : State :=
  if l.hop = 2 then
    if bitsOf l.dst 48 12 ≠ s.ownModule then
      s.send (bitsOf l.dst 48 12) (.frameWrite
        { module := s.ownModule, who := .nobody, core := sfCore l.dst, frame := Fin.ofNat 16 (bitsOf l.dst 24 4), off := bitsOf l.dst 0 20 + 64 * i
          bytes := [], tag := none, poison := true })
    else if sfReachable s l.dst then
      match sfCell s (!(walkAt s w).priv) l.dst i with
      | .error _ => s
      | .ok a => sfWrite l.dst (fun c => spadPutTag (spoilSample c a 64) a poisonTag) s
    else s
  else
    let r := translateDie (w / 4) s ((walkAt s w).access true) (l.dst.toNat + 64 * i)
    match r.result with
    | .error _ => r.state
    | .ok p => poisonMem r.state p

/-- The n destination cells from cell i poisoned. -/
def poisonLeg (w : Nat) (l : Leg) : Nat → Nat → State → State
  | 0, _, s => s
  | n + 1, i, s => poisonLeg w l n (i + 1) (poisonLegCell w l i s)

/-- A cell read from a leg's source (R324, R190): the state with its counts, the cell with the bytes of an unreadable unit free, and whether it is to be
poisoned. -/
def readLegCell (w : Nat) (p : Xlat) (s : State) : State × CellData × Bool :=
  let r := readCellAt s p
  let y := p.cell
  let free := (Config.freeCell s.tick y.pa).toNat
  let half (u k : Nat) : Nat := (if unitBad s p u then free else r.data.bytes.toNat) / 2 ^ k % 2 ^ 256 * 2 ^ k
  let s1 := reportUnits y 64 (countCell p s)
  if r.bad then
    (onWalk w (fun x => { x with poison := satCount x.poison }) s1,
      { bytes := BitVec.ofNat 512 (half y.pa 0 + half (y.pa + 32) 256), tag := poisonTag }, true)
  else (s1, r.data, false)

/-- The n cells from cell i moved in ascending order; a fault poisons the rest (R324, R330). -/
def moveCells (w : Nat) (l : Leg) : Nat → Nat → State → State × Option Nat
  | 0, _, s => (s, none)
  | n + 1, i, s =>
    match legPage w (l.src.toNat + 64 * i) false (hopSource l.hop) s with
    | (s1, .error e) => (poisonLeg w l (n + 1) i s1, some e)
    | (s1, .ok p) =>
      match readLegCell w p s1 with
      | (s2, d, bad) =>
        match putLegCell w l i d bad s2 with
        | (s3, some e) => (poisonLeg w l (n + 1) i s3, some e)
        | (s3, none) => moveCells w l n (i + 1) s3

/-- The n cells from cell i of a source leg, read once (R328): the state, the cells read in order, and the fault that ends the reading. -/
def readLegCells (w : Nat) (l : Leg) : Nat → Nat → State → State × List (CellData × Bool) × Option Nat
  | 0, _, s => (s, [], none)
  | n + 1, i, s =>
    match legPage w (l.src.toNat + 64 * i) false (hopSource l.hop) s with
    | (s1, .error e) => (s1, [], some e)
    | (s1, .ok p) =>
      let r := readLegCell w p s1
      let m := readLegCells w l n (i + 1) r.1
      (m.1, r.2 :: m.2.1, m.2.2)

/-- The cells held for a multicast leg written from cell i on: the state, and the first fault with its cell. -/
def putHeldCells (w : Nat) (l : Leg) : Nat → List (CellData × Bool) → State → State × Option (Nat × Nat)
  | _, [], s => (s, none)
  | i, c :: rest, s =>
    match putLegCell w l i c.1 c.2 s with
    | (s1, some e) => (s1, some (e, i))
    | (s1, none) => putHeldCells w l (i + 1) rest s1

/-- Where n bytes of a walk's virtual memory lie at present: runs [lo, hi) of physical memory. -/
def spanBoxes (s : State) (w va n : Nat) (write : Bool) : List (Nat × Nat) :=
  (granules va n).filterMap fun g =>
    match (translateDie (w / 4) s ((walkAt s w).access write) g).result with
    | .ok p => some (p.pa, p.pa + (min (va + n) ((g / 2 ^ 16 + 1) * 2 ^ 16) - g))
    | .error _ => none

/-- The destination of a leg where it lies at present: runs [lo, hi) of physical memory (space 0) or of a core's scratchpad. -/
def legBoxes (s : State) (w : Nat) (l : Leg) : List (Nat × Nat × Nat) :=
  if l.hop = 2 then
    let b := frameBase (frameOf s (sfCore l.dst) (Fin.ofNat 16 (bitsOf l.dst 24 4))) true + bitsOf l.dst 0 20
    [(bitsOf l.dst 40 20 + 1, b, b + 64 * l.cells)]
  else (spanBoxes s w l.dst.toNat (64 * l.cells) true).map fun b => (0, b)

/-- Destination cells of two legs of one hop meet. -/
def legsMeet (s : State) (w : Nat) (a b : Leg) : Bool :=
  decide (a.hop = b.hop) && (legBoxes s w a).any fun x => (legBoxes s w b).any fun y =>
    decide (x.1 = y.1) && decide (x.2.1 < y.2.2) && decide (y.2.1 < x.2.2)

/-- The leg has written its last cell. -/
def LegJob.done (j : LegJob) : Bool := decide (j.state = .written) || decide (j.state = .signalling)

/-- An earlier leg of the hop has yet to write a cell that leg j writes: the writes of two legs land in walk order (R324). -/
def heldBack (s : State) (w : Nat) (j : LegJob) : Bool :=
  (walkAt s w).legs.any fun k => decide (k.order < j.order) && !k.unstarted && !k.done && legsMeet s w k.leg j.leg

/-- A walk's access to n bytes from `va` meets a bank that is blocked, in its table walks or its cells: it waits (R403). -/
def walkSpanHeld (s : State) (w va n : Nat) (write : Bool) : Bool :=
  let x := (walkAt s w).access write
  !s.tiers.blocked.isEmpty
    && ((granules va n).any (fun g => walkHeldBy (w / 4) ((dieTlb (w / 4) s).find? fun e => e.maps x.asid g) s x g)
      || (spanBoxes s w va n write).any fun b => bankHeld s b.1 (b.2 - b.1))

/-- What a leg reads lies in a bank that is blocked (R403). -/
def legReadHeld (s : State) (w : Nat) (l : Leg) : Bool := !l.listen && walkSpanHeld s w l.src.toNat (64 * l.cells) false

/-- What a leg writes lies in a bank that is blocked (R403). -/
def legWriteHeld (s : State) (w : Nat) (l : Leg) : Bool := decide (l.hop ≠ 2) && walkSpanHeld s w l.dst.toNat (64 * l.cells) true

/-- A leg of a walk replaced. -/
def Walk.setLeg (x : Walk) (j : LegJob) : Walk := { x with legs := x.legs.map fun k => if k.order = j.order then j else k }

/-- The leg of a walk at a place in walk order. -/
def legAt (s : State) (w o : Nat) : Option LegJob := (walkAt s w).legs.find? fun j => decide (j.order = o)

/-- The last cell of a leg has been written or poisoned: the leg lands in this device cycle (R325). -/
def wroteLast (w : Nat) (j : LegJob) (s : State) : State :=
  onWalk w (·.setLeg { j with state := .written, arrive := s.now, moved := j.leg.cells, held := [] }) s

/-- A leg's code in the fault record of its walk (R331). -/
def noteFault (w : Nat) (j : LegJob) (e : Option Nat) (s : State) : State :=
  match e with
  | some c => onWalk w (fun x => x.fail c j.leg.index) s
  | none => s

/-- What a leg holds is written, and what it is to poison is poisoned, unless an earlier leg must write first (R324, R330) or a bank is blocked (R403). -/
def pumpLeg (w o : Nat) (s : State) : State :=
  match legAt s w o with
  | none => s
  | some j =>
    if j.done || heldBack s w j || legWriteHeld s w j.leg then s
    else
      let l := j.leg
      match putHeldCells w l j.moved j.held s with
      | (s1, some (e, i)) => wroteLast w j (poisonLeg w l (l.cells - i) i (noteFault w j (some e) s1))
      | (s1, none) =>
        let m := j.moved + j.held.length
        if j.spoil then wroteLast w j (poisonLeg w l (l.cells - m) m s1)
        else if m = l.cells then wroteLast w j s1
        else onWalk w (·.setLeg { j with moved := m, held := [] }) s1

/-- A leg meets a fault: it is recorded, and the cells not yet written are poisoned (R330). -/
def failLeg (w : Nat) (j : LegJob) (code : Nat) (s : State) : State :=
  pumpLeg w j.order (onWalk w (·.setLeg { j with state := .moving, spoil := true }) (noteFault w j (some code) s))

/-! ### Landing (R325-R327) -/

/-- LATE and LCNT after the landing of a leg due at `d` in cycle `now` (R326). -/
def Hop.landed (h : Hop) (now : Nat) (d : Int) : Hop :=
  let late : Int := (now : Int) - d
  { h with late := max (-(2 ^ 31)) (min (2 ^ 31 - 1) late)
           lcnt := if 0 < late && h.lcnt != BitVec.allOnes 32 then h.lcnt + 1 else h.lcnt }

/-- The pace level that a walk's lateness asks of a subscriber (R327). -/
def paceTarget (x : Walk) (p : Pace) : Nat :=
  let lates := ((List.range 3).filter fun h => bitOf p.hops h).map fun h => (x.hop h).late
  match lates with
  | [] => 0
  | l :: rest =>
    let lmax := rest.foldl max l
    if lmax < (p.th.toNat : Int) then 0 else min 7 (1 + (lmax - (p.th.toNat : Int)).toNat / p.step.toNat)

/-- FGL of a core at a landing of hop h of walk w: it rises at once and falls one level a landing (R327). -/
def paceCore (x : Walk) (w h : Nat) (c : CoreState) : CoreState :=
  match c.pace with
  | none => c
  | some p =>
    if decide (p.walk = w) && bitOf p.hops h then
      let t := paceTarget x p
      let g := c.mat.fgl
      { c with mat := { c.mat with fgl := if g.toNat < t then BitVec.ofNat 3 t else if t < g.toNat then g - 1 else g } }
    else c

/-- An engine signal on a semaphore of a core of this module; `none` when it is lost (R137). -/
def signalOn (n p : Nat) (s : State) : Option State :=
  match focus n s with
  | none => some s
  | some s1 => (signalLocal p s1).map fun s2 => (focus s.core.num s2).getD s2

/-- The core of this module on which a leg signals (R325): that of TO for an sf leg, the steering core otherwise. -/
def signalCore (s : State) (x : Walk) (l : Leg) : Option Nat :=
  let n := if l.hop = 2 then sfCore l.dst else x.steer
  if !l.semen || (decide (l.hop = 2) && decide (bitsOf l.dst 48 12 ≠ s.ownModule)) || (coreAt n s).isNone then none else some n

/-- The signal of a faulted sf leg whose TO names another module. -/
def signalAway (w : Nat) (l : Leg) (s : State) : State :=
  let m := bitsOf l.dst 48 12
  if l.semen && decide (l.hop = 2) && decide (m ≠ s.ownModule) then
    if s.isMember m then
      s.send m (.semaphore (sfCore l.dst)
        { from_ := coordWord s.ownModule (walkAt s w).steer 0, sec := .mat, id := legSignalId w l.index, phys := l.sem, op := .sig, b := 1 })
    else onWalk w (fun x => x.fail 8 l.index) s
  else s

/-- A leg retires, and marks are checked (R325, steps 5 and 6). -/
def retireLeg (w : Nat) (j : LegJob) (s : State) : State := settleWalk w (onWalk w (fun x => (x.retire j).touchMark) s)

/-- A leg that has written its last cell lands: steps 1 to 3 of R325, and the rest at once where no core of the module awaits its signal. -/
def landLeg (w : Nat) (j : LegJob) (s : State) : State :=
  let x := (walkAt s w).shrink j
  let x := x.setHop j.leg.hop ((x.hop j.leg.hop).landed j.arrive j.dueAt)
  let s1 := signalAway w j.leg (mapCores (paceCore x w j.leg.hop) (setWalk w x s))
  if (signalCore s1 x j.leg).isSome then onWalk w (·.setLeg { j with state := .signalling }) s1 else retireLeg w j s1

/-- The signal of a landed leg, an engine signal at its core (R129, R325); a lost one is fault 0x08. -/
def signalLeg (w : Nat) (j : LegJob) (s : State) : State :=
  retireLeg w j (match (signalCore s (walkAt s w) j.leg).map fun n => signalOn n j.leg.sem s with
    | some (some s1) => s1
    | some none => noteFault w j (some 8) s
    | none => s)

/-- Performs an event on a walk: the fault is for a walk the module does not have. -/
def atWalk (w : Nat) (f : State → State) (s : State) : Host.Outcome State Fault Refusal :=
  if w < 8 then .next (f s) else .fault .noSuchAgent

/-! ### Reading and starting legs (R322, R323) -/

/-- The walk can read its next leg: at most 64 are read and not started, and a control leg is processed before the next is read. -/
def canReadLeg (x : Walk) : Bool :=
  decide (x.state = .running) && decide ((x.legs.filter (·.unstarted)).length < 64) && x.legs.all fun j => !(j.unstarted && j.leg.isControl)

/-- The walk reads its next leg (R322, R335). -/
def readLeg (w : Nat) (s : State) : State :=
  let x := walkAt s w
  if !canReadLeg x then s
  else
    let r := translateDie (w / 4) s (x.access false) (x.base + 32 * x.readNext)
    let bad (s : State) : State := drainWalk w (onWalk w (fun x => x.fail 1 x.readNext) s)
    match r.result with
    | .error _ => bad r.state
    | .ok p =>
      let c := readCellAt r.state p
      let n := memNum r.state p.pa 32
      let read := countRead p.tier p.desc p.pa 32 r.state
      if c.bad then bad (reportUnits p 32 read)
      else if decide (tagF c.data.tag = 0xFF) || legMalformed n then bad read
      else
        let l := legOf x.readNext n
        let origin : Word := match x.starting with
          | some (delay, t) => BitVec.ofInt 64 ((t : Int) + delay - (if l.isControl then 0 else (l.due : Int)))
          | none => x.origin
        let j : LegJob :=
          { leg := l, order := x.order, dueAt := origin.toInt + l.due, state := .read, moved := 0, arrive := 0, held := [], spoil := false, source := none }
        onWalk w (fun x => { x with legs := x.legs ++ [j], order := x.order + 1, readNext := x.readNext + 1, readAt := s.now, starting := none
                                    origin := origin
                                    sent := if l.mc && !l.listen then x.sent.filter (· != (l.group, l.legno)) else x.sent }.touchMark) read

/-- The meaning of LEG_READ (R322): walk `core` of the module reads its next leg. -/
def execLegRead (s : State) : Host.Outcome State Fault Refusal :=
  atWalk s.arg.core (readLeg s.arg.core) s

/-- A leg may start (R323). -/
def canStartLeg (s : State) (w : Nat) (j : LegJob) : Bool :=
  let x := walkAt s w
  let h := x.hop j.leg.hop
  decide (x.state = .running) && j.unstarted && !j.leg.isControl
    && (x.legs.all fun k => !(decide (k.order < j.order) && k.unstarted && (decide (k.leg.hop = j.leg.hop) || k.leg.isControl)))
    && decide (j.dueAt - (h.lead.toNat : Int) ≤ (s.now : Int))
    && decide (0 < h.win) && (decide (h.infc = 0) || decide (h.infc + j.leg.cells ≤ h.win))
    && (decide (j.leg.dep = 0) || x.legs.all fun k => k.order + j.leg.dep != j.order || decide (k.state = .signalling))

/-- The fault found at a leg's start: 0x02, 0x05 or 0x06 (Table 17-5). -/
def legStartFault (s : State) (x : Walk) (l : Leg) : Option Nat :=
  if decide (l.hop = 2) && decide (bitsOf l.dst 48 12 ≠ s.ownModule) then some 2
  else if decide (l.hop = 2) && !sfReachable s l.dst then some 5
  else if l.listen && !x.members.contains l.group then some 6
  else none

/-- A ready notice arriving at the foragers of this module. -/
def noticeEvent (n : Notice) : Event :=
  { i := .readyNotice, arg := { core := n.walk, sec := .ctl, a := n.group, b := n.legno, data := .word (BitVec.ofNat 64 n.module) } }

/-- A leg starts (R323, R328): its cells enter the window, and a transfer begins, a source leg waits, or a listening leg opens. -/
def startLeg (w o : Nat) (s : State) : State :=
  match legAt s w o with
  | none => s
  | some j =>
    if !canStartLeg s w j then s
    else
      let x := walkAt s w
      let l := j.leg
      let h := x.hop l.hop
      let k : LegJob := { j with state := if l.listen then .open_ else if l.mc then .waiting else .moving, arrive := s.now + Config.fetchLatency s.tick }
      let s1 := { setWalk w ((x.setHop l.hop { h with infc := h.infc + l.cells }).setLeg k).touchMark s with tick := s.tick + 1 }
      match legStartFault s x l with
      | some e => failLeg w k e s1
      | none =>
        if l.listen then
          (s.members.reverse.foldl (fun t m => t.send m (.legReady l.group l.legno w)) s1).raise
            [noticeEvent { group := l.group, legno := l.legno, module := s.ownModule, walk := w }]
        else s1

/-- The meaning of LEG_START (R323): leg `a` of walk `core` starts when its conditions hold. -/
def execLegStart (s : State) : Host.Outcome State Fault Refusal :=
  atWalk s.arg.core (startLeg s.arg.core s.arg.a) s

/-- A control leg is processed once every earlier leg has started (R323). -/
def controlLeg (w : Nat) (s : State) : State :=
  let x := walkAt s w
  match x.legs.find? (·.unstarted) with
  | none => s
  | some j =>
    if !(decide (x.state = .running) && j.leg.isControl) then s
    else
      let y := { x with legs := x.legs.filter fun k => k.order != j.order }
      if j.leg.hop = 6 then
        setWalk w { y with origin := y.origin + BitVec.ofNat 64 j.leg.due, readNext := 0, wraps := y.wraps + 1 }.touchMark s
      else drainWalk w (setWalk w y s)

/-- The meaning of CONTROL_LEG (R323): the oldest leg of walk `core` not started is a WRAP or END, and is processed. -/
def execControlLeg (s : State) : Host.Outcome State Fault Refusal :=
  atWalk s.arg.core (controlLeg s.arg.core) s

/-! ### Multicast legs (R328) -/

/-- Walks of this module that have joined a group. -/
def groupWalks (s : State) (g : Nat) : List Nat := (List.range 8).filter fun w => (walkAt s w).members.contains g

/-- A source leg holds a ready notice from every forager that is a member of its group. What the foragers of other modules have sent is
theirs (log entry 6). -/
def allReady (s : State) (l : Leg) : Bool :=
  ((groupWalks s l.group).all fun w => s.notices.any fun n =>
      decide (n.group = l.group) && decide (n.legno = l.legno) && decide (n.module = s.ownModule) && decide (n.walk / 4 = w / 4))
    && (s.members.isEmpty || Config.outside s.tick l.group)

/-- A waiting source leg may begin reading (R328), once no bank that it reads is blocked (R403). -/
def canSend (s : State) (w : Nat) (j : LegJob) : Bool :=
  decide (j.state = .waiting) && !legReadHeld s w j.leg && (allReady s j.leg || decide (j.dueAt ≤ (s.now : Int)))

/-- A cell of a multicast leg, from source `src` = 8 x module + walk, on its way to walk `w` of this module, with whether it could not be read. -/
def legCellEvent (src g n cells : Nat) (c : CellData × Bool) (w : Nat) : Event :=
  { i := .multicastCellArrival, arg := { core := w, sec := .ctl, a := src * 2 ^ 44 + g * 2 ^ 32 + n, b := cells, data := .legCell c.1 c.2 } }

/-- A cell of a multicast leg on its way to every walk of this module that has joined the group. -/
def legCellEvents (s : State) (src g n cells : Nat) (c : CellData × Bool) : List Event := (groupWalks s g).map (legCellEvent src g n cells c)

/-- A source leg reads its source once, sends each cell into the group and writes its own TO (R328). A fault at its own TO does not end the sending. -/
def sendLeg (w o : Nat) (s : State) : State :=
  match legAt s w o with
  | none => s
  | some j =>
    if !canSend s w j then s
    else
      let l := j.leg
      let s1 := { onWalk w (fun x => { x with sent := (l.group, l.legno) :: x.sent }) s with
        notices := s.notices.filter fun n => !(decide (n.group = l.group) && decide (n.legno = l.legno)) }
      match readLegCells w l l.cells 0 s1 with
      | (s2, cells, e) =>
        let k := { j with state := LegState.moving, held := cells, spoil := e.isSome }
        let s3 := onWalk w (·.setLeg k) (noteFault w j e { s2 with tick := s2.tick + 1 })
        let away := cells.flatMap fun c => s.members.map fun m => (m, FlitAct.legCell l.group l.legno w l.cells c.1 c.2)
        pumpLeg w o ((away.foldl (fun t p => t.send p.1 p.2) s3).raise
          (cells.flatMap fun c => legCellEvents s (s.ownModule * 8 + w) l.group l.legno l.cells c))

/-- The meaning of SOURCE_LEG_SEND (R328): source leg `a` of walk `core` sends. -/
def execSourceLegSend (s : State) : Host.Outcome State Fault Refusal :=
  atWalk s.arg.core (sendLeg s.arg.core s.arg.a) s

/-- The answer "gone" to a listener (R328). -/
def answerGone (n : Notice) (s : State) : State :=
  if n.module = s.ownModule then
    s.raise [{ i := .goneAnswer, arg := { core := n.walk, sec := .ctl, a := n.group, b := n.legno, data := .none } }]
  else s.send n.module (.legGone n.group n.legno n.walk)

/-- A ready notice is held, or answered "gone" when the source has begun reading (R328). -/
def takeNotice (n : Notice) (s : State) : State :=
  if (List.range 8).any fun w => (walkAt s w).sent.contains (n.group, n.legno) then answerGone n s
  else if s.notices.contains n then s
  else { s with notices := s.notices ++ [n] }

/-- The meaning of READY_NOTICE (R328): a notice for leg number `b` of group `a` from walk `core` of the module in `data`. -/
def execReadyNotice (s : State) : Host.Outcome State Fault Refusal :=
  match s.arg.data with
  | .word m => .next (takeNotice { group := s.arg.a, legno := s.arg.b, module := m.toNat, walk := s.arg.core } s)
  | _ => .fault .malformedEvent

/-- The listening leg of a walk that takes a cell of a group and leg number from source `src`: an open one, or a moving one that has taken its first
cell from there (R328). -/
def listening (x : Walk) (src g n : Nat) : Option LegJob :=
  x.legs.find? fun j => j.leg.listen && decide (j.leg.group = g) && decide (j.leg.legno = n)
    && (decide (j.state = .open_) || (decide (j.state = .moving) && !j.spoil && decide (j.source = some src) && decide (j.moved + j.held.length < j.leg.cells)))

/-- The open listening leg for a group and leg number faults with 0x06 (R328). -/
def goneLeg (w g n : Nat) (s : State) : State :=
  match (walkAt s w).legs.find? fun j => j.leg.listen && decide (j.state = .open_) && decide (j.leg.group = g) && decide (j.leg.legno = n) with
  | some j => failLeg w j 6 s
  | none => s

/-- The meaning of GONE_ANSWER (R328): the source of leg number `b` of group `a` has begun without walk `core`. -/
def execGoneAnswer (s : State) : Host.Outcome State Fault Refusal :=
  atWalk s.arg.core (goneLeg s.arg.core s.arg.a s.arg.b) s

/-- A cell of a multicast leg from source `src` arrives at a walk (R328); one that could not be read is written as poison (R190, R324). -/
def arriveCell (w src g n announced : Nat) (c : CellData × Bool) (s : State) : State :=
  let s := { s with notices := s.notices.filter fun m => !(decide (m.group = g) && decide (m.legno = n)) }
  match listening (walkAt s w) src g n with
  | none => onWalk w (fun x => { x with drop := satCount x.drop }) s
  | some j =>
    if announced ≠ j.leg.cells then failLeg w j 6 s
    else pumpLeg w j.order (onWalk w (·.setLeg { j with state := .moving, source := some src, held := j.held ++ [c] }) s)

/-- The meaning of MULTICAST_CELL_ARRIVAL (R328): a cell of source, group and leg number `a` = source x 2^44 + group x 2^32 + LEGNO, of a leg of `b`
cells, at walk `core`. -/
def execMulticastCellArrival (s : State) : Host.Outcome State Fault Refusal :=
  match s.arg.data with
  | .legCell c bad => atWalk s.arg.core (arriveCell s.arg.core (s.arg.a / 2 ^ 44) (s.arg.a / 2 ^ 32 % 2 ^ 12) (s.arg.a % 2 ^ 32) s.arg.b (c, bad)) s
  | _ => .fault .malformedEvent

/-- A listening leg with no cell within 2^24 device cycles of its due cycle (R328). -/
def isSilent (s : State) (j : LegJob) : Bool := decide (j.state = .open_) && decide (j.dueAt + 2 ^ 24 ≤ (s.now : Int))

/-- A silent source: fault 0x07. -/
def silentLeg (w o : Nat) (s : State) : State :=
  match legAt s w o with
  | some j => if isSilent s j then failLeg w j 7 s else s
  | none => s

/-- The meaning of MULTICAST_SILENCE (R328): listening leg `a` of walk `core` has waited too long. -/
def execMulticastSilence (s : State) : Host.Outcome State Fault Refusal :=
  atWalk s.arg.core (silentLeg s.arg.core s.arg.a) s

/-! ### Landings and marks -/

/-- A transfer may move its cells: its data has arrived, and earlier legs of its hop that write the same cells have written them (R324). -/
def canMove (s : State) (w : Nat) (j : LegJob) : Bool :=
  decide (j.state = .moving) && !j.leg.mc && !j.spoil && decide (j.arrive ≤ s.now) && !heldBack s w j && !legReadHeld s w j.leg && !legWriteHeld s w j.leg

/-- A multicast or faulted leg can write what it has held back. -/
def canPump (s : State) (w : Nat) (j : LegJob) : Bool :=
  decide (j.state = .moving) && (j.spoil || !j.held.isEmpty) && !heldBack s w j && !legWriteHeld s w j.leg

/-- A leg's last cell was written in an earlier device cycle, and of those it is the next in the order of landings: walk order within a cycle (R326). -/
def canLand (s : State) (w : Nat) (j : LegJob) : Bool :=
  decide (j.state = .written) && decide (j.arrive < s.now)
    && (walkAt s w).legs.all fun k => !(decide (k.state = .written) && (decide (k.arrive < j.arrive) || (decide (k.arrive = j.arrive) && decide (k.order < j.order))))

/-- The next event of a leg under way (R324, R325): a transfer moves its cells, what was held back is written, a leg with every cell written lands, and
its signal is given. -/
def advanceLeg (w o : Nat) (s : State) : State :=
  match legAt s w o with
  | none => s
  | some j =>
    if canMove s w j then
      let r := moveCells w j.leg (j.leg.cells - j.moved) j.moved s
      wroteLast w j (noteFault w j r.2 { r.1 with tick := r.1.tick + 1 })
    else if canPump s w j then pumpLeg w o s
    else if canLand s w j then landLeg w j s
    else if j.state = .signalling then signalLeg w j s
    else s

/-- The meaning of LEG_LAND (R324, R325): leg `a` of walk `core` moves its cells, lands, or signals. -/
def execLegLand (s : State) : Host.Outcome State Fault Refusal :=
  atWalk s.arg.core (advanceLeg s.arg.core s.arg.a) s

/-- A landed leg of any walk whose signal core n awaits, with its walk: forager signals come after those of the core's own engines (R129). -/
def signalDue (s : State) (n : Nat) : Option (Nat × Nat) :=
  (List.range 8).findSome? fun w => ((walkAt s w).legs.find? fun j =>
    decide (j.state = .signalling) && decide (signalCore s (walkAt s w) j.leg = some n)).map fun j => (w, j.order)

/-- A mark whose legs have all landed. -/
def markReady (x : Walk) : Bool :=
  match x.markHit with
  | some l => l.all fun o => x.legs.all fun j => j.order != o
  | none => false

/-- The mark fires: its flag is set on its core (R337). -/
def fireMark (w : Nat) (s : State) : State :=
  let x := walkAt s w
  match x.mark with
  | none => s
  | some (c, e, _) =>
    if markReady x then settleWalk w (onCore c (raiseFlag e) (setWalk w { x with mark := none, markHit := none } s)) else s

/-- The meaning of MARK_FIRE (R337): the mark of walk `core` fires. -/
def execMarkFire (s : State) : Host.Outcome State Fault Refusal :=
  atWalk s.arg.core (fireMark s.arg.core) s

/-- The forager fault that awaits delivery at a core (R331): the lowest walk that the core steers. -/
def foragerPending (s : State) (core : Nat) : Option Nat :=
  (List.range 8).find? fun w => (walkAt s w).fault.pend && decide ((walkAt s w).steer = core)

/-- The record of a forager-fault trap (Table 19-2). -/
def foragerRec (s : State) (w : Nat) : TrapRec := mkTrap cForagerFault (w % 4 + w / 4 * 4) (faultWord (walkAt s w).fault)

/-- Delivery clears PEND (R331). -/
def foragerDelivered (w : Nat) (s : State) : State := onWalk w (fun x => { x with fault := { x.fault with pend := false } }) s

/-- The source's module left: a listening leg that takes cells from it takes fault 0x07. Which module the source of an open leg is on is another module's
affair (log entry 6). -/
def sourceLost (m : Nat) (s : State) : State :=
  (List.range 8).foldl (fun s w =>
    (walkAt s w).legs.foldl (fun s j =>
      let lost := match j.state with
        | .open_ => Config.outside s.tick (m * 2 ^ 44 + j.leg.group * 2 ^ 32 + j.leg.legno)
        | .moving => !j.spoil && j.source.any fun k => decide (k / 8 = m)
        | _ => false
      if j.leg.listen && lost then failLeg w j 7 s else s) s) s

/-! ### The instructions (R332-R339) -/

/-- Forager misuse (Table 17-8). -/
def foragerMisuse (reason : Nat) : Eff := misuse cForager reason

/-- The walk of the core's own die that a [1:0] names. -/
def walkOf (s : State) (a : Word) : Nat := dieOf s.core.num * 4 + bitsOf a 0 2

/-- A walk that is not idle is owned by the address space of its job (R318). -/
def ownedHere (s : State) (x : Walk) : Bool := decide (x.state ≠ .idle) && decide (x.asid = s.core.asid)

/-- The ownership check of reason 0x03, which supervisor code passes (R333). -/
def foreign (s : State) (x : Walk) : Bool := !s.cur.priv && decide (x.state ≠ .idle) && !ownedHere s x

/-- FGSTART (R335). A release of every class at die scope, it waits for the stream's far accesses (R322). -/
def fgstartBody (o : ABP) (s : State) : Eff :=
  let a := rdS s o.a
  let b := rdS s o.b
  let w := dieOf s.core.num * 4 + bitsOf b 32 2
  if decide (bitsOf a 56 8 ≠ 0) || decide (bitsOf b 58 6 ≠ 0) then foragerMisuse 0x01
  else if a.toNat % 32 ≠ 0 then misaligned a.toNat
  else if (walkAt s w).state ≠ .idle then foragerMisuse 0x02
  else if farOutstanding s (BitVec.allOnes 16) then .hold
  else
    .done (setWalk w { Walk.reset with
      state := .running, job := s.core.place.map (·.1), asid := s.core.asid, root := s.core.ptroot, priv := s.cur.priv, steer := s.core.num
      base := a.toNat, origin := (walkAt s w).origin, starting := some (bitsOf b 0 32, s.now), readNext := bitsOf b 34 24 } s)

/-- The meaning of FGSTART (R335). -/
def execFgstart (o : ABP) (s : State) : Host.Outcome State Fault Refusal :=
  issue (.fgstart o) (useABP o) (fgstartBody o) s

/-- The meaning of FGSTOP (R336). -/
def execFgstop (o : AP) (s : State) : Host.Outcome State Fault Refusal :=
  issue (.fgstop o) (useAP o) (fun s =>
    let a := rdS s o.a
    let w := walkOf s a
    if bitsOf a 2 62 ≠ 0 then foragerMisuse 0x01
    else if foreign s (walkAt s w) then foragerMisuse 0x03
    else .done (stopWalk w s)) s

/-- The walk state word (Table 17-9). -/
def walkWord (mine : Bool) (x : Walk) : Nat :=
  (match x.state with
    | .idle => 0
    | .running => 1
    | .draining => 2) * 2 ^ 62 + bit mine * 2 ^ 61 + bit x.mark.isSome * 2 ^ 60 + x.next % 2 ^ 24 * 2 ^ 32 + min 255 x.inFlight.length * 2 ^ 24
    + x.members.length % 32 * 2 ^ 16 + x.wraps.toNat

/-- The word that FGSTAT returns (R338). -/
def fgstatWord (s : State) (a : Word) : Word :=
  let x := walkAt s (walkOf s a)
  if decide (x.state ≠ .idle) && !ownedHere s x then
    if bitsOf a 4 4 = 0 then BitVec.ofNat 64 (walkWord false x / 2 ^ 62 * 2 ^ 62) else 0
  else match bitsOf a 4 4 with
    | 0 => BitVec.ofNat 64 (walkWord (ownedHere s x) x)
    | 1 => x.origin
    | 2 => BitVec.ofNat 64 x.base
    | 3 => BitVec.ofNat 64 (faultWord x.fault)
    | 4 => BitVec.ofNat 64 (x.poison * 2 ^ 32 + x.drop)
    | 5 => BitVec.ofNat 64 s.now - x.origin
    | _ => 0

/-- The meaning of FGSTAT (R338). -/
def execFgstat (o : DAP) (s : State) : Host.Outcome State Fault Refusal :=
  issue (.fgstat o) (useDAP o) (fun s => .done (wrD o.d (fgstatWord s (rdS s o.a)) 16 s)) s

/-- The meaning of FGLATE (R339). -/
def execFglate (o : DAP) (s : State) : Host.Outcome State Fault Refusal :=
  issue (.fglate o) (useDAP o) (fun s =>
    let a := rdS s o.a
    let w := walkOf s a
    let x := walkAt s w
    let n := bitsOf a 2 2
    if n = 3 || !ownedHere s x then .done (wrD o.d 0 16 s)
    else
      let h := x.hop n
      let v := h.lcnt.toNat * 2 ^ 32 + (BitVec.ofInt 32 h.late).toNat
      let s1 := if bitOf a 8 then setWalk w (x.setHop n { h with lcnt := 0 }) s else s
      .done (wrD o.d (BitVec.ofNat 64 v) 16 s1)) s

/-- The checks of reason 0x03 on a walk that must run and be owned. -/
def walkUnusable (s : State) (x : Walk) : Bool := decide (x.state ≠ .running) || foreign s x

/-- The meaning of FGWIN (R337). -/
def execFgwin (o : ABP) (s : State) : Host.Outcome State Fault Refusal :=
  issue (.fgwin o) (useABP o) (fun s =>
    let a := rdS s o.a
    let b := rdS s o.b
    let w := walkOf s a
    let n := bitsOf a 2 2
    if decide (bitsOf a 4 60 ≠ 0) || decide (bitsOf b 24 8 ≠ 0) || decide (n = 3) then foragerMisuse 0x01
    else if walkUnusable s (walkAt s w) then foragerMisuse 0x03
    else .done (onWalk w (fun x => x.setHop n { x.hop n with lead := BitVec.ofNat 32 (bitsOf b 32 32), win := bitsOf b 0 24 }) s)) s

/-- The meaning of FGPACE (R327, R337). -/
def execFgpace (o : ABP) (s : State) : Host.Outcome State Fault Refusal :=
  issue (.fgpace o) (useABP o) (fun s =>
    let a := rdS s o.a
    let b := rdS s o.b
    let w := walkOf s a
    let en := bitOf a 7
    let p : Pace := { walk := w, th := BitVec.ofNat 32 (bitsOf b 0 32), step := BitVec.ofNat 32 (bitsOf b 32 32), hops := BitVec.ofNat 3 (bitsOf a 8 3) }
    if decide (bitsOf a 2 5 ≠ 0) || decide (bitsOf a 11 53 ≠ 0) || (en && (decide (p.step = 0) || decide (p.hops = 0))) then foragerMisuse 0x01
    else if en && walkUnusable s (walkAt s w) then foragerMisuse 0x03
    else .done (s.setCore { s.core with pace := if en then some p else none, mat := { s.core.mat with fgl := 0 } })) s

/-- Memberships that a forager holds (R337). -/
def forageMemberships (s : State) (die : Nat) : Nat := ((List.range 4).map fun i => (walkAt s (die * 4 + i)).members.length).sum

/-- The meaning of FGMC (R337). -/
def execFgmc (o : AP) (s : State) : Host.Outcome State Fault Refusal :=
  issue (.fgmc o) (useAP o) (fun s =>
    let a := rdS s o.a
    let w := walkOf s a
    let g := bitsOf a 16 12
    let x := walkAt s w
    if decide (bitsOf a 2 6 ≠ 0) || decide (bitsOf a 9 7 ≠ 0) || decide (bitsOf a 28 36 ≠ 0) then foragerMisuse 0x01
    else if walkUnusable s x then foragerMisuse 0x03
    else if !bitOf a 8 then .done (setWalk w { x with members := x.members.filter (· != g) } s)
    else if !groupKnown s g then foragerMisuse 0x04
    else if x.members.contains g then .done s
    else if 16 ≤ forageMemberships s (dieOf s.core.num) then foragerMisuse 0x04
    else .done (setWalk w { x with members := x.members ++ [g] } s)) s

/-- The meaning of FGMARK (R337). -/
def execFgmark (o : ABP) (s : State) : Host.Outcome State Fault Refusal :=
  issue (.fgmark o) (useABP o) (fun s =>
    let a := rdS s o.a
    let b := rdS s o.b
    let w := walkOf s a
    let x := walkAt s w
    if decide (bitsOf a 2 62 ≠ 0) || decide (bitsOf b 29 35 ≠ 0) then foragerMisuse 0x01
    else if walkUnusable s x then foragerMisuse 0x03
    else .done (setWalk w ({ x with mark := some (s.core.num, bitsOf b 24 5, bitsOf b 0 24), markHit := none } : Walk).touchMark s)) s

end Sys2Proof.Machine
end

