-- ==== Sys2Proof/Machine/Matrix.lean ====
section
/-! DEFINITION. The matrix class: command words and the queue (R224-R232), configuration, banks and status (R239-R244), and the dispatch and end of
WLOAD, WFLIP and MMUL (R233-R238). -/

namespace Sys2Proof.Machine

/-- The matrix-misuse trap (Table 12-3). -/
def matMisuse (reason : Nat) : Eff := misuse cMatrix reason

/-- The matrix state replaced. -/
def State.setMat (s : State) (m : Matrix) : State := s.setCore { s.core with mat := m }

/-! ### Faults (R238) -/

/-- A matrix fault recorded. `w` is the command word; FTRAP traps the stream at its next boundary. -/
def matFault (code reason : Nat) (w : Word) (fol : Bool) (seq : BitVec 32) (s : State) : State :=
  let f := s.core.mat.mflt
  if f.pend then s.setMat { s.core.mat with mflt := { f with more := if f.more = BitVec.allOnes 6 then f.more else f.more + 1 } }
  else
    let g : MatFault := { pend := true, fol := fol, more := 0, code := BitVec.ofNat 8 code, reason := BitVec.ofNat 8 reason, kind := BitVec.ofNat 2 (bitsOf w 62 2), seq := seq }
    let s1 := s.setMat { s.core.mat with mflt := g }
    if bitOf w 55 then s1.onStr .mat fun st => { st with deferred := st.deferred ++ [{ record := matrixRec g, pc := none }] } else s1

/-! ### Command words (R231, R232) -/

/-- The first byte of the A band or shard that a command word names. -/
def cmdBand (w : Word) : Nat := bitsOf w 6 16 * 64

/-- Z k: the bytes of an A band under a configuration. -/
def bandBytes (cfg : BitVec 8) : Nat := cfgK cfg * (patchSize (cfgA8 cfg) * 64)

/-- Y: the bytes of a weight shard. -/
def shardBytes (cfg : BitVec 8) : Nat := if cfgWw cfg then 294912 else 327680

/-- The reserved fields of a command word of its kind are zero. -/
def wordReserved (w : Word) : Bool :=
  match bitsOf w 62 2 with
  | 2 => decide (bitsOf w 0 55 ≠ 0)
  | 1 => decide (bitsOf w 22 33 ≠ 0) || decide (bitsOf w 0 6 ≠ 0)
  | _ => decide (bitsOf w 42 2 ≠ 0) || decide (bitsOf w 22 14 ≠ 0) || decide (bitsOf w 0 6 ≠ 0)

/-- The scratchpad ranges that a command reads. -/
def wordRanges (m : Matrix) (w : Word) : List (Nat × Nat) :=
  match bitsOf w 62 2 with
  | 0 => (cmdBand w, bandBytes m.cfg) ::
      (if bitOf w 41 then [(m.abv.toNat + 2 * bitsOf w 44 11, 2), (m.bbv.toNat, 2 * (cfgCols m.cfg / 64))] else [])
  | 1 => [(cmdBand w, shardBytes m.cfg)]
  | _ => []

/-- The checks of a command word in their order: a reason of Table 12-3, or none (R232). -/
def wordReason (m : Matrix) (kind : Nat) (w : Word) : Option Nat :=
  let cfg := m.cfg
  if bitsOf w 62 2 ≠ kind then some 0x01
  else if wordReserved w then some 0x02
  else if kind = 0 ∧ ((if cfgCols cfg ≤ 1024 then 1024 < 128 * bitsOf w 36 3 + cfgCols cfg else bitsOf w 36 3 ≠ 0) ∨ (bitOf w 39 ∧ cfgRows cfg ≠ 32)) then some 0x04
  else if (wordRanges m w).any fun r => decide (spadSize < r.1 + r.2) then some 0x05
  else none

/-- The first address that a range list has inside the supervisor region. -/
def rangesInSr (c : CoreState) (l : List (Nat × Nat)) : Option Nat :=
  (l.find? fun r => touchesSr c r.1 r.2).map fun r => firstInSr c r.1

/-- Entries of the queue at most (R224). -/
def matQueueSize : Nat := 32

/-- A command that has passed its checks enters the queue and counts (R232). -/
def enterMat (w : Word) (fol : Bool) (s : State) : State :=
  let m := s.core.mat
  let e : MatEntry := { word := w, abv := m.abv, bbv := m.bbv, slot := m.slot, fol := fol, reload := false }
  let s1 := s.setMat { m with queue := m.queue ++ [e] }
  if bitOf w 61 then counterUp (bitsOf w 56 5) s1 else s1

/-- WLOAD, WFLIP and MMUL at their issue (R230, R232). -/
def matCommand (kind : Nat) (w : Word) (s : State) : Eff :=
  match wordReason s.core.mat kind w with
  | some r => matMisuse r
  | none =>
    match (if s.cur.priv then none else rangesInSr s.core (wordRanges s.core.mat w)) with
    | some a => forbidden a
    | none => if matQueueSize ≤ s.core.mat.queue.length then .hold else .done (enterMat w false s)

/-- The meaning of WLOAD at its issue (R231, R232). -/
def execWload (o : AP) (s : State) : Host.Outcome State Fault Refusal :=
  issue (.wload o) (useAP o) (fun s => matCommand 1 (rdS s o.a) s) s

/-- The meaning of WFLIP at its issue (R231, R232). -/
def execWflip (o : AP) (s : State) : Host.Outcome State Fault Refusal :=
  issue (.wflip o) (useAP o) (fun s => matCommand 2 (rdS s o.a) s) s

/-- The meaning of MMUL at its issue (R231, R232). -/
def execMmul (o : AP) (s : State) : Host.Outcome State Fault Refusal :=
  issue (.mmul o) (useAP o) (fun s => matCommand 0 (rdS s o.a) s) s

/-- The engine may push the follow-on record of command c (R154, step 3, R237): its writes and those of the engine's earlier commands have performed, its
frame is published, and the queue has room. -/
def mayFollow (s : State) (c : Cmd) : Bool :=
  c.follow && decide (c.fault = 0) && !c.followed && (!c.puben || c.published) && performedAll s c && (earlierCmds s c).all (performedAll s)
    && decide (s.core.mat.queue.length < matQueueSize)

/-- A follow-on record arrives at the queue (R237). -/
def followOn (w : Word) (s : State) : State :=
  let m := s.core.mat
  match wordReason m (if bitsOf w 62 2 = 3 then 0 else bitsOf w 62 2) w with
  | some r => matFault 0x01 r w true m.mseq s
  | none =>
    if (rangesInSr s.core (wordRanges m w)).isSome then matFault 0x03 0 w true m.mseq s else enterMat w true s

/-- The meaning of FOLLOW_ON_ARRIVAL (R237): the record of copy command `a` of the core arrives (R154, step 3). -/
def execFollowOnArrival (s : State) : Host.Outcome State Fault Refusal :=
  let q := BitVec.ofNat 16 s.arg.a
  atCore s.arg.core (fun s => match liveCmd s q with
    | some c => if mayFollow s c then followOn c.cw[14] (setCmd { c with followed := true } s) else s
    | none => s) s

/-! ### Counters and flags of queue entries -/

/-- An entry has finished: its counter falls, unless it was a reload (R233, R245). -/
def finishEntry (e : MatEntry) (s : State) : State :=
  if bitOf e.word 61 && !e.reload then counterDown (bitsOf e.word 56 5) s else s

/-! ### WLOAD (R234) -/

/-- A cell of the scratchpad as the array reads it. -/
def matCell (s : State) (base : Nat) (i : Nat) : CellData := spadCell s.core (base + 64 * i)

/-- The fault of a cell where the formats of `permit` are accepted: 0x07 or 0x06. -/
def cellFault (s : State) (a : Nat) (permit : List Nat) : Option Nat :=
  if spadPoisoned s.core a then some 0x07
  else if permit.contains (tagF (spadTag s.core a)) then none else some 0x06

/-- Data cells of a patch, which stand before its scale cells. -/
def shardData (wide : Bool) : Nat := if wide then 128 else 64

/-- The first fault of a shard in cell order: its code and cell. -/
def shardFault (s : State) (base : Nat) (wide : Bool) : Option (Nat × Nat) :=
  let pc := patchSize wide
  (List.range (if wide then 32 * pc else 64 * pc)).findSome? fun i =>
    (cellFault s (base + 64 * i) (if i % pc < shardData wide then admitW wide else [0x0F])).map fun k => (k, i)

/-- Patches of a shard. -/
def shardPatches (wide : Bool) : Nat := if wide then 32 else 64

/-- The groups of a comb in comb order: patch, row, group (R216). -/
def combGroups (wide : Bool) (cell : Nat → CellData) : List Group × Bool :=
  let l := ((List.range (shardPatches wide)).map fun p => (List.range 64).map fun r => rowGroups wide cell p r).flatten
  ((l.map (·.1)).flatten, l.any (·.2))

/-- The NX of the groups that a fill has decoded when it reads cell i: those whose data and scale cells stand before it (R217, R234). -/
def decodedFlags (wide : Bool) (cell : Nat → CellData) (i : Nat) : FlagSet :=
  let pc := patchSize wide
  let whole := (List.range (i / pc)).any fun p => (List.range 64).any fun r => (rowGroups wide cell p r).2
  let rest := (List.range (min 64 (4 * (i % pc - shardData wide)))).any fun r => (rowGroups wide cell (i / pc) r).2
  if whole || rest then fNX else 0

/-- The head of the queue removed, and the mark moved with it. -/
def popHead (m : Matrix) : Matrix := { m with queue := m.queue.drop 1, mark := m.mark.map fun k => k - 1 }

/-- A WLOAD is dispatched (R234, R236, R301): the shard is read, the sampler judges it, and the fill begins. -/
def dispatchWload (e : MatEntry) (s : State) : State :=
  let m := s.core.mat
  let wide := cfgWw m.cfg
  let base := cmdBand e.word
  let pc := patchSize wide
  let cell := matCell s base
  let fault := shardFault s base wide
  let g := combGroups wide cell
  let s0 := if m.filling.record.samp then discardUntapped s else s
  let rec_ : CombRecord := { valid := true, ww := wide, slot := e.slot, samp := false, addr := BitVec.ofNat 16 (bitsOf e.word 6 16) }
  let j := judge e.slot e.reload ((List.range (shardPatches wide * pc)).map cell) s0
  let m1 := popHead j.1.core.mat
  let flags := match fault with
    | some k => decodedFlags wide cell k.2
    | none => if g.2 then fNX else 0
  { j.1.setMat { m1 with fillState := .loading, filling := { record := { rec_ with samp := j.2 }, groups := g.1 }
                         fill := some { entry := e, ends := s.ccc + shardBytes m.cfg / 1024, flags := flags, fault := fault.map (·.1) } } with tick := s.tick + 1 }

/-- A WLOAD has written its last cell, or its fault ends it (R234, Table 11-1). -/
def endFill (s : State) : State :=
  match s.core.mat.fill with
  | none => s
  | some f =>
    let m := s.core.mat
    match f.fault with
    | none => finishEntry f.entry (accrueTo .mat f.flags (s.setMat { m with fill := none, fillState := .loaded }))
    | some k =>
      let s1 := if m.filling.record.samp then discardUntapped s else s
      let m1 := s1.core.mat
      let s2 := s1.setMat { m1 with fill := none, fillState := .empty, filling := { m1.filling with record := CombRecord.reset } }
      finishEntry f.entry (matFault k 0 f.entry.word f.entry.fol m.mseq (accrueTo .mat f.flags s2))

/-! ### WFLIP (R235) -/

/-- A WFLIP is dispatched: the combs exchange roles, or it faults. A sample whose comb leaves residence untapped is discarded. -/
def dispatchWflip (e : MatEntry) (s : State) : State :=
  let m := popHead s.core.mat
  if m.fillState = .loaded then
    let s1 := if m.resident.record.samp then discardUntapped s else s
    finishEntry e (s1.setMat { m with residentValid := true, resident := m.filling, fillState := .empty, filling := { record := CombRecord.reset, groups := m.resident.groups } })
  else finishEntry e (matFault 0x11 0 e.word e.fol m.mseq (s.setMat m))

/-! ### MMUL (R233) -/

/-- The row of the band that row i of an operation reads (R215). -/
def bandRow (cfg : BitVec 8) (w : Word) (i : Nat) : Nat := if cfgRows cfg = 32 then 32 * bit (bitOf w 39) + i else i

/-- The fault of an A row in one K block: its data cells, then its scale cell. -/
def rowFault (s : State) (base : Nat) (cfg : BitVec 8) (blk r : Nat) : Option Nat :=
  let wide := cfgA8 cfg
  let b := base + 64 * (blk * patchSize wide)
  let data := if wide then [2 * r, 2 * r + 1] else [r]
  match data.findSome? fun i => cellFault s (b + 64 * i) (admitA cfg) with
  | some k => some k
  | none => cellFault s (b + 64 * ((if wide then 128 else 64) + r / 4)) [0x0F]

/-- The first fault of the operation's A cells and band scales (R233). It reads every cell of its band, whichever half it computes (R219). -/
def mmulFault (s : State) (e : MatEntry) : Option Nat :=
  let cfg := s.core.mat.cfg
  let rows := (List.range 64).findSome? fun r => (List.range (cfgK cfg)).findSome? fun b => rowFault s (cmdBand e.word) cfg b r
  match rows with
  | some k => some k
  | none =>
    if bitOf e.word 41 then
      let a := e.abv.toNat + 2 * bitsOf e.word 44 11
      if (a :: (List.range (cfgCols cfg / 64)).map fun j => e.bbv.toNat + 2 * j).any fun x => spadPoisoned s.core x then some 0x07 else none
    else none

/-- The groups of a column of the resident comb at stage s (R216). -/
def combColumn (m : Matrix) (groups : List Group) (st j : Nat) : List Group :=
  let p := weightPlace m.cfg st j
  (groups.drop ((p.1 * 64 + p.2) * 16)).take 16

/-- The chain sums of a tile, row by row, with their flags and the NX of alignments (R221). -/
def tileSums (s : State) (e : MatEntry) : List (BitVec 32) × FlagSet :=
  let m := s.core.mat
  let cfg := m.cfg
  let cell := matCell s (cmdBand e.word)
  let rows := (List.range (cfgRows cfg)).map fun i =>
    let a := (List.range (cfgK cfg)).map fun b => rowGroups (cfgA8 cfg) cell b (bandRow cfg e.word i)
    let r := (List.range (cfgCols cfg)).map fun j => elementSum (cfgK cfg) (fun b => ((a[b]?).map (·.1)).getD []) (fun b => combColumn m m.resident.groups b j)
    (r.map (·.code), r.foldl (fun f x => f ||| x.flags) (if a.any (·.2) then fNX else 0))
  ((rows.map (·.1)).flatten, rows.foldl (fun f x => f ||| x.2) 0)

/-- The effective pace level (R226). -/
def paceLevel (m : Matrix) : Nat := max m.swl.toNat (max m.fgl.toNat m.therm.toNat)

/-- The broadcast unit is idle: no dispatched MMUL has a plane left (R223). -/
def broadcastIdle (s : State) : Bool := s.core.mat.running.all fun j => decide (j.lastPlane < s.ccc)

/-- An MMUL at the head with the broadcast unit idle: the level in force fixes its delay, behind a mark too, and after the delay it is dispatched (R226,
R233). -/
def dispatchMmul (e : MatEntry) (s : State) : State :=
  let m := s.core.mat
  let delay := 64 * (2 ^ paceLevel m - 1)
  if m.paceUntil.isNone && (decide (0 < delay) || decide (m.mark = some 0)) then s.setMat { m with paceUntil := some (s.ccc + delay) }
  else
    let m1 := { popHead m with mseq := m.mseq + 1, paceUntil := none }
    let s1 := s.setMat m1
    if !m.residentValid then finishEntry e (matFault 0x10 0 e.word e.fol m1.mseq s1)
    else
      let cfg := m.cfg
      let last := s.ccc + cfgRows cfg * cfgPlanes cfg - 1
      let job : MmulJob := { entry := e, seq := m1.mseq, lastPlane := last, finish := last + 1 + Config.fetchLatency s.tick % 48, sums := none
                             bandA := 0, bandB := [], flags := 0, tap := none }
      let s2 := { s1 with tick := s1.tick + 1 }
      match mmulFault s e with
      | some k => matFault k 0 e.word e.fol m1.mseq (s2.setMat { m1 with running := m1.running ++ [job] })
      | none =>
        let t := tileSums s e
        let tapped : State × Option AuditTap :=
          if m.resident.record.samp then makeTap cfg (if cfgRows cfg = 32 then bit (bitOf e.word 39) else 0) m1.mseq (matCell s (cmdBand e.word)) t.1 s2 else (s2, none)
        let job1 := { job with sums := some t.1, flags := t.2, tap := tapped.2
                               bandA := BitVec.ofNat 16 (spadNum s.core (e.abv.toNat + 2 * bitsOf e.word 44 11) 2)
                               bandB := (List.range (cfgCols cfg / 64)).map fun j => BitVec.ofNat 16 (spadNum s.core (e.bbv.toNat + 2 * j) 2) }
        tapped.1.setMat { m1 with resident := { m1.resident with record := { m1.resident.record with samp := false } }, running := m1.running ++ [job1] }

/-- A bank element's key. -/
def bankKey (r c : Nat) : Nat := 1024 * r + c

/-- The working bank (R228). -/
def workBank (m : Matrix) : List (Nat × BitVec 32) := if m.wsel then m.bank1 else m.bank0
/-- The visible bank. -/
def visBank (m : Matrix) : List (Nat × BitVec 32) := if m.wsel then m.bank0 else m.bank1
/-- The working bank replaced. -/
def setWork (m : Matrix) (b : List (Nat × BitVec 32)) : Matrix := if m.wsel then { m with bank1 := b } else { m with bank0 := b }
/-- The visible bank replaced. -/
def setVis (m : Matrix) (b : List (Nat × BitVec 32)) : Matrix := if m.wsel then { m with bank0 := b } else { m with bank1 := b }

/-- The place in the bank of element (i, j) of a tile (R215). -/
def tilePlace (cfg : BitVec 8) (w : Word) (i j : Nat) : Nat :=
  if cfgCols cfg ≤ 1024 then bankKey i (128 * bitsOf w 36 3 + j) else bankKey (i + 32 * (j / 1024)) (j % 1024)

/-- One element landing (R221): accumulation or overwrite, then the final step. -/
def landElement (job : MmulJob) (old sum : BitVec 32) (j : Nat) : F32 :=
  let a : F32 := if bitOf job.entry.word 40 then addF32 old sum else { code := sum, flags := 0 }
  if bitOf job.entry.word 41 then
    let x := (f32 a.code).mul (decodeFmt .bf16 job.bandA.toNat)
    let y := x.1.mul (decodeFmt .bf16 ((job.bandB[j / 64]?).getD 0).toNat)
    let r := toF32 y.1 (x.2 ||| y.2)
    { r with flags := r.flags ||| a.flags }
  else a

/-- The tile of an operation written to a bank: its elements and the flags of the writes. -/
def landTile (cfg : BitVec 8) (job : MmulJob) (bank : List (Nat × BitVec 32)) : List (Nat × BitVec 32) × FlagSet :=
  (List.range (cfgRows cfg * cfgCols cfg)).foldl (fun acc x =>
    let i := x / cfgCols cfg
    let j := x % cfgCols cfg
    let k := tilePlace cfg job.entry.word i j
    match job.sums with
    | none => (sparsePut 0 acc.1 k 0x7FC00000, acc.2)
    | some l =>
      let r := landElement job (sparseGet 0 acc.1 k) ((l[x]?).getD 0) j
      (sparsePut 0 acc.1 k r.code, acc.2 ||| r.flags)) (bank, 0)

/-- The oldest dispatched MMUL finishes (R223, R233): its tile lands, its flags accrue, its counter falls, and it hands over its tap. -/
def finishMmul (s : State) : State :=
  match s.core.mat.running with
  | [] => s
  | job :: rest =>
    let m := s.core.mat
    let t := landTile m.cfg job (workBank m)
    let s1 := s.setMat { setWork m t.1 with running := rest }
    let s2 := if job.sums.isSome then accrueTo .mat (job.flags ||| t.2) s1 else s1
    finishEntry job.entry (handTap job.tap s2)

/-! ### Dispatch from the queue (R225, R226) -/

/-- The entry that may leave the queue now (Table 11-6): none while the core is frozen or the mark stands at the head, behind which an MMUL only finds
its delay (R226). -/
def leaves (s : State) (kind : Nat) : Option MatEntry :=
  let m := s.core.mat
  match m.queue with
  | [] => none
  | e :: _ =>
    if s.core.copy.frozenSince.isSome || (decide (m.mark = some 0) && !(decide (kind = 0) && m.paceUntil.isNone)) || decide (bitsOf e.word 62 2 ≠ kind) then none
    else
      let ready : Bool := match kind with
        | 0 => broadcastIdle s && (match m.paceUntil with
          | some t => decide (t ≤ s.ccc)
          | none => true)
        | 1 => m.fill.isNone
        | _ => m.fill.isNone && broadcastIdle s
      if ready then some e else none

/-- The meaning of WLOAD_DISPATCH (R234). -/
def execWloadDispatch (s : State) : Host.Outcome State Fault Refusal :=
  atCore s.arg.core (fun s => match leaves s 1 with
    | some e => dispatchWload e s
    | none => s) s

/-- The meaning of WLOAD_FILL_END (R234). -/
def execWloadFillEnd (s : State) : Host.Outcome State Fault Refusal := atCore s.arg.core endFill s

/-- The meaning of WFLIP_DISPATCH (R235). -/
def execWflipDispatch (s : State) : Host.Outcome State Fault Refusal :=
  atCore s.arg.core (fun s => match leaves s 2 with
    | some e => dispatchWflip e s
    | none => s) s

/-- The meaning of MMUL_DISPATCH (R226, R233). -/
def execMmulDispatch (s : State) : Host.Outcome State Fault Refusal :=
  atCore s.arg.core (fun s => match leaves s 0 with
    | some e => dispatchMmul e s
    | none => s) s

/-- The meaning of MMUL_FINISH (R223). -/
def execMmulFinish (s : State) : Host.Outcome State Fault Refusal := atCore s.arg.core finishMmul s

/-! ### Configuring and releasing (R239) -/

/-- The array is drained: the queue is empty, the fill and broadcast units are idle, and every result has landed (R239). -/
def drained (s : State) : Bool :=
  let m := s.core.mat
  m.queue.isEmpty && m.fill.isNone && m.running.isEmpty

/-- Both combs become Invalid and Empty, their records invalid, and a sample that awaits its tap is discarded. -/
def dropCombs (s : State) : State :=
  let s1 := discardUntapped s
  s1.setMat { s1.core.mat with residentValid := false, resident := Comb.reset, fillState := .empty, filling := Comb.reset }

/-- The meaning of MCFG (R239). -/
def execMcfg (o : AP) (s : State) : Host.Outcome State Fault Refusal :=
  issue (.mcfg o) (useAP o) (fun s =>
    let a := rdS s o.a
    let c : BitVec 8 := BitVec.ofNat 8 (bitsOf a 0 8)
    if bitsOf a 7 57 ≠ 0 ∨ bitOf a 3 then matMisuse 0x02
    else if cfgAw c = 3 ∨ 4 < cfgSplit c ∨ (cfgAw c = 2 ∧ !cfgWw c) then matMisuse 0x03
    else if !drained s then .hold
    else
      let old := s.core.mat.cfg
      let s1 := if cfgSplit c ≠ cfgSplit old ∨ cfgWw c ≠ cfgWw old then dropCombs s else s
      .done (s1.setMat { s1.core.mat with cfg := c })) s

/-- The meaning of MREL (R239). -/
def execMrel (o : GP) (s : State) : Host.Outcome State Fault Refusal :=
  issue (.mrel o) (useGP o) (fun s =>
    if !drained s then .hold
    else
      let s1 := discardSample (dropCombs s)
      .done (s1.setMat { s1.core.mat with bank0 := [], bank1 := [] })) s

/-- The wait of an MDRAIN whose check for a fault is made: one that arises now is of the next WAITLT or MDRAIN (R238, R239). -/
def drainWait (s : State) : Eff :=
  if drained s then .done (s.setMat { s.core.mat with checked := false }) else .jump (s.setMat { s.core.mat with checked := true })

/-- The meaning of MDRAIN (R239): a matrix fault that pends at its issue is taken first. -/
def execMdrain (o : GP) (s : State) : Host.Outcome State Fault Refusal :=
  issue (.mdrain o) (useGP o) (fun s => if s.core.mat.checked then drainWait s else takeFault s (drainWait s)) s

/-! ### The banks (R240-R242) -/

/-- MSWAP and MCLR of the working bank: a queue mark is set, and the effect comes when every MMUL before it has finished (R240). While it
holds, the stream issues the same instruction again. -/
def marked (perform : Matrix → Matrix) (s : State) : Eff :=
  let m := s.core.mat
  let k := m.mark.getD m.queue.length
  if m.running.isEmpty && (m.queue.take k).all fun e => decide (bitsOf e.word 62 2 ≠ 0) then .done (s.setMat { perform m with mark := none })
  else .jump (s.setMat { m with mark := some k })

/-- The meaning of MSWAP (R240). -/
def execMswap (o : GP) (s : State) : Host.Outcome State Fault Refusal :=
  issue (.mswap o) (useGP o) (marked fun m => { m with wsel := !m.wsel }) s

/-- A range of columns of a bank set to +0. -/
def clearCols (c0 n : Nat) (b : List (Nat × BitVec 32)) : List (Nat × BitVec 32) :=
  b.filter fun p => !(decide (c0 ≤ p.1 % 1024) && decide (p.1 % 1024 < c0 + n))

/-- The meaning of MCLR (R240). -/
def execMclr (o : AP) (s : State) : Host.Outcome State Fault Refusal :=
  issue (.mclr o) (useAP o) (fun s =>
    let a := rdS s o.a
    let c0 := 128 * bitsOf a 0 3
    let n := 128 * (bitsOf a 3 3 + 1)
    if bitsOf a 9 55 ≠ 0 ∨ bitsOf a 6 2 ≠ 0 then matMisuse 0x02
    else if 1024 < c0 + n then matMisuse 0x07
    else if bitOf a 8 then .done (s.setMat (setVis s.core.mat (clearCols c0 n (visBank s.core.mat))))
    else marked (fun m => setWork m (clearCols c0 n (workBank m))) s) s

/-- The checks of MSAVE and MREST (R230, R242), then their effect on the area at A for NC columns from CB0. -/
def bankArea (a b : Word) (f : Nat → Nat → Nat → Eff) (s : State) : Eff :=
  let base := bitsOf a 6 16 * 64
  let cb := 128 * bitsOf b 0 3
  let nc := 128 * (bitsOf b 3 3 + 1)
  if bitsOf b 6 58 ≠ 0 ∨ bitsOf a 22 42 ≠ 0 ∨ bitsOf a 0 6 ≠ 0 then matMisuse 0x02
  else if spadSize < base + 256 * nc then matMisuse 0x05
  else if 1024 < cb + nc then matMisuse 0x07
  else if !s.cur.priv && touchesSr s.core base (256 * nc) then forbidden (firstInSr s.core base)
  else f base cb nc

/-- The 16 elements of cell i of an area as bank keys (R242). -/
def areaKeys (cb nc i : Nat) : List Nat := (List.range 16).map fun u => bankKey ((16 * i + u) / nc) (cb + (16 * i + u) % nc)

/-- FP32 codes packed in a cell. -/
def packCodes (l : List (BitVec 32)) : BitVec 512 := BitVec.ofNat 512 (numOfBytes ((l.map fun c => bytesOfNum 4 c.toNat).flatten))

/-- The meaning of MSAVE (R242). -/
def execMsave (o : ABP) (s : State) : Host.Outcome State Fault Refusal :=
  issue (.msave o) (useABP o) (fun s => bankArea (rdS s o.a) (rdS s o.b) (fun base cb nc =>
    let b := visBank s.core.mat
    .done ((List.range (4 * nc)).foldl (fun s i =>
      storeCell 0 (base + 64 * i) { bytes := packCodes ((areaKeys cb nc i).map fun k => sparseGet 0 b k), tag := 0x7F40 } s) s)) s) s

/-- The first cell of an area that MREST refuses: poison, or a format that is not FP32 or raw (R242). -/
def restoreTrap (s : State) (base n : Nat) : Option TrapRec :=
  (List.range n).findSome? fun i =>
    let a := base + 64 * i
    let f := tagF (spadTag s.core a)
    if spadPoisoned s.core a then some (mkTrap cPoison (bit (spadIsBad s.core a)) a)
    else if f ≠ 0x40 ∧ f ≠ 0 then some (mkTrap cFormat 0 a)
    else none

/-- Element u of a restored cell: its bits, or the rounded scaled value (R242). -/
def restoreElement (d : CellData) (u : Nat) : F32 :=
  if tagF d.tag = 0 ∨ tagS d.tag = 0x7F then { code := BitVec.ofNat 32 (bitsOf d.bytes (32 * u) 32), flags := 0 }
  else toF32 (elementValue d u none .fp32) 0

/-- The meaning of MREST (R242). -/
def execMrest (o : ABP) (s : State) : Host.Outcome State Fault Refusal :=
  issue (.mrest o) (useABP o) (fun s => bankArea (rdS s o.a) (rdS s o.b) (fun base cb nc =>
    match restoreTrap s base (4 * nc) with
    | some r => loadFails r.addr.toNat r s
    | none =>
      let v := s.viewed 0
      let s := sawScratch 0 base (256 * nc) s
      let r := (List.range (4 * nc)).foldl (fun acc i =>
        let d := spadCell v (base + 64 * i)
        ((List.range 16).zip (areaKeys cb nc i)).foldl (fun acc p =>
          let e := restoreElement d p.1
          (sparsePut 0 acc.1 p.2 e.code, acc.2 ||| e.flags)) acc) (visBank s.core.mat, (0 : FlagSet))
      .done (accrueTo .mat r.2 (s.setMat (setVis s.core.mat r.1)))) s) s

/-! ### Band scales, slots, pace and status (R243, R244) -/

/-- The meaning of MBAND (R243). -/
def execMband (o : ABP) (s : State) : Host.Outcome State Fault Refusal :=
  issue (.mband o) (useABP o) (fun s =>
    let a := bitsOf (rdS s o.a) 0 22
    let b := bitsOf (rdS s o.b) 0 22
    if a % 2 ≠ 0 ∨ b % 2 ≠ 0 then matMisuse 0x06
    else .done (s.setMat { s.core.mat with abv := BitVec.ofNat 22 a, bbv := BitVec.ofNat 22 b })) s

/-- The meaning of MTAG (R243). -/
def execMtag (o : AP) (s : State) : Host.Outcome State Fault Refusal :=
  issue (.mtag o) (useAP o) (fun s => .done (s.setMat { s.core.mat with slot := BitVec.ofNat 6 (bitsOf (rdS s o.a) 0 6) })) s

/-- The meaning of MPACE (R243). -/
def execMpace (o : AP) (s : State) : Host.Outcome State Fault Refusal :=
  issue (.mpace o) (useAP o) (fun s => .done (s.setMat { s.core.mat with swl := BitVec.ofNat 3 (bitsOf (rdS s o.a) 0 3) })) s

/-- MPST (Table 11-8). -/
def mpstWord (m : Matrix) : Nat :=
  m.queue.length * 2 ^ 16 + paceLevel m * 2 ^ 12 + m.therm.toNat * 2 ^ 8 + m.fgl.toNat * 2 ^ 4 + m.swl.toNat

/-- A comb record (Table 12-10). -/
def combWord (r : CombRecord) : Nat :=
  bit r.valid * 2 ^ 63 + bit r.ww * 2 ^ 62 + r.slot.toNat * 2 ^ 56 + bit r.samp * 2 ^ 55 + r.addr.toNat * 2 ^ 6

/-- MFLT (Table 12-9). -/
def mfltWord (f : MatFault) : Nat :=
  bit f.pend * 2 ^ 63 + bit f.fol * 2 ^ 62 + f.more.toNat * 2 ^ 56 + f.code.toNat * 2 ^ 48 + f.reason.toNat * 2 ^ 40 + f.kind.toNat * 2 ^ 38 + f.seq.toNat

/-- MCS (R244). -/
def mcsWord (m : Matrix) : Nat :=
  m.slot.toNat * 2 ^ 12 + bit m.wsel * 2 ^ 11 + (match m.fillState with
    | .empty => 0
    | .loading => 1
    | .loaded => 2) * 2 ^ 9 + bit m.residentValid * 2 ^ 8 + m.cfg.toNat

/-- The word that an MSTAT selector names (Table 12-8). -/
def matStatus (m : Matrix) (sel : Nat) : Nat :=
  match sel with
  | 0 => mcsWord m
  | 1 => mfltWord m.mflt
  | 2 => combWord m.resident.record
  | 3 => combWord m.filling.record
  | 4 => m.mseq.toNat
  | 5 => mpstWord m
  | 6 => m.bbv.toNat * 2 ^ 32 + m.abv.toNat
  | _ => 0

/-- The meaning of MSTAT (R244). -/
def execMstat (o : DAP) (s : State) : Host.Outcome State Fault Refusal :=
  issue (.mstat o) (useDAP o) (fun s => .done (wrD o.d (BitVec.ofNat 64 (matStatus s.core.mat (bitsOf (rdS s o.a) 0 4))) 8 s)) s

end Sys2Proof.Machine
end

