-- ==== Sys2Proof/Machine/Schedule.lean ====
section
/-! DEFINITION. The module scheduler (R340-R353): reading a job image, placing cores, earliest-deadline selection, pre-emption, the
balancer, dispatch of task records, the end of a task, and retirement. -/

namespace Sys2Proof.Machine

/-! ### The cores and jobs of the module -/

/-- A job that has not retired. -/
def jobAt (s : State) (j : Nat) : Option Job := s.sched.jobs.find? fun x => decide (x.num = j)

/-- A job changed. -/
def onJob (j : Nat) (f : Job → Job) (s : State) : State :=
  { s with sched := { s.sched with jobs := s.sched.jobs.map fun x => if x.num = j then f x else x } }

/-- A launch queue. -/
def launchQueue (s : State) (q : Nat) : LaunchQueue := s.sched.queues[Fin.ofNat 64 q]

/-- A launch queue replaced. -/
def setLaunchQueue (q : Nat) (x : LaunchQueue) (s : State) : State :=
  { s with sched := { s.sched with queues := s.sched.queues.set (Fin.ofNat 64 q) x } }

/-- The cores, by ascending logical number, for which `f` holds. -/
def coresWhere (s : State) (f : CoreState → Bool) : List Nat := (List.range 192).filter fun n => (coreAt n s).any f

/-- The cores that a stage of a job holds: c_0, c_1, … (R353). -/
def stageCores (s : State) (j k : Nat) : List Nat := coresWhere s fun c => decide (c.place = some (j, k))

/-- The cores that a job holds. -/
def jobCores (s : State) (j : Nat) : List Nat := coresWhere s fun c => c.place.any fun p => decide (p.1 = j)

/-- Cores that hold no job and may take one: none after a thermal stop (R421). -/
def freeCores (s : State) : List Nat :=
  if s.thermal.tripped then [] else (coresWhere s fun c => c.place.isNone).filter fun n => s.isPresent n

/-- Records of a stage not yet taken: in its queue and in its cores' inboxes (R353). -/
def stageOccupancy (s : State) (j k : Nat) : Nat :=
  (match jobAt s j with
    | some x => match x.stages[k]? with
      | some g => g.records.length
      | none => 0
    | none => 0)
  + ((stageCores s j k).map fun n => match coreAt n s with
      | some c => c.inbox.length
      | none => 0).sum

/-- The scheduler's decision is asked for: cores were freed or a packet arrived (R344). -/
def askDecision (s : State) : State := s.raise [{ i := .schedulerDecision, arg := { core := 0, sec := .ctl, a := 0, b := 0, data := .none } }]

/-! ### Fields of a packet (Table 18-2) -/

/-- IMAGE. -/
def pktImage (p : BitVec 512) : Nat := bitsOf p 0 64
/-- PIPE. -/
def pktPipe (p : BitVec 512) : Nat := bitsOf p 64 64
/-- DEADLINE. -/
def pktDeadline (p : BitVec 512) : Nat := bitsOf p 128 64
/-- TENANT. -/
def pktTenant (p : BitVec 512) : Nat := bitsOf p 192 16
/-- DROPLATE. -/
def pktDropLate (p : BitVec 512) : Bool := bitOf p 208
/-- PREEMPT. -/
def pktPreempt (p : BitVec 512) : Bool := bitOf p 209
/-- ARGS. -/
def pktArgs (p : BitVec 512) : Nat := bitsOf p 256 64
/-- COMPL. -/
def pktCompl (p : BitVec 512) : Nat := bitsOf p 320 64
/-- A zero field of a packet is nonzero. -/
def pktMalformed (p : BitVec 512) : Bool := decide (bitsOf p 210 14 ≠ 0) || decide (bitsOf p 224 32 ≠ 0) || decide (bitsOf p 384 128 ≠ 0)

/-! ### Reading a job image (R76, R77, R345, R443) -/

/-- The PTROOT and ASID of a tenant's entry; `none` when it cannot be read or holds another bit (R345, R394). -/
def tenantEntry (s : State) (t : Nat) : Option (Word × BitVec 16) :=
  match hostBytes s (s.host.tentab.toNat + 16 * t) 16 with
  | none => none
  | some bs =>
    let root := numOfBytes (bs.take 8)
    let asid := numOfBytes (bs.drop 8)
    if root % 2 ^ 14 ≠ 0 ∨ 2 ^ 16 ≤ asid then none else some (BitVec.ofNat 64 root, BitVec.ofNat 16 asid)

/-- A cell as the scheduler and the loader read it: translated with no TLB filled, `none` when that fails or the cell is poisoned (R345). -/
def schedCell (x : Access) (s : State) (va : Nat) : Option CellData :=
  match (translateBy 0 none (fun t _ => t) s x va).result with
  | .error _ => none
  | .ok p =>
    let r := readCellAt s p
    if r.bad || decide (tagF r.data.tag = 0xFF) then none else some r.data

/-- The bytes of n cells from `va`. -/
def schedCells (x : Access) (s : State) : Nat → Nat → Option (List Byte)
  | 0, _ => some []
  | n + 1, va =>
    match schedCell x s va, schedCells x s n (va + 64) with
    | some c, some l => some (bytesOfNum 64 c.bytes.toNat ++ l)
    | _, _ => none

/-- n bytes from `va`. -/
def schedBytes (x : Access) (s : State) (va n : Nat) : Option (List Byte) :=
  if n = 0 then some []
  else (schedCells x s ((va % 64 + n + 63) / 64) (va / 64 * 64)).map fun l => (l.drop (va % 64)).take n

/-- n bytes from `va` as a number. -/
def schedNum (x : Access) (s : State) (va n : Nat) : Option Nat := (schedBytes x s va n).map numOfBytes

/-- The reads of the cells of n bytes from `va` by the scheduler, the loader or the gatherer, and of the tables on the way, counted (R395, R396). -/
def countSched (x : Access) (va n : Nat) (s : State) : State :=
  ((List.range (if n = 0 then 0 else (va % 64 + n + 63) / 64)).map fun i => va / 64 * 64 + 64 * i).foldl (fun s a =>
    let walk := if 2 ^ 56 ≤ a then [] else (walkTrace s 0 x.asid a 3 (bitsOf x.root 14 50 * 2 ^ 14)).reads
    let s1 := walk.foldl (fun s e => countPhysical e 8 s) s
    match (translateBy 0 none (fun t _ => t) s x a).result with
    | .ok p => countCell p s1
    | .error _ => s1) s

/-- The reads of several runs of bytes counted. -/
def countRuns (x : Access) (l : List (Nat × Nat)) (s : State) : State := l.foldl (fun s p => countSched x p.1 p.2 s) s

/-- The read of a tenant's entry counted, where it can be made (R394, R395). -/
def countTenant (t : Nat) (s : State) : State := countReach (s.host.tentab.toNat + 16 * t) 16 s

/-- A semaphore map value that SEMMAP refuses (R392). -/
def semEntryMalformed (v : Word) : Bool :=
  let c : BitVec 32 := BitVec.ofNat 32 (bitsOf v 32 32)
  decide (bitsOf v 6 24 ≠ 0) || (if bitOf v 30 then !coordValid c || decide (bitsOf c 0 4 ≠ 0) else decide (c ≠ 0))

/-- A semaphore map value as it is kept: zero when it ends a mapping (R392). -/
def semEntryKept (v : Word) : Word := if bitOf v 31 then v else 0

/-- A section of a stage record. -/
def readSection (rec_ i : Nat) : Section :=
  { base := BitVec.ofNat 22 (fld rec_ (96 * i) 22), size := fld rec_ (96 * i + 32) 32, offset := fld rec_ (96 * i + 64) 32, mode := rec_.testBit (0x3C * 8 + i) }

/-- The 16-byte entries of a table block from the number of its bytes: entry i of n. -/
def blockEntries (n block : Nat) : List (Nat × Word) :=
  (List.range n).map fun i => (fld block (128 * i) 64, BitVec.ofNat 64 (block / 2 ^ (128 * i + 64)))

/-- The frame entries of a table block; `none` when one is refused (R443). -/
def frameEntries (l : List (Nat × Word)) : Option (List (Fin 16 × Word)) :=
  if l.all fun e => decide (e.1 < 16) && !frmSwap e.2 && !frameRefused e.2 then
    some (l.map fun e => (Fin.ofNat 16 e.1, if frmValid e.2 then e.2 else 0))
  else none

/-- The channel entries of a table block; `none` when one is refused (R443). -/
def channelEntries (l : List (Nat × Word)) : Option (List (Bool × Fin 64 × Word)) :=
  if l.all fun e => decide (e.1 / 2 ^ 14 = 0) && decide (fld e.1 1 7 = 0) && !channelMalformed e.2 then
    some (l.map fun e => (e.1.testBit 0, Fin.ofNat 64 (e.1 / 2 ^ 8), e.2))
  else none

/-- The semaphore entries of a table block; `none` when one is refused (R443). -/
def semEntries (l : List (Nat × Word)) : Option (List (Nat × Word)) :=
  if l.all fun e => decide (e.1 < 256) && !semEntryMalformed e.2 then some (l.map fun e => (e.1, semEntryKept e.2)) else none

/-- What placement reads of a stage (Tables 4-4, 4-6): its record at `va` and its table block, which must be applicable (R443), and that
its sections and scratch image can be read. -/
def readStageImage (x : Access) (s : State) (image va : Nat) : Option StageImage :=
  match schedNum x s va 64 with
  | none => none
  | some r =>
    let sec (i : Nat) : Section := readSection r i
    let size := fld r (0x34 * 8) 32
    let tables := image + fld r (0x38 * 8) 32
    match schedNum x s tables 16 with
    | none => none
    | some h =>
      let scrimg := fld h 0 64
      let nf := fld h 64 8
      let nc := fld h 72 8
      let ns := fld h 80 16
      if decide (16 < nf) || decide (128 < nc) || decide (256 < ns) || decide (fld h 96 32 ≠ 0) || (decide (size = 0) && decide (scrimg ≠ 0)) then none
      else match schedNum x s (tables + 16) (16 * (nf + nc + ns)) with
        | none => none
        | some b =>
          let l := blockEntries (nf + nc + ns) b
          let readable := ((List.range 4).all fun i => (schedBytes x s (image + (sec i).offset) (sec i).size).isSome)
            && (schedBytes x s (image + scrimg) (size + size / 32)).isSome
          match frameEntries (l.take nf), channelEntries ((l.drop nf).take nc), semEntries (l.drop (nf + nc)) with
          | some f, some c, some m =>
            if readable then
              some { secs := { ctl := sec 0, copy := sec 1, mat := sec 2, vec := sec 3 }, scratch := BitVec.ofNat 22 (fld r (0x30 * 8) 22)
                     scratchSize := size, scratchOffset := scrimg, frames := f, channels := c, sems := m }
            else none
          | _, _, _ => none

/-- The stages of a pipeline table of n stages (Table 18-1), with what placement reads of each; `none` when an entry is out of range. -/
def readStages (x : Access) (s : State) (image pipe stagetab : Nat) : Nat → Nat → Option (List Stage)
  | 0, _ => some []
  | n + 1, k =>
    match schedNum x s (pipe + 16 + 16 * k) 16, readStageImage x s image (image + stagetab + 64 * k), readStages x s image pipe stagetab n (k + 1) with
    | some e, some i, some l =>
      let mn := fld e 0 8
      let inq := fld e 16 16
      if mn = 0 ∨ 192 < mn ∨ fld e 9 7 ≠ 0 ∨ inq = 0 ∨ 1024 < inq ∨ fld e 32 96 ≠ 0 then none
      else some ({ min := mn, pinned := e.testBit 8, inq := inq, image := i, records := [] } :: l)
    | _, _, _ => none

/-- What placement reads for a packet: the tenant's root and address space, and the stages; `none` where R345 refuses it. -/
def readPlan (s : State) (p : BitVec 512) : Option (Word × BitVec 16 × List Stage) :=
  if pktMalformed p then none
  else match tenantEntry s (pktTenant p) with
    | none => none
    | some (root, asid) =>
      let x : Access := { asid := asid, root := root, job := false, write := false }
      let image := pktImage p
      match schedNum x s image 64 with
      | none => none
      | some h =>
        let n := fld h 48 8
        let pipe := if pktPipe p = 0 then image + fld h 128 64 else pktPipe p
        if fld h 0 32 ≠ 0x494A5045 ∨ fld h 32 16 ≠ 1 then none
        else match schedNum x s pipe 16 with
          | none => none
          | some c =>
            if fld c 0 8 ≠ n ∨ fld c 8 120 ≠ 0 ∨ n = 0 ∨ 16 < n then none
            else match readStages x s image pipe (fld h 192 64) n 0 with
              | none => none
              | some l => if 192 < (l.map (·.min)).sum then none else some (root, asid, l)

/-- What placement reads of a stage, up to what it cannot read: runs of bytes. -/
def stageReads (x : Access) (s : State) (image va : Nat) : List (Nat × Nat) :=
  (va, 64) :: match schedNum x s va 64 with
    | none => []
    | some r =>
      let tables := image + fld r (0x38 * 8) 32
      let size := fld r (0x34 * 8) 32
      (tables, 16) :: match schedNum x s tables 16 with
        | none => []
        | some h =>
          [(tables + 16, 16 * (fld h 64 8 + fld h 72 8 + fld h 80 16)), (image + fld h 0 64, size + size / 32)]
            ++ (List.range 4).map fun i => (image + (readSection r i).offset, (readSection r i).size)

/-- What placement reads of an image, up to what it cannot read: runs of bytes (R345). -/
def imageReads (x : Access) (s : State) (p : BitVec 512) : List (Nat × Nat) :=
  let image := pktImage p
  (image, 64) :: match schedNum x s image 64 with
    | none => []
    | some h =>
      let pipe := if pktPipe p = 0 then image + fld h 128 64 else pktPipe p
      let n := if fld h 0 32 ≠ 0x494A5045 ∨ fld h 32 16 ≠ 1 then 0 else min 16 (fld h 48 8)
      (pipe, 16) :: ((List.range n).map fun k => (pipe + 16 + 16 * k, 16) :: stageReads x s image (image + fld h 192 64 + 64 * k)).flatten

/-- The reads of a placement counted (R345, R395). -/
def countPlan (p : BitVec 512) (s : State) : State :=
  if pktMalformed p then s
  else
    let s1 := countTenant (pktTenant p) s
    match tenantEntry s (pktTenant p) with
    | none => s1
    | some (root, asid) =>
      let x : Access := { asid := asid, root := root, job := false, write := false }
      countRuns x (imageReads x s p) s1

/-! ### Placing a core (R349) and starting a task (R80) -/

/-- Slots with undefined values, named from `base` (R80). -/
def undefinedSlots (n tick base : Nat) : Vector Slot n := Vector.ofFn fun i => { val := Config.freeWord tick (base + i.val), ready := 0, fld := none }

/-- The bank of a stream at the start of a task (R80). -/
def taskBank (tick base : Nat) : Bank :=
  { Bank.reset with q := undefinedSlots 16 tick base, regs := undefinedSlots 128 tick (base + 16)
                    preds := Vector.ofFn fun p => { val := p.val == 0 || Config.freeBool tick (base + p.val), ready := 0 } }

/-- A stream started at offset 0 of its section; one whose section is empty stays parked (R77, R80): the ctl stream too, in a stage that eponld would have
rejected (log entry 47). -/
def taskStream (tick : Nat) (t : Sec) (x : Section) (spill : BitVec 16 × BitVec 16) (st : Stream) : Stream :=
  let st := st.settled
  { st with pc := x.base, settling := false, mode := x.mode, job := taskBank tick (200 * secNum t + 200), priv := false
            parked := if x.size = 0 then some { byTrap := none } else none, spb := spill.1, spl := spill.2, waiting := none, rdvPending := none
            deferred := [], faults := [], flds := [] }

/-- The vector registers at the start of a task: undefined, VSH 64 by 64 FP32 (R246). -/
def taskVectors (tick : Nat) (v : VectorFile) : VectorFile :=
  { v with vq := Vector.ofFn fun i => { val := Config.freeImage tick i.val, ready := 0 }
           v := Vector.ofFn fun i => { val := Config.freeImage tick (16 + i.val), ready := 0 }
           m := Vector.ofFn fun i => { val := if i.val = 0 then BitVec.allOnes 4096 else Config.freeMask tick i.val, ready := 0 }, shape := Shape.reset }

/-- The four streams of the core in focus start a task of a stage (R80, R106, R156, R246). -/
def startTask (image stage : Nat) (g : StageImage) (s : State) : State :=
  let c := s.core
  let f (t : Sec) : Stream := taskStream s.tick t (g.secs.get t) (Config.spillArea image stage (secNum t)) (c.streams.get t)
  let sec (t : Sec) : BitVec 22 × Nat := ((g.secs.get t).base, (g.secs.get t).size)
  { s.setCore { c with streams := { ctl := f .ctl, copy := f .copy, mat := f .mat, vec := f .vec }
                       sections := { ctl := sec .ctl, copy := sec .copy, mat := sec .mat, vec := sec .vec }
                       oldWords := { ctl := [], copy := [], mat := [], vec := [] }, loose := { ctl := [], copy := [], mat := [], vec := [] }, taskEnds := false
                       copy := { c.copy with cw := Vector.replicate 16 { val := 0, ready := 0 } }, vec := taskVectors s.tick c.vec } with
    tick := s.tick + 1, farLoose := s.farLoose.filter fun p => p.1 != c.num }

/-- The bytes that the loader copies; what can no longer be read is free. -/
def loadedBytes (x : Access) (s : State) (va n : Nat) : List Byte :=
  (schedBytes x s va n).getD ((List.range n).map fun i => Config.freeByte s.tick (va + i))

/-- A section copied to its load address: tags and errors of its lines stay (log entry 47). One past the end of the scratchpad runs on at its start (DESIGN
CHOICE, log entry 55). -/
def loadSection (x : Access) (image : Nat) (g : Section) (s : State) : State :=
  if g.size = 0 then s
  else
    let s1 := countSched x (image + g.offset) g.size s
    s1.setCore (spadPutBytes s1.core g.base.toNat (loadedBytes x s (image + g.offset) g.size))

/-- The scratch area written cell by cell with its tags (R443). A base or size that is no multiple of 64 is rounded down to whole cells, and an area past the
end of the scratchpad runs on at its start (DESIGN CHOICE, log entry 55). -/
def loadScratch (x : Access) (image : Nat) (g : StageImage) (s : State) : State :=
  let bs := loadedBytes x s (image + g.scratchOffset) (g.scratchSize + g.scratchSize / 32)
  (List.range (g.scratchSize / 64)).foldl (fun s j =>
    s.setCore (spadPutCell s.core (g.scratch.toNat + 64 * j)
      { bytes := BitVec.ofNat 512 (numOfBytes ((bs.drop (64 * j)).take 64)), tag := BitVec.ofNat 16 (numOfBytes ((bs.drop (g.scratchSize + 2 * j)).take 2)) }))
    (countSched x (image + g.scratchOffset) (g.scratchSize + g.scratchSize / 32) s)

/-- A channel table with the entries of a stage, CREDIT 0 (R197, R443). Of two entries for one channel the last counts (DESIGN CHOICE, log entry 55). -/
def loadChannels (copy : Bool) (g : StageImage) : Vector Channel 64 :=
  (g.channels.filter fun e => e.1 == copy).foldl (fun v e =>
    v.set e.2.1 { Channel.reset with coord := BitVec.ofNat 32 (bitsOf e.2.2 32 32), valid := bitOf e.2.2 31, mc := bitOf e.2.2 30, queue := BitVec.ofNat 4 (bitsOf e.2.2 16 4) })
    (Vector.replicate 64 Channel.reset)

/-- The frame register that a placement gives: the table's entry with SWAP 0, except that a persistent frame with the same fields keeps its
SWAP (R349). Of two entries for one frame the last counts (DESIGN CHOICE, log entry 55). -/
def placedFrame (g : StageImage) (old : Vector Word 16) (f : Fin 16) : Word :=
  match g.frames.reverse.find? fun e => decide (e.1 = f) with
  | none => 0
  | some (_, v) => if frmValid v && frmPersist v && decide (old[f] &&& ~~~(2 : Word) = v) then old[f] else v

/-- The frame registers at a later task start: every non-persistent entry again with SWAP 0 (R176). -/
def restartFrames (g : StageImage) (old : Vector Word 16) : Vector Word 16 :=
  g.frames.foldl (fun v e => if frmPersist e.2 then v else v.set e.1 e.2) old

/-- The supervisor region that SRREG gives a core at its placement: base and limit in 4 KiB units (Table 21-2). -/
def placedRegion (s : State) (n : Nat) : BitVec 10 × BitVec 11 :=
  let v := s.host.srreg[Fin.ofNat 192 n]
  let b := bitsOf v 0 10
  (BitVec.ofNat 10 b, BitVec.ofNat 11 (max b (min (bitsOf v 16 11) 0x400)))

/-- The core in focus with its core state at the values of a placement (R130, R197, R228, R284, R296, R394). CCC counts on from module reset (R80, log
entry 47). Of two entries for one virtual semaphore the last counts (DESIGN CHOICE, log entry 55). -/
def placedCore (s : State) (j k : Nat) (x : Job) (g : StageImage) (c : CoreState) : CoreState :=
  let r := placedRegion s c.num
  let vec : BitVec 22 := BitVec.ofNat 22 (r.1.toNat * 4096)
  let clear (st : Stream) : Stream := { st with tdlg := 0 }
  { c with
    streams := { ctl := { clear c.streams.ctl with strap := { c.streams.ctl.strap with vec := vec } }
                 copy := clear c.streams.copy, mat := clear c.streams.mat, vec := clear c.streams.vec }
    sync := { SyncFile.reset with map := g.sems.foldl (fun v e => v.set (Fin.ofNat 256 e.1) e.2) (Vector.replicate 256 0) }
    copy := CopyEngine.reset, frames := Vector.ofFn fun f => placedFrame g c.frames f
    msgs := { Messages.reset with ctl := loadChannels false g, copy := loadChannels true g }
    mat := { Matrix.reset with fgl := c.mat.fgl, therm := c.mat.therm }, trees := Vector.replicate 64 none, audit := Audit.reset
    srbase := r.1, srlim := r.2, ptroot := x.root, asid := x.asid, smsel := 0, wdog := 0, dbe := true, prqe := false, stop := false
    pendWatchdog := none, pendParked := { ctl := false, copy := false, mat := false, vec := false }, pendPreempt := false, pendHost := none
    preemptReq := false, moveReq := none, jobEnd := false, taskEnds := false, place := some (j, k), inbox := [] }

/-- The core in focus placed into stage k of job j (R349). The stage record and its table block are those that the job's first placement read, while the
sections and the scratch image are read again (log entry 47). The loader writes at the load addresses themselves, whatever frames the core's last
stage left valid. -/
def placeHere (j k : Nat) (s : State) : State :=
  match jobAt s j with
  | none => s
  | some x => match x.stages[k]? with
    | none => s
    | some g =>
      let a : Access := { asid := x.asid, root := x.root, job := false, write := false }
      let old := s.core.frames
      let s0 := s.setCore { s.core with frames := Vector.replicate 16 0, audit := { s.core.audit with sample := none } }
      let s1 := [Sec.ctl, .copy, .mat, .vec].foldl (fun s t => loadSection a x.image (g.image.secs.get t) s) s0
      let s2 := loadScratch a x.image g.image s1
      startTask x.image k g.image (s2.setCore (placedCore s2 j k x g.image { s2.core with frames := old }))

/-- Core n placed into stage k of job j. -/
def placeCore (j k n : Nat) (s : State) : State := onCore n (placeHere j k) s

/-! ### Records (R352, R353) -/

/-- A stage of a job changed. -/
def onStage (j k : Nat) (f : Stage → Stage) (s : State) : State :=
  onJob j (fun x => { x with stages := x.stages.mapIdx fun i g => if i = k then f g else g }) s

/-- The first core of a list that is in the cluster of n, then on its die (R353). -/
def nearest (n : Nat) (l : List Nat) : Option Nat :=
  match l.find? fun c => decide (c / 8 = n / 8) with
  | some c => some c
  | none => match l.find? fun c => decide (dieOf c = dieOf n) with
    | some c => some c
    | none => l.head?

/-- The home core of a record among the cores of its stage (R353); a core of another module is near none of them. -/
def homeCore (s : State) (rec_ : BitVec 512) (cores : List Nat) : Option Nat :=
  if bitOf rec_ 8 then
    let w : BitVec 32 := BitVec.ofNat 32 (bitsOf rec_ 64 32)
    if coordModule w ≠ s.ownModule then cores.head?
    else if cores.contains (coordCore w) then some (coordCore w)
    else nearest (coordCore w) cores
  else cores[bitsOf rec_ 64 64 / 2 ^ 21 % cores.length]?

/-- The core whose inbox takes a record: the home core, or the nearest to it with room (R353). -/
def targetCore (s : State) (rec_ : BitVec 512) (cores : List Nat) : Option Nat :=
  let room (n : Nat) : Bool := (coreAt n s).any fun c => decide (c.inbox.length < 4)
  match homeCore s rec_ cores with
  | none => none
  | some h => if room h then some h else nearest h (cores.filter room)

/-- A record taken from the inbox of the core in focus into `a` as a whole-cell write of class k0 with tag 0x0000 (R115, R361). -/
def takeFromInbox (a : Nat) (s : State) : Option (Word × State) :=
  match s.core.inbox with
  | [] => none
  | r :: rest => let s1 := storeCellBy .ctl 0 a { bytes := r.cell, tag := 0 } s
    some (r.origin, s1.setCore { s1.core with inbox := rest })

/-- A ctl stream that waits at TAKE takes the record that has come. -/
def serveTake (s : State) : State :=
  match waitsOn s .ctl with
  | some (.take a d) =>
    match takeFromInbox a s with
    | some (o, s1) => resume .ctl (some (d, o)) s1
    | none => s
  | _ => s

/-- The oldest record of a stage queue goes to an inbox (R353). -/
def dispatchRecord (j k : Nat) (s : State) : State :=
  match jobAt s j with
  | none => s
  | some x => match x.stages[k]? with
    | none => s
    | some g => match g.records with
      | [] => s
      | r :: rest => match targetCore s r.cell (stageCores s j k) with
        | none => s
        | some n => onCore n (fun t => serveTake (t.setCore { t.core with inbox := t.core.inbox ++ [r] })) (onStage j k (fun g => { g with records := rest }) s)

/-- The meaning of RECORD_DISPATCH (R353): the oldest record of stage `b` of job `a` leaves its queue. -/
def execRecordDispatch (s : State) : Host.Outcome State Fault Refusal := .next (dispatchRecord s.arg.a s.arg.b s)

/-! ### Requests to cores, and leaving a stage (R346, R350, R362) -/

/-- A task boundary has become due at the core in focus: a wait at TAKE is withdrawn, and TAKE reissues to end the task, whatever has reached the inbox
meanwhile (R361). -/
def nudge (s : State) : State :=
  match waitsOn s .ctl with
  | some (.take _ _) => (withdraw .ctl s).setCore { (withdraw .ctl s).core with taskEnds := true }
  | _ => s

/-- A pre-emption request at the core in focus; it pends as a trap when CORECTL.PRQE is 1 (R376). -/
def requestPreempt (s : State) : State :=
  nudge (s.setCore { s.core with preemptReq := true, pendPreempt := s.core.pendPreempt || s.core.prqe })

/-- The records of the inbox return to the head of the stage queue, in their order (R353). -/
def returnInbox (s : State) : State :=
  match s.core.place with
  | none => s
  | some (j, k) =>
    let l := s.core.inbox
    onStage j k (fun g => { g with records := l ++ g.records }) (s.setCore { s.core with inbox := [] })

/-- A packet at the head of its queue again (R346). -/
def requeue (x : Job) (s : State) : State :=
  let q := launchQueue s x.queue
  setLaunchQueue x.queue { q with packets := { data := x.packet, job := some x.num, late := decide (pktDeadline x.packet < s.now) } :: q.packets } s

/-- A running job that has lost every core is suspended, and its packet waits at the head of its queue (R346). -/
def suspendIfEmpty (j : Nat) (s : State) : State :=
  match jobAt s j with
  | none => s
  | some x =>
    if decide (x.state = .running) && (jobCores s j).isEmpty then requeue x (onJob j (fun y => { y with state := .suspended }) s) else s

/-- The core in focus is released: it holds no job, and its streams are parked (R362, R379). -/
def releaseHere (s : State) : State :=
  let s1 := returnInbox s
  let c := s1.core
  let park (st : Stream) : Stream := { st.parkAt none st.pc with priv := false }
  let s2 := s1.setCore { c with
    streams := { ctl := park c.streams.ctl, copy := park c.streams.copy, mat := park c.streams.mat, vec := park c.streams.vec }
    place := none, preemptReq := false, pendPreempt := false, moveReq := none, jobEnd := false, taskEnds := false }
  askDecision (match c.place with
    | some (j, _) => suspendIfEmpty j s2
    | none => s2)

/-! ### The end of a task (R362) -/

/-- A boundary event is pending for the core in focus. -/
def boundaryPending (s : State) : Bool := s.core.preemptReq || s.core.moveReq.isSome || s.core.jobEnd

/-- What the end of a task waits for: both queues empty, vector and token-tree work performed, every result landed, and every FST acknowledged, for the
task's accesses perform before the next task's (R362). -/
def taskQuiet (s : State) : Bool :=
  let c := s.core
  c.copy.queue.isEmpty && drained s && c.farStores.isEmpty
    && decide (c.vec.busy ≤ max c.streams.vec.clk s.ccc) && decide (c.vec.treeBusy ≤ max c.streams.vec.clk s.ccc)
    && allSecs.all fun t =>
      let st := c.streams.get t
      decide (st.maxReady ≤ max st.clk s.ccc) && st.flds.isEmpty && st.landing.all (fun l => l.trap.isNone && decide (l.due ≤ max st.clk s.ccc))

/-- Streams other than ctl that await the answer of a remote semaphore file. -/
def awaitingStreams (s : State) : List Sec := [Sec.copy, .mat, .vec].filter fun t => (remoteOf s t).isSome

/-- What the task leaves is cleared (R362): waits withdrawn, mutexes freed, records and bitmaps of listed commands dropped, rendezvous arrival
bits cleared, engine faults discarded. -/
def clearTask (s : State) : State :=
  let s1 := [Sec.copy, .mat, .vec].foldl (fun s t => withdraw t s) s
  let c := s1.core
  let f (st : Stream) : Stream := { st.settled with faults := [], deferred := [], rdvPending := none }
  s1.setCore { c with
    streams := { ctl := f c.streams.ctl, copy := f c.streams.copy, mat := f c.streams.mat, vec := f c.streams.vec }
    sync := { c.sync with mutexes := Vector.replicate 16 { owner := none, fifo := [] }
                          rdvArrived := { ctl := false, copy := false, mat := false, vec := false } }
    copy := { c.copy with records := c.copy.records.filter (fun r => !r.kind.listed), owners := Vector.replicate 16 .free }
    mat := { c.mat with mflt := { c.mat.mflt with pend := false, more := 0 } } }

/-- The streams of the core in focus restart in their stage (R362, R176). -/
def restartHere (j k : Nat) (s : State) : State :=
  match jobAt s j with
  | none => s
  | some x => match x.stages[k]? with
    | none => s
    | some g => startTask x.image k g.image (s.setCore { s.core with frames := restartFrames g.image s.core.frames })

/-- What follows the end of a task: release by the job's end or a pre-emption, the move, or the next task (R362, Table 18-11). -/
def nextTask (s : State) : State :=
  match s.core.place with
  | none => releaseHere s
  | some (j, k) =>
    if s.core.jobEnd || s.core.preemptReq then releaseHere s
    else match s.core.moveReq with
      | some m => placeHere j m (returnInbox s)
      | none => restartHere j k s

/-- The task of the core in focus ends (R362): it holds until the task is quiet and no stream awaits another core's answer. -/
def endTask (s : State) : Eff :=
  if !taskQuiet s then .hold
  else match awaitingStreams s with
    | [] => .jump (nextTask (clearTask s))
    | l => .jump (l.foldl (fun s t => askWithdrawal false t s) s)

/-! ### Completion records (R343) -/

/-- The report of a completion record that could not be written (Table 21-15, type 9). -/
def completionLost (p : BitVec 512) (queue reason status num : Nat) (s : State) : State :=
  s.raise [recordEvent { type := 9, cont := false
                         payload := BitVec.ofNat 384 (queue + reason * 2 ^ 8 + status * 2 ^ 16 + num * 2 ^ 32 + pktCompl p * 2 ^ 64) }]

/-- The completion record as a number (Table 18-3). -/
def completionRecord (p : BitVec 512) (status code start now preempts : Nat) : Nat :=
  status + code * 2 ^ 32 + start * 2 ^ 64 + now * 2 ^ 128 + preempts * 2 ^ 192 + bit (decide (pktDeadline p < now)) * 2 ^ 224

/-- The completion record written at COMPL (R343), or its loss reported. `space` is the tenant's root and address space. -/
def complete (p : BitVec 512) (space : Option (Word × BitVec 16)) (queue num status code start preempts : Nat) (s : State) : State :=
  let a := pktCompl p
  if a = 0 then s
  else if a % 64 ≠ 0 then completionLost p queue 0 status num s
  else match space with
    | none => completionLost p queue 1 status num s
    | some (root, asid) =>
      match (translateBy 0 none (fun t _ => t) s { asid := asid, root := root, job := false, write := true } a).result with
      | .error e => completionLost p queue (if e.kind = 4 then 2 else 1) status num s
      | .ok x =>
        if (decide (x.tier = .host) || decide (x.tier = .other)) && Config.outside s.tick x.pa then completionLost p queue 2 status num s
        else writeCellAt s x { bytes := BitVec.ofNat 512 (completionRecord p status code start s.now preempts), tag := 0 }

/-! ### Earliest-deadline selection (R344-R347) -/

/-- The first packet of a queue. -/
def headPacket (s : State) (q : Nat) : Option Packet := if (launchQueue s q).en then (launchQueue s q).packets.head? else none

/-- A head inserted in the order of R344: by DEADLINE, then by queue number. -/
def insertHead (x : Nat × Packet) : List (Nat × Packet) → List (Nat × Packet)
  | [] => [x]
  | y :: rest => if pktDeadline y.2.data < pktDeadline x.2.data ∨ (pktDeadline y.2.data = pktDeadline x.2.data ∧ y.1 < x.1) then y :: insertHead x rest else x :: y :: rest

/-- The head packets of the enabled queues in order (R344). -/
def orderedHeads (s : State) : List (Nat × Packet) :=
  ((List.range 64).filterMap fun q => (headPacket s q).map fun p => (q, p)).foldl (fun l x => insertHead x l) []

/-- The cores and the share of the task queue that a packet needs; a packet that placement refuses needs none. -/
def needs (s : State) (p : Packet) : Nat × Nat :=
  match p.job with
  | some j => match jobAt s j with
    | some x => ((x.stages.map (·.min)).sum, 0)
    | none => (0, 0)
  | none => match readPlan s p.data with
    | some (_, _, l) => ((l.map (·.min)).sum, (l.map (·.inq)).sum)
    | none => (0, 0)

/-- Records of the module task queue that jobs have reserved (R344). -/
def reservedRecords (s : State) : Nat := (s.sched.jobs.map fun x => (x.stages.map (·.inq)).sum).sum

/-- A packet fits with `free` cores (R344). -/
def fits (s : State) (p : Packet) (free : Nat) : Bool :=
  let n := needs s p
  decide (n.1 ≤ free) && decide (n.2 + reservedRecords s ≤ 65536)

/-- The stages' minimum cores taken stage by stage from the free cores in ascending order (R345). -/
def placeStages (j : Nat) : List Nat → Nat → List Nat → State → State
  | [], _, _, s => s
  | m :: rest, k, free, s => placeStages j rest (k + 1) (free.drop m) ((free.take m).foldl (fun s n => placeCore j k n s) s)

/-- The initial record of a job (R352). -/
def initialRecord (p : BitVec 512) : TaskRec :=
  { cell := BitVec.ofNat 512 (pktArgs p * 2 ^ 128 + pktDeadline p * 2 ^ 192), origin := BitVec.ofNat 64 (2 ^ 40) }

/-- The head packet of queue q is placed, or refused with STATUS 3 (R345, R346). -/
def placePacket (q : Nat) (p : Packet) (s : State) : State :=
  let lq := launchQueue s q
  let s := setLaunchQueue q { lq with packets := lq.packets.drop 1 } s
  match p.job with
  | some j => match jobAt s j with
    | none => s
    | some x => placeStages j (x.stages.map (·.min)) 0 (freeCores s) (onJob j (fun y => { y with state := .running }) s)
  | none => match readPlan s p.data with
    | none => complete p.data (tenantEntry s (pktTenant p.data)) q 0xFFFFFFFF 3 0 0 0 (countPlan p.data s)
    | some (root, asid, l) =>
      let s := countPlan p.data s
      let num := s.sched.nextJob.toNat
      let l := match l with
        | [] => []
        | g :: rest => { g with records := [initialRecord p.data] } :: rest
      let x : Job := { num := num, image := pktImage p.data, packet := p.data, queue := q, asid := asid, root := root, stages := l, state := .running, code := 0, start := s.now, preempts := 0 }
      let s1 := { s with sched := { s.sched with jobs := s.sched.jobs ++ [x], nextJob := s.sched.nextJob + 1 } }
      placeStages num (l.map (·.min)) 0 (freeCores s1) s1

/-- The jobs that may give cores to a packet, latest DEADLINE first, ties to the higher job number (R346). -/
def donorJobs (s : State) (p : BitVec 512) : List Job :=
  let l := s.sched.jobs.filter fun x => decide (x.state = .running) && pktPreempt x.packet && decide (pktDeadline p + s.sched.pmargin.toNat ≤ pktDeadline x.packet)
  let before (x y : Job) : Bool := decide (pktDeadline y.packet < pktDeadline x.packet) || (decide (pktDeadline y.packet = pktDeadline x.packet) && decide (y.num < x.num))
  l.foldl (fun acc x => (acc.takeWhile fun y => before y x) ++ x :: (acc.dropWhile fun y => before y x)) []

/-- The cores of a stage without a request, highest first. -/
def askable (s : State) (j k : Nat) : List Nat := ((stageCores s j k).filter fun n => (coreAt n s).any fun c => !c.preemptReq).reverse

/-- The cores that a job gives above its stages' minimums, highest stage first (R346). -/
def spareCores (s : State) (x : Job) : List Nat :=
  ((List.range x.stages.length).reverse.map fun k => match x.stages[k]? with
    | some g => (askable s x.num k).take ((askable s x.num k).length - g.min)
    | none => []).flatten

/-- What is taken for `need` cores from a list of jobs: the cores, and the need left (R346). -/
def takeFrom (s : State) : List Job → Nat → List (Nat × List Nat) × Nat
  | [], n => ([], n)
  | x :: rest, n =>
    if n = 0 then ([], 0)
    else
      let spare := (spareCores s x).take n
      let cores := if n ≤ spare.length then spare else ((List.range x.stages.length).map fun k => askable s x.num k).flatten
      let r := takeFrom s rest (n - cores.length)
      ((x.num, cores) :: r.1, r.2)

/-- Pre-emption on behalf of the head of queue q (R346): requests are sent when the need can be met. -/
def preemptFor (q : Nat) (p : Packet) (s : State) : Option State :=
  let need := (needs s p).1 - (freeCores s).length
  let r := takeFrom s (donorJobs s p.data) need
  if need = 0 ∨ r.2 ≠ 0 then none
  else
    let s1 := r.1.foldl (fun s g =>
      let s1 := if g.2.isEmpty then s else onJob g.1 (fun x => { x with preempts := countUp x.preempts }) s
      g.2.foldl (fun s n => onCore n requestPreempt s) s1) s
    some { s1 with sched := { s1.sched with heldFor := some (q, p) } }

/-- Requests that have not yet freed their cores. -/
def requestsPending (s : State) : Bool := !(coresWhere s fun c => c.preemptReq).isEmpty

/-- Freed cores are held for packet p of queue q (R346). -/
def isHeldFor (s : State) (q : Nat) (p : Packet) : Bool :=
  s.sched.heldFor.any fun h => decide (h.1 = q) && decide (h.2.data = p.data) && decide (h.2.job = p.job)

/-- The packet that freed cores are held for: until it is placed, while it heads its queue, and until a head has an earlier deadline (R346; log entry 47). -/
def liveHold (s : State) : Option (Nat × Packet) :=
  s.sched.heldFor.filter fun h => (headPacket s h.1).any (fun p => decide (p.data = h.2.data) && decide (p.job = h.2.job))
    && (orderedHeads s).all fun x => decide (pktDeadline h.2.data ≤ pktDeadline x.2.data)

/-- Free cores held for another packet: as many as that one needs (R344, R346). -/
def heldFrom (s : State) (q : Nat) (p : Packet) : Nat :=
  match s.sched.heldFor with
  | some h => if isHeldFor s q p then 0 else (needs s h.2).1
  | none => 0

/-- A packet fits the free cores that no other packet holds (R344). -/
def fitsFree (s : State) (q : Nat) (p : Packet) : Bool := fits s p ((freeCores s).length - heldFrom s q p)

/-- A packet placed; a hold for it ends. -/
def placeHeld (q : Nat) (p : Packet) (s : State) : State :=
  let s1 := placePacket q p s
  { s1 with sched := { s1.sched with heldFor := if isHeldFor s q p then none else s.sched.heldFor } }

/-- A decision of the scheduler (R344, R346). -/
def decision (s : State) : State :=
  let s := { s with sched := { s.sched with lastDecision := s.now } }
  if s.thermal.tripped then s
  else match orderedHeads s with
    | [] => { s with sched := { s.sched with heldFor := none } }
    | (q, p) :: rest =>
      let s1 := { s with sched := { s.sched with heldFor := liveHold s } }
      if fitsFree s1 q p then placeHeld q p s1
      else if s1.sched.heldFor.isSome && requestsPending s1 then s1
      else match if s1.sched.heldFor.isNone || isHeldFor s1 q p then preemptFor q p s1 else none with
        | some s2 => s2
        | none => match rest.find? fun x => fitsFree s1 x.1 x.2 with
          | some x => placeHeld x.1 x.2 s1
          | none => s1

/-- The meaning of SCHEDULER_DECISION (R344). -/
def execSchedulerDecision (s : State) : Host.Outcome State Fault Refusal := .next (decision s)

/-- A packet whose deadline has passed while it was queued and has not been dealt with (R347). -/
def isOverdue (s : State) (p : Packet) : Bool := !p.late && decide (pktDeadline p.data < s.now)

/-- The walks of a job stop (R343, R363). -/
def stopWalks (j : Nat) (s : State) : State := (List.range 8).foldl (fun s w => if (walkAt s w).job = some j then stopWalk w s else s) s

/-- The first overdue packet of a queue retires with STATUS 2, a suspended job's when its walks are idle (R343), or is counted in LATEC (R347). -/
def overduePacket (q : Nat) (s : State) : State :=
  let lq := launchQueue s q
  match lq.packets.findIdx? fun p => isOverdue s p with
  | none => s
  | some i => match lq.packets[i]? with
    | none => s
    | some p =>
      if pktDropLate p.data then
        let s1 := setLaunchQueue q { lq with packets := lq.packets.eraseIdx i } s
        match p.job with
        | none => complete p.data (tenantEntry s (pktTenant p.data)) q 0xFFFFFFFF 2 0 0 0 (countTenant (pktTenant p.data) s1)
        | some j => match jobAt s1 j with
          | none => s1
          | some _ => stopWalks j (onJob j (fun x => { x with state := .dropped }) s1)
      else
        let up := if s.sched.latec = BitVec.allOnes 32 then s.sched.latec else s.sched.latec + 1
        let s1 := setLaunchQueue q { lq with packets := lq.packets.set i { p with late := true } } s
        { s1 with sched := { s1.sched with latec := up } }

/-- The meaning of PACKET_DEADLINE (R347): a packet of queue `a` is overdue. -/
def execPacketDeadline (s : State) : Host.Outcome State Fault Refusal := .next (overduePacket s.arg.a s)

/-! ### The balancer (R350) -/

/-- A stage that holds no core, has records, and whose next stage is not full (R350). -/
def isNeedy (s : State) (x : Job) (k : Nat) : Bool :=
  (stageCores s x.num k).isEmpty && decide (0 < stageOccupancy s x.num k) && (match x.stages[k + 1]? with
    | some g => decide (stageOccupancy s x.num (k + 1) < g.inq)
    | none => true)

/-- A mobile stage with cores and no records (R350). -/
def isStarved (s : State) (x : Job) (k : Nat) : Bool :=
  (match x.stages[k]? with
    | some g => !g.pinned
    | none => false) && decide (stageOccupancy s x.num k = 0) && !(stageCores s x.num k).isEmpty

/-- A stage whose input is at least half full (R350). -/
def isBackedUp (s : State) (x : Job) (k : Nat) : Bool :=
  match x.stages[k]? with
  | some g => decide (g.inq ≤ stageOccupancy s x.num k * 2)
  | none => false

/-- The stages of a job for which `f` holds. -/
def stagesWhere (x : Job) (f : Nat → Bool) : List Nat := (List.range x.stages.length).filter f

/-- Free cores that the balancer leaves: those held for a packet, and those that the heads which fit will take first (R346, R350). -/
def reservedCores (s : State) : Nat :=
  let free := (freeCores s).length
  let held := match s.sched.heldFor with
    | some h => min free (needs s h.2).1
    | none => 0
  (orderedHeads s).foldl (fun n x => if !isHeldFor s x.1 x.2 && fits s x.2 (free - n) then n + (needs s x.2).1 else n) held

/-- The free cores that the balancer may grant. -/
def grantable (s : State) : List Nat := (freeCores s).drop (reservedCores s)

/-- One round of grants: a free core to each needy, then each backed-up stage, in ascending order; with the stages that got one (R350). -/
def grantRound (x : Job) : List Nat → State → State × List Nat
  | [], s => (s, [])
  | k :: rest, s =>
    match grantable s with
    | [] => (s, [])
    | n :: _ =>
      let r := grantRound x rest (placeCore x.num k n s)
      (r.1, k :: r.2)

/-- Rounds of grants while cores remain (R350). -/
def grantRounds (x : Job) : Nat → State → List Nat → State × List Nat
  | 0, s, got => (s, got)
  | n + 1, s, got =>
    let order := stagesWhere x (isNeedy s x) ++ stagesWhere x (isBackedUp s x)
    if order.isEmpty || (grantable s).isEmpty then (s, got)
    else
      let r := grantRound x order s
      grantRounds x n r.1 (got ++ r.2)

/-- The starved stage that holds the most cores, ties to the lower (R350). -/
def donorStage (s : State) (x : Job) : Option Nat :=
  (stagesWhere x (isStarved s x)).foldl (fun b k => match b with
    | none => some k
    | some m => if (stageCores s x.num m).length < (stageCores s x.num k).length then some k else some m) none

/-- The backed-up stage of a list with the highest ratio of stageOccupancy to INQ, ties to the lower (R350). -/
def fullestStage (s : State) (x : Job) (l : List Nat) : Option Nat :=
  let inq (k : Nat) : Nat := match x.stages[k]? with
    | some g => g.inq
    | none => 1
  l.foldl (fun b k => match b with
    | none => some k
    | some m => if stageOccupancy s x.num m * inq k < stageOccupancy s x.num k * inq m then some k else some m) none

/-- At most one move in a job: the highest core of the donor stage moves at its next task boundary (R350). -/
def moveOne (x : Job) (got : List Nat) (s : State) : State :=
  let needy := (stagesWhere x (isNeedy s x)).filter fun k => !got.contains k
  let backed := (stagesWhere x (isBackedUp s x)).filter fun k => !got.contains k
  let goal := match needy with
    | k :: _ => some k
    | [] => fullestStage s x backed
  match goal, donorStage s x with
  | some k, some d =>
    match (stageCores s x.num d).reverse.head? with
    | some n => onCore n (fun t => nudge (t.setCore { t.core with moveReq := some k })) s
    | none => s
  | _, _ => s

/-- The balancer's decisions for one running job (R350). A job all of whose cores are being taken is left alone. -/
def balanceJob (j : Nat) (s : State) : State :=
  match jobAt s j with
  | none => s
  | some x =>
    if x.state ≠ .running ∨ (jobCores s j).all (fun n => (coreAt n s).any (·.preemptReq)) then s
    else
      let r := grantRounds x 192 s []
      moveOne x r.2 r.1

/-- The meaning of BALANCER (R350). -/
def execBalancer (s : State) : Host.Outcome State Fault Refusal :=
  .next ((s.sched.jobs.map (·.num)).foldl (fun s j => balanceJob j s) { s with sched := { s.sched with lastBalance := s.now / 4096 * 4096 } })

/-! ### The end of a job (R343, R363) -/

/-- The first DONE of a job: it becomes Ending, CODE is fixed, its queued records are discarded, its walks stop, and every core's end is pending (R363). -/
def beginEnding (j : Nat) (code : BitVec 32) (s : State) : State :=
  let s1 := onJob j (fun x => { x with state := .ending, code := code, stages := x.stages.map fun g => { g with records := [] } }) s
  let s2 := stopWalks j s1
  (jobCores s2 j).foldl (fun s n => onCore n (fun t => nudge (t.setCore { t.core with inbox := [], jobEnd := true })) s) s2

/-- Every engine command of a core has completed, and every access of its streams has performed. -/
def enginesDone (c : CoreState) : Bool := c.farStores.isEmpty && c.copy.queue.isEmpty && c.mat.queue.isEmpty && c.mat.running.isEmpty && c.mat.fill.isNone

/-- An ending job, or a suspended one whose packet was dropped, may retire: its cores are released, or stopped by CoreStop with every engine command
complete, and its walks are idle (R343, R374). -/
def canRetire (s : State) (x : Job) : Bool :=
  (decide (x.state = .ending) || decide (x.state = .dropped)) && ((jobCores s x.num).all fun n => (coreAt n s).any fun c => c.stop && enginesDone c)
    && (List.range 8).all fun w => (walkAt s w).job != some x.num

/-- The job's packet retires with STATUS 1, or 2 where it was dropped (R343, R347). -/
def retireJob (j : Nat) (s : State) : State :=
  match jobAt s j with
  | none => s
  | some x =>
    if !canRetire s x then s
    else
      let s1 := (jobCores s j).foldl (fun s n => onCore n releaseHere s) s
      let s2 := complete x.packet (some (x.root, x.asid)) x.queue x.num (if x.state = .dropped then 2 else 1) x.code.toNat x.start x.preempts.toNat s1
      askDecision { s2 with sched := { s2.sched with jobs := s2.sched.jobs.filter fun y => y.num != j } }

/-- The meaning of JOB_RETIRE (R343): job `a` retires. -/
def execJobRetire (s : State) : Host.Outcome State Fault Refusal := .next (retireJob s.arg.a s)

end Sys2Proof.Machine
end

