-- ==== Sys2Proof/Machine/Launch.lean ====
section
/-! DEFINITION. The launch and task instructions (R357-R367) and the swarm gatherer (R354-R356). -/

namespace Sys2Proof.Machine

/-! ### Checks (R358) -/

/-- Launch misuse (Table 18-9). -/
def launchMisuse (reason : Nat) : Eff := misuse cLaunch reason

/-- The traps of a scratchpad operand of n cells at `a`: alignment, privilege, and poison when it is read, as a scalar load finds it (R101, R358). The cells run on from
the scratchpad's end at its start. -/
def cellsTrap (s : State) (a n : Nat) (reads : Bool) : Option Eff :=
  if a % 64 ≠ 0 then some (misaligned a)
  else if !s.cur.priv && touchesSr s.core a (64 * n) then some (forbidden (max a (srLow s.core)))
  else if !s.cur.priv && touchesSr s.core 0 (a + 64 * n - spadSize) then some (forbidden (srLow s.core))
  else if reads then
    match (List.range n).find? fun i => spadPoisoned s.core (a + 64 * i) with
    | some i => some (loadFails ((a + 64 * i) % spadSize) (mkTrap cPoison (bit (spadIsBad s.core (a + 64 * i))) ((a + 64 * i) % spadSize)) s)
    | none => none
  else none

/-- The job and stage of the core in focus. -/
def ownJob (s : State) : Option (Job × Nat) :=
  match s.core.place with
  | some (j, k) => (jobAt s j).map fun x => (x, k)
  | none => none

/-! ### LAUNCH (R359) -/

/-- A packet at the end of a queue (R341). -/
def enqueue (q : Nat) (p : BitVec 512) (s : State) : State :=
  let lq := launchQueue s q
  askDecision (setLaunchQueue q { lq with packets := lq.packets ++ [{ data := p, job := none, late := false }] } s)

/-- The status of a LAUNCH (Table 18-10), conditions in the order 2, 3, 1. -/
def launchStatus (s : State) (q : Nat) (p : BitVec 512) : Nat :=
  let lq := launchQueue s q
  let jobMode := !s.cur.priv
  if !lq.en || (jobMode && !lq.devok) then 2
  else if jobMode && !(ownJob s).any (fun x => decide (pktTenant x.1.packet = pktTenant p)) then 3
  else if 256 ≤ lq.packets.length then 1
  else 0

/-- The meaning of LAUNCH (R359): a release of every class, it waits for the stream's far accesses. -/
def execLaunch (o : DABP) (s : State) : Host.Outcome State Fault Refusal :=
  issue (.launch o) (useDABP o) (fun s =>
    let a := bitsOf (rdS s o.a) 0 22
    let q := bitsOf (rdS s o.b) 0 6
    match cellsTrap s a 1 true with
    | some t => t
    | none => if farHeld (BitVec.allOnes 16) s then .hold else
      let p : BitVec 512 := BitVec.ofNat 512 (spadNum (s.viewed 0) a 64)
      let s := sawScratch 0 a 64 s
      let c := launchStatus s q p
      let s1 := if c = 0 then enqueue q p s else s
      .done (wrD o.d (BitVec.ofNat 64 c) 64 s1)) s

/-! ### POST, TAKE, YIELD, DONE (R360-R363) -/

/-- A task record that POST refuses (Table 18-6, reason 0x03). -/
def recordMalformed (r : BitVec 512) (count : Nat) : Bool :=
  decide (bitsOf r 4 4 ≠ 0) || decide (bitsOf r 9 7 ≠ 0) || decide (bitsOf r 16 48 ≠ 0) || decide (count ≤ bitsOf r 0 4)

/-- Records posted in order until a stage queue is full: how many, and the state (R360). -/
def postRecords (j : Nat) (origin : Word) : List (BitVec 512) → State → Nat × State
  | [], s => (0, s)
  | r :: rest, s =>
    let k := bitsOf r 0 4
    match (jobAt s j).bind fun x => x.stages[k]? with
    | none => (0, s)
    | some g =>
      if g.inq ≤ stageOccupancy s j k then (0, s)
      else
        let m := postRecords j origin rest (onStage j k (fun g => { g with records := g.records ++ [{ cell := r, origin := origin }] }) s)
        (m.1 + 1, m.2)

/-- The meaning of POST (R360): a release of every class, it waits for the stream's far accesses. -/
def execPost (o : DABP) (s : State) : Host.Outcome State Fault Refusal :=
  issue (.post o) (useDABP o) (fun s =>
    let a := bitsOf (rdS s o.a) 0 22
    let n := (rdS s o.b).toNat
    if n = 0 ∨ 8 < n then launchMisuse 0x02
    else match cellsTrap s a n true with
      | some t => t
      | none =>
        let v := s.viewed 0
        let l : List (BitVec 512) := (List.range n).map fun i => BitVec.ofNat 512 (spadNum v (a + 64 * i) 64)
        let s := sawScratch 0 a (64 * n) s
        match ownJob s with
        | none => launchMisuse 0x03
        | some (x, k) =>
          if l.any fun r => recordMalformed r x.stages.length then launchMisuse 0x03
          else if farHeld (BitVec.allOnes 16) s then .hold
          else if x.state = .ending then .done (wrD o.d 0 64 s)
          else
            let m := postRecords x.num ((coordWord s.ownModule s.core.num k).setWidth 64) l s
            .done (wrD o.d (BitVec.ofNat 64 m.1) 64 m.2)) s

/-- The meaning of TAKE (R361). A task whose end is pending ends here as YIELD would end it. -/
def execTake (o : DAP) (s : State) : Host.Outcome State Fault Refusal :=
  issue (.take o) (useDAP o) (fun s =>
    let a := bitsOf (rdS s o.a) 0 22
    match cellsTrap s a 1 false with
    | some t => t
    | none => if s.core.taskEnds then endTask s else match takeFromInbox a s with
      | some (w, s1) => .done (wrD o.d w 1 s1)
      | none => if boundaryPending s then endTask s else suspend (.take a o.d) o.s s) s

/-- The meaning of YIELD (R362). -/
def execYield (o : AP) (s : State) : Host.Outcome State Fault Refusal :=
  issue (.yieldJob o) (useAP o) (fun s =>
    let a := rdS s o.a
    if bitsOf a 1 63 ≠ 0 then launchMisuse 0x01
    else if !bitOf a 0 && !boundaryPending s then .done s
    else endTask s) s

/-- The meaning of DONE (R363): the first one of a job makes it Ending, and the issuing core's task then ends. -/
def execDone (o : AP) (s : State) : Host.Outcome State Fault Refusal :=
  issue (.doneJob o) (useAP o) (fun s =>
    let a := rdS s o.a
    if bitsOf a 32 32 ≠ 0 then launchMisuse 0x01
    else match ownJob s with
      | some (x, _) => if x.state = .ending then endTask s else .jump (beginEnding x.num (BitVec.ofNat 32 (bitsOf a 0 32)) s)
      | none => endTask s) s

/-! ### COORD and STGQ (R364, R367) -/

/-- The word that COORD selects (R364). -/
def coordSelected (s : State) (sel : Nat) : Nat :=
  match ownJob s with
  | none => if sel = 0 then s.ownCoord.toNat else 0
  | some (x, k) => match sel with
    | 0 => (coordWord s.ownModule s.core.num k).toNat
    | 1 => pktTenant x.packet * 2 ^ 48 + x.queue % 64 * 2 ^ 32 + x.num
    | 2 =>
      let l := stageCores s x.num k
      l.length * 2 ^ 8 + (l.findIdx? fun n => decide (n = s.core.num)).getD 0
    | 3 => pktArgs x.packet
    | 4 => pktDeadline x.packet
    | _ => 0

/-- The meaning of COORD (R364). -/
def execCoord (o : DAP) (s : State) : Host.Outcome State Fault Refusal :=
  issue (.coord o) (useDAP o) (fun s => .done (wrD o.d (BitVec.ofNat 64 (coordSelected s (bitsOf (rdS s o.a) 0 3))) 16 s)) s

/-- The stage status word (Table 18-13). -/
def stageWord (s : State) (k : Nat) : Nat :=
  match ownJob s with
  | none => 0
  | some (x, _) => match x.stages[k]? with
    | none => 0
    | some g => 2 ^ 63 + bit g.pinned * 2 ^ 62 + (stageCores s x.num k).length * 2 ^ 40 + g.min * 2 ^ 32 + stageOccupancy s x.num k * 2 ^ 16 + g.inq

/-- The meaning of STGQ (R367). -/
def execStgq (o : DAP) (s : State) : Host.Outcome State Fault Refusal :=
  issue (.stgq o) (useDAP o) (fun s => .done (wrD o.d (BitVec.ofNat 64 (stageWord s (bitsOf (rdS s o.a) 0 4))) 16 s)) s

/-! ### The swarm gatherer (R354-R356, R365, R366) -/

/-- A swarm. -/
def swarmAt (s : State) (w : Nat) : Swarm := s.gather.swarms[Fin.ofNat 16 w]

/-- A swarm replaced. -/
def setSwarm (w : Nat) (x : Swarm) (s : State) : State :=
  { s with gather := { s.gather with swarms := s.gather.swarms.set (Fin.ofNat 16 w) x } }

/-- A descriptor that SWCFG refuses (Table 18-7, reason 0x05). -/
def swarmMalformed (d : BitVec 512) : Bool :=
  decide (1 < bitsOf d 0 8) || decide (15 < bitsOf d 8 8) || decide (bitsOf d 17 7 ≠ 0)
    || (if bitsOf d 0 8 = 0 then decide (bitsOf d 24 40 ≠ 0) || decide (bitsOf d 64 6 ≠ 0) || decide (bitsOf d 128 384 ≠ 0)
        else decide (15 < bitsOf d 24 8) || decide (bitsOf d 48 16 = 0) || decide (256 < bitsOf d 48 16) || decide (bitsOf d 128 6 ≠ 0)
          || decide (bitsOf d 208 304 ≠ 0))

/-- A descriptor applied (R356): a ring, or a swarm whose open batch is lost if it was enabled. -/
def applySwarm (d : BitVec 512) (s : State) : State :=
  let i := bitsOf d 8 8
  let en := bitOf d 16
  if bitsOf d 0 8 = 0 then
    { s with gather := { s.gather with rings := s.gather.rings.set (Fin.ofNat 16 i) { en := en, desc := bitsOf d 64 64, asid := s.core.asid, root := s.core.ptroot } } }
  else
    let x := swarmAt s i
    setSwarm i { x with en := en, model := BitVec.ofNat 16 (bitsOf d 32 16), target := bitsOf d 48 16, slack := BitVec.ofNat 64 (bitsOf d 64 64), slots := bitsOf d 128 64
                        nslot := bitsOf d 24 8 + 1, tenant := BitVec.ofNat 16 (bitsOf d 192 16), asid := s.core.asid, root := s.core.ptroot
                        openRows := if x.en then [] else x.openRows } s

/-- The meaning of SWCFG (R365). -/
def execSwcfg (o : AP) (s : State) : Host.Outcome State Fault Refusal :=
  issue (.swcfg o) (useAP o) (fun s =>
    let a := bitsOf (rdS s o.a) 0 22
    match cellsTrap s a 1 true with
    | some t => t
    | none =>
      let d : BitVec 512 := BitVec.ofNat 512 (spadNum (s.viewed 0) a 64)
      let s := sawScratch 0 a 64 s
      if swarmMalformed d then launchMisuse 0x05 else .done (applySwarm d s)) s

/-- DEADLINE of a row (R354). -/
def rowDeadline (r : BitVec 256) : Nat := bitsOf r 128 64
/-- MODEL of a row. -/
def rowModel (r : BitVec 256) : BitVec 16 := BitVec.ofNat 16 (bitsOf r 192 16)

/-- The rows of a full batch (R355). -/
def Swarm.full (x : Swarm) : Nat := 64 * x.target

/-- The enabled swarm that takes a row: the lowest with its MODEL. -/
def swarmFor (s : State) (r : BitVec 256) : Option Nat := (List.range 16).find? fun w => (swarmAt s w).en && decide ((swarmAt s w).model = rowModel r)

/-- Rows read from a ring from row `x` on: how many are consumed. A malformed row and one for no swarm are dropped; a row of a full swarm, and a
row that cannot be read, stop the reading (R354, R355). -/
def gatherRows (a : Access) (base log2 : Nat) : Nat → Nat → State → Nat × State
  | 0, _, s => (0, s)
  | n + 1, x, t =>
    let s := countSched a (base + 32 * (x % 2 ^ log2)) 32 t
    match schedNum a t (base + 32 * (x % 2 ^ log2)) 32 with
    | none => (0, s)
    | some v =>
      let r : BitVec 256 := BitVec.ofNat 256 v
      let next (s : State) : Nat × State :=
        let m := gatherRows a base log2 n (x + 1) s
        (m.1 + 1, m.2)
      if bitsOf r 208 48 ≠ 0 then next s
      else match swarmFor s r with
        | none => next s
        | some w =>
          let g := swarmAt s w
          if g.full ≤ g.openRows.length then (0, s) else next (setSwarm w { g with openRows := g.openRows ++ [r] } s)

/-- One ring polled (R354): TAIL is read, rows are copied, HEAD is written. A descriptor that cannot be read, or is malformed, is left alone. -/
def pollRing (i : Nat) (s : State) : State :=
  let r := s.gather.rings[Fin.ofNat 16 i]
  let a : Access := { asid := r.asid, root := r.root, job := false, write := false }
  if !r.en then s
  else
    let t := countSched a r.desc 64 s
    match schedNum a s r.desc 64 with
    | none => t
    | some v =>
      let s := t
      let log2 := fld v 64 8
      let tail := fld v 128 64
      let head := fld v 192 64
      if fld v 0 6 ≠ 0 ∨ log2 < 4 ∨ 20 < log2 ∨ fld v 72 56 ≠ 0 ∨ fld v 256 256 ≠ 0 then s
      else
        let n := (tail + 2 ^ 64 - head) % 2 ^ 64
        let m := gatherRows a (fld v 0 64) log2 (min n (2 ^ log2)) head s
        if m.1 = 0 then m.2
        else match (translateBy 0 none (fun t _ => t) m.2 { a with write := true } (r.desc + 24)).result with
          | .ok x => memPutBytes m.2 x.pa (bytesOfNum 8 (head + m.1))
          | .error _ => m.2

/-- The meaning of SWARM_RING_POLL (R354): the rings in ascending number. -/
def execSwarmRingPoll (s : State) : Host.Outcome State Fault Refusal := .next ((List.range 16).foldl (fun s i => pollRing i s) { s with gather := { s.gather with lastPoll := s.now } })

/-- The earliest DEADLINE of rows. -/
def earliestDeadline : List (BitVec 256) → Nat
  | [] => 2 ^ 64 - 1
  | r :: rest => min (rowDeadline r) (earliestDeadline rest)

/-- The slot of a batch number is not free: an emitted or taken batch holds it (R355). -/
def slotBusy (x : Swarm) (b : Nat) : Bool :=
  ((x.emitted.map fun e => e.num.toNat) ++ x.taken.map (·.toNat)).any fun n => decide (n % x.nslot = b % x.nslot)

/-- A swarm emits its open batch (R355). -/
def canEmit (s : State) (x : Swarm) : Bool :=
  x.en && !x.openRows.isEmpty && !slotBusy x x.nextBatch.toNat
    && (decide (x.full ≤ x.openRows.length) || decide ((earliestDeadline x.openRows : Int) - (x.slack.toNat : Int) ≤ (s.now : Int)))

/-- The bytes of a batch, rounded up to whole bands with rows of 0xFF (R355). -/
def batchBytes (rows : List (BitVec 256)) : List Byte :=
  ((rows.map fun r => bytesOfNum 32 r.toNat).flatten) ++ List.replicate (32 * ((rows.length + 63) / 64 * 64 - rows.length)) 0xFF

/-- Cells written from `va` in the space of a swarm; a cell with no valid translation is not written. -/
def putBatch (a : Access) : Nat → Nat → List Byte → State → State
  | 0, _, _, s => s
  | n + 1, va, bs, s =>
    let s1 := match (translateBy 0 none (fun t _ => t) s a va).result with
      | .ok x => writeCellAt s x { bytes := BitVec.ofNat 512 (numOfBytes (bs.take 64)), tag := 0 }
      | .error _ => s
    putBatch a n (va + 64) (bs.drop 64) s1

/-- The address of a batch's slot (R355). -/
def slotAddr (x : Swarm) (b : Nat) : Nat := x.slots + b % x.nslot * 2048 * x.target

/-- The batch descriptor (Table 18-12). -/
def batchDescriptor (b : Batch) : BitVec 512 :=
  BitVec.ofNat 512 (b.addr % 2 ^ 64 + b.rows * 2 ^ 64 + (b.rows + 63) / 64 * 2 ^ 96 + b.model.toNat * 2 ^ 112 + b.deadline.toNat * 2 ^ 128
    + b.num.toNat * 2 ^ 192 + (bit b.full + 2 * bit b.slack + 4 * bit b.late) * 2 ^ 224)

/-- The oldest emitted batch taken by the core in focus into `a` (R366). -/
def takeBatch (w a : Nat) (s : State) : Option (Word × State) :=
  let x := swarmAt s w
  match x.emitted with
  | [] => none
  | b :: rest =>
    let s1 := setSwarm w { x with emitted := rest, taken := x.taken ++ [b.num] } s
    some (BitVec.ofNat 64 b.rows, storeCellBy .ctl 0 a { bytes := batchDescriptor b, tag := 0 } s1)

/-- The core in focus, waiting at SWTAKE of swarm w, takes a batch. -/
def serveSwtake (w : Nat) (s : State) : State :=
  match waitsOn s .ctl with
  | some (.swtake v a d) =>
    if v = w then match takeBatch w a s with
      | some (n, s1) => resume .ctl (some (d, n)) s1
      | none => s
    else s
  | _ => s

/-- The first core waiting for swarm w is served, in order of arrival (R366). -/
def serveWaiter (w : Nat) (s : State) : State :=
  match s.gather.waiters.find? fun p => decide (p.1 = w) with
  | none => s
  | some p => onCore p.2 (serveSwtake w) { s with gather := { s.gather with waiters := s.gather.waiters.erase p } }

/-- The open batch of swarm w is written to its slot and emitted (R355). -/
def emitBatch (w : Nat) (s : State) : State :=
  let x := swarmAt s w
  if !canEmit s x then s
  else
    let rows := x.openRows
    let b : Batch := { num := x.nextBatch, rows := rows.length, deadline := BitVec.ofNat 64 (earliestDeadline rows), full := decide (x.full ≤ rows.length)
                       slack := decide ((earliestDeadline rows : Int) - (x.slack.toNat : Int) ≤ (s.now : Int)), late := decide (earliestDeadline rows < s.now)
                       addr := slotAddr x x.nextBatch.toNat, model := x.model }
    let bs := batchBytes rows
    let s1 := putBatch { asid := x.asid, root := x.root, job := false, write := true } (bs.length / 64) (slotAddr x x.nextBatch.toNat) bs s
    serveWaiter w (setSwarm w { x with openRows := [], nextBatch := x.nextBatch + 1, emitted := x.emitted ++ [b] } s1)

/-- The meaning of BATCH_EMIT (R355): swarm `a` emits. -/
def execBatchEmit (s : State) : Host.Outcome State Fault Refusal := .next (emitBatch s.arg.a s)

/-- The slot of a taken batch freed (R366). -/
def freeSlot (w : Nat) (b : BitVec 32) (s : State) : State :=
  let x := swarmAt s w
  setSwarm w { x with taken := x.taken.filter (· != b) } s

/-- The meaning of SWTAKE (R366). -/
def execSwtake (o : DABP) (s : State) : Host.Outcome State Fault Refusal :=
  issue (.swtake o) (useDABP o) (fun s =>
    let a := rdS s o.a
    let b := rdS s o.b
    let w := bitsOf a 48 4
    let d := bitsOf a 0 22
    let x := swarmAt s w
    if bitsOf a 22 26 ≠ 0 ∨ bitsOf a 52 12 ≠ 0 ∨ bitsOf b 32 31 ≠ 0 then launchMisuse 0x01
    else match cellsTrap s d 1 false with
      | some t => t
      | none =>
        if !x.en || !(ownJob s).any (fun j => decide (pktTenant j.1.packet = x.tenant.toNat)) then launchMisuse 0x04
        else
          let s1 := if bitOf b 63 then freeSlot w (BitVec.ofNat 32 (bitsOf b 0 32)) s else s
          match takeBatch w d s1 with
          | some (n, s2) => .done (wrD o.d n 1 s2)
          | none => suspend (.swtake w d o.d) o.s { s1 with gather := { s1.gather with waiters := s1.gather.waiters ++ [(w, s.core.num)] } }) s

end Sys2Proof.Machine
end

