-- ==== Sys2Proof/Machine/Control.lean ====
section
/-! DEFINITION. Control flow, the named window with its spill engine, and the loop buffer (R81-R85, R93-R98). -/

namespace Sys2Proof.Machine

/-! ### Transfers -/

/-- The program counter of the stream whose turn it is, replaced. -/
def setPc (s : State) (pc : BitVec 22) : State := s.setCur { s.cur with pc := pc }

/-- The target of the B format: the word's address plus 4 x offset (R53). -/
def branchTarget (pc : BitVec 22) (o : BitVec 20) : BitVec 22 := pc + BitVec.ofInt 22 (4 * o.toInt)

/-- The target of JMP, CALLR and RET: Bits(A, 21, 0) (R94). -/
def jumpTarget (a : Word) : BitVec 22 := a.setWidth 22

/-- The B format transfers: its predicate differs from its negate bit (R56). -/
def branchTaken (o : BOps) (s : State) : Bool := rdP s o.p != o.n

/-- The meaning of BR (R93). -/
def execBr (o : BOps) (s : State) : Host.Outcome State Fault Refusal :=
  issue (.br o) (useBOps o) (fun s => if branchTaken o s then .jump (setPc s (branchTarget s.cur.pc o.o)) else .done s) s

/-- The meaning of JMP (R94). -/
def execJmp (o : AP) (s : State) : Host.Outcome State Fault Refusal :=
  issue (.jmp o) (useAP o) (fun s =>
    let t := jumpTarget (rdS s o.a)
    if t.toNat % 4 ≠ 0 then misaligned t.toNat else .jump (setPc s t)) s

/-! ### The window (R81-R83) -/

/-- The spill base of the level in force: SPB, or SSPB in supervisor mode (R368). -/
def Stream.spillBase (st : Stream) : Nat := (if st.priv then st.sspb else st.spb).toNat * 64

/-- The spill limit of the level in force. -/
def Stream.spillLimit (st : Stream) : Nat := (if st.priv then st.sspl else st.spl).toNat * 64

/-- Every result in flight to a named register has landed, one whose register has been written since too (R65). -/
def Stream.namedLanded (st : Stream) : Bool :=
  st.bank.regs.toList.all (fun r => r.readable st.clk) && decide (st.namedReady ≤ st.clk) && st.flds.all fun f => !f.named

/-- The eight registers of physical group `g` as a cell's bytes. -/
def groupBytes (b : Bank) (g : Nat) : List Byte :=
  (List.range 8).flatMap fun k => bytesOfNum 8 (b.regs[Fin.ofNat 128 (g * 8 + k)]).val.toNat

/-- Physical group `g` filled with eight values, readable at once. -/
def fillGroup (b : Bank) (g clk : Nat) (f : Nat → Word) : Bank :=
  { b with regs := (List.range 8).foldl (fun r k => r.set (Fin.ofNat 128 (g * 8 + k)) { val := f k, ready := clk, fld := none }) b.regs }

/-- CALL and CALLR move the window and transfer (R82). The callee's n8-n14 are free values. A physical group that no longer holds logical
group newGroup-16 is stored to the spill slot all the same (DESIGN CHOICE, log entry 49). -/
def callTo (target : BitVec 22) (s : State) : Eff :=
  let st := s.cur
  if !st.namedLanded then .hold
  else if target.toNat % 4 ≠ 0 then misaligned target.toNat
  else
    let b := st.bank
    let g := st.groups
    let new := b.depth + 2
    let slot := st.spillBase + 64 * (new - g)
    let overflow (a : Nat) : Eff := .trapIn (s.setCur { st with wstOver := true }) (mkTrap cSpill 1 a)
    if 255 ≤ b.depth then overflow 0
    else if g ≤ new ∧ st.spillLimit < slot + 64 then overflow slot
    else if g ≤ new ∧ !st.priv ∧ touchesSr s.core slot 64 then forbidden slot
    else
      let s1 := if g ≤ new then
          settleStores s.turn slot 64 (s.setCore (spadPutTag (spadPutBytes s.core slot (groupBytes b (new % g))) slot 0))
        else s
      let b1 := fillGroup b (new % g) st.clk fun k =>
        if k = 7 then (st.pc + 4).setWidth 64 else Config.freeWord s.tick (40 + k)
      let b2 := { b1 with depth := b.depth + 1, holds := b1.holds.set (Fin.ofNat 16 (new % g)) (some new) }
      .jump (s1.setCur { st.setBank b2 with pc := target })

/-- The meaning of CALL (R82, R93). A CALL that does not transfer has no effect. -/
def execCall (o : BOps) (s : State) : Host.Outcome State Fault Refusal :=
  issue (.call o) (useBOps o) (fun s => if branchTaken o s then callTo (branchTarget s.cur.pc o.o) s else .done s) s

/-- The meaning of CALLR (R82, R94). -/
def execCallr (o : AP) (s : State) : Host.Outcome State Fault Refusal :=
  issue (.callr o) (useAP o) (fun s => callTo (jumpTarget (rdS s o.a)) s) s

/-- RET moves the window back and transfers (R83). -/
def returnFrom (s : State) : Eff :=
  let st := s.cur
  let b := st.bank
  if !st.namedLanded then .hold
  else if b.depth = 0 then .trapIn (s.setCur { st with wstUnder := true }) (mkTrap cSpill 2 0)
  else
    let target := jumpTarget (rdS s (.n 15))
    if target.toNat % 4 ≠ 0 then misaligned target.toNat
    else
      let d := b.depth - 1
      let g := st.groups
      let slot := st.spillBase + 64 * d
      let resident : Bool := decide (b.holds[Fin.ofNat 16 (d % g)] = some d)
      if !resident && !st.priv && touchesSr s.core (slot % spadSize) 64 then forbidden (slot % spadSize)
      else
        let b1 := if resident then b else
          { fillGroup b (d % g) st.clk (fun k => BitVec.ofNat 64 (spadReadNum s (slot + 8 * k) 8)) with
            holds := b.holds.set (Fin.ofNat 16 (d % g)) (some d) }
        let s1 := if resident then s else settleStores s.turn slot 64 s
        .jump (s1.setCur { st.setBank { b1 with depth := d } with pc := target })

/-- The meaning of RET (R83, R94). -/
def execRet (o : GP) (s : State) : Host.Outcome State Fault Refusal :=
  issue (.ret o) (useGP o) returnFrom s

/-! ### The loop buffer (R95-R98) -/

/-- The base register that a BASE byte names: none for 0, n0-n15 for 16-31, otherwise malformed (Table 5-3). -/
def baseOf (b : Nat) : Option (Option (Fin 16)) :=
  if b = 0 then some none
  else if 16 ≤ b ∧ b < 32 then some (some (Fin.ofNat 16 (b - 16)))
  else none

/-- No register is named twice. -/
def distinctBases (l : List (Option (Fin 16))) : Bool :=
  let r := l.filterMap id
  decide r.Nodup

/-- The nest state that a descriptor at `a` gives, `none` when it is malformed (R95, Table 5-3). Its reads are of class k0 (R115). A poisoned cell traps
nothing here, the bytes of an uncorrectable line are free, and an address past the scratchpad's end wraps (log entry 44). -/
def readNest (s : State) (a levels : Nat) : Option Nest :=
  let s := s.setCore (s.viewed 0)
  match (List.range 4).mapM fun j => baseOf (spadReadNum s (a + j) 1) with
  | none => none
  | some bases =>
    if spadReadNum s (a + 4) 4 ≠ 0 ∨ !distinctBases bases then none
    else
      let lv (l : Nat) : NestLevel :=
        if l < levels then
          { count := BitVec.ofNat 32 (spadReadNum s (a + 8 + 16 * l) 4)
            inc := Vector.ofFn fun j => BitVec.ofNat 24 (spadReadNum s (a + 12 + 16 * l + 3 * j.val) 3) }
        else NestLevel.reset
      some { Nest.reset with levels := levels, base := Vector.ofFn fun j => (bases[j.val]?).getD none, level := Vector.ofFn fun l => lv l.val }

/-- The meaning of NDIM (R95). -/
def execNdim (o : NdimOps) (s : State) : Host.Outcome State Fault Refusal :=
  issue (.ndim o) (useNdimOps o) (fun s =>
    let a := bitsOf (rdS s o.a) 0 22
    let levels := o.l.val + 1
    if a % 8 ≠ 0 then misaligned a
    else if !s.cur.priv && touchesSr s.core a (8 + 16 * levels) then forbidden a
    else match readNest s a levels with
      | none => .trap (illegalRec ((encode (.ndim o)).getD 0) 0 a)
      | some n =>
        let s1 := sawScratch 0 a (8 + 16 * levels) s
        .done (s1.setCur (s1.cur.setBank { s1.cur.bank with nest := n }))) s

/-- An instruction that may not stand in a nest body (R97). -/
def bannedInBody : Instr → Bool
  | .br _ | .call _ | .jmp _ | .callr _ | .ret _ | .ndim _ | .nest _ | .mode _ | .tret _ => true
  | _ => false

/-- The address of the first forbidden word of a body (R97). A word counts as one of the forbidden instructions only when it decodes as one: one that
fails a check of Table 3-5 is no instruction, and traps when it issues (log entry 45). The body is looked at here alone: a body word that is one of them
only later transfers, and the nest stays active where it stood (DESIGN CHOICE, log entry 56). -/
def firstBanned (s : State) (words : Nat) : Option Nat :=
  ((List.range words).map fun k => (s.cur.pc.toNat + 4 + 4 * k) % spadSize).find? fun a =>
    match decodeIn s.turn (spadReadNum s a 4) with
    | .ok i => bannedInBody i
    | .error _ => false

/-- The base registers of the nest state, as source operands. -/
def nestSources (n : Nest) : List SSrc := n.base.toList.filterMap fun b => b.map SSrc.n

/-- The meaning of NEST (R96, R97): the nest begins its first pass, or passes over nothing when some COUNT is 0. -/
def execNest (o : NestOps) (s : State) : Host.Outcome State Fault Refusal :=
  issue (.nest o) { useNestOps o with srcs := nestSources s.cur.bank.nest } (fun s =>
    let st := s.cur
    let b := st.bank
    let n := b.nest
    let words := o.w.val + 1
    match firstBanned s words with
    | some a => .trap (illegalRec ((encode (.nest o)).getD 0) 7 a)
    | none =>
      let n1 := { n with
        idx := Vector.replicate 6 0
        origin := Vector.ofFn fun j => match n.base[j] with
          | some i => rdS s (.n i)
          | none => 0
        nestPc := st.pc, words := words, pos := 0 }
      if (List.finRange 6).any fun l => decide (l.val < n.levels) && decide ((n.level[l]).count = 0) then
        .jump (s.setCur { st.setBank { b with nest := n1 } with pc := st.pc + 4 + BitVec.ofNat 22 (4 * words) })
      else
        let n2 := { n1 with active := true }
        .jump (s.setCur { st.setBank { b with nest := n2, regs := writeBases st.clk st.groups b.depth true n2 b.regs } with pc := st.pc + 4 })) s

/-- LIDX: the index of a level, 0 at or beyond the configured count (R98). -/
def resultLidx (o : LidxOps) (s : State) : Word :=
  let n := s.cur.bank.nest
  if h : o.l.val < n.levels ∧ o.l.val < 6 then (n.idx[o.l.val]'h.2).setWidth 64 else 0

/-- The meaning of LIDX (R98). -/
def execLidx (o : LidxOps) (s : State) : Host.Outcome State Fault Refusal :=
  issue (.lidx o) (useLidxOps o) (fun s => .done (wrD o.d (resultLidx o s) 2 s)) s

end Sys2Proof.Machine
end

