-- ==== Sys2Proof/Machine/VecArith.lean ====
section
/-! DEFINITION. The arithmetic of vector lanes: element types (Table 13-2), conversion to and from them (R49), and the float and integer
effects of one lane (R260-R262). -/

namespace Sys2Proof.Machine

/-! ### Element types -/

/-- An assigned element type code (Table 13-2). -/
def vtOk (t : Nat) : Bool := [0, 1, 2, 4, 5, 6, 8, 9, 10, 12, 13].contains t

/-- Width in bits. -/
def vtWidth (t : Nat) : Nat :=
  match t with
  | 0 | 4 | 8 => 32
  | 1 | 2 | 5 | 9 => 16
  | _ => 8

/-- A float type. -/
def vtFloat (t : Nat) : Bool := decide (t ≤ 2)
/-- A signed integer type. -/
def vtSigned (t : Nat) : Bool := decide (4 ≤ t) && decide (t ≤ 6)
/-- An unsigned integer type. -/
def vtUnsigned (t : Nat) : Bool := decide (8 ≤ t) && decide (t ≤ 10)
/-- An integer type. -/
def vtInt (t : Nat) : Bool := vtSigned t || vtUnsigned t
/-- A byte-float type. -/
def vtByte (t : Nat) : Bool := decide (t = 12) || decide (t = 13)

/-- The format of a float or byte-float type. -/
def vtFmt (t : Nat) : Fmt :=
  match t with
  | 0 => .fp32
  | 1 => .bf16
  | 2 => .fp16
  | 12 => .e4m3
  | _ => .e5m2

/-- The value of a lane. -/
def vtValue (t code : Nat) : Num :=
  if vtSigned t then Num.ofInt (signed (vtWidth t) code)
  else if vtUnsigned t then Num.ofInt code
  else decodeFmt (vtFmt t) code

/-- A value rounded to an unsigned integer of w bits, clamped to its range (Table 2-11). -/
def roundNat (w : Nat) (rm : BitVec 2) (v : Num) : Rounded :=
  match v with
  | .nan => { code := 0, flags := fNV }
  | .inf n => { code := if n then 0 else 2 ^ w - 1, flags := fNV }
  | .fin n m e =>
    let r := roundUnits rm n m 1 e 0
    if n && decide (r.1 ≠ 0) then { code := 0, flags := fNV }
    else if 2 ^ w ≤ r.1 then { code := 2 ^ w - 1, flags := fNV }
    else { code := r.1, flags := if r.2 then fNX else 0 }

/-- RoundTo(T, v, mode) under SATM (R49). -/
def vtRound (t : Nat) (rm : BitVec 2) (satm : Nat) (v : Num) : Rounded :=
  if vtSigned t then
    let r := roundInt (vtWidth t) rm v
    { code := codeOfInt (vtWidth t) r.1, flags := r.2 }
  else if vtUnsigned t then roundNat (vtWidth t) rm v
  else convert (vtFmt t) rm (saturates (vtFmt t) satm) v

/-! ### Float effects (R260) -/

/-- A lane code that sets no flag. -/
def exact (c : Nat) : Rounded := { code := c, flags := 0 }

/-- A value rounded to T, non-saturating, with the flags met in forming it. -/
def vtResult (f : Fmt) (rm : BitVec 2) (v : Num × FlagSet) : Rounded :=
  let r := roundTo f rm v.1
  { code := r.code, flags := v.2 ||| r.flags }

/-- VADD. -/
def fAdd (f : Fmt) (rm : BitVec 2) (a b : Nat) : Rounded := vtResult f rm ((decodeFmt f a).add rm (decodeFmt f b))
/-- VSUB. -/
def fSub (f : Fmt) (rm : BitVec 2) (a b : Nat) : Rounded := vtResult f rm ((decodeFmt f a).add rm (decodeFmt f b).negate)
/-- VMUL. -/
def fMul (f : Fmt) (rm : BitVec 2) (a b : Nat) : Rounded := vtResult f rm ((decodeFmt f a).mul (decodeFmt f b))

/-- a x b + d with the sign variant of VFMA before the one rounding; a NaN operand raises no flag (R47). -/
def fmaValue (k : Fin 4) (rm : BitVec 2) (a b d : Num) : Num × FlagSet :=
  if a.isNan || b.isNan || d.isNan then (.nan, 0)
  else
    let p := a.mul b
    let q := if 2 ≤ k.val then p.1.negate else p.1
    let r := q.add rm (if k.val % 2 = 1 then d.negate else d)
    (r.1, p.2 ||| r.2)

/-- VFMA. -/
def fFma (k : Fin 4) (f : Fmt) (rm : BitVec 2) (a b d : Nat) : Rounded :=
  vtResult f rm (fmaValue k rm (decodeFmt f a) (decodeFmt f b) (decodeFmt f d))

/-- a precedes b, with -0 below +0; neither is NaN. -/
def Num.below (a b : Num) : Bool := a.lt b || (a.isZero && b.isZero && a.neg && !b.neg)

/-- VMAX of codes: of two NaNs the canonical one, of one NaN the other operand. -/
def fMax (f : Fmt) (a b : Nat) : Nat :=
  let x := decodeFmt f a
  let y := decodeFmt f b
  if x.isNan then (if y.isNan then f.nan else b)
  else if y.isNan then a
  else if x.below y then b else a

/-- VMIN of codes. -/
def fMin (f : Fmt) (a b : Nat) : Nat :=
  let x := decodeFmt f a
  let y := decodeFmt f b
  if x.isNan then (if y.isNan then f.nan else b)
  else if y.isNan then a
  else if y.below x then b else a

/-- VABS: the sign bit cleared; a NaN gives the canonical NaN. -/
def fAbs (f : Fmt) (a : Nat) : Nat := if (decodeFmt f a).isNan then f.nan else a % 2 ^ (f.width - 1)

/-- VNEG: the sign bit inverted; a NaN gives the canonical NaN. -/
def fNeg (f : Fmt) (a : Nat) : Nat := if (decodeFmt f a).isNan then f.nan else a ^^^ 2 ^ (f.width - 1)

/-- VCLAMP. -/
def fClamp (f : Fmt) (a b : Nat) : Nat :=
  let m := fAbs f b
  fMin f (fMax f a (fNeg f m)) m

/-- The integer part of a value, toward zero, held to [-512, 512]. -/
def truncSat : Num → Int
  | .nan => 0
  | .inf n => if n then -512 else 512
  | .fin n m e =>
    let k := min (m * 2 ^ e.toNat / 2 ^ (-e).toNat) 512
    if n then -(k : Int) else k

/-- VSCALE. -/
def fScale (f : Fmt) (rm : BitVec 2) (a b : Nat) : Rounded :=
  let x := decodeFmt f a
  let y := decodeFmt f b
  if x.isNan || y.isNan then exact f.nan else roundTo f rm (x.scale (truncSat y))

/-! ### The defined functions (R261) -/

/-- floor(sqrt n) for n below 4^k, bit by bit from a root found so far. -/
def rootFrom (n : Nat) : Nat → Nat → Nat
  | 0, r => r
  | k + 1, r => rootFrom n k (if (r + 2 ^ k) * (r + 2 ^ k) ≤ n then r + 2 ^ k else r)

/-- Bits kept of a value before its one rounding (log entry 25). -/
def funcBits : Nat := 256

/-- A positive value known to be p x 2^e exactly, or to lie strictly between p x 2^e and (p + 1) x 2^e, rounded once to a format. -/
def roundBetween (f : Fmt) (rm : BitVec 2) (neg isExact : Bool) (p : Nat) (e : Int) : Rounded :=
  roundFloat f rm false neg (2 * p + bit (!isExact)) 1 (e - 1)

/-- The Taylor sum of e^y - 1 from term k, y over 2^funcBits and `t` the last term. -/
def expTail (y : Nat) : Nat → Nat → Nat → Nat
  | 0, _, _ => 0
  | n + 1, k, t =>
    let u := t * y / 2 ^ funcBits / k
    u + expTail y n (k + 1) u

/-- The sum of z^(2i+1)/(2i+1) from a term, z over 2^funcBits. -/
def atanhTail (z2 : Nat) : Nat → Nat → Nat → Nat
  | 0, _, _ => 0
  | n + 1, k, t => t / k + atanhTail z2 n (k + 2) (t * z2 / 2 ^ funcBits)

/-- ln(a/b) over 2^funcBits for b ≤ a ≤ 2b: 2 atanh((a - b)/(a + b)). -/
def lnRatio (a b : Nat) : Nat :=
  let z := (a - b) * 2 ^ funcBits / (a + b)
  2 * atanhTail (z * z / 2 ^ funcBits) 90 1 z

/-- ln 2 over 2^funcBits. -/
def ln2 : Nat := lnRatio 2 1

/-- 2^x for a finite x, as p x 2^e with p over 2^funcBits, and whether it is exact: x is an integer (R261). An exponent beyond every
format is held to 4096. -/
def exp2Parts (x : Num) : Nat × Int × Bool :=
  match x with
  | .fin n m e =>
    let d := 2 ^ (-e).toNat
    let whole := m * 2 ^ e.toNat / d
    let rest := if 0 ≤ e then 0 else m % d
    if rest = 0 then (2 ^ funcBits, (if n then -((min whole 4096 : Nat) : Int) else (min whole 4096 : Nat)), true)
    else
      let i : Int := if n then -((min whole 4096 : Nat) : Int) - 1 else (min whole 4096 : Nat)
      let frac := (if n then d - rest else rest) * 2 ^ funcBits / d
      let y := frac * ln2 / 2 ^ funcBits
      (2 ^ funcBits + expTail y 80 1 (2 ^ funcBits), i, false)
  | _ => (2 ^ funcBits, 0, true)

/-- 2^x of a finite x rounded once. -/
def exp2Round (f : Fmt) (rm : BitVec 2) (x : Num) : Rounded :=
  let p := exp2Parts x
  roundBetween f rm false p.2.2 p.1 (p.2.1 - funcBits)

/-- VEXP. -/
def fExp (f : Fmt) (rm : BitVec 2) (a : Nat) : Rounded :=
  match decodeFmt f a with
  | .nan => exact f.nan
  | .inf n => exact (if n then 0 else f.infCode)
  | x => exp2Round f rm x

/-- log2 of m x 2^e for m ≠ 0, over 2^funcBits, and whether it is exact. -/
def log2Parts (m : Nat) (e : Int) : Int × Bool :=
  let l := Nat.log2 m
  if m = 2 ^ l then (((l : Int) + e) * 2 ^ funcBits, true)
  else (((l : Int) + e) * 2 ^ funcBits + ((lnRatio m (2 ^ l) * 2 ^ funcBits / ln2 : Nat) : Int), false)

/-- VLOG. -/
def fLog (f : Fmt) (rm : BitVec 2) (a : Nat) : Rounded :=
  match decodeFmt f a with
  | .nan => exact f.nan
  | .inf n => if n then { code := f.nan, flags := fNV } else exact f.infCode
  | .fin n m e =>
    if m = 0 then { code := signBit f true + f.infCode, flags := fDZ }
    else if n then { code := f.nan, flags := fNV }
    else
      let p := log2Parts m e
      if p.1 = 0 then exact 0 else roundBetween f rm (decide (p.1 < 0)) p.2 p.1.natAbs (-(funcBits : Int))

/-- VRCP. -/
def fRcp (f : Fmt) (rm : BitVec 2) (a : Nat) : Rounded :=
  match decodeFmt f a with
  | .nan => exact f.nan
  | .inf n => exact (signBit f n)
  | .fin n m e => if m = 0 then { code := signBit f n + f.infCode, flags := fDZ } else roundFloat f rm false n 1 m (-e)

/-- VRSQ: the root of 2^160 / m, with m scaled to an even exponent. -/
def fRsq (f : Fmt) (rm : BitVec 2) (a : Nat) : Rounded :=
  match decodeFmt f a with
  | .nan => exact f.nan
  | .inf n => if n then { code := f.nan, flags := fNV } else exact 0
  | .fin n m e =>
    if m = 0 then { code := signBit f n + f.infCode, flags := fDZ }
    else if n then { code := f.nan, flags := fNV }
    else
      let odd : Bool := decide (e % 2 = 1)
      let m' := if odd then 2 * m else m
      let e' := if odd then e - 1 else e
      let r := rootFrom (2 ^ 160 / m') 81 0
      roundBetween f rm false (decide (r * r * m' = 2 ^ 160)) r (-80 - e' / 2)

/-! ### Integer effects (R262) -/

/-- A lane as a signed or unsigned integer. -/
def vtIntOf (t code : Nat) : Int := if vtSigned t then signed (vtWidth t) code else code

/-- VSHA of w bits. -/
def shiftArith (w a n : Nat) : Nat := codeOfInt w (signed w a / ((2 ^ (min n w) : Nat) : Int))

end Sys2Proof.Machine
end

