-- ==== Sys2Proof/Machine/Vector.lean ====
section
/-! DEFINITION. The vector stream's registers and shape, loads and stores, elementwise arithmetic, compares, masks, conversion and the
quantiser (R246-R266). -/

namespace Sys2Proof.Machine

/-! ### Registers and lanes (R246-R250) -/

/-- R of the shape. -/
def Shape.rows (h : Shape) : Nat := h.rowsM1.toNat + 1
/-- C of the shape. -/
def Shape.cols (h : Shape) : Nat := h.colsM1.toNat + 1
/-- E of the shape. -/
def Shape.lanes (h : Shape) : Nat := h.rows * h.cols
/-- T of the shape. -/
def Shape.t (h : Shape) : Nat := h.type.toNat
/-- w of the shape. -/
def Shape.w (h : Shape) : Nat := vtWidth h.t

/-- VSH as a word (Table 13-1). -/
def Shape.word (h : Shape) : Word := BitVec.ofNat 64 (h.colsM1.toNat + h.rowsM1.toNat * 2 ^ 16 + h.type.toNat * 2 ^ 24)

/-- The shape of the core in focus. -/
def shapeOf (s : State) : Shape := s.core.vec.shape

/-- Lane l of a register image (R248). -/
def laneOf (x : Nat) (w l : Nat) : Nat := fld x (w * l) w

/-- The little-endian number of n lanes of width w, from lane l. -/
def packLanes (w : Nat) (f : Nat → Nat) : Nat → Nat → Nat
  | 0, _ => 0
  | n + 1, l => f l % 2 ^ w + 2 ^ w * packLanes w f n (l + 1)

/-- vlane (R259): the lane number in each lane of the shape; the bits beyond are free. -/
def laneImage (h : Shape) (free : Nat) : Nat :=
  let f (l : Nat) : Nat := if vtFloat h.t then (vtRound h.t 0 0 (Num.ofInt l)).code else l
  packLanes h.w f h.lanes 0 + free / 2 ^ (h.w * h.lanes) * 2 ^ (h.w * h.lanes)

/-- The image that a vector source reads as: in exposed mode a free value before it is readable (R66). -/
def rdV (s : State) (x : VSrc) : Nat :=
  let v := s.core.vec
  let at_ (t : Timed (BitVec 131072)) (loc : Nat) : Nat :=
    if s.cur.mode || decide (t.ready ≤ s.cur.clk) then t.val.toNat else (Config.freeImage s.tick loc).toNat
  match x with
  | .q i => at_ v.vq[i] i.val
  | .v i => at_ v.v[i] (16 + i.val)
  | .zero => 0
  | .lane => laneImage (shapeOf s) (Config.freeImage s.tick 40).toNat

/-- The present image of a vector destination: for a push, vq0 as at issue (R260, R277). -/
def rdOld (s : State) : VDst → Nat
  | .push => rdV s (.q 0)
  | .v i => rdV s (.v i)

/-- The bits that a mask reads as (R66); m0 reads as all ones (R246). -/
def rdM (s : State) (m : Fin 16) : Nat :=
  let x := s.core.vec.m[m]
  if m = 0 then 2 ^ 4096 - 1
  else if s.cur.mode || decide (x.ready ≤ s.cur.clk) then x.val.toNat
  else (Config.freeMask s.tick m.val).toNat

/-- The vector state replaced. -/
def State.setVec (s : State) (v : VectorFile) : State := s.setCore { s.core with vec := v }

/-- A whole image written into a destination with latency bound `b`. -/
def wrV (d : VDst) (x : Nat) (b : Nat) (s : State) : State :=
  let t : Timed (BitVec 131072) := { val := BitVec.ofNat 131072 x, ready := s.cur.clk + b }
  let s1 := s.setCur (s.cur.landAt (s.cur.clk + b))
  match d with
  | .push => s1.setVec (s.core.vec.push t)
  | .v i => s1.setVec { s.core.vec with v := s.core.vec.v.set i t }

/-- A whole mask written; a write of m0 is discarded (R246). -/
def wrM (m : Fin 16) (x : Nat) (b : Nat) (s : State) : State :=
  if m = 0 then s
  else
    let s1 := s.setCur (s.cur.landAt (s.cur.clk + b))
    s1.setVec { s.core.vec with m := s.core.vec.m.set m { val := BitVec.ofNat 4096 x, ready := s.cur.clk + b } }

/-- The cycle in which a result with latency bound `b` lands: one of the b cycles after its issue (R62, log entry 7). -/
def landCycle (s : State) (b : Nat) : Nat := s.cur.clk + 1 + Config.fetchLatency s.tick % b

/-- Flags that accrue when the result lands (R48). -/
def landFlags (f : FlagSet) (b : Nat) (s : State) : State :=
  if f = 0 then s
  else s.setCur { s.cur with landing := s.cur.landing ++ [{ due := landCycle s b, flags := f, trap := none }] }

/-- A load's trap, taken when its result would land (R257). -/
def landTrap (r : TrapRec) (b : Nat) (s : State) : State :=
  s.setCur { s.cur with landing := s.cur.landing ++ [{ due := landCycle s b, flags := 0, trap := some (r, s.cur.pc) }] }

/-- A load that fails: its named destination keeps its bits, and a reserved vq0 slot holds zero (R257). -/
def failLoad (d : VDst) (r : TrapRec) (b : Nat) (s : State) : State :=
  let old := match d with
    | .push => 0
    | .v i => (s.core.vec.v[i]).val.toNat
  landTrap r b (wrV d old b s)

/-- Core cycles that the engine is occupied (R250). -/
def occupancy (h : Shape) : Nat := max 1 ((h.lanes * h.w + 16383) / 16384)

/-- A vector instruction: it stalls until the engine is free, and then occupies it for `n` cycles (R250). -/
def onEngine (n : Nat) (body : State → Eff) (s : State) : Eff :=
  if s.cur.clk < s.core.vec.busy then .hold
  else match body s with
    | .done s1 => .done (s1.setVec { s1.core.vec with busy := s.cur.clk + n })
    | e => e

/-- A vector instruction over the captured shape. -/
def vectorOp (body : Shape → State → Eff) (s : State) : Eff := onEngine (occupancy (shapeOf s)) (body (shapeOf s)) s

/-- The check of reason 0x02 before an instruction's effect. -/
def permit (ok : Bool) (e : Eff) : Eff := if ok then e else misuse cVector 0x02

/-- Lane l is selected by mask image m (R249). -/
def selected (m l : Nat) : Bool := flag m l

/-- The image of a result (R249): selected lanes from `f`, the others and the tail from the old image of a named register, zero for a push. -/
def laneResult (d : VDst) (h : Shape) (m : Nat) (f : Nat → Nat) (s : State) : Nat :=
  let old := match d with
    | .push => 0
    | .v i => (s.core.vec.v[i]).val.toNat
  packLanes h.w (fun l => if selected m l then f l else laneOf old h.w l) h.lanes 0
    + old / 2 ^ (h.w * h.lanes) * 2 ^ (h.w * h.lanes)

/-- The flags of the selected lanes. -/
def laneFlags (h : Shape) (m : Nat) (f : Nat → FlagSet) : FlagSet :=
  ((List.range h.lanes).filter fun l => selected m l).foldl (fun g l => g ||| f l) 0

/-- A result whose lanes set no flag. -/
def putLanes (d : VDst) (h : Shape) (m : Nat) (f : Nat → Nat) (b : Nat) (s : State) : State :=
  wrV d (laneResult d h m f s) b s

/-- A result whose lanes are rounded. -/
def putRounded (d : VDst) (h : Shape) (m : Nat) (f : Nat → Rounded) (b : Nat) (s : State) : State :=
  landFlags (laneFlags h m fun l => (f l).flags) b (putLanes d h m (fun l => (f l).code) b s)

/-! ### Shape (R253) -/

/-- The check of reason 0x01. -/
def shapeWordOk (a : Word) : Bool :=
  decide (bitsOf a 28 36 = 0) && decide (bitsOf a 22 2 = 0) && decide (bitsOf a 12 4 = 0) && vtOk (bitsOf a 24 4)
    && decide ((bitsOf a 16 6 + 1) * (bitsOf a 0 12 + 1) ≤ 4096)

/-- The shape of a shape word. -/
def shapeOfWord (a : Word) : Shape :=
  { type := BitVec.ofNat 4 (bitsOf a 24 4), rowsM1 := BitVec.ofNat 6 (bitsOf a 16 6), colsM1 := BitVec.ofNat 12 (bitsOf a 0 12) }

/-- The meaning of VSHAPE (R253). -/
def execVshape (o : VShapeOps) (s : State) : Host.Outcome State Fault Refusal :=
  issue (.vshape o) (useVShapeOps o) (fun s =>
    let a := rdS s o.a
    if shapeWordOk a then .done (s.setVec { s.core.vec with shape := shapeOfWord a }) else misuse cVector 0x01) s

/-! ### Loads and stores (R254-R258) -/

/-- MODE of an access word. -/
def awMode (a : Word) : Nat := bitsOf a 48 4
/-- FMT. -/
def awFmt (a : Word) : Nat := bitsOf a 56 8
/-- SATM. -/
def awSatm (a : Word) : Nat := bitsOf a 52 2
/-- RSTR. -/
def awRstr (a : Word) : Nat := bitsOf a 24 24
/-- ADDR. -/
def awAddr (a : Word) : Nat := bitsOf a 0 22
/-- PROW. -/
def awProw (a : Word) : Nat := bitsOf a 24 6
/-- PCOL. -/
def awPcol (a : Word) : Nat := bitsOf a 32 7

/-- A plain format that CELL mode admits. -/
def cellFmt (f : Nat) : Bool := [0x20, 0x21, 0x22, 0x30, 0x31, 0x32, 0x40, 0x41].contains f
/-- A grouped format that PATCH and IMAGE modes permit. -/
def patchFmt (f : Nat) : Bool := [0x90, 0x91, 0xA0, 0xA1, 0xA2].contains f

/-- Bits of an element of a format byte. -/
def storeWidth (f : Nat) : Nat := match fmtOfF f with
  | some x => x.width
  | none => 8

/-- Cells of a patch of the kind of a format: 80 or 144 (R41, R42). -/
def imageCells (f : Nat) : Nat := if f < 0xA0 then 80 else 144

/-- Bytes of a row of the access, before its stride. -/
def awRow (a : Word) (h : Shape) : Nat :=
  if awMode a = 0 then h.cols * h.w / 8
  else if awMode a = 1 then 64 * ((h.cols * storeWidth (awFmt a) + 511) / 512)
  else 64 * imageCells (awFmt a)

/-- The number of rows of the access. -/
def awRows (a : Word) (h : Shape) : Nat := if awMode a ≤ 1 then h.rows else 1

/-- RS of Table 13-6. -/
def awStride (a : Word) (h : Shape) : Nat := if awMode a ≤ 1 then (if awRstr a = 0 then awRow a h else awRstr a) else 0

/-- The alignment of ADDR and RS. -/
def awAlign (a : Word) (h : Shape) : Nat := if awMode a = 0 then h.w / 8 else 64

/-- The check of reason 0x03. -/
def awOk (a : Word) (h : Shape) (store : Bool) : Bool :=
  decide (bitsOf a 54 2 = 0) && decide (bitsOf a 22 2 = 0) && decide (awSatm a ≠ 3) &&
  (match awMode a with
   | 0 => decide (awFmt a = 0)
   | 1 => cellFmt (awFmt a)
   | 2 => !store && patchFmt (awFmt a) && decide (bitsOf a 30 2 = 0) && decide (bitsOf a 39 9 = 0)
            && decide (awProw a + h.rows ≤ 64) && decide (awPcol a + h.cols ≤ 128)
   | 3 => patchFmt (awFmt a) && decide (awRstr a = 0)
   | _ => false)

/-- The first address in the supervisor region of a job-mode access of `rows` rows of `n` bytes, `rs` apart. -/
def rowsForbidden (s : State) (a rs n rows : Nat) : Option Nat :=
  if s.cur.priv then none
  else ((List.range rows).find? fun r => touchesSr s.core (a + r * rs) n).map fun r => max (a + r * rs) (srLow s.core)

/-- The checks of an access at issue, in order: reasons 0x03, 0x04 and 0x05, alignment, and the supervisor region (R252, R257). -/
def accessTrap (a : Word) (h : Shape) (store : Bool) (m : Fin 16) (s : State) : Option TrapRec :=
  if !awOk a h store then some (mkTrap cVector 0x03 0)
  else if spadSize < awAddr a + (awRows a h - 1) * awStride a h + awRow a h then some (mkTrap cVector 0x04 0)
  else if store && ((decide (awMode a = 1 ∨ awMode a = 3) && decide (m ≠ 0))
      || (decide (awMode a = 1) && decide (h.cols * storeWidth (awFmt a) % 512 ≠ 0))) then some (mkTrap cVector 0x05 0)
  else if awAddr a % awAlign a h ≠ 0 then some (mkTrap cAlignment 0 (awAddr a))
  else if awStride a h % awAlign a h ≠ 0 then some (mkTrap cAlignment 0 (awAddr a + awStride a h))
  else (rowsForbidden s (awAddr a) (awStride a h) (awRow a h) (awRows a h)).map fun x => mkTrap cPrivilege 0 x

/-- The trap of reading the cell at `a`: poison before a format that `ok` refuses (Table 2-6, R255). -/
def cellTrap (c : CoreState) (ok : Nat → Bool) (a : Nat) : Option TrapRec :=
  if spadIsBad c a then some (mkTrap cPoison 1 (a / 64 * 64))
  else if tagF (spadTag c a) = 0xFF then some (mkTrap cPoison 0 (a / 64 * 64))
  else if !ok (tagF (spadTag c a)) then some (mkTrap cFormat 0 (a / 64 * 64))
  else none

/-- The cell and element of lane l in CELL mode. -/
def cellPlace (a : Word) (h : Shape) (l : Nat) : Nat × Nat :=
  let wf := storeWidth (awFmt a)
  let e := 512 / wf
  (awAddr a + l / h.cols * awStride a h + 64 * (l % h.cols / e), l % h.cols % e)

/-- The data cell, element, scale cell and scale byte of lane l in PATCH mode (R41, R42). -/
def patchPlace (a : Word) (h : Shape) (l : Nat) : Nat × Nat × Nat × Nat :=
  let r := awProw a + l / h.cols
  let c := awPcol a + l % h.cols
  let b := awAddr a
  if awFmt a < 0xA0 then (b + 64 * r, c, b + 64 * (64 + r / 4), 16 * (r % 4) + c / 8)
  else (b + 64 * (2 * r + c / 64), c % 64, b + 64 * (128 + r / 4), 16 * (r % 4) + c / 8)

/-- The value of an element under a lane type: an integer type takes the code of an INT16 or INT32 element under the cell's zero and NaN
markers (R40). -/
def laneElement (t : Nat) (d : CellData) (i : Nat) (gs : Option Nat) (named : Fmt) : Num :=
  let f := tagF d.tag
  let d' : CellData :=
    if vtInt t && (decide (f = 0x32) || decide (f = 0x41)) && decide (tagS d.tag ≠ 0) && decide (tagS d.tag ≠ 0xFF)
    then { d with tag := BitVec.ofNat 16 (0x7F00 + f) } else d
  elementValue d' i gs named

/-- The first trap of the cells that the selected lanes read, in lane order. -/
def laneTrap (h : Shape) (m : Nat) (f : Nat → Option TrapRec) : Option TrapRec :=
  ((List.range h.lanes).filter fun l => selected m l).findSome? f

/-- The patch image at `a`: the cells and then their tags (R255). -/
def patchImage (c : CoreState) (a n : Nat) : Nat :=
  packLanes 512 (fun j => spadNum c (a + 64 * j) 64) n 0
    + 2 ^ (512 * n) * packLanes 16 (fun j => (spadTag c (a + 64 * j)).toNat) n 0

/-- The addresses that VLD reads, and how many bytes at each. -/
def loadPlaces (a : Word) (h : Shape) (m : Nat) : Nat × List Nat :=
  let lanes := (List.range h.lanes).filter fun l => selected m l
  match awMode a with
  | 0 => (h.w / 8, lanes.map fun l => awAddr a + l / h.cols * awStride a h + l % h.cols * (h.w / 8))
  | 1 => (64, lanes.map fun l => (cellPlace a h l).1)
  | 2 => (64, lanes.flatMap fun l => [(patchPlace a h l).1, (patchPlace a h l).2.2.1])
  | _ => (64, (List.range (imageCells (awFmt a))).map fun j => awAddr a + 64 * j)

/-- The effect of VLD after its checks at issue (R255): its loads are of class k0 (R115). -/
def loadLanes (d : VDst) (a : Word) (h : Shape) (m : Nat) (s : State) : State :=
  let c := s.viewed 0
  let s := sawEach 0 (loadPlaces a h m).1 (loadPlaces a h m).2 s
  let rm := s.cur.ncs.rm
  let wb := h.w / 8
  let fail (r : TrapRec) : State := failLoad d r 24 s
  let rawAt (l : Nat) : Nat := awAddr a + l / h.cols * awStride a h + l % h.cols * wb
  match awMode a with
  | 0 =>
    match laneTrap h m (fun l => cellTrap c (fun _ => true) (rawAt l)) with
    | some r => fail r
    | none => putLanes d h m (fun l => spadNum c (rawAt l) wb) 24 s
  | 1 =>
    let ok (f : Nat) : Bool := decide (f = 0) || (cellFmt f && decide (f / 16 = awFmt a / 16))
    match laneTrap h m (fun l => cellTrap c ok (cellPlace a h l).1) with
    | some r => fail r
    | none =>
      putRounded d h m (fun l =>
        let p := cellPlace a h l
        vtRound h.t rm (awSatm a) (laneElement h.t (spadCell c p.1) p.2 none ((fmtOfF (awFmt a)).getD .fp32))) 24 s
  | 2 =>
    let ok (f : Nat) : Bool := patchFmt f && decide (f / 16 = awFmt a / 16)
    match laneTrap h m (fun l =>
        let p := patchPlace a h l
        (cellTrap c ok p.1).or (cellTrap c (fun f => decide (f = 0x0F)) p.2.2.1)) with
    | some r => fail r
    | none =>
      putRounded d h m (fun l =>
        let p := patchPlace a h l
        vtRound h.t rm (awSatm a)
          (laneElement h.t (spadCell c p.1) p.2.1 (some (spadByte c (p.2.2.1 + p.2.2.2)).toNat) .fp32)) 24 s
  | _ =>
    match (List.range (imageCells (awFmt a))).find? fun j => spadIsBad c (awAddr a + 64 * j) with
    | some j => fail (mkTrap cPoison 1 (awAddr a + 64 * j))
    | none => wrV d (patchImage c (awAddr a) (imageCells (awFmt a))) 24 s

/-- Cycles of occupancy of VLD and VST. -/
def accessCycles (a : Word) (h : Shape) : Nat := if awMode a = 3 then 8 else occupancy h

/-- The meaning of VLD (R255). -/
def execVld (o : VWA) (s : State) : Host.Outcome State Fault Refusal :=
  issue (.vld o) (useVWA o) (fun s =>
    let a := rdS s o.a
    let h := shapeOf s
    onEngine (accessCycles a h) (fun s =>
      match accessTrap a h false o.m s with
      | some r => .trap r
      | none => .done (loadLanes o.v a h (rdM s o.m) s)) s) s

/-- Tag j of the image is one that the patch kind of FMT admits at that cell (reason 0x07). -/
def imageTagOk (f n j t : Nat) : Bool :=
  if n - 16 ≤ j then decide (t = 0x000F) else patchFmt (t % 256) && decide (t % 256 / 16 = f / 16)

/-- The effect of VST after its checks (R256): its stores are of class k0 (R115). -/
def storeLanes (x : Nat) (a : Word) (h : Shape) (m : Nat) (s : State) : State :=
  let n := imageCells (awFmt a)
  match awMode a with
  | 0 =>
    let wb := h.w / 8
    ((List.range h.lanes).filter fun l => selected m l).foldl (fun s l =>
      storeBytes 0 (awAddr a + l / h.cols * awStride a h + l % h.cols * wb) (bytesOfNum wb (laneOf x h.w l)) s) s
  | 1 =>
    let f := (fmtOfF (awFmt a)).getD .fp32
    let e := 512 / f.width
    let code (l : Nat) : Rounded := convert f s.cur.ncs.rm (saturates f (awSatm a)) (vtValue h.t (laneOf x h.w l))
    let per := h.cols / e
    let s1 := (List.range (h.rows * per)).foldl (fun s k =>
      storeCell 0 (awAddr a + k / per * awStride a h + 64 * (k % per))
        { bytes := BitVec.ofNat 512 (packLanes f.width (fun i => (code (k / per * h.cols + k % per * e + i)).code) e 0)
          tag := BitVec.ofNat 16 (0x7F00 + awFmt a) } s) s
    landFlags (laneFlags h (2 ^ h.lanes - 1) fun l => (code l).flags) 24 s1
  | _ =>
    (List.range n).foldl (fun s j =>
      storeCell 0 (awAddr a + 64 * j)
        { bytes := BitVec.ofNat 512 (laneOf x 512 j), tag := BitVec.ofNat 16 (fld x (512 * n + 16 * j) 16) } s) s

/-- The meaning of VST (R256). -/
def execVst (o : VSA) (s : State) : Host.Outcome State Fault Refusal :=
  issue (.vst o) (useVSA o) (fun s =>
    let a := rdS s o.a
    let h := shapeOf s
    onEngine (accessCycles a h) (fun s =>
      match accessTrap a h true o.m s with
      | some r => .trap r
      | none =>
        let x := rdV s o.x
        let n := imageCells (awFmt a)
        if awMode a = 3 ∧ !((List.range n).all fun j => imageTagOk (awFmt a) n j (fld x (512 * n + 16 * j) 16)) then misuse cVector 0x07
        else .done (storeLanes x a h (rdM s o.m) s)) s) s

/-- The checks of VLDM and VSTM at issue (R258). -/
def maskAccessTrap (a : Nat) (s : State) : Option TrapRec :=
  if a % 64 ≠ 0 then some (mkTrap cAlignment 0 a)
  else if spadSize < a + 512 then some (mkTrap cVector 0x04 0)
  else (rowsForbidden s a 0 512 1).map fun x => mkTrap cPrivilege 0 x

/-- The meaning of VLDM (R258). -/
def execVldm (o : VMA) (s : State) : Host.Outcome State Fault Refusal :=
  issue (.vldm o) (useVMA o) (vectorOp fun _ s =>
    let a := (rdS s o.a).toNat
    match maskAccessTrap a s with
    | some r => .trap r
    | none =>
      match (List.range 8).findSome? fun j => cellTrap s.core (fun _ => true) (a + 64 * j) with
      | some r => .done (landTrap r 24 (wrM o.v (s.core.vec.m[o.v]).val.toNat 24 s))
      | none => .done (wrM o.v (spadNum (s.viewed 0) a 512) 24 (sawScratch 0 a 512 s))) s

/-- The meaning of VSTM (R258): tags are kept in every case (R34). -/
def execVstm (o : VAM) (s : State) : Host.Outcome State Fault Refusal :=
  issue (.vstm o) (useVAM o) (vectorOp fun _ s =>
    let a := (rdS s o.a).toNat
    match maskAccessTrap a s with
    | some r => .trap r
    | none => .done (storeKeep 0 a (bytesOfNum 512 (rdM s o.b)) s)) s

/-! ### Splats and element moves (R259) -/

/-- The meaning of VSPLAT. -/
def execVsplat (o : VWA) (s : State) : Host.Outcome State Fault Refusal :=
  issue (.vsplat o) (useVWA o) (vectorOp fun h s =>
    let a := (rdS s o.a).toNat % 2 ^ h.w
    .done (putLanes o.v h (rdM s o.m) (fun _ => a) 24 s)) s

/-- The meaning of VMOVS. -/
def execVmovs (o : VMovsOps) (s : State) : Host.Outcome State Fault Refusal :=
  issue (.vmovs o) (useVMovsOps o) (vectorOp fun h s =>
    let l := (rdS s o.b).toNat
    .done (wrD o.d (if l < h.lanes then BitVec.ofNat 64 (laneOf (rdV s o.x) h.w l) else 0) 24 s)) s

/-- The meaning of VIOTA. -/
def execViota (o : VIotaOps) (s : State) : Host.Outcome State Fault Refusal :=
  issue (.viota o) (useVIotaOps o) (vectorOp fun h s =>
    let x (l : Nat) : Int := (rdS s o.a).toInt + (l : Int) * (rdS s o.b).toInt
    permit (!vtByte h.t)
      (if vtFloat h.t then .done (putRounded o.v h (rdM s o.m) (fun l => vtRound h.t 0 0 (Num.ofInt (x l))) 24 s)
       else .done (putLanes o.v h (rdM s o.m) (fun l => codeOfInt h.w (x l)) 24 s))) s

/-! ### Float arithmetic (R260, R261) -/

/-- An elementwise float instruction of two operands. -/
def floatOp2 (o : VWXY) (b : Nat) (f : Fmt → BitVec 2 → Nat → Nat → Rounded) : State → Eff :=
  vectorOp fun h s =>
    let x := rdV s o.x
    let y := rdV s o.y
    permit (vtFloat h.t) (.done (putRounded o.v h (rdM s o.m) (fun l => f (vtFmt h.t) s.cur.ncs.rm (laneOf x h.w l) (laneOf y h.w l)) b s))

/-- An elementwise float instruction of one operand. -/
def floatOp1 (o : VWX) (b : Nat) (f : Fmt → BitVec 2 → Nat → Rounded) : State → Eff :=
  vectorOp fun h s =>
    let x := rdV s o.x
    permit (vtFloat h.t) (.done (putRounded o.v h (rdM s o.m) (fun l => f (vtFmt h.t) s.cur.ncs.rm (laneOf x h.w l)) b s))

/-- The meaning of VADD. -/
def execVadd (o : VWXY) (s : State) : Host.Outcome State Fault Refusal := issue (.vadd o) (useVWXY o) (floatOp2 o 16 fAdd) s

/-- The meaning of VSUB. -/
def execVsub (o : VWXY) (s : State) : Host.Outcome State Fault Refusal := issue (.vsub o) (useVWXY o) (floatOp2 o 16 fSub) s

/-- The meaning of VMUL. -/
def execVmul (o : VWXY) (s : State) : Host.Outcome State Fault Refusal := issue (.vmul o) (useVWXY o) (floatOp2 o 16 fMul) s

/-- The meaning of VMAX. -/
def execVmax (o : VWXY) (s : State) : Host.Outcome State Fault Refusal :=
  issue (.vmax o) (useVWXY o) (floatOp2 o 16 fun f _ a b => exact (fMax f a b)) s

/-- The meaning of VMIN. -/
def execVmin (o : VWXY) (s : State) : Host.Outcome State Fault Refusal :=
  issue (.vmin o) (useVWXY o) (floatOp2 o 16 fun f _ a b => exact (fMin f a b)) s

/-- The meaning of VCLAMP. -/
def execVclamp (o : VWXY) (s : State) : Host.Outcome State Fault Refusal :=
  issue (.vclamp o) (useVWXY o) (floatOp2 o 16 fun f _ a b => exact (fClamp f a b)) s

/-- The meaning of VABS. -/
def execVabs (o : VWX) (s : State) : Host.Outcome State Fault Refusal :=
  issue (.vabs o) (useVWX o) (floatOp1 o 16 fun f _ a => exact (fAbs f a)) s

/-- The meaning of VNEG. -/
def execVneg (o : VWX) (s : State) : Host.Outcome State Fault Refusal :=
  issue (.vneg o) (useVWX o) (floatOp1 o 16 fun f _ a => exact (fNeg f a)) s

/-- The meaning of VSCALE. -/
def execVscale (o : VWXY) (s : State) : Host.Outcome State Fault Refusal := issue (.vscale o) (useVWXY o) (floatOp2 o 24 fScale) s

/-- The meaning of VRCP. -/
def execVrcp (o : VWX) (s : State) : Host.Outcome State Fault Refusal := issue (.vrcp o) (useVWX o) (floatOp1 o 24 fRcp) s

/-- The meaning of VRSQ. -/
def execVrsq (o : VWX) (s : State) : Host.Outcome State Fault Refusal := issue (.vrsq o) (useVWX o) (floatOp1 o 24 fRsq) s

/-- The meaning of VEXP. -/
def execVexp (o : VWX) (s : State) : Host.Outcome State Fault Refusal := issue (.vexp o) (useVWX o) (floatOp1 o 24 fExp) s

/-- The meaning of VLOG. -/
def execVlog (o : VWX) (s : State) : Host.Outcome State Fault Refusal := issue (.vlog o) (useVWX o) (floatOp1 o 24 fLog) s

/-- The meaning of VFMA: for a push, d is vq0 as at issue. -/
def execVfma (o : VFmaOps) (s : State) : Host.Outcome State Fault Refusal :=
  issue (.vfma o) (useVFmaOps o) (vectorOp fun h s =>
    let x := rdV s o.x
    let y := rdV s o.y
    let d := rdOld s o.v
    permit (vtFloat h.t) (.done (putRounded o.v h (rdM s o.m)
      (fun l => fFma o.f (vtFmt h.t) s.cur.ncs.rm (laneOf x h.w l) (laneOf y h.w l) (laneOf d h.w l)) 16 s))) s

/-! ### Integer and bitwise arithmetic (R262) -/

/-- An elementwise integer or bitwise instruction; `f` takes the type, the width and the lane patterns. -/
def intOp2 (o : VWXY) (all : Bool) (f : Nat → Nat → Nat → Nat) : State → Eff :=
  vectorOp fun h s =>
    let x := rdV s o.x
    let y := rdV s o.y
    permit (all || vtInt h.t) (.done (putLanes o.v h (rdM s o.m) (fun l => f h.w (laneOf x h.w l) (laneOf y h.w l)) 16 s))

/-- The meaning of VIADD. -/
def execViadd (o : VWXY) (s : State) : Host.Outcome State Fault Refusal :=
  issue (.viadd o) (useVWXY o) (intOp2 o false fun _ a b => a + b) s

/-- The meaning of VISUB. -/
def execVisub (o : VWXY) (s : State) : Host.Outcome State Fault Refusal :=
  issue (.visub o) (useVWXY o) (intOp2 o false fun w a b => a + (2 ^ w - b)) s

/-- The meaning of VIMUL. -/
def execVimul (o : VWXY) (s : State) : Host.Outcome State Fault Refusal :=
  issue (.vimul o) (useVWXY o) (intOp2 o false fun _ a b => a * b) s

/-- The meaning of VAND. -/
def execVand (o : VWXY) (s : State) : Host.Outcome State Fault Refusal :=
  issue (.vand o) (useVWXY o) (intOp2 o true fun _ a b => a &&& b) s

/-- The meaning of VOR. -/
def execVor (o : VWXY) (s : State) : Host.Outcome State Fault Refusal :=
  issue (.vor o) (useVWXY o) (intOp2 o true fun _ a b => a ||| b) s

/-- The meaning of VXOR. -/
def execVxor (o : VWXY) (s : State) : Host.Outcome State Fault Refusal :=
  issue (.vxor o) (useVWXY o) (intOp2 o true fun _ a b => a ^^^ b) s

/-- The meaning of VSHL. -/
def execVshl (o : VWXY) (s : State) : Host.Outcome State Fault Refusal :=
  issue (.vshl o) (useVWXY o) (intOp2 o false fun w a n => if w ≤ n then 0 else a * 2 ^ n) s

/-- The meaning of VSHR. -/
def execVshr (o : VWXY) (s : State) : Host.Outcome State Fault Refusal :=
  issue (.vshr o) (useVWXY o) (intOp2 o false fun w a n => if w ≤ n then 0 else a / 2 ^ n) s

/-- The meaning of VSHA. -/
def execVsha (o : VWXY) (s : State) : Host.Outcome State Fault Refusal :=
  issue (.vsha o) (useVWXY o) (intOp2 o false shiftArith) s

/-! ### Compare and mask (R263, R264) -/

/-- The bits of a mask result: selected lanes from `f`, the others and the tail kept. -/
def maskResult (old E m : Nat) (f : Nat → Bool) : Nat :=
  packLanes 1 (fun l => if selected m l then bit (f l) else bit (flag old l)) E 0 + old / 2 ^ E * 2 ^ E

/-- A pair of masks written with less-than and equal. -/
def putCompare (o : VCmpOps) (h : Shape) (lt eq : Nat → Nat → Bool) (s : State) : State :=
  let x := rdV s o.x
  let y := rdV s o.y
  let m := rdM s o.m
  let res (j : Fin 16) (f : Nat → Nat → Bool) : Nat :=
    maskResult (s.core.vec.m[j]).val.toNat h.lanes m fun l => f (laneOf x h.w l) (laneOf y h.w l)
  wrM (oddMask o.j) (res (oddMask o.j) eq) 16 (wrM (evenMask o.j) (res (evenMask o.j) lt) 16 s)

/-- The meaning of VCMP: a NaN operand makes both bits 0. -/
def execVcmp (o : VCmpOps) (s : State) : Host.Outcome State Fault Refusal :=
  issue (.vcmp o) (useVCmpOps o) (vectorOp fun h s =>
    let num (f : Num → Num → Bool) (a b : Nat) : Bool :=
      let x := decodeFmt (vtFmt h.t) a
      let y := decodeFmt (vtFmt h.t) b
      !x.isNan && !y.isNan && f x y
    permit (vtFloat h.t) (.done (putCompare o h (num Num.lt) (num Num.same) s))) s

/-- The meaning of VICMP. -/
def execVicmp (o : VCmpOps) (s : State) : Host.Outcome State Fault Refusal :=
  issue (.vicmp o) (useVCmpOps o) (vectorOp fun h s =>
    permit (vtInt h.t) (.done (putCompare o h (fun a b => decide (vtIntOf h.t a < vtIntOf h.t b)) (fun a b => a == b) s))) s

/-- The meaning of VSEL: the mask field selects and every lane is written. -/
def execVsel (o : VWXY) (s : State) : Host.Outcome State Fault Refusal :=
  issue (.vsel o) (useVWXY o) (vectorOp fun h s =>
    let x := rdV s o.x
    let y := rdV s o.y
    let m := rdM s o.m
    .done (putLanes o.v h (2 ^ h.lanes - 1) (fun l => if selected m l then laneOf x h.w l else laneOf y h.w l) 16 s)) s

/-- The meaning of VMLOG. -/
def execVmlog (o : VMlogOps) (s : State) : Host.Outcome State Fault Refusal :=
  issue (.vmlog o) (useVMlogOps o) (vectorOp fun h s =>
    let a := rdM s o.x
    let old := rdM s o.v
    let t := (rdS s o.b).toNat % 16
    .done (wrM o.v (maskResult old h.lanes (rdM s o.m) fun l => flag t (2 * bit (flag a l) + bit (flag old l))) 16 s)) s

/-- The selected lanes whose bit of a mask is 1, lowest first. -/
def maskLanes (E m a : Nat) : List Nat := (List.range E).filter fun l => selected m l && flag a l

/-- The meaning of VMPOP. -/
def execVmpop (o : VMdOps) (s : State) : Host.Outcome State Fault Refusal :=
  issue (.vmpop o) (useVMdOps o) (vectorOp fun h s =>
    .done (wrD o.d (BitVec.ofNat 64 (maskLanes h.lanes (rdM s o.m) (rdM s o.x)).length) 16 s)) s

/-- The meaning of VMFIRST. -/
def execVmfirst (o : VMdOps) (s : State) : Host.Outcome State Fault Refusal :=
  issue (.vmfirst o) (useVMdOps o) (vectorOp fun h s =>
    .done (wrD o.d (match (maskLanes h.lanes (rdM s o.m) (rdM s o.x)).head? with
      | some l => BitVec.ofNat 64 l
      | none => allOnes) 16 s)) s

/-! ### Conversion (R265) -/

/-- The check of reason 0x06. -/
def vcvtOk (b : Word) : Bool :=
  decide (bitsOf b 11 53 = 0) && decide (bitsOf b 6 2 = 0) && vtOk (bitsOf b 0 4) && decide (bitsOf b 4 2 ≠ 3)

/-- The meaning of VCVT. -/
def execVcvt (o : VWXB) (s : State) : Host.Outcome State Fault Refusal :=
  issue (.vcvt o) (useVWXB o) (vectorOp fun h s =>
    let b := rdS s o.b
    let x := rdV s o.x
    let src := bitsOf b 0 4
    let rm := if bitOf b 10 then BitVec.ofNat 2 (bitsOf b 8 2) else s.cur.ncs.rm
    if vcvtOk b then
      .done (putRounded o.v h (rdM s o.m) (fun l => vtRound h.t rm (bitsOf b 4 2) (vtValue src (laneOf x (vtWidth src) l))) 16 s)
    else misuse cVector 0x06) s

/-! ### The quantiser (R266) -/

/-- A group under one variant: its scale byte, its codes and its error. -/
structure QuantGroup where
  gs : Nat
  codes : List Nat
  err : Num
  nan : Bool

/-- The quotient of two values, the second positive, rounded to E2M1 or INT4 under RNE, saturating. -/
def quantCode (v : Fmt) (x d : Num) : Nat :=
  match x, d with
  | .fin n m e, .fin _ m' e' =>
    if v = .int4 then
      let r := (roundUnits 0 n m m' (e - e') 0).1
      codeOfInt 4 (if n then -((min r 8 : Nat) : Int) else (min r 7 : Nat))
    else if m = 0 then signBit .e2m1 n
    else (roundFloat .e2m1 0 true n m m' (e - e')).code
  | _, _ => 0

/-- One group of eight values under variant v with the row's scale 2^k. -/
def quantGroup (v : Fmt) (k : Int) (xs : List Num) : QuantGroup :=
  if xs.any fun x => x.isNan || x.isInf then { gs := 0xFF, codes := xs.map fun _ => 0, err := .zero, nan := true }
  else if xs.all (·.isZero) then { gs := 0, codes := xs.map fun _ => 0, err := .zero, nan := false }
  else
    let mg := xs.foldl (fun m x => if m.lt x.abs then x.abs else m) .zero
    let gs := match mg with
      | .fin _ m e => (roundE3M5 3 m (if v = .e2m1 then 6 else 7) (e - k)).code
      | _ => 0
    let d := (decodeE3M5 gs).scale k
    let codes := xs.map fun x => quantCode v x d
    let err := (xs.zip codes).foldl (fun s p =>
      let q := ((decodeFmt v p.2).mul d).1
      let t := Num.addFin false p.1 q.negate
      Num.addFin false s (t.mul t).1) .zero
    { gs := gs, codes := codes, err := err, nan := false }

/-- The groups of a list of values. -/
def groupsOf8 : Nat → List Num → List (List Num)
  | 0, _ => []
  | n + 1, xs => xs.take 8 :: groupsOf8 n (xs.drop 8)

/-- A quantised row: its tag, its 128 codes, its 16 scales, and its flags. -/
structure QuantRow where
  tag : Nat
  codes : List Nat
  scales : List Nat
  flags : FlagSet

/-- One row of 128 values (R266). -/
def quantRow (xs : List Num) : QuantRow :=
  let fins := xs.filter fun x => !x.isNan && !x.isInf
  let mx := fins.foldl (fun m x => if m.lt x.abs then x.abs else m) .zero
  if fins.length == xs.length && mx.isZero then { tag := 0x0090, codes := xs.map fun _ => 0, scales := List.replicate 16 0, flags := 0 }
  else
    let sx : Int := match mx with
      | .fin _ m e => if m = 0 then 0x7F else max 1 (min 254 (floorLog m 1 e - 4 + 127))
      | _ => 0x7F
    let gs (v : Fmt) : List QuantGroup := (groupsOf8 16 xs).map (quantGroup v (sx - 127))
    let total (l : List QuantGroup) : Num := l.foldl (fun s g => Num.addFin false s g.err) .zero
    let a := gs .e2m1
    let b := gs .int4
    let useB := (total b).lt (total a)
    let c := if useB then b else a
    { tag := sx.toNat * 256 + (if useB then 0x91 else 0x90), codes := (c.map (·.codes)).flatten, scales := c.map (·.gs)
      flags := (if c.any (·.nan) then fNV else 0) ||| (if (total c).isZero then 0 else fNX) }

/-- A list as a function. -/
def at0 (l : List Nat) (i : Nat) : Nat := (l[i]?).getD 0

/-- The image of 64 quantised rows (R41, R255). -/
def quantImage (rows : List QuantRow) : Nat :=
  let row (r : Nat) : QuantRow := (rows[r]?).getD { tag := 0, codes := [], scales := [], flags := 0 }
  let cell (j : Nat) : Nat :=
    if j < 64 then packLanes 4 (at0 (row j).codes) 128 0
    else packLanes 8 (fun i => at0 (row (4 * (j - 64) + i / 16)).scales (i % 16)) 64 0
  packLanes 512 cell 80 0 + 2 ^ 40960 * packLanes 16 (fun j => if j < 64 then (row j).tag else 0x000F) 80 0

/-- The meaning of VQUANT: the engine is occupied for 8 cycles (R250). -/
def execVquant (o : VQuantOps) (s : State) : Host.Outcome State Fault Refusal :=
  issue (.vquant o) (useVQuantOps o) (onEngine 8 fun s =>
    let h := shapeOf s
    let x := rdV s o.x
    let y := rdV s o.y
    if h.rows = 64 ∧ h.cols = 64 ∧ h.t ≤ 1 then
      let rows := (List.range 64).map fun r => quantRow ((List.range 128).map fun c =>
        vtValue h.t (if c < 64 then laneOf x h.w (64 * r + c) else laneOf y h.w (64 * r + (c - 64))))
      .done (landFlags (rows.foldl (fun f r => f ||| r.flags) 0) 48 (wrV o.v (quantImage rows) 48 s))
    else misuse cVector 0x08) s

end Sys2Proof.Machine
end

