-- ==== Sys2Proof/Machine/TokenTree.lean ====
section
/-! DEFINITION. The token-tree class (R282-R295). -/

namespace Sys2Proof.Machine

/-! ### Trees (R282, R283) -/

/-- The most nodes of the file. -/
def treeRoom : Nat := 1024

/-- The greatest BASE. -/
def maxBase : Nat := 0xFFFFFEFF

/-- COUNT. -/
def Tree.count (t : Tree) : Nat := t.nodes.length

/-- SCNT: the settled nodes. -/
def Tree.settled (t : Tree) : Nat := (t.nodes.filter (·.set)).length

/-- The parent chain of node i from i up, in at most `n` nodes. -/
def treeChain (nodes : List TreeNode) : Nat → Nat → List Nat
  | 0, _ => []
  | n + 1, i =>
    match nodes[i]? with
    | none => []
    | some x => i :: (if x.parent = 0xFF then [] else treeChain nodes n x.parent.toNat)

/-- The parent chain of node i. -/
def Tree.chain (t : Tree) (i : Nat) : List Nat := treeChain t.nodes 256 i

/-- Depth(i). -/
def Tree.depth (t : Tree) (i : Nat) : Nat := (t.chain i).length - 1

/-- SET(i). -/
def Tree.isSet (t : Tree) (i : Nat) : Bool := match t.nodes[i]? with
  | some x => x.set
  | none => false

/-- Pos(i). -/
def Tree.pos (t : Tree) (i : Nat) : Nat :=
  if t.isSet i then t.base.toNat - t.settled + t.depth i else t.base.toNat + t.depth i

/-- Anc(q, k). -/
def Tree.anc (t : Tree) (q k : Nat) : Bool :=
  decide (q < t.count) && decide (k < t.count) && ((t.chain q).contains k || (t.isSet k && !t.isSet q))

/-- The form that every instruction keeps (R283), of node i. -/
def treeNodeOk (nodes : List TreeNode) (scnt i : Nat) (x : TreeNode) : Bool :=
  (x.parent == 0xFF || decide (x.parent.toNat < i))
    && (x.set == decide (i < scnt))
    && (!x.set || (x.acc && x.parent == (if i = 0 then 0xFF else BitVec.ofNat 8 (i - 1))))
    && (x.set || x.parent == 0xFF || !(match nodes[x.parent.toNat]? with
          | some y => y.set
          | none => false))

/-- The trees of the core. -/
def treesOf (s : State) : Vector (Option Tree) 64 := s.core.trees

/-- FREE. -/
def treeFree (s : State) : Nat := treeRoom - (s.core.trees.toList.map fun t => match t with
  | some t => t.count
  | none => 0).sum

/-- A tree replaced. -/
def setTree (i : Fin 64) (t : Option Tree) (s : State) : State := s.setCore { s.core with trees := s.core.trees.set i t }

/-! ### Operands (R286-R288) -/

/-- TREE of a tree word. -/
def twTree (a : Word) : Fin 64 := Fin.ofNat 64 (bitsOf a 0 6)
/-- NODE. -/
def twNode (a : Word) : Nat := bitsOf a 8 8
/-- KEY. -/
def twKey (a : Word) : Nat := bitsOf a 16 8
/-- MARK. -/
def twMark (a : Word) : Bool := bitOf a 7
/-- ALL. -/
def twAll (a : Word) : Bool := bitOf a 63

/-- The fields that an instruction does not use are zero (reason 0x01). -/
def twOk (a : Word) (node key mark all : Bool) : Bool :=
  decide (bitsOf a 24 39 = 0) && !bitOf a 6 && (node || decide (twNode a = 0)) && (key || decide (twKey a = 0))
    && (mark || !twMark a) && (all || !twAll a) && (!twAll a || decide (bitsOf a 0 6 = 0))

/-- A token-tree instruction: it stalls until the unit has performed the earlier ones, and takes the unit for its bound `b` (R288). -/
def treeOp (b : Nat) (body : State → Eff) (s : State) : Eff :=
  if s.cur.clk < s.core.vec.treeBusy then .hold
  else match body s with
    | .done s1 => .done (s1.setVec { s1.core.vec with treeBusy := s.cur.clk + b })
    | e => e

/-- The stream holds for `n` cycles from its issue (R288). -/
def holdFor (n : Nat) (s : State) : State := s.setCur { s.cur with clk := s.cur.clk + (n - 1) }

/-- An instruction on a valid tree: the check of its tree word, then reason 0x02. -/
def onTree (s : State) (a : Word) (ok : Bool) (f : Tree → Eff) : Eff :=
  if !ok then misuse cTree 0x01
  else match s.core.trees[twTree a] with
    | none => misuse cTree 0x02
    | some t => f t

/-! ### Building trees (R289, R290) -/

/-- The meaning of TTCLR. -/
def execTtclr (o : TA) (s : State) : Host.Outcome State Fault Refusal :=
  issue (.ttclr o) (useTA o) (treeOp 8 fun s =>
    let a := rdS s o.a
    if !twOk a false false false true then misuse cTree 0x01
    else .done (if twAll a then s.setCore { s.core with trees := Vector.replicate 64 none } else setTree (twTree a) none s)) s

/-- The meaning of TTNEW. -/
def execTtnew (o : TDAB) (s : State) : Host.Outcome State Fault Refusal :=
  issue (.ttnew o) (useTDAB o) (treeOp 8 fun s =>
    let a := rdS s o.a
    let b := (rdS s o.b).toNat
    if !twOk a false false false false || decide (b / 2 ^ 32 ≠ 0) then misuse cTree 0x01
    else if maxBase < b then misuse cTree 0x06
    else
      let s1 := setTree (twTree a) (some { base := BitVec.ofNat 32 b, nodes := [] }) s
      .done (wrD o.d (BitVec.ofNat 64 (treeFree s1)) 8 s1)) s

/-- The meaning of TTADD. -/
def execTtadd (o : TDAB) (s : State) : Host.Outcome State Fault Refusal :=
  issue (.ttadd o) (useTDAB o) (treeOp 8 fun s =>
    let a := rdS s o.a
    onTree s a (twOk a true false false false) fun t =>
      let p := twNode a
      if p ≠ 0xFF ∧ (t.count ≤ p ∨ t.isSet p) then misuse cTree 0x04
      else if t.count = 256 ∨ treeFree s = 0 then .done (wrD o.d allOnes 8 s)
      else
        let n : TreeNode := { token := BitVec.ofNat 32 (rdS s o.b).toNat, parent := BitVec.ofNat 8 p, acc := false, set := false }
        .done (wrD o.d (BitVec.ofNat 64 t.count) 8 (setTree (twTree a) (some { t with nodes := t.nodes ++ [n] }) s))) s

/-- FLAGS of a node (Table 15-4). -/
def nodeFlags (x : TreeNode) : Nat := bit x.acc + 2 * bit x.set

/-- The image of a tree (Table 15-4). -/
def treeImage (t : Tree) : List Byte :=
  bytesOfNum 4 t.base.toNat ++ bytesOfNum 2 t.count ++ List.replicate 10 0 ++
  (t.nodes.zipIdx.map fun p =>
    bytesOfNum 4 p.1.token.toNat ++ [p.1.parent, BitVec.ofNat 8 (t.depth p.2), BitVec.ofNat 8 (nodeFlags p.1), 0]
      ++ bytesOfNum 4 (t.pos p.2) ++ List.replicate 4 0).flatten

/-- Record i of an image at `a`. -/
def nodeAt (c : CoreState) (a i : Nat) : TreeNode :=
  let r := a + 16 + 16 * i
  { token := BitVec.ofNat 32 (spadNum c r 4), parent := spadByte c (r + 4), acc := bitOf (spadByte c (r + 6)) 0, set := bitOf (spadByte c (r + 6)) 1 }

/-- The zero bytes of record i are zero. -/
def nodeZero (c : CoreState) (a i : Nat) : Bool :=
  let r := a + 16 + 16 * i
  decide ((spadByte c (r + 6)).toNat < 4) && decide (spadByte c (r + 7) = 0) && decide (spadNum c (r + 12) 4 = 0)

/-- The trap of reason 0x07 (Table 19-2): the record at fault, or `none` for the whole image. -/
def imageFault (i : Option Nat) : TrapRec := mkTrap cTree (match i with
  | some k => 0x07 + k * 2 ^ 16
  | none => 0x07 + 2 ^ 25) 0

/-- The trap of the checks on an extent of n bytes (R290). -/
def treeExtent (s : State) (a n : Nat) : Option TrapRec :=
  if spadSize < a + n then some (mkTrap cTree 0x09 0)
  else (rowsForbidden s a 0 n 1).map fun x => mkTrap cPrivilege 0 x

/-- The poison-consumed trap of the lines of n bytes from `a`. -/
def linesTrap (c : CoreState) (a n : Nat) : Option TrapRec :=
  (List.range (n / 16)).findSome? fun i => cellTrap c (fun _ => true) (a + 16 * i)

/-- What TTLOAD finds in an image at `a`, in the order of R290: a trap, or the tree. Its reads are of class k0. -/
def readTree (s : State) (a : Nat) : Except TrapRec Tree :=
  let c := s.viewed 0
  match linesTrap c a 16 with
  | some r => .error r
  | none =>
    let base := spadNum c a 4
    let n := spadNum c (a + 4) 2
    if 256 < n ∨ maxBase < base ∨ spadNum c (a + 6) 10 ≠ 0 then .error (imageFault none)
    else match (treeExtent s a (16 + 16 * n)).or (linesTrap c a (16 + 16 * n)) with
      | some r => .error r
      | none =>
        let nodes := (List.range n).map (nodeAt c a)
        let scnt := (nodes.filter (·.set)).length
        match nodes.zipIdx.find? fun p => !(nodeZero c a p.2 && treeNodeOk nodes scnt p.2 p.1) with
        | some p => .error (imageFault (some p.2))
        | none => if base < scnt then .error (imageFault none) else .ok { base := BitVec.ofNat 32 base, nodes := nodes }

/-- The nodes of a tree of the file, none when it is not valid. -/
def treeCount (s : State) (i : Fin 64) : Nat := match s.core.trees[i] with
  | some t => t.count
  | none => 0

/-- The meaning of TTLOAD. -/
def execTtload (o : TDAB) (s : State) : Host.Outcome State Fault Refusal :=
  issue (.ttload o) (useTDAB o) (treeOp 320 fun s =>
    let a := (rdS s o.a).toNat
    let b := rdS s o.b
    if !twOk b false false false false || decide (spadSize ≤ a) then misuse cTree 0x01
    else if a % 16 ≠ 0 then misaligned a
    else match readTree s a with
      | .error r => loadFails r.addr.toNat r s
      | .ok t =>
        let s := sawScratch 0 a (16 + 16 * t.count) s
        if treeFree s + treeCount s (twTree b) < t.count then .done (holdFor 320 (wrD o.d allOnes 320 s))
        else .done (holdFor 320 (wrD o.d (BitVec.ofNat 64 t.count) 320 (setTree (twTree b) (some t) s)))) s

/-- The meaning of TTSTORE. -/
def execTtstore (o : TAB) (s : State) : Host.Outcome State Fault Refusal :=
  issue (.ttstore o) (useTAB o) (treeOp 320 fun s =>
    let a := (rdS s o.a).toNat
    let b := rdS s o.b
    if !twOk b false false false false || decide (spadSize ≤ a) then misuse cTree 0x01
    else if a % 16 ≠ 0 then misaligned a
    else onTree s b true fun t =>
      match treeExtent s a (16 + 16 * t.count) with
        | some r => .trap r
        | none => .done (holdFor 320 (storeBytes 0 a (treeImage t) s))) s

/-! ### Masks, positions and fields (R291-R293) -/

/-- The meaning of TTMASK. -/
def execTtmask (o : TMA) (s : State) : Host.Outcome State Fault Refusal :=
  issue (.ttmask o) (useTMA o) (treeOp 24 fun s =>
    let a := rdS s o.a
    onTree s a (twOk a true true false false) fun t =>
      .done (wrM o.v (packLanes 1 (fun l => bit (t.anc (twNode a + l / 64) (twKey a + l % 64))) 4096 0) 24 s)) s

/-- A lane beyond COUNT is all ones; another takes `f` of its node. -/
def treeLane (t : Tree) (i : Nat) (f : TreeNode → Nat) : Nat := match t.nodes[i]? with
  | some x => f x
  | none => 2 ^ 32 - 1

/-- The meaning of TTPOS. -/
def execTtpos (o : TWA) (s : State) : Host.Outcome State Fault Refusal :=
  issue (.ttpos o) (useTWA o) (treeOp 24 fun s =>
    let a := rdS s o.a
    let h := shapeOf s
    onTree s a (twOk a true false false false) fun t =>
      let all := 2 ^ h.lanes - 1
      if h.t = 0 then
        .done (putRounded o.v h all (fun l => if twNode a + l < t.count then roundTo .fp32 0 (Num.ofInt (t.pos (twNode a + l))) else exact 0x7FC00000) 24 s)
      else if h.t = 4 ∨ h.t = 8 then .done (putLanes o.v h all (fun l => treeLane t (twNode a + l) fun _ => t.pos (twNode a + l)) 24 s)
      else misuse cTree 0x08) s

/-- The meaning of TTDEPTH. -/
def execTtdepth (o : TWAB) (s : State) : Host.Outcome State Fault Refusal :=
  issue (.ttdepth o) (useTWAB o) (treeOp 24 fun s =>
    let a := rdS s o.a
    let b := (rdS s o.b).toNat
    let h := shapeOf s
    onTree s a (twOk a true false false false && decide (b < 4)) fun t =>
      if !vtInt h.t then misuse cTree 0x08
      else .done (putLanes o.v h (2 ^ h.lanes - 1) (fun l => treeLane t (twNode a + l) fun x =>
        match b with
        | 0 => t.depth (twNode a + l)
        | 1 => x.parent.toNat
        | 2 => x.token.toNat
        | _ => nodeFlags x) 24 s)) s

/-- The status word of Table 15-5. -/
def treeStatus (free : Nat) : Option Tree → Word
  | none => BitVec.ofNat 64 (free * 2 ^ 50)
  | some t => BitVec.ofNat 64 (2 ^ 63 + free * 2 ^ 50 + t.settled * 2 ^ 41 + t.count * 2 ^ 32 + t.base.toNat)

/-- The meaning of TTSTAT. -/
def execTtstat (o : TDA) (s : State) : Host.Outcome State Fault Refusal :=
  issue (.ttstat o) (useTDA o) (treeOp 24 fun s =>
    let a := rdS s o.a
    if !twOk a false false false false then misuse cTree 0x01
    else .done (wrD o.d (treeStatus (treeFree s) s.core.trees[twTree a]) 24 s)) s

/-! ### Paths and pruning (R294, R295) -/

/-- The path of node i, from its root. -/
def Tree.path (t : Tree) (i : Nat) : List Nat := (t.chain i).reverse

/-- The image of R294. -/
def pathImage (t : Tree) (i : Nat) : Nat :=
  let p := t.path i
  packLanes 16 (fun j => (p[j]?).getD 0xFFFF) 4096 0 + 2 ^ 65536 * p.length + 2 ^ 65568 * t.pos ((p.head?).getD 0)

/-- The meaning of TTPATH. -/
def execTtpath (o : TWA) (s : State) : Host.Outcome State Fault Refusal :=
  issue (.ttpath o) (useTWA o) (treeOp 24 fun s =>
    let a := rdS s o.a
    onTree s a (twOk a true false true false) fun t =>
      if t.count ≤ twNode a then misuse cTree 0x03
      else
        let p := t.path (twNode a)
        let t1 := if twMark a then { t with nodes := t.nodes.zipIdx.map fun x => if p.contains x.2 then { x.1 with acc := true } else x.1 } else t
        .done (wrV o.v (pathImage t (twNode a)) 24 (setTree (twTree a) (some t1) s))) s

/-- The tree that a prune leaves (R295). -/
def prunedTree (t : Tree) (i : Nat) : Tree :=
  let p := t.path i
  { base := t.base + BitVec.ofNat 32 p.length
    nodes := p.zipIdx.map fun x =>
      { token := ((t.nodes[x.1]?).map (·.token)).getD 0, parent := if x.2 = 0 then 0xFF else BitVec.ofNat 8 (x.2 - 1), acc := true, set := true } }

/-- ACC(i). -/
def Tree.isAcc (t : Tree) (i : Nat) : Bool := match t.nodes[i]? with
  | some x => x.acc
  | none => false

/-- The meaning of TTPRUNE. -/
def execTtprune (o : TWA) (s : State) : Host.Outcome State Fault Refusal :=
  issue (.ttprune o) (useTWA o) (treeOp 600 fun s =>
    let a := rdS s o.a
    let i := twNode a
    onTree s a (twOk a true false false false) fun t =>
      if t.count ≤ i then misuse cTree 0x03
      else if !t.isAcc i || t.isSet i then misuse cTree 0x05
      else if maxBase < t.base.toNat + (t.path i).length then misuse cTree 0x06
      else .done (wrV o.v (pathImage t i) 600 (setTree (twTree a) (some (prunedTree t i)) s))) s

end Sys2Proof.Machine
end

