-- ==== Sys2Proof/Machine/VectorData.lean ====
section
/-! DEFINITION. Vector instructions across lanes: gather and scatter, reductions and scans, partition and histograms, order and
permutation, online softmax, and the visible accumulator bank (R267-R281). -/

namespace Sys2Proof.Machine

/-- Entry j of an index vector (R269). -/
def idxOf (x j : Nat) : Nat := laneOf x 16 j

/-! ### Gather and scatter (R270-R272) -/

/-- A gather word has no nonzero reserved field (reason 0x03). -/
def gatherWordOk (a : Word) : Bool := decide (bitsOf a 48 16 = 0) && decide (bitsOf a 22 2 = 0)

/-- addr[l] of R271. -/
def gatherAddr (a : Word) (x l : Nat) : Nat := bitsOf a 0 22 + idxOf x l * bitsOf a 24 24

/-- What addressing lane l finds: reason 0x09, then the supervisor region. -/
def gatherTrap (s : State) (a : Word) (x wb l : Nat) : Option TrapRec :=
  let p := gatherAddr a x l
  if p % wb ≠ 0 ∨ spadSize < p + wb then some (mkTrap cVector 0x09 0)
  else (rowsForbidden s p 0 wb 1).map fun y => mkTrap cPrivilege 0 y

/-- Cycles of occupancy of VGAT and VSCT (R269). -/
def gatherCycles (h : Shape) (m : Nat) : Nat := 64 + ((List.range h.lanes).filter fun l => selected m l).length

/-- The meaning of VGAT (R271). -/
def execVgat (o : VGatOps) (s : State) : Host.Outcome State Fault Refusal :=
  issue (.vgat o) (useVGatOps o) (fun s =>
    let a := rdS s o.a
    let h := shapeOf s
    let x := rdV s o.x
    let m := rdM s o.m
    let wb := h.w / 8
    onEngine (gatherCycles h m) (fun s =>
      if !gatherWordOk a then misuse cVector 0x03
      else match (laneTrap h m (gatherTrap s a x wb)).or (laneTrap h m fun l => cellTrap s.core (fun _ => true) (gatherAddr a x l)) with
        | some r => .done (failLoad o.v r 4160 s)
        | none =>
          let c := s.viewed 0
          let s1 := sawEach 0 wb (((List.range h.lanes).filter fun l => selected m l).map fun l => gatherAddr a x l) s
          .done (putLanes o.v h m (fun l => spadNum c (gatherAddr a x l) wb) 4160 s1)) s) s

/-- The meaning of VSCT (R271): a lane that may not be written takes its trap as a load does, and no byte is written (R268). -/
def execVsct (o : VSctOps) (s : State) : Host.Outcome State Fault Refusal :=
  issue (.vsct o) (useVSctOps o) (fun s =>
    let a := rdS s o.a
    let h := shapeOf s
    let x := rdV s o.x
    let m := rdM s o.m
    let wb := h.w / 8
    onEngine (gatherCycles h m) (fun s =>
      if !gatherWordOk a then misuse cVector 0x03
      else match laneTrap h m (gatherTrap s a x wb) with
        | some r => .done (landTrap r 4160 s)
        | none =>
          let d := rdV s o.v
          .done (((List.range h.lanes).filter fun l => selected m l).foldl
            (fun s l => storeBytes 0 (gatherAddr a x l) (bytesOfNum wb (laneOf d h.w l)) s) s)) s) s

/-! ### Reductions and scans (R273-R275) -/

/-- OP of a reduction control word. -/
def redOp (b : Word) : Nat := bitsOf b 0 3
/-- WIDE. -/
def redWide (b : Word) : Bool := bitOf b 9
/-- EXCL. -/
def redExcl (b : Word) : Bool := bitOf b 10
/-- DPOS. -/
def redPos (b : Word) : Nat := bitsOf b 12 12

/-- Reserved fields zero and OP assigned (reason 0x0A). -/
def redOk (b : Word) (scan : Bool) : Bool :=
  decide (bitsOf b 24 40 = 0) && decide (bitsOf b 11 1 = 0) && decide (bitsOf b 3 6 = 0) && decide (redOp b ≤ 3)
    && (if scan then decide (redPos b = 0) else !redExcl b)

/-- The format in which float combines round. -/
def redFmt (t : Nat) (b : Word) : Fmt := if redWide b then .fp32 else vtFmt t

/-- A lane as it takes part: for floats in the combining format, and under AMAX its magnitude. -/
def redIn (t : Nat) (b : Word) (c : Nat) : Nat :=
  if vtFloat t then
    let v := decodeFmt (vtFmt t) (if redOp b = 3 then fAbs (vtFmt t) c else c)
    (roundTo (redFmt t b) 0 v).code
  else c

/-- Combine of R273. -/
def redCombine (t : Nat) (b : Word) (rm : BitVec 2) (x y : Nat) : Rounded :=
  if vtFloat t then
    match redOp b with
    | 0 => fAdd (redFmt t b) rm x y
    | 2 => exact (fMin (redFmt t b) x y)
    | _ => exact (fMax (redFmt t b) x y)
  else match redOp b with
    | 0 => exact ((x + y) % 2 ^ vtWidth t)
    | 2 => exact (if vtIntOf t y < vtIntOf t x then y else x)
    | _ => exact (if vtIntOf t x < vtIntOf t y then y else x)

/-- A combined value rounded to T. -/
def redOut (t : Nat) (b : Word) (rm : BitVec 2) (c : Nat) : Rounded :=
  if vtFloat t then roundTo (vtFmt t) rm (decodeFmt (redFmt t b) c) else exact c

/-- The identity of an operation (R273). -/
def redIdentity (t : Nat) (b : Word) : Nat :=
  let w := vtWidth t
  if vtFloat t then
    match redOp b with
    | 1 => signBit (vtFmt t) true + (vtFmt t).infCode
    | 2 => (vtFmt t).infCode
    | _ => 0
  else match redOp b with
    | 0 => 0
    | 1 => if vtSigned t then 2 ^ (w - 1) else 0
    | _ => if vtSigned t then 2 ^ (w - 1) - 1 else 2 ^ w - 1

/-- Join of R274, with the flags so far. -/
def redJoin (f : Nat → Nat → Rounded) (x y : Option Nat) : Option Nat × FlagSet :=
  match x, y with
  | some a, some b => let r := f a b; (some r.code, r.flags)
  | some a, none => (some a, 0)
  | none, y => (y, 0)

/-- One round of Tree. -/
def redRound (f : Nat → Nat → Rounded) : List (Option Nat) → List (Option Nat) × FlagSet
  | x :: y :: rest =>
    let r := redJoin f x y
    let q := redRound f rest
    (r.1 :: q.1, r.2 ||| q.2)
  | l => (l, 0)

/-- Tree of R274, in at most `n` rounds. -/
def redTree (f : Nat → Nat → Rounded) : Nat → List (Option Nat) → Option Nat × FlagSet
  | 0, l => ((l.head?).getD none, 0)
  | n + 1, l =>
    match l with
    | [] => (none, 0)
    | [x] => (x, 0)
    | l =>
      let q := redRound f l
      let r := redTree f n q.1
      (r.1, q.2 ||| r.2)

/-- The reduction of a list of lanes to its result. -/
def redResult (t : Nat) (b : Word) (rm : BitVec 2) (l : List (Option Nat)) : Rounded :=
  let r := redTree (redCombine t b rm) 13 l
  match r.1 with
  | none => exact (redIdentity t b)
  | some c =>
    let y := redOut t b rm c
    { code := y.code, flags := r.2 ||| y.flags }

/-- The type checks of R273: no byte float, and AMAX of floats alone. -/
def redTypeOk (t : Nat) (b : Word) : Bool := !vtByte t && !(decide (redOp b = 3) && vtInt t)

/-- VRED (`byRow`) and VREDC: result position p among n, reducing the lanes `lane p i`, i < k, into lane `dst p`; every other lane as R274. -/
def reduce (o : VWXB) (limit : Shape → Nat) (n k : Shape → Nat) (lane : Shape → Nat → Nat → Nat) (dst : Shape → Nat → Nat → Nat) : State → Eff :=
  vectorOp fun h s =>
    let b := rdS s o.b
    let x := rdV s o.x
    let m := rdM s o.m
    let rm := s.cur.ncs.rm
    permit (redTypeOk h.t b)
      (if !redOk b false || decide (limit h ≤ redPos b) then misuse cVector 0x0A
       else
         let res (p : Nat) : Rounded := redResult h.t b rm ((List.range (k h)).map fun i =>
           if selected m (lane h p i) then some (redIn h.t b (laneOf x h.w (lane h p i))) else none)
         let results := (List.range (n h)).map fun p => (dst h (redPos b) p, res p)
         let find (l : Nat) : Option (Nat × Rounded) := results.find? fun r => decide (r.1 = l)
         let mask := results.foldl (fun g r => g ||| 2 ^ r.1) 0
         let out (l : Nat) : Nat := match find l with
           | some r => r.2.code
           | none => 0
         .done (landFlags (results.foldl (fun g r => g ||| r.2.flags) 0) 40 (putLanes o.v h mask out 40 s)))

/-- The meaning of VRED: each row across its columns. -/
def execVred (o : VWXB) (s : State) : Host.Outcome State Fault Refusal :=
  issue (.vred o) (useVWXB o)
    (reduce o Shape.cols Shape.rows Shape.cols (fun h p i => p * h.cols + i) (fun h d p => p * h.cols + d)) s

/-- The meaning of VREDC: each column across its rows. -/
def execVredc (o : VWXB) (s : State) : Host.Outcome State Fault Refusal :=
  issue (.vredc o) (useVWXB o)
    (reduce o Shape.rows Shape.cols Shape.rows (fun h p i => i * h.cols + p) (fun h d p => d * h.cols + p)) s

/-- The scan of a row (R275): the results of its selected lanes in column order. `run` is the value folded so far, and `held` under EXCL the
lane that joins it when a later lane takes it. -/
def scanRow (f : Nat → Nat → Rounded) (excl : Bool) (out : Option Nat → Rounded) : Option Nat → Option Nat → FlagSet → List Nat → List Rounded
  | _, _, _, [] => []
  | run, held, g, x :: rest =>
    let joined := if excl then held else some x
    let r : Option Nat × FlagSet := redJoin f run joined
    let y := out r.1
    { code := y.code, flags := y.flags ||| g ||| r.2 } :: scanRow f excl out r.1 (some x) 0 rest

/-- The meaning of VSCAN. -/
def execVscan (o : VWXB) (s : State) : Host.Outcome State Fault Refusal :=
  issue (.vscan o) (useVWXB o) (vectorOp fun h s =>
    let b := rdS s o.b
    let x := rdV s o.x
    let m := rdM s o.m
    let rm := s.cur.ncs.rm
    permit (redTypeOk h.t b)
      (if !redOk b true then misuse cVector 0x0A
       else
         let out (v : Option Nat) : Rounded := match v with
           | none => exact (redIdentity h.t b)
           | some c => redOut h.t b rm c
         let row (r : Nat) : List (Nat × Rounded) :=
           let ls := ((List.range h.cols).map fun c => r * h.cols + c).filter fun l => selected m l
           ls.zip (scanRow (redCombine h.t b rm) (redExcl b) out none none 0 (ls.map fun l => redIn h.t b (laneOf x h.w l)))
         let results := ((List.range h.rows).map row).flatten
         let code (l : Nat) : Nat := match results.find? fun r => decide (r.1 = l) with
           | some r => r.2.code
           | none => 0
         .done (landFlags (results.foldl (fun g r => g ||| r.2.flags) 0) 40 (putLanes o.v h m code 40 s)))) s

/-! ### Partition and digit histograms (R276, R277) -/

/-- The image of VPART from the selected lanes, each with its key, in ascending order. -/
def partImage (l : List (Nat × Nat)) : Nat :=
  let list (k : Nat) : List Nat := (l.filter fun p => decide (p.2 = k)).map (·.1)
  let cnt (k : Nat) : Nat := (list k).length
  let off (k : Nat) : Nat := ((List.range k).map cnt).sum
  let all := ((List.range 16).map list).flatten
  packLanes 16 (fun j => (all[j]?).getD 0xFFFF) 4096 0
    + 2 ^ 65536 * packLanes 32 cnt 16 0 + 2 ^ 66048 * packLanes 32 off 16 0

/-- The meaning of VPART: the engine is occupied for 64 cycles (R269). -/
def execVpart (o : VWX) (s : State) : Host.Outcome State Fault Refusal :=
  issue (.vpart o) (useVWX o) (onEngine 64 fun s =>
    let h := shapeOf s
    let x := rdV s o.x
    let m := rdM s o.m
    let l := ((List.range h.lanes).filter fun l => selected m l).map fun l => (l, laneOf x h.w l % 16)
    .done (wrV o.v (partImage l) 96 s)) s

/-- The check of a histogram control word (reason 0x0A). -/
def histOk (b : Word) (w : Nat) : Bool :=
  decide (bitsOf b 15 17 = 0) && decide (bitsOf b 11 2 = 0) && decide (bitsOf b 6 2 = 0) && decide (bitsOf b 0 6 + (bitsOf b 8 3 + 1) ≤ w)

/-- The meaning of VHIST. -/
def execVhist (o : VWXB) (s : State) : Host.Outcome State Fault Refusal :=
  issue (.vhist o) (useVhist s o) (onEngine 64 fun s =>
    let h := shapeOf s
    let b := rdS s o.b
    let x := rdV s o.x
    let m := rdM s o.m
    let d := bitsOf b 8 3 + 1
    let sh := bitsOf b 0 6
    if !histOk b h.w then misuse cVector 0x0A
    else
      let base := if bitOf b 13 then rdOld s o.v else 0
      let pats := (((List.range h.lanes).filter fun l => selected m l).map fun l => laneOf x h.w l).filter fun p =>
        !bitOf b 14 || decide (p / 2 ^ (sh + d) = bitsOf b 32 32)
      let digits := pats.map fun p => p / 2 ^ sh % 2 ^ d
      let counts := packLanes 32 (fun i => laneOf base 32 i + digits.count i) (2 ^ d) 0
      .done (wrV o.v (counts + base / 2 ^ (32 * 2 ^ d) * 2 ^ (32 * 2 ^ d)) 96 s)) s

/-! ### Order transform and permutations (R278, R279) -/

/-- VORD of a lane pattern. -/
def orderCode (f : Fmt) (inv : Bool) (p : Nat) : Nat :=
  let top := 2 ^ (f.width - 1)
  let ones := 2 ^ f.width - 1
  if inv then
    let q := if top ≤ p then p ^^^ top else ones - p
    if (decodeFmt f q).isNan then f.nan else q
  else if (decodeFmt f p).isNan then ones
  else if p < top then p ^^^ top else ones - p

/-- The meaning of VORD. -/
def execVord (o : VWXB) (s : State) : Host.Outcome State Fault Refusal :=
  issue (.vord o) (useVWXB o) (vectorOp fun h s =>
    let b := rdS s o.b
    let x := rdV s o.x
    permit (vtFloat h.t || vtByte h.t)
      (if b.toNat / 2 ≠ 0 then misuse cVector 0x0A
       else .done (putLanes o.v h (rdM s o.m) (fun l => orderCode (vtFmt h.t) (bitOf b 0) (laneOf x h.w l)) 24 s))) s

/-- The meaning of VTRN: lane c R + r takes lane r C + c. -/
def execVtrn (o : VWX) (s : State) : Host.Outcome State Fault Refusal :=
  issue (.vtrn o) (useVWX o) (vectorOp fun h s =>
    let x := rdV s o.x
    .done (putLanes o.v h (rdM s o.m) (fun l => laneOf x h.w (l % h.rows * h.cols + l / h.rows)) 24 s)) s

/-- The meaning of VPERM. -/
def execVperm (o : VWXY) (s : State) : Host.Outcome State Fault Refusal :=
  issue (.vperm o) (useVWXY o) (vectorOp fun h s =>
    let x := rdV s o.x
    let y := rdV s o.y
    .done (putLanes o.v h (rdM s o.m) (fun l => if idxOf y l < h.lanes then laneOf x h.w (idxOf y l) else 0) 24 s)) s

/-! ### Online softmax (R280) -/

/-- The weight of a state of maximum `x` under the merged maximum `m`. -/
def osmWeight (rm : BitVec 2) (x m : Num) : Rounded :=
  if x = .inf true then exact 0
  else if x.same m then exact 0x3F800000
  else if x.isInf || m.isInf then exact 0
  else exp2Round .fp32 rm (Num.addFin false x m.negate)

/-- RoundFP32(f x + g y): exact, one rounding; a NaN operand raises no flag. -/
def osmSum (rm : BitVec 2) (f x g y : Num) : Rounded :=
  if x.isNan || y.isNan then exact Fmt.fp32.nan
  else
    let p := f.mul x
    let q := g.mul y
    let v := p.1.add rm q.1
    vtResult .fp32 rm (v.1, p.2 ||| q.2 ||| v.2)

/-- The merge of one row: its new maximum, its new sum, and the function of the two outputs of a column; with the flags of the weights. -/
structure OsmRow where
  m : Nat
  s : Rounded
  o : Nat → Nat → Rounded
  flags : FlagSet

/-- One row of R280 from the stats (m1, s1) and (m2, s2). -/
def osmRow (rm : BitVec 2) (m1 s1 m2 s2 : Nat) : OsmRow :=
  let d (c : Nat) : Num := decodeFmt .fp32 c
  if (d m1).isNan || (d m2).isNan then
    { m := Fmt.fp32.nan, s := exact Fmt.fp32.nan, o := fun _ _ => exact Fmt.fp32.nan, flags := 0 }
  else
    let m := fMax .fp32 m1 m2
    let f := osmWeight rm (d m1) (d m)
    let g := osmWeight rm (d m2) (d m)
    { m := m, s := osmSum rm (d f.code) (d s1) (d g.code) (d s2)
      o := fun a b => osmSum rm (d f.code) (d a) (d g.code) (d b), flags := f.flags ||| g.flags }

/-- The meaning of VOSM. -/
def execVosm (o : VOsmOps) (s : State) : Host.Outcome State Fault Refusal :=
  issue (.vosm o) (useVOsmOps o) (vectorOp fun h s =>
    permit (decide (h.t = 0))
      (if h.cols < 2 then misuse cVector 0x0C
       else
         let rm := s.cur.ncs.rm
         let out := rdV s (.v (evenReg o.v))
         let st := rdV s (.v (oddReg o.v))
         let outB := rdV s (.v (evenReg o.x))
         let stB := rdV s (.v (oddReg o.x))
         let row (r : Nat) : OsmRow := osmRow rm (laneOf st 32 (r * h.cols)) (laneOf st 32 (r * h.cols + 1))
           (laneOf stB 32 (r * h.cols)) (laneOf stB 32 (r * h.cols + 1))
         let col (l : Nat) : Rounded := (row (l / h.cols)).o (laneOf out 32 l) (laneOf outB 32 l)
         let stat (l : Nat) : Nat :=
           if l % h.cols = 0 then (row (l / h.cols)).m else if l % h.cols = 1 then (row (l / h.cols)).s.code else laneOf st 32 l
         let all := 2 ^ h.lanes - 1
         let flags := laneFlags h all fun l => (col l).flags ||| (if l % h.cols = 0 then (row (l / h.cols)).flags ||| (row (l / h.cols)).s.flags else 0)
         .done (landFlags flags 40 (putLanes (.v (oddReg o.v)) h all stat 40 (putLanes (.v (evenReg o.v)) h all (fun l => (col l).code) 40 s))))) s

/-! ### Accumulator access (R281) -/

/-- The check of a bank word (reason 0x0B). -/
def bankWordOk (a : Word) (h : Shape) : Bool :=
  decide (bitsOf a 22 42 = 0) && decide (bitsOf a 10 6 = 0) && decide (bitsOf a 16 6 + h.rows ≤ 64) && decide (bitsOf a 0 10 + h.cols ≤ 1024)

/-- The bank place of lane l. -/
def bankLane (a : Word) (h : Shape) (l : Nat) : Nat := bankKey (bitsOf a 16 6 + l / h.cols) (bitsOf a 0 10 + l % h.cols)

/-- The meaning of VACCR. -/
def execVaccr (o : VWA) (s : State) : Host.Outcome State Fault Refusal :=
  issue (.vaccr o) (useVWA o) (vectorOp fun h s =>
    let a := rdS s o.a
    let bank := visBank s.core.mat
    let at_ (l : Nat) : Nat := (sparseGet 0 bank (bankLane a h l)).toNat
    permit (vtFloat h.t)
      (if !bankWordOk a h then misuse cVector 0x0B
       else .done (putRounded o.v h (rdM s o.m) (fun l =>
         if h.t = 0 then exact (at_ l) else roundTo (vtFmt h.t) s.cur.ncs.rm (decodeFmt .fp32 (at_ l))) 24 s))) s

/-- The meaning of VACCW: widened exactly, a NaN as the canonical one. -/
def execVaccw (o : VSA) (s : State) : Host.Outcome State Fault Refusal :=
  issue (.vaccw o) (useVSA o) (vectorOp fun h s =>
    let a := rdS s o.a
    let x := rdV s o.x
    let m := rdM s o.m
    permit (vtFloat h.t)
      (if !bankWordOk a h then misuse cVector 0x0B
       else
         let bank := ((List.range h.lanes).filter fun l => selected m l).foldl (fun b l =>
           sparsePut 0 b (bankLane a h l) (BitVec.ofNat 32 (roundTo .fp32 0 (decodeFmt (vtFmt h.t) (laneOf x h.w l))).code)) (visBank s.core.mat)
         .done (s.setCore { s.core with mat := setVis s.core.mat bank }))) s

end Sys2Proof.Machine
end

