-- ==== Sys2Proof/Machine/Csr.lean ====
section
/-! DEFINITION. The control and status registers, CSRR and CSRW (R106, R394, and the register tables of the other classes). -/

namespace Sys2Proof.Machine

/-! ### Register words -/

/-- TSTAT or SSTAT (Table 19-10). -/
def trapStat (t : TrapRegs) : Nat := bit t.inh + bit t.pmode * 2 + bit t.ppriv * 4 + bit t.nact * 2 ^ 8 + t.npos.toNat * 2 ^ 9

/-- A write of TSTAT or SSTAT; PPRIV is written in SSTAT only. -/
def putTrapStat (sup : Bool) (x : Word) (t : TrapRegs) : TrapRegs :=
  { t with inh := bitOf x 0, pmode := bitOf x 1, ppriv := sup && bitOf x 2, nact := bitOf x 8, npos := BitVec.ofNat 6 (bitsOf x 9 6) }

/-- NCS as a word (Table 2-9). -/
def ncsWord (n : Ncs) : Nat := n.flags.toNat + n.rm.toNat * 2 ^ 8

/-- A write of NCS: RM is set and ones clear flags (R46, R47). -/
def Ncs.write (n : Ncs) (x : Word) : Ncs :=
  { rm := BitVec.ofNat 2 (bitsOf x 8 2), nv := n.nv && !bitOf x 4, dz := n.dz && !bitOf x 3, of := n.of && !bitOf x 2
    uf := n.uf && !bitOf x 1, nx := n.nx && !bitOf x 0 }

/-- WST (Table 5-7): DEPTH is that of the bank in use. -/
def wstWord (st : Stream) : Nat := st.bank.depth + bit st.wstOver * 2 ^ 8 + bit st.wstUnder * 2 ^ 9

/-- BARTb (Table 7-7). -/
def bartWord (b : Barrier) : Nat := b.target.toNat + b.arrived.toNat * 2 ^ 8 + b.phase.toNat * 2 ^ 16

/-- A cause that pends would go to the job handler of ctl at job level (R372, R375). -/
def goesToJob (s : State) (c : Nat) : Bool := toJobHandler (s.onStr .ctl fun st => { st with priv := false }) .ctl c

/-- SPEND (R375): the causes that pend for delivery to the supervisor. -/
def spend (s : State) : Nat :=
  let c := s.core
  bit (c.audit.pend && c.audit.owner == 1) * 2 ^ 0x18 + bit c.audit.replicaPend.isSome * 2 ^ 0x19
    + bit ((foragerPending s c.num).isSome && !goesToJob s cForagerFault) * 2 ^ 0x1A + bit c.pendPreempt * 2 ^ 0x1B
    + bit c.pendHost.isSome * 2 ^ 0x1C + bit c.pendWatchdog.isSome * 2 ^ 0x1D
    + bit (c.pendParked.copy || c.pendParked.mat || c.pendParked.vec) * 2 ^ 0x1E

/-- A stream has been parked by a trap. -/
def Stream.parkedByTrap (st : Stream) : Bool := st.parked.any fun p => p.byTrap.isSome

/-- A stream shows as parked in RUNST. -/
def Stream.showsParked (st : Stream) : Bool := st.parked.any fun p => !p.idle

/-- RUNST (Table 19-9). -/
def runst (c : CoreState) : Nat :=
  bit c.streams.copy.showsParked * 2 + bit c.streams.mat.showsParked * 4 + bit c.streams.vec.showsParked * 8
    + bit c.streams.copy.parkedByTrap * 2 ^ 5 + bit c.streams.mat.parkedByTrap * 2 ^ 6 + bit c.streams.vec.parkedByTrap * 2 ^ 7 + bit c.stop * 2 ^ 8

/-- The causes that Table 19-1 lets a job handler take by its delegation mask; the other bits of TDLG read zero. -/
def delegableMask : Word := BitVec.ofNat 64 (((List.range 64).map fun c => if delegable c then 2 ^ c else 0).sum)

/-! ### Which registers exist (R106) -/

/-- The numbers that name a CSR of a stream. -/
def csrAssigned (t : Sec) (n : Nat) : Bool :=
  decide (n < 6) || (decide (t = .ctl) && decide (7 ≤ n) && decide (n < 0x10)) || (decide (0x10 ≤ n) && decide (n < 0x17))
    || [0x18, 0x19, 0x1A, 0x48, 0x49, 0x4A, 0x4B, 0x4C, 0x4D, 0x4E, 0x60, 0x62, 0x70, 0x71].contains n
    || (decide (t = .copy) && (n == 0x20 || n == 0x21)) || (decide (t = .vec) && n == 0x30)
    || (decide (0x40 ≤ n) && decide (n < 0x48)) || (decide (0x50 ≤ n) && decide (n < 0x60))
    || (decide (0x72 ≤ n) && decide (n < 0x7B)) || (decide (0x7C ≤ n) && decide (n < 0x87))

/-- Registers that only supervisor mode may read (access SRW). -/
def csrSupRead (n : Nat) : Bool :=
  (decide (8 ≤ n) && decide (n < 0x12)) || [0x49, 0x4C, 0x4E, 0x62, 0x70, 0x74, 0x75, 0x76, 0x77, 0x78, 0x79, 0x7C, 0x7D, 0x7E, 0x7F].contains n

/-- Registers that only supervisor mode may write (access SRW); a write of one that is read-only to writes does nothing. -/
def csrSupWrite (n : Nat) : Bool := csrSupRead n && !([0x74, 0x75, 0x77].contains n)

/-! ### Reading -/

/-- A stream's own CSR (Tables 5-6, 7-12, 19-9, R209). -/
def csrStream (s : State) (t : Sec) (n : Nat) : Option Nat :=
  let st := s.str t
  match n with
  | 0x000 => some (trapStat st.trap)
  | 0x001 => some st.trap.cause.toNat
  | 0x002 => some st.trap.info.toNat
  | 0x003 => some st.trap.addr.toNat
  | 0x004 => some st.trap.epc.toNat
  | 0x005 => some st.trap.vec.toNat
  | 0x007 => some (spend s)
  | 0x008 => some (trapStat st.strap)
  | 0x009 => some st.strap.cause.toNat
  | 0x00A => some st.strap.info.toNat
  | 0x00B => some st.strap.addr.toNat
  | 0x00C => some st.strap.epc.toNat
  | 0x00D => some st.strap.vec.toNat
  | 0x00E => some (st.sspb.toNat * 64)
  | 0x00F => some (st.sspl.toNat * 64)
  | 0x010 => some (st.spb.toNat * 64)
  | 0x011 => some (st.spl.toNat * 64)
  | 0x012 => some (wstWord st)
  | 0x013 => some (ncsWord (st.landedNcs st.clk))
  | 0x014 => some st.fldl.toNat
  | 0x015 => some st.fldp.toNat
  | 0x016 => some s.ccc
  | 0x018 => some st.watcht.toNat
  | 0x019 => some st.rcvl.toNat
  | 0x01A => some (if t = .mat ∨ t = .vec then 0 else st.rcvp.toNat)
  | _ => none

/-- A core CSR (Tables 7-7, 8-10, 11-8, 16-2, 18-5, 19-9, 20-1, R143, R210, R247). -/
def csrCore (s : State) (n : Nat) : Nat :=
  let c := s.core
  let m := s.tiers
  match n with
  | 0x020 => c.copy.seq.toNat
  | 0x021 => c.copy.queue.length
  | 0x030 => c.vec.shape.word.toNat
  | 0x048 => c.sync.flags.toNat
  | 0x049 => c.copy.frzl.toNat
  | 0x04A => c.copy.frzc.toNat
  | 0x04B => landingBytes c
  | 0x04C => c.copy.pgrq.toNat * 64
  | 0x04D => c.copy.pgdrp.toNat
  | 0x04E => c.msgs.memq.toNat + bit c.msgs.memqEn * 16
  | 0x060 => mpstWord c.mat
  | 0x062 => bit c.audit.lock
  | 0x070 => s.sched.pmargin.toNat
  | 0x071 => s.sched.latec.toNat
  | 0x072 => srLow c
  | 0x073 => srHigh c
  | 0x074 => c.ptroot.toNat / 2 ^ 14 * 2 ^ 14
  | 0x075 => c.asid.toNat
  | 0x076 => c.smsel.toNat
  | 0x077 => (c.sync.map[Fin.ofNat 256 c.smsel.toNat]).toNat
  | 0x078 => c.wdog.toNat
  | 0x079 => bit c.prqe + bit c.dbe * 2
  | 0x07A => runst c
  | 0x07C => c.streams.ctl.tdlg.toNat
  | 0x07D => c.streams.copy.tdlg.toNat
  | 0x07E => c.streams.mat.tdlg.toNat
  | 0x07F => c.streams.vec.tdlg.toNat
  | 0x080 => m.stcap
  | 0x081 => m.stlayr.toNat
  | 0x082 => m.corrs.toNat * 2 ^ 32 + m.corrb.toNat
  | 0x083 => m.uncs.toNat * 2 ^ 32 + m.uncb.toNat
  | 0x084 => m.aboall.toNat * 2 ^ 32 + m.abomax.toNat
  | 0x085 => m.patb.toNat * 2 ^ 32 + m.pats.toNat
  | 0x086 => m.copies.length % 2 ^ 16 * 2 ^ 16 + m.spares.length % 2 ^ 16
  | _ =>
    if 0x40 ≤ n ∧ n < 0x48 then bartWord (barrierAt s (n - 0x40))
    else if 0x50 ≤ n ∧ n < 0x60 then (c.frames[Fin.ofNat 16 (n - 0x50)]).toNat
    else 0

/-- The value of an assigned CSR in the stream whose turn it is. -/
def csrValue (s : State) (n : Nat) : Word := BitVec.ofNat 64 ((csrStream s s.turn n).getD (csrCore s n))

/-! ### Writing -/

/-- NCS written (R46, R48): a flag that lands in the same core cycle stays set. -/
def writeNcs (x : Word) (st : Stream) : Stream :=
  let early := st.landing.filter fun l => decide (l.due < st.clk)
  { st with ncs := (early.foldl (fun n l => n.accrue l.flags) st.ncs).write x
            landing := st.landing.map fun l => if l.due < st.clk then { l with flags := 0 } else l }

/-- A stream's own CSR written; `none` where the number is not a stream's, and a read-only one does nothing. -/
def csrWriteStream (n : Nat) (x : Word) (st : Stream) : Option Stream :=
  match n with
  | 0x000 => some { st with trap := putTrapStat false x st.trap }
  | 0x001 => some { st with trap := { st.trap with cause := BitVec.ofNat 8 (bitsOf x 0 8) } }
  | 0x002 => some { st with trap := { st.trap with info := x } }
  | 0x003 => some { st with trap := { st.trap with addr := x } }
  | 0x004 => some { st with trap := { st.trap with epc := pcOf x } }
  | 0x005 => some { st with trap := { st.trap with vec := pcOf x } }
  | 0x007 => some st
  | 0x008 => some { st with strap := putTrapStat true x st.strap }
  | 0x009 => some { st with strap := { st.strap with cause := BitVec.ofNat 8 (bitsOf x 0 8) } }
  | 0x00A => some { st with strap := { st.strap with info := x } }
  | 0x00B => some { st with strap := { st.strap with addr := x } }
  | 0x00C => some { st with strap := { st.strap with epc := BitVec.ofNat 22 (bitsOf x 0 22) } }
  | 0x00D => some { st with strap := { st.strap with vec := BitVec.ofNat 22 (bitsOf x 0 22) } }
  | 0x00E => some { st with sspb := BitVec.ofNat 16 (bitsOf x 6 16) }
  | 0x00F => some { st with sspl := BitVec.ofNat 16 (bitsOf x 6 16) }
  | 0x010 => some { st with spb := BitVec.ofNat 16 (bitsOf x 6 16) }
  | 0x011 => some { st with spl := BitVec.ofNat 16 (bitsOf x 6 16) }
  | 0x012 => some { st with wstOver := st.wstOver && !bitOf x 8, wstUnder := st.wstUnder && !bitOf x 9 }
  | 0x013 => some (writeNcs x st)
  | 0x014 => some { st with fldl := BitVec.ofNat 16 (bitsOf x 0 16) }
  | 0x015 => some st
  | 0x016 => some st
  | 0x018 => some { st with watcht := BitVec.ofNat 32 (bitsOf x 0 32) }
  | 0x019 => some { st with rcvl := BitVec.ofNat 16 (bitsOf x 0 16) }
  | 0x01A => some st
  | _ => none

/-- The delegation mask of a stream written: bits of causes that are not delegable read zero. -/
def writeTdlg (t : Sec) (x : Word) (s : State) : State := s.onStr t fun st => { st with tdlg := x &&& delegableMask }

/-- A core CSR written; every register not named is read-only. -/
def csrWriteCore (n : Nat) (x : Word) (s : State) : State :=
  let c := s.core
  match n with
  | 0x049 => s.setEngine { c.copy with frzl := BitVec.ofNat 16 (bitsOf x 0 16) }
  | 0x04C => s.setEngine { c.copy with pgrq := BitVec.ofNat 16 (bitsOf x 6 16) }
  | 0x04E => s.setMsgs { c.msgs with memq := BitVec.ofNat 4 (bitsOf x 0 4), memqEn := bitOf x 4 }
  | 0x062 => s.setAudit { c.audit with lock := bitOf x 0 }
  | 0x070 => { s with sched := { s.sched with pmargin := BitVec.ofNat 32 (bitsOf x 0 32) } }
  | 0x076 => s.setCore { c with smsel := BitVec.ofNat 8 (bitsOf x 0 8) }
  | 0x078 => s.setCore { c with wdog := x }
  | 0x079 => s.setCore { c with prqe := bitOf x 0, dbe := bitOf x 1 }
  | 0x07C => writeTdlg .ctl x s
  | 0x07D => writeTdlg .copy x s
  | 0x07E => writeTdlg .mat x s
  | 0x07F => writeTdlg .vec x s
  | _ => if 0x40 ≤ n ∧ n < 0x48 then writeBart (n - 0x40) (bitsOf x 0 8) s else s

/-- An assigned CSR written by the stream whose turn it is. -/
def csrWrite (n : Nat) (x : Word) (s : State) : State :=
  match csrWriteStream n x s.cur with
  | some st => s.setCur st
  | none => csrWriteCore n x s

/-! ### CSRR and CSRW (R106) -/

/-- The trap of a CSR number that names no CSR of the stream: check 4. -/
def csrIllegal (i : Instr) (s : State) : Host.Outcome State Fault Refusal := .next (trapOut (illegalRec ((encode i).getD 0) 4 0) s)

/-- The meaning of CSRR (R106): the CSR number is checked at decode, and a job-mode read of an SRW register raises the privilege trap (R8). -/
def execCsrr (o : CsrrOps) (s : State) : Host.Outcome State Fault Refusal :=
  if !csrAssigned s.turn o.c.val then csrIllegal (.csrr o) s
  else issue (.csrr o) (useCsrrOps o) (fun s =>
    if csrSupRead o.c.val && !s.cur.priv then forbidden 0 else .done (wrD o.d (csrValue s o.c.val) 6 s)) s

/-- The meaning of CSRW (R106). -/
def execCsrw (o : CsrwOps) (s : State) : Host.Outcome State Fault Refusal :=
  if !csrAssigned s.turn o.c.val then csrIllegal (.csrw o) s
  else issue (.csrw o) (useCsrwOps o) (fun s =>
    if csrSupWrite o.c.val && !s.cur.priv then forbidden 0 else .done (csrWrite o.c.val (rdS s o.a) s)) s

end Sys2Proof.Machine
end

