-- ==== Sys2Proof/Machine/Context.lean ====
section
/-! DEFINITION. Context areas (R382-R384): their layout, the image of a stream, and its restoration. -/

namespace Sys2Proof.Machine

/-! ### Areas as fields -/

/-- A field of an area: its byte offset, size and value. -/
structure AreaField where
  off : Nat
  size : Nat
  val : Nat

/-- An area as one little-endian number; bytes that no field names are zero (R382). -/
def areaOf (l : List AreaField) : Nat := l.foldl (fun n f => n + f.val % 2 ^ (8 * f.size) * 2 ^ (8 * f.off)) 0

/-- The bytes that a list of fields names, as a mask. -/
def areaMask (l : List AreaField) : Nat := l.foldl (fun n f => n ||| (2 ^ (8 * f.size) - 1) * 2 ^ (8 * f.off)) 0

/-- The field of n bytes at an offset of an area. -/
def areaGet (x off n : Nat) : Nat := fld x (8 * off) (8 * n)

/-- A word of an area. -/
def areaWord (x off : Nat) : Word := BitVec.ofNat 64 (areaGet x off 8)

/-- A list of equal fields from an offset. -/
def areaRow (off size : Nat) (l : List Nat) : List AreaField := l.zipIdx.map fun p => { off := off + size * p.2, size := size, val := p.1 }

/-- Bytes of a stream's area (Table 19-3). -/
def areaSize : Sec → Nat
  | .ctl => 0x840
  | .copy => 0x3300
  | .mat => 0x880
  | .vec => 0xA7600

/-- MAGIC. -/
def areaMagic : Nat := 0x58544353

/-! ### Saving -/

/-- What a register slot holds once its results have landed; that of a late far load is free. -/
def savedSlot (tick loc : Nat) (x : Slot) : Nat := if x.fld.isSome then (Config.freeWord tick loc).toNat else x.val.toNat

/-- The nest descriptor of a nest, for six levels (Table 5-3). -/
def nestFields (n : Nest) : List AreaField :=
  areaRow 0x580 1 (n.base.toList.map fun b => match b with
    | some i => 16 + i.val
    | none => 0)
  ++ (n.level.toList.zipIdx.flatMap fun p =>
    { off := 0x588 + 16 * p.2, size := 4, val := p.1.count.toNat } :: areaRow (0x58C + 16 * p.2) 3 (p.1.inc.toList.map (·.toNat)))

/-- The words of CSRS (Table 19-3). -/
def csrsWords (st : Stream) : List Nat :=
  [ncsWord (st.landedNcs st.maxReady), wstWord { st with priv := false }, st.spb.toNat * 64, st.spl.toNat * 64, st.fldl.toNat, st.fldp.toNat
    , st.watcht.toNat, st.rcvl.toNat, trapStat st.trap, st.trap.cause.toNat, st.trap.info.toNat, st.trap.addr.toNat, st.trap.epc.toNat
    , st.trap.vec.toNat, st.park.cause, st.park.info.toNat]

/-- Where a stream stands: its program counter, mode, and the active flag and position of its nest (R383). -/
structure Standing where
  pc : BitVec 22
  mode : Bool
  nact : Bool
  npos : Nat

/-- The standing that CTXSAVE saves: for ctl that of the job at the supervisor's entry. -/
def standing (t : Sec) (st : Stream) : Standing :=
  if t = .ctl then { pc := st.strap.epc, mode := st.strap.pmode, nact := st.strap.nact, npos := st.strap.npos.toNat }
  else { pc := st.pc, mode := st.mode, nact := st.job.nest.active, npos := st.job.nest.pos }

/-- STATE (Table 19-3). -/
def stateWord (t : Sec) (st : Stream) : Nat :=
  let x := standing t st
  bit x.mode + bit st.trap.inh * 2 + bit st.parkedByTrap * 4 + bit st.rdvPending.isSome * 8 + (st.rdvPending.getD 0).toNat * 2 ^ 8
    + st.job.depth % 256 * 2 ^ 16 + bit x.nact * 2 ^ 24 + x.npos % 64 * 2 ^ 25

/-- GMAP: the logical group of each physical group; one above the window's counts as none. -/
def gmapWords (b : Bank) : List Nat := b.holds.toList.map fun h => match h with
  | some g => if g ≤ b.depth + 1 then g else 0xFFFF
  | none => 0xFFFF

/-- The common part (Table 19-3). -/
def commonFields (tick : Nat) (t : Sec) (st : Stream) : List AreaField :=
  let b := st.job
  let n := b.nest
  [ { off := 0, size := 4, val := areaMagic }, { off := 4, size := 1, val := secNum t }, { off := 5, size := 1, val := 1 }
  , { off := 8, size := 8, val := (standing t st).pc.toNat }, { off := 0x10, size := 8, val := stateWord t st }
  , { off := 0x18, size := 8, val := areaSize t } ]
  ++ areaRow 0x20 8 (csrsWords st)
  ++ [{ off := 0xA0, size := 8, val := st.park.addr.toNat }]
  ++ areaRow 0xA8 8 (b.q.toList.zipIdx.map fun p => savedSlot tick p.2 p.1)
  ++ [{ off := 0x128, size := 8, val := ((List.finRange 16).map fun p => bit (b.preds[p]).val * 2 ^ p.val).sum }]
  ++ areaRow 0x130 2 (gmapWords b)
  ++ areaRow 0x180 8 (b.regs.toList.zipIdx.map fun p => savedSlot tick (16 + p.2) p.1)
  ++ nestFields n
  ++ [{ off := 0x5E8, size := 8, val := n.nestPc.toNat }]
  ++ areaRow 0x5F0 4 (n.idx.toList.map (·.toNat))
  ++ areaRow 0x608 8 (n.origin.toList.map (·.toNat))
  ++ [{ off := 0x628, size := 8, val := n.levels }, { off := 0x630, size := 8, val := (n.words - 1) % 64 }]

/-- The record of the suspended command that owns bitmap j. -/
def ownerRecord (e : CopyEngine) (j : Fin 16) : Option Cmd :=
  match e.owners[j] with
  | .free => none
  | .running q => e.queue.find? fun c => decide (c.seq = q)
  | .suspended q => e.records.find? fun c => decide (c.seq = q)

/-- Owned bitmaps, and those of suspended commands. -/
def ownedBits (e : CopyEngine) : Nat :=
  ((List.finRange 16).map fun j => match e.owners[j] with
    | .free => 0
    | .running _ => 2 ^ j.val
    | .suspended _ => 2 ^ j.val + 2 ^ (16 + j.val)).sum

/-- The copy part (Table 19-4). -/
def copyFields (e : CopyEngine) : List AreaField :=
  areaRow 0x800 8 (e.cw.toList.map (·.val.toNat))
  ++ [{ off := 0x880, size := 8, val := e.eprev }, { off := 0x888, size := 8, val := ownedBits e }]
  ++ ((List.finRange 16).flatMap fun j => match ownerRecord e j with
    | some c => { off := 0x900 + 160 * j.val, size := 8, val := (statusWord c true).toNat }
        :: { off := 0x908 + 160 * j.val, size := 8, val := c.ringCount } :: areaRow (0x910 + 160 * j.val) 8 (c.cw.toList.map (·.toNat))
    | none => areaRow (0x900 + 160 * j.val) 8 (List.replicate 18 0))
  ++ areaRow 0x1300 512 (e.bitmaps.toList.map (·.toNat))

/-- The mat part (Table 19-4). -/
def matFields (m : Matrix) : List AreaField :=
  areaRow 0x800 8 [m.cfg.toNat, bit m.wsel, combWord m.resident.record, combWord m.filling.record, m.slot.toNat, m.abv.toNat, m.bbv.toNat, m.swl.toNat, mfltWord m.mflt]

/-- The valid trees with the offsets of their images, in tree order. -/
def treeOffsets : List (Nat × Option Tree) → Nat → List (Nat × Nat × Tree)
  | [], _ => []
  | (_, none) :: rest, o => treeOffsets rest o
  | (i, some t) :: rest, o => (i, o, t) :: treeOffsets rest (o + 16 + 16 * t.count)

/-- The vec part (Table 19-4). -/
def vecFields (c : CoreState) : List AreaField :=
  [{ off := 0x800, size := 8, val := c.vec.shape.word.toNat }]
  ++ areaRow 0x1000 16384 (c.vec.vq.toList.map (·.val.toNat))
  ++ areaRow 0x41000 16384 (c.vec.v.toList.map (·.val.toNat))
  ++ areaRow 0xA1000 512 (c.vec.m.toList.map (·.val.toNat))
  ++ areaRow 0xA3000 8 (List.replicate 64 0)
  ++ ((treeOffsets (c.trees.toList.zipIdx.map fun p => (p.2, p.1)) 0).flatMap fun p =>
    [ { off := 0xA3000 + 8 * p.1, size := 8, val := 2 ^ 63 + p.2.1 }
    , { off := 0xA3200 + p.2.1, size := 16 + 16 * p.2.2.count, val := numOfBytes (treeImage p.2.2) } ])

/-- The fields of a stream's own part. -/
def partFields (t : Sec) (s : State) : List AreaField :=
  match t with
  | .ctl => [{ off := 0x800, size := 8, val := s.core.streams.ctl.eprev }]
  | .copy => copyFields s.core.copy
  | .mat => matFields s.core.mat
  | .vec => vecFields s.core

/-- The context of a stream as an area (R382, R383). -/
def contextOf (t : Sec) (s : State) : Nat := areaOf (commonFields s.tick t (s.str t) ++ partFields t s)

/-! ### Checking an area (R384) -/

/-- The node record i of an image at an offset. -/
def areaNode (x o i : Nat) : TreeNode :=
  let r := o + 16 + 16 * i
  { token := BitVec.ofNat 32 (areaGet x r 4), parent := BitVec.ofNat 8 (areaGet x (r + 4) 1)
    acc := flag x (8 * (r + 6)), set := flag x (8 * (r + 6) + 1) }

/-- The zero bytes of node record i are zero. -/
def areaNodeZero (x o i : Nat) : Bool :=
  let r := o + 16 + 16 * i
  decide (areaGet x (r + 6) 1 < 4) && decide (areaGet x (r + 7) 1 = 0) && decide (areaGet x (r + 12) 4 = 0)

/-- The tree whose image stands at an offset; `none` when it breaks R290 or leaves the area. -/
def areaTree (x o : Nat) : Option Tree :=
  let base := areaGet x o 4
  let n := areaGet x (o + 4) 2
  if areaSize .vec < o + 16 ∨ 256 < n ∨ maxBase < base ∨ areaGet x (o + 6) 10 ≠ 0 ∨ areaSize .vec < o + 16 + 16 * n then none
  else
    let nodes := (List.range n).map (areaNode x o)
    let scnt := (nodes.filter (·.set)).length
    if nodes.zipIdx.all (fun p => areaNodeZero x o p.2 && treeNodeOk nodes scnt p.2 p.1) && decide (scnt ≤ base) then
      some { base := BitVec.ofNat 32 base, nodes := nodes }
    else none

/-- The offset of tree i's image, where its entry is valid. -/
def treeEntry (x i : Nat) : Option Nat :=
  let e := areaGet x (0xA3000 + 8 * i) 8
  if flag e 63 then some (0xA3200 + fld e 0 32) else none

/-- The tree file that a vec area holds; `none` when an image is malformed or the file would be too large. -/
def areaTrees (x : Nat) : Option (Vector (Option Tree) 64) :=
  let l := (List.range 64).map fun i => (treeEntry x i).map (areaTree x)
  let v : Vector (Option Tree) 64 := Vector.ofFn fun i => ((l[i.val]?).getD none).bind id
  let count := (v.toList.map fun t => match t with
    | some t => t.count
    | none => 0).sum
  if l.all (fun o => match o with
      | some none => false
      | _ => true) && decide (count ≤ treeRoom) then some v else none

/-- The bytes that an area's layout names. The nest descriptor's reserved bytes, and those of images, are zero bytes. -/
def namedBytes (t : Sec) (x : Nat) : Nat :=
  let row (off size n : Nat) : AreaField := { off := off, size := size * n, val := 0 }
  let common := [row 0 6 1, row 8 24 1, row 0x20 136 1, row 0xA8 128 1, row 0x128 8 1, row 0x130 32 1, row 0x180 1024 1, row 0x580 4 1, row 0x588 96 1
    , row 0x5E8 8 1, row 0x5F0 24 1, row 0x608 32 1, row 0x628 16 1]
  let part := match t with
    | .ctl => [row 0x800 8 1]
    | .copy => row 0x800 0x90 1 :: row 0x1300 512 16 :: (List.range 16).map fun j => row (0x900 + 160 * j) 144 1
    | .mat => [row 0x800 8 9]
    | .vec => row 0x800 8 1 :: row 0x1000 0xA2000 1 :: row 0xA3000 8 64
        :: (List.range 64).filterMap fun i => (treeEntry x i).map fun o => row o (16 + 16 * areaGet x (o + 4) 2) 1
  areaMask (common ++ part)

/-- An area is malformed for a stream (reason 0x04). -/
def areaMalformed (t : Sec) (x : Nat) : Bool :=
  let depth := areaGet x 0x12 1
  decide (areaGet x 0 4 ≠ areaMagic) || decide (areaGet x 4 1 ≠ secNum t) || decide (areaGet x 5 1 ≠ 1) || decide (areaGet x 0x18 8 ≠ areaSize t)
    || decide (x &&& namedBytes t x ≠ x) || decide (64 ≤ areaGet x 0x630 8)
    || ((List.range 16).any fun g => let v := areaGet x (0x130 + 2 * g) 2; decide (v ≠ 0xFFFF) && decide (depth + 1 < v))
    || (decide (t = .vec) && (areaTrees x).isNone)

/-! ### Restoring -/

/-- The bank that an area holds. -/
def areaBank (x : Nat) : Bank :=
  let slot (o : Nat) : Slot := { val := areaWord x o, ready := 0, fld := none }
  { q := Vector.ofFn fun i => slot (0xA8 + 8 * i.val)
    regs := Vector.ofFn fun i => slot (0x180 + 8 * i.val)
    holds := Vector.ofFn fun g => let v := areaGet x (0x130 + 2 * g.val) 2; if v = 0xFFFF then none else some v
    preds := Vector.ofFn fun p => { val := p.val == 0 || flag (areaGet x 0x128 8) p.val, ready := 0 }
    nest := { levels := min 6 (max 1 (areaGet x 0x628 8))
              base := Vector.ofFn fun j => (baseOf (areaGet x (0x580 + j.val) 1)).getD none
              level := Vector.ofFn fun l => { count := BitVec.ofNat 32 (areaGet x (0x588 + 16 * l.val) 4)
                                              inc := Vector.ofFn fun j => BitVec.ofNat 24 (areaGet x (0x58C + 16 * l.val + 3 * j.val) 3) }
              idx := Vector.ofFn fun l => BitVec.ofNat 32 (areaGet x (0x5F0 + 4 * l.val) 4)
              origin := Vector.ofFn fun j => areaWord x (0x608 + 8 * j.val)
              nestPc := BitVec.ofNat 22 (areaGet x 0x5E8 8), words := areaGet x 0x630 8 + 1, active := false, pos := 0 }
    depth := areaGet x 0x12 1 }

/-- A stream with the common part of an area restored. What was set aside for its next boundary is the old context's: a restored matrix fault is taken
at WAITLT or MDRAIN (R245). -/
def restoreStream (t : Sec) (x : Nat) (st : Stream) : Stream :=
  let state := areaGet x 0x10 8
  let w (i : Nat) : Word := areaWord x (0x20 + 8 * i)
  let ncs := w 0
  let parkRec : TrapRec := { cause := (w 14).toNat, info := w 15, addr := areaWord x 0xA0 }
  let nact := flag state 24
  let npos := fld state 25 6
  let b := areaBank x
  let st1 : Stream := { st.settled with
    ncs := { rm := BitVec.ofNat 2 (bitsOf ncs 8 2), nv := bitOf ncs 4, dz := bitOf ncs 3, of := bitOf ncs 2, uf := bitOf ncs 1, nx := bitOf ncs 0 }
    wstOver := bitOf (w 1) 8, wstUnder := bitOf (w 1) 9, spb := BitVec.ofNat 16 (bitsOf (w 2) 6 16), spl := BitVec.ofNat 16 (bitsOf (w 3) 6 16)
    fldl := BitVec.ofNat 16 (bitsOf (w 4) 0 16), fldp := w 5, watcht := BitVec.ofNat 32 (bitsOf (w 6) 0 32), rcvl := BitVec.ofNat 16 (bitsOf (w 7) 0 16)
    rcvp := 0
    trap := putTrapStat false (w 8) { TrapRegs.reset with cause := BitVec.ofNat 8 (bitsOf (w 9) 0 8), info := w 10, addr := w 11, epc := pcOf (w 12), vec := pcOf (w 13) }
    park := parkRec
    rdvPending := if flag state 3 then some (BitVec.ofNat 8 (fld state 8 8)) else none, deferred := if t = .ctl then st.settled.deferred else [] }
  if t = .ctl then
    { st1 with job := b
               strap := { st1.strap with epc := BitVec.ofNat 22 (areaGet x 8 8), pmode := flag state 0, nact := nact, npos := BitVec.ofNat 6 npos, ppriv := false }
               eprev := areaGet x 0x800 8 }
  else
    { st1 with job := { b with nest := { b.nest with active := nact, pos := npos } }, pc := pcOf (areaWord x 8), mode := flag state 0
               parked := some { byTrap := if flag state 2 then some parkRec else none } }

/-- The record of a suspended command, from slot j of a copy area. -/
def areaCmd (x : Nat) (j : Fin 16) (kind : CmdKind) : Cmd :=
  let o := 0x900 + 160 * j.val
  let w := areaWord x o
  { seq := BitVec.ofNat 16 (bitsOf w 0 16), kind := kind, fmt := 0, cw := Vector.ofFn fun i => areaWord x (o + 16 + 8 * i.val), rm := 0, sem := none, lsem := none
    timed := false, promise := 0, arrive := 0, phase := .landed, late := bitOf w 61, cancelled := false, fault := bitsOf w 48 8, first := bitsOf w 16 16
    poison := bitsOf w 32 16, bitmap := some j, susp := bitOf w 60, ringCount := areaGet x (o + 8) 8, todo := [], skipped := [], retried := false
    heldItems := [], held := [], delayed := [], delayedItems := [], unackedItems := [], flags := 0, published := false, followed := false }

/-- The copy part restored. The kind of a suspended command that the engine still knows is kept; of another it is free (log entry 18). -/
def restoreCopy (x : Nat) (s : State) : State :=
  let e := s.core.copy
  let owned (j : Nat) : Bool := flag (areaGet x 0x888 8) j
  let susp (j : Nat) : Bool := flag (areaGet x 0x888 8) (16 + j)
  let kind (j : Fin 16) : CmdKind :=
    match e.records.find? fun c => decide (c.seq = (areaCmd x j .kvlist).seq) && decide (c.cw = (areaCmd x j .kvlist).cw) with
    | some c => c.kind
    | none => match Config.restoredKind (s.tick + j.val) with
      | 0 => .gather
      | 1 => .scatter
      | _ => .kvlist
  let new := (List.finRange 16).filterMap fun j => if owned j.val then some (areaCmd x j (kind j)) else none
  { s.setEngine { e with
      cw := Vector.ofFn fun i => { val := areaWord x (0x800 + 8 * i.val), ready := 0 }
      eprev := areaGet x 0x880 8
      owners := Vector.ofFn fun j => if !owned j.val then .free else if susp j.val then .suspended (areaCmd x j .kvlist).seq else .running (areaCmd x j .kvlist).seq
      bitmaps := Vector.ofFn fun j => BitVec.ofNat 4096 (areaGet x (0x1300 + 512 * j.val) 512)
      records := new ++ e.records.filter fun c => !c.susp && new.all fun d => decide (d.seq ≠ c.seq) } with tick := s.tick + 16 }

/-- A comb record from its word. -/
def combOfWord (w : Word) : CombRecord :=
  { valid := bitOf w 63, ww := bitOf w 62, slot := BitVec.ofNat 6 (bitsOf w 56 6), samp := bitOf w 55, addr := BitVec.ofNat 16 (bitsOf w 6 16) }

/-- The entries that reload a comb from its record: a WLOAD, and for the resident comb a WFLIP (R245). -/
def reloadEntries (m : Matrix) (r : CombRecord) (flip : Bool) : List MatEntry :=
  let e (w : Word) : MatEntry := { word := w, abv := m.abv, bbv := m.bbv, slot := r.slot, fol := false, reload := true }
  if !r.valid then []
  else e (BitVec.ofNat 64 (2 ^ 62 + r.addr.toNat * 2 ^ 6)) :: (if flip then [e (BitVec.ofNat 64 (2 ^ 63))] else [])

/-- The mat part restored (R245): the comb records are as saved while the combs are Invalid and Empty, until the entries that reload them are dispatched.
No audit sample awaits a tap of them. -/
def restoreMat (x : Nat) (s : State) : State :=
  let w (i : Nat) : Word := areaWord x (0x800 + 8 * i)
  let f := w 8
  let s1 := dropCombs s
  let m := { s1.core.mat with
    cfg := BitVec.ofNat 8 (bitsOf (w 0) 0 8), wsel := bitOf (w 1) 0, slot := BitVec.ofNat 6 (bitsOf (w 4) 0 6), abv := BitVec.ofNat 22 (bitsOf (w 5) 0 22)
    bbv := BitVec.ofNat 22 (bitsOf (w 6) 0 22), swl := BitVec.ofNat 3 (bitsOf (w 7) 0 3)
    mflt := { pend := bitOf f 63, fol := bitOf f 62, more := BitVec.ofNat 6 (bitsOf f 56 6), code := BitVec.ofNat 8 (bitsOf f 48 8)
              reason := BitVec.ofNat 8 (bitsOf f 40 8), kind := BitVec.ofNat 2 (bitsOf f 38 2), seq := BitVec.ofNat 32 (bitsOf f 0 32) } }
  let kept (c : Comb) (w : Word) : Comb := { c with record := { combOfWord w with samp := false } }
  s1.setMat { m with resident := kept m.resident (w 2), filling := kept m.filling (w 3), queue := m.queue ++ reloadEntries m (combOfWord (w 2)) true ++ reloadEntries m (combOfWord (w 3)) false }

/-- The vec part restored. -/
def restoreVec (x : Nat) (s : State) : State :=
  let img (o : Nat) : Timed (BitVec 131072) := { val := BitVec.ofNat 131072 (areaGet x o 16384), ready := 0 }
  let c := s.core
  s.setCore { c with
    vec := { c.vec with
      shape := shapeOfWord (areaWord x 0x800), vq := Vector.ofFn fun i => img (0x1000 + 16384 * i.val), v := Vector.ofFn fun i => img (0x41000 + 16384 * i.val)
      m := Vector.ofFn fun i => { val := if i.val = 0 then BitVec.allOnes 4096 else BitVec.ofNat 4096 (areaGet x (0xA1000 + 512 * i.val) 512), ready := 0 } }
    trees := (areaTrees x).getD c.trees }

/-- A stream restored from an area that is not malformed (R384): its accesses find every earlier store of the stream that it replaces. -/
def restoreContext (t : Sec) (x : Nat) (s : State) : State :=
  let s1 := settleStream t (s.onStr t (restoreStream t x))
  match t with
  | .ctl => s1
  | .copy => restoreCopy x s1
  | .mat => restoreMat x s1
  | .vec => restoreVec x s1

/-! ### Where an area stands -/

/-- The cells of an area in global memory, translated, with the state after the TLBs were filled; or the trap of the first that fails. -/
def areaCells (write : Bool) (va : Nat) : Nat → State → State × Except TrapRec (List Xlat)
  | 0, s => (s, .ok [])
  | n + 1, s =>
    let t := translate s (streamAccess s write) va
    match t.result with
    | .error e => (t.state, .error (translationTrap e.kind va))
    | .ok x => match areaCells write (va + 64) n t.state with
      | (s1, .ok l) => (s1, .ok (x :: l))
      | (s1, .error r) => (s1, .error r)

/-- The area written as whole cells of class k0 with tag 0x0000 at the places of a list (R383). -/
def putCells (x : Nat) : List Xlat → State → State
  | [], s => s
  | p :: rest, s => putCells (x / 2 ^ 512) rest (storedFar 0 p.pa 64 (fun t => writeCellAt t p { bytes := BitVec.ofNat 512 x, tag := 0 }) s)

/-- The area written to scratchpad. -/
def putSpadArea (x : Nat) (a : Nat) : Nat → CoreState → CoreState
  | 0, c => c
  | n + 1, c => putSpadArea (x / 2 ^ 512) (a + 64) n (spadPutCell c a { bytes := BitVec.ofNat 512 x, tag := 0 })

/-- The bytes of a list of cells, or the poison trap of the first that consumes poison; `va` is its address. -/
def readCells (s : State) : Nat → List Xlat → Except TrapRec Nat
  | _, [] => .ok 0
  | va, p :: rest =>
    let r := readCellAt s p
    if r.bad || decide (tagF r.data.tag = 0xFF) then .error (mkTrap cPoison (bit r.bad) va)
    else match readCells s (va + 64) rest with
      | .ok x => .ok (r.data.bytes.toNat + x * 2 ^ 512)
      | .error e => .error e

/-- The bytes of an area in scratchpad, or the poison trap of the first cell that consumes poison. -/
def readSpadArea (c : CoreState) (a n : Nat) : Except TrapRec Nat :=
  match (List.range n).find? fun i => spadPoisoned c (a + 64 * i) with
  | some i => .error (mkTrap cPoison (bit (spadIsBad c (a + 64 * i))) (a + 64 * i))
  | none => .ok (spadNum c a (64 * n))

end Sys2Proof.Machine
end

