-- ==== Sys2Proof/Machine/System.lean ====
section
/-! DEFINITION. The system class (R368-R393): modes, returns, parking, contexts, translation control, and the taking of traps at boundaries. -/

namespace Sys2Proof.Machine

/-- The system-misuse trap (Table 19-9a). -/
def sysMisuse (reason : Nat) : Eff := misuse cSystem reason

/-! ### MODE and TRET (R68, R377) -/

/-- The vector engine and the token-tree unit have performed what was issued to them. -/
def vectorsDone (s : State) : Bool :=
  let clk := max s.core.streams.vec.clk s.ccc
  decide (s.core.vec.busy ≤ clk) && decide (s.core.vec.treeBusy ≤ clk)

/-- Every engine queue of the core is drained (R68). -/
def enginesIdle (s : State) : Bool := s.core.copy.queue.isEmpty && drained s && vectorsDone s

/-- Every result of the stream whose turn it is can be read (R67). -/
def Stream.allReadable (st : Stream) : Bool := decide (st.maxReady ≤ st.clk) && st.flds.isEmpty && !st.awaitsLoad

/-- The meaning of MODE (R68, R378): the nest state becomes one pass with no base registers (R95). -/
def execMode (o : ModeOps) (s : State) : Host.Outcome State Fault Refusal :=
  issue (.mode o) (useModeOps o) (fun s =>
    if !s.cur.allReadable || !enginesIdle s then .hold
    else .done (s.setCur ({ s.cur with mode := o.l }.setBank { s.cur.bank with nest := Nest.reset }))) s

/-- The trap registers of the level that the stream is in. -/
def Stream.levelTrap (st : Stream) : TrapRegs := if st.priv then st.strap else st.trap

/-- The meaning of TRET (R377, R51). -/
def execTret (o : GP) (s : State) : Host.Outcome State Fault Refusal :=
  issue (.tret o) (useGP o) (fun s =>
    let r := s.cur.levelTrap
    if !s.cur.namedLanded then .hold
    else if !r.inh then sysMisuse 0x02
    else if r.epc.toNat % 4 ≠ 0 then misaligned r.epc.toNat
    else .jump (s.setCur s.cur.trapReturn)) s

/-! ### Parking, PREEMPT and HALT (R379-R381) -/

/-- The copy, mat and vec streams of a mask, bits 1 to 3. -/
def maskSecs (a : Word) : List Sec := [Sec.copy, .mat, .vec].filter fun t => bitOf a (secNum t)

/-- A stream stopped at its boundary with its waits withdrawn (R379). -/
def parkStream (s : State) (t : Sec) : State :=
  if (s.str t).parked.isSome then s
  else
    let s1 := withdraw t s
    s1.onStr t fun st => st.parkAt none st.pc

/-- A parked stream starts again at its saved program counter (R379). -/
def restartStream (s : State) (t : Sec) : State := s.onStr t fun st => { st with parked := none }

/-- A stream is asked to park at its own turn: its withdrawal reaches the file as that stream's request (R129, R133). -/
def askPark (s : State) (t : Sec) : State := s.onStr t fun st => { st with parkAsked := true }

/-- Parks streams and goes on with `f`. A stream that awaits a remote semaphore file is asked back first (R136), a trap on its way to a
stream is taken before it parks (R379), and one that waits is withdrawn and parked at its own turn (R133). -/
def parkThen (l : List Sec) (f : State → Eff) (s : State) : Eff :=
  let running := l.filter fun t => (s.str t).parked.isNone
  let remote := running.filter fun t => (remoteOf s t).isSome
  if !remote.isEmpty then .jump (remote.foldl (fun s t => askWithdrawal true t s) s)
  else if running.any fun t => (s.str t).awaitsLoad || !(s.str t).deferred.isEmpty then .hold
  else if running.any fun t => (s.str t).waiting.isSome || (s.str t).parkAsked then .jump (running.foldl askPark s)
  else f (l.foldl parkStream s)

/-- The end of the task by PREEMPT (R380): the ctl stream leaves supervisor mode and holds until the task is quiet. -/
def preemptEnd (s : State) : Eff :=
  let left := s.onStr .ctl fun st => { st with priv := false, strap := { st.strap with inh := false } }
  match endTask left with
  | .jump s1 => .jump s1
  | _ => .jump s

/-- The meaning of PREEMPT (R380). -/
def execPreempt (o : AP) (s : State) : Host.Outcome State Fault Refusal :=
  issue (.preempt o) (useAP o) (fun s =>
    let a := rdS s o.a
    let l := maskSecs a
    if bitOf a 0 || decide (bitsOf a 4 4 ≠ 0) || decide (bitsOf a 10 54 ≠ 0) then sysMisuse 0x01
    else if (bitOf a 8 && bitOf a 9) || (bitOf a 9 && decide (bitsOf a 1 3 ≠ 7)) then sysMisuse 0x07
    else if bitOf a 8 then .done (l.foldl restartStream s)
    else parkThen l (fun s => if bitOf a 9 then preemptEnd s else .done s) s) s

/-- The meaning of HALT (R381). -/
def execHalt (o : AP) (s : State) : Host.Outcome State Fault Refusal :=
  issue (.halt o) (useAP o) (fun s =>
    let a := rdS s o.a
    if bitsOf a 4 60 ≠ 0 then sysMisuse 0x01
    else parkThen (maskSecs a) (fun s => if bitOf a 0 && decide (spend s = 0) then suspend .halt o.s s else .done s) s) s

/-! ### Context areas (R382-R385) -/

/-- The checks of the operands of CTXSAVE and CTXLOAD, in the order of R383, and the wait for the stream's engine and for a blocked bank of the area (R403). -/
def contextOperands (write : Bool) (a b : Word) (f : Sec → Eff) (s : State) : Eff :=
  let t := secOfNum (bitsOf b 0 2)
  let reserved := if bitOf a 63 then bitsOf a 22 41 else bitsOf a 56 7
  if bitsOf b 2 62 ≠ 0 ∨ reserved ≠ 0 then sysMisuse 0x01
  else if bitsOf a 0 6 ≠ 0 then misaligned a.toNat
  else if t ≠ .ctl ∧ (s.str t).parked.isNone then sysMisuse 0x03
  else if bitOf a 63 ∧ spadSize < bitsOf a 0 22 + areaSize t then sysMisuse 0x05
  else
    let ready := match t with
      | .ctl => true
      | .copy => s.core.copy.queue.isEmpty
      | .mat => drained s
      | .vec => vectorsDone s
    if ready && !(!bitOf a 63 && spanHeld s (streamAccess s write) (bitsOf a 0 56) (areaSize t)) then f t else .hold

/-- The meaning of CTXSAVE (R383). It waits for what it wrote in another module. -/
def execCtxsave (o : ABP) (s : State) : Host.Outcome State Fault Refusal :=
  issue (.ctxsave o) (useABP o) (fun s =>
    let a := rdS s o.a
    contextOperands true a (rdS s o.b) (fun t =>
      let x := contextOf t s
      if bitOf a 63 then
        .done (storedBy s.turn 0 (bitsOf a 0 22) (areaSize t) (putSpadArea x (bitsOf a 0 22) (areaSize t / 64)) s)
      else match areaCells true (bitsOf a 0 56) (areaSize t / 64) s with
        | (s1, .error r) => .trapIn s1 r
        | (s1, .ok l) =>
          let who : Requester := .context s.core.num
          let s2 := tagSent 0 who (putCells x l) s1
          if s2.awaits who then suspend .saved o.s s2 else .done s2) s) s

/-- The meaning of CTXLOAD (R384): nothing changes unless the whole area has been read and checked. -/
def execCtxload (o : ABP) (s : State) : Host.Outcome State Fault Refusal :=
  issue (.ctxload o) (useABP o) (fun s =>
    let a := rdS s o.a
    let restore (t : Sec) (x : Nat) (s1 : State) : Eff := if areaMalformed t x then sysMisuse 0x04 else .done (restoreContext t x s1)
    contextOperands false a (rdS s o.b) (fun t =>
      if bitOf a 63 then
        match readSpadArea (s.viewed 0) (bitsOf a 0 22) (areaSize t / 64) with
        | .error r => loadFails r.addr.toNat r s
        | .ok x => restore t x (sawScratch 0 (bitsOf a 0 22) (areaSize t) s)
      else match areaCells false (bitsOf a 0 56) (areaSize t / 64) s with
        | (s1, .error r) => .trapIn s1 r
        | (s1, .ok l) =>
          let s2 := l.foldl (fun s x => countCell x s) s1
          match readCells (s1.farViewed 0) (bitsOf a 0 56) l with
          | .error r => .trapIn s2 r
          | .ok x => restore t x (l.foldl (fun s y => sawFar 0 y.pa 64 s) s2)) s) s

/-- The resident groups of a bank below its depth: (physical group, logical group). -/
def flushGroups (b : Bank) : List (Nat × Nat) :=
  b.holds.toList.zipIdx.filterMap fun p => match p.1 with
    | some l => if l < b.depth then some (p.2, l) else none
    | none => none

/-- The meaning of WFLUSH (R385). -/
def execWflush (o : AP) (s : State) : Host.Outcome State Fault Refusal :=
  issue (.wflush o) (useAP o) (fun s =>
    let a := rdS s o.a
    let t := secOfNum (bitsOf a 0 2)
    let st := s.str t
    let l := flushGroups st.job
    let slot (g : Nat) : Nat := st.spb.toNat * 64 + 64 * g
    if bitsOf a 2 62 ≠ 0 then sysMisuse 0x01
    else if t ≠ .ctl ∧ st.parked.isNone then sysMisuse 0x03
    else match l.find? fun p => decide (st.spl.toNat * 64 < slot p.2 + 64) with
      | some p => .trap (mkTrap cSpill 1 (slot p.2))
      | none =>
        let s1 := l.foldl (fun s p => settleStores t (slot p.2) 64
          (s.setCore (spadPutTag (spadPutBytes s.core (slot p.2) (groupBytes st.job p.1)) (slot p.2) 0))) s
        let holds := st.job.holds.map fun h => if h.any fun g => decide (g < st.job.depth) then none else h
        .done (s1.onStr t fun st => { st with job := { st.job with holds := holds } })) s

/-! ### The semaphore map and translation (R386-R392) -/

/-- The meaning of SEMMAP (R392). -/
def execSemmap (o : ABP) (s : State) : Host.Outcome State Fault Refusal :=
  issue (.semmap o) (useABP o) (fun s =>
    let a := rdS s o.a
    let b := rdS s o.b
    if bitsOf a 8 56 ≠ 0 then sysMisuse 0x01
    else if semEntryMalformed b then sysMisuse 0x06
    else .done (s.setSync { s.core.sync with map := s.core.sync.map.set (Fin.ofNat 256 (bitsOf a 0 8)) (semEntryKept b) })) s

/-- A cached entry that TLBINV removes: by page, by address space, or any (R389). -/
def invalidates (kind : Nat) (asid : BitVec 16) (va : Nat) (e : TlbEntry) : Bool :=
  match kind with
  | 0 => e.maps asid va
  | 1 => decide (e.asid = asid)
  | _ => true

/-- A cached table entry that TLBINV removes: by a page under it, by address space, or any (R388, R389). -/
def invalidatesWalk (kind : Nat) (asid : BitVec 16) (va : Nat) (e : WalkEntry) : Bool :=
  match kind with
  | 0 => decide (e.asid = asid) && decide (va / levelSpan e.level * levelSpan e.level = e.va)
  | 1 => decide (e.asid = asid)
  | _ => true

/-- The TLBs and walk caches in reach without the entries that match: the core's and its die's, or those of all cores and both dies. -/
def dropEntries (everywhere : Bool) (gone : TlbEntry → Bool) (goneWalk : WalkEntry → Bool) (s : State) : State :=
  let keep (l : List TlbEntry) : List TlbEntry := l.filter fun e => !gone e
  let keepWalk (l : List WalkEntry) : List WalkEntry := l.filter fun e => !goneWalk e
  if everywhere then
    { mapCores (fun c => { c with l1 := keep c.l1 }) s with tlb0 := keep s.tlb0, tlb1 := keep s.tlb1, walk0 := keepWalk s.walk0, walk1 := keepWalk s.walk1 }
  else
    let s1 := s.setCore { s.core with l1 := keep s.core.l1 }
    if dieOf s.core.num = 0 then { s1 with tlb0 := keep s1.tlb0, walk0 := keepWalk s1.walk0 } else { s1 with tlb1 := keep s1.tlb1, walk1 := keepWalk s1.walk1 }

/-- An access that core c translated has not performed yet: an FLD without its data, an FST without its acknowledgement, or a write of its copy engine to
another module (R389). -/
def stillTranslating (s : State) (c : CoreState) : Bool :=
  c.streams.ctl.flds.any (fun f => !f.arrived) || !c.farStores.isEmpty || s.awaited.any fun p => match p.2 with
    | .command n _ _ => decide (n = c.num)
    | _ => false

/-- The meaning of TLBINV (R389): it waits as FENCE.sys kall waits, and for the accesses of every agent in reach; every walk that a hint began has ended by
then. -/
def execTlbinv (o : ABP) (s : State) : Host.Outcome State Fault Refusal :=
  issue (.tlbinv o) (useABP o) (fun s =>
    let b := rdS s o.b
    let kind := bitsOf b 0 2
    if kind = 3 ∨ 2 ≤ bitsOf b 2 2 ∨ bitsOf b 4 12 ≠ 0 ∨ bitsOf b 32 32 ≠ 0 then sysMisuse 0x08
    else if farHeld (BitVec.allOnes 16) s || (if bitsOf b 2 2 = 1 then s.core :: s.others else [s.core]).any (stillTranslating s) then .hold
    else
      let asid := BitVec.ofNat 16 (bitsOf b 16 16)
      let va := (rdS s o.a).toNat
      .done (dropEntries (decide (bitsOf b 2 2 = 1)) (invalidates kind asid va) (invalidatesWalk kind asid va) s)) s

/-- The meaning of TLBPROBE (R390). -/
def execTlbprobe (o : DABP) (s : State) : Host.Outcome State Fault Refusal :=
  issue (.tlbprobe o) (useDABP o) (fun s =>
    let a := (rdS s o.a).toNat
    let b := rdS s o.b
    if bitsOf b 16 48 ≠ 0 then sysMisuse 0x01
    else
      let v : Word := if 2 ^ 56 ≤ a then 0 else match cachedLeaf s (BitVec.ofNat 16 (bitsOf b 0 16)) a with
        | some e => e.pte
        | none => 0
      .done (wrD o.d v 16 s)) s

/-- The end of a walk that a hint began: address `a`, kind `b` (R391). -/
def walkEndEvent (core a kind : Nat) : Event :=
  { i := .translationWalkEnd, arg := { core := core, sec := .ctl, a := a, b := kind, data := .none } }

/-- The meaning of HINT (R391): kinds 1 and 2 begin a walk; every other kind does nothing. -/
def execHint (o : ABP) (s : State) : Host.Outcome State Fault Refusal :=
  issue (.hint o) (useABP o) (fun s =>
    let kind := bitsOf (rdS s o.b) 0 4
    if kind = 1 ∨ kind = 2 then .done (s.raise [walkEndEvent s.core.num (rdS s o.a).toNat kind]) else .done s) s

/-- A walk ends for the core in focus under its job's tables: a valid leaf fills the die TLB, and for kind 2 the core's L1 as well (R388, R391). -/
def endWalk (va kind : Nat) (s : State) : State :=
  if 2 ^ 56 ≤ va then s
  else
    let w := walkTrace s (dieOf s.core.num) s.core.asid va 3 (bitsOf s.core.ptroot 14 50 * 2 ^ 14)
    let s := walked (dieOf s.core.num) w s
    match w.result with
    | .fails _ _ => s
    | .leaf level pte =>
      let e : TlbEntry := { asid := s.core.asid, va := va / pageSize level * pageSize level, level := level, pte := pte }
      if kind = 2 then tlbFill s e else fillDie (dieOf s.core.num) s e

/-- The meaning of TRANSLATION_WALK_END (R388). -/
def execTranslationWalkEnd (s : State) : Host.Outcome State Fault Refusal :=
  let va := s.arg.a
  let kind := s.arg.b
  atCore s.arg.core (endWalk va kind) s

/-! ### Traps at boundaries (R373-R376) -/

/-- A stream may stand at a boundary: it has started, its core runs, and no load's trap is on its way (R257). -/
def isStarted (s : State) (t : Sec) : Bool :=
  let st := s.str t
  !s.core.stop && st.parked.isNone && s.core.copy.frozenSince.isNone && !st.awaitsLoad

/-- A stream is at a boundary at which a trap can be taken: every far load has landed (R69). -/
def atBoundary (s : State) (t : Sec) : Bool := isStarted s t && (s.str t).flds.isEmpty

/-- The trap of a record can be taken: at a boundary, or, for a missed promise, while the late far load that it reports is still to land (R104, R170; log
entry 20). -/
def canTake (s : State) (t : Sec) (r : TrapRec) : Bool :=
  atBoundary s t || (isStarted s t && decide (r.cause = cMissed) && (s.str t).flds.all (·.late))

/-- A trap of stream `t` at its boundary with `taken` as its effect; the answer of a remote semaphore file is awaited first (R136). -/
def whenAnswered (t : Sec) (taken : State → State) (s : State) : State :=
  if (remoteOf s t).isSome then askWithdrawal false t s else taken s

/-- The matrix fault that a trap record is of (R238). -/
def isMatrixRec (r : TrapRec) : Bool := decide (r.cause = cEngine) && bitOf r.info 8

/-- The oldest trap set aside for a stream is taken (R155, R170, R373). -/
def takeDeferred (t : Sec) (s : State) : State :=
  match (s.str t).deferred with
  | [] => s
  | r :: rest =>
    if !canTake s t r.record then s
    else whenAnswered t (fun s =>
      let s1 := s.onStr t fun st => { st with deferred := rest }
      let s2 := if isMatrixRec r.record then clearMflt s1 else s1
      takeTrap t r.record (r.pc.getD (s2.str t).pc) s2) s

/-- The meaning of TRAP_ENTRY (R373): the oldest trap set aside for the core's stream is taken. -/
def execTrapEntry (s : State) : Host.Outcome State Fault Refusal :=
  let t := s.arg.sec
  atCore s.arg.core (takeDeferred t) s

/-- The record of a parked stream for the ctl stream (Table 19-2). -/
def parkedRec (s : State) (t : Sec) : TrapRec := mkTrap cParked (secNum t + (s.str t).park.cause % 256 * 2 ^ 8) (s.str t).pc.toNat

/-- The oldest stream whose park has not been delivered (R376). -/
def parkedFirst (s : State) : Option Sec := [Sec.copy, .mat, .vec].find? fun t => s.core.pendParked.get t

/-- An audit divergence that a job handler will take is held while its handler is active (R375). -/
def divergenceHeld (s : State) : Bool := decide (s.core.audit.owner = 0) && (s.str .ctl).trap.inh

/-- The next asynchronous cause in the order of R375: its record, and the state in which it no longer pends. -/
def nextAsync (s : State) : Option (TrapRec × State) :=
  let c := s.core
  match c.pendWatchdog with
  | some w => some (mkTrap cWatchdog 0 w.toNat, s.setCore { c with pendWatchdog := none })
  | none => match c.audit.replicaPend with
    | some r => some (r, s.setAudit { c.audit with replicaPend := none })
    | none => match parkedFirst s with
      | some t => some (parkedRec s t, s.setCore { c with pendParked := c.pendParked.set t false })
      | none => match foragerPending s c.num with
        | some w => some (foragerRec s w, foragerDelivered w s)
        | none =>
          if c.audit.pend && c.audit.owner != 2 && !divergenceHeld s then
            some (mkTrap cDivergence c.audit.records.length 0, s.setAudit { c.audit with pend := false })
          else if c.pendPreempt then some (mkTrap cPreempt 0 0, s.setCore { c with pendPreempt := false })
          else match c.pendHost with
            | some v => some (mkTrap cHost v.toNat 0, s.setCore { c with pendHost := none })
            | none => none

/-- Asynchronous traps can be taken by the ctl stream: it is in job mode at a boundary with no synchronous trap before it (R375). -/
def canDeliver (s : State) : Bool := !(s.str .ctl).priv && (s.str .ctl).deferred.isEmpty && atBoundary s .ctl

/-- An asynchronous cause is taken at the boundary of the ctl stream (R375); under owner 2 a divergence that pends goes to the host
(R310). A HALT ends when a cause pends (R381). -/
def deliverAsync (s : State) : State :=
  if decide (waitsOn s .ctl = some .halt) && decide (spend s ≠ 0) then resume .ctl none s
  else if s.core.audit.pend && s.core.audit.owner == 2 then raiseMsix (3 + s.core.num) (s.setAudit { s.core.audit with pend := false })
  else if !canDeliver s then s
  else match nextAsync s with
    | none => s
    | some _ => whenAnswered .ctl (fun s => match nextAsync s with
      | some (r, s1) => takeTrap .ctl r (s1.str .ctl).pc s1
      | none => s) s

/-- The meaning of ASYNC_TRAP_DELIVERY (R375). -/
def execAsyncTrapDelivery (s : State) : Host.Outcome State Fault Refusal := atCore s.arg.core deliverAsync s

/-- The watchdog's deadline has come: it pends, and WDOG becomes 0 (R376). -/
def expireWatchdog (s : State) : State :=
  let c := s.core
  if c.wdog ≠ 0 ∧ c.wdog.toNat ≤ s.now then s.setCore { c with pendWatchdog := some (c.pendWatchdog.getD c.wdog), wdog := 0 } else s

/-- The meaning of WATCHDOG_EXPIRY (R376). -/
def execWatchdogExpiry (s : State) : Host.Outcome State Fault Refusal := atCore s.arg.core expireWatchdog s

/-- The host rings the core's doorbell with a value (R376). -/
def ringDoorbell (v : Nat) (s : State) : State :=
  if s.core.dbe then s.setCore { s.core with pendHost := some (BitVec.ofNat 32 v) } else s

/-- The meaning of DOORBELL (R376): value `a` for the core. -/
def execDoorbell (s : State) : Host.Outcome State Fault Refusal :=
  let v := s.arg.a
  atCore s.arg.core (ringDoorbell v) s

end Sys2Proof.Machine
end

