-- ==== Sys2Proof/Machine/Host.lean ====
section
/-! DEFINITION. The host port: reads and writes of the part's memory, link changes, the host register block, the submission
windows, MSI-X and the event ring (R405-R408, R414, R416, R417). -/

namespace Sys2Proof.Machine

/-- The host register block replaced. -/
def State.setHost (s : State) (h : HostBlock) : State := { s with host := h }

/-- A register with the n bits from `lo` replaced. -/
def putBits {w : Nat} (x : BitVec w) (lo n v : Nat) : BitVec w :=
  BitVec.ofNat w (x.toNat - bitsOf x lo n * 2 ^ lo + v % 2 ^ n * 2 ^ lo)

/-! ### Host addresses (R405) -/

/-- The global physical address that a host physical address in the HDM range reaches. -/
def hostPa (s : State) (h : Nat) : Nat := s.ownModule * 2 ^ 52 + hostToLocal s h

/-- A host physical address lies in the range of the HDM decoder. -/
def inHdm (s : State) (h : Nat) : Bool := (hdmLocal s h).isSome

/-- A host read of a line of the part's memory, as the host receives it: data-poison (tag 0x00FF, free bytes) where the address is unmapped, at or
above STCAP, or holds an uncorrectable unit, which then counts in its tier (R395, R405). -/
def hostRead (h : Nat) (s : State) : State :=
  let h := h / 64 * 64
  let pa := hostPa s h
  if !inHdm s h then s
  else
    let lost : CellData := { bytes := Config.freeCell s.tick h, tag := poisonTag }
    if !routable s pa then { s with hostReads := lost :: s.hostReads, tick := s.tick + 1 }
    else countPhysical pa 64 (if memRangeBad s pa 64 then { s with hostReads := lost :: s.hostReads, tick := s.tick + 1 }
      else { s with hostReads := { bytes := BitVec.ofNat 512 (memNum s pa 64), tag := 0 } :: s.hostReads })

/-- One 32-byte half of a host write: whole, or byte by byte under its mask. -/
def putAtom (l k : Nat) (c : BitVec 512) (mask : Nat) (s : State) : State :=
  let bs := bytesOfNum 32 (bitsOf c (256 * k) 256)
  if fld mask (32 * k) 32 = 2 ^ 32 - 1 then putLocal s (l + 32 * k) bs
  else ((List.range 32).zip bs).foldl (fun s p => if fld mask (32 * k + p.1) 1 = 1 then putLocal s (l + 32 * k + p.1) [p.2] else s) s

/-- A host write of the bytes of a line that `mask` selects, into the part's memory through the decoder or into host memory. A write to an
unmapped address of the decoder's range is discarded (R405); a write of the stage before the lock is remembered (R401). Tags do not change. -/
def hostWrite (h : Nat) (c : BitVec 512) (mask : Nat) (s : State) : State :=
  let h := h / 64 * 64
  let l := hostToLocal s h
  if inHdm s h && !routableLocal s l then s
  else
    let s1 := putAtom l 1 c mask (putAtom l 0 c mask s)
    if !s.host.locked && decide (l < s.tiers.stcap) then s1.setHost { s1.host with earlyWrites := (l / 64, BitVec.ofNat 64 mask) :: s1.host.earlyWrites }
    else s1

/-- The line of a host access lies in a bank that is blocked (R403). -/
def hostHeld (s : State) (h : Nat) : Bool := inHdm s (h / 64 * 64) && bankHeld s (hostPa s (h / 64 * 64)) 64

/-- An access of the host to the part's memory waits for a blocked bank, or behind one that does: accesses perform in their order of arrival (R127, R403). -/
def hostWaits (s : State) : Bool :=
  decide (s.arg.core = 0) && (hostHeld s s.arg.a || s.pending.any fun e => decide (e.i = .hostMemWrite) || (decide (e.i = .hostMemRead) && decide (e.arg.b = 0)))

/-- The host access in hand put among the pending events, marked (`core` 1) as one that has waited for its turn. -/
def tryLater (i : Instr) (s : State) : State := s.raise [{ i := i, arg := { s.arg with core := 1 } }]

/-- The meaning of HOST_MEM_WRITE (R405): the host writes the bytes of line `a` that mask `b` selects, from cell `data`. -/
def execHostMemWrite (s : State) : Host.Outcome State Fault Refusal :=
  match s.arg.data with
  | .cell c => .next (if hostWaits s then tryLater .hostMemWrite s else hostWrite s.arg.a c.bytes s.arg.b s)
  | _ => .fault .malformedEvent

/-! ### Link changes (R396, R405, R406) -/

/-- Link 0 is the host port and 1 + p is pool port p. -/
def linkChange (n : Nat) (up : Bool) (w : Word) (s : State) : State :=
  if n = 0 then s.setHost { s.host with hostUp := up, linkst := BitVec.ofNat 64 (bitsOf w 0 5 + bitsOf w 8 4 * 2 ^ 8) }
  else s.setHost { s.host with poolUp := putBits s.host.poolUp (n - 1) 1 (bit up) }

/-- The meaning of LINK_STATE_CHANGE (R396): link `a` goes up (b = 1) or down (b = 0); `data` is LINKST of the host link. -/
def execLinkStateChange (s : State) : Host.Outcome State Fault Refusal :=
  if 8 < s.arg.a then .fault .noSuchAgent
  else match s.arg.data with
    | .word w => .next (linkChange s.arg.a (decide (s.arg.b = 1)) w s)
    | _ => .fault .malformedEvent

/-! ### Submission (R408) -/

/-- A write to a submission window: a packet, or a discarded write that counts in DROP. -/
def submit (q : Nat) (p : BitVec 512) (partly : Bool) (s : State) : State :=
  let x := launchQueue s q
  if partly || !x.en || decide (256 ≤ x.packets.length) then
    setLaunchQueue q { x with drop := if x.drop = BitVec.allOnes 8 then x.drop else x.drop + 1 } s
  else enqueue q p s

/-- The meaning of LQWIN (R408): the host writes packet `data` to the window of queue `a`; b = 1 for a partial write. -/
def execLqwin (s : State) : Host.Outcome State Fault Refusal :=
  if 64 ≤ s.arg.a then .fault .noSuchAgent
  else match s.arg.data with
    | .cell c => .next (submit s.arg.a c.bytes (decide (s.arg.b = 1)) s)
    | _ => .fault .malformedEvent

/-! ### The register block (R407, Tables 21-2 to 21-4, 21-10) -/

/-- An event without operands. -/
def plainEvent (i : Instr) : Event := { i := i, arg := { core := 0, sec := .ctl, a := 0, b := 0, data := .none } }

/-- The four bytes of LQCFG at offset 0 or 4 of a queue's register: EN (once LOCKED is set) and DEVOK, or TENANT. -/
def writeLqcfg (q : Nat) (high : Bool) (v : Nat) (s : State) : State :=
  let x := launchQueue s q
  setLaunchQueue q (if high then { x with tenant := BitVec.ofNat 16 (v / 2 ^ 16) }
    else { x with en := s.host.locked && decide (v % 2 = 1), devok := decide (v / 2 % 2 = 1) }) s

/-- Four bytes written to a register that freezes at the lock. -/
def writeFrozen (o v : Nat) (h : HostBlock) : HostBlock :=
  if 0x20 ≤ o ∧ o < 0x40 then { h with accept := putBits h.accept (8 * (o - 0x20)) 32 v }
  else if o = 0x80 ∨ o = 0x84 then { h with tentab := putBits h.tentab (8 * (o - 0x80)) 32 v }
  else if o = 0x88 then { h with domid := BitVec.ofNat 12 v }
  else if 0x2000 ≤ o ∧ o < 0x2200 then
    { h with pdec := h.pdec.set (Fin.ofNat 128 ((o - 0x2000) / 4)) (BitVec.ofNat 32 (v % 2 ^ 28 + v / 2 ^ 31 % 2 * 2 ^ 31)) }
  else if 0x2200 ≤ o ∧ o < 0x2400 then { h with pdsz := h.pdsz.set (Fin.ofNat 128 ((o - 0x2200) / 4)) (BitVec.ofNat 32 (v % 2 ^ 28)) }
  else h

/-- Four bytes written to a mailbox register, which is ignored while BUSY is set (R412). -/
def writeMailbox (o v : Nat) (h : HostBlock) : HostBlock :=
  if o = 0x300 then { h with mbcmd := BitVec.ofNat 16 v }
  else if o = 0x308 ∨ o = 0x30C then { h with mbarg0 := putBits h.mbarg0 (8 * (o - 0x308)) 32 v }
  else if o = 0x310 ∨ o = 0x314 then { h with mbarg1 := putBits h.mbarg1 (8 * (o - 0x310)) 32 v }
  else if 0x1000 ≤ o ∧ o < 0x2000 then { h with mbwin := putBits h.mbwin (8 * (o - 0x1000)) 32 v }
  else h

/-- Four bytes written to a register that is always writable. -/
def writeOpen (o v : Nat) (h : HostBlock) : HostBlock :=
  if o = 0x100 ∨ o = 0x104 then { h with bootaddr := putBits h.bootaddr (8 * (o - 0x100)) 32 v }
  else if o = 0x108 then { h with bootlen := BitVec.ofNat 32 v }
  else if 0x4000 ≤ o ∧ o < 0x4C00 ∧ o % 16 = 0 then
    { h with srreg := h.srreg.set (Fin.ofNat 192 ((o - 0x4000) / 16)) (BitVec.ofNat 27 (v % 2 ^ 10 + v / 2 ^ 16 % 2 ^ 11 * 2 ^ 16)) }
  else h

/-- Four bytes written at a BAR0 offset to a register without behaviour of its own. Read-only registers and reserved fields ignore the write. -/
def writeDword (o v : Nat) (s : State) : State :=
  if 0x11000 ≤ o ∧ o < 0x11200 then writeLqcfg ((o - 0x11000) / 8) (decide (o % 8 = 4)) v s
  else
    let h := if s.host.locked then s.host else writeFrozen o v s.host
    let h := if h.busy then h else writeMailbox o v h
    s.setHost (writeOpen o v h)

/-- A write of 1 to MBGO takes the command (R412, step 2). -/
def takeCommand (s : State) : State :=
  if s.host.busy then s else s.setHost { s.host with busy := true, mbresult := none }

/-- Events that perform before every other one that waits: writes of the host perform in their order of arrival (R407). -/
def State.raiseFirst (s : State) (es : List Event) : State := { s with pending := es ++ s.pending }

/-- A write of a register that acts when written: FCTL, BOOTGO, MBGO, the doorbells, and a submission window, of whose 64 bytes it is a part (R408);
`none` for every other offset. -/
def writeAction (o v : Nat) (s : State) : Option State :=
  if o = 0x40 then some (if v % 2 = 1 then s.raiseFirst [plainEvent .go] else s)
  else if o = 0x110 then some (if v = 1 then s.raiseFirst [plainEvent .bootgo] else s)
  else if o = 0x318 then some (if v = 1 then takeCommand s else s)
  else if 0x4000 ≤ o ∧ o < 0x4C00 ∧ o % 16 = 8 then
    some (s.raiseFirst [{ i := .doorbell, arg := { core := (o - 0x4000) / 16, sec := .ctl, a := v % 2 ^ 32, b := 0, data := .none } }])
  else if 0x10000 ≤ o ∧ o < 0x11000 then some (submit ((o - 0x10000) / 64) 0 true s)
  else none

/-- A BAR0 write of 8 or 4 bytes. -/
def writeBar (o v : Nat) (wide : Bool) (s : State) : State :=
  match writeAction o (if wide then v else v % 2 ^ 32) s with
  | some t => t
  | none => if wide then writeDword (o + 4) (v / 2 ^ 32) (writeDword o (v % 2 ^ 32) s) else writeDword o (v % 2 ^ 32) s

/-- The meaning of REGISTER_WRITE (R407): `data` written at BAR0 offset `a` in 8 bytes (b = 0) or 4 (b = 1); b = 2 programs the base of the
HDM decoder (R405), and b = 3 sets or clears the MSI-X mask bit of vector `a`. -/
def execRegisterWrite (s : State) : Host.Outcome State Fault Refusal :=
  match s.arg.data with
  | .word v =>
    .next (match s.arg.b with
      | 0 => writeBar (s.arg.a / 8 * 8) v.toNat true s
      | 1 => writeBar (s.arg.a / 4 * 4) v.toNat false s
      | 2 => s.setHost { s.host with hdmBase := v.toNat, hdmOn := true }
      | _ => s.setHost { s.host with msixMask := putBits s.host.msixMask (s.arg.a % 256) 1 v.toNat })
  | _ => .fault .malformedEvent

/-- FCTL as it reads (Table 21-3). -/
def fctlWord (h : HostBlock) : Nat := bit h.fail * 4 + bit h.locked * 2

/-- MBSTAT as it reads (Table 21-10). -/
def mbstatWord (h : HostBlock) : Nat := bit h.busy * 2 ^ 63 + h.mblen.toNat * 2 ^ 16 + h.mbstatus.toNat

/-- LQCFG as it reads (Table 21-4). -/
def lqcfgWord (x : LaunchQueue) : Nat :=
  bit x.en + bit x.devok * 2 + min x.packets.length 255 * 2 ^ 16 + x.drop.toNat * 2 ^ 32 + x.tenant.toNat * 2 ^ 48

/-- STCAPH as it reads: 0 until firmware has published what self-test found, then STCAP (Table 21-2, log entry 46). -/
def stcaphWord (s : State) : Nat := if s.host.boot = .negotiate ∨ s.host.boot = .ready then s.tiers.stcap else 0

/-- The four bytes at a BAR0 offset as the host reads them (Table 21-2): a write-only register and a reserved offset read 0. -/
def barDword (s : State) (o : Nat) : Nat :=
  let h := s.host
  let part (base : Nat) (v : Nat) : Nat := fld v (8 * (o - base)) 32
  if o < 0x20 then part 0 h.offer.toNat
  else if o < 0x40 then part 0x20 h.accept.toNat
  else if o < 0x48 then part 0x40 (fctlWord h)
  else if o < 0x50 then part 0x48 h.counts.toNat
  else if o < 0x58 then part 0x50 (stcaphWord s)
  else if o < 0x60 then 0
  else if o < 0x78 then part 0x60 h.present.toNat
  else if o < 0x80 then 0
  else if o < 0x88 then part 0x80 h.tentab.toNat
  else if o < 0x90 then part 0x88 h.domid.toNat
  else if o < 0x98 then part 0x90 h.linkst.toNat
  else if o < 0x100 then 0
  else if o < 0x108 then part 0x100 h.bootaddr.toNat
  else if o < 0x110 then part 0x108 h.bootlen.toNat
  else if o < 0x118 then 0
  else if o < 0x120 then part 0x118 h.bootst.toNat
  else if o < 0x200 then 0
  else if o < 0x220 then part 0x200 h.meas.toNat
  else if o < 0x240 then part 0x220 h.idpub.toNat
  else if o < 0x300 then 0
  else if o < 0x308 then part 0x300 h.mbcmd.toNat
  else if o < 0x310 then part 0x308 h.mbarg0.toNat
  else if o < 0x318 then part 0x310 h.mbarg1.toNat
  else if o < 0x320 then 0
  else if o < 0x328 then part 0x320 (mbstatWord h)
  else if o < 0x1000 then 0
  else if o < 0x2000 then part 0x1000 h.mbwin.toNat
  else if o < 0x2200 then (h.pdec[Fin.ofNat 128 ((o - 0x2000) / 4)]).toNat
  else if o < 0x2400 then (h.pdsz[Fin.ofNat 128 ((o - 0x2200) / 4)]).toNat
  else if o < 0x4000 then 0
  else if o < 0x4C00 then (if o % 16 = 0 then (h.srreg[Fin.ofNat 192 ((o - 0x4000) / 16)]).toNat else 0)
  else if 0x11000 ≤ o ∧ o < 0x11200 then fld (lqcfgWord (launchQueue s ((o - 0x11000) / 8))) (8 * (o % 8)) 32
  else 0

/-- A BAR0 read of 8 or 4 bytes, answered to the host (R407). -/
def readBar (o : Nat) (wide : Bool) (s : State) : State :=
  let v := if wide then barDword s (o / 8 * 8) + 2 ^ 32 * barDword s (o / 8 * 8 + 4) else barDword s (o / 4 * 4)
  { s with barReads := BitVec.ofNat 64 v :: s.barReads }

/-- The meaning of HOST_MEM_READ (R405, R407): the host reads the line at host physical address `a` (b = 0), or 8 (b = 1) or 4 bytes (b = 2) of BAR0 at
offset `a`. -/
def execHostMemRead (s : State) : Host.Outcome State Fault Refusal :=
  .next (match s.arg.b with
    | 0 => if hostWaits s then tryLater .hostMemRead s else hostRead s.arg.a s
    | 1 => readBar s.arg.a true s
    | _ => readBar s.arg.a false s)

/-! ### MSI-X (R310, R407) -/

/-- The host unmasks a vector; a held message is then sent. -/
def unmask (v : Nat) (s : State) : State :=
  let m : BitVec 256 := BitVec.ofNat 256 (2 ^ (v % 256))
  let s1 := s.setHost { s.host with msixMask := s.host.msixMask &&& ~~~m, msixPend := s.host.msixPend &&& ~~~m }
  if s.host.msixPend.getLsbD (v % 256) then raiseMsix (v % 256) s1 else s1

/-- The meaning of MSIX_VECTOR_UNMASK (R310): vector `a`. -/
def execMsixVectorUnmask (s : State) : Host.Outcome State Fault Refusal := .next (unmask s.arg.a s)

/-! ### Feature negotiation (R416, R417) -/

/-- The host's writes of a stage line before the lock become undefined at the lock under FEAT.HKSPARE (R401). -/
def forgetLine (p : Nat × BitVec 64) (s : State) : State :=
  (List.range 64).foldl (fun s i =>
    if p.2.getLsbD i then { s with mem := s.mem.put (p.1 * 64 + i) (Config.freeByte s.tick (p.1 * 64 + i)) } else s) s

/-- FEAT.HKSPARE accepted at the lock: STCAP falls to 126 GiB and the bytes written before are undefined (R401). -/
def reserveBanks (s : State) : State :=
  let s1 := s.host.earlyWrites.foldl (fun s p => forgetLine p s) s
  { s1 with tiers := { s1.tiers with stcap := 0x1F80000000 }, tick := s1.tick + 1 }

/-- GO (R417). -/
def lockFeatures (s : State) : State :=
  let h := s.host
  if h.locked then s
  else if h.accept &&& ~~~h.offer ≠ 0 ∨ !bitOf h.accept 0 then s.setHost { h with fail := true, accept := 0 }
  else
    let s1 := s.setHost { h with fail := false, locked := true, bootst := 8, boot := .ready, earlyWrites := [] }
    if bitOf h.accept 224 then (reserveBanks s).setHost s1.host else s1

/-- The meaning of GO (R417). -/
def execGo (s : State) : Host.Outcome State Fault Refusal := .next (lockFeatures s)

/-! ### The event ring (R414) -/

/-- The MSI-X vector of a record's type. -/
def eventVector (type : Nat) : Nat := if type = 2 then 1 else if type = 3 ∨ type = 7 then 2 else if type = 6 then 195 else 0

/-- A repair that goes to the sealed history (R411). -/
def isRepair (type : Nat) : Bool := [1, 3, 5, 7].contains type

/-- A record in the layout of Table 21-14. -/
def recordBytes (e : EventRec) (lost : Bool) (seq : BitVec 32) (cycle : Nat) : List Byte :=
  bytesOfNum 64 (e.type % 2 ^ 16 + bit lost * 2 ^ 16 + bit e.cont * 2 ^ 17 + seq.toNat * 2 ^ 32 + cycle % 2 ^ 64 * 2 ^ 64 + e.payload.toNat * 2 ^ 128)

/-- The ring can take a record now: CONS is read, and PROD - CONS is below the size. -/
def ringRoom (s : State) (r : EventRing) : Bool :=
  match hostBytes s (r.desc + 0x18) 8 with
  | none => false
  | some bs => decide ((r.prod - BitVec.ofNat 64 (numOfBytes bs)).toNat < 2 ^ r.log2)

/-- One waiting event written to the ring: the record, then PROD, then the vector. -/
def writeRecord (r : EventRing) (e : EventRec × BitVec 32 × Nat) (rest : List (EventRec × BitVec 32 × Nat)) (s : State) : State :=
  let s1 := hostPut (r.base + 64 * (r.prod.toNat % 2 ^ r.log2)) (recordBytes e.1 s.host.evLost e.2.1 e.2.2) s
  let s2 := hostPut (r.desc + 0x10) (bytesOfNum 8 (r.prod + 1).toNat) s1
  raiseMsix (eventVector e.1.type) (s2.setHost { s2.host with evring := some { r with prod := r.prod + 1 }, evWaiting := rest, evLost := false })

/-- Waiting events are written, in order, while the ring has room. -/
def drainEvents : Nat → State → State
  | 0, s => s
  | fuel + 1, s =>
    match s.host.evring, s.host.evWaiting with
    | some r, e :: rest =>
      let t := countReach (r.desc + 0x18) 8 s
      if ringRoom s r then drainEvents fuel (writeRecord r e rest t) else t
    | _, _ => s

/-- A firmware event found now: up to 256 wait, and a further one is dropped. -/
def findEvent (e : EventRec) (s : State) : State :=
  let h := s.host
  let h1 : HostBlock := { h with evSeq := h.evSeq + 1, repairs := if isRepair e.type then e :: h.repairs else h.repairs
                                 map := if isRepair e.type then Config.mapAfter h.map e else h.map }
  s.setHost (if 256 ≤ h.evWaiting.length then { h1 with evLost := true } else { h1 with evWaiting := h.evWaiting ++ [(e, h.evSeq, s.now)] })

/-- A repair in the field that Table 21-15 has no row for: its record, of a type and payload that the spec does not give, goes into the sealed history and is
reported (R411). -/
def fieldRepair (s : State) : State :=
  let r := Config.repairRecord s.tick
  let e : EventRec := { type := 10 + r.1.toNat, cont := false, payload := r.2 }
  { (s.setHost { s.host with repairs := e :: s.host.repairs, map := Config.mapAfter s.host.map e }).raise [recordEvent e] with tick := s.tick + 1 }

/-- The meaning of EVENT_POST (R414): the record in `data` is found and posted; without data the waiting records are tried again. -/
def execEventPost (s : State) : Host.Outcome State Fault Refusal :=
  match s.arg.data with
  | .record e => .next (drainEvents 257 (findEvent e s))
  | .none => .next (drainEvents 257 s)
  | _ => .fault .malformedEvent

end Sys2Proof.Machine
end

