-- ==== Sys2Proof/Machine/Boot.lean ====
section
/-! DEFINITION. Module reset, the mask ROM and self-test, and the mailbox commands that firmware serves (R409-R413, R415). -/

namespace Sys2Proof.Machine

/-! ### Reset -/

/-- Memory that the part does not hold: host and pool memory by local address. -/
def outsideMem {α : Type} (scale : Nat) (l : List (Nat × α)) : List (Nat × α) := l.filter fun p => decide (2 ^ 50 ≤ p.1 * scale)

/-- All state of the module is lost, events not yet performed with it (Table 21-5). Memory outside the part, what the host was answered, the helper data
that hosts keep of earlier enrolments, and the counter of free values, stay; after a thermal stop only a
power cycle restarts the module (R421). -/
def moduleReset (power : Bool) (s : State) : State :=
  { State.reset with
    tick := s.tick, mem := outsideMem 1 s.mem, memBad := s.memBad.filter (fun u => decide (2 ^ 50 ≤ u * 32))
    hostReads := s.hostReads, barReads := s.barReads
    host := { HostBlock.reset with msixSent := s.host.msixSent, enrolled := s.host.enrolled }
    thermal := { State.reset.thermal with tripped := s.thermal.tripped && !power } }

/-- The meaning of MODULE_RESET (R409): a power-on (b = 1) or a module reset. -/
def execModuleReset (s : State) : Host.Outcome State Fault Refusal := .next (moduleReset (decide (s.arg.b = 1)) s)

/-! ### Boot (R409, Table 21-5) -/

/-- The download starts in the Wait state. -/
def startBoot (s : State) : State :=
  if s.host.boot = .wait ∧ !s.thermal.tripped then s.setHost { s.host with bootst := 1, boot := .verify } else s

/-- The meaning of BOOTGO (R409). -/
def execBootgo (s : State) : Host.Outcome State Fault Refusal := .next (startBoot s)

/-- Bytes [a, a + n) of an image. -/
def imagePart (img : List Byte) (a n : Nat) : List Byte := (img.drop a).take n

/-- What the mask ROM finds in the fetched image: a BOOTST code of failure, or the measurement. -/
def verifyImage (img : List Byte) : Except Nat (BitVec 256) :=
  let len := numOfBytes (imagePart img 8 4)
  let key := imagePart img 0x10 32
  let msg := imagePart img 0 0x30 ++ imagePart img 0x1EE0 len
  if numOfBytes (imagePart img 0 4) ≠ 0x49465353 ∨ numOfBytes (imagePart img 4 2) ≠ 2 ∨ 2 ^ 24 < len ∨ img.length < 0x1EE0 + len then .error 3
  else if Config.sha256 key ≠ Config.rootKeyHash then .error 4
  else if !Config.slhDsaValid (BitVec.ofNat 256 (numOfBytes key)) msg (imagePart img 0x30 7856) then .error 5
  else .ok (Config.sha256 msg)

/-- The image at BOOTADDR is fetched and verified. -/
def verifyBoot (s : State) : State :=
  if s.host.boot ≠ .verify then s
  else
    let t := countReach s.host.bootaddr.toNat s.host.bootlen.toNat s
    match hostBytes s s.host.bootaddr.toNat s.host.bootlen.toNat with
    | none => t.setHost { s.host with bootst := 6, boot := .wait }
    | some img =>
      match verifyImage img with
      | .error c => t.setHost { s.host with bootst := BitVec.ofNat 8 c, boot := .wait }
      | .ok m => t.setHost { s.host with meas := m, bootst := 2, boot := .test, history := img.drop (0x1EE0 + numOfBytes (imagePart img 8 4)) }

/-- The meaning of BOOT_VERIFY (R409). -/
def execBootVerify (s : State) : Host.Outcome State Fault Refusal :=
  .next { verifyBoot s with tick := s.tick + 1 }

/-- The features that the part offers (Table 21-8). -/
def offered : BitVec 256 := 7 + BitVec.ofNat 256 (2 ^ 224)

/-- Set bits [lo + n - 1 : lo] of a map. -/
def countBits {w : Nat} (x : BitVec w) (lo n : Nat) : Nat := ((List.range n).filter fun i => x.getLsbD (lo + i)).length

/-- COUNTS of a presence map and a number of healthy ports (Table 21-2). -/
def countsWord (present : BitVec 192) (ports : Nat) : Word :=
  BitVec.ofNat 64 (countBits present 0 96 + countBits present 96 96 * 2 ^ 8 + min ports 16 * 2 ^ 16)

/-- The history that counts: none where its seal fails (R411). -/
def soundHistory (h : HostBlock) : List Byte := if Config.sealHolds h.seed h.history then h.history else []

/-- The physical cores of a die in the order in which boot takes them (R15). -/
def coreOrder (tick die : Nat) : List (BitVec 16) :=
  (((List.range 104).map fun i => 256 * die + i).insertionSort fun a b => Config.coreRank tick a ≤ Config.coreRank tick b).map (BitVec.ofNat 16)

/-- The place of a logical core in its die's order: the present positions first, then the absent ones. -/
def corePlace (map : BitVec 192) (n : Nat) : Nat :=
  let lo := n / 96 * 96
  if map.getLsbD n then countBits map lo (n - lo) else countBits map lo 96 + countBits (~~~map) lo (n - lo)

/-- The physical core of each logical one: distinct cores of the logical core's own die (R15). -/
def bootCores (tick : Nat) (map : BitVec 192) : Vector (BitVec 16) 192 := Vector.ofFn fun i => ((coreOrder tick (i.val / 96))[corePlace map i.val]?).getD 0

/-- The spares: of each die all of whose positions are present, the sound cores that no position took (R15). -/
def bootSpares (tick : Nat) (map : BitVec 192) : List (BitVec 16) :=
  [0, 1].flatMap fun die => if countBits map (96 * die) 96 < 96 then [] else ((coreOrder tick die).drop 96).filter fun p => Config.spareSound tick p.toNat

/-- Self-test and the repair map, from its results and the history, are done: offers, counts and the map are published, and each logical core has its
physical one (R15). The Test state ends only once the command that gives an identity has completed (R411). -/
def selfTest (s : State) : State :=
  if s.host.boot ≠ .test ∨ !s.host.identity then s
  else
    let map := Config.selfTestPresent s.tick
    let old := soundHistory s.host
    { s.setHost { s.host with offer := offered, present := map, counts := countsWord map (bitsOf (Config.selfTestCounts s.tick) 16 5), bootst := 7
                              boot := .negotiate, history := old, map := Config.repairMap s.tick old } with
      physical := bootCores s.tick map, spares := bootSpares s.tick map, columnRepairs := [], rowRepairs := [], tick := s.tick + 1 }

/-- The meaning of SELF_TEST_DONE (R411). -/
def execSelfTestDone (s : State) : Host.Outcome State Fault Refusal := .next (selfTest s)

/-! ### The mailbox (R412, R413) -/

/-- Firmware serves a command: it runs, one was taken, and it has not been performed. -/
def mailboxServes (s : State) : Bool := s.host.busy && s.host.mbresult.isNone && [2, 7, 8].contains s.host.bootst.toNat

/-- The end of a command: its status and the bytes written. -/
def mailEnd (status len : Nat) (s : State) : State := s.setHost { s.host with mbresult := some (BitVec.ofNat 16 status, BitVec.ofNat 32 len) }

/-- Command `code` performed, if it is the one taken. -/
def mailCommand (code : Nat) (f : State → State) (s : State) : State :=
  if mailboxServes s && decide (s.host.mbcmd.toNat = code) then f s else s

/-- MBARG0 as an address aligned to 64 bytes. -/
def mailAligned (s : State) : Bool := decide (s.host.mbarg0.toNat % 64 = 0)

/-- Results written to host memory at MBARG0: done, or status 0x0003 when the write fails. -/
def mailWrite (bs : List Byte) (s : State) : State :=
  let a := s.host.mbarg0.toNat
  if hostReach s a bs.length then mailEnd 0 bs.length (hostPut a bs s) else mailEnd 3 0 s

/-- A seed has been derived: it takes effect when the command completes (R410). -/
def deriveSeed (seed : BitVec 256) (isNew : Bool) (s : State) : State := s.setHost { s.host with newSeed := some (seed, isNew) }

/-- The seed derived by a command that completes takes effect: its public key stands in IDPUB. -/
def takeSeed (h : HostBlock) : HostBlock :=
  match h.newSeed with
  | none => h
  | some (seed, isNew) =>
    let key := Config.publicKey seed
    { h with identity := true, idNew := isNew, seed := seed, idpub := key, newSeed := none, enrolled := key :: h.enrolled }

/-- HELPER. -/
def helperCommand (s : State) : State :=
  let n := s.host.mbarg1.toNat
  if !mailAligned s ∨ n = 0 ∨ 65536 < n then mailEnd 2 0 s
  else if s.host.identity then mailEnd 4 0 s
  else
    let t := countReach s.host.mbarg0.toNat n s
    match hostBytes s s.host.mbarg0.toNat n with
    | none => mailEnd 3 0 t
    | some bs =>
      match Config.identityFrom bs with
      | none => mailEnd 5 0 t
      | some seed => mailEnd 0 0 (deriveSeed seed false t)

/-- The meaning of HELPER (R410). -/
def execHelper (s : State) : Host.Outcome State Fault Refusal := .next { mailCommand 1 helperCommand s with tick := s.tick + 1 }

/-- The seed of new helper data, where its key differs from every earlier one (R410). -/
def freshSeed (h : HostBlock) (data : List Byte) : Option (BitVec 256) :=
  match Config.identityFrom data with
  | some seed => if h.enrolled.contains (Config.publicKey seed) then none else some seed
  | none => none

/-- ENROL. The identity is derived from the data once that has been written. Firmware enrols anew while the data gives no key, or an earlier one. -/
def enrolCommand (s : State) : State :=
  let data := (Config.enrolData s.tick).take 65536
  if !mailAligned s then mailEnd 2 0 s
  else if s.host.identity then mailEnd 4 0 s
  else match freshSeed s.host data with
    | none => s
    | some seed =>
      if s.host.mbarg1.toNat < data.length then mailEnd 2 0 s
      else
        let s1 := mailWrite data s
        if hostReach s s.host.mbarg0.toNat data.length then deriveSeed seed true s1 else s1

/-- The meaning of ENROL (R410). -/
def execEnrol (s : State) : Host.Outcome State Fault Refusal := .next { mailCommand 2 enrolCommand s with tick := s.tick + 1 }

/-- Bytes 0x000-0x0FF of the attestation report (Table 21-16). -/
def reportMessage (s : State) : List Byte :=
  let h := s.host
  bytesOfNum 4 0x54415452 ++ bytesOfNum 2 1 ++ bytesOfNum 2 (bit h.idNew) ++ bytesOfNum 8 s.now ++ bytesOfNum 32 (bitsOf h.mbwin 0 256)
    ++ bytesOfNum 32 h.meas.toNat ++ bytesOfNum 32 h.offer.toNat ++ bytesOfNum 32 h.accept.toNat ++ bytesOfNum 8 (fctlWord h)
    ++ bytesOfNum 8 h.counts.toNat ++ bytesOfNum 24 h.present.toNat ++ bytesOfNum 8 0 ++ bytesOfNum 32 (Config.sha256 h.map).toNat
    ++ bytesOfNum 32 h.idpub.toNat

/-- A signature of 7,856 bytes under the identity key. -/
def signature (s : State) (msg : List Byte) : List Byte :=
  let sig := Config.slhDsaSign s.tick s.host.seed msg
  (List.range 7856).map fun i => (sig[i]?).getD 0

/-- ATTEST. -/
def attestCommand (s : State) : State :=
  if !mailAligned s ∨ s.host.mbarg1.toNat < 8112 then mailEnd 2 0 s
  else if !s.host.identity then mailEnd 4 0 s
  else mailWrite (reportMessage s ++ signature s (reportMessage s)) s

/-- The meaning of ATTEST (R415). -/
def execAttest (s : State) : Host.Outcome State Fault Refusal := .next { mailCommand 3 attestCommand s with tick := s.tick + 1 }

/-- The event ring of a descriptor (Table 21-13); `none` for a malformed one. -/
def ringOf (desc d : Nat) : Option EventRing :=
  let base := fld d 0 64
  let log2 := fld d 64 8
  if base % 64 ≠ 0 ∨ log2 < 4 ∨ 16 < log2 ∨ fld d 72 56 ≠ 0 ∨ fld d 256 256 ≠ 0 then none
  else some { desc := desc, base := base, log2 := log2, prod := BitVec.ofNat 64 (fld d 128 64) }

/-- EVRING. -/
def evringCommand (s : State) : State :=
  let a := s.host.mbarg0.toNat
  if !mailAligned s ∨ s.host.mbarg1 ≠ 0 then mailEnd 2 0 s
  else
    let t := countReach a 64 s
    match hostBytes s a 64 with
    | none => mailEnd 3 0 t
    | some bs =>
      match ringOf a (numOfBytes bs) with
      | none => mailEnd 2 0 t
      | some r => mailEnd 0 0 (t.setHost { s.host with evring := some r })

/-- The meaning of EVRING (R414). -/
def execEvring (s : State) : Host.Outcome State Fault Refusal := .next { mailCommand 4 evringCommand s with tick := s.tick + 1 }

/-- POWERCAP. -/
def powercapCommand (s : State) : State :=
  let w := s.host.mbarg0.toNat
  if w < 600 ∨ 1900 < w ∨ s.host.mbarg1 ≠ 0 then mailEnd 2 0 s
  else mailEnd 0 0 (s.setHost { s.host with powercap := BitVec.ofNat 16 w })

/-- The meaning of POWERCAP (R413). -/
def execPowercap (s : State) : Host.Outcome State Fault Refusal := .next (mailCommand 5 powercapCommand s)

/-- HISTORY. -/
def historyCommand (s : State) : State :=
  let data := Config.sealedHistory s.host.seed s.host.history s.host.repairs
  if !mailAligned s then mailEnd 2 0 s
  else if !s.host.identity then mailEnd 4 0 s
  else if s.host.mbarg1.toNat < data.length then mailEnd 2 0 s
  else mailWrite data s

/-- The meaning of HISTORY (R411). -/
def execHistory (s : State) : Host.Outcome State Fault Refusal := .next { mailCommand 6 historyCommand s with tick := s.tick + 1 }

/-- A code not listed ends with status 0x0001 (R413). -/
def unknownMail (s : State) : State :=
  if mailboxServes s && (decide (s.host.mbcmd.toNat = 0) || decide (6 < s.host.mbcmd.toNat)) then mailEnd 1 0 s else s

/-- The meaning of UNKNOWN_COMMAND (R413). -/
def execUnknownCommand (s : State) : Host.Outcome State Fault Refusal := .next (unknownMail s)

/-- STATUS and LEN are set, BUSY cleared and vector 0 raised (R412, step 4). -/
def mailboxDone (s : State) : State :=
  match s.host.mbresult with
  | none => s
  | some (st, n) => raiseMsix 0 (s.setHost { takeSeed s.host with mbstatus := st, mblen := n, busy := false, mbresult := none })

/-- The meaning of MAILBOX_DONE (R412). -/
def execMailboxDone (s : State) : Host.Outcome State Fault Refusal := .next (mailboxDone s)

end Sys2Proof.Machine
end

