-- ==== Sys2Proof/Machine/Repair.lean ====
section
/-! DEFINITION. The memory tiers and their repair (R395-R404): patrol, layer map-out, bank sparing and alert back-off. -/

namespace Sys2Proof.Machine

/-- The tiers' counters and repair state replaced. -/
def State.setTiers (s : State) (t : Tiers) : State := { s with tiers := t }

/-- Local addresses of bulk (Table 1-7). -/
def bulkLow : Nat := 0x10000000000
/-- The first local address above bulk. -/
def bulkHigh : Nat := 0x20000000000

/-- Units of 32 bytes that read as uncorrectable until written whole: the controller's poison check pattern (R397). -/
def poisonUnits (us : List Nat) (s : State) : State := { s with memBad := s.memBad.filter (fun u => !us.contains u) ++ us }

/-! ### Patrol scrub (R395, R397) -/

/-- The atom of the stage that the patrol reads next: from the first again where the capacity has fallen below it. -/
def nextOfStage (s : State) : Nat := if s.tiers.nextStage < s.tiers.stcap / 32 then s.tiers.nextStage else 0

/-- The patrol goes on after atom `u` where that was the next of its tier; when it has read every atom of the tier a pass is complete. -/
def countPass (u : Nat) (s : State) : State :=
  let t := s.tiers
  if u = nextOfStage s then
    s.setTiers (if u + 1 < t.stcap / 32 then { t with nextStage := u + 1, lastStage := s.now } else { t with nextStage := 0, lastStage := s.now, pats := t.pats + 1 })
  else if u = bulkLow / 32 + t.nextBulk then
    s.setTiers (if u + 1 < bulkHigh / 32 then { t with nextBulk := t.nextBulk + 1, lastBulk := s.now } else { t with nextBulk := 0, lastBulk := s.now, patb := t.patb + 1 })
  else s

/-- An uncorrectable atom that the patrol finds: it is rewritten with the poison check pattern, but for a cell that a map-out left as one whose loss a described
page shows by its tag (R397, R398); and firmware tests a core upon it, where it suspects one: trigger 2 (R317). -/
def patrolLoss (u : Nat) (s : State) : State :=
  let n := Config.patrolSuspect s.tick u
  let s1 := if s.memLost.contains u then s else poisonUnits [u] s
  if n < 192 then { s1 with suspects := s1.suspects ++ [(n, 2, (Config.coreTest s.tick n).val + 256 * (Config.failingMacro s.tick n).val)], tick := s1.tick + 1 }
  else { s1 with tick := s1.tick + 1 }

/-- The patrol reads the atom at local address l and finds it clean (0), correctable (1) or uncorrectable (2), as one poisoned or lost before always is. -/
def patrolAtom (l found : Nat) (s : State) : State :=
  let stage := decide (l < s.tiers.stcap)
  let tier : Tier := if stage then .stage else .bulk
  if !stage && !(decide (bulkLow ≤ l) && decide (l < bulkHigh)) then s
  else countPass (l / 32) (match (if s.memBad.contains (l / 32) || s.memLost.contains (l / 32) then 2 else found) with
    | 0 => s
    | 1 => countCorrected s tier
    | _ => countBad (patrolLoss (l / 32) s) tier)

/-- The atom that the patrol reads next, by address: one of the stage in every 64 device cycles, and one of bulk in every 32 (R397). -/
def patrolNext (s : State) : Option Nat :=
  let t := s.tiers
  if t.lastStage + 64 ≤ s.now then some (nextOfStage s * 32)
  else if t.lastBulk + 32 ≤ s.now then some (bulkLow + t.nextBulk * 32)
  else none

/-- The meaning of PATROL_SCRUB (R397): the atom at local address `a`, and what the read found, `b`. -/
def execPatrolScrub (s : State) : Host.Outcome State Fault Refusal := .next (patrolAtom s.arg.a s.arg.b s)

/-! ### Stage layer map-out (R398-R400) -/

/-- The bytes of a layer. -/
def layerBytes : Nat := 2 ^ 31

/-- The layer that holds the row of a stage unit: that of its address, or, for each layer mapped out that held it, the layer still in use that took its row
(R398, step 3). -/
def layerNow (s : State) (u : Nat) : Nat :=
  (s.tiers.retired.reverse.foldl (fun (p : Nat × List Nat) r =>
    let gone := r :: p.2
    let left := (List.range 64).filter fun l => !gone.contains l
    (if p.1 = r then (left[Config.rowAfter r u % left.length]?).getD r else p.1, gone)) (layerOf u, [])).1

/-- A 64 KiB unit holds an atom of a layer. -/
def unitInLayer (s : State) (layer u : Nat) : Bool := (List.range 2048).any fun i => decide (layerNow s (u * 2048 + i) = layer)

/-- The handles that lie in a failing layer or above `top`, or that an earlier move has put anywhere: true for one that step 2 cannot move. -/
def handleFate (s : State) (layer top : Nat) (p : Nat × Handle) : Option Bool :=
  if p.2.moved || p.2.units.any fun u => decide (top ≤ u * 2 ^ 16) || unitInLayer s layer u then some (Config.handleLost s.tick p.1) else none

/-- The handle numbers that map-out invalidates, in ascending order. -/
def lostHandles (s : State) (layer top : Nat) : List Nat := ((s.handles.filter fun p => handleFate s layer top p == some true).map (·.1)).insertionSort (· ≤ ·)

/-- Bytes of handle numbers, 2 each. -/
def handleBytes (l : List Nat) : Nat := numOfBytes (l.flatMap fun h => bytesOfNum 2 h)

/-- The hot-remove record (Table 20-2). -/
def hotRemoveRecord (s : State) (layer : Nat) (lost : List Nat) : Nat :=
  s.ownModule + 3 * 2 ^ 32 + layer / 16 * 2 ^ 40 + layer % 16 * 2 ^ 48 + s.now % 2 ^ 64 * 2 ^ 64 + s.tiers.stcap * 2 ^ 128
    + min lost.length 0xFFFF * 2 ^ 192 + handleBytes (lost.take 19) * 2 ^ 208

/-- The records of a layer map-out for the event ring: 22 handles in each (Table 21-15). -/
def mapOutEvents (layer n : Nat) : Nat → Bool → List Nat → List Event
  | 0, _, _ => []
  | fuel + 1, cont, l =>
    recordEvent { type := 3, cont := cont
                  payload := BitVec.ofNat 384 (layer / 16 + layer % 16 * 2 ^ 8 + min n 0xFFFF * 2 ^ 16 + handleBytes (l.take 22) * 2 ^ 32) }
      :: (if 22 < l.length then mapOutEvents layer n fuel true (l.drop 22) else [])

/-- An action of every core of the module, in the order of core numbers. -/
def onEveryCore (f : State → State) (s : State) : State := (List.range 192).foldl (fun s n => onCore n f s) s

/-- A cell of a failing layer that cannot be read (R398): a described page finds F = 0xFF there, and a plain one the poison check pattern. -/
def loseCell (c : Nat) (s : State) : State :=
  let us := [2 * c, 2 * c + 1]
  { s with memTags := sparsePut 0 s.memTags c poisonTag, memBad := s.memBad.filter (fun u => !us.contains u)
           memLost := s.memLost.filter (fun u => !us.contains u) ++ us }

/-- The cells of a layer below `top` that cannot be read. Where the extent of a handle lay that step 2 has moved, nothing is left to copy. -/
def lostCells (s : State) (layer top : Nat) : List Nat :=
  let movedUnits := (s.handles.filter fun p => p.2.moved || handleFate s layer top p == some false).flatMap fun p => p.2.units
  (List.range (top / 64)).filter fun c => !movedUnits.contains (c / 1024)
    && [2 * c, 2 * c + 1].any fun u => decide (layerNow s u = layer) && (Config.unreadable s.tick (32 * u) || s.memBad.contains u)

/-- The stage above `top` is gone: its bytes, tags and errors with it. -/
def dropTop (top cap : Nat) (s : State) : State :=
  let keep (a : Nat) : Bool := decide (a < top) || decide (cap ≤ a)
  { s with mem := s.mem.filter (fun p => keep p.1), memTags := s.memTags.filter (fun p => keep (64 * p.1)), memBad := s.memBad.filter (fun u => keep (32 * u))
           memLost := s.memLost.filter fun u => keep (32 * u) }

/-- A failing layer is mapped out, in the steps of R398: 16 x stack + layer. -/
def mapOut (layer : Nat) (s : State) : State :=
  let cap := s.tiers.stcap
  let top := cap - layerBytes
  let lost := lostHandles s layer top
  let s1 := (lostCells s layer top).foldl (fun s c => loseCell c s) s
  let s2 := dropTop top cap s1
  let s3 := { s2.setTiers { s2.tiers with stcap := top, stlayr := s2.tiers.stlayr ||| BitVec.ofNat 64 (2 ^ layer), retired := layer :: s2.tiers.retired } with
    handles := (s.handles.filter fun p => !lost.contains p.1).map fun p => (p.1, { p.2 with moved := p.2.moved || (handleFate s layer top p).isSome })
    tick := s.tick + 1 }
  (onEveryCore (memqRecord (hotRemoveRecord s3 layer lost)) s3).raise (mapOutEvents layer lost.length (lost.length + 1) false lost)

/-- The meaning of LAYER_MAP_OUT (R398): layer `a`, as 16 x stack + layer. -/
def execLayerMapOut (s : State) : Host.Outcome State Fault Refusal :=
  if 64 ≤ s.arg.a then .fault .malformedEvent else .next (mapOut s.arg.a s)

/-! ### Bank sparing (R401, R402) -/

/-- The channel of a bank: the bank's own number left out. -/
def bankChannel (b : Nat) : Nat := b / 2 ^ 8

/-- The spare of a bank's channel is in use. -/
def spareTaken (s : State) (b : Nat) : Bool := s.tiers.spares.any fun c => decide (bankChannel c = bankChannel b)

/-- The event of a repaired bank (Table 21-15, type 7): 0 spared, 1 poisoned. -/
def bankEvent (b outcome : Nat) : Event :=
  recordEvent { type := 7, cont := false
                payload := BitVec.ofNat 384 (b / 2 ^ 24 % 256 + b / 2 ^ 16 % 256 * 2 ^ 8 + b / 2 ^ 8 % 256 * 2 ^ 16 + b % 256 * 2 ^ 24 + outcome * 2 ^ 32) }

/-- A bank's channel takes its spare; `copies`: a background copy begins. -/
def takeSpare (b : Nat) (copies : Bool) (s : State) : State :=
  (s.setTiers { s.tiers with spares := b :: s.tiers.spares, copies := if copies then (b, 0) :: s.tiers.copies else s.tiers.copies }).raise [bankEvent b 0]

/-- The units of bulk that lie in a bank. -/
def bulkUnitsOf (b : Nat) : List Nat := ((List.range (bulkLow / 32)).map fun i => bulkLow / 32 + i).filter fun u => decide (bankOf u = b)

/-- A failing stage bank: its spare, or layer map-out without the feature or a free spare (R401). -/
def spareStageBank (b layer : Nat) (s : State) : State :=
  if feature s 7 0 && !spareTaken s b then takeSpare b true s
  else s.raise [{ i := .layerMapOut, arg := { core := 0, sec := .ctl, a := layer, b := 0, data := .none } }]

/-- The meaning of STAGE_BANK_SPARE (R401): bank `a`, in layer `b`. -/
def execStageBankSpare (s : State) : Host.Outcome State Fault Refusal := .next (spareStageBank s.arg.a s.arg.b s)

/-- A failing bulk bank: its channel's spare, or poison where the spare is in use (R402). At boot nothing is copied. -/
def spareBulkBank (b : Nat) (atBoot : Bool) (s : State) : State :=
  if spareTaken s b then (poisonUnits (bulkUnitsOf b) s).raise [bankEvent b 1]
  else if atBoot then takeSpare b false s
  else
    let s1 := poisonUnits ((bulkUnitsOf b).filter fun u => Config.unreadable s.tick (32 * u)) s
    takeSpare b true { s1 with tick := s.tick + 1 }

/-- The meaning of BULK_BANK_SPARE (R402): bank `a`; `b` is 1 for a bank that self-test finds at boot. -/
def execBulkBankSpare (s : State) : Host.Outcome State Fault Refusal := .next (spareBulkBank s.arg.a (decide (s.arg.b = 1)) s)

/-- A row of a bank's background copy is done: the boundary pointer advances, and after the last row the copy ends. -/
def copyRow (b : Nat) (s : State) : State :=
  s.setTiers { s.tiers with copies := s.tiers.copies.filterMap fun p =>
    if p.1 = b then (if p.2 < Config.bankRows then some (b, p.2 + 1) else none) else some p }

/-- The meaning of SPARE_ROW_COPIED (R401): the next row of the copy of bank `a`. -/
def execSpareRowCopied (s : State) : Host.Outcome State Fault Refusal := .next (copyRow s.arg.a s)

/-! ### Alert back-off (R403) -/

/-- An alert back-off arrives for a bank: it is counted, and where refreshes are owed to the maximum the bank is blocked. -/
def backOff (b : Nat) (s : State) : State :=
  let t := { s.tiers with aboall := countUp s.tiers.aboall }
  if t.blocked.any fun p => decide (p.1 = b) then s.setTiers t
  else if Config.postponed s.tick b then { s.setTiers { t with abomax := countUp t.abomax, blocked := (b, s.now) :: t.blocked } with tick := s.tick + 1 }
  else { s.setTiers t with tick := s.tick + 1 }

/-- The meaning of ALERT_BACK_OFF (R403): bank `a`. -/
def execAlertBackOff (s : State) : Host.Outcome State Fault Refusal := .next (backOff s.arg.a s)

/-- A bank whose block has lasted 6,144 device cycles, the most that it may (R403). -/
def blockOver (s : State) : Option Nat := (s.tiers.blocked.find? fun p => decide (p.2 + 6144 ≤ s.now)).map (·.1)

/-- The meaning of BANK_BLOCK_END (R403): bank `a` serves accesses again. -/
def execBankBlockEnd (s : State) : Host.Outcome State Fault Refusal :=
  let b := s.arg.a
  .next (s.setTiers { s.tiers with blocked := s.tiers.blocked.filter fun p => p.1 != b })

end Sys2Proof.Machine
end

