-- ==== Sys2Proof/Machine/Fabric.lean ====
section
/-! DEFINITION. The Ikindi fabric: ports, flits, negative acknowledgement, retraining, and the membership of the domain (R418-R420, R210). -/

namespace Sys2Proof.Machine

/-- A port of the module. -/
def portAt (s : State) (p : Nat) : Port := s.ports[Fin.ofNat 16 p]

/-- A port replaced. -/
def setPort (p : Nat) (x : Port) (s : State) : State := { s with ports := s.ports.set (Fin.ofNat 16 p) x }

/-- Performs an event on port `p`: the fault is for a port the module does not have. -/
def atPort (p : Nat) (f : State → State) (s : State) : Host.Outcome State Fault Refusal :=
  if 16 ≤ p then .fault .noSuchAgent else .next (f s)

/-- The ports carry traffic once FEAT.IKINDI is accepted (R416, R417). -/
def fabricOn (s : State) : Bool := feature s 0 2

/-- The set of ports that are up, as a number. -/
def upPorts (s : State) : Nat := ((List.range 16).map fun p => if (portAt s p).up then 2 ^ p else 0).sum

/-- The port that carries traffic to a module; `none` while its route has no port that is up. -/
def routePort (s : State) (m : Nat) : Option Nat :=
  let p := (Config.route (upPorts s) m).val
  if fabricOn s && (portAt s p).up then some p else none

/-! ### Sending (R419) -/

/-- The ordered lane of a read or write of class k of the cell that holds an address (R419). -/
def cellLane (k : Fin 16) (a : Nat) : Fin 8 := Fin.ofNat 8 (fld a 6 3 + k.val)

/-- The ordered lane of a request of class k (R419). Requests of kinds that the rule does not name take a free lane. -/
def flitLane (tick : Nat) (k : Fin 16) : FlitAct → Fin 8
  | .read a => cellLane k a
  | .data a _ _ => cellLane k a
  | .write a _ _ => cellLane k a
  | .bytes a _ => cellLane k a
  | .poison a _ => cellLane k a
  | .message _ _ e => Fin.ofNat 8 (originChannel e.origin)
  | .multicast g _ _ => Fin.ofNat 8 g
  | .legCell g _ _ _ _ _ => Fin.ofNat 8 g
  | .frameWrite w => cellLane k w.off
  | .acked _ n => Config.laneClass tick n
  | .legReady g _ _ => Config.laneClass tick g
  | .legGone g _ _ => Config.laneClass tick g
  | .credit _ _ c _ => Config.laneClass tick c
  | .delivered _ _ c _ => Config.laneClass tick c
  | .semaphore _ r => Config.laneClass tick r.id
  | .answer _ _ id _ => Config.laneClass tick id
  | .membership m _ => Config.laneClass tick m

/-- A flit of the part's own, without the numbers that its link gives it. -/
def newFlit (s : State) (o : Outgoing) : Flit :=
  { seq := 0, ack := 0, lane := flitLane s.tick o.cls o.act, dst := BitVec.ofNat 12 o.module, src := BitVec.ofNat 12 s.ownModule, intact := true
    cls := o.cls, who := o.who, act := o.act }

/-- The kind code in CTL of a request (Table 21-9), numbered in the table's order: read, write, message, multicast, credit, membership. Semaphore traffic
goes as messages, cells of legs as multicast, and acknowledgements with the credits (log entry 43). -/
def flitKind : FlitAct → Nat
  | .read _ => 0
  | .data _ _ _ => 0
  | .write _ _ _ => 1
  | .bytes _ _ => 1
  | .poison _ _ => 1
  | .frameWrite _ => 1
  | .message _ _ _ => 2
  | .semaphore _ _ => 2
  | .answer _ _ _ _ => 2
  | .multicast _ _ _ => 3
  | .legCell _ _ _ _ _ _ => 3
  | .legReady _ _ _ => 3
  | .legGone _ _ _ => 3
  | .credit _ _ _ _ => 4
  | .delivered _ _ _ _ => 4
  | .acked _ _ => 4
  | .membership _ _ => 5

/-- The cells that a request carries, at most three in a flit. -/
def flitCells : FlitAct → List CellData
  | .data _ c _ => [c]
  | .write _ c _ => [c]
  | .message _ _ e => [e.cell]
  | .multicast _ _ e => [e.cell]
  | .legCell _ _ _ _ c _ => [c]
  | .bytes a bs => [{ bytes := BitVec.ofNat 512 (numOfBytes bs * 2 ^ (8 * (a % 64))), tag := 0 }]
  | .frameWrite w => [{ bytes := BitVec.ofNat 512 (numOfBytes w.bytes * 2 ^ (8 * (w.off % 64))), tag := w.tag.getD 0 }]
  | _ => []

/-- A flit closed by its CRC. -/
def withCrc (l : List Byte) : List Byte := l ++ bytesOfNum 8 (Config.crc64 l).toNat

/-- The 256 bytes of a flit on a link (Table 21-9). -/
def flitBytes (tick : Nat) (f : Flit) : List Byte :=
  let cells := flitCells f.act
  let cell (i : Nat) : CellData := (cells[i]?).getD { bytes := 0, tag := 0 }
  withCrc (bytesOfNum 2 f.seq.toNat ++ bytesOfNum 2 f.ack.toNat ++ bytesOfNum 1 (f.lane.val + 8 * flitKind f.act)
    ++ bytesOfNum 3 (f.dst.toNat + 2 ^ 12 * f.src.toNat) ++ bytesOfNum 8 0
    ++ ((List.range 3).map fun i => bytesOfNum 64 (cell i).bytes.toNat).flatten ++ ((List.range 3).map fun i => bytesOfNum 2 (cell i).tag.toNat).flatten
    ++ bytesOfNum 34 (Config.flitReq tick).toNat)

/-- The negative acknowledgement of the flit with a SEQ on a link whose next flit has another (Table 21-9, R419). -/
def nakBytes (next seq : BitVec 16) : List Byte :=
  withCrc (bytesOfNum 2 next.toNat ++ bytesOfNum 2 seq.toNat ++ bytesOfNum 4 0 ++ bytesOfNum 1 1 ++ bytesOfNum 239 0)

/-- A flit goes out on its route's port, into the replay buffer of 512; false when it must wait. -/
def sendFlit (f : Flit) (s : State) : State × Bool :=
  match routePort s f.dst.toNat with
  | none => (s, false)
  | some p =>
    let x := portAt s p
    if x.retraining || decide (512 ≤ x.replay.length) then (s, false)
    else
      let g : Flit := { f with seq := x.nextSeq, ack := x.expect - 1 }
      (setPort p { x with replay := x.replay ++ [(g, 0)], nextSeq := x.nextSeq + 1, sent := flitBytes s.tick g :: x.sent } s, true)

/-- Flits sent, oldest first; one that must wait holds back the later ones of its destination, so that each lane keeps its order. -/
def sendFlits (held : List (BitVec 12)) : List Flit → State → State × List Flit
  | [], s => (s, [])
  | f :: rest, s =>
    let r := if held.contains f.dst then (s, false) else sendFlit f s
    let q := sendFlits (if r.2 then held else f.dst :: held) rest r.1
    (q.1, if r.2 then q.2 else f :: q.2)

/-- What waits to go out is sent, transit first. A request to a module that is no longer a member is dropped. -/
def flushPorts (s : State) : State :=
  if !fabricOn s || (s.outbound.isEmpty && s.transit.isEmpty) then s
  else
    let own := (s.outbound.reverse.filter fun p => s.isMember p.module).map (newFlit s)
    let r := sendFlits [] (s.transit.reverse ++ own) { s with tick := s.tick + 1 }
    { r.1 with outbound := [], transit := r.2.reverse }

/-- Members without a route are remembered with the device cycle in which they lost it (R420). -/
def watchRoutes (s : State) : State :=
  { s with noRoute := (s.members.filter fun m => (routePort s m).isNone).map fun m =>
      match s.noRoute.find? (fun p => p.1 == m) with
      | some p => p
      | none => (m, s.now) }

/-- What the fabric does at the end of every device cycle. -/
def fabricTick (s : State) : State := watchRoutes (flushPorts s)

/-! ### Receiving (R419) -/

/-- The tag of a cell of stage or bulk that another module writes, in a described page; a plain page loses it (R36, R37). -/
def putRemoteTag (pa : Nat) (t : BitVec 16) (desc : Bool) (s : State) : State :=
  if localOf pa < 2 ^ 41 then { s with memTags := sparsePut 0 s.memTags (localOf pa / 64) (if desc then t else 0) } else s

/-- Poison from another module on a cell of the part's memory: the tag where the page keeps one in stage or bulk, else the units (R37). -/
def poisonRemote (pa : Nat) (desc : Bool) (s : State) : State :=
  if desc && decide (localOf pa < 2 ^ 41) then putRemoteTag pa poisonTag true s else memPoison s pa 64

/-- A whole-cell write from another module into the part's memory: in a plain page F = 0xFF is kept as poison of its units (R37). -/
def putRemoteCell (pa : Nat) (c : CellData) (desc : Bool) (s : State) : State :=
  let s1 := putRemoteTag pa c.tag desc (memPutBytes s pa (bytesOfNum 64 c.bytes.toNat))
  if tagF c.tag = 0xFF then poisonRemote pa desc s1 else s1

/-- The event of a core that a request becomes. -/
def coreEvent (i : Instr) (core : Nat) (sec : Sec) (a b : Nat) (d : EventData) : Event :=
  { i := i, arg := { core := core, sec := sec, a := a, b := b, data := d } }

/-- A write from module `m` into the part's memory, and its answer: 0x05 where the address is not routable here (R23, R154). -/
def remoteStore (m : Nat) (who : Requester) (a : Nat) (f : State → State) (s : State) : State :=
  if isOwn s a && routable s a then answerWrite m who 0 (f s) else answerWrite m who 0x05 s

/-- The data of a cell of another module has come for FLD `id` of the core in focus (R104). -/
def fldData (id : Nat) (c : CellData) (bad : Bool) (s : State) : State :=
  s.onStr .ctl fun st => { st with flds := st.flds.map fun f =>
    if f.id = id then { f with val := if bad || f.bad then 0 else BitVec.ofNat 64 (bitsOf c.bytes (8 * (f.pa % 64)) (8 * f.size)), bad := bad || f.bad } else f }

/-- An item of a listed command finishes once the last of its writes is acknowledged (R178, R185). -/
def itemAcknowledged (core : Nat) (q : BitVec 16) (item : Nat) (s : State) : State :=
  if s.awaits (.command core q item) then s else onCore core (finishAwaited q item) s

/-- The acknowledgement of a write to module `m`: an FST is no longer outstanding (R119), and a refusal stands in the command's status (R155, R159). -/
def takeAck (m : Nat) (who : Requester) (code : Nat) (s : State) : State :=
  if !s.awaited.contains (m, who) then s
  else
    let s1 : State := { s with awaited := s.awaited.erase (m, who) }
    match who with
    | .nobody => s1
    | .store core id => s1.raise [farAck core id]
    | .context core => if s1.awaits who then s1 else onCore core (fun t => if waitsOn t .ctl = some .saved then resume .ctl none t else t) s1
    | .load core id => onCore core (fldData id { bytes := 0, tag := 0 } true) s1
    | .command core q item => itemAcknowledged core q item (if code = 0 then s1 else onCore core (recordFault q code item) s1)

/-- A read by module `m` of the cell at an address of the part: its units are counted, and the data goes back to the requester; an address that is not
routable here reads as an uncorrectable unit (R23, R395). -/
def remoteRead (m : Nat) (who : Requester) (a : Nat) (s : State) : State :=
  let answer (c : CellData) (bad : Bool) (s : State) : State :=
    { s with outbound := { module := m, act := .data a c bad, cls := 0, who := who } :: s.outbound }
  if !(isOwn s a && routable s a) then answer { bytes := Config.freeCell s.tick a, tag := poisonTag } true { s with tick := s.tick + 1 }
  else
    let bad := memRangeBad s a 64
    answer { bytes := if bad then Config.freeCell s.tick a else BitVec.ofNat 512 (memNum s a 64)
             tag := if bad then poisonTag else if localOf a < 2 ^ 41 then sparseGet 0 s.memTags (localOf a / 64) else Config.freeTag s.tick a } bad
      (countPhysical a 64 s)

/-- The data that answers a read of the part (R104): that of an FLD which awaits it is kept until the FLD lands. What another agent of the part reads of
another module is a free value (log entry 6). -/
def takeData (m : Nat) (who : Requester) (c : CellData) (bad : Bool) (s : State) : State :=
  match who with
  | .load core id =>
    if s.awaited.contains (m, who) then onCore core (fldData id c bad) { s with awaited := s.awaited.erase (m, who) } else s
  | _ => s

/-- An access of a request meets a bank that is blocked (R403). -/
def actHeld (s : State) (act : FlitAct) : Bool :=
  match act with
  | .read a => bankHeld s a 64
  | .write a _ _ => bankHeld s a 64
  | .bytes a bs => bankHeld s a bs.length
  | .poison a _ => bankHeld s a 64
  | _ => false

/-- A request from module `m`, whose requester there is `who`, performed at the part. -/
def performAct (m : Nat) (who : Requester) (act : FlitAct) (s : State) : State :=
  match act with
  | .read a => remoteRead m who a s
  | .data _ c bad => takeData m who c bad s
  | .write a c desc => remoteStore m who a (putRemoteCell a c desc) s
  | .bytes a bs => remoteStore m who a (fun s => memPutBytes s a bs) s
  | .poison a desc => remoteStore m who a (poisonRemote a desc) s
  | .frameWrite w =>
    if w.core < 192 then s.raise [coreEvent .incomingWrite w.core .copy 0 0 (.write { w with module := m })] else answerWrite m w.who 0x02 s
  | .message core q e => s.raise [arrivalEvent core q e]
  | .multicast g _ e =>
    s.raise ((List.range 192).flatMap fun n => match coreAt n s with
      | none => []
      | some c => (c.msgs.members.filter fun p => decide (p.1 = g)).map fun p => arrivalEvent n p.2 e)
  | .legCell g n w cells c bad => s.raise (legCellEvents s (m * 8 + w) g n cells (c, bad))
  | .legReady g n w => s.raise [noticeEvent { group := g, legno := n, module := m, walk := w }]
  | .legGone g n w => s.raise [coreEvent .goneAnswer w .ctl g n .none]
  | .credit core t ch n => s.raise [coreEvent .creditReturn core t ch n .none]
  | .delivered core t ch code => onCore core (takeDelivery t ch code) s
  | .semaphore core r => s.raise [coreEvent (if r.op = .withdraw then .remoteWithdrawal else .remoteSemRequest) core .ctl 0 (s.now + 1) (.sem r)]
  | .answer core t id a => s.raise [coreEvent .remoteSemAnswer core t id 0 (.answer a)]
  | .acked w code => takeAck m w code s
  | .membership k joined => s.raise [coreEvent (if joined then .moduleJoin else .moduleLeave) 0 .ctl k 0 .none]

/-- The replay buffer after the acknowledgement of everything up to SEQ `a`. -/
def acknowledge (a : BitVec 16) (l : List (Flit × Nat)) : List (Flit × Nat) :=
  if l.any fun f => f.1.seq == a then (l.dropWhile fun f => f.1.seq != a).drop 1 else l

/-- A request waits while an access of it meets a blocked bank, or behind one of its lane that does (R403, R419): the event by which it is tried again. -/
def flitWaits (f : Flit) (s : State) : Bool :=
  actHeld s f.act || s.pending.any fun e => decide (e.i = .flitReceive) && decide (e.arg.b = 1) && (match e.arg.data with
    | .flit g => decide (g.src = f.src) && decide (g.lane = f.lane)
    | _ => false)

/-- A flit for the part taken from its link: performed, or kept among the pending events while it waits. -/
def takeFlit (f : Flit) (s : State) : State :=
  if flitWaits f s then s.raise [{ i := .flitReceive, arg := { core := 0, sec := .ctl, a := 0, b := 1, data := .flit f } }]
  else performAct f.src.toNat f.who f.act s

/-- A flit on port `p`: a failed check discards it and every later flit until the failing SEQ comes again, with a NAK for each failure of that SEQ, and a flit
out of order is discarded. -/
def receiveFlit (p : Nat) (f : Flit) (s : State) : State :=
  let x := portAt s p
  if !fabricOn s || !x.up || x.retraining then s
  else if !f.intact then
    let again := decide (x.nakFor = some x.expect) && decide (f.seq ≠ x.expect)
    setPort p { x with nakFor := some x.expect, sent := if again then x.sent else nakBytes x.nextSeq x.expect :: x.sent } s
  else if f.seq ≠ x.expect then s
  else
    let s1 := setPort p { x with expect := x.expect + 1, nakFor := none, replay := acknowledge f.ack x.replay } s
    if f.dst.toNat ≠ s.ownModule then { s1 with transit := f :: s1.transit } else takeFlit f s1

/-- The meaning of FLIT_RECEIVE (R419): flit `data` on port `a`; with `b` 1 a flit taken before, whose access had to wait for a blocked bank (R403). -/
def execFlitReceive (s : State) : Host.Outcome State Fault Refusal :=
  match s.arg.data with
  | .flit f => if s.arg.b = 1 then .next (performAct f.src.toNat f.who f.act s) else let p := s.arg.a; atPort p (receiveFlit p f) s
  | _ => .fault .malformedEvent

/-- A NAK for SEQ `q`: earlier flits have arrived, and the others are resent in order. A flit resent 16 times makes the link retrain (R420). -/
def takeNak (p : Nat) (q : BitVec 16) (s : State) : State :=
  let x := portAt s p
  if !(x.replay.any fun f => f.1.seq == q) then s
  else
    let l := (x.replay.dropWhile fun f => f.1.seq != q).map fun f => (f.1, f.2 + 1)
    let s1 := setPort p { x with replay := l, sent := (l.map fun f => flitBytes s.tick f.1).reverse ++ x.sent } s
    if l.any fun f => decide (16 ≤ f.2) then s1.raise [coreEvent .linkRetrain 0 .ctl p 0 .none] else s1

/-- The meaning of NAK_RECEIVE (R419): port `a`, failing SEQ `b`. -/
def execNakReceive (s : State) : Host.Outcome State Fault Refusal :=
  let p := s.arg.a
  let q := BitVec.ofNat 16 s.arg.b
  atPort p (takeNak p q) s

/-! ### Retraining (R420) -/

/-- The meaning of LINK_RETRAIN (R420): the link of port `a` retrains, and meanwhile requests wait. -/
def execLinkRetrain (s : State) : Host.Outcome State Fault Refusal :=
  let p := s.arg.a
  atPort p (fun s => setPort p { portAt s p with retraining := true } s) s

/-- A port goes down: COUNTS falls, an event is sent, and what was not acknowledged goes out again by another route, before all later requests. -/
def portDown (p failed : Nat) (s : State) : State :=
  let x := portAt s p
  let h := s.host
  let back := x.replay.map (·.1)
  let s1 := setPort p { Port.reset with spareUsed := x.spareUsed, sent := x.sent } s
  ({ s1 with transit := s1.transit ++ back.reverse }.setHost
      { h with counts := if bitsOf h.counts 16 5 = 0 then h.counts else h.counts - BitVec.ofNat 64 (2 ^ 16) }).raise
    [recordEvent { type := 5, cont := false, payload := BitVec.ofNat 384 (p + failed % 256 * 2 ^ 8) }]

/-- The end of retraining: 0 the link is up, 1 one more lane has failed and the spare takes its place where it is still free, 2 it failed. -/
def endRetrain (p outcome : Nat) (s : State) : State :=
  let x := portAt s p
  let up : Port := { x with up := true, retraining := false, nakFor := none, replay := x.replay.map fun f => (f.1, 0)
                            sent := (x.replay.map fun f => flitBytes s.tick f.1).reverse ++ x.sent }
  match outcome with
  | 0 => setPort p up s
  | 1 => if x.spareUsed then portDown p 2 s else fieldRepair (setPort p { up with spareUsed := true } s)
  | _ => portDown p (bit x.spareUsed) s

/-- The meaning of RETRAIN_END (R420): port `a`, outcome `b`. The first training of a cabled port ends so as well. -/
def execRetrainEnd (s : State) : Host.Outcome State Fault Refusal :=
  let p := s.arg.a
  let o := s.arg.b
  atPort p (endRetrain p o) s

/-! ### Membership (R210, R418, R420) -/

/-- A membership event for the event ring (Table 21-15, type 8). -/
def memberEvent (m code : Nat) : Event := recordEvent { type := 8, cont := false, payload := BitVec.ofNat 384 (m + code * 2 ^ 16) }

/-- A module leaves the domain: channels that name it fault, records are appended on every core, its source legs are lost, and what was on its way
to it is dropped: an engine write that nothing acknowledged was unroutable (R23). -/
def leaveDomain (m : Nat) (s : State) : State :=
  if !s.members.contains m then s
  else
    let s1 : State := { s with members := s.members.filter (· != m), outbound := s.outbound.filter (fun p => p.module != m)
                               transit := s.transit.filter (fun f => f.dst.toNat != m), noRoute := s.noRoute.filter fun p => p.1 != m }
    let s2 := (s.awaited.filter fun p => decide (p.1 = m)).foldl (fun t p => takeAck m p.2 0x05 t) s1
    (sourceLost m (onEveryCore (fun t => membershipRecord m 1 (faultChannels m t)) s2)).raise [memberEvent m 1]

/-- The meaning of MODULE_LEAVE (R210): module `a`. -/
def execModuleLeave (s : State) : Host.Outcome State Fault Refusal := .next (leaveDomain s.arg.a s)

/-- The meaning of ROUTE_LOSS_TIMEOUT (R420): module `a` has been without a route for 65,536 DCC. -/
def execRouteLossTimeout (s : State) : Host.Outcome State Fault Refusal := .next (leaveDomain (s.arg.a % 2 ^ 12) s)

/-- A module joins: its join stands in the route tables, and the records say so. -/
def joinDomain (m : Nat) (s : State) : State :=
  if !fabricOn s || s.isMember m || decide (2 ^ 12 ≤ m) then s
  else (onEveryCore (membershipRecord m 2) { s with members := m :: s.members }).raise [memberEvent m 2]

/-- The meaning of MODULE_JOIN (R418): module `a`. -/
def execModuleJoin (s : State) : Host.Outcome State Fault Refusal := .next (joinDomain s.arg.a s)

end Sys2Proof.Machine
end

