-- ==== Sys2Proof/Machine/Firmware.lean ====
section
/-! DEFINITION. The housekeeping processor's control of temperature and power (R421), and core retirement (R15, R317). -/

namespace Sys2Proof.Machine

/-! ### Thermal pace and the power cap (R421) -/

/-- The thermal control state replaced. -/
def State.setThermal (s : State) (t : Thermal) : State := { s with thermal := t }

/-- A level of 0-7 raised by 1. -/
def levelUp (x : BitVec 3) : BitVec 3 := if x = 7 then x else x + 1

/-- A level of 0-7 lowered by 1. -/
def levelDown (x : BitVec 3) : BitVec 3 := if x = 0 then x else x - 1

/-- The temperature level of a die. -/
def dieLevel (s : State) (die : Nat) : BitVec 3 := if die = 0 then s.thermal.level0 else s.thermal.level1

/-- THERM of a die: the larger of its temperature level and the power-cap level. -/
def dieTherm (s : State) (die : Nat) : BitVec 3 := if (dieLevel s die).toNat < s.thermal.cap.toNat then s.thermal.cap else dieLevel s die

/-- The temperature level of a die replaced. -/
def setDieLevel (die : Nat) (x : BitVec 3) (s : State) : State :=
  s.setThermal (if die = 0 then { s.thermal with level0 := x } else { s.thermal with level1 := x })

/-- THERM of every core takes its die's value (R226). -/
def applyTherm (s : State) : State :=
  mapCores (fun c => { c with mat := { c.mat with therm := dieTherm s (dieOf c.num) } }) s

/-- A thermal event (Table 21-15, type 6). -/
def thermalEvent (s : State) (die : Nat) (temp : Int) (kind : Nat) : Event :=
  recordEvent { type := 6, cont := false
                payload := BitVec.ofNat 384 (die + (dieTherm s die).toNat * 2 ^ 8 + (BitVec.ofInt 16 temp).toNat * 2 ^ 16 + kind * 2 ^ 32) }

/-- One thermal step of a die whose hottest sensor reads `temp`: one level up at 105 degrees or more, one down at 95 or less. -/
def stepDie (die : Nat) (temp : Int) (s : State) : State :=
  let x := dieLevel s die
  let y := if 105 ≤ temp then levelUp x else if temp ≤ 95 then levelDown x else x
  if y = x then s
  else
    let s1 := applyTherm (setDieLevel die y s)
    s1.raise [thermalEvent s1 die temp 0]

/-- A die stood at 115 degrees or more when it was last read. -/
def dieHot (s : State) (die : Nat) : Bool := if die = 0 then s.thermal.hot0 else s.thermal.hot1

/-- What is remembered of a die's temperature. -/
def setDieHot (die : Nat) (x : Bool) (s : State) : State :=
  s.setThermal (if die = 0 then { s.thermal with hot0 := x } else { s.thermal with hot1 := x })

/-- The trip of a die that a step finds risen to 115 degrees or more, or to 125. -/
def tripEvents (s : State) (die : Nat) (temp : Int) : List Event :=
  if 115 ≤ temp ∧ (!dieHot s die ∨ (125 ≤ temp ∧ !s.thermal.tripped)) then
    [{ i := .thermalTrip, arg := { core := 0, sec := .ctl, a := die, b := temp.toNat, data := .none } }]
  else []

/-- Both dies make their thermal step. -/
def thermalStep (s : State) : State :=
  let t0 := Config.hottest s.tick 0
  let t1 := Config.hottest s.tick 1
  let s1 := setDieHot 1 (decide (115 ≤ t1)) (setDieHot 0 (decide (115 ≤ t0)) (stepDie 1 t1 (stepDie 0 t0 s)))
  { s1.raise (tripEvents s 0 t0 ++ tripEvents s 1 t1) with tick := s.tick + 1 }

/-- The meaning of THERMAL_STEP (R421). -/
def execThermalStep (s : State) : Host.Outcome State Fault Refusal :=
  .next (thermalStep (s.setThermal { s.thermal with lastStep := s.now / 65536 * 65536 }))

/-- The record of a thermal stop: CoreStop is given no cause, so its cause and record are free values. -/
def thermalStopRec (s : State) : TrapRec :=
  { cause := (Config.freeByte s.tick s.core.num).toNat, info := Config.freeWord s.tick (2 * s.core.num), addr := Config.freeWord s.tick (2 * s.core.num + 1) }

/-- At 125 degrees every core stops, and only a power cycle restarts the module. -/
def stopAll (die : Nat) (temp : Int) (s : State) : State :=
  let s1 := onEveryCore (fun t => if t.core.stop then t else coreStop .ctl (thermalStopRec t) (t.str .ctl).pc t) s
  { (s1.setThermal { s1.thermal with tripped := true }).raise [thermalEvent s1 die temp 2] with tick := s1.tick + 1 }

/-- A sensor of a die reaches 115 degrees: level 7 at once, and an event whatever the level was; at 125, the stop. -/
def thermalTrip (die : Nat) (temp : Int) (s : State) : State :=
  if temp < 115 then s
  else
    let s1 := applyTherm (setDieHot die true (setDieLevel die 7 s))
    let s2 := s1.raise [thermalEvent s1 die temp 1]
    if 125 ≤ temp then stopAll die temp s2 else s2

/-- The meaning of THERMAL_TRIP (R421): die `a`, a sensor at `b` degrees. -/
def execThermalTrip (s : State) : Host.Outcome State Fault Refusal :=
  if 2 ≤ s.arg.a then .fault .noSuchAgent else .next (thermalTrip s.arg.a s.arg.b s)

/-- The power-cap level steps up while the mean power is above the cap, and down otherwise. -/
def powerStep (s : State) : State :=
  let x := s.thermal.cap
  let y := if Config.overCap s.tick s.host.powercap.toNat then levelUp x else levelDown x
  let s0 : State := { s with tick := s.tick + 1 }
  if y = x then s0
  else
    let s1 := applyTherm (s0.setThermal { s0.thermal with cap := y })
    s1.raise [thermalEvent s1 0 (Config.hottest s.tick 0) 3, thermalEvent s1 1 (Config.hottest s.tick 1) 3]

/-- The meaning of POWER_CAP_STEP (R421). -/
def execPowerCapStep (s : State) : Host.Outcome State Fault Refusal :=
  .next (powerStep (s.setThermal { s.thermal with lastCap := s.now / 2 ^ 24 * 2 ^ 24 }))

/-! ### Core retirement (R15, R317) -/

/-- The event of a core's retirement (Table 21-15, type 1): the core, the physical cores before and after, the trigger. -/
def retireEvent (s : State) (n : Nat) (after : BitVec 16) (trigger : Nat) : Event :=
  recordEvent { type := 1, cont := false
                payload := BitVec.ofNat 384 (n + (s.physical[Fin.ofNat 192 n]).toNat * 2 ^ 16 + after.toNat * 2 ^ 32 + trigger % 256 * 2 ^ 48) }

/-- A core is retired (R15, R317): its logical position moves to a spare of its die, or, with none left, is marked absent. The event of the last names a free
value as its new physical core (log entry 53). -/
def retireTo (n trigger : Nat) (s : State) : State :=
  let l := s.spares.filter fun p => decide (p.toNat / 256 = dieOf n)
  match l[Config.spareChoice s.tick n % l.length]? with
  | some p =>
    { s.raise [retireEvent s n p trigger] with physical := s.physical.set (Fin.ofNat 192 n) p, spares := s.spares.filter (· != p), tick := s.tick + 1 }
  | none =>
    let h := s.host
    let one := if n < 96 then 1 else 2 ^ 8
    let s1 := onCore n releaseHere s
    if !h.present.getLsbD n then s
    else
      { (s1.setHost { s1.host with present := h.present &&& ~~~(BitVec.ofNat 192 (2 ^ n)), counts := h.counts - BitVec.ofNat 64 one }).raise
          [retireEvent s n (Config.physicalCore s.tick n) trigger] with tick := s1.tick + 1 }

/-- What firmware's test of a core leads to, by what it finds: nothing (0); a failing column of macro `outcome / 256` (1) or a failing scratchpad row (3),
which a spare of the physical core replaces while one is left (Table 21-7); or a failing core. -/
def retireCore (n trigger outcome : Nat) (s : State) : State :=
  let p := s.physical[Fin.ofNat 192 n]
  match outcome % 256 with
  | 0 => s
  | 1 =>
    let c := (p, outcome / 256 % 32)
    if (s.columnRepairs.filter (· == c)).length < 4 then fieldRepair { s with columnRepairs := c :: s.columnRepairs } else retireTo n trigger s
  | 3 => if (s.rowRepairs.filter (· == p)).length < 64 then fieldRepair { s with rowRepairs := p :: s.rowRepairs } else retireTo n trigger s
  | _ => retireTo n trigger s

/-- A core stands at a pre-emption boundary: no job holds it, or one is to be pre-empted and the streams whose context the supervisor saves are parked (R317,
R346, R382; log entry 53). -/
def atPreemption (s : State) (n : Nat) : Bool :=
  (coreAt n s).all fun c => c.place.isNone || (c.preemptReq && c.streams.copy.parked.isSome && c.streams.mat.parked.isSome && c.streams.vec.parked.isSome)

/-- Firmware tests a core, or notes to test it at its next pre-emption boundary (R317). -/
def testCore (n trigger outcome : Nat) (s : State) : State :=
  let rest := s.suspects.filter fun p => p.1 != n
  if atPreemption s n then retireCore n trigger outcome { s with suspects := rest } else { s with suspects := rest ++ [(n, trigger, outcome)] }

/-- The meaning of CORE_RETIRE (R317): firmware tests core `a` at its next pre-emption boundary, for trigger `b`; `data` is what
the test finds: 0 nothing, 1 a failing column of macro data / 256, 2 a failing core, 3 a failing scratchpad row (Table 21-7). -/
def execCoreRetire (s : State) : Host.Outcome State Fault Refusal :=
  if 192 ≤ s.arg.a then .fault .noSuchAgent
  else match s.arg.data with
    | .word w => .next (testCore s.arg.a s.arg.b w.toNat s)
    | _ => .fault .malformedEvent

end Sys2Proof.Machine
end

