-- ==== Sys2Proof/Machine/Dispatch.lean ====
section
/-! DEFINITION. The meaning of every instruction: one arm per constructor. -/

namespace Sys2Proof.Machine

def exec (i : Instr) (s : State) : Host.Outcome State Fault Refusal :=
  match i with
  | .add o => Sys2Proof.Machine.execAdd o s
  | .sub o => Sys2Proof.Machine.execSub o s
  | .mul o => Sys2Proof.Machine.execMul o s
  | .mulh o => Sys2Proof.Machine.execMulh o s
  | .mulhz o => Sys2Proof.Machine.execMulhz o s
  | .div o => Sys2Proof.Machine.execDiv o s
  | .divz o => Sys2Proof.Machine.execDivz o s
  | .rem o => Sys2Proof.Machine.execRem o s
  | .remz o => Sys2Proof.Machine.execRemz o s
  | .and o => Sys2Proof.Machine.execAnd o s
  | .or o => Sys2Proof.Machine.execOr o s
  | .xor o => Sys2Proof.Machine.execXor o s
  | .andn o => Sys2Proof.Machine.execAndn o s
  | .shl o => Sys2Proof.Machine.execShl o s
  | .shr o => Sys2Proof.Machine.execShr o s
  | .sha o => Sys2Proof.Machine.execSha o s
  | .min o => Sys2Proof.Machine.execMin o s
  | .max o => Sys2Proof.Machine.execMax o s
  | .minz o => Sys2Proof.Machine.execMinz o s
  | .maxz o => Sys2Proof.Machine.execMaxz o s
  | .adda o => Sys2Proof.Machine.execAdda o s
  | .clz o => Sys2Proof.Machine.execClz o s
  | .ctz o => Sys2Proof.Machine.execCtz o s
  | .popc o => Sys2Proof.Machine.execPopc o s
  | .sext o => Sys2Proof.Machine.execSext o s
  | .pick o => Sys2Proof.Machine.execPick o s
  | .addi o => Sys2Proof.Machine.execAddi o s
  | .andi o => Sys2Proof.Machine.execAndi o s
  | .ori o => Sys2Proof.Machine.execOri o s
  | .xori o => Sys2Proof.Machine.execXori o s
  | .shli o => Sys2Proof.Machine.execShli o s
  | .shri o => Sys2Proof.Machine.execShri o s
  | .shai o => Sys2Proof.Machine.execShai o s
  | .lil o => Sys2Proof.Machine.execLil o s
  | .lih o => Sys2Proof.Machine.execLih o s
  | .bfx o => Sys2Proof.Machine.execBfx o s
  | .bfi o => Sys2Proof.Machine.execBfi o s
  | .cmp o => Sys2Proof.Machine.execCmp o s
  | .cmpi o => Sys2Proof.Machine.execCmpi o s
  | .plog o => Sys2Proof.Machine.execPlog o s
  | .sel o => Sys2Proof.Machine.execSel o s
  | .br o => Sys2Proof.Machine.execBr o s
  | .call o => Sys2Proof.Machine.execCall o s
  | .jmp o => Sys2Proof.Machine.execJmp o s
  | .callr o => Sys2Proof.Machine.execCallr o s
  | .ret o => Sys2Proof.Machine.execRet o s
  | .ndim o => Sys2Proof.Machine.execNdim o s
  | .nest o => Sys2Proof.Machine.execNest o s
  | .lidx o => Sys2Proof.Machine.execLidx o s
  | .ld o => Sys2Proof.Machine.execLd o s
  | .ldz o => Sys2Proof.Machine.execLdz o s
  | .st o => Sys2Proof.Machine.execSt o s
  | .ldn o => Sys2Proof.Machine.execLdn o s
  | .stn o => Sys2Proof.Machine.execStn o s
  | .fld o => Sys2Proof.Machine.execFld o s
  | .fst o => Sys2Proof.Machine.execFst o s
  | .csrr o => Sys2Proof.Machine.execCsrr o s
  | .csrw o => Sys2Proof.Machine.execCsrw o s
  | .cyc o => Sys2Proof.Machine.execCyc o s
  | .nop o => Sys2Proof.Machine.execNop o s
  | .trap o => Sys2Proof.Machine.execTrap o s
  | .fence o => Sys2Proof.Machine.execFence o s
  | .semsig o => Sys2Proof.Machine.execSemsig o s
  | .semwait o => Sys2Proof.Machine.execSemwait o s
  | .semtry o => Sys2Proof.Machine.execSemtry o s
  | .semadd o => Sys2Proof.Machine.execSemadd o s
  | .semcas o => Sys2Proof.Machine.execSemcas o s
  | .semrd o => Sys2Proof.Machine.execSemrd o s
  | .mtxlock o => Sys2Proof.Machine.execMtxlock o s
  | .mtxtry o => Sys2Proof.Machine.execMtxtry o s
  | .mtxfree o => Sys2Proof.Machine.execMtxfree o s
  | .bararr o => Sys2Proof.Machine.execBararr o s
  | .barwait o => Sys2Proof.Machine.execBarwait o s
  | .rdv o => Sys2Proof.Machine.execRdv o s
  | .evset o => Sys2Proof.Machine.execEvset o s
  | .evclr o => Sys2Proof.Machine.execEvclr o s
  | .evwait o => Sys2Proof.Machine.execEvwait o s
  | .waitlt o => Sys2Proof.Machine.execWaitlt o s
  | .claim o => Sys2Proof.Machine.execClaim o s
  | .commit o => Sys2Proof.Machine.execCommit o s
  | .await o => Sys2Proof.Machine.execAwait o s
  | .retire o => Sys2Proof.Machine.execRetire o s
  | .sleepu o => Sys2Proof.Machine.execSleepu o s
  | .waita o => Sys2Proof.Machine.execWaita o s
  | .mode o => Sys2Proof.Machine.execMode o s
  | .tret o => Sys2Proof.Machine.execTret o s
  | .ctxsave o => Sys2Proof.Machine.execCtxsave o s
  | .ctxload o => Sys2Proof.Machine.execCtxload o s
  | .preempt o => Sys2Proof.Machine.execPreempt o s
  | .semmap o => Sys2Proof.Machine.execSemmap o s
  | .tlbinv o => Sys2Proof.Machine.execTlbinv o s
  | .tlbprobe o => Sys2Proof.Machine.execTlbprobe o s
  | .hint o => Sys2Proof.Machine.execHint o s
  | .halt o => Sys2Proof.Machine.execHalt o s
  | .wflush o => Sys2Proof.Machine.execWflush o s
  | .qcfg o => Sys2Proof.Machine.execQcfg o s
  | .chmap o => Sys2Proof.Machine.execChmap o s
  | .send o => Sys2Proof.Machine.execSend o s
  | .sends o => Sys2Proof.Machine.execSends o s
  | .recv o => Sys2Proof.Machine.execRecv o s
  | .recvs o => Sys2Proof.Machine.execRecvs o s
  | .peek o => Sys2Proof.Machine.execPeek o s
  | .qstat o => Sys2Proof.Machine.execQstat o s
  | .qfree o => Sys2Proof.Machine.execQfree o s
  | .mcast o => Sys2Proof.Machine.execMcast o s
  | .fgstart o => Sys2Proof.Machine.execFgstart o s
  | .fgstop o => Sys2Proof.Machine.execFgstop o s
  | .fgstat o => Sys2Proof.Machine.execFgstat o s
  | .fglate o => Sys2Proof.Machine.execFglate o s
  | .fgwin o => Sys2Proof.Machine.execFgwin o s
  | .fgpace o => Sys2Proof.Machine.execFgpace o s
  | .fgmc o => Sys2Proof.Machine.execFgmc o s
  | .fgmark o => Sys2Proof.Machine.execFgmark o s
  | .launch o => Sys2Proof.Machine.execLaunch o s
  | .post o => Sys2Proof.Machine.execPost o s
  | .take o => Sys2Proof.Machine.execTake o s
  | .yieldJob o => Sys2Proof.Machine.execYield o s
  | .doneJob o => Sys2Proof.Machine.execDone o s
  | .coord o => Sys2Proof.Machine.execCoord o s
  | .swcfg o => Sys2Proof.Machine.execSwcfg o s
  | .swtake o => Sys2Proof.Machine.execSwtake o s
  | .stgq o => Sys2Proof.Machine.execStgq o s
  | .asamp o => Sys2Proof.Machine.execAsamp o s
  | .amode o => Sys2Proof.Machine.execAmode o s
  | .athr o => Sys2Proof.Machine.execAthr o s
  | .aown o => Sys2Proof.Machine.execAown o s
  | .aforce o => Sys2Proof.Machine.execAforce o s
  | .ahist o => Sys2Proof.Machine.execAhist o s
  | .aclr o => Sys2Proof.Machine.execAclr o s
  | .astat o => Sys2Proof.Machine.execAstat o s
  | .arel o => Sys2Proof.Machine.execArel o s
  | .cset o => Sys2Proof.Machine.execCset o s
  | .cseti o => Sys2Proof.Machine.execCseti o s
  | .cdim o => Sys2Proof.Machine.execCdim o s
  | .cldc o => Sys2Proof.Machine.execCldc o s
  | .cstc o => Sys2Proof.Machine.execCstc o s
  | .copy o => Sys2Proof.Machine.execCopy o s
  | .gather o => Sys2Proof.Machine.execGather o s
  | .scatter o => Sys2Proof.Machine.execScatter o s
  | .cfill o => Sys2Proof.Machine.execCfill o s
  | .kvlist o => Sys2Proof.Machine.execKvlist o s
  | .ttile o => Sys2Proof.Machine.execTtile o s
  | .cfollow o => Sys2Proof.Machine.execCfollow o s
  | .tdef o => Sys2Proof.Machine.execTdef o s
  | .publish o => Sys2Proof.Machine.execPublish o s
  | .frmap o => Sys2Proof.Machine.execFrmap o s
  | .cstat o => Sys2Proof.Machine.execCstat o s
  | .cbmap o => Sys2Proof.Machine.execCbmap o s
  | .cresume o => Sys2Proof.Machine.execCresume o s
  | .ccancel o => Sys2Proof.Machine.execCcancel o s
  | .cwait o => Sys2Proof.Machine.execCwait o s
  | .mcfg o => Sys2Proof.Machine.execMcfg o s
  | .mrel o => Sys2Proof.Machine.execMrel o s
  | .wload o => Sys2Proof.Machine.execWload o s
  | .wflip o => Sys2Proof.Machine.execWflip o s
  | .mmul o => Sys2Proof.Machine.execMmul o s
  | .mband o => Sys2Proof.Machine.execMband o s
  | .mtag o => Sys2Proof.Machine.execMtag o s
  | .mswap o => Sys2Proof.Machine.execMswap o s
  | .mclr o => Sys2Proof.Machine.execMclr o s
  | .msave o => Sys2Proof.Machine.execMsave o s
  | .mrest o => Sys2Proof.Machine.execMrest o s
  | .mpace o => Sys2Proof.Machine.execMpace o s
  | .mdrain o => Sys2Proof.Machine.execMdrain o s
  | .mstat o => Sys2Proof.Machine.execMstat o s
  | .vshape o => Sys2Proof.Machine.execVshape o s
  | .vld o => Sys2Proof.Machine.execVld o s
  | .vst o => Sys2Proof.Machine.execVst o s
  | .vldm o => Sys2Proof.Machine.execVldm o s
  | .vstm o => Sys2Proof.Machine.execVstm o s
  | .vgat o => Sys2Proof.Machine.execVgat o s
  | .vsct o => Sys2Proof.Machine.execVsct o s
  | .vsplat o => Sys2Proof.Machine.execVsplat o s
  | .vmovs o => Sys2Proof.Machine.execVmovs o s
  | .viota o => Sys2Proof.Machine.execViota o s
  | .vaccr o => Sys2Proof.Machine.execVaccr o s
  | .vaccw o => Sys2Proof.Machine.execVaccw o s
  | .vadd o => Sys2Proof.Machine.execVadd o s
  | .vsub o => Sys2Proof.Machine.execVsub o s
  | .vmul o => Sys2Proof.Machine.execVmul o s
  | .vmax o => Sys2Proof.Machine.execVmax o s
  | .vmin o => Sys2Proof.Machine.execVmin o s
  | .vabs o => Sys2Proof.Machine.execVabs o s
  | .vneg o => Sys2Proof.Machine.execVneg o s
  | .vclamp o => Sys2Proof.Machine.execVclamp o s
  | .vscale o => Sys2Proof.Machine.execVscale o s
  | .vrcp o => Sys2Proof.Machine.execVrcp o s
  | .vrsq o => Sys2Proof.Machine.execVrsq o s
  | .vexp o => Sys2Proof.Machine.execVexp o s
  | .vlog o => Sys2Proof.Machine.execVlog o s
  | .vcvt o => Sys2Proof.Machine.execVcvt o s
  | .vquant o => Sys2Proof.Machine.execVquant o s
  | .viadd o => Sys2Proof.Machine.execViadd o s
  | .visub o => Sys2Proof.Machine.execVisub o s
  | .vimul o => Sys2Proof.Machine.execVimul o s
  | .vand o => Sys2Proof.Machine.execVand o s
  | .vor o => Sys2Proof.Machine.execVor o s
  | .vxor o => Sys2Proof.Machine.execVxor o s
  | .vshl o => Sys2Proof.Machine.execVshl o s
  | .vshr o => Sys2Proof.Machine.execVshr o s
  | .vsha o => Sys2Proof.Machine.execVsha o s
  | .vcmp o => Sys2Proof.Machine.execVcmp o s
  | .vicmp o => Sys2Proof.Machine.execVicmp o s
  | .vsel o => Sys2Proof.Machine.execVsel o s
  | .vmlog o => Sys2Proof.Machine.execVmlog o s
  | .vmpop o => Sys2Proof.Machine.execVmpop o s
  | .vmfirst o => Sys2Proof.Machine.execVmfirst o s
  | .vred o => Sys2Proof.Machine.execVred o s
  | .vredc o => Sys2Proof.Machine.execVredc o s
  | .vscan o => Sys2Proof.Machine.execVscan o s
  | .vpart o => Sys2Proof.Machine.execVpart o s
  | .vhist o => Sys2Proof.Machine.execVhist o s
  | .vord o => Sys2Proof.Machine.execVord o s
  | .vtrn o => Sys2Proof.Machine.execVtrn o s
  | .vperm o => Sys2Proof.Machine.execVperm o s
  | .vosm o => Sys2Proof.Machine.execVosm o s
  | .vfma o => Sys2Proof.Machine.execVfma o s
  | .ttclr o => Sys2Proof.Machine.execTtclr o s
  | .ttnew o => Sys2Proof.Machine.execTtnew o s
  | .ttadd o => Sys2Proof.Machine.execTtadd o s
  | .ttload o => Sys2Proof.Machine.execTtload o s
  | .ttstore o => Sys2Proof.Machine.execTtstore o s
  | .ttmask o => Sys2Proof.Machine.execTtmask o s
  | .ttpos o => Sys2Proof.Machine.execTtpos o s
  | .ttdepth o => Sys2Proof.Machine.execTtdepth o s
  | .ttpath o => Sys2Proof.Machine.execTtpath o s
  | .ttprune o => Sys2Proof.Machine.execTtprune o s
  | .ttstat o => Sys2Proof.Machine.execTtstat o s
  | .bartWrite => Sys2Proof.Machine.execBartWrite s
  | .sleepWake => Sys2Proof.Machine.execSleepWake s
  | .watchEvent => Sys2Proof.Machine.execWatchEvent s
  | .watchPoll => Sys2Proof.Machine.execWatchPoll s
  | .watchTimeout => Sys2Proof.Machine.execWatchTimeout s
  | .remoteSemRequest => Sys2Proof.Machine.execRemoteSemRequest s
  | .remoteSemAnswer => Sys2Proof.Machine.execRemoteSemAnswer s
  | .remoteSemResend => Sys2Proof.Machine.execRemoteSemResend s
  | .remoteSemTimeout => Sys2Proof.Machine.execRemoteSemTimeout s
  | .remoteWithdrawal => Sys2Proof.Machine.execRemoteWithdrawal s
  | .queueEntryArrival => Sys2Proof.Machine.execQueueEntryArrival s
  | .creditReturn => Sys2Proof.Machine.execCreditReturn s
  | .messageAckTimeout => Sys2Proof.Machine.execMessageAckTimeout s
  | .timedRecvDue => Sys2Proof.Machine.execTimedRecvDue s
  | .legRead => Sys2Proof.Machine.execLegRead s
  | .legStart => Sys2Proof.Machine.execLegStart s
  | .controlLeg => Sys2Proof.Machine.execControlLeg s
  | .sourceLegSend => Sys2Proof.Machine.execSourceLegSend s
  | .readyNotice => Sys2Proof.Machine.execReadyNotice s
  | .goneAnswer => Sys2Proof.Machine.execGoneAnswer s
  | .multicastCellArrival => Sys2Proof.Machine.execMulticastCellArrival s
  | .multicastSilence => Sys2Proof.Machine.execMulticastSilence s
  | .legLand => Sys2Proof.Machine.execLegLand s
  | .markFire => Sys2Proof.Machine.execMarkFire s
  | .schedulerDecision => Sys2Proof.Machine.execSchedulerDecision s
  | .packetDeadline => Sys2Proof.Machine.execPacketDeadline s
  | .balancer => Sys2Proof.Machine.execBalancer s
  | .recordDispatch => Sys2Proof.Machine.execRecordDispatch s
  | .jobRetire => Sys2Proof.Machine.execJobRetire s
  | .swarmRingPoll => Sys2Proof.Machine.execSwarmRingPoll s
  | .batchEmit => Sys2Proof.Machine.execBatchEmit s
  | .auditCheckEnd => Sys2Proof.Machine.execAuditCheckEnd s
  | .commandStart => Sys2Proof.Machine.execCommandStart s
  | .cellArrival => Sys2Proof.Machine.execCellArrival s
  | .promiseDue => Sys2Proof.Machine.execPromiseDue s
  | .freezeLimit => Sys2Proof.Machine.execFreezeLimit s
  | .commandComplete => Sys2Proof.Machine.execCommandComplete s
  | .followOnArrival => Sys2Proof.Machine.execFollowOnArrival s
  | .listedItemFinish => Sys2Proof.Machine.execListedItemFinish s
  | .tolerantRetry => Sys2Proof.Machine.execTolerantRetry s
  | .incomingWrite => Sys2Proof.Machine.execIncomingWrite s
  | .wloadDispatch => Sys2Proof.Machine.execWloadDispatch s
  | .wloadFillEnd => Sys2Proof.Machine.execWloadFillEnd s
  | .wflipDispatch => Sys2Proof.Machine.execWflipDispatch s
  | .mmulDispatch => Sys2Proof.Machine.execMmulDispatch s
  | .mmulFinish => Sys2Proof.Machine.execMmulFinish s
  | .resultLand => Sys2Proof.Machine.execResultLand s
  | .trapEntry => Sys2Proof.Machine.execTrapEntry s
  | .asyncTrapDelivery => Sys2Proof.Machine.execAsyncTrapDelivery s
  | .watchdogExpiry => Sys2Proof.Machine.execWatchdogExpiry s
  | .doorbell => Sys2Proof.Machine.execDoorbell s
  | .coreRetire => Sys2Proof.Machine.execCoreRetire s
  | .lqwin => Sys2Proof.Machine.execLqwin s
  | .hostMemRead => Sys2Proof.Machine.execHostMemRead s
  | .hostMemWrite => Sys2Proof.Machine.execHostMemWrite s
  | .linkStateChange => Sys2Proof.Machine.execLinkStateChange s
  | .moduleReset => Sys2Proof.Machine.execModuleReset s
  | .bootgo => Sys2Proof.Machine.execBootgo s
  | .bootVerify => Sys2Proof.Machine.execBootVerify s
  | .selfTestDone => Sys2Proof.Machine.execSelfTestDone s
  | .helper => Sys2Proof.Machine.execHelper s
  | .enrol => Sys2Proof.Machine.execEnrol s
  | .attest => Sys2Proof.Machine.execAttest s
  | .evring => Sys2Proof.Machine.execEvring s
  | .powercap => Sys2Proof.Machine.execPowercap s
  | .history => Sys2Proof.Machine.execHistory s
  | .unknownCommand => Sys2Proof.Machine.execUnknownCommand s
  | .mailboxDone => Sys2Proof.Machine.execMailboxDone s
  | .go => Sys2Proof.Machine.execGo s
  | .registerWrite => Sys2Proof.Machine.execRegisterWrite s
  | .eventPost => Sys2Proof.Machine.execEventPost s
  | .flitReceive => Sys2Proof.Machine.execFlitReceive s
  | .nakReceive => Sys2Proof.Machine.execNakReceive s
  | .linkRetrain => Sys2Proof.Machine.execLinkRetrain s
  | .retrainEnd => Sys2Proof.Machine.execRetrainEnd s
  | .routeLossTimeout => Sys2Proof.Machine.execRouteLossTimeout s
  | .moduleJoin => Sys2Proof.Machine.execModuleJoin s
  | .moduleLeave => Sys2Proof.Machine.execModuleLeave s
  | .patrolScrub => Sys2Proof.Machine.execPatrolScrub s
  | .layerMapOut => Sys2Proof.Machine.execLayerMapOut s
  | .stageBankSpare => Sys2Proof.Machine.execStageBankSpare s
  | .bulkBankSpare => Sys2Proof.Machine.execBulkBankSpare s
  | .alertBackOff => Sys2Proof.Machine.execAlertBackOff s
  | .thermalStep => Sys2Proof.Machine.execThermalStep s
  | .thermalTrip => Sys2Proof.Machine.execThermalTrip s
  | .powerCapStep => Sys2Proof.Machine.execPowerCapStep s
  | .farStoreAcknowledged => Sys2Proof.Machine.execFarStoreAcknowledged s
  | .translationWalkEnd => Sys2Proof.Machine.execTranslationWalkEnd s
  | .spareRowCopied => Sys2Proof.Machine.execSpareRowCopied s
  | .bankBlockEnd => Sys2Proof.Machine.execBankBlockEnd s
  | .msixVectorUnmask => Sys2Proof.Machine.execMsixVectorUnmask s

end Sys2Proof.Machine
end

