-- ==== Sys2Proof/Machine/Fetch.lean ====
section
/-! DEFINITION. Fetching a word (R51, R369), who acts next, and the turn passing on. -/

namespace Sys2Proof.Machine

/-- The 32-bit word at the program counter of the stream whose turn it is (R51). The bytes of an uncorrectable line are free. A word of its section
that was written since its last FENCE kall is fetched old or new (R121, log entry 8). -/
def fetchWord (s : State) : Nat :=
  match (s.core.oldWords.get s.turn).find? fun p => decide (p.1 = s.cur.pc.toNat) with
  | some p => if Config.staleFetch s.tick s.cur.pc.toNat then p.2.toNat else spadReadNum s s.cur.pc.toNat 4
  | none => spadReadNum s s.cur.pc.toNat 4

/-- A fetch inside the supervisor region in job mode, or outside it in supervisor mode (R369). -/
def fetchForbidden (s : State) : Bool :=
  let pc := s.cur.pc.toNat
  if s.cur.priv then !(inRange pc (srLow s.core) (srHigh s.core - srLow s.core)) else touchesSr s.core pc 4

/-- What the stream whose turn it is finds at its program counter. -/
inductive Fetched where
  /-- A word that decodes. -/
  | word (i : Instr)
  /-- A word that fails a check of Table 3-5, or a forbidden fetch. -/
  | trap (r : TrapRec)

/-- Fetch and decode. -/
def fetch (s : State) : Fetched :=
  if fetchForbidden s then .trap (mkTrap cPrivilege 1 s.cur.pc.toNat)
  else match decodeIn s.turn (fetchWord s) with
    | .ok i => .word i
    | .error e => .trap (illegalRec (fetchWord s) (checkNumber e) 0)

/-- An asynchronous cause pends that the ctl stream, which has the turn, takes at this boundary, in job mode, before any other word (R375). -/
def asyncFirst (s : State) : Bool := decide (s.turn = .ctl) && !s.cur.priv && (nextAsync s).isSome

/-- The turn of a stream that does not issue: one that was asked to park parks, once no trap is on its way to it (R133, R379). -/
def restTurn (s : State) : State :=
  if s.cur.parkAsked && s.cur.deferred.isEmpty && isStarted s s.turn && (remoteOf s s.turn).isNone then parkStream s s.turn else s

/-- A stream that can issue: started, not parked nor asked to be, not waiting, with no trap set aside for its next boundary and no asynchronous one to take there, its core
neither stopped nor frozen (R379, R133, R155, R374, R375, R19), and at most one word in a core cycle (R62). -/
def runnable (s : State) : Bool :=
  !s.core.stop && s.cur.parked.isNone && !s.cur.parkAsked && s.cur.waiting.isNone && s.cur.deferred.isEmpty && s.core.copy.frozenSince.isNone
    && decide (s.cur.clk ≤ s.ccc) && !asyncFirst s

/-- The next stream in the order of turns. -/
def nextSec : Sec → Sec
  | .ctl => .copy
  | .copy => .mat
  | .mat => .vec
  | .vec => .ctl

/-- A core cycle without a broadcast goes by for an audit check in progress (R305). -/
def auditTick (ccc : Nat) (c : CoreState) : CoreState :=
  if c.mat.running.any fun j => decide (ccc ≤ j.lastPlane) then c
  else { c with audit := { c.audit with sample := c.audit.sample.map fun x => { x with tap := x.tap.map fun t => { t with left := t.left - 1 } } } }

/-- The next core comes into focus; when the round of cores is complete the device cycle advances (R14) and what waits to go
out goes to the ports. A frozen core's cycle
counter stands still (R19). -/
def nextCore (s : State) : State :=
  let c := if s.core.copy.frozenSince.isSome then { s.core with frozen := s.core.frozen + 1 } else auditTick s.ccc s.core
  match s.others with
  | [] => fabricTick { s with core := c, now := s.now + 1 }
  | d :: rest =>
    if d.num ≤ c.num then fabricTick { s with core := d, others := rest ++ [c], now := s.now + 1 }
    else { s with core := d, others := rest ++ [c] }

/-- The turn passes to the next stream, and after the vec stream to the next core. -/
def rotate (s : State) : State :=
  match s.turn with
  | .vec => nextCore { s with turn := .ctl }
  | t => { s with turn := nextSec t }

/-- An outcome with the turn passed on. -/
def passOn (o : Host.Outcome State Fault Refusal) : Host.Outcome State Fault Refusal :=
  match o with
  | .next s => .next (rotate s)
  | .fault f => .fault f
  | .refused r => .refused r

/-- A word of bytes stored at an address of the focused core's scratchpad, as they lie in memory, where the stream whose turn it is fetches it. -/
def placeWord (s : State) (a w : Nat) : State :=
  let c := spadPutBytes s.core a (bytesOfWord w)
  s.setCore { c with oldWords := c.oldWords.set s.turn [] }

end Sys2Proof.Machine
end

