-- ==== Sys2Proof/Machine/Due.lean ====
section
/-! DEFINITION. The steps of units that fall due by the machine's own state: what the stream whose turn it is, the focused core's
engines, and the module's units do next without an instruction. -/

namespace Sys2Proof.Machine

/-- The first of several events, each looked for only when those before it are not due. -/
def firstDue : List (Unit → Option Event) → Option Event
  | [] => none
  | f :: rest =>
    match f () with
    | some e => some e
    | none => firstDue rest

/-- An event of the focused core that is due when `b` holds. -/
def dueWhen (s : State) (b : Bool) (i : Instr) (t : Sec) (a c : Nat) : Unit → Option Event :=
  fun _ => if b then some (coreEvent i s.core.num t a c .none) else none

/-! ### A stream -/

/-- A trap can be taken in stream t: no answer of a remote file is outstanding, or it can be asked back (R136). -/
def canAnswer (s : State) (t : Sec) : Bool :=
  match remoteOf s t with
  | none => true
  | some (r, _) => decide (r.req.op = .wait) && !r.withdraw

/-- A result in flight lands: one with a trap at the next boundary, flags once the stream has passed their cycle (R48, R257). -/
def landingDue (s : State) (l : Landing) : Bool :=
  if l.trap.isSome then decide (l.due ≤ s.cur.nextClk s.ccc) else decide (l.due < s.cur.nextClk s.ccc)

/-- A stream's own wait has come to its end by time, or by what it watches. The 65,536 device cycles of an answer count from the first issue, however often
a refused request is sent again (R135, log entry 48). -/
def waitDue (s : State) (t : Sec) : Option Event :=
  let ev (b : Bool) (i : Instr) : Option Event := if b then some (coreEvent i s.core.num t 0 0 .none) else none
  match waitsOn s t with
  | some (.sleep c) => ev (decide (c ≤ s.now)) .sleepWake
  | some (.watch spad a old _ due poll) =>
    if !spad && bankHeld s a 8 then none
    else if watchNotice s t spad a old poll then ev true .watchEvent
    else if poll.any fun p => decide (p ≤ s.now) then ev true .watchPoll
    else ev (due.any fun d => decide (d ≤ s.now)) .watchTimeout
  | some (.remote r _) =>
    if decide (r.issued + 65536 ≤ s.now) then ev true .remoteSemTimeout
    else ev (r.refusedAt.any fun c => decide (c + 256 ≤ s.now)) .remoteSemResend
  | some (.recv q _ _ (some p)) => ev (decide (p ≤ s.now) && !(s.core.msgs.queues[Fin.ofNat 16 q]).origins.isEmpty) .timedRecvDue
  | _ => none

/-- A follow-on record arrives when the streams of the core have had their turn in the cycle: a stream's matrix command enters first (R224). -/
def followDue (s : State) : Option Event :=
  (s.core.copy.queue.find? (mayFollow s)).map fun c => coreEvent .followOnArrival s.core.num .copy c.seq.toNat 0 .none

/-- What falls due in the stream whose turn it is. -/
def streamDue (s : State) : Option Event :=
  let t := s.turn
  let frozen := s.core.copy.frozenSince.isSome
  firstDue
    [ fun _ => if t = .ctl ∨ frozen then none
        else ((s.str t).landing.findIdx? (landingDue s)).map fun i => coreEvent .resultLand s.core.num t i 0 .none,
      dueWhen s ((s.str t).deferred.head?.any (fun r => canTake s t r.record) && canAnswer s t) .trapEntry t 0 0,
      fun _ => if frozen then none else waitDue s t,
      fun _ => if t = .vec then followDue s else none ]

/-! ### The focused core -/

/-- An event of walk `w` with leg order `o`. -/
def walkEvent (i : Instr) (w o : Nat) : Event := coreEvent i w .ctl o 0 .none

/-- What a live command of the copy engine does next (R152-R155, R169, R180, R184), but for its follow-on record. -/
def commandDue (s : State) (c : Cmd) : Option Event :=
  let ev (b : Bool) (i : Instr) : Option Event := if b then some (coreEvent i s.core.num .copy c.seq.toNat 0 .none) else none
  match c.phase with
  | .queued => none
  | .fetching =>
    if !decide (c.arrive ≤ s.now) || heldByEarlier s c || !hasRoom s c || cmdBanked s c then none
    else if !c.kind.listed then ev true .cellArrival
    else if c.todo.isEmpty && c.delayed.isEmpty && !c.skipped.isEmpty && !c.retried then ev c.heldItems.isEmpty .tolerantRetry
    else ev true .listedItemFinish
  | .held => none
  | .landed =>
    if !performedAll s c then none
    else if c.puben && !c.published then ev true .commandComplete
    else if c.follow && decide (c.fault = 0) && !c.followed then none
    else ev (s.core.copy.queue.head?.any fun d => d.seq == c.seq) .commandComplete

/-- What an FLD of the core does next: its data arrives, and it lands at its promise or at once when late (R104, R168, R170). -/
def fldDue (s : State) (f : Fld) : Option Event :=
  if !f.arrived then (if f.arrive ≤ s.now ∧ (f.promise ≤ s.now ∨ landingBytes s.core + f.size ≤ landingSize) ∧ !bankHeld s f.pa f.size ∧ !s.awaits (.load s.core.num f.id) then some (coreEvent .cellArrival s.core.num .ctl f.id 0 .none) else none)
  else if f.promise ≤ s.now ∨ f.late then some (coreEvent .resultLand s.core.num .ctl f.id 0 .none) else none

/-- The freeze has lasted FRZL device cycles (R170). -/
def freezeOver (s : State) : Bool := s.core.copy.frozenSince.any fun t => decide (t + s.core.copy.frzl.toNat ≤ s.now)

/-- A point-to-point channel with an entry that nothing has acknowledged in 65,536 device cycles (R207). -/
def unacknowledged (s : State) (t : Sec) : Option Nat :=
  (channelTable s t).toList.findIdx? fun c => c.inFlight.head?.any fun d => decide (d + 65536 ≤ s.now)

/-- What the matrix array does next (R223, R226, R233-R235). -/
def matrixDue (s : State) : List (Unit → Option Event) :=
  if s.core.copy.frozenSince.isSome then []
  else
    [ dueWhen s (s.core.mat.fill.any fun f => decide (f.ends ≤ s.ccc)) .wloadFillEnd .mat 0 0,
      dueWhen s (s.core.mat.running.head?.any fun j => decide (j.finish ≤ s.ccc)) .mmulFinish .mat 0 0,
      dueWhen s (leaves s 1).isSome .wloadDispatch .mat 0 0,
      dueWhen s (leaves s 2).isSome .wflipDispatch .mat 0 0,
      dueWhen s (leaves s 0).isSome .mmulDispatch .mat 0 0 ]

/-- An asynchronous cause can be delivered now (R310, R375), or ends a HALT (R381). -/
def asyncDue (s : State) : Bool :=
  (decide (waitsOn s .ctl = some .halt) && decide (spend s ≠ 0)) || (s.core.audit.pend && s.core.audit.owner == 2)
    || (canDeliver s && canAnswer s .ctl && (nextAsync s).isSome)

/-- What falls due in the focused core. -/
def coreDue (s : State) : Option Event :=
  firstDue
    ([ dueWhen s (decide (s.core.wdog ≠ 0) && decide (s.core.wdog.toNat ≤ s.now)) .watchdogExpiry .ctl 0 0,
       dueWhen s (s.core.audit.sample.any fun x => x.tap.any fun t => decide (t.left = 0)) .auditCheckEnd .mat 0 0,
       fun _ => s.core.streams.ctl.flds.findSome? (fldDue s),
       dueWhen s (s.core.copy.queue.any (·.dueHeld s.now)) .promiseDue .copy 0 0,
       fun _ => s.core.copy.queue.findSome? (commandDue s),
       dueWhen s (missingNow s && s.core.copy.frozenSince.isNone) .promiseDue .copy 0 0,
       dueWhen s (freezeOver s) .freezeLimit .copy 0 0,
       dueWhen s (canStart s).isSome .commandStart .copy 0 0,
       fun _ => (unacknowledged s .ctl).map fun c => coreEvent .messageAckTimeout s.core.num .ctl c 0 .none,
       fun _ => (unacknowledged s .copy).map fun c => coreEvent .messageAckTimeout s.core.num .copy c 0 .none ]
      ++ matrixDue s ++ [fun _ => (signalDue s s.core.num).map fun p => walkEvent .legLand p.1 p.2, dueWhen s (asyncDue s) .asyncTrapDelivery .ctl 0 0])

/-! ### The module's units -/

/-- What a leg of a walk does next (R322-R328). -/
def legDue (s : State) (w : Nat) (j : LegJob) : Option Event :=
  if canMove s w j || canPump s w j || canLand s w j then some (walkEvent .legLand w j.order)
  else if canSend s w j then some (walkEvent .sourceLegSend w j.order)
  else if isSilent s j then some (walkEvent .multicastSilence w j.order)
  else if canStartLeg s w j then some (walkEvent .legStart w j.order)
  else none

/-- What a walk does next. -/
def walkDue (s : State) (w : Nat) : Option Event :=
  let x := walkAt s w
  if x.state = .idle ∧ x.mark.isNone then none
  else if x.mark.isSome ∧ markReady x then some (walkEvent .markFire w 0)
  else match x.legs.findSome? (legDue s w) with
    | some e => some e
    | none =>
      if x.state = .running ∧ (x.legs.find? (·.unstarted)).any (fun j => j.leg.isControl) then some (walkEvent .controlLeg w 0)
      else if canReadLeg x && decide (x.readAt < s.now) && !walkSpanHeld s w (x.base + 32 * x.readNext) 32 false then some (walkEvent .legRead w 0) else none

/-- A stage whose oldest record can leave its queue (R353). -/
def dispatchable (s : State) (x : Job) : Option Event :=
  ((List.range x.stages.length).find? fun k => (x.stages[k]?).any fun g => match g.records with
    | [] => false
    | r :: _ => (targetCore s r.cell (stageCores s x.num k)).isSome).map
    fun k => coreEvent .recordDispatch 0 .ctl x.num k .none

/-- What a unit that reads or writes memory does next; it waits while any bank is blocked (R403, log entry 16). -/
def unlessBlocked (s : State) (e : Unit → Option Event) : Unit → Option Event := fun u => if s.tiers.blocked.isEmpty then e u else none

/-- What the scheduler and the gatherer do next (R343, R344, R347, R350, R353-R355). -/
def schedDue (s : State) : List (Unit → Option Event) :=
  let qs := s.sched.queues.toList
  (fun _ => (s.sched.jobs.filter fun x => x.state = .running).findSome? (dispatchable s)) :: List.map (unlessBlocked s)
  [ fun _ => (qs.findIdx? fun x => x.packets.any (isOverdue s)).map fun q => coreEvent .packetDeadline 0 .ctl q 0 .none,
    fun _ => (s.sched.jobs.find? (canRetire s)).map fun x => coreEvent .jobRetire 0 .ctl x.num 0 .none,
    fun _ => if s.sched.lastDecision + 256 ≤ s.now ∧ qs.any (fun x => x.en && !x.packets.isEmpty) then some (plainEvent .schedulerDecision) else none,
    fun _ => if s.sched.lastBalance + 4096 ≤ s.now then some (plainEvent .balancer) else none,
    fun _ => if s.gather.lastPoll + 1024 ≤ s.now ∧ s.gather.rings.toList.any (·.en) then some (plainEvent .swarmRingPoll) else none,
    fun _ => (s.gather.swarms.toList.findIdx? (canEmit s)).map fun w => coreEvent .batchEmit 0 .ctl w 0 .none ]

/-- The event by which firmware serves the mailbox command taken (Table 21-11). -/
def commandOf (code : Nat) : Instr :=
  match code with
  | 1 => .helper
  | 2 => .enrol
  | 3 => .attest
  | 4 => .evring
  | 5 => .powercap
  | 6 => .history
  | _ => .unknownCommand

/-- Firmware runs, from BOOTST 2 until module reset (R409, R412). -/
def firmwareRuns (s : State) : Bool := decide (s.host.boot ≠ .wait) && decide (s.host.boot ≠ .verify)

/-- What the mask ROM does next (R409). -/
def romDue (s : State) : Unit → Option Event := fun _ => if s.host.boot = .verify then some (plainEvent .bootVerify) else none

/-- The atom that the patrol reads next, and what it finds there (R397). -/
def patrolDue (s : State) : Option Event :=
  (patrolNext s).map fun a => coreEvent .patrolScrub 0 .ctl a (Config.patrolFinds s.tick (a / 32)).val .none

/-- A suspected core stands at a pre-emption boundary: firmware tests it (R317). -/
def suspectDue (s : State) : Option Event :=
  (s.suspects.find? fun p => atPreemption s p.1).map fun p => coreEvent .coreRetire p.1 .ctl p.1 p.2.1 (.word (BitVec.ofNat 64 p.2.2))

/-- What firmware does next (R317, R397, R411, R412, R414, R420, R421). -/
def firmwareDue (s : State) : List (Unit → Option Event) :=
  [ fun _ => if s.host.mbresult.isSome then some (plainEvent .mailboxDone) else none,
    unlessBlocked s fun _ => if mailboxServes s then some (plainEvent (commandOf s.host.mbcmd.toNat)) else none,
    fun _ => if s.host.boot = .test ∧ s.host.identity then some (plainEvent .selfTestDone) else none,
    fun _ => suspectDue s,
    unlessBlocked s fun _ => patrolDue s,
    unlessBlocked s fun _ => if !s.host.evWaiting.isEmpty && s.host.evring.any (ringRoom s) then some (plainEvent .eventPost) else none,
    fun _ => if s.thermal.lastStep + 65536 ≤ s.now then some (plainEvent .thermalStep) else none,
    fun _ => if s.thermal.lastCap + 2 ^ 24 ≤ s.now then some (plainEvent .powerCapStep) else none,
    fun _ => (s.noRoute.find? fun p => decide (p.2 + 65536 ≤ s.now)).map fun p => coreEvent .routeLossTimeout 0 .ctl p.1 0 .none ]

/-- What falls due in the module's units. -/
def moduleDue (s : State) : Option Event :=
  firstDue ((fun _ => (List.range 8).findSome? (walkDue s)) :: (fun _ => (blockOver s).map fun b => coreEvent .bankBlockEnd 0 .ctl b 0 .none) :: schedDue s
    ++ romDue s :: if firmwareRuns s then firmwareDue s else [])

/-- The event that falls due in the present state, if any: of a core at its ctl stream's turn, so that engine and forager signals come before every stream's
requests and withdrawals (R129, R133); of the stream at each turn; of the module's units at the ctl stream's turn of core 0. -/
def dueEvent (s : State) : Option Event :=
  firstDue
    [ fun _ => if s.turn = .ctl then coreDue s else none,
      fun _ => streamDue s,
      fun _ => if s.turn = .ctl ∧ s.core.num = 0 then moduleDue s else none ]

end Sys2Proof.Machine
end

