-- ==== Sys2Proof/Machine/Step.lean ====
section
/-! DEFINITION. One step of the module: a pending event, an event that falls due, or the instruction of the stream whose turn it is. -/

namespace Sys2Proof.Machine

/-- A walk that a hint began at core n reads a table entry in a bank that is blocked (R403). -/
def hintHeld (s : State) (n va : Nat) : Bool :=
  match focus n s with
  | some t => walkHeldBy (dieOf n) none t { asid := t.core.asid, root := t.core.ptroot, job := false, write := false } va
  | none => false

/-- An access of the host or of another module that is kept, or a walk that a hint began, waits until its bank is blocked no more (R403). -/
def bankWaits (s : State) (e : Event) : Bool :=
  match e.i, e.arg.data with
  | .hostMemWrite, _ => hostHeld s e.arg.a
  | .hostMemRead, _ => decide (e.arg.b = 0) && hostHeld s e.arg.a
  | .flitReceive, .flit f => decide (e.arg.b = 1) && actHeld s f.act
  | .translationWalkEnd, _ => hintHeld s e.arg.core e.arg.a
  | _, _ => false

/-- A request that reaches the synchronisation file of a core by message in this device cycle waits until the core's streams have had their turn (R129), and an
access to a blocked bank until the block ends. -/
def mustWait (s : State) (e : Event) : Bool :=
  bankWaits s e || (decide (e.i = .remoteSemRequest) || decide (e.i = .remoteWithdrawal)) && decide (e.arg.b = s.now + 1) && decide (s.core.num ≤ e.arg.core)

/-- Two accesses that arrive from outside keep their order: those of the host, and those of one lane of another module (R127, R419). -/
def sameLane (e f : Event) : Bool :=
  let host (x : Event) : Bool := decide (x.i = .hostMemWrite) || (decide (x.i = .hostMemRead) && decide (x.arg.b = 0))
  (host e && host f) || (decide (e.i = .flitReceive) && decide (f.i = .flitReceive) && match e.arg.data, f.arg.data with
    | .flit a, .flit b => decide (a.src = b.src) && decide (a.lane = b.lane)
    | _, _ => false)

/-- The first of the pending events that need not wait, itself or behind an earlier one, and the others. -/
def firstReady (s : State) (kept : List Event) : List Event → Option (Event × List Event)
  | [] => none
  | e :: rest => if mustWait s e || kept.any (sameLane e) then firstReady s (kept ++ [e]) rest else some (e, kept ++ rest)

/-- The first pending event that need not wait, with the state without it. -/
def nextPending (s : State) : Option (Event × State) := (firstReady s [] s.pending).map fun p => (p.1, { s with pending := p.2 })

/-- One step. A pending event is performed first; then what falls due in the focused core and the module's units; then the
stream whose turn it is takes its turn, and the turn passes on. -/
def step (s : State) : Host.Outcome State Fault Refusal :=
  match nextPending s with
  | some (e, t) => exec e.i { t with arg := e.arg }
  | none =>
    match dueEvent s with
    | some e => exec e.i { s with arg := e.arg }
    | none =>
      if runnable s then
        match fetch s with
        | .word i => passOn (exec i s)
        | .trap r => .next (rotate (trapOut r s))
      else .next (rotate (restTurn s))

/-- The state with an instruction placed where the next step fetches: the stream of the word's section has the turn, it is
started, and the word lies at its program counter. -/
def State.withFetchWord (s : State) (nbits w : Nat) : State :=
  let t := homeSec (w % 2 ^ nbits)
  let s1 := { s with turn := t, pending := [] }
  let s2 := s1.onStr t fun st => { st with parked := none, parkAsked := false, waiting := none }
  placeWord s2 (s2.str t).pc.toNat (w % 2 ^ nbits)

end Sys2Proof.Machine
end

