-- ==== Sys2Proof/Safety.lean ====
section
/-! DEFINITION. What a safe run is, and the terms in which claims about instructions are stated: when a word issues, and what its
completion is. -/

namespace Sys2Proof.Machine

/-- A step from the state answers a next state. -/
def stepsOn (s : State) : Prop := ∃ t, step s = .next t

/-- The run of `n` steps from a state neither faults nor is refused. -/
def safeFor : Nat → State → Prop
  | 0, _ => True
  | n + 1, s => ∃ t, step s = .next t ∧ safeFor n t

/-- The word passes the checks of R61 in the stream whose turn it is, and nothing holds it back (R66, R67). -/
def canIssue (i : Instr) (u : Use) (s : State) : Prop := decodeTrap i s = none ∧ mustHold u s = false

/-- The guard of a word that can issue reads as true (R56). -/
def guardTrue (u : Use) (s : State) : Prop := rdP (startIssue s) u.guard = true

/-- A word that issues: no check fails, nothing holds it back, and its guard is true. -/
def issues (i : Instr) (u : Use) (s : State) : Prop := canIssue i u s ∧ guardTrue u s

/-- The state after the word whose effect is `t`: the next boundary (R96, R97), with the settle bit noted (R67). -/
def completed (u : Use) (t : State) : State := endIssue u (advance t)

/-- Whenever the word issues and `ok` holds of its operands, exec answers a next state: that of the effect `eff`. -/
def performs (i : Instr) (u : Use) (ok : State → Prop) (eff : State → State) : Prop :=
  ∀ s, issues i u s → ok (entered i s) → exec i s = .next (completed u (eff (entered i s)))

/-- The same for a word whose effect sets the program counter, or the stream's wait, itself. -/
def transfers (i : Instr) (u : Use) (ok : State → Prop) (eff : State → State) : Prop :=
  ∀ s, issues i u s → ok (entered i s) → exec i s = .next (endIssue u (eff (entered i s)))

/-- Whenever the word issues and `bad` holds of its operands, it takes the trap that `r` names, with no other effect. -/
def traps (i : Instr) (u : Use) (bad : State → Prop) (r : State → TrapRec) : Prop :=
  ∀ s, issues i u s → bad (entered i s) → exec i s = .next (trapOut (r (entered i s)) s)

/-- The same for a trap that keeps what `eff` writes before it (R82, R83). While the trap of an earlier load is on its way the word stalls (R257). -/
def trapsIn (i : Instr) (u : Use) (bad : State → Prop) (r : State → TrapRec) (eff : State → State) : Prop :=
  ∀ s, issues i u s → bad (entered i s) → exec i s = .next (if s.cur.awaitsLoad then s else trapOut (r (entered i s)) (eff (entered i s)))

/-- The effect of a scalar instruction: result `v` in destination `d`, readable `b` cycles later (R62). -/
def scalarDoes (i : Instr) (u : Use) (d : SDst) (v : State → Word) (b : Nat) : Prop :=
  performs i u (fun _ => True) fun s => wrD d (v s) b s

/-- The condition that code `c` of CMP and CMPI selects, of two words as integers (R91). -/
def conditionHolds (c : Fin 6) (a b : Word) : Bool :=
  match c with
  | 0 => decide (a.toInt = b.toInt)
  | 1 => decide (a.toInt ≠ b.toInt)
  | 2 => decide (a.toInt < b.toInt)
  | 3 => decide (b.toInt ≤ a.toInt)
  | 4 => decide (a.toNat < b.toNat)
  | 5 => decide (b.toNat ≤ a.toNat)

/-- The spill slot of logical group `g` (R82). -/
def spillSlot (st : Stream) (g : Nat) : Nat := st.spillBase + 64 * g

/-- A call of the stream whose turn it is overflows nothing and spills where it may (R82). -/
def canCall (s : State) : Prop :=
  let st := s.cur
  st.namedLanded = true ∧ st.bank.depth < 255 ∧
    (st.groups ≤ st.bank.depth + 2 →
      spillSlot st (st.bank.depth + 2 - st.groups) + 64 ≤ st.spillLimit
      ∧ (st.priv = true ∨ touchesSr s.core (spillSlot st (st.bank.depth + 2 - st.groups)) 64 = false))

/-- The address in the overflow trap of a call, where it overflows: 0 at the deepest call, or the spill slot that passes SPL (R82). -/
def callOverflow (st : Stream) : Option Nat :=
  if 255 ≤ st.bank.depth then some 0
  else if st.groups ≤ st.bank.depth + 2 ∧ st.spillLimit < spillSlot st (st.bank.depth + 2 - st.groups) + 64 then
    some (spillSlot st (st.bank.depth + 2 - st.groups))
  else none

/-- The scratchpads of two cores hold the same bytes, tags and error marks. -/
def sameScratch (c d : CoreState) : Prop := c.spad = d.spad ∧ c.spadTags = d.spadTags ∧ c.spadBad = d.spadBad

/-- What a call to `target` leaves (R81, R82): the depth, the program counter, the overlap of the windows, the return address in n15, every
register of another group, and the group spilled when the window wraps round. -/
def windowCalled (s t : State) (target : BitVec 22) : Prop :=
  let a := s.cur
  let b := t.cur
  b.pc = target ∧ b.bank.depth = a.bank.depth + 1
    ∧ (∀ i : Fin 8, b.regSlot (Fin.ofNat 16 i.val) = a.regSlot (Fin.ofNat 16 (i.val + 8)))
    ∧ (b.regSlot 15).val = (a.pc + 4).setWidth 64
    ∧ (∀ r : Fin 128, r.val / 8 ≠ (a.bank.depth + 2) % a.groups → b.bank.regs[r] = a.bank.regs[r])
    ∧ b.bank.q = a.bank.q ∧ b.bank.preds = a.bank.preds
    ∧ (a.bank.depth + 2 < a.groups → sameScratch t.core s.core)
    ∧ (a.groups ≤ a.bank.depth + 2 →
        let slot := spillSlot a (a.bank.depth + 2 - a.groups)
        sameScratch t.core (spadPutTag (spadPutBytes s.core slot (groupBytes a.bank ((a.bank.depth + 2) % a.groups))) slot 0))

/-- The caller's logical group is resident (R81). -/
def callerResident (st : Stream) : Prop := st.bank.holds[Fin.ofNat 16 ((st.bank.depth - 1) % st.groups)] = some (st.bank.depth - 1)

/-- A return of the stream whose turn it is has a caller, an aligned target, and may fill from its spill slot (R83). -/
def canReturn (s : State) : Prop :=
  let st := s.cur
  st.namedLanded = true ∧ st.bank.depth ≠ 0 ∧ (rdS s (.n 15)).toNat % 4 = 0
    ∧ (callerResident st ∨ st.priv = true ∨ touchesSr s.core (spillSlot st (st.bank.depth - 1) % spadSize) 64 = false)

/-- What a return leaves (R83): the depth, the program counter from n15, the overlap of the windows, and the caller's n0-n7, filled from
the spill slot where they are not resident. -/
def windowReturned (s t : State) : Prop :=
  let a := s.cur
  let b := t.cur
  b.pc = BitVec.ofNat 22 (rdS s (.n 15)).toNat ∧ b.bank.depth + 1 = a.bank.depth
    ∧ (∀ i : Fin 8, b.regSlot (Fin.ofNat 16 (i.val + 8)) = a.regSlot (Fin.ofNat 16 i.val))
    ∧ (callerResident a → b.bank.regs = a.bank.regs)
    ∧ (¬ callerResident a → ∀ i : Fin 8,
        (b.regSlot (Fin.ofNat 16 i.val)).val = BitVec.ofNat 64 (spadReadNum s (spillSlot a (a.bank.depth - 1) + 8 * i.val) 8))
    ∧ b.bank.q = a.bank.q ∧ b.bank.preds = a.bank.preds ∧ sameScratch t.core s.core

/-- Level `l` of a nest is the lowest that has passes left (R96). -/
def stepsLevel (n : Nest) (l : Fin 6) : Prop :=
  l.val < n.levels ∧ (n.idx[l]).toNat + 1 < (n.level[l]).count.toNat ∧ ∀ m : Fin 6, m.val < l.val → (n.level[m]).count.toNat ≤ (n.idx[m]).toNat + 1

/-- The displacement of base register `j` in the current pass: the indices times the increments (R96). -/
def passOffset (n : Nest) (j : Fin 4) : Int :=
  Finset.univ.sum fun l : Fin 6 => if l.val < n.levels then ((n.idx[l]).toNat : Int) * ((n.level[l]).inc[j]).toInt else 0

/-- At a boundary every base register of the nest takes its origin plus `off`, and every other register stays (R96). -/
def basesSet (a b : Stream) (off : Fin 4 → Word) : Prop :=
  (∀ (j : Fin 4) (i : Fin 16), a.bank.nest.base[j] = some i → (∀ k : Fin 4, a.bank.nest.base[k] = some i → k = j) →
      (b.regSlot i).val = a.bank.nest.origin[j] + off j)
    ∧ ∀ r : Fin 128, (∀ (j : Fin 4) (i : Fin 16), a.bank.nest.base[j] = some i → r ≠ physReg a.groups a.bank.depth i) → b.bank.regs[r] = a.bank.regs[r]

/-- Some configured level of a nest has no passes (R96). -/
def emptyNest (n : Nest) : Prop := ∃ l : Fin 6, l.val < n.levels ∧ (n.level[l]).count = 0

/-- The stream whose turn it is waits at its instruction (R63). -/
def waiting (w : Wait) (settle : Bool) (s : State) : State := s.setCur { s.cur with waiting := some { on := w, settle := settle } }

/-- A scalar access of n bytes at `a` is aligned and outside the supervisor region, or privileged (Table 5-4). -/
def mayAccess (s : State) (a n : Nat) : Prop := a % n = 0 ∧ (s.cur.priv = true ∨ touchesSr s.core a n = false)

/-- Whenever `ok` holds with the core that an event names in focus, the event has the effect `eff` there (R18). -/
def happensAt (i : Instr) (ok : State → Prop) (eff : State → State) : Prop :=
  ∀ s t, focus s.arg.core s = some t → ok t → exec i s = .next (onCore s.arg.core (fun _ => eff t) s)

/-- Whenever `ok` holds, an event of the module has the effect `eff`. -/
def happens (i : Instr) (ok : State → Prop) (eff : State → State) : Prop := ∀ s, ok s → exec i s = .next (eff s)

/-- What an instruction word names when it issues in a state; `none` for an event, and for a CSRR or CSRW whose number names no register of
the stream (R106). -/
def useOf (s : State) : Instr → Option Use
  | .add o => some (useDABP o)
  | .sub o => some (useDABP o)
  | .mul o => some (useDABP o)
  | .mulh o => some (useDABP o)
  | .mulhz o => some (useDABP o)
  | .div o => some (useDABP o)
  | .divz o => some (useDABP o)
  | .rem o => some (useDABP o)
  | .remz o => some (useDABP o)
  | .and o => some (useDABP o)
  | .or o => some (useDABP o)
  | .xor o => some (useDABP o)
  | .andn o => some (useDABP o)
  | .shl o => some (useDABP o)
  | .shr o => some (useDABP o)
  | .sha o => some (useDABP o)
  | .min o => some (useDABP o)
  | .max o => some (useDABP o)
  | .minz o => some (useDABP o)
  | .maxz o => some (useDABP o)
  | .adda o => some (useDABP o)
  | .clz o => some (useDAP o)
  | .ctz o => some (useDAP o)
  | .popc o => some (useDAP o)
  | .sext o => some (useDABP o)
  | .pick o => some (useDABP o)
  | .addi o => some (useDAI o)
  | .andi o => some (useDAI o)
  | .ori o => some (useDAI o)
  | .xori o => some (useDAI o)
  | .shli o => some (useDAH o)
  | .shri o => some (useDAH o)
  | .shai o => some (useDAH o)
  | .lil o => some (useDI o)
  | .lih o => some { useDI o with srcs := [destOld o.d] }
  | .bfx o => some (useBfOps o)
  | .bfi o => some { useBfOps o with srcs := [o.a, destOld o.d] }
  | .cmp o => some (useCmpOps o)
  | .cmpi o => some (useCmpiOps o)
  | .plog o => some (usePlogOps o)
  | .sel o => some (useSelOps o)
  | .br o => some (useBOps o)
  | .call o => some (useBOps o)
  | .jmp o => some (useAP o)
  | .callr o => some (useAP o)
  | .ret o => some (useGP o)
  | .ndim o => some (useNdimOps o)
  | .nest o => some { useNestOps o with srcs := nestSources s.cur.bank.nest }
  | .lidx o => some (useLidxOps o)
  | .ld o => some (useLdOps o)
  | .ldz o => some (useLdOps o)
  | .st o => some (useStOps o)
  | .ldn o => some (useLdnOps o)
  | .stn o => some (useStnOps o)
  | .fld o => some (useFldOps o)
  | .fst o => some (useFstOps o)
  | .csrr o => if csrAssigned s.turn o.c.val then some (useCsrrOps o) else none
  | .csrw o => if csrAssigned s.turn o.c.val then some (useCsrwOps o) else none
  | .cyc o => some (useDP o)
  | .nop o => some (useBare o)
  | .trap o => some (useTrapOps o)
  | .fence o => some (useFenceOps o)
  | .semsig o => some (useYABsk o)
  | .semwait o => some (useYABsk o)
  | .semtry o => some (useYDABsk o)
  | .semadd o => some (useYDABsk o)
  | .semcas o => some (useYDABsk o)
  | .semrd o => some (useYDAsk o)
  | .mtxlock o => some (useYAsk o)
  | .mtxtry o => some (useYDAsk o)
  | .mtxfree o => some (useYAsk o)
  | .bararr o => some (useYDABsk o)
  | .barwait o => some (useYDABsk o)
  | .rdv o => some (useBare o)
  | .evset o => some (useYAk o)
  | .evclr o => some (useYA o)
  | .evwait o => some (useYABk o)
  | .waitlt o => some (useYAB o)
  | .claim o => some (useYDABk o)
  | .commit o => some (useYDABk o)
  | .await o => some (useYDABk o)
  | .retire o => some (useYDABk o)
  | .sleepu o => some (useYA o)
  | .waita o => some (useYDAB o)
  | .mode o => some (useModeOps o)
  | .tret o => some (useGP o)
  | .ctxsave o => some (useABP o)
  | .ctxload o => some (useABP o)
  | .preempt o => some (useAP o)
  | .semmap o => some (useABP o)
  | .tlbinv o => some (useABP o)
  | .tlbprobe o => some (useDABP o)
  | .hint o => some (useABP o)
  | .halt o => some (useAP o)
  | .wflush o => some (useAP o)
  | .qcfg o => some (useCAQ o)
  | .chmap o => some (useCAH o)
  | .send o => some (useCAH o)
  | .sends o => some (useCPAH o)
  | .recv o => some (useCDAQ o)
  | .recvs o => some (useCDAQ o)
  | .peek o => some (useCDQ o)
  | .qstat o => some (useCDAH o)
  | .qfree o => some (useCAQ o)
  | .mcast o => some (useCAQ o)
  | .fgstart o => some (useABP o)
  | .fgstop o => some (useAP o)
  | .fgstat o => some (useDAP o)
  | .fglate o => some (useDAP o)
  | .fgwin o => some (useABP o)
  | .fgpace o => some (useABP o)
  | .fgmc o => some (useAP o)
  | .fgmark o => some (useABP o)
  | .launch o => some (useDABP o)
  | .post o => some (useDABP o)
  | .take o => some (useDAP o)
  | .yieldJob o => some (useAP o)
  | .doneJob o => some (useAP o)
  | .coord o => some (useDAP o)
  | .swcfg o => some (useAP o)
  | .swtake o => some (useDABP o)
  | .stgq o => some (useDAP o)
  | .asamp o => some (useABP o)
  | .amode o => some (useAP o)
  | .athr o => some (useABP o)
  | .aown o => some (useAP o)
  | .aforce o => some (useAP o)
  | .ahist o => some (useDABP o)
  | .aclr o => some (useAP o)
  | .astat o => some (useDAP o)
  | .arel o => some (useGP o)
  | .cset o => some (useKRA o)
  | .cseti o => some (useKRI o)
  | .cdim o => some (useKDim o)
  | .cldc o => some (useKRA o)
  | .cstc o => some (useKRA o)
  | .copy o => some (useDP o)
  | .gather o => some (useDP o)
  | .scatter o => some (useDP o)
  | .cfill o => some (useDP o)
  | .kvlist o => some (useDP o)
  | .ttile o => some (useDP o)
  | .cfollow o => some (useAP o)
  | .tdef o => some (useDABP o)
  | .publish o => some (useAP o)
  | .frmap o => some (useDABP o)
  | .cstat o => some (useDAP o)
  | .cbmap o => some (useDABP o)
  | .cresume o => some (useDAP o)
  | .ccancel o => some (useDAP o)
  | .cwait o => some (useAP o)
  | .mcfg o => some (useAP o)
  | .mrel o => some (useGP o)
  | .wload o => some (useAP o)
  | .wflip o => some (useAP o)
  | .mmul o => some (useAP o)
  | .mband o => some (useABP o)
  | .mtag o => some (useAP o)
  | .mswap o => some (useGP o)
  | .mclr o => some (useAP o)
  | .msave o => some (useABP o)
  | .mrest o => some (useABP o)
  | .mpace o => some (useAP o)
  | .mdrain o => some (useGP o)
  | .mstat o => some (useDAP o)
  | .vshape o => some (useVShapeOps o)
  | .vld o => some (useVWA o)
  | .vst o => some (useVSA o)
  | .vldm o => some (useVMA o)
  | .vstm o => some (useVAM o)
  | .vgat o => some (useVGatOps o)
  | .vsct o => some (useVSctOps o)
  | .vsplat o => some (useVWA o)
  | .vmovs o => some (useVMovsOps o)
  | .viota o => some (useVIotaOps o)
  | .vaccr o => some (useVWA o)
  | .vaccw o => some (useVSA o)
  | .vadd o => some (useVWXY o)
  | .vsub o => some (useVWXY o)
  | .vmul o => some (useVWXY o)
  | .vmax o => some (useVWXY o)
  | .vmin o => some (useVWXY o)
  | .vabs o => some (useVWX o)
  | .vneg o => some (useVWX o)
  | .vclamp o => some (useVWXY o)
  | .vscale o => some (useVWXY o)
  | .vrcp o => some (useVWX o)
  | .vrsq o => some (useVWX o)
  | .vexp o => some (useVWX o)
  | .vlog o => some (useVWX o)
  | .vcvt o => some (useVWXB o)
  | .vquant o => some (useVQuantOps o)
  | .viadd o => some (useVWXY o)
  | .visub o => some (useVWXY o)
  | .vimul o => some (useVWXY o)
  | .vand o => some (useVWXY o)
  | .vor o => some (useVWXY o)
  | .vxor o => some (useVWXY o)
  | .vshl o => some (useVWXY o)
  | .vshr o => some (useVWXY o)
  | .vsha o => some (useVWXY o)
  | .vcmp o => some (useVCmpOps o)
  | .vicmp o => some (useVCmpOps o)
  | .vsel o => some (useVWXY o)
  | .vmlog o => some (useVMlogOps o)
  | .vmpop o => some (useVMdOps o)
  | .vmfirst o => some (useVMdOps o)
  | .vred o => some (useVWXB o)
  | .vredc o => some (useVWXB o)
  | .vscan o => some (useVWXB o)
  | .vpart o => some (useVWX o)
  | .vhist o => some (useVhist s o)
  | .vord o => some (useVWXB o)
  | .vtrn o => some (useVWX o)
  | .vperm o => some (useVWXY o)
  | .vosm o => some (useVOsmOps o)
  | .vfma o => some (useVFmaOps o)
  | .ttclr o => some (useTA o)
  | .ttnew o => some (useTDAB o)
  | .ttadd o => some (useTDAB o)
  | .ttload o => some (useTDAB o)
  | .ttstore o => some (useTAB o)
  | .ttmask o => some (useTMA o)
  | .ttpos o => some (useTWA o)
  | .ttdepth o => some (useTWAB o)
  | .ttpath o => some (useTWA o)
  | .ttprune o => some (useTWA o)
  | .ttstat o => some (useTDA o)
  | .bartWrite | .sleepWake | .watchEvent | .watchPoll | .watchTimeout | .remoteSemRequest | .remoteSemAnswer
  | .remoteSemResend | .remoteSemTimeout | .remoteWithdrawal | .queueEntryArrival | .creditReturn | .messageAckTimeout | .timedRecvDue
  | .legRead | .legStart | .controlLeg | .sourceLegSend | .readyNotice | .goneAnswer | .multicastCellArrival
  | .multicastSilence | .legLand | .markFire | .schedulerDecision | .packetDeadline | .balancer | .recordDispatch
  | .jobRetire | .swarmRingPoll | .batchEmit | .auditCheckEnd | .commandStart | .cellArrival | .promiseDue
  | .freezeLimit | .commandComplete | .followOnArrival | .listedItemFinish | .tolerantRetry | .incomingWrite | .wloadDispatch
  | .wloadFillEnd | .wflipDispatch | .mmulDispatch | .mmulFinish | .resultLand | .trapEntry | .asyncTrapDelivery
  | .watchdogExpiry | .doorbell | .coreRetire | .lqwin | .hostMemRead | .hostMemWrite | .linkStateChange
  | .moduleReset | .bootgo | .bootVerify | .selfTestDone | .helper | .enrol | .attest
  | .evring | .powercap | .history | .unknownCommand | .mailboxDone | .go | .registerWrite
  | .eventPost | .flitReceive | .nakReceive | .linkRetrain | .retrainEnd | .routeLossTimeout | .moduleJoin
  | .moduleLeave | .patrolScrub | .layerMapOut | .stageBankSpare | .bulkBankSpare | .alertBackOff | .thermalStep
  | .thermalTrip | .powerCapStep | .farStoreAcknowledged | .translationWalkEnd | .spareRowCopied | .bankBlockEnd | .msixVectorUnmask => none

/-- The request of a semaphore instruction goes to the owner of a remote semaphore, and the stream waits for the answer (R135). -/
def asksOwner (op : SemOp) (c : BitVec 32) (p : Nat) (b : Word) (d : Option SDst) (settle : Bool) (s : State) : State :=
  let r : SemReq := { from_ := s.ownCoord, sec := s.turn, id := 2 * s.tick, phys := p, op := op, b := b }
  waiting (.remote { owner := c, req := r, issued := s.now, acked := false, refusedAt := none, withdraw := false, park := false } d) settle (sendRequest c r s)

/-- The stream whose turn it is holds no engine fault (R145, R238). -/
def noFault (s : State) : Prop := if s.turn = .mat then s.core.mat.mflt.pend = false else s.cur.faults = []

/-- Every MMUL before the queue mark, or before the end of the queue where no mark stands, has finished (R240). -/
def mmulsDone (s : State) : Prop :=
  s.core.mat.running = [] ∧ ∀ e ∈ s.core.mat.queue.take (s.core.mat.mark.getD s.core.mat.queue.length), e.word.toNat / 2 ^ 62 ≠ 0

/-- Operand `a` of CTXSAVE and CTXLOAD has a reserved bit set (R382, R383). -/
def contextReserved (a : Word) : Bool :=
  if a.getLsbD 63 then decide (a.toNat / 2 ^ 22 % 2 ^ 41 ≠ 0) else decide (2 ^ 56 ≤ a.toNat)

/-- Operands `a` and `b` of CTXSAVE and CTXLOAD name an area of stream t, which is the ctl stream or parked (R383). -/
def contextOk (s : State) (a b : Word) (t : Sec) : Prop :=
  b.toNat = secNum t ∧ contextReserved a = false ∧ a.toNat % 64 = 0 ∧ (t = .ctl ∨ (s.str t).parked.isSome = true)
    ∧ (a.getLsbD 63 = true → a.toNat % 2 ^ 22 + areaSize t ≤ 2 ^ 22)

/-- The engine of stream t has nothing left to do (R383). -/
def contextReady (s : State) (t : Sec) : Bool :=
  match t with
  | .ctl => true
  | .copy => s.core.copy.queue.isEmpty
  | .mat => drained s
  | .vec => vectorsDone s

/-- The streams of a list can be parked at once: none that runs waits at an instruction or has a trap on its way (R133, R379). -/
def mayPark (s : State) (l : List Sec) : Prop :=
  ∀ t ∈ l, (s.str t).parked = none → (s.str t).waiting = none ∧ (s.str t).parkAsked = false ∧ (s.str t).awaitsLoad = false ∧ (s.str t).deferred = []

/-- No stream of a list that runs awaits another core, and some stream of it that runs is held back by a trap on its way (R136, R379). -/
def parkHolds (s : State) (l : List Sec) : Prop :=
  (∀ t ∈ l, (s.str t).parked = none → remoteOf s t = none) ∧ ∃ t ∈ l, (s.str t).parked = none ∧ ((s.str t).awaitsLoad = true ∨ (s.str t).deferred ≠ [])

/-- A stream of a list that runs waits at an instruction, and none awaits another core or has a trap on its way: each parks at its own turn (R133). -/
def parksAtTurn (s : State) (l : List Sec) : Prop :=
  (∀ t ∈ l, (s.str t).parked = none → remoteOf s t = none ∧ (s.str t).awaitsLoad = false ∧ (s.str t).deferred = [])
    ∧ ∃ t ∈ l, (s.str t).parked = none ∧ ((s.str t).waiting.isSome = true ∨ (s.str t).parkAsked = true)

/-- The ctl stream has left supervisor mode, as PREEMPT leaves it at the end of a task (R380). -/
def leavesSupervisor (s : State) : State := s.onStr .ctl fun st => { st with priv := false, strap := { st.strap with inh := false } }

/-- Operand `a` names an aligned and allowed ring control block (R147). -/
def ringBlock (s : State) (a : Word) : Prop := a.toNat % 64 = 0 ∧ (s.cur.priv = true ∨ touchesSr s.core (a.toNat % 2 ^ 22) 64 = false)

/-- Operands `a` and `b` name a block that an access of class k finds to be ring `r`, and a count that it can hold (R147). -/
def ringOk (k : Fin 16) (s : State) (a b : Word) (r : Ring) : Prop :=
  ringBlock s a ∧ readRing (s.setCore (s.viewed k)) (a.toNat % 2 ^ 22) = some r ∧ 0 < b.toNat ∧ b.toNat ≤ r.size

/-- A ring instruction of class k has read the block that `a` names. -/
def ringSeen (k : Fin 16) (a : Word) (s : State) : State := sawScratch k (a.toNat % 2 ^ 22) 64 s

/-- Operand `a` of WAITA names an aligned and allowed scratchpad word (R150). -/
def watchesScratch (s : State) (a : Word) : Prop :=
  a.getLsbD 63 = true ∧ a.toNat / 2 ^ 22 % 2 ^ 41 = 0 ∧ mayAccess s (a.toNat % 2 ^ 22) 8

/-- Operand `a` names an aligned and allowed scratchpad cell. -/
def mayAccessCell (s : State) (a : Word) : Prop :=
  a.toNat % 64 = 0 ∧ (s.cur.priv = true ∨ touchesSr s.core (a.toNat % 2 ^ 22) 64 = false)

/-- Channel `c` of the stream whose turn it is can send the cell that `a` names (R205). -/
def sendAllowed (s : State) (c : Nat) (a : Word) : Prop :=
  (channelAt s s.turn c).valid = true ∧ (channelAt s s.turn c).fault = 0 ∧ mayAccessCell s a

/-- The head entry of queue `q` moved into the cell at `a`; an uncorrectable line is reported (R190, R208). -/
def headMoved (q : Fin 16) (a : Nat) (s : State) : State :=
  let h := (queueAt s q).addr 0
  storedBy s.turn 0 a 64 (landCell a (movedCell s h)) (if (movedCell s h).2 then reportLine h s else s)

/-- What issuing a command of the copy engine does, when the queue has room, the registers can be read and a listed kind finds a bitmap free
or none running (R152, R156, R163, R181). The command itself is described where no queued command has the next number. -/
def issuesCommand (i : Instr) (kind : CmdKind) (o : DP) : Prop :=
  ∀ s, issues i (useDP o) s → s.core.copy.queue.length < 64 → (s.cur.mode = true → cwReady (startIssue s) = true) →
    (kind.listed = true → freeBitmap s.core.copy ≠ none ∨ bitmapRunning s.core.copy = false) →
    ∃ t v, exec i s = .next (completed (useDP o) (wrD o.d v 16 t))
      ∧ t.core.copy.seq = s.core.copy.seq + 1
      ∧ t.core.copy.queue.map (·.seq) = s.core.copy.queue.map (·.seq) ++ [s.core.copy.seq + 1]
      ∧ (∀ j : Fin 16, j ≠ 0 → t.core.copy.cw[j] = s.core.copy.cw[j])
      ∧ sameScratch t.core s.core ∧ t.mem = s.mem
      ∧ ((∀ d ∈ s.core.copy.queue, d.seq ≠ s.core.copy.seq + 1) →
          ∃ c, t.core.copy.queue = s.core.copy.queue ++ [c] ∧ c.kind = kind ∧ c.cw = captureCw (startIssue s)
            ∧ (if kind.listed = true ∧ freeBitmap s.core.copy = none then c.phase = .landed ∧ c.fault = (if c.semen && c.sem.isNone then 0x09 else 0x0D) else c.phase = .queued)
            ∧ v = BitVec.ofNat 64 c.promise ∧ (kind.listed = true → c.bitmap = freeBitmap s.core.copy))

/-- The windows of a valid frame value lie where the stream may map them (R174, R369). -/
def frameAllowed (s : State) (v : Word) : Prop :=
  s.cur.priv = true ∨ frmValid v = false
    ∨ (touchesSr s.core (frmVb v) (frmSize v) = false ∧ (frmShen v = false ∨ touchesSr s.core (frmSb v) (frmSize v) = false))

/-- The operands of MSAVE and MREST name an aligned and allowed area and columns of a bank (R242). -/
def bankAreaOk (s : State) (a b : Word) : Prop :=
  let base := a.toNat % 2 ^ 22
  let nc := 128 * (b.toNat / 8 + 1)
  a.toNat < 2 ^ 22 ∧ a.toNat % 64 = 0 ∧ b.toNat < 64 ∧ base + 256 * nc ≤ 2 ^ 22 ∧ 128 * (b.toNat % 8) + nc ≤ 1024
    ∧ (s.cur.priv = true ∨ touchesSr s.core base (256 * nc) = false)

/-- A state in which the vector engine is taken for `n` cycles from the issue in `s` (R250). -/
def occupied (n : Nat) (s t : State) : State := t.setVec { t.core.vec with busy := s.cur.clk + n }

/-- A vector instruction whose occupancy may depend on its operands: when the engine is free and `ok` holds, it has its effect and takes the
engine. -/
def vectorDoesFor (i : Instr) (u : Use) (n : Shape → State → Nat) (ok : Shape → State → Prop) (eff : Shape → State → State) : Prop :=
  performs i u (fun s => s.core.vec.busy ≤ s.cur.clk ∧ ok (shapeOf s) s) fun s => occupied (n (shapeOf s) s) s (eff (shapeOf s) s)

/-- A vector instruction whose occupancy is given by the shape. -/
def vectorDoes (i : Instr) (u : Use) (n : Shape → Nat) (ok : Shape → State → Prop) (eff : Shape → State → State) : Prop :=
  vectorDoesFor i u (fun h _ => n h) ok eff

/-- An elementwise float instruction of two sources (R260, R261). -/
def floatTwo (i : Instr) (o : VWXY) (b : Nat) (f : Fmt → BitVec 2 → Nat → Nat → Rounded) : Prop :=
  vectorDoes i (useVWXY o) occupancy (fun h _ => h.t ≤ 2) fun h s =>
    putRounded o.v h (rdM s o.m) (fun l => f (vtFmt h.t) s.cur.ncs.rm (laneOf (rdV s o.x) h.w l) (laneOf (rdV s o.y) h.w l)) b s

/-- An elementwise float instruction of one source. -/
def floatOne (i : Instr) (o : VWX) (b : Nat) (f : Fmt → BitVec 2 → Nat → Rounded) : Prop :=
  vectorDoes i (useVWX o) occupancy (fun h _ => h.t ≤ 2) fun h s =>
    putRounded o.v h (rdM s o.m) (fun l => f (vtFmt h.t) s.cur.ncs.rm (laneOf (rdV s o.x) h.w l)) b s

/-- An elementwise integer instruction, of every type when `all` holds (R262). -/
def integerTwo (i : Instr) (o : VWXY) (all : Bool) (f : Nat → Nat → Nat → Nat) : Prop :=
  vectorDoes i (useVWXY o) occupancy (fun h _ => all = true ∨ vtInt h.t = true) fun h s =>
    putLanes o.v h (rdM s o.m) (fun l => f h.w (laneOf (rdV s o.x) h.w l) (laneOf (rdV s o.y) h.w l)) 16 s

/-- A histogram under control word `b` counts the lane pattern `p` (R277). -/
def histTakes (b : Word) (p : Nat) : Bool :=
  !b.getLsbD 14 || decide (p / 2 ^ (b.toNat % 64 + (b.toNat / 256 % 8 + 1)) = b.toNat / 2 ^ 32)

/-- A state in which the token-tree unit is taken for `b` cycles from the issue in `s` (R288). -/
def treeTaken (b : Nat) (s t : State) : State := t.setVec { t.core.vec with treeBusy := s.cur.clk + b }

/-- A token-tree instruction: when the unit is free and `ok` holds, it has its effect and takes the unit. -/
def treeDoes (i : Instr) (u : Use) (b : Nat) (ok : State → Prop) (eff : State → State) : Prop :=
  performs i u (fun s => s.core.vec.treeBusy ≤ s.cur.clk ∧ ok s) fun s => treeTaken b s (eff s)

/-- A vector instruction stalls while the engine is busy (R250). -/
def stallsBusy (i : Instr) (u : Use) : Prop := ∀ s, issues i u s → (startIssue s).cur.clk < (startIssue s).core.vec.busy → exec i s = .next s

/-- A token-tree instruction stalls while the unit is busy (R287). -/
def stallsTree (i : Instr) (u : Use) : Prop := ∀ s, issues i u s → (startIssue s).cur.clk < (startIssue s).core.vec.treeBusy → exec i s = .next s

/-- A token-tree instruction that raises a reason of token-tree misuse when the unit is free and `bad` holds (Table 19-2). -/
def treeTraps (i : Instr) (u : Use) (reason : Nat) (bad : State → Prop) : Prop :=
  traps i u (fun s => s.core.vec.treeBusy ≤ s.cur.clk ∧ bad s) (fun _ => mkTrap 0x0C reason 0)

/-- An instruction on a tree raises reason 1 for a bad tree word, and reason 2 for a tree that is not valid. -/
def treeChecked (i : Instr) (u : Use) (a : State → Word) (ok : State → Bool) : Prop :=
  treeTraps i u 0x01 (fun s => ok s = false) ∧ treeTraps i u 0x02 (fun s => ok s = true ∧ s.core.trees[twTree (a s)] = none)

/-- The configuration of the audit unit is open to the stream whose turn it is (R297). -/
def auditOpen (s : State) : Prop := s.core.audit.lock = false ∨ s.cur.priv = true

/-! ### The whole machine -/

/-- A core's scratchpad and its tags are in canonical form. -/
def coreWf (c : CoreState) : Prop := c.spad.wf = true ∧ sparseWf (0 : BitVec 16) 0 c.spadTags = true

/-- Global memory, its tags, and the scratchpad of every core are in canonical form: addresses rise, and no entry holds what an unlisted
address reads as. -/
def State.wf (s : State) : Prop :=
  s.mem.wf = true ∧ sparseWf (0 : BitVec 16) 0 s.memTags = true ∧ coreWf s.core ∧ ∀ c ∈ s.others, coreWf c

/-- Nothing but the streams of the core in focus, the counter of free values and the other fields named differs. -/
def sameOutside (s t : State) : Prop :=
  { t with core := s.core, tick := s.tick } = s ∧ { t.core with streams := s.core.streams } = s.core

/-- What a word that writes one scalar destination leaves, outside a nest: every other stream and unit and memory as they were; of its own stream the
next word to issue, and nothing else but its issue cycle and latest result, the settle bit and the bank in use; there the destination register, or
the push that moves the others up (R62, R64, R65, R67). -/
def registerFrame (d : SDst) (s t : State) : Prop :=
  let a := s.cur
  let b := t.cur
  sameOutside s t ∧ (∀ x, x ≠ s.turn → t.str x = s.str x) ∧ b.pc = a.pc + 4
    ∧ { b with pc := a.pc, clk := a.clk, maxReady := a.maxReady, namedReady := a.namedReady, settling := a.settling, job := a.job, sup := a.sup } = a
    ∧ (if a.priv then b.job = a.job else b.sup = a.sup)
    ∧ { b.bank with regs := a.bank.regs, q := a.bank.q } = a.bank
    ∧ (match d with
        | .push => b.bank.regs = a.bank.regs ∧ ∀ (i j : Fin 16), j.val = i.val + 1 → b.bank.q[j] = a.bank.q[i]
        | .n i => b.bank.q = a.bank.q ∧ ∀ r, r ≠ physReg a.groups a.bank.depth i → b.bank.regs[r] = a.bank.regs[r])

end Sys2Proof.Machine
end

