-- ==== Sys2Proof/Certificates/Slice0/Obligations.lean ====
section
/-! DEFINITION. The statements for the provers. -/

open Sys2Proof Sys2Proof.Machine

/-- Every instruction of major 0x00 with two sources, the divisions apart, completes with the result of Table 5-1 in its destination and no
other effect; the result is readable after the bound of Table 3-6. CLZ and CTZ complete with the count, from 0 to 64, of leading or trailing
zero bits of A, and POPC with the count of one bits. (Table 5-1, Table 3-6, 05_base Scalar arithmetic) -/
def Obligations.RegisterArithmetic : Prop :=
  (∀ o : DABP,
    scalarDoes (.add o) (useDABP o) o.d (fun s => rdS s o.a + rdS s o.b) 2
    ∧ scalarDoes (.sub o) (useDABP o) o.d (fun s => rdS s o.a - rdS s o.b) 2
    ∧ scalarDoes (.mul o) (useDABP o) o.d (fun s => rdS s o.a * rdS s o.b) 4
    ∧ scalarDoes (.mulh o) (useDABP o) o.d (fun s => BitVec.ofInt 64 ((rdS s o.a).toInt * (rdS s o.b).toInt / 2 ^ 64)) 4
    ∧ scalarDoes (.mulhz o) (useDABP o) o.d (fun s => BitVec.ofNat 64 ((rdS s o.a).toNat * (rdS s o.b).toNat / 2 ^ 64)) 4
    ∧ scalarDoes (.and o) (useDABP o) o.d (fun s => rdS s o.a &&& rdS s o.b) 2
    ∧ scalarDoes (.or o) (useDABP o) o.d (fun s => rdS s o.a ||| rdS s o.b) 2
    ∧ scalarDoes (.xor o) (useDABP o) o.d (fun s => rdS s o.a ^^^ rdS s o.b) 2
    ∧ scalarDoes (.andn o) (useDABP o) o.d (fun s => rdS s o.a &&& ~~~ rdS s o.b) 2
    ∧ scalarDoes (.shl o) (useDABP o) o.d (fun s => rdS s o.a <<< ((rdS s o.b).toNat % 64)) 2
    ∧ scalarDoes (.shr o) (useDABP o) o.d (fun s => rdS s o.a >>> ((rdS s o.b).toNat % 64)) 2
    ∧ scalarDoes (.sha o) (useDABP o) o.d (fun s => (rdS s o.a).sshiftRight ((rdS s o.b).toNat % 64)) 2
    ∧ scalarDoes (.min o) (useDABP o) o.d (fun s => BitVec.ofInt 64 (min (rdS s o.a).toInt (rdS s o.b).toInt)) 2
    ∧ scalarDoes (.max o) (useDABP o) o.d (fun s => BitVec.ofInt 64 (max (rdS s o.a).toInt (rdS s o.b).toInt)) 2
    ∧ scalarDoes (.minz o) (useDABP o) o.d (fun s => BitVec.ofNat 64 (min (rdS s o.a).toNat (rdS s o.b).toNat)) 2
    ∧ scalarDoes (.maxz o) (useDABP o) o.d (fun s => BitVec.ofNat 64 (max (rdS s o.a).toNat (rdS s o.b).toNat)) 2
    ∧ scalarDoes (.adda o) (useDABP o) o.d (fun s => BitVec.ofNat 64 (((rdS s o.a).toNat + (rdS s o.b).toNat) % 2 ^ 56)) 2
    ∧ scalarDoes (.sext o) (useDABP o) o.d
        (fun s => BitVec.ofInt 64 (((rdS s o.a).setWidth ((rdS s o.b).toNat % 64 + 1)).toInt)) 2
    ∧ scalarDoes (.pick o) (useDABP o) o.d
        (fun s => BitVec.ofNat 64 ((rdS s o.a).toNat / 2 ^ (8 * ((rdS s o.b).toNat % 8)) % 256)) 2)
  ∧ (∀ (o : DAP) (s : State),
    (issues (.clz o) (useDAP o) s → ∃ n : Nat,
      exec (.clz o) s = .next (completed (useDAP o) (wrD o.d (BitVec.ofNat 64 n) 2 (startIssue s)))
      ∧ n ≤ 64 ∧ (∀ j : Nat, j < n → (rdS (startIssue s) o.a).getLsbD (63 - j) = false)
      ∧ (n < 64 → (rdS (startIssue s) o.a).getLsbD (63 - n) = true))
    ∧ (issues (.ctz o) (useDAP o) s → ∃ n : Nat,
      exec (.ctz o) s = .next (completed (useDAP o) (wrD o.d (BitVec.ofNat 64 n) 2 (startIssue s)))
      ∧ n ≤ 64 ∧ (∀ j : Nat, j < n → (rdS (startIssue s) o.a).getLsbD j = false)
      ∧ (n < 64 → (rdS (startIssue s) o.a).getLsbD n = true))
    ∧ (issues (.popc o) (useDAP o) s →
      exec (.popc o) s = .next (completed (useDAP o)
        (wrD o.d (BitVec.ofNat 64 ((Finset.range 64).filter fun i => (rdS (startIssue s) o.a).getLsbD i = true).card) 2 (startIssue s)))))

/-- DIV, DIVZ, REM and REMZ complete for every operand pair: by zero DIV and DIVZ give 2^64 - 1 and REM and REMZ give A; otherwise DIV truncates
toward zero and REM has the sign of the dividend; -2^63 by -1 gives -2^63 and remainder 0. Nothing but the destination is written, so no
flag is set. (R87) -/
def Obligations.Division : Prop :=
  ∀ o : DABP,
    performs (.div o) (useDABP o) (fun s => rdS s o.b = 0) (fun s => wrD o.d (BitVec.allOnes 64) 68 s)
    ∧ performs (.divz o) (useDABP o) (fun s => rdS s o.b = 0) (fun s => wrD o.d (BitVec.allOnes 64) 68 s)
    ∧ performs (.rem o) (useDABP o) (fun s => rdS s o.b = 0) (fun s => wrD o.d (rdS s o.a) 68 s)
    ∧ performs (.remz o) (useDABP o) (fun s => rdS s o.b = 0) (fun s => wrD o.d (rdS s o.a) 68 s)
    ∧ performs (.div o) (useDABP o) (fun s => rdS s o.b ≠ 0) (fun s => wrD o.d (BitVec.ofInt 64 ((rdS s o.a).toInt.tdiv (rdS s o.b).toInt)) 68 s)
    ∧ performs (.divz o) (useDABP o) (fun s => rdS s o.b ≠ 0) (fun s => wrD o.d (BitVec.ofNat 64 ((rdS s o.a).toNat / (rdS s o.b).toNat)) 68 s)
    ∧ performs (.rem o) (useDABP o) (fun s => rdS s o.b ≠ 0) (fun s => wrD o.d (BitVec.ofInt 64 ((rdS s o.a).toInt.tmod (rdS s o.b).toInt)) 68 s)
    ∧ performs (.remz o) (useDABP o) (fun s => rdS s o.b ≠ 0) (fun s => wrD o.d (BitVec.ofNat 64 ((rdS s o.a).toNat % (rdS s o.b).toNat)) 68 s)
    ∧ performs (.div o) (useDABP o) (fun s => rdS s o.a = BitVec.intMin 64 ∧ rdS s o.b = BitVec.allOnes 64)
        (fun s => wrD o.d (BitVec.intMin 64) 68 s)
    ∧ performs (.rem o) (useDABP o) (fun s => rdS s o.a = BitVec.intMin 64 ∧ rdS s o.b = BitVec.allOnes 64)
        (fun s => wrD o.d 0 68 s)

/-- ADDI, ANDI, ORI and XORI compute with the sign-extended 11-bit immediate, and SHLI, SHRI and SHAI shift by their immediate. (05_base Scalar
arithmetic, Table 3-6) -/
def Obligations.ImmediateForms : Prop :=
  (∀ o : DAI,
    scalarDoes (.addi o) (useDAI o) o.d (fun s => rdS s o.a + BitVec.ofInt 64 o.i.toInt) 2
    ∧ scalarDoes (.andi o) (useDAI o) o.d (fun s => rdS s o.a &&& BitVec.ofInt 64 o.i.toInt) 2
    ∧ scalarDoes (.ori o) (useDAI o) o.d (fun s => rdS s o.a ||| BitVec.ofInt 64 o.i.toInt) 2
    ∧ scalarDoes (.xori o) (useDAI o) o.d (fun s => rdS s o.a ^^^ BitVec.ofInt 64 o.i.toInt) 2)
  ∧ ∀ o : DAH,
    scalarDoes (.shli o) (useDAH o) o.d (fun s => rdS s o.a <<< o.h.val) 2
    ∧ scalarDoes (.shri o) (useDAH o) o.d (fun s => rdS s o.a >>> o.h.val) 2
    ∧ scalarDoes (.shai o) (useDAH o) o.d (fun s => (rdS s o.a).sshiftRight o.h.val) 2

/-- LIL gives its sign-extended constant, LIH the old destination times 2^20 plus its constant, BFX a field of A, and BFI the old destination
with a field replaced bit for bit; a pushing LIH or BFI takes q0 as the old value. (05_base Constants and bit fields, Table 3-6) -/
def Obligations.ConstantsAndBitFields : Prop :=
  (∀ o : DI,
    scalarDoes (.lil o) (useDI o) o.d (fun _ => BitVec.ofInt 64 o.i.toInt) 2
    ∧ scalarDoes (.lih o) { useDI o with srcs := [destOld o.d] } o.d
        (fun s => BitVec.ofNat 64 ((rdS s (destOld o.d)).toNat * 2 ^ 20 + o.i.toNat)) 2)
  ∧ (destOld .push = .q 0 ∧ ∀ i : Fin 16, destOld (.n i) = .n i)
  ∧ ∀ o : BfOps,
    scalarDoes (.bfx o) (useBfOps o) o.d
        (fun s => BitVec.ofNat 64 ((rdS s o.a).toNat / 2 ^ o.o.val % 2 ^ (o.w.val + 1))) 2
    ∧ ∀ s, issues (.bfi o) { useBfOps o with srcs := [o.a, destOld o.d] } s → ∃ v : Word,
        exec (.bfi o) s = .next (completed { useBfOps o with srcs := [o.a, destOld o.d] } (wrD o.d v 2 (startIssue s)))
        ∧ ∀ k : Nat, k < 64 → v.getLsbD k =
            if o.o.val ≤ k ∧ k < o.o.val + (o.w.val + 1) then (rdS (startIssue s) o.a).getLsbD (k - o.o.val)
            else (rdS (startIssue s) (destOld o.d)).getLsbD k

/-- CMP and CMPI set their predicate by the condition of R91, PLOG by its truth table, and SEL writes A or B by its predicate; p0 reads as true
and a write of it changes nothing. (05_base Compares and predicates, R80) -/
def Obligations.ComparesAndPredicates : Prop :=
  (∀ (o : CmpOps) (s : State), issues (.cmp o) (useCmpOps o) s →
    exec (.cmp o) s = .next (completed (useCmpOps o) (wrP o.pd (conditionHolds o.c (rdS (startIssue s) o.a) (rdS (startIssue s) o.b)) 2 (startIssue s))))
  ∧ (∀ (o : CmpiOps) (s : State), issues (.cmpi o) (useCmpiOps o) s →
    exec (.cmpi o) s = .next (completed (useCmpiOps o)
      (wrP o.pd (conditionHolds o.c (rdS (startIssue s) o.a) (BitVec.ofInt 64 o.i.toInt)) 2 (startIssue s))))
  ∧ (∀ (o : PlogOps) (s : State), issues (.plog o) (usePlogOps o) s →
    exec (.plog o) s = .next (completed (usePlogOps o)
      (wrP o.pd (o.t.getLsbD ((if rdP (startIssue s) o.pa then 2 else 0) + (if rdP (startIssue s) o.pb then 1 else 0))) 2 (startIssue s))))
  ∧ (∀ (o : SelOps) (s : State), issues (.sel o) (useSelOps o) s →
    exec (.sel o) s = .next (completed (useSelOps o)
      (wrD o.d (if rdP (startIssue s) o.t then rdS (startIssue s) o.a else rdS (startIssue s) o.b) 2 (startIssue s))))
  ∧ ∀ (s : State) (v : Bool) (b : Nat), rdP s 0 = true ∧ wrP 0 v b s = s

/-- BR transfers to its word address plus four times its offset when its predicate differs from its negate bit and is a plain boundary
otherwise; JMP transfers to bits [21:0] of A, and a target that is not a multiple of 4 raises the alignment trap with nothing changed.
(05_base Control flow, R51, R56) -/
def Obligations.BranchesAndJumps : Prop :=
  (∀ o : BOps,
    transfers (.br o) (useBOps o) (fun s => rdP s o.p ≠ o.n) (fun s => setPc s (s.cur.pc + BitVec.ofInt 22 (4 * o.o.toInt)))
    ∧ performs (.br o) (useBOps o) (fun s => rdP s o.p = o.n) id)
  ∧ ∀ o : AP,
    transfers (.jmp o) (useAP o) (fun s => (rdS s o.a).toNat % 4 = 0) (fun s => setPc s (BitVec.ofNat 22 (rdS s o.a).toNat))
    ∧ traps (.jmp o) (useAP o) (fun s => (rdS s o.a).toNat % 4 ≠ 0) (fun s => mkTrap 0x03 0 ((rdS s o.a).toNat % 2 ^ 22))

/-- A CALL that transfers and a CALLR raise the depth by one, make n8-n15 of the caller n0-n7 of the callee, put the return address in n15,
spill the group that the new window reuses, and go to the target; RET lowers the depth, fills the caller n0-n7 from the spill area where
they are not resident, and goes to n15. A misaligned CALLR target, or n15 of a RET, traps with nothing changed. A call at depth 255, or one
whose spill slot passes SPL, sets WST.OVER and raises the window trap with that slot; a RET at depth 0 sets WST.UNDER and raises it; one
whose spill slot touches the supervisor region in job mode takes the privilege trap. (R81, R82, R83, R94) -/
def Obligations.CallsAndReturns : Prop :=
  (∀ (o : BOps) (s : State), issues (.call o) (useBOps o) s → rdP (startIssue s) o.p ≠ o.n →
    (startIssue s).cur.pc.toNat % 4 = 0 → canCall (startIssue s) →
    ∃ t, exec (.call o) s = .next (endIssue (useBOps o) t)
      ∧ windowCalled (startIssue s) t ((startIssue s).cur.pc + BitVec.ofInt 22 (4 * o.o.toInt)))
  ∧ (∀ o : BOps, performs (.call o) (useBOps o) (fun s => rdP s o.p = o.n) id)
  ∧ (∀ (o : AP) (s : State), issues (.callr o) (useAP o) s →
    (rdS (startIssue s) o.a).toNat % 4 = 0 → canCall (startIssue s) →
    ∃ t, exec (.callr o) s = .next (endIssue (useAP o) t)
      ∧ windowCalled (startIssue s) t (BitVec.ofNat 22 (rdS (startIssue s) o.a).toNat))
  ∧ (∀ o : AP, traps (.callr o) (useAP o) (fun s => s.cur.namedLanded = true ∧ (rdS s o.a).toNat % 4 ≠ 0)
      (fun s => mkTrap 0x03 0 ((rdS s o.a).toNat % 2 ^ 22)))
  ∧ (∀ (o : GP) (s : State), issues (.ret o) (useGP o) s → canReturn (startIssue s) →
    ∃ t, exec (.ret o) s = .next (endIssue (useGP o) t) ∧ windowReturned (startIssue s) t)
  ∧ (∀ o : BOps, trapsIn (.call o) (useBOps o)
      (fun s => rdP s o.p ≠ o.n ∧ s.cur.namedLanded = true ∧ s.cur.pc.toNat % 4 = 0 ∧ callOverflow s.cur ≠ none)
      (fun s => mkTrap 0x07 1 ((callOverflow s.cur).getD 0)) (fun s => s.setCur { s.cur with wstOver := true }))
  ∧ (∀ o : AP, trapsIn (.callr o) (useAP o)
      (fun s => s.cur.namedLanded = true ∧ (rdS s o.a).toNat % 4 = 0 ∧ callOverflow s.cur ≠ none)
      (fun s => mkTrap 0x07 1 ((callOverflow s.cur).getD 0)) (fun s => s.setCur { s.cur with wstOver := true }))
  ∧ (∀ o : GP, trapsIn (.ret o) (useGP o) (fun s => s.cur.namedLanded = true ∧ s.cur.bank.depth = 0)
      (fun _ => mkTrap 0x07 2 0) (fun s => s.setCur { s.cur with wstUnder := true }))
  ∧ (∀ o : GP, traps (.ret o) (useGP o) (fun s => s.cur.namedLanded = true ∧ s.cur.bank.depth ≠ 0 ∧ (rdS s (.n 15)).toNat % 4 ≠ 0)
      (fun s => mkTrap 0x03 0 ((rdS s (.n 15)).toNat % 2 ^ 22)))
  ∧ (∀ o : BOps, traps (.call o) (useBOps o)
      (fun s => rdP s o.p ≠ o.n ∧ s.cur.namedLanded = true ∧ s.cur.pc.toNat % 4 = 0 ∧ callOverflow s.cur = none
        ∧ s.cur.groups ≤ s.cur.bank.depth + 2 ∧ s.cur.priv = false ∧ touchesSr s.core (spillSlot s.cur (s.cur.bank.depth + 2 - s.cur.groups)) 64 = true)
      (fun s => mkTrap 0x02 0 (spillSlot s.cur (s.cur.bank.depth + 2 - s.cur.groups))))
  ∧ (∀ o : AP, traps (.callr o) (useAP o)
      (fun s => s.cur.namedLanded = true ∧ (rdS s o.a).toNat % 4 = 0 ∧ callOverflow s.cur = none
        ∧ s.cur.groups ≤ s.cur.bank.depth + 2 ∧ s.cur.priv = false ∧ touchesSr s.core (spillSlot s.cur (s.cur.bank.depth + 2 - s.cur.groups)) 64 = true)
      (fun s => mkTrap 0x02 0 (spillSlot s.cur (s.cur.bank.depth + 2 - s.cur.groups))))
  ∧ (∀ o : GP, traps (.ret o) (useGP o)
      (fun s => s.cur.namedLanded = true ∧ s.cur.bank.depth ≠ 0 ∧ (rdS s (.n 15)).toNat % 4 = 0 ∧ ¬ callerResident s.cur
        ∧ s.cur.priv = false ∧ touchesSr s.core (spillSlot s.cur (s.cur.bank.depth - 1) % 2 ^ 22) 64 = true)
      (fun s => mkTrap 0x02 0 (spillSlot s.cur (s.cur.bank.depth - 1) % 2 ^ 22)))

/-- NDIM replaces the nest state by that of the descriptor at A and traps on a misaligned address, on one in the supervisor region in job mode,
and on a malformed descriptor; NEST traps on the first forbidden word of its body; NEST starts the first pass at its first body word, or
passes over the body when a COUNT is zero; LIDX gives the index of a level, 0 beyond the configured levels. A boundary inside the body goes
on to the next body word; the boundary after the last body word starts the next pass, with the lowest level that has passes left stepped,
the lower ones at 0 and the base registers at their origin plus the sum of indices times increments; the boundary after the last pass leaves
the nest, inactive, at the word after the body with the base registers at their origins. That NDIM reads a descriptor in poisoned cells and
takes the low 22 bits of the address is the model's choice (log entry 44), and so is that a word which does not decode is none of the
forbidden ones (log entry 45). (R95, R96, R97, R98) -/
def Obligations.LoopBuffer : Prop :=
  (∀ (o : NdimOps) (n : Nest), performs (.ndim o) (useNdimOps o)
      (fun s => bitsOf (rdS s o.a) 0 22 % 8 = 0
        ∧ (s.cur.priv = true ∨ touchesSr s.core (bitsOf (rdS s o.a) 0 22) (8 + 16 * (o.l.val + 1)) = false)
        ∧ readNest s (bitsOf (rdS s o.a) 0 22) (o.l.val + 1) = some n)
      (fun s => (sawScratch 0 (bitsOf (rdS s o.a) 0 22) (8 + 16 * (o.l.val + 1)) s).setCur (s.cur.setBank { s.cur.bank with nest := n })))
  ∧ (∀ o : NdimOps, traps (.ndim o) (useNdimOps o) (fun s => bitsOf (rdS s o.a) 0 22 % 8 ≠ 0)
      (fun s => mkTrap 0x03 0 (bitsOf (rdS s o.a) 0 22)))
  ∧ (∀ o : NdimOps, traps (.ndim o) (useNdimOps o)
      (fun s => bitsOf (rdS s o.a) 0 22 % 8 = 0 ∧ s.cur.priv = false ∧ touchesSr s.core (bitsOf (rdS s o.a) 0 22) (8 + 16 * (o.l.val + 1)) = true)
      (fun s => mkTrap 0x02 0 (bitsOf (rdS s o.a) 0 22)))
  ∧ (∀ o : NdimOps, traps (.ndim o) (useNdimOps o)
      (fun s => bitsOf (rdS s o.a) 0 22 % 8 = 0
        ∧ (s.cur.priv = true ∨ touchesSr s.core (bitsOf (rdS s o.a) 0 22) (8 + 16 * (o.l.val + 1)) = false)
        ∧ readNest s (bitsOf (rdS s o.a) 0 22) (o.l.val + 1) = none)
      (fun s => illegalRec ((encode (.ndim o)).getD 0) 0 (bitsOf (rdS s o.a) 0 22)))
  ∧ (∀ (o : NestOps) (s : State) (a : Nat),
      issues (.nest o) { useNestOps o with srcs := nestSources s.cur.bank.nest } s →
      firstBanned (startIssue s) (o.w.val + 1) = some a →
      exec (.nest o) s = .next (trapOut (illegalRec ((encode (.nest o)).getD 0) 7 a) s))
  ∧ (∀ (o : NestOps) (s : State),
      issues (.nest o) { useNestOps o with srcs := nestSources s.cur.bank.nest } s →
      firstBanned (startIssue s) (o.w.val + 1) = none →
      ∃ t, exec (.nest o) s = .next (endIssue { useNestOps o with srcs := nestSources s.cur.bank.nest } t)
        ∧ (emptyNest s.cur.bank.nest → t.cur.pc = s.cur.pc + 4 + BitVec.ofNat 22 (4 * (o.w.val + 1))
            ∧ t.cur.bank.nest.active = s.cur.bank.nest.active ∧ t.cur.bank.regs = s.cur.bank.regs)
        ∧ (¬ emptyNest s.cur.bank.nest → t.cur.pc = s.cur.pc + 4 ∧ t.cur.bank.nest.active = true ∧ t.cur.bank.nest.words = o.w.val + 1
            ∧ t.cur.bank.nest.pos = 0 ∧ t.cur.bank.nest.idx = Vector.replicate 6 0 ∧ t.cur.bank.nest.nestPc = s.cur.pc))
  ∧ (∀ o : LidxOps, scalarDoes (.lidx o) (useLidxOps o) o.d
      (fun s => if h : o.l.val < s.cur.bank.nest.levels ∧ o.l.val < 6 then ((s.cur.bank.nest.idx[o.l.val]'h.2).setWidth 64) else 0) 2)
  ∧ (∀ s : State, s.cur.bank.nest.active = true → s.cur.bank.nest.pos + 1 < s.cur.bank.nest.words →
      (advance s).cur.pc = s.cur.pc + 4
      ∧ (advance s).cur.bank = { s.cur.bank with nest := { s.cur.bank.nest with pos := s.cur.bank.nest.pos + 1 } })
  ∧ (∀ (s : State) (l : Fin 6), s.cur.bank.nest.active = true → s.cur.bank.nest.words ≤ s.cur.bank.nest.pos + 1 → stepsLevel s.cur.bank.nest l →
      let n := s.cur.bank.nest
      let n' := (advance s).cur.bank.nest
      (advance s).cur.pc = n.nestPc + 4 ∧ n' = { n with pos := 0, idx := n'.idx }
      ∧ (∀ m : Fin 6, n'.idx[m] = if m.val < l.val then 0 else if m = l then n.idx[m] + 1 else n.idx[m])
      ∧ basesSet s.cur (advance s).cur (fun j => BitVec.ofInt 64 (passOffset n' j)))
  ∧ (∀ s : State, s.cur.bank.nest.active = true → s.cur.bank.nest.words ≤ s.cur.bank.nest.pos + 1 → (∀ l, ¬ stepsLevel s.cur.bank.nest l) →
      let n := s.cur.bank.nest
      (advance s).cur.pc = n.nestPc + 4 + BitVec.ofNat 22 (4 * n.words) ∧ (advance s).cur.bank.nest = { n with active := false, pos := 0 }
      ∧ basesSet s.cur (advance s).cur (fun _ => 0))

/-- LD gives the sign-extended and LDZ the zero-extended value of 1, 2, 4 or 8 bytes at base plus offset times size modulo 2^22, and LDN a
nibble, where the access is aligned, allowed and not poisoned; a misaligned LD or LDZ takes the alignment trap with the address in its
record, one of the three that touches the supervisor region in job mode the privilege trap, and one of a poisoned cell the poison trap with
the cell in its record, an uncorrectable line being reported as well. In a load that completes nothing but the destination changes, and the
note of which of the stream's own stores of other classes the load has found. Where its stream has no store of another class that it may
still miss, a load finds the bytes that stand in the scratchpad. (R99, R100, R102, R116, Table 5-4) -/
def Obligations.ScratchpadLoads : Prop :=
  (∀ o : LdOps,
    performs (.ld o) (useLdOps o)
      (fun s => mayAccess s (scratchAddr (rdS s o.b) o.o o.z) (2 ^ o.z.val) ∧ spadPoisoned s.core (scratchAddr (rdS s o.b) o.o o.z) = false)
      (fun s => wrD o.d (BitVec.ofInt 64 (signed (8 * 2 ^ o.z.val) (spadNum (s.viewed o.k) (scratchAddr (rdS s o.b) o.o o.z) (2 ^ o.z.val)))) 12
        (sawScratch o.k (scratchAddr (rdS s o.b) o.o o.z) (2 ^ o.z.val) s))
    ∧ performs (.ldz o) (useLdOps o)
      (fun s => mayAccess s (scratchAddr (rdS s o.b) o.o o.z) (2 ^ o.z.val) ∧ spadPoisoned s.core (scratchAddr (rdS s o.b) o.o o.z) = false)
      (fun s => wrD o.d (BitVec.ofNat 64 (spadNum (s.viewed o.k) (scratchAddr (rdS s o.b) o.o o.z) (2 ^ o.z.val))) 12
        (sawScratch o.k (scratchAddr (rdS s o.b) o.o o.z) (2 ^ o.z.val) s))
    ∧ traps (.ld o) (useLdOps o) (fun s => scratchAddr (rdS s o.b) o.o o.z % 2 ^ o.z.val ≠ 0)
      (fun s => mkTrap 0x03 0 (scratchAddr (rdS s o.b) o.o o.z))
    ∧ traps (.ldz o) (useLdOps o) (fun s => scratchAddr (rdS s o.b) o.o o.z % 2 ^ o.z.val ≠ 0)
      (fun s => mkTrap 0x03 0 (scratchAddr (rdS s o.b) o.o o.z))
    ∧ traps (.ld o) (useLdOps o) (fun s => (scratchAddr (rdS s o.b) o.o o.z) % (2 ^ o.z.val) = 0 ∧ s.cur.priv = false ∧ touchesSr s.core (scratchAddr (rdS s o.b) o.o o.z) (2 ^ o.z.val) = true)
      (fun s => mkTrap 0x02 0 (scratchAddr (rdS s o.b) o.o o.z))
    ∧ traps (.ld o) (useLdOps o) (fun s => mayAccess s (scratchAddr (rdS s o.b) o.o o.z) (2 ^ o.z.val) ∧ spadIsBad s.core (scratchAddr (rdS s o.b) o.o o.z) = false ∧ tagF (spadTag s.core (scratchAddr (rdS s o.b) o.o o.z)) = 0xFF)
      (fun s => mkTrap 0x05 0 ((scratchAddr (rdS s o.b) o.o o.z) / 64 * 64))
    ∧ trapsIn (.ld o) (useLdOps o) (fun s => mayAccess s (scratchAddr (rdS s o.b) o.o o.z) (2 ^ o.z.val) ∧ spadIsBad s.core (scratchAddr (rdS s o.b) o.o o.z) = true)
      (fun s => mkTrap 0x05 1 ((scratchAddr (rdS s o.b) o.o o.z) / 64 * 64)) (fun s => reportLine (scratchAddr (rdS s o.b) o.o o.z) s)
    ∧ traps (.ldz o) (useLdOps o) (fun s => (scratchAddr (rdS s o.b) o.o o.z) % (2 ^ o.z.val) = 0 ∧ s.cur.priv = false ∧ touchesSr s.core (scratchAddr (rdS s o.b) o.o o.z) (2 ^ o.z.val) = true)
      (fun s => mkTrap 0x02 0 (scratchAddr (rdS s o.b) o.o o.z))
    ∧ traps (.ldz o) (useLdOps o) (fun s => mayAccess s (scratchAddr (rdS s o.b) o.o o.z) (2 ^ o.z.val) ∧ spadIsBad s.core (scratchAddr (rdS s o.b) o.o o.z) = false ∧ tagF (spadTag s.core (scratchAddr (rdS s o.b) o.o o.z)) = 0xFF)
      (fun s => mkTrap 0x05 0 ((scratchAddr (rdS s o.b) o.o o.z) / 64 * 64))
    ∧ trapsIn (.ldz o) (useLdOps o) (fun s => mayAccess s (scratchAddr (rdS s o.b) o.o o.z) (2 ^ o.z.val) ∧ spadIsBad s.core (scratchAddr (rdS s o.b) o.o o.z) = true)
      (fun s => mkTrap 0x05 1 ((scratchAddr (rdS s o.b) o.o o.z) / 64 * 64)) (fun s => reportLine (scratchAddr (rdS s o.b) o.o o.z) s))
  ∧ (∀ o : LdnOps,
    performs (.ldn o) (useLdnOps o)
      (fun s => mayAccess s (nibbleAddr (rdS s o.b) o.o / 2) 1 ∧ spadPoisoned s.core (nibbleAddr (rdS s o.b) o.o / 2) = false)
      (fun s => wrD o.d (BitVec.ofNat 64 ((spadByte (s.viewed o.k) (nibbleAddr (rdS s o.b) o.o / 2)).toNat
        / 16 ^ (nibbleAddr (rdS s o.b) o.o % 2) % 16)) 12 (sawScratch o.k (nibbleAddr (rdS s o.b) o.o / 2) 1 s))
    ∧ traps (.ldn o) (useLdnOps o) (fun s => s.cur.priv = false ∧ touchesSr s.core (nibbleAddr (rdS s o.b) o.o / 2) 1 = true)
      (fun s => mkTrap 0x02 0 (nibbleAddr (rdS s o.b) o.o / 2))
    ∧ traps (.ldn o) (useLdnOps o) (fun s => mayAccess s (nibbleAddr (rdS s o.b) o.o / 2) 1 ∧ spadIsBad s.core (nibbleAddr (rdS s o.b) o.o / 2) = false ∧ tagF (spadTag s.core (nibbleAddr (rdS s o.b) o.o / 2)) = 0xFF)
      (fun s => mkTrap 0x05 0 ((nibbleAddr (rdS s o.b) o.o / 2) / 64 * 64))
    ∧ trapsIn (.ldn o) (useLdnOps o) (fun s => mayAccess s (nibbleAddr (rdS s o.b) o.o / 2) 1 ∧ spadIsBad s.core (nibbleAddr (rdS s o.b) o.o / 2) = true)
      (fun s => mkTrap 0x05 1 ((nibbleAddr (rdS s o.b) o.o / 2) / 64 * 64)) (fun s => reportLine (nibbleAddr (rdS s o.b) o.o / 2) s))
  ∧ (∀ (s : State) (k : Fin 16), (∀ e ∈ s.core.loose.get s.turn, e.seen.getLsbD k.val = true) → s.viewed k = s.core)
  ∧ (∀ (s : State) (k : Fin 16) (a n : Nat), { sawScratch k a n s with core := s.core, farLoose := s.farLoose } = s
      ∧ { (sawScratch k a n s).core with loose := s.core.loose } = s.core)
  ∧ (∀ (b : Word) (o : BitVec 9) (z : Fin 4), scratchAddr b o z = (b.toNat + o.toNat * 2 ^ z.val) % 2 ^ 22
      ∧ nibbleAddr b o = (2 * b.toNat + o.toNat) % 2 ^ 23)

/-- ST stores the low 1, 2, 4 or 8 bytes of its data and STN one nibble at the address of R99 and R100; every byte of the scratchpad whose
storage is not stored to reads as before; a byte stored into a memory in its canonical form reads back; a store into a line with an
uncorrectable error rewrites it with F = 0xFF and reports it; a misaligned ST takes the alignment trap, and an ST or STN that touches the
supervisor region in job mode the privilege trap. (R34, R99, R100, R101, Table 5-4, R173) -/
def Obligations.ScratchpadStores : Prop :=
  (∀ o : StOps,
    performs (.st o) (useStOps o) (fun s => mayAccess s (scratchAddr (rdS s o.b) o.o o.z) (2 ^ o.z.val))
      (fun s => storeBytes o.k (scratchAddr (rdS s o.b) o.o o.z) (bytesOfNum (2 ^ o.z.val) (rdS s o.x).toNat) s)
    ∧ traps (.st o) (useStOps o) (fun s => scratchAddr (rdS s o.b) o.o o.z % 2 ^ o.z.val ≠ 0)
      (fun s => mkTrap 0x03 0 (scratchAddr (rdS s o.b) o.o o.z))
    ∧ traps (.st o) (useStOps o) (fun s => (scratchAddr (rdS s o.b) o.o o.z) % (2 ^ o.z.val) = 0 ∧ s.cur.priv = false ∧ touchesSr s.core (scratchAddr (rdS s o.b) o.o o.z) (2 ^ o.z.val) = true)
      (fun s => mkTrap 0x02 0 (scratchAddr (rdS s o.b) o.o o.z))
    ∧ ∀ s t b, issues (.st o) (useStOps o) s → mayAccess (startIssue s) (scratchAddr (rdS (startIssue s) o.b) o.o o.z) (2 ^ o.z.val) →
        exec (.st o) s = .next t →
        (∀ k : Nat, k < 2 ^ o.z.val → spadPhys s.core ((scratchAddr (rdS (startIssue s) o.b) o.o o.z + k) % 2 ^ 22) ≠ spadPhys s.core (b % 2 ^ 22)) →
        spadByte t.core b = spadByte s.core b)
  ∧ (∀ o : StnOps,
    performs (.stn o) (useStnOps o) (fun s => mayAccess s (nibbleAddr (rdS s o.b) o.o / 2) 1)
      (fun s => storeBytes o.k (nibbleAddr (rdS s o.b) o.o / 2)
        [putNibble (spadRead s (nibbleAddr (rdS s o.b) o.o / 2)) (nibbleAddr (rdS s o.b) o.o % 2) (rdS s o.x).toNat] s)
    ∧ traps (.stn o) (useStnOps o) (fun s => s.cur.priv = false ∧ touchesSr s.core (nibbleAddr (rdS s o.b) o.o / 2) 1 = true) (fun s => mkTrap 0x02 0 (nibbleAddr (rdS s o.b) o.o / 2))
    ∧ ∀ s t b, issues (.stn o) (useStnOps o) s → mayAccess (startIssue s) (nibbleAddr (rdS (startIssue s) o.b) o.o / 2) 1 →
        exec (.stn o) s = .next t →
        spadPhys s.core (nibbleAddr (rdS (startIssue s) o.b) o.o / 2 % 2 ^ 22) ≠ spadPhys s.core (b % 2 ^ 22) →
        spadByte t.core b = spadByte s.core b)
  ∧ (∀ (k : Fin 16) (a : Nat) (bs : List Byte) (s : State), sameScratch (storeBytes k a bs s).core (spadStore s.core a bs)
      ∧ ∀ x, x ∈ s.lineReports → x ∈ (storeBytes k a bs s).lineReports)
  ∧ (∀ (k : Fin 16) (a : Nat) (x : Byte) (s : State), spadIsBad s.core a = true →
      spadTag (storeBytes k a [x] s).core a = 0x00FF ∧ (s.core.num, spadPhys s.core (a % 2 ^ 22) / 64) ∈ (storeBytes k a [x] s).lineReports)
  ∧ ∀ (c : CoreState) (a : Nat) (x : Byte), c.spad.wf = true → spadByte (spadStore c a [x]) a = x

/-- An FLD whose translation succeeds reserves its destination, makes its promise and joins the loads in flight without changing memory, and one
whose check fails takes that trap, as an FST does; with eight loads in flight, or a walk that meets a blocked bank, an FLD waits, and so
does an FST whose walk or data meets one (R403), which none does while no bank is blocked; an FLD finds the bytes that stand in memory where
its stream has no store of another class that it may still miss; an FST writes its bytes through the translation and is outstanding until
acknowledged, and one with release waits for the far accesses of its class; a FENCE completes when no far access of its classes is
outstanding: after it a store of the stream that one of the classes finds is found by all of them, and after FENCE kall the stream fetches
the new words of its section. That an FLD reads, and an FST writes, at its issue is the model's choice (log entry 23), and so is what the
loads of other classes find (log entry 8). (R103, R104, R105, R116, R119, R121, Table 5-5) -/
def Obligations.FarAccesses : Prop :=
  (∀ (o : FldOps) (s s1 : State) (x : Xlat), issues (.fld o) (useFldOps o) s → s.cur.flds.length < 8 →
      let u := entered (.fld o) s
      let va := farAddr (rdS u o.b) o.o o.z
      walkHeld u (streamAccess u false) va = false → farCheck u va (2 ^ o.z.val) false = (s1, .ok x) →
      ∃ t f, exec (.fld o) s = .next (completed (useFldOps o) t)
        ∧ t.cur.flds = s1.cur.flds ++ [f] ∧ f.cls = o.k ∧ f.arrived = false ∧ f.va = va ∧ f.named = decide (o.d ≠ .push)
        ∧ f.promise = (fldPromise u va (2 ^ o.z.val)).2 ∧ t.cur.fldp = BitVec.ofNat 64 f.promise
        ∧ t.cur.eprev = (fldPromise u va (2 ^ o.z.val)).1
        ∧ (f.bad = false → f.val = BitVec.ofNat 64 (farRead s1 o.k x.pa (2 ^ o.z.val)))
        ∧ (∀ i : Fin 16, o.d = .n i → (t.cur.regSlot i).fld = some f.id) ∧ (o.d = .push → (t.cur.bank.q[0]).fld = some f.id)
        ∧ t.mem = s1.mem ∧ sameScratch t.core s1.core)
  ∧ (∀ (o : FldOps) (s s1 : State) (r : TrapRec), issues (.fld o) (useFldOps o) s → s.cur.flds.length < 8 →
      let u := entered (.fld o) s
      let va := farAddr (rdS u o.b) o.o o.z
      walkHeld u (streamAccess u false) va = false → farCheck u va (2 ^ o.z.val) false = (s1, .error r) →
      exec (.fld o) s = .next (if s.cur.awaitsLoad then s else trapOut r s1))
  ∧ (∀ (o : FldOps) (s : State), issues (.fld o) (useFldOps o) s →
      let u := entered (.fld o) s
      walkHeld u (streamAccess u false) (farAddr (rdS u o.b) o.o o.z) = true → exec (.fld o) s = .next s)
  ∧ (∀ (s : State) (k : Fin 16) (pa n : Nat), (∀ e ∈ farStoresOf s, e.seen.getLsbD k.val = true) → farRead s k pa n = memNum s pa n)
  ∧ (∀ (o : FstOps) (s : State), issues (.fst o) (useFstOps o) s → o.q = true → releaseWaits o.k o.c (startIssue s) = true → exec (.fst o) s = .next s)
  ∧ (∀ (o : FstOps) (s s1 : State) (x : Xlat), issues (.fst o) (useFstOps o) s → (o.q = false ∨ releaseWaits o.k o.c (startIssue s) = false) →
      let u := startIssue s
      let va := farAddr (rdS u o.b) o.o o.z
      accessHeld u (streamAccess u true) va (2 ^ o.z.val) = false → farCheck u va (2 ^ o.z.val) true = (s1, .ok x) →
      ∃ t, exec (.fst o) s = .next (completed (useFstOps o) t)
        ∧ (x.tier ≠ .host → t.mem = (writeBytesAt s1 x (bytesOfNum (2 ^ o.z.val) (rdS u o.x).toNat)).mem)
        ∧ t.core.farStores = s1.core.farStores ++ [(s1.tick, o.k)] ∧ sameScratch t.core s1.core)
  ∧ (∀ (o : FldOps) (s : State), issues (.fld o) (useFldOps o) s → 8 ≤ s.cur.flds.length → exec (.fld o) s = .next s)
  ∧ (∀ (o : FstOps) (s s1 : State) (r : TrapRec), issues (.fst o) (useFstOps o) s → (o.q = false ∨ releaseWaits o.k o.c (startIssue s) = false) →
      let u := startIssue s
      let va := farAddr (rdS u o.b) o.o o.z
      accessHeld u (streamAccess u true) va (2 ^ o.z.val) = false → farCheck u va (2 ^ o.z.val) true = (s1, .error r) →
      exec (.fst o) s = .next (if s.cur.awaitsLoad then s else trapOut r s1))
  ∧ (∀ (o : FstOps) (s : State), issues (.fst o) (useFstOps o) s →
      let u := startIssue s
      accessHeld u (streamAccess u true) (farAddr (rdS u o.b) o.o o.z) (2 ^ o.z.val) = true → exec (.fst o) s = .next s)
  ∧ (∀ (s : State) (x : Access) (va n : Nat), s.tiers.blocked = [] → walkHeld s x va = false ∧ accessHeld s x va n = false)
  ∧ (∀ o : FenceOps, performs (.fence o) (useFenceOps o) (fun s => farOutstanding s o.m = false) (fenced o.m))
  ∧ (∀ (o : FenceOps) (s : State), issues (.fence o) (useFenceOps o) s → farOutstanding (startIssue s) o.m = true → exec (.fence o) s = .next s)
  ∧ (∀ (m : BitVec 16) (s : State), { fenced m s with core := s.core, farLoose := s.farLoose } = s
      ∧ { (fenced m s).core with loose := s.core.loose, oldWords := s.core.oldWords } = s.core
      ∧ (∀ e ∈ (fenced m s).core.loose.get s.turn, e.seen &&& m = 0 ∨ e.seen &&& m = m)
      ∧ ((fenced (BitVec.allOnes 16) s).core.oldWords.get s.turn = []))
  ∧ (∀ (b : Word) (o : BitVec 5) (z : Fin 4), farAddr b o z = (b.toNat + o.toNat * 2 ^ z.val) % 2 ^ 64)
  ∧ ∀ (s : State) (va n : Nat) (w : Bool), (2 ^ 56 ≤ va → farCheck s va n w = (s, .error (mkTrap 0x06 3 va)))
      ∧ (va < 2 ^ 56 → va % n ≠ 0 → farCheck s va n w = (s, .error (mkTrap 0x03 0 va)))

/-- CSRR gives the register it names, readable after six cycles, and CSRW writes it; a number that names no register of the stream is an illegal
encoding (check 4), and a supervisor register in job mode raises the privilege trap; TVEC, SPB, NCS.RM, WATCHT and WDOG take the bits their
tables give, and FLDP and CCC are read-only. (R106, Table 5-6, Table 19-9, R8) -/
def Obligations.StatusRegisters : Prop :=
  (∀ o : CsrrOps,
    (∀ s, csrAssigned s.turn o.c.val = true → issues (.csrr o) (useCsrrOps o) s →
      (csrSupRead o.c.val = false ∨ s.cur.priv = true) →
      exec (.csrr o) s = .next (completed (useCsrrOps o) (wrD o.d (csrValue (startIssue s) o.c.val) 6 (startIssue s))))
    ∧ (∀ s, csrAssigned s.turn o.c.val = true → issues (.csrr o) (useCsrrOps o) s →
      csrSupRead o.c.val = true → s.cur.priv = false →
      exec (.csrr o) s = .next (trapOut (mkTrap 0x02 0 0) s))
    ∧ ∀ s, csrAssigned s.turn o.c.val = false →
      exec (.csrr o) s = .next (trapOut (illegalRec ((encode (.csrr o)).getD 0) 4 0) s))
  ∧ (∀ o : CsrwOps,
    (∀ s, csrAssigned s.turn o.c.val = true → issues (.csrw o) (useCsrwOps o) s →
      (csrSupWrite o.c.val = false ∨ s.cur.priv = true) →
      exec (.csrw o) s = .next (completed (useCsrwOps o) (csrWrite o.c.val (rdS (startIssue s) o.a) (startIssue s))))
    ∧ ∀ s, csrAssigned s.turn o.c.val = true → issues (.csrw o) (useCsrwOps o) s →
      csrSupWrite o.c.val = true → s.cur.priv = false →
      exec (.csrw o) s = .next (trapOut (mkTrap 0x02 0 0) s))
  ∧ (∀ (o : CsrwOps) (s : State), csrAssigned s.turn o.c.val = false →
      exec (.csrw o) s = .next (trapOut (illegalRec ((encode (.csrw o)).getD 0) 4 0) s))
  ∧ (∀ (s : State) (x : Word),
      (csrWrite 0x005 x s).cur.trap.vec = BitVec.ofNat 22 (x.toNat % 2 ^ 22 / 4 * 4)
      ∧ (csrWrite 0x010 x s).cur.spb = BitVec.ofNat 16 (x.toNat / 64 % 2 ^ 16)
      ∧ (csrWrite 0x013 x s).cur.ncs.rm = BitVec.ofNat 2 (x.toNat / 256 % 4)
      ∧ (csrWrite 0x018 x s).cur.watcht = BitVec.ofNat 32 (x.toNat % 2 ^ 32)
      ∧ (csrWrite 0x078 x s).core.wdog = x
      ∧ (csrWrite 0x015 x s).cur = s.cur ∧ (csrWrite 0x016 x s).cur = s.cur)
  ∧ ∀ s : State,
      csrValue s 0x005 = s.cur.trap.vec.setWidth 64 ∧ csrValue s 0x016 = BitVec.ofNat 64 s.ccc
      ∧ csrValue s 0x015 = s.cur.fldp ∧ csrValue s 0x078 = s.core.wdog ∧ csrValue s 0x048 = s.core.sync.flags.setWidth 64

/-- CYC gives the device cycle, NOP does nothing, MODE sets the issue mode and resets the nest to one pass once every result has landed and the
engines are idle, and TRAP takes the software trap with cause 0x20 plus its number, entered at the next word. (R107, R68, R378, R95) -/
def Obligations.PlainWords : Prop :=
  (∀ o : DP, performs (.cyc o) (useDP o) (fun _ => True) (fun s => wrD o.d (BitVec.ofNat 64 s.now) 2 s))
  ∧ (∀ o : Bare, performs (.nop o) (useBare o) (fun _ => True) id)
  ∧ (∀ o : ModeOps, performs (.mode o) (useModeOps o) (fun s => s.cur.allReadable = true ∧ enginesIdle s = true)
      (fun s => s.setCur ({ s.cur with mode := o.l }.setBank { s.cur.bank with nest := Nest.reset })))
  ∧ (∀ o : TrapOps, ∀ s, issues (.trap o) (useTrapOps o) s → s.cur.flds = [] → s.cur.awaitsLoad = false →
      exec (.trap o) s = .next (takeTrap s.turn (mkTrap (0x20 + o.n.val) o.n.val 0) (advance s).cur.pc (advance s)))

/-- TRET of a handler clears INH, restores the issue mode, goes to EPC, returns to the privilege that was saved, and resumes the interrupted
nest at its body word; without a handler active it raises the system trap with reason 2. That a nest goes on at the body word at EPC, and
not by NPOS, is the model's reading (log entry 40). (R377, R97) -/
def Obligations.TrapReturn : Prop :=
  ∀ (o : GP) (s : State), issues (.tret o) (useGP o) s → (startIssue s).cur.namedLanded = true →
    ((startIssue s).cur.levelTrap.inh = false → exec (.tret o) s = .next (trapOut (mkTrap 0x10 0x02 0) s))
    ∧ ((startIssue s).cur.levelTrap.inh = true → (startIssue s).cur.levelTrap.epc.toNat % 4 = 0 →
        ∃ t, exec (.tret o) s = .next (endIssue (useGP o) t)
          ∧ t.cur.pc = s.cur.levelTrap.epc ∧ t.cur.mode = s.cur.levelTrap.pmode
          ∧ (s.cur.priv = false → t.cur.trap.inh = false ∧ t.cur.priv = false
              ∧ t.cur.job = s.cur.job.resumeNest s.cur.trap.nact s.cur.trap.epc)
          ∧ (s.cur.priv = true → t.cur.strap.inh = false ∧ t.cur.priv = s.cur.strap.ppriv
              ∧ (s.cur.strap.ppriv = false → t.cur.job = s.cur.job.resumeNest s.cur.strap.nact s.cur.strap.epc)))

/-- Every instruction word first takes the checks in their order: its section, its form, its privilege; the first that fails gives an
illegal-encoding trap with the word and the number of the check, or the privilege trap; a word that its settle bit or the interlock holds
back changes nothing. (R61, R66, R67, Table 19-2, R369) -/
def Obligations.IssueChecks : Prop :=
  ∀ (i : Instr) (u : Use) (s : State), useOf s i = some u →
    (∀ r, decodeTrap i s = some r → exec i s = .next (trapOut r s))
    ∧ (decodeTrap i s = none → mustHold u s = true → exec i s = .next s)
    ∧ (∀ k, sectionCheck i s.turn = some k → decodeTrap i s = some (mkTrap 0x01 ((encode i).getD 0 % 2 ^ 32 + k % 8 * 2 ^ 32) 0))
    ∧ (sectionCheck i s.turn = none → wellFormed i = false →
        decodeTrap i s = some (mkTrap 0x01 ((encode i).getD 0 % 2 ^ 32 + formCheck i % 8 * 2 ^ 32) 0))
    ∧ (sectionCheck i s.turn = none → wellFormed i = true →
        decodeTrap i s = if isSupervisor i = true ∧ s.cur.priv = false then some (mkTrap 0x02 0 0) else none)

/-- An instruction word whose guard is false has no effect, except that a destination of push still pushes zero, readable at once, and sets no
flag; p0 always issues; with negate set a branch transfers when its predicate is false, and one negated on p0 never transfers. (R56) -/
def Obligations.FalseGuards : Prop :=
  (∀ (i : Instr) (u : Use) (s : State), useOf s i = some u → canIssue i u s → rdP (startIssue s) u.guard = false →
    exec i s = .next (completed u (guardedOff u (startIssue s))))
  ∧ (∀ (u : Use) (s : State), u.vdst ≠ some .push →
      guardedOff u s = if u.dst = some .push then s.setCur (s.cur.setBank { s.cur.bank with q := pushSlot s.cur.bank.q { val := 0, ready := s.cur.clk, fld := none } } |>.landAt s.cur.clk) else s)
  ∧ (∀ (u : Use) (s : State), u.vdst = some .push → u.dst = none →
      guardedOff u s = s.setCore { s.core with vec := s.core.vec.push { val := 0, ready := 0 } })
  ∧ (∀ s : State, rdP s 0 = true)
  ∧ (∀ o : BOps, (useBOps o).guard = 0
      ∧ transfers (.br o) (useBOps o) (fun s => rdP s o.p = false ∧ o.n = true) (fun s => setPc s (branchTarget s.cur.pc o.o))
      ∧ performs (.br o) (useBOps o) (fun _ => o.p = 0 ∧ o.n = true) id)

/-- On a local semaphore SEMSIG adds and refuses to pass 2^32 - 1 with reason 3, SEMWAIT takes when nothing queues and the value covers it,
SEMTRY takes or gives 0, SEMADD adds a signed number or sets bit 63 of its result, SEMCAS replaces on equality and SEMRD reads; a semaphore
nobody waits for simply takes its new value. SEMSIG, SEMADD and SEMCAS at a scope wider than the core wait for the far accesses of their
class and for every FST of the core that is not acknowledged. (R126, R137, R138, Table 6-6, Table 7-4) -/
def Obligations.LocalSemaphores : Prop :=
  (∀ (o : YABsk) (p : Nat),
    performs (.semsig o) (useYABsk o)
      (fun s => releaseWaits o.k o.c s = false ∧ semPlace s (rdS s o.a) = .here p ∧ (semAt s p).val.toNat + (rdS s o.b).toNat % 2 ^ 32 < 2 ^ 32)
      (fun s => putSemValue p ((semAt s p).val.toNat + (rdS s o.b).toNat % 2 ^ 32) s)
    ∧ traps (.semsig o) (useYABsk o)
      (fun s => releaseWaits o.k o.c s = false ∧ semPlace s (rdS s o.a) = .here p ∧ 2 ^ 32 ≤ (semAt s p).val.toNat + (rdS s o.b).toNat % 2 ^ 32)
      (fun _ => mkTrap 0x08 0x03 0)
    ∧ performs (.semwait o) (useYABsk o)
      (fun s => semPlace s (rdS s o.a) = .here p
        ∧ ((rdS s o.b).toNat % 2 ^ 32 = 0 ∨ ((semAt s p).fifo = [] ∧ (rdS s o.b).toNat % 2 ^ 32 ≤ (semAt s p).val.toNat)))
      (fun s => setSem s p { semAt s p with val := (semAt s p).val - BitVec.ofNat 32 ((rdS s o.b).toNat % 2 ^ 32) }))
  ∧ (∀ (o : YDABsk) (p : Nat),
    performs (.semtry o) (useYDABsk o)
      (fun s => semPlace s (rdS s o.a) = .here p ∧ (rdS s o.b).toNat % 2 ^ 32 ≤ (semAt s p).val.toNat)
      (fun s => wrD o.d 1 10 (putSemValue p ((semAt s p).val.toNat - (rdS s o.b).toNat % 2 ^ 32) s))
    ∧ performs (.semtry o) (useYDABsk o)
      (fun s => semPlace s (rdS s o.a) = .here p ∧ (semAt s p).val.toNat < (rdS s o.b).toNat % 2 ^ 32)
      (fun s => wrD o.d 0 10 s)
    ∧ performs (.semadd o) (useYDABsk o)
      (fun s => releaseWaits o.k o.c s = false ∧ semPlace s (rdS s o.a) = .here p ∧ 0 ≤ ((semAt s p).val.toNat : Int) + ((rdS s o.b).setWidth 32).toInt
        ∧ ((semAt s p).val.toNat : Int) + ((rdS s o.b).setWidth 32).toInt < 2 ^ 32)
      (fun s => wrD o.d ((semAt s p).val.setWidth 64) 10 (putSemValue p (((semAt s p).val.toNat : Int) + ((rdS s o.b).setWidth 32).toInt).toNat s))
    ∧ performs (.semadd o) (useYDABsk o)
      (fun s => releaseWaits o.k o.c s = false ∧ semPlace s (rdS s o.a) = .here p ∧ (((semAt s p).val.toNat : Int) + ((rdS s o.b).setWidth 32).toInt < 0
        ∨ 2 ^ 32 ≤ ((semAt s p).val.toNat : Int) + ((rdS s o.b).setWidth 32).toInt))
      (fun s => wrD o.d (BitVec.ofNat 64 ((semAt s p).val.toNat + 2 ^ 63)) 10 s)
    ∧ performs (.semcas o) (useYDABsk o)
      (fun s => releaseWaits o.k o.c s = false ∧ semPlace s (rdS s o.a) = .here p ∧ (semAt s p).val.toNat = (rdS s o.b).toNat % 2 ^ 32)
      (fun s => wrD o.d ((semAt s p).val.setWidth 64) 10 (putSemValue p ((rdS s o.b).toNat / 2 ^ 32) s))
    ∧ performs (.semcas o) (useYDABsk o)
      (fun s => releaseWaits o.k o.c s = false ∧ semPlace s (rdS s o.a) = .here p ∧ (semAt s p).val.toNat ≠ (rdS s o.b).toNat % 2 ^ 32)
      (fun s => wrD o.d ((semAt s p).val.setWidth 64) 10 s))
  ∧ (∀ (o : YDAsk) (p : Nat),
    performs (.semrd o) (useYDAsk o) (fun s => semPlace s (rdS s o.a) = .here p) (fun s => wrD o.d ((semAt s p).val.setWidth 64) 10 s))
  ∧ (∀ (p v : Nat) (s : State), (semAt s p).fifo = [] → putSemValue p v s = setSem s p { val := BitVec.ofNat 32 v, fifo := [] })
  ∧ (∀ (o : YABsk) (s : State), issues (.semsig o) (useYABsk o) s → (∀ r, semPlace (startIssue s) (rdS (startIssue s) o.a) ≠ .bad r) → releaseWaits o.k o.c (startIssue s) = true → exec (.semsig o) s = .next s)
  ∧ ∀ (o : YDABsk) (s : State), ∀ i ∈ [Instr.semadd o, .semcas o],
      issues i (useYDABsk o) s → (∀ r, semPlace (entered i s) (rdS (entered i s) o.a) ≠ .bad r) → releaseWaits o.k o.c (entered i s) = true →
      exec i s = .next s

/-- A SEMWAIT that its semaphore does not cover, or behind other waiters, joins the FIFO and waits; each of the six instructions of a remote
semaphore sends its request and waits for the answer, or raises reason 0x0D where the owner is in no module of the domain; a number above
255 or an invalid map entry raises reason 1 or 2, and a valid local entry leads to its physical semaphore; a value that covers the one
waiter is granted to it and the waiter resumes. (R134, R135, R137, R138, Table 7-5) -/
def Obligations.SemaphoreQueues : Prop :=
  (∀ (o : YABsk) (p : Nat), transfers (.semwait o) (useYABsk o)
      (fun s => semPlace s (rdS s o.a) = .here p ∧ (rdS s o.b).toNat % 2 ^ 32 ≠ 0
        ∧ ((semAt s p).fifo ≠ [] ∨ (semAt s p).val.toNat < (rdS s o.b).toNat % 2 ^ 32))
      (fun s => waiting (.sem p ((rdS s o.b).toNat % 2 ^ 32)) o.s (setSem s p { semAt s p with
        fifo := (semAt s p).fifo ++ [{ coord := s.ownCoord, sec := s.turn, n := (rdS s o.b).toNat % 2 ^ 32, remote := none }] })))
  ∧ (∀ (o : YABsk) (c : BitVec 32) (p : Nat), transfers (.semwait o) (useYABsk o)
      (fun s => semPlace s (rdS s o.a) = .there c p ∧ s.isMember (coordModule c) = true)
      (fun s => asksOwner .wait c p (rdS s o.b) none o.s s))
  ∧ (∀ (o : YABsk) (r : Nat), traps (.semwait o) (useYABsk o) (fun s => semPlace s (rdS s o.a) = .bad r) (fun _ => mkTrap 0x08 r 0)
      ∧ traps (.semsig o) (useYABsk o) (fun s => semPlace s (rdS s o.a) = .bad r) (fun _ => mkTrap 0x08 r 0))
  ∧ (∀ (s : State) (a : Word), 256 ≤ a.toNat → semPlace s a = .bad 0x01)
  ∧ (∀ (s : State) (a : Word), a.toNat < 256 → (s.core.sync.map[Fin.ofNat 256 a.toNat]).getLsbD 31 = false → semPlace s a = .bad 0x02)
  ∧ (∀ (s : State) (a : Word), a.toNat < 256 → (s.core.sync.map[Fin.ofNat 256 a.toNat]).getLsbD 31 = true →
      (s.core.sync.map[Fin.ofNat 256 a.toNat]).getLsbD 30 = false →
      semPlace s a = .here ((s.core.sync.map[Fin.ofNat 256 a.toNat]).toNat % 64))
  ∧ (∀ (p : Nat) (v : Nat) (s : State) (t : Sec) (n : Nat), p < 64 → v < 2 ^ 32 → (semAt s p).val.toNat < v → n ≤ v →
      (semAt s p).fifo = [{ coord := s.ownCoord, sec := t, n := n, remote := none }] →
      putSemValue p v s = resume t none (setSem s p { val := BitVec.ofNat 32 (v - n), fifo := [] }))
  ∧ (∀ (p : Nat) (v : Nat) (s : State), v ≤ (semAt s p).val.toNat → putSemValue p v s = setSem s p { semAt s p with val := BitVec.ofNat 32 v })
  ∧ (∀ (o : YDABsk) (r : Nat), ∀ i ∈ [Instr.semtry o, .semadd o, .semcas o],
      traps i (useYDABsk o) (fun s => semPlace s (rdS s o.a) = .bad r) (fun _ => mkTrap 0x08 r 0))
  ∧ (∀ (o : YDAsk) (r : Nat), traps (.semrd o) (useYDAsk o) (fun s => semPlace s (rdS s o.a) = .bad r) (fun _ => mkTrap 0x08 r 0))
  ∧ (∀ (o : YABsk) (c : BitVec 32) (p : Nat),
    transfers (.semsig o) (useYABsk o)
      (fun s => releaseWaits o.k o.c s = false ∧ semPlace s (rdS s o.a) = .there c p ∧ s.isMember (coordModule c) = true)
      (fun s => asksOwner .sig c p (rdS s o.b) none o.s s)
    ∧ traps (.semwait o) (useYABsk o)
      (fun s => semPlace s (rdS s o.a) = .there c p ∧ s.isMember (coordModule c) = false) (fun _ => mkTrap 0x08 0x0D 0)
    ∧ traps (.semsig o) (useYABsk o)
      (fun s => releaseWaits o.k o.c s = false ∧ semPlace s (rdS s o.a) = .there c p ∧ s.isMember (coordModule c) = false) (fun _ => mkTrap 0x08 0x0D 0))
  ∧ (∀ (o : YDABsk) (c : BitVec 32) (p : Nat),
    transfers (.semtry o) (useYDABsk o)
      (fun s => semPlace s (rdS s o.a) = .there c p ∧ s.isMember (coordModule c) = true)
      (fun s => asksOwner .try_ c p (rdS s o.b) (some o.d) o.s s)
    ∧ transfers (.semadd o) (useYDABsk o)
      (fun s => releaseWaits o.k o.c s = false ∧ semPlace s (rdS s o.a) = .there c p ∧ s.isMember (coordModule c) = true)
      (fun s => asksOwner .add c p (rdS s o.b) (some o.d) o.s s)
    ∧ transfers (.semcas o) (useYDABsk o)
      (fun s => releaseWaits o.k o.c s = false ∧ semPlace s (rdS s o.a) = .there c p ∧ s.isMember (coordModule c) = true)
      (fun s => asksOwner .cas c p (rdS s o.b) (some o.d) o.s s)
    ∧ traps (.semtry o) (useYDABsk o)
      (fun s => semPlace s (rdS s o.a) = .there c p ∧ s.isMember (coordModule c) = false) (fun _ => mkTrap 0x08 0x0D 0)
    ∧ (∀ i ∈ [Instr.semadd o, .semcas o], traps i (useYDABsk o)
      (fun s => releaseWaits o.k o.c s = false ∧ semPlace s (rdS s o.a) = .there c p ∧ s.isMember (coordModule c) = false) (fun _ => mkTrap 0x08 0x0D 0)))
  ∧ (∀ (o : YDAsk) (c : BitVec 32) (p : Nat),
    transfers (.semrd o) (useYDAsk o)
      (fun s => semPlace s (rdS s o.a) = .there c p ∧ s.isMember (coordModule c) = true)
      (fun s => asksOwner .read c p 0 (some o.d) o.s s)
    ∧ traps (.semrd o) (useYDAsk o)
      (fun s => semPlace s (rdS s o.a) = .there c p ∧ s.isMember (coordModule c) = false) (fun _ => mkTrap 0x08 0x0D 0))

/-- MTXLOCK of a free mutex takes it, of one that another stream holds joins its FIFO and waits, and of one the stream itself holds traps with
reason 6; MTXFREE by the owner frees it or hands it to the head of the FIFO, which resumes, and by another stream traps with reason 5;
MTXTRY takes or gives 0. BARARR adds its weight and gives the phase before it; arrivals that reach TARGET advance PHASE by their quotient,
keep the remainder and wake the waiters; a TARGET of zero and a number above 7 and a weight outside 1 to 255 trap; with a TARGET of zero the
reason is that of the target whatever the weight, which is the model's choice (log entry 41). BARWAIT completes when PHASE differs from its
operand and waits otherwise. RDV arrives and waits, and the last of the four streams advances the generation and completes; one pending from
before a trap completes when its generation has passed and waits again otherwise. (R139, Table 7-4, R140, R141, R142) -/
def Obligations.MutexesBarriersAndRendezvous : Prop :=
  ((∀ (o : YAsk),
    performs (.mtxlock o) (useYAsk o) (fun s => (rdS s o.a).toNat < 16 ∧ (mutexAt s (rdS s o.a).toNat).owner = none)
      (fun s => setMutex (rdS s o.a).toNat { mutexAt s (rdS s o.a).toNat with owner := some s.turn } s)
    ∧ transfers (.mtxlock o) (useYAsk o)
      (fun s => (rdS s o.a).toNat < 16 ∧ ∃ t, (mutexAt s (rdS s o.a).toNat).owner = some t ∧ t ≠ s.turn)
      (fun s => waiting (.mutex (rdS s o.a).toNat) o.s
        (setMutex (rdS s o.a).toNat { mutexAt s (rdS s o.a).toNat with fifo := (mutexAt s (rdS s o.a).toNat).fifo ++ [s.turn] } s))
    ∧ traps (.mtxlock o) (useYAsk o) (fun s => (rdS s o.a).toNat < 16 ∧ (mutexAt s (rdS s o.a).toNat).owner = some s.turn)
      (fun _ => mkTrap 0x08 0x06 0)
    ∧ traps (.mtxlock o) (useYAsk o) (fun s => 16 ≤ (rdS s o.a).toNat) (fun _ => mkTrap 0x08 0x04 0)
    ∧ performs (.mtxfree o) (useYAsk o)
      (fun s => releaseWaits o.k o.c s = false ∧ (rdS s o.a).toNat < 16 ∧ (mutexAt s (rdS s o.a).toNat).owner = some s.turn
        ∧ (mutexAt s (rdS s o.a).toNat).fifo = [])
      (fun s => setMutex (rdS s o.a).toNat { owner := none, fifo := [] } s)
    ∧ (∀ (t : Sec) (l : List Sec), performs (.mtxfree o) (useYAsk o)
      (fun s => releaseWaits o.k o.c s = false ∧ (rdS s o.a).toNat < 16 ∧ (mutexAt s (rdS s o.a).toNat).owner = some s.turn
        ∧ (mutexAt s (rdS s o.a).toNat).fifo = t :: l)
      (fun s => resume t none (setMutex (rdS s o.a).toNat { owner := some t, fifo := l } s)))
    ∧ traps (.mtxfree o) (useYAsk o) (fun s => (rdS s o.a).toNat < 16 ∧ (mutexAt s (rdS s o.a).toNat).owner ≠ some s.turn)
      (fun _ => mkTrap 0x08 0x05 0)
    ∧ traps (.mtxfree o) (useYAsk o) (fun s => 16 ≤ (rdS s o.a).toNat) (fun _ => mkTrap 0x08 0x04 0))
  ∧ (∀ o : YDAsk,
    performs (.mtxtry o) (useYDAsk o) (fun s => (rdS s o.a).toNat < 16 ∧ (mutexAt s (rdS s o.a).toNat).owner = none)
      (fun s => wrD o.d 1 10 (setMutex (rdS s o.a).toNat { mutexAt s (rdS s o.a).toNat with owner := some s.turn } s))
    ∧ performs (.mtxtry o) (useYDAsk o)
      (fun s => (rdS s o.a).toNat < 16 ∧ ∃ t, (mutexAt s (rdS s o.a).toNat).owner = some t ∧ t ≠ s.turn)
      (fun s => wrD o.d 0 10 s)
    ∧ traps (.mtxtry o) (useYDAsk o) (fun s => (rdS s o.a).toNat < 16 ∧ (mutexAt s (rdS s o.a).toNat).owner = some s.turn)
      (fun _ => mkTrap 0x08 0x06 0)
    ∧ traps (.mtxtry o) (useYDAsk o) (fun s => 16 ≤ (rdS s o.a).toNat) (fun _ => mkTrap 0x08 0x04 0)))
  ∧ ((∀ o : YDABsk, ∀ s, issues (.bararr o) (useYDABsk o) s →
    let u := startIssue s
    let b := (rdS u o.a).toNat
    let w := (rdS u o.b).toNat
    let x := barrierAt u b
    (releaseWaits o.k o.c u = false → b < 8 → x.target ≠ 0 → 0 < w → w ≤ 255 → x.arrived.toNat + w < x.target.toNat →
      exec (.bararr o) s = .next (completed (useYDABsk o) (wrD o.d (x.phase.setWidth 64) 10
        (setBarrier b { x with arrived := BitVec.ofNat 8 (x.arrived.toNat + w) } u))))
    ∧ (releaseWaits o.k o.c u = false → b < 8 → x.target ≠ 0 → 0 < w → w ≤ 255 → x.target.toNat ≤ x.arrived.toNat + w →
      exec (.bararr o) s = .next (completed (useYDABsk o) (wakeBarrier b (wrD o.d (x.phase.setWidth 64) 10
        (setBarrier b { x with arrived := BitVec.ofNat 8 ((x.arrived.toNat + w) % x.target.toNat)
                               phase := x.phase + BitVec.ofNat 8 ((x.arrived.toNat + w) / x.target.toNat) } u)))))
    ∧ (b < 8 → x.target = 0 → exec (.bararr o) s = .next (trapOut (mkTrap 0x08 0x07 0) s))
    ∧ (b < 8 → x.target ≠ 0 → (w = 0 ∨ 255 < w) → exec (.bararr o) s = .next (trapOut (mkTrap 0x08 0x08 0) s))
    ∧ (8 ≤ b → exec (.bararr o) s = .next (trapOut (mkTrap 0x08 0x04 0) s)))
  ∧ (∀ o : YDABsk,
    performs (.barwait o) (useYDABsk o)
      (fun s => (rdS s o.a).toNat < 8 ∧ (barrierAt s (rdS s o.a).toNat).target ≠ 0
        ∧ (barrierAt s (rdS s o.a).toNat).phase.toNat ≠ (rdS s o.b).toNat % 256)
      (fun s => wrD o.d ((barrierAt s (rdS s o.a).toNat).phase.setWidth 64) 1 s)
    ∧ transfers (.barwait o) (useYDABsk o)
      (fun s => (rdS s o.a).toNat < 8 ∧ (barrierAt s (rdS s o.a).toNat).target ≠ 0
        ∧ (barrierAt s (rdS s o.a).toNat).phase.toNat = (rdS s o.b).toNat % 256)
      (fun s => waiting (.barrier (rdS s o.a).toNat o.d) o.s s)
    ∧ traps (.barwait o) (useYDABsk o) (fun s => (rdS s o.a).toNat < 8 ∧ (barrierAt s (rdS s o.a).toNat).target = 0) (fun _ => mkTrap 0x08 0x07 0)
    ∧ traps (.barwait o) (useYDABsk o) (fun s => 8 ≤ (rdS s o.a).toNat) (fun _ => mkTrap 0x08 0x04 0))
  ∧ (∀ (o : Bare) (g : BitVec 8),
    performs (.rdv o) (useBare o) (fun s => s.cur.rdvPending = some g ∧ g ≠ s.core.sync.rdvGen)
      (fun s => s.setCur { s.cur with rdvPending := none })
    ∧ transfers (.rdv o) (useBare o) (fun s => s.cur.rdvPending = some g ∧ g = s.core.sync.rdvGen)
      (fun s => waiting (.rdv g) o.s (s.setCur { s.cur with rdvPending := none })))
  ∧ (∀ o : Bare, ∀ s, issues (.rdv o) (useBare o) s → s.cur.rdvPending = none →
    let u := entered (.rdv o) s
    let y := u.core.sync.rdvArrived.set s.turn true
    (y ≠ { ctl := true, copy := true, mat := true, vec := true } →
      exec (.rdv o) s = .next (endIssue (useBare o) (waiting (.rdv u.core.sync.rdvGen) o.s
        (u.setSync { u.core.sync with rdvArrived := y }))))
    ∧ (y = { ctl := true, copy := true, mat := true, vec := true } →
      exec (.rdv o) s = .next (completed (useBare o) (releaseRdv (u.setSync { u.core.sync with rdvArrived := y })))
      ∧ (releaseRdv (u.setSync { u.core.sync with rdvArrived := y })).core.sync.rdvGen = u.core.sync.rdvGen + 1)))

/-- EVSET sets its flag and wakes the waiters, EVCLR clears it, EVWAIT of a set flag completes, clearing it when it consumes, and of a clear
flag waits; WAITLT completes while its counter lies below the threshold, waits otherwise, and traps on a threshold of zero; a number above
31 traps, of EVSET, EVCLR, EVWAIT and WAITLT alike. A WAITLT of a stream that holds an engine fault takes that fault instead. Setting one
flag leaves every other as it was. (R143, R144, R145, Table 7-4) -/
def Obligations.FlagsAndCounters : Prop :=
  (∀ o : YAk, performs (.evset o) (useYAk o) (fun s => (rdS s o.a).toNat < 32) (fun s => raiseFlag (rdS s o.a).toNat s)
    ∧ traps (.evset o) (useYAk o) (fun s => 32 ≤ (rdS s o.a).toNat) (fun _ => mkTrap 0x08 0x04 0))
  ∧ (∀ o : YA, performs (.evclr o) (useYA o) (fun s => (rdS s o.a).toNat < 32) (fun s => setFlag (rdS s o.a).toNat false s)
    ∧ traps (.evclr o) (useYA o) (fun s => 32 ≤ (rdS s o.a).toNat) (fun _ => mkTrap 0x08 0x04 0))
  ∧ (∀ o : YABk,
    performs (.evwait o) (useYABk o) (fun s => (rdS s o.a).toNat < 32 ∧ flagSet s (rdS s o.a).toNat = true ∧ (rdS s o.b).getLsbD 0 = false) id
    ∧ performs (.evwait o) (useYABk o) (fun s => (rdS s o.a).toNat < 32 ∧ flagSet s (rdS s o.a).toNat = true ∧ (rdS s o.b).getLsbD 0 = true)
        (fun s => setFlag (rdS s o.a).toNat false s)
    ∧ transfers (.evwait o) (useYABk o) (fun s => (rdS s o.a).toNat < 32 ∧ flagSet s (rdS s o.a).toNat = false)
        (fun s => waiting (.flag (rdS s o.a).toNat ((rdS s o.b).getLsbD 0)) o.s s)
    ∧ traps (.evwait o) (useYABk o) (fun s => 32 ≤ (rdS s o.a).toNat) (fun _ => mkTrap 0x08 0x04 0))
  ∧ (∀ o : YAB,
    performs (.waitlt o) (useYAB o)
      (fun s => noFault s ∧ (rdS s o.a).toNat < 32 ∧ (rdS s o.b).toNat ≠ 0 ∧ counterAt s (rdS s o.a).toNat < (rdS s o.b).toNat) id
    ∧ transfers (.waitlt o) (useYAB o)
      (fun s => noFault s ∧ (rdS s o.a).toNat < 32 ∧ (rdS s o.b).toNat ≠ 0 ∧ (rdS s o.b).toNat ≤ 100
        ∧ (rdS s o.b).toNat ≤ counterAt s (rdS s o.a).toNat)
      (fun s => waiting (.counter (rdS s o.a).toNat (rdS s o.b).toNat) o.s s)
    ∧ traps (.waitlt o) (useYAB o) (fun s => noFault s ∧ 32 ≤ (rdS s o.a).toNat) (fun _ => mkTrap 0x08 0x04 0)
    ∧ traps (.waitlt o) (useYAB o) (fun s => noFault s ∧ (rdS s o.a).toNat < 32 ∧ (rdS s o.b).toNat = 0) (fun _ => mkTrap 0x08 0x09 0)
    ∧ (∀ r l, trapsIn (.waitlt o) (useYAB o) (fun s => s.turn ≠ .mat ∧ s.cur.faults = r :: l) (fun _ => r)
        (fun s => s.setCur { s.cur with faults := l }))
    ∧ trapsIn (.waitlt o) (useYAB o) (fun s => s.turn = .mat ∧ s.core.mat.mflt.pend = true) (fun s => matrixRec s.core.mat.mflt) clearMflt)
  ∧ ∀ (e : Nat) (v : Bool) (s : State) (k : Nat), e < 32 → k < 32 →
      flagSet (setFlag e v s) k = if k = e then v else flagSet s k

/-- CLAIM advances CLAIMED and gives the granule address, or gives all ones when the ring has not room; COMMIT advances COMMITTED and gives the
new occupancy; AWAIT gives the address of the oldest committed granule or waits; RETIRE advances RETIRED and gives the occupancy left; a
count beyond what is claimed or committed traps with reason 0x0B. Each of the four traps on a misaligned block, on one in the supervisor
region, on a malformed one with reason 0x0A, and on a count of 0 or above SIZE with reason 0x0B. (R146, R147, R148, Table 7-9) -/
def Obligations.Rings : Prop :=
  ∀ (o : YDABk) (r : Ring),
    performs (.claim o) (useYDABk o) (fun s => ringOk o.k s (rdS s o.a) (rdS s o.b) r ∧ (rdS s o.b).toNat ≤ r.size - r.used)
      (fun s => wrD o.d (r.addr r.claimed) 12 (putRingCounter o.k ((rdS s o.a).toNat % 2 ^ 22) 8 (r.claimed + (rdS s o.b).toNat) (ringSeen o.k (rdS s o.a) s)))
    ∧ performs (.claim o) (useYDABk o) (fun s => ringOk o.k s (rdS s o.a) (rdS s o.b) r ∧ r.size - r.used < (rdS s o.b).toNat)
      (fun s => wrD o.d (BitVec.allOnes 64) 12 (ringSeen o.k (rdS s o.a) s))
    ∧ performs (.commit o) (useYDABk o) (fun s => ringOk o.k s (rdS s o.a) (rdS s o.b) r ∧ (rdS s o.b).toNat ≤ r.pend)
      (fun s => wakeRing ((rdS s o.a).toNat % 2 ^ 22) (wrD o.d (BitVec.ofNat 64 (r.occ + (rdS s o.b).toNat)) 12
        (putRingCounter o.k ((rdS s o.a).toNat % 2 ^ 22) 12 (r.committed + (rdS s o.b).toNat) (ringSeen o.k (rdS s o.a) s))))
    ∧ performs (.await o) (useYDABk o) (fun s => ringOk o.k s (rdS s o.a) (rdS s o.b) r ∧ (rdS s o.b).toNat ≤ r.occ)
      (fun s => wrD o.d (r.addr r.retired) 1 (ringSeen o.k (rdS s o.a) s))
    ∧ transfers (.await o) (useYDABk o) (fun s => ringOk o.k s (rdS s o.a) (rdS s o.b) r ∧ r.occ < (rdS s o.b).toNat)
      (fun s => waiting (.ring ((rdS s o.a).toNat % 2 ^ 22) (rdS s o.b).toNat o.d) o.s (ringSeen o.k (rdS s o.a) s))
    ∧ performs (.retire o) (useYDABk o) (fun s => ringOk o.k s (rdS s o.a) (rdS s o.b) r ∧ (rdS s o.b).toNat ≤ r.occ)
      (fun s => wrD o.d (BitVec.ofNat 64 (r.occ - (rdS s o.b).toNat)) 12
        (putRingCounter o.k ((rdS s o.a).toNat % 2 ^ 22) 16 (r.retired + (rdS s o.b).toNat) (ringSeen o.k (rdS s o.a) s)))
    ∧ traps (.commit o) (useYDABk o) (fun s => ringOk o.k s (rdS s o.a) (rdS s o.b) r ∧ r.pend < (rdS s o.b).toNat) (fun _ => mkTrap 0x08 0x0B 0)
    ∧ traps (.retire o) (useYDABk o) (fun s => ringOk o.k s (rdS s o.a) (rdS s o.b) r ∧ r.occ < (rdS s o.b).toNat) (fun _ => mkTrap 0x08 0x0B 0)
    ∧ (∀ i ∈ [Instr.claim o, .commit o, .await o, .retire o],
        traps i (useYDABk o) (fun s => (rdS s o.a).toNat % 64 ≠ 0) (fun s => mkTrap 0x03 0 ((rdS s o.a).toNat % 2 ^ 22))
        ∧ traps i (useYDABk o) (fun s => (rdS s o.a).toNat % 64 = 0 ∧ s.cur.priv = false ∧ touchesSr s.core ((rdS s o.a).toNat % 2 ^ 22) 64 = true)
          (fun s => mkTrap 0x02 0 ((rdS s o.a).toNat % 2 ^ 22))
        ∧ traps i (useYDABk o) (fun s => ringBlock s (rdS s o.a) ∧ readRing (s.setCore (s.viewed o.k)) ((rdS s o.a).toNat % 2 ^ 22) = none)
          (fun _ => mkTrap 0x08 0x0A 0)
        ∧ traps i (useYDABk o) (fun s => ringBlock s (rdS s o.a) ∧ readRing (s.setCore (s.viewed o.k)) ((rdS s o.a).toNat % 2 ^ 22) = some r
            ∧ ((rdS s o.b).toNat = 0 ∨ r.size < (rdS s o.b).toNat)) (fun _ => mkTrap 0x08 0x0B 0))

/-- SLEEPU completes when its cycle has come and waits otherwise; WAITA of a scratchpad or global word gives the word when it differs from the
operand and otherwise waits until it changes or WATCHT runs out; a scratchpad address with reserved bits, and a global watch outside the ctl
stream, raise reason 0x0C; a misaligned, a forbidden or an untranslatable address takes the trap of its kind. A global watch whose word or
table walk lies in a blocked bank holds until the block ends (R403). (R149, R150, R151) -/
def Obligations.TimedWaits : Prop :=
  (∀ o : YA,
    performs (.sleepu o) (useYA o) (fun s => (rdS s o.a).toNat ≤ s.now) id
    ∧ transfers (.sleepu o) (useYA o) (fun s => s.now < (rdS s o.a).toNat) (fun s => waiting (.sleep (rdS s o.a).toNat) o.s s))
  ∧ (∀ o : YDAB,
    performs (.waita o) (useYDAB o)
      (fun s => watchesScratch s (rdS s o.a) ∧ watchRead s s.turn true ((rdS s o.a).toNat % 2 ^ 22) ≠ rdS s o.b)
      (fun s => wrD o.d (watchRead s s.turn true ((rdS s o.a).toNat % 2 ^ 22)) 1 (sawWatched s.turn true ((rdS s o.a).toNat % 2 ^ 22) s))
    ∧ transfers (.waita o) (useYDAB o)
      (fun s => watchesScratch s (rdS s o.a) ∧ watchRead s s.turn true ((rdS s o.a).toNat % 2 ^ 22) = rdS s o.b)
      (fun s => waiting (.watch true ((rdS s o.a).toNat % 2 ^ 22) (rdS s o.b) o.d
        (if s.cur.watcht = 0 then none else some (s.now + s.cur.watcht.toNat)) none) o.s (sawWatched s.turn true ((rdS s o.a).toNat % 2 ^ 22) s))
    ∧ traps (.waita o) (useYDAB o) (fun s => (rdS s o.a).getLsbD 63 = true ∧ (rdS s o.a).toNat / 2 ^ 22 % 2 ^ 41 ≠ 0) (fun _ => mkTrap 0x08 0x0C 0)
    ∧ traps (.waita o) (useYDAB o) (fun s => (rdS s o.a).getLsbD 63 = false ∧ s.turn ≠ .ctl) (fun _ => mkTrap 0x08 0x0C 0)
    ∧ traps (.waita o) (useYDAB o) (fun s => (rdS s o.a).getLsbD 63 = true ∧ (rdS s o.a).toNat / 2 ^ 22 % 2 ^ 41 = 0 ∧ (rdS s o.a).toNat % 8 ≠ 0)
      (fun s => mkTrap 0x03 0 ((rdS s o.a).toNat % 2 ^ 22))
    ∧ traps (.waita o) (useYDAB o) (fun s => (rdS s o.a).getLsbD 63 = true ∧ (rdS s o.a).toNat / 2 ^ 22 % 2 ^ 41 = 0 ∧ (rdS s o.a).toNat % 8 = 0
        ∧ s.cur.priv = false ∧ touchesSr s.core ((rdS s o.a).toNat % 2 ^ 22) 8 = true)
      (fun s => mkTrap 0x02 0 ((rdS s o.a).toNat % 2 ^ 22))
    ∧ traps (.waita o) (useYDAB o) (fun s => (rdS s o.a).getLsbD 63 = false ∧ s.turn = .ctl ∧ (rdS s o.a).toNat % 8 ≠ 0)
      (fun s => mkTrap 0x03 0 (rdS s o.a).toNat))
  ∧ (∀ (o : YDAB) (s s1 : State) (r : TrapRec), issues (.waita o) (useYDAB o) s → s.turn = .ctl → (rdS (startIssue s) o.a).getLsbD 63 = false →
      (rdS (startIssue s) o.a).toNat % 8 = 0 → accessHeld (startIssue s) (streamAccess s false) (rdS (startIssue s) o.a).toNat 8 = false →
      farCheck (startIssue s) (rdS (startIssue s) o.a).toNat 8 false = (s1, .error r) →
      exec (.waita o) s = .next (if s.cur.awaitsLoad then s else trapOut r s1))
  ∧ (∀ (o : YDAB) (s : State), issues (.waita o) (useYDAB o) s → s.turn = .ctl → (rdS (startIssue s) o.a).getLsbD 63 = false →
      (rdS (startIssue s) o.a).toNat % 8 = 0 → accessHeld (startIssue s) (streamAccess s false) (rdS (startIssue s) o.a).toNat 8 = true →
      exec (.waita o) s = .next s)
  ∧ ∀ (o : YDAB) (s s1 : State) (x : Xlat), issues (.waita o) (useYDAB o) s → s.turn = .ctl → (rdS (startIssue s) o.a).getLsbD 63 = false →
      (rdS (startIssue s) o.a).toNat % 8 = 0 → accessHeld (startIssue s) (streamAccess s false) (rdS (startIssue s) o.a).toNat 8 = false →
      farCheck (startIssue s) (rdS (startIssue s) o.a).toNat 8 false = (s1, .ok x) →
      (watchRead s1 s1.turn false x.pa ≠ rdS (startIssue s) o.b →
        exec (.waita o) s = .next (completed (useYDAB o) (wrD o.d (watchRead s1 s1.turn false x.pa) 1 (sawWatched s1.turn false x.pa s1))))
      ∧ (watchRead s1 s1.turn false x.pa = rdS (startIssue s) o.b →
        exec (.waita o) s = .next (endIssue (useYDAB o) (waiting (.watch false x.pa (rdS (startIssue s) o.b) o.d
          (if s1.cur.watcht = 0 then none else some (s1.now + s1.cur.watcht.toNat))
          (if x.tier = .host then none else some (s1.now + 1024))) o.s (sawWatched s1.turn false x.pa s1))))

/-- QCFG enables an empty or disabled queue with the fields of its descriptor; it traps on a malformed descriptor, on a queue that holds
entries, and, from job mode, on a ring in the supervisor region, with the first of its bytes there as ADDR (the model's choice, log entry
21); it disables a queue, returning its credits, where EN is clear; QFREE drops entries from the head, waits for loads in flight, and traps
on a disabled queue and on a count that the queue does not hold; MCAST leaves and joins a group, and traps on reserved bits, an unknown
group and a seventeenth one; CHMAP sets a channel with its credit and clears its fault; PEEK gives the head cell address or all ones, and
traps on a disabled queue; QSTAT gives the status words of Table 10-6. (R202, R203, R204, R208, R211, Table 10-3, Table 10-6) -/
def Obligations.QueuesAndChannels : Prop :=
  (∀ o : CAQ,
    performs (.qcfg o) (useCAQ o)
      (fun s => queueMalformed s o.q (rdS s o.a) = false ∧ ((queueAt s o.q).en = false ∨ (queueAt s o.q).origins = [])
        ∧ (rdS s o.a).getLsbD 63 = true
        ∧ (s.cur.priv = true ∨ touchesSr s.core ((rdS s o.a).toNat / 64 % 2 ^ 16 * 64) (64 * 2 ^ ((rdS s o.a).toNat / 2 ^ 24 % 16)) = false))
      (fun s => setQueue o.q { queueAt s o.q with
        en := true, base := BitVec.ofNat 16 ((rdS s o.a).toNat / 64 % 2 ^ 16), lsize := (rdS s o.a).toNat / 2 ^ 24 % 16
        batch := (rdS s o.a).toNat / 2 ^ 32 % 64 + 1, head := 0, origins := [], credits := [] } s)
    ∧ traps (.qcfg o) (useCAQ o) (fun s => queueMalformed s o.q (rdS s o.a) = true) (fun _ => mkTrap 0x09 0x04 0)
    ∧ traps (.qcfg o) (useCAQ o)
      (fun s => queueMalformed s o.q (rdS s o.a) = false ∧ (queueAt s o.q).en = true ∧ (queueAt s o.q).origins ≠ []) (fun _ => mkTrap 0x09 0x05 0)
    ∧ performs (.qfree o) (useCAQ o)
      (fun s => (queueAt s o.q).en = true ∧ (rdS s o.a).toNat = 1 ∧ (queueAt s o.q).origins ≠ [] ∧ s.cur.flds.all (·.arrived) = true)
      (fun s => popEntry o.q s)
    ∧ (∀ s, issues (.qfree o) (useCAQ o) s → (queueAt (startIssue s) o.q).en = true → 0 < (rdS (startIssue s) o.a).toNat →
        (rdS (startIssue s) o.a).toNat ≤ (queueAt (startIssue s) o.q).origins.length → (startIssue s).cur.flds.all (·.arrived) = true →
        ∃ t, exec (.qfree o) s = .next (completed (useCAQ o) t)
          ∧ (queueAt t o.q).origins = (queueAt (startIssue s) o.q).origins.drop (rdS (startIssue s) o.a).toNat)
    ∧ performs (.mcast o) (useCAQ o) (fun s => (rdS s o.a).toNat / 2 ^ 12 = 0)
      (fun s => s.setMsgs { s.core.msgs with members := s.core.msgs.members.filter fun p => p.1 != (rdS s o.a).toNat % 2 ^ 12 })
    ∧ performs (.mcast o) (useCAQ o)
      (fun s => (rdS s o.a).toNat / 2 ^ 12 = 2 ^ 51 ∧ (s.members = [] ∨ groupKnown s ((rdS s o.a).toNat % 2 ^ 12) = true)
        ∧ (s.core.msgs.members.filter fun p => p.1 != (rdS s o.a).toNat % 2 ^ 12).length < 16)
      (fun s => s.setMsgs { s.core.msgs with members :=
        (s.core.msgs.members.filter fun p => p.1 != (rdS s o.a).toNat % 2 ^ 12) ++ [((rdS s o.a).toNat % 2 ^ 12, o.q.val)] })
    ∧ performs (.qcfg o) (useCAQ o)
      (fun s => queueMalformed s o.q (rdS s o.a) = false ∧ ((queueAt s o.q).en = false ∨ (queueAt s o.q).origins = []) ∧ (rdS s o.a).getLsbD 63 = false)
      (fun s => setQueue o.q { queueAt (returnCredits o.q true s) o.q with en := false } (returnCredits o.q true s))
    ∧ traps (.qcfg o) (useCAQ o)
      (fun s => queueMalformed s o.q (rdS s o.a) = false ∧ ((queueAt s o.q).en = false ∨ (queueAt s o.q).origins = []) ∧ (rdS s o.a).getLsbD 63 = true
        ∧ s.cur.priv = false ∧ touchesSr s.core ((rdS s o.a).toNat / 64 % 2 ^ 16 * 64) (64 * 2 ^ ((rdS s o.a).toNat / 2 ^ 24 % 16)) = true)
      (fun s => mkTrap 0x02 0 (max ((rdS s o.a).toNat / 64 % 2 ^ 16 * 64) (srLow s.core)))
    ∧ traps (.qfree o) (useCAQ o) (fun s => (queueAt s o.q).en = false) (fun _ => mkTrap 0x09 0x03 0)
    ∧ traps (.qfree o) (useCAQ o)
      (fun s => (queueAt s o.q).en = true ∧ ((rdS s o.a).toNat = 0 ∨ (queueAt s o.q).origins.length < (rdS s o.a).toNat)) (fun _ => mkTrap 0x09 0x06 0)
    ∧ (∀ s, issues (.qfree o) (useCAQ o) s → (queueAt (startIssue s) o.q).en = true → 0 < (rdS (startIssue s) o.a).toNat →
        (rdS (startIssue s) o.a).toNat ≤ (queueAt (startIssue s) o.q).origins.length → (startIssue s).cur.flds.all (·.arrived) = false →
        exec (.qfree o) s = .next s)
    ∧ traps (.mcast o) (useCAQ o) (fun s => (rdS s o.a).toNat / 2 ^ 12 % 2 ^ 51 ≠ 0) (fun _ => mkTrap 0x09 0x07 0)
    ∧ traps (.mcast o) (useCAQ o)
      (fun s => (rdS s o.a).toNat / 2 ^ 12 = 2 ^ 51 ∧ (groupKnown s ((rdS s o.a).toNat % 2 ^ 12) = false
        ∨ 16 ≤ (s.core.msgs.members.filter fun p => p.1 != (rdS s o.a).toNat % 2 ^ 12).length)) (fun _ => mkTrap 0x09 0x07 0))
  ∧ (∀ o : CAH,
    performs (.chmap o) (useCAH o) (fun s => channelMalformed (rdS s o.a) = false)
      (fun s => setChannel s.turn o.h.val
        { coord := BitVec.ofNat 32 ((rdS s o.a).toNat / 2 ^ 32), valid := (rdS s o.a).getLsbD 31, mc := (rdS s o.a).getLsbD 30
          queue := BitVec.ofNat 4 ((rdS s o.a).toNat / 2 ^ 16 % 16), credit := (rdS s o.a).toNat % 2 ^ 13, fault := 0, sent := 0
          inFlight := (channelAt s s.turn o.h.val).inFlight } s)
    ∧ traps (.chmap o) (useCAH o) (fun s => channelMalformed (rdS s o.a) = true) (fun _ => mkTrap 0x09 0x08 0))
  ∧ (∀ o : CDQ,
    performs (.peek o) (useCDQ o) (fun s => (queueAt s o.q).en = true ∧ (queueAt s o.q).origins = []) (fun s => wrD o.d (BitVec.allOnes 64) 12 s)
    ∧ performs (.peek o) (useCDQ o) (fun s => (queueAt s o.q).en = true ∧ (queueAt s o.q).origins ≠ [])
      (fun s => wrD o.d (BitVec.ofNat 64 ((queueAt s o.q).base.toNat * 64 + 64 * ((queueAt s o.q).head % 2 ^ (queueAt s o.q).lsize))) 12 s)
    ∧ traps (.peek o) (useCDQ o) (fun s => (queueAt s o.q).en = false) (fun _ => mkTrap 0x09 0x03 0))
  ∧ (∀ o : CDAH,
    performs (.qstat o) (useCDAH o) (fun s => (rdS s o.a).getLsbD 0 = true)
      (fun s => wrD o.d (BitVec.ofNat 64 (channelStatus (channelAt s s.turn o.h.val))) 12 s)
    ∧ performs (.qstat o) (useCDAH o) (fun s => (rdS s o.a).getLsbD 0 = false ∧ o.h.val < 16)
      (fun s => wrD o.d (BitVec.ofNat 64 (queueStatus (queueAt s (Fin.ofNat 16 o.h.val)))) 12 s)
    ∧ performs (.qstat o) (useCDAH o) (fun s => (rdS s o.a).getLsbD 0 = false ∧ 16 ≤ o.h.val) (fun s => wrD o.d 0 12 s))

/-- SEND with credit sends the cell at its address and without credit waits, and holds while a far access of its stream is outstanding; SENDS
reports by its predicate; a channel not valid or faulted traps. RECV takes the head entry into its cell with its origin as the result, waits
on an empty queue, and with RCVL set waits for its promise; RECVS gives all ones when the queue is empty; both trap on a disabled queue. A
misaligned cell address and one in the supervisor region trap, of all four. A sent point-to-point entry spends one credit, counts in SENT
and arrives at its queue. (R126, R199, R205, R208, R209, Table 10-3) -/
def Obligations.SendAndReceive : Prop :=
  (∀ o : CAH,
    performs (.send o) (useCAH o)
      (fun s => sendAllowed s o.h.val (rdS s o.a) ∧ farHeld (BitVec.allOnes 16) s = false
        ∧ ((channelAt s s.turn o.h.val).mc = true ∨ (channelAt s s.turn o.h.val).credit ≠ 0))
      (fun s => sendNow s.turn o.h.val ((rdS s o.a).toNat % 2 ^ 22) s)
    ∧ transfers (.send o) (useCAH o)
      (fun s => sendAllowed s o.h.val (rdS s o.a) ∧ farHeld (BitVec.allOnes 16) s = false ∧ (channelAt s s.turn o.h.val).mc = false ∧ (channelAt s s.turn o.h.val).credit = 0)
      (fun s => waiting (.credit o.h.val ((rdS s o.a).toNat % 2 ^ 22)) o.s s)
    ∧ (∀ s, issues (.send o) (useCAH o) s → sendAllowed (startIssue s) o.h.val (rdS (startIssue s) o.a) →
        farHeld (BitVec.allOnes 16) (startIssue s) = true → exec (.send o) s = .next s)
    ∧ traps (.send o) (useCAH o) (fun s => (channelAt s s.turn o.h.val).valid = false) (fun _ => mkTrap 0x09 0x01 0)
    ∧ traps (.send o) (useCAH o) (fun s => (channelAt s s.turn o.h.val).valid = true ∧ (channelAt s s.turn o.h.val).fault ≠ 0) (fun _ => mkTrap 0x09 0x02 0)
    ∧ traps (.send o) (useCAH o) (fun s => (channelAt s s.turn o.h.val).valid = true ∧ (channelAt s s.turn o.h.val).fault = 0 ∧ (rdS s o.a).toNat % 64 ≠ 0) (fun s => mkTrap 0x03 0 ((rdS s o.a).toNat % 2 ^ 22))
    ∧ traps (.send o) (useCAH o) (fun s => (channelAt s s.turn o.h.val).valid = true ∧ (channelAt s s.turn o.h.val).fault = 0 ∧ (rdS s o.a).toNat % 64 = 0 ∧ s.cur.priv = false ∧ touchesSr s.core ((rdS s o.a).toNat % 2 ^ 22) 64 = true)
      (fun s => mkTrap 0x02 0 ((rdS s o.a).toNat % 2 ^ 22)))
  ∧ (∀ o : CPAH,
    performs (.sends o) (useCPAH o)
      (fun s => sendAllowed s o.h.val (rdS s o.a) ∧ farHeld (BitVec.allOnes 16) s = false
        ∧ ((channelAt s s.turn o.h.val).mc = true ∨ (channelAt s s.turn o.h.val).credit ≠ 0))
      (fun s => wrP o.pd true 8 (sendNow s.turn o.h.val ((rdS s o.a).toNat % 2 ^ 22) s))
    ∧ performs (.sends o) (useCPAH o)
      (fun s => sendAllowed s o.h.val (rdS s o.a) ∧ (channelAt s s.turn o.h.val).mc = false ∧ (channelAt s s.turn o.h.val).credit = 0)
      (fun s => wrP o.pd false 8 s)
    ∧ (∀ s, issues (.sends o) (useCPAH o) s → sendAllowed (startIssue s) o.h.val (rdS (startIssue s) o.a) →
        ((channelAt (startIssue s) s.turn o.h.val).mc = true ∨ (channelAt (startIssue s) s.turn o.h.val).credit ≠ 0) →
        farHeld (BitVec.allOnes 16) (startIssue s) = true → exec (.sends o) s = .next s)
    ∧ traps (.sends o) (useCPAH o) (fun s => (channelAt s s.turn o.h.val).valid = false) (fun _ => mkTrap 0x09 0x01 0)
    ∧ traps (.sends o) (useCPAH o) (fun s => (channelAt s s.turn o.h.val).valid = true ∧ (channelAt s s.turn o.h.val).fault ≠ 0) (fun _ => mkTrap 0x09 0x02 0)
    ∧ traps (.sends o) (useCPAH o) (fun s => (channelAt s s.turn o.h.val).valid = true ∧ (channelAt s s.turn o.h.val).fault = 0 ∧ (rdS s o.a).toNat % 64 ≠ 0) (fun s => mkTrap 0x03 0 ((rdS s o.a).toNat % 2 ^ 22))
    ∧ traps (.sends o) (useCPAH o) (fun s => (channelAt s s.turn o.h.val).valid = true ∧ (channelAt s s.turn o.h.val).fault = 0 ∧ (rdS s o.a).toNat % 64 = 0 ∧ s.cur.priv = false ∧ touchesSr s.core ((rdS s o.a).toNat % 2 ^ 22) 64 = true)
      (fun s => mkTrap 0x02 0 ((rdS s o.a).toNat % 2 ^ 22)))
  ∧ (∀ o : CDAQ,
    performs (.recv o) (useCDAQ o)
      (fun s => (queueAt s o.q).en = true ∧ mayAccessCell s (rdS s o.a) ∧ s.cur.rcvl = 0 ∧ (queueAt s o.q).origins ≠ [])
      (fun s => wrD o.d (((queueAt s o.q).origins.head?).getD 0) 1 (popEntry o.q
        (headMoved o.q ((rdS s o.a).toNat % 2 ^ 22) s)))
    ∧ transfers (.recv o) (useCDAQ o)
      (fun s => (queueAt s o.q).en = true ∧ mayAccessCell s (rdS s o.a) ∧ s.cur.rcvl = 0 ∧ (queueAt s o.q).origins = [])
      (fun s => waiting (.recv o.q.val ((rdS s o.a).toNat % 2 ^ 22) o.d none) o.s s)
    ∧ transfers (.recv o) (useCDAQ o)
      (fun s => (queueAt s o.q).en = true ∧ mayAccessCell s (rdS s o.a) ∧ s.cur.rcvl ≠ 0)
      (fun s => waiting (.recv o.q.val ((rdS s o.a).toNat % 2 ^ 22) o.d (some (s.now + max s.cur.rcvl.toNat 49))) o.s
        (s.setCur { s.cur with rcvp := BitVec.ofNat 64 (s.now + max s.cur.rcvl.toNat 49) }))
    ∧ traps (.recv o) (useCDAQ o) (fun s => (queueAt s o.q).en = false) (fun _ => mkTrap 0x09 0x03 0)
    ∧ performs (.recvs o) (useCDAQ o)
      (fun s => (queueAt s o.q).en = true ∧ mayAccessCell s (rdS s o.a) ∧ (queueAt s o.q).origins ≠ [])
      (fun s => wrD o.d (((queueAt s o.q).origins.head?).getD 0) 12 (popEntry o.q
        (headMoved o.q ((rdS s o.a).toNat % 2 ^ 22) s)))
    ∧ performs (.recvs o) (useCDAQ o)
      (fun s => (queueAt s o.q).en = true ∧ mayAccessCell s (rdS s o.a) ∧ (queueAt s o.q).origins = [])
      (fun s => wrD o.d (BitVec.allOnes 64) 12 s)
    ∧ traps (.recvs o) (useCDAQ o) (fun s => (queueAt s o.q).en = false) (fun _ => mkTrap 0x09 0x03 0)
    ∧ traps (.recv o) (useCDAQ o) (fun s => (queueAt s o.q).en = true ∧ (rdS s o.a).toNat % 64 ≠ 0) (fun s => mkTrap 0x03 0 ((rdS s o.a).toNat % 2 ^ 22))
    ∧ traps (.recv o) (useCDAQ o) (fun s => (queueAt s o.q).en = true ∧ (rdS s o.a).toNat % 64 = 0 ∧ s.cur.priv = false ∧ touchesSr s.core ((rdS s o.a).toNat % 2 ^ 22) 64 = true)
      (fun s => mkTrap 0x02 0 ((rdS s o.a).toNat % 2 ^ 22))
    ∧ traps (.recvs o) (useCDAQ o) (fun s => (queueAt s o.q).en = true ∧ (rdS s o.a).toNat % 64 ≠ 0) (fun s => mkTrap 0x03 0 ((rdS s o.a).toNat % 2 ^ 22))
    ∧ traps (.recvs o) (useCDAQ o) (fun s => (queueAt s o.q).en = true ∧ (rdS s o.a).toNat % 64 = 0 ∧ s.cur.priv = false ∧ touchesSr s.core ((rdS s o.a).toNat % 2 ^ 22) 64 = true)
      (fun s => mkTrap 0x02 0 ((rdS s o.a).toNat % 2 ^ 22)))
  ∧ ∀ (t : Sec) (c a : Nat) (s : State) (x : Channel), t = .ctl ∨ t = .copy → channelAt s t c = x → x.mc = false → x.credit ≠ 0 →
      coordModule x.coord = s.ownModule → coordCore x.coord < 192 → s.isPresent (coordCore x.coord) = true →
      (sendNow t c a s).pending = s.pending ++ [arrivalEvent (coordCore x.coord) x.queue.toNat { cell := (movedCell s a).1, origin := originWord s t c false, bad := (movedCell s a).2 }]
      ∧ (channelAt (sendNow t c a s) t c).credit = x.credit - 1 ∧ (channelAt (sendNow t c a s) t c).sent = x.sent + 1

/-- CSET and CSETI set a command register, CDIM a dimension with its stride and count, CFOLLOW cw14 and the FOLLOW bit of cw0; CLDC loads cwN to
cw15 from consecutive words and CSTC stores them with every tag kept, with the alignment trap for a misaligned address, the privilege trap
for the first word in the supervisor region, and in a load the poison trap for the first word of a poisoned cell; a write of one command
register leaves the others. (R34, R161, R162, R166) -/
def Obligations.CommandRegisters : Prop :=
  (∀ o : KRA,
    performs (.cset o) (useKRA o) (fun _ => True) (fun s => putCw o.r (rdS s o.a) 2 s)
    ∧ performs (.cldc o) (useKRA o)
      (fun s => (rdS s o.a).toNat % 8 = 0
        ∧ ∀ p ∈ cwSlots o.r ((rdS s o.a).toNat % 2 ^ 22), (s.cur.priv = true ∨ touchesSr s.core p.2 8 = false) ∧ spadPoisoned s.core p.2 = false)
      (fun s => (cwSlots o.r ((rdS s o.a).toNat % 2 ^ 22)).foldl (fun t p => sawScratch 0 p.2 8
        (putCw p.1 (BitVec.ofNat 64 (spadNum (s.viewed 0) p.2 8)) 12 t)) s)
    ∧ performs (.cstc o) (useKRA o)
      (fun s => (rdS s o.a).toNat % 8 = 0
        ∧ (∀ p ∈ cwSlots o.r ((rdS s o.a).toNat % 2 ^ 22), s.cur.priv = true ∨ touchesSr s.core p.2 8 = false)
        ∧ (s.cur.mode = true → ∀ p ∈ cwSlots o.r ((rdS s o.a).toNat % 2 ^ 22), (s.core.copy.cw[p.1]).ready ≤ s.cur.clk))
      (fun s => (cwSlots o.r ((rdS s o.a).toNat % 2 ^ 22)).foldl
        (fun t p => storeKeep 0 p.2 (bytesOfNum 8 ((captureCw s)[p.1]).toNat) t) s)
    ∧ traps (.cldc o) (useKRA o) (fun s => (rdS s o.a).toNat % 8 ≠ 0) (fun s => mkTrap 0x03 0 ((rdS s o.a).toNat % 2 ^ 22))
    ∧ traps (.cstc o) (useKRA o) (fun s => (rdS s o.a).toNat % 8 ≠ 0) (fun s => mkTrap 0x03 0 ((rdS s o.a).toNat % 2 ^ 22))
    ∧ (∀ (w : Fin 16 × Nat), ∀ i ∈ [Instr.cldc o, .cstc o], traps i (useKRA o)
      (fun s => (rdS s o.a).toNat % 8 = 0 ∧ ((cwSlots o.r ((rdS s o.a).toNat % 2 ^ 22)).find? fun p => !s.cur.priv && touchesSr s.core p.2 8) = some w)
      (fun _ => mkTrap 0x02 0 w.2))
    ∧ (∀ (w : Fin 16 × Nat), traps (.cldc o) (useKRA o)
      (fun s => (rdS s o.a).toNat % 8 = 0 ∧ (∀ p ∈ cwSlots o.r ((rdS s o.a).toNat % 2 ^ 22), s.cur.priv = true ∨ touchesSr s.core p.2 8 = false)
        ∧ ((cwSlots o.r ((rdS s o.a).toNat % 2 ^ 22)).find? fun p => spadPoisoned s.core p.2) = some w ∧ spadIsBad s.core w.2 = false)
      (fun _ => mkTrap 0x05 0 (w.2 / 64 * 64)))
    ∧ (∀ (w : Fin 16 × Nat), trapsIn (.cldc o) (useKRA o)
      (fun s => (rdS s o.a).toNat % 8 = 0 ∧ (∀ p ∈ cwSlots o.r ((rdS s o.a).toNat % 2 ^ 22), s.cur.priv = true ∨ touchesSr s.core p.2 8 = false)
        ∧ ((cwSlots o.r ((rdS s o.a).toNat % 2 ^ 22)).find? fun p => spadPoisoned s.core p.2) = some w ∧ spadIsBad s.core w.2 = true)
      (fun _ => mkTrap 0x05 1 (w.2 / 64 * 64)) (reportLine w.2)))
  ∧ (∀ o : KRI, performs (.cseti o) (useKRI o) (fun _ => True) (fun s => putCw o.r (BitVec.ofInt 64 o.i.toInt) 2 s))
  ∧ (∀ o : KDim, performs (.cdim o) (useKDim o) (fun _ => True)
      (fun s => putCw (Fin.ofNat 16 (8 + o.r.val))
        (BitVec.ofNat 64 ((rdS s o.b).toNat % 2 ^ 48 * 2 ^ 16 + (rdS s o.a - 1).toNat % 2 ^ 16)) 2 s))
  ∧ (∀ o : AP, performs (.cfollow o) (useAP o) (fun _ => True)
      (fun s => putCw 0 ((s.core.copy.cw[0]).val ||| 0x1000000) 2 (putCw 14 (rdS s o.a) 2 s)))
  ∧ (∀ (k : Fin 16) (a : Nat) (bs : List Byte) (s : State), sameScratch (storeKeep k a bs s).core (spadPutBytes s.core a bs)
      ∧ (storeKeep k a bs s).core.spadTags = s.core.spadTags ∧ (storeKeep k a bs s).core.spadBad = s.core.spadBad)
  ∧ ∀ (i j : Fin 16) (v : Word) (b : Nat) (s : State),
      ((putCw i v b s).core.copy.cw[j]) = if j = i then { val := v, ready := s.cur.clk + b } else s.core.copy.cw[j]

/-- COPY, CFILL, GATHER, SCATTER, KVLIST and TTILE, when the queue has room and the registers can be read, append one command with the next
sequence number and the captured registers, take the lowest free bitmap for a listed kind, or complete at once with fault 0x0D where none is
free and none will be (0x09 where the semaphore it names is not valid either, the order being the model's, log entry 60), and give its
promise; scratchpad, global memory and the other command registers stay as they were. (R152, R156, R163, R168, R181, R196) -/
def Obligations.CommandIssue : Prop :=
  ∀ o : DP,
    issuesCommand (.copy o) .copy o ∧ issuesCommand (.cfill o) .cfill o ∧ issuesCommand (.gather o) .gather o
    ∧ issuesCommand (.scatter o) .scatter o ∧ issuesCommand (.kvlist o) .kvlist o ∧ issuesCommand (.ttile o) .ttile o

/-- TDEF gives the result code of the descriptor at its address (the order of code 1 before 2 is the model's, log entry 38), holds while the
copy queue is full or a table walk for the extent meets a blocked bank, and traps on a misaligned, forbidden or poisoned descriptor; FRMAP
refuses a malformed frame with all ones and otherwise exchanges the frame register for the old value, clearing it when the new one is not
valid, with the privilege trap where a window of it touches the supervisor region in job mode (ADDR the first byte there, the model's
choice, log entry 21; a refused value is answered first, log entry 59); PUBLISH inverts SWAP of a valid shadowed frame; none of the three
moves a byte of the scratchpad or of global memory. (R172, R174, R175, R187, R403, Table 9-8) -/
def Obligations.HandlesAndFrames : Prop :=
  (∀ o : DABP,
    performs (.tdef o) (useDABP o)
      (fun s => s.core.copy.queue.length < 64 ∧ mayAccess s ((rdS s o.b).toNat % 2 ^ 22) 64 ∧ spadPoisoned s.core ((rdS s o.b).toNat % 2 ^ 22) = false
        ∧ extentHeld s ((rdS s o.b).toNat % 2 ^ 22) = false)
      (fun s => wrD o.d (BitVec.ofNat 64 (defineHandle s (rdS s o.a).toNat ((rdS s o.b).toNat % 2 ^ 22)).2) 1024
        (defineHandle s (rdS s o.a).toNat ((rdS s o.b).toNat % 2 ^ 22)).1)
    ∧ (∀ s, issues (.tdef o) (useDABP o) s → 64 ≤ s.core.copy.queue.length → exec (.tdef o) s = .next s)
    ∧ (∀ s, issues (.tdef o) (useDABP o) s →
        let u := startIssue s
        mayAccess u ((rdS u o.b).toNat % 2 ^ 22) 64 → spadPoisoned u.core ((rdS u o.b).toNat % 2 ^ 22) = false →
        extentHeld u ((rdS u o.b).toNat % 2 ^ 22) = true → exec (.tdef o) s = .next s)
    ∧ traps (.tdef o) (useDABP o) (fun s => s.core.copy.queue.length < 64 ∧ (rdS s o.b).toNat % 64 ≠ 0) (fun s => mkTrap 0x03 0 ((rdS s o.b).toNat % 2 ^ 22))
    ∧ traps (.tdef o) (useDABP o) (fun s => s.core.copy.queue.length < 64 ∧ (rdS s o.b).toNat % 64 = 0
        ∧ s.cur.priv = false ∧ touchesSr s.core ((rdS s o.b).toNat % 2 ^ 22) 64 = true) (fun s => mkTrap 0x02 0 ((rdS s o.b).toNat % 2 ^ 22))
    ∧ traps (.tdef o) (useDABP o) (fun s => s.core.copy.queue.length < 64 ∧ mayAccess s ((rdS s o.b).toNat % 2 ^ 22) 64
        ∧ spadIsBad s.core ((rdS s o.b).toNat % 2 ^ 22) = false ∧ tagF (spadTag s.core ((rdS s o.b).toNat % 2 ^ 22)) = 0xFF)
      (fun s => mkTrap 0x05 0 ((rdS s o.b).toNat % 2 ^ 22))
    ∧ trapsIn (.tdef o) (useDABP o) (fun s => s.core.copy.queue.length < 64 ∧ mayAccess s ((rdS s o.b).toNat % 2 ^ 22) 64
        ∧ spadIsBad s.core ((rdS s o.b).toNat % 2 ^ 22) = true)
      (fun s => mkTrap 0x05 1 ((rdS s o.b).toNat % 2 ^ 22)) (fun s => reportLine ((rdS s o.b).toNat % 2 ^ 22) s)
    ∧ traps (.frmap o) (useDABP o) (fun s => frameRefused (rdS s o.b) = false ∧ s.cur.priv = false ∧ frmValid (rdS s o.b) = true
        ∧ touchesSr s.core (frmVb (rdS s o.b)) (frmSize (rdS s o.b)) = true) (fun s => mkTrap 0x02 0 (max (frmVb (rdS s o.b)) (srLow s.core)))
    ∧ traps (.frmap o) (useDABP o) (fun s => frameRefused (rdS s o.b) = false ∧ s.cur.priv = false ∧ frmValid (rdS s o.b) = true
        ∧ touchesSr s.core (frmVb (rdS s o.b)) (frmSize (rdS s o.b)) = false ∧ frmShen (rdS s o.b) = true
        ∧ touchesSr s.core (frmSb (rdS s o.b)) (frmSize (rdS s o.b)) = true) (fun s => mkTrap 0x02 0 (max (frmSb (rdS s o.b)) (srLow s.core)))
    ∧ performs (.frmap o) (useDABP o) (fun s => frameRefused (rdS s o.b) = true) (fun s => wrD o.d (BitVec.allOnes 64) 8 s)
    ∧ (∀ s, issues (.frmap o) (useDABP o) s →
        let u := startIssue s
        let f : Fin 16 := Fin.ofNat 16 ((rdS u o.a).toNat % 16)
        frameRefused (rdS u o.b) = false → frameAllowed u (rdS u o.b) →
        ∃ t, exec (.frmap o) s = .next (completed (useDABP o) (wrD o.d s.core.frames[f] 8 t))
          ∧ t.core.frames = s.core.frames.set f (if (rdS u o.b).getLsbD 0 then rdS u o.b else 0)
          ∧ sameScratch t.core s.core ∧ t.mem = s.mem))
  ∧ (∀ (o : AP) (s : State), issues (.publish o) (useAP o) s →
      let f : Fin 16 := Fin.ofNat 16 ((rdS (startIssue s) o.a).toNat % 16)
      ∃ t, exec (.publish o) s = .next (completed (useAP o) t)
        ∧ t.core.frames = (if (s.core.frames[f]).getLsbD 0 && (s.core.frames[f]).getLsbD 2 then s.core.frames.set f (s.core.frames[f] ^^^ 2) else s.core.frames)
        ∧ sameScratch t.core s.core ∧ t.mem = s.mem)
  ∧ (∀ (s : State) (h b : Nat), 16384 ≤ h → defineHandle s h b = (sawScratch 0 b 64 s, 1))
  ∧ (∀ (s : State) (h b : Nat), h < 16384 → handleBusy (sawScratch 0 b 64 s) h = true → defineHandle s h b = (sawScratch 0 b 64 s, 2))
  ∧ (∀ (s : State) (h b : Nat), (defineHandle s h b).1.mem = s.mem ∧ (defineHandle s h b).1.memTags = s.memTags ∧ sameScratch (defineHandle s h b).1.core s.core)
  ∧ ∀ (s : State) (b : Nat), s.tiers.blocked = [] → extentHeld s b = false

/-- CSTAT gives the status word of a recorded command and the bare number otherwise; CBMAP gives 64 bits of a bitmap; CRESUME of a suspended
command enters a new one with the next number and of any other gives all ones; CCANCEL gives 0, 1, 2 or 3 by what it found; CWAIT completes
when the command is no longer live, waits while it is, and first takes an engine fault that the stream holds. (R155, R182, R191, R193, R194,
R195, Table 9-11) -/
def Obligations.CommandStatus : Prop :=
  (∀ o : DAP,
    (∀ c, performs (.cstat o) (useDAP o) (fun s => recordCmd s (BitVec.ofNat 16 (rdS s o.a).toNat) = some c)
      (fun s => wrD o.d (statusWord c (liveCmd s (BitVec.ofNat 16 (rdS s o.a).toNat)).isNone) 8 s))
    ∧ performs (.cstat o) (useDAP o) (fun s => recordCmd s (BitVec.ofNat 16 (rdS s o.a).toNat) = none)
      (fun s => wrD o.d (BitVec.ofNat 64 ((rdS s o.a).toNat % 2 ^ 16)) 8 s)
    ∧ performs (.cresume o) (useDAP o) (fun s => suspCmd s (BitVec.ofNat 16 (rdS s o.a).toNat) = none) (fun s => wrD o.d (BitVec.allOnes 64) 16 s)
    ∧ (∀ s c, issues (.cresume o) (useDAP o) s → suspCmd (startIssue s) (BitVec.ofNat 16 (rdS (startIssue s) o.a).toNat) = some c →
        s.core.copy.queue.length < 64 →
        ∃ t, exec (.cresume o) s = .next (completed (useDAP o) (wrD o.d ((s.core.copy.seq + 1).setWidth 64) 16 t))
          ∧ t.core.copy.queue.map (·.seq) = s.core.copy.queue.map (·.seq) ++ [s.core.copy.seq + 1] ∧ t.core.copy.seq = s.core.copy.seq + 1)
    ∧ performs (.ccancel o) (useDAP o)
      (fun s => liveCmd s (BitVec.ofNat 16 (rdS s o.a).toNat) = none ∧ suspCmd s (BitVec.ofNat 16 (rdS s o.a).toNat) = none) (fun s => wrD o.d 0 8 s)
    ∧ (∀ c, performs (.ccancel o) (useDAP o)
      (fun s => liveCmd s (BitVec.ofNat 16 (rdS s o.a).toNat) = some c ∧ c.phase = .queued)
      (fun s => wrD o.d 1 8 (recordFault (BitVec.ofNat 16 (rdS s o.a).toNat) 0x0C 0 (setCmd { c with cancelled := true } s))))
    ∧ (∀ c, performs (.ccancel o) (useDAP o)
      (fun s => liveCmd s (BitVec.ofNat 16 (rdS s o.a).toNat) = some c ∧ (c.phase = .fetching ∨ c.phase = .held))
      (fun s => wrD o.d 2 8 (cancelStarted c s)))
    ∧ (∀ s c, issues (.ccancel o) (useDAP o) s → liveCmd (startIssue s) (BitVec.ofNat 16 (rdS (startIssue s) o.a).toNat) = none →
        suspCmd (startIssue s) (BitVec.ofNat 16 (rdS (startIssue s) o.a).toNat) = some c →
        ∃ t, exec (.ccancel o) s = .next (completed (useDAP o) (wrD o.d 3 8 t)) ∧ suspCmd t (BitVec.ofNat 16 (rdS (startIssue s) o.a).toNat) = none))
  ∧ (∀ o : DABP, performs (.cbmap o) (useDABP o) (fun _ => True)
      (fun s => wrD o.d (BitVec.ofNat 64 ((s.core.copy.bitmaps[Fin.ofNat 16 ((rdS s o.a).toNat % 16)]).toNat / 2 ^ (64 * ((rdS s o.b).toNat % 64)) % 2 ^ 64)) 8 s))
  ∧ ∀ o : AP,
    performs (.cwait o) (useAP o) (fun s => noFault s ∧ liveCmd s (BitVec.ofNat 16 (rdS s o.a).toNat) = none) id
    ∧ (∀ c, transfers (.cwait o) (useAP o) (fun s => noFault s ∧ liveCmd s (BitVec.ofNat 16 (rdS s o.a).toNat) = some c)
      (fun s => waiting (.command ((rdS s o.a).toNat % 2 ^ 16)) o.s s))
    ∧ ∀ s r l, issues (.cwait o) (useAP o) s → s.turn = .copy → s.cur.faults = r :: l → s.cur.awaitsLoad = false →
        exec (.cwait o) s = .next (trapOut r ((entered (.cwait o) s).setCur { (entered (.cwait o) s).cur with faults := l }))

/-- WLOAD, WFLIP and MMUL whose word passes its checks, where the queue has room, append one entry with the word and the captured band addresses
and slot, and add one to the counter that the word names; a word of another kind traps with reason 1, one with reserved bits with reason 2,
and every failing check with its reason, or the privilege trap where the command reads the supervisor region in job mode (ADDR the first
byte there, the model's choice, log entry 21); with a full queue it waits. (R224, R230, R231, R232, Table 12-3) -/
def Obligations.MatrixQueue : Prop :=
  ∀ (o : AP) (i : Instr) (kind : Nat), (i = .mmul o ∧ kind = 0) ∨ (i = .wload o ∧ kind = 1) ∨ (i = .wflip o ∧ kind = 2) →
    (∀ s, issues i (useAP o) s →
      let u := startIssue s
      let w := rdS u o.a
      wordReason u.core.mat kind w = none → (s.cur.priv = true ∨ ∀ r ∈ wordRanges u.core.mat w, touchesSr s.core r.1 r.2 = false) →
      s.core.mat.queue.length < 32 →
      ∃ t, exec i s = .next (completed (useAP o) t)
        ∧ t.core.mat = { s.core.mat with queue := s.core.mat.queue ++
            [{ word := w, abv := s.core.mat.abv, bbv := s.core.mat.bbv, slot := s.core.mat.slot, fol := false, reload := false }] }
        ∧ (∀ c : Fin 32, t.core.sync.counters[c] =
            if w.getLsbD 61 = true ∧ c.val = w.toNat / 2 ^ 56 % 32 then s.core.sync.counters[c] + 1 else s.core.sync.counters[c])
        ∧ sameScratch t.core s.core)
    ∧ (∀ r, traps i (useAP o) (fun s => wordReason s.core.mat kind (rdS s o.a) = some r) (fun _ => mkTrap 0x0A r 0))
    ∧ (∀ a, traps i (useAP o) (fun s => wordReason s.core.mat kind (rdS s o.a) = none ∧ s.cur.priv = false
        ∧ rangesInSr s.core (wordRanges s.core.mat (rdS s o.a)) = some a) (fun _ => mkTrap 0x02 0 a))
    ∧ (∀ s, issues i (useAP o) s → wordReason s.core.mat kind (rdS (startIssue s) o.a) = none →
        (s.cur.priv = true ∨ ∀ r ∈ wordRanges s.core.mat (rdS (startIssue s) o.a), touchesSr s.core r.1 r.2 = false) →
        32 ≤ s.core.mat.queue.length → exec i s = .next s)
    ∧ (∀ (m : Matrix) (w : Word), w.toNat / 2 ^ 62 ≠ kind → wordReason m kind w = some 0x01)
    ∧ (∀ (m : Matrix) (w : Word), w.toNat / 2 ^ 62 = kind → wordReserved w = true → wordReason m kind w = some 0x02)

/-- MCFG of a drained array sets CFG and drops the combs when the split or the weight width changes, reserved bits raise reason 2 and a format,
split or width the array does not have reason 3; MREL drops the combs and clears both banks; MDRAIN first takes a fault that pends, then
completes when the array is drained, and a fault that comes while it waits stays for the next WAITLT or MDRAIN; the three wait until the
array is drained; MBAND, MTAG and MPACE set their registers, an odd band address raising reason 6; MSTAT gives the word of its selector.
(R145, R238, R239, R243, R244, Table 12-3, Table 12-8) -/
def Obligations.MatrixConfiguration : Prop :=
  (∀ (o : AP) (s : State), issues (.mcfg o) (useAP o) s →
    let c : BitVec 8 := (rdS (startIssue s) o.a).setWidth 8
    let old := s.core.mat.cfg
    (rdS (startIssue s) o.a).toNat < 128 → c.getLsbD 3 = false → cfgAw c ≠ 3 → cfgSplit c ≤ 4 → (cfgAw c ≠ 2 ∨ cfgWw c = true) →
    drained s = true →
    ∃ t, exec (.mcfg o) s = .next (completed (useAP o) t) ∧ t.core.mat.cfg = c ∧ t.core.mat.bank0 = s.core.mat.bank0
      ∧ t.core.mat.bank1 = s.core.mat.bank1
      ∧ (cfgSplit c = cfgSplit old → cfgWw c = cfgWw old → t.core.mat = { s.core.mat with cfg := c })
      ∧ (cfgSplit c ≠ cfgSplit old ∨ cfgWw c ≠ cfgWw old →
          t.core.mat.residentValid = false ∧ t.core.mat.fillState = .empty
          ∧ t.core.mat.resident.record.valid = false ∧ t.core.mat.filling.record.valid = false))
  ∧ (∀ o : AP, traps (.mcfg o) (useAP o) (fun s => (rdS s o.a).toNat ≥ 128 ∨ (rdS s o.a).getLsbD 3 = true) (fun _ => mkTrap 0x0A 0x02 0)
    ∧ traps (.mcfg o) (useAP o) (fun s => (rdS s o.a).toNat < 128 ∧ (rdS s o.a).getLsbD 3 = false
        ∧ (cfgAw ((rdS s o.a).setWidth 8) = 3 ∨ 4 < cfgSplit ((rdS s o.a).setWidth 8) ∨ (cfgAw ((rdS s o.a).setWidth 8) = 2 ∧ cfgWw ((rdS s o.a).setWidth 8) = false))) (fun _ => mkTrap 0x0A 0x03 0)
    ∧ (∀ s, issues (.mcfg o) (useAP o) s →
        let c : BitVec 8 := (rdS (startIssue s) o.a).setWidth 8
        (rdS (startIssue s) o.a).toNat < 128 → c.getLsbD 3 = false → cfgAw c ≠ 3 → cfgSplit c ≤ 4 → (cfgAw c ≠ 2 ∨ cfgWw c = true) →
        drained s = false → exec (.mcfg o) s = .next s))
  ∧ (∀ (o : GP) (s : State), issues (.mrel o) (useGP o) s → drained s = true →
      ∃ t, exec (.mrel o) s = .next (completed (useGP o) t) ∧ t.core.mat.bank0 = [] ∧ t.core.mat.bank1 = []
        ∧ t.core.mat.residentValid = false ∧ t.core.mat.fillState = .empty ∧ t.core.mat.cfg = s.core.mat.cfg)
  ∧ (∀ o : GP, performs (.mdrain o) (useGP o) (fun s => (s.core.mat.checked = true ∨ noFault s) ∧ drained s = true)
      (fun s => s.setMat { s.core.mat with checked := false }))
  ∧ (∀ o : GP, transfers (.mdrain o) (useGP o) (fun s => (s.core.mat.checked = true ∨ noFault s) ∧ drained s = false)
      (fun s => s.setMat { s.core.mat with checked := true }))
  ∧ (∀ (o : GP) (s : State), issues (.mrel o) (useGP o) s → drained s = false → exec (.mrel o) s = .next s)
  ∧ (∀ (o : GP) (s : State), issues (.mdrain o) (useGP o) s → s.turn = .mat → s.core.mat.checked = false → s.core.mat.mflt.pend = true → s.cur.awaitsLoad = false →
      exec (.mdrain o) s = .next (trapOut (matrixRec s.core.mat.mflt) (clearMflt (startIssue s))))
  ∧ (∀ o : ABP, performs (.mband o) (useABP o) (fun s => (rdS s o.a).toNat % 2 = 0 ∧ (rdS s o.b).toNat % 2 = 0)
      (fun s => s.setMat { s.core.mat with abv := (rdS s o.a).setWidth 22, bbv := (rdS s o.b).setWidth 22 })
    ∧ traps (.mband o) (useABP o) (fun s => (rdS s o.a).toNat % 2 = 1 ∨ (rdS s o.b).toNat % 2 = 1) (fun _ => mkTrap 0x0A 0x06 0))
  ∧ (∀ o : AP, performs (.mtag o) (useAP o) (fun _ => True) (fun s => s.setMat { s.core.mat with slot := (rdS s o.a).setWidth 6 }))
  ∧ (∀ o : AP, performs (.mpace o) (useAP o) (fun _ => True) (fun s => s.setMat { s.core.mat with swl := (rdS s o.a).setWidth 3 }))
  ∧ (∀ o : DAP, scalarDoes (.mstat o) (useDAP o) o.d (fun s => BitVec.ofNat 64 (matStatus s.core.mat ((rdS s o.a).toNat % 16))) 8)
  ∧ ∀ m : Matrix, matStatus m 4 = m.mseq.toNat ∧ matStatus m 6 = m.bbv.toNat * 2 ^ 32 + m.abv.toNat ∧ ∀ k, 7 ≤ k → matStatus m k = 0

/-- MSWAP exchanges the banks once every earlier MMUL has finished and leaves its queue mark until then; MCLR clears a range of columns of the
visible or the working bank and traps with reason 7 beyond column 1023; MSAVE writes the visible bank to cells of raw FP32 and MREST reads
each element back into it, leaving the working bank and the scratchpad; a misaligned area raises reason 2, one past the end of the
scratchpad reason 5 and columns past the bank reason 7 of MSAVE and MREST, an area in the supervisor region the privilege trap (ADDR the
first byte there, the model's choice, log entry 21), and a poisoned or ill-formatted cell its trap of MREST. (R228, R240, R241, R242, Table
12-3) -/
def Obligations.AccumulatorBanks : Prop :=
  (∀ o : GP,
    performs (.mswap o) (useGP o) mmulsDone
      (fun s => s.setMat { s.core.mat with wsel := !s.core.mat.wsel, mark := none })
    ∧ transfers (.mswap o) (useGP o) (fun s => ¬ mmulsDone s)
      (fun s => s.setMat { s.core.mat with mark := some (s.core.mat.mark.getD s.core.mat.queue.length) }))
  ∧ (∀ o : AP,
    performs (.mclr o) (useAP o)
      (fun s => (rdS s o.a).toNat / 2 ^ 9 = 0 ∧ (rdS s o.a).toNat / 2 ^ 6 % 4 = 0 ∧ (rdS s o.a).getLsbD 8 = true
        ∧ (rdS s o.a).toNat % 8 + ((rdS s o.a).toNat / 8 % 8 + 1) ≤ 8)
      (fun s => s.setMat (setVis s.core.mat (clearCols (128 * ((rdS s o.a).toNat % 8)) (128 * ((rdS s o.a).toNat / 8 % 8 + 1)) (visBank s.core.mat))))
    ∧ performs (.mclr o) (useAP o)
      (fun s => (rdS s o.a).toNat / 2 ^ 6 = 0 ∧ (rdS s o.a).toNat % 8 + ((rdS s o.a).toNat / 8 % 8 + 1) ≤ 8
        ∧ mmulsDone s)
      (fun s => s.setMat { setWork s.core.mat (clearCols (128 * ((rdS s o.a).toNat % 8)) (128 * ((rdS s o.a).toNat / 8 % 8 + 1)) (workBank s.core.mat)) with mark := none })
    ∧ transfers (.mclr o) (useAP o)
      (fun s => (rdS s o.a).toNat / 2 ^ 6 = 0 ∧ (rdS s o.a).toNat % 8 + ((rdS s o.a).toNat / 8 % 8 + 1) ≤ 8 ∧ ¬ mmulsDone s)
      (fun s => s.setMat { s.core.mat with mark := some (s.core.mat.mark.getD s.core.mat.queue.length) })
    ∧ traps (.mclr o) (useAP o) (fun s => (rdS s o.a).toNat / 2 ^ 9 ≠ 0 ∨ (rdS s o.a).toNat / 2 ^ 6 % 4 ≠ 0) (fun _ => mkTrap 0x0A 0x02 0)
    ∧ traps (.mclr o) (useAP o)
      (fun s => (rdS s o.a).toNat / 2 ^ 9 = 0 ∧ (rdS s o.a).toNat / 2 ^ 6 % 4 = 0 ∧ 8 < (rdS s o.a).toNat % 8 + ((rdS s o.a).toNat / 8 % 8 + 1))
      (fun _ => mkTrap 0x0A 0x07 0))
  ∧ (∀ o : ABP,
    performs (.msave o) (useABP o) (fun s => bankAreaOk s (rdS s o.a) (rdS s o.b))
      (fun s =>
        let base := (rdS s o.a).toNat % 2 ^ 22
        let cb := 128 * ((rdS s o.b).toNat % 8)
        let nc := 128 * ((rdS s o.b).toNat / 8 + 1)
        (List.range (4 * nc)).foldl (fun t i => storeCell 0 (base + 64 * i)
          { bytes := packCodes ((areaKeys cb nc i).map fun k => sparseGet 0 (visBank s.core.mat) k), tag := 0x7F40 } t) s)
    ∧ (∀ s, issues (.mrest o) (useABP o) s → bankAreaOk (startIssue s) (rdS (startIssue s) o.a) (rdS (startIssue s) o.b) →
        restoreTrap (startIssue s) ((rdS (startIssue s) o.a).toNat % 2 ^ 22) (512 * ((rdS (startIssue s) o.b).toNat / 8 + 1)) = none →
        sparseWf (0 : BitVec 32) 0 (visBank s.core.mat) = true →
        ∃ t, exec (.mrest o) s = .next (completed (useABP o) t) ∧ workBank t.core.mat = workBank s.core.mat ∧ sameScratch t.core s.core
          ∧ ∀ i u : Nat, i < 512 * ((rdS (startIssue s) o.b).toNat / 8 + 1) → u < 16 →
              let nc := 128 * ((rdS (startIssue s) o.b).toNat / 8 + 1)
              sparseGet 0 (visBank t.core.mat) (bankKey ((16 * i + u) / nc) (128 * ((rdS (startIssue s) o.b).toNat % 8) + (16 * i + u) % nc))
                = (restoreElement (spadCell ((startIssue s).viewed 0) ((rdS (startIssue s) o.a).toNat % 2 ^ 22 + 64 * i)) u).code)
    ∧ (∀ r, traps (.mrest o) (useABP o) (fun s => bankAreaOk s (rdS s o.a) (rdS s o.b)
        ∧ restoreTrap s ((rdS s o.a).toNat % 2 ^ 22) (512 * ((rdS s o.b).toNat / 8 + 1)) = some r ∧ (r.cause ≠ 0x05 ∨ spadIsBad s.core r.addr.toNat = false)) (fun _ => r))
    ∧ (∀ r, trapsIn (.mrest o) (useABP o) (fun s => bankAreaOk s (rdS s o.a) (rdS s o.b)
        ∧ restoreTrap s ((rdS s o.a).toNat % 2 ^ 22) (512 * ((rdS s o.b).toNat / 8 + 1)) = some r ∧ r.cause = 0x05 ∧ spadIsBad s.core r.addr.toNat = true) (fun _ => r)
        (fun s => reportLine r.addr.toNat s))
    ∧ (∀ i ∈ [Instr.msave o, .mrest o],
      traps i (useABP o) (fun s => (rdS s o.a).toNat % 64 ≠ 0 ∨ 2 ^ 22 ≤ (rdS s o.a).toNat ∨ 64 ≤ (rdS s o.b).toNat) (fun _ => mkTrap 0x0A 0x02 0)
      ∧ traps i (useABP o) (fun s => (rdS s o.a).toNat < 2 ^ 22 ∧ (rdS s o.a).toNat % 64 = 0 ∧ (rdS s o.b).toNat < 64 ∧ 2 ^ 22 < (rdS s o.a).toNat + 256 * (128 * ((rdS s o.b).toNat / 8 + 1))) (fun _ => mkTrap 0x0A 0x05 0)
      ∧ traps i (useABP o) (fun s => (rdS s o.a).toNat < 2 ^ 22 ∧ (rdS s o.a).toNat % 64 = 0 ∧ (rdS s o.b).toNat < 64 ∧ (rdS s o.a).toNat + 256 * (128 * ((rdS s o.b).toNat / 8 + 1)) ≤ 2 ^ 22 ∧ 1024 < 128 * ((rdS s o.b).toNat % 8) + (128 * ((rdS s o.b).toNat / 8 + 1))) (fun _ => mkTrap 0x0A 0x07 0)
      ∧ traps i (useABP o) (fun s => (rdS s o.a).toNat < 2 ^ 22 ∧ (rdS s o.a).toNat % 64 = 0 ∧ (rdS s o.b).toNat < 64 ∧ (rdS s o.a).toNat + 256 * (128 * ((rdS s o.b).toNat / 8 + 1)) ≤ 2 ^ 22 ∧ 128 * ((rdS s o.b).toNat % 8) + (128 * ((rdS s o.b).toNat / 8 + 1)) ≤ 1024
          ∧ s.cur.priv = false ∧ touchesSr s.core (rdS s o.a).toNat (256 * (128 * ((rdS s o.b).toNat / 8 + 1))) = true) (fun s => mkTrap 0x02 0 (max (rdS s o.a).toNat (srLow s.core)))))
  ∧ ∀ (d : CellData) (u : Nat), u < 16 → tagF d.tag = 0 → (restoreElement d u).code = BitVec.ofNat 32 (d.bytes.toNat / 2 ^ (32 * u) % 2 ^ 32)

/-- Where the element type is a float and the engine is free, each elementwise float instruction occupies the engine for its cycles and writes
the rounded result of its operation in every selected lane, with the flags of those lanes; any other type raises reason 2 of each of them;
VABS clears and VNEG inverts the sign, and a NaN gives the canonical NaN; while the engine is busy each waits. (R250, R260, R261, Table
13-4) -/
def Obligations.VectorFloats : Prop :=
  (∀ o : VWXY, floatTwo (.vadd o) o 16 fAdd
    ∧ floatTwo (.vsub o) o 16 fSub
    ∧ floatTwo (.vmul o) o 16 fMul
    ∧ floatTwo (.vmax o) o 16 (fun f _ a b => exact (fMax f a b))
    ∧ floatTwo (.vmin o) o 16 (fun f _ a b => exact (fMin f a b))
    ∧ floatTwo (.vclamp o) o 16 (fun f _ a b => exact (fClamp f a b))
    ∧ floatTwo (.vscale o) o 24 fScale)
  ∧ (∀ o : VWX, floatOne (.vabs o) o 16 (fun f _ a => exact (fAbs f a))
    ∧ floatOne (.vneg o) o 16 (fun f _ a => exact (fNeg f a))
    ∧ floatOne (.vrcp o) o 24 fRcp
    ∧ floatOne (.vrsq o) o 24 fRsq
    ∧ floatOne (.vexp o) o 24 fExp
    ∧ floatOne (.vlog o) o 24 fLog)
  ∧ (∀ o : VFmaOps, vectorDoes (.vfma o) (useVFmaOps o) occupancy (fun h _ => h.t ≤ 2) fun h s =>
      putRounded o.v h (rdM s o.m) (fun l => fFma o.f (vtFmt h.t) s.cur.ncs.rm (laneOf (rdV s o.x) h.w l) (laneOf (rdV s o.y) h.w l)
        (laneOf (rdOld s o.v) h.w l)) 16 s)
  ∧ (∀ (o : VWXY), ∀ i ∈ [Instr.vadd o, .vsub o, .vmul o, .vmax o, .vmin o, .vclamp o, .vscale o],
      traps i (useVWXY o) (fun s => s.core.vec.busy ≤ s.cur.clk ∧ 2 < (shapeOf s).t) (fun _ => mkTrap 0x0B 0x02 0))
  ∧ (∀ (o : VWX), ∀ i ∈ [Instr.vabs o, .vneg o, .vrcp o, .vrsq o, .vexp o, .vlog o],
      traps i (useVWX o) (fun s => s.core.vec.busy ≤ s.cur.clk ∧ 2 < (shapeOf s).t) (fun _ => mkTrap 0x0B 0x02 0))
  ∧ (∀ o : VFmaOps, traps (.vfma o) (useVFmaOps o) (fun s => s.core.vec.busy ≤ s.cur.clk ∧ 2 < (shapeOf s).t) (fun _ => mkTrap 0x0B 0x02 0))
  ∧ (∀ o : VWXY, ∀ i ∈ [Instr.vadd o, .vsub o, .vmul o, .vmax o, .vmin o, .vclamp o, .vscale o], stallsBusy i (useVWXY o))
  ∧ (∀ o : VWX, ∀ i ∈ [Instr.vabs o, .vneg o, .vrcp o, .vrsq o, .vexp o, .vlog o], stallsBusy i (useVWX o))
  ∧ (∀ o : VFmaOps, stallsBusy (.vfma o) (useVFmaOps o))
  ∧ ∀ (f : Fmt) (a : Nat), a < 2 ^ f.width →
      ((decodeFmt f a).isNan = true → fAbs f a = f.nan ∧ fNeg f a = f.nan)
      ∧ ((decodeFmt f a).isNan = false → fAbs f a = a % 2 ^ (f.width - 1) ∧ fNeg f a = a ^^^ 2 ^ (f.width - 1))

/-- A vector result writes the selected lanes, keeps the unselected lanes and the tail of a named register, and writes zero in the unselected
lanes of a push; no other vector register changes, a push moves every queue entry up by one, and mask m0 reads as all ones and discards
writes. (R246, R249) -/
def Obligations.LaneResults : Prop :=
  (∀ (d : VDst) (h : Shape) (m : Nat) (f : Nat → Nat) (s : State) (l : Nat), l < h.lanes →
    laneOf (laneResult d h m f s) h.w l =
      if m.testBit l then f l % 2 ^ h.w else match d with
        | .push => 0
        | .v i => laneOf (s.core.vec.v[i]).val.toNat h.w l)
  ∧ (∀ (i : Fin 24) (h : Shape) (m : Nat) (f : Nat → Nat) (s : State),
    laneResult (.v i) h m f s / 2 ^ (h.w * h.lanes) = (s.core.vec.v[i]).val.toNat / 2 ^ (h.w * h.lanes))
  ∧ (∀ (i j : Fin 24) (x b : Nat) (s : State), i ≠ j → (wrV (.v i) x b s).core.vec.v[j] = s.core.vec.v[j])
  ∧ (∀ (x b : Nat) (s : State) (k : Fin 15),
    ((wrV .push x b s).core.vec.vq[Fin.ofNat 16 (k.val + 1)]) = s.core.vec.vq[Fin.ofNat 16 k.val]
    ∧ (wrV .push x b s).core.vec.vq[0] = { val := BitVec.ofNat 131072 x, ready := s.cur.clk + b })
  ∧ ∀ (m : Fin 16) (x b : Nat) (s : State), (m = 0 → wrM m x b s = s) ∧ rdM s 0 = 2 ^ 4096 - 1

/-- VIADD, VISUB and VIMUL compute modulo 2^w, the shifts give zero, or the sign for VSHA, from a count of the width on, and VAND, VOR and VXOR
work on every type, in each selected lane; each of the six integer instructions raises reason 2 under another type; while the engine is busy
each waits. (R262, Table 13-2, Table 13-4) -/
def Obligations.VectorIntegers : Prop :=
  (∀ o : VWXY, integerTwo (.viadd o) o false (fun _ a b => a + b)
    ∧ integerTwo (.visub o) o false (fun w a b => a + (2 ^ w - b))
    ∧ integerTwo (.vimul o) o false (fun _ a b => a * b)
    ∧ integerTwo (.vand o) o true (fun _ a b => a &&& b)
    ∧ integerTwo (.vor o) o true (fun _ a b => a ||| b)
    ∧ integerTwo (.vxor o) o true (fun _ a b => a ^^^ b)
    ∧ integerTwo (.vshl o) o false (fun w a n => if w ≤ n then 0 else a * 2 ^ n)
    ∧ integerTwo (.vshr o) o false (fun w a n => if w ≤ n then 0 else a / 2 ^ n)
    ∧ integerTwo (.vsha o) o false (fun w a n => (signed w a / ((2 ^ (min n w) : Nat) : Int) % (2 ^ w : Nat)).toNat))
  ∧ (∀ (o : VWXY), ∀ i ∈ [Instr.viadd o, .visub o, .vimul o, .vshl o, .vshr o, .vsha o],
      traps i (useVWXY o) (fun s => s.core.vec.busy ≤ s.cur.clk ∧ vtInt (shapeOf s).t = false) (fun _ => mkTrap 0x0B 0x02 0))
  ∧ (∀ o : VWXY, ∀ i ∈ [Instr.viadd o, .visub o, .vimul o, .vand o, .vor o, .vxor o, .vshl o, .vshr o, .vsha o], stallsBusy i (useVWXY o))
  ∧ (∀ t : Nat, vtInt t = true ↔ t = 4 ∨ t = 5 ∨ t = 6 ∨ t = 8 ∨ t = 9 ∨ t = 10)

/-- VICMP and VCMP write less-than and equal to a mask pair, false for a NaN; VSEL chooses lanes by its mask; VMLOG applies its truth table to
two masks; VMPOP counts and VMFIRST finds the first selected one bit, all ones when there is none; VCVT rounds the value of each source
lane; VQUANT writes the image of 64 quantised rows of 128 values; while the engine is busy each waits. (R263, R264, R265, R266) -/
def Obligations.VectorComparesAndConversions : Prop :=
  (∀ o : VCmpOps,
    vectorDoes (.vicmp o) (useVCmpOps o) occupancy (fun h _ => vtInt h.t = true)
      (fun h s => putCompare o h (fun a b => decide (vtIntOf h.t a < vtIntOf h.t b)) (fun a b => a == b) s)
    ∧ vectorDoes (.vcmp o) (useVCmpOps o) occupancy (fun h _ => h.t ≤ 2)
      (fun h s => putCompare o h
        (fun a b => !(decodeFmt (vtFmt h.t) a).isNan && !(decodeFmt (vtFmt h.t) b).isNan && (decodeFmt (vtFmt h.t) a).lt (decodeFmt (vtFmt h.t) b))
        (fun a b => !(decodeFmt (vtFmt h.t) a).isNan && !(decodeFmt (vtFmt h.t) b).isNan && (decodeFmt (vtFmt h.t) a).same (decodeFmt (vtFmt h.t) b)) s))
  ∧ (∀ o : VWXY, vectorDoes (.vsel o) (useVWXY o) occupancy (fun _ _ => True) fun h s =>
      putLanes o.v h (2 ^ h.lanes - 1) (fun l => if (rdM s o.m).testBit l then laneOf (rdV s o.x) h.w l else laneOf (rdV s o.y) h.w l) 16 s)
  ∧ (∀ o : VMlogOps, vectorDoes (.vmlog o) (useVMlogOps o) occupancy (fun _ _ => True) fun h s =>
      wrM o.v (maskResult (rdM s o.v) h.lanes (rdM s o.m)
        fun l => ((rdS s o.b).toNat % 16).testBit ((if (rdM s o.x).testBit l then 2 else 0) + (if (rdM s o.v).testBit l then 1 else 0))) 16 s)
  ∧ (∀ o : VMdOps,
    vectorDoes (.vmpop o) (useVMdOps o) occupancy (fun _ _ => True)
      (fun h s => wrD o.d (BitVec.ofNat 64 ((Finset.range h.lanes).filter fun l => (rdM s o.m).testBit l = true ∧ (rdM s o.x).testBit l = true).card) 16 s)
    ∧ (∀ k : Nat, vectorDoes (.vmfirst o) (useVMdOps o) occupancy
      (fun h s => k < h.lanes ∧ (rdM s o.m).testBit k = true ∧ (rdM s o.x).testBit k = true
        ∧ ∀ l < k, (rdM s o.m).testBit l = false ∨ (rdM s o.x).testBit l = false)
      (fun _ s => wrD o.d (BitVec.ofNat 64 k) 16 s))
    ∧ vectorDoes (.vmfirst o) (useVMdOps o) occupancy
      (fun h s => ∀ l < h.lanes, (rdM s o.m).testBit l = false ∨ (rdM s o.x).testBit l = false)
      (fun _ s => wrD o.d (BitVec.allOnes 64) 16 s))
  ∧ (∀ o : VWXB, vectorDoes (.vcvt o) (useVWXB o) occupancy (fun _ s => vcvtOk (rdS s o.b) = true) fun h s =>
      putRounded o.v h (rdM s o.m) (fun l => vtRound h.t
        (if (rdS s o.b).getLsbD 10 then BitVec.ofNat 2 ((rdS s o.b).toNat / 256) else s.cur.ncs.rm) ((rdS s o.b).toNat / 16 % 4)
        (vtValue ((rdS s o.b).toNat % 16) (laneOf (rdV s o.x) (vtWidth ((rdS s o.b).toNat % 16)) l))) 16 s)
  ∧ (∀ o : VCmpOps, ∀ i ∈ [Instr.vicmp o, .vcmp o], stallsBusy i (useVCmpOps o))
  ∧ (∀ o : VWXY, stallsBusy (.vsel o) (useVWXY o))
  ∧ (∀ o : VMlogOps, stallsBusy (.vmlog o) (useVMlogOps o))
  ∧ (∀ o : VMdOps, ∀ i ∈ [Instr.vmpop o, .vmfirst o], stallsBusy i (useVMdOps o))
  ∧ (∀ o : VWXB, stallsBusy (.vcvt o) (useVWXB o))
  ∧ (∀ o : VQuantOps, stallsBusy (.vquant o) (useVQuantOps o))
  ∧ (∀ (o : VQuantOps) (s : State), issues (.vquant o) (useVQuantOps o) s →
      let u := startIssue s
      u.core.vec.busy ≤ u.cur.clk → (shapeOf s).rows = 64 → (shapeOf s).cols = 64 → (shapeOf s).t ≤ 1 →
      ∃ (rows : List QuantRow) (f : FlagSet), rows.length = 64
        ∧ (∀ r : Nat, (h : r < rows.length) → rows[r] = quantRow ((List.range 128).map fun c =>
            vtValue (shapeOf s).t (if c < 64 then laneOf (rdV u o.x) (shapeOf s).w (64 * r + c) else laneOf (rdV u o.y) (shapeOf s).w (64 * r + (c - 64)))))
        ∧ exec (.vquant o) s = .next (completed (useVQuantOps o) (occupied 8 u (landFlags f 48 (wrV o.v (quantImage rows) 48 u)))))

/-- VSHAPE sets the shape and refuses a bad word with reason 1; VLD, VST, VLDM and VSTM that pass their checks read or write the lanes, cells or
masks of their access, and a failing check is taken at issue; VGAT and VSCT read or write one element for each selected lane at the address
of its index; a raw VLD gives each lane its bytes and a raw VST stores each selected lane in ascending order; a bad gather word raises
reason 3 of VGAT and VSCT, and an image with a tag that does not fit raises reason 7 of VST; while the engine is busy each waits. (R253,
R254, R255, R256, R258, R271) -/
def Obligations.VectorMemory : Prop :=
  (∀ o : VShapeOps,
    performs (.vshape o) (useVShapeOps o) (fun s => shapeWordOk (rdS s o.a) = true)
      (fun s => s.setVec { s.core.vec with shape :=
        { type := BitVec.ofNat 4 ((rdS s o.a).toNat / 2 ^ 24), rowsM1 := BitVec.ofNat 6 ((rdS s o.a).toNat / 2 ^ 16), colsM1 := BitVec.ofNat 12 (rdS s o.a).toNat } })
    ∧ traps (.vshape o) (useVShapeOps o) (fun s => shapeWordOk (rdS s o.a) = false) (fun _ => mkTrap 0x0B 0x01 0))
  ∧ (∀ o : VWA,
    vectorDoesFor (.vld o) (useVWA o) (fun h s => accessCycles (rdS s o.a) h) (fun h s => accessTrap (rdS s o.a) h false o.m s = none)
      (fun h s => loadLanes o.v (rdS s o.a) h (rdM s o.m) s)
    ∧ ∀ r, traps (.vld o) (useVWA o) (fun s => s.core.vec.busy ≤ s.cur.clk ∧ accessTrap (rdS s o.a) (shapeOf s) false o.m s = some r) (fun _ => r))
  ∧ (∀ o : VSA, vectorDoesFor (.vst o) (useVSA o) (fun h s => accessCycles (rdS s o.a) h)
      (fun h s => accessTrap (rdS s o.a) h true o.m s = none ∧ awMode (rdS s o.a) ≠ 3)
      (fun h s => storeLanes (rdV s o.x) (rdS s o.a) h (rdM s o.m) s))
  ∧ (∀ o : VSA, vectorDoesFor (.vst o) (useVSA o) (fun h s => accessCycles (rdS s o.a) h)
      (fun h s => accessTrap (rdS s o.a) h true o.m s = none ∧ awMode (rdS s o.a) = 3
        ∧ ∀ j < imageCells (awFmt (rdS s o.a)), imageTagOk (awFmt (rdS s o.a)) (imageCells (awFmt (rdS s o.a))) j
            (fld (rdV s o.x) (512 * imageCells (awFmt (rdS s o.a)) + 16 * j) 16) = true)
      (fun h s => storeLanes (rdV s o.x) (rdS s o.a) h (rdM s o.m) s)
    ∧ (∀ r, traps (.vst o) (useVSA o) (fun s => s.core.vec.busy ≤ s.cur.clk ∧ accessTrap (rdS s o.a) (shapeOf s) true o.m s = some r) (fun _ => r))
    ∧ traps (.vst o) (useVSA o)
        (fun s => s.core.vec.busy ≤ s.cur.clk ∧ accessTrap (rdS s o.a) (shapeOf s) true o.m s = none ∧ awMode (rdS s o.a) = 3
          ∧ ∃ j < imageCells (awFmt (rdS s o.a)), imageTagOk (awFmt (rdS s o.a)) (imageCells (awFmt (rdS s o.a))) j
              (fld (rdV s o.x) (512 * imageCells (awFmt (rdS s o.a)) + 16 * j) 16) = false) (fun _ => mkTrap 0x0B 0x07 0))
  ∧ (∀ o : VMA, vectorDoes (.vldm o) (useVMA o) occupancy
      (fun _ s => maskAccessTrap (rdS s o.a).toNat s = none ∧ ∀ j < 8, cellTrap s.core (fun _ => true) ((rdS s o.a).toNat + 64 * j) = none)
      (fun _ s => wrM o.v (spadNum (s.viewed 0) (rdS s o.a).toNat 512) 24 (sawScratch 0 (rdS s o.a).toNat 512 s))
    ∧ ∀ r, traps (.vldm o) (useVMA o) (fun s => s.core.vec.busy ≤ s.cur.clk ∧ maskAccessTrap (rdS s o.a).toNat s = some r) (fun _ => r))
  ∧ (∀ o : VAM, vectorDoes (.vstm o) (useVAM o) occupancy (fun _ s => maskAccessTrap (rdS s o.a).toNat s = none)
      (fun _ s => storeKeep 0 (rdS s o.a).toNat (bytesOfNum 512 (rdM s o.b)) s)
    ∧ ∀ r, traps (.vstm o) (useVAM o) (fun s => s.core.vec.busy ≤ s.cur.clk ∧ maskAccessTrap (rdS s o.a).toNat s = some r) (fun _ => r))
  ∧ (∀ o : VGatOps, vectorDoesFor (.vgat o) (useVGatOps o) (fun h s => gatherCycles h (rdM s o.m))
      (fun h s => gatherWordOk (rdS s o.a) = true ∧ ∀ l < h.lanes, (rdM s o.m).testBit l = true →
        gatherTrap s (rdS s o.a) (rdV s o.x) (h.w / 8) l = none ∧ cellTrap s.core (fun _ => true) (gatherAddr (rdS s o.a) (rdV s o.x) l) = none)
      (fun h s => putLanes o.v h (rdM s o.m) (fun l => spadNum (s.viewed 0) (gatherAddr (rdS s o.a) (rdV s o.x) l) (h.w / 8)) 4160
        (sawEach 0 (h.w / 8) (((List.range h.lanes).filter fun l => (rdM s o.m).testBit l).map fun l => gatherAddr (rdS s o.a) (rdV s o.x) l) s))
    ∧ traps (.vgat o) (useVGatOps o) (fun s => s.core.vec.busy ≤ s.cur.clk ∧ gatherWordOk (rdS s o.a) = false) (fun _ => mkTrap 0x0B 0x03 0))
  ∧ (∀ o : VSctOps, vectorDoesFor (.vsct o) (useVSctOps o) (fun h s => gatherCycles h (rdM s o.m))
      (fun h s => gatherWordOk (rdS s o.a) = true ∧ ∀ l < h.lanes, (rdM s o.m).testBit l = true →
        gatherTrap s (rdS s o.a) (rdV s o.x) (h.w / 8) l = none)
      (fun h s => ((List.range h.lanes).filter fun l => (rdM s o.m).testBit l).foldl
        (fun t l => storeBytes 0 (gatherAddr (rdS s o.a) (rdV s o.x) l) (bytesOfNum (h.w / 8) (laneOf (rdV s o.v) h.w l)) t) s)
    ∧ traps (.vsct o) (useVSctOps o) (fun s => s.core.vec.busy ≤ s.cur.clk ∧ gatherWordOk (rdS s o.a) = false) (fun _ => mkTrap 0x0B 0x03 0))
  ∧ (∀ o : VWA, stallsBusy (.vld o) (useVWA o))
  ∧ (∀ o : VSA, stallsBusy (.vst o) (useVSA o))
  ∧ (∀ o : VMA, stallsBusy (.vldm o) (useVMA o))
  ∧ (∀ o : VAM, stallsBusy (.vstm o) (useVAM o))
  ∧ (∀ o : VGatOps, stallsBusy (.vgat o) (useVGatOps o))
  ∧ (∀ o : VSctOps, stallsBusy (.vsct o) (useVSctOps o))
  ∧ (∀ (d : VDst) (a : Word) (h : Shape) (m : Nat) (s : State), awMode a = 0 →
      (∀ l < h.lanes, m.testBit l = true → cellTrap s.core (fun _ => true) (awAddr a + l / h.cols * awStride a h + l % h.cols * (h.w / 8)) = none) →
      loadLanes d a h m s = putLanes d h m (fun l => spadNum (s.viewed 0) (awAddr a + l / h.cols * awStride a h + l % h.cols * (h.w / 8)) (h.w / 8)) 24
        (sawEach 0 (h.w / 8) (((List.range h.lanes).filter fun l => m.testBit l).map
          fun l => awAddr a + l / h.cols * awStride a h + l % h.cols * (h.w / 8)) s))
  ∧ (∀ (x : Nat) (a : Word) (h : Shape) (m : Nat) (s : State), awMode a = 0 →
      storeLanes x a h m s = ((List.range h.lanes).filter fun l => m.testBit l).foldl
        (fun t l => storeBytes 0 (awAddr a + l / h.cols * awStride a h + l % h.cols * (h.w / 8)) (bytesOfNum (h.w / 8) (laneOf x h.w l)) t) s)

/-- VSPLAT, VIOTA, VMOVS, VTRN, VPERM and VORD write the lanes their rules give; VACCR reads and VACCW writes the visible accumulator bank;
VPART writes the lane lists by key; VHIST counts, in each bin, the selected lanes whose digit is the bin; while the engine is busy each
waits. (R259, R276, R277, R278, R279, R281) -/
def Obligations.VectorMoves : Prop :=
  (∀ o : VWA,
    vectorDoes (.vsplat o) (useVWA o) occupancy (fun _ _ => True) (fun h s => putLanes o.v h (rdM s o.m) (fun _ => (rdS s o.a).toNat % 2 ^ h.w) 24 s)
    ∧ vectorDoes (.vaccr o) (useVWA o) occupancy (fun h s => h.t = 0 ∧ bankWordOk (rdS s o.a) h = true)
      (fun h s => putRounded o.v h (rdM s o.m) (fun l => exact (sparseGet 0 (visBank s.core.mat) (bankLane (rdS s o.a) h l)).toNat) 24 s)
    ∧ vectorDoes (.vaccr o) (useVWA o) occupancy (fun h s => (h.t = 1 ∨ h.t = 2) ∧ bankWordOk (rdS s o.a) h = true)
      (fun h s => putRounded o.v h (rdM s o.m) (fun l => roundTo (vtFmt h.t) s.cur.ncs.rm
        (decodeFmt .fp32 (sparseGet 0 (visBank s.core.mat) (bankLane (rdS s o.a) h l)).toNat)) 24 s))
  ∧ (∀ o : VSA, vectorDoes (.vaccw o) (useVSA o) occupancy (fun h s => h.t ≤ 2 ∧ bankWordOk (rdS s o.a) h = true)
      (fun h s => s.setCore { s.core with mat := setVis s.core.mat (((List.range h.lanes).filter fun l => (rdM s o.m).testBit l).foldl
        (fun b l => sparsePut 0 b (bankLane (rdS s o.a) h l) (BitVec.ofNat 32 (roundTo .fp32 0 (decodeFmt (vtFmt h.t) (laneOf (rdV s o.x) h.w l))).code))
        (visBank s.core.mat)) }))
  ∧ (∀ o : VWA, ∀ i ∈ [Instr.vsplat o, .vaccr o], stallsBusy i (useVWA o))
  ∧ (∀ o : VSA, stallsBusy (.vaccw o) (useVSA o))
  ∧ (∀ o : VMovsOps, stallsBusy (.vmovs o) (useVMovsOps o))
  ∧ (∀ o : VIotaOps, stallsBusy (.viota o) (useVIotaOps o))
  ∧ (∀ o : VWX, ∀ i ∈ [Instr.vtrn o, .vpart o], stallsBusy i (useVWX o))
  ∧ (∀ o : VWXY, stallsBusy (.vperm o) (useVWXY o))
  ∧ (∀ o : VWXB, stallsBusy (.vord o) (useVWXB o))
  ∧ (∀ (o : VWXB) (s : State), issues (.vhist o) (useVhist s o) s → (startIssue s).cur.clk < (startIssue s).core.vec.busy → exec (.vhist o) s = .next s)
  ∧ (∀ o : VMovsOps, vectorDoes (.vmovs o) (useVMovsOps o) occupancy (fun _ _ => True) (fun h s =>
      wrD o.d (if (rdS s o.b).toNat < h.lanes then BitVec.ofNat 64 (laneOf (rdV s o.x) h.w (rdS s o.b).toNat) else 0) 24 s))
  ∧ (∀ o : VIotaOps,
    vectorDoes (.viota o) (useVIotaOps o) occupancy (fun h _ => h.t ≤ 2) (fun h s => putRounded o.v h (rdM s o.m)
      (fun l => vtRound h.t 0 0 (Num.ofInt ((rdS s o.a).toInt + (l : Int) * (rdS s o.b).toInt))) 24 s)
    ∧ vectorDoes (.viota o) (useVIotaOps o) occupancy (fun h _ => 2 < h.t ∧ vtByte h.t = false) (fun h s => putLanes o.v h (rdM s o.m)
      (fun l => (((rdS s o.a).toInt + (l : Int) * (rdS s o.b).toInt) % (2 ^ h.w : Nat)).toNat) 24 s))
  ∧ (∀ o : VWX,
    vectorDoes (.vtrn o) (useVWX o) occupancy (fun _ _ => True)
      (fun h s => putLanes o.v h (rdM s o.m) (fun l => laneOf (rdV s o.x) h.w (l % h.rows * h.cols + l / h.rows)) 24 s)
    ∧ vectorDoes (.vpart o) (useVWX o) (fun _ => 64) (fun _ _ => True)
      (fun h s => wrV o.v (partImage (((List.range h.lanes).filter fun l => (rdM s o.m).testBit l).map fun l => (l, laneOf (rdV s o.x) h.w l % 16))) 96 s))
  ∧ (∀ o : VWXY, vectorDoes (.vperm o) (useVWXY o) occupancy (fun _ _ => True)
      (fun h s => putLanes o.v h (rdM s o.m) (fun l => if laneOf (rdV s o.y) 16 l < h.lanes then laneOf (rdV s o.x) h.w (laneOf (rdV s o.y) 16 l) else 0) 24 s))
  ∧ (∀ o : VWXB,
    vectorDoes (.vord o) (useVWXB o) occupancy (fun h s => (h.t ≤ 2 ∨ vtByte h.t = true) ∧ (rdS s o.b).toNat < 2)
      (fun h s => putLanes o.v h (rdM s o.m) (fun l => orderCode (vtFmt h.t) ((rdS s o.b).getLsbD 0) (laneOf (rdV s o.x) h.w l)) 24 s)
    ∧ (∀ s, issues (.vhist o) (useVhist s o) s → (startIssue s).core.vec.busy ≤ (startIssue s).cur.clk → histOk (rdS (startIssue s) o.b) (shapeOf s).w = true →
        ∃ x : Nat, exec (.vhist o) s = .next (completed (useVhist s o) (occupied 64 (startIssue s) (wrV o.v x 96 (startIssue s))))
          ∧ ∀ i < 2 ^ ((rdS (startIssue s) o.b).toNat / 256 % 8 + 1),
              laneOf x 32 i = (laneOf (if (rdS (startIssue s) o.b).getLsbD 13 then rdOld (startIssue s) o.v else 0) 32 i
                + ((Finset.range (shapeOf s).lanes).filter fun l => (rdM (startIssue s) o.m).testBit l = true
                    ∧ histTakes (rdS (startIssue s) o.b) (laneOf (rdV (startIssue s) o.x) (shapeOf s).w l) = true
                    ∧ laneOf (rdV (startIssue s) o.x) (shapeOf s).w l / 2 ^ ((rdS (startIssue s) o.b).toNat % 64) % 2 ^ ((rdS (startIssue s) o.b).toNat / 256 % 8 + 1) = i).card) % 2 ^ 32))

/-- VRED and VREDC write in the lane that DPOS names the tree reduction of the selected lanes of each row or column, and in no other lane; VSCAN
writes in the selected lanes of each row the running combination; VOSM merges two rows of output, maximum and sum by R280; a bad control
word raises reason 0x0A, and a type that does not fit reason 2, of VRED, VREDC and VSCAN alike, VOSM of a type other than FP32 raises reason
2, and an empty reduction gives the identity; while the engine is busy each waits. (R273, R274, R275, R280) -/
def Obligations.VectorReductions : Prop :=
  (∀ (o : VWXB) (i : Instr) (byRow : Bool), (i = .vred o ∧ byRow = true) ∨ (i = .vredc o ∧ byRow = false) →
    ∀ s, issues i (useVWXB o) s →
    let u := startIssue s
    let h := shapeOf s
    let b := rdS u o.b
    u.core.vec.busy ≤ u.cur.clk → redTypeOk h.t b = true → redOk b false = true → redPos b < (if byRow then h.cols else h.rows) →
    ∃ (out : Nat → Nat) (mask : Nat) (f : FlagSet),
      exec i s = .next (completed (useVWXB o) (occupied (occupancy h) u (landFlags f 40 (putLanes o.v h mask out 40 u))))
      ∧ ∀ p < (if byRow then h.rows else h.cols),
          let dst := if byRow then p * h.cols + redPos b else redPos b * h.cols + p
          let lane (k : Nat) : Nat := if byRow then p * h.cols + k else k * h.cols + p
          mask.testBit dst = true ∧ out dst = (redResult h.t b u.cur.ncs.rm ((List.range (if byRow then h.cols else h.rows)).map fun k =>
            if (rdM u o.m).testBit (lane k) then some (redIn h.t b (laneOf (rdV u o.x) h.w (lane k))) else none)).code
      ∧ ∀ l, mask.testBit l = true → ∃ p < (if byRow then h.rows else h.cols), l = if byRow then p * h.cols + redPos b else redPos b * h.cols + p)
  ∧ (∀ (o : VWXB) (s : State), issues (.vscan o) (useVWXB o) s →
      let u := startIssue s
      u.core.vec.busy ≤ u.cur.clk → redTypeOk (shapeOf s).t (rdS u o.b) = true → redOk (rdS u o.b) true = true →
      ∃ (out : Nat → Nat) (f : FlagSet), exec (.vscan o) s = .next (completed (useVWXB o) (occupied (occupancy (shapeOf s)) u
        (landFlags f 40 (putLanes o.v (shapeOf s) (rdM u o.m) out 40 u))))
        ∧ ∀ r < (shapeOf s).rows, ∀ j l : Nat,
            let ls := ((List.range (shapeOf s).cols).map fun c => r * (shapeOf s).cols + c).filter fun l => (rdM u o.m).testBit l
            ls[j]? = some l →
            ((scanRow (redCombine (shapeOf s).t (rdS u o.b) u.cur.ncs.rm) (redExcl (rdS u o.b))
              (fun v => v.elim (exact (redIdentity (shapeOf s).t (rdS u o.b))) (redOut (shapeOf s).t (rdS u o.b) u.cur.ncs.rm)) none none 0
              (ls.map fun l => redIn (shapeOf s).t (rdS u o.b) (laneOf (rdV u o.x) (shapeOf s).w l)))[j]?).map (·.code) = some (out l))
  ∧ (∀ o : VWXB,
      traps (.vred o) (useVWXB o)
        (fun s => s.core.vec.busy ≤ s.cur.clk ∧ redTypeOk (shapeOf s).t (rdS s o.b) = true ∧ (redOk (rdS s o.b) false = false ∨ (shapeOf s).cols ≤ redPos (rdS s o.b)))
        (fun _ => mkTrap 0x0B 0x0A 0)
      ∧ traps (.vredc o) (useVWXB o)
        (fun s => s.core.vec.busy ≤ s.cur.clk ∧ redTypeOk (shapeOf s).t (rdS s o.b) = true ∧ (redOk (rdS s o.b) false = false ∨ (shapeOf s).rows ≤ redPos (rdS s o.b)))
        (fun _ => mkTrap 0x0B 0x0A 0)
      ∧ traps (.vscan o) (useVWXB o)
        (fun s => s.core.vec.busy ≤ s.cur.clk ∧ redTypeOk (shapeOf s).t (rdS s o.b) = true ∧ redOk (rdS s o.b) true = false)
        (fun _ => mkTrap 0x0B 0x0A 0)
      ∧ ∀ i ∈ [Instr.vred o, .vredc o, .vscan o],
        traps i (useVWXB o) (fun s => s.core.vec.busy ≤ s.cur.clk ∧ redTypeOk (shapeOf s).t (rdS s o.b) = false) (fun _ => mkTrap 0x0B 0x02 0))
  ∧ (∀ o : VOsmOps, traps (.vosm o) (useVOsmOps o) (fun s => s.core.vec.busy ≤ s.cur.clk ∧ (shapeOf s).t ≠ 0) (fun _ => mkTrap 0x0B 0x02 0))
  ∧ (∀ (o : VOsmOps) (s : State), issues (.vosm o) (useVOsmOps o) s →
      let u := startIssue s
      let h := shapeOf s
      u.core.vec.busy ≤ u.cur.clk → h.t = 0 → 2 ≤ h.cols →
      ∃ (col stat : Nat → Nat) (f : FlagSet),
        exec (.vosm o) s = .next (completed (useVOsmOps o) (occupied (occupancy h) u (landFlags f 40
          (putLanes (.v (oddReg o.v)) h (2 ^ h.lanes - 1) stat 40 (putLanes (.v (evenReg o.v)) h (2 ^ h.lanes - 1) col 40 u)))))
        ∧ ∀ l < h.lanes,
            let st := rdV u (.v (oddReg o.v))
            let stB := rdV u (.v (oddReg o.x))
            let r := l / h.cols * h.cols
            let row := osmRow u.cur.ncs.rm (laneOf st 32 r) (laneOf st 32 (r + 1)) (laneOf stB 32 r) (laneOf stB 32 (r + 1))
            col l = (row.o (laneOf (rdV u (.v (evenReg o.v))) 32 l) (laneOf (rdV u (.v (evenReg o.x))) 32 l)).code
            ∧ (l % h.cols = 0 → stat l = row.m) ∧ (l % h.cols = 1 → stat l = row.s.code) ∧ (2 ≤ l % h.cols → stat l = laneOf st 32 l))
  ∧ (∀ o : VWXB, ∀ i ∈ [Instr.vred o, .vredc o, .vscan o], stallsBusy i (useVWXB o))
  ∧ (∀ o : VOsmOps, stallsBusy (.vosm o) (useVOsmOps o))
  ∧ (∀ (t : Nat) (b : Word) (rm : BitVec 2), redResult t b rm [] = exact (redIdentity t b))
  ∧ (∀ (b : Word) (rm : BitVec 2) (x y : Nat), redCombine 8 b rm x y =
      exact (if redOp b = 0 then (x + y) % 2 ^ 32 else if redOp b = 2 then (if vtIntOf 8 y < vtIntOf 8 x then y else x) else (if vtIntOf 8 x < vtIntOf 8 y then y else x)))

/-- TTCLR invalidates one tree or all, TTNEW makes an empty one and gives FREE, TTADD appends an unaccepted node to a valid parent and gives its
number, or all ones when there is no room, TTLOAD and TTSTORE move a tree image, and TTSTAT gives the status word; a bad tree word raises
reason 1 of each of them, a tree that is not valid reason 2 of TTADD and TTSTORE, a bad parent reason 4, a BASE beyond its bound reason 6 of
TTNEW, a misaligned image the alignment trap of TTLOAD and TTSTORE, and an image or extent that a check refuses the trap of that check, with
an uncorrectable line reported; TTLOAD of a tree with no room gives all ones. TTMASK sets the bit of each node and key where the key is an
ancestor, TTPOS gives positions and TTDEPTH a field of each node with all ones beyond COUNT, TTPATH gives the path image and with MARK
accepts its nodes, and TTPRUNE leaves the settled path of an accepted node with BASE advanced; a bad tree word raises reason 1 and a tree
that is not valid reason 2 of each of the five, a node beyond COUNT reason 3 of TTPATH and TTPRUNE, a node that is not accepted, or is
settled, reason 5 and a BASE beyond its bound reason 6 of TTPRUNE, and a type that does not fit reason 8 of TTPOS and TTDEPTH; while the
unit is busy each token-tree instruction waits. (R286, R288, R289, R290, Table 15-3, Table 15-5, R291, R292, R293, R294, R295) -/
def Obligations.TokenTrees : Prop :=
  ((∀ o : TA,
    treeDoes (.ttclr o) (useTA o) 8 (fun s => twOk (rdS s o.a) false false false true = true ∧ twAll (rdS s o.a) = false) (fun s => setTree (twTree (rdS s o.a)) none s)
    ∧ treeDoes (.ttclr o) (useTA o) 8 (fun s => twOk (rdS s o.a) false false false true = true ∧ twAll (rdS s o.a) = true)
      (fun s => s.setCore { s.core with trees := Vector.replicate 64 none })
    ∧ treeTraps (.ttclr o) (useTA o) 0x01 (fun s => twOk (rdS s o.a) false false false true = false))
  ∧ (∀ o : TDAB,
    treeDoes (.ttnew o) (useTDAB o) 8
      (fun s => twOk (rdS s o.a) false false false false = true ∧ (rdS s o.b).toNat ≤ maxBase ∧ (rdS s o.b).toNat < 2 ^ 32)
      (fun s => wrD o.d (BitVec.ofNat 64 (treeFree (setTree (twTree (rdS s o.a)) (some { base := (rdS s o.b).setWidth 32, nodes := [] }) s))) 8
        (setTree (twTree (rdS s o.a)) (some { base := (rdS s o.b).setWidth 32, nodes := [] }) s))
    ∧ (∀ t : Tree, treeDoes (.ttadd o) (useTDAB o) 8
      (fun s => twOk (rdS s o.a) true false false false = true ∧ s.core.trees[twTree (rdS s o.a)] = some t
        ∧ (twNode (rdS s o.a) = 255 ∨ (twNode (rdS s o.a) < t.count ∧ t.isSet (twNode (rdS s o.a)) = false)) ∧ t.count ≠ 256 ∧ treeFree s ≠ 0)
      (fun s => wrD o.d (BitVec.ofNat 64 t.count) 8 (setTree (twTree (rdS s o.a)) (some { t with nodes := t.nodes ++
        [{ token := (rdS s o.b).setWidth 32, parent := BitVec.ofNat 8 (twNode (rdS s o.a)), acc := false, set := false }] }) s)))
    ∧ (∀ t : Tree, treeDoes (.ttadd o) (useTDAB o) 8
      (fun s => twOk (rdS s o.a) true false false false = true ∧ s.core.trees[twTree (rdS s o.a)] = some t
        ∧ (twNode (rdS s o.a) = 255 ∨ (twNode (rdS s o.a) < t.count ∧ t.isSet (twNode (rdS s o.a)) = false)) ∧ (t.count = 256 ∨ treeFree s = 0))
      (fun s => wrD o.d (BitVec.ofNat 64 (2 ^ 64 - 1)) 8 s))
    ∧ treeTraps (.ttnew o) (useTDAB o) 0x01 (fun s => twOk (rdS s o.a) false false false false = false ∨ 2 ^ 32 ≤ (rdS s o.b).toNat)
    ∧ treeTraps (.ttnew o) (useTDAB o) 0x06
        (fun s => twOk (rdS s o.a) false false false false = true ∧ (rdS s o.b).toNat < 2 ^ 32 ∧ maxBase < (rdS s o.b).toNat)
    ∧ treeChecked (.ttadd o) (useTDAB o) (fun s => rdS s o.a) (fun s => twOk (rdS s o.a) true false false false)
    ∧ (∀ t : Tree, treeTraps (.ttadd o) (useTDAB o) 0x04
        (fun s => twOk (rdS s o.a) true false false false = true ∧ s.core.trees[twTree (rdS s o.a)] = some t
          ∧ twNode (rdS s o.a) ≠ 255 ∧ (t.count ≤ twNode (rdS s o.a) ∨ t.isSet (twNode (rdS s o.a)) = true)))
    ∧ treeTraps (.ttload o) (useTDAB o) 0x01 (fun s => twOk (rdS s o.b) false false false false = false ∨ 2 ^ 22 ≤ (rdS s o.a).toNat)
    ∧ (∀ r : TrapRec, traps (.ttload o) (useTDAB o)
        (fun s => s.core.vec.treeBusy ≤ s.cur.clk ∧ twOk (rdS s o.b) false false false false = true ∧ (rdS s o.a).toNat < 2 ^ 22 ∧ (rdS s o.a).toNat % 16 = 0
          ∧ readTree s (rdS s o.a).toNat = .error r ∧ (r.cause ≠ 0x05 ∨ spadIsBad s.core r.addr.toNat = false)) (fun _ => r))
    ∧ (∀ r : TrapRec, trapsIn (.ttload o) (useTDAB o)
        (fun s => s.core.vec.treeBusy ≤ s.cur.clk ∧ twOk (rdS s o.b) false false false false = true ∧ (rdS s o.a).toNat < 2 ^ 22 ∧ (rdS s o.a).toNat % 16 = 0
          ∧ readTree s (rdS s o.a).toNat = .error r ∧ r.cause = 0x05 ∧ spadIsBad s.core r.addr.toNat = true) (fun _ => r)
        (fun s => reportLine r.addr.toNat s))
    ∧ (∀ t : Tree, treeDoes (.ttload o) (useTDAB o) 320
      (fun s => twOk (rdS s o.b) false false false false = true ∧ (rdS s o.a).toNat < 2 ^ 22 ∧ (rdS s o.a).toNat % 16 = 0
        ∧ readTree s (rdS s o.a).toNat = .ok t ∧ treeFree s + treeCount s (twTree (rdS s o.b)) < t.count)
      (fun s => holdFor 320 (wrD o.d (BitVec.allOnes 64) 320 (sawScratch 0 (rdS s o.a).toNat (16 + 16 * t.count) s))))
    ∧ (∀ t : Tree, treeDoes (.ttload o) (useTDAB o) 320
      (fun s => twOk (rdS s o.b) false false false false = true ∧ (rdS s o.a).toNat < 2 ^ 22 ∧ (rdS s o.a).toNat % 16 = 0
        ∧ readTree s (rdS s o.a).toNat = .ok t ∧ t.count ≤ treeFree s + treeCount s (twTree (rdS s o.b)))
      (fun s => holdFor 320 (wrD o.d (BitVec.ofNat 64 t.count) 320
        (setTree (twTree (rdS s o.b)) (some t) (sawScratch 0 (rdS s o.a).toNat (16 + 16 * t.count) s)))))
    ∧ traps (.ttload o) (useTDAB o)
      (fun s => s.core.vec.treeBusy ≤ s.cur.clk ∧ twOk (rdS s o.b) false false false false = true ∧ (rdS s o.a).toNat < 2 ^ 22 ∧ (rdS s o.a).toNat % 16 ≠ 0)
      (fun s => mkTrap 0x03 0 (rdS s o.a).toNat))
  ∧ (∀ (o : TAB) (t : Tree), treeDoes (.ttstore o) (useTAB o) 320
      (fun s => twOk (rdS s o.b) false false false false = true ∧ (rdS s o.a).toNat < 2 ^ 22 ∧ (rdS s o.a).toNat % 16 = 0
        ∧ s.core.trees[twTree (rdS s o.b)] = some t ∧ treeExtent s (rdS s o.a).toNat (16 + 16 * t.count) = none)
      (fun s => holdFor 320 (storeBytes 0 (rdS s o.a).toNat (treeImage t) s))
    ∧ treeTraps (.ttstore o) (useTAB o) 0x01 (fun s => twOk (rdS s o.b) false false false false = false ∨ 2 ^ 22 ≤ (rdS s o.a).toNat)
    ∧ traps (.ttstore o) (useTAB o)
      (fun s => s.core.vec.treeBusy ≤ s.cur.clk ∧ twOk (rdS s o.b) false false false false = true ∧ (rdS s o.a).toNat < 2 ^ 22 ∧ (rdS s o.a).toNat % 16 ≠ 0)
      (fun s => mkTrap 0x03 0 (rdS s o.a).toNat)
    ∧ treeTraps (.ttstore o) (useTAB o) 0x02
      (fun s => twOk (rdS s o.b) false false false false = true ∧ (rdS s o.a).toNat < 2 ^ 22 ∧ (rdS s o.a).toNat % 16 = 0 ∧ s.core.trees[twTree (rdS s o.b)] = none)
    ∧ ∀ r : TrapRec, traps (.ttstore o) (useTAB o)
      (fun s => s.core.vec.treeBusy ≤ s.cur.clk ∧ twOk (rdS s o.b) false false false false = true ∧ (rdS s o.a).toNat < 2 ^ 22 ∧ (rdS s o.a).toNat % 16 = 0
        ∧ s.core.trees[twTree (rdS s o.b)] = some t ∧ treeExtent s (rdS s o.a).toNat (16 + 16 * t.count) = some r) (fun _ => r))
  ∧ ∀ (o : TDA), treeDoes (.ttstat o) (useTDA o) 24 (fun s => twOk (rdS s o.a) false false false false = true)
      (fun s => wrD o.d (match s.core.trees[twTree (rdS s o.a)] with
        | none => BitVec.ofNat 64 (treeFree s * 2 ^ 50)
        | some t => BitVec.ofNat 64 (2 ^ 63 + treeFree s * 2 ^ 50 + t.settled * 2 ^ 41 + t.count * 2 ^ 32 + t.base.toNat)) 24 s)
    ∧ treeTraps (.ttstat o) (useTDA o) 0x01 (fun s => twOk (rdS s o.a) false false false false = false))
  ∧ ((∀ (o : TMA) (t : Tree), treeDoes (.ttmask o) (useTMA o) 24
      (fun s => twOk (rdS s o.a) true true false false = true ∧ s.core.trees[twTree (rdS s o.a)] = some t)
      (fun s => wrM o.v (packLanes 1 (fun l => if t.anc (twNode (rdS s o.a) + l / 64) (twKey (rdS s o.a) + l % 64) then 1 else 0) 4096 0) 24 s))
  ∧ (∀ (o : TWA) (t : Tree),
    treeDoes (.ttpos o) (useTWA o) 24
      (fun s => twOk (rdS s o.a) true false false false = true ∧ s.core.trees[twTree (rdS s o.a)] = some t ∧ ((shapeOf s).t = 4 ∨ (shapeOf s).t = 8))
      (fun s => putLanes o.v (shapeOf s) (2 ^ (shapeOf s).lanes - 1)
        (fun l => if twNode (rdS s o.a) + l < t.nodes.length then t.pos (twNode (rdS s o.a) + l) else 2 ^ 32 - 1) 24 s)
    ∧ (∀ s, issues (.ttpos o) (useTWA o) s → s.core.vec.treeBusy ≤ (startIssue s).cur.clk → twOk (rdS (startIssue s) o.a) true false false false = true →
        s.core.trees[twTree (rdS (startIssue s) o.a)] = some t → (shapeOf s).t = 0 → ∃ u, exec (.ttpos o) s = .next (completed (useTWA o) u) ∧ u.core.trees = s.core.trees)
    ∧ treeDoes (.ttpath o) (useTWA o) 24
      (fun s => twOk (rdS s o.a) true false true false = true ∧ s.core.trees[twTree (rdS s o.a)] = some t ∧ twNode (rdS s o.a) < t.count ∧ twMark (rdS s o.a) = false)
      (fun s => wrV o.v (pathImage t (twNode (rdS s o.a))) 24 (setTree (twTree (rdS s o.a)) (some t) s))
    ∧ (∀ s, issues (.ttpath o) (useTWA o) s → s.core.vec.treeBusy ≤ (startIssue s).cur.clk → twOk (rdS (startIssue s) o.a) true false true false = true →
        s.core.trees[twTree (rdS (startIssue s) o.a)] = some t → twNode (rdS (startIssue s) o.a) < t.count → twMark (rdS (startIssue s) o.a) = true →
        ∃ t1 : Tree, exec (.ttpath o) s = .next (completed (useTWA o) (treeTaken 24 (startIssue s)
            (wrV o.v (pathImage t (twNode (rdS (startIssue s) o.a))) 24 (setTree (twTree (rdS (startIssue s) o.a)) (some t1) (startIssue s)))))
          ∧ t1.base = t.base ∧ t1.nodes.length = t.nodes.length
          ∧ ∀ k : Nat, t1.nodes[k]? = (t.nodes[k]?).map fun x => if k ∈ t.path (twNode (rdS (startIssue s) o.a)) then { x with acc := true } else x)
    ∧ treeDoes (.ttprune o) (useTWA o) 600
      (fun s => twOk (rdS s o.a) true false false false = true ∧ s.core.trees[twTree (rdS s o.a)] = some t ∧ twNode (rdS s o.a) < t.count
        ∧ t.isAcc (twNode (rdS s o.a)) = true ∧ t.isSet (twNode (rdS s o.a)) = false
        ∧ t.base.toNat + (t.path (twNode (rdS s o.a))).length ≤ maxBase)
      (fun s => wrV o.v (pathImage t (twNode (rdS s o.a))) 600 (setTree (twTree (rdS s o.a)) (some (prunedTree t (twNode (rdS s o.a)))) s))
    ∧ treeChecked (.ttpos o) (useTWA o) (fun s => rdS s o.a) (fun s => twOk (rdS s o.a) true false false false)
    ∧ treeTraps (.ttpos o) (useTWA o) 0x08
      (fun s => twOk (rdS s o.a) true false false false = true ∧ s.core.trees[twTree (rdS s o.a)] = some t
        ∧ (shapeOf s).t ≠ 0 ∧ (shapeOf s).t ≠ 4 ∧ (shapeOf s).t ≠ 8)
    ∧ treeChecked (.ttpath o) (useTWA o) (fun s => rdS s o.a) (fun s => twOk (rdS s o.a) true false true false)
    ∧ treeTraps (.ttpath o) (useTWA o) 0x03
      (fun s => twOk (rdS s o.a) true false true false = true ∧ s.core.trees[twTree (rdS s o.a)] = some t ∧ t.count ≤ twNode (rdS s o.a))
    ∧ treeChecked (.ttprune o) (useTWA o) (fun s => rdS s o.a) (fun s => twOk (rdS s o.a) true false false false)
    ∧ treeTraps (.ttprune o) (useTWA o) 0x03
      (fun s => twOk (rdS s o.a) true false false false = true ∧ s.core.trees[twTree (rdS s o.a)] = some t ∧ t.count ≤ twNode (rdS s o.a))
    ∧ treeTraps (.ttprune o) (useTWA o) 0x05
      (fun s => twOk (rdS s o.a) true false false false = true ∧ s.core.trees[twTree (rdS s o.a)] = some t
        ∧ twNode (rdS s o.a) < t.count ∧ (t.isAcc (twNode (rdS s o.a)) = false ∨ t.isSet (twNode (rdS s o.a)) = true))
    ∧ treeTraps (.ttprune o) (useTWA o) 0x06
      (fun s => twOk (rdS s o.a) true false false false = true ∧ s.core.trees[twTree (rdS s o.a)] = some t ∧ twNode (rdS s o.a) < t.count
        ∧ t.isAcc (twNode (rdS s o.a)) = true ∧ t.isSet (twNode (rdS s o.a)) = false
        ∧ maxBase < t.base.toNat + (t.path (twNode (rdS s o.a))).length))
  ∧ (∀ o : TMA, treeChecked (.ttmask o) (useTMA o) (fun s => rdS s o.a) (fun s => twOk (rdS s o.a) true true false false))
  ∧ (∀ o : TWAB,
    treeChecked (.ttdepth o) (useTWAB o) (fun s => rdS s o.a) (fun s => twOk (rdS s o.a) true false false false && decide ((rdS s o.b).toNat < 4))
    ∧ ∀ t : Tree, treeTraps (.ttdepth o) (useTWAB o) 0x08
      (fun s => twOk (rdS s o.a) true false false false = true ∧ s.core.trees[twTree (rdS s o.a)] = some t ∧ (rdS s o.b).toNat < 4 ∧ vtInt (shapeOf s).t = false))
  ∧ (∀ (o : TWAB) (t : Tree), treeDoes (.ttdepth o) (useTWAB o) 24
      (fun s => twOk (rdS s o.a) true false false false = true ∧ s.core.trees[twTree (rdS s o.a)] = some t ∧ (rdS s o.b).toNat < 4 ∧ vtInt (shapeOf s).t = true)
      (fun s => putLanes o.v (shapeOf s) (2 ^ (shapeOf s).lanes - 1) (fun l => match t.nodes[twNode (rdS s o.a) + l]? with
        | none => 2 ^ 32 - 1
        | some x =>
          if (rdS s o.b).toNat = 0 then t.depth (twNode (rdS s o.a) + l) else if (rdS s o.b).toNat = 1 then x.parent.toNat
          else if (rdS s o.b).toNat = 2 then x.token.toNat else nodeFlags x) 24 s))
  ∧ (∀ o : TA, stallsTree (.ttclr o) (useTA o))
  ∧ (∀ o : TDAB, ∀ i ∈ [Instr.ttnew o, .ttadd o, .ttload o], stallsTree i (useTDAB o))
  ∧ (∀ o : TAB, stallsTree (.ttstore o) (useTAB o))
  ∧ (∀ o : TDA, stallsTree (.ttstat o) (useTDA o))
  ∧ (∀ o : TMA, stallsTree (.ttmask o) (useTMA o))
  ∧ (∀ o : TWA, ∀ i ∈ [Instr.ttpos o, .ttpath o, .ttprune o], stallsTree i (useTWA o))
  ∧ (∀ o : TWAB, stallsTree (.ttdepth o) (useTWAB o))
  ∧ ∀ (t : Tree) (i : Nat), (prunedTree t i).nodes.length = (t.path i).length ∧ (prunedTree t i).base = t.base + BitVec.ofNat 32 (t.path i).length
      ∧ ∀ x ∈ (prunedTree t i).nodes, x.acc = true ∧ x.set = true)

/-- ASAMP sets the rate, the seed and the filter, ATHR the thresholds and enables of one slot or all, AMODE the mode and frame and discards the
sample, AOWN the owner, which only supervisor code may move away from the job, AFORCE arms a forced sample, ACLR drops records and
histograms, AHIST and ASTAT read, and AREL discards the sample; under the lock job mode raises the privilege trap, and a bad word its
reason. (R297, R299, R312, R313, R314, R315, R316) -/
def Obligations.AuditWords : Prop :=
  (∀ o : ABP,
    performs (.asamp o) (useABP o)
      (fun s => auditOpen s ∧ (rdS s o.a).toNat / 2 ^ 37 % 2 ^ 26 = 0 ∧ (rdS s o.a).toNat / 2 ^ 32 % 32 ≤ 24)
      (fun s => s.setAudit { s.core.audit with
        s := (rdS s o.a).toNat / 2 ^ 32 % 32
        lfsr := if (rdS s o.a).getLsbD 63 then s.core.audit.lfsr else if (rdS s o.a).toNat % 2 ^ 32 = 0 then 1 else (rdS s o.a).setWidth 32
        filter := rdS s o.b })
    ∧ traps (.asamp o) (useABP o) (fun s => auditOpen s ∧ (rdS s o.a).toNat / 2 ^ 37 % 2 ^ 26 ≠ 0) (fun _ => mkTrap 0x0D 0x01 0)
    ∧ traps (.asamp o) (useABP o)
      (fun s => auditOpen s ∧ (rdS s o.a).toNat / 2 ^ 37 % 2 ^ 26 = 0 ∧ 24 < (rdS s o.a).toNat / 2 ^ 32 % 32) (fun _ => mkTrap 0x0D 0x02 0)
    ∧ traps (.asamp o) (useABP o) (fun s => s.core.audit.lock = true ∧ s.cur.priv = false) (fun _ => mkTrap 0x02 0 0)
    ∧ (∀ s, issues (.athr o) (useABP o) s → auditOpen (startIssue s) →
        let a := rdS (startIssue s) o.a
        let b := rdS (startIssue s) o.b
        a.toNat / 2 ^ 6 % 2 ^ 57 = 0 → b.toNat < 32 →
        ∃ t, exec (.athr o) s = .next (completed (useABP o) t) ∧ sameScratch t.core s.core
          ∧ ∀ k : Fin 64,
              (a.getLsbD 63 = true ∨ k.val = a.toNat % 64 → t.core.audit.thresholds[k] = b.setWidth 4 ∧ t.core.audit.en.getLsbD k.val = b.getLsbD 4)
              ∧ (a.getLsbD 63 = false → k.val ≠ a.toNat % 64 →
                  t.core.audit.thresholds[k] = s.core.audit.thresholds[k] ∧ t.core.audit.en.getLsbD k.val = s.core.audit.en.getLsbD k.val)))
  ∧ (∀ o : AP,
    (∀ s, issues (.amode o) (useAP o) s → auditOpen (startIssue s) → (rdS (startIssue s) o.a).toNat < 256 → (rdS (startIssue s) o.a).toNat / 4 % 4 = 0 →
      ∃ t, exec (.amode o) s = .next (completed (useAP o) t) ∧ t.core.audit.mode = (rdS (startIssue s) o.a).setWidth 2
        ∧ t.core.audit.frame = BitVec.ofNat 4 ((rdS (startIssue s) o.a).toNat / 16) ∧ t.core.audit.sample = none)
    ∧ performs (.aown o) (useAP o)
      (fun s => auditOpen s ∧ (rdS s o.a).toNat < 3 ∧ ((rdS s o.a).toNat = 0 ∨ s.cur.priv = true))
      (fun s => s.setAudit { s.core.audit with owner := (rdS s o.a).setWidth 2 })
    ∧ traps (.aown o) (useAP o) (fun s => auditOpen s ∧ (rdS s o.a).toNat = 3) (fun _ => mkTrap 0x0D 0x03 0)
    ∧ traps (.aown o) (useAP o) (fun s => auditOpen s ∧ ((rdS s o.a).toNat = 1 ∨ (rdS s o.a).toNat = 2) ∧ s.cur.priv = false) (fun _ => mkTrap 0x02 0 0)
    ∧ performs (.aforce o) (useAP o) (fun s => auditOpen s ∧ (rdS s o.a).toNat / 2 ^ 6 % 2 ^ 57 = 0)
      (fun s => s.setAudit { s.core.audit with farm := true, fany := (rdS s o.a).getLsbD 63, fslot := (rdS s o.a).setWidth 6 })
    ∧ (∀ s, issues (.aclr o) (useAP o) s → auditOpen (startIssue s) → (rdS (startIssue s) o.a).toNat < 2 ^ 12 → (rdS (startIssue s) o.a).toNat / 64 % 4 = 0 →
      let a := rdS (startIssue s) o.a
      ∃ t, exec (.aclr o) s = .next (completed (useAP o) t)
        ∧ t.core.audit.records = (if a.getLsbD 11 then [] else if a.getLsbD 10 then s.core.audit.records.drop 1 else s.core.audit.records)
        ∧ t.core.audit.histograms = (if a.getLsbD 9 then [] else if a.getLsbD 8 then s.core.audit.histograms.filter (fun p => !(p.1 / 16 == a.toNat % 64))
            else s.core.audit.histograms)))
  ∧ (∀ o : DABP, scalarDoes (.ahist o) (useDABP o) o.d
      (fun s => (sparseGet 0 s.core.audit.histograms (16 * ((rdS s o.a).toNat % 64) + (rdS s o.b).toNat % 16)).setWidth 64) 16)
  ∧ (∀ o : DAP, scalarDoes (.astat o) (useDAP o) o.d (fun s => BitVec.ofNat 64 (auditStatus s.core.audit ((rdS s o.a).toNat % 16))) 16)
  ∧ (∀ o : GP,
    performs (.arel o) (useGP o) (fun s => auditOpen s ∧ s.core.audit.sample = none) id
    ∧ performs (.arel o) (useGP o) (fun s => auditOpen s ∧ s.core.audit.sample ≠ none)
      (fun s => s.setCore (dropSample { s.core with audit := { s.core.audit with discard := min (s.core.audit.discard + 1) (2 ^ 32 - 1) } })))
  ∧ (∀ c : CoreState, (dropSample c).audit = { c.audit with sample := none }
      ∧ (dropSample c).mat.resident.record.samp = false ∧ (dropSample c).mat.filling.record.samp = false ∧ sameScratch (dropSample c) c)
  ∧ (∀ o : AP,
    (∀ i ∈ [Instr.amode o, .aown o, .aforce o, .aclr o], traps i (useAP o) (fun s => s.core.audit.lock = true ∧ s.cur.priv = false) (fun _ => mkTrap 0x02 0 0))
    ∧ traps (.amode o) (useAP o) (fun s => auditOpen s ∧ (256 ≤ (rdS s o.a).toNat ∨ (rdS s o.a).toNat / 4 % 4 ≠ 0)) (fun _ => mkTrap 0x0D 0x01 0)
    ∧ traps (.aown o) (useAP o) (fun s => auditOpen s ∧ 4 ≤ (rdS s o.a).toNat) (fun _ => mkTrap 0x0D 0x01 0)
    ∧ traps (.aforce o) (useAP o) (fun s => auditOpen s ∧ (rdS s o.a).toNat / 2 ^ 6 % 2 ^ 57 ≠ 0) (fun _ => mkTrap 0x0D 0x01 0)
    ∧ traps (.aclr o) (useAP o) (fun s => auditOpen s ∧ (2 ^ 12 ≤ (rdS s o.a).toNat ∨ (rdS s o.a).toNat / 64 % 4 ≠ 0)) (fun _ => mkTrap 0x0D 0x01 0))
  ∧ (∀ o : ABP, traps (.athr o) (useABP o) (fun s => s.core.audit.lock = true ∧ s.cur.priv = false) (fun _ => mkTrap 0x02 0 0)
    ∧ traps (.athr o) (useABP o) (fun s => auditOpen s ∧ ((rdS s o.a).toNat / 2 ^ 6 % 2 ^ 57 ≠ 0 ∨ 32 ≤ (rdS s o.b).toNat)) (fun _ => mkTrap 0x0D 0x01 0))
  ∧ (∀ o : GP, traps (.arel o) (useGP o) (fun s => s.core.audit.lock = true ∧ s.cur.priv = false) (fun _ => mkTrap 0x02 0 0))
  ∧ ∀ u : Audit, auditStatus u 1 = u.lfsr.toNat ∧ auditStatus u 2 = u.filter.toNat

/-- FGSTART starts an idle walk for its job once no far access of its stream is outstanding, FGSTOP stops one, FGWIN sets a hop window, FGPACE
subscribes the core or ends its subscription, FGMC leaves and joins a multicast group, FGMARK arms the mark, FGSTAT and FGLATE read the walk
and the lateness of a hop, FGSTAT of an idle walk giving the full word (the model's reading, log entry 29); a misaligned descriptor traps,
reserved bits raise reason 1 of FGSTART, FGSTOP, FGWIN, FGPACE, FGMC and FGMARK, a walk that is not idle reason 2 at FGSTART, one of another
job reason 3 at FGSTOP, one that does not run or is of another job reason 3 of FGWIN, FGPACE, FGMC and FGMARK, and a group that is unknown
or one too many reason 4 of FGMC. (R318, R333, R335, R336, R337, R338, R339) -/
def Obligations.ForagerWords : Prop :=
  (∀ o : ABP,
    performs (.fgstart o) (useABP o)
      (fun s => (rdS s o.a).toNat < 2 ^ 56 ∧ (rdS s o.b).toNat < 2 ^ 58 ∧ (rdS s o.a).toNat % 32 = 0
        ∧ (walkAt s (dieOf s.core.num * 4 + (rdS s o.b).toNat / 2 ^ 32 % 4)).state = .idle ∧ farOutstanding s (BitVec.allOnes 16) = false)
      (fun s => setWalk (dieOf s.core.num * 4 + (rdS s o.b).toNat / 2 ^ 32 % 4) { Walk.reset with
        state := .running, job := s.core.place.map (·.1), asid := s.core.asid, root := s.core.ptroot, priv := s.cur.priv, steer := s.core.num
        base := (rdS s o.a).toNat, origin := (walkAt s (dieOf s.core.num * 4 + (rdS s o.b).toNat / 2 ^ 32 % 4)).origin
        starting := some ((rdS s o.b).toNat % 2 ^ 32, s.now), readNext := (rdS s o.b).toNat / 2 ^ 34 % 2 ^ 24 } s)
    ∧ (∀ s, issues (.fgstart o) (useABP o) s → (rdS (startIssue s) o.a).toNat < 2 ^ 56 → (rdS (startIssue s) o.b).toNat < 2 ^ 58 →
        (rdS (startIssue s) o.a).toNat % 32 = 0 → (walkAt s (dieOf s.core.num * 4 + (rdS (startIssue s) o.b).toNat / 2 ^ 32 % 4)).state = .idle →
        farOutstanding (startIssue s) (BitVec.allOnes 16) = true → exec (.fgstart o) s = .next s)
    ∧ traps (.fgstart o) (useABP o) (fun s => (rdS s o.a).toNat < 2 ^ 56 ∧ (rdS s o.b).toNat < 2 ^ 58 ∧ (rdS s o.a).toNat % 32 ≠ 0)
      (fun s => mkTrap 0x03 0 (rdS s o.a).toNat)
    ∧ traps (.fgstart o) (useABP o)
      (fun s => (rdS s o.a).toNat < 2 ^ 56 ∧ (rdS s o.b).toNat < 2 ^ 58 ∧ (rdS s o.a).toNat % 32 = 0
        ∧ (walkAt s (dieOf s.core.num * 4 + (rdS s o.b).toNat / 2 ^ 32 % 4)).state ≠ .idle) (fun _ => mkTrap 0x0E 0x02 0)
    ∧ performs (.fgwin o) (useABP o)
      (fun s => (rdS s o.a).toNat < 12 ∧ (rdS s o.b).toNat / 2 ^ 24 % 256 = 0 ∧ walkUnusable s (walkAt s (walkOf s (rdS s o.a))) = false)
      (fun s => onWalk (walkOf s (rdS s o.a)) (fun x => x.setHop ((rdS s o.a).toNat / 4) { x.hop ((rdS s o.a).toNat / 4) with
        lead := BitVec.ofNat 32 ((rdS s o.b).toNat / 2 ^ 32), win := (rdS s o.b).toNat % 2 ^ 24 }) s)
    ∧ performs (.fgpace o) (useABP o) (fun s => (rdS s o.a).toNat / 128 % 2 = 0 ∧ (rdS s o.a).toNat / 4 % 32 = 0 ∧ (rdS s o.a).toNat < 2 ^ 11)
      (fun s => s.setCore { s.core with pace := none, mat := { s.core.mat with fgl := 0 } })
    ∧ performs (.fgpace o) (useABP o)
      (fun s => (rdS s o.a).toNat / 128 % 2 = 1 ∧ (rdS s o.a).toNat / 4 % 32 = 0 ∧ (rdS s o.a).toNat < 2 ^ 11 ∧ (rdS s o.a).toNat / 256 ≠ 0
        ∧ (rdS s o.b).toNat / 2 ^ 32 ≠ 0 ∧ walkUnusable s (walkAt s (walkOf s (rdS s o.a))) = false)
      (fun s => s.setCore { s.core with
        pace := some { walk := walkOf s (rdS s o.a), th := (rdS s o.b).setWidth 32, step := BitVec.ofNat 32 ((rdS s o.b).toNat / 2 ^ 32)
                       hops := BitVec.ofNat 3 ((rdS s o.a).toNat / 256) }
        mat := { s.core.mat with fgl := 0 } })
    ∧ performs (.fgmark o) (useABP o)
      (fun s => (rdS s o.a).toNat < 4 ∧ (rdS s o.b).toNat < 2 ^ 29 ∧ walkUnusable s (walkAt s (walkOf s (rdS s o.a))) = false)
      (fun s => setWalk (walkOf s (rdS s o.a)) ({ walkAt s (walkOf s (rdS s o.a)) with
        mark := some (s.core.num, (rdS s o.b).toNat / 2 ^ 24, (rdS s o.b).toNat % 2 ^ 24), markHit := none } : Walk).touchMark s)
    ∧ traps (.fgstart o) (useABP o) (fun s => 2 ^ 56 ≤ (rdS s o.a).toNat ∨ 2 ^ 58 ≤ (rdS s o.b).toNat) (fun _ => mkTrap 0x0E 0x01 0)
    ∧ traps (.fgwin o) (useABP o) (fun s => 12 ≤ (rdS s o.a).toNat ∨ (rdS s o.b).toNat / 2 ^ 24 % 256 ≠ 0) (fun _ => mkTrap 0x0E 0x01 0)
    ∧ traps (.fgpace o) (useABP o) (fun s => (rdS s o.a).toNat / 4 % 32 ≠ 0 ∨ 2 ^ 11 ≤ (rdS s o.a).toNat ∨ ((rdS s o.a).toNat / 128 % 2 = 1 ∧ ((rdS s o.a).toNat / 256 % 8 = 0 ∨ (rdS s o.b).toNat / 2 ^ 32 = 0))) (fun _ => mkTrap 0x0E 0x01 0)
    ∧ traps (.fgmark o) (useABP o) (fun s => 4 ≤ (rdS s o.a).toNat ∨ 2 ^ 29 ≤ (rdS s o.b).toNat) (fun _ => mkTrap 0x0E 0x01 0)
    ∧ traps (.fgwin o) (useABP o) (fun s => (rdS s o.a).toNat < 12 ∧ (rdS s o.b).toNat / 2 ^ 24 % 256 = 0 ∧ walkUnusable s (walkAt s (walkOf s (rdS s o.a))) = true) (fun _ => mkTrap 0x0E 0x03 0)
    ∧ traps (.fgpace o) (useABP o) (fun s => (rdS s o.a).toNat / 128 % 2 = 1 ∧ (rdS s o.a).toNat / 4 % 32 = 0 ∧ (rdS s o.a).toNat < 2 ^ 11 ∧ (rdS s o.a).toNat / 256 ≠ 0 ∧ (rdS s o.b).toNat / 2 ^ 32 ≠ 0 ∧ walkUnusable s (walkAt s (walkOf s (rdS s o.a))) = true) (fun _ => mkTrap 0x0E 0x03 0)
    ∧ traps (.fgmark o) (useABP o) (fun s => (rdS s o.a).toNat < 4 ∧ (rdS s o.b).toNat < 2 ^ 29 ∧ walkUnusable s (walkAt s (walkOf s (rdS s o.a))) = true) (fun _ => mkTrap 0x0E 0x03 0))
  ∧ (∀ o : AP,
    performs (.fgstop o) (useAP o) (fun s => (rdS s o.a).toNat < 4 ∧ foreign s (walkAt s (walkOf s (rdS s o.a))) = false)
      (fun s => stopWalk (walkOf s (rdS s o.a)) s)
    ∧ traps (.fgstop o) (useAP o) (fun s => (rdS s o.a).toNat < 4 ∧ foreign s (walkAt s (walkOf s (rdS s o.a))) = true) (fun _ => mkTrap 0x0E 0x03 0)
    ∧ performs (.fgmc o) (useAP o)
      (fun s => (rdS s o.a).toNat < 2 ^ 28 ∧ (rdS s o.a).toNat / 4 % 64 = 0 ∧ (rdS s o.a).toNat / 256 % 256 = 0
        ∧ walkUnusable s (walkAt s (walkOf s (rdS s o.a))) = false)
      (fun s => setWalk (walkOf s (rdS s o.a)) { walkAt s (walkOf s (rdS s o.a)) with
        members := (walkAt s (walkOf s (rdS s o.a))).members.filter (· != (rdS s o.a).toNat / 2 ^ 16) } s)
    ∧ performs (.fgmc o) (useAP o)
      (fun s => (rdS s o.a).toNat < 2 ^ 28 ∧ (rdS s o.a).toNat / 4 % 64 = 0 ∧ (rdS s o.a).toNat / 256 % 256 = 1 ∧ (s.members = [] ∨ groupKnown s ((rdS s o.a).toNat / 2 ^ 16) = true)
        ∧ walkUnusable s (walkAt s (walkOf s (rdS s o.a))) = false ∧ (rdS s o.a).toNat / 2 ^ 16 ∉ (walkAt s (walkOf s (rdS s o.a))).members
        ∧ forageMemberships s (dieOf s.core.num) < 16)
      (fun s => setWalk (walkOf s (rdS s o.a)) { walkAt s (walkOf s (rdS s o.a)) with
        members := (walkAt s (walkOf s (rdS s o.a))).members ++ [(rdS s o.a).toNat / 2 ^ 16] } s)
    ∧ performs (.fgmc o) (useAP o)
      (fun s => (rdS s o.a).toNat < 2 ^ 28 ∧ (rdS s o.a).toNat / 4 % 64 = 0 ∧ (rdS s o.a).toNat / 256 % 256 = 1
        ∧ (s.members = [] ∨ groupKnown s ((rdS s o.a).toNat / 2 ^ 16) = true)
        ∧ walkUnusable s (walkAt s (walkOf s (rdS s o.a))) = false ∧ (rdS s o.a).toNat / 2 ^ 16 ∈ (walkAt s (walkOf s (rdS s o.a))).members) id
    ∧ traps (.fgstop o) (useAP o) (fun s => 4 ≤ (rdS s o.a).toNat) (fun _ => mkTrap 0x0E 0x01 0)
    ∧ traps (.fgmc o) (useAP o) (fun s => 2 ^ 28 ≤ (rdS s o.a).toNat ∨ (rdS s o.a).toNat / 4 % 64 ≠ 0 ∨ (rdS s o.a).toNat / 512 % 128 ≠ 0) (fun _ => mkTrap 0x0E 0x01 0)
    ∧ traps (.fgmc o) (useAP o) (fun s => (rdS s o.a).toNat < 2 ^ 28 ∧ (rdS s o.a).toNat / 4 % 64 = 0 ∧ (rdS s o.a).toNat / 512 % 128 = 0 ∧ walkUnusable s (walkAt s (walkOf s (rdS s o.a))) = true) (fun _ => mkTrap 0x0E 0x03 0)
    ∧ traps (.fgmc o) (useAP o) (fun s => (rdS s o.a).toNat < 2 ^ 28 ∧ (rdS s o.a).toNat / 4 % 64 = 0 ∧ (rdS s o.a).toNat / 512 % 128 = 0 ∧ (rdS s o.a).toNat / 256 % 2 = 1 ∧ walkUnusable s (walkAt s (walkOf s (rdS s o.a))) = false ∧ (groupKnown s ((rdS s o.a).toNat / 2 ^ 16) = false ∨ ((rdS s o.a).toNat / 2 ^ 16 ∉ (walkAt s (walkOf s (rdS s o.a))).members ∧ 16 ≤ forageMemberships s (dieOf s.core.num)))) (fun _ => mkTrap 0x0E 0x04 0))
  ∧ (∀ o : DAP,
    scalarDoes (.fgstat o) (useDAP o) o.d (fun s => fgstatWord s (rdS s o.a)) 16
    ∧ performs (.fglate o) (useDAP o) (fun s => (rdS s o.a).toNat / 4 % 4 = 3 ∨ ownedHere s (walkAt s (walkOf s (rdS s o.a))) = false) (fun s => wrD o.d 0 16 s)
    ∧ performs (.fglate o) (useDAP o)
      (fun s => (rdS s o.a).toNat / 4 % 4 ≠ 3 ∧ ownedHere s (walkAt s (walkOf s (rdS s o.a))) = true ∧ (rdS s o.a).getLsbD 8 = false)
      (fun s =>
        let h := (walkAt s (walkOf s (rdS s o.a))).hop ((rdS s o.a).toNat / 4 % 4)
        wrD o.d (BitVec.ofNat 64 (h.lcnt.toNat * 2 ^ 32 + (BitVec.ofInt 32 h.late).toNat)) 16 s)
    ∧ performs (.fglate o) (useDAP o)
      (fun s => (rdS s o.a).toNat / 4 % 4 ≠ 3 ∧ ownedHere s (walkAt s (walkOf s (rdS s o.a))) = true ∧ (rdS s o.a).getLsbD 8 = true)
      (fun s =>
        let w := walkOf s (rdS s o.a)
        let h := (walkAt s w).hop ((rdS s o.a).toNat / 4 % 4)
        wrD o.d (BitVec.ofNat 64 (h.lcnt.toNat * 2 ^ 32 + (BitVec.ofInt 32 h.late).toNat)) 16
          (setWalk w ((walkAt s w).setHop ((rdS s o.a).toNat / 4 % 4) { h with lcnt := 0 }) s)))
  ∧ ∀ (s : State) (a : Word), (walkAt s (walkOf s a)).state = .idle ∨ (walkAt s (walkOf s a)).asid = s.core.asid →
      (a.toNat / 16 % 16 = 1 → fgstatWord s a = (walkAt s (walkOf s a)).origin)
      ∧ (a.toNat / 16 % 16 = 2 → fgstatWord s a = BitVec.ofNat 64 (walkAt s (walkOf s a)).base)
      ∧ (a.toNat / 16 % 16 = 5 → fgstatWord s a = BitVec.ofNat 64 s.now - (walkAt s (walkOf s a)).origin)

/-- LAUNCH queues the packet of a cell and answers the status, a queue that is not enabled answering 2 and a full one 1; POST appends a record
to its stage queue with the origin of the issuing core and appends nothing of an ending job; TAKE ends the task where its end is pending,
else takes the oldest record of the inbox or waits; LAUNCH and POST wait while a far access of their stream is outstanding; YIELD ends the
task where a boundary is pending or its operand is 1; the first DONE makes the job end with its code; COORD and STGQ read words, SWCFG
applies a descriptor, SWTAKE takes the oldest batch; bad operands raise reason 1 of YIELD, DONE and SWTAKE, 2 and 3 of POST, 4 of SWTAKE and
5 of SWCFG, and a cell that is misaligned, forbidden or poisoned its trap of each that names one; a task end waits until the task is quiet.
That a core without a job gets reason 3 of POST and is released by DONE (log entry 30), and the address that a privilege trap names (log
entry 21), are the model's readings. (R358, R359, R360, R361, R362, R363, R364, R365, R366, R367) -/
def Obligations.LaunchWords : Prop :=
  (∀ o : DABP,
    performs (.launch o) (useDABP o) (fun s => cellsTrap s ((rdS s o.a).toNat % 2 ^ 22) 1 true = none ∧ farHeld (BitVec.allOnes 16) s = false
        ∧ launchStatus s ((rdS s o.b).toNat % 64) (BitVec.ofNat 512 (spadNum (s.viewed 0) ((rdS s o.a).toNat % 2 ^ 22) 64)) ≠ 0)
      (fun s => wrD o.d (BitVec.ofNat 64 (launchStatus s ((rdS s o.b).toNat % 64)
        (BitVec.ofNat 512 (spadNum (s.viewed 0) ((rdS s o.a).toNat % 2 ^ 22) 64)))) 64 (sawScratch 0 ((rdS s o.a).toNat % 2 ^ 22) 64 s))
    ∧ performs (.launch o) (useDABP o) (fun s => cellsTrap s ((rdS s o.a).toNat % 2 ^ 22) 1 true = none ∧ farHeld (BitVec.allOnes 16) s = false
        ∧ launchStatus s ((rdS s o.b).toNat % 64) (BitVec.ofNat 512 (spadNum (s.viewed 0) ((rdS s o.a).toNat % 2 ^ 22) 64)) = 0)
      (fun s => wrD o.d 0 64 (enqueue ((rdS s o.b).toNat % 64) (BitVec.ofNat 512 (spadNum (s.viewed 0) ((rdS s o.a).toNat % 2 ^ 22) 64))
        (sawScratch 0 ((rdS s o.a).toNat % 2 ^ 22) 64 s)))
    ∧ (∀ s, issues (.launch o) (useDABP o) s → cellsTrap (startIssue s) ((rdS (startIssue s) o.a).toNat % 2 ^ 22) 1 true = none →
        farHeld (BitVec.allOnes 16) (startIssue s) = true → exec (.launch o) s = .next s)
    ∧ traps (.launch o) (useDABP o) (fun s => (rdS s o.a).toNat % 64 ≠ 0) (fun s => mkTrap 0x03 0 ((rdS s o.a).toNat % 2 ^ 22))
    ∧ performs (.post o) (useDABP o)
      (fun s => 0 < (rdS s o.b).toNat ∧ (rdS s o.b).toNat ≤ 8 ∧ cellsTrap s ((rdS s o.a).toNat % 2 ^ 22) (rdS s o.b).toNat true = none ∧ farHeld (BitVec.allOnes 16) s = false
        ∧ ∃ x k, ownJob s = some (x, k) ∧ x.state = .ending ∧ ∀ i, i < (rdS s o.b).toNat →
          recordMalformed (BitVec.ofNat 512 (spadNum (s.viewed 0) ((rdS s o.a).toNat % 2 ^ 22 + 64 * i) 64)) x.stages.length = false)
      (fun s => wrD o.d 0 64 (sawScratch 0 ((rdS s o.a).toNat % 2 ^ 22) (64 * (rdS s o.b).toNat) s))
    ∧ traps (.post o) (useDABP o) (fun s => (rdS s o.b).toNat = 0 ∨ 8 < (rdS s o.b).toNat) (fun _ => mkTrap 0x0F 0x02 0)
    ∧ performs (.swtake o) (useDABP o)
      (fun s => (rdS s o.a).toNat / 2 ^ 22 % 2 ^ 26 = 0 ∧ (rdS s o.a).toNat < 2 ^ 52 ∧ (rdS s o.b).toNat < 2 ^ 32
        ∧ cellsTrap s ((rdS s o.a).toNat % 2 ^ 22) 1 false = none ∧ (swarmAt s ((rdS s o.a).toNat / 2 ^ 48 % 16)).en = true
        ∧ (∃ x k, ownJob s = some (x, k) ∧ pktTenant x.packet = (swarmAt s ((rdS s o.a).toNat / 2 ^ 48 % 16)).tenant.toNat)
        ∧ (swarmAt s ((rdS s o.a).toNat / 2 ^ 48 % 16)).emitted ≠ [])
      (fun s =>
        let w := (rdS s o.a).toNat / 2 ^ 48 % 16
        let x := swarmAt s w
        match x.emitted with
        | [] => s
        | b :: rest =>
          let t := setSwarm w { x with emitted := rest, taken := x.taken ++ [b.num] } s
          wrD o.d (BitVec.ofNat 64 b.rows) 1 (storeCellBy .ctl 0 ((rdS s o.a).toNat % 2 ^ 22) { bytes := batchDescriptor b, tag := 0 } t))
    ∧ (∀ r, traps (.launch o) (useDABP o) (fun s => cellsTrap s ((rdS s o.a).toNat % 2 ^ 22) 1 true = some (.trap r)) (fun _ => r))
    ∧ (∀ r, trapsIn (.launch o) (useDABP o) (fun s => cellsTrap s ((rdS s o.a).toNat % 2 ^ 22) 1 true = some (.trapIn (reportLine r.addr.toNat s) r)) (fun _ => r)
        (fun s => reportLine r.addr.toNat s))
    ∧ (∀ r, traps (.post o) (useDABP o) (fun s => 0 < (rdS s o.b).toNat ∧ (rdS s o.b).toNat ≤ 8 ∧ cellsTrap s ((rdS s o.a).toNat % 2 ^ 22) (rdS s o.b).toNat true = some (.trap r)) (fun _ => r))
    ∧ (∀ r, trapsIn (.post o) (useDABP o) (fun s => 0 < (rdS s o.b).toNat ∧ (rdS s o.b).toNat ≤ 8 ∧ cellsTrap s ((rdS s o.a).toNat % 2 ^ 22) (rdS s o.b).toNat true = some (.trapIn (reportLine r.addr.toNat s) r)) (fun _ => r)
        (fun s => reportLine r.addr.toNat s))
    ∧ traps (.post o) (useDABP o)
      (fun s => 0 < (rdS s o.b).toNat ∧ (rdS s o.b).toNat ≤ 8 ∧ cellsTrap s ((rdS s o.a).toNat % 2 ^ 22) (rdS s o.b).toNat true = none
        ∧ (ownJob s = none ∨ ∃ x k, ownJob s = some (x, k) ∧ ∃ i < (rdS s o.b).toNat,
          recordMalformed (BitVec.ofNat 512 (spadNum (s.viewed 0) ((rdS s o.a).toNat % 2 ^ 22 + 64 * i) 64)) x.stages.length = true)) (fun _ => mkTrap 0x0F 0x03 0)
    ∧ traps (.swtake o) (useDABP o) (fun s => (rdS s o.a).toNat / 2 ^ 22 % 2 ^ 26 ≠ 0 ∨ 2 ^ 52 ≤ (rdS s o.a).toNat ∨ (rdS s o.b).toNat / 2 ^ 32 % 2 ^ 31 ≠ 0) (fun _ => mkTrap 0x0F 0x01 0)
    ∧ (∀ r, traps (.swtake o) (useDABP o) (fun s => (rdS s o.a).toNat / 2 ^ 22 % 2 ^ 26 = 0 ∧ (rdS s o.a).toNat < 2 ^ 52 ∧ (rdS s o.b).toNat / 2 ^ 32 % 2 ^ 31 = 0 ∧ cellsTrap s ((rdS s o.a).toNat % 2 ^ 22) 1 false = some (.trap r)) (fun _ => r))
    ∧ traps (.swtake o) (useDABP o)
      (fun s => (rdS s o.a).toNat / 2 ^ 22 % 2 ^ 26 = 0 ∧ (rdS s o.a).toNat < 2 ^ 52 ∧ (rdS s o.b).toNat / 2 ^ 32 % 2 ^ 31 = 0 ∧ cellsTrap s ((rdS s o.a).toNat % 2 ^ 22) 1 false = none
        ∧ ((swarmAt s ((rdS s o.a).toNat / 2 ^ 48 % 16)).en = false ∨ ∀ x k, ownJob s = some (x, k) → pktTenant x.packet ≠ (swarmAt s ((rdS s o.a).toNat / 2 ^ 48 % 16)).tenant.toNat)) (fun _ => mkTrap 0x0F 0x04 0)
    ∧ (∀ n t, performs (.swtake o) (useDABP o)
      (fun s => (rdS s o.a).toNat / 2 ^ 22 % 2 ^ 26 = 0 ∧ (rdS s o.a).toNat < 2 ^ 52 ∧ (rdS s o.b).toNat / 2 ^ 32 % 2 ^ 31 = 0 ∧ cellsTrap s ((rdS s o.a).toNat % 2 ^ 22) 1 false = none ∧ (swarmAt s ((rdS s o.a).toNat / 2 ^ 48 % 16)).en = true ∧ (∃ x k, ownJob s = some (x, k) ∧ pktTenant x.packet = (swarmAt s ((rdS s o.a).toNat / 2 ^ 48 % 16)).tenant.toNat)
        ∧ takeBatch ((rdS s o.a).toNat / 2 ^ 48 % 16) ((rdS s o.a).toNat % 2 ^ 22) (if (rdS s o.b).getLsbD 63 then freeSlot ((rdS s o.a).toNat / 2 ^ 48 % 16) ((rdS s o.b).setWidth 32) s else s) = some (n, t)) (fun _ => wrD o.d n 1 t))
    ∧ transfers (.swtake o) (useDABP o)
      (fun s => (rdS s o.a).toNat / 2 ^ 22 % 2 ^ 26 = 0 ∧ (rdS s o.a).toNat < 2 ^ 52 ∧ (rdS s o.b).toNat / 2 ^ 32 % 2 ^ 31 = 0 ∧ cellsTrap s ((rdS s o.a).toNat % 2 ^ 22) 1 false = none ∧ (swarmAt s ((rdS s o.a).toNat / 2 ^ 48 % 16)).en = true ∧ (∃ x k, ownJob s = some (x, k) ∧ pktTenant x.packet = (swarmAt s ((rdS s o.a).toNat / 2 ^ 48 % 16)).tenant.toNat)
        ∧ takeBatch ((rdS s o.a).toNat / 2 ^ 48 % 16) ((rdS s o.a).toNat % 2 ^ 22) (if (rdS s o.b).getLsbD 63 then freeSlot ((rdS s o.a).toNat / 2 ^ 48 % 16) ((rdS s o.b).setWidth 32) s else s) = none)
      (fun s =>
        let s1 := (if (rdS s o.b).getLsbD 63 then freeSlot ((rdS s o.a).toNat / 2 ^ 48 % 16) ((rdS s o.b).setWidth 32) s else s)
        waiting (.swtake ((rdS s o.a).toNat / 2 ^ 48 % 16) ((rdS s o.a).toNat % 2 ^ 22) o.d) o.s { s1 with gather := { s1.gather with waiters := s1.gather.waiters ++ [((rdS s o.a).toNat / 2 ^ 48 % 16, s.core.num)] } }))
  ∧ (∀ (o : DABP) (s : State) (x : Job) (k : Nat) (g : Stage), issues (.post o) (useDABP o) s →
      let u := startIssue s
      let a := (rdS u o.a).toNat % 2 ^ 22
      let r := BitVec.ofNat 512 (spadNum (u.viewed 0) a 64)
      let v := sawScratch 0 a 64 u
      (rdS u o.b).toNat = 1 → cellsTrap u a 1 true = none → farHeld (BitVec.allOnes 16) u = false → ownJob u = some (x, k) → x.state = .running → recordMalformed r x.stages.length = false →
      x.stages[r.toNat % 16]? = some g → jobAt u x.num = some x → stageOccupancy u x.num (r.toNat % 16) < g.inq →
      exec (.post o) s = .next (completed (useDABP o) (wrD o.d 1 64
        (onStage x.num (r.toNat % 16) (fun g => { g with records := g.records ++ [{ cell := r, origin := (coordWord u.ownModule u.core.num k).setWidth 64 }] }) v))))
  ∧ (∀ (o : DABP) (s : State) (x : Job) (k : Nat), issues (.post o) (useDABP o) s →
      let u := startIssue s
      let a := (rdS u o.a).toNat % 2 ^ 22
      (rdS u o.b).toNat = 1 → cellsTrap u a 1 true = none → farHeld (BitVec.allOnes 16) u = true → ownJob u = some (x, k) →
      recordMalformed (BitVec.ofNat 512 (spadNum (u.viewed 0) a 64)) x.stages.length = false → exec (.post o) s = .next s)
  ∧ (∀ o : DAP,
    performs (.take o) (useDAP o) (fun s => cellsTrap s ((rdS s o.a).toNat % 2 ^ 22) 1 false = none ∧ s.core.taskEnds = false ∧ s.core.inbox ≠ [])
      (fun s => match s.core.inbox with
        | [] => s
        | r :: rest =>
          let t := storeCellBy .ctl 0 ((rdS s o.a).toNat % 2 ^ 22) { bytes := r.cell, tag := 0 } s
          wrD o.d r.origin 1 (t.setCore { t.core with inbox := rest }))
    ∧ transfers (.take o) (useDAP o) (fun s => cellsTrap s ((rdS s o.a).toNat % 2 ^ 22) 1 false = none ∧ s.core.taskEnds = false ∧ s.core.inbox = []
          ∧ boundaryPending s = false)
      (fun s => waiting (.take ((rdS s o.a).toNat % 2 ^ 22) o.d) o.s s)
    ∧ transfers (.take o) (useDAP o) (fun s => cellsTrap s ((rdS s o.a).toNat % 2 ^ 22) 1 false = none ∧ s.core.taskEnds = true ∧ taskQuiet s = true
        ∧ awaitingStreams s = []) (fun s => nextTask (clearTask s))
    ∧ (∀ s, issues (.take o) (useDAP o) s → cellsTrap (startIssue s) ((rdS (startIssue s) o.a).toNat % 2 ^ 22) 1 false = none →
        (startIssue s).core.taskEnds = true → taskQuiet (startIssue s) = false → exec (.take o) s = .next s)
    ∧ (∀ r, traps (.take o) (useDAP o) (fun s => cellsTrap s ((rdS s o.a).toNat % 2 ^ 22) 1 false = some (.trap r)) (fun _ => r))
    ∧ scalarDoes (.coord o) (useDAP o) o.d (fun s => BitVec.ofNat 64 (coordSelected s ((rdS s o.a).toNat % 8))) 16
    ∧ scalarDoes (.stgq o) (useDAP o) o.d (fun s => BitVec.ofNat 64 (stageWord s ((rdS s o.a).toNat % 16))) 16)
  ∧ (∀ o : AP,
    performs (.yieldJob o) (useAP o) (fun s => rdS s o.a = 0 ∧ boundaryPending s = false) id
    ∧ transfers (.yieldJob o) (useAP o)
      (fun s => (rdS s o.a = 1 ∨ (rdS s o.a = 0 ∧ boundaryPending s = true)) ∧ taskQuiet s = true ∧ awaitingStreams s = []) (fun s => nextTask (clearTask s))
    ∧ (∀ s, issues (.yieldJob o) (useAP o) s → rdS (startIssue s) o.a = 1 → taskQuiet (startIssue s) = false → exec (.yieldJob o) s = .next s)
    ∧ traps (.yieldJob o) (useAP o) (fun s => 2 ≤ (rdS s o.a).toNat) (fun _ => mkTrap 0x0F 0x01 0)
    ∧ (∀ (s : State) (x : Job) (k : Nat), issues (.doneJob o) (useAP o) s → (rdS (startIssue s) o.a).toNat < 2 ^ 32 → ownJob (startIssue s) = some (x, k) →
        x.state ≠ .ending → exec (.doneJob o) s = .next (endIssue (useAP o) (beginEnding x.num ((rdS (startIssue s) o.a).setWidth 32) (startIssue s))))
    ∧ transfers (.doneJob o) (useAP o)
      (fun s => (rdS s o.a).toNat < 2 ^ 32 ∧ (ownJob s = none ∨ ∃ x k, ownJob s = some (x, k) ∧ x.state = .ending) ∧ taskQuiet s = true ∧ awaitingStreams s = [])
      (fun s => nextTask (clearTask s))
    ∧ (∀ (s : State) (x : Job) (k : Nat), issues (.doneJob o) (useAP o) s → (rdS (startIssue s) o.a).toNat < 2 ^ 32 → ownJob (startIssue s) = some (x, k) →
        x.state = .ending → taskQuiet (startIssue s) = false → exec (.doneJob o) s = .next s)
    ∧ traps (.doneJob o) (useAP o) (fun s => 2 ^ 32 ≤ (rdS s o.a).toNat) (fun _ => mkTrap 0x0F 0x01 0)
    ∧ performs (.swcfg o) (useAP o)
      (fun s => cellsTrap s ((rdS s o.a).toNat % 2 ^ 22) 1 true = none
        ∧ swarmMalformed (BitVec.ofNat 512 (spadNum (s.viewed 0) ((rdS s o.a).toNat % 2 ^ 22) 64)) = false)
      (fun s => applySwarm (BitVec.ofNat 512 (spadNum (s.viewed 0) ((rdS s o.a).toNat % 2 ^ 22) 64)) (sawScratch 0 ((rdS s o.a).toNat % 2 ^ 22) 64 s))
    ∧ traps (.swcfg o) (useAP o)
      (fun s => cellsTrap s ((rdS s o.a).toNat % 2 ^ 22) 1 true = none
        ∧ swarmMalformed (BitVec.ofNat 512 (spadNum (s.viewed 0) ((rdS s o.a).toNat % 2 ^ 22) 64)) = true)
      (fun _ => mkTrap 0x0F 0x05 0)
    ∧ (∀ r, traps (.swcfg o) (useAP o) (fun s => cellsTrap s ((rdS s o.a).toNat % 2 ^ 22) 1 true = some (.trap r)) (fun _ => r))
    ∧ (∀ r, trapsIn (.swcfg o) (useAP o) (fun s => cellsTrap s ((rdS s o.a).toNat % 2 ^ 22) 1 true = some (.trapIn (reportLine r.addr.toNat s) r)) (fun _ => r)
        (fun s => reportLine r.addr.toNat s)))
  ∧ (∀ (s : State) (a n : Nat) (reads : Bool), (a % 64 ≠ 0 → cellsTrap s a n reads = some (.trap (mkTrap 0x03 0 a)))
      ∧ (a % 64 = 0 → s.cur.priv = false → touchesSr s.core a (64 * n) = true → cellsTrap s a n reads = some (.trap (mkTrap 0x02 0 (max a (srLow s.core)))))
      ∧ (a % 64 = 0 → s.cur.priv = false → touchesSr s.core a (64 * n) = false → touchesSr s.core 0 (a + 64 * n - 2 ^ 22) = true →
          cellsTrap s a n reads = some (.trap (mkTrap 0x02 0 (srLow s.core))))
      ∧ (a % 64 = 0 → (s.cur.priv = true ∨ (touchesSr s.core a (64 * n) = false ∧ touchesSr s.core 0 (a + 64 * n - 2 ^ 22) = false)) → reads = false →
          cellsTrap s a n reads = none))
  ∧ (∀ (s : State) (w a : Nat), (swarmAt s w).emitted = [] → takeBatch w a s = none)
  ∧ (∀ (s : State) (w a : Nat) (b : Batch) (rest : List Batch), (swarmAt s w).emitted = b :: rest → takeBatch w a s = some (BitVec.ofNat 64 b.rows,
      storeCellBy .ctl 0 a { bytes := batchDescriptor b, tag := 0 } (setSwarm w { swarmAt s w with emitted := rest, taken := (swarmAt s w).taken ++ [b.num] } s)))
  ∧ (∀ (q : Nat) (p : BitVec 512) (s : State), q < 64 →
      (launchQueue (enqueue q p s) q).packets = (launchQueue s q).packets ++ [{ data := p, job := none, late := false }]
      ∧ (∀ r, r < 64 → r ≠ q → launchQueue (enqueue q p s) r = launchQueue s r) ∧ (enqueue q p s).core = s.core ∧ (enqueue q p s).mem = s.mem)
  ∧ ∀ (s : State) (q : Nat) (p : BitVec 512),
      ((launchQueue s q).en = false → launchStatus s q p = 2)
      ∧ ((launchQueue s q).en = true → s.cur.priv = true → (launchQueue s q).packets.length < 256 → launchStatus s q p = 0)
      ∧ ((launchQueue s q).en = true → s.cur.priv = true → 256 ≤ (launchQueue s q).packets.length → launchStatus s q p = 1)
      ∧ (s.cur.priv = false → (launchQueue s q).devok = false → launchStatus s q p = 2)

/-- CTXSAVE of the ctl stream or of a parked one writes its context area, in scratchpad or in memory, and CTXLOAD restores a well-formed one and
refuses a malformed one with reason 4; both wait for the engine of the stream, and raise reason 1 for reserved bits, the alignment trap,
reason 3 for a stream that is not parked, reason 5 for an area past the end, and the trap of a cell that cannot be reached; SEMMAP sets a
map entry; a CTXSAVE also waits until other modules have acknowledged its cells, and both wait for a blocked bank (R403); TLBINV drops the
matching entries once no access of the cores in its reach that translates through them is outstanding; TLBPROBE reads a cached leaf; HINT
begins a walk or does nothing; PREEMPT parks or restarts the streams of its mask; HALT parks and waits while nothing pends; WFLUSH empties
the windows below the depth; a stream that waits parks at its own turn (R133), one that awaits another core is first asked back, and one
whose trap is on its way is waited for; reserved operands raise reason 1 of SEMMAP, TLBPROBE, PREEMPT, HALT and WFLUSH and 8 of TLBINV, a
malformed entry 6 of SEMMAP, contrary requests 7 of PREEMPT, a stream that is not parked 3 of WFLUSH, and a slot past its limit the window
trap. What the corners of an area hold (log entry 20), and that PREEMPT and HALT wait for the streams, that the end of a pre-empted task
keeps its streams parked and that WFLUSH leaves WST.OVER (log entry 21), are the model's readings. (R379, R380, R381, R383, R384, R385,
R389, R390, R391, R392) -/
def Obligations.ContextWords : Prop :=
  (∀ o : ABP,
    (∀ t : Sec, performs (.ctxsave o) (useABP o)
      (fun s => contextOk s (rdS s o.a) (rdS s o.b) t ∧ (rdS s o.a).getLsbD 63 = true ∧ contextReady s t = true)
      (fun s => storedBy s.turn 0 ((rdS s o.a).toNat % 2 ^ 22) (areaSize t) (putSpadArea (contextOf t s) ((rdS s o.a).toNat % 2 ^ 22) (areaSize t / 64)) s))
    ∧ (∀ (t : Sec) (s s1 : State), issues (.ctxsave o) (useABP o) s →
        let u := startIssue s
        contextOk u (rdS u o.a) (rdS u o.b) t → (rdS u o.a).getLsbD 63 = false → contextReady u t = true →
        spanHeld u (streamAccess u true) (rdS u o.a).toNat (areaSize t) = false →
        (∀ l, areaCells true (rdS u o.a).toNat (areaSize t / 64) u = (s1, .ok l) →
          let t1 := tagSent 0 (.context u.core.num) (putCells (contextOf t u) l) s1
          (t1.awaits (.context u.core.num) = false → exec (.ctxsave o) s = .next (completed (useABP o) t1))
          ∧ (t1.awaits (.context u.core.num) = true → exec (.ctxsave o) s = .next (endIssue (useABP o) (waiting .saved o.s t1))))
        ∧ ∀ r, areaCells true (rdS u o.a).toNat (areaSize t / 64) u = (s1, .error r) →
          exec (.ctxsave o) s = .next (if s.cur.awaitsLoad then s else trapOut r s1))
    ∧ (∀ p ∈ [(Instr.ctxsave o, true), (.ctxload o, false)], ∀ (t : Sec) (s : State), issues p.1 (useABP o) s →
        let u := startIssue s
        contextOk u (rdS u o.a) (rdS u o.b) t → (rdS u o.a).getLsbD 63 = false →
        spanHeld u (streamAccess u p.2) (rdS u o.a).toNat (areaSize t) = true → exec p.1 s = .next s)
    ∧ (∀ (t : Sec) (s : State), issues (.ctxload o) (useABP o) s →
        let u := startIssue s
        let seen := sawScratch 0 ((rdS u o.a).toNat % 2 ^ 22) (areaSize t) u
        contextOk u (rdS u o.a) (rdS u o.b) t → (rdS u o.a).getLsbD 63 = true → contextReady u t = true →
        (∀ x, readSpadArea (u.viewed 0) ((rdS u o.a).toNat % 2 ^ 22) (areaSize t / 64) = .ok x →
          (areaMalformed t x = false → exec (.ctxload o) s = .next (completed (useABP o) (restoreContext t x seen)))
          ∧ (areaMalformed t x = true → exec (.ctxload o) s = .next (trapOut (mkTrap 0x10 0x04 0) s)))
        ∧ ∀ r, readSpadArea (u.viewed 0) ((rdS u o.a).toNat % 2 ^ 22) (areaSize t / 64) = .error r → (r.cause ≠ 0x05 ∨ spadIsBad u.core r.addr.toNat = false) →
          exec (.ctxload o) s = .next (trapOut r s))
    ∧ (∀ (t : Sec) (s s1 : State), issues (.ctxload o) (useABP o) s →
        let u := startIssue s
        contextOk u (rdS u o.a) (rdS u o.b) t → (rdS u o.a).getLsbD 63 = false → contextReady u t = true →
        spanHeld u (streamAccess u false) (rdS u o.a).toNat (areaSize t) = false →
        (∀ r, areaCells false (rdS u o.a).toNat (areaSize t / 64) u = (s1, .error r) →
          exec (.ctxload o) s = .next (if s.cur.awaitsLoad then s else trapOut r s1))
        ∧ (∀ l r, areaCells false (rdS u o.a).toNat (areaSize t / 64) u = (s1, .ok l) → readCells (s1.farViewed 0) (rdS u o.a).toNat l = .error r →
          exec (.ctxload o) s = .next (if s.cur.awaitsLoad then s else trapOut r (l.foldl (fun s y => countCell y s) s1)))
        ∧ ∀ l x, areaCells false (rdS u o.a).toNat (areaSize t / 64) u = (s1, .ok l) → readCells (s1.farViewed 0) (rdS u o.a).toNat l = .ok x →
          let seen := l.foldl (fun s y => sawFar 0 y.pa 64 s) (l.foldl (fun s y => countCell y s) s1)
          (areaMalformed t x = false → exec (.ctxload o) s = .next (completed (useABP o) (restoreContext t x seen)))
          ∧ (areaMalformed t x = true → exec (.ctxload o) s = .next (trapOut (mkTrap 0x10 0x04 0) s)))
    ∧ (∀ i ∈ [Instr.ctxsave o, .ctxload o],
      (∀ (t : Sec) (s : State), issues i (useABP o) s → contextOk (startIssue s) (rdS (startIssue s) o.a) (rdS (startIssue s) o.b) t →
        contextReady (startIssue s) t = false → exec i s = .next s)
      ∧ traps i (useABP o) (fun s => 4 ≤ (rdS s o.b).toNat ∨ contextReserved (rdS s o.a) = true) (fun _ => mkTrap 0x10 0x01 0)
      ∧ traps i (useABP o) (fun s => (rdS s o.b).toNat < 4 ∧ contextReserved (rdS s o.a) = false ∧ (rdS s o.a).toNat % 64 ≠ 0)
        (fun s => mkTrap 0x03 0 (rdS s o.a).toNat)
      ∧ (∀ t, traps i (useABP o) (fun s => (rdS s o.b).toNat = secNum t ∧ contextReserved (rdS s o.a) = false ∧ (rdS s o.a).toNat % 64 = 0
          ∧ t ≠ .ctl ∧ (s.str t).parked = none) (fun _ => mkTrap 0x10 0x03 0))
      ∧ (∀ t, traps i (useABP o) (fun s => (rdS s o.b).toNat = secNum t ∧ contextReserved (rdS s o.a) = false ∧ (rdS s o.a).toNat % 64 = 0
          ∧ (t = .ctl ∨ (s.str t).parked.isSome = true) ∧ (rdS s o.a).getLsbD 63 = true ∧ 2 ^ 22 < (rdS s o.a).toNat % 2 ^ 22 + areaSize t)
          (fun _ => mkTrap 0x10 0x05 0)))
    ∧ performs (.semmap o) (useABP o) (fun s => (rdS s o.a).toNat < 256 ∧ semEntryMalformed (rdS s o.b) = false)
      (fun s => s.setSync { s.core.sync with map := s.core.sync.map.set (Fin.ofNat 256 (rdS s o.a).toNat) (if (rdS s o.b).getLsbD 31 then rdS s o.b else 0) })
    ∧ traps (.semmap o) (useABP o) (fun s => (rdS s o.a).toNat < 256 ∧ semEntryMalformed (rdS s o.b) = true) (fun _ => mkTrap 0x10 0x06 0)
    ∧ traps (.semmap o) (useABP o) (fun s => 256 ≤ (rdS s o.a).toNat) (fun _ => mkTrap 0x10 0x01 0)
    ∧ performs (.tlbinv o) (useABP o)
      (fun s => (rdS s o.b).toNat % 4 ≠ 3 ∧ (rdS s o.b).toNat / 4 % 4 < 2 ∧ (rdS s o.b).toNat / 16 % 2 ^ 12 = 0 ∧ (rdS s o.b).toNat < 2 ^ 32
        ∧ farHeld (BitVec.allOnes 16) s = false
        ∧ ∀ c ∈ (if (rdS s o.b).getLsbD 2 then s.core :: s.others else [s.core]), stillTranslating s c = false)
      (fun s => dropEntries ((rdS s o.b).getLsbD 2) (invalidates ((rdS s o.b).toNat % 4) (BitVec.ofNat 16 ((rdS s o.b).toNat / 2 ^ 16)) (rdS s o.a).toNat)
        (invalidatesWalk ((rdS s o.b).toNat % 4) (BitVec.ofNat 16 ((rdS s o.b).toNat / 2 ^ 16)) (rdS s o.a).toNat) s)
    ∧ (∀ s, issues (.tlbinv o) (useABP o) s → (rdS (startIssue s) o.b).toNat % 4 ≠ 3 → (rdS (startIssue s) o.b).toNat / 4 % 4 < 2 →
        (rdS (startIssue s) o.b).toNat / 16 % 2 ^ 12 = 0 → (rdS (startIssue s) o.b).toNat < 2 ^ 32 →
        (farHeld (BitVec.allOnes 16) (startIssue s) = true
          ∨ ∃ c ∈ (if (rdS (startIssue s) o.b).getLsbD 2 then (startIssue s).core :: s.others else [(startIssue s).core]), stillTranslating (startIssue s) c = true) →
        exec (.tlbinv o) s = .next s)
    ∧ traps (.tlbinv o) (useABP o) (fun s => (rdS s o.b).toNat % 4 = 3 ∨ 2 ≤ (rdS s o.b).toNat / 4 % 4 ∨ (rdS s o.b).toNat / 16 % 2 ^ 12 ≠ 0
        ∨ 2 ^ 32 ≤ (rdS s o.b).toNat) (fun _ => mkTrap 0x10 0x08 0)
    ∧ performs (.hint o) (useABP o) (fun s => (rdS s o.b).toNat % 16 ≠ 1 ∧ (rdS s o.b).toNat % 16 ≠ 2) id
    ∧ performs (.hint o) (useABP o) (fun s => (rdS s o.b).toNat % 16 = 1 ∨ (rdS s o.b).toNat % 16 = 2)
      (fun s => s.raise [walkEndEvent s.core.num (rdS s o.a).toNat ((rdS s o.b).toNat % 16)]))
  ∧ (∀ o : DABP, performs (.tlbprobe o) (useDABP o) (fun s => (rdS s o.b).toNat < 2 ^ 16)
      (fun s => wrD o.d (if 2 ^ 56 ≤ (rdS s o.a).toNat then 0
        else ((cachedLeaf s ((rdS s o.b).setWidth 16) (rdS s o.a).toNat).map (·.pte)).getD 0) 16 s)
    ∧ traps (.tlbprobe o) (useDABP o) (fun s => 2 ^ 16 ≤ (rdS s o.b).toNat) (fun _ => mkTrap 0x10 0x01 0))
  ∧ (∀ o : AP,
    performs (.preempt o) (useAP o)
      (fun s => (rdS s o.a).toNat % 2 = 0 ∧ (rdS s o.a).toNat < 512 ∧ (rdS s o.a).toNat / 16 % 16 = 0 ∧ (rdS s o.a).getLsbD 8 = true)
      (fun s => (maskSecs (rdS s o.a)).foldl (fun s t => s.onStr t fun st => { st with parked := none }) s)
    ∧ performs (.preempt o) (useAP o)
      (fun s => (rdS s o.a).toNat % 2 = 0 ∧ (rdS s o.a).toNat < 16 ∧ mayPark s (maskSecs (rdS s o.a)))
      (fun s => (maskSecs (rdS s o.a)).foldl parkStream s)
    ∧ transfers (.preempt o) (useAP o)
      (fun s => rdS s o.a = 0x20E ∧ mayPark s (maskSecs (rdS s o.a)) ∧ taskQuiet (leavesSupervisor ((maskSecs (rdS s o.a)).foldl parkStream s)) = true
        ∧ awaitingStreams (leavesSupervisor ((maskSecs (rdS s o.a)).foldl parkStream s)) = [])
      (fun s => nextTask (clearTask (leavesSupervisor ((maskSecs (rdS s o.a)).foldl parkStream s))))
    ∧ transfers (.preempt o) (useAP o)
      (fun s => rdS s o.a = 0x20E ∧ mayPark s (maskSecs (rdS s o.a)) ∧ taskQuiet (leavesSupervisor ((maskSecs (rdS s o.a)).foldl parkStream s)) = false)
      (fun s => (maskSecs (rdS s o.a)).foldl parkStream s)
    ∧ traps (.preempt o) (useAP o) (fun s => (rdS s o.a).toNat % 2 = 1 ∨ (rdS s o.a).toNat / 16 % 16 ≠ 0 ∨ 1024 ≤ (rdS s o.a).toNat) (fun _ => mkTrap 0x10 0x01 0)
    ∧ traps (.preempt o) (useAP o)
      (fun s => (rdS s o.a).toNat % 2 = 0 ∧ (rdS s o.a).toNat / 16 % 16 = 0 ∧ (rdS s o.a).toNat < 1024 ∧ (rdS s o.a).getLsbD 9 = true
        ∧ ((rdS s o.a).getLsbD 8 = true ∨ (rdS s o.a).toNat / 2 % 8 ≠ 7)) (fun _ => mkTrap 0x10 0x07 0)
    ∧ performs (.halt o) (useAP o) (fun s => (rdS s o.a).toNat < 16 ∧ mayPark s (maskSecs (rdS s o.a))
        ∧ ((rdS s o.a).getLsbD 0 = false ∨ spend ((maskSecs (rdS s o.a)).foldl parkStream s) ≠ 0)) (fun s => (maskSecs (rdS s o.a)).foldl parkStream s)
    ∧ transfers (.halt o) (useAP o) (fun s => (rdS s o.a).toNat < 16 ∧ mayPark s (maskSecs (rdS s o.a))
        ∧ (rdS s o.a).getLsbD 0 = true ∧ spend ((maskSecs (rdS s o.a)).foldl parkStream s) = 0)
      (fun s => waiting .halt o.s ((maskSecs (rdS s o.a)).foldl parkStream s))
    ∧ (∀ p ∈ [(Instr.preempt o, fun a : Word => (a.toNat % 2 = 0 ∧ a.toNat < 16) ∨ a = 0x20E), (.halt o, fun a : Word => a.toNat < 16)],
      (∀ s, issues p.1 (useAP o) s → p.2 (rdS (startIssue s) o.a) →
        parkHolds (startIssue s) (maskSecs (rdS (startIssue s) o.a)) → exec p.1 s = .next s)
      ∧ transfers p.1 (useAP o) (fun s => p.2 (rdS s o.a) ∧ parksAtTurn s (maskSecs (rdS s o.a)))
        (fun s => ((maskSecs (rdS s o.a)).filter fun t => (s.str t).parked.isNone).foldl askPark s)
      ∧ transfers p.1 (useAP o) (fun s => p.2 (rdS s o.a)
          ∧ ∃ t ∈ maskSecs (rdS s o.a), (s.str t).parked = none ∧ (remoteOf s t).isSome = true)
        (fun s => (((maskSecs (rdS s o.a)).filter fun t => (s.str t).parked.isNone).filter fun t => (remoteOf s t).isSome).foldl
          (fun s t => askWithdrawal true t s) s))
    ∧ traps (.halt o) (useAP o) (fun s => 16 ≤ (rdS s o.a).toNat) (fun _ => mkTrap 0x10 0x01 0)
    ∧ (∀ (s : State) (w : Sec), issues (.wflush o) (useAP o) s → (rdS (startIssue s) o.a).toNat = secNum w → (w = .ctl ∨ ((startIssue s).str w).parked.isSome = true) →
        let st := (startIssue s).str w
        (∀ p ∈ flushGroups st.job, st.spb.toNat * 64 + 64 * p.2 + 64 ≤ st.spl.toNat * 64) →
        ∃ t, exec (.wflush o) s = .next (completed (useAP o) t)
          ∧ (t.str w).job.regs = st.job.regs ∧ (t.str w).job.depth = st.job.depth
          ∧ (∀ g : Fin 16, (t.str w).job.holds[g] = if (st.job.holds[g]).any (fun l => decide (l < st.job.depth)) then none else st.job.holds[g])
          ∧ (∀ t', t' ≠ w → t.str t' = (startIssue s).str t') ∧ t.mem = s.mem)
    ∧ traps (.wflush o) (useAP o) (fun s => 4 ≤ (rdS s o.a).toNat) (fun _ => mkTrap 0x10 0x01 0)
    ∧ (∀ w : Sec, traps (.wflush o) (useAP o) (fun s => (rdS s o.a).toNat = secNum w ∧ w ≠ .ctl ∧ (s.str w).parked = none) (fun _ => mkTrap 0x10 0x03 0))
    ∧ ∀ (w : Sec) (p : Nat × Nat), traps (.wflush o) (useAP o)
      (fun s => (rdS s o.a).toNat = secNum w ∧ (w = .ctl ∨ (s.str w).parked.isSome = true)
        ∧ ((flushGroups (s.str w).job).find? fun p => decide ((s.str w).spl.toNat * 64 < (s.str w).spb.toNat * 64 + 64 * p.2 + 64)) = some p)
      (fun s => mkTrap 0x07 1 ((s.str w).spb.toNat * 64 + 64 * p.2)))
  ∧ ∀ (a : Word) (t : Sec), t ∈ maskSecs a ↔ t ≠ .ctl ∧ a.getLsbD (secNum t) = true

/-- A write of a barrier register sets the target and clears the arrivals; a sleeping stream goes on once its cycle is reached; a watch
completes with the word it reads when the word differs, and at its timeout in any case; the acknowledgement of a far store removes it; a
completed wait leaves memory and the other streams alone; an event for a core that the module does not have faults (the model's choice, log
entry 10). An entry that arrives at an enabled queue with room is appended at its tail; one that the queue does not take is counted in DROP,
which saturates, where it is a multicast entry or a membership record, and otherwise sets FAULT of the sending channel, here or by a message
to the module of the sender, to 1 where the queue is disabled and to 2 where it is full; a credit return adds to the credit, at most 4096,
and completes a waiting SEND; an acknowledgement that does not come sets FAULT 4; a timed RECV takes the head entry at its promise and not
before. (R119, R140, R149, R150, R151, R206, R207, R208, R209, Table 10-5) -/
def Obligations.WaitAndMessageEvents : Prop :=
  (happensAt .bartWrite (fun _ => True)
    (fun t => setBarrier (t.arg.a % 8) { barrierAt t (t.arg.a % 8) with target := BitVec.ofNat 8 t.arg.b, arrived := 0 } t)
  ∧ (∀ c, happensAt .sleepWake (fun t => waitsOn t t.arg.sec = some (.sleep c) ∧ c ≤ t.now) (fun t => resume t.arg.sec none t))
  ∧ (∀ c, happensAt .sleepWake (fun t => waitsOn t t.arg.sec = some (.sleep c) ∧ t.now < c) id)
  ∧ (∀ spad a old d due poll,
      happensAt .watchEvent (fun t => waitsOn t t.arg.sec = some (.watch spad a old d due poll) ∧ watchRead t t.arg.sec spad a ≠ old)
        (fun t => resume t.arg.sec (some (d, watchRead t t.arg.sec spad a)) (sawWatched t.arg.sec spad a t))
      ∧ happensAt .watchEvent (fun t => waitsOn t t.arg.sec = some (.watch spad a old d due none) ∧ watchRead t t.arg.sec spad a = old) (fun t => sawWatched t.arg.sec spad a t)
      ∧ happensAt .watchPoll (fun t => waitsOn t t.arg.sec = some (.watch spad a old d due poll) ∧ watchRead t t.arg.sec spad a ≠ old)
        (fun t => resume t.arg.sec (some (d, watchRead t t.arg.sec spad a)) (sawWatched t.arg.sec spad a t))
      ∧ happensAt .watchTimeout (fun t => waitsOn t t.arg.sec = some (.watch spad a old d due poll))
        (fun t => resume t.arg.sec (some (d, watchRead t t.arg.sec spad a)) (sawWatched t.arg.sec spad a t))
      ∧ ∀ (s : State) (t : Sec), { sawWatched t true a s with core := s.core, farLoose := s.farLoose } = s
        ∧ { (sawWatched t true a s).core with loose := s.core.loose } = s.core)
  ∧ (∀ (t : Sec) (s : State) (w : Waiting) (d : SDst) (v : Word), (s.str t).waiting = some w →
      ((resume t (some (d, v)) s).str t).waiting = none ∧ (resume t (some (d, v)) s).mem = s.mem ∧ (resume t (some (d, v)) s).turn = s.turn
      ∧ ∀ t', t' ≠ t → (resume t (some (d, v)) s).str t' = s.str t')
  ∧ (∀ id, happensAt .farStoreAcknowledged (fun t => t.arg.a = id)
      (fun t => t.setCore { t.core with farStores := t.core.farStores.filter fun p => p.1 != id }))
  ∧ ∀ s, focus s.arg.core s = none → exec .bartWrite s = .fault .noSuchAgent ∧ exec .sleepWake s = .fault .noSuchAgent)
  ∧ ((∀ e : Entry,
    happensAt .queueEntryArrival
      (fun t => t.arg.data = .entry e ∧ (queueAt t (Fin.ofNat 16 t.arg.a)).en = true
        ∧ (queueAt t (Fin.ofNat 16 t.arg.a)).origins.length < 2 ^ (queueAt t (Fin.ofNat 16 t.arg.a)).lsize ∧ coordModule (originCoord e.origin) = t.ownModule)
      (fun t => appendEntry (Fin.ofNat 16 t.arg.a) e t)
    ∧ happensAt .queueEntryArrival
      (fun t => t.arg.data = .entry e ∧ (queueAt t (Fin.ofNat 16 t.arg.a)).en = false ∧ originFree e.origin = true)
      (fun t => setQueue (Fin.ofNat 16 t.arg.a) (dropUp (queueAt t (Fin.ofNat 16 t.arg.a))) t)
    ∧ happensAt .queueEntryArrival
      (fun t => t.arg.data = .entry e ∧ (queueAt t (Fin.ofNat 16 t.arg.a)).en = false ∧ originFree e.origin = false
        ∧ coordModule (originCoord e.origin) = t.ownModule)
      (fun t => onCore (coordCore (originCoord e.origin)) (channelFault (originSec e.origin) (originChannel e.origin) 1) t)
    ∧ happensAt .queueEntryArrival
      (fun t => t.arg.data = .entry e ∧ (queueAt t (Fin.ofNat 16 t.arg.a)).en = true
        ∧ 2 ^ (queueAt t (Fin.ofNat 16 t.arg.a)).lsize ≤ (queueAt t (Fin.ofNat 16 t.arg.a)).origins.length ∧ originFree e.origin = true)
      (fun t => setQueue (Fin.ofNat 16 t.arg.a) (dropUp (queueAt t (Fin.ofNat 16 t.arg.a))) t)
    ∧ happensAt .queueEntryArrival
      (fun t => t.arg.data = .entry e ∧ (queueAt t (Fin.ofNat 16 t.arg.a)).en = true
        ∧ 2 ^ (queueAt t (Fin.ofNat 16 t.arg.a)).lsize ≤ (queueAt t (Fin.ofNat 16 t.arg.a)).origins.length ∧ originFree e.origin = false
        ∧ coordModule (originCoord e.origin) = t.ownModule)
      (fun t => onCore (coordCore (originCoord e.origin)) (channelFault (originSec e.origin) (originChannel e.origin) 2) t)
    ∧ happensAt .queueEntryArrival
      (fun t => t.arg.data = .entry e ∧ arrivalCode (queueAt t (Fin.ofNat 16 t.arg.a)) ≠ 0 ∧ originFree e.origin = false
        ∧ coordModule (originCoord e.origin) ≠ t.ownModule)
      (fun t => t.send (coordModule (originCoord e.origin)) (.delivered (coordCore (originCoord e.origin)) (originSec e.origin)
        (originChannel e.origin) (arrivalCode (queueAt t (Fin.ofNat 16 t.arg.a)))))
    ∧ (∀ x : MsgQueue, (x.en = false → arrivalCode x = 1) ∧ (x.en = true → 2 ^ x.lsize ≤ x.origins.length → arrivalCode x = 2))
    ∧ (∀ x : MsgQueue, { dropUp x with drop := x.drop } = x ∧ (dropUp x).drop.toNat = min (x.drop.toNat + 1) (2 ^ 16 - 1))
    ∧ ∀ (s : State) (q : Fin 16), waitsOn s .ctl = none → waitsOn s .copy = none → s.core.copy.frozenSince = none →
      (queueAt (appendEntry q e s) q).origins = (queueAt s q).origins ++ [e.origin] ∧ (appendEntry q e s).core.spad =
        (spadPutCell s.core ((queueAt s q).addr (queueAt s q).occ) e.cell).spad)
  ∧ happensAt .creditReturn (fun t => waitsOn t t.arg.sec = none)
      (fun t => setChannel t.arg.sec t.arg.a { channelAt t t.arg.sec t.arg.a with credit := min 4096 ((channelAt t t.arg.sec t.arg.a).credit + t.arg.b) } t)
  ∧ (∀ c a, happensAt .creditReturn
      (fun t => waitsOn t t.arg.sec = some (.credit c a) ∧ c = t.arg.a % 64 ∧ 0 < t.arg.b ∧ (t.arg.sec = .ctl ∨ t.arg.sec = .copy))
      (fun t => resume t.arg.sec none (sendNow t.arg.sec c a
        (setChannel t.arg.sec t.arg.a { channelAt t t.arg.sec t.arg.a with credit := min 4096 ((channelAt t t.arg.sec t.arg.a).credit + t.arg.b) } t))))
  ∧ happensAt .messageAckTimeout (fun _ => True)
      (fun t => setChannel t.arg.sec t.arg.a { channelAt t t.arg.sec t.arg.a with inFlight := (channelAt t t.arg.sec t.arg.a).inFlight.drop 1, fault := 4 } t)
  ∧ ∀ q a d p, happensAt .timedRecvDue
      (fun t => waitsOn t t.arg.sec = some (.recv q a d (some p)) ∧ p ≤ t.now ∧ (queueAt t (Fin.ofNat 16 q)).origins ≠ [])
      (fun t => resume t.arg.sec (some (d, ((queueAt t (Fin.ofNat 16 q)).origins.head?).getD 0))
        (popEntry (Fin.ofNat 16 q) (storedBy t.arg.sec 0 a 64 (landCell a (movedCell t ((queueAt t (Fin.ofNat 16 q)).addr 0)))
          (if (movedCell t ((queueAt t (Fin.ofNat 16 q)).addr 0)).2 then reportLine ((queueAt t (Fin.ofNat 16 q)).addr 0) t else t))))
      ∧ happensAt .timedRecvDue (fun t => waitsOn t t.arg.sec = some (.recv q a d (some p)) ∧ t.now < p) id)

/-- The owning file admits a SEMWAIT, queues it with an acknowledgement, or refuses the 257th; it performs SEMSIG, SEMTRY, SEMADD, SEMCAS and
SEMRD on its value and answers the result, or overflow where SEMSIG would pass 2^32 - 1; a withdrawal removes a queued request; the waiting
stream completes with the result, notes the acknowledgement, takes reason 3 on overflow, sends a refused request again, parks where a
PREEMPT or HALT asked for it, and takes reason 0x0D with the acknowledged bit when no answer comes. (R135, R136, R137, Table 19-2) -/
def Obligations.RemoteSemaphoreEvents : Prop :=
  (∀ r : SemReq,
    happensAt .remoteSemRequest (fun t => t.arg.data = .sem r ∧ r.op = .wait ∧ semAdmits (semAt t r.phys) (r.b.toNat % 2 ^ 32) = true)
      (fun t => sendAnswer r.from_ r.sec r.id (.result 0)
        (setSem t r.phys { semAt t r.phys with val := (semAt t r.phys).val - BitVec.ofNat 32 (r.b.toNat % 2 ^ 32) }))
    ∧ happensAt .remoteSemRequest
      (fun t => t.arg.data = .sem r ∧ r.op = .wait ∧ semAdmits (semAt t r.phys) (r.b.toNat % 2 ^ 32) = false ∧ remoteWaiters t < 256)
      (fun t => sendAnswer r.from_ r.sec r.id .acknowledged (setSem t r.phys { semAt t r.phys with
        fifo := (semAt t r.phys).fifo ++ [{ coord := r.from_, sec := r.sec, n := r.b.toNat % 2 ^ 32, remote := some r.id }] }))
    ∧ happensAt .remoteSemRequest
      (fun t => t.arg.data = .sem r ∧ r.op = .wait ∧ semAdmits (semAt t r.phys) (r.b.toNat % 2 ^ 32) = false ∧ 256 ≤ remoteWaiters t)
      (fun t => sendAnswer r.from_ r.sec r.id .refused t)
    ∧ happensAt .remoteSemRequest (fun t => t.arg.data = .sem r ∧ r.op = .read)
      (fun t => sendAnswer r.from_ r.sec r.id (.result ((semAt t r.phys).val.setWidth 64)) t)
    ∧ happensAt .remoteSemRequest (fun t => t.arg.data = .sem r ∧ r.op = .sig ∧ 2 ^ 32 ≤ (semAt t r.phys).val.toNat + r.b.toNat % 2 ^ 32)
      (fun t => sendAnswer r.from_ r.sec r.id .overflow t)
    ∧ happensAt .remoteSemRequest (fun t => t.arg.data = .sem r ∧ r.op = .sig ∧ (semAt t r.phys).val.toNat + r.b.toNat % 2 ^ 32 < 2 ^ 32)
      (fun t => sendAnswer r.from_ r.sec r.id (.result 0) (putSemValue r.phys ((semAt t r.phys).val.toNat + r.b.toNat % 2 ^ 32) t))
    ∧ happensAt .remoteSemRequest (fun t => t.arg.data = .sem r ∧ r.op = .try_ ∧ r.b.toNat % 2 ^ 32 ≤ (semAt t r.phys).val.toNat)
      (fun t => sendAnswer r.from_ r.sec r.id (.result 1) (putSemValue r.phys ((semAt t r.phys).val.toNat - r.b.toNat % 2 ^ 32) t))
    ∧ happensAt .remoteSemRequest (fun t => t.arg.data = .sem r ∧ r.op = .try_ ∧ (semAt t r.phys).val.toNat < r.b.toNat % 2 ^ 32)
      (fun t => sendAnswer r.from_ r.sec r.id (.result 0) t)
    ∧ happensAt .remoteSemRequest
      (fun t => t.arg.data = .sem r ∧ r.op = .add ∧ 0 ≤ ((semAt t r.phys).val.toNat : Int) + (r.b.setWidth 32).toInt
        ∧ ((semAt t r.phys).val.toNat : Int) + (r.b.setWidth 32).toInt < 2 ^ 32)
      (fun t => sendAnswer r.from_ r.sec r.id (.result ((semAt t r.phys).val.setWidth 64))
        (putSemValue r.phys (((semAt t r.phys).val.toNat : Int) + (r.b.setWidth 32).toInt).toNat t))
    ∧ happensAt .remoteSemRequest
      (fun t => t.arg.data = .sem r ∧ r.op = .add ∧ (((semAt t r.phys).val.toNat : Int) + (r.b.setWidth 32).toInt < 0
        ∨ 2 ^ 32 ≤ ((semAt t r.phys).val.toNat : Int) + (r.b.setWidth 32).toInt))
      (fun t => sendAnswer r.from_ r.sec r.id (.result (BitVec.ofNat 64 ((semAt t r.phys).val.toNat + 2 ^ 63))) t)
    ∧ happensAt .remoteSemRequest (fun t => t.arg.data = .sem r ∧ r.op = .cas ∧ (semAt t r.phys).val.toNat = r.b.toNat % 2 ^ 32)
      (fun t => sendAnswer r.from_ r.sec r.id (.result ((semAt t r.phys).val.setWidth 64)) (putSemValue r.phys (r.b.toNat / 2 ^ 32) t))
    ∧ happensAt .remoteSemRequest (fun t => t.arg.data = .sem r ∧ r.op = .cas ∧ (semAt t r.phys).val.toNat ≠ r.b.toNat % 2 ^ 32)
      (fun t => sendAnswer r.from_ r.sec r.id (.result ((semAt t r.phys).val.setWidth 64)) t)
    ∧ happensAt .remoteWithdrawal
      (fun t => t.arg.data = .sem r ∧ (semAt t r.phys).fifo = [{ coord := r.from_, sec := r.sec, n := r.b.toNat % 2 ^ 32, remote := some r.id }])
      (fun t => sendAnswer r.from_ r.sec r.id .withdrawn (setSem t r.phys { semAt t r.phys with fifo := [] }))
    ∧ happensAt .remoteWithdrawal (fun t => t.arg.data = .sem r ∧ (semAt t r.phys).fifo = []) id)
  ∧ (∀ (r : RemoteWait) (d : Option SDst),
    (∀ v : Word, happensAt .remoteSemAnswer
      (fun t => t.arg.data = .answer (.result v) ∧ waitsOn t t.arg.sec = some (.remote r d) ∧ r.req.id = t.arg.a ∧ t.arg.a % 2 = 0 ∧ r.park = false)
      (fun t => resume t.arg.sec (d.map fun x => (x, v)) t))
    ∧ happensAt .remoteSemAnswer (fun t => t.arg.data = .answer .acknowledged ∧ waitsOn t t.arg.sec = some (.remote r d) ∧ r.req.id = t.arg.a
        ∧ t.arg.a % 2 = 0)
      (fun t => setRemote t.arg.sec { r with acked := true } d t)
    ∧ happensAt .remoteSemAnswer (fun t => t.arg.data = .answer .overflow ∧ waitsOn t t.arg.sec = some (.remote r d) ∧ r.req.id = t.arg.a
        ∧ t.arg.a % 2 = 0 ∧ t.core.stop = false)
      (fun t => endWait t.arg.sec (mkTrap 0x08 0x03 0) t)
    ∧ happensAt .remoteSemAnswer (fun t => t.arg.data = .answer .acknowledged ∧ waitsOn t t.arg.sec = some (.remote r d) ∧ r.req.id ≠ t.arg.a) id
    ∧ happensAt .remoteSemAnswer (fun t => t.arg.data = .answer .withdrawn ∧ waitsOn t t.arg.sec = some (.remote r d) ∧ r.req.id = t.arg.a
        ∧ t.arg.a % 2 = 0 ∧ r.park = true ∧ (t.str t.arg.sec).parked = none)
      (fun t => t.onStr t.arg.sec fun st => { st with waiting := none }.parkAt none st.pc)
    ∧ (∀ n, happensAt .remoteSemResend (fun t => waitsOn t t.arg.sec = some (.remote r d) ∧ r.refusedAt = some n)
      (fun t => sendRequest r.owner r.req (setRemote t.arg.sec { r with refusedAt := none } d t)))
    ∧ happensAt .remoteSemTimeout (fun t => waitsOn t t.arg.sec = some (.remote r d) ∧ r.acked = false ∧ t.core.stop = false)
      (fun t => endWait t.arg.sec (mkTrap 0x08 0x0D 0) t)
    ∧ happensAt .remoteSemTimeout (fun t => waitsOn t t.arg.sec = some (.remote r d) ∧ r.acked = true ∧ r.withdraw = false ∧ t.core.stop = false)
      (fun t => endWait t.arg.sec (mkTrap 0x08 (0x0D + 2 ^ 24) 0) t))
  ∧ ∀ (c : BitVec 32) (t : Sec) (id : Nat) (x : SemAnswer) (s : State), coordModule c = s.ownModule →
      sendAnswer c t id x s = { s with pending := s.pending ++
        [{ i := .remoteSemAnswer, arg := { core := coordCore c, sec := t, a := id, b := 0, data := .answer x } }] }

/-- A walk reads its next leg and stops at one it cannot read; a leg starts when its lead, window and dependency allow and not before its lead;
WRAP adds its period and restarts the list, END drains the walk; a source leg reads its cells once, sends them into its group, each with
whether it could not be read, and writes its own destination, behind earlier legs that write the same cells and not while a bank that it
reads or writes is blocked; a ready notice is held or answered gone; an arriving cell is written, refused where its leg announces another
length, or dropped where no leg listens or the leg has taken a cell of another source (the last is the model's choice, log entry 29); a leg
that hears nothing faults; a leg whose last cell is written lands in a later cycle, in walk order within a cycle, with its lateness counted
when it is late, and then signals; the mark sets its flag; an event for a walk that no forager has faults (the model's choice, log entry
10). (R322, R323, R324, R325, R326, R328, R330, R337, R403) -/
def Obligations.ForagerEvents : Prop :=
  (∀ (p : Xlat) (w : Nat),
    let at_ (s : State) := translateDie (w / 4) s ((walkAt s w).access false) ((walkAt s w).base + 32 * (walkAt s w).readNext)
    (happens .legRead
      (fun s => s.arg.core = w ∧ w < 8 ∧ canReadLeg (walkAt s w) = true ∧ (walkAt s w).starting = none ∧ (at_ s).result = .ok p
        ∧ (readCellAt (at_ s).state p).bad = false ∧ tagF (readCellAt (at_ s).state p).data.tag ≠ 0xFF
        ∧ legMalformed (memNum (at_ s).state p.pa 32) = false ∧ (memNum (at_ s).state p.pa 32).testBit 188 = false)
      (fun s => onWalk w (fun x => { x with
        legs := x.legs ++ [{ leg := legOf (walkAt s w).readNext (memNum (at_ s).state p.pa 32), order := (walkAt s w).order
                             dueAt := (walkAt s w).origin.toInt + (legOf (walkAt s w).readNext (memNum (at_ s).state p.pa 32)).due, state := .read, moved := 0, arrive := 0
                             held := [], spoil := false, source := none }]
        order := x.order + 1, readNext := x.readNext + 1, readAt := s.now, origin := (walkAt s w).origin, starting := none : Walk }.touchMark)
        (countRead p.tier p.desc p.pa 32 (at_ s).state))
    ∧ ∀ e, happens .legRead (fun s => s.arg.core = w ∧ w < 8 ∧ canReadLeg (walkAt s w) = true ∧ (at_ s).result = .error e)
      (fun s => drainWalk w (onWalk w (fun x => x.fail 1 x.readNext) (at_ s).state))))
  ∧ (∀ (w o : Nat) (j : LegJob),
    happens .legStart
      (fun s => s.arg.core = w ∧ s.arg.a = o ∧ w < 8 ∧ legAt s w o = some j ∧ canStartLeg s w j = true ∧ legStartFault s (walkAt s w) j.leg = none
        ∧ j.leg.listen = false ∧ j.leg.mc = false)
      (fun s =>
        let x := walkAt s w
        let h := x.hop j.leg.hop
        { setWalk w ((x.setHop j.leg.hop { h with infc := h.infc + j.leg.cells }).setLeg
            { j with state := .moving, arrive := s.now + Config.fetchLatency s.tick }).touchMark s with tick := s.tick + 1 })
    ∧ happens .legStart (fun s => s.arg.core = w ∧ s.arg.a = o ∧ w < 8 ∧ legAt s w o = some j ∧ (s.now : Int) < j.dueAt - ((walkAt s w).hop j.leg.hop).lead.toNat) id
    ∧ happens .controlLeg
      (fun s => s.arg.core = w ∧ w < 8 ∧ (walkAt s w).state = .running ∧ (walkAt s w).legs.find? (·.unstarted) = some j ∧ j.leg.hop = 6)
      (fun s => setWalk w { walkAt s w with
        legs := (walkAt s w).legs.filter fun k => k.order != j.order, origin := (walkAt s w).origin + BitVec.ofNat 64 j.leg.due, readNext := 0
        wraps := (walkAt s w).wraps + 1 : Walk }.touchMark s)
    ∧ happens .controlLeg
      (fun s => s.arg.core = w ∧ w < 8 ∧ (walkAt s w).state = .running ∧ (walkAt s w).legs.find? (·.unstarted) = some j ∧ j.leg.hop = 7)
      (fun s => drainWalk w (setWalk w { walkAt s w with legs := (walkAt s w).legs.filter fun k => k.order != j.order } s))
    ∧ (∀ s, s.arg.core = w → s.arg.a = o → w < 8 → legAt s w o = some j → canSend s w j = true →
        let s1 : State := { onWalk w (fun x => { x with sent := (j.leg.group, j.leg.legno) :: x.sent }) s with
          notices := s.notices.filter fun n => !(decide (n.group = j.leg.group) && decide (n.legno = j.leg.legno)) }
        let m := readLegCells w j.leg j.leg.cells 0 s1
        m.2.2 = none → s.members = [] →
        exec .sourceLegSend s = .next (pumpLeg w o ((onWalk w (fun x => x.setLeg { j with state := .moving, held := m.2.1, spoil := false })
          { m.1 with tick := m.1.tick + 1 }).raise
            (m.2.1.map fun c => (groupWalks s j.leg.group).map (legCellEvent (s.ownModule * 8 + w) j.leg.group j.leg.legno j.leg.cells c)).flatten)))
    ∧ (∀ s, s.arg.core = w → s.arg.a = o → w < 8 → legAt s w o = some j → canSend s w j = false → exec .sourceLegSend s = .next s)
    ∧ (∀ s t, legAt s w o = some j → j.done = false → heldBack s w j = false → legWriteHeld s w j.leg = false → putHeldCells w j.leg j.moved j.held s = (t, none) →
        j.moved + j.held.length = j.leg.cells → j.spoil = false →
        pumpLeg w o s = onWalk w (fun x => x.setLeg { j with state := .written, arrive := t.now, moved := j.leg.cells, held := [] }) t)
    ∧ (∀ s, legAt s w o = some j → (heldBack s w j = true ∨ legWriteHeld s w j.leg = true) → pumpLeg w o s = s)
    ∧ (∀ s, s.tiers.blocked = [] → legReadHeld s w j.leg = false ∧ legWriteHeld s w j.leg = false)
    ∧ happens .multicastSilence
      (fun s => s.arg.core = w ∧ s.arg.a = o ∧ w < 8 ∧ legAt s w o = some j ∧ j.state = .open_ ∧ j.dueAt + 2 ^ 24 ≤ (s.now : Int)) (failLeg w j 7)
    ∧ happens .legLand
      (fun s => s.arg.core = w ∧ s.arg.a = o ∧ w < 8 ∧ legAt s w o = some j ∧ canMove s w j = true
        ∧ (moveCells w j.leg (j.leg.cells - j.moved) j.moved s).2 = none)
      (fun s =>
        let m := (moveCells w j.leg (j.leg.cells - j.moved) j.moved s).1
        onWalk w (fun x => x.setLeg { j with state := .written, arrive := m.now, moved := j.leg.cells, held := [] }) { m with tick := m.tick + 1 })
    ∧ happens .legLand (fun s => s.arg.core = w ∧ s.arg.a = o ∧ w < 8 ∧ legAt s w o = some j ∧ canLand s w j = true) (landLeg w j)
    ∧ happens .legLand (fun s => s.arg.core = w ∧ s.arg.a = o ∧ w < 8 ∧ legAt s w o = some j ∧ j.state = .signalling) (signalLeg w j)
    ∧ (∀ s, j.leg.semen = false →
        let x := (walkAt s w).shrink j
        let y := x.setHop j.leg.hop ((x.hop j.leg.hop).landed j.arrive j.dueAt)
        landLeg w j s = retireLeg w j (mapCores (paceCore y w j.leg.hop) (setWalk w y s)))
    ∧ (∀ s k, canLand s w j = true → k ∈ (walkAt s w).legs → k.state = .written → k.arrive ≤ j.arrive →
        j.arrive < s.now ∧ (k.arrive = j.arrive → j.order ≤ k.order) ∧ k.arrive = j.arrive))
  ∧ (∀ (m : Word) (s : State), s.arg.data = .word m →
      let n : Notice := { group := s.arg.a, legno := s.arg.b, module := m.toNat, walk := s.arg.core }
      ((∀ w, w < 8 → (n.group, n.legno) ∉ (walkAt s w).sent) → n ∉ s.notices → exec .readyNotice s = .next { s with notices := s.notices ++ [n] })
      ∧ ((∃ w, w < 8 ∧ (n.group, n.legno) ∈ (walkAt s w).sent) → exec .readyNotice s = .next (answerGone n s)))
  ∧ (∀ (w : Nat) (j : LegJob),
    happens .goneAnswer (fun s => s.arg.core = w ∧ w < 8 ∧ (walkAt s w).legs.find? (fun j => j.leg.listen && decide (j.state = .open_)
        && decide (j.leg.group = s.arg.a) && decide (j.leg.legno = s.arg.b)) = some j) (failLeg w j 6)
    ∧ ∀ (c : CellData) (bad : Bool),
      let rest (s : State) : State :=
        { s with notices := s.notices.filter fun m => !(decide (m.group = s.arg.a / 2 ^ 32 % 2 ^ 12) && decide (m.legno = s.arg.a % 2 ^ 32)) }
      let taker (s : State) := listening (walkAt s w) (s.arg.a / 2 ^ 44) (s.arg.a / 2 ^ 32 % 2 ^ 12) (s.arg.a % 2 ^ 32)
      happens .multicastCellArrival (fun s => s.arg.core = w ∧ w < 8 ∧ s.arg.data = .legCell c bad ∧ taker s = none)
        (fun s => onWalk w (fun x => { x with drop := min (x.drop + 1) (2 ^ 32 - 1) }) (rest s))
      ∧ happens .multicastCellArrival (fun s => s.arg.core = w ∧ w < 8 ∧ s.arg.data = .legCell c bad ∧ taker s = some j ∧ s.arg.b ≠ j.leg.cells)
        (fun s => failLeg w j 6 (rest s))
      ∧ happens .multicastCellArrival (fun s => s.arg.core = w ∧ w < 8 ∧ s.arg.data = .legCell c bad ∧ taker s = some j ∧ s.arg.b = j.leg.cells)
        (fun s => pumpLeg w j.order (onWalk w (fun x => x.setLeg { j with state := .moving, source := some (s.arg.a / 2 ^ 44), held := j.held ++ [(c, bad)] }) (rest s)))
      ∧ ∀ (x : Walk) src, j.state = .moving → j.source ≠ some src → listening x src j.leg.group j.leg.legno ≠ some j)
  ∧ (∀ w c e n, happens .markFire (fun s => s.arg.core = w ∧ w < 8 ∧ (walkAt s w).mark = some (c, e, n) ∧ markReady (walkAt s w) = true)
      (fun s => settleWalk w (onCore c (raiseFlag e) (setWalk w { walkAt s w with mark := none, markHit := none } s))))
  ∧ (∀ (h : Hop) (now : Nat) (d : Int), -(2 ^ 31) ≤ (now : Int) - d → (now : Int) - d < 2 ^ 31 →
      (h.landed now d).late = (now : Int) - d ∧ (h.landed now d).infc = h.infc
      ∧ ((now : Int) ≤ d → (h.landed now d).lcnt = h.lcnt) ∧ (d < (now : Int) → h.lcnt.toNat < 2 ^ 32 - 1 → (h.landed now d).lcnt = h.lcnt + 1))
  ∧ ∀ s, 8 ≤ s.arg.core → exec .legRead s = .fault .noSuchAgent

/-- A decision with no head packet changes nothing but its time; the first head that fits the free cores that no other packet holds is placed,
one that does not is served by pre-emption, for which freed cores are then held until it is placed (how the hold is kept is the model's
reading, log entries 32 and 47); an overdue packet is counted and kept or, with DROPLATE, leaves its queue; the balancer looks at each
running job in turn at each multiple of 4,096 cycles (the multiples are the model's reading, log entry 32), grants free cores that no head
will take and then moves at most one; the oldest record of a stage queue goes to the inbox of its target core, whose waiting TAKE completes;
an ending job that holds no core retires; the gatherer polls its rings in ascending number, reads the rows between HEAD and TAIL, appends
each to the open batch of its swarm and writes HEAD, and emits a batch with its number. (R343, R344, R345, R346, R347, R350, R353, R354,
R355, R361) -/
def Obligations.SchedulerEvents : Prop :=
  (∀ s, ∃ t, exec .schedulerDecision s = .next t ∧ t = decision s ∧ (orderedHeads s = [] → s.thermal.tripped = false →
      t.core = s.core ∧ t.others = s.others ∧ t.mem = s.mem ∧ t.sched = { s.sched with lastDecision := s.now, heldFor := none }))
  ∧ (∀ (s : State) (q : Nat) (p : Packet),
      let u : State := { s with sched := { s.sched with lastDecision := s.now } }
      orderedHeads u = [(q, p)] → u.thermal.tripped = false → fits u p (freeCores u).length = true → u.sched.heldFor = none →
      exec .schedulerDecision s = .next { placePacket q p u with sched := { (placePacket q p u).sched with heldFor := none } })
  ∧ (∀ (s : State) (q : Nat) (p : Packet) (rest : List (Nat × Packet)),
      let u : State := { s with sched := { s.sched with lastDecision := s.now } }
      let v : State := { u with sched := { u.sched with heldFor := liveHold u } }
      orderedHeads u = (q, p) :: rest → u.thermal.tripped = false →
      (fitsFree v q p = true → exec .schedulerDecision s = .next (placeHeld q p v))
      ∧ (fitsFree v q p = false → v.sched.heldFor ≠ none → requestsPending v = true → exec .schedulerDecision s = .next v)
      ∧ (fitsFree v q p = false → (v.sched.heldFor = none ∨ (isHeldFor v q p = true ∧ requestsPending v = false)) →
          (∀ t, preemptFor q p v = some t → exec .schedulerDecision s = .next t ∧ t.sched.heldFor = some (q, p))
          ∧ (preemptFor q p v = none → (∀ x ∈ rest, fitsFree v x.1 x.2 = false) → exec .schedulerDecision s = .next v)))
  ∧ (∀ (s : State) (q : Nat) (p : Packet),
      (s.sched.heldFor = none → fitsFree s q p = fits s p (freeCores s).length)
      ∧ (∀ h, s.sched.heldFor = some h → h ≠ (q, { p with late := h.2.late }) → fitsFree s q p = fits s p ((freeCores s).length - (needs s h.2).1))
      ∧ (s.sched.heldFor = some (q, p) → fitsFree s q p = fits s p (freeCores s).length ∧ (placeHeld q p s).sched.heldFor = none))
  ∧ (∀ (s : State) (h : Nat × Packet), s.sched.heldFor = some h → (headPacket s h.1).isNone = true → liveHold s = none)
  ∧ (∀ (s : State) (q : Nat) (p : Packet), q < 64 → s.arg.a = q → (launchQueue s q).packets = [p] → p.late = false → pktDeadline p.data < s.now →
      (pktDropLate p.data = false →
        ∃ t, exec .packetDeadline s = .next t ∧ (launchQueue t q).packets = [{ p with late := true }] ∧ t.mem = s.mem ∧ t.core = s.core
          ∧ (s.sched.latec.toNat < 2 ^ 32 - 1 → t.sched.latec = s.sched.latec + 1))
      ∧ (pktDropLate p.data = true → p.job = none → pktCompl p.data = 0 →
        ∃ t, exec .packetDeadline s = .next t ∧ (launchQueue t q).packets = [] ∧ t.mem = s.mem ∧ t.core = s.core ∧ t.sched.latec = s.sched.latec))
  ∧ (∀ s, s.sched.jobs = [] → ∃ t, exec .balancer s = .next t ∧ t = { s with sched := { s.sched with lastBalance := s.now / 4096 * 4096 } })
  ∧ (∀ (s : State) (x : Job), s.sched.jobs = [x] → x.state = .running →
      ∃ t, exec .balancer s = .next t ∧ t = balanceJob x.num { s with sched := { s.sched with lastBalance := s.now / 4096 * 4096 } })
  ∧ (∀ (s : State) (x y : Job) (l : List Job), s.sched.jobs = x :: y :: l →
      exec .balancer s = .next ((x.num :: y.num :: l.map (·.num)).foldl (fun t j => balanceJob j t)
        { s with sched := { s.sched with lastBalance := s.now / 4096 * 4096 } }))
  ∧ (∀ (s : State) (x : Job), jobAt s x.num = some x →
      (x.state ≠ .running → balanceJob x.num s = s)
      ∧ (∀ n, x.state = .running → n ∈ jobCores s x.num → ((coreAt n s).any fun c => c.preemptReq) = false →
          let r := grantRounds x 192 s []
          balanceJob x.num s = moveOne x r.2 r.1
          ∧ ((freeCores s).length ≤ reservedCores s → r = (s, []))
          ∧ ((∀ k < x.stages.length, isNeedy s x k = false ∧ isBackedUp s x k = false) → r = (s, []))))
  ∧ (∀ (s : State) (x : Job) (g : Stage) (r : TaskRec) (l : List TaskRec) (n : Nat),
      jobAt s s.arg.a = some x → x.stages[s.arg.b]? = some g → g.records = r :: l → targetCore s r.cell (stageCores s s.arg.a s.arg.b) = some n →
      exec .recordDispatch s = .next (onCore n (fun t => serveTake (t.setCore { t.core with inbox := t.core.inbox ++ [r] }))
        (onStage s.arg.a s.arg.b (fun g => { g with records := l }) s)))
  ∧ (∀ (s : State) (a : Nat) (d : SDst) (r : TaskRec) (l : List TaskRec), waitsOn s .ctl = some (.take a d) → s.core.inbox = r :: l →
      serveTake s = resume .ctl (some (d, r.origin)) ((storeCellBy .ctl 0 a { bytes := r.cell, tag := 0 } s).setCore
        { (storeCellBy .ctl 0 a { bytes := r.cell, tag := 0 } s).core with inbox := l }))
  ∧ (∀ (s : State) (x : Job), jobAt s s.arg.a = some x → jobCores s s.arg.a = [] → x.state = .ending → pktCompl x.packet = 0 →
      (∀ w, w < 8 → (walkAt s w).job ≠ some x.num) →
      ∃ t, exec .jobRetire s = .next t ∧ t.sched.jobs = s.sched.jobs.filter (fun y => y.num != s.arg.a) ∧ t.core = s.core ∧ t.mem = s.mem)
  ∧ (∀ s, exec .swarmRingPoll s = .next ((List.range 16).foldl (fun t i => pollRing i t) { s with gather := { s.gather with lastPoll := s.now } }))
  ∧ (∀ (s : State), (∀ i : Fin 16, (s.gather.rings[i]).en = false) → exec .swarmRingPoll s = .next { s with gather := { s.gather with lastPoll := s.now } })
  ∧ (∀ (i : Fin 16) (v : Nat) (s : State),
      let r := s.gather.rings[i]
      let a : Access := { asid := r.asid, root := r.root, job := false, write := false }
      let log2 := v / 2 ^ 64 % 2 ^ 8
      let tail := v / 2 ^ 128 % 2 ^ 64
      let head := v / 2 ^ 192 % 2 ^ 64
      let m := gatherRows a (v % 2 ^ 64) log2 (min ((tail + 2 ^ 64 - head) % 2 ^ 64) (2 ^ log2)) head (countSched a r.desc 64 s)
      r.en = true → schedNum a s r.desc 64 = some v → v % 64 = 0 → 4 ≤ log2 → log2 ≤ 20 → v / 2 ^ 72 % 2 ^ 56 = 0 → v / 2 ^ 256 % 2 ^ 256 = 0 →
      (m.1 = 0 → pollRing i.val s = m.2)
      ∧ ∀ x, m.1 ≠ 0 → (translateBy 0 none (fun t _ => t) m.2 { a with write := true } (r.desc + 24)).result = .ok x →
          pollRing i.val s = memPutBytes m.2 x.pa (bytesOfNum 8 (head + m.1)))
  ∧ (∀ (a : Access) (base log2 x v : Nat) (s : State) (w : Nat),
      let u := countSched a (base + 32 * (x % 2 ^ log2)) 32 s
      schedNum a s (base + 32 * (x % 2 ^ log2)) 32 = some v →
      v < 2 ^ 208 → swarmFor u (BitVec.ofNat 256 v) = some w → (swarmAt u w).openRows.length < 64 * (swarmAt u w).target →
      gatherRows a base log2 1 x s = (1, setSwarm w { swarmAt u w with openRows := (swarmAt u w).openRows ++ [BitVec.ofNat 256 v] } u))
  ∧ ∀ (s : State) (w : Nat), s.arg.a = w → w < 16 →
      (canEmit s (swarmAt s w) = false → exec .batchEmit s = .next s)
      ∧ (canEmit s (swarmAt s w) = true → (∀ p ∈ s.gather.waiters, p.1 ≠ w) →
        ∃ t b, exec .batchEmit s = .next t ∧ (swarmAt t w).openRows = [] ∧ (swarmAt t w).nextBatch = (swarmAt s w).nextBatch + 1
          ∧ (swarmAt t w).emitted = (swarmAt s w).emitted ++ [b] ∧ b.num = (swarmAt s w).nextBatch ∧ b.addr = slotAddr (swarmAt s w) (swarmAt s w).nextBatch.toNat ∧ b.model = (swarmAt s w).model ∧ b.rows = (swarmAt s w).openRows.length
          ∧ (b.full = true ↔ 64 * (swarmAt s w).target ≤ (swarmAt s w).openRows.length))

/-- A command starts when the engine is not frozen and its wait flags are set, and records a fault of its checks; its data arrives and its
transfer is made, its sources being read whole then (the model's reading, log entry 22), while cells for which the landing buffer has no
room wait and go on as room comes; the items of a list finish one by one, each the first or one that may pass the earlier ones, and the
skipped ones are tried once more; a command whose writes have performed publishes its frame, in whatever order, sends its follow-on record
once the writes of earlier commands have performed too and the matrix queue has room, and, when it is the oldest, completes, leaving the
queue for the records; a promise that comes with data missing freezes the core, or marks the request late where the limit is 0, and the
freeze limit ends the freeze; a write into a frame lands where the frame is valid, large enough and clear of the supervisor region, and
otherwise its sender records fault 0x02 or 0x03; a sender in another module is answered. (R152, R153, R154, R155, R159, R169, R170, R175,
R180, R184, R237) -/
def Obligations.CopyEngineEvents : Prop :=
  (∀ c : Cmd,
    happensAt .commandStart (fun t => canStart t = some c ∧ c.cancelled = false ∧ c.fault = 0 ∧ startFault t c = none)
      (fun t => { setCmd { c with
        phase := .fetching, arrive := t.now + Config.fetchLatency t.tick, todo := if c.kind.listed then openItems t c else []
        fmt := ((handleAt t (c.cw[7].toNat / 2 ^ 50)).map fun h => h.fmt.toNat).getD 0 } t with tick := t.tick + 1 })
    ∧ (∀ k, happensAt .commandStart (fun t => canStart t = some c ∧ c.cancelled = false ∧ c.fault = 0 ∧ startFault t c = some k)
      (fun t => recordFault c.seq k 0 (setCmd { c with phase := .landed } t)))
    ∧ happensAt .commandStart (fun t => canStart t = some c ∧ c.cancelled = true) (fun t => setCmd { c with phase := .landed } t)
    ∧ (∀ s, canStart s = some c → c.phase = .queued ∧ s.core.copy.frozenSince = none
        ∧ ∀ i, i < 32 → c.cw[4].getLsbD i = true → s.core.sync.flags.getLsbD i = true)
    ∧ happensAt .cellArrival
      (fun t => t.arg.sec = .copy ∧ liveCmd t (BitVec.ofNat 16 t.arg.a) = some c ∧ c.phase = .fetching ∧ c.kind.listed = false ∧ c.delayed = [])
      (fun t => thaw (onCmd (BitVec.ofNat 16 t.arg.a)
        (fun d => { d with phase := if d.delayed.isEmpty then (if c.timed && decide (t.now < c.promise) then .held else .landed) else d.phase })
        (underPromise (BitVec.ofNat 16 t.arg.a) (wholeXfer c) t)))
    ∧ happensAt .cellArrival
      (fun t => t.arg.sec = .copy ∧ liveCmd t (BitVec.ofNat 16 t.arg.a) = some c ∧ c.phase = .fetching ∧ c.kind.listed = false ∧ c.delayed ≠ [])
      (fun t => thaw (onCmd (BitVec.ofNat 16 t.arg.a)
        (fun d => { d with phase := if d.delayed.isEmpty then (if c.timed && decide (t.now < c.promise) then .held else .landed) else d.phase })
        (drainDelayed (BitVec.ofNat 16 t.arg.a) t)))
    ∧ (∀ s, s.core.copy.queue = [c] → c.delayed ≠ [] →
        let p := if c.timed && decide (s.now < c.promise) then admitted s c.delayed else ([], [])
        (p.2 ≠ [] → drainDelayed c.seq s = setCmd { c with held := c.held ++ p.1, delayed := p.2 } s)
        ∧ (∀ (d : HeldWrite), d ∈ (admitted s c.delayed).1 → d ∈ c.delayed)
        ∧ landingBytes s.core + ((admitted s c.delayed).1.filter (·.isByte)).length ≤ max (landingBytes s.core) 524288)
    ∧ (∀ i, happensAt .listedItemFinish (fun t => liveCmd t (BitVec.ofNat 16 t.arg.a) = some c ∧ c.delayed = [] ∧ c.todo[itemTurn t.tick c]? = some i)
      (fun t => endListed (BitVec.ofNat 16 t.arg.a) (doItem (BitVec.ofNat 16 t.arg.a) i false
        { setCmd { c with todo := c.todo.eraseIdx (itemTurn t.tick c), arrive := t.now + Config.fetchLatency t.tick } t with tick := t.tick + 1 })))
    ∧ happensAt .listedItemFinish (fun t => liveCmd t (BitVec.ofNat 16 t.arg.a) = some c ∧ c.delayed ≠ [])
      (fun t => endListed (BitVec.ofNat 16 t.arg.a) (drainDelayed (BitVec.ofNat 16 t.arg.a) t))
    ∧ (∀ tick, c.todo ≠ [] → itemTurn tick c < c.todo.length ∧ (itemTurn tick c ≠ 0 → ∃ i, c.todo[itemTurn tick c]? = some i
        ∧ mayPass c (c.todo.take (itemTurn tick c)) i = true))
    ∧ happensAt .tolerantRetry (fun t => liveCmd t (BitVec.ofNat 16 t.arg.a) = some c ∧ c.retried = false)
      (fun t => endListed (BitVec.ofNat 16 t.arg.a) (c.skipped.foldl (fun u i => doItem (BitVec.ofNat 16 t.arg.a) i true u) (setCmd { c with retried := true } t)))
    ∧ happensAt .commandComplete
      (fun t => liveCmd t (BitVec.ofNat 16 t.arg.a) = some c ∧ c.phase = .landed ∧ unacked t c.seq = false ∧ c.puben = true ∧ c.published = false)
      (fun t => publishFrame c.pubfrm (setCmd { c with published := true } t))
    ∧ (∀ rest, happensAt .commandComplete
      (fun t => t.core.copy.queue = c :: rest ∧ c.seq = BitVec.ofNat 16 t.arg.a ∧ c.phase = .landed ∧ unacked t c.seq = false
        ∧ (c.puben = false ∨ c.published = true) ∧ (c.follow = false ∨ c.fault ≠ 0 ∨ c.followed = true)) completeHead)
    ∧ (∀ s rest, s.core.copy.queue = c :: rest → c.ctren = false → c.cw[4].toNat / 2 ^ 32 = 0 → c.sem = none → c.bitmap = none → (∀ t, waitsOn s t = none) →
        (completeHead s).core.copy.queue = rest ∧ (completeHead s).core.copy.records = c :: s.core.copy.records ∧ (completeHead s).mem = s.mem
        ∧ sameScratch (completeHead s).core s.core)
    ∧ (∀ s, mayFollow s c = true ↔ c.follow = true ∧ c.fault = 0 ∧ c.followed = false ∧ (c.puben = false ∨ c.published = true)
        ∧ (c.phase = .landed ∧ unacked s c.seq = false) ∧ (∀ d ∈ earlierCmds s c, d.phase = .landed ∧ unacked s d.seq = false)
        ∧ s.core.mat.queue.length < 32)
    ∧ happensAt .followOnArrival
      (fun t => liveCmd t (BitVec.ofNat 16 t.arg.a) = some c ∧ mayFollow t c = true ∧ c.cw[14].toNat / 2 ^ 62 ≠ 3
        ∧ wordReason t.core.mat (c.cw[14].toNat / 2 ^ 62) c.cw[14] = none ∧ ∀ r ∈ wordRanges t.core.mat c.cw[14], touchesSr t.core r.1 r.2 = false)
      (fun t => enterMat c.cw[14] true (setCmd { c with followed := true } t))
    ∧ (∀ r, happensAt .followOnArrival
      (fun t => liveCmd t (BitVec.ofNat 16 t.arg.a) = some c ∧ mayFollow t c = true ∧ c.cw[14].toNat / 2 ^ 62 ≠ 3
        ∧ wordReason t.core.mat (c.cw[14].toNat / 2 ^ 62) c.cw[14] = some r)
      (fun t => matFault 0x01 r c.cw[14] true t.core.mat.mseq (setCmd { c with followed := true } t))))
  ∧ happensAt .cellArrival (fun t => t.arg.sec = .ctl ∧ t.core.copy.frozenSince = none)
      (fun t => t.onStr .ctl fun st => { st with flds := st.flds.map fun f => if f.id = t.arg.a then { f with arrived := true } else f })
  ∧ happensAt .promiseDue (fun t => (∀ c ∈ t.core.copy.queue, c.dueHeld t.now = false) ∧ missingNow t = false) id
  ∧ happensAt .promiseDue
      (fun t => (∀ c ∈ t.core.copy.queue, c.dueHeld t.now = false) ∧ missingNow t = true ∧ t.core.copy.frozenSince = none ∧ t.core.copy.frzl ≠ 0)
      (fun t => t.setEngine { t.core.copy with frozenSince := some t.now
                                               frzc := if t.core.copy.frzc = BitVec.allOnes 32 then t.core.copy.frzc else t.core.copy.frzc + 1 })
  ∧ happensAt .promiseDue
      (fun t => (∀ c ∈ t.core.copy.queue, c.dueHeld t.now = false) ∧ missingNow t = true ∧ t.core.copy.frozenSince = none ∧ t.core.copy.frzl = 0) markLate
  ∧ happensAt .freezeLimit (fun t => t.core.copy.frozenSince ≠ none) markLate
  ∧ (∀ s, (markLate s).core.copy.frozenSince = none)
  ∧ (∀ (w : RemoteWrite) (s t : State), s.arg.data = .write w → focus w.core s = some t →
      let f := t.core.frames[w.frame]
      let a := frameBase f true + w.off
      let n := max 1 w.bytes.length
      let fits := frmValid f = true ∧ w.off + n ≤ frmSize f
      (fits → touchesSr t.core a n = false → w.poison = false → w.tag = none →
        let u := onCore w.core (fun _ => t.setCore (spadPutBytes t.core a w.bytes)) s
        (w.module = s.ownModule → exec .incomingWrite s = .next u)
        ∧ (w.module ≠ s.ownModule → exec .incomingWrite s = .next (u.send w.module (.acked w.who 0))))
      ∧ (∀ k, ((¬ fits ∧ k = 2) ∨ (fits ∧ touchesSr t.core a n = true ∧ k = 3)) →
        (∀ m q i, w.module = s.ownModule → w.who = .command m q i → exec .incomingWrite s = .next (onCore m (recordFault q k i) s))
        ∧ (w.module ≠ s.ownModule → exec .incomingWrite s = .next (s.send w.module (.acked w.who k)))))

/-- An entry leaves the head of the queue only while the core is not frozen and no mark stands there, but that an MMUL behind the mark finds its
pace; a WLOAD reads the shard and begins the fill, which ends loaded or in its fault, its flags accrued; a WFLIP exchanges the combs or
faults; each then counts its counter down where its word names one and no reload of a context made it; an MMUL waits for its pace, takes its
sequence number and its sums and lands them in the working bank when it finishes; a check ends its sample, and equal columns count one
check; a matrix fault fills the record. (R223, R224, R225, R226, R233, R234, R235, R238, R306, R308) -/
def Obligations.MatrixAndAuditEvents : Prop :=
  (∀ e : MatEntry,
    (∀ s k, leaves s k = some e → (∃ l, s.core.mat.queue = e :: l) ∧ e.word.toNat / 2 ^ 62 = k ∧ s.core.copy.frozenSince = none
        ∧ (s.core.mat.mark = some 0 → k = 0 ∧ s.core.mat.paceUntil = none))
    ∧ happensAt .wloadDispatch (fun t => leaves t 1 = some e) (dispatchWload e)
    ∧ (∀ s, leaves s 1 = some e →
        (dispatchWload e s).core.mat.queue = s.core.mat.queue.drop 1 ∧ (dispatchWload e s).core.mat.fillState = .loading
        ∧ (dispatchWload e s).core.mat.filling.groups = (combGroups (cfgWw s.core.mat.cfg) (matCell s (cmdBand e.word))).1
        ∧ ((dispatchWload e s).core.mat.fill.map (·.ends)) = some (s.ccc + shardBytes s.core.mat.cfg / 1024)
        ∧ (dispatchWload e s).core.mat.bank0 = s.core.mat.bank0 ∧ (dispatchWload e s).core.mat.bank1 = s.core.mat.bank1
        ∧ (dispatchWload e s).core.mat.resident.groups = s.core.mat.resident.groups ∧ (dispatchWload e s).core.mat.residentValid = s.core.mat.residentValid)
    ∧ happensAt .wflipDispatch
      (fun t => leaves t 2 = some e ∧ t.core.mat.fillState = .loaded ∧ t.core.mat.resident.record.samp = false)
      (fun t => finishEntry e (t.setMat { t.core.mat with
        queue := t.core.mat.queue.drop 1, mark := t.core.mat.mark.map (fun k => k - 1), residentValid := true, resident := t.core.mat.filling
        fillState := .empty, filling := { record := CombRecord.reset, groups := t.core.mat.resident.groups } }))
    ∧ happensAt .wflipDispatch (fun t => leaves t 2 = some e ∧ t.core.mat.fillState ≠ .loaded)
      (fun t => finishEntry e (matFault 0x11 0 e.word e.fol t.core.mat.mseq
        (t.setMat { t.core.mat with queue := t.core.mat.queue.drop 1, mark := t.core.mat.mark.map (fun k => k - 1) })))
    ∧ happensAt .mmulDispatch (fun t => leaves t 0 = some e ∧ t.core.mat.paceUntil = none ∧ (0 < paceLevel t.core.mat ∨ t.core.mat.mark = some 0))
      (fun t => t.setMat { t.core.mat with paceUntil := some (t.ccc + 64 * (2 ^ paceLevel t.core.mat - 1)) })
    ∧ (∀ s t, focus s.arg.core s = some t → leaves t 0 = some e → (t.core.mat.paceUntil ≠ none ∨ (paceLevel t.core.mat = 0 ∧ t.core.mat.mark ≠ some 0)) →
        t.core.mat.residentValid = true →
        mmulFault t e = none → t.core.mat.resident.record.samp = false →
        ∃ u job, exec .mmulDispatch s = .next (onCore s.arg.core (fun _ => u) s) ∧ u.core.mat.queue = t.core.mat.queue.drop 1
          ∧ u.core.mat.mseq = t.core.mat.mseq + 1 ∧ u.core.mat.running = t.core.mat.running ++ [job] ∧ job.entry = e ∧ job.sums = some (tileSums t e).1
          ∧ job.lastPlane = t.ccc + cfgRows t.core.mat.cfg * cfgPlanes t.core.mat.cfg - 1 ∧ job.lastPlane < job.finish ∧ job.finish ≤ job.lastPlane + 48
          ∧ workBank u.core.mat = workBank t.core.mat ∧ u.mem = t.mem ∧ sameScratch u.core t.core))
  ∧ (∀ (job : MmulJob) (l : List MmulJob) (s t : State), focus s.arg.core s = some t → t.core.mat.running = job :: l →
      ∃ u, exec .mmulFinish s = .next (onCore s.arg.core (fun _ => u) s) ∧ u.core.mat.running = l
        ∧ workBank u.core.mat = (landTile t.core.mat.cfg job (workBank t.core.mat)).1 ∧ visBank u.core.mat = visBank t.core.mat ∧ sameScratch u.core t.core)
  ∧ (∀ (job : MmulJob) (old sum : BitVec 32) (j : Nat), job.entry.word.getLsbD 40 = false → job.entry.word.getLsbD 41 = false →
      (landElement job old sum j).code = sum)
  ∧ (∀ f, happensAt .wloadFillEnd (fun t => t.core.mat.fill = some f ∧ f.fault = none)
      (fun t => finishEntry f.entry (accrueTo .mat f.flags (t.setMat { t.core.mat with fill := none, fillState := .loaded }))))
  ∧ (∀ f k, happensAt .wloadFillEnd
      (fun t => t.core.mat.fill = some f ∧ f.fault = some k ∧ t.core.mat.filling.record.samp = false)
      (fun t => finishEntry f.entry (matFault k 0 f.entry.word f.entry.fol t.core.mat.mseq (accrueTo .mat f.flags
        (t.setMat { t.core.mat with fill := none, fillState := .empty, filling := { t.core.mat.filling with record := CombRecord.reset } })))))
  ∧ (∀ (e : MatEntry) (s : State),
      ((e.reload = true ∨ e.word.getLsbD 61 = false) → finishEntry e s = s)
      ∧ (e.reload = false → e.word.getLsbD 61 = true → finishEntry e s = counterDown (e.word.toNat / 2 ^ 56 % 32) s))
  ∧ (∀ (c : Fin 32) (s : State), (∀ t n, waitsOn s t ≠ some (.counter c.val n)) →
      counterDown c.val s = s.setSync { s.core.sync with counters := s.core.sync.counters.set c (s.core.sync.counters[c] - 1) })
  ∧ (∀ (x : AuditSample) (tap : AuditTap) (s t : State), focus s.arg.core s = some t → t.core.audit.sample = some x → x.tap = some tap → t.core.audit.mode = 2 →
      let cols := (List.range x.ncols).map fun i => checkColumn x tap i
      (∀ c ∈ cols, c.re = c.dev) →
      exec .auditCheckEnd s = .next (onCore s.arg.core (fun _ =>
        t.setAudit { t.core.audit with checked := min (t.core.audit.checked + 1) (2 ^ 32 - 1), sample := none }) s))
  ∧ (∀ (x : AuditSample) (tap : AuditTap) (s t : State), focus s.arg.core s = some t → t.core.audit.sample = some x → x.tap = some tap →
      ∃ u, exec .auditCheckEnd s = .next (onCore s.arg.core (fun _ => u) s) ∧ u.core.audit.sample = none ∧ u.core.audit.lfsr = t.core.audit.lfsr
        ∧ sameScratch u.core t.core ∧ u.mem = t.mem)
  ∧ ∀ (w : Word) (fol : Bool) (seq : BitVec 32) (s : State) (k r : Nat), s.core.mat.mflt.pend = false → w.getLsbD 55 = false →
      matFault k r w fol seq s = s.setMat { s.core.mat with mflt :=
        { pend := true, fol := fol, more := 0, code := BitVec.ofNat 8 k, reason := BitVec.ofNat 8 r, kind := BitVec.ofNat 2 (w.toNat / 2 ^ 62), seq := seq } }

/-- A trap that its stream delegates enters the job handler with INH set, the mode, nest state, cause, record and entry pc saved and the pc at
TVEC in interlocked mode; every other trap of the ctl stream enters supervisor mode with the same record in the supervisor registers, or
stops the core in supervisor mode and where there is no region; every other trap of another stream parks it and pends for the ctl stream;
registers, memory, scratchpad and the other streams are left alone. (R370, R372, R373, R374) -/
def Obligations.TrapEntry : Prop :=
  (∀ (t : Sec) (r : TrapRec) (pc : BitVec 22) (s : State), (s.str t).waiting = none → s.core.mat.mark = none →
    (toJobHandler s t r.cause = true →
      let u := takeTrap t r pc s
      (u.str t).pc = (s.str t).trap.vec ∧ (u.str t).mode = true ∧ (u.str t).priv = (s.str t).priv ∧ (u.str t).trap.inh = true
        ∧ (u.str t).trap.pmode = (s.str t).mode ∧ (u.str t).trap.nact = (s.str t).job.nest.active ∧ (u.str t).trap.cause = BitVec.ofNat 8 r.cause
        ∧ (u.str t).trap.info = r.info ∧ (u.str t).trap.addr = r.addr ∧ (u.str t).trap.epc = pc ∧ (u.str t).strap = (s.str t).strap
        ∧ (u.str t).job.nest.active = false ∧ (u.str t).job.regs = (s.str t).job.regs ∧ (u.str t).job.q = (s.str t).job.q
        ∧ u.mem = s.mem ∧ sameScratch u.core s.core ∧ ∀ t', t' ≠ t → u.str t' = s.str t')
    ∧ (t = .ctl → toJobHandler s t r.cause = false → (s.str .ctl).priv = false → s.core.srbase.toNat < s.core.srlim.toNat →
      let u := takeTrap t r pc s
      (u.str .ctl).pc = (s.str .ctl).strap.vec / 4 * 4 ∧ (u.str .ctl).mode = true ∧ (u.str .ctl).priv = true ∧ (u.str .ctl).strap.inh = true
        ∧ (u.str .ctl).strap.ppriv = false ∧ (u.str .ctl).strap.pmode = (s.str .ctl).mode ∧ (u.str .ctl).strap.cause = BitVec.ofNat 8 r.cause
        ∧ (u.str .ctl).strap.info = r.info ∧ (u.str .ctl).strap.addr = r.addr ∧ (u.str .ctl).strap.epc = pc ∧ (u.str .ctl).trap = (s.str .ctl).trap
        ∧ (u.str .ctl).job.regs = (s.str .ctl).job.regs ∧ (u.str .ctl).sup.regs = (s.str .ctl).sup.regs ∧ u.mem = s.mem ∧ sameScratch u.core s.core
        ∧ ∀ t', t' ≠ Sec.ctl → u.str t' = s.str t')
    ∧ (t ≠ .ctl → toJobHandler s t r.cause = false →
      let u := takeTrap t r pc s
      (u.str t).pc = pc ∧ (u.str t).parked = some { byTrap := some r } ∧ (u.str t).park = r ∧ u.core.pendParked.get t = true
        ∧ (u.str t).job.regs = (s.str t).job.regs ∧ u.mem = s.mem ∧ sameScratch u.core s.core ∧ ∀ t', t' ≠ t → u.str t' = s.str t')
    ∧ (t = .ctl → toJobHandler s t r.cause = false → (∀ t', remoteOf s t' = none) → ((s.str .ctl).priv = true ∨ s.core.srlim.toNat ≤ s.core.srbase.toNat) →
      let u := takeTrap t r pc s
      u.core.stop = true ∧ (∀ t', (u.str t').parked.isSome = true) ∧ (u.str .ctl).pc = pc ∧ u.pending = s.pending ++ [coreStopEvent s.core.num r]
        ∧ u.mem = s.mem ∧ sameScratch u.core s.core))
  ∧ (∀ (s : State) (t : Sec) (c : Nat), toJobHandler s t c = true ↔
      (s.str t).priv = false ∧ (s.str t).trap.inh = false ∧ (s.str t).trap.vec ≠ 0
        ∧ ((delegable c = true ∧ (s.str t).tdlg.getLsbD c = true) ∨ (c = 0x18 ∧ s.core.audit.owner = 0)))
  ∧ ∀ c, delegable c = true ↔ c ∈ [0x01, 0x03, 0x04, 0x05, 0x07, 0x08, 0x09, 0x0A, 0x0B, 0x0C, 0x0D, 0x0E, 0x0F, 0x11, 0x12, 0x1A] ∨ (0x20 ≤ c ∧ c ≤ 0x3F)

/-- A trap set aside is taken at the boundary of its stream once every far load has landed, but that a missed promise is taken while only late
far loads are in flight (the model's reading, log entry 20); the watchdog pends at its cycle and becomes 0; a doorbell pends when it is
enabled; the watchdog is delivered before the other causes and the host interrupt after them, and nothing is delivered in supervisor mode;
an FLD fills its slot, and one whose data is uncorrectable sets the poison trap aside with its own pc (the model's reading, log entry 21); a
vector result sets its flags as it lands, and the trap of a vector load stands for its stream then; a walk that a hint began fills the TLB.
(R48, R69, R104, R373, R375, R376, R388, R391) -/
def Obligations.TrapEvents : Prop :=
  (∀ (r : Deferred) (l : List Deferred), happensAt .trapEntry
      (fun t => (t.str t.arg.sec).deferred = r :: l ∧ canTake t t.arg.sec r.record = true ∧ remoteOf t t.arg.sec = none ∧ isMatrixRec r.record = false)
      (fun t => takeTrap t.arg.sec r.record (r.pc.getD (t.str t.arg.sec).pc) (t.onStr t.arg.sec fun st => { st with deferred := l })))
  ∧ (∀ (r : Deferred) (l : List Deferred), happensAt .trapEntry
      (fun t => (t.str t.arg.sec).deferred = r :: l ∧ canTake t t.arg.sec r.record = false) id)
  ∧ happensAt .trapEntry (fun t => (t.str t.arg.sec).deferred = []) id
  ∧ (∀ (s : State) (t : Sec) (r : TrapRec), canTake s t r = true ↔ isStarted s t = true
      ∧ ((s.str t).flds = [] ∨ (r.cause = 0x11 ∧ ∀ f ∈ (s.str t).flds, f.late = true)))
  ∧ (∀ c, happensAt .watchdogExpiry (fun t => t.core.wdog = c ∧ c ≠ 0 ∧ c.toNat ≤ t.now ∧ t.core.pendWatchdog = none)
      (fun t => t.setCore { t.core with pendWatchdog := some c, wdog := 0 }))
  ∧ happensAt .watchdogExpiry (fun t => t.core.wdog = 0 ∨ t.now < t.core.wdog.toNat) id
  ∧ happensAt .doorbell (fun t => t.core.dbe = true) (fun t => t.setCore { t.core with pendHost := some (BitVec.ofNat 32 t.arg.a) })
  ∧ happensAt .doorbell (fun t => t.core.dbe = false) id
  ∧ (∀ c, happensAt .asyncTrapDelivery
      (fun t => waitsOn t .ctl = none ∧ (t.core.audit.pend = false ∨ t.core.audit.owner ≠ 2) ∧ canDeliver t = true ∧ t.core.pendWatchdog = some c)
      (fun t => takeTrap .ctl (mkTrap 0x1D 0 c.toNat) (t.str .ctl).pc (t.setCore { t.core with pendWatchdog := none })))
  ∧ (∀ v, happensAt .asyncTrapDelivery
      (fun t => waitsOn t .ctl = none ∧ canDeliver t = true ∧ t.core.pendWatchdog = none ∧ t.core.audit.replicaPend = none ∧ parkedFirst t = none
        ∧ foragerPending t t.core.num = none ∧ t.core.audit.pend = false ∧ t.core.pendPreempt = false ∧ t.core.pendHost = some v)
      (fun t => takeTrap .ctl (mkTrap 0x1C v.toNat 0) (t.str .ctl).pc (t.setCore { t.core with pendHost := none })))
  ∧ happensAt .asyncTrapDelivery (fun t => (t.str .ctl).priv = true ∧ waitsOn t .ctl = none ∧ t.core.audit.pend = false) id
  ∧ (∀ f, happensAt .resultLand
      (fun t => t.arg.sec = .ctl ∧ t.core.streams.ctl.flds.find? (fun f => decide (f.id = t.arg.a)) = some f ∧ f.bad = false)
      (fun t => t.onStr .ctl fun st => { st with
        job := fillBank t.arg.a f.val st.clk st.job, sup := fillBank t.arg.a f.val st.clk st.sup, flds := st.flds.filter fun g => g.id != t.arg.a }))
  ∧ (∀ f, happensAt .resultLand
      (fun t => t.arg.sec = .ctl ∧ t.core.streams.ctl.flds.find? (fun f => decide (f.id = t.arg.a)) = some f ∧ f.bad = true)
      (fun t => t.onStr .ctl fun st => { st with
        job := fillBank t.arg.a f.val st.clk st.job, sup := fillBank t.arg.a f.val st.clk st.sup, flds := st.flds.filter fun g => g.id != t.arg.a
        deferred := st.deferred ++ [{ record := mkTrap 0x05 1 (f.va / 64 * 64), pc := some f.pc }] }))
  ∧ (∀ l, happensAt .resultLand (fun t => t.arg.sec ≠ .ctl ∧ (t.str t.arg.sec).landing[t.arg.a]? = some l ∧ l.trap = none)
      (fun t => t.onStr t.arg.sec fun st => { st with ncs := st.ncs.accrue l.flags, landing := st.landing.eraseIdx t.arg.a })
    ∧ ∀ r, happensAt .resultLand (fun t => t.arg.sec ≠ .ctl ∧ (t.str t.arg.sec).landing[t.arg.a]? = some l ∧ l.trap = some r)
      (fun t => t.onStr t.arg.sec fun st => { st with ncs := st.ncs.accrue l.flags, landing := st.landing.eraseIdx t.arg.a
                                                      deferred := st.deferred ++ [{ record := r.1, pc := some r.2 }] }))
  ∧ (∀ level pte, happensAt .translationWalkEnd
      (fun t => t.arg.a < 2 ^ 56 ∧ walkFrom t (dieOf t.core.num) t.core.asid t.arg.a 3 (bitsOf t.core.ptroot 14 50 * 2 ^ 14) = .leaf level pte ∧ t.arg.b = 1)
      (fun t => fillDie (dieOf t.core.num)
        (walked (dieOf t.core.num) (walkTrace t (dieOf t.core.num) t.core.asid t.arg.a 3 (bitsOf t.core.ptroot 14 50 * 2 ^ 14)) t) { asid := t.core.asid, va := t.arg.a / pageSize level * pageSize level, level := level, pte := pte }))
  ∧ happensAt .translationWalkEnd (fun t => 2 ^ 56 ≤ t.arg.a) id

/-- A module reset leaves the reset state but for memory outside the part; BOOTGO starts the download in the Wait state only; verification ends
in its code or in the measurement; the Test state ends once an identity exists and publishes the offer; GO does nothing when locked, fails
and clears ACCEPT when a bit was not offered or FEAT.CORE is not accepted, and locks otherwise, with 126 GiB of stage where FEAT.HKSPARE is
accepted; each mailbox command ends with its status, and its end clears BUSY, shows the identity that the command derived and raises vector
0. What is read for a command or a boot counts in its tier. What memory a reset keeps (log entry 2), the checks of the image and of an
identity (log entry 14), the order of a command's checks (log entry 34) and which physical cores stand behind the positions (log entry 53)
are the model's choices. (R409, R410, R411, R412, R413, R414, R415, R417) -/
def Obligations.BootEvents : Prop :=
  (∀ s, ∃ t, exec .moduleReset s = .next t ∧ t.core = State.reset.core ∧ t.others = State.reset.others ∧ t.sched = State.reset.sched
    ∧ t.host.boot = .wait ∧ t.host.locked = false ∧ t.memTags = [] ∧ t.pending = [] ∧ (∀ p ∈ t.mem, 2 ^ 50 ≤ p.1 ∧ p ∈ s.mem)
    ∧ (s.arg.b = 1 → t.thermal.tripped = false) ∧ (s.arg.b ≠ 1 → t.thermal.tripped = s.thermal.tripped))
  ∧ happens .bootgo (fun s => s.host.boot = .wait ∧ s.thermal.tripped = false) (fun s => s.setHost { s.host with bootst := 1, boot := .verify })
  ∧ happens .bootgo (fun s => s.host.boot ≠ .wait) id
  ∧ happens .bootVerify (fun s => s.host.boot = .verify ∧ hostBytes s s.host.bootaddr.toNat s.host.bootlen.toNat = none)
      (fun s => { (countReach s.host.bootaddr.toNat s.host.bootlen.toNat s).setHost { s.host with bootst := 6, boot := .wait } with tick := s.tick + 1 })
  ∧ (∀ img : List Byte,
      happens .bootVerify
        (fun s => s.host.boot = .verify ∧ hostBytes s s.host.bootaddr.toNat s.host.bootlen.toNat = some img ∧ numOfBytes (img.take 4) ≠ 0x49465353)
        (fun s => { (countReach s.host.bootaddr.toNat s.host.bootlen.toNat s).setHost { s.host with bootst := 3, boot := .wait } with tick := s.tick + 1 })
      ∧ ∀ m, happens .bootVerify
        (fun s => s.host.boot = .verify ∧ hostBytes s s.host.bootaddr.toNat s.host.bootlen.toNat = some img ∧ verifyImage img = .ok m)
        (fun s => { (countReach s.host.bootaddr.toNat s.host.bootlen.toNat s).setHost { s.host with
          meas := m, bootst := 2, boot := .test, history := img.drop (0x1EE0 + numOfBytes ((img.drop 8).take 4)) } with tick := s.tick + 1 }))
  ∧ happens .selfTestDone (fun s => s.host.boot = .test ∧ s.host.identity = true)
      (fun s => { s.setHost { s.host with
        offer := 7 + BitVec.ofNat 256 (2 ^ 224), present := Config.selfTestPresent s.tick
        counts := countsWord (Config.selfTestPresent s.tick) ((Config.selfTestCounts s.tick).toNat / 2 ^ 16 % 2 ^ 5)
        bootst := 7, boot := .negotiate, history := soundHistory s.host, map := Config.repairMap s.tick (soundHistory s.host) } with
        physical := bootCores s.tick (Config.selfTestPresent s.tick), spares := bootSpares s.tick (Config.selfTestPresent s.tick)
        columnRepairs := [], rowRepairs := [], tick := s.tick + 1 })
  ∧ happens .selfTestDone (fun s => s.host.boot = .test ∧ s.host.identity = false) id
  ∧ happens .go (fun s => s.host.locked = true) id
  ∧ happens .go (fun s => s.host.locked = false ∧ (s.host.accept &&& ~~~s.host.offer ≠ 0 ∨ s.host.accept.getLsbD 0 = false))
      (fun s => s.setHost { s.host with fail := true, accept := 0 })
  ∧ happens .go (fun s => s.host.locked = false ∧ s.host.accept &&& ~~~s.host.offer = 0 ∧ s.host.accept.getLsbD 0 = true ∧ s.host.accept.getLsbD 224 = false)
      (fun s => s.setHost { s.host with fail := false, locked := true, bootst := 8, boot := .ready, earlyWrites := [] })
  ∧ (∀ s, s.host.locked = false → s.host.accept &&& ~~~s.host.offer = 0 → s.host.accept.getLsbD 0 = true → s.host.accept.getLsbD 224 = true →
      ∃ t, exec .go s = .next t ∧ t.tiers.stcap = 0x1F80000000 ∧ t.host = { s.host with fail := false, locked := true, bootst := 8, boot := .ready, earlyWrites := [] })
  ∧ (∀ s, mailboxServes s = true ↔ s.host.busy = true ∧ s.host.mbresult = none ∧ (s.host.bootst = 2 ∨ s.host.bootst = 7 ∨ s.host.bootst = 8))
  ∧ happens .helper (fun s => mailboxServes s = true ∧ s.host.mbcmd = 1 ∧ s.host.mbarg1 = 0)
      (fun s => { s.setHost { s.host with mbresult := some (2, 0) } with tick := s.tick + 1 })
  ∧ (∀ bs seed, happens .helper
      (fun s => mailboxServes s = true ∧ s.host.mbcmd = 1 ∧ s.host.mbarg0.toNat % 64 = 0 ∧ 0 < s.host.mbarg1.toNat ∧ s.host.mbarg1.toNat ≤ 65536
        ∧ s.host.identity = false ∧ hostBytes s s.host.mbarg0.toNat s.host.mbarg1.toNat = some bs ∧ Config.identityFrom bs = some seed)
      (fun s => { (countReach s.host.mbarg0.toNat s.host.mbarg1.toNat s).setHost { s.host with newSeed := some (seed, false), mbresult := some (0, 0) } with
        tick := s.tick + 1 }))
  ∧ happens .enrol (fun s => mailboxServes s = true ∧ s.host.mbcmd = 2 ∧ s.host.mbarg0.toNat % 64 = 0 ∧ s.host.identity = true)
      (fun s => { s.setHost { s.host with mbresult := some (4, 0) } with tick := s.tick + 1 })
  ∧ (∀ seed, happens .enrol
      (fun s => mailboxServes s = true ∧ s.host.mbcmd = 2 ∧ s.host.mbarg0.toNat % 64 = 0 ∧ s.host.identity = false
        ∧ Config.identityFrom ((Config.enrolData s.tick).take 65536) = some seed ∧ Config.publicKey seed ∉ s.host.enrolled
        ∧ ((Config.enrolData s.tick).take 65536).length ≤ s.host.mbarg1.toNat
        ∧ hostReach s s.host.mbarg0.toNat ((Config.enrolData s.tick).take 65536).length = true)
      (fun s =>
        let d := (Config.enrolData s.tick).take 65536
        { deriveSeed seed true (mailEnd 0 d.length (hostPut s.host.mbarg0.toNat d s)) with tick := s.tick + 1 }))
  ∧ happens .attest (fun s => mailboxServes s = true ∧ s.host.mbcmd = 3 ∧ s.host.mbarg1.toNat < 8112)
      (fun s => { s.setHost { s.host with mbresult := some (2, 0) } with tick := s.tick + 1 })
  ∧ happens .attest (fun s => mailboxServes s = true ∧ s.host.mbcmd = 3 ∧ 8112 ≤ s.host.mbarg1.toNat ∧ s.host.mbarg0.toNat % 64 = 0 ∧ s.host.identity = true)
      (fun s => { mailWrite (reportMessage s ++ signature s (reportMessage s)) s with tick := s.tick + 1 })
  ∧ (∀ bs r, happens .evring
      (fun s => mailboxServes s = true ∧ s.host.mbcmd = 4 ∧ s.host.mbarg0.toNat % 64 = 0 ∧ s.host.mbarg1 = 0 ∧ hostBytes s s.host.mbarg0.toNat 64 = some bs
        ∧ ringOf s.host.mbarg0.toNat (numOfBytes bs) = some r)
      (fun s => { (countReach s.host.mbarg0.toNat 64 s).setHost { s.host with evring := some r, mbresult := some (0, 0) } with tick := s.tick + 1 }))
  ∧ happens .powercap
      (fun s => mailboxServes s = true ∧ s.host.mbcmd = 5 ∧ 600 ≤ s.host.mbarg0.toNat ∧ s.host.mbarg0.toNat ≤ 1900 ∧ s.host.mbarg1 = 0)
      (fun s => s.setHost { s.host with powercap := s.host.mbarg0.setWidth 16, mbresult := some (0, 0) })
  ∧ happens .powercap (fun s => mailboxServes s = true ∧ s.host.mbcmd = 5 ∧ (s.host.mbarg0.toNat < 600 ∨ 1900 < s.host.mbarg0.toNat))
      (fun s => s.setHost { s.host with mbresult := some (2, 0) })
  ∧ happens .history
      (fun s => mailboxServes s = true ∧ s.host.mbcmd = 6 ∧ s.host.mbarg0.toNat % 64 = 0 ∧ s.host.identity = true
        ∧ (Config.sealedHistory s.host.seed s.host.history s.host.repairs).length ≤ s.host.mbarg1.toNat)
      (fun s => { mailWrite (Config.sealedHistory s.host.seed s.host.history s.host.repairs) s with tick := s.tick + 1 })
  ∧ happens .unknownCommand (fun s => mailboxServes s = true ∧ (s.host.mbcmd = 0 ∨ 6 < s.host.mbcmd.toNat))
      (fun s => s.setHost { s.host with mbresult := some (1, 0) })
  ∧ (∀ st n, happens .mailboxDone (fun s => s.host.mbresult = some (st, n) ∧ s.host.msixMask.getLsbD 0 = false ∧ s.host.newSeed = none)
      (fun s => s.setHost { s.host with mbstatus := st, mblen := n, busy := false, mbresult := none, msixSent := 0 :: s.host.msixSent })
    ∧ ∀ seed new, happens .mailboxDone (fun s => s.host.mbresult = some (st, n) ∧ s.host.msixMask.getLsbD 0 = false ∧ s.host.newSeed = some (seed, new))
      (fun s => s.setHost { s.host with
        mbstatus := st, mblen := n, busy := false, mbresult := none, msixSent := 0 :: s.host.msixSent, newSeed := none, identity := true, idNew := new
        seed := seed, idpub := Config.publicKey seed, enrolled := Config.publicKey seed :: s.host.enrolled }))

/-- A whole write to the window of an enabled queue with room enqueues its packet and any other write there counts in DROP; a host write reaches
routable memory, and a host read gets its line or data-poison; a write-only register reads zero; registers take their writes in order of
arrival, except those frozen by the lock and those of a busy mailbox; an event waits for its ring or is lost; unmasking sends a held vector;
a port answers a damaged flit with a NAK, drops one out of order, sends one for another module on and performs the next one for its own; an
access that meets a blocked bank is tried again from the pending events; a NAK resends; retraining ends up, up on the spare lane, or down; a
module joins and leaves. Log entries 34 (the answers to the host and its links), 36 (the counting of a lost route), 43 (the bytes of flits
and of a NAK), 16 (the blocked banks) and 53 (the record of a lane repair) name what is the model's choice here. (R210, R310, R405, R407,
R408, R412, R414, R418, R419, R420) -/
def Obligations.HostAndFabricEvents : Prop :=
  (∀ c : CellData,
    happens .lqwin (fun s => s.arg.a < 64 ∧ s.arg.data = .cell c ∧ s.arg.b = 0 ∧ (launchQueue s s.arg.a).en = true ∧ (launchQueue s s.arg.a).packets.length < 256)
      (fun s => enqueue s.arg.a c.bytes s)
    ∧ happens .lqwin
      (fun s => s.arg.a < 64 ∧ s.arg.data = .cell c ∧ (launchQueue s s.arg.a).drop.toNat < 255
        ∧ (s.arg.b = 1 ∨ (launchQueue s s.arg.a).en = false ∨ 256 ≤ (launchQueue s s.arg.a).packets.length))
      (fun s => setLaunchQueue s.arg.a { launchQueue s s.arg.a with drop := (launchQueue s s.arg.a).drop + 1 } s)
    ∧ happens .hostMemWrite
      (fun s => s.arg.data = .cell c ∧ s.arg.b = 2 ^ 64 - 1 ∧ s.host.locked = true
        ∧ hostWaits s = false ∧ (inHdm s (s.arg.a / 64 * 64) = false ∨ routableLocal s (hostToLocal s (s.arg.a / 64 * 64)) = true))
      (fun s =>
        let l := hostToLocal s (s.arg.a / 64 * 64)
        putLocal (putLocal s l (bytesOfNum 32 (bitsOf c.bytes 0 256))) (l + 32) (bytesOfNum 32 (bitsOf c.bytes 256 256)))
    ∧ happens .hostMemWrite
      (fun s => s.arg.data = .cell c ∧ hostWaits s = false ∧ inHdm s (s.arg.a / 64 * 64) = true ∧ routableLocal s (hostToLocal s (s.arg.a / 64 * 64)) = false) id
    ∧ happens .hostMemWrite (fun s => s.arg.data = .cell c ∧ hostWaits s = true)
      (fun s => s.raise [{ i := .hostMemWrite, arg := { s.arg with core := 1 } }]))
  ∧ happens .hostMemRead (fun s => s.arg.b = 0 ∧ hostWaits s = true) (fun s => s.raise [{ i := .hostMemRead, arg := { s.arg with core := 1 } }])
  ∧ happens .hostMemRead
      (fun s => s.arg.b = 0 ∧ hostWaits s = false ∧ inHdm s (s.arg.a / 64 * 64) = true ∧ routable s (hostPa s (s.arg.a / 64 * 64)) = true
        ∧ memRangeBad s (hostPa s (s.arg.a / 64 * 64)) 64 = false)
      (fun s => countPhysical (hostPa s (s.arg.a / 64 * 64)) 64
        { s with hostReads := { bytes := BitVec.ofNat 512 (memNum s (hostPa s (s.arg.a / 64 * 64)) 64), tag := 0 } :: s.hostReads })
  ∧ (∀ s, s.arg.b = 0 → hostWaits s = false → inHdm s (s.arg.a / 64 * 64) = true → routable s (hostPa s (s.arg.a / 64 * 64)) = false →
      ∃ b, exec .hostMemRead s = .next { s with hostReads := { bytes := b, tag := 0x00FF } :: s.hostReads, tick := s.tick + 1 })
  ∧ happens .hostMemRead (fun s => s.arg.b = 0 ∧ hostWaits s = false ∧ inHdm s (s.arg.a / 64 * 64) = false) id
  ∧ happens .hostMemRead (fun s => s.arg.b = 1 ∧ s.arg.a / 8 * 8 ∈ [0x110, 0x318, 0x4008, 0x10000]) (fun s => { s with barReads := 0 :: s.barReads })
  ∧ happens .hostMemRead (fun s => s.arg.b = 1 ∧ s.arg.a / 8 * 8 = 0x40)
      (fun s => { s with barReads := BitVec.ofNat 64 (4 * s.host.fail.toNat + 2 * s.host.locked.toNat) :: s.barReads })
  ∧ happens .hostMemRead (fun s => s.arg.b = 1 ∧ s.arg.a / 8 * 8 = 0x100) (fun s => { s with barReads := s.host.bootaddr :: s.barReads })
  ∧ (∀ v : Word,
    happens .registerWrite (fun s => s.arg.data = .word v ∧ s.arg.b = 1 ∧ s.arg.a / 4 * 4 = 0x108) (fun s => s.setHost { s.host with bootlen := BitVec.ofNat 32 v.toNat })
    ∧ happens .registerWrite (fun s => s.arg.data = .word v ∧ s.arg.b = 0 ∧ s.arg.a / 8 * 8 = 0x40 ∧ v.toNat % 2 = 1)
      (fun s => { s with pending := plainEvent .go :: s.pending })
    ∧ happens .registerWrite (fun s => s.arg.data = .word v ∧ s.arg.b = 1 ∧ s.arg.a / 4 * 4 = 0x300 ∧ s.host.busy = true) id
    ∧ happens .registerWrite (fun s => s.arg.data = .word v ∧ s.arg.b = 1 ∧ s.arg.a / 4 * 4 = 0x88 ∧ s.host.locked = true) id
    ∧ happens .linkStateChange (fun s => s.arg.data = .word v ∧ s.arg.a = 0)
      (fun s => s.setHost { s.host with hostUp := decide (s.arg.b = 1), linkst := BitVec.ofNat 64 (v.toNat % 32 + v.toNat / 2 ^ 8 % 16 * 2 ^ 8) }))
  ∧ (∀ (e : EventRec) (s : State), s.arg.data = .record e → s.host.evring = none →
      (s.host.evWaiting.length < 256 → exec .eventPost s = .next (s.setHost { s.host with
        evSeq := s.host.evSeq + 1, repairs := if isRepair e.type then e :: s.host.repairs else s.host.repairs
        map := if isRepair e.type then Config.mapAfter s.host.map e else s.host.map
        evWaiting := s.host.evWaiting ++ [(e, s.host.evSeq, s.now)] }))
      ∧ (256 ≤ s.host.evWaiting.length → exec .eventPost s = .next (s.setHost { s.host with
        evSeq := s.host.evSeq + 1, repairs := if isRepair e.type then e :: s.host.repairs else s.host.repairs
        map := if isRepair e.type then Config.mapAfter s.host.map e else s.host.map, evLost := true })))
  ∧ happens .msixVectorUnmask (fun s => s.arg.a < 256 ∧ s.host.msixPend.getLsbD s.arg.a = true)
      (fun s => s.setHost { s.host with
        msixMask := s.host.msixMask &&& ~~~(BitVec.ofNat 256 (2 ^ s.arg.a)), msixPend := s.host.msixPend &&& ~~~(BitVec.ofNat 256 (2 ^ s.arg.a))
        msixSent := s.arg.a :: s.host.msixSent })
  ∧ (∀ f : Flit,
    happens .flitReceive
      (fun s => s.arg.data = .flit f ∧ s.arg.b ≠ 1 ∧ s.arg.a < 16 ∧ fabricOn s = true ∧ (portAt s s.arg.a).up = true ∧ (portAt s s.arg.a).retraining = false ∧ f.intact = false)
      (fun s => setPort s.arg.a { portAt s s.arg.a with
        nakFor := some (portAt s s.arg.a).expect
        sent := if (portAt s s.arg.a).nakFor = some (portAt s s.arg.a).expect ∧ f.seq ≠ (portAt s s.arg.a).expect then (portAt s s.arg.a).sent
          else nakBytes (portAt s s.arg.a).nextSeq (portAt s s.arg.a).expect :: (portAt s s.arg.a).sent } s)
    ∧ happens .flitReceive
      (fun s => s.arg.data = .flit f ∧ s.arg.b ≠ 1 ∧ s.arg.a < 16 ∧ fabricOn s = true ∧ (portAt s s.arg.a).up = true ∧ (portAt s s.arg.a).retraining = false ∧ f.intact = true
        ∧ f.seq ≠ (portAt s s.arg.a).expect) id
    ∧ happens .flitReceive
      (fun s => s.arg.data = .flit f ∧ s.arg.b ≠ 1 ∧ s.arg.a < 16 ∧ fabricOn s = true ∧ (portAt s s.arg.a).up = true ∧ (portAt s s.arg.a).retraining = false ∧ f.intact = true
        ∧ f.seq = (portAt s s.arg.a).expect)
      (fun s =>
        let t := setPort s.arg.a { portAt s s.arg.a with
          expect := (portAt s s.arg.a).expect + 1, nakFor := none, replay := acknowledge f.ack (portAt s s.arg.a).replay } s
        if f.dst.toNat ≠ s.ownModule then { t with transit := f :: t.transit }
        else if flitWaits f t = true then t.raise [{ i := .flitReceive, arg := { core := 0, sec := .ctl, a := 0, b := 1, data := .flit f } }]
        else performAct f.src.toNat f.who f.act t)
    ∧ happens .flitReceive (fun s => s.arg.data = .flit f ∧ s.arg.b = 1) (fun s => performAct f.src.toNat f.who f.act s))
  ∧ happens .nakReceive
      (fun s => s.arg.a < 16 ∧ ((portAt s s.arg.a).replay.any fun f => f.1.seq == BitVec.ofNat 16 s.arg.b) = true ∧ ∀ f ∈ (portAt s s.arg.a).replay, f.2 < 15)
      (fun s =>
        let l := (portAt s s.arg.a).replay.dropWhile fun f => f.1.seq != BitVec.ofNat 16 s.arg.b
        setPort s.arg.a { portAt s s.arg.a with
          replay := l.map fun f => (f.1, f.2 + 1), sent := (l.map fun f => flitBytes s.tick f.1).reverse ++ (portAt s s.arg.a).sent } s)
  ∧ happens .linkRetrain (fun s => s.arg.a < 16) (fun s => setPort s.arg.a { portAt s s.arg.a with retraining := true } s)
  ∧ happens .retrainEnd (fun s => s.arg.a < 16 ∧ s.arg.b = 0)
      (fun s => setPort s.arg.a { portAt s s.arg.a with
        up := true, retraining := false, nakFor := none, replay := (portAt s s.arg.a).replay.map fun f => (f.1, 0)
        sent := ((portAt s s.arg.a).replay.map fun f => flitBytes s.tick f.1).reverse ++ (portAt s s.arg.a).sent } s)
  ∧ happens .retrainEnd (fun s => s.arg.a < 16 ∧ s.arg.b = 1 ∧ (portAt s s.arg.a).spareUsed = true) (fun s => portDown s.arg.a 2 s)
  ∧ happens .retrainEnd (fun s => s.arg.a < 16 ∧ s.arg.b = 1 ∧ (portAt s s.arg.a).spareUsed = false)
      (fun s => fieldRepair (setPort s.arg.a { portAt s s.arg.a with
        up := true, retraining := false, nakFor := none, spareUsed := true, replay := (portAt s s.arg.a).replay.map fun f => (f.1, 0)
        sent := ((portAt s s.arg.a).replay.map fun f => flitBytes s.tick f.1).reverse ++ (portAt s s.arg.a).sent } s))
  ∧ happens .retrainEnd (fun s => s.arg.a < 16 ∧ s.arg.b = 2) (fun s => portDown s.arg.a (bit (portAt s s.arg.a).spareUsed) s)
  ∧ happens .moduleLeave (fun s => s.arg.a ∉ s.members) id
  ∧ happens .routeLossTimeout (fun s => s.arg.a % 2 ^ 12 ∉ s.members) id
  ∧ (∀ s, s.arg.a ∈ s.members → s.arg.a < 2 ^ 12 → ∃ t, exec .moduleLeave s = .next t ∧ exec .routeLossTimeout s = .next t
      ∧ ((∀ p ∈ s.awaited, p.1 ≠ s.arg.a) → t.members = s.members.filter (· != s.arg.a)))
  ∧ (∀ s, fabricOn s = true → s.isMember s.arg.a = false → s.arg.a < 2 ^ 12 →
      ∃ t, exec .moduleJoin s = .next t ∧ t.members = s.arg.a :: s.members)
  ∧ happens .moduleJoin (fun s => s.isMember s.arg.a = true) id

/-- The patrol counts corrected and uncorrectable atoms and the end of a pass, atom after atom; layer map-out lowers STCAP by 2 GiB and marks
the layer; a failing bank takes the spare of its channel or goes to layer map-out; back-offs are counted and block a bank, for at most 6,144
cycles; a copied row advances its pointer; a thermal step raises, keeps or lowers a level, 115 degrees sets level 7, and the power cap steps
its level; a core under suspicion is tested at a pre-emption boundary: a failing column or scratchpad row takes a spare of its core while
one is left, and else, as for a failing core, the position moves to a spare core of its die, or leaves the presence map where none is left.
Log entries 15 (what sensors find, and the events of a trip), 16 (the banks, layers and rows) and 53 (the patrol's findings, the physical
cores and their spares, the boundary at which a core is tested) name what is the model's choice here. (R15, R226, R317, R397, R398, R401,
R402, R403, R421) -/
def Obligations.RepairEvents : Prop :=
  happens .patrolScrub (fun s => s.arg.a < s.tiers.stcap ∧ s.arg.b = 1 ∧ s.arg.a / 32 ∉ s.memBad ∧ s.arg.a / 32 ∉ s.memLost) (fun s => countPass (s.arg.a / 32) (countCorrected s .stage))
  ∧ happens .patrolScrub (fun s => s.arg.a < s.tiers.stcap ∧ s.arg.b = 0 ∧ s.arg.a / 32 ∉ s.memBad ∧ s.arg.a / 32 ∉ s.memLost) (fun s => countPass (s.arg.a / 32) s)
  ∧ happens .patrolScrub (fun s => s.arg.a < s.tiers.stcap ∧ (s.arg.b = 2 ∨ s.arg.a / 32 ∈ s.memBad ∨ s.arg.a / 32 ∈ s.memLost))
      (fun s => countPass (s.arg.a / 32) (countBad (patrolLoss (s.arg.a / 32) s) .stage))
  ∧ (∀ s u, 192 ≤ Config.patrolSuspect s.tick u →
      patrolLoss u s = (if u ∈ s.memLost then { s with tick := s.tick + 1 }
        else { s with memBad := s.memBad.filter (fun v => v != u) ++ [u], tick := s.tick + 1 }))
  ∧ (∀ s u, Config.patrolSuspect s.tick u < 192 → ∃ w,
      (patrolLoss u s).suspects = s.suspects ++ [(Config.patrolSuspect s.tick u, 2, w)] ∧ (u ∉ s.memLost → u ∈ (patrolLoss u s).memBad))
  ∧ (∀ s, (s.tiers.corrs.toNat < 2 ^ 32 - 1 → countCorrected s .stage = s.setTiers { s.tiers with corrs := s.tiers.corrs + 1 })
      ∧ (s.tiers.uncs.toNat < 2 ^ 32 - 1 → countBad s .stage = s.setTiers { s.tiers with uncs := s.tiers.uncs + 1 }))
  ∧ (∀ s u, (u = nextOfStage s → u + 1 < s.tiers.stcap / 32 → countPass u s = s.setTiers { s.tiers with nextStage := u + 1, lastStage := s.now })
      ∧ (u = nextOfStage s → s.tiers.stcap / 32 ≤ u + 1 →
        countPass u s = s.setTiers { s.tiers with nextStage := 0, lastStage := s.now, pats := s.tiers.pats + 1 })
      ∧ (u ≠ nextOfStage s → u ≠ 2 ^ 35 + s.tiers.nextBulk → countPass u s = s))
  ∧ happens .patrolScrub (fun s => s.tiers.stcap ≤ s.arg.a ∧ s.arg.a < 2 ^ 40) id
  ∧ (∀ s, s.arg.a < 64 → ∃ t, exec .layerMapOut s = .next t ∧ t.tiers.stcap = s.tiers.stcap - 2 ^ 31
      ∧ t.tiers.stlayr = s.tiers.stlayr ||| BitVec.ofNat 64 (2 ^ s.arg.a))
  ∧ happens .stageBankSpare (fun s => feature s 7 0 = true ∧ ∀ c ∈ s.tiers.spares, c / 2 ^ 8 ≠ s.arg.a / 2 ^ 8)
      (fun s => (s.setTiers { s.tiers with spares := s.arg.a :: s.tiers.spares, copies := (s.arg.a, 0) :: s.tiers.copies }).raise [bankEvent s.arg.a 0])
  ∧ happens .stageBankSpare (fun s => feature s 7 0 = false ∨ ∃ c ∈ s.tiers.spares, c / 2 ^ 8 = s.arg.a / 2 ^ 8)
      (fun s => s.raise [{ i := .layerMapOut, arg := { core := 0, sec := .ctl, a := s.arg.b, b := 0, data := .none } }])
  ∧ happens .bulkBankSpare (fun s => s.arg.b = 1 ∧ ∀ c ∈ s.tiers.spares, c / 2 ^ 8 ≠ s.arg.a / 2 ^ 8)
      (fun s => (s.setTiers { s.tiers with spares := s.arg.a :: s.tiers.spares }).raise [bankEvent s.arg.a 0])
  ∧ happens .alertBackOff (fun s => (∃ c, (s.arg.a, c) ∈ s.tiers.blocked) ∧ s.tiers.aboall.toNat < 2 ^ 32 - 1) (fun s => s.setTiers { s.tiers with aboall := s.tiers.aboall + 1 })
  ∧ happens .alertBackOff
      (fun s => (∀ c, (s.arg.a, c) ∉ s.tiers.blocked) ∧ Config.postponed s.tick s.arg.a = true ∧ s.tiers.aboall.toNat < 2 ^ 32 - 1 ∧ s.tiers.abomax.toNat < 2 ^ 32 - 1)
      (fun s => { s.setTiers { s.tiers with aboall := s.tiers.aboall + 1, abomax := s.tiers.abomax + 1, blocked := (s.arg.a, s.now) :: s.tiers.blocked } with tick := s.tick + 1 })
  ∧ happens .alertBackOff
      (fun s => (∀ c, (s.arg.a, c) ∉ s.tiers.blocked) ∧ Config.postponed s.tick s.arg.a = false ∧ s.tiers.aboall.toNat < 2 ^ 32 - 1)
      (fun s => { s.setTiers { s.tiers with aboall := s.tiers.aboall + 1 } with tick := s.tick + 1 })
  ∧ happens .bankBlockEnd (fun _ => True) (fun s => s.setTiers { s.tiers with blocked := s.tiers.blocked.filter fun p => p.1 != s.arg.a })
  ∧ (∀ s b c, s.tiers.blocked = [(b, c)] → (blockOver s = some b ↔ c + 6144 ≤ s.now))
  ∧ (∀ r, r < Config.bankRows → happens .spareRowCopied (fun s => s.tiers.copies = [(s.arg.a, r)]) (fun s => s.setTiers { s.tiers with copies := [(s.arg.a, r + 1)] }))
  ∧ happens .spareRowCopied (fun s => s.tiers.copies = [(s.arg.a, Config.bankRows)]) (fun s => s.setTiers { s.tiers with copies := [] })
  ∧ (∀ s, Config.hottest s.tick 0 < 105 → 95 < Config.hottest s.tick 0 → Config.hottest s.tick 1 < 105 → 95 < Config.hottest s.tick 1 →
      exec .thermalStep s = .next { s.setThermal { s.thermal with lastStep := s.now / 65536 * 65536, hot0 := false, hot1 := false } with tick := s.tick + 1 })
  ∧ (∀ s, 105 ≤ Config.hottest s.tick 0 → Config.hottest s.tick 0 < 115 → Config.hottest s.tick 1 < 105 → 95 < Config.hottest s.tick 1 →
      ∃ t, exec .thermalStep s = .next t ∧ t.thermal.level0 = (if s.thermal.level0 = 7 then 7 else s.thermal.level0 + 1) ∧ t.thermal.level1 = s.thermal.level1
        ∧ t.mem = s.mem)
  ∧ happens .thermalTrip (fun s => s.arg.a < 2 ∧ s.arg.b < 115) id
  ∧ (∀ s, s.arg.a = 0 → 115 ≤ s.arg.b → s.arg.b < 125 → ∃ t, exec .thermalTrip s = .next t ∧ t.thermal.level0 = 7 ∧ t.thermal.level1 = s.thermal.level1
      ∧ t.core.mat.therm = (if s.core.num < 96 then 7 else dieTherm t 1) ∧ t.core.stop = s.core.stop ∧ t.thermal.tripped = s.thermal.tripped)
  ∧ happens .powerCapStep (fun s => Config.overCap s.tick s.host.powercap.toNat = true ∧ s.thermal.cap = 7)
      (fun s => { s.setThermal { s.thermal with lastCap := s.now / 2 ^ 24 * 2 ^ 24 } with tick := s.tick + 1 })
  ∧ (∀ s, Config.overCap s.tick s.host.powercap.toNat = true → s.thermal.cap ≠ 7 →
      ∃ t, exec .powerCapStep s = .next t ∧ t.thermal.cap = s.thermal.cap + 1 ∧ t.thermal.level0 = s.thermal.level0 ∧ t.mem = s.mem)
  ∧ (∀ (w : Word) (n : Nat),
    let rest (s : State) : List (Nat × Nat × Nat) := s.suspects.filter fun p => p.1 != n
    happens .coreRetire (fun s => s.arg.a = n ∧ n < 192 ∧ s.arg.data = .word w ∧ atPreemption s n = false)
      (fun s => { s with suspects := rest s ++ [(n, s.arg.b, w.toNat)] })
    ∧ happens .coreRetire (fun s => s.arg.a = n ∧ n < 192 ∧ s.arg.data = .word w ∧ atPreemption s n = true ∧ w = 0) (fun s => { s with suspects := rest s })
    ∧ happens .coreRetire
      (fun s => s.arg.a = n ∧ n < 192 ∧ s.arg.data = .word w ∧ atPreemption s n = true ∧ w.toNat % 256 = 1
        ∧ (s.columnRepairs.filter (· == (s.physical[Fin.ofNat 192 n], w.toNat / 256 % 32))).length < 4)
      (fun s => fieldRepair { s with
        suspects := rest s, columnRepairs := (s.physical[Fin.ofNat 192 n], w.toNat / 256 % 32) :: s.columnRepairs })
    ∧ happens .coreRetire
      (fun s => s.arg.a = n ∧ n < 192 ∧ s.arg.data = .word w ∧ atPreemption s n = true ∧ w.toNat % 256 = 3
        ∧ (s.rowRepairs.filter (· == s.physical[Fin.ofNat 192 n])).length < 64)
      (fun s => fieldRepair { s with suspects := rest s, rowRepairs := s.physical[Fin.ofNat 192 n] :: s.rowRepairs })
    ∧ ∀ s, s.arg.a = n → n < 192 → s.arg.data = .word w → atPreemption s n = true →
      (w = 2 ∨ (w.toNat % 256 = 1 ∧ 4 ≤ (s.columnRepairs.filter (· == (s.physical[Fin.ofNat 192 n], w.toNat / 256 % 32))).length)
        ∨ (w.toNat % 256 = 3 ∧ 64 ≤ (s.rowRepairs.filter (· == s.physical[Fin.ofNat 192 n])).length)) →
      ((∃ p ∈ s.spares, p.toNat / 256 = dieOf n) → ∃ p ∈ s.spares, p.toNat / 256 = dieOf n ∧
        exec .coreRetire s = .next { s with
          suspects := rest s, physical := s.physical.set (Fin.ofNat 192 n) p, spares := s.spares.filter (· != p), tick := s.tick + 1
          pending := s.pending ++ [recordEvent { type := 1, cont := false, payload := BitVec.ofNat 384 (n + (s.physical[Fin.ofNat 192 n]).toNat * 2 ^ 16
            + p.toNat * 2 ^ 32 + s.arg.b % 256 * 2 ^ 48) }] })
      ∧ ((∀ p ∈ s.spares, p.toNat / 256 ≠ dieOf n) → s.host.present.getLsbD n = true →
        ∃ t, exec .coreRetire s = .next t ∧ t.host.present = s.host.present &&& ~~~(BitVec.ofNat 192 (2 ^ n))))

/-- ADD, SUB, MUL, MULH, MULHZ, DIV, DIVZ, REM, REMZ, AND, OR, XOR, ANDN, SHL, SHR, SHA, MIN, MAX, MINZ, MAXZ, ADDA, SEXT, PICK, CLZ, CTZ, POPC,
the immediate forms, LIL and CYC change, outside a nest, nothing but their destination, the queue they push and the program counter: every
other register, predicate, flag, special register and stream, every unit, and every byte of memory and scratchpad reads as before. (R62,
R64, R65, Table 5-1) -/
def Obligations.ScalarFrame : Prop :=
  (∀ (o : DABP) (i : Instr) (s t : State),
    i ∈ [Instr.add o, .sub o, .mul o, .mulh o, .mulhz o, .div o, .divz o, .rem o, .remz o, .and o, .or o, .xor o, .andn o, .shl o, .shr o, .sha o,
      .min o, .max o, .minz o, .maxz o, .adda o, .sext o, .pick o] →
    issues i (useDABP o) s → s.cur.bank.nest.active = false → exec i s = .next t → registerFrame o.d s t)
  ∧ (∀ (o : DAP) (i : Instr) (s t : State), i ∈ [Instr.clz o, .ctz o, .popc o] → issues i (useDAP o) s → s.cur.bank.nest.active = false →
      exec i s = .next t → registerFrame o.d s t)
  ∧ (∀ (o : DAI) (i : Instr) (s t : State), i ∈ [Instr.addi o, .andi o, .ori o, .xori o] → issues i (useDAI o) s → s.cur.bank.nest.active = false →
      exec i s = .next t → registerFrame o.d s t)
  ∧ (∀ (o : DAH) (i : Instr) (s t : State), i ∈ [Instr.shli o, .shri o, .shai o] → issues i (useDAH o) s → s.cur.bank.nest.active = false →
      exec i s = .next t → registerFrame o.d s t)
  ∧ (∀ (o : DI) (s t : State), issues (.lil o) (useDI o) s → s.cur.bank.nest.active = false → exec (.lil o) s = .next t → registerFrame o.d s t)
  ∧ (∀ (o : DP) (s t : State), issues (.cyc o) (useDP o) s → s.cur.bank.nest.active = false → exec (.cyc o) s = .next t → registerFrame o.d s t)
  ∧ ∀ (s t : State) (a : Nat), sameOutside s t → (Memory.get t.mem a = Memory.get s.mem a ∧ spadByte t.core a = spadByte s.core a)

/-- With no event pending or due, a stream that can issue runs the word that its program counter names as exec does, and the turn passes on; a
word that does not decode takes the illegal-encoding trap with its check number, a forbidden fetch the privilege trap; a pending event is
performed first, but for a semaphore request of this cycle that must await the streams of its core and an access that must await a blocked
bank, which holds back later ones of its lane; then one that falls due; a stream that was asked to park parks at its turn (R133); a word not
written since its last FENCE kall is fetched as it stands. That pending events come first, then what falls due, then the word, is the
model's order within a cycle (log entry 8). (R14, R51, R61, R129, R369) -/
def Obligations.StepRunsTheWord : Prop :=
  (∀ s : State, (∀ e ∈ s.pending, mustWait s e = true) → dueEvent s = none →
    (∀ i, runnable s = true → fetchForbidden s = false → decodeIn s.turn (fetchWord s) = .ok i →
      step s = match exec i s with
        | .next t => .next (rotate t)
        | .fault f => .fault f
        | .refused r => .refused r)
    ∧ (∀ e, runnable s = true → fetchForbidden s = false → decodeIn s.turn (fetchWord s) = .error e →
        step s = .next (rotate (trapOut (mkTrap 0x01 (fetchWord s + checkNumber e * 2 ^ 32) 0) s)))
    ∧ (runnable s = true → fetchForbidden s = true → step s = .next (rotate (trapOut (mkTrap 0x02 1 s.cur.pc.toNat) s)))
    ∧ (runnable s = false → step s = .next (rotate (restTurn s))))
  ∧ (∀ s : State, s.cur.parkAsked = false → restTurn s = s)
  ∧ (∀ s : State, s.cur.parkAsked = true → s.cur.deferred = [] → isStarted s s.turn = true → remoteOf s s.turn = none → restTurn s = parkStream s s.turn)
  ∧ (∀ s : State, (∀ p ∈ s.core.oldWords.get s.turn, p.1 ≠ s.cur.pc.toNat) → fetchWord s = spadReadNum s s.cur.pc.toNat 4)
  ∧ (∀ (s : State) (l r : List Event) (e : Event), s.pending = l ++ e :: r → (∀ x ∈ l, mustWait s x = true ∧ sameLane e x = false) → mustWait s e = false →
      step s = exec e.i { s with pending := l ++ r, arg := e.arg })
  ∧ (∀ (s : State) (e : Event), mustWait s e = true ↔ bankWaits s e = true ∨
      (e.i = .remoteSemRequest ∨ e.i = .remoteWithdrawal) ∧ e.arg.b = s.now + 1 ∧ s.core.num ≤ e.arg.core)
  ∧ (∀ (s : State) (e : Event), (∀ x ∈ s.pending, mustWait s x = true) → dueEvent s = some e → step s = exec e.i { s with arg := e.arg })
  ∧ (∀ s : State, (s.turn = .ctl → (rotate s).turn = .copy) ∧ (s.turn = .copy → (rotate s).turn = .mat) ∧ (s.turn = .mat → (rotate s).turn = .vec)
      ∧ (s.turn = .vec → (rotate s).turn = .ctl) ∧ (s.turn ≠ .vec → (rotate s).core = s.core ∧ (rotate s).now = s.now) ∧ (rotate s).mem = s.mem)

/-- The words of the worked examples decode to their instructions, and words that fail a check of Table 3-5 are refused by that check. (R52,
R61, Table 3-5, 05_base Worked encodings) -/
def Obligations.DecodeWords : Prop :=
  decodeIn .ctl 0x0D312345 = .ok (.lil { s := false, d := .n 3, i := 0x12345 })
  ∧ decodeIn .vec 0x0F36789A = .ok (.lih { s := false, d := .n 3, i := 0x6789A })
  ∧ decodeIn .ctl 0x1C000010 = .ok (.call { s := false, p := 0, n := false, o := 16 })
  ∧ decodeIn .copy 0x1E0A80C0 = .ok (.jmp { s := false, a := .n 5, p := 3 })
  ∧ decodeIn .mat 0x1E000002 = .ok (.ret { s := false, p := 0 })
  ∧ decodeIn .ctl 0x0000001A = .error .unassignedFunction
  ∧ decodeIn .ctl 0x00000415 = .error .reservedField
  ∧ decodeIn .ctl 0x00100000 = .error .reservedOperand
  ∧ decodeIn .ctl 0x7E000000 = .error .unassignedMajor
  ∧ decodeIn .copy 0x2A000000 = .error .unassignedMajor

/-- For every well-formed instruction with a word, with every operand at every value its encoding admits, the word decodes to it; what an
instruction decodes from is its word; and a word has one meaning in every section that takes it. (R51, R52, R61, 03_encoding) -/
def Obligations.EncodeDecode : Prop :=
  (∀ (i : Instr) (w : Nat), wellFormed i = true → encode i = some w → w < 2 ^ 32 ∧ decodeIn (homeSec w) w = .ok i ∧ decodeTableWord 32 w = some i)
  ∧ (∀ (i : Instr), encode i = none → useOf State.reset i = none)
  ∧ (∀ (sec : Sec) (w : Nat) (i : Instr), w < 2 ^ 32 → decodeIn sec w = .ok i → wellFormed i = true ∧ encode i = some w)
  ∧ (∀ (sec : Sec) (w : Nat) (i : Instr), decodeIn sec w = .ok i → ∀ j, decodeIn (homeSec w) w = .ok j → j = i)

/-- Every step from a state whose memory, tags and scratchpads are in canonical form, and every instruction and event, leaves them in canonical
form, so that equal memories are equal data. (R22, R36) -/
def Obligations.CanonicalMemory : Prop :=
  (∀ s t : State, s.wf → step s = .next t → t.wf)
  ∧ (∀ (i : Instr) (s t : State), s.wf → exec i s = .next t → t.wf)

/-- After reset the module stands in the Wait state with nothing accepted or locked, device cycle 0, no job, STCAP at 128 GiB, no frame or tree,
no supervisor region, and the CSRs at their reset values; every memory is in canonical form. That an unlisted byte of global memory reads as
0 is the choice of the model (log entry 2), and so is that streams are parked until a placement (log entry 3). (R409, Table 5-8, Table 8-10,
Table 20-1, Table 21-2) -/
def Obligations.ResetState : Prop :=
  State.reset.wf
  ∧ State.reset.now = 0 ∧ State.reset.host.boot = .wait ∧ State.reset.host.bootst = 0 ∧ State.reset.host.locked = false ∧ State.reset.host.fail = false
  ∧ State.reset.host.accept = 0 ∧ State.reset.tiers.stcap = 0x2000000000 ∧ State.reset.sched.jobs = []
  ∧ (∀ (t : Sec), (State.reset.str t).priv = false ∧ (State.reset.str t).parked.isSome = true ∧ (State.reset.str t).ncs = Ncs.reset
      ∧ (State.reset.str t).watcht = 0x10000 ∧ (State.reset.str t).trap.vec = 0 ∧ (State.reset.str t).bank.depth = 0)
  ∧ State.reset.core.srbase = 0 ∧ State.reset.core.srlim = 0 ∧ State.reset.core.copy.frzl = 0x1000 ∧ State.reset.core.mat.cfg = 0x03
  ∧ (∀ i : Fin 64, State.reset.core.trees[i] = none) ∧ (∀ i : Fin 16, State.reset.core.frames[i] = 0)
  ∧ State.reset.members = [] ∧ State.reset.core.num = 0
  ∧ (∀ a : Nat, Memory.get State.reset.mem a = 0)
end

