-- ==== Sys2Proof/Laws/State.lean ====
section
/-! SUPPORT. What each update of the state changes, one field at a time: the lemmas that keep a proof from unfolding a record update. -/

namespace Sys2Proof.Machine

/-! ### The four streams of a core -/

/-- A stream read back after it is replaced. -/
@[simp] theorem PerSec.get_set {α : Type} (x : PerSec α) (t : Sec) (v : α) : (x.set t v).get t = v := by cases t <;> rfl

/-- The other streams after one is replaced. -/
theorem PerSec.get_set_ne {α : Type} (x : PerSec α) {t u : Sec} (v : α) (h : u ≠ t) : (x.set t v).get u = x.get u := by
  cases t <;> cases u <;> first | rfl | exact absurd rfl h

/-- Replacing a stream twice. -/
@[simp] theorem PerSec.set_set {α : Type} (x : PerSec α) (t : Sec) (v w : α) : (x.set t v).set t w = x.set t w := by cases t <;> rfl

/-- Replacing a stream by itself. -/
@[simp] theorem PerSec.set_get {α : Type} (x : PerSec α) (t : Sec) : x.set t (x.get t) = x := by cases t <;> rfl

/-! ### The core in focus replaced -/

@[simp] theorem setCore_core (s : State) (c : CoreState) : (s.setCore c).core = c := rfl
@[simp] theorem setCore_setCore (s : State) (c d : CoreState) : (s.setCore c).setCore d = s.setCore d := rfl
@[simp] theorem setCore_self (s : State) : s.setCore s.core = s := rfl
@[simp] theorem setCore_others (s : State) (c : CoreState) : (s.setCore c).others = s.others := rfl
@[simp] theorem setCore_turn (s : State) (c : CoreState) : (s.setCore c).turn = s.turn := rfl
@[simp] theorem setCore_now (s : State) (c : CoreState) : (s.setCore c).now = s.now := rfl
@[simp] theorem setCore_tick (s : State) (c : CoreState) : (s.setCore c).tick = s.tick := rfl
@[simp] theorem setCore_pending (s : State) (c : CoreState) : (s.setCore c).pending = s.pending := rfl
@[simp] theorem setCore_arg (s : State) (c : CoreState) : (s.setCore c).arg = s.arg := rfl
@[simp] theorem setCore_mem (s : State) (c : CoreState) : (s.setCore c).mem = s.mem := rfl
@[simp] theorem setCore_memTags (s : State) (c : CoreState) : (s.setCore c).memTags = s.memTags := rfl
@[simp] theorem setCore_memBad (s : State) (c : CoreState) : (s.setCore c).memBad = s.memBad := rfl
@[simp] theorem setCore_tlb0 (s : State) (c : CoreState) : (s.setCore c).tlb0 = s.tlb0 := rfl
@[simp] theorem setCore_tlb1 (s : State) (c : CoreState) : (s.setCore c).tlb1 = s.tlb1 := rfl
@[simp] theorem setCore_walks (s : State) (c : CoreState) : (s.setCore c).walks = s.walks := rfl
@[simp] theorem setCore_notices (s : State) (c : CoreState) : (s.setCore c).notices = s.notices := rfl
@[simp] theorem setCore_sched (s : State) (c : CoreState) : (s.setCore c).sched = s.sched := rfl
@[simp] theorem setCore_gather (s : State) (c : CoreState) : (s.setCore c).gather = s.gather := rfl
@[simp] theorem setCore_handles (s : State) (c : CoreState) : (s.setCore c).handles = s.handles := rfl
@[simp] theorem setCore_host (s : State) (c : CoreState) : (s.setCore c).host = s.host := rfl
@[simp] theorem setCore_tiers (s : State) (c : CoreState) : (s.setCore c).tiers = s.tiers := rfl
@[simp] theorem setCore_thermal (s : State) (c : CoreState) : (s.setCore c).thermal = s.thermal := rfl
@[simp] theorem setCore_ports (s : State) (c : CoreState) : (s.setCore c).ports = s.ports := rfl
@[simp] theorem setCore_members (s : State) (c : CoreState) : (s.setCore c).members = s.members := rfl
@[simp] theorem setCore_noRoute (s : State) (c : CoreState) : (s.setCore c).noRoute = s.noRoute := rfl
@[simp] theorem setCore_outbound (s : State) (c : CoreState) : (s.setCore c).outbound = s.outbound := rfl
@[simp] theorem setCore_transit (s : State) (c : CoreState) : (s.setCore c).transit = s.transit := rfl
@[simp] theorem setCore_hostReads (s : State) (c : CoreState) : (s.setCore c).hostReads = s.hostReads := rfl
@[simp] theorem setCore_memLost (s : State) (c : CoreState) : (s.setCore c).memLost = s.memLost := rfl
@[simp] theorem setCore_walk0 (s : State) (c : CoreState) : (s.setCore c).walk0 = s.walk0 := rfl
@[simp] theorem setCore_walk1 (s : State) (c : CoreState) : (s.setCore c).walk1 = s.walk1 := rfl
@[simp] theorem setCore_awaited (s : State) (c : CoreState) : (s.setCore c).awaited = s.awaited := rfl
@[simp] theorem setCore_lineReports (s : State) (c : CoreState) : (s.setCore c).lineReports = s.lineReports := rfl
@[simp] theorem setCore_farLoose (s : State) (c : CoreState) : (s.setCore c).farLoose = s.farLoose := rfl
@[simp] theorem setCore_unitReports (s : State) (c : CoreState) : (s.setCore c).unitReports = s.unitReports := rfl
@[simp] theorem setCore_barReads (s : State) (c : CoreState) : (s.setCore c).barReads = s.barReads := rfl
@[simp] theorem setCore_physical (s : State) (c : CoreState) : (s.setCore c).physical = s.physical := rfl
@[simp] theorem setCore_suspects (s : State) (c : CoreState) : (s.setCore c).suspects = s.suspects := rfl

/-! ### A stream replaced -/

@[simp] theorem setStr_others (s : State) (t : Sec) (x : Stream) : (s.setStr t x).others = s.others := rfl
@[simp] theorem setStr_turn (s : State) (t : Sec) (x : Stream) : (s.setStr t x).turn = s.turn := rfl
@[simp] theorem setStr_now (s : State) (t : Sec) (x : Stream) : (s.setStr t x).now = s.now := rfl
@[simp] theorem setStr_tick (s : State) (t : Sec) (x : Stream) : (s.setStr t x).tick = s.tick := rfl
@[simp] theorem setStr_pending (s : State) (t : Sec) (x : Stream) : (s.setStr t x).pending = s.pending := rfl
@[simp] theorem setStr_arg (s : State) (t : Sec) (x : Stream) : (s.setStr t x).arg = s.arg := rfl
@[simp] theorem setStr_mem (s : State) (t : Sec) (x : Stream) : (s.setStr t x).mem = s.mem := rfl
@[simp] theorem setStr_memTags (s : State) (t : Sec) (x : Stream) : (s.setStr t x).memTags = s.memTags := rfl
@[simp] theorem setStr_memBad (s : State) (t : Sec) (x : Stream) : (s.setStr t x).memBad = s.memBad := rfl
@[simp] theorem setStr_tlb0 (s : State) (t : Sec) (x : Stream) : (s.setStr t x).tlb0 = s.tlb0 := rfl
@[simp] theorem setStr_tlb1 (s : State) (t : Sec) (x : Stream) : (s.setStr t x).tlb1 = s.tlb1 := rfl
@[simp] theorem setStr_walks (s : State) (t : Sec) (x : Stream) : (s.setStr t x).walks = s.walks := rfl
@[simp] theorem setStr_notices (s : State) (t : Sec) (x : Stream) : (s.setStr t x).notices = s.notices := rfl
@[simp] theorem setStr_sched (s : State) (t : Sec) (x : Stream) : (s.setStr t x).sched = s.sched := rfl
@[simp] theorem setStr_gather (s : State) (t : Sec) (x : Stream) : (s.setStr t x).gather = s.gather := rfl
@[simp] theorem setStr_handles (s : State) (t : Sec) (x : Stream) : (s.setStr t x).handles = s.handles := rfl
@[simp] theorem setStr_host (s : State) (t : Sec) (x : Stream) : (s.setStr t x).host = s.host := rfl
@[simp] theorem setStr_tiers (s : State) (t : Sec) (x : Stream) : (s.setStr t x).tiers = s.tiers := rfl
@[simp] theorem setStr_thermal (s : State) (t : Sec) (x : Stream) : (s.setStr t x).thermal = s.thermal := rfl
@[simp] theorem setStr_ports (s : State) (t : Sec) (x : Stream) : (s.setStr t x).ports = s.ports := rfl
@[simp] theorem setStr_members (s : State) (t : Sec) (x : Stream) : (s.setStr t x).members = s.members := rfl
@[simp] theorem setStr_noRoute (s : State) (t : Sec) (x : Stream) : (s.setStr t x).noRoute = s.noRoute := rfl
@[simp] theorem setStr_outbound (s : State) (t : Sec) (x : Stream) : (s.setStr t x).outbound = s.outbound := rfl
@[simp] theorem setStr_transit (s : State) (t : Sec) (x : Stream) : (s.setStr t x).transit = s.transit := rfl
@[simp] theorem setStr_hostReads (s : State) (t : Sec) (x : Stream) : (s.setStr t x).hostReads = s.hostReads := rfl
@[simp] theorem setStr_memLost (s : State) (t : Sec) (x : Stream) : (s.setStr t x).memLost = s.memLost := rfl
@[simp] theorem setStr_walk0 (s : State) (t : Sec) (x : Stream) : (s.setStr t x).walk0 = s.walk0 := rfl
@[simp] theorem setStr_walk1 (s : State) (t : Sec) (x : Stream) : (s.setStr t x).walk1 = s.walk1 := rfl
@[simp] theorem setStr_awaited (s : State) (t : Sec) (x : Stream) : (s.setStr t x).awaited = s.awaited := rfl
@[simp] theorem setStr_lineReports (s : State) (t : Sec) (x : Stream) : (s.setStr t x).lineReports = s.lineReports := rfl
@[simp] theorem setStr_farLoose (s : State) (t : Sec) (x : Stream) : (s.setStr t x).farLoose = s.farLoose := rfl
@[simp] theorem setStr_unitReports (s : State) (t : Sec) (x : Stream) : (s.setStr t x).unitReports = s.unitReports := rfl
@[simp] theorem setStr_barReads (s : State) (t : Sec) (x : Stream) : (s.setStr t x).barReads = s.barReads := rfl
@[simp] theorem setStr_physical (s : State) (t : Sec) (x : Stream) : (s.setStr t x).physical = s.physical := rfl
@[simp] theorem setStr_suspects (s : State) (t : Sec) (x : Stream) : (s.setStr t x).suspects = s.suspects := rfl
@[simp] theorem setStr_core_num (s : State) (t : Sec) (x : Stream) : (s.setStr t x).core.num = s.core.num := rfl
@[simp] theorem setStr_core_sync (s : State) (t : Sec) (x : Stream) : (s.setStr t x).core.sync = s.core.sync := rfl
@[simp] theorem setStr_core_copy (s : State) (t : Sec) (x : Stream) : (s.setStr t x).core.copy = s.core.copy := rfl
@[simp] theorem setStr_core_frames (s : State) (t : Sec) (x : Stream) : (s.setStr t x).core.frames = s.core.frames := rfl
@[simp] theorem setStr_core_msgs (s : State) (t : Sec) (x : Stream) : (s.setStr t x).core.msgs = s.core.msgs := rfl
@[simp] theorem setStr_core_mat (s : State) (t : Sec) (x : Stream) : (s.setStr t x).core.mat = s.core.mat := rfl
@[simp] theorem setStr_core_vec (s : State) (t : Sec) (x : Stream) : (s.setStr t x).core.vec = s.core.vec := rfl
@[simp] theorem setStr_core_trees (s : State) (t : Sec) (x : Stream) : (s.setStr t x).core.trees = s.core.trees := rfl
@[simp] theorem setStr_core_audit (s : State) (t : Sec) (x : Stream) : (s.setStr t x).core.audit = s.core.audit := rfl
@[simp] theorem setStr_core_spad (s : State) (t : Sec) (x : Stream) : (s.setStr t x).core.spad = s.core.spad := rfl
@[simp] theorem setStr_core_spadTags (s : State) (t : Sec) (x : Stream) : (s.setStr t x).core.spadTags = s.core.spadTags := rfl
@[simp] theorem setStr_core_spadBad (s : State) (t : Sec) (x : Stream) : (s.setStr t x).core.spadBad = s.core.spadBad := rfl
@[simp] theorem setStr_core_srbase (s : State) (t : Sec) (x : Stream) : (s.setStr t x).core.srbase = s.core.srbase := rfl
@[simp] theorem setStr_core_srlim (s : State) (t : Sec) (x : Stream) : (s.setStr t x).core.srlim = s.core.srlim := rfl
@[simp] theorem setStr_core_ptroot (s : State) (t : Sec) (x : Stream) : (s.setStr t x).core.ptroot = s.core.ptroot := rfl
@[simp] theorem setStr_core_asid (s : State) (t : Sec) (x : Stream) : (s.setStr t x).core.asid = s.core.asid := rfl
@[simp] theorem setStr_core_smsel (s : State) (t : Sec) (x : Stream) : (s.setStr t x).core.smsel = s.core.smsel := rfl
@[simp] theorem setStr_core_wdog (s : State) (t : Sec) (x : Stream) : (s.setStr t x).core.wdog = s.core.wdog := rfl
@[simp] theorem setStr_core_dbe (s : State) (t : Sec) (x : Stream) : (s.setStr t x).core.dbe = s.core.dbe := rfl
@[simp] theorem setStr_core_prqe (s : State) (t : Sec) (x : Stream) : (s.setStr t x).core.prqe = s.core.prqe := rfl
@[simp] theorem setStr_core_stop (s : State) (t : Sec) (x : Stream) : (s.setStr t x).core.stop = s.core.stop := rfl
@[simp] theorem setStr_core_pendWatchdog (s : State) (t : Sec) (x : Stream) : (s.setStr t x).core.pendWatchdog = s.core.pendWatchdog := rfl
@[simp] theorem setStr_core_pendParked (s : State) (t : Sec) (x : Stream) : (s.setStr t x).core.pendParked = s.core.pendParked := rfl
@[simp] theorem setStr_core_pendPreempt (s : State) (t : Sec) (x : Stream) : (s.setStr t x).core.pendPreempt = s.core.pendPreempt := rfl
@[simp] theorem setStr_core_pendHost (s : State) (t : Sec) (x : Stream) : (s.setStr t x).core.pendHost = s.core.pendHost := rfl
@[simp] theorem setStr_core_preemptReq (s : State) (t : Sec) (x : Stream) : (s.setStr t x).core.preemptReq = s.core.preemptReq := rfl
@[simp] theorem setStr_core_moveReq (s : State) (t : Sec) (x : Stream) : (s.setStr t x).core.moveReq = s.core.moveReq := rfl
@[simp] theorem setStr_core_jobEnd (s : State) (t : Sec) (x : Stream) : (s.setStr t x).core.jobEnd = s.core.jobEnd := rfl
@[simp] theorem setStr_core_place (s : State) (t : Sec) (x : Stream) : (s.setStr t x).core.place = s.core.place := rfl
@[simp] theorem setStr_core_inbox (s : State) (t : Sec) (x : Stream) : (s.setStr t x).core.inbox = s.core.inbox := rfl
@[simp] theorem setStr_core_frozen (s : State) (t : Sec) (x : Stream) : (s.setStr t x).core.frozen = s.core.frozen := rfl
@[simp] theorem setStr_core_l1 (s : State) (t : Sec) (x : Stream) : (s.setStr t x).core.l1 = s.core.l1 := rfl
@[simp] theorem setStr_core_pace (s : State) (t : Sec) (x : Stream) : (s.setStr t x).core.pace = s.core.pace := rfl
@[simp] theorem setStr_core_farStores (s : State) (t : Sec) (x : Stream) : (s.setStr t x).core.farStores = s.core.farStores := rfl
@[simp] theorem setStr_core_taskEnds (s : State) (t : Sec) (x : Stream) : (s.setStr t x).core.taskEnds = s.core.taskEnds := rfl
@[simp] theorem setStr_core_sections (s : State) (t : Sec) (x : Stream) : (s.setStr t x).core.sections = s.core.sections := rfl
@[simp] theorem setStr_core_oldWords (s : State) (t : Sec) (x : Stream) : (s.setStr t x).core.oldWords = s.core.oldWords := rfl
@[simp] theorem setStr_core_loose (s : State) (t : Sec) (x : Stream) : (s.setStr t x).core.loose = s.core.loose := rfl

/-! ### The stream whose turn it is replaced -/

@[simp] theorem setCur_others (s : State) (x : Stream) : (s.setCur x).others = s.others := rfl
@[simp] theorem setCur_turn (s : State) (x : Stream) : (s.setCur x).turn = s.turn := rfl
@[simp] theorem setCur_now (s : State) (x : Stream) : (s.setCur x).now = s.now := rfl
@[simp] theorem setCur_tick (s : State) (x : Stream) : (s.setCur x).tick = s.tick := rfl
@[simp] theorem setCur_pending (s : State) (x : Stream) : (s.setCur x).pending = s.pending := rfl
@[simp] theorem setCur_arg (s : State) (x : Stream) : (s.setCur x).arg = s.arg := rfl
@[simp] theorem setCur_mem (s : State) (x : Stream) : (s.setCur x).mem = s.mem := rfl
@[simp] theorem setCur_memTags (s : State) (x : Stream) : (s.setCur x).memTags = s.memTags := rfl
@[simp] theorem setCur_memBad (s : State) (x : Stream) : (s.setCur x).memBad = s.memBad := rfl
@[simp] theorem setCur_tlb0 (s : State) (x : Stream) : (s.setCur x).tlb0 = s.tlb0 := rfl
@[simp] theorem setCur_tlb1 (s : State) (x : Stream) : (s.setCur x).tlb1 = s.tlb1 := rfl
@[simp] theorem setCur_walks (s : State) (x : Stream) : (s.setCur x).walks = s.walks := rfl
@[simp] theorem setCur_notices (s : State) (x : Stream) : (s.setCur x).notices = s.notices := rfl
@[simp] theorem setCur_sched (s : State) (x : Stream) : (s.setCur x).sched = s.sched := rfl
@[simp] theorem setCur_gather (s : State) (x : Stream) : (s.setCur x).gather = s.gather := rfl
@[simp] theorem setCur_handles (s : State) (x : Stream) : (s.setCur x).handles = s.handles := rfl
@[simp] theorem setCur_host (s : State) (x : Stream) : (s.setCur x).host = s.host := rfl
@[simp] theorem setCur_tiers (s : State) (x : Stream) : (s.setCur x).tiers = s.tiers := rfl
@[simp] theorem setCur_thermal (s : State) (x : Stream) : (s.setCur x).thermal = s.thermal := rfl
@[simp] theorem setCur_ports (s : State) (x : Stream) : (s.setCur x).ports = s.ports := rfl
@[simp] theorem setCur_members (s : State) (x : Stream) : (s.setCur x).members = s.members := rfl
@[simp] theorem setCur_noRoute (s : State) (x : Stream) : (s.setCur x).noRoute = s.noRoute := rfl
@[simp] theorem setCur_outbound (s : State) (x : Stream) : (s.setCur x).outbound = s.outbound := rfl
@[simp] theorem setCur_transit (s : State) (x : Stream) : (s.setCur x).transit = s.transit := rfl
@[simp] theorem setCur_hostReads (s : State) (x : Stream) : (s.setCur x).hostReads = s.hostReads := rfl
@[simp] theorem setCur_memLost (s : State) (x : Stream) : (s.setCur x).memLost = s.memLost := rfl
@[simp] theorem setCur_walk0 (s : State) (x : Stream) : (s.setCur x).walk0 = s.walk0 := rfl
@[simp] theorem setCur_walk1 (s : State) (x : Stream) : (s.setCur x).walk1 = s.walk1 := rfl
@[simp] theorem setCur_awaited (s : State) (x : Stream) : (s.setCur x).awaited = s.awaited := rfl
@[simp] theorem setCur_lineReports (s : State) (x : Stream) : (s.setCur x).lineReports = s.lineReports := rfl
@[simp] theorem setCur_farLoose (s : State) (x : Stream) : (s.setCur x).farLoose = s.farLoose := rfl
@[simp] theorem setCur_unitReports (s : State) (x : Stream) : (s.setCur x).unitReports = s.unitReports := rfl
@[simp] theorem setCur_barReads (s : State) (x : Stream) : (s.setCur x).barReads = s.barReads := rfl
@[simp] theorem setCur_physical (s : State) (x : Stream) : (s.setCur x).physical = s.physical := rfl
@[simp] theorem setCur_suspects (s : State) (x : Stream) : (s.setCur x).suspects = s.suspects := rfl
@[simp] theorem setCur_core_num (s : State) (x : Stream) : (s.setCur x).core.num = s.core.num := rfl
@[simp] theorem setCur_core_sync (s : State) (x : Stream) : (s.setCur x).core.sync = s.core.sync := rfl
@[simp] theorem setCur_core_copy (s : State) (x : Stream) : (s.setCur x).core.copy = s.core.copy := rfl
@[simp] theorem setCur_core_frames (s : State) (x : Stream) : (s.setCur x).core.frames = s.core.frames := rfl
@[simp] theorem setCur_core_msgs (s : State) (x : Stream) : (s.setCur x).core.msgs = s.core.msgs := rfl
@[simp] theorem setCur_core_mat (s : State) (x : Stream) : (s.setCur x).core.mat = s.core.mat := rfl
@[simp] theorem setCur_core_vec (s : State) (x : Stream) : (s.setCur x).core.vec = s.core.vec := rfl
@[simp] theorem setCur_core_trees (s : State) (x : Stream) : (s.setCur x).core.trees = s.core.trees := rfl
@[simp] theorem setCur_core_audit (s : State) (x : Stream) : (s.setCur x).core.audit = s.core.audit := rfl
@[simp] theorem setCur_core_spad (s : State) (x : Stream) : (s.setCur x).core.spad = s.core.spad := rfl
@[simp] theorem setCur_core_spadTags (s : State) (x : Stream) : (s.setCur x).core.spadTags = s.core.spadTags := rfl
@[simp] theorem setCur_core_spadBad (s : State) (x : Stream) : (s.setCur x).core.spadBad = s.core.spadBad := rfl
@[simp] theorem setCur_core_srbase (s : State) (x : Stream) : (s.setCur x).core.srbase = s.core.srbase := rfl
@[simp] theorem setCur_core_srlim (s : State) (x : Stream) : (s.setCur x).core.srlim = s.core.srlim := rfl
@[simp] theorem setCur_core_ptroot (s : State) (x : Stream) : (s.setCur x).core.ptroot = s.core.ptroot := rfl
@[simp] theorem setCur_core_asid (s : State) (x : Stream) : (s.setCur x).core.asid = s.core.asid := rfl
@[simp] theorem setCur_core_smsel (s : State) (x : Stream) : (s.setCur x).core.smsel = s.core.smsel := rfl
@[simp] theorem setCur_core_wdog (s : State) (x : Stream) : (s.setCur x).core.wdog = s.core.wdog := rfl
@[simp] theorem setCur_core_dbe (s : State) (x : Stream) : (s.setCur x).core.dbe = s.core.dbe := rfl
@[simp] theorem setCur_core_prqe (s : State) (x : Stream) : (s.setCur x).core.prqe = s.core.prqe := rfl
@[simp] theorem setCur_core_stop (s : State) (x : Stream) : (s.setCur x).core.stop = s.core.stop := rfl
@[simp] theorem setCur_core_pendWatchdog (s : State) (x : Stream) : (s.setCur x).core.pendWatchdog = s.core.pendWatchdog := rfl
@[simp] theorem setCur_core_pendParked (s : State) (x : Stream) : (s.setCur x).core.pendParked = s.core.pendParked := rfl
@[simp] theorem setCur_core_pendPreempt (s : State) (x : Stream) : (s.setCur x).core.pendPreempt = s.core.pendPreempt := rfl
@[simp] theorem setCur_core_pendHost (s : State) (x : Stream) : (s.setCur x).core.pendHost = s.core.pendHost := rfl
@[simp] theorem setCur_core_preemptReq (s : State) (x : Stream) : (s.setCur x).core.preemptReq = s.core.preemptReq := rfl
@[simp] theorem setCur_core_moveReq (s : State) (x : Stream) : (s.setCur x).core.moveReq = s.core.moveReq := rfl
@[simp] theorem setCur_core_jobEnd (s : State) (x : Stream) : (s.setCur x).core.jobEnd = s.core.jobEnd := rfl
@[simp] theorem setCur_core_place (s : State) (x : Stream) : (s.setCur x).core.place = s.core.place := rfl
@[simp] theorem setCur_core_inbox (s : State) (x : Stream) : (s.setCur x).core.inbox = s.core.inbox := rfl
@[simp] theorem setCur_core_frozen (s : State) (x : Stream) : (s.setCur x).core.frozen = s.core.frozen := rfl
@[simp] theorem setCur_core_l1 (s : State) (x : Stream) : (s.setCur x).core.l1 = s.core.l1 := rfl
@[simp] theorem setCur_core_pace (s : State) (x : Stream) : (s.setCur x).core.pace = s.core.pace := rfl
@[simp] theorem setCur_core_farStores (s : State) (x : Stream) : (s.setCur x).core.farStores = s.core.farStores := rfl
@[simp] theorem setCur_core_taskEnds (s : State) (x : Stream) : (s.setCur x).core.taskEnds = s.core.taskEnds := rfl
@[simp] theorem setCur_core_sections (s : State) (x : Stream) : (s.setCur x).core.sections = s.core.sections := rfl
@[simp] theorem setCur_core_oldWords (s : State) (x : Stream) : (s.setCur x).core.oldWords = s.core.oldWords := rfl
@[simp] theorem setCur_core_loose (s : State) (x : Stream) : (s.setCur x).core.loose = s.core.loose := rfl

/-! ### A stream changed by a function -/

@[simp] theorem onStr_others (s : State) (t : Sec) (f : Stream → Stream) : (s.onStr t f).others = s.others := rfl
@[simp] theorem onStr_turn (s : State) (t : Sec) (f : Stream → Stream) : (s.onStr t f).turn = s.turn := rfl
@[simp] theorem onStr_now (s : State) (t : Sec) (f : Stream → Stream) : (s.onStr t f).now = s.now := rfl
@[simp] theorem onStr_tick (s : State) (t : Sec) (f : Stream → Stream) : (s.onStr t f).tick = s.tick := rfl
@[simp] theorem onStr_pending (s : State) (t : Sec) (f : Stream → Stream) : (s.onStr t f).pending = s.pending := rfl
@[simp] theorem onStr_arg (s : State) (t : Sec) (f : Stream → Stream) : (s.onStr t f).arg = s.arg := rfl
@[simp] theorem onStr_mem (s : State) (t : Sec) (f : Stream → Stream) : (s.onStr t f).mem = s.mem := rfl
@[simp] theorem onStr_memTags (s : State) (t : Sec) (f : Stream → Stream) : (s.onStr t f).memTags = s.memTags := rfl
@[simp] theorem onStr_memBad (s : State) (t : Sec) (f : Stream → Stream) : (s.onStr t f).memBad = s.memBad := rfl
@[simp] theorem onStr_tlb0 (s : State) (t : Sec) (f : Stream → Stream) : (s.onStr t f).tlb0 = s.tlb0 := rfl
@[simp] theorem onStr_tlb1 (s : State) (t : Sec) (f : Stream → Stream) : (s.onStr t f).tlb1 = s.tlb1 := rfl
@[simp] theorem onStr_walks (s : State) (t : Sec) (f : Stream → Stream) : (s.onStr t f).walks = s.walks := rfl
@[simp] theorem onStr_notices (s : State) (t : Sec) (f : Stream → Stream) : (s.onStr t f).notices = s.notices := rfl
@[simp] theorem onStr_sched (s : State) (t : Sec) (f : Stream → Stream) : (s.onStr t f).sched = s.sched := rfl
@[simp] theorem onStr_gather (s : State) (t : Sec) (f : Stream → Stream) : (s.onStr t f).gather = s.gather := rfl
@[simp] theorem onStr_handles (s : State) (t : Sec) (f : Stream → Stream) : (s.onStr t f).handles = s.handles := rfl
@[simp] theorem onStr_host (s : State) (t : Sec) (f : Stream → Stream) : (s.onStr t f).host = s.host := rfl
@[simp] theorem onStr_tiers (s : State) (t : Sec) (f : Stream → Stream) : (s.onStr t f).tiers = s.tiers := rfl
@[simp] theorem onStr_thermal (s : State) (t : Sec) (f : Stream → Stream) : (s.onStr t f).thermal = s.thermal := rfl
@[simp] theorem onStr_ports (s : State) (t : Sec) (f : Stream → Stream) : (s.onStr t f).ports = s.ports := rfl
@[simp] theorem onStr_members (s : State) (t : Sec) (f : Stream → Stream) : (s.onStr t f).members = s.members := rfl
@[simp] theorem onStr_noRoute (s : State) (t : Sec) (f : Stream → Stream) : (s.onStr t f).noRoute = s.noRoute := rfl
@[simp] theorem onStr_outbound (s : State) (t : Sec) (f : Stream → Stream) : (s.onStr t f).outbound = s.outbound := rfl
@[simp] theorem onStr_transit (s : State) (t : Sec) (f : Stream → Stream) : (s.onStr t f).transit = s.transit := rfl
@[simp] theorem onStr_hostReads (s : State) (t : Sec) (f : Stream → Stream) : (s.onStr t f).hostReads = s.hostReads := rfl
@[simp] theorem onStr_memLost (s : State) (t : Sec) (f : Stream → Stream) : (s.onStr t f).memLost = s.memLost := rfl
@[simp] theorem onStr_walk0 (s : State) (t : Sec) (f : Stream → Stream) : (s.onStr t f).walk0 = s.walk0 := rfl
@[simp] theorem onStr_walk1 (s : State) (t : Sec) (f : Stream → Stream) : (s.onStr t f).walk1 = s.walk1 := rfl
@[simp] theorem onStr_awaited (s : State) (t : Sec) (f : Stream → Stream) : (s.onStr t f).awaited = s.awaited := rfl
@[simp] theorem onStr_lineReports (s : State) (t : Sec) (f : Stream → Stream) : (s.onStr t f).lineReports = s.lineReports := rfl
@[simp] theorem onStr_farLoose (s : State) (t : Sec) (f : Stream → Stream) : (s.onStr t f).farLoose = s.farLoose := rfl
@[simp] theorem onStr_unitReports (s : State) (t : Sec) (f : Stream → Stream) : (s.onStr t f).unitReports = s.unitReports := rfl
@[simp] theorem onStr_barReads (s : State) (t : Sec) (f : Stream → Stream) : (s.onStr t f).barReads = s.barReads := rfl
@[simp] theorem onStr_physical (s : State) (t : Sec) (f : Stream → Stream) : (s.onStr t f).physical = s.physical := rfl
@[simp] theorem onStr_suspects (s : State) (t : Sec) (f : Stream → Stream) : (s.onStr t f).suspects = s.suspects := rfl
@[simp] theorem onStr_core_num (s : State) (t : Sec) (f : Stream → Stream) : (s.onStr t f).core.num = s.core.num := rfl
@[simp] theorem onStr_core_sync (s : State) (t : Sec) (f : Stream → Stream) : (s.onStr t f).core.sync = s.core.sync := rfl
@[simp] theorem onStr_core_copy (s : State) (t : Sec) (f : Stream → Stream) : (s.onStr t f).core.copy = s.core.copy := rfl
@[simp] theorem onStr_core_frames (s : State) (t : Sec) (f : Stream → Stream) : (s.onStr t f).core.frames = s.core.frames := rfl
@[simp] theorem onStr_core_msgs (s : State) (t : Sec) (f : Stream → Stream) : (s.onStr t f).core.msgs = s.core.msgs := rfl
@[simp] theorem onStr_core_mat (s : State) (t : Sec) (f : Stream → Stream) : (s.onStr t f).core.mat = s.core.mat := rfl
@[simp] theorem onStr_core_vec (s : State) (t : Sec) (f : Stream → Stream) : (s.onStr t f).core.vec = s.core.vec := rfl
@[simp] theorem onStr_core_trees (s : State) (t : Sec) (f : Stream → Stream) : (s.onStr t f).core.trees = s.core.trees := rfl
@[simp] theorem onStr_core_audit (s : State) (t : Sec) (f : Stream → Stream) : (s.onStr t f).core.audit = s.core.audit := rfl
@[simp] theorem onStr_core_spad (s : State) (t : Sec) (f : Stream → Stream) : (s.onStr t f).core.spad = s.core.spad := rfl
@[simp] theorem onStr_core_spadTags (s : State) (t : Sec) (f : Stream → Stream) : (s.onStr t f).core.spadTags = s.core.spadTags := rfl
@[simp] theorem onStr_core_spadBad (s : State) (t : Sec) (f : Stream → Stream) : (s.onStr t f).core.spadBad = s.core.spadBad := rfl
@[simp] theorem onStr_core_srbase (s : State) (t : Sec) (f : Stream → Stream) : (s.onStr t f).core.srbase = s.core.srbase := rfl
@[simp] theorem onStr_core_srlim (s : State) (t : Sec) (f : Stream → Stream) : (s.onStr t f).core.srlim = s.core.srlim := rfl
@[simp] theorem onStr_core_ptroot (s : State) (t : Sec) (f : Stream → Stream) : (s.onStr t f).core.ptroot = s.core.ptroot := rfl
@[simp] theorem onStr_core_asid (s : State) (t : Sec) (f : Stream → Stream) : (s.onStr t f).core.asid = s.core.asid := rfl
@[simp] theorem onStr_core_smsel (s : State) (t : Sec) (f : Stream → Stream) : (s.onStr t f).core.smsel = s.core.smsel := rfl
@[simp] theorem onStr_core_wdog (s : State) (t : Sec) (f : Stream → Stream) : (s.onStr t f).core.wdog = s.core.wdog := rfl
@[simp] theorem onStr_core_dbe (s : State) (t : Sec) (f : Stream → Stream) : (s.onStr t f).core.dbe = s.core.dbe := rfl
@[simp] theorem onStr_core_prqe (s : State) (t : Sec) (f : Stream → Stream) : (s.onStr t f).core.prqe = s.core.prqe := rfl
@[simp] theorem onStr_core_stop (s : State) (t : Sec) (f : Stream → Stream) : (s.onStr t f).core.stop = s.core.stop := rfl
@[simp] theorem onStr_core_pendWatchdog (s : State) (t : Sec) (f : Stream → Stream) : (s.onStr t f).core.pendWatchdog = s.core.pendWatchdog := rfl
@[simp] theorem onStr_core_pendParked (s : State) (t : Sec) (f : Stream → Stream) : (s.onStr t f).core.pendParked = s.core.pendParked := rfl
@[simp] theorem onStr_core_pendPreempt (s : State) (t : Sec) (f : Stream → Stream) : (s.onStr t f).core.pendPreempt = s.core.pendPreempt := rfl
@[simp] theorem onStr_core_pendHost (s : State) (t : Sec) (f : Stream → Stream) : (s.onStr t f).core.pendHost = s.core.pendHost := rfl
@[simp] theorem onStr_core_preemptReq (s : State) (t : Sec) (f : Stream → Stream) : (s.onStr t f).core.preemptReq = s.core.preemptReq := rfl
@[simp] theorem onStr_core_moveReq (s : State) (t : Sec) (f : Stream → Stream) : (s.onStr t f).core.moveReq = s.core.moveReq := rfl
@[simp] theorem onStr_core_jobEnd (s : State) (t : Sec) (f : Stream → Stream) : (s.onStr t f).core.jobEnd = s.core.jobEnd := rfl
@[simp] theorem onStr_core_place (s : State) (t : Sec) (f : Stream → Stream) : (s.onStr t f).core.place = s.core.place := rfl
@[simp] theorem onStr_core_inbox (s : State) (t : Sec) (f : Stream → Stream) : (s.onStr t f).core.inbox = s.core.inbox := rfl
@[simp] theorem onStr_core_frozen (s : State) (t : Sec) (f : Stream → Stream) : (s.onStr t f).core.frozen = s.core.frozen := rfl
@[simp] theorem onStr_core_l1 (s : State) (t : Sec) (f : Stream → Stream) : (s.onStr t f).core.l1 = s.core.l1 := rfl
@[simp] theorem onStr_core_pace (s : State) (t : Sec) (f : Stream → Stream) : (s.onStr t f).core.pace = s.core.pace := rfl
@[simp] theorem onStr_core_farStores (s : State) (t : Sec) (f : Stream → Stream) : (s.onStr t f).core.farStores = s.core.farStores := rfl
@[simp] theorem onStr_core_taskEnds (s : State) (t : Sec) (f : Stream → Stream) : (s.onStr t f).core.taskEnds = s.core.taskEnds := rfl
@[simp] theorem onStr_core_sections (s : State) (t : Sec) (f : Stream → Stream) : (s.onStr t f).core.sections = s.core.sections := rfl
@[simp] theorem onStr_core_oldWords (s : State) (t : Sec) (f : Stream → Stream) : (s.onStr t f).core.oldWords = s.core.oldWords := rfl
@[simp] theorem onStr_core_loose (s : State) (t : Sec) (f : Stream → Stream) : (s.onStr t f).core.loose = s.core.loose := rfl

/-! ### Streams read back -/

@[simp] theorem setStr_str (s : State) (t : Sec) (x : Stream) : (s.setStr t x).str t = x := PerSec.get_set _ _ _
theorem setStr_str_ne (s : State) {t u : Sec} (x : Stream) (h : u ≠ t) : (s.setStr t x).str u = s.str u := PerSec.get_set_ne _ _ h
@[simp] theorem setCur_cur (s : State) (x : Stream) : (s.setCur x).cur = x := PerSec.get_set _ _ _
theorem setCur_str_ne (s : State) {u : Sec} (x : Stream) (h : u ≠ s.turn) : (s.setCur x).str u = s.str u := PerSec.get_set_ne _ _ h
@[simp] theorem setCur_setCur (s : State) (x y : Stream) : (s.setCur x).setCur y = s.setCur y := by
  simp [State.setCur, State.setStr]
@[simp] theorem setCur_self (s : State) : s.setCur s.cur = s := by
  simp [State.setCur, State.setStr, State.cur, State.str]
@[simp] theorem onStr_str (s : State) (t : Sec) (f : Stream → Stream) : (s.onStr t f).str t = f (s.str t) := PerSec.get_set _ _ _
theorem onStr_str_ne (s : State) {t u : Sec} (f : Stream → Stream) (h : u ≠ t) : (s.onStr t f).str u = s.str u := PerSec.get_set_ne _ _ h

/-! ### The bank in use replaced -/

@[simp] theorem setBank_pc (x : Stream) (b : Bank) : (x.setBank b).pc = x.pc := by unfold Stream.setBank; split <;> rfl
@[simp] theorem setBank_clk (x : Stream) (b : Bank) : (x.setBank b).clk = x.clk := by unfold Stream.setBank; split <;> rfl
@[simp] theorem setBank_maxReady (x : Stream) (b : Bank) : (x.setBank b).maxReady = x.maxReady := by unfold Stream.setBank; split <;> rfl
@[simp] theorem setBank_namedReady (x : Stream) (b : Bank) : (x.setBank b).namedReady = x.namedReady := by unfold Stream.setBank; split <;> rfl
@[simp] theorem setBank_settling (x : Stream) (b : Bank) : (x.setBank b).settling = x.settling := by unfold Stream.setBank; split <;> rfl
@[simp] theorem setBank_mode (x : Stream) (b : Bank) : (x.setBank b).mode = x.mode := by unfold Stream.setBank; split <;> rfl
@[simp] theorem setBank_priv (x : Stream) (b : Bank) : (x.setBank b).priv = x.priv := by unfold Stream.setBank; split <;> rfl
@[simp] theorem setBank_parked (x : Stream) (b : Bank) : (x.setBank b).parked = x.parked := by unfold Stream.setBank; split <;> rfl
@[simp] theorem setBank_ncs (x : Stream) (b : Bank) : (x.setBank b).ncs = x.ncs := by unfold Stream.setBank; split <;> rfl
@[simp] theorem setBank_wstOver (x : Stream) (b : Bank) : (x.setBank b).wstOver = x.wstOver := by unfold Stream.setBank; split <;> rfl
@[simp] theorem setBank_wstUnder (x : Stream) (b : Bank) : (x.setBank b).wstUnder = x.wstUnder := by unfold Stream.setBank; split <;> rfl
@[simp] theorem setBank_spb (x : Stream) (b : Bank) : (x.setBank b).spb = x.spb := by unfold Stream.setBank; split <;> rfl
@[simp] theorem setBank_spl (x : Stream) (b : Bank) : (x.setBank b).spl = x.spl := by unfold Stream.setBank; split <;> rfl
@[simp] theorem setBank_sspb (x : Stream) (b : Bank) : (x.setBank b).sspb = x.sspb := by unfold Stream.setBank; split <;> rfl
@[simp] theorem setBank_sspl (x : Stream) (b : Bank) : (x.setBank b).sspl = x.sspl := by unfold Stream.setBank; split <;> rfl
@[simp] theorem setBank_fldl (x : Stream) (b : Bank) : (x.setBank b).fldl = x.fldl := by unfold Stream.setBank; split <;> rfl
@[simp] theorem setBank_fldp (x : Stream) (b : Bank) : (x.setBank b).fldp = x.fldp := by unfold Stream.setBank; split <;> rfl
@[simp] theorem setBank_watcht (x : Stream) (b : Bank) : (x.setBank b).watcht = x.watcht := by unfold Stream.setBank; split <;> rfl
@[simp] theorem setBank_rcvl (x : Stream) (b : Bank) : (x.setBank b).rcvl = x.rcvl := by unfold Stream.setBank; split <;> rfl
@[simp] theorem setBank_rcvp (x : Stream) (b : Bank) : (x.setBank b).rcvp = x.rcvp := by unfold Stream.setBank; split <;> rfl
@[simp] theorem setBank_trap (x : Stream) (b : Bank) : (x.setBank b).trap = x.trap := by unfold Stream.setBank; split <;> rfl
@[simp] theorem setBank_strap (x : Stream) (b : Bank) : (x.setBank b).strap = x.strap := by unfold Stream.setBank; split <;> rfl
@[simp] theorem setBank_tdlg (x : Stream) (b : Bank) : (x.setBank b).tdlg = x.tdlg := by unfold Stream.setBank; split <;> rfl
@[simp] theorem setBank_park (x : Stream) (b : Bank) : (x.setBank b).park = x.park := by unfold Stream.setBank; split <;> rfl
@[simp] theorem setBank_waiting (x : Stream) (b : Bank) : (x.setBank b).waiting = x.waiting := by unfold Stream.setBank; split <;> rfl
@[simp] theorem setBank_rdvPending (x : Stream) (b : Bank) : (x.setBank b).rdvPending = x.rdvPending := by unfold Stream.setBank; split <;> rfl
@[simp] theorem setBank_deferred (x : Stream) (b : Bank) : (x.setBank b).deferred = x.deferred := by unfold Stream.setBank; split <;> rfl
@[simp] theorem setBank_faults (x : Stream) (b : Bank) : (x.setBank b).faults = x.faults := by unfold Stream.setBank; split <;> rfl
@[simp] theorem setBank_flds (x : Stream) (b : Bank) : (x.setBank b).flds = x.flds := by unfold Stream.setBank; split <;> rfl
@[simp] theorem setBank_landing (x : Stream) (b : Bank) : (x.setBank b).landing = x.landing := by unfold Stream.setBank; split <;> rfl
@[simp] theorem setBank_eprev (x : Stream) (b : Bank) : (x.setBank b).eprev = x.eprev := by unfold Stream.setBank; split <;> rfl
@[simp] theorem setBank_bank (x : Stream) (b : Bank) : (x.setBank b).bank = b := by
  unfold Stream.setBank Stream.bank; split <;> simp_all
@[simp] theorem setBank_setBank (x : Stream) (b c : Bank) : (x.setBank b).setBank c = x.setBank c := by
  unfold Stream.setBank; split <;> simp_all

/-! ### The latest landing replaced -/

@[simp] theorem landAt_pc (x : Stream) (r : Nat) : (x.landAt r).pc = x.pc := rfl
@[simp] theorem landAt_clk (x : Stream) (r : Nat) : (x.landAt r).clk = x.clk := rfl
@[simp] theorem landAt_settling (x : Stream) (r : Nat) : (x.landAt r).settling = x.settling := rfl
@[simp] theorem landAt_mode (x : Stream) (r : Nat) : (x.landAt r).mode = x.mode := rfl
@[simp] theorem landAt_job (x : Stream) (r : Nat) : (x.landAt r).job = x.job := rfl
@[simp] theorem landAt_sup (x : Stream) (r : Nat) : (x.landAt r).sup = x.sup := rfl
@[simp] theorem landAt_priv (x : Stream) (r : Nat) : (x.landAt r).priv = x.priv := rfl
@[simp] theorem landAt_parked (x : Stream) (r : Nat) : (x.landAt r).parked = x.parked := rfl
@[simp] theorem landAt_ncs (x : Stream) (r : Nat) : (x.landAt r).ncs = x.ncs := rfl
@[simp] theorem landAt_wstOver (x : Stream) (r : Nat) : (x.landAt r).wstOver = x.wstOver := rfl
@[simp] theorem landAt_wstUnder (x : Stream) (r : Nat) : (x.landAt r).wstUnder = x.wstUnder := rfl
@[simp] theorem landAt_spb (x : Stream) (r : Nat) : (x.landAt r).spb = x.spb := rfl
@[simp] theorem landAt_spl (x : Stream) (r : Nat) : (x.landAt r).spl = x.spl := rfl
@[simp] theorem landAt_sspb (x : Stream) (r : Nat) : (x.landAt r).sspb = x.sspb := rfl
@[simp] theorem landAt_sspl (x : Stream) (r : Nat) : (x.landAt r).sspl = x.sspl := rfl
@[simp] theorem landAt_fldl (x : Stream) (r : Nat) : (x.landAt r).fldl = x.fldl := rfl
@[simp] theorem landAt_fldp (x : Stream) (r : Nat) : (x.landAt r).fldp = x.fldp := rfl
@[simp] theorem landAt_watcht (x : Stream) (r : Nat) : (x.landAt r).watcht = x.watcht := rfl
@[simp] theorem landAt_rcvl (x : Stream) (r : Nat) : (x.landAt r).rcvl = x.rcvl := rfl
@[simp] theorem landAt_rcvp (x : Stream) (r : Nat) : (x.landAt r).rcvp = x.rcvp := rfl
@[simp] theorem landAt_trap (x : Stream) (r : Nat) : (x.landAt r).trap = x.trap := rfl
@[simp] theorem landAt_strap (x : Stream) (r : Nat) : (x.landAt r).strap = x.strap := rfl
@[simp] theorem landAt_tdlg (x : Stream) (r : Nat) : (x.landAt r).tdlg = x.tdlg := rfl
@[simp] theorem landAt_park (x : Stream) (r : Nat) : (x.landAt r).park = x.park := rfl
@[simp] theorem landAt_waiting (x : Stream) (r : Nat) : (x.landAt r).waiting = x.waiting := rfl
@[simp] theorem landAt_rdvPending (x : Stream) (r : Nat) : (x.landAt r).rdvPending = x.rdvPending := rfl
@[simp] theorem landAt_deferred (x : Stream) (r : Nat) : (x.landAt r).deferred = x.deferred := rfl
@[simp] theorem landAt_faults (x : Stream) (r : Nat) : (x.landAt r).faults = x.faults := rfl
@[simp] theorem landAt_flds (x : Stream) (r : Nat) : (x.landAt r).flds = x.flds := rfl
@[simp] theorem landAt_landing (x : Stream) (r : Nat) : (x.landAt r).landing = x.landing := rfl
@[simp] theorem landAt_eprev (x : Stream) (r : Nat) : (x.landAt r).eprev = x.eprev := rfl
@[simp] theorem landAt_bank (x : Stream) (r : Nat) : (x.landAt r).bank = x.bank := rfl
@[simp] theorem landAt_maxReady (x : Stream) (r : Nat) : (x.landAt r).maxReady = max x.maxReady r := rfl
@[simp] theorem landAt_namedReady (x : Stream) (r : Nat) : (x.landAt r).namedReady = x.namedReady := rfl

/-! ### Stores of another class -/

/-- A stream whose own stores its class k has all found sees the scratchpad as it is (R102, R115). -/
theorem viewed_of_found {k : Fin 16} {s : State} (h : (s.core.loose.get s.turn).filter (·.late s.tick k) = []) : s.viewed k = s.core := by
  unfold State.viewed State.viewedBy; simp only [h, List.foldl_nil]

/-- A stream that keeps no store of its own as unfound sees the scratchpad as it is. -/
theorem viewed_of_none {k : Fin 16} {s : State} (h : s.core.loose.get s.turn = []) : s.viewed k = s.core := viewed_of_found (by rw [h]; rfl)

end Sys2Proof.Machine
end

