-- ==== Sys2Proof/Laws/Counts.lean ====
section
/-! SUPPORT. What the counting of a read can do (R395): the error counters change, and requests go out to other modules, and nothing else. -/

namespace Sys2Proof.Machine

/-- Nothing differs but the error counters and what is to go out. -/
def onlyCounts (s t : State) : Prop :=
  ∃ a b c d o, t = { s with tiers := { s.tiers with corrs := a, corrb := b, uncs := c, uncb := d }, outbound := o }

theorem onlyCounts_refl (s : State) : onlyCounts s s := ⟨_, _, _, _, _, rfl⟩

theorem onlyCounts_trans {s t u : State} (h : onlyCounts s t) (k : onlyCounts t u) : onlyCounts s u := by
  obtain ⟨a, b, c, d, o, rfl⟩ := h
  obtain ⟨a', b', c', d', o', rfl⟩ := k
  exact ⟨a', b', c', d', o', rfl⟩

theorem foldl_onlyCounts {α : Type} {f : State → α → State} (h : ∀ s x, onlyCounts s (f s x)) : ∀ (l : List α) (s : State), onlyCounts s (l.foldl f s)
  | [], s => onlyCounts_refl s
  | x :: l, s => onlyCounts_trans (h s x) (foldl_onlyCounts h l (f s x))

theorem countBad_onlyCounts (s : State) (t : Tier) : onlyCounts s (countBad s t) := by
  unfold countBad; split <;> exact ⟨_, _, _, _, _, rfl⟩

theorem countCorrected_onlyCounts (s : State) (t : Tier) : onlyCounts s (countCorrected s t) := by
  unfold countCorrected; split <;> exact ⟨_, _, _, _, _, rfl⟩

theorem countRead_onlyCounts (t : Tier) (desc : Bool) (pa n : Nat) (s : State) : onlyCounts s (countRead t desc pa n s) := by
  unfold countRead
  split
  · exact foldl_onlyCounts (fun s p => ⟨_, _, _, _, _, rfl⟩) _ _
  · refine foldl_onlyCounts (fun s u => ?_) _ _
    split
    · split
      · exact countBad_onlyCounts s _
      · split
        · exact countCorrected_onlyCounts s _
        · exact onlyCounts_refl s
    · split
      · exact countBad_onlyCounts s _
      · split
        · exact countCorrected_onlyCounts s _
        · exact onlyCounts_refl s

theorem countPhysical_onlyCounts (pa n : Nat) (s : State) : onlyCounts s (countPhysical pa n s) := by
  unfold countPhysical
  split
  · exact countRead_onlyCounts _ _ _ _ s
  · exact onlyCounts_refl s

theorem countHost_onlyCounts (h n : Nat) (s : State) : onlyCounts s (countHost h n s) := by
  refine foldl_onlyCounts (fun s u => ?_) _ _
  simp only
  split
  · exact countBad_onlyCounts s _
  · split
    · exact countCorrected_onlyCounts s _
    · exact onlyCounts_refl s

theorem countReach_onlyCounts (h n : Nat) (s : State) : onlyCounts s (countReach h n s) := by
  unfold countReach
  split
  · exact countHost_onlyCounts h n s
  · exact onlyCounts_refl s

theorem countCell_onlyCounts (x : Xlat) (s : State) : onlyCounts s (countCell x s) := by
  unfold countCell countTag
  split
  · exact onlyCounts_trans (countRead_onlyCounts _ _ _ _ s) (countRead_onlyCounts _ _ _ _ _)
  · exact countRead_onlyCounts _ _ _ _ s

theorem countSched_onlyCounts (x : Access) (va n : Nat) (s : State) : onlyCounts s (countSched x va n s) := by
  unfold countSched
  refine foldl_onlyCounts (fun s a => ?_) _ _
  have h : ∀ w : List Nat, onlyCounts s (w.foldl (fun s e => countPhysical e 8 s) s) :=
    fun w => foldl_onlyCounts (fun s e => countPhysical_onlyCounts e 8 s) w s
  generalize (if 2 ^ 56 ≤ a then [] else (walkTrace s 0 x.asid a 3 (bitsOf x.root 14 50 * 2 ^ 14)).reads) = w
  generalize (translateBy 0 none (fun t _ => t) s x a).result = r
  cases r with
  | ok p => exact onlyCounts_trans (h w) (countCell_onlyCounts _ _)
  | error e => exact h w

theorem countRuns_onlyCounts (x : Access) : ∀ (l : List (Nat × Nat)) (s : State), onlyCounts s (countRuns x l s)
  | [], s => onlyCounts_refl s
  | p :: l, s => onlyCounts_trans (countSched_onlyCounts x p.1 p.2 s) (countRuns_onlyCounts x l _)

/-! ### What does not depend on them -/

theorem tableEntry_counts {s t : State} (h : onlyCounts s t) (die : Nat) (asid : BitVec 16) (level a : Nat) :
    tableEntry t die asid level a = tableEntry s die asid level a := by
  obtain ⟨c1, c2, c3, c4, o, rfl⟩ := h
  rfl

theorem walkRead_counts {s t : State} (h : onlyCounts s t) (die : Nat) (asid : BitVec 16) (level a : Nat) :
    walkRead t die asid level a = walkRead s die asid level a := by
  obtain ⟨c1, c2, c3, c4, o, rfl⟩ := h
  rfl

/-- A walk of the tables finds the same. -/
theorem walkTrace_counts {s t : State} (h : onlyCounts s t) (die : Nat) (asid : BitVec 16) (va : Nat) : ∀ (n table : Nat),
    walkTrace t die asid va n table = walkTrace s die asid va n table
  | 0, table => by simp only [walkTrace, tableEntry_counts h, walkRead_counts h]
  | n + 1, table => by simp only [walkTrace, tableEntry_counts h, walkRead_counts h, walkTrace_counts h die asid va n]

theorem leafCheck_counts {s t : State} (h : onlyCounts s t) (x : Access) (level va : Nat) (pte : Word) : leafCheck t x level va pte = leafCheck s x level va pte := by
  obtain ⟨c1, c2, c3, c4, o, rfl⟩ := h
  rfl

/-- A translation answers the same. -/
theorem translateBy_counts {s t : State} (h : onlyCounts s t) (die : Nat) (cached : Option TlbEntry) (fill : State → TlbEntry → State) (x : Access) (va : Nat) :
    (translateBy die cached fill t x va).result = (translateBy die cached fill s x va).result := by
  unfold translateBy
  simp only [leafCheck_counts h, walkTrace_counts h]
  split
  · rfl
  · split
    · rfl
    · split
      · rfl
      · split <;> rfl

theorem readCellAt_counts {s t : State} (h : onlyCounts s t) (x : Xlat) : readCellAt t x = readCellAt s x := by
  obtain ⟨c1, c2, c3, c4, o, rfl⟩ := h
  rfl

theorem schedCell_counts {s t : State} (h : onlyCounts s t) (x : Access) (va : Nat) : schedCell x t va = schedCell x s va := by
  simp only [schedCell, translateBy_counts h, readCellAt_counts h]

theorem schedCells_counts {s t : State} (h : onlyCounts s t) (x : Access) : ∀ (n va : Nat), schedCells x t n va = schedCells x s n va
  | 0, _ => rfl
  | n + 1, va => by simp only [schedCells, schedCell_counts h, schedCells_counts h x n]

/-- The scheduler reads the same. -/
theorem schedNum_counts {s t : State} (h : onlyCounts s t) (x : Access) (va n : Nat) : schedNum x t va n = schedNum x s va n := by
  simp only [schedNum, schedBytes, schedCells_counts h]

end Sys2Proof.Machine
end

