-- ==== Sys2Proof/Laws/Issue.lean ====
section
/-! SUPPORT. What `issue` can answer: one lemma for each way a word ends. -/

namespace Sys2Proof.Machine

/-- A body whose effect is complete: the word completes. -/
theorem issue_done {i : Instr} {u : Use} {body : State → Eff} {s t : State} (h : issues i u s) (hb : body (entered i s) = .done t) :
    issue i u body s = .next (completed u t) := by
  obtain ⟨⟨h1, h2⟩, h3⟩ := h
  have h3 : rdP (startIssue s) u.guard = true := h3
  simp [issue, issueWord, h1, h2, h3, hb, completed]

/-- A body that sets the program counter or the wait itself. -/
theorem issue_jump {i : Instr} {u : Use} {body : State → Eff} {s t : State} (h : issues i u s) (hb : body (entered i s) = .jump t) :
    issue i u body s = .next (endIssue u t) := by
  obtain ⟨⟨h1, h2⟩, h3⟩ := h
  have h3 : rdP (startIssue s) u.guard = true := h3
  simp [issue, issueWord, h1, h2, h3, hb]

/-- A body that stalls: nothing has happened. -/
theorem issue_hold {i : Instr} {u : Use} {body : State → Eff} {s : State} (h : issues i u s) (hb : body (entered i s) = .hold) :
    issue i u body s = .next s := by
  obtain ⟨⟨h1, h2⟩, h3⟩ := h
  have h3 : rdP (startIssue s) u.guard = true := h3
  simp [issue, issueWord, h1, h2, h3, hb]

/-- A body that raises a trap with no effect. -/
theorem issue_trap {i : Instr} {u : Use} {body : State → Eff} {s : State} {r : TrapRec} (h : issues i u s) (hb : body (entered i s) = .trap r) :
    issue i u body s = .next (trapOut r s) := by
  obtain ⟨⟨h1, h2⟩, h3⟩ := h
  have h3 : rdP (startIssue s) u.guard = true := h3
  simp [issue, issueWord, h1, h2, h3, hb]

/-- A word whose guard is false has no effect but the push of zero (R56). -/
theorem issue_guarded {i : Instr} {u : Use} {body : State → Eff} {s : State} (h : canIssue i u s) (hg : ¬ guardTrue u s) :
    issue i u body s = .next (completed u (guardedOff u (startIssue s))) := by
  obtain ⟨h1, h2⟩ := h
  have h3 : rdP (startIssue s) u.guard = false := by simpa [guardTrue] using hg
  simp [issue, issueWord, h1, h2, h3, completed]

/-- A word that fails a check of R61 takes the trap of that check. -/
theorem issue_illegal {i : Instr} {u : Use} {body : State → Eff} {s : State} {r : TrapRec} (h : decodeTrap i s = some r) :
    issue i u body s = .next (trapOut r s) := by
  simp [issue, issueWord, h]

/-- A word that is held back changes nothing. -/
theorem issue_stall {i : Instr} {u : Use} {body : State → Eff} {s : State} (h : decodeTrap i s = none) (hh : mustHold u s = true) :
    issue i u body s = .next s := by
  simp [issue, issueWord, h, hh]

/-- Every word answers a next state. -/
theorem issue_next (i : Instr) (u : Use) (body : State → Eff) (s : State) : issue i u body s = .next (issueWord i u body s) := rfl

/-- What holds of the present state, of every trap of it, of a guarded-off word and of what the body leaves, holds of the word's outcome: one
case analysis for every invariant and frame. -/
theorem issueWord_cases {P : State → Prop} {i : Instr} {u : Use} {body : State → Eff} {s : State}
    (stay : P s) (trap : ∀ r, P (trapOut r s))
    (off : P (completed u (guardedOff u (startIssue s))))
    (done : ∀ t, body (entered i s) = .done t → P (completed u t))
    (jump : ∀ t, body (entered i s) = .jump t → P (endIssue u t))
    (trapIn : ∀ t r, body (entered i s) = .trapIn t r → P (trapOut r t)) :
    P (issueWord i u body s) := by
  unfold issueWord
  cases h : decodeTrap i s with
  | some r => exact trap r
  | none =>
    simp only
    split
    · exact stay
    · split
      · cases hb : body (entered i s) with
        | done t => exact done t hb
        | jump t => exact jump t hb
        | hold => exact stay
        | trap r => exact trap r
        | trapIn t r =>
          simp only
          split
          · exact stay
          · exact trapIn t r hb
      · exact off

end Sys2Proof.Machine
end

