-- ==== Sys2Proof/Laws/Memory.lean ====
section
/-! SUPPORT. The laws of sparse maps and memories: what a read gives after a write, and that every memory operation keeps the canonical form. -/

namespace Sys2Proof.Machine

/-! ### Sparse maps -/

/-- A key below every listed key reads as the default. -/
theorem sparseGet_below {α : Type} [DecidableEq α] {d : α} {m : List (Nat × α)} : ∀ {lo k : Nat}, sparseWf d lo m = true → k < lo → sparseGet d m k = d := by
  induction m with
  | nil => intros; rfl
  | cons p m ih =>
    intro lo k h hk
    simp only [sparseWf, Bool.and_eq_true, decide_eq_true_eq] at h
    simp only [sparseGet]
    rw [if_neg (by omega), ih h.2 (by omega)]

/-- The canonical form from a higher address is one from a lower. -/
theorem sparseWf_mono {α : Type} [DecidableEq α] {d : α} {m : List (Nat × α)} {lo hi : Nat} (h : sparseWf d hi m = true) (hl : lo ≤ hi) :
    sparseWf d lo m = true := by
  cases m with
  | nil => rfl
  | cons p m =>
    simp only [sparseWf, Bool.and_eq_true, decide_eq_true_eq] at h ⊢
    exact ⟨⟨by omega, h.1.2⟩, h.2⟩

/-- A write keeps the canonical form. -/
theorem sparsePut_wf {α : Type} [DecidableEq α] {d : α} {m : List (Nat × α)} : ∀ {lo : Nat} {k : Nat} {v : α}, sparseWf d lo m = true → lo ≤ k →
    sparseWf d lo (sparsePut d m k v) = true := by
  induction m with
  | nil => intro lo k v _ hk; unfold sparsePut; split <;> simp_all [sparseWf]
  | cons p m ih =>
    intro lo k v h hk
    have hw := h
    simp only [sparseWf, Bool.and_eq_true, decide_eq_true_eq] at h
    unfold sparsePut
    split
    · split
      · exact hw
      · simp only [sparseWf, Bool.and_eq_true, decide_eq_true_eq]
        exact ⟨⟨hk, by assumption⟩, ⟨by omega, h.1.2⟩, h.2⟩
    · split
      · split
        · exact sparseWf_mono h.2 (by omega)
        · simp only [sparseWf, Bool.and_eq_true, decide_eq_true_eq]
          exact ⟨⟨hk, by assumption⟩, by have := h.2; simp_all⟩
      · simp only [sparseWf, Bool.and_eq_true, decide_eq_true_eq]
        exact ⟨⟨h.1.1, h.1.2⟩, ih h.2 (by omega)⟩

/-- Taking keys out keeps the canonical form. -/
theorem sparseWf_filter {α : Type} [DecidableEq α] {d : α} {f : Nat × α → Bool} {m : List (Nat × α)} : ∀ {lo : Nat}, sparseWf d lo m = true →
    sparseWf d lo (m.filter f) = true := by
  induction m with
  | nil => intros; rfl
  | cons p m ih =>
    intro lo h
    simp only [sparseWf, Bool.and_eq_true, decide_eq_true_eq] at h
    simp only [List.filter_cons]
    split
    · simp only [sparseWf, Bool.and_eq_true, decide_eq_true_eq]
      exact ⟨h.1, ih h.2⟩
    · exact sparseWf_mono (ih h.2) (by omega)

/-- The key written reads as the value written. -/
theorem sparseGet_put {α : Type} [DecidableEq α] {d : α} {m : List (Nat × α)} : ∀ {lo k : Nat} {v : α}, sparseWf d lo m = true →
    sparseGet d (sparsePut d m k v) k = v := by
  induction m with
  | nil => intro lo k v _; unfold sparsePut; split <;> simp_all [sparseGet]
  | cons p m ih =>
    intro lo k v h
    simp only [sparseWf, Bool.and_eq_true, decide_eq_true_eq] at h
    unfold sparsePut
    split
    · split
      · simp only [sparseGet]
        rw [if_neg (by omega), sparseGet_below h.2 (by omega)]
        exact Eq.symm (by assumption)
      · simp [sparseGet]
    · split
      · split
        · rw [sparseGet_below h.2 (by omega)]
          exact Eq.symm (by assumption)
        · simp [sparseGet]
      · simp only [sparseGet]
        rw [if_neg (by omega), ih h.2]

/-- Every other key reads as before, in any form. -/
theorem sparseGet_put_ne {α : Type} [DecidableEq α] {d : α} {m : List (Nat × α)} {k j : Nat} {v : α} (hj : j ≠ k) :
    sparseGet d (sparsePut d m k v) j = sparseGet d m j := by
  induction m with
  | nil =>
    unfold sparsePut
    split
    · rfl
    · simp only [sparseGet]; rw [if_neg (Ne.symm hj)]
  | cons p m ih =>
    unfold sparsePut
    split
    · split
      · rfl
      · simp only [sparseGet]; rw [if_neg (Ne.symm hj)]
    · split
      · rename_i h
        have hp : p.1 ≠ j := by omega
        split
        · simp only [sparseGet]; rw [if_neg hp]
        · simp only [sparseGet]; rw [if_neg (Ne.symm hj), if_neg hp]
      · simp only [sparseGet]; rw [ih]

/-- Two canonical maps that read alike are equal data. -/
theorem sparse_ext {α : Type} [DecidableEq α] {d : α} : ∀ {m n : List (Nat × α)} {lo hi : Nat}, sparseWf d lo m = true → sparseWf d hi n = true →
    (∀ k, sparseGet d m k = sparseGet d n k) → m = n := by
  intro m
  induction m with
  | nil =>
    intro n lo hi _ hn h
    cases n with
    | nil => rfl
    | cons p n =>
      simp only [sparseWf, Bool.and_eq_true, decide_eq_true_eq] at hn
      have := h p.1
      simp only [sparseGet, if_true] at this
      exact absurd this.symm hn.1.2
  | cons p m ih =>
    intro n lo hi hm hn h
    simp only [sparseWf, Bool.and_eq_true, decide_eq_true_eq] at hm
    cases n with
    | nil =>
      have := h p.1
      simp only [sparseGet, if_true] at this
      exact absurd this hm.1.2
    | cons q n =>
      simp only [sparseWf, Bool.and_eq_true, decide_eq_true_eq] at hn
      have hk : p.1 = q.1 := by
        rcases Nat.lt_trichotomy p.1 q.1 with hl | he | hl
        · have := h p.1
          simp only [sparseGet, if_true] at this
          rw [if_neg (by omega), sparseGet_below hn.2 (by omega)] at this
          exact absurd this hm.1.2
        · exact he
        · have := h q.1
          simp only [sparseGet, if_true] at this
          rw [if_neg (by omega), sparseGet_below hm.2 (by omega)] at this
          exact absurd this.symm hn.1.2
      have hv : p.2 = q.2 := by
        have := h p.1
        simpa only [sparseGet, hk, if_true] using this
      have hr : m = n := ih hm.2 hn.2 fun k => by
        by_cases hpk : p.1 = k
        · rw [sparseGet_below hm.2 (by omega), sparseGet_below hn.2 (by omega)]
        · have := h k
          simpa only [sparseGet, if_neg hpk, if_neg (hk ▸ hpk : ¬ q.1 = k)] using this
      rw [Prod.ext hk hv, hr]

/-! ### Memories -/

/-- A byte written keeps the canonical form. -/
theorem Memory.put_wf {m : Memory} {a : Nat} {b : Byte} (h : m.wf = true) : (m.put a b).wf = true := sparsePut_wf h (Nat.zero_le a)

/-- The byte written reads back. -/
theorem Memory.get_put {m : Memory} {a : Nat} {b : Byte} (h : m.wf = true) : (m.put a b).get a = b := sparseGet_put h

/-- Every other byte reads as before. -/
theorem Memory.get_put_ne {m : Memory} {a c : Nat} {b : Byte} (h : c ≠ a) : (m.put a b).get c = m.get c := sparseGet_put_ne h

/-- A tag written keeps the canonical form of the tags. -/
theorem tagPut_wf {m : List (Nat × BitVec 16)} {a : Nat} {t : BitVec 16} (h : sparseWf (0 : BitVec 16) 0 m = true) :
    sparseWf (0 : BitVec 16) 0 (sparsePut 0 m a t) = true := sparsePut_wf h (Nat.zero_le a)

/-- Bytes written keep the canonical form. -/
theorem memPutOwn_wf {bs : List Byte} : ∀ {m : Memory} {l : Nat}, m.wf = true → (memPutOwn m l bs).wf = true := by
  induction bs with
  | nil => intro m l h; exact h
  | cons b bs ih => intro m l h; exact ih (Memory.put_wf h)

/-- A byte outside the bytes written reads as before. -/
theorem memPutOwn_get {bs : List Byte} : ∀ {m : Memory} {l a : Nat}, (a < l ∨ l + bs.length ≤ a) → (memPutOwn m l bs).get a = m.get a := by
  induction bs with
  | nil => intros; rfl
  | cons b bs ih =>
    intro m l a h
    simp only [List.length_cons] at h
    rw [memPutOwn, ih (by omega), Memory.get_put_ne (by omega)]

/-! ### The scratchpad of a core -/

/-- What a scratchpad operation may change: it writes the three scratchpad fields, the words a stream may still fetch, the stores it need not find, the held sample of the
audit unit and the comb records' SAMP bits, and keeps the form. -/
def scratchOnly (c d : CoreState) : Prop :=
  { d with spad := c.spad, spadTags := c.spadTags, spadBad := c.spadBad, oldWords := c.oldWords, loose := c.loose, audit := c.audit,
           mat := { d.mat with resident := c.mat.resident, filling := c.mat.filling } } = c ∧ (coreWf c → coreWf d)

theorem scratchOnly_refl (c : CoreState) : scratchOnly c c := ⟨rfl, id⟩

theorem scratchOnly_trans {c d e : CoreState} (h : scratchOnly c d) (k : scratchOnly d e) : scratchOnly c e := by
  refine ⟨?_, fun w => k.2 (h.2 w)⟩
  have h1 := h.1
  have k1 := k.1
  rw [← h1, ← k1]

/-- A fold of operations that write only the scratchpad. -/
theorem scratchOnly_foldl {α : Type} {f : CoreState → α → CoreState} (h : ∀ c x, scratchOnly c (f c x)) (l : List α) (c : CoreState) :
    scratchOnly c (l.foldl f c) := by
  induction l generalizing c with
  | nil => exact scratchOnly_refl c
  | cons x l ih => exact scratchOnly_trans (h c x) (ih _)

theorem spadPutByte_only (c : CoreState) (a : Nat) (b : Byte) : scratchOnly c (spadPutByte c a b) := ⟨rfl, fun w => ⟨Memory.put_wf w.1, w.2⟩⟩

theorem spadRaw_only (bs : List Byte) : ∀ (c : CoreState) (a : Nat), scratchOnly c (spadRaw c a bs) := by
  induction bs with
  | nil => exact fun c _ => scratchOnly_refl c
  | cons b bs ih => exact fun c a => scratchOnly_trans (spadPutByte_only c a b) (ih _ _)

theorem spoilSample_only (c : CoreState) (a n : Nat) : scratchOnly c (spoilSample c a n) := by
  unfold spoilSample
  split
  · exact scratchOnly_refl c
  · simp only
    split
    · exact ⟨rfl, id⟩
    · exact scratchOnly_refl c

theorem spadPutBytes_only (c : CoreState) (a : Nat) (bs : List Byte) : scratchOnly c (spadPutBytes c a bs) :=
  scratchOnly_trans (spoilSample_only c a bs.length) (spadRaw_only bs _ a)

theorem spadPutTag_only (c : CoreState) (a : Nat) (t : BitVec 16) : scratchOnly c (spadPutTag c a t) := ⟨rfl, fun w => ⟨w.1, tagPut_wf w.2⟩⟩

theorem spadPutCell_only (c : CoreState) (a : Nat) (d : CellData) : scratchOnly c (spadPutCell c a d) :=
  scratchOnly_trans (spadPutBytes_only c _ _) (spadPutTag_only _ a _)

theorem spadPutPoisoned_only (c : CoreState) (a : Nat) (b : BitVec 512) : scratchOnly c (spadPutPoisoned c a b) :=
  scratchOnly_trans (spadPutBytes_only c _ _) (spadPutTag_only _ a _)

theorem spadStore_only (c : CoreState) (a : Nat) (bs : List Byte) : scratchOnly c (spadStore c a bs) :=
  scratchOnly_trans (spadPutBytes_only c a bs) (scratchOnly_foldl (fun d x => spadPutTag_only d x poisonTag) _ _)

/-- The frames, and so the physical addresses, are not written. -/
theorem scratchOnly_phys {c d : CoreState} (h : scratchOnly c d) (a : Nat) : spadPhys d a = spadPhys c a := by
  unfold spadPhys
  rw [← h.1]

/-! ### Global memory -/

/-- What a write to a physical address may change: own memory with its marks and handles, and what is sent to other modules. -/
theorem memPutBytes_frame (s : State) (pa : Nat) (bs : List Byte) :
    { memPutBytes s pa bs with mem := s.mem, memBad := s.memBad, memLost := s.memLost, handles := s.handles, outbound := s.outbound, farLoose := s.farLoose } = s := by
  unfold memPutBytes; split
  · rfl
  · split <;> rfl

/-- Bytes written where they lie keep the form. -/
theorem putLocal_wf {s : State} {l : Nat} {bs : List Byte} (h : s.wf) : (putLocal s l bs).wf := ⟨memPutOwn_wf h.1, h.2⟩

theorem memPutBytes_wf {s : State} {pa : Nat} {bs : List Byte} (h : s.wf) : (memPutBytes s pa bs).wf := by
  unfold memPutBytes
  split
  · exact h
  · split
    · exact putLocal_wf h
    · exact h

theorem memPoison_frame (s : State) (pa n : Nat) : { memPoison s pa n with memBad := s.memBad } = s := by
  unfold memPoison; simp only; split <;> rfl

theorem memPoison_wf {s : State} {pa n : Nat} (h : s.wf) : (memPoison s pa n).wf := by
  unfold memPoison
  simp only
  split <;> exact h

theorem putTagAt_wf {s : State} {x : Xlat} {t : BitVec 16} (h : s.wf) : (putTagAt s x t).wf := by
  unfold putTagAt
  split
  · exact h
  · split
    · exact h
    · exact ⟨h.1, tagPut_wf h.2.1, h.2.2⟩
    · exact ⟨h.1, tagPut_wf h.2.1, h.2.2⟩
    · exact memPutBytes_wf h

theorem dropTags_wf {s : State} {x : Xlat} {n : Nat} (h : s.wf) : (dropTags x n s).wf := by
  unfold dropTags
  split
  · exact h
  · exact ⟨h.1, sparseWf_filter h.2.1, h.2.2⟩

theorem writeCellAt_wf {s : State} {x : Xlat} {d : CellData} (h : s.wf) : (writeCellAt s x d).wf := by
  unfold writeCellAt
  simp only
  split
  · exact h
  · split
    · exact memPoison_wf (dropTags_wf (putTagAt_wf (memPutBytes_wf h)))
    · exact dropTags_wf (putTagAt_wf (memPutBytes_wf h))

theorem writeBytesAt_wf {s : State} {x : Xlat} {bs : List Byte} (h : s.wf) : (writeBytesAt s x bs).wf :=
  dropTags_wf (memPutBytes_wf h)

/-- An update of the core in focus that keeps its form keeps the form of the state. -/
theorem setCore_wf {s : State} {c : CoreState} (h : s.wf) (hc : coreWf c) : (s.setCore c).wf := ⟨h.1, h.2.1, hc, h.2.2.2⟩

/-- An update of a stream touches no memory. -/
theorem setStr_wf {s : State} {t : Sec} {x : Stream} (h : s.wf) : (s.setStr t x).wf := h

/-- An update of the stream whose turn it is touches no memory. -/
theorem setCur_wf {s : State} {x : Stream} (h : s.wf) : (s.setCur x).wf := h

/-- A scratchpad operation on the core in focus keeps the form of the state. -/
theorem setScratch_wf {s : State} {c : CoreState} (h : s.wf) (hc : scratchOnly s.core c) : (s.setCore c).wf := setCore_wf h (hc.2 h.2.2.1)

end Sys2Proof.Machine
end

