-- ==== Sys2Proof/Laws/Ops.lean ====
section
/-! SUPPORT. What each shared operation can do, said once: results, boundaries, focus, traps and waiting, and that each keeps the form of
memory. -/

namespace Sys2Proof.Machine

/-! ### Streams and results -/

/-- A step of the nest and the program counter changes only these and the registers of the bank in use. -/
theorem advance_frame (x : Stream) : { x.advance with pc := x.pc, job := x.job, sup := x.sup } = x := by
  unfold Stream.advance
  simp only
  split
  · split
    · unfold Stream.setBank; split <;> rfl
    · split <;> (unfold Stream.setBank; split <;> rfl)
  · rfl

/-- Outside a nest the boundary is the next word. -/
theorem advance_plain {x : Stream} (h : x.bank.nest.active = false) : x.advance = { x with pc := x.pc + 4 } := by
  unfold Stream.advance
  simp [h]

/-- A result in a destination is a slot of the bank in use and the latest landing. -/
theorem wrD_eq (d : SDst) (v : Word) (b : Nat) (s : State) : wrD d v b s = s.setCur (s.cur.writeD d v b) := rfl

theorem wrP_eq (p : Fin 16) (v : Bool) (b : Nat) (s : State) : wrP p v b s = s.setCur (s.cur.writeP p v b) := rfl

/-- A write of p0 is discarded. -/
@[simp] theorem wrP_zero (v : Bool) (b : Nat) (s : State) : wrP 0 v b s = s := by
  simp [wrP, Stream.writeP]

/-- p0 reads as true. -/
@[simp] theorem rdP_zero (s : State) : rdP s 0 = true := by
  simp [rdP, Stream.readP]

/-- A destination write changes only the bank in use and the latest landings. -/
theorem writeD_frame (x : Stream) (d : SDst) (v : Word) (b : Nat) :
    { x.writeD d v b with job := x.job, sup := x.sup, maxReady := x.maxReady, namedReady := x.namedReady } = x := by
  unfold Stream.writeD Stream.putSlot Stream.setBank
  cases d <;> (simp only [Stream.noteNamed, Stream.landAt]; split <;> rfl)

/-- The queue after a push: each entry moves up by one. -/
@[simp] theorem pushSlot_zero {α : Type} (q : Vector α 16) (x : α) : (pushSlot q x)[0] = x := rfl

/-- The start of an issue touches neither memory nor another core. -/
@[simp] theorem startIssue_mem (s : State) : (startIssue s).mem = s.mem := rfl
@[simp] theorem startIssue_turn (s : State) : (startIssue s).turn = s.turn := rfl
@[simp] theorem startIssue_now (s : State) : (startIssue s).now = s.now := rfl
@[simp] theorem startIssue_others (s : State) : (startIssue s).others = s.others := rfl
@[simp] theorem startIssue_pending (s : State) : (startIssue s).pending = s.pending := rfl

/-- The stream at its issue cycle. -/
theorem startIssue_cur (s : State) : (startIssue s).cur = { s.cur with clk := s.cur.nextClk s.ccc, settling := false } :=
  setCur_cur s _

/-! ### The form of memory -/

theorem startIssue_wf {s : State} (h : s.wf) : (startIssue s).wf := h
theorem advance_wf {s : State} (h : s.wf) : (advance s).wf := h
theorem wrD_wf {d : SDst} {v : Word} {b : Nat} {s : State} (h : s.wf) : (wrD d v b s).wf := h
theorem wrP_wf {p : Fin 16} {v : Bool} {b : Nat} {s : State} (h : s.wf) : (wrP p v b s).wf := h
theorem onStr_wf {t : Sec} {f : Stream → Stream} {s : State} (h : s.wf) : (s.onStr t f).wf := h
theorem raise_wf {es : List Event} {s : State} (h : s.wf) : (s.raise es).wf := h

theorem endIssue_wf {u : Use} {s : State} (h : s.wf) : (endIssue u s).wf := by
  unfold endIssue; split <;> exact h

theorem completed_wf {u : Use} {s : State} (h : s.wf) : (completed u s).wf := endIssue_wf (advance_wf h)

theorem guardedOff_wf {u : Use} {s : State} (h : s.wf) : (guardedOff u s).wf := by
  unfold guardedOff
  simp only
  split <;> split <;> exact h

/-- A fold of operations each of which keeps the form. -/
theorem foldl_wf {α : Type} {f : State → α → State} (hf : ∀ s x, s.wf → (f s x).wf) (l : List α) {s : State} (h : s.wf) : (l.foldl f s).wf := by
  induction l generalizing s with
  | nil => exact h
  | cons x l ih => exact ih (hf s x h)

theorem withdraw_wf {t : Sec} {s : State} (h : s.wf) : (withdraw t s).wf := by
  unfold withdraw
  simp only
  split <;> split <;> (try split) <;> exact h

theorem setRemote_wf {t : Sec} {r : RemoteWait} {d : Option SDst} {s : State} (h : s.wf) : (setRemote t r d s).wf := h

theorem sendToFile_wf {i : Instr} {coord : BitVec 32} {r : SemReq} {s : State} (h : s.wf) : (sendToFile i coord r s).wf := by
  unfold sendToFile
  split
  · split <;> exact h
  · exact h

theorem sendWithdrawal_wf {o : BitVec 32} {r : SemReq} {s : State} (h : s.wf) : (sendWithdrawal o r s).wf := sendToFile_wf h

theorem askWithdrawal_wf {p : Bool} {t : Sec} {s : State} (h : s.wf) : (askWithdrawal p t s).wf := by
  unfold askWithdrawal
  split
  · simp only
    split
    · exact onStr_wf h
    · split
      · exact onStr_wf h
      · exact sendWithdrawal_wf (setRemote_wf h)
  · exact h

theorem stopWaits_wf {t : Sec} {s : State} (h : s.wf) : (stopWaits s t).wf := by
  unfold stopWaits
  split
  · exact askWithdrawal_wf h
  · exact withdraw_wf h

theorem coreStop_wf {t : Sec} {r : TrapRec} {pc : BitVec 22} {s : State} (h : s.wf) : (coreStop t r pc s).wf := by
  unfold coreStop
  have h1 : (allSecs.foldl stopWaits s).wf := foldl_wf (fun _ _ => stopWaits_wf) allSecs h
  generalize allSecs.foldl stopWaits s = s1 at h1
  exact ⟨h1.1, h1.2.1, h1.2.2.1, h1.2.2.2⟩

theorem takeTrap_wf {t : Sec} {r : TrapRec} {pc : BitVec 22} {s : State} (h : s.wf) : (takeTrap t r pc s).wf := by
  unfold takeTrap
  simp only
  split
  · exact onStr_wf (withdraw_wf h)
  · split
    · split
      · exact coreStop_wf (withdraw_wf h)
      · exact onStr_wf (withdraw_wf h)
    · exact withdraw_wf h

theorem trapOut_wf {r : TrapRec} {s : State} (h : s.wf) : (trapOut r s).wf := by
  unfold trapOut
  split
  · exact h
  · simp only
    split
    · split <;> exact takeTrap_wf h
    · split <;> exact h

theorem entered_wf {i : Instr} {s : State} (h : s.wf) : (entered i s).wf := by
  unfold entered
  split
  · exact startIssue_wf h
  · exact startIssue_wf h

/-- A word keeps the form of memory where its body does. -/
theorem issueWord_wf {i : Instr} {u : Use} {body : State → Eff} {s : State} (h : s.wf)
    (hb : ∀ t, t.wf → match body t with
      | .done r => r.wf
      | .jump r => r.wf
      | .trapIn r _ => r.wf
      | _ => True) : (issueWord i u body s).wf := by
  refine issueWord_cases (P := State.wf) h (fun _ => trapOut_wf h) (completed_wf (guardedOff_wf (startIssue_wf h))) ?_ ?_ ?_
  · intro t e; have := hb _ (entered_wf (i := i) h); rw [e] at this; exact completed_wf this
  · intro t e; have := hb _ (entered_wf (i := i) h); rw [e] at this; exact endIssue_wf this
  · intro t r e; have := hb _ (entered_wf (i := i) h); rw [e] at this; exact trapOut_wf this

/-! ### Waiting and the turn -/

theorem asSec_wf {t : Sec} {f : State → State} {s : State} (h : s.wf) (hf : ∀ s, s.wf → (f s).wf) : (asSec t f s).wf := hf { s with turn := t } h

theorem resumeCur_wf {res : Option (SDst × Word)} {s : State} (h : s.wf) : (resumeCur res s).wf := by
  unfold resumeCur
  split
  · exact h
  · simp only
    split <;> split <;> exact h

theorem resume_wf {t : Sec} {res : Option (SDst × Word)} {s : State} (h : s.wf) : (resume t res s).wf := asSec_wf h fun _ => resumeCur_wf

theorem endWait_wf {t : Sec} {r : TrapRec} {s : State} (h : s.wf) : (endWait t r s).wf := asSec_wf h fun _ k => trapOut_wf k

/-! ### Focus -/

/-- Bringing a core into focus keeps what holds of every core. -/
theorem swapCore_all {P : CoreState → Prop} {n : Nat} {c : CoreState} : ∀ {l m : List CoreState} {d : CoreState}, swapCore n c l = some (d, m) →
    P c → (∀ x ∈ l, P x) → P d ∧ ∀ x ∈ m, P x := by
  intro l
  induction l with
  | nil => intro m d h; simp [swapCore] at h
  | cons e l ih =>
    intro m d h hc hl
    unfold swapCore at h
    split at h
    · obtain ⟨rfl, rfl⟩ : e = d ∧ c :: l = m := by simpa using h
      exact ⟨hl e (by simp), fun x hx => (List.mem_cons.mp hx).elim (fun k => k ▸ hc) fun k => hl x (by simp [k])⟩
    · split at h
      · rename_i f k heq
        obtain ⟨rfl, rfl⟩ : f = d ∧ e :: k = m := by simpa using h
        have := ih heq hc fun x hx => hl x (by simp [hx])
        exact ⟨this.1, fun x hx => (List.mem_cons.mp hx).elim (fun h => h ▸ hl e (by simp)) fun h => this.2 x h⟩
      · cases h

theorem focus_wf {n : Nat} {s t : State} (hf : focus n s = some t) (h : s.wf) : t.wf := by
  unfold focus at hf
  split at hf
  · cases hf; exact h
  · split at hf
    · rename_i d l heq
      cases hf
      have := swapCore_all (P := coreWf) heq h.2.2.1 h.2.2.2
      exact ⟨h.1, h.2.1, this.1, this.2⟩
    · cases hf

/-- What keeps the form with a core in focus keeps it from outside. -/
theorem onCore_wf {n : Nat} {f : State → State} {s : State} (h : s.wf) (hf : ∀ s, s.wf → (f s).wf) : (onCore n f s).wf := by
  unfold onCore
  split
  · exact h
  · rename_i s1 h1
    split
    · rename_i s2 h2
      exact focus_wf h2 (hf s1 (focus_wf h1 h))
    · exact h

/-- The focused core is the one asked for. -/
theorem focus_num {n : Nat} {s t : State} (hf : focus n s = some t) : t.core.num = n := by
  unfold focus at hf
  split at hf
  · cases hf; assumption
  · split at hf
    · rename_i d l heq
      cases hf
      suffices h : ∀ {l m : List CoreState} {d : CoreState}, swapCore n s.core l = some (d, m) → d.num = n from h heq
      intro l
      induction l with
      | nil => intro m d h; simp [swapCore] at h
      | cons e l ih =>
        intro m d h
        unfold swapCore at h
        split at h
        · obtain ⟨rfl, _⟩ : e = d ∧ s.core :: l = m := by simpa using h
          assumption
        · split at h
          · rename_i f k heq
            obtain ⟨rfl, _⟩ : f = d ∧ e :: k = m := by simpa using h
            exact ih heq
          · cases h
    · cases hf

end Sys2Proof.Machine
end

