-- ==== Sys2Proof/Tests/Slice0.lean ====
section
/-! SUPPORT. The model's own tests: words decoded from the spec's encodings, ill-formed terms, single steps, and a witness for the hypotheses
of each statement. -/

namespace Sys2Proof.Tests

open Sys2Proof.Machine

set_option Elab.async false

/-! ### Decoding: words written out from the encoding tables -/

/-- One word of each instruction, its fields written out from the encoding tables: arithmetic. -/
theorem test_decode_arithmetic :
    decodeIn .ctl 0b0_000000_10010_11110_11010_0010_000000 = .ok (.add { s := false, d := .n 2, a := .n 14, b := .n 10, p := 2 })
    ∧ decodeIn .ctl 0b0_000000_00000_11101_10010_1101_000001 = .ok (.sub { s := false, d := .push, a := .n 13, b := .n 2, p := 13 })
    ∧ decodeIn .ctl 0b0_000000_00000_10011_10011_1111_000010 = .ok (.mul { s := false, d := .push, a := .n 3, b := .n 3, p := 15 })
    ∧ decodeIn .ctl 0b1_000000_00000_10010_01011_1010_000011 = .ok (.mulh { s := true, d := .push, a := .n 2, b := .q 11, p := 10 })
    ∧ decodeIn .ctl 0b0_000000_10100_11000_11100_1100_000100 = .ok (.mulhz { s := false, d := .n 4, a := .n 8, b := .n 12, p := 12 })
    ∧ decodeIn .ctl 0b0_000000_10001_10111_10100_0111_000101 = .ok (.div { s := false, d := .n 1, a := .n 7, b := .n 4, p := 7 })
    ∧ decodeIn .ctl 0b1_000000_10101_01101_10101_1001_000110 = .ok (.divz { s := true, d := .n 5, a := .q 13, b := .n 5, p := 9 })
    ∧ decodeIn .ctl 0b0_000000_10010_01100_11101_0100_000111 = .ok (.rem { s := false, d := .n 2, a := .q 12, b := .n 13, p := 4 })
    ∧ decodeIn .ctl 0b1_000000_10110_10010_01110_0110_001000 = .ok (.remz { s := true, d := .n 6, a := .n 2, b := .q 14, p := 6 })
    ∧ decodeIn .ctl 0b0_000000_10011_10001_10110_0001_001001 = .ok (.and { s := false, d := .n 3, a := .n 1, b := .n 6, p := 1 })
    ∧ decodeIn .ctl 0b1_000000_00000_00111_00111_0011_001010 = .ok (.or { s := true, d := .push, a := .q 7, b := .q 7, p := 3 })
    ∧ decodeIn .ctl 0b0_000000_10100_00110_11111_1110_001011 = .ok (.xor { s := false, d := .n 4, a := .q 6, b := .n 15, p := 14 })
    ∧ decodeIn .ctl 0b1_000000_11000_11100_10000_0000_001100 = .ok (.andn { s := true, d := .n 8, a := .n 12, b := .n 0, p := 0 })
    ∧ decodeIn .ctl 0b0_000000_10101_01011_11000_1011_001101 = .ok (.shl { s := false, d := .n 5, a := .q 11, b := .n 8, p := 11 })
    ∧ decodeIn .ctl 0b0_000000_11001_10001_01001_1101_001110 = .ok (.shr { s := false, d := .n 9, a := .n 1, b := .q 9, p := 13 })
    ∧ decodeIn .ctl 0b0_000000_00000_10000_00001_1000_001111 = .ok (.sha { s := false, d := .push, a := .n 0, b := .q 1, p := 8 })
    ∧ decodeIn .ctl 0b0_000000_11010_10110_10010_1010_010000 = .ok (.min { s := false, d := .n 10, a := .n 6, b := .n 2, p := 10 })
    ∧ decodeIn .ctl 0b0_000000_00000_10101_11010_0101_010001 = .ok (.max { s := false, d := .push, a := .n 5, b := .n 10, p := 5 })
    ∧ decodeIn .ctl 0b1_000000_11011_11011_01011_0111_010010 = .ok (.minz { s := true, d := .n 11, a := .n 11, b := .q 11, p := 7 })
    ∧ decodeIn .ctl 0b1_000000_11000_11010_00011_0010_010011 = .ok (.maxz { s := true, d := .n 8, a := .n 10, b := .q 3, p := 2 })
    ∧ decodeIn .ctl 0b1_000000_11100_10000_00100_0100_010100 = .ok (.adda { s := true, d := .n 12, a := .n 0, b := .q 4, p := 4 })
    ∧ decodeIn .ctl 0b0_000000_11001_01111_00000_1100_010101 = .ok (.clz { s := false, d := .n 9, a := .q 15, p := 12 })
    ∧ decodeIn .ctl 0b1_000000_11111_11101_00000_0101_010110 = .ok (.ctz { s := true, d := .n 15, a := .n 13, p := 5 })
    ∧ decodeIn .ctl 0b1_000000_11101_00001_00000_1010_010111 = .ok (.popc { s := true, d := .n 13, a := .q 1, p := 10 })
    ∧ decodeIn .ctl 0b0_000000_10100_10101_11100_1110_011000 = .ok (.sext { s := false, d := .n 4, a := .n 5, b := .n 12, p := 14 })
    ∧ decodeIn .ctl 0b0_000000_00000_10110_11110_1011_011001 = .ok (.pick { s := false, d := .push, a := .n 6, b := .n 14, p := 11 }) := by decide +kernel

/-- One word of each instruction, its fields written out from the encoding tables: immediates. -/
theorem test_decode_immediates :
    decodeIn .ctl 0b0_000001_11001_11110_1001_10111110000 = .ok (.addi { s := false, d := .n 9, a := .n 14, p := 9, i := 1520 })
    ∧ decodeIn .ctl 0b0_000010_11111_11111_1011_10111101011 = .ok (.andi { s := false, d := .n 15, a := .n 15, p := 11, i := 1515 })
    ∧ decodeIn .ctl 0b1_000011_11110_10111_0110_11000010000 = .ok (.ori { s := true, d := .n 14, a := .n 7, p := 6, i := 1552 })
    ∧ decodeIn .ctl 0b0_000100_10100_11000_1000_10001011001 = .ok (.xori { s := false, d := .n 4, a := .n 8, p := 8, i := 1113 })
    ∧ decodeIn .ctl 0b0_000101_10011_00000_0011_00000_000001 = .ok (.shli { s := false, d := .n 3, a := .q 0, p := 3, h := 1 })
    ∧ decodeIn .ctl 0b0_000101_11001_00001_0101_01000_001110 = .ok (.shri { s := false, d := .n 9, a := .q 1, p := 5, h := 14 })
    ∧ decodeIn .ctl 0b0_000101_11000_11001_0000_10000_010010 = .ok (.shai { s := false, d := .n 8, a := .n 9, p := 0, h := 18 })
    ∧ decodeIn .ctl 0b1_000110_00000_00010011101101101101 = .ok (.lil { s := true, d := .push, i := 80749 })
    ∧ decodeIn .ctl 0b1_000111_10010_00110001100010101010 = .ok (.lih { s := true, d := .n 2, i := 202922 })
    ∧ decodeIn .ctl 0b1_001000_11101_10010_1101_000011_10011 = .ok (.bfx { s := true, d := .n 13, a := .n 2, p := 13, o := 3, w := 19 })
    ∧ decodeIn .ctl 0b0_001001_10011_01111_0000_010011_11011 = .ok (.bfi { s := false, d := .n 3, a := .q 15, p := 0, o := 19, w := 27 })
    ∧ decodeIn .ctl 0b1_001010_0_1010_00100_11000_1100_000000 = .ok (.cmp { s := true, pd := 10, a := .q 4, b := .n 8, p := 12, c := 0 }) := by decide +kernel

/-- One word of each instruction, its fields written out from the encoding tables: control and memory. -/
theorem test_decode_control_and_memory :
    decodeIn .ctl 0b1_001011_0_0001_10111_0100_011_10110100 = .ok (.cmpi { s := true, pd := 1, a := .n 7, p := 4, c := 3, i := 180 })
    ∧ decodeIn .ctl 0b0_001100_0_1101_0_0101_0_1001_0010_00_1001 = .ok (.plog { s := false, pd := 13, pa := 5, pb := 9, p := 2, t := 9 })
    ∧ decodeIn .ctl 0b0_001100_11101_10100_10110_0010_01_1110 = .ok (.sel { s := false, d := .n 13, a := .n 4, b := .n 6, p := 2, t := 14 })
    ∧ decodeIn .ctl 0b0_001101_0110_1_10001001011100011000 = .ok (.br { s := false, p := 6, n := true, o := 562968 })
    ∧ decodeIn .ctl 0b1_001110_0110_1_11011011101110000001 = .ok (.call { s := true, p := 6, n := true, o := 899969 })
    ∧ decodeIn .ctl 0b1_001111_00000_00111_00000_0111_000000 = .ok (.jmp { s := true, a := .q 7, p := 7 })
    ∧ decodeIn .ctl 0b1_001111_00000_00011_00000_0100_000001 = .ok (.callr { s := true, a := .q 3, p := 4 })
    ∧ decodeIn .ctl 0b1_001111_000000000000000_0110_000010 = .ok (.ret { s := true, p := 6 })
    ∧ decodeIn .ctl 0b1_010000_00000_11111_000000000000_000 = .ok (.ndim { s := true, a := .n 15, l := 0 })
    ∧ decodeIn .ctl 0b1_010000_0000000000000001000_011000 = .ok (.nest { s := true, w := 24 })
    ∧ decodeIn .ctl 0b0_010000_11100_00000_0000_10000000_010 = .ok (.lidx { s := false, d := .n 12, p := 0, l := 2 })
    ∧ decodeIn .ctl 0b1_010001_10101_11011_1000_11_000111101 = .ok (.ld { s := true, d := .n 5, b := .n 11, k := 8, z := 3, o := 61 })
    ∧ decodeIn .ctl 0b1_010010_10001_11001_1101_10_000101100 = .ok (.ldz { s := true, d := .n 1, b := .n 9, k := 13, z := 2, o := 44 })
    ∧ decodeIn .ctl 0b1_010011_10001_11000_1010_10_100110110 = .ok (.st { s := true, x := .n 1, b := .n 8, k := 10, z := 2, o := 310 })
    ∧ decodeIn .ctl 0b1_010100_11010_00111_0101_00_010010011 = .ok (.ldn { s := true, d := .n 10, b := .q 7, k := 5, o := 147 })
    ∧ decodeIn .ctl 0b1_010100_10101_11011_1011_01_111001101 = .ok (.stn { s := true, x := .n 5, b := .n 11, k := 11, o := 461 })
    ∧ decodeIn .ctl 0b1_010101_10111_11000_1010_11_1_000_00000 = .ok (.fld { s := true, d := .n 7, b := .n 8, k := 10, z := 3, q := true, c := .stream, o := 0 })
    ∧ decodeIn .ctl 0b0_010110_00100_10100_1001_11_1_011_00101 = .ok (.fst { s := false, x := .q 4, b := .n 4, k := 9, z := 3, q := true, c := .die, o := 5 })
    ∧ decodeIn .ctl 0b0_010111_10101_00000_1101_0_0101010001 = .ok (.csrr { s := false, d := .n 5, p := 13, c := 337 })
    ∧ decodeIn .ctl 0b1_010111_00000_01010_0100_1_0100010101 = .ok (.csrw { s := true, a := .q 10, p := 4, c := 277 }) := by decide +kernel

/-- One word of each instruction, its fields written out from the encoding tables: system and status. -/
theorem test_decode_system_and_status :
    decodeIn .ctl 0b1_011000_11100_0000000000_1110_000000 = .ok (.cyc { s := true, d := .n 12, p := 14 })
    ∧ decodeIn .ctl 0b1_011000_0000000000000000000000001 = .ok (.nop { s := true })
    ∧ decodeIn .ctl 0b0_011000_0000000000_11010_0110_000010 = .ok (.trap { s := false, n := 26, p := 6 })
    ∧ decodeIn .ctl 0b1_011001_00000_1010000000000011_010_0 = .ok (.fence { s := true, m := 0xA003, c := .cluster })
    ∧ decodeIn .ctl 0b1_011111_00000000000000_0_1100_000000 = .ok (.mode { s := true, l := false, p := 12 })
    ∧ decodeIn .ctl 0b1_011111_000000000000000_0000_000001 = .ok (.tret { s := true, p := 0 })
    ∧ decodeIn .ctl 0b1_011111_00000_10000_10101_1011_000010 = .ok (.ctxsave { s := true, a := .n 0, b := .n 5, p := 11 })
    ∧ decodeIn .ctl 0b0_011111_00000_11000_01011_1001_000011 = .ok (.ctxload { s := false, a := .n 8, b := .q 11, p := 9 })
    ∧ decodeIn .ctl 0b1_011111_00000_00001_00000_1001_000100 = .ok (.preempt { s := true, a := .q 1, p := 9 })
    ∧ decodeIn .ctl 0b0_011111_00000_11101_00110_0000_000101 = .ok (.semmap { s := false, a := .n 13, b := .q 6, p := 0 })
    ∧ decodeIn .ctl 0b1_011111_00000_10001_01000_1010_000110 = .ok (.tlbinv { s := true, a := .n 1, b := .q 8, p := 10 })
    ∧ decodeIn .ctl 0b0_011111_10110_00010_11010_0111_000111 = .ok (.tlbprobe { s := false, d := .n 6, a := .q 2, b := .n 10, p := 7 })
    ∧ decodeIn .ctl 0b0_011111_00000_00101_11010_0101_001000 = .ok (.hint { s := false, a := .q 5, b := .n 10, p := 5 })
    ∧ decodeIn .ctl 0b1_011111_00000_01011_00000_1011_001001 = .ok (.halt { s := true, a := .q 11, p := 11 })
    ∧ decodeIn .ctl 0b1_011111_00000_11011_00000_0111_001010 = .ok (.wflush { s := true, a := .n 11, p := 7 }) := by decide +kernel

/-- One word of each instruction, its fields written out from the encoding tables: synchronisation. -/
theorem test_decode_synchronisation :
    decodeIn .ctl 0b0_011010_00000_11001_11110_001_1111_000 = .ok (.semsig { s := false, a := .n 9, b := .n 14, c := .core, k := 15 })
    ∧ decodeIn .ctl 0b1_011010_00000_11111_01111_010_1100_001 = .ok (.semwait { s := true, a := .n 15, b := .q 15, c := .cluster, k := 12 })
    ∧ decodeIn .ctl 0b0_011010_00000_00111_00110_011_0100_010 = .ok (.semtry { s := false, d := .push, a := .q 7, b := .q 6, c := .die, k := 4 })
    ∧ decodeIn .ctl 0b1_011010_11000_11000_11101_000_0000_011 = .ok (.semadd { s := true, d := .n 8, a := .n 8, b := .n 13, c := .stream, k := 0 })
    ∧ decodeIn .ctl 0b0_011010_10011_10001_11001_101_0101_100 = .ok (.semcas { s := false, d := .n 3, a := .n 1, b := .n 9, c := .domain, k := 5 })
    ∧ decodeIn .ctl 0b0_011010_11110_11000_00000_100_0000_101 = .ok (.semrd { s := false, d := .n 14, a := .n 8, c := .device, k := 0 })
    ∧ decodeIn .ctl 0b0_011011_00000_10010_00000_110_1010_000 = .ok (.mtxlock { s := false, a := .n 2, c := .system, k := 10 })
    ∧ decodeIn .ctl 0b0_011011_00000_11111_00000_010_0010_001 = .ok (.mtxtry { s := false, d := .push, a := .n 15, c := .cluster, k := 2 })
    ∧ decodeIn .ctl 0b1_011011_00000_11101_00000_101_0011_010 = .ok (.mtxfree { s := true, a := .n 13, c := .domain, k := 3 })
    ∧ decodeIn .ctl 0b1_011011_10011_01111_00000_000_1011_011 = .ok (.bararr { s := true, d := .n 3, a := .q 15, b := .q 0, c := .stream, k := 11 })
    ∧ decodeIn .ctl 0b1_011011_11010_10100_01000_110_1100_100 = .ok (.barwait { s := true, d := .n 10, a := .n 4, b := .q 8, c := .system, k := 12 })
    ∧ decodeIn .ctl 0b0_011011_0000000000000000000000101 = .ok (.rdv { s := false })
    ∧ decodeIn .ctl 0b0_011100_00000_10001_00000000_0111_000 = .ok (.evset { s := false, a := .n 1, k := 7 })
    ∧ decodeIn .ctl 0b0_011100_00000_10100_000000000000001 = .ok (.evclr { s := false, a := .n 4 })
    ∧ decodeIn .ctl 0b0_011100_00000_10111_10101_000_1101_010 = .ok (.evwait { s := false, a := .n 7, b := .n 5, k := 13 })
    ∧ decodeIn .ctl 0b1_011100_00000_00101_11001_0000000011 = .ok (.waitlt { s := true, a := .q 5, b := .n 9 })
    ∧ decodeIn .ctl 0b0_011101_10010_11100_01101_000_0100_000 = .ok (.claim { s := false, d := .n 2, a := .n 12, b := .q 13, k := 4 })
    ∧ decodeIn .ctl 0b1_011101_10110_00010_11110_000_0110_001 = .ok (.commit { s := true, d := .n 6, a := .q 2, b := .n 14, k := 6 })
    ∧ decodeIn .ctl 0b0_011101_10011_00001_10110_000_0001_010 = .ok (.await { s := false, d := .n 3, a := .q 1, b := .n 6, k := 1 })
    ∧ decodeIn .ctl 0b1_011101_10111_00111_00111_000_0011_011 = .ok (.retire { s := true, d := .n 7, a := .q 7, b := .q 7, k := 3 })
    ∧ decodeIn .ctl 0b1_011110_00000_10100_000000000000000 = .ok (.sleepu { s := true, a := .n 4 })
    ∧ decodeIn .ctl 0b1_011110_10110_11111_11110_0000000001 = .ok (.waita { s := true, d := .n 6, a := .n 15, b := .n 14 }) := by decide +kernel

/-- One word of each instruction, its fields written out from the encoding tables: messages. -/
theorem test_decode_messages :
    decodeIn .ctl 0b1_100000_00000_11000_00_1010_0011_00000 = .ok (.qcfg { s := true, a := .n 8, q := 10, p := 3 })
    ∧ decodeIn .ctl 0b1_100000_00000_10010_101100_0000_00001 = .ok (.chmap { s := true, a := .n 2, h := 44, p := 0 })
    ∧ decodeIn .ctl 0b1_100000_00000_00100_110100_1001_00010 = .ok (.send { s := true, a := .q 4, h := 52, p := 9 })
    ∧ decodeIn .ctl 0b1_100000_0_1111_11100_011111_1101_00011 = .ok (.sends { s := true, pd := 15, a := .n 12, h := 31, p := 13 })
    ∧ decodeIn .ctl 0b0_100000_00000_11101_00_0001_1010_00100 = .ok (.recv { s := false, d := .push, a := .n 13, q := 1, p := 10 })
    ∧ decodeIn .ctl 0b1_100000_10100_10101_00_1100_1110_00101 = .ok (.recvs { s := true, d := .n 4, a := .n 5, q := 12, p := 14 })
    ∧ decodeIn .ctl 0b0_100000_11010_0000000_0110_1110_00110 = .ok (.peek { s := false, d := .n 10, q := 6, p := 14 })
    ∧ decodeIn .ctl 0b0_100000_11011_11001_111110_1001_00111 = .ok (.qstat { s := false, d := .n 11, a := .n 9, h := 62, p := 9 })
    ∧ decodeIn .ctl 0b0_100000_00000_11111_00_1111_1111_01000 = .ok (.qfree { s := false, a := .n 15, q := 15, p := 15 })
    ∧ decodeIn .ctl 0b1_100000_00000_01011_00_1100_1110_01001 = .ok (.mcast { s := true, a := .q 11, q := 12, p := 14 }) := by decide +kernel

/-- One word of each instruction, its fields written out from the encoding tables: forager. -/
theorem test_decode_forager :
    decodeIn .ctl 0b0_100001_00000_10111_00110_0000_000000 = .ok (.fgstart { s := false, a := .n 7, b := .q 6, p := 0 })
    ∧ decodeIn .ctl 0b0_100001_00000_00100_00000_1000_000001 = .ok (.fgstop { s := false, a := .q 4, p := 8 })
    ∧ decodeIn .ctl 0b0_100001_11000_11101_00000_0011_000010 = .ok (.fgstat { s := false, d := .n 8, a := .n 13, p := 3 })
    ∧ decodeIn .ctl 0b1_100001_00000_10011_00000_0001_000011 = .ok (.fglate { s := true, d := .push, a := .n 3, p := 1 })
    ∧ decodeIn .ctl 0b1_100001_00000_11001_00001_0101_000100 = .ok (.fgwin { s := true, a := .n 9, b := .q 1, p := 5 })
    ∧ decodeIn .ctl 0b1_100001_00000_11110_11000_1001_000101 = .ok (.fgpace { s := true, a := .n 14, b := .n 8, p := 9 })
    ∧ decodeIn .ctl 0b0_100001_00000_10000_00000_0010_000110 = .ok (.fgmc { s := false, a := .n 0, p := 2 })
    ∧ decodeIn .ctl 0b0_100001_00000_01110_01010_0010_000111 = .ok (.fgmark { s := false, a := .q 14, b := .q 10, p := 2 }) := by decide +kernel

/-- One word of each instruction, its fields written out from the encoding tables: launch. -/
theorem test_decode_launch :
    decodeIn .ctl 0b1_100010_11111_01101_10010_1101_000000 = .ok (.launch { s := true, d := .n 15, a := .q 13, b := .n 2, p := 13 })
    ∧ decodeIn .ctl 0b1_100010_10011_10011_00011_1111_000001 = .ok (.post { s := true, d := .n 3, a := .n 3, b := .q 3, p := 15 })
    ∧ decodeIn .ctl 0b1_100010_10000_00010_00000_1011_000010 = .ok (.take { s := true, d := .n 0, a := .q 2, p := 11 })
    ∧ decodeIn .ctl 0b1_100010_00000_11010_00000_0100_000011 = .ok (.yieldJob { s := true, a := .n 10, p := 4 })
    ∧ decodeIn .ctl 0b0_100010_00000_01000_00000_1100_000100 = .ok (.doneJob { s := false, a := .q 8, p := 12 })
    ∧ decodeIn .ctl 0b1_100010_11100_10001_00000_0111_000101 = .ok (.coord { s := true, d := .n 12, a := .n 1, p := 7 })
    ∧ decodeIn .ctl 0b0_100010_00000_00100_00000_0111_000110 = .ok (.swcfg { s := false, a := .q 4, p := 7 })
    ∧ decodeIn .ctl 0b1_100010_10101_11101_10101_1001_000111 = .ok (.swtake { s := true, d := .n 5, a := .n 13, b := .n 5, p := 9 })
    ∧ decodeIn .ctl 0b1_100010_10010_11100_00000_1101_001000 = .ok (.stgq { s := true, d := .n 2, a := .n 12, p := 13 }) := by decide +kernel

/-- One word of each instruction, its fields written out from the encoding tables: audit. -/
theorem test_decode_audit :
    decodeIn .ctl 0b1_100011_00000_10100_10110_0010_000000 = .ok (.asamp { s := true, a := .n 4, b := .n 6, p := 2 })
    ∧ decodeIn .ctl 0b0_100011_00000_11110_00000_0110_000001 = .ok (.amode { s := false, a := .n 14, p := 6 })
    ∧ decodeIn .ctl 0b1_100011_00000_00011_10001_0110_000010 = .ok (.athr { s := true, a := .q 3, b := .n 1, p := 6 })
    ∧ decodeIn .ctl 0b0_100011_00000_10001_00000_0111_000011 = .ok (.aown { s := false, a := .n 1, p := 7 })
    ∧ decodeIn .ctl 0b0_100011_00000_00111_00000_0111_000100 = .ok (.aforce { s := false, a := .q 7, p := 7 })
    ∧ decodeIn .ctl 0b1_100011_00000_00100_00110_1111_000101 = .ok (.ahist { s := true, d := .push, a := .q 4, b := .q 6, p := 15 })
    ∧ decodeIn .ctl 0b0_100011_00000_11110_00000_1000_000110 = .ok (.aclr { s := false, a := .n 14, p := 8 })
    ∧ decodeIn .ctl 0b1_100011_00000_10000_00000_0000_000111 = .ok (.astat { s := true, d := .push, a := .n 0, p := 0 })
    ∧ decodeIn .ctl 0b1_100011_000000000000000_0101_001000 = .ok (.arel { s := true, p := 5 }) := by decide +kernel

/-- One word of each instruction, its fields written out from the encoding tables: copy. -/
theorem test_decode_copy :
    decodeIn .copy 0b0_100100_1011_000_11000_0000000000000 = .ok (.cset { s := false, r := 11, a := .n 8 })
    ∧ decodeIn .copy 0b1_100100_1011_001_110100110110000001 = .ok (.cseti { s := true, r := 11, i := 216449 })
    ∧ decodeIn .copy 0b0_100100_0011_010_11001_11101_00000000 = .ok (.cdim { s := false, r := 3, a := .n 9, b := .n 13 })
    ∧ decodeIn .copy 0b1_100100_0110_011_10000_0000000000000 = .ok (.cldc { s := true, r := 6, a := .n 0 })
    ∧ decodeIn .copy 0b1_100100_0001_100_11000_0000000000000 = .ok (.cstc { s := true, r := 1, a := .n 8 })
    ∧ decodeIn .copy 0b1_100101_00000_0000000000_0110_000000 = .ok (.copy { s := true, d := .push, p := 6 })
    ∧ decodeIn .copy 0b1_100101_10010_0000000000_1010_000001 = .ok (.gather { s := true, d := .n 2, p := 10 })
    ∧ decodeIn .copy 0b0_100101_10111_0000000000_0101_000010 = .ok (.scatter { s := false, d := .n 7, p := 5 })
    ∧ decodeIn .copy 0b0_100101_11010_0000000000_0101_000011 = .ok (.cfill { s := false, d := .n 10, p := 5 })
    ∧ decodeIn .copy 0b1_100101_00000_0000000000_1011_000100 = .ok (.kvlist { s := true, d := .push, p := 11 })
    ∧ decodeIn .copy 0b0_100101_11011_0000000000_0111_000101 = .ok (.ttile { s := false, d := .n 11, p := 7 })
    ∧ decodeIn .copy 0b0_100101_00000_01000_00000_1010_000110 = .ok (.cfollow { s := false, a := .q 8, p := 10 })
    ∧ decodeIn .copy 0b1_100110_10011_10010_11100_0000_000000 = .ok (.tdef { s := true, d := .n 3, a := .n 2, b := .n 12, p := 0 })
    ∧ decodeIn .copy 0b0_100110_00000_00100_00000_0100_000001 = .ok (.publish { s := false, a := .q 4, p := 4 })
    ∧ decodeIn .copy 0b0_100110_11001_11111_11100_1111_000010 = .ok (.frmap { s := false, d := .n 9, a := .n 15, b := .n 12, p := 15 })
    ∧ decodeIn .copy 0b0_100110_11101_10101_00000_1101_000011 = .ok (.cstat { s := false, d := .n 13, a := .n 5, p := 13 })
    ∧ decodeIn .copy 0b1_100110_10001_11010_00100_0101_000100 = .ok (.cbmap { s := true, d := .n 1, a := .n 10, b := .q 4, p := 5 })
    ∧ decodeIn .copy 0b1_100110_11100_11110_00000_1010_000101 = .ok (.cresume { s := true, d := .n 12, a := .n 14, p := 10 })
    ∧ decodeIn .copy 0b0_100110_10110_11110_00000_1011_000110 = .ok (.ccancel { s := false, d := .n 6, a := .n 14, p := 11 })
    ∧ decodeIn .copy 0b1_100110_00000_11001_00000_1110_000111 = .ok (.cwait { s := true, a := .n 9, p := 14 }) := by decide +kernel

/-- One word of each instruction, its fields written out from the encoding tables: matrix. -/
theorem test_decode_matrix :
    decodeIn .mat 0b0_101000_00000_11001_00000_1111_000000 = .ok (.mcfg { s := false, a := .n 9, p := 15 })
    ∧ decodeIn .mat 0b0_101000_000000000000000_1111_000001 = .ok (.mrel { s := false, p := 15 })
    ∧ decodeIn .mat 0b0_101000_00000_11111_00000_1011_000010 = .ok (.wload { s := false, a := .n 15, p := 11 })
    ∧ decodeIn .mat 0b0_101000_00000_01100_00000_1110_000011 = .ok (.wflip { s := false, a := .q 12, p := 14 })
    ∧ decodeIn .mat 0b1_101000_00000_10111_00000_0110_000100 = .ok (.mmul { s := true, a := .n 7, p := 6 })
    ∧ decodeIn .mat 0b0_101000_00000_10000_00100_1000_000101 = .ok (.mband { s := false, a := .n 0, b := .q 4, p := 8 })
    ∧ decodeIn .mat 0b0_101000_00000_11000_00000_1101_000110 = .ok (.mtag { s := false, a := .n 8, p := 13 })
    ∧ decodeIn .mat 0b1_101000_000000000000000_0011_000111 = .ok (.mswap { s := true, p := 3 })
    ∧ decodeIn .mat 0b1_101000_00000_00000_00000_0011_001000 = .ok (.mclr { s := true, a := .q 0, p := 3 })
    ∧ decodeIn .mat 0b0_101000_00000_10001_01001_0001_001001 = .ok (.msave { s := false, a := .n 1, b := .q 9, p := 1 })
    ∧ decodeIn .mat 0b1_101000_00000_10101_11110_1000_001010 = .ok (.mrest { s := true, a := .n 5, b := .n 14, p := 8 })
    ∧ decodeIn .mat 0b0_101000_00000_11001_00000_0000_001011 = .ok (.mpace { s := false, a := .n 9, p := 0 })
    ∧ decodeIn .mat 0b1_101000_000000000000000_0010_001100 = .ok (.mdrain { s := true, p := 2 })
    ∧ decodeIn .mat 0b1_101000_11110_01010_00000_0010_001101 = .ok (.mstat { s := true, d := .n 14, a := .q 10, p := 2 }) := by decide +kernel

/-- One word of each instruction, its fields written out from the encoding tables: vector memory. -/
theorem test_decode_vector_memory :
    decodeIn .vec 0b1_110000_0000000_11111_0000000000000 = .ok (.vshape { s := true, a := .n 15 })
    ∧ decodeIn .vec 0b1_110000_011101_0_10010_000000_1101_001 = .ok (.vld { s := true, v := .v 13, a := .n 2, m := 13 })
    ∧ decodeIn .vec 0b0_110000_0000000_10011_100011_0011_010 = .ok (.vst { s := false, a := .n 3, x := .v 19, m := 3 })
    ∧ decodeIn .vec 0b0_110000_00_1111_0_10000_0000000000011 = .ok (.vldm { s := false, v := 15, a := .n 0 })
    ∧ decodeIn .vec 0b0_110000_0000000_10010_00_1011_0000100 = .ok (.vstm { s := false, a := .n 2, b := 11 })
    ∧ decodeIn .vec 0b0_110000_000000_0_10100_100000_1100_101 = .ok (.vgat { s := false, v := .push, a := .n 4, x := .v 16, m := 12 })
    ∧ decodeIn .vec 0b0_110000_101000_0_00001_100111_0100_110 = .ok (.vsct { s := false, v := .zero, a := .q 1, x := .v 23, m := 4 })
    ∧ decodeIn .vec 0b0_110000_000000_0_10101_000000_1101_111 = .ok (.vsplat { s := false, v := .push, a := .n 5, m := 13 })
    ∧ decodeIn .vec 0b0_110001_0_00000_011001_0_00010_0000000 = .ok (.vmovs { s := false, d := .push, x := .v 9, b := .q 2 })
    ∧ decodeIn .vec 0b1_110001_100100_0_01101_0_00100_0110_001 = .ok (.viota { s := true, v := .v 20, a := .q 13, b := .q 4, m := 6 })
    ∧ decodeIn .vec 0b1_110001_100010_0_11110_000000_0110_010 = .ok (.vaccr { s := true, v := .v 18, a := .n 14, m := 6 })
    ∧ decodeIn .vec 0b0_110001_0000000_10011_011001_0110_011 = .ok (.vaccw { s := false, a := .n 3, x := .v 9, m := 6 }) := by decide +kernel

/-- One word of each instruction, its fields written out from the encoding tables: vector arithmetic. -/
theorem test_decode_vector_arithmetic :
    decodeIn .vec 0b0_110010_011001_100111_011111_0111_000 = .ok (.vadd { s := false, v := .v 9, x := .v 23, y := .v 15, m := 7 })
    ∧ decodeIn .vec 0b0_110010_011011_000100_000110_1111_001 = .ok (.vsub { s := false, v := .v 11, x := .q 4, y := .q 6, m := 15 })
    ∧ decodeIn .vec 0b0_110010_000000_011000_001100_0000_010 = .ok (.vmul { s := false, v := .push, x := .v 8, y := .q 12, m := 0 })
    ∧ decodeIn .vec 0b0_110010_011000_010101_001011_1000_011 = .ok (.vmax { s := false, v := .v 8, x := .v 5, y := .q 11, m := 8 })
    ∧ decodeIn .vec 0b0_110010_000000_101001_010001_1001_100 = .ok (.vmin { s := false, v := .push, x := .lane, y := .v 1, m := 9 })
    ∧ decodeIn .vec 0b0_110010_000000_101000_000000_0000_101 = .ok (.vabs { s := false, v := .push, x := .zero, m := 0 })
    ∧ decodeIn .vec 0b1_110010_100001_101001_000000_1010_110 = .ok (.vneg { s := true, v := .v 17, x := .lane, m := 10 })
    ∧ decodeIn .vec 0b0_110010_010110_010010_101001_0111_111 = .ok (.vclamp { s := false, v := .v 6, x := .v 2, y := .lane, m := 7 })
    ∧ decodeIn .vec 0b0_110011_011101_010010_010101_1011_000 = .ok (.vscale { s := false, v := .v 13, x := .v 2, y := .v 5, m := 11 })
    ∧ decodeIn .vec 0b0_110011_000000_011011_000000_0111_001 = .ok (.vrcp { s := false, v := .push, x := .v 11, m := 7 })
    ∧ decodeIn .vec 0b1_110011_010000_001010_000000_0011_010 = .ok (.vrsq { s := true, v := .v 0, x := .q 10, m := 3 })
    ∧ decodeIn .vec 0b0_110011_010010_101001_000000_0000_011 = .ok (.vexp { s := false, v := .v 2, x := .lane, m := 0 })
    ∧ decodeIn .vec 0b1_110011_011100_101000_000000_1001_100 = .ok (.vlog { s := true, v := .v 12, x := .zero, m := 9 })
    ∧ decodeIn .vec 0b0_110100_010111_101001_0_01111_1101_000 = .ok (.vcvt { s := false, v := .v 7, x := .lane, b := .q 15, m := 13 })
    ∧ decodeIn .vec 0b0_110100_010101_001101_000001_0000001 = .ok (.vquant { s := false, v := .v 5, x := .q 13, y := .q 1 }) := by decide +kernel

/-- One word of each instruction, its fields written out from the encoding tables: vector masks and reductions. -/
theorem test_decode_vector_masks_and_reductions :
    decodeIn .vec 0b0_110101_100010_101000_000101_1100_000 = .ok (.viadd { s := false, v := .v 18, x := .zero, y := .q 5, m := 12 })
    ∧ decodeIn .vec 0b0_110101_010110_001010_011110_1110_001 = .ok (.visub { s := false, v := .v 6, x := .q 10, y := .v 14, m := 14 })
    ∧ decodeIn .vec 0b0_110101_010011_101001_101000_1001_010 = .ok (.vimul { s := false, v := .v 3, x := .lane, y := .zero, m := 9 })
    ∧ decodeIn .vec 0b1_110101_000000_100111_011111_1011_011 = .ok (.vand { s := true, v := .push, x := .v 23, y := .v 15, m := 11 })
    ∧ decodeIn .vec 0b0_110101_010100_100110_100111_0110_100 = .ok (.vor { s := false, v := .v 4, x := .v 22, y := .v 23, m := 6 })
    ∧ decodeIn .vec 0b1_110101_000000_101000_101000_1000_101 = .ok (.vxor { s := true, v := .push, x := .zero, y := .zero, m := 8 })
    ∧ decodeIn .vec 0b1_110101_010101_010011_101001_0011_110 = .ok (.vshl { s := true, v := .v 5, x := .v 3, y := .lane, m := 3 })
    ∧ decodeIn .vec 0b1_110101_011001_100001_000001_0101_111 = .ok (.vshr { s := true, v := .v 9, x := .v 17, y := .q 1, m := 5 })
    ∧ decodeIn .vec 0b1_110110_100110_101001_010001_0000_000 = .ok (.vsha { s := true, v := .v 22, x := .lane, y := .v 1, m := 0 })
    ∧ decodeIn .vec 0b1_110111_00_010_0_001110_001010_0010_000 = .ok (.vcmp { s := true, j := 2, x := .q 14, y := .q 10, m := 2 })
    ∧ decodeIn .vec 0b0_110111_00_111_0_101001_010010_1101_001 = .ok (.vicmp { s := false, j := 7, x := .lane, y := .v 2, m := 13 })
    ∧ decodeIn .vec 0b1_110111_100011_101000_101000_1111_010 = .ok (.vsel { s := true, v := .v 19, x := .zero, y := .zero, m := 15 })
    ∧ decodeIn .vec 0b0_110111_00_0000_00_0010_0_01011_1010_011 = .ok (.vmlog { s := false, v := 0, x := 2, b := .q 11, m := 10 })
    ∧ decodeIn .vec 0b0_110111_0_10100_00_1000_000000_1100_100 = .ok (.vmpop { s := false, d := .n 4, x := 8, m := 12 })
    ∧ decodeIn .vec 0b1_110111_0_11100_00_0001_000000_0111_101 = .ok (.vmfirst { s := true, d := .n 12, x := 1, m := 7 })
    ∧ decodeIn .vec 0b1_111000_010100_100111_0_00101_1101_000 = .ok (.vred { s := true, v := .v 4, x := .v 23, b := .q 5, m := 13 })
    ∧ decodeIn .vec 0b0_111000_100101_100001_0_10010_1100_001 = .ok (.vredc { s := false, v := .v 21, x := .v 17, b := .n 2, m := 12 })
    ∧ decodeIn .vec 0b0_111000_000000_000100_0_10110_0010_010 = .ok (.vscan { s := false, v := .push, x := .q 4, b := .n 6, m := 2 })
    ∧ decodeIn .vec 0b0_111000_100110_010110_000000_0011_011 = .ok (.vpart { s := false, v := .v 22, x := .v 6, m := 3 })
    ∧ decodeIn .vec 0b1_111000_000000_011110_0_10001_0111_100 = .ok (.vhist { s := true, v := .push, x := .v 14, b := .n 1, m := 7 })
    ∧ decodeIn .vec 0b0_111000_011111_100111_0_00011_0100_101 = .ok (.vord { s := false, v := .v 15, x := .v 23, b := .q 3, m := 4 })
    ∧ decodeIn .vec 0b0_111000_010110_011111_000000_1110_110 = .ok (.vtrn { s := false, v := .v 6, x := .v 15, m := 14 })
    ∧ decodeIn .vec 0b0_111000_000000_101000_000000_0000_111 = .ok (.vperm { s := false, v := .push, x := .zero, y := .q 0, m := 0 })
    ∧ decodeIn .vec 0b1_111001_011010_100110_0000000000000 = .ok (.vosm { s := true, v := 5, x := 11 })
    ∧ decodeIn .vec 0b1_111010_010000_001011_010001_0001_0_01 = .ok (.vfma { s := true, v := .v 0, x := .q 11, y := .v 1, m := 1, f := 1 }) := by decide +kernel

/-- One word of each instruction, its fields written out from the encoding tables: token trees. -/
theorem test_decode_token_trees :
    decodeIn .vec 0b1_111100_000000_11101_00000_0110_00000 = .ok (.ttclr { s := true, a := .n 13, p := 6 })
    ∧ decodeIn .vec 0b1_111100_0_10000_10001_11000_1010_00001 = .ok (.ttnew { s := true, d := .n 0, a := .n 1, b := .n 8, p := 10 })
    ∧ decodeIn .vec 0b1_111100_0_10110_00010_01010_0111_00010 = .ok (.ttadd { s := true, d := .n 6, a := .q 2, b := .q 10, p := 7 })
    ∧ decodeIn .vec 0b0_111100_0_00000_01010_10101_1011_00011 = .ok (.ttload { s := false, d := .push, a := .q 10, b := .n 5, p := 11 })
    ∧ decodeIn .vec 0b1_111100_000000_11011_11011_0111_00100 = .ok (.ttstore { s := true, a := .n 11, b := .n 11, p := 7 })
    ∧ decodeIn .vec 0b1_111100_00_1000_01010_00000_0011_00101 = .ok (.ttmask { s := true, v := 8, a := .q 10, p := 3 })
    ∧ decodeIn .vec 0b1_111100_011010_11100_00000_0000_00110 = .ok (.ttpos { s := true, v := .v 10, a := .n 12, p := 0 })
    ∧ decodeIn .vec 0b0_111100_011100_00100_11001_1111_00111 = .ok (.ttdepth { s := false, v := .v 12, a := .q 4, b := .n 9, p := 15 })
    ∧ decodeIn .vec 0b1_111100_100100_11111_00000_1101_01000 = .ok (.ttpath { s := true, v := .v 20, a := .n 15, p := 13 })
    ∧ decodeIn .vec 0b1_111100_100101_01101_00000_0001_01001 = .ok (.ttprune { s := true, v := .v 21, a := .q 13, p := 1 })
    ∧ decodeIn .vec 0b1_111100_0_11010_10100_00000_0101_01010 = .ok (.ttstat { s := true, d := .n 10, a := .n 4, p := 5 }) := by decide +kernel


/-! ### Small states -/

/-- The machine at reset with the turn of a stream. -/
def on (t : Sec) : State := { State.reset with turn := t }

/-- Named registers with values that can be read. -/
def regs (l : List (Fin 16 × Word)) (s : State) : State :=
  l.foldl (fun s p => s.setCur (s.cur.putSlot (.n p.1) { val := p.2, ready := 0, fld := none })) s

/-- Supervisor mode. -/
def sup (s : State) : State := s.setCur { s.cur with priv := true }

/-- The window at a depth, with room to spill. -/
def atDepth (n : Nat) (s : State) : State := s.setCur { s.cur.setBank { s.cur.bank with depth := n } with spl := 0xFFFF }

/-- The window at a depth, with no room to spill. -/
def deepAt (n : Nat) (s : State) : State := s.setCur (s.cur.setBank { s.cur.bank with depth := n })

/-- n15 holds an address in the window at depth 1. -/
def returnsTo (x : Word) (s : State) : State := regs [(15, x)] (atDepth 1 s)

/-- An active nest of two levels of two and three passes over two body words, at a body word and two indices. -/
def nested (pos : Nat) (i j : BitVec 32) : Nest :=
  { Nest.reset with
    levels := 2
    level := Vector.ofFn fun l => { NestLevel.reset with count := if l.val = 0 then 2 else 3 }
    idx := ((Vector.replicate 6 0).set 0 i).set 1 j
    words := 2
    active := true
    pos := pos }

/-- A nest of one level without a pass. -/
def zeroNest : Nest := { Nest.reset with level := Vector.ofFn fun l => if l.val = 0 then { NestLevel.reset with count := 0 } else NestLevel.reset }

/-- The nest state replaced. -/
def withNest (n : Nest) (s : State) : State := s.setCur (s.cur.setBank { s.cur.bank with nest := n })

/-- A page of stage at address 0 in the core's first translation buffer. -/
def mapped (s : State) : State := s.setCore { s.core with l1 := [{ asid := 0, va := 0, level := 0, pte := 1 }] }

/-- A handler active in the level in force. -/
def inHandler (s : State) : State :=
  s.setCur { s.cur with trap := { s.cur.trap with inh := true }, strap := { s.cur.strap with inh := true } }

/-- A settle bit that still holds until cycle n. -/
def settlingAt (n : Nat) (s : State) : State := s.setCur { s.cur with settling := true, maxReady := n }

/-- A semaphore map entry. -/
def mapSem (i : Fin 256) (x : Word) (s : State) : State := s.setSync { s.core.sync with map := s.core.sync.map.set i x }

/-- Virtual semaphore 0 at local semaphore 5 with a value. -/
def semAt5 (v : BitVec 32) (s : State) : State := setSem (mapSem 0 0x80000005 s) 5 { val := v, fifo := [] }

/-- Semaphore 3 with one waiter. -/
def queued (s : State) : State := setSem s 3 { val := 0, fifo := [{ coord := s.ownCoord, sec := .mat, n := 2, remote := none }] }

/-- A mutex with an owner and waiters. -/
def owned (m : Nat) (t : Sec) (l : List Sec) (s : State) : State := setMutex m { owner := some t, fifo := l } s

/-- A barrier with its fields. -/
def barrier (b : Nat) (t a p : BitVec 8) (s : State) : State := setBarrier b { target := t, arrived := a, phase := p } s

/-- A rendezvous pending from generation g, with the generation now h. -/
def rdvWas (g h : BitVec 8) (s : State) : State := (s.setCur { s.cur with rdvPending := some g }).setSync { s.core.sync with rdvGen := h }

/-- The copy, mat and vec streams have arrived. -/
def arrived (v : Bool) (s : State) : State := s.setSync { s.core.sync with rdvArrived := { ctl := false, copy := v, mat := v, vec := v } }

/-- The last cell of the scratchpad with F = 0xFF. -/
def poisonTag (s : State) : State := s.setCore { s.core with spadTags := [(0xFFFF, 0x00FF)] }

/-- A RET as the second word of a section at 0. -/
def forbiddenBody (s : State) : State := placeWord s 4 ((encode (.ret { s := false, p := 0 })).getD 0)

/-- An uncorrectable error in the last line of the scratchpad. -/
def badLine (s : State) : State := s.setCore { s.core with spadBad := [0xFFFF] }

/-- A ring of four granules, two claimed and one committed. -/
def ring4 : Ring := { base := 0, size := 4, claimed := 2, committed := 1, retired := 0 }

/-- A ring whose commits pass its claims. -/
def badRing (s : State) : State := s.setCore { s.core with spad := [(0x44, 4), (0x4C, 1)] }

/-- Its control block at 0x40. -/
def ringMem (s : State) : State := s.setCore { s.core with spad := [(0x44, 4), (0x48, 2), (0x4C, 1)] }

/-- Queue 0 enabled with entries of given origins. -/
def queueUp (l : List Word) (s : State) : State := setQueue 0 { queueAt s 0 with en := true, lsize := 2, batch := 1, origins := l } s

/-- Queue 0 with an entry and a receive latency. -/
def timed (s : State) : State :=
  let s := queueUp [1] s
  s.setCur { s.cur with rcvl := 1 }

/-- Channel 0 of the stream to core 0 with a credit count and a fault code. -/
def channelUp (c f : Nat) (s : State) : State := setChannel s.turn 0 { channelAt s s.turn 0 with valid := true, credit := c, fault := f } s

/-- Every logical position present. -/
def present (s : State) : State := { s with host := { s.host with present := BitVec.allOnes 192 } }

/-- A shape set. -/
def shaped (t rows cols : Nat) (s : State) : State :=
  s.setVec { s.core.vec with shape := { type := BitVec.ofNat 4 t, rowsM1 := BitVec.ofNat 6 (rows - 1), colsM1 := BitVec.ofNat 12 (cols - 1) } }

/-- A copy command in a phase. -/
def cmdAt (p : CmdPhase) : Cmd := { newCmd .copy (Vector.replicate 16 0) (on .copy) with phase := p }

/-- The engine's queue and its records. -/
def engine (q r : List Cmd) (s : State) : State := s.setEngine { s.core.copy with queue := q, records := r }

/-- A suspended record. -/
def suspended : Cmd := { cmdAt .held with susp := true }

/-- A running MMUL. -/
def mmulJob : MmulJob :=
  { entry := { word := 0, abv := 0, bbv := 0, slot := 0, fol := false, reload := false }, seq := 0, lastPlane := 0, finish := 0, sums := none
    bandA := 0, bandB := [], flags := 0, tap := none }

/-- An MMUL runs. -/
def multiplying (s : State) : State := s.setMat { s.core.mat with running := [mmulJob] }

/-- A matrix fault is pending. -/
def matFault (s : State) : State := s.setMat { s.core.mat with mflt := { s.core.mat.mflt with pend := true } }

/-- An engine fault is pending for the stream. -/
def engineFault (s : State) : State := s.setCur { s.cur with faults := [mkTrap 0x07 0 0] }

/-- Tree 1 with a tree in it. -/
def planted (t : Tree) (s : State) : State := setTree 1 (some t) s

/-- A root and its child. -/
def twoNodes (acc : Bool) : Tree :=
  { base := 5, nodes := [{ token := 7, parent := 255, acc := acc, set := false }, { token := 8, parent := 0, acc := acc, set := false }] }

/-- A frame that is valid and shadowed. -/
def framed (s : State) : State := s.setCore { s.core with frames := s.core.frames.set 0 0x5 }

/-- A tree without room. -/
def fullTree : Tree := { base := 0, nodes := List.replicate 256 { token := 0, parent := 255, acc := false, set := false } }

/-- A tree whose BASE is the greatest, with two accepted nodes. -/
def lastTree : Tree := { twoNodes true with base := BitVec.ofNat 32 maxBase }

/-- Every tree but tree 1 is full. -/
def crowdedTrees (s : State) : State := s.setCore { s.core with trees := (Vector.replicate 64 (some fullTree)).set 1 none }

/-- An image at 0x40 that claims 512 nodes, and one in a line with an uncorrectable error. -/
def longImage (s : State) : State := s.setCore { s.core with spad := [(0x45, 2)] }
def badCell (s : State) : State := s.setCore { s.core with spadBad := [1] }

/-- Register v1 holds an image of E4M3 patches. -/
def imaged (s : State) : State :=
  let tags := ((List.range 80).map fun j => (if j < 64 then 0x0090 else 0x000F) * 2 ^ (512 * 80 + 16 * j)).sum
  s.setVec { s.core.vec with v := s.core.vec.v.set 1 { val := BitVec.ofNat 131072 tags, ready := 0 } }

/-- The end of the task is pending. -/
def endsTask (s : State) : State := s.setCore { s.core with taskEnds := true }

/-- The image of two nodes at 0x40. -/
def treeImageAt (s : State) : State := s.setCore (spadStore s.core 0x40 (treeImage (twoNodes false)))

/-- An armed sample is held. -/
def sampled (s : State) : State := s.setAudit { s.core.audit with sample := some { num := 0, slot := 0, c0 := 0, ncols := 0, stride := 0, frame := 0, need := 0, cells := [], tap := none } }

/-- The audit lock. -/
def locked (s : State) : State := s.setAudit { s.core.audit with lock := true }

/-- Walk 0 in a state, for a job in address space 0. -/
def walking (k : WalkState) (j : Option Nat) (s : State) : State := setWalk 0 { Walk.reset with state := k, job := j } s

/-- Another walk of the die. -/
def walkingAt (w : Nat) (k : WalkState) (j : Option Nat) (s : State) : State := setWalk w { Walk.reset with state := k, job := j } s

/-- The core in address space 1. -/
def otherSpace (s : State) : State := s.setCore { s.core with asid := 1 }

/-- A stream that runs. -/
def running (t : Sec) (s : State) : State := s.onStr t fun st => { st with parked := none }

/-- The supervisor has something pending. -/
def pending (s : State) : State := s.setCore { s.core with pendPreempt := true }

/-- A descriptor with a bad kind at address 0. -/
def badSwarm (s : State) : State := s.setCore { s.core with spad := [(0, 2)] }

/-- An empty section. -/
def noSection : Section := { base := 0, size := 0, offset := 0, mode := false }

/-- A placed job of one stage in a state; the core in focus is its. -/
def job (k : JobState) : Job :=
  { num := 1, image := 0, packet := 0, queue := 0, asid := 0, root := 0
    stages := [{ min := 1, pinned := false, inq := 4, image := { secs := { ctl := noSection, copy := noSection, mat := noSection, vec := noSection }, scratch := 0, scratchSize := 0, scratchOffset := 0, frames := [], channels := [], sems := [] }, records := [] }]
    state := k, code := 0, start := 0, preempts := 0 }

/-- The job placed. -/
def placed (k : JobState) (s : State) : State :=
  ({ s with sched := { s.sched with jobs := [job k] } }).setCore { s.core with place := some (1, 0) }

/-- Launch queue 0 enabled for job code. -/
def openQueue (s : State) : State := setLaunchQueue 0 { launchQueue s 0 with en := true, devok := true } s

/-- Swarm 0 enabled with an emitted batch. -/
def batched (s : State) : State :=
  setSwarm 0 { swarmAt s 0 with en := true, emitted := [{ num := 0, rows := 1, deadline := 0, full := true, slack := false, late := false, addr := 0, model := 0 }] } s

/-- A record in the inbox. -/
def inboxed (s : State) : State := s.setCore { s.core with inbox := [{ cell := 0, origin := 0 }] }

/-- A stream parked. -/
def parkedAt (t : Sec) (s : State) : State := s.onStr t fun st => { st with parked := some { byTrap := none } }

/-- A well-formed area of the copy stream at address 0. -/
def areaAt0 (s : State) : State :=
  parkedAt .copy (s.setCore { s.core with spad := [(0, 0x53), (1, 0x43), (2, 0x54), (3, 0x58), (4, 1), (5, 1), (0x19, 0x33)] })

/-! ### The bytes of an area -/

/-- Bytes of zero make the number zero. -/
theorem numOfBytes_zeros : ∀ l : List Byte, (∀ b ∈ l, b = 0) → numOfBytes l = 0
  | [], _ => rfl
  | b :: l, h => by simp [numOfBytes, h b (by simp), numOfBytes_zeros l fun x hx => h x (by simp [hx])]

theorem numOfBytes_append : ∀ l m : List Byte, numOfBytes (l ++ m) = numOfBytes l + 256 ^ l.length * numOfBytes m
  | [], m => by simp [numOfBytes]
  | b :: l, m => by simp [numOfBytes, numOfBytes_append l m, Nat.pow_succ]; ring

/-- Without frames an address is its own physical address. -/
theorem spadPhys_plain {c : CoreState} (h : c.frames = Vector.replicate 16 0) (a : Nat) : spadPhys c a = a := by
  have : c.frames.toList.find? (fun f => frmSwaps f a) = none := by
    rw [h, List.find?_eq_none]
    intro f hf
    simp only [Vector.toList_replicate, List.mem_replicate] at hf
    obtain ⟨-, rfl⟩ := hf
    simp [frmSwaps, frmValid, bitOf]
  simp [spadPhys, this]

/-- A scratchpad that reads zero from k on holds a number of k bytes. -/
theorem spadNum_head {c : CoreState} {k n : Nat} (h : c.frames = Vector.replicate 16 0) (hk : k + n ≤ spadSize) (h0 : ∀ i, k ≤ i → c.spad.get i = 0) :
    spadNum c 0 (k + n) = numOfBytes ((List.range k).map fun i => c.spad.get i) := by
  have e : ∀ i < k + n, spadByte c (0 + i) = c.spad.get i := fun i hi => by
    rw [spadByte, spadPhys_plain h, Nat.zero_add, Nat.mod_eq_of_lt (by omega)]
  rw [spadNum, spadBytes, List.map_congr_left fun i hi => e i (List.mem_range.mp hi), List.range_add, List.map_append, numOfBytes_append,
    numOfBytes_zeros (List.map _ (List.map _ _)) (by simp only [List.map_map, List.mem_map]; rintro b ⟨i, -, rfl⟩; exact h0 _ (by simp))]
  simp

theorem readSpadArea_clean {c : CoreState} {k n : Nat} (h : c.frames = Vector.replicate 16 0) (hb : c.spadBad = []) (ht : c.spadTags = []) (hk : 64 * n ≤ spadSize)
    (hkn : k ≤ 64 * n) (h0 : ∀ i, k ≤ i → c.spad.get i = 0) :
    readSpadArea c 0 n = .ok (numOfBytes ((List.range k).map fun i => c.spad.get i)) := by
  have p : (List.range n).find? (fun i => spadPoisoned c (0 + 64 * i)) = none := by
    rw [List.find?_eq_none]; intro i _; simp [spadPoisoned, spadTag, ht, spadIsBad, hb, sparseGet, tagF, bitsOf, fld]
  rw [readSpadArea, p]
  obtain ⟨m, hm⟩ := Nat.exists_eq_add_of_le hkn
  rw [hm, spadNum_head h (by omega) h0]

/-- The area's number. -/
def areaNum : Nat := 0x58544353 + 0x101 * 2 ^ 32 + 0x3300 * 2 ^ (8 * 0x18)

theorem area_reads : readSpadArea ((startIssue (areaAt0 (regs [(1, 0x8000000000000000), (2, 1)] (sup (on .ctl))))).viewed 0) 0 (areaSize .copy / 64) = .ok areaNum := by
  rw [viewed_of_none (by decide +kernel), readSpadArea_clean (k := 32) (by decide +kernel) (by decide +kernel) (by decide +kernel) (by decide) (by decide)]
  · exact congrArg _ (by decide +kernel)
  · intro i hi
    have e : (startIssue (areaAt0 (regs [(1, 0x8000000000000000), (2, 1)] (sup (on .ctl))))).core.spad
        = [(0, 0x53), (1, 0x43), (2, 0x54), (3, 0x58), (4, 1), (5, 1), (0x19, 0x33)] := by decide +kernel
    rw [e]
    simp only [Memory.get, sparseGet]
    rw [if_neg, if_neg, if_neg, if_neg, if_neg, if_neg, if_neg] <;> omega

theorem area_zero : readSpadArea ((startIssue (parkedAt .copy (regs [(1, 0x8000000000000000), (2, 1)] (sup (on .ctl))))).viewed 0) 0 (areaSize .copy / 64) = .ok 0 := by
  rw [viewed_of_none (by decide +kernel), readSpadArea_clean (k := 0) (by decide +kernel) (by decide +kernel) (by decide +kernel) (by decide) (by decide)]
  · rfl
  · intro i _
    have e : (startIssue (parkedAt .copy (regs [(1, 0x8000000000000000), (2, 1)] (sup (on .ctl))))).core.spad = [] := by decide +kernel
    rw [e]; rfl

theorem area_formed : areaMalformed .copy areaNum = false := by
  simp only [areaMalformed, Bool.or_eq_false_iff]
  decide +kernel

/-! ### Events -/

/-- An event's operands. -/
def ev (c : Nat) (t : Sec) (a b : Nat) (d : EventData) (s : State) : State := { s with arg := { core := c, sec := t, a := a, b := b, data := d } }

/-- The condition holds at the core that the event names. -/
abbrev meetsAt (ok : State → Prop) (s : State) : Prop := ∃ t, focus s.arg.core s = some t ∧ ok t

theorem meetsAt_of {ok : State → Prop} {s : State} (h : (focus s.arg.core s).isSome = true) (k : ok ((focus s.arg.core s).get h)) : meetsAt ok s :=
  ⟨_, (Option.some_get h).symm, k⟩

/-- A stream waits. -/
def waits (t : Sec) (w : Wait) (s : State) : State := s.onStr t fun st => { st with waiting := some { on := w, settle := false } }

/-- A device cycle. -/
def atCycle (n : Nat) (s : State) : State := { s with now := n }

/-- A request of a SEMWAIT by core 1. -/
def request (op : SemOp) : SemReq := { from_ := 0x1000, sec := .mat, id := 4, phys := 3, op := op, b := 2 }

/-- Its wait at the requester. -/
def away (acked : Bool) (n : Option Nat) : RemoteWait := { owner := 0x1000, req := request .wait, issued := 0, acked := acked, refusedAt := n, withdraw := false, park := false }

/-- A full file of waiters. -/
def crowded (s : State) : State := setSem s 3 { val := 0, fifo := List.replicate 256 { coord := 0x1000, sec := .mat, n := 2, remote := some 1 } }

/-- A leg of hop 1, of one cell from address 0 to address 0x10000. -/
def leg (hop : Nat) (mc listen : Bool) : Leg :=
  { index := 0, src := 0, dst := 0x10000, due := 4, cells := 1, hop := hop, semen := false, mc := mc, listen := listen, group := 2, sem := 0, dep := 0, legno := 7 }

/-- The leg as a job of order 0, due at cycle 4. -/
def legJob (hop : Nat) (mc listen : Bool) (st : LegState) : LegJob := { leg := leg hop mc listen, order := 0, dueAt := 4, state := st, moved := 0, arrive := 0, held := [], spoil := false, source := none }

/-- Walk 0 runs with one leg and a window on every hop. -/
def legged (j : LegJob) (s : State) : State :=
  setWalk 0 { Walk.reset with state := .running, legs := [j], hops := Vector.replicate 3 { lead := 0, win := 8, infc := 0, late := 0, lcnt := 0 }, members := [2] } s

/-- A page of stage at address 0 in the translation buffer of die 0. -/
def diePage (s : State) : State := { s with tlb0 := [{ asid := 0, va := 0, level := 0, pte := 1 }] }

/-- The bytes of an END leg at address 0 of stage. -/
def endLeg (s : State) : State := diePage { s with mem := [(0x17, 0x07)] }

/-- A matrix entry. -/
def matEntry (w : Word) : MatEntry := { word := w, abv := 0, bbv := 0, slot := 0, fol := false, reload := true }

/-- The queue of the array. -/
def matQueue (w : Word) (s : State) : State := s.setMat { s.core.mat with queue := [matEntry w] }

/-- A cell of zeros. -/
def zeroCell : CellData := { bytes := 0, tag := 0 }

/-- The host link up and the range of the part's memory at 0. -/
def linked (s : State) : State := s.setHost { s.host with hostUp := true, hdmBase := 0, hdmOn := true, locked := true }

/-- A mailbox command taken. -/
def mailed (c : Nat) (a0 a1 : Nat) (s : State) : State :=
  s.setHost { s.host with busy := true, bootst := 8, mbcmd := BitVec.ofNat 16 c, mbarg0 := BitVec.ofNat 64 a0, mbarg1 := BitVec.ofNat 64 a1 }

/-- Every feature offered and accepted, and locked. -/
def accepted (s : State) : State := s.setHost { s.host with accept := BitVec.allOnes 256, locked := true }

/-- Port 0 up. -/
def portUp (s : State) : State := setPort 0 { Port.reset with up := true } s

/-- A flit for module 0 that asks to withdraw nothing. -/
def flit (ok : Bool) (n : BitVec 16) : Flit := { seq := n, ack := 0xFFFF, lane := 0, dst := 0, src := 1, intact := ok, cls := 0, who := .nobody, act := .read 0 }

/-- A copy command that passes the checks of its start. -/
def aligned : Cmd := cmdAt .queued

/-- An item of a list. -/
def oneItem : ListItem := { idx := 0, x := 0, doff := 0, len := 0 }

/-- A landed command that publishes frame 0. -/
def publishing : Cmd := { cmdAt .landed with cw := (Vector.replicate 16 0).set 0 0x80000 }

/-- A landed command with a follow-on record of kind 0, and one with a reserved bit. -/
def followed : Cmd := { cmdAt .landed with cw := (Vector.replicate 16 0).set 0 0x1000000 }
def badFollow : Cmd := { cmdAt .landed with cw := ((Vector.replicate 16 0).set 0 0x1000000).set 14 0x3FFFFF0000000000 }

/-- A command that does not pass the checks of its start. -/
def refusedCmd : Cmd := { cmdAt .queued with cw := (Vector.replicate 16 0).set 0 0x10 }

/-- The freeze limit. -/
def setFrzl (n : BitVec 16) (s : State) : State := s.setEngine { s.core.copy with frzl := n }

/-- A far load whose promise has come without its data. -/
def overdue (s : State) : State :=
  s.onStr .ctl fun st => { st with flds := [{ id := 3, cls := 0, size := 8, promise := 0, arrive := 9, arrived := false, val := 0, bad := false, va := 0, pa := 0, pc := 0, late := false, named := true }] }

/-- The comb being filled is loaded. -/
def loadedFill (s : State) : State := s.setMat { s.core.mat with fillState := .loaded }

/-- The software pace level. -/
def pacedBy (n : BitVec 3) (s : State) : State := s.setMat { s.core.mat with swl := n }

/-- A fill that ends. -/
def fillJob (k : Option Nat) : FillJob := { entry := matEntry 0x4000000000000000, ends := 0, flags := 0, fault := k }

/-- The fill unit holds it. -/
def filling (k : Option Nat) (s : State) : State := s.setMat { s.core.mat with fill := some (fillJob k) }

/-- A resident comb. -/
def residentUp (s : State) : State := s.setMat { s.core.mat with residentValid := true }

/-- A sample with its tap, under mode 2. -/
def tapped (s : State) : State :=
  s.setAudit { s.core.audit with
    mode := 2
    sample := some { num := 0, slot := 0, c0 := 0, ncols := 0, stride := 0, frame := 0, need := 0, cells := []
                     tap := some { sample := 0, row := 0, aCells := [], sums := [], seq := 0, cfg := 3, left := 0 } } }

/-- The vec stream delegates cause 0x20 to a job handler. -/
def delegates (s : State) : State := s.onStr .vec fun st => { st with tdlg := 0x100000000, trap := { st.trap with vec := 0x40 } }

/-- The supervisor region holds every cell but the first 64. -/
def highRegion (s : State) : State := s.setCore { s.core with srbase := 1, srlim := 0x3FFFFF }

/-- A member of sixteen groups. -/
def manyGroups (s : State) : State := s.setMsgs { s.core.msgs with members := List.replicate 16 (1, 0) }

/-- A supervisor region. -/
def region (s : State) : State := s.setCore { s.core with srbase := 0, srlim := 0x3FFFFF }

/-- A trap set aside. -/
def setAside : Deferred := { record := mkTrap 0x20 0 0, pc := none }
/-- The trap set aside for a stream. -/
def defers (t : Sec) (s : State) : State := s.onStr t fun st => { st with deferred := [setAside] }

/-- The watchdog set. -/
def dogged (n : Nat) (s : State) : State := s.setCore { s.core with wdog := BitVec.ofNat 64 n }

/-- A far load whose data has arrived. -/
def flying : Fld := { id := 3, cls := 0, size := 8, promise := 0, arrive := 0, arrived := true, val := 7, bad := false, va := 0, pa := 0, pc := 0, late := false, named := true }
def loading (s : State) : State := s.onStr .ctl fun st => { st with flds := [flying] }
/-- Eight loads in flight. -/
def fullFlds (s : State) : State := s.onStr .ctl fun st => { st with flds := List.replicate 8 { flying with arrived := false } }

/-- A load whose data is uncorrectable. -/
def flyingBad : Fld := { flying with bad := true }
/-- Such a load in flight. -/
def loadingBad (s : State) : State := s.onStr .ctl fun st => { st with flds := [flyingBad] }

/-- A vector result on its way. -/
def landsAt : Landing := { due := 0, flags := 1, trap := none }
def settles (s : State) : State := s.onStr .vec fun st => { st with landing := [landsAt] }

/-- Core 191 holds a job. -/
def atWork (s : State) : State := onCore 191 (fun t => t.setCore { t.core with place := some (1, 0) }) s

/-- The trap of a vector load on its way. -/
def landsBad : Landing := { due := 0, flags := 0, trap := some (mkTrap 0x05 0 0x40, 8) }
def settlesBad (s : State) : State := s.onStr .vec fun st => { st with landing := [landsBad] }

/-- A write of one byte into frame 0 of core 0, for a copy command of core 0 of a module. -/
def oneWrite (m : Nat) : RemoteWrite :=
  { module := m, who := .command 0 1 0, core := 0, frame := 0, off := 0, bytes := [5], tag := none, poison := false }

/-- A semaphore request of this cycle, and an event that is no request. -/
def lateRequest : Event := { i := .remoteSemRequest, arg := { core := 0, sec := .ctl, a := 0, b := 1, data := .none } }
def wakeUp : Event := { i := .sleepWake, arg := { core := 0, sec := .ctl, a := 0, b := 0, data := .none } }

/-- Page tables at 0x4000 that map address 0 to the page of 0x40000. -/
def rooted (s : State) : State :=
  { s.setCore { s.core with ptroot := 0x4000 } with
    mem := [(0x4000, 1), (0x4001, 0x80), (0x8000, 1), (0x8002, 1), (0x10000, 1), (0x10002, 2), (0x20000, 3), (0x20002, 4)] }

/-- A page of bulk at address 0 and one of stage at address 0x10000, in the buffer of die 0. -/
def diePages (s : State) : State :=
  { s with tlb0 := [{ asid := 0, va := 0, level := 0, pte := 0x10000000101 }, { asid := 0, va := 0x10000, level := 0, pte := 1 }] }

/-- The first cell of bulk has an uncorrectable error. -/
def lostCell (s : State) : State := { s with memBad := [2 ^ 35, 2 ^ 35 + 1] }

/-- An armed mark whose legs have all landed. -/
def marked (s : State) : State := onWalk 0 (fun x => { x with mark := some (0, 31, 0), markHit := some [9] }) s

/-- A packet with its word 208 and up. -/
def onePacket (d : BitVec 512) : Packet := { data := d, job := none, late := false }

/-- DROPLATE. -/
def dropped : BitVec 512 := BitVec.ofNat 512 (2 ^ 208)

/-- Launch queue 0 enabled with the packet. -/
def packed (q : Nat) (p : Packet) : State := setLaunchQueue q { launchQueue State.reset q with en := true, packets := [p] } State.reset

/-- A job whose stage has a record. -/
def recordedJob : Job := { job .running with stages := (job .running).stages.map fun g => { g with records := [{ cell := 0, origin := 0 }] } }
def recorded (s : State) : State := ({ s with sched := { s.sched with jobs := [recordedJob] } }).setCore { s.core with place := some (1, 0) }

/-- Swarm 0 enabled with n rows of an open batch and a target of one. -/
def filled (n : Nat) (s : State) : State :=
  setSwarm 0 { swarmAt s 0 with en := true, target := 1, slots := 4, openRows := List.replicate n 0 } s

/-- Port 0 with a flit to send again. -/
def replaying (s : State) : State := setPort 0 { Port.reset with up := true, replay := [(flit true 1, 3)] } s

/-- No room for an event. -/
def fullEvents (s : State) : State :=
  s.setHost { s.host with evWaiting := List.replicate 256 ({ type := 4, cont := false, payload := 0 }, 0, 0) }

/-- A word at the program counter of the copy stream, which runs and has the turn. -/
def placedWord (w : Nat) (s : State) : State := placeWord (running .copy { s with turn := .copy }) 0 w

/-- A stream that does not run. -/
def idleOne (s : State) : State := { s with turn := .copy }

/-- A stream that has slept long enough. -/
def sleeper (s : State) : State := waits .copy (.sleep 0) (running .copy { s with turn := .copy })

theorem boot_bytes (h : Config.outside 0 0 = false) :
    hostBytes ((linked State.reset).setHost { (linked State.reset).host with boot := .verify }) 0 0 = some [] := by
  have e : hostReach ((linked State.reset).setHost { (linked State.reset).host with boot := .verify }) 0 0 = true := by
    unfold hostReach
    rw [show ((linked State.reset).setHost { (linked State.reset).host with boot := .verify }).tick = 0 from rfl, h]
    decide +kernel
  simp [hostBytes, e]

theorem step_next : ∃ t, step State.reset = .next t := ⟨_, rfl⟩

/-- A listening leg of two cells that takes the cells of source 3. -/
def twoCells : LegJob := { legJob 1 true true .moving with leg := { leg 1 true true with cells := 2 }, source := some 3 }

/-- A leg whose last cell was written at cycle 0, and a multicast leg that holds its one cell back. -/
def writtenLeg : LegJob := { legJob 1 false false .written with moved := 1 }
def heldLeg : LegJob := { legJob 1 true true .moving with held := [(zeroCell, false)], source := some 3 }

/-- Walk 0 with that leg in walk order behind an equal one. -/
def leggedTwo (s : State) : State := onWalk 0 (fun x => { x with legs := [heldLeg, { heldLeg with order := 1 }] }) (legged heldLeg s)

/-- A remote wait that a PREEMPT asked to park. -/
def parking : RemoteWait := { away true none with park := true }

/-- Ring 0 enabled, with its descriptor at address 0 of the mapped page: sixteen rows at 0x400 and one published. -/
def ringRead : Access := { asid := 0, root := 0x4000, job := false, write := false }
def ringed (s : State) : State :=
  let s := filled 0 (rooted s)
  { s with
    mem := s.mem ++ [(0x40001, 4), (0x40008, 4), (0x40010, 1)]
    gather := { s.gather with rings := s.gather.rings.set 0 { en := true, desc := 0, asid := 0, root := 0x4000 } } }

/-- One row of ring 0 is gathered, and its HEAD can be written. -/
theorem gathered : (gatherRows ringRead 0x400 4 1 0 (countSched ringRead 0 64 (ringed State.reset))).1 = 1
    ∧ (translateBy 0 none (fun t _ => t) (gatherRows ringRead 0x400 4 1 0 (countSched ringRead 0 64 (ringed State.reset))).2
        (Access.mk 0 0x4000 false true) 24).result.toOption.isSome = true := by
  obtain ⟨a, b, c, d, o, h⟩ := onlyCounts_trans (countSched_onlyCounts ringRead 0 64 (ringed State.reset))
    (countSched_onlyCounts ringRead (0x400 + 32 * (0 % 2 ^ 4)) 32 _)
  have n : schedNum ringRead (countSched ringRead 0 64 (ringed State.reset)) (0x400 + 32 * (0 % 2 ^ 4)) 32 = some 0 := by
    rw [schedNum_counts (countSched_onlyCounts ringRead 0 64 (ringed State.reset))]
    decide +kernel
  have e : ∃ u, onlyCounts (setSwarm 0 { swarmAt (ringed State.reset) 0 with openRows := [0] } (ringed State.reset)) u
      ∧ gatherRows ringRead 0x400 4 1 0 (countSched ringRead 0 64 (ringed State.reset)) = (1, u) := by
    rw [gatherRows, n, h]
    exact ⟨_, ⟨a, b, c, d, o, rfl⟩, rfl⟩
  obtain ⟨u, k, e⟩ := e
  rw [e]
  exact ⟨rfl, by rw [translateBy_counts k]; decide +kernel⟩

/-- The part reaches host memory where the host does not refuse it. -/
theorem mail_reach (c : Nat) (hc : c = 1 ∨ c = 2 ∨ c = 4) (h : Config.outside 0 0 = false) :
    hostReach (mailed c 0 64 (linked State.reset)) 0 64 = true := by
  unfold hostReach
  rw [show (mailed c 0 64 (linked State.reset)).tick = 0 from rfl, h]
  rcases hc with rfl | rfl | rfl <;> decide +kernel

/-- The trap of an effect, and whether it comes with a report. -/
def trapKind : Option Eff → Option (Bool × TrapRec)
  | some (.trap r) => some (false, r)
  | some (.trapIn _ r) => some (true, r)
  | _ => none

theorem trapKind_plain {e : Option Eff} {r : TrapRec} (h : trapKind e = some (false, r)) : e = some (.trap r) := by
  unfold trapKind at h
  split at h <;> simp_all

theorem trapKind_report {s : State} {a n : Nat} {b : Bool} {r : TrapRec} (h : trapKind (cellsTrap s a n b) = some (true, r)) :
    cellsTrap s a n b = some (.trapIn (reportLine r.addr.toNat s) r) := by
  have k : ∀ x < spadSize, (BitVec.ofNat 64 x).toNat = x := fun x hx => by simp only [BitVec.toNat_ofNat, spadSize] at *; omega
  unfold cellsTrap loadFails at *
  split at h
  · simp [trapKind, misaligned] at h
  rename_i h1
  rw [if_neg h1]
  split at h
  · simp [trapKind, forbidden] at h
  rename_i h2
  rw [if_neg h2]
  split at h
  · simp [trapKind, forbidden] at h
  rename_i h3
  rw [if_neg h3]
  split at h
  · split at h
    · split at h
      · simp only [trapKind, Option.some.injEq, Prod.mk.injEq, true_and] at h
        subst h
        simp_all [mkTrap, k _ (Nat.mod_lt _ (by decide : 0 < spadSize))]
      · simp [trapKind] at h
    · simp [trapKind] at h
  · simp [trapKind] at h

/-- A byte for the scratchpad that its command holds. -/
def heldByte : HeldWrite := .byte none 0 5

/-- A command whose byte found the landing buffer full. -/
def delayedCmd : Cmd := { cmdAt .fetching with timed := true, promise := 5, delayed := [heldByte] }
def fullBuffer (s : State) : State :=
  engine [delayedCmd] [] (s.onStr .ctl fun st => { st with flds := [{ flying with size := 524288 }] })

/-- The spare lane of port 0 is in use. -/
def sparedLane (s : State) : State := setPort 0 { portAt s 0 with spareUsed := true } s

/-- Core 191 stands on a core with n column and m row repairs. -/
def repairedTo (n m : Nat) (s : State) : State :=
  let p := s.physical[Fin.ofNat 192 191]
  { s with columnRepairs := List.replicate n (p, 31), rowRepairs := List.replicate m p }

/-- The bank that holds the first byte of the stage is blocked. -/
def bankBusy (s : State) : State := s.setTiers { s.tiers with blocked := [(bankOf 0, 0)] }

/-- A walk that reads the table entry at address 0 waits for it. -/
theorem walk_held {s : State} {x : Access} {va : Nat} (hb : s.tiers.blocked = [(bankOf 0, 0)]) (hc : (cachedLeaf s x.asid va).isNone = true)
    (hr : 0 ∈ (walkTrace s (dieOf s.core.num) x.asid va 3 (bitsOf x.root 14 50 * 2 ^ 14)).reads) (ho : isOwn s 0 = true)
    (hl : homeLocal s (localOf 0) = 0) : walkHeld s x va = true := by
  simp only [walkHeld, walkHeldBy, hb, hc, List.isEmpty_cons, Bool.not_false, Bool.true_and, List.any_eq_true]
  refine ⟨0, hr, ?_⟩
  simp only [bankHeld, hb, ho, hl, List.isEmpty_cons, Bool.not_false, Bool.true_and, List.any_eq_true]
  exact ⟨0, by decide, by simp⟩

/-- An access that begins with such a walk waits. -/
theorem span_held {s : State} {x : Access} {va n : Nat} (hb : s.tiers.blocked = [(bankOf 0, 0)]) (hg : va ∈ granules va n) (h : walkHeld s x va = true) :
    spanHeld s x va n = true := by
  simp only [spanHeld, hb, List.isEmpty_cons, Bool.not_false, Bool.true_and, List.any_eq_true]
  exact ⟨va, hg, by simp [accessHeld, hb, h]⟩

/-- An extent whose first walk waits. -/
theorem extent_held {s : State} {b : Nat} (hb : s.tiers.blocked = [(bankOf 0, 0)]) (hg : 0 ∈ granules (spadNum (s.viewed 0) b 8) (spadNum (s.viewed 0) (b + 8) 8))
    (h : walkHeld s (jobAccess s true) 0 = true) : extentHeld s b = true := by
  simp only [extentHeld, hb, List.isEmpty_cons, Bool.not_false, Bool.true_and, List.any_eq_true]
  exact ⟨0, hg, h⟩

/-- A page of module 5, a member, at address 0. -/
def elsewhere (s : State) : State :=
  { s.setCore { s.core with l1 := [{ asid := 0, va := 0, level := 0, pte := 0x0050000000000401 }] } with members := [5] }

/-- A descriptor at 0 of one byte at address 0. -/
def oneByte (s : State) : State := s.setCore { s.core with spad := [(8, 1)] }

/-- The fault check of a drain that waits is done. -/
def checkedMat (s : State) : State := s.setMat { s.core.mat with checked := true }

/-- A full matrix queue. -/
def fullMat (s : State) : State := s.setMat { s.core.mat with queue := List.replicate 32 (matEntry 0) }

/-- The vector unit busy, and its tree part. -/
def busyVec (s : State) : State := s.setVec { s.core.vec with busy := 9 }
def busyTree (s : State) : State := s.setVec { s.core.vec with treeBusy := 9 }

/-- Walk 0 runs as a member of groups. -/
def joined (l : List Nat) (s : State) : State := setWalk 0 { Walk.reset with state := .running, members := l } s

/-! ### Operands -/

/-- Distinct registers, and zero elsewhere. -/
def oABP : ABP := { s := false, a := .n 1, b := .n 2, p := 0 }
/-- Distinct registers, and zero elsewhere. -/
def oAP : AP := { s := false, a := .n 1, p := 0 }
/-- Distinct registers, and zero elsewhere. -/
def oBOps : BOps := { s := false, p := 0, n := false, o := 0 }
/-- Distinct registers, and zero elsewhere. -/
def oBare : Bare := { s := false }
/-- Distinct registers, and zero elsewhere. -/
def oBfOps : BfOps := { s := false, d := .n 0, a := .n 1, p := 0, o := 0, w := 0 }
/-- Distinct registers, and zero elsewhere. -/
def oCAH : CAH := { s := false, a := .n 1, h := 0, p := 0 }
/-- Distinct registers, and zero elsewhere. -/
def oCAQ : CAQ := { s := false, a := .n 1, q := 0, p := 0 }
/-- Distinct registers, and zero elsewhere. -/
def oCDAH : CDAH := { s := false, d := .n 0, a := .n 1, h := 0, p := 0 }
/-- Distinct registers, and zero elsewhere. -/
def oCDAQ : CDAQ := { s := false, d := .n 0, a := .n 1, q := 0, p := 0 }
/-- Distinct registers, and zero elsewhere. -/
def oCDQ : CDQ := { s := false, d := .n 0, q := 0, p := 0 }
/-- Distinct registers, and zero elsewhere. -/
def oCPAH : CPAH := { s := false, pd := 0, a := .n 1, h := 0, p := 0 }
/-- Distinct registers, and zero elsewhere. -/
def oCmpOps : CmpOps := { s := false, pd := 0, a := .n 1, b := .n 2, p := 0, c := 0 }
/-- Distinct registers, and zero elsewhere. -/
def oCmpiOps : CmpiOps := { s := false, pd := 0, a := .n 1, p := 0, c := 0, i := 0 }
/-- Distinct registers, and zero elsewhere. -/
def oCsrrOps : CsrrOps := { s := false, d := .n 0, p := 0, c := 0 }
/-- Distinct registers, and zero elsewhere. -/
def oCsrwOps : CsrwOps := { s := false, a := .n 1, p := 0, c := 0 }
/-- Distinct registers, and zero elsewhere. -/
def oDABP : DABP := { s := false, d := .n 0, a := .n 1, b := .n 2, p := 0 }
/-- Distinct registers, and zero elsewhere. -/
def oDAH : DAH := { s := false, d := .n 0, a := .n 1, p := 0, h := 0 }
/-- Distinct registers, and zero elsewhere. -/
def oDAI : DAI := { s := false, d := .n 0, a := .n 1, p := 0, i := 0 }
/-- Distinct registers, and zero elsewhere. -/
def oDAP : DAP := { s := false, d := .n 0, a := .n 1, p := 0 }
/-- Distinct registers, and zero elsewhere. -/
def oDI : DI := { s := false, d := .n 0, i := 0 }
/-- Distinct registers, and zero elsewhere. -/
def oDP : DP := { s := false, d := .n 0, p := 0 }
/-- Distinct registers, and zero elsewhere. -/
def oFenceOps : FenceOps := { s := false, m := 0, c := .stream }
/-- Distinct registers, and zero elsewhere. -/
def oFldOps : FldOps := { s := false, d := .n 0, b := .n 2, k := 0, z := 0, q := false, c := .stream, o := 0 }
/-- Distinct registers, and zero elsewhere. -/
def oFstOps : FstOps := { s := false, x := .n 3, b := .n 2, k := 0, z := 0, q := false, c := .stream, o := 0 }
/-- Distinct registers, and zero elsewhere. -/
def oGP : GP := { s := false, p := 0 }
/-- Distinct registers, and zero elsewhere. -/
def oKDim : KDim := { s := false, r := 0, a := .n 1, b := .n 2 }
/-- Distinct registers, and zero elsewhere. -/
def oKRA : KRA := { s := false, r := 0, a := .n 1 }
/-- Distinct registers, and zero elsewhere. -/
def oKRI : KRI := { s := false, r := 0, i := 0 }
/-- Distinct registers, and zero elsewhere. -/
def oLdOps : LdOps := { s := false, d := .n 0, b := .n 2, k := 0, z := 0, o := 0 }
/-- Distinct registers, and zero elsewhere. -/
def oLdnOps : LdnOps := { s := false, d := .n 0, b := .n 2, k := 0, o := 0 }
/-- Distinct registers, and zero elsewhere. -/
def oLidxOps : LidxOps := { s := false, d := .n 0, p := 0, l := 0 }
/-- Distinct registers, and zero elsewhere. -/
def oModeOps : ModeOps := { s := false, l := false, p := 0 }
/-- Distinct registers, and zero elsewhere. -/
def oNdimOps : NdimOps := { s := false, a := .n 1, l := 0 }
/-- Distinct registers, and zero elsewhere. -/
def oNestOps : NestOps := { s := false, w := 0 }
/-- Distinct registers, and zero elsewhere. -/
def oPlogOps : PlogOps := { s := false, pd := 0, pa := 0, pb := 0, p := 0, t := 0 }
/-- Distinct registers, and zero elsewhere. -/
def oSelOps : SelOps := { s := false, d := .n 0, a := .n 1, b := .n 2, p := 0, t := 0 }
/-- Distinct registers, and zero elsewhere. -/
def oStOps : StOps := { s := false, x := .n 3, b := .n 2, k := 0, z := 0, o := 0 }
/-- Distinct registers, and zero elsewhere. -/
def oStnOps : StnOps := { s := false, x := .n 3, b := .n 2, k := 0, o := 0 }
/-- Distinct registers, and zero elsewhere. -/
def oTA : TA := { s := false, a := .n 1, p := 0 }
/-- Distinct registers, and zero elsewhere. -/
def oTAB : TAB := { s := false, a := .n 1, b := .n 2, p := 0 }
/-- Distinct registers, and zero elsewhere. -/
def oTDA : TDA := { s := false, d := .n 0, a := .n 1, p := 0 }
/-- Distinct registers, and zero elsewhere. -/
def oTDAB : TDAB := { s := false, d := .n 0, a := .n 1, b := .n 2, p := 0 }
/-- Distinct registers, and zero elsewhere. -/
def oTMA : TMA := { s := false, v := 0, a := .n 1, p := 0 }
/-- Distinct registers, and zero elsewhere. -/
def oTWA : TWA := { s := false, v := .v 0, a := .n 1, p := 0 }
/-- Distinct registers, and zero elsewhere. -/
def oTWAB : TWAB := { s := false, v := .v 0, a := .n 1, b := .n 2, p := 0 }
/-- Distinct registers, and zero elsewhere. -/
def oTrapOps : TrapOps := { s := false, n := 0, p := 0 }
/-- Distinct registers, and zero elsewhere. -/
def oVAM : VAM := { s := false, a := .n 1, b := 0 }
/-- Distinct registers, and zero elsewhere. -/
def oVCmpOps : VCmpOps := { s := false, j := 0, x := .v 1, y := .v 2, m := 0 }
/-- Distinct registers, and zero elsewhere. -/
def oVFmaOps : VFmaOps := { s := false, v := .v 0, x := .v 1, y := .v 2, m := 0, f := 0 }
/-- Distinct registers, and zero elsewhere. -/
def oVGatOps : VGatOps := { s := false, v := .v 0, a := .n 1, x := .v 1, m := 0 }
/-- Distinct registers, and zero elsewhere. -/
def oVIotaOps : VIotaOps := { s := false, v := .v 0, a := .n 1, b := .n 2, m := 0 }
/-- Distinct registers, and zero elsewhere. -/
def oVMA : VMA := { s := false, v := 0, a := .n 1 }
/-- Distinct registers, and zero elsewhere. -/
def oVMdOps : VMdOps := { s := false, d := .n 0, x := 0, m := 0 }
/-- Distinct registers, and zero elsewhere. -/
def oVMlogOps : VMlogOps := { s := false, v := 0, x := 0, b := .n 2, m := 0 }
/-- Distinct registers, and zero elsewhere. -/
def oVMovsOps : VMovsOps := { s := false, d := .n 0, x := .v 1, b := .n 2 }
/-- Distinct registers, and zero elsewhere. -/
def oVOsmOps : VOsmOps := { s := false, v := 0, x := 0 }
/-- Distinct registers, and zero elsewhere. -/
def oVQuantOps : VQuantOps := { s := false, v := .v 0, x := .v 1, y := .v 2 }
/-- Distinct registers, and zero elsewhere. -/
def oVSA : VSA := { s := false, a := .n 1, x := .v 1, m := 0 }
/-- Distinct registers, and zero elsewhere. -/
def oVSctOps : VSctOps := { s := false, v := .v 3, a := .n 1, x := .v 1, m := 0 }
/-- Distinct registers, and zero elsewhere. -/
def oVShapeOps : VShapeOps := { s := false, a := .n 1 }
/-- Distinct registers, and zero elsewhere. -/
def oVWA : VWA := { s := false, v := .v 0, a := .n 1, m := 0 }
/-- Distinct registers, and zero elsewhere. -/
def oVWX : VWX := { s := false, v := .v 0, x := .v 1, m := 0 }
/-- Distinct registers, and zero elsewhere. -/
def oVWXB : VWXB := { s := false, v := .v 0, x := .v 1, b := .n 2, m := 0 }
/-- Distinct registers, and zero elsewhere. -/
def oVWXY : VWXY := { s := false, v := .v 0, x := .v 1, y := .v 2, m := 0 }
/-- Distinct registers, and zero elsewhere. -/
def oYA : YA := { s := false, a := .n 1 }
/-- Distinct registers, and zero elsewhere. -/
def oYAB : YAB := { s := false, a := .n 1, b := .n 2 }
/-- Distinct registers, and zero elsewhere. -/
def oYABk : YABk := { s := false, a := .n 1, b := .n 2, k := 0 }
/-- Distinct registers, and zero elsewhere. -/
def oYABsk : YABsk := { s := false, a := .n 1, b := .n 2, c := .stream, k := 0 }
/-- Distinct registers, and zero elsewhere. -/
def oYAk : YAk := { s := false, a := .n 1, k := 0 }
/-- Distinct registers, and zero elsewhere. -/
def oYAsk : YAsk := { s := false, a := .n 1, c := .stream, k := 0 }
/-- Distinct registers, and zero elsewhere. -/
def oYDAB : YDAB := { s := false, d := .n 0, a := .n 1, b := .n 2 }
/-- Distinct registers, and zero elsewhere. -/
def oYDABk : YDABk := { s := false, d := .n 0, a := .n 1, b := .n 2, k := 0 }
/-- Distinct registers, and zero elsewhere. -/
def oYDABsk : YDABsk := { s := false, d := .n 0, a := .n 1, b := .n 2, c := .stream, k := 0 }
/-- Distinct registers, and zero elsewhere. -/
def oYDAsk : YDAsk := { s := false, d := .n 0, a := .n 1, c := .stream, k := 0 }

/-- The word issues from the state and `ok` holds of its operands. -/
abbrev meets (i : Instr) (u : Use) (ok : State → Prop) (s : State) : Prop := issues i u s ∧ ok (entered i s)

/-- The three parts of `issues`, to be decided. -/
theorem issues_of {i : Instr} {u : Use} {s : State} (h : (decodeTrap i s = none ∧ mustHold u s = false) ∧ rdP (startIssue s) u.guard = true) : issues i u s := h

/-! ### Well-formedness: each check refuses an ill-formed term -/

theorem test_bfx_beyond_the_word : wellFormed (.bfx { s := false, d := .n 0, a := .n 1, p := 0, o := 63, w := 1 }) = false := by decide
theorem test_bfi_beyond_the_word : wellFormed (.bfi { s := false, d := .n 0, a := .n 1, p := 0, o := 63, w := 1 }) = false := by decide
theorem test_ldz_of_a_double_word : wellFormed (.ldz { s := false, d := .n 0, b := .n 1, k := 0, z := 3, o := 0 }) = false := by decide
theorem test_fld_scope_without_acquire : wellFormed (.fld { s := false, d := .n 0, b := .n 1, k := 0, z := 3, q := false, c := .device, o := 0 }) = false := by decide
theorem test_fst_scope_without_release : wellFormed (.fst { s := false, x := .n 0, b := .n 1, k := 0, z := 3, q := false, c := .device, o := 0 }) = false := by decide
theorem test_fence_of_no_class : wellFormed (.fence { s := false, m := 0, c := .core }) = false := by decide
theorem test_bfx_at_the_top_is_well_formed : wellFormed (.bfx { s := false, d := .n 0, a := .n 1, p := 0, o := 63, w := 0 }) = true := by decide

/-! ### Words of the spec's worked examples (05_base, 06_ordering, 07_sync, 08_copy, 10_message, 13_vector) -/

theorem test_word_lil : decodeTableWord 32 0x0D312345 = some (.lil { s := false, d := .n 3, i := 0x12345 }) := by decide
theorem test_word_lih : decodeTableWord 32 0x0F36789A = some (.lih { s := false, d := .n 3, i := 0x6789A }) := by decide
theorem test_word_fld : decodeTableWord 32 0x2B288781 = some (.fld { s := false, d := .n 2, b := .n 1, k := 0, z := 3, q := true, c := .device, o := 1 }) := by decide
theorem test_word_csrr : decodeTableWord 32 0x2F100012 = some (.csrr { s := false, d := .n 1, p := 0, c := 0x12 }) := by decide
theorem test_word_trap : decodeTableWord 32 0x30001402 = some (.trap { s := false, n := 5, p := 0 }) := by decide
theorem test_word_fence : decodeTableWord 32 0x320FFFFC = some (.fence { s := false, m := 0xFFFF, c := .system }) := by decide
theorem test_word_waita : decodeTableWord 32 0x3DDDF001 = some (.waita { s := false, d := .n 13, a := .n 11, b := .n 12 }) := by decide
theorem test_word_semtry : decodeTableWord 32 0x3408C882 = some (.semtry { s := false, d := .push, a := .n 1, b := .n 2, c := .core, k := 0 }) := by decide
theorem test_word_cdim : decodeTableWord 32 0x482AD700 = some (.cdim { s := false, r := 1, a := .n 6, b := .n 7 }) := by decide
theorem test_word_sends : decodeTableWord 32 0x40290A03 = some (.sends { s := false, pd := 2, a := .n 2, h := 5, p := 0 }) := by decide
theorem test_word_vmlog : (decodeTableWord 32 0x64900A98) = some (.vadd { s := false, v := .v 2, x := .q 0, y := .v 5, m := 3 }) := by decide
theorem test_word_settle_bit : decodeTableWord 32 0xB0000001 = some (.nop { s := true }) := by decide

theorem test_reserved_function : decodeIn .ctl 0x0000001A = .error .unassignedFunction := by decide
theorem test_unassigned_major : decodeIn .ctl 0x7E000000 = .error .unassignedMajor := by decide

/-! ### Single steps -/

/-- The next state of an instruction. -/
def ran (i : Instr) (s : State) : State :=
  match exec i s with
  | .next t => t
  | _ => s

/-- 05_base: LIL and LIH build 0x12_3456_789A. -/
theorem test_lil_lih :
    rdS (ran (.lih { s := false, d := .n 3, i := 0x6789A }) (regs [(3, 0x12345)] (on .vec))) (.n 3) = 0x123456789A := by decide +kernel

/-- R86: the sum wraps. -/
theorem test_add_wraps : rdS (ran (.add oDABP) (regs [(1, 0xFFFFFFFFFFFFFFFF), (2, 2)] (on .ctl))) (.n 0) = 1 := by decide +kernel

/-- R87: the quotient of a division by zero, and the most negative number by -1. -/
theorem test_div_by_zero : rdS (ran (.div oDABP) (regs [(1, 5), (2, 0)] (on .ctl))) (.n 0) = 0xFFFFFFFFFFFFFFFF := by decide +kernel
theorem test_div_overflow :
    rdS (ran (.div oDABP) (regs [(1, 0x8000000000000000), (2, 0xFFFFFFFFFFFFFFFF)] (on .ctl))) (.n 0) = 0x8000000000000000 := by decide +kernel

/-- R64: a push makes the value the newest entry, q0. -/
theorem test_push : rdS (ran (.lil { s := false, d := .push, i := 21 }) (on .ctl)) (.q 0) = 21 := by decide +kernel

/-- R86: the sum of a register with itself, into that register. -/
theorem test_add_into_its_source :
    rdS (ran (.add { s := false, d := .n 1, a := .n 1, b := .n 1, p := 0 }) (regs [(1, 21)] (on .ctl))) (.n 1) = 42 := by decide +kernel

/-- R99: a signed load of 0x80 from the last byte of the scratchpad. -/
theorem test_ld_sign :
    rdS (ran (.ld { s := false, d := .n 0, b := .n 2, k := 0, z := 0, o := 0 })
      (regs [(2, 0x3FFFFF)] ((on .ctl).setCore { (on .ctl).core with spad := [(0x3FFFFF, 0x80)] }))) (.n 0) = 0xFFFFFFFFFFFFFF80 := by decide +kernel

/-- R137 and 07_sync, example: a semaphore of 1 gives one unit, and the second try gets 0. -/
theorem test_semtry :
    rdS (ran (.semtry oYDABsk) (regs [(1, 0), (2, 1)] (semAt5 1 (on .ctl)))) (.n 0) = 1
    ∧ rdS (ran (.semtry oYDABsk) (regs [(1, 0), (2, 1)] (semAt5 0 (on .ctl)))) (.n 0) = 0 := by decide +kernel

/-- 07_sync, BART3: weight 2 at ARRIVED 2 of TARGET 3 gives phase 7 and leaves ARRIVED 1 and PHASE 8. -/
theorem test_bararr :
    (let t := ran (.bararr oYDABsk) (regs [(1, 3), (2, 2)] (barrier 3 3 2 7 (on .ctl)))
     (rdS t (.n 0), (barrierAt t 3).arrived, (barrierAt t 3).phase)) = (7, 1, 8) := by decide +kernel

/-- 07_sync, ring: CLAIM of 4 at counters 5 of a ring of 8 gives granule 5. -/
theorem test_claim :
    (let t := ran (.claim { s := false, d := .n 0, a := .n 1, b := .n 2, k := 0 }) (regs [(1, 0x10000), (2, 4)] ((on .copy).setCore { (on .copy).core with
        spad := [(0x10002, 2), (0x10004, 8), (0x10008, 5), (0x1000C, 5), (0x10010, 5)] }))
     (rdS t (.n 0), spadNum t.core 0x10008 4)) = (0x20140, 9) := by decide +kernel

/-- 02_numbers, Example: 470.0 converts to E4M3 as 0x7E under RNE with saturation, as the NaN without it, and exactly at 448 under RTZ. -/
theorem test_convert_470 :
    [(0, true), (0, false), (1, true)].map (fun c => (convert .e4m3 c.1 c.2 (decodeFmt .fp32 0x43EB0000)).code) = [0x7E, 0x7F, 0x7E] := by
  decide +kernel

/-- 14_vector_data: the tree reduction of 2^24, 1, 1, -2^24 is 1.0. -/
theorem test_vred_tree : (redResult 0 0 0 [some 0x4B800000, some 0x3F800000, some 0x3F800000, some 0xCB800000]).code = 0x3F800000 := by decide +kernel

/-- 14_vector_data: VPART of the keys 3, 1, 3, 0, 1, 3, 2, 1. -/
theorem test_vpart :
    (let x := partImage [(0, 3), (1, 1), (2, 3), (3, 0), (4, 1), (5, 3), (6, 2), (7, 1)]
     ((List.range 9).map fun i => laneOf x 16 i, (List.range 4).map fun k => laneOf x 32 (2048 + k))) = ([3, 1, 4, 7, 6, 0, 2, 5, 0xFFFF], [1, 3, 1, 3]) := by
  decide +kernel

/-- 15_token_tree, Example: seven candidates after position 99. -/
def sevenNodes : Tree :=
  { base := 100, nodes := [(501, 255), (502, 255), (503, 0), (504, 0), (505, 1), (506, 2), (507, 4)].map fun p =>
      { token := BitVec.ofNat 32 p.1, parent := BitVec.ofNat 8 p.2, acc := false, set := false } }

theorem test_tree_positions : (List.range 7).map sevenNodes.pos = [100, 100, 101, 101, 101, 102, 102] := by decide +kernel
theorem test_tree_masks :
    ((List.range 7).map fun i => ((List.range 7).map fun k => if sevenNodes.anc i k then 2 ^ k else 0).sum) = [0x01, 0x02, 0x05, 0x09, 0x12, 0x25, 0x52] := by
  decide +kernel
theorem test_tree_prune :
    (let t := prunedTree sevenNodes 5
     (t.base, t.nodes.map fun x => (x.token, x.parent))) = (103, [(501, 255), (503, 0), (506, 1)]) := by decide +kernel

/-- R72 and 05_base, Example: in supervisor-less job code a TRAP stops a core without a supervisor region (R373). -/
theorem test_trap_without_region : (ran (.trap oTrapOps) (on .ctl)).core.stop = true := by decide +kernel

/-- R370: TRAP 5 in supervisor region: the record, the level and the program counter of the handler. -/
theorem test_trap_entry :
    (let t := ran (.trap { s := false, n := 5, p := 0 }) (region (on .ctl))
     (t.cur.priv, t.cur.mode, t.cur.strap.cause, t.cur.strap.info, t.cur.strap.inh)) = (true, true, 0x25, 5, true) := by decide +kernel

/-- A step runs the word that the harness places. -/
theorem test_step_runs_lil :
    (match step (State.reset.withFetchWord 32 0x0D312345) with
     | .next t => rdS { t with turn := .ctl } (.n 3)
     | _ => 0) = 0x12345 := by decide +kernel

/-- Every arithmetic word issues. -/
theorem wit_RegisterArithmetic :
    meets (.add oDABP) (useDABP oDABP) (fun _ => True) (regs [(1, 5), (2, 7)] (on .ctl))
    ∧ meets (.sub oDABP) (useDABP oDABP) (fun _ => True) (regs [(1, 5), (2, 7)] (on .ctl))
    ∧ meets (.mul oDABP) (useDABP oDABP) (fun _ => True) (regs [(1, 5), (2, 7)] (on .ctl))
    ∧ meets (.mulh oDABP) (useDABP oDABP) (fun _ => True) (regs [(1, 5), (2, 7)] (on .ctl))
    ∧ meets (.mulhz oDABP) (useDABP oDABP) (fun _ => True) (regs [(1, 5), (2, 7)] (on .ctl))
    ∧ meets (.and oDABP) (useDABP oDABP) (fun _ => True) (regs [(1, 5), (2, 7)] (on .ctl))
    ∧ meets (.or oDABP) (useDABP oDABP) (fun _ => True) (regs [(1, 5), (2, 7)] (on .ctl))
    ∧ meets (.xor oDABP) (useDABP oDABP) (fun _ => True) (regs [(1, 5), (2, 7)] (on .ctl))
    ∧ meets (.andn oDABP) (useDABP oDABP) (fun _ => True) (regs [(1, 5), (2, 7)] (on .ctl))
    ∧ meets (.shl oDABP) (useDABP oDABP) (fun _ => True) (regs [(1, 5), (2, 7)] (on .ctl))
    ∧ meets (.shr oDABP) (useDABP oDABP) (fun _ => True) (regs [(1, 5), (2, 7)] (on .ctl))
    ∧ meets (.sha oDABP) (useDABP oDABP) (fun _ => True) (regs [(1, 5), (2, 7)] (on .ctl))
    ∧ meets (.min oDABP) (useDABP oDABP) (fun _ => True) (regs [(1, 5), (2, 7)] (on .ctl))
    ∧ meets (.max oDABP) (useDABP oDABP) (fun _ => True) (regs [(1, 5), (2, 7)] (on .ctl))
    ∧ meets (.minz oDABP) (useDABP oDABP) (fun _ => True) (regs [(1, 5), (2, 7)] (on .ctl))
    ∧ meets (.maxz oDABP) (useDABP oDABP) (fun _ => True) (regs [(1, 5), (2, 7)] (on .ctl))
    ∧ meets (.adda oDABP) (useDABP oDABP) (fun _ => True) (regs [(1, 5), (2, 7)] (on .ctl))
    ∧ meets (.sext oDABP) (useDABP oDABP) (fun _ => True) (regs [(1, 5), (2, 7)] (on .ctl))
    ∧ meets (.pick oDABP) (useDABP oDABP) (fun _ => True) (regs [(1, 5), (2, 7)] (on .ctl))
    ∧ issues (.clz oDAP) (useDAP oDAP) (on .ctl)
    ∧ issues (.ctz oDAP) (useDAP oDAP) (on .ctl)
    ∧ issues (.popc oDAP) (useDAP oDAP) (on .ctl) :=
  by and_intros <;> first | decide +kernel | (unfold guardTrue; decide +kernel)

/-- Division by zero, by a nonzero number, and of -2^63 by -1. -/
theorem wit_Division :
    meets (.div oDABP) (useDABP oDABP) (fun s => rdS s oDABP.b = 0) (regs [(1, 5), (2, 0)] (on .ctl))
    ∧ meets (.divz oDABP) (useDABP oDABP) (fun s => rdS s oDABP.b = 0) (regs [(1, 5), (2, 0)] (on .ctl))
    ∧ meets (.rem oDABP) (useDABP oDABP) (fun s => rdS s oDABP.b = 0) (regs [(1, 5), (2, 0)] (on .ctl))
    ∧ meets (.remz oDABP) (useDABP oDABP) (fun s => rdS s oDABP.b = 0) (regs [(1, 5), (2, 0)] (on .ctl))
    ∧ meets (.div oDABP) (useDABP oDABP) (fun s => rdS s oDABP.b ≠ 0) (regs [(1, 5), (2, 0xFFFFFFFFFFFFFFFF)] (on .ctl))
    ∧ meets (.divz oDABP) (useDABP oDABP) (fun s => rdS s oDABP.b ≠ 0) (regs [(1, 5), (2, 0xFFFFFFFFFFFFFFFF)] (on .ctl))
    ∧ meets (.rem oDABP) (useDABP oDABP) (fun s => rdS s oDABP.b ≠ 0) (regs [(1, 5), (2, 0xFFFFFFFFFFFFFFFF)] (on .ctl))
    ∧ meets (.remz oDABP) (useDABP oDABP) (fun s => rdS s oDABP.b ≠ 0) (regs [(1, 5), (2, 0xFFFFFFFFFFFFFFFF)] (on .ctl))
    ∧ meets (.div oDABP) (useDABP oDABP) (fun s => rdS s oDABP.a = BitVec.intMin 64 ∧ rdS s oDABP.b = BitVec.allOnes 64) (regs [(1, 0x8000000000000000), (2, 0xFFFFFFFFFFFFFFFF)] (on .ctl))
    ∧ meets (.rem oDABP) (useDABP oDABP) (fun s => rdS s oDABP.a = BitVec.intMin 64 ∧ rdS s oDABP.b = BitVec.allOnes 64) (regs [(1, 0x8000000000000000), (2, 0xFFFFFFFFFFFFFFFF)] (on .ctl)) :=
  by and_intros <;> first | decide +kernel | (unfold guardTrue; decide +kernel)

/-- Every immediate form issues. -/
theorem wit_ImmediateForms :
    meets (.addi oDAI) (useDAI oDAI) (fun _ => True) (regs [(1, 5)] (on .ctl))
    ∧ meets (.andi oDAI) (useDAI oDAI) (fun _ => True) (regs [(1, 5)] (on .ctl))
    ∧ meets (.ori oDAI) (useDAI oDAI) (fun _ => True) (regs [(1, 5)] (on .ctl))
    ∧ meets (.xori oDAI) (useDAI oDAI) (fun _ => True) (regs [(1, 5)] (on .ctl))
    ∧ meets (.shli oDAH) (useDAH oDAH) (fun _ => True) (regs [(1, 5)] (on .ctl))
    ∧ meets (.shri oDAH) (useDAH oDAH) (fun _ => True) (regs [(1, 5)] (on .ctl))
    ∧ meets (.shai oDAH) (useDAH oDAH) (fun _ => True) (regs [(1, 5)] (on .ctl)) :=
  by and_intros <;> first | decide +kernel | (unfold guardTrue; decide +kernel)

/-- The constants and bit fields issue. -/
theorem wit_ConstantsAndBitFields :
    meets (.lil oDI) (useDI oDI) (fun _ => True) (on .ctl)
    ∧ meets (.lih oDI) { useDI oDI with srcs := [destOld oDI.d] } (fun _ => True) (on .ctl)
    ∧ meets (.bfx oBfOps) (useBfOps oBfOps) (fun _ => True) (on .ctl)
    ∧ issues (.bfi oBfOps) { useBfOps oBfOps with srcs := [oBfOps.a, destOld oBfOps.d] } (on .ctl) :=
  by and_intros <;> first | decide +kernel | (unfold guardTrue; decide +kernel)

/-- The compares and predicate words issue. -/
theorem wit_ComparesAndPredicates :
    issues (.cmp oCmpOps) (useCmpOps oCmpOps) (on .ctl)
    ∧ issues (.cmpi oCmpiOps) (useCmpiOps oCmpiOps) (on .ctl)
    ∧ issues (.plog oPlogOps) (usePlogOps oPlogOps) (on .ctl)
    ∧ issues (.sel oSelOps) (useSelOps oSelOps) (on .ctl) :=
  by and_intros <;> first | decide +kernel | (unfold guardTrue; decide +kernel)

/-- A taken and an untaken branch, an aligned and a misaligned jump. -/
theorem wit_BranchesAndJumps :
    meets (.br oBOps) (useBOps oBOps) (fun s => rdP s oBOps.p ≠ oBOps.n) (on .ctl)
    ∧ meets (.br ({ oBOps with n := true })) (useBOps ({ oBOps with n := true })) (fun s => rdP s ({ oBOps with n := true }).p = ({ oBOps with n := true }).n) (on .ctl)
    ∧ meets (.jmp oAP) (useAP oAP) (fun s => (rdS s oAP.a).toNat % 4 = 0) (regs [(1, 0x3FFFFC)] (on .ctl))
    ∧ meets (.jmp oAP) (useAP oAP) (fun s => (rdS s oAP.a).toNat % 4 ≠ 0) (regs [(1, 1)] (on .ctl)) :=
  by and_intros <;> first | decide +kernel | (unfold guardTrue; decide +kernel)

/-- An untaken call, a misaligned call, a call that spills nothing and one that spills, the deepest call and one without room to spill, a return to a resident caller, one that fills, one without a caller, a misaligned one, and spill slots in the supervisor region. -/
theorem wit_CallsAndReturns :
    (meets (.call ({ oBOps with n := true })) (useBOps ({ oBOps with n := true })) (fun s => rdP s ({ oBOps with n := true }).p = ({ oBOps with n := true }).n) (on .ctl)
    ∧ meets (.callr oAP) (useAP oAP) (fun s => s.cur.namedLanded = true ∧ (rdS s oAP.a).toNat % 4 ≠ 0) (regs [(1, 2)] (on .ctl))
    ∧ meets (.call oBOps) (useBOps oBOps) (fun s => rdP s oBOps.p ≠ oBOps.n ∧ s.cur.namedLanded = true ∧ s.cur.pc.toNat % 4 = 0 ∧ callOverflow s.cur ≠ none) (deepAt 255 (on .ctl))
    ∧ meets (.callr oAP) (useAP oAP) (fun s => s.cur.namedLanded = true ∧ (rdS s oAP.a).toNat % 4 = 0 ∧ callOverflow s.cur ≠ none) (deepAt 14 (regs [(1, 0x3FFFFC)] (on .ctl)))
    ∧ meets (.ret oGP) (useGP oGP) (fun s => s.cur.namedLanded = true ∧ s.cur.bank.depth = 0) (on .ctl)
    ∧ meets (.ret oGP) (useGP oGP) (fun s => s.cur.namedLanded = true ∧ s.cur.bank.depth ≠ 0 ∧ (rdS s (.n 15)).toNat % 4 ≠ 0) (returnsTo 2 (on .ctl))
    ∧ meets (.call oBOps) (useBOps oBOps) (fun s => rdP s oBOps.p ≠ oBOps.n ∧ s.cur.namedLanded = true ∧ s.cur.pc.toNat % 4 = 0 ∧ callOverflow s.cur = none ∧ s.cur.groups ≤ s.cur.bank.depth + 2 ∧ s.cur.priv = false ∧ touchesSr s.core (spillSlot s.cur (s.cur.bank.depth + 2 - s.cur.groups)) 64 = true) (region <| atDepth 14 (on .ctl))
    ∧ meets (.callr oAP) (useAP oAP) (fun s => s.cur.namedLanded = true ∧ (rdS s oAP.a).toNat % 4 = 0 ∧ callOverflow s.cur = none ∧ s.cur.groups ≤ s.cur.bank.depth + 2 ∧ s.cur.priv = false ∧ touchesSr s.core (spillSlot s.cur (s.cur.bank.depth + 2 - s.cur.groups)) 64 = true) (region <| atDepth 14 (on .ctl)))
    ∧ (meets (.ret oGP) (useGP oGP) (fun s => s.cur.namedLanded = true ∧ s.cur.bank.depth ≠ 0 ∧ (rdS s (.n 15)).toNat % 4 = 0 ∧ ¬ callerResident s.cur ∧ s.cur.priv = false ∧ touchesSr s.core (spillSlot s.cur (s.cur.bank.depth - 1) % 2 ^ 22) 64 = true) (region <| atDepth 200 (on .ctl))
    ∧ (issues (.call oBOps) (useBOps oBOps) (on .ctl) ∧ rdP (startIssue (on .ctl)) oBOps.p ≠ oBOps.n ∧ (startIssue (on .ctl)).cur.pc.toNat % 4 = 0 ∧ canCall (startIssue (on .ctl)))
    ∧ (issues (.callr oAP) (useAP oAP) (atDepth 14 (on .ctl)) ∧ (rdS (startIssue (atDepth 14 (on .ctl))) oAP.a).toNat % 4 = 0 ∧ canCall (startIssue (atDepth 14 (on .ctl))))
    ∧ (issues (.ret oGP) (useGP oGP) (atDepth 1 (on .ctl)) ∧ canReturn (startIssue (atDepth 1 (on .ctl))) ∧ callerResident (startIssue (atDepth 1 (on .ctl))).cur)
    ∧ (issues (.ret oGP) (useGP oGP) (atDepth 200 (on .ctl)) ∧ canReturn (startIssue (atDepth 200 (on .ctl))) ∧ ¬ callerResident (startIssue (atDepth 200 (on .ctl))).cur)) :=
  ⟨by and_intros <;> first | decide +kernel | (unfold guardTrue; decide +kernel),
   by and_intros <;> first | decide +kernel | (unfold guardTrue; decide +kernel) | (unfold callerResident; decide +kernel) | (unfold spillSlot; decide +kernel) | (unfold canCall; decide +kernel) | (unfold canReturn; decide +kernel)⟩

/-- A descriptor of zeros, a misaligned one, one out of bounds, a malformed one, the index word, a body with a return, a nest of one pass and an empty one. -/
theorem wit_LoopBuffer :
    (meets (.ndim oNdimOps) (useNdimOps oNdimOps) (fun s => bitsOf (rdS s oNdimOps.a) 0 22 % 8 = 0 ∧ (s.cur.priv = true ∨ touchesSr s.core (bitsOf (rdS s oNdimOps.a) 0 22) (8 + 16 * (oNdimOps.l.val + 1)) = false) ∧ readNest s (bitsOf (rdS s oNdimOps.a) 0 22) (oNdimOps.l.val + 1) = some zeroNest) (regs [(1, 0x3FFFE0)] (on .ctl))
    ∧ meets (.ndim oNdimOps) (useNdimOps oNdimOps) (fun s => bitsOf (rdS s oNdimOps.a) 0 22 % 8 ≠ 0) (regs [(1, 4)] (on .ctl))
    ∧ meets (.ndim oNdimOps) (useNdimOps oNdimOps) (fun s => bitsOf (rdS s oNdimOps.a) 0 22 % 8 = 0 ∧ s.cur.priv = false ∧ touchesSr s.core (bitsOf (rdS s oNdimOps.a) 0 22) (8 + 16 * (oNdimOps.l.val + 1)) = true) (region (regs [(1, 0)] (on .ctl)))
    ∧ meets (.ndim oNdimOps) (useNdimOps oNdimOps) (fun s => bitsOf (rdS s oNdimOps.a) 0 22 % 8 = 0 ∧ (s.cur.priv = true ∨ touchesSr s.core (bitsOf (rdS s oNdimOps.a) 0 22) (8 + 16 * (oNdimOps.l.val + 1)) = false) ∧ readNest s (bitsOf (rdS s oNdimOps.a) 0 22) (oNdimOps.l.val + 1) = none) (badSwarm (regs [(1, 0)] (on .ctl)))
    ∧ meets (.lidx oLidxOps) (useLidxOps oLidxOps) (fun _ => True) (on .ctl)
    ∧ (issues (.nest oNestOps) { useNestOps oNestOps with srcs := nestSources (forbiddenBody (on .ctl)).cur.bank.nest } (forbiddenBody (on .ctl)) ∧ firstBanned (startIssue (forbiddenBody (on .ctl))) (oNestOps.w.val + 1) = some 4)
    ∧ (issues (.nest oNestOps) { useNestOps oNestOps with srcs := nestSources (on .ctl).cur.bank.nest } (on .ctl) ∧ firstBanned (startIssue (on .ctl)) (oNestOps.w.val + 1) = none)
    ∧ ((nested 0 0 0).active = true ∧ (nested 0 0 0).pos + 1 < (nested 0 0 0).words))
    ∧ (((issues (.nest oNestOps) { useNestOps oNestOps with srcs := nestSources (withNest zeroNest (on .ctl)).cur.bank.nest } (withNest zeroNest (on .ctl)) ∧ firstBanned (startIssue (withNest zeroNest (on .ctl))) (oNestOps.w.val + 1) = none) ∧ emptyNest (withNest zeroNest (on .ctl)).cur.bank.nest)
    ∧ ¬ emptyNest (on .ctl).cur.bank.nest
    ∧ ((nested 1 0 2).words ≤ (nested 1 0 2).pos + 1 ∧ stepsLevel (nested 1 0 2) 0)
    ∧ ((nested 1 1 0).words ≤ (nested 1 1 0).pos + 1 ∧ stepsLevel (nested 1 1 0) 1)
    ∧ ((withNest (nested 1 1 2) (on .ctl)).cur.bank.nest.active = true ∧ (nested 1 1 2).words ≤ (nested 1 1 2).pos + 1 ∧ ∀ l, ¬ stepsLevel (nested 1 1 2) l)) :=
  ⟨by and_intros <;> first | decide +kernel | (unfold guardTrue; decide +kernel),
   by and_intros <;> first | decide +kernel | (unfold guardTrue; decide +kernel) | (unfold emptyNest; decide +kernel) | (unfold stepsLevel; decide +kernel)⟩

/-- Loads at the top of the scratchpad, misaligned loads and a nibble, and loads that are forbidden or meet poison. -/
theorem wit_ScratchpadLoads :
    (meets (.ld ({ oLdOps with z := 3 })) (useLdOps ({ oLdOps with z := 3 })) (fun s => scratchAddr (rdS s ({ oLdOps with z := 3 }).b) ({ oLdOps with z := 3 }).o ({ oLdOps with z := 3 }).z % 2 ^ ({ oLdOps with z := 3 }).z.val ≠ 0) (regs [(2, 1)] (on .ctl))
    ∧ meets (.ldz ({ oLdOps with z := 1 })) (useLdOps ({ oLdOps with z := 1 })) (fun s => scratchAddr (rdS s ({ oLdOps with z := 1 }).b) ({ oLdOps with z := 1 }).o ({ oLdOps with z := 1 }).z % 2 ^ ({ oLdOps with z := 1 }).z.val ≠ 0) (regs [(2, 1)] (on .ctl))
    ∧ meets (.ld oLdOps) (useLdOps oLdOps) (fun s => (scratchAddr (rdS s oLdOps.b) oLdOps.o oLdOps.z) % (2 ^ oLdOps.z.val) = 0 ∧ s.cur.priv = false ∧ touchesSr s.core (scratchAddr (rdS s oLdOps.b) oLdOps.o oLdOps.z) (2 ^ oLdOps.z.val) = true) (region (regs [(2, 0x3FFFFE)] (on .ctl)))
    ∧ meets (.ldz oLdOps) (useLdOps oLdOps) (fun s => (scratchAddr (rdS s oLdOps.b) oLdOps.o oLdOps.z) % (2 ^ oLdOps.z.val) = 0 ∧ s.cur.priv = false ∧ touchesSr s.core (scratchAddr (rdS s oLdOps.b) oLdOps.o oLdOps.z) (2 ^ oLdOps.z.val) = true) (region (regs [(2, 0x3FFFFE)] (on .ctl)))
    ∧ meets (.ldn oLdnOps) (useLdnOps oLdnOps) (fun s => s.cur.priv = false ∧ touchesSr s.core (nibbleAddr (rdS s oLdnOps.b) oLdnOps.o / 2) 1 = true) (region (regs [(2, 0x3FFFFF)] (on .ctl)))
    ∧ (∀ e ∈ (on .ctl).core.loose.get .ctl, e.seen.getLsbD 0 = true))
    ∧ (meets (.ld oLdOps) (useLdOps oLdOps) (fun s => mayAccess s (scratchAddr (rdS s oLdOps.b) oLdOps.o oLdOps.z) (2 ^ oLdOps.z.val) ∧ spadPoisoned s.core (scratchAddr (rdS s oLdOps.b) oLdOps.o oLdOps.z) = false) (regs [(2, 0x3FFFFF)] (on .ctl))
    ∧ meets (.ldz oLdOps) (useLdOps oLdOps) (fun s => mayAccess s (scratchAddr (rdS s oLdOps.b) oLdOps.o oLdOps.z) (2 ^ oLdOps.z.val) ∧ spadPoisoned s.core (scratchAddr (rdS s oLdOps.b) oLdOps.o oLdOps.z) = false) (regs [(2, 0x3FFFFF)] (on .ctl))
    ∧ meets (.ld oLdOps) (useLdOps oLdOps) (fun s => mayAccess s (scratchAddr (rdS s oLdOps.b) oLdOps.o oLdOps.z) (2 ^ oLdOps.z.val) ∧ spadIsBad s.core (scratchAddr (rdS s oLdOps.b) oLdOps.o oLdOps.z) = false ∧ tagF (spadTag s.core (scratchAddr (rdS s oLdOps.b) oLdOps.o oLdOps.z)) = 0xFF) (poisonTag (regs [(2, 0x3FFFFE)] (on .ctl)))
    ∧ meets (.ld oLdOps) (useLdOps oLdOps) (fun s => mayAccess s (scratchAddr (rdS s oLdOps.b) oLdOps.o oLdOps.z) (2 ^ oLdOps.z.val) ∧ spadIsBad s.core (scratchAddr (rdS s oLdOps.b) oLdOps.o oLdOps.z) = true) (badLine (regs [(2, 0x3FFFFE)] (on .ctl)))
    ∧ meets (.ldz oLdOps) (useLdOps oLdOps) (fun s => mayAccess s (scratchAddr (rdS s oLdOps.b) oLdOps.o oLdOps.z) (2 ^ oLdOps.z.val) ∧ spadIsBad s.core (scratchAddr (rdS s oLdOps.b) oLdOps.o oLdOps.z) = false ∧ tagF (spadTag s.core (scratchAddr (rdS s oLdOps.b) oLdOps.o oLdOps.z)) = 0xFF) (poisonTag (regs [(2, 0x3FFFFE)] (on .ctl)))
    ∧ meets (.ldz oLdOps) (useLdOps oLdOps) (fun s => mayAccess s (scratchAddr (rdS s oLdOps.b) oLdOps.o oLdOps.z) (2 ^ oLdOps.z.val) ∧ spadIsBad s.core (scratchAddr (rdS s oLdOps.b) oLdOps.o oLdOps.z) = true) (badLine (regs [(2, 0x3FFFFE)] (on .ctl)))
    ∧ meets (.ldn oLdnOps) (useLdnOps oLdnOps) (fun s => mayAccess s (nibbleAddr (rdS s oLdnOps.b) oLdnOps.o / 2) 1 ∧ spadPoisoned s.core (nibbleAddr (rdS s oLdnOps.b) oLdnOps.o / 2) = false) (regs [(2, 0x3FFFFF)] (on .ctl))
    ∧ meets (.ldn oLdnOps) (useLdnOps oLdnOps) (fun s => mayAccess s (nibbleAddr (rdS s oLdnOps.b) oLdnOps.o / 2) 1 ∧ spadIsBad s.core (nibbleAddr (rdS s oLdnOps.b) oLdnOps.o / 2) = false ∧ tagF (spadTag s.core (nibbleAddr (rdS s oLdnOps.b) oLdnOps.o / 2)) = 0xFF) (poisonTag (regs [(2, 0x3FFFFF)] (on .ctl)))
    ∧ meets (.ldn oLdnOps) (useLdnOps oLdnOps) (fun s => mayAccess s (nibbleAddr (rdS s oLdnOps.b) oLdnOps.o / 2) 1 ∧ spadIsBad s.core (nibbleAddr (rdS s oLdnOps.b) oLdnOps.o / 2) = true) (badLine (regs [(2, 0x3FFFFF)] (on .ctl)))) :=
  ⟨by and_intros <;> first | decide +kernel | (unfold guardTrue; decide +kernel),
   by and_intros <;> first | decide +kernel | (unfold guardTrue; decide +kernel) | (unfold mayAccess; decide +kernel)⟩

/-- Stores at the top of the scratchpad, a misaligned store, a nibble and forbidden stores. -/
theorem wit_ScratchpadStores :
    (meets (.st ({ oStOps with z := 1 })) (useStOps ({ oStOps with z := 1 })) (fun s => scratchAddr (rdS s ({ oStOps with z := 1 }).b) ({ oStOps with z := 1 }).o ({ oStOps with z := 1 }).z % 2 ^ ({ oStOps with z := 1 }).z.val ≠ 0) (regs [(2, 1)] (on .ctl))
    ∧ meets (.st oStOps) (useStOps oStOps) (fun s => (scratchAddr (rdS s oStOps.b) oStOps.o oStOps.z) % (2 ^ oStOps.z.val) = 0 ∧ s.cur.priv = false ∧ touchesSr s.core (scratchAddr (rdS s oStOps.b) oStOps.o oStOps.z) (2 ^ oStOps.z.val) = true) (region (regs [(2, 0x3FFFFE)] (on .ctl)))
    ∧ meets (.stn oStnOps) (useStnOps oStnOps) (fun s => s.cur.priv = false ∧ touchesSr s.core (nibbleAddr (rdS s oStnOps.b) oStnOps.o / 2) 1 = true) (region (regs [(2, 0x3FFFFF)] (on .ctl)))
    ∧ (spadIsBad (badLine (on .ctl)).core 0x3FFFFF = true ∧ (on .ctl).core.spad.wf = true))
    ∧ (meets (.st ({ oStOps with z := 3 })) (useStOps ({ oStOps with z := 3 })) (fun s => mayAccess s (scratchAddr (rdS s ({ oStOps with z := 3 }).b) ({ oStOps with z := 3 }).o ({ oStOps with z := 3 }).z) (2 ^ ({ oStOps with z := 3 }).z.val)) (regs [(2, 0x3FFFF8)] (on .ctl))
    ∧ meets (.stn oStnOps) (useStnOps oStnOps) (fun s => mayAccess s (nibbleAddr (rdS s oStnOps.b) oStnOps.o / 2) 1) (regs [(2, 0x3FFFFF)] (on .ctl))) :=
  ⟨by and_intros <;> first | decide +kernel | (unfold guardTrue; decide +kernel),
   by and_intros <;> first | decide +kernel | (unfold guardTrue; decide +kernel) | (unfold mayAccess; decide +kernel)⟩

/-- A fence with nothing outstanding, far accesses that fault, far accesses whose page is mapped, and a release and a fence that wait for a load. -/
theorem wit_FarAccesses :
    (meets (.fence ({ oFenceOps with m := 1 })) (useFenceOps ({ oFenceOps with m := 1 })) (fun s => farOutstanding s ({ oFenceOps with m := 1 }).m = false) (on .ctl)
    ∧ (issues (.fst { oFstOps with q := true, c := .device }) (useFstOps { oFstOps with q := true, c := .device }) (overdue (on .ctl)) ∧ releaseWaits 0 .device (startIssue (overdue (on .ctl))) = true)
    ∧ (issues (.fence { oFenceOps with m := 1 }) (useFenceOps { oFenceOps with m := 1 }) (overdue (on .ctl)) ∧ farOutstanding (startIssue (overdue (on .ctl))) 1 = true)
    ∧ (farStoresOf (on .ctl) = [] ∧ (on .ctl).cur.flds.length < 8 ∧ (on .ctl).tiers.blocked = [])
    ∧ (issues (.fld oFldOps) (useFldOps oFldOps) (regs [(2, 0x100000000000000)] (on .ctl)) ∧ (startIssue (regs [(2, 0x100000000000000)] (on .ctl))).cur.flds.length < 8
      ∧ (farCheck (startIssue (regs [(2, 0x100000000000000)] (on .ctl))) (farAddr 0x100000000000000 0 0) 1 false).2 = .error (mkTrap 0x06 3 0x100000000000000))
    ∧ (issues (.fld oFldOps) (useFldOps oFldOps) (fullFlds (on .ctl)) ∧ 8 ≤ (startIssue (fullFlds (on .ctl))).cur.flds.length)
    ∧ (issues (.fst oFstOps) (useFstOps oFstOps) (regs [(2, 0x100000000000000)] (on .ctl)) ∧ oFstOps.q = false
      ∧ (farCheck (startIssue (regs [(2, 0x100000000000000)] (on .ctl))) (farAddr 0x100000000000000 0 0) 1 true).2 = .error (mkTrap 0x06 3 0x100000000000000))
    ∧ (issues (.fst oFstOps) (useFstOps oFstOps) (mapped (on .ctl)) ∧ ((farCheck (startIssue (mapped (on .ctl))) 0 1 true).2.toOption.map (·.tier)) = some .stage)
    ∧ (issues (.fld oFldOps) (useFldOps oFldOps) (mapped (on .ctl)) ∧ ((farCheck (startIssue (mapped (on .ctl))) 0 1 false).2.toOption.map (·.tier)) = some .stage))
    ∧ (let u := bankBusy (on .ctl); issues (.fld oFldOps) (useFldOps oFldOps) u ∧ walkHeld (entered (.fld oFldOps) u) (streamAccess (entered (.fld oFldOps) u) false) (farAddr (rdS (entered (.fld oFldOps) u) oFldOps.b) oFldOps.o oFldOps.z) = true)
    ∧ (let u := bankBusy (on .ctl); issues (.fst oFstOps) (useFstOps oFstOps) u ∧ accessHeld (startIssue u) (streamAccess (startIssue u) true) (farAddr (rdS (startIssue u) oFstOps.b) oFstOps.o oFstOps.z) (2 ^ oFstOps.z.val) = true) :=
  ⟨by and_intros <;> first | decide +kernel | (unfold guardTrue; decide +kernel),
   ⟨issues_of (by decide +kernel), walk_held rfl (by decide +kernel) (by decide +kernel) (by decide +kernel) (by decide +kernel)⟩,
   ⟨issues_of (by decide +kernel), by unfold accessHeld; rw [walk_held rfl (by decide +kernel) (by decide +kernel) (by decide +kernel) (by decide +kernel)]; rfl⟩⟩

/-- A status register read and written, a supervisor register in job mode and in supervisor mode, and a number that names none. -/
theorem wit_StatusRegisters :
    (csrAssigned .ctl 0x013 = true ∧ csrSupRead 0x013 = false ∧ issues (.csrr { oCsrrOps with c := 0x013 }) (useCsrrOps { oCsrrOps with c := 0x013 }) (on .ctl))
    ∧ (csrSupRead 0x00D = true ∧ issues (.csrr { oCsrrOps with c := 0x00D }) (useCsrrOps { oCsrrOps with c := 0x00D }) (sup (on .ctl)) ∧ (sup (on .ctl)).cur.priv = true)
    ∧ (csrSupRead 0x00D = true ∧ issues (.csrr { oCsrrOps with c := 0x00D }) (useCsrrOps { oCsrrOps with c := 0x00D }) (on .ctl) ∧ (on .ctl).cur.priv = false)
    ∧ csrAssigned .copy 0x00D = false
    ∧ (csrSupWrite 0x078 = true ∧ issues (.csrw { oCsrwOps with c := 0x078 }) (useCsrwOps { oCsrwOps with c := 0x078 }) (on .ctl) ∧ (on .ctl).cur.priv = false)
    ∧ (csrSupWrite 0x005 = false ∧ issues (.csrw { oCsrwOps with c := 0x005 }) (useCsrwOps { oCsrwOps with c := 0x005 }) (on .ctl)) :=
  by and_intros <;> first | decide +kernel | (unfold guardTrue; decide +kernel)

/-- The plain words issue, with the engines idle and no load in flight. -/
theorem wit_PlainWords :
    meets (.cyc oDP) (useDP oDP) (fun _ => True) (on .ctl)
    ∧ meets (.nop oBare) (useBare oBare) (fun _ => True) (on .ctl)
    ∧ meets (.mode oModeOps) (useModeOps oModeOps) (fun s => s.cur.allReadable = true ∧ enginesIdle s = true) (on .ctl)
    ∧ (issues (.trap oTrapOps) (useTrapOps oTrapOps) (on .ctl) ∧ (on .ctl).cur.flds = [] ∧ (on .ctl).cur.awaitsLoad = false) :=
  by and_intros <;> first | decide +kernel | (unfold guardTrue; decide +kernel)

/-- A return with no handler active, from a job handler and from a supervisor handler. -/
theorem wit_TrapReturn :
    (issues (.tret oGP) (useGP oGP) (on .ctl) ∧ (startIssue (on .ctl)).cur.namedLanded = true ∧ (startIssue (on .ctl)).cur.levelTrap.inh = false)
    ∧ (issues (.tret oGP) (useGP oGP) (inHandler (on .ctl)) ∧ (startIssue (inHandler (on .ctl))).cur.namedLanded = true ∧ (startIssue (inHandler (on .ctl))).cur.levelTrap.inh = true)
    ∧ (issues (.tret oGP) (useGP oGP) (inHandler (sup (on .ctl))) ∧ (startIssue (inHandler (sup (on .ctl)))).cur.namedLanded = true ∧ (startIssue (inHandler (sup (on .ctl)))).cur.levelTrap.inh = true) :=
  by and_intros <;> first | decide +kernel | (unfold guardTrue; decide +kernel)

/-- A word in the wrong section, an ill-formed one, a supervisor word in job mode and a word held by its settle bit. -/
theorem wit_IssueChecks :
    sectionCheck (.mmul oAP) .ctl = some 1
    ∧ (sectionCheck (.bfx { oBfOps with o := 63, w := 1 }) .ctl = none ∧ wellFormed (.bfx { oBfOps with o := 63, w := 1 }) = false)
    ∧ (decodeTrap (.semmap oABP) (on .ctl) = some (mkTrap 0x02 0 0) ∧ decodeTrap (.semmap oABP) (sup (on .ctl)) = none)
    ∧ (decodeTrap (.add oDABP) (settlingAt 9 (on .ctl)) = none ∧ mustHold (useDABP oDABP) (settlingAt 9 (on .ctl)) = true) :=
  by and_intros <;> decide +kernel

/-- A word whose guard is false, a negated branch, and one negated on p0. -/
theorem wit_FalseGuards :
    (meets (.br ({ oBOps with p := 1, n := true })) (useBOps ({ oBOps with p := 1, n := true })) (fun s => rdP s ({ oBOps with p := 1, n := true }).p = false ∧ ({ oBOps with p := 1, n := true }).n = true) (on .ctl)
    ∧ meets (.br ({ oBOps with n := true })) (useBOps ({ oBOps with n := true })) (fun _ => ({ oBOps with n := true }).p = 0 ∧ ({ oBOps with n := true }).n = true) (on .ctl))
    ∧ (canIssue (.add { oDABP with d := .push, p := 1 }) (useDABP { oDABP with d := .push, p := 1 }) (on .ctl) ∧ rdP (startIssue (on .ctl)) (useDABP { oDABP with d := .push, p := 1 }).guard = false) :=
  ⟨by and_intros <;> first | decide +kernel | (unfold guardTrue; decide +kernel),
   by unfold canIssue; decide +kernel⟩

/-- Signal, wait, try, add and compare at the limits of the value. -/
theorem wit_LocalSemaphores :
    meets (.semsig oYABsk) (useYABsk oYABsk) (fun s => releaseWaits oYABsk.k oYABsk.c s = false ∧ semPlace s (rdS s oYABsk.a) = .here 5 ∧ (semAt s 5).val.toNat + (rdS s oYABsk.b).toNat % 2 ^ 32 < 2 ^ 32) (semAt5 0xFFFFFFFE (regs [(1, 0), (2, 1)] (on .ctl)))
    ∧ meets (.semsig oYABsk) (useYABsk oYABsk) (fun s => releaseWaits oYABsk.k oYABsk.c s = false ∧ semPlace s (rdS s oYABsk.a) = .here 5 ∧ 2 ^ 32 ≤ (semAt s 5).val.toNat + (rdS s oYABsk.b).toNat % 2 ^ 32) (semAt5 0xFFFFFFFF (regs [(1, 0), (2, 1)] (on .ctl)))
    ∧ meets (.semwait oYABsk) (useYABsk oYABsk) (fun s => semPlace s (rdS s oYABsk.a) = .here 5 ∧ ((rdS s oYABsk.b).toNat % 2 ^ 32 = 0 ∨ ((semAt s 5).fifo = [] ∧ (rdS s oYABsk.b).toNat % 2 ^ 32 ≤ (semAt s 5).val.toNat))) (semAt5 7 (regs [(1, 0), (2, 7)] (on .ctl)))
    ∧ meets (.semtry oYDABsk) (useYDABsk oYDABsk) (fun s => semPlace s (rdS s oYDABsk.a) = .here 5 ∧ (rdS s oYDABsk.b).toNat % 2 ^ 32 ≤ (semAt s 5).val.toNat) (semAt5 7 (regs [(1, 0), (2, 7)] (on .ctl)))
    ∧ meets (.semtry oYDABsk) (useYDABsk oYDABsk) (fun s => semPlace s (rdS s oYDABsk.a) = .here 5 ∧ (semAt s 5).val.toNat < (rdS s oYDABsk.b).toNat % 2 ^ 32) (semAt5 6 (regs [(1, 0), (2, 7)] (on .ctl)))
    ∧ meets (.semadd oYDABsk) (useYDABsk oYDABsk) (fun s => releaseWaits oYDABsk.k oYDABsk.c s = false ∧ semPlace s (rdS s oYDABsk.a) = .here 5 ∧ 0 ≤ ((semAt s 5).val.toNat : Int) + ((rdS s oYDABsk.b).setWidth 32).toInt ∧ ((semAt s 5).val.toNat : Int) + ((rdS s oYDABsk.b).setWidth 32).toInt < 2 ^ 32) (semAt5 1 (regs [(1, 0), (2, 0xFFFFFFFF)] (on .ctl)))
    ∧ meets (.semadd oYDABsk) (useYDABsk oYDABsk) (fun s => releaseWaits oYDABsk.k oYDABsk.c s = false ∧ semPlace s (rdS s oYDABsk.a) = .here 5 ∧ (((semAt s 5).val.toNat : Int) + ((rdS s oYDABsk.b).setWidth 32).toInt < 0 ∨ 2 ^ 32 ≤ ((semAt s 5).val.toNat : Int) + ((rdS s oYDABsk.b).setWidth 32).toInt)) (semAt5 0 (regs [(1, 0), (2, 0xFFFFFFFF)] (on .ctl)))
    ∧ meets (.semcas oYDABsk) (useYDABsk oYDABsk) (fun s => releaseWaits oYDABsk.k oYDABsk.c s = false ∧ semPlace s (rdS s oYDABsk.a) = .here 5 ∧ (semAt s 5).val.toNat = (rdS s oYDABsk.b).toNat % 2 ^ 32) (semAt5 7 (regs [(1, 0), (2, 0x300000007)] (on .ctl)))
    ∧ meets (.semcas oYDABsk) (useYDABsk oYDABsk) (fun s => releaseWaits oYDABsk.k oYDABsk.c s = false ∧ semPlace s (rdS s oYDABsk.a) = .here 5 ∧ (semAt s 5).val.toNat ≠ (rdS s oYDABsk.b).toNat % 2 ^ 32) (semAt5 8 (regs [(1, 0), (2, 0x300000007)] (on .ctl)))
    ∧ meets (.semrd oYDAsk) (useYDAsk oYDAsk) (fun s => semPlace s (rdS s oYDAsk.a) = .here 5) (semAt5 0 (regs [(1, 0)] (on .ctl)))
    ∧ (semAt (semAt5 3 (on .ctl)) 5).fifo = []
    ∧ (issues (.semsig { oYABsk with c := .device }) (useYABsk { oYABsk with c := .device }) (overdue (mapSem 0 0x80000003 (on .ctl))) ∧ semPlace (startIssue (overdue (mapSem 0 0x80000003 (on .ctl)))) (rdS (startIssue (overdue (mapSem 0 0x80000003 (on .ctl)))) oYABsk.a) = .here 3
      ∧ releaseWaits 0 .device (startIssue (overdue (mapSem 0 0x80000003 (on .ctl)))) = true)
    ∧ (issues (.semadd { oYDABsk with c := .device }) (useYDABsk { oYDABsk with c := .device }) (overdue (mapSem 0 0x80000003 (on .ctl))) ∧ semPlace (startIssue (overdue (mapSem 0 0x80000003 (on .ctl)))) (rdS (startIssue (overdue (mapSem 0 0x80000003 (on .ctl)))) oYDABsk.a) = .here 3
      ∧ releaseWaits 0 .device (startIssue (overdue (mapSem 0 0x80000003 (on .ctl)))) = true)
    ∧ (issues (.semcas { oYDABsk with c := .device }) (useYDABsk { oYDABsk with c := .device }) (overdue (mapSem 0 0x80000003 (on .ctl))) ∧ semPlace (startIssue (overdue (mapSem 0 0x80000003 (on .ctl)))) (rdS (startIssue (overdue (mapSem 0 0x80000003 (on .ctl)))) oYDABsk.a) = .here 3
      ∧ releaseWaits 0 .device (startIssue (overdue (mapSem 0 0x80000003 (on .ctl)))) = true) :=
  by and_intros <;> first | decide +kernel | (unfold guardTrue; decide +kernel)

/-- A wait that queues, one of a remote semaphore, and the numbers that no entry covers. -/
theorem wit_SemaphoreQueues :
    meets (.semwait oYABsk) (useYABsk oYABsk) (fun s => semPlace s (rdS s oYABsk.a) = .here 3 ∧ (rdS s oYABsk.b).toNat % 2 ^ 32 ≠ 0 ∧ ((semAt s 3).fifo ≠ [] ∨ (semAt s 3).val.toNat < (rdS s oYABsk.b).toNat % 2 ^ 32)) (mapSem 255 0x80000003 (regs [(1, 255), (2, 1)] (on .ctl)))
    ∧ meets (.semwait oYABsk) (useYABsk oYABsk) (fun s => semPlace s (rdS s oYABsk.a) = .there 0x1000 3 ∧ s.isMember (coordModule 0x1000) = true) (mapSem 0 0x00001000C0000003 (regs [(1, 0), (2, 1)] (on .ctl)))
    ∧ meets (.semwait oYABsk) (useYABsk oYABsk) (fun s => semPlace s (rdS s oYABsk.a) = .bad 1) (regs [(1, 256)] (on .ctl))
    ∧ meets (.semsig oYABsk) (useYABsk oYABsk) (fun s => semPlace s (rdS s oYABsk.a) = .bad 2) (regs [(1, 0)] (on .ctl))
    ∧ meets (.semcas oYDABsk) (useYDABsk oYDABsk) (fun s => semPlace s (rdS s oYDABsk.a) = .bad 1) (regs [(1, 256)] (on .ctl))
    ∧ meets (.semrd oYDAsk) (useYDAsk oYDAsk) (fun s => semPlace s (rdS s oYDAsk.a) = .bad 2) (regs [(1, 0)] (on .ctl))
    ∧ meets (.semsig oYABsk) (useYABsk oYABsk) (fun s => releaseWaits oYABsk.k oYABsk.c s = false ∧ semPlace s (rdS s oYABsk.a) = .there 0x1000 3 ∧ s.isMember (coordModule 0x1000) = true) (mapSem 0 0x00001000C0000003 (regs [(1, 0), (2, 1)] (on .ctl)))
    ∧ meets (.semwait oYABsk) (useYABsk oYABsk) (fun s => semPlace s (rdS s oYABsk.a) = .there 0x100000 3 ∧ s.isMember (coordModule 0x100000) = false) (mapSem 0 0x00100000C0000003 (regs [(1, 0), (2, 1)] (on .ctl)))
    ∧ meets (.semsig oYABsk) (useYABsk oYABsk) (fun s => releaseWaits oYABsk.k oYABsk.c s = false ∧ semPlace s (rdS s oYABsk.a) = .there 0x100000 3 ∧ s.isMember (coordModule 0x100000) = false) (mapSem 0 0x00100000C0000003 (regs [(1, 0), (2, 1)] (on .ctl)))
    ∧ meets (.semtry oYDABsk) (useYDABsk oYDABsk) (fun s => semPlace s (rdS s oYDABsk.a) = .there 0x1000 3 ∧ s.isMember (coordModule 0x1000) = true) (mapSem 0 0x00001000C0000003 (regs [(1, 0), (2, 1)] (on .ctl)))
    ∧ meets (.semadd oYDABsk) (useYDABsk oYDABsk) (fun s => releaseWaits oYDABsk.k oYDABsk.c s = false ∧ semPlace s (rdS s oYDABsk.a) = .there 0x1000 3 ∧ s.isMember (coordModule 0x1000) = true) (mapSem 0 0x00001000C0000003 (regs [(1, 0), (2, 1)] (on .ctl)))
    ∧ meets (.semcas oYDABsk) (useYDABsk oYDABsk) (fun s => releaseWaits oYDABsk.k oYDABsk.c s = false ∧ semPlace s (rdS s oYDABsk.a) = .there 0x1000 3 ∧ s.isMember (coordModule 0x1000) = true) (mapSem 0 0x00001000C0000003 (regs [(1, 0), (2, 1)] (on .ctl)))
    ∧ meets (.semtry oYDABsk) (useYDABsk oYDABsk) (fun s => semPlace s (rdS s oYDABsk.a) = .there 0x100000 3 ∧ s.isMember (coordModule 0x100000) = false) (mapSem 0 0x00100000C0000003 (regs [(1, 0), (2, 1)] (on .ctl)))
    ∧ meets (.semadd oYDABsk) (useYDABsk oYDABsk) (fun s => releaseWaits oYDABsk.k oYDABsk.c s = false ∧ semPlace s (rdS s oYDABsk.a) = .there 0x100000 3 ∧ s.isMember (coordModule 0x100000) = false) (mapSem 0 0x00100000C0000003 (regs [(1, 0), (2, 1)] (on .ctl)))
    ∧ meets (.semrd oYDAsk) (useYDAsk oYDAsk) (fun s => semPlace s (rdS s oYDAsk.a) = .there 0x1000 3 ∧ s.isMember (coordModule 0x1000) = true) (mapSem 0 0x00001000C0000003 (regs [(1, 0), (2, 1)] (on .ctl)))
    ∧ meets (.semrd oYDAsk) (useYDAsk oYDAsk) (fun s => semPlace s (rdS s oYDAsk.a) = .there 0x100000 3 ∧ s.isMember (coordModule 0x100000) = false) (mapSem 0 0x00100000C0000003 (regs [(1, 0), (2, 1)] (on .ctl)))
    ∧ ((semAt (queued (on .ctl)) 3).val.toNat < 2 ∧ 0 ≤ (semAt (queued (on .ctl)) 3).val.toNat)
    ∧ (semAt (queued (on .ctl)) 3).fifo = [{ coord := (on .ctl).ownCoord, sec := .mat, n := 2, remote := none }] :=
  by and_intros <;> first | decide +kernel | (unfold guardTrue; decide +kernel)

/-- A mutex free, held by another stream, held by the stream itself, and with a waiter; barriers on both sides of the target; the rendezvous of three and of four streams. -/
theorem wit_MutexesBarriersAndRendezvous :
    (meets (.mtxlock oYAsk) (useYAsk oYAsk) (fun s => (rdS s oYAsk.a).toNat < 16 ∧ (mutexAt s (rdS s oYAsk.a).toNat).owner = none) (regs [(1, 15)] (on .ctl))
    ∧ meets (.mtxlock oYAsk) (useYAsk oYAsk) (fun s => (rdS s oYAsk.a).toNat < 16 ∧ (mutexAt s (rdS s oYAsk.a).toNat).owner = some s.turn) (owned 15 .ctl [] (regs [(1, 15)] (on .ctl)))
    ∧ meets (.mtxlock oYAsk) (useYAsk oYAsk) (fun s => 16 ≤ (rdS s oYAsk.a).toNat) (regs [(1, 16)] (on .ctl))
    ∧ meets (.mtxfree oYAsk) (useYAsk oYAsk) (fun s => releaseWaits oYAsk.k oYAsk.c s = false ∧ (rdS s oYAsk.a).toNat < 16 ∧ (mutexAt s (rdS s oYAsk.a).toNat).owner = some s.turn ∧ (mutexAt s (rdS s oYAsk.a).toNat).fifo = []) (owned 0 .ctl [] (regs [(1, 0)] (on .ctl)))
    ∧ meets (.mtxfree oYAsk) (useYAsk oYAsk) (fun s => releaseWaits oYAsk.k oYAsk.c s = false ∧ (rdS s oYAsk.a).toNat < 16 ∧ (mutexAt s (rdS s oYAsk.a).toNat).owner = some s.turn ∧ (mutexAt s (rdS s oYAsk.a).toNat).fifo = .mat :: []) (owned 0 .ctl [.mat] (regs [(1, 0)] (on .ctl)))
    ∧ meets (.mtxfree oYAsk) (useYAsk oYAsk) (fun s => (rdS s oYAsk.a).toNat < 16 ∧ (mutexAt s (rdS s oYAsk.a).toNat).owner ≠ some s.turn) (regs [(1, 0)] (on .ctl))
    ∧ meets (.mtxfree oYAsk) (useYAsk oYAsk) (fun s => 16 ≤ (rdS s oYAsk.a).toNat) (regs [(1, 16)] (on .ctl))
    ∧ meets (.mtxtry oYDAsk) (useYDAsk oYDAsk) (fun s => (rdS s oYDAsk.a).toNat < 16 ∧ (mutexAt s (rdS s oYDAsk.a).toNat).owner = none) (regs [(1, 15)] (on .ctl))
    ∧ meets (.mtxtry oYDAsk) (useYDAsk oYDAsk) (fun s => (rdS s oYDAsk.a).toNat < 16 ∧ (mutexAt s (rdS s oYDAsk.a).toNat).owner = some s.turn) (owned 15 .ctl [] (regs [(1, 15)] (on .ctl)))
    ∧ meets (.mtxtry oYDAsk) (useYDAsk oYDAsk) (fun s => 16 ≤ (rdS s oYDAsk.a).toNat) (regs [(1, 16)] (on .ctl))
    ∧ meets (.barwait oYDABsk) (useYDABsk oYDABsk) (fun s => (rdS s oYDABsk.a).toNat < 8 ∧ (barrierAt s (rdS s oYDABsk.a).toNat).target ≠ 0 ∧ (barrierAt s (rdS s oYDABsk.a).toNat).phase.toNat ≠ (rdS s oYDABsk.b).toNat % 256) (barrier 7 255 0 0 (regs [(1, 7), (2, 1)] (on .ctl)))
    ∧ meets (.barwait oYDABsk) (useYDABsk oYDABsk) (fun s => (rdS s oYDABsk.a).toNat < 8 ∧ (barrierAt s (rdS s oYDABsk.a).toNat).target ≠ 0 ∧ (barrierAt s (rdS s oYDABsk.a).toNat).phase.toNat = (rdS s oYDABsk.b).toNat % 256) (barrier 7 255 0 0 (regs [(1, 7), (2, 0x100)] (on .ctl)))
    ∧ meets (.barwait oYDABsk) (useYDABsk oYDABsk) (fun s => (rdS s oYDABsk.a).toNat < 8 ∧ (barrierAt s (rdS s oYDABsk.a).toNat).target = 0) (regs [(1, 7)] (on .ctl))
    ∧ meets (.barwait oYDABsk) (useYDABsk oYDABsk) (fun s => 8 ≤ (rdS s oYDABsk.a).toNat) (regs [(1, 8)] (on .ctl))
    ∧ meets (.rdv oBare) (useBare oBare) (fun s => s.cur.rdvPending = some 0 ∧ 0 ≠ s.core.sync.rdvGen) (rdvWas 0 1 (on .ctl))
    ∧ meets (.rdv oBare) (useBare oBare) (fun s => s.cur.rdvPending = some 1 ∧ 1 = s.core.sync.rdvGen) (rdvWas 1 1 (on .ctl))
    ∧ (issues (.bararr oYDABsk) (useYDABsk oYDABsk) (regs [(1, 7), (2, 1)] (barrier 7 255 253 0 (on .ctl))))
    ∧ (issues (.bararr oYDABsk) (useYDABsk oYDABsk) (regs [(1, 7), (2, 255)] (barrier 7 255 0 0 (on .ctl))))
    ∧ (issues (.bararr oYDABsk) (useYDABsk oYDABsk) (regs [(1, 8)] (on .ctl)))
    ∧ (issues (.bararr oYDABsk) (useYDABsk oYDABsk) (regs [(1, 7)] (barrier 7 1 0 0 (on .ctl))))
    ∧ (issues (.rdv oBare) (useBare oBare) (arrived true (on .ctl)) ∧ (on .ctl).cur.rdvPending = none))
    ∧ meets (.mtxlock oYAsk) (useYAsk oYAsk) (fun s => (rdS s oYAsk.a).toNat < 16 ∧ ∃ t, (mutexAt s (rdS s oYAsk.a).toNat).owner = some t ∧ t ≠ s.turn) (owned 15 .copy [] (regs [(1, 15)] (on .ctl)))
    ∧ meets (.mtxtry oYDAsk) (useYDAsk oYDAsk) (fun s => (rdS s oYDAsk.a).toNat < 16 ∧ ∃ t, (mutexAt s (rdS s oYDAsk.a).toNat).owner = some t ∧ t ≠ s.turn) (owned 15 .copy [] (regs [(1, 15)] (on .ctl))) :=
  ⟨by and_intros <;> first | decide +kernel | (unfold guardTrue; decide +kernel),
   ⟨issues_of (by decide +kernel), ⟨by decide +kernel, .copy, by decide +kernel⟩⟩,
   ⟨issues_of (by decide +kernel), ⟨by decide +kernel, .copy, by decide +kernel⟩⟩⟩

/-- Flags set and clear, consumed and not, and counters below and at the threshold. -/
theorem wit_FlagsAndCounters :
    (meets (.evset oYAk) (useYAk oYAk) (fun s => (rdS s oYAk.a).toNat < 32) (regs [(1, 31)] (on .ctl))
    ∧ meets (.evset oYAk) (useYAk oYAk) (fun s => 32 ≤ (rdS s oYAk.a).toNat) (regs [(1, 32)] (on .ctl))
    ∧ meets (.evclr oYA) (useYA oYA) (fun s => (rdS s oYA.a).toNat < 32) (regs [(1, 31)] (on .ctl))
    ∧ meets (.evclr oYA) (useYA oYA) (fun s => 32 ≤ (rdS s oYA.a).toNat) (regs [(1, 32)] (on .ctl))
    ∧ meets (.evwait oYABk) (useYABk oYABk) (fun s => (rdS s oYABk.a).toNat < 32 ∧ flagSet s (rdS s oYABk.a).toNat = true ∧ (rdS s oYABk.b).getLsbD 0 = false) (setFlag 31 true (regs [(1, 31), (2, 0)] (on .ctl)))
    ∧ meets (.evwait oYABk) (useYABk oYABk) (fun s => (rdS s oYABk.a).toNat < 32 ∧ flagSet s (rdS s oYABk.a).toNat = true ∧ (rdS s oYABk.b).getLsbD 0 = true) (setFlag 31 true (regs [(1, 31), (2, 1)] (on .ctl)))
    ∧ meets (.evwait oYABk) (useYABk oYABk) (fun s => (rdS s oYABk.a).toNat < 32 ∧ flagSet s (rdS s oYABk.a).toNat = false) (regs [(1, 31), (2, 1)] (on .ctl))
    ∧ meets (.evwait oYABk) (useYABk oYABk) (fun s => 32 ≤ (rdS s oYABk.a).toNat) (regs [(1, 32)] (on .ctl))
    ∧ meets (.waitlt oYAB) (useYAB oYAB) (fun s => s.turn ≠ .mat ∧ s.cur.faults = (mkTrap 0x07 0 0) :: []) (engineFault (on .ctl))
    ∧ meets (.waitlt oYAB) (useYAB oYAB) (fun s => s.turn = .mat ∧ s.core.mat.mflt.pend = true) (matFault (on .mat)))
    ∧ (meets (.waitlt oYAB) (useYAB oYAB) (fun s => noFault s ∧ (rdS s oYAB.a).toNat < 32 ∧ (rdS s oYAB.b).toNat ≠ 0 ∧ counterAt s (rdS s oYAB.a).toNat < (rdS s oYAB.b).toNat) (regs [(1, 31), (2, 1)] (on .ctl))
    ∧ meets (.waitlt oYAB) (useYAB oYAB) (fun s => noFault s ∧ (rdS s oYAB.a).toNat < 32 ∧ (rdS s oYAB.b).toNat ≠ 0 ∧ (rdS s oYAB.b).toNat ≤ 100 ∧ (rdS s oYAB.b).toNat ≤ counterAt s (rdS s oYAB.a).toNat) (setCounter 31 100 (regs [(1, 31), (2, 100)] (on .ctl)))
    ∧ meets (.waitlt oYAB) (useYAB oYAB) (fun s => noFault s ∧ 32 ≤ (rdS s oYAB.a).toNat) (regs [(1, 32)] (on .ctl))
    ∧ meets (.waitlt oYAB) (useYAB oYAB) (fun s => noFault s ∧ (rdS s oYAB.a).toNat < 32 ∧ (rdS s oYAB.b).toNat = 0) (regs [(1, 31), (2, 0)] (on .ctl))) :=
  ⟨by and_intros <;> first | decide +kernel | (unfold guardTrue; decide +kernel),
   by and_intros <;> first | decide +kernel | (unfold guardTrue; decide +kernel) | (unfold noFault; decide +kernel)⟩

/-- A ring of four granules with two claimed and one committed. -/
theorem wit_Rings :
    (meets (.claim oYDABk) (useYDABk oYDABk) (fun s => (rdS s oYDABk.a).toNat % 64 ≠ 0) (regs [(1, 1)] (on .ctl))
    ∧ meets (.await oYDABk) (useYDABk oYDABk) (fun s => (rdS s oYDABk.a).toNat % 64 = 0 ∧ s.cur.priv = false ∧ touchesSr s.core ((rdS s oYDABk.a).toNat % 2 ^ 22) 64 = true) (region (regs [(1, 0x40)] (on .ctl))))
    ∧ (meets (.claim oYDABk) (useYDABk oYDABk) (fun s => ringOk oYDABk.k s (rdS s oYDABk.a) (rdS s oYDABk.b) ring4 ∧ (rdS s oYDABk.b).toNat ≤ ring4.size - ring4.used) (ringMem (regs [(1, 0x40), (2, 2)] (on .ctl)))
    ∧ meets (.claim oYDABk) (useYDABk oYDABk) (fun s => ringOk oYDABk.k s (rdS s oYDABk.a) (rdS s oYDABk.b) ring4 ∧ ring4.size - ring4.used < (rdS s oYDABk.b).toNat) (ringMem (regs [(1, 0x40), (2, 3)] (on .ctl)))
    ∧ meets (.commit oYDABk) (useYDABk oYDABk) (fun s => ringOk oYDABk.k s (rdS s oYDABk.a) (rdS s oYDABk.b) ring4 ∧ (rdS s oYDABk.b).toNat ≤ ring4.pend) (ringMem (regs [(1, 0x40), (2, 1)] (on .ctl)))
    ∧ meets (.await oYDABk) (useYDABk oYDABk) (fun s => ringOk oYDABk.k s (rdS s oYDABk.a) (rdS s oYDABk.b) ring4 ∧ (rdS s oYDABk.b).toNat ≤ ring4.occ) (ringMem (regs [(1, 0x40), (2, 1)] (on .ctl)))
    ∧ meets (.await oYDABk) (useYDABk oYDABk) (fun s => ringOk oYDABk.k s (rdS s oYDABk.a) (rdS s oYDABk.b) ring4 ∧ ring4.occ < (rdS s oYDABk.b).toNat) (ringMem (regs [(1, 0x40), (2, 2)] (on .ctl)))
    ∧ meets (.retire oYDABk) (useYDABk oYDABk) (fun s => ringOk oYDABk.k s (rdS s oYDABk.a) (rdS s oYDABk.b) ring4 ∧ (rdS s oYDABk.b).toNat ≤ ring4.occ) (ringMem (regs [(1, 0x40), (2, 1)] (on .ctl)))
    ∧ meets (.commit oYDABk) (useYDABk oYDABk) (fun s => ringOk oYDABk.k s (rdS s oYDABk.a) (rdS s oYDABk.b) ring4 ∧ ring4.pend < (rdS s oYDABk.b).toNat) (ringMem (regs [(1, 0x40), (2, 2)] (on .ctl)))
    ∧ meets (.retire oYDABk) (useYDABk oYDABk) (fun s => ringOk oYDABk.k s (rdS s oYDABk.a) (rdS s oYDABk.b) ring4 ∧ ring4.occ < (rdS s oYDABk.b).toNat) (ringMem (regs [(1, 0x40), (2, 2)] (on .ctl)))
    ∧ meets (.retire oYDABk) (useYDABk oYDABk) (fun s => ringBlock s (rdS s oYDABk.a) ∧ readRing (s.setCore (s.viewed oYDABk.k)) ((rdS s oYDABk.a).toNat % 2 ^ 22) = none) (badRing (regs [(1, 0x40)] (on .ctl)))
    ∧ meets (.claim oYDABk) (useYDABk oYDABk) (fun s => ringBlock s (rdS s oYDABk.a) ∧ readRing (s.setCore (s.viewed oYDABk.k)) ((rdS s oYDABk.a).toNat % 2 ^ 22) = some ring4 ∧ ((rdS s oYDABk.b).toNat = 0 ∨ ring4.size < (rdS s oYDABk.b).toNat)) (ringMem (regs [(1, 0x40), (2, 5)] (on .ctl)))
    ∧ meets (.claim oYDABk) (useYDABk oYDABk) (fun s => ringBlock s (rdS s oYDABk.a) ∧ readRing (s.setCore (s.viewed oYDABk.k)) ((rdS s oYDABk.a).toNat % 2 ^ 22) = none) (regs [(1, 0x3FFFC0), (2, 1)] (on .mat))
    ∧ meets (.claim oYDABk) (useYDABk oYDABk) (fun s => ringBlock s (rdS s oYDABk.a) ∧ readRing (s.setCore (s.viewed oYDABk.k)) ((rdS s oYDABk.a).toNat % 2 ^ 22) = some ring4 ∧ ((rdS s oYDABk.b).toNat = 0 ∨ ring4.size < (rdS s oYDABk.b).toNat)) (regs [(1, 0x40)] (ringMem (on .mat)))
    ∧ meets (.commit oYDABk) (useYDABk oYDABk) (fun s => ringBlock s (rdS s oYDABk.a) ∧ readRing (s.setCore (s.viewed oYDABk.k)) ((rdS s oYDABk.a).toNat % 2 ^ 22) = none) (regs [(1, 0x3FFFC0), (2, 1)] (on .mat))
    ∧ meets (.commit oYDABk) (useYDABk oYDABk) (fun s => ringBlock s (rdS s oYDABk.a) ∧ readRing (s.setCore (s.viewed oYDABk.k)) ((rdS s oYDABk.a).toNat % 2 ^ 22) = some ring4 ∧ ((rdS s oYDABk.b).toNat = 0 ∨ ring4.size < (rdS s oYDABk.b).toNat)) (regs [(1, 0x40)] (ringMem (on .mat)))
    ∧ meets (.await oYDABk) (useYDABk oYDABk) (fun s => ringBlock s (rdS s oYDABk.a) ∧ readRing (s.setCore (s.viewed oYDABk.k)) ((rdS s oYDABk.a).toNat % 2 ^ 22) = none) (regs [(1, 0x3FFFC0), (2, 1)] (on .mat))
    ∧ meets (.await oYDABk) (useYDABk oYDABk) (fun s => ringBlock s (rdS s oYDABk.a) ∧ readRing (s.setCore (s.viewed oYDABk.k)) ((rdS s oYDABk.a).toNat % 2 ^ 22) = some ring4 ∧ ((rdS s oYDABk.b).toNat = 0 ∨ ring4.size < (rdS s oYDABk.b).toNat)) (regs [(1, 0x40)] (ringMem (on .mat)))
    ∧ meets (.retire oYDABk) (useYDABk oYDABk) (fun s => ringBlock s (rdS s oYDABk.a) ∧ readRing (s.setCore (s.viewed oYDABk.k)) ((rdS s oYDABk.a).toNat % 2 ^ 22) = none) (regs [(1, 0x3FFFC0), (2, 1)] (on .mat))
    ∧ meets (.retire oYDABk) (useYDABk oYDABk) (fun s => ringBlock s (rdS s oYDABk.a) ∧ readRing (s.setCore (s.viewed oYDABk.k)) ((rdS s oYDABk.a).toNat % 2 ^ 22) = some ring4 ∧ ((rdS s oYDABk.b).toNat = 0 ∨ ring4.size < (rdS s oYDABk.b).toNat)) (regs [(1, 0x40)] (ringMem (on .mat)))) :=
  ⟨by and_intros <;> first | decide +kernel | (unfold guardTrue; decide +kernel),
   by and_intros <;> first | decide +kernel | (unfold guardTrue; decide +kernel) | (unfold ringBlock; decide +kernel) | (unfold ringOk; decide +kernel)⟩

/-- A cycle that has come and one that has not; a word that differs and one that does not; the reserved watches. -/
theorem wit_TimedWaits :
    (meets (.sleepu oYA) (useYA oYA) (fun s => (rdS s oYA.a).toNat ≤ s.now) (regs [(1, 0)] (on .ctl))
    ∧ meets (.sleepu oYA) (useYA oYA) (fun s => s.now < (rdS s oYA.a).toNat) (regs [(1, 1)] (on .ctl))
    ∧ meets (.waita oYDAB) (useYDAB oYDAB) (fun s => (rdS s oYDAB.a).getLsbD 63 = true ∧ (rdS s oYDAB.a).toNat / 2 ^ 22 % 2 ^ 41 ≠ 0) (regs [(1, 0x8000000000400000)] (on .ctl))
    ∧ meets (.waita oYDAB) (useYDAB oYDAB) (fun s => (rdS s oYDAB.a).getLsbD 63 = false ∧ s.turn ≠ .ctl) (regs [(1, 0)] (on .mat))
    ∧ meets (.waita oYDAB) (useYDAB oYDAB) (fun s => (rdS s oYDAB.a).getLsbD 63 = true ∧ (rdS s oYDAB.a).toNat / 2 ^ 22 % 2 ^ 41 = 0 ∧ (rdS s oYDAB.a).toNat % 8 ≠ 0) (regs [(1, 0x8000000000000001)] (on .ctl))
    ∧ meets (.waita oYDAB) (useYDAB oYDAB) (fun s => (rdS s oYDAB.a).getLsbD 63 = true ∧ (rdS s oYDAB.a).toNat / 2 ^ 22 % 2 ^ 41 = 0 ∧ (rdS s oYDAB.a).toNat % 8 = 0 ∧ s.cur.priv = false ∧ touchesSr s.core ((rdS s oYDAB.a).toNat % 2 ^ 22) 8 = true) (region (regs [(1, 0x8000000000000000)] (on .ctl)))
    ∧ meets (.waita oYDAB) (useYDAB oYDAB) (fun s => (rdS s oYDAB.a).getLsbD 63 = false ∧ s.turn = .ctl ∧ (rdS s oYDAB.a).toNat % 8 ≠ 0) (regs [(1, 1)] (on .ctl))
    ∧ (issues (.waita oYDAB) (useYDAB oYDAB) (regs [(2, 1)] (mapped (on .ctl))) ∧ ((farCheck (startIssue (regs [(2, 1)] (mapped (on .ctl)))) 0 8 false).2.toOption.map (·.tier)) = some .stage)
    ∧ (issues (.waita oYDAB) (useYDAB oYDAB) (regs [(1, 0x100000000000000)] (on .ctl))
      ∧ (farCheck (startIssue (regs [(1, 0x100000000000000)] (on .ctl))) 0x100000000000000 8 false).2 = .error (mkTrap 0x06 3 0x100000000000000)))
    ∧ (meets (.waita oYDAB) (useYDAB oYDAB) (fun s => watchesScratch s (rdS s oYDAB.a) ∧ watchRead s s.turn true ((rdS s oYDAB.a).toNat % 2 ^ 22) ≠ rdS s oYDAB.b) (regs [(1, 0x80000000003FFFF8), (2, 1)] (on .ctl))
    ∧ meets (.waita oYDAB) (useYDAB oYDAB) (fun s => watchesScratch s (rdS s oYDAB.a) ∧ watchRead s s.turn true ((rdS s oYDAB.a).toNat % 2 ^ 22) = rdS s oYDAB.b) (regs [(1, 0x80000000003FFFF8), (2, 0)] (on .ctl))) :=
  ⟨by and_intros <;> first | decide +kernel | (unfold guardTrue; decide +kernel),
   by and_intros <;> first | decide +kernel | (unfold guardTrue; decide +kernel) | (unfold mayAccess; decide +kernel) | (unfold watchesScratch; decide +kernel)⟩

/-- A queue with and without entries and a channel. -/
theorem wit_QueuesAndChannels :
    meets (.qcfg oCAQ) (useCAQ oCAQ) (fun s => queueMalformed s oCAQ.q (rdS s oCAQ.a) = false ∧ ((queueAt s oCAQ.q).en = false ∨ (queueAt s oCAQ.q).origins = []) ∧ (rdS s oCAQ.a).getLsbD 63 = true ∧ (s.cur.priv = true ∨ touchesSr s.core ((rdS s oCAQ.a).toNat / 64 % 2 ^ 16 * 64) (64 * 2 ^ ((rdS s oCAQ.a).toNat / 2 ^ 24 % 16)) = false)) (regs [(1, 0x800000000C000000)] (on .ctl))
    ∧ meets (.qcfg oCAQ) (useCAQ oCAQ) (fun s => queueMalformed s oCAQ.q (rdS s oCAQ.a) = true) (regs [(1, 0x400000)] (on .ctl))
    ∧ meets (.qcfg oCAQ) (useCAQ oCAQ) (fun s => queueMalformed s oCAQ.q (rdS s oCAQ.a) = false ∧ (queueAt s oCAQ.q).en = true ∧ (queueAt s oCAQ.q).origins ≠ []) (queueUp [1] (regs [(1, 0x8000000000000000)] (on .ctl)))
    ∧ meets (.qfree oCAQ) (useCAQ oCAQ) (fun s => (queueAt s oCAQ.q).en = true ∧ (rdS s oCAQ.a).toNat = 1 ∧ (queueAt s oCAQ.q).origins ≠ [] ∧ s.cur.flds.all (·.arrived) = true) (queueUp [1] (regs [(1, 1)] (on .ctl)))
    ∧ meets (.mcast oCAQ) (useCAQ oCAQ) (fun s => (rdS s oCAQ.a).toNat / 2 ^ 12 = 0) (regs [(1, 0xFFF)] (on .ctl))
    ∧ meets (.mcast oCAQ) (useCAQ oCAQ) (fun s => (rdS s oCAQ.a).toNat / 2 ^ 12 = 2 ^ 51 ∧ (s.members = [] ∨ groupKnown s ((rdS s oCAQ.a).toNat % 2 ^ 12) = true) ∧ (s.core.msgs.members.filter fun p => p.1 != (rdS s oCAQ.a).toNat % 2 ^ 12).length < 16) (regs [(1, 0x8000000000000FFF)] (on .ctl))
    ∧ meets (.qcfg oCAQ) (useCAQ oCAQ) (fun s => queueMalformed s oCAQ.q (rdS s oCAQ.a) = false ∧ ((queueAt s oCAQ.q).en = false ∨ (queueAt s oCAQ.q).origins = []) ∧ (rdS s oCAQ.a).getLsbD 63 = false) (queueUp [] (regs [(1, 0)] (on .ctl)))
    ∧ meets (.qcfg oCAQ) (useCAQ oCAQ) (fun s => queueMalformed s oCAQ.q (rdS s oCAQ.a) = false ∧ ((queueAt s oCAQ.q).en = false ∨ (queueAt s oCAQ.q).origins = []) ∧ (rdS s oCAQ.a).getLsbD 63 = true ∧ s.cur.priv = false ∧ touchesSr s.core ((rdS s oCAQ.a).toNat / 64 % 2 ^ 16 * 64) (64 * 2 ^ ((rdS s oCAQ.a).toNat / 2 ^ 24 % 16)) = true) (region (regs [(1, 0x8000000000000000)] (on .ctl)))
    ∧ meets (.qfree oCAQ) (useCAQ oCAQ) (fun s => (queueAt s oCAQ.q).en = false) (regs [(1, 1)] (on .ctl))
    ∧ meets (.qfree oCAQ) (useCAQ oCAQ) (fun s => (queueAt s oCAQ.q).en = true ∧ ((rdS s oCAQ.a).toNat = 0 ∨ (queueAt s oCAQ.q).origins.length < (rdS s oCAQ.a).toNat)) (queueUp [1] (regs [(1, 2)] (on .ctl)))
    ∧ meets (.mcast oCAQ) (useCAQ oCAQ) (fun s => (rdS s oCAQ.a).toNat / 2 ^ 12 % 2 ^ 51 ≠ 0) (regs [(1, 0x1000)] (on .ctl))
    ∧ meets (.mcast oCAQ) (useCAQ oCAQ) (fun s => (rdS s oCAQ.a).toNat / 2 ^ 12 = 2 ^ 51 ∧ (groupKnown s ((rdS s oCAQ.a).toNat % 2 ^ 12) = false ∨ 16 ≤ (s.core.msgs.members.filter fun p => p.1 != (rdS s oCAQ.a).toNat % 2 ^ 12).length)) (manyGroups (regs [(1, 0x8000000000000FFF)] (on .ctl)))
    ∧ meets (.chmap oCAH) (useCAH oCAH) (fun s => channelMalformed (rdS s oCAH.a) = false) (regs [(1, 0x80001000)] (on .ctl))
    ∧ meets (.chmap oCAH) (useCAH oCAH) (fun s => channelMalformed (rdS s oCAH.a) = true) (regs [(1, 0x2000)] (on .ctl))
    ∧ meets (.peek oCDQ) (useCDQ oCDQ) (fun s => (queueAt s oCDQ.q).en = true ∧ (queueAt s oCDQ.q).origins = []) (queueUp [] (on .ctl))
    ∧ meets (.peek oCDQ) (useCDQ oCDQ) (fun s => (queueAt s oCDQ.q).en = true ∧ (queueAt s oCDQ.q).origins ≠ []) (queueUp [1] (on .ctl))
    ∧ meets (.peek oCDQ) (useCDQ oCDQ) (fun s => (queueAt s oCDQ.q).en = false) (on .ctl)
    ∧ meets (.qstat oCDAH) (useCDAH oCDAH) (fun s => (rdS s oCDAH.a).getLsbD 0 = true) (regs [(1, 1)] (on .ctl))
    ∧ meets (.qstat oCDAH) (useCDAH oCDAH) (fun s => (rdS s oCDAH.a).getLsbD 0 = false ∧ oCDAH.h.val < 16) (regs [(1, 0)] (on .ctl))
    ∧ meets (.qstat ({ oCDAH with h := 16 })) (useCDAH ({ oCDAH with h := 16 })) (fun s => (rdS s ({ oCDAH with h := 16 }).a).getLsbD 0 = false ∧ 16 ≤ ({ oCDAH with h := 16 }).h.val) (regs [(1, 0)] (on .ctl))
    ∧ (issues (.qfree oCAQ) (useCAQ oCAQ) (queueUp [1, 2] (regs [(1, 2)] (on .ctl))))
    ∧ (issues (.qfree oCAQ) (useCAQ oCAQ) (fullFlds (queueUp [1] (regs [(1, 1)] (on .ctl)))) ∧ (startIssue (fullFlds (on .ctl))).cur.flds.all (·.arrived) = false) :=
  by and_intros <;> first | decide +kernel | (unfold guardTrue; decide +kernel)

/-- A channel with and without credit, one not set up and one with a fault; a queue with and without an entry, and a timed receive. -/
theorem wit_SendAndReceive :
    (meets (.send oCAH) (useCAH oCAH) (fun s => (channelAt s s.turn oCAH.h.val).valid = false) (on .ctl)
    ∧ meets (.send oCAH) (useCAH oCAH) (fun s => (channelAt s s.turn oCAH.h.val).valid = true ∧ (channelAt s s.turn oCAH.h.val).fault ≠ 0) (channelUp 1 5 (on .ctl))
    ∧ meets (.send oCAH) (useCAH oCAH) (fun s => (channelAt s s.turn oCAH.h.val).valid = true ∧ (channelAt s s.turn oCAH.h.val).fault = 0 ∧ (rdS s oCAH.a).toNat % 64 ≠ 0) (channelUp 1 0 (regs [(1, 0x3FFFFF)] (on .ctl)))
    ∧ meets (.send oCAH) (useCAH oCAH) (fun s => (channelAt s s.turn oCAH.h.val).valid = true ∧ (channelAt s s.turn oCAH.h.val).fault = 0 ∧ (rdS s oCAH.a).toNat % 64 = 0 ∧ s.cur.priv = false ∧ touchesSr s.core ((rdS s oCAH.a).toNat % 2 ^ 22) 64 = true) (region <| channelUp 1 0 (regs [(1, 0x3FFFC0)] (on .ctl)))
    ∧ meets (.sends oCPAH) (useCPAH oCPAH) (fun s => (channelAt s s.turn oCPAH.h.val).valid = false) (on .ctl)
    ∧ meets (.sends oCPAH) (useCPAH oCPAH) (fun s => (channelAt s s.turn oCPAH.h.val).valid = true ∧ (channelAt s s.turn oCPAH.h.val).fault ≠ 0) (channelUp 1 5 (on .ctl))
    ∧ meets (.sends oCPAH) (useCPAH oCPAH) (fun s => (channelAt s s.turn oCPAH.h.val).valid = true ∧ (channelAt s s.turn oCPAH.h.val).fault = 0 ∧ (rdS s oCPAH.a).toNat % 64 ≠ 0) (channelUp 1 0 (regs [(1, 0x3FFFFF)] (on .ctl)))
    ∧ meets (.sends oCPAH) (useCPAH oCPAH) (fun s => (channelAt s s.turn oCPAH.h.val).valid = true ∧ (channelAt s s.turn oCPAH.h.val).fault = 0 ∧ (rdS s oCPAH.a).toNat % 64 = 0 ∧ s.cur.priv = false ∧ touchesSr s.core ((rdS s oCPAH.a).toNat % 2 ^ 22) 64 = true) (region <| channelUp 1 0 (regs [(1, 0x3FFFC0)] (on .ctl)))
    ∧ meets (.recv oCDAQ) (useCDAQ oCDAQ) (fun s => (queueAt s oCDAQ.q).en = false) (on .ctl)
    ∧ meets (.recvs oCDAQ) (useCDAQ oCDAQ) (fun s => (queueAt s oCDAQ.q).en = false) (on .ctl)
    ∧ meets (.recv oCDAQ) (useCDAQ oCDAQ) (fun s => (queueAt s oCDAQ.q).en = true ∧ (rdS s oCDAQ.a).toNat % 64 ≠ 0) (queueUp [1] (regs [(1, 0x3FFFFF)] (on .ctl)))
    ∧ meets (.recv oCDAQ) (useCDAQ oCDAQ) (fun s => (queueAt s oCDAQ.q).en = true ∧ (rdS s oCDAQ.a).toNat % 64 = 0 ∧ s.cur.priv = false ∧ touchesSr s.core ((rdS s oCDAQ.a).toNat % 2 ^ 22) 64 = true) (region <| queueUp [1] (regs [(1, 0x3FFFC0)] (on .ctl)))
    ∧ meets (.recvs oCDAQ) (useCDAQ oCDAQ) (fun s => (queueAt s oCDAQ.q).en = true ∧ (rdS s oCDAQ.a).toNat % 64 ≠ 0) (queueUp [1] (regs [(1, 0x3FFFFF)] (on .ctl)))
    ∧ meets (.recvs oCDAQ) (useCDAQ oCDAQ) (fun s => (queueAt s oCDAQ.q).en = true ∧ (rdS s oCDAQ.a).toNat % 64 = 0 ∧ s.cur.priv = false ∧ touchesSr s.core ((rdS s oCDAQ.a).toNat % 2 ^ 22) 64 = true) (region <| queueUp [1] (regs [(1, 0x3FFFC0)] (on .ctl)))
    ∧ (let x := channelAt (channelUp 1 0 (on .ctl)) .ctl 0; coordModule x.coord = (on .ctl).ownModule ∧ coordCore x.coord < 192 ∧ (present (on .ctl)).isPresent (coordCore x.coord) = true))
    ∧ (meets (.send oCAH) (useCAH oCAH) (fun s => sendAllowed s oCAH.h.val (rdS s oCAH.a) ∧ farHeld (BitVec.allOnes 16) s = false ∧ ((channelAt s s.turn oCAH.h.val).mc = true ∨ (channelAt s s.turn oCAH.h.val).credit ≠ 0)) (channelUp 1 0 (regs [(1, 0x3FFFC0)] (on .ctl)))
    ∧ meets (.send oCAH) (useCAH oCAH) (fun s => sendAllowed s oCAH.h.val (rdS s oCAH.a) ∧ farHeld (BitVec.allOnes 16) s = false ∧ (channelAt s s.turn oCAH.h.val).mc = false ∧ (channelAt s s.turn oCAH.h.val).credit = 0) (channelUp 0 0 (regs [(1, 0x3FFFC0)] (on .ctl)))
    ∧ meets (.sends oCPAH) (useCPAH oCPAH) (fun s => sendAllowed s oCPAH.h.val (rdS s oCPAH.a) ∧ farHeld (BitVec.allOnes 16) s = false ∧ ((channelAt s s.turn oCPAH.h.val).mc = true ∨ (channelAt s s.turn oCPAH.h.val).credit ≠ 0)) (channelUp 1 0 (regs [(1, 0x3FFFC0)] (on .ctl)))
    ∧ meets (.sends oCPAH) (useCPAH oCPAH) (fun s => sendAllowed s oCPAH.h.val (rdS s oCPAH.a) ∧ (channelAt s s.turn oCPAH.h.val).mc = false ∧ (channelAt s s.turn oCPAH.h.val).credit = 0) (channelUp 0 0 (regs [(1, 0x3FFFC0)] (on .ctl)))
    ∧ meets (.recv oCDAQ) (useCDAQ oCDAQ) (fun s => (queueAt s oCDAQ.q).en = true ∧ mayAccessCell s (rdS s oCDAQ.a) ∧ s.cur.rcvl = 0 ∧ (queueAt s oCDAQ.q).origins ≠ []) (queueUp [1] (regs [(1, 0x3FFFC0)] (on .ctl)))
    ∧ meets (.recv oCDAQ) (useCDAQ oCDAQ) (fun s => (queueAt s oCDAQ.q).en = true ∧ mayAccessCell s (rdS s oCDAQ.a) ∧ s.cur.rcvl = 0 ∧ (queueAt s oCDAQ.q).origins = []) (queueUp [] (regs [(1, 0x3FFFC0)] (on .ctl)))
    ∧ meets (.recv oCDAQ) (useCDAQ oCDAQ) (fun s => (queueAt s oCDAQ.q).en = true ∧ mayAccessCell s (rdS s oCDAQ.a) ∧ s.cur.rcvl ≠ 0) (timed (regs [(1, 0x3FFFC0)] (on .ctl)))
    ∧ meets (.recvs oCDAQ) (useCDAQ oCDAQ) (fun s => (queueAt s oCDAQ.q).en = true ∧ mayAccessCell s (rdS s oCDAQ.a) ∧ (queueAt s oCDAQ.q).origins ≠ []) (queueUp [1] (regs [(1, 0x3FFFC0)] (on .ctl)))
    ∧ meets (.recvs oCDAQ) (useCDAQ oCDAQ) (fun s => (queueAt s oCDAQ.q).en = true ∧ mayAccessCell s (rdS s oCDAQ.a) ∧ (queueAt s oCDAQ.q).origins = []) (queueUp [] (regs [(1, 0x3FFFC0)] (on .ctl)))
    ∧ (issues (.send oCAH) (useCAH oCAH) (channelUp 0 0 (overdue (on .ctl))) ∧ sendAllowed (startIssue (channelUp 0 0 (overdue (on .ctl)))) 0 (rdS (startIssue (channelUp 0 0 (overdue (on .ctl)))) oCAH.a) ∧ farHeld (BitVec.allOnes 16) (startIssue (channelUp 0 0 (overdue (on .ctl)))) = true)
    ∧ (issues (.sends oCPAH) (useCPAH oCPAH) (channelUp 1 0 (overdue (on .ctl))) ∧ sendAllowed (startIssue (channelUp 1 0 (overdue (on .ctl)))) 0 (rdS (startIssue (channelUp 1 0 (overdue (on .ctl)))) oCPAH.a) ∧ (channelAt (startIssue (channelUp 1 0 (overdue (on .ctl)))) .ctl 0).credit ≠ 0)) :=
  ⟨by and_intros <;> first | decide +kernel | (unfold guardTrue; decide +kernel),
   by and_intros <;> first | decide +kernel | (unfold guardTrue; decide +kernel) | (unfold mayAccessCell; decide +kernel) | (unfold sendAllowed; decide +kernel)⟩

/-- Aligned and misaligned addresses at the end of the scratchpad. -/
theorem wit_CommandRegisters :
    meets (.cset oKRA) (useKRA oKRA) (fun _ => True) (regs [(1, 1)] (on .copy))
    ∧ meets (.cldc oKRA) (useKRA oKRA) (fun s => (rdS s oKRA.a).toNat % 8 = 0 ∧ ∀ p ∈ cwSlots oKRA.r ((rdS s oKRA.a).toNat % 2 ^ 22), (s.cur.priv = true ∨ touchesSr s.core p.2 8 = false) ∧ spadPoisoned s.core p.2 = false) (regs [(1, 0x3FFFF8)] (on .copy))
    ∧ meets (.cstc oKRA) (useKRA oKRA) (fun s => (rdS s oKRA.a).toNat % 8 = 0 ∧ (∀ p ∈ cwSlots oKRA.r ((rdS s oKRA.a).toNat % 2 ^ 22), s.cur.priv = true ∨ touchesSr s.core p.2 8 = false) ∧ (s.cur.mode = true → ∀ p ∈ cwSlots oKRA.r ((rdS s oKRA.a).toNat % 2 ^ 22), (s.core.copy.cw[p.1]).ready ≤ s.cur.clk)) (regs [(1, 0x3FFFF8)] (on .copy))
    ∧ meets (.cldc oKRA) (useKRA oKRA) (fun s => (rdS s oKRA.a).toNat % 8 ≠ 0) (regs [(1, 4)] (on .copy))
    ∧ meets (.cstc oKRA) (useKRA oKRA) (fun s => (rdS s oKRA.a).toNat % 8 ≠ 0) (regs [(1, 4)] (on .copy))
    ∧ meets (.cstc oKRA) (useKRA oKRA) (fun s => (rdS s oKRA.a).toNat % 8 = 0 ∧ ((cwSlots oKRA.r ((rdS s oKRA.a).toNat % 2 ^ 22)).find? fun p => !s.cur.priv && touchesSr s.core p.2 8) = some ((0 : Fin 16), 0x3FFFF8)) (region (regs [(1, 0x3FFFF8)] (on .copy)))
    ∧ meets (.cldc oKRA) (useKRA oKRA) (fun s => (rdS s oKRA.a).toNat % 8 = 0 ∧ (∀ p ∈ cwSlots oKRA.r ((rdS s oKRA.a).toNat % 2 ^ 22), s.cur.priv = true ∨ touchesSr s.core p.2 8 = false) ∧ ((cwSlots oKRA.r ((rdS s oKRA.a).toNat % 2 ^ 22)).find? fun p => spadPoisoned s.core p.2) = some ((0 : Fin 16), 0x3FFFC0) ∧ spadIsBad s.core ((0 : Fin 16), 0x3FFFC0).2 = false) (poisonTag (regs [(1, 0x3FFFC0)] (on .copy)))
    ∧ meets (.cldc oKRA) (useKRA oKRA) (fun s => (rdS s oKRA.a).toNat % 8 = 0 ∧ (∀ p ∈ cwSlots oKRA.r ((rdS s oKRA.a).toNat % 2 ^ 22), s.cur.priv = true ∨ touchesSr s.core p.2 8 = false) ∧ ((cwSlots oKRA.r ((rdS s oKRA.a).toNat % 2 ^ 22)).find? fun p => spadPoisoned s.core p.2) = some ((0 : Fin 16), 0x3FFFC0) ∧ spadIsBad s.core ((0 : Fin 16), 0x3FFFC0).2 = true) (badLine (regs [(1, 0x3FFFC0)] (on .copy)))
    ∧ meets (.cseti oKRI) (useKRI oKRI) (fun _ => True) (on .copy)
    ∧ meets (.cdim oKDim) (useKDim oKDim) (fun _ => True) (regs [(1, 5), (2, 7)] (on .copy))
    ∧ meets (.cfollow oAP) (useAP oAP) (fun _ => True) (regs [(1, 2)] (on .copy)) :=
  by and_intros <;> first | decide +kernel | (unfold guardTrue; decide +kernel)

/-- A definition of handle 1, a refused and an allowed frame, and PUBLISH. -/
theorem wit_HandlesAndFrames :
    (meets (.tdef oDABP) (useDABP oDABP) (fun s => s.core.copy.queue.length < 64 ∧ (rdS s oDABP.b).toNat % 64 ≠ 0) (regs [(2, 0x3FFFFF)] (on .copy))
    ∧ meets (.tdef oDABP) (useDABP oDABP) (fun s => s.core.copy.queue.length < 64 ∧ (rdS s oDABP.b).toNat % 64 = 0 ∧ s.cur.priv = false ∧ touchesSr s.core ((rdS s oDABP.b).toNat % 2 ^ 22) 64 = true) (region (regs [(2, 0x3FFFC0)] (on .copy)))
    ∧ meets (.frmap oDABP) (useDABP oDABP) (fun s => frameRefused (rdS s oDABP.b) = false ∧ s.cur.priv = false ∧ frmValid (rdS s oDABP.b) = true ∧ touchesSr s.core (frmVb (rdS s oDABP.b)) (frmSize (rdS s oDABP.b)) = true) (region (regs [(2, 1)] (on .copy)))
    ∧ meets (.frmap oDABP) (useDABP oDABP) (fun s => frameRefused (rdS s oDABP.b) = false ∧ s.cur.priv = false ∧ frmValid (rdS s oDABP.b) = true ∧ touchesSr s.core (frmVb (rdS s oDABP.b)) (frmSize (rdS s oDABP.b)) = false ∧ frmShen (rdS s oDABP.b) = true ∧ touchesSr s.core (frmSb (rdS s oDABP.b)) (frmSize (rdS s oDABP.b)) = true) (highRegion (regs [(2, 0x4000005)] (on .copy)))
    ∧ meets (.frmap oDABP) (useDABP oDABP) (fun s => frameRefused (rdS s oDABP.b) = true) (regs [(2, 0x20)] (on .copy))
    ∧ meets (.publish oAP) (useAP oAP) (fun s => (s.core.frames[Fin.ofNat 16 ((rdS s oAP.a).toNat % 16)]).getLsbD 0 = true) (framed (on .copy))
    ∧ issues (.publish oAP) (useAP oAP) (on .copy)
    ∧ handleBusy (engine [{ cmdAt .queued with kind := .ttile }] [] (on .copy)) 0 = true)
    ∧ (meets (.tdef oDABP) (useDABP oDABP) (fun s => s.core.copy.queue.length < 64 ∧ mayAccess s ((rdS s oDABP.b).toNat % 2 ^ 22) 64 ∧ spadPoisoned s.core ((rdS s oDABP.b).toNat % 2 ^ 22) = false ∧ extentHeld s ((rdS s oDABP.b).toNat % 2 ^ 22) = false) (regs [(1, 1), (2, 0x3FFFC0)] (on .copy))
    ∧ meets (.tdef oDABP) (useDABP oDABP) (fun s => s.core.copy.queue.length < 64 ∧ mayAccess s ((rdS s oDABP.b).toNat % 2 ^ 22) 64 ∧ spadIsBad s.core ((rdS s oDABP.b).toNat % 2 ^ 22) = false ∧ tagF (spadTag s.core ((rdS s oDABP.b).toNat % 2 ^ 22)) = 0xFF) (poisonTag (regs [(2, 0x3FFFC0)] (on .copy)))
    ∧ meets (.tdef oDABP) (useDABP oDABP) (fun s => s.core.copy.queue.length < 64 ∧ mayAccess s ((rdS s oDABP.b).toNat % 2 ^ 22) 64 ∧ spadIsBad s.core ((rdS s oDABP.b).toNat % 2 ^ 22) = true) (badLine (regs [(2, 0x3FFFC0)] (on .copy)))
    ∧ meets (.frmap oDABP) (useDABP oDABP) (fun s => frameRefused (rdS s oDABP.b) = false ∧ frameAllowed s (rdS s oDABP.b)) (regs [(2, 1)] (on .copy))
    ∧ meets (.frmap oDABP) (useDABP oDABP) (fun s => frameRefused (rdS s oDABP.b) = false ∧ frameAllowed s (rdS s oDABP.b)) (regs [(1, 15), (2, 0)] (on .copy)))
    ∧ (let s := bankBusy (oneByte (on .copy)); issues (.tdef oDABP) (useDABP oDABP) s ∧ mayAccess (startIssue s) ((rdS (startIssue s) oDABP.b).toNat % 2 ^ 22) 64
      ∧ spadPoisoned (startIssue s).core ((rdS (startIssue s) oDABP.b).toNat % 2 ^ 22) = false ∧ extentHeld (startIssue s) ((rdS (startIssue s) oDABP.b).toNat % 2 ^ 22) = true) :=
  ⟨by and_intros <;> first | decide +kernel | (unfold guardTrue; decide +kernel),
   by and_intros <;> first | decide +kernel | (unfold guardTrue; decide +kernel) | (unfold mayAccess; decide +kernel) | (unfold frameAllowed; decide +kernel),
   ⟨issues_of (by decide +kernel), by unfold mayAccess; decide +kernel, by decide +kernel, extent_held rfl (by decide +kernel) (walk_held rfl (by decide +kernel) (by decide +kernel) (by decide +kernel) (by decide +kernel))⟩⟩

/-- Command 1 queued, fetching, held back, suspended and absent. -/
theorem wit_CommandStatus :
    (meets (.cstat oDAP) (useDAP oDAP) (fun s => (recordCmd s (BitVec.ofNat 16 (rdS s oDAP.a).toNat)).isSome = true) (engine [cmdAt .queued] [] (regs [(1, 1)] (on .copy)))
    ∧ meets (.cstat oDAP) (useDAP oDAP) (fun s => recordCmd s (BitVec.ofNat 16 (rdS s oDAP.a).toNat) = none) (engine [cmdAt .queued] [] (regs [(1, 2)] (on .copy)))
    ∧ meets (.cresume oDAP) (useDAP oDAP) (fun s => suspCmd s (BitVec.ofNat 16 (rdS s oDAP.a).toNat) = none) (engine [cmdAt .queued] [] (regs [(1, 1)] (on .copy)))
    ∧ meets (.ccancel oDAP) (useDAP oDAP) (fun s => liveCmd s (BitVec.ofNat 16 (rdS s oDAP.a).toNat) = none ∧ suspCmd s (BitVec.ofNat 16 (rdS s oDAP.a).toNat) = none) (engine [cmdAt .queued] [suspended] (regs [(1, 2)] (on .copy)))
    ∧ meets (.ccancel oDAP) (useDAP oDAP) (fun s => (liveCmd s (BitVec.ofNat 16 (rdS s oDAP.a).toNat)).map (·.phase) = some .queued) (engine [cmdAt .queued] [] (regs [(1, 1)] (on .copy)))
    ∧ meets (.ccancel oDAP) (useDAP oDAP) (fun s => (liveCmd s (BitVec.ofNat 16 (rdS s oDAP.a).toNat)).map (·.phase) = some .held) (engine [cmdAt .held] [] (regs [(1, 1)] (on .copy)))
    ∧ meets (.cbmap oDABP) (useDABP oDABP) (fun _ => True) (regs [(1, 15), (2, 63)] (on .copy))
    ∧ meets (.cstat oDAP) (useDAP oDAP) (fun s => (recordCmd s (BitVec.ofNat 16 (rdS s oDAP.a).toNat)).isSome = true) (engine [] [suspended] (regs [(1, 1)] (on .copy)))
    ∧ meets (.cresume oDAP) (useDAP oDAP) (fun s => (suspCmd s (BitVec.ofNat 16 (rdS s oDAP.a).toNat)).isSome = true ∧ s.core.copy.queue.length < 64) (engine [] [suspended] (regs [(1, 1)] (on .copy)))
    ∧ meets (.ccancel oDAP) (useDAP oDAP) (fun s => (liveCmd s (BitVec.ofNat 16 (rdS s oDAP.a).toNat)).map (·.phase) = some .fetching) (engine [cmdAt .fetching] [] (regs [(1, 1)] (on .copy)))
    ∧ meets (.ccancel oDAP) (useDAP oDAP) (fun s => liveCmd s (BitVec.ofNat 16 (rdS s oDAP.a).toNat) = none ∧ (suspCmd s (BitVec.ofNat 16 (rdS s oDAP.a).toNat)).isSome = true) (engine [] [suspended] (regs [(1, 1)] (on .copy)))
    ∧ meets (.cwait oAP) (useAP oAP) (fun s => s.turn = .copy ∧ s.cur.faults = [mkTrap 0x07 0 0] ∧ s.cur.awaitsLoad = false) (engineFault (on .copy)))
    ∧ (meets (.cwait oAP) (useAP oAP) (fun s => noFault s ∧ liveCmd s (BitVec.ofNat 16 (rdS s oAP.a).toNat) = none) (regs [(1, 1)] (on .copy))
    ∧ meets (.cwait oAP) (useAP oAP) (fun s => noFault s ∧ (liveCmd s (BitVec.ofNat 16 (rdS s oAP.a).toNat)).isSome = true) (engine [cmdAt .queued] [] (regs [(1, 1)] (on .copy)))) :=
  ⟨by and_intros <;> first | decide +kernel | (unfold guardTrue; decide +kernel),
   by and_intros <;> first | decide +kernel | (unfold guardTrue; decide +kernel) | (unfold noFault; decide +kernel)⟩

/-- Each command with an empty queue or one other entry in it. -/
theorem wit_CommandIssue :
    meets (.copy oDP) (useDP oDP) (fun s => s.core.copy.queue.length < 64 ∧ cwReady s = true ∧ (CmdKind.copy.listed = true → freeBitmap s.core.copy ≠ none ∨ bitmapRunning s.core.copy = false)
      ∧ ∀ d ∈ s.core.copy.queue, d.seq ≠ s.core.copy.seq + 1) (on .copy)
    ∧ meets (.cfill oDP) (useDP oDP) (fun s => s.core.copy.queue.length < 64 ∧ cwReady s = true ∧ (CmdKind.cfill.listed = true → freeBitmap s.core.copy ≠ none ∨ bitmapRunning s.core.copy = false)
      ∧ ∀ d ∈ s.core.copy.queue, d.seq ≠ s.core.copy.seq + 1) (on .copy)
    ∧ meets (.gather oDP) (useDP oDP) (fun s => s.core.copy.queue.length < 64 ∧ cwReady s = true ∧ (CmdKind.gather.listed = true → freeBitmap s.core.copy ≠ none ∨ bitmapRunning s.core.copy = false)
      ∧ ∀ d ∈ s.core.copy.queue, d.seq ≠ s.core.copy.seq + 1) (on .copy)
    ∧ meets (.scatter oDP) (useDP oDP) (fun s => s.core.copy.queue.length < 64 ∧ cwReady s = true ∧ (CmdKind.scatter.listed = true → freeBitmap s.core.copy ≠ none ∨ bitmapRunning s.core.copy = false)
      ∧ ∀ d ∈ s.core.copy.queue, d.seq ≠ s.core.copy.seq + 1) (on .copy)
    ∧ meets (.kvlist oDP) (useDP oDP) (fun s => s.core.copy.queue.length < 64 ∧ cwReady s = true ∧ (CmdKind.kvlist.listed = true → freeBitmap s.core.copy ≠ none ∨ bitmapRunning s.core.copy = false)
      ∧ ∀ d ∈ s.core.copy.queue, d.seq ≠ s.core.copy.seq + 1) (on .copy)
    ∧ meets (.ttile oDP) (useDP oDP) (fun s => s.core.copy.queue.length < 64 ∧ cwReady s = true ∧ (CmdKind.ttile.listed = true → freeBitmap s.core.copy ≠ none ∨ bitmapRunning s.core.copy = false)
      ∧ ∀ d ∈ s.core.copy.queue, d.seq ≠ s.core.copy.seq + 1) (engine [{ cmdAt .queued with seq := 5 }] [] (on .copy)) :=
  by and_intros <;> first | decide +kernel | (unfold guardTrue; decide +kernel)

/-- Words that pass their checks and words that fail the first two. -/
theorem wit_MatrixQueue :
    meets (.mmul oAP) (useAP oAP) (fun s => wordReason s.core.mat 0 (rdS s oAP.a) = none ∧ s.cur.priv = false ∧ (rangesInSr s.core (wordRanges s.core.mat (rdS s oAP.a))).isSome = true) (region (regs [(1, 0)] (on .mat)))
    ∧ meets (.wflip oAP) (useAP oAP) (fun s => wordReason s.core.mat 2 (rdS s oAP.a) = none ∧ wordRanges s.core.mat (rdS s oAP.a) = [] ∧ 32 ≤ s.core.mat.queue.length) (fullMat (regs [(1, 0x8000000000000000)] (on .mat)))
    ∧ meets (.mmul oAP) (useAP oAP) (fun s => wordReason s.core.mat 0 (rdS s oAP.a) = none ∧ s.core.mat.queue.length < 32 ∧ ∀ r ∈ wordRanges s.core.mat (rdS s oAP.a), touchesSr s.core r.1 r.2 = false) (regs [(1, 0)] (on .mat))
    ∧ meets (.wload oAP) (useAP oAP) (fun s => wordReason s.core.mat 1 (rdS s oAP.a) = none ∧ s.core.mat.queue.length < 32 ∧ ∀ r ∈ wordRanges s.core.mat (rdS s oAP.a), touchesSr s.core r.1 r.2 = false) (regs [(1, 0x4000000000000000)] (on .mat))
    ∧ meets (.wflip oAP) (useAP oAP) (fun s => wordReason s.core.mat 2 (rdS s oAP.a) = none ∧ s.core.mat.queue.length < 32 ∧ ∀ r ∈ wordRanges s.core.mat (rdS s oAP.a), touchesSr s.core r.1 r.2 = false) (regs [(1, 0x8000000000000000)] (on .mat))
    ∧ meets (.wflip oAP) (useAP oAP) (fun s => wordReason s.core.mat 2 (rdS s oAP.a) = none ∧ s.core.mat.queue.length < 32 ∧ ∀ r ∈ wordRanges s.core.mat (rdS s oAP.a), touchesSr s.core r.1 r.2 = false) (regs [(1, 0xBF00000000000000)] (on .mat))
    ∧ meets (.mmul oAP) (useAP oAP) (fun s => wordReason s.core.mat 0 (rdS s oAP.a) = some 1) (regs [(1, 0x4000000000000000)] (on .mat))
    ∧ meets (.wload oAP) (useAP oAP) (fun s => wordReason s.core.mat 1 (rdS s oAP.a) = some 1) (regs [(1, 0)] (on .mat))
    ∧ meets (.wflip oAP) (useAP oAP) (fun s => wordReason s.core.mat 2 (rdS s oAP.a) = some 1) (regs [(1, 0xC000000000000000)] (on .mat))
    ∧ meets (.wflip oAP) (useAP oAP) (fun s => wordReason s.core.mat 2 (rdS s oAP.a) = some 2) (regs [(1, 0x8000000000000001)] (on .mat))
    ∧ meets (.wload oAP) (useAP oAP) (fun s => wordReason s.core.mat 1 (rdS s oAP.a) = some 2) (regs [(1, 0x40000000003FFFFF)] (on .mat)) :=
  by and_intros <;> first | decide +kernel | (unfold guardTrue; decide +kernel)

/-- An accepted and a refused configuration, a drained array, a pending fault, and odd and even band addresses. -/
theorem wit_MatrixConfiguration :
    (meets (.mcfg oAP) (useAP oAP) (fun s => (rdS s oAP.a).toNat ≥ 128 ∨ (rdS s oAP.a).getLsbD 3 = true) (regs [(1, 8)] (on .mat))
    ∧ meets (.mcfg oAP) (useAP oAP) (fun s => (rdS s oAP.a).toNat < 128 ∧ (rdS s oAP.a).getLsbD 3 = false ∧ (cfgAw ((rdS s oAP.a).setWidth 8) = 3 ∨ 4 < cfgSplit ((rdS s oAP.a).setWidth 8) ∨ (cfgAw ((rdS s oAP.a).setWidth 8) = 2 ∧ cfgWw ((rdS s oAP.a).setWidth 8) = false))) (regs [(1, 0x30)] (on .mat))
    ∧ meets (.mband oABP) (useABP oABP) (fun s => (rdS s oABP.a).toNat % 2 = 0 ∧ (rdS s oABP.b).toNat % 2 = 0) (regs [(1, 2), (2, 0x3FFFFE)] (on .mat))
    ∧ meets (.mband oABP) (useABP oABP) (fun s => (rdS s oABP.a).toNat % 2 = 1 ∨ (rdS s oABP.b).toNat % 2 = 1) (regs [(1, 2), (2, 1)] (on .mat))
    ∧ meets (.mtag oAP) (useAP oAP) (fun _ => True) (regs [(1, 63)] (on .mat))
    ∧ meets (.mpace oAP) (useAP oAP) (fun _ => True) (regs [(1, 7)] (on .mat))
    ∧ meets (.mstat oDAP) (useDAP oDAP) (fun _ => True) (regs [(1, 15)] (on .mat))
    ∧ meets (.mcfg oAP) (useAP oAP) (fun s => (rdS s oAP.a).toNat < 128 ∧ (BitVec.setWidth 8 (rdS s oAP.a)).getLsbD 3 = false ∧ cfgAw ((rdS s oAP.a).setWidth 8) ≠ 3 ∧ cfgSplit ((rdS s oAP.a).setWidth 8) ≤ 4
      ∧ (cfgAw ((rdS s oAP.a).setWidth 8) ≠ 2 ∨ cfgWw ((rdS s oAP.a).setWidth 8) = true) ∧ drained s = true) (regs [(1, 0)] (on .mat))
    ∧ meets (.mcfg oAP) (useAP oAP) (fun s => (rdS s oAP.a).toNat < 128 ∧ (BitVec.setWidth 8 (rdS s oAP.a)).getLsbD 3 = false ∧ cfgAw ((rdS s oAP.a).setWidth 8) ≠ 3 ∧ cfgSplit ((rdS s oAP.a).setWidth 8) ≤ 4
      ∧ (cfgAw ((rdS s oAP.a).setWidth 8) ≠ 2 ∨ cfgWw ((rdS s oAP.a).setWidth 8) = true) ∧ drained s = true) (regs [(1, 4)] (on .mat))
    ∧ meets (.mcfg oAP) (useAP oAP) (fun s => (rdS s oAP.a).toNat < 128 ∧ (BitVec.setWidth 8 (rdS s oAP.a)).getLsbD 3 = false ∧ cfgAw ((rdS s oAP.a).setWidth 8) ≠ 3 ∧ cfgSplit ((rdS s oAP.a).setWidth 8) ≤ 4
      ∧ (cfgAw ((rdS s oAP.a).setWidth 8) ≠ 2 ∨ cfgWw ((rdS s oAP.a).setWidth 8) = true) ∧ drained s = false) (multiplying (regs [(1, 0)] (on .mat)))
    ∧ meets (.mrel oGP) (useGP oGP) (fun s => drained s = false) (multiplying (on .mat))
    ∧ meets (.mdrain oGP) (useGP oGP) (fun s => s.core.mat.checked = true ∧ drained s = false) (multiplying (checkedMat (matFault (on .mat))))
    ∧ meets (.mrel oGP) (useGP oGP) (fun s => drained s = true) (on .mat)
    ∧ meets (.mdrain oGP) (useGP oGP) (fun s => s.turn = .mat ∧ s.core.mat.mflt.pend = true ∧ s.cur.awaitsLoad = false) (matFault (on .mat)))
    ∧ (meets (.mdrain oGP) (useGP oGP) (fun s => (s.core.mat.checked = true ∨ noFault s) ∧ drained s = true) (on .mat)
    ∧ meets (.mdrain oGP) (useGP oGP) (fun s => (s.core.mat.checked = true ∨ noFault s) ∧ drained s = false) (multiplying (on .mat))) :=
  ⟨by and_intros <;> first | decide +kernel | (unfold guardTrue; decide +kernel),
   by and_intros <;> first | decide +kernel | (unfold guardTrue; decide +kernel) | (unfold noFault; decide +kernel)⟩

/-- The banks with and without a running MMUL, a range that ends at the last column and one beyond it, and areas of cells. -/
theorem wit_AccumulatorBanks :
    (meets (.mclr oAP) (useAP oAP) (fun s => (rdS s oAP.a).toNat / 2 ^ 9 = 0 ∧ (rdS s oAP.a).toNat / 2 ^ 6 % 4 = 0 ∧ (rdS s oAP.a).getLsbD 8 = true ∧ (rdS s oAP.a).toNat % 8 + ((rdS s oAP.a).toNat / 8 % 8 + 1) ≤ 8) (regs [(1, 0x107)] (on .mat))
    ∧ meets (.mclr oAP) (useAP oAP) (fun s => (rdS s oAP.a).toNat / 2 ^ 9 ≠ 0 ∨ (rdS s oAP.a).toNat / 2 ^ 6 % 4 ≠ 0) (regs [(1, 0x200)] (on .mat))
    ∧ meets (.mclr oAP) (useAP oAP) (fun s => (rdS s oAP.a).toNat / 2 ^ 9 = 0 ∧ (rdS s oAP.a).toNat / 2 ^ 6 % 4 = 0 ∧ 8 < (rdS s oAP.a).toNat % 8 + ((rdS s oAP.a).toNat / 8 % 8 + 1)) (regs [(1, 0x0F)] (on .mat))
    ∧ meets (.msave oABP) (useABP oABP) (fun s => (rdS s oABP.a).toNat % 64 ≠ 0 ∨ 2 ^ 22 ≤ (rdS s oABP.a).toNat ∨ 64 ≤ (rdS s oABP.b).toNat) (regs [(1, 1)] (on .mat))
    ∧ meets (.mrest oABP) (useABP oABP) (fun s => (rdS s oABP.a).toNat < 2 ^ 22 ∧ (rdS s oABP.a).toNat % 64 = 0 ∧ (rdS s oABP.b).toNat < 64 ∧ 2 ^ 22 < (rdS s oABP.a).toNat + 256 * (128 * ((rdS s oABP.b).toNat / 8 + 1))) (regs [(1, 0x3FFFC0), (2, 0)] (on .mat))
    ∧ meets (.msave oABP) (useABP oABP) (fun s => (rdS s oABP.a).toNat < 2 ^ 22 ∧ (rdS s oABP.a).toNat % 64 = 0 ∧ (rdS s oABP.b).toNat < 64 ∧ (rdS s oABP.a).toNat + 256 * (128 * ((rdS s oABP.b).toNat / 8 + 1)) ≤ 2 ^ 22 ∧ 1024 < 128 * ((rdS s oABP.b).toNat % 8) + (128 * ((rdS s oABP.b).toNat / 8 + 1))) (regs [(1, 0), (2, 63)] (on .mat))
    ∧ meets (.mrest oABP) (useABP oABP) (fun s => (rdS s oABP.a).toNat < 2 ^ 22 ∧ (rdS s oABP.a).toNat % 64 = 0 ∧ (rdS s oABP.b).toNat < 64 ∧ (rdS s oABP.a).toNat + 256 * (128 * ((rdS s oABP.b).toNat / 8 + 1)) ≤ 2 ^ 22 ∧ 128 * ((rdS s oABP.b).toNat % 8) + (128 * ((rdS s oABP.b).toNat / 8 + 1)) ≤ 1024 ∧ s.cur.priv = false ∧ touchesSr s.core (rdS s oABP.a).toNat (256 * (128 * ((rdS s oABP.b).toNat / 8 + 1))) = true) (region (regs [(1, 0), (2, 0)] (on .mat))))
    ∧ (meets (.mswap oGP) (useGP oGP) mmulsDone (on .mat)
    ∧ meets (.mswap oGP) (useGP oGP) (fun s => ¬ mmulsDone s) (multiplying (on .mat))
    ∧ meets (.mclr oAP) (useAP oAP) (fun s => (rdS s oAP.a).toNat / 2 ^ 6 = 0 ∧ (rdS s oAP.a).toNat % 8 + ((rdS s oAP.a).toNat / 8 % 8 + 1) ≤ 8 ∧ mmulsDone s) (regs [(1, 0x07)] (on .mat))
    ∧ meets (.mclr oAP) (useAP oAP) (fun s => (rdS s oAP.a).toNat / 2 ^ 6 = 0 ∧ (rdS s oAP.a).toNat % 8 + ((rdS s oAP.a).toNat / 8 % 8 + 1) ≤ 8 ∧ ¬ mmulsDone s) (multiplying (regs [(1, 0x07)] (on .mat)))
    ∧ meets (.msave oABP) (useABP oABP) (fun s => bankAreaOk s (rdS s oABP.a) (rdS s oABP.b)) (regs [(1, 0x3E0000), (2, 0)] (on .mat))
    ∧ meets (.mrest oABP) (useABP oABP) (fun s => bankAreaOk s (rdS s oABP.a) (rdS s oABP.b) ∧ restoreTrap s ((rdS s oABP.a).toNat % 2 ^ 22) (512 * ((rdS s oABP.b).toNat / 8 + 1)) = some (mkTrap 0x05 0 0x3FFFC0) ∧ ((mkTrap 0x05 0 0x3FFFC0).cause ≠ 0x05 ∨ spadIsBad s.core (mkTrap 0x05 0 0x3FFFC0).addr.toNat = false)) (poisonTag (regs [(1, 0x3F8000), (2, 0)] (on .mat)))
    ∧ meets (.mrest oABP) (useABP oABP) (fun s => bankAreaOk s (rdS s oABP.a) (rdS s oABP.b) ∧ restoreTrap s ((rdS s oABP.a).toNat % 2 ^ 22) (512 * ((rdS s oABP.b).toNat / 8 + 1)) = some (mkTrap 0x05 1 0x3FFFC0) ∧ (mkTrap 0x05 1 0x3FFFC0).cause = 0x05 ∧ spadIsBad s.core (mkTrap 0x05 1 0x3FFFC0).addr.toNat = true) (badLine (regs [(1, 0x3F8000), (2, 0)] (on .mat)))
    ∧ meets (.mrest oABP) (useABP oABP) (fun s => bankAreaOk s (rdS s oABP.a) (rdS s oABP.b) ∧ restoreTrap s ((rdS s oABP.a).toNat % 2 ^ 22) (512 * ((rdS s oABP.b).toNat / 8 + 1)) = none ∧ sparseWf (0 : BitVec 32) 0 (visBank s.core.mat) = true) (regs [(1, 0), (2, 7)] (on .mat))) :=
  ⟨by and_intros <;> first | decide +kernel | (unfold guardTrue; decide +kernel),
   by and_intros <;> first | decide +kernel | (unfold guardTrue; decide +kernel) | (unfold mmulsDone; decide +kernel) | (unfold bankAreaOk; decide +kernel)⟩

/-- The three float types, and an integer type. -/
theorem wit_VectorFloats :
    meets (.vadd oVWXY) (useVWXY oVWXY) (fun s => s.core.vec.busy ≤ s.cur.clk ∧ (shapeOf s).t ≤ 2) (shaped 0 1 1 (on .vec))
    ∧ meets (.vsub oVWXY) (useVWXY oVWXY) (fun s => s.core.vec.busy ≤ s.cur.clk ∧ (shapeOf s).t ≤ 2) (shaped 1 1 1 (on .vec))
    ∧ meets (.vmul oVWXY) (useVWXY oVWXY) (fun s => s.core.vec.busy ≤ s.cur.clk ∧ (shapeOf s).t ≤ 2) (shaped 2 1 1 (on .vec))
    ∧ meets (.vmax oVWXY) (useVWXY oVWXY) (fun s => s.core.vec.busy ≤ s.cur.clk ∧ (shapeOf s).t ≤ 2) (shaped 0 1 1 (on .vec))
    ∧ meets (.vmin oVWXY) (useVWXY oVWXY) (fun s => s.core.vec.busy ≤ s.cur.clk ∧ (shapeOf s).t ≤ 2) (shaped 1 1 1 (on .vec))
    ∧ meets (.vclamp oVWXY) (useVWXY oVWXY) (fun s => s.core.vec.busy ≤ s.cur.clk ∧ (shapeOf s).t ≤ 2) (shaped 2 1 1 (on .vec))
    ∧ meets (.vscale oVWXY) (useVWXY oVWXY) (fun s => s.core.vec.busy ≤ s.cur.clk ∧ (shapeOf s).t ≤ 2) (shaped 0 1 1 (on .vec))
    ∧ meets (.vabs oVWX) (useVWX oVWX) (fun s => s.core.vec.busy ≤ s.cur.clk ∧ (shapeOf s).t ≤ 2) (shaped 0 1 1 (on .vec))
    ∧ meets (.vneg oVWX) (useVWX oVWX) (fun s => s.core.vec.busy ≤ s.cur.clk ∧ (shapeOf s).t ≤ 2) (shaped 1 1 1 (on .vec))
    ∧ meets (.vrcp oVWX) (useVWX oVWX) (fun s => s.core.vec.busy ≤ s.cur.clk ∧ (shapeOf s).t ≤ 2) (shaped 2 1 1 (on .vec))
    ∧ meets (.vrsq oVWX) (useVWX oVWX) (fun s => s.core.vec.busy ≤ s.cur.clk ∧ (shapeOf s).t ≤ 2) (shaped 0 1 1 (on .vec))
    ∧ meets (.vexp oVWX) (useVWX oVWX) (fun s => s.core.vec.busy ≤ s.cur.clk ∧ (shapeOf s).t ≤ 2) (shaped 1 1 1 (on .vec))
    ∧ meets (.vlog oVWX) (useVWX oVWX) (fun s => s.core.vec.busy ≤ s.cur.clk ∧ (shapeOf s).t ≤ 2) (shaped 2 1 1 (on .vec))
    ∧ meets (.vfma oVFmaOps) (useVFmaOps oVFmaOps) (fun s => s.core.vec.busy ≤ s.cur.clk ∧ (fun h _ => h.t ≤ 2) (shapeOf s) s) (on .vec)
    ∧ meets (.vclamp oVWXY) (useVWXY oVWXY) (fun s => s.core.vec.busy ≤ s.cur.clk ∧ 2 < (shapeOf s).t) (shaped 4 1 1 (on .vec))
    ∧ meets (.vlog oVWX) (useVWX oVWX) (fun s => s.core.vec.busy ≤ s.cur.clk ∧ 2 < (shapeOf s).t) (shaped 4 1 1 (on .vec))
    ∧ meets (.vfma oVFmaOps) (useVFmaOps oVFmaOps) (fun s => s.core.vec.busy ≤ s.cur.clk ∧ 2 < (shapeOf s).t) (shaped 4 1 1 (on .vec))
    ∧ (issues (.vadd oVWXY) (useVWXY oVWXY) (busyVec (on .vec)) ∧ (startIssue (busyVec (on .vec))).cur.clk < (startIssue (busyVec (on .vec))).core.vec.busy)
    ∧ (issues (.vexp oVWX) (useVWX oVWX) (busyVec (on .vec)) ∧ (startIssue (busyVec (on .vec))).cur.clk < (startIssue (busyVec (on .vec))).core.vec.busy)
    ∧ (issues (.vfma oVFmaOps) (useVFmaOps oVFmaOps) (busyVec (on .vec)) ∧ (startIssue (busyVec (on .vec))).cur.clk < (startIssue (busyVec (on .vec))).core.vec.busy) :=
  by and_intros <;> first | decide +kernel | (unfold guardTrue; decide +kernel)

/-- The integer types, and a float type for the bitwise words. -/
theorem wit_VectorIntegers :
    meets (.viadd oVWXY) (useVWXY oVWXY) (fun s => s.core.vec.busy ≤ s.cur.clk ∧ (false = true ∨ vtInt (shapeOf s).t = true)) (shaped 4 1 1 (on .vec))
    ∧ meets (.visub oVWXY) (useVWXY oVWXY) (fun s => s.core.vec.busy ≤ s.cur.clk ∧ (false = true ∨ vtInt (shapeOf s).t = true)) (shaped 5 1 1 (on .vec))
    ∧ meets (.vimul oVWXY) (useVWXY oVWXY) (fun s => s.core.vec.busy ≤ s.cur.clk ∧ (false = true ∨ vtInt (shapeOf s).t = true)) (shaped 6 1 1 (on .vec))
    ∧ meets (.vand oVWXY) (useVWXY oVWXY) (fun s => s.core.vec.busy ≤ s.cur.clk ∧ (true = true ∨ vtInt (shapeOf s).t = true)) (shaped 0 1 1 (on .vec))
    ∧ meets (.vor oVWXY) (useVWXY oVWXY) (fun s => s.core.vec.busy ≤ s.cur.clk ∧ (true = true ∨ vtInt (shapeOf s).t = true)) (shaped 1 1 1 (on .vec))
    ∧ meets (.vxor oVWXY) (useVWXY oVWXY) (fun s => s.core.vec.busy ≤ s.cur.clk ∧ (true = true ∨ vtInt (shapeOf s).t = true)) (shaped 2 1 1 (on .vec))
    ∧ meets (.vshl oVWXY) (useVWXY oVWXY) (fun s => s.core.vec.busy ≤ s.cur.clk ∧ (false = true ∨ vtInt (shapeOf s).t = true)) (shaped 8 1 1 (on .vec))
    ∧ meets (.vshr oVWXY) (useVWXY oVWXY) (fun s => s.core.vec.busy ≤ s.cur.clk ∧ (false = true ∨ vtInt (shapeOf s).t = true)) (shaped 9 1 1 (on .vec))
    ∧ meets (.vsha oVWXY) (useVWXY oVWXY) (fun s => s.core.vec.busy ≤ s.cur.clk ∧ (false = true ∨ vtInt (shapeOf s).t = true)) (shaped 10 1 1 (on .vec))
    ∧ meets (.vsha oVWXY) (useVWXY oVWXY) (fun s => s.core.vec.busy ≤ s.cur.clk ∧ vtInt (shapeOf s).t = false) (on .vec)
    ∧ (issues (.vimul oVWXY) (useVWXY oVWXY) (busyVec (on .vec)) ∧ (startIssue (busyVec (on .vec))).cur.clk < (startIssue (busyVec (on .vec))).core.vec.busy) :=
  by and_intros <;> first | decide +kernel | (unfold guardTrue; decide +kernel)

/-- Compares, conversions, and a mask with and without a one bit. -/
theorem wit_VectorComparesAndConversions :
    meets (.vicmp oVCmpOps) (useVCmpOps oVCmpOps) (fun s => s.core.vec.busy ≤ s.cur.clk ∧ (fun h _ => vtInt h.t = true) (shapeOf s) s) (shaped 10 1 1 (on .vec))
    ∧ meets (.vcmp oVCmpOps) (useVCmpOps oVCmpOps) (fun s => s.core.vec.busy ≤ s.cur.clk ∧ (fun h _ => h.t ≤ 2) (shapeOf s) s) (shaped 2 1 1 (on .vec))
    ∧ meets (.vsel oVWXY) (useVWXY oVWXY) (fun s => s.core.vec.busy ≤ s.cur.clk ∧ (fun _ _ => True) (shapeOf s) s) (on .vec)
    ∧ meets (.vmlog oVMlogOps) (useVMlogOps oVMlogOps) (fun s => s.core.vec.busy ≤ s.cur.clk ∧ (fun _ _ => True) (shapeOf s) s) (on .vec)
    ∧ meets (.vmpop oVMdOps) (useVMdOps oVMdOps) (fun s => s.core.vec.busy ≤ s.cur.clk ∧ (fun _ _ => True) (shapeOf s) s) (on .vec)
    ∧ meets (.vmfirst oVMdOps) (useVMdOps oVMdOps) (fun s => s.core.vec.busy ≤ s.cur.clk ∧ (fun h s => 0 < h.lanes ∧ (rdM s oVMdOps.m).testBit 0 = true ∧ (rdM s oVMdOps.x).testBit 0 = true ∧ ∀ l < 0, (rdM s oVMdOps.m).testBit l = false ∨ (rdM s oVMdOps.x).testBit l = false) (shapeOf s) s) (shaped 0 1 1 (on .vec))
    ∧ meets (.vmfirst ({ oVMdOps with x := 1 })) (useVMdOps ({ oVMdOps with x := 1 })) (fun s => s.core.vec.busy ≤ s.cur.clk ∧ (fun h s => ∀ l < h.lanes, (rdM s ({ oVMdOps with x := 1 }).m).testBit l = false ∨ (rdM s ({ oVMdOps with x := 1 }).x).testBit l = false) (shapeOf s) s) (shaped 0 1 1 (on .vec))
    ∧ meets (.vcvt oVWXB) (useVWXB oVWXB) (fun s => s.core.vec.busy ≤ s.cur.clk ∧ (fun _ s => vcvtOk (rdS s oVWXB.b) = true) (shapeOf s) s) (regs [(1, 0x4A)] (on .vec))
    ∧ (issues (.vcmp oVCmpOps) (useVCmpOps oVCmpOps) (busyVec (on .vec)) ∧ (startIssue (busyVec (on .vec))).cur.clk < (startIssue (busyVec (on .vec))).core.vec.busy)
    ∧ (issues (.vsel oVWXY) (useVWXY oVWXY) (busyVec (on .vec)) ∧ (startIssue (busyVec (on .vec))).cur.clk < (startIssue (busyVec (on .vec))).core.vec.busy)
    ∧ (issues (.vmlog oVMlogOps) (useVMlogOps oVMlogOps) (busyVec (on .vec)) ∧ (startIssue (busyVec (on .vec))).cur.clk < (startIssue (busyVec (on .vec))).core.vec.busy)
    ∧ (issues (.vmpop oVMdOps) (useVMdOps oVMdOps) (busyVec (on .vec)) ∧ (startIssue (busyVec (on .vec))).cur.clk < (startIssue (busyVec (on .vec))).core.vec.busy)
    ∧ (issues (.vcvt oVWXB) (useVWXB oVWXB) (busyVec (on .vec)) ∧ (startIssue (busyVec (on .vec))).cur.clk < (startIssue (busyVec (on .vec))).core.vec.busy)
    ∧ (issues (.vquant oVQuantOps) (useVQuantOps oVQuantOps) (busyVec (on .vec)) ∧ (startIssue (busyVec (on .vec))).cur.clk < (startIssue (busyVec (on .vec))).core.vec.busy)
    ∧ meets (.vquant oVQuantOps) (useVQuantOps oVQuantOps) (fun s => s.core.vec.busy ≤ s.cur.clk ∧ (shapeOf s).rows = 64 ∧ (shapeOf s).cols = 64 ∧ (shapeOf s).t ≤ 1) (on .vec) :=
  by and_intros <;> first | decide +kernel | (unfold guardTrue; decide +kernel)

/-- Accesses at the end of the scratchpad, failing ones, an image, masks, and gathered elements. -/
theorem wit_VectorMemory :
    meets (.vshape oVShapeOps) (useVShapeOps oVShapeOps) (fun s => shapeWordOk (rdS s oVShapeOps.a) = true) (regs [(1, 0x083F0000)] (on .vec))
    ∧ meets (.vshape oVShapeOps) (useVShapeOps oVShapeOps) (fun s => shapeWordOk (rdS s oVShapeOps.a) = false) (regs [(1, 0x00400000)] (on .vec))
    ∧ meets (.vld oVWA) (useVWA oVWA) (fun s => s.core.vec.busy ≤ s.cur.clk ∧ (fun h s => accessTrap (rdS s oVWA.a) h false oVWA.m s = none) (shapeOf s) s) (shaped 0 1 1 (regs [(1, 0x3FFFFC)] (on .vec)))
    ∧ meets (.vld oVWA) (useVWA oVWA) (fun s => s.core.vec.busy ≤ s.cur.clk ∧ accessTrap (rdS s oVWA.a) (shapeOf s) false oVWA.m s ≠ none) (shaped 0 1 1 (regs [(1, 0x3FFFFE)] (on .vec)))
    ∧ meets (.vst oVSA) (useVSA oVSA) (fun s => s.core.vec.busy ≤ s.cur.clk ∧ (fun h s => accessTrap (rdS s oVSA.a) h true oVSA.m s = none ∧ awMode (rdS s oVSA.a) ≠ 3) (shapeOf s) s) (shaped 0 1 1 (regs [(1, 0x3FFFFC)] (on .vec)))
    ∧ meets (.vst oVSA) (useVSA oVSA) (fun s => s.core.vec.busy ≤ s.cur.clk ∧ (fun h s => accessTrap (rdS s oVSA.a) h true oVSA.m s = none ∧ awMode (rdS s oVSA.a) = 3 ∧ ∀ j < imageCells (awFmt (rdS s oVSA.a)), imageTagOk (awFmt (rdS s oVSA.a)) (imageCells (awFmt (rdS s oVSA.a))) j (fld (rdV s oVSA.x) (512 * imageCells (awFmt (rdS s oVSA.a)) + 16 * j) 16) = true) (shapeOf s) s) (imaged (regs [(1, 0x9003000000000000)] (on .vec)))
    ∧ meets (.vst oVSA) (useVSA oVSA) (fun s => s.core.vec.busy ≤ s.cur.clk ∧ accessTrap (rdS s oVSA.a) (shapeOf s) true oVSA.m s = some (mkTrap 0x0B 0x04 0)) (shaped 0 1 1 (regs [(1, 0x3FFFFE)] (on .vec)))
    ∧ meets (.vst oVSA) (useVSA oVSA) (fun s => s.core.vec.busy ≤ s.cur.clk ∧ accessTrap (rdS s oVSA.a) (shapeOf s) true oVSA.m s = none ∧ awMode (rdS s oVSA.a) = 3 ∧ ∃ j < imageCells (awFmt (rdS s oVSA.a)), imageTagOk (awFmt (rdS s oVSA.a)) (imageCells (awFmt (rdS s oVSA.a))) j (fld (rdV s oVSA.x) (512 * imageCells (awFmt (rdS s oVSA.a)) + 16 * j) 16) = false) (regs [(1, 0x9003000000000000)] (on .vec))
    ∧ meets (.vldm oVMA) (useVMA oVMA) (fun s => s.core.vec.busy ≤ s.cur.clk ∧ (fun _ s => maskAccessTrap (rdS s oVMA.a).toNat s = none ∧ ∀ j < 8, cellTrap s.core (fun _ => true) ((rdS s oVMA.a).toNat + 64 * j) = none) (shapeOf s) s) (regs [(1, 0x3FFE00)] (on .vec))
    ∧ meets (.vldm oVMA) (useVMA oVMA) (fun s => s.core.vec.busy ≤ s.cur.clk ∧ maskAccessTrap (rdS s oVMA.a).toNat s = some (mkTrap 0x03 0 1)) (regs [(1, 1)] (on .vec))
    ∧ meets (.vstm oVAM) (useVAM oVAM) (fun s => s.core.vec.busy ≤ s.cur.clk ∧ (fun _ s => maskAccessTrap (rdS s oVAM.a).toNat s = none) (shapeOf s) s) (regs [(1, 0x3FFE00)] (on .vec))
    ∧ meets (.vstm oVAM) (useVAM oVAM) (fun s => s.core.vec.busy ≤ s.cur.clk ∧ maskAccessTrap (rdS s oVAM.a).toNat s = some (mkTrap 0x0B 0x04 0)) (regs [(1, 0x3FFE40)] (on .vec))
    ∧ meets (.vgat oVGatOps) (useVGatOps oVGatOps) (fun s => s.core.vec.busy ≤ s.cur.clk ∧ (fun h s => gatherWordOk (rdS s oVGatOps.a) = true ∧ ∀ l < h.lanes, (rdM s oVGatOps.m).testBit l = true → gatherTrap s (rdS s oVGatOps.a) (rdV s oVGatOps.x) (h.w / 8) l = none ∧ cellTrap s.core (fun _ => true) (gatherAddr (rdS s oVGatOps.a) (rdV s oVGatOps.x) l) = none) (shapeOf s) s) (shaped 0 1 1 (regs [(1, 0x3FFFFC)] (on .vec)))
    ∧ meets (.vgat oVGatOps) (useVGatOps oVGatOps) (fun s => s.core.vec.busy ≤ s.cur.clk ∧ gatherWordOk (rdS s oVGatOps.a) = false) (regs [(1, 0x400000)] (on .vec))
    ∧ meets (.vsct oVSctOps) (useVSctOps oVSctOps) (fun s => s.core.vec.busy ≤ s.cur.clk ∧ (fun h s => gatherWordOk (rdS s oVSctOps.a) = true ∧ ∀ l < h.lanes, (rdM s oVSctOps.m).testBit l = true → gatherTrap s (rdS s oVSctOps.a) (rdV s oVSctOps.x) (h.w / 8) l = none) (shapeOf s) s) (shaped 0 1 1 (regs [(1, 0x3FFFFC)] (on .vec)))
    ∧ meets (.vsct oVSctOps) (useVSctOps oVSctOps) (fun s => s.core.vec.busy ≤ s.cur.clk ∧ gatherWordOk (rdS s oVSctOps.a) = false) (regs [(1, 0x400000)] (on .vec))
    ∧ (issues (.vld oVWA) (useVWA oVWA) (busyVec (on .vec)) ∧ (startIssue (busyVec (on .vec))).cur.clk < (startIssue (busyVec (on .vec))).core.vec.busy)
    ∧ (issues (.vst oVSA) (useVSA oVSA) (busyVec (on .vec)) ∧ (startIssue (busyVec (on .vec))).cur.clk < (startIssue (busyVec (on .vec))).core.vec.busy)
    ∧ (issues (.vldm oVMA) (useVMA oVMA) (busyVec (on .vec)) ∧ (startIssue (busyVec (on .vec))).cur.clk < (startIssue (busyVec (on .vec))).core.vec.busy)
    ∧ (issues (.vstm oVAM) (useVAM oVAM) (busyVec (on .vec)) ∧ (startIssue (busyVec (on .vec))).cur.clk < (startIssue (busyVec (on .vec))).core.vec.busy)
    ∧ (issues (.vgat oVGatOps) (useVGatOps oVGatOps) (busyVec (on .vec)) ∧ (startIssue (busyVec (on .vec))).cur.clk < (startIssue (busyVec (on .vec))).core.vec.busy)
    ∧ (issues (.vsct oVSctOps) (useVSctOps oVSctOps) (busyVec (on .vec)) ∧ (startIssue (busyVec (on .vec))).cur.clk < (startIssue (busyVec (on .vec))).core.vec.busy) :=
  by and_intros <;> first | decide +kernel | (unfold guardTrue; decide +kernel)

/-- One lane of each kind, and the corners of the bank. -/
theorem wit_VectorMoves :
    meets (.vsplat oVWA) (useVWA oVWA) (fun s => s.core.vec.busy ≤ s.cur.clk ∧ (fun _ _ => True) (shapeOf s) s) (on .vec)
    ∧ meets (.vaccr oVWA) (useVWA oVWA) (fun s => s.core.vec.busy ≤ s.cur.clk ∧ (fun h s => h.t = 0 ∧ bankWordOk (rdS s oVWA.a) h = true) (shapeOf s) s) (shaped 0 1 1 (regs [(1, 0x3F03FF)] (on .vec)))
    ∧ meets (.vaccr oVWA) (useVWA oVWA) (fun s => s.core.vec.busy ≤ s.cur.clk ∧ (fun h s => (h.t = 1 ∨ h.t = 2) ∧ bankWordOk (rdS s oVWA.a) h = true) (shapeOf s) s) (shaped 1 1 1 (regs [(1, 0x3F03FF)] (on .vec)))
    ∧ meets (.vaccw oVSA) (useVSA oVSA) (fun s => s.core.vec.busy ≤ s.cur.clk ∧ (fun h s => h.t ≤ 2 ∧ bankWordOk (rdS s oVSA.a) h = true) (shapeOf s) s) (shaped 2 1 1 (regs [(1, 0x3F03FF)] (on .vec)))
    ∧ meets (.vmovs oVMovsOps) (useVMovsOps oVMovsOps) (fun s => s.core.vec.busy ≤ s.cur.clk ∧ (fun _ _ => True) (shapeOf s) s) (on .vec)
    ∧ meets (.viota oVIotaOps) (useVIotaOps oVIotaOps) (fun s => s.core.vec.busy ≤ s.cur.clk ∧ (fun h _ => h.t ≤ 2) (shapeOf s) s) (shaped 2 1 1 (on .vec))
    ∧ meets (.viota oVIotaOps) (useVIotaOps oVIotaOps) (fun s => s.core.vec.busy ≤ s.cur.clk ∧ (fun h _ => 2 < h.t ∧ vtByte h.t = false) (shapeOf s) s) (shaped 8 1 1 (on .vec))
    ∧ meets (.vtrn oVWX) (useVWX oVWX) (fun s => s.core.vec.busy ≤ s.cur.clk ∧ (fun _ _ => True) (shapeOf s) s) (on .vec)
    ∧ meets (.vpart oVWX) (useVWX oVWX) (fun s => s.core.vec.busy ≤ s.cur.clk ∧ (fun _ _ => True) (shapeOf s) s) (on .vec)
    ∧ meets (.vperm oVWXY) (useVWXY oVWXY) (fun s => s.core.vec.busy ≤ s.cur.clk ∧ (fun _ _ => True) (shapeOf s) s) (on .vec)
    ∧ meets (.vord oVWXB) (useVWXB oVWXB) (fun s => s.core.vec.busy ≤ s.cur.clk ∧ (fun h s => (h.t ≤ 2 ∨ vtByte h.t = true) ∧ (rdS s oVWXB.b).toNat < 2) (shapeOf s) s) (shaped 2 1 1 (regs [(1, 1), (2, 1)] (on .vec)))
    ∧ (issues (.vaccr oVWA) (useVWA oVWA) (busyVec (on .vec)) ∧ (startIssue (busyVec (on .vec))).cur.clk < (startIssue (busyVec (on .vec))).core.vec.busy)
    ∧ (issues (.vaccw oVSA) (useVSA oVSA) (busyVec (on .vec)) ∧ (startIssue (busyVec (on .vec))).cur.clk < (startIssue (busyVec (on .vec))).core.vec.busy)
    ∧ (issues (.vmovs oVMovsOps) (useVMovsOps oVMovsOps) (busyVec (on .vec)) ∧ (startIssue (busyVec (on .vec))).cur.clk < (startIssue (busyVec (on .vec))).core.vec.busy)
    ∧ (issues (.viota oVIotaOps) (useVIotaOps oVIotaOps) (busyVec (on .vec)) ∧ (startIssue (busyVec (on .vec))).cur.clk < (startIssue (busyVec (on .vec))).core.vec.busy)
    ∧ (issues (.vpart oVWX) (useVWX oVWX) (busyVec (on .vec)) ∧ (startIssue (busyVec (on .vec))).cur.clk < (startIssue (busyVec (on .vec))).core.vec.busy)
    ∧ (issues (.vperm oVWXY) (useVWXY oVWXY) (busyVec (on .vec)) ∧ (startIssue (busyVec (on .vec))).cur.clk < (startIssue (busyVec (on .vec))).core.vec.busy)
    ∧ (issues (.vord oVWXB) (useVWXB oVWXB) (busyVec (on .vec)) ∧ (startIssue (busyVec (on .vec))).cur.clk < (startIssue (busyVec (on .vec))).core.vec.busy)
    ∧ (issues (.vhist oVWXB) (useVhist (busyVec (on .vec)) oVWXB) (busyVec (on .vec)) ∧ (startIssue (busyVec (on .vec))).cur.clk < (startIssue (busyVec (on .vec))).core.vec.busy)
    ∧ meets (.vhist oVWXB) (useVWXB oVWXB) (fun s => s.core.vec.busy ≤ s.cur.clk ∧ histOk (rdS s oVWXB.b) (shapeOf s).w = true) (shaped 8 1 1 (regs [(2, 0x700)] (on .vec))) :=
  by and_intros <;> first | decide +kernel | (unfold guardTrue; decide +kernel)

/-- One row and column, and a place beyond the columns. -/
theorem wit_VectorReductions :
    meets (.vred oVWXB) (useVWXB oVWXB) (fun s => s.core.vec.busy ≤ s.cur.clk ∧ redTypeOk (shapeOf s).t (rdS s oVWXB.b) = true ∧ (redOk (rdS s oVWXB.b) false = false ∨ (shapeOf s).cols ≤ redPos (rdS s oVWXB.b))) (shaped 0 1 1 (regs [(2, 0x1000)] (on .vec)))
    ∧ meets (.vredc oVWXB) (useVWXB oVWXB) (fun s => s.core.vec.busy ≤ s.cur.clk ∧ redTypeOk (shapeOf s).t (rdS s oVWXB.b) = true ∧ (redOk (rdS s oVWXB.b) false = false ∨ (shapeOf s).rows ≤ redPos (rdS s oVWXB.b))) (shaped 0 1 1 (regs [(2, 0x1000)] (on .vec)))
    ∧ meets (.vscan oVWXB) (useVWXB oVWXB) (fun s => s.core.vec.busy ≤ s.cur.clk ∧ redTypeOk (shapeOf s).t (rdS s oVWXB.b) = true ∧ redOk (rdS s oVWXB.b) true = false) (shaped 0 1 1 (regs [(2, 0x1000)] (on .vec)))
    ∧ meets (.vscan oVWXB) (useVWXB oVWXB) (fun s => s.core.vec.busy ≤ s.cur.clk ∧ redTypeOk (shapeOf s).t (rdS s oVWXB.b) = false) (shaped 12 1 1 (on .vec))
    ∧ meets (.vosm oVOsmOps) (useVOsmOps oVOsmOps) (fun s => s.core.vec.busy ≤ s.cur.clk ∧ (shapeOf s).t ≠ 0) (shaped 4 1 2 (on .vec))
    ∧ meets (.vred oVWXB) (useVWXB oVWXB) (fun s => s.core.vec.busy ≤ s.cur.clk ∧ redTypeOk (shapeOf s).t (rdS s oVWXB.b) = true ∧ redOk (rdS s oVWXB.b) false = true ∧ redPos (rdS s oVWXB.b) < 1) (shaped 0 1 1 (on .vec))
    ∧ meets (.vredc oVWXB) (useVWXB oVWXB) (fun s => s.core.vec.busy ≤ s.cur.clk ∧ redTypeOk (shapeOf s).t (rdS s oVWXB.b) = true ∧ redOk (rdS s oVWXB.b) false = true ∧ redPos (rdS s oVWXB.b) < 1) (shaped 0 1 1 (on .vec))
    ∧ meets (.vscan oVWXB) (useVWXB oVWXB) (fun s => s.core.vec.busy ≤ s.cur.clk ∧ redTypeOk (shapeOf s).t (rdS s oVWXB.b) = true ∧ redOk (rdS s oVWXB.b) true = true) (shaped 0 1 1 (on .vec))
    ∧ meets (.vosm oVOsmOps) (useVOsmOps oVOsmOps) (fun s => s.core.vec.busy ≤ s.cur.clk ∧ (shapeOf s).t = 0 ∧ 2 ≤ (shapeOf s).cols) (shaped 0 1 2 (on .vec))
    ∧ (issues (.vred oVWXB) (useVWXB oVWXB) (busyVec (on .vec)) ∧ (startIssue (busyVec (on .vec))).cur.clk < (startIssue (busyVec (on .vec))).core.vec.busy)
    ∧ (issues (.vosm oVOsmOps) (useVOsmOps oVOsmOps) (busyVec (on .vec)) ∧ (startIssue (busyVec (on .vec))).cur.clk < (startIssue (busyVec (on .vec))).core.vec.busy) :=
  by and_intros <;> first | decide +kernel | (unfold guardTrue; decide +kernel)

/-- A tree of two nodes, accepted and not, an absent one, a full one, and images at the ends of the scratchpad. -/
theorem wit_TokenTrees :
    meets (.ttclr oTA) (useTA oTA) (fun s => s.core.vec.treeBusy ≤ s.cur.clk ∧ (fun s => twOk (rdS s oTA.a) false false false true = true ∧ twAll (rdS s oTA.a) = false) s) (regs [(1, 1)] (on .vec))
    ∧ meets (.ttclr oTA) (useTA oTA) (fun s => s.core.vec.treeBusy ≤ s.cur.clk ∧ (fun s => twOk (rdS s oTA.a) false false false true = true ∧ twAll (rdS s oTA.a) = true) s) (regs [(1, 0x8000000000000000)] (on .vec))
    ∧ meets (.ttclr oTA) (useTA oTA) (fun s => s.core.vec.treeBusy ≤ s.cur.clk ∧ (fun s => twOk (rdS s oTA.a) false false false true = false) s) (regs [(1, 0x40)] (on .vec))
    ∧ meets (.ttnew oTDAB) (useTDAB oTDAB) (fun s => s.core.vec.treeBusy ≤ s.cur.clk ∧ (fun s => twOk (rdS s oTDAB.a) false false false false = true ∧ (rdS s oTDAB.b).toNat ≤ maxBase ∧ (rdS s oTDAB.b).toNat < 2 ^ 32) s) (regs [(1, 63), (2, 0)] (on .vec))
    ∧ meets (.ttadd oTDAB) (useTDAB oTDAB) (fun s => s.core.vec.treeBusy ≤ s.cur.clk ∧ (fun s => twOk (rdS s oTDAB.a) true false false false = true ∧ s.core.trees[twTree (rdS s oTDAB.a)] = some (twoNodes false) ∧ (twNode (rdS s oTDAB.a) = 255 ∨ (twNode (rdS s oTDAB.a) < (twoNodes false).count ∧ (twoNodes false).isSet (twNode (rdS s oTDAB.a)) = false)) ∧ (twoNodes false).count ≠ 256 ∧ treeFree s ≠ 0) s) (planted (twoNodes false) (regs [(1, 0x101)] (on .vec)))
    ∧ meets (.ttadd oTDAB) (useTDAB oTDAB) (fun s => s.core.vec.treeBusy ≤ s.cur.clk ∧ (fun s => twOk (rdS s oTDAB.a) true false false false = true ∧ s.core.trees[twTree (rdS s oTDAB.a)] = some fullTree ∧ (twNode (rdS s oTDAB.a) = 255 ∨ (twNode (rdS s oTDAB.a) < fullTree.count ∧ fullTree.isSet (twNode (rdS s oTDAB.a)) = false)) ∧ (fullTree.count = 256 ∨ treeFree s = 0)) s) (planted fullTree (regs [(1, 0xFF01)] (on .vec)))
    ∧ meets (.ttnew oTDAB) (useTDAB oTDAB) (fun s => s.core.vec.treeBusy ≤ s.cur.clk ∧ (fun s => twOk (rdS s oTDAB.a) false false false false = false ∨ 2 ^ 32 ≤ (rdS s oTDAB.b).toNat) s) (regs [(1, 0x40)] (on .vec))
    ∧ meets (.ttnew oTDAB) (useTDAB oTDAB) (fun s => s.core.vec.treeBusy ≤ s.cur.clk ∧ (fun s => twOk (rdS s oTDAB.a) false false false false = true ∧ (rdS s oTDAB.b).toNat < 2 ^ 32 ∧ maxBase < (rdS s oTDAB.b).toNat) s) (regs [(1, 1), (2, 0xFFFFFF00)] (on .vec))
    ∧ meets (.ttadd oTDAB) (useTDAB oTDAB) (fun s => s.core.vec.treeBusy ≤ s.cur.clk ∧ (fun s => (fun s => twOk (rdS s oTDAB.a) true false false false) s = false) s) (regs [(1, 0x40)] (on .vec))
    ∧ meets (.ttadd oTDAB) (useTDAB oTDAB) (fun s => s.core.vec.treeBusy ≤ s.cur.clk ∧ (fun s => (fun s => twOk (rdS s oTDAB.a) true false false false) s = true ∧ s.core.trees[twTree ((fun s => rdS s oTDAB.a) s)] = none) s) (regs [(1, 1)] (on .vec))
    ∧ meets (.ttadd oTDAB) (useTDAB oTDAB) (fun s => s.core.vec.treeBusy ≤ s.cur.clk ∧ (fun s => twOk (rdS s oTDAB.a) true false false false = true ∧ s.core.trees[twTree (rdS s oTDAB.a)] = some (twoNodes false) ∧ twNode (rdS s oTDAB.a) ≠ 255 ∧ ((twoNodes false).count ≤ twNode (rdS s oTDAB.a) ∨ (twoNodes false).isSet (twNode (rdS s oTDAB.a)) = true)) s) (planted (twoNodes false) (regs [(1, 0x201)] (on .vec)))
    ∧ meets (.ttload oTDAB) (useTDAB oTDAB) (fun s => s.core.vec.treeBusy ≤ s.cur.clk ∧ (fun s => twOk (rdS s oTDAB.b) false false false false = false ∨ 2 ^ 22 ≤ (rdS s oTDAB.a).toNat) s) (regs [(1, 0x400000), (2, 1)] (on .vec))
    ∧ meets (.ttload oTDAB) (useTDAB oTDAB) (fun s => s.core.vec.treeBusy ≤ s.cur.clk ∧ twOk (rdS s oTDAB.b) false false false false = true ∧ (rdS s oTDAB.a).toNat < 2 ^ 22 ∧ (rdS s oTDAB.a).toNat % 16 = 0 ∧ readTree s (rdS s oTDAB.a).toNat = .error (mkTrap 0x0C 0x2000007 0) ∧ ((mkTrap 0x0C 0x2000007 0).cause ≠ 0x05 ∨ spadIsBad s.core (mkTrap 0x0C 0x2000007 0).addr.toNat = false)) (longImage (regs [(1, 0x40), (2, 1)] (on .vec)))
    ∧ meets (.ttload oTDAB) (useTDAB oTDAB) (fun s => s.core.vec.treeBusy ≤ s.cur.clk ∧ twOk (rdS s oTDAB.b) false false false false = true ∧ (rdS s oTDAB.a).toNat < 2 ^ 22 ∧ (rdS s oTDAB.a).toNat % 16 = 0 ∧ readTree s (rdS s oTDAB.a).toNat = .error (mkTrap 0x05 1 0x40) ∧ (mkTrap 0x05 1 0x40).cause = 0x05 ∧ spadIsBad s.core (mkTrap 0x05 1 0x40).addr.toNat = true) (badCell (regs [(1, 0x40), (2, 1)] (on .vec)))
    ∧ meets (.ttload oTDAB) (useTDAB oTDAB) (fun s => s.core.vec.treeBusy ≤ s.cur.clk ∧ (fun s => twOk (rdS s oTDAB.b) false false false false = true ∧ (rdS s oTDAB.a).toNat < 2 ^ 22 ∧ (rdS s oTDAB.a).toNat % 16 = 0 ∧ readTree s (rdS s oTDAB.a).toNat = .ok (twoNodes false) ∧ treeFree s + treeCount s (twTree (rdS s oTDAB.b)) < (twoNodes false).count) s) (treeImageAt <| crowdedTrees (regs [(1, 0x40), (2, 1)] (on .vec)))
    ∧ meets (.ttload oTDAB) (useTDAB oTDAB) (fun s => s.core.vec.treeBusy ≤ s.cur.clk ∧ twOk (rdS s oTDAB.b) false false false false = true ∧ (rdS s oTDAB.a).toNat < 2 ^ 22 ∧ (rdS s oTDAB.a).toNat % 16 ≠ 0) (regs [(1, 8), (2, 1)] (on .vec))
    ∧ meets (.ttstore oTAB) (useTAB oTAB) (fun s => s.core.vec.treeBusy ≤ s.cur.clk ∧ (fun s => twOk (rdS s oTAB.b) false false false false = true ∧ (rdS s oTAB.a).toNat < 2 ^ 22 ∧ (rdS s oTAB.a).toNat % 16 = 0 ∧ s.core.trees[twTree (rdS s oTAB.b)] = some (twoNodes false) ∧ treeExtent s (rdS s oTAB.a).toNat (16 + 16 * (twoNodes false).count) = none) s) (planted (twoNodes false) (regs [(1, 0x3FFFD0), (2, 1)] (on .vec)))
    ∧ meets (.ttstore oTAB) (useTAB oTAB) (fun s => s.core.vec.treeBusy ≤ s.cur.clk ∧ (fun s => twOk (rdS s oTAB.b) false false false false = false ∨ 2 ^ 22 ≤ (rdS s oTAB.a).toNat) s) (regs [(1, 0x400000), (2, 1)] (on .vec))
    ∧ meets (.ttstore oTAB) (useTAB oTAB) (fun s => s.core.vec.treeBusy ≤ s.cur.clk ∧ twOk (rdS s oTAB.b) false false false false = true ∧ (rdS s oTAB.a).toNat < 2 ^ 22 ∧ (rdS s oTAB.a).toNat % 16 ≠ 0) (regs [(1, 8), (2, 1)] (on .vec))
    ∧ meets (.ttstore oTAB) (useTAB oTAB) (fun s => s.core.vec.treeBusy ≤ s.cur.clk ∧ (fun s => twOk (rdS s oTAB.b) false false false false = true ∧ (rdS s oTAB.a).toNat < 2 ^ 22 ∧ (rdS s oTAB.a).toNat % 16 = 0 ∧ s.core.trees[twTree (rdS s oTAB.b)] = none) s) (regs [(1, 0x3FFFF0), (2, 1)] (on .vec))
    ∧ meets (.ttstore oTAB) (useTAB oTAB) (fun s => s.core.vec.treeBusy ≤ s.cur.clk ∧ twOk (rdS s oTAB.b) false false false false = true ∧ (rdS s oTAB.a).toNat < 2 ^ 22 ∧ (rdS s oTAB.a).toNat % 16 = 0 ∧ s.core.trees[twTree (rdS s oTAB.b)] = some (twoNodes false) ∧ treeExtent s (rdS s oTAB.a).toNat (16 + 16 * (twoNodes false).count) = some (mkTrap 0x0C 0x09 0)) (planted (twoNodes false) (regs [(1, 0x3FFFE0), (2, 1)] (on .vec)))
    ∧ meets (.ttstat oTDA) (useTDA oTDA) (fun s => s.core.vec.treeBusy ≤ s.cur.clk ∧ (fun s => twOk (rdS s oTDA.a) false false false false = true) s) (regs [(1, 63)] (on .vec))
    ∧ meets (.ttstat oTDA) (useTDA oTDA) (fun s => s.core.vec.treeBusy ≤ s.cur.clk ∧ (fun s => twOk (rdS s oTDA.a) false false false false = false) s) (regs [(1, 0x40)] (on .vec))
    ∧ meets (.ttmask oTMA) (useTMA oTMA) (fun s => s.core.vec.treeBusy ≤ s.cur.clk ∧ (fun s => twOk (rdS s oTMA.a) true true false false = true ∧ s.core.trees[twTree (rdS s oTMA.a)] = some (twoNodes false)) s) (planted (twoNodes false) (regs [(1, 0x1FF01)] (on .vec)))
    ∧ meets (.ttpos oTWA) (useTWA oTWA) (fun s => s.core.vec.treeBusy ≤ s.cur.clk ∧ (fun s => twOk (rdS s oTWA.a) true false false false = true ∧ s.core.trees[twTree (rdS s oTWA.a)] = some (twoNodes false) ∧ ((shapeOf s).t = 4 ∨ (shapeOf s).t = 8)) s) (planted (twoNodes false) <| shaped 4 1 1 (regs [(1, 1)] (on .vec)))
    ∧ meets (.ttpath oTWA) (useTWA oTWA) (fun s => s.core.vec.treeBusy ≤ s.cur.clk ∧ (fun s => twOk (rdS s oTWA.a) true false true false = true ∧ s.core.trees[twTree (rdS s oTWA.a)] = some (twoNodes false) ∧ twNode (rdS s oTWA.a) < (twoNodes false).count ∧ twMark (rdS s oTWA.a) = false) s) (planted (twoNodes false) (regs [(1, 0x101)] (on .vec)))
    ∧ meets (.ttprune oTWA) (useTWA oTWA) (fun s => s.core.vec.treeBusy ≤ s.cur.clk ∧ (fun s => twOk (rdS s oTWA.a) true false false false = true ∧ s.core.trees[twTree (rdS s oTWA.a)] = some (twoNodes true) ∧ twNode (rdS s oTWA.a) < (twoNodes true).count ∧ (twoNodes true).isAcc (twNode (rdS s oTWA.a)) = true ∧ (twoNodes true).isSet (twNode (rdS s oTWA.a)) = false ∧ (twoNodes true).base.toNat + ((twoNodes true).path (twNode (rdS s oTWA.a))).length ≤ maxBase) s) (planted (twoNodes true) (regs [(1, 0x101)] (on .vec)))
    ∧ meets (.ttpos oTWA) (useTWA oTWA) (fun s => s.core.vec.treeBusy ≤ s.cur.clk ∧ (fun s => (fun s => twOk (rdS s oTWA.a) true false false false) s = false) s) (regs [(1, 0x40)] (on .vec))
    ∧ meets (.ttpos oTWA) (useTWA oTWA) (fun s => s.core.vec.treeBusy ≤ s.cur.clk ∧ (fun s => (fun s => twOk (rdS s oTWA.a) true false false false) s = true ∧ s.core.trees[twTree ((fun s => rdS s oTWA.a) s)] = none) s) (regs [(1, 1)] (on .vec))
    ∧ meets (.ttpos oTWA) (useTWA oTWA) (fun s => s.core.vec.treeBusy ≤ s.cur.clk ∧ (fun s => twOk (rdS s oTWA.a) true false false false = true ∧ s.core.trees[twTree (rdS s oTWA.a)] = some (twoNodes false) ∧ (shapeOf s).t ≠ 0 ∧ (shapeOf s).t ≠ 4 ∧ (shapeOf s).t ≠ 8) s) (planted (twoNodes false) <| shaped 5 1 1 (regs [(1, 1)] (on .vec)))
    ∧ meets (.ttpath oTWA) (useTWA oTWA) (fun s => s.core.vec.treeBusy ≤ s.cur.clk ∧ (fun s => (fun s => twOk (rdS s oTWA.a) true false true false) s = false) s) (regs [(1, 0x40)] (on .vec))
    ∧ meets (.ttpath oTWA) (useTWA oTWA) (fun s => s.core.vec.treeBusy ≤ s.cur.clk ∧ (fun s => (fun s => twOk (rdS s oTWA.a) true false true false) s = true ∧ s.core.trees[twTree ((fun s => rdS s oTWA.a) s)] = none) s) (regs [(1, 1)] (on .vec))
    ∧ meets (.ttpath oTWA) (useTWA oTWA) (fun s => s.core.vec.treeBusy ≤ s.cur.clk ∧ (fun s => twOk (rdS s oTWA.a) true false true false = true ∧ s.core.trees[twTree (rdS s oTWA.a)] = some (twoNodes false) ∧ (twoNodes false).count ≤ twNode (rdS s oTWA.a)) s) (planted (twoNodes false) (regs [(1, 0x201)] (on .vec)))
    ∧ meets (.ttprune oTWA) (useTWA oTWA) (fun s => s.core.vec.treeBusy ≤ s.cur.clk ∧ (fun s => (fun s => twOk (rdS s oTWA.a) true false false false) s = false) s) (regs [(1, 0x40)] (on .vec))
    ∧ meets (.ttprune oTWA) (useTWA oTWA) (fun s => s.core.vec.treeBusy ≤ s.cur.clk ∧ (fun s => (fun s => twOk (rdS s oTWA.a) true false false false) s = true ∧ s.core.trees[twTree ((fun s => rdS s oTWA.a) s)] = none) s) (regs [(1, 1)] (on .vec))
    ∧ meets (.ttprune oTWA) (useTWA oTWA) (fun s => s.core.vec.treeBusy ≤ s.cur.clk ∧ (fun s => twOk (rdS s oTWA.a) true false false false = true ∧ s.core.trees[twTree (rdS s oTWA.a)] = some (twoNodes false) ∧ (twoNodes false).count ≤ twNode (rdS s oTWA.a)) s) (planted (twoNodes false) (regs [(1, 0x201)] (on .vec)))
    ∧ meets (.ttprune oTWA) (useTWA oTWA) (fun s => s.core.vec.treeBusy ≤ s.cur.clk ∧ (fun s => twOk (rdS s oTWA.a) true false false false = true ∧ s.core.trees[twTree (rdS s oTWA.a)] = some (twoNodes false) ∧ twNode (rdS s oTWA.a) < (twoNodes false).count ∧ ((twoNodes false).isAcc (twNode (rdS s oTWA.a)) = false ∨ (twoNodes false).isSet (twNode (rdS s oTWA.a)) = true)) s) (planted (twoNodes false) (regs [(1, 0x101)] (on .vec)))
    ∧ meets (.ttprune oTWA) (useTWA oTWA) (fun s => s.core.vec.treeBusy ≤ s.cur.clk ∧ (fun s => twOk (rdS s oTWA.a) true false false false = true ∧ s.core.trees[twTree (rdS s oTWA.a)] = some lastTree ∧ twNode (rdS s oTWA.a) < lastTree.count ∧ lastTree.isAcc (twNode (rdS s oTWA.a)) = true ∧ lastTree.isSet (twNode (rdS s oTWA.a)) = false ∧ maxBase < lastTree.base.toNat + (lastTree.path (twNode (rdS s oTWA.a))).length) s) (planted lastTree (regs [(1, 0x101)] (on .vec)))
    ∧ meets (.ttmask oTMA) (useTMA oTMA) (fun s => s.core.vec.treeBusy ≤ s.cur.clk ∧ (fun s => (fun s => twOk (rdS s oTMA.a) true true false false) s = false) s) (regs [(1, 0x40)] (on .vec))
    ∧ meets (.ttmask oTMA) (useTMA oTMA) (fun s => s.core.vec.treeBusy ≤ s.cur.clk ∧ (fun s => (fun s => twOk (rdS s oTMA.a) true true false false) s = true ∧ s.core.trees[twTree ((fun s => rdS s oTMA.a) s)] = none) s) (regs [(1, 1)] (on .vec))
    ∧ meets (.ttdepth oTWAB) (useTWAB oTWAB) (fun s => s.core.vec.treeBusy ≤ s.cur.clk ∧ (fun s => (fun s => twOk (rdS s oTWAB.a) true false false false && decide ((rdS s oTWAB.b).toNat < 4)) s = false) s) (regs [(1, 1), (2, 4)] (on .vec))
    ∧ meets (.ttdepth oTWAB) (useTWAB oTWAB) (fun s => s.core.vec.treeBusy ≤ s.cur.clk ∧ (fun s => (fun s => twOk (rdS s oTWAB.a) true false false false && decide ((rdS s oTWAB.b).toNat < 4)) s = true ∧ s.core.trees[twTree ((fun s => rdS s oTWAB.a) s)] = none) s) (regs [(1, 1), (2, 3)] (on .vec))
    ∧ meets (.ttdepth oTWAB) (useTWAB oTWAB) (fun s => s.core.vec.treeBusy ≤ s.cur.clk ∧ (fun s => twOk (rdS s oTWAB.a) true false false false = true ∧ s.core.trees[twTree (rdS s oTWAB.a)] = some (twoNodes false) ∧ (rdS s oTWAB.b).toNat < 4 ∧ vtInt (shapeOf s).t = false) s) (planted (twoNodes false) (regs [(1, 1), (2, 3)] (on .vec)))
    ∧ meets (.ttdepth oTWAB) (useTWAB oTWAB) (fun s => s.core.vec.treeBusy ≤ s.cur.clk ∧ (fun s => twOk (rdS s oTWAB.a) true false false false = true ∧ s.core.trees[twTree (rdS s oTWAB.a)] = some (twoNodes false) ∧ (rdS s oTWAB.b).toNat < 4 ∧ vtInt (shapeOf s).t = true) s) (planted (twoNodes false) <| shaped 8 1 1 (regs [(1, 1), (2, 3)] (on .vec)))
    ∧ meets (.ttload oTDAB) (useTDAB oTDAB) (fun s => s.core.vec.treeBusy ≤ s.cur.clk ∧ twOk (rdS s oTDAB.b) false false false false = true ∧ (rdS s oTDAB.a).toNat < 2 ^ 22 ∧ (rdS s oTDAB.a).toNat % 16 = 0
      ∧ ((readTree s (rdS s oTDAB.a).toNat).toOption.map (fun t => decide (t.count ≤ treeFree s + treeCount s (twTree (rdS s oTDAB.b))))) = some true) (treeImageAt (regs [(1, 0x40), (2, 1)] (on .vec)))
    ∧ meets (.ttpos oTWA) (useTWA oTWA) (fun s => s.core.vec.treeBusy ≤ s.cur.clk ∧ twOk (rdS s oTWA.a) true false false false = true ∧ s.core.trees[twTree (rdS s oTWA.a)] = some (twoNodes false) ∧ (shapeOf s).t = 0) (planted (twoNodes false) (regs [(1, 1)] (on .vec)))
    ∧ meets (.ttpath oTWA) (useTWA oTWA) (fun s => s.core.vec.treeBusy ≤ s.cur.clk ∧ twOk (rdS s oTWA.a) true false true false = true ∧ s.core.trees[twTree (rdS s oTWA.a)] = some (twoNodes false) ∧ twNode (rdS s oTWA.a) < (twoNodes false).count ∧ twMark (rdS s oTWA.a) = true) (planted (twoNodes false) (regs [(1, 0x181)] (on .vec)))
    ∧ (issues (.ttclr oTA) (useTA oTA) (busyTree (on .vec)) ∧ (startIssue (busyTree (on .vec))).cur.clk < (startIssue (busyTree (on .vec))).core.vec.treeBusy)
    ∧ (issues (.ttadd oTDAB) (useTDAB oTDAB) (busyTree (on .vec)) ∧ (startIssue (busyTree (on .vec))).cur.clk < (startIssue (busyTree (on .vec))).core.vec.treeBusy)
    ∧ (issues (.ttstore oTAB) (useTAB oTAB) (busyTree (on .vec)) ∧ (startIssue (busyTree (on .vec))).cur.clk < (startIssue (busyTree (on .vec))).core.vec.treeBusy)
    ∧ (issues (.ttstat oTDA) (useTDA oTDA) (busyTree (on .vec)) ∧ (startIssue (busyTree (on .vec))).cur.clk < (startIssue (busyTree (on .vec))).core.vec.treeBusy)
    ∧ (issues (.ttmask oTMA) (useTMA oTMA) (busyTree (on .vec)) ∧ (startIssue (busyTree (on .vec))).cur.clk < (startIssue (busyTree (on .vec))).core.vec.treeBusy)
    ∧ (issues (.ttpos oTWA) (useTWA oTWA) (busyTree (on .vec)) ∧ (startIssue (busyTree (on .vec))).cur.clk < (startIssue (busyTree (on .vec))).core.vec.treeBusy)
    ∧ (issues (.ttdepth oTWAB) (useTWAB oTWAB) (busyTree (on .vec)) ∧ (startIssue (busyTree (on .vec))).cur.clk < (startIssue (busyTree (on .vec))).core.vec.treeBusy) :=
  by and_intros <;> first | decide +kernel | (unfold guardTrue; decide +kernel)

/-- The widest rates, the lock, the owners and a held sample. -/
theorem wit_AuditWords :
    (meets (.asamp oABP) (useABP oABP) (fun s => s.core.audit.lock = true ∧ s.cur.priv = false) (locked (on .ctl))
    ∧ meets (.ahist oDABP) (useDABP oDABP) (fun _ => True) (regs [(1, 63), (2, 15)] (on .ctl))
    ∧ meets (.astat oDAP) (useDAP oDAP) (fun _ => True) (regs [(1, 15)] (on .ctl))
    ∧ meets (.aforce oAP) (useAP oAP) (fun s => s.core.audit.lock = true ∧ s.cur.priv = false) (locked (on .ctl))
    ∧ meets (.athr oABP) (useABP oABP) (fun s => s.core.audit.lock = true ∧ s.cur.priv = false) (locked (on .ctl))
    ∧ meets (.arel oGP) (useGP oGP) (fun s => s.core.audit.lock = true ∧ s.cur.priv = false) (locked (on .ctl)))
    ∧ (meets (.asamp oABP) (useABP oABP) (fun s => auditOpen s ∧ (rdS s oABP.a).toNat / 2 ^ 37 % 2 ^ 26 = 0 ∧ (rdS s oABP.a).toNat / 2 ^ 32 % 32 ≤ 24) (regs [(1, 0x1800000001)] (on .ctl))
    ∧ meets (.asamp oABP) (useABP oABP) (fun s => auditOpen s ∧ (rdS s oABP.a).toNat / 2 ^ 37 % 2 ^ 26 ≠ 0) (regs [(1, 0x2000000000)] (on .ctl))
    ∧ meets (.asamp oABP) (useABP oABP) (fun s => auditOpen s ∧ (rdS s oABP.a).toNat / 2 ^ 37 % 2 ^ 26 = 0 ∧ 24 < (rdS s oABP.a).toNat / 2 ^ 32 % 32) (regs [(1, 0x1900000000)] (on .ctl))
    ∧ meets (.aown oAP) (useAP oAP) (fun s => auditOpen s ∧ (rdS s oAP.a).toNat < 3 ∧ ((rdS s oAP.a).toNat = 0 ∨ s.cur.priv = true)) (regs [(1, 0)] (on .ctl))
    ∧ meets (.aown oAP) (useAP oAP) (fun s => auditOpen s ∧ (rdS s oAP.a).toNat = 3) (regs [(1, 3)] (on .ctl))
    ∧ meets (.aown oAP) (useAP oAP) (fun s => auditOpen s ∧ ((rdS s oAP.a).toNat = 1 ∨ (rdS s oAP.a).toNat = 2) ∧ s.cur.priv = false) (regs [(1, 2)] (on .ctl))
    ∧ meets (.aforce oAP) (useAP oAP) (fun s => auditOpen s ∧ (rdS s oAP.a).toNat / 2 ^ 6 % 2 ^ 57 = 0) (regs [(1, 0x800000000000003F)] (on .ctl))
    ∧ meets (.arel oGP) (useGP oGP) (fun s => auditOpen s ∧ s.core.audit.sample = none) (on .ctl)
    ∧ meets (.arel oGP) (useGP oGP) (fun s => auditOpen s ∧ s.core.audit.sample ≠ none) (sampled (on .ctl))
    ∧ meets (.amode oAP) (useAP oAP) (fun s => auditOpen s ∧ (256 ≤ (rdS s oAP.a).toNat ∨ (rdS s oAP.a).toNat / 4 % 4 ≠ 0)) (regs [(1, 256)] (on .ctl))
    ∧ meets (.aown oAP) (useAP oAP) (fun s => auditOpen s ∧ 4 ≤ (rdS s oAP.a).toNat) (regs [(1, 4)] (on .ctl))
    ∧ meets (.aforce oAP) (useAP oAP) (fun s => auditOpen s ∧ (rdS s oAP.a).toNat / 2 ^ 6 % 2 ^ 57 ≠ 0) (regs [(1, 0x40)] (on .ctl))
    ∧ meets (.aclr oAP) (useAP oAP) (fun s => auditOpen s ∧ (2 ^ 12 ≤ (rdS s oAP.a).toNat ∨ (rdS s oAP.a).toNat / 64 % 4 ≠ 0)) (regs [(1, 0x1000)] (on .ctl))
    ∧ meets (.athr oABP) (useABP oABP) (fun s => auditOpen s ∧ ((rdS s oABP.a).toNat / 2 ^ 6 % 2 ^ 57 ≠ 0 ∨ 32 ≤ (rdS s oABP.b).toNat)) (regs [(1, 0), (2, 32)] (on .ctl))
    ∧ meets (.aown oAP) (useAP oAP) (fun s => auditOpen s ∧ (rdS s oAP.a).toNat < 3 ∧ s.cur.priv = true) (regs [(1, 2)] (sup (on .ctl)))
    ∧ meets (.athr oABP) (useABP oABP) (fun s => auditOpen s ∧ (rdS s oABP.a).toNat / 2 ^ 6 % 2 ^ 57 = 0 ∧ (rdS s oABP.b).toNat < 32) (regs [(1, 63), (2, 31)] (on .ctl))
    ∧ meets (.athr oABP) (useABP oABP) (fun s => auditOpen s ∧ (rdS s oABP.a).toNat / 2 ^ 6 % 2 ^ 57 = 0 ∧ (rdS s oABP.b).toNat < 32 ∧ (rdS s oABP.a).getLsbD 63 = true) (regs [(1, 0x8000000000000000), (2, 0)] (on .ctl))
    ∧ meets (.amode oAP) (useAP oAP) (fun s => auditOpen s ∧ (rdS s oAP.a).toNat < 256 ∧ (rdS s oAP.a).toNat / 4 % 4 = 0) (regs [(1, 0xF3)] (on .ctl))
    ∧ meets (.aclr oAP) (useAP oAP) (fun s => auditOpen s ∧ (rdS s oAP.a).toNat < 2 ^ 12 ∧ (rdS s oAP.a).toNat / 64 % 4 = 0) (regs [(1, 0xF3F)] (on .ctl))) :=
  ⟨by and_intros <;> first | decide +kernel | (unfold guardTrue; decide +kernel),
   by and_intros <;> first | decide +kernel | (unfold guardTrue; decide +kernel) | (unfold auditOpen; decide +kernel)⟩

/-- Idle and running walks, one of another address space, and groups. -/
theorem wit_ForagerWords :
    meets (.fgstart oABP) (useABP oABP) (fun s => (rdS s oABP.a).toNat < 2 ^ 56 ∧ (rdS s oABP.b).toNat < 2 ^ 58 ∧ (rdS s oABP.a).toNat % 32 = 0 ∧ (walkAt s (dieOf s.core.num * 4 + (rdS s oABP.b).toNat / 2 ^ 32 % 4)).state = .idle ∧ farOutstanding s (BitVec.allOnes 16) = false) (regs [(1, 0x20), (2, 0x3FFFFFFFFFFFFFF)] (on .ctl))
    ∧ meets (.fgstart oABP) (useABP oABP) (fun s => (rdS s oABP.a).toNat < 2 ^ 56 ∧ (rdS s oABP.b).toNat < 2 ^ 58 ∧ (rdS s oABP.a).toNat % 32 ≠ 0) (regs [(1, 0x10)] (on .ctl))
    ∧ meets (.fgstart oABP) (useABP oABP) (fun s => (rdS s oABP.a).toNat < 2 ^ 56 ∧ (rdS s oABP.b).toNat < 2 ^ 58 ∧ (rdS s oABP.a).toNat % 32 = 0 ∧ (walkAt s (dieOf s.core.num * 4 + (rdS s oABP.b).toNat / 2 ^ 32 % 4)).state ≠ .idle) (walking .running none (regs [(1, 0x20)] (on .ctl)))
    ∧ meets (.fgwin oABP) (useABP oABP) (fun s => (rdS s oABP.a).toNat < 12 ∧ (rdS s oABP.b).toNat / 2 ^ 24 % 256 = 0 ∧ walkUnusable s (walkAt s (walkOf s (rdS s oABP.a))) = false) (walkingAt 3 .running none (regs [(1, 11), (2, 0x100FFFFFF)] (on .ctl)))
    ∧ meets (.fgpace oABP) (useABP oABP) (fun s => (rdS s oABP.a).toNat / 128 % 2 = 0 ∧ (rdS s oABP.a).toNat / 4 % 32 = 0 ∧ (rdS s oABP.a).toNat < 2 ^ 11) (regs [(1, 0x703)] (on .ctl))
    ∧ meets (.fgpace oABP) (useABP oABP) (fun s => (rdS s oABP.a).toNat / 128 % 2 = 1 ∧ (rdS s oABP.a).toNat / 4 % 32 = 0 ∧ (rdS s oABP.a).toNat < 2 ^ 11 ∧ (rdS s oABP.a).toNat / 256 ≠ 0 ∧ (rdS s oABP.b).toNat / 2 ^ 32 ≠ 0 ∧ walkUnusable s (walkAt s (walkOf s (rdS s oABP.a))) = false) (walkingAt 3 .running none (regs [(1, 0x783), (2, 0x100000000)] (on .ctl)))
    ∧ meets (.fgmark oABP) (useABP oABP) (fun s => (rdS s oABP.a).toNat < 4 ∧ (rdS s oABP.b).toNat < 2 ^ 29 ∧ walkUnusable s (walkAt s (walkOf s (rdS s oABP.a))) = false) (walkingAt 3 .running none (regs [(1, 3), (2, 0x1FFFFFFF)] (on .ctl)))
    ∧ meets (.fgstart oABP) (useABP oABP) (fun s => 2 ^ 56 ≤ (rdS s oABP.a).toNat ∨ 2 ^ 58 ≤ (rdS s oABP.b).toNat) (regs [(1, 0), (2, 0x400000000000000)] (on .ctl))
    ∧ meets (.fgwin oABP) (useABP oABP) (fun s => 12 ≤ (rdS s oABP.a).toNat ∨ (rdS s oABP.b).toNat / 2 ^ 24 % 256 ≠ 0) (regs [(1, 12)] (on .ctl))
    ∧ meets (.fgpace oABP) (useABP oABP) (fun s => (rdS s oABP.a).toNat / 4 % 32 ≠ 0 ∨ 2 ^ 11 ≤ (rdS s oABP.a).toNat ∨ ((rdS s oABP.a).toNat / 128 % 2 = 1 ∧ ((rdS s oABP.a).toNat / 256 % 8 = 0 ∨ (rdS s oABP.b).toNat / 2 ^ 32 = 0))) (regs [(1, 0x4)] (on .ctl))
    ∧ meets (.fgmark oABP) (useABP oABP) (fun s => 4 ≤ (rdS s oABP.a).toNat ∨ 2 ^ 29 ≤ (rdS s oABP.b).toNat) (regs [(1, 0), (2, 0x20000000)] (on .ctl))
    ∧ meets (.fgwin oABP) (useABP oABP) (fun s => (rdS s oABP.a).toNat < 12 ∧ (rdS s oABP.b).toNat / 2 ^ 24 % 256 = 0 ∧ walkUnusable s (walkAt s (walkOf s (rdS s oABP.a))) = true) (regs [(1, 11), (2, 0)] (on .ctl))
    ∧ meets (.fgpace oABP) (useABP oABP) (fun s => (rdS s oABP.a).toNat / 128 % 2 = 1 ∧ (rdS s oABP.a).toNat / 4 % 32 = 0 ∧ (rdS s oABP.a).toNat < 2 ^ 11 ∧ (rdS s oABP.a).toNat / 256 ≠ 0 ∧ (rdS s oABP.b).toNat / 2 ^ 32 ≠ 0 ∧ walkUnusable s (walkAt s (walkOf s (rdS s oABP.a))) = true) (regs [(1, 0x783), (2, 0x100000000)] (on .ctl))
    ∧ meets (.fgmark oABP) (useABP oABP) (fun s => (rdS s oABP.a).toNat < 4 ∧ (rdS s oABP.b).toNat < 2 ^ 29 ∧ walkUnusable s (walkAt s (walkOf s (rdS s oABP.a))) = true) (walking .running none <| otherSpace (regs [(1, 0)] (on .ctl)))
    ∧ meets (.fgstop oAP) (useAP oAP) (fun s => (rdS s oAP.a).toNat < 4 ∧ foreign s (walkAt s (walkOf s (rdS s oAP.a))) = false) (regs [(1, 0)] (on .ctl))
    ∧ meets (.fgstop oAP) (useAP oAP) (fun s => (rdS s oAP.a).toNat < 4 ∧ foreign s (walkAt s (walkOf s (rdS s oAP.a))) = true) (walking .running none <| otherSpace (regs [(1, 0)] (on .ctl)))
    ∧ meets (.fgmc oAP) (useAP oAP) (fun s => (rdS s oAP.a).toNat < 2 ^ 28 ∧ (rdS s oAP.a).toNat / 4 % 64 = 0 ∧ (rdS s oAP.a).toNat / 256 % 256 = 0 ∧ walkUnusable s (walkAt s (walkOf s (rdS s oAP.a))) = false) (walking .running none (regs [(1, 0xFFF0000)] (on .ctl)))
    ∧ meets (.fgmc oAP) (useAP oAP) (fun s => (rdS s oAP.a).toNat < 2 ^ 28 ∧ (rdS s oAP.a).toNat / 4 % 64 = 0 ∧ (rdS s oAP.a).toNat / 256 % 256 = 1 ∧ (s.members = [] ∨ groupKnown s ((rdS s oAP.a).toNat / 2 ^ 16) = true) ∧ walkUnusable s (walkAt s (walkOf s (rdS s oAP.a))) = false ∧ (rdS s oAP.a).toNat / 2 ^ 16 ∉ (walkAt s (walkOf s (rdS s oAP.a))).members ∧ forageMemberships s (dieOf s.core.num) < 16) (walking .running none (regs [(1, 0xFFF0100)] (on .ctl)))
    ∧ meets (.fgmc oAP) (useAP oAP) (fun s => (rdS s oAP.a).toNat < 2 ^ 28 ∧ (rdS s oAP.a).toNat / 4 % 64 = 0 ∧ (rdS s oAP.a).toNat / 256 % 256 = 1 ∧ (s.members = [] ∨ groupKnown s ((rdS s oAP.a).toNat / 2 ^ 16) = true) ∧ walkUnusable s (walkAt s (walkOf s (rdS s oAP.a))) = false ∧ (rdS s oAP.a).toNat / 2 ^ 16 ∈ (walkAt s (walkOf s (rdS s oAP.a))).members) (joined [2] (regs [(1, 0x20100)] (on .ctl)))
    ∧ meets (.fgstop oAP) (useAP oAP) (fun s => 4 ≤ (rdS s oAP.a).toNat) (regs [(1, 4)] (on .ctl))
    ∧ meets (.fgmc oAP) (useAP oAP) (fun s => 2 ^ 28 ≤ (rdS s oAP.a).toNat ∨ (rdS s oAP.a).toNat / 4 % 64 ≠ 0 ∨ (rdS s oAP.a).toNat / 512 % 128 ≠ 0) (regs [(1, 0x10000000)] (on .ctl))
    ∧ meets (.fgmc oAP) (useAP oAP) (fun s => (rdS s oAP.a).toNat < 2 ^ 28 ∧ (rdS s oAP.a).toNat / 4 % 64 = 0 ∧ (rdS s oAP.a).toNat / 512 % 128 = 0 ∧ walkUnusable s (walkAt s (walkOf s (rdS s oAP.a))) = true) (regs [(1, 0x100)] (on .ctl))
    ∧ meets (.fgmc oAP) (useAP oAP) (fun s => (rdS s oAP.a).toNat < 2 ^ 28 ∧ (rdS s oAP.a).toNat / 4 % 64 = 0 ∧ (rdS s oAP.a).toNat / 512 % 128 = 0 ∧ (rdS s oAP.a).toNat / 256 % 2 = 1 ∧ walkUnusable s (walkAt s (walkOf s (rdS s oAP.a))) = false ∧ (groupKnown s ((rdS s oAP.a).toNat / 2 ^ 16) = false ∨ ((rdS s oAP.a).toNat / 2 ^ 16 ∉ (walkAt s (walkOf s (rdS s oAP.a))).members ∧ 16 ≤ forageMemberships s (dieOf s.core.num)))) (joined (List.range 16) (regs [(1, 0x200100)] (on .ctl)))
    ∧ meets (.fgstat oDAP) (useDAP oDAP) (fun _ => True) (regs [(1, 0x53)] (on .ctl))
    ∧ meets (.fglate oDAP) (useDAP oDAP) (fun s => (rdS s oDAP.a).toNat / 4 % 4 = 3 ∨ ownedHere s (walkAt s (walkOf s (rdS s oDAP.a))) = false) (regs [(1, 0xC)] (on .ctl))
    ∧ meets (.fglate oDAP) (useDAP oDAP) (fun s => (rdS s oDAP.a).toNat / 4 % 4 ≠ 3 ∧ ownedHere s (walkAt s (walkOf s (rdS s oDAP.a))) = true ∧ (rdS s oDAP.a).getLsbD 8 = false) (walking .running none (regs [(1, 8)] (on .ctl)))
    ∧ meets (.fglate oDAP) (useDAP oDAP) (fun s => (rdS s oDAP.a).toNat / 4 % 4 ≠ 3 ∧ ownedHere s (walkAt s (walkOf s (rdS s oDAP.a))) = true ∧ (rdS s oDAP.a).getLsbD 8 = true) (walking .running none (regs [(1, 0x108)] (on .ctl)))
    ∧ (let u := overdue (regs [(1, 0x20), (2, 0)] (on .ctl)); issues (.fgstart oABP) (useABP oABP) u ∧ (rdS (startIssue u) oABP.a).toNat < 2 ^ 56 ∧ (rdS (startIssue u) oABP.b).toNat < 2 ^ 58 ∧ (rdS (startIssue u) oABP.a).toNat % 32 = 0
      ∧ (walkAt u (dieOf u.core.num * 4 + (rdS (startIssue u) oABP.b).toNat / 2 ^ 32 % 4)).state = .idle ∧ farHeld (BitVec.allOnes 16) (startIssue u) = true)
    ∧ (let s := walking .running none (on .ctl); (walkAt s (walkOf s 0)).state ≠ .idle ∧ (walkAt s (walkOf s 0)).asid = s.core.asid) :=
  by and_intros <;> first | decide +kernel | (unfold guardTrue; decide +kernel)

/-- A launch that is queued and one that is refused, records for a running and an ending job, an inbox with and without a record, a batch, and ends of tasks. -/
theorem wit_LaunchWords :
    meets (.launch oDABP) (useDABP oDABP) (fun s => (cellsTrap s ((rdS s oDABP.a).toNat % 2 ^ 22) 1 true).isNone = true ∧ farHeld (BitVec.allOnes 16) s = false ∧ launchStatus s ((rdS s oDABP.b).toNat % 64) (BitVec.ofNat 512 (spadNum (s.viewed 0) ((rdS s oDABP.a).toNat % 2 ^ 22) 64)) ≠ 0) (regs [(1, 0x3FFFC0), (2, 0)] (on .ctl))
    ∧ meets (.launch oDABP) (useDABP oDABP) (fun s => (cellsTrap s ((rdS s oDABP.a).toNat % 2 ^ 22) 1 true).isNone = true ∧ farHeld (BitVec.allOnes 16) s = false ∧ launchStatus s ((rdS s oDABP.b).toNat % 64) (BitVec.ofNat 512 (spadNum (s.viewed 0) ((rdS s oDABP.a).toNat % 2 ^ 22) 64)) = 0) (openQueue (regs [(1, 0x3FFFC0), (2, 0)] (sup (on .ctl))))
    ∧ meets (.launch oDABP) (useDABP oDABP) (fun s => (rdS s oDABP.a).toNat % 64 ≠ 0) (regs [(1, 4)] (on .ctl))
    ∧ meets (.post oDABP) (useDABP oDABP) (fun s => 0 < (rdS s oDABP.b).toNat ∧ (rdS s oDABP.b).toNat ≤ 8 ∧ (cellsTrap s ((rdS s oDABP.a).toNat % 2 ^ 22) (rdS s oDABP.b).toNat true).isNone = true ∧ farHeld (BitVec.allOnes 16) s = false
      ∧ ((ownJob s).map fun p => p.1.state) = some .ending ∧ ∀ i, i < (rdS s oDABP.b).toNat → recordMalformed (BitVec.ofNat 512 (spadNum (s.viewed 0) ((rdS s oDABP.a).toNat % 2 ^ 22 + 64 * i) 64)) 1 = false) (placed .ending (regs [(1, 0x3FFE00), (2, 8)] (on .ctl)))
    ∧ meets (.post oDABP) (useDABP oDABP) (fun s => (rdS s oDABP.b).toNat = 0 ∨ 8 < (rdS s oDABP.b).toNat) (regs [(2, 9)] (on .ctl))
    ∧ meets (.swtake oDABP) (useDABP oDABP) (fun s => (rdS s oDABP.a).toNat / 2 ^ 22 % 2 ^ 26 = 0 ∧ (rdS s oDABP.a).toNat < 2 ^ 52 ∧ (rdS s oDABP.b).toNat < 2 ^ 32 ∧ (cellsTrap s ((rdS s oDABP.a).toNat % 2 ^ 22) 1 false).isNone = true
      ∧ (swarmAt s ((rdS s oDABP.a).toNat / 2 ^ 48 % 16)).en = true ∧ ((ownJob s).map fun p => pktTenant p.1.packet) = some (swarmAt s ((rdS s oDABP.a).toNat / 2 ^ 48 % 16)).tenant.toNat
      ∧ (swarmAt s ((rdS s oDABP.a).toNat / 2 ^ 48 % 16)).emitted ≠ []) (batched <| placed .running (regs [(1, 0x3FFFC0)] (on .ctl)))
    ∧ meets (.launch oDABP) (useDABP oDABP) (fun s => trapKind (cellsTrap s ((rdS s oDABP.a).toNat % 2 ^ 22) 1 true) = some (false, (mkTrap 0x05 0 0x3FFFC0))) (poisonTag (regs [(1, 0x3FFFC0)] (on .ctl)))
    ∧ meets (.launch oDABP) (useDABP oDABP) (fun s => trapKind (cellsTrap s ((rdS s oDABP.a).toNat % 2 ^ 22) 1 true) = some (true, (mkTrap 0x05 1 0x3FFFC0))) (badLine (regs [(1, 0x3FFFC0)] (on .ctl)))
    ∧ meets (.post oDABP) (useDABP oDABP) (fun s => 0 < (rdS s oDABP.b).toNat ∧ (rdS s oDABP.b).toNat ≤ 8 ∧ trapKind (cellsTrap s ((rdS s oDABP.a).toNat % 2 ^ 22) (rdS s oDABP.b).toNat true) = some (false, (mkTrap 0x03 0 4))) (regs [(1, 4), (2, 8)] (on .ctl))
    ∧ meets (.post oDABP) (useDABP oDABP) (fun s => 0 < (rdS s oDABP.b).toNat ∧ (rdS s oDABP.b).toNat ≤ 8 ∧ trapKind (cellsTrap s ((rdS s oDABP.a).toNat % 2 ^ 22) (rdS s oDABP.b).toNat true) = some (true, (mkTrap 0x05 1 0x3FFFC0))) (badLine (regs [(1, 0x3FFE00), (2, 8)] (on .ctl)))
    ∧ meets (.post oDABP) (useDABP oDABP) (fun s => 0 < (rdS s oDABP.b).toNat ∧ (rdS s oDABP.b).toNat ≤ 8 ∧ (cellsTrap s ((rdS s oDABP.a).toNat % 2 ^ 22) (rdS s oDABP.b).toNat true).isNone = true ∧ (ownJob s).isNone = true) (regs [(1, 0x3FFFC0), (2, 1)] (on .ctl))
    ∧ meets (.swtake oDABP) (useDABP oDABP) (fun s => (rdS s oDABP.a).toNat / 2 ^ 22 % 2 ^ 26 ≠ 0 ∨ 2 ^ 52 ≤ (rdS s oDABP.a).toNat ∨ (rdS s oDABP.b).toNat / 2 ^ 32 % 2 ^ 31 ≠ 0) (regs [(1, 0), (2, 0x100000000)] (on .ctl))
    ∧ meets (.swtake oDABP) (useDABP oDABP) (fun s => (rdS s oDABP.a).toNat / 2 ^ 22 % 2 ^ 26 = 0 ∧ (rdS s oDABP.a).toNat < 2 ^ 52 ∧ (rdS s oDABP.b).toNat / 2 ^ 32 % 2 ^ 31 = 0 ∧ trapKind (cellsTrap s ((rdS s oDABP.a).toNat % 2 ^ 22) 1 false) = some (false, (mkTrap 0x03 0 4))) (regs [(1, 4)] (on .ctl))
    ∧ meets (.swtake oDABP) (useDABP oDABP) (fun s => (rdS s oDABP.a).toNat / 2 ^ 22 % 2 ^ 26 = 0 ∧ (rdS s oDABP.a).toNat < 2 ^ 52 ∧ (rdS s oDABP.b).toNat / 2 ^ 32 % 2 ^ 31 = 0 ∧ (cellsTrap s ((rdS s oDABP.a).toNat % 2 ^ 22) 1 false).isNone = true ∧ (swarmAt s ((rdS s oDABP.a).toNat / 2 ^ 48 % 16)).en = false) (regs [(1, 0x3FFFC0)] (on .ctl))
    ∧ meets (.swtake oDABP) (useDABP oDABP) (fun s => (rdS s oDABP.a).toNat / 2 ^ 22 % 2 ^ 26 = 0 ∧ (rdS s oDABP.a).toNat < 2 ^ 52 ∧ (rdS s oDABP.b).toNat / 2 ^ 32 % 2 ^ 31 = 0 ∧ (cellsTrap s ((rdS s oDABP.a).toNat % 2 ^ 22) 1 false).isNone = true
      ∧ (swarmAt s ((rdS s oDABP.a).toNat / 2 ^ 48 % 16)).en = true ∧ ((ownJob s).map fun p => pktTenant p.1.packet) = some (swarmAt s ((rdS s oDABP.a).toNat / 2 ^ 48 % 16)).tenant.toNat
      ∧ (takeBatch ((rdS s oDABP.a).toNat / 2 ^ 48 % 16) ((rdS s oDABP.a).toNat % 2 ^ 22) (if (rdS s oDABP.b).getLsbD 63 then freeSlot ((rdS s oDABP.a).toNat / 2 ^ 48 % 16) ((rdS s oDABP.b).setWidth 32) s else s)).isSome = true) (batched <| placed .running (regs [(1, 0x3FFFC0), (2, 0x8000000000000000)] (on .ctl)))
    ∧ meets (.swtake oDABP) (useDABP oDABP) (fun s => (rdS s oDABP.a).toNat / 2 ^ 22 % 2 ^ 26 = 0 ∧ (rdS s oDABP.a).toNat < 2 ^ 52 ∧ (rdS s oDABP.b).toNat / 2 ^ 32 % 2 ^ 31 = 0 ∧ (cellsTrap s ((rdS s oDABP.a).toNat % 2 ^ 22) 1 false).isNone = true
      ∧ (swarmAt s ((rdS s oDABP.a).toNat / 2 ^ 48 % 16)).en = true ∧ ((ownJob s).map fun p => pktTenant p.1.packet) = some (swarmAt s ((rdS s oDABP.a).toNat / 2 ^ 48 % 16)).tenant.toNat
      ∧ (takeBatch ((rdS s oDABP.a).toNat / 2 ^ 48 % 16) ((rdS s oDABP.a).toNat % 2 ^ 22) (if (rdS s oDABP.b).getLsbD 63 then freeSlot ((rdS s oDABP.a).toNat / 2 ^ 48 % 16) ((rdS s oDABP.b).setWidth 32) s else s)).isNone = true) (filled 0 <| placed .running (regs [(1, 0x3FFFC0)] (on .ctl)))
    ∧ meets (.take oDAP) (useDAP oDAP) (fun s => (cellsTrap s ((rdS s oDAP.a).toNat % 2 ^ 22) 1 false).isNone = true ∧ s.core.taskEnds = false ∧ s.core.inbox ≠ []) (inboxed (regs [(1, 0x3FFFC0)] (on .ctl)))
    ∧ meets (.take oDAP) (useDAP oDAP) (fun s => (cellsTrap s ((rdS s oDAP.a).toNat % 2 ^ 22) 1 false).isNone = true ∧ s.core.taskEnds = false ∧ s.core.inbox = [] ∧ boundaryPending s = false) (regs [(1, 0x3FFFC0)] (on .ctl))
    ∧ meets (.take oDAP) (useDAP oDAP) (fun s => (cellsTrap s ((rdS s oDAP.a).toNat % 2 ^ 22) 1 false).isNone = true ∧ s.core.taskEnds = true ∧ taskQuiet s = true ∧ awaitingStreams s = []) (endsTask <| placed .running (regs [(1, 0x3FFFC0)] (on .ctl)))
    ∧ meets (.take oDAP) (useDAP oDAP) (fun s => trapKind (cellsTrap s ((rdS s oDAP.a).toNat % 2 ^ 22) 1 false) = some (false, (mkTrap 0x02 0 0x3FFFC0))) (region (regs [(1, 0x3FFFC0)] (on .ctl)))
    ∧ meets (.coord oDAP) (useDAP oDAP) (fun _ => True) (regs [(1, 7)] (on .ctl))
    ∧ meets (.stgq oDAP) (useDAP oDAP) (fun _ => True) (regs [(1, 15)] (on .ctl))
    ∧ meets (.yieldJob oAP) (useAP oAP) (fun s => rdS s oAP.a = 0 ∧ boundaryPending s = false) (regs [(1, 0)] (on .ctl))
    ∧ meets (.yieldJob oAP) (useAP oAP) (fun s => (rdS s oAP.a = 1 ∨ (rdS s oAP.a = 0 ∧ boundaryPending s = true)) ∧ taskQuiet s = true ∧ awaitingStreams s = []) (placed .running (regs [(1, 1)] (on .ctl)))
    ∧ meets (.yieldJob oAP) (useAP oAP) (fun s => 2 ≤ (rdS s oAP.a).toNat) (regs [(1, 2)] (on .ctl))
    ∧ meets (.doneJob oAP) (useAP oAP) (fun s => (rdS s oAP.a).toNat < 2 ^ 32 ∧ (ownJob s).isNone = true ∧ taskQuiet s = true ∧ awaitingStreams s = []) (regs [(1, 0xFFFFFFFF)] (on .ctl))
    ∧ meets (.doneJob oAP) (useAP oAP) (fun s => 2 ^ 32 ≤ (rdS s oAP.a).toNat) (regs [(1, 0x100000000)] (on .ctl))
    ∧ meets (.swcfg oAP) (useAP oAP) (fun s => (cellsTrap s ((rdS s oAP.a).toNat % 2 ^ 22) 1 true).isNone = true ∧ swarmMalformed (BitVec.ofNat 512 (spadNum (s.viewed 0) ((rdS s oAP.a).toNat % 2 ^ 22) 64)) = false) (regs [(1, 0x3FFFC0)] (sup (on .ctl)))
    ∧ meets (.swcfg oAP) (useAP oAP) (fun s => (cellsTrap s ((rdS s oAP.a).toNat % 2 ^ 22) 1 true).isNone = true ∧ swarmMalformed (BitVec.ofNat 512 (spadNum (s.viewed 0) ((rdS s oAP.a).toNat % 2 ^ 22) 64)) = true) (badSwarm (regs [(1, 0)] (sup (on .ctl))))
    ∧ meets (.swcfg oAP) (useAP oAP) (fun s => trapKind (cellsTrap s ((rdS s oAP.a).toNat % 2 ^ 22) 1 true) = some (false, (mkTrap 0x03 0 4))) (regs [(1, 4)] (sup (on .ctl)))
    ∧ meets (.swcfg oAP) (useAP oAP) (fun s => trapKind (cellsTrap s ((rdS s oAP.a).toNat % 2 ^ 22) 1 true) = some (true, (mkTrap 0x05 1 0x3FFFC0))) (badLine (regs [(1, 0x3FFFC0)] (sup (on .ctl))))
    ∧ (let u := overdue (regs [(1, 0x3FFFC0), (2, 0)] (on .ctl)); issues (.launch oDABP) (useDABP oDABP) u ∧ (cellsTrap (startIssue u) ((rdS (startIssue u) oDABP.a).toNat % 2 ^ 22) 1 true).isNone = true ∧ farHeld (BitVec.allOnes 16) (startIssue u) = true)
    ∧ (let u := overdue (regs [(1, 0), (2, 1)] (placed .running (on .ctl))); issues (.post oDABP) (useDABP oDABP) u ∧ (rdS (startIssue u) oDABP.b).toNat = 1 ∧ (cellsTrap (startIssue u) ((rdS (startIssue u) oDABP.a).toNat % 2 ^ 22) 1 true).isNone = true ∧ farHeld (BitVec.allOnes 16) (startIssue u) = true
      ∧ (ownJob (startIssue u)).isSome = true ∧ ((ownJob (startIssue u)).all fun p => !recordMalformed (BitVec.ofNat 512 (spadNum ((startIssue u).viewed 0) ((rdS (startIssue u) oDABP.a).toNat % 2 ^ 22) 64)) p.1.stages.length) = true)
    ∧ meets (.post oDABP) (useDABP oDABP) (fun s => (rdS s oDABP.b).toNat = 1 ∧ (cellsTrap s ((rdS s oDABP.a).toNat % 2 ^ 22) 1 true).isNone = true ∧ farHeld (BitVec.allOnes 16) s = false ∧ ((ownJob s).map fun p => p.1.state) = some .running ∧ recordMalformed (BitVec.ofNat 512 (spadNum (s.viewed 0) ((rdS s oDABP.a).toNat % 2 ^ 22) 64)) 1 = false
      ∧ (((jobAt s 1).bind fun x => x.stages[0]?).map (·.inq)) = some 4 ∧ stageOccupancy s 1 0 < 4) (placed .running (regs [(1, 0), (2, 1)] (on .ctl)))
    ∧ meets (.doneJob oAP) (useAP oAP) (fun s => (rdS s oAP.a).toNat < 2 ^ 32 ∧ ((ownJob s).map fun p => p.1.state) = some .running) (placed .running (regs [(1, 0xFFFFFFFF)] (on .ctl)))
    ∧ meets (.doneJob oAP) (useAP oAP) (fun s => (rdS s oAP.a).toNat < 2 ^ 32 ∧ ((ownJob s).map fun p => p.1.state) = some .ending ∧ taskQuiet s = true ∧ awaitingStreams s = []) (placed .ending (regs [(1, 0)] (on .ctl)))
    ∧ (let s := endsTask (engine [cmdAt .queued] [] (on .ctl)); issues (.take oDAP) (useDAP oDAP) s ∧ (cellsTrap (startIssue s) ((rdS (startIssue s) oDAP.a).toNat % 2 ^ 22) 1 false).isNone = true ∧ (startIssue s).core.taskEnds = true ∧ taskQuiet (startIssue s) = false)
    ∧ (let s := engine [cmdAt .queued] [] (regs [(1, 1)] (on .ctl)); issues (.yieldJob oAP) (useAP oAP) s ∧ rdS (startIssue s) oAP.a = 1 ∧ taskQuiet (startIssue s) = false)
    ∧ (let s := engine [cmdAt .queued] [] (placed .ending (on .ctl)); issues (.doneJob oAP) (useAP oAP) s ∧ (rdS (startIssue s) oAP.a).toNat < 2 ^ 32 ∧ ((ownJob (startIssue s)).map fun p => p.1.state) = some .ending ∧ taskQuiet (startIssue s) = false)
    ∧ (let s := region (on .ctl); (64 : Nat) % 64 = 0 ∧ s.cur.priv = false ∧ touchesSr s.core 64 (64 * 1) = true)
    ∧ (let s := on .ctl; (64 : Nat) % 64 = 0 ∧ touchesSr s.core 64 (64 * 1) = false) :=
  by and_intros <;> first | decide +kernel | (unfold guardTrue; decide +kernel)

/-- The copy area at the end of the scratchpad and one in memory, areas that are malformed, misaligned, too far or out of reach, entries, masks, streams that cannot be parked yet, and windows. -/
theorem wit_ContextWords :
    (meets (.ctxload oABP) (useABP oABP) (fun s => 4 ≤ (rdS s oABP.b).toNat ∨ contextReserved (rdS s oABP.a) = true) (regs [(1, 0), (2, 4)] (sup (on .ctl)))
    ∧ meets (.ctxsave oABP) (useABP oABP) (fun s => (rdS s oABP.b).toNat < 4 ∧ contextReserved (rdS s oABP.a) = false ∧ (rdS s oABP.a).toNat % 64 ≠ 0) (regs [(1, 0x8000000000000004), (2, 0)] (sup (on .ctl)))
    ∧ meets (.ctxload oABP) (useABP oABP) (fun s => (rdS s oABP.b).toNat = secNum Sec.copy ∧ contextReserved (rdS s oABP.a) = false ∧ (rdS s oABP.a).toNat % 64 = 0 ∧ Sec.copy ≠ .ctl ∧ (s.str Sec.copy).parked = none) (running .copy (regs [(1, 0x8000000000000000), (2, 1)] (sup (on .ctl))))
    ∧ meets (.ctxsave oABP) (useABP oABP) (fun s => (rdS s oABP.b).toNat = secNum Sec.ctl ∧ contextReserved (rdS s oABP.a) = false ∧ (rdS s oABP.a).toNat % 64 = 0 ∧ (Sec.ctl = .ctl ∨ (s.str Sec.ctl).parked.isSome = true) ∧ (rdS s oABP.a).getLsbD 63 = true ∧ 2 ^ 22 < (rdS s oABP.a).toNat % 2 ^ 22 + areaSize Sec.ctl) (regs [(1, 0x80000000003FF800), (2, 0)] (sup (on .ctl)))
    ∧ meets (.semmap oABP) (useABP oABP) (fun s => (rdS s oABP.a).toNat < 256 ∧ semEntryMalformed (rdS s oABP.b) = false) (regs [(1, 255), (2, 0x8000003F)] (sup (on .ctl)))
    ∧ meets (.semmap oABP) (useABP oABP) (fun s => (rdS s oABP.a).toNat < 256 ∧ semEntryMalformed (rdS s oABP.b) = true) (regs [(1, 0), (2, 0x80000040)] (sup (on .ctl)))
    ∧ meets (.semmap oABP) (useABP oABP) (fun s => 256 ≤ (rdS s oABP.a).toNat) (regs [(1, 256), (2, 0)] (sup (on .ctl)))
    ∧ meets (.tlbinv oABP) (useABP oABP) (fun s => (rdS s oABP.b).toNat % 4 ≠ 3 ∧ (rdS s oABP.b).toNat / 4 % 4 < 2 ∧ (rdS s oABP.b).toNat / 16 % 2 ^ 12 = 0 ∧ (rdS s oABP.b).toNat < 2 ^ 32 ∧ farHeld (BitVec.allOnes 16) s = false ∧ ∀ c ∈ (if (rdS s oABP.b).getLsbD 2 then s.core :: s.others else [s.core]), stillTranslating s c = false) (regs [(2, 0xFFFF0006)] (sup (on .ctl)))
    ∧ meets (.tlbinv oABP) (useABP oABP) (fun s => (rdS s oABP.b).toNat % 4 = 3 ∨ 2 ≤ (rdS s oABP.b).toNat / 4 % 4 ∨ (rdS s oABP.b).toNat / 16 % 2 ^ 12 ≠ 0 ∨ 2 ^ 32 ≤ (rdS s oABP.b).toNat) (regs [(2, 3)] (sup (on .ctl)))
    ∧ meets (.hint oABP) (useABP oABP) (fun s => (rdS s oABP.b).toNat % 16 ≠ 1 ∧ (rdS s oABP.b).toNat % 16 ≠ 2) (regs [(2, 0)] (on .ctl))
    ∧ meets (.hint oABP) (useABP oABP) (fun s => (rdS s oABP.b).toNat % 16 = 1 ∨ (rdS s oABP.b).toNat % 16 = 2) (regs [(1, 0x10000), (2, 2)] (on .ctl))
    ∧ meets (.tlbprobe oDABP) (useDABP oDABP) (fun s => (rdS s oDABP.b).toNat < 2 ^ 16) (regs [(1, 0x100000000000000), (2, 0xFFFF)] (sup (on .ctl)))
    ∧ meets (.tlbprobe oDABP) (useDABP oDABP) (fun s => 2 ^ 16 ≤ (rdS s oDABP.b).toNat) (regs [(2, 0x10000)] (sup (on .ctl)))
    ∧ meets (.preempt oAP) (useAP oAP) (fun s => (rdS s oAP.a).toNat % 2 = 0 ∧ (rdS s oAP.a).toNat < 512 ∧ (rdS s oAP.a).toNat / 16 % 16 = 0 ∧ (rdS s oAP.a).getLsbD 8 = true) (regs [(1, 0x10E)] (sup (on .ctl)))
    ∧ meets (.preempt oAP) (useAP oAP) (fun s => (rdS s oAP.a).toNat % 2 = 1 ∨ (rdS s oAP.a).toNat / 16 % 16 ≠ 0 ∨ 1024 ≤ (rdS s oAP.a).toNat) (regs [(1, 1)] (sup (on .ctl)))
    ∧ meets (.preempt oAP) (useAP oAP) (fun s => (rdS s oAP.a).toNat % 2 = 0 ∧ (rdS s oAP.a).toNat / 16 % 16 = 0 ∧ (rdS s oAP.a).toNat < 1024 ∧ (rdS s oAP.a).getLsbD 9 = true ∧ ((rdS s oAP.a).getLsbD 8 = true ∨ (rdS s oAP.a).toNat / 2 % 8 ≠ 7)) (regs [(1, 0x202)] (sup (on .ctl)))
    ∧ meets (.preempt oAP) (useAP oAP) (fun s => ((rdS s oAP.a).toNat % 2 = 0 ∧ (rdS s oAP.a).toNat < 16) ∧ ∃ t ∈ maskSecs (rdS s oAP.a), (s.str t).parked = none ∧ (remoteOf s t).isSome = true) (waits .copy (.remote (away true none) none) <| running .copy (regs [(1, 2)] (sup (on .ctl))))
    ∧ meets (.halt oAP) (useAP oAP) (fun s => 16 ≤ (rdS s oAP.a).toNat) (regs [(1, 16)] (sup (on .ctl)))
    ∧ meets (.wflush oAP) (useAP oAP) (fun s => 4 ≤ (rdS s oAP.a).toNat) (regs [(1, 4)] (sup (on .ctl)))
    ∧ meets (.wflush oAP) (useAP oAP) (fun s => (rdS s oAP.a).toNat = secNum Sec.copy ∧ Sec.copy ≠ .ctl ∧ (s.str Sec.copy).parked = none) (running .copy (regs [(1, 1)] (sup (on .ctl))))
    ∧ meets (.wflush oAP) (useAP oAP) (fun s => (rdS s oAP.a).toNat = secNum .ctl ∧ ((flushGroups (s.str .ctl).job).find? fun p => decide ((s.str .ctl).spl.toNat * 64 < (s.str .ctl).spb.toNat * 64 + 64 * p.2 + 64)).isSome = true) ((sup ∘ deepAt 1) (on .ctl))
    ∧ (let s := overdue (regs [(2, 0xFFFF0006)] (sup (on .ctl))); issues (.tlbinv oABP) (useABP oABP) s ∧ rdS (startIssue s) oABP.b = 0xFFFF0006 ∧ farHeld (BitVec.allOnes 16) (startIssue s) = true)
    ∧ meets (.wflush oAP) (useAP oAP) (fun s => rdS s oAP.a = 0 ∧ ∀ p ∈ flushGroups (s.str .ctl).job, (s.str .ctl).spb.toNat * 64 + 64 * p.2 + 64 ≤ (s.str .ctl).spl.toNat * 64) ((sup ∘ atDepth 1) (on .ctl)))
    ∧ (meets (.ctxsave oABP) (useABP oABP) (fun s => contextOk s (rdS s oABP.a) (rdS s oABP.b) Sec.copy ∧ (rdS s oABP.a).getLsbD 63 = true ∧ contextReady s Sec.copy = true) (parkedAt .copy (regs [(1, 0x80000000003FCD00), (2, 1)] (sup (on .ctl))))
    ∧ meets (.preempt oAP) (useAP oAP) (fun s => (rdS s oAP.a).toNat % 2 = 0 ∧ (rdS s oAP.a).toNat < 16 ∧ mayPark s (maskSecs (rdS s oAP.a))) (regs [(1, 0xE)] (sup (on .ctl)))
    ∧ meets (.preempt oAP) (useAP oAP) (fun s => rdS s oAP.a = 0x20E ∧ mayPark s (maskSecs (rdS s oAP.a)) ∧ taskQuiet (leavesSupervisor ((maskSecs (rdS s oAP.a)).foldl parkStream s)) = true ∧ awaitingStreams (leavesSupervisor ((maskSecs (rdS s oAP.a)).foldl parkStream s)) = []) (regs [(1, 0x20E)] (sup (on .ctl)))
    ∧ meets (.preempt oAP) (useAP oAP) (fun s => rdS s oAP.a = 0x20E ∧ mayPark s (maskSecs (rdS s oAP.a)) ∧ taskQuiet (leavesSupervisor ((maskSecs (rdS s oAP.a)).foldl parkStream s)) = false) (engine [cmdAt .queued] [] (regs [(1, 0x20E)] (sup (on .ctl))))
    ∧ meets (.halt oAP) (useAP oAP) (fun s => (rdS s oAP.a).toNat < 16 ∧ mayPark s (maskSecs (rdS s oAP.a)) ∧ ((rdS s oAP.a).getLsbD 0 = false ∨ spend ((maskSecs (rdS s oAP.a)).foldl parkStream s) ≠ 0)) (pending (regs [(1, 1)] (sup (on .ctl))))
    ∧ meets (.halt oAP) (useAP oAP) (fun s => (rdS s oAP.a).toNat < 16 ∧ mayPark s (maskSecs (rdS s oAP.a)) ∧ (rdS s oAP.a).getLsbD 0 = true ∧ spend ((maskSecs (rdS s oAP.a)).foldl parkStream s) = 0) (regs [(1, 1)] (sup (on .ctl)))
    ∧ meets (.preempt oAP) (useAP oAP) (fun s => rdS s oAP.a = 0x20E ∧ parksAtTurn s (maskSecs (rdS s oAP.a))) (waits .copy (.sleep 9) <| running .copy (regs [(1, 0x20E)] (sup (on .ctl))))
    ∧ (let s := elsewhere (regs [(1, 0x40), (2, 0)] (sup (on .ctl))); issues (.ctxload oABP) (useABP oABP) s ∧ issues (.ctxsave oABP) (useABP oABP) s
      ∧ contextOk (startIssue s) (rdS (startIssue s) oABP.a) (rdS (startIssue s) oABP.b) .ctl ∧ (rdS (startIssue s) oABP.a).getLsbD 63 = false ∧ contextReady (startIssue s) .ctl = true
      ∧ (match areaCells true 0x40 33 (startIssue s) with | (s1, .ok l) => (tagSent 0 (.context s.core.num) (putCells (contextOf .ctl (startIssue s)) l) s1).awaits (.context s.core.num) | (_, .error _) => false) = true)
    ∧ (let s := poisonTag (regs [(1, 0x80000000003FF7C0), (2, 0)] (sup (on .ctl))); issues (.ctxload oABP) (useABP oABP) s ∧ issues (.ctxsave oABP) (useABP oABP) s
      ∧ contextOk (startIssue s) (rdS (startIssue s) oABP.a) (rdS (startIssue s) oABP.b) .ctl ∧ (rdS (startIssue s) oABP.a).getLsbD 63 = true ∧ contextReady (startIssue s) .ctl = true
      ∧ (match readSpadArea ((startIssue s).viewed 0) 0x3FF7C0 33 with | .error r => decide (r.cause ≠ 0x05 ∨ spadIsBad (startIssue s).core r.addr.toNat = false) | .ok _ => false) = true)
    ∧ (let s := mapped (regs [(1, 0x40), (2, 0)] (sup (on .ctl))); issues (.ctxload oABP) (useABP oABP) s ∧ issues (.ctxsave oABP) (useABP oABP) s
      ∧ contextOk (startIssue s) (rdS (startIssue s) oABP.a) (rdS (startIssue s) oABP.b) .ctl ∧ (rdS (startIssue s) oABP.a).getLsbD 63 = false ∧ contextReady (startIssue s) .ctl = true
      ∧ (areaCells true 0x40 33 (startIssue s)).2.toOption.isSome = true
      ∧ ((areaCells false 0x40 33 (startIssue s)).2.toOption.all fun l => decide ((readCells (areaCells false 0x40 33 (startIssue s)).1 0x40 l).toOption = some 0) && areaMalformed .ctl 0) = true)
    ∧ (let s := regs [(1, 0x40), (2, 0)] (sup (on .ctl)); issues (.ctxload oABP) (useABP oABP) s ∧ issues (.ctxsave oABP) (useABP oABP) s
      ∧ contextOk (startIssue s) (rdS (startIssue s) oABP.a) (rdS (startIssue s) oABP.b) .ctl ∧ (rdS (startIssue s) oABP.a).getLsbD 63 = false ∧ contextReady (startIssue s) .ctl = true
      ∧ (areaCells true 0x40 33 (startIssue s)).2.toOption.isNone = true ∧ (areaCells false 0x40 33 (startIssue s)).2.toOption.isNone = true)
    ∧ (let s := engine [cmdAt .queued] [] (parkedAt .copy (regs [(1, 0x8000000000000000), (2, 1)] (sup (on .ctl)))); issues (.ctxload oABP) (useABP oABP) s ∧ issues (.ctxsave oABP) (useABP oABP) s
      ∧ contextOk (startIssue s) (rdS (startIssue s) oABP.a) (rdS (startIssue s) oABP.b) .copy ∧ contextReady (startIssue s) .copy = false)
    ∧ (let s := defers .copy (running .copy (regs [(1, 0x20E)] (sup (on .ctl)))); issues (.preempt oAP) (useAP oAP) s ∧ rdS (startIssue s) oAP.a = 0x20E
      ∧ parkHolds (startIssue s) (maskSecs (rdS (startIssue s) oAP.a))))
    ∧ (let s := areaAt0 (regs [(1, 0x8000000000000000), (2, 1)] (sup (on .ctl))); issues (.ctxload oABP) (useABP oABP) s ∧ issues (.ctxsave oABP) (useABP oABP) s
      ∧ contextOk (startIssue s) (rdS (startIssue s) oABP.a) (rdS (startIssue s) oABP.b) .copy ∧ rdS (startIssue s) oABP.a = 0x8000000000000000 ∧ contextReady (startIssue s) .copy = true
      ∧ readSpadArea ((startIssue s).viewed 0) 0 (areaSize .copy / 64) = .ok areaNum ∧ areaMalformed .copy areaNum = false)
    ∧ (let s := parkedAt .copy (regs [(1, 0x8000000000000000), (2, 1)] (sup (on .ctl))); issues (.ctxload oABP) (useABP oABP) s ∧ issues (.ctxsave oABP) (useABP oABP) s
      ∧ contextOk (startIssue s) (rdS (startIssue s) oABP.a) (rdS (startIssue s) oABP.b) .copy ∧ rdS (startIssue s) oABP.a = 0x8000000000000000 ∧ contextReady (startIssue s) .copy = true
      ∧ readSpadArea ((startIssue s).viewed 0) 0 (areaSize .copy / 64) = .ok 0 ∧ areaMalformed .copy 0 = true)
    ∧ (let s := bankBusy (regs [(1, 0x40), (2, 0)] (sup (on .ctl))); issues (.ctxload oABP) (useABP oABP) s ∧ issues (.ctxsave oABP) (useABP oABP) s
      ∧ contextOk (startIssue s) (rdS (startIssue s) oABP.a) (rdS (startIssue s) oABP.b) .ctl ∧ (rdS (startIssue s) oABP.a).getLsbD 63 = false ∧ spanHeld (startIssue s) (streamAccess (startIssue s) true) (rdS (startIssue s) oABP.a).toNat (areaSize .ctl) = true)
    ∧ (let s := bankBusy (regs [(1, 0x40), (2, 0)] (sup (on .ctl))); issues (.ctxload oABP) (useABP oABP) s ∧ issues (.ctxsave oABP) (useABP oABP) s
      ∧ contextOk (startIssue s) (rdS (startIssue s) oABP.a) (rdS (startIssue s) oABP.b) .ctl ∧ (rdS (startIssue s) oABP.a).getLsbD 63 = false ∧ spanHeld (startIssue s) (streamAccess (startIssue s) false) (rdS (startIssue s) oABP.a).toNat (areaSize .ctl) = true) :=
  ⟨by and_intros <;> first | decide +kernel | (unfold guardTrue; decide +kernel),
   by and_intros <;> first | decide +kernel | (unfold guardTrue; decide +kernel) | (unfold contextOk; decide +kernel) | (unfold mayPark; decide +kernel) | (unfold parksAtTurn; decide +kernel) | (unfold parkHolds; decide +kernel),
   ⟨issues_of (by decide +kernel), issues_of (by decide +kernel), by unfold contextOk; decide +kernel, by decide +kernel, by decide +kernel, area_reads, area_formed⟩,
   ⟨issues_of (by decide +kernel), issues_of (by decide +kernel), by unfold contextOk; decide +kernel, by decide +kernel, by decide +kernel, area_zero, by decide +kernel⟩,
   ⟨issues_of (by decide +kernel), issues_of (by decide +kernel), by unfold contextOk; decide +kernel, by decide +kernel, span_held rfl (by decide +kernel) (walk_held rfl (by decide +kernel) (by decide +kernel) (by decide +kernel) (by decide +kernel))⟩,
   ⟨issues_of (by decide +kernel), issues_of (by decide +kernel), by unfold contextOk; decide +kernel, by decide +kernel, span_held rfl (by decide +kernel) (walk_held rfl (by decide +kernel) (by decide +kernel) (by decide +kernel) (by decide +kernel))⟩⟩

/-- Waits of the vec stream before and at their cycle, watches that differ and not, and queues that take an entry and not. -/
theorem wit_WaitAndMessageEvents :
    (focus 500 (ev 500 .ctl 0 0 .none State.reset) = none
    ∧ (waitsOn State.reset .ctl = none ∧ waitsOn State.reset .copy = none ∧ State.reset.core.copy.frozenSince = none)
    ∧ ((waits .vec (.sleep 0) State.reset).str .vec).waiting = some { on := .sleep 0, settle := false })
    ∧ (meetsAt (fun _ => True) (ev 0 .ctl 7 255 .none (State.reset))
    ∧ meetsAt (fun t => waitsOn t t.arg.sec = some (.sleep 0) ∧ 0 ≤ t.now) (ev 0 .vec 0 0 .none (waits .vec (.sleep 0) State.reset))
    ∧ meetsAt (fun t => waitsOn t t.arg.sec = some (.sleep 1) ∧ t.now < 1) (ev 0 .vec 0 0 .none (waits .vec (.sleep 1) State.reset))
    ∧ meetsAt (fun t => waitsOn t t.arg.sec = some (.watch true 0 1 (.n 0) none none) ∧ watchRead t t.arg.sec true 0 ≠ 1) (ev 0 .vec 0 0 .none (waits .vec (.watch true 0 1 (.n 0) none none) State.reset))
    ∧ meetsAt (fun t => waitsOn t t.arg.sec = some (.watch true 0 0 (.n 0) none none) ∧ watchRead t t.arg.sec true 0 = 0) (ev 0 .vec 0 0 .none (waits .vec (.watch true 0 0 (.n 0) none none) State.reset))
    ∧ meetsAt (fun t => waitsOn t t.arg.sec = some (.watch true 0 1 (.n 0) none none) ∧ watchRead t t.arg.sec true 0 ≠ 1) (ev 0 .vec 0 0 .none (waits .vec (.watch true 0 1 (.n 0) none none) State.reset))
    ∧ meetsAt (fun t => waitsOn t t.arg.sec = some (.watch true 0 1 (.n 0) none none)) (ev 0 .vec 0 0 .none (waits .vec (.watch true 0 1 (.n 0) none none) State.reset))
    ∧ meetsAt (fun t => t.arg.a = 5) (ev 0 .ctl 5 0 .none (State.reset))
    ∧ meetsAt (fun t => t.arg.data = .entry (Entry.mk zeroCell 0 false) ∧ (queueAt t (Fin.ofNat 16 t.arg.a)).en = true ∧ (queueAt t (Fin.ofNat 16 t.arg.a)).origins.length < 2 ^ (queueAt t (Fin.ofNat 16 t.arg.a)).lsize ∧ coordModule (originCoord (Entry.mk zeroCell 0 false).origin) = t.ownModule) (ev 0 .ctl 0 0 (.entry (Entry.mk zeroCell 0 false)) (queueUp [] State.reset))
    ∧ meetsAt (fun t => t.arg.data = .entry (Entry.mk zeroCell 0x8000000000 false) ∧ (queueAt t (Fin.ofNat 16 t.arg.a)).en = false ∧ originFree (Entry.mk zeroCell 0x8000000000 false).origin = true) (ev 0 .ctl 15 0 (.entry ⟨zeroCell, 0x8000000000, false⟩) (State.reset))
    ∧ meetsAt (fun t => t.arg.data = .entry (Entry.mk zeroCell 0 false) ∧ (queueAt t (Fin.ofNat 16 t.arg.a)).en = false ∧ originFree (Entry.mk zeroCell 0 false).origin = false ∧ coordModule (originCoord (Entry.mk zeroCell 0 false).origin) = t.ownModule) (ev 0 .ctl 15 0 (.entry (Entry.mk zeroCell 0 false)) (State.reset))
    ∧ meetsAt (fun t => t.arg.data = .entry (Entry.mk zeroCell 0x8000000000 false) ∧ (queueAt t (Fin.ofNat 16 t.arg.a)).en = true ∧ 2 ^ (queueAt t (Fin.ofNat 16 t.arg.a)).lsize ≤ (queueAt t (Fin.ofNat 16 t.arg.a)).origins.length ∧ originFree (Entry.mk zeroCell 0x8000000000 false).origin = true) (ev 0 .ctl 0 0 (.entry ⟨zeroCell, 0x8000000000, false⟩) (queueUp [1, 1, 1, 1] State.reset))
    ∧ meetsAt (fun t => t.arg.data = .entry (Entry.mk zeroCell 0 false) ∧ (queueAt t (Fin.ofNat 16 t.arg.a)).en = true ∧ 2 ^ (queueAt t (Fin.ofNat 16 t.arg.a)).lsize ≤ (queueAt t (Fin.ofNat 16 t.arg.a)).origins.length ∧ originFree (Entry.mk zeroCell 0 false).origin = false ∧ coordModule (originCoord (Entry.mk zeroCell 0 false).origin) = t.ownModule) (ev 0 .ctl 0 0 (.entry (Entry.mk zeroCell 0 false)) (queueUp [1, 1, 1, 1] State.reset))
    ∧ meetsAt (fun t => t.arg.data = .entry (Entry.mk zeroCell 0x500000 false) ∧ arrivalCode (queueAt t (Fin.ofNat 16 t.arg.a)) ≠ 0 ∧ originFree (Entry.mk zeroCell 0x500000 false).origin = false ∧ coordModule (originCoord (Entry.mk zeroCell 0x500000 false).origin) ≠ t.ownModule) (ev 0 .ctl 15 0 (.entry ⟨zeroCell, 0x500000, false⟩) (State.reset))
    ∧ meetsAt (fun t => waitsOn t t.arg.sec = none) (ev 0 .copy 63 1 .none (State.reset))
    ∧ meetsAt (fun t => waitsOn t t.arg.sec = some (.credit 63 0) ∧ 63 = t.arg.a % 64 ∧ 0 < t.arg.b ∧ (t.arg.sec = .ctl ∨ t.arg.sec = .copy)) (ev 0 .copy 63 1 .none (waits .copy (.credit 63 0) State.reset))
    ∧ meetsAt (fun _ => True) (ev 0 .ctl 63 0 .none (State.reset))
    ∧ meetsAt (fun t => waitsOn t t.arg.sec = some (.recv 0 0 (.n 0) (some 0)) ∧ 0 ≤ t.now ∧ (queueAt t (Fin.ofNat 16 0)).origins ≠ []) (ev 0 .copy 0 0 .none (waits .copy (.recv 0 0 (.n 0) (some 0)) (queueUp [1] State.reset)))
    ∧ meetsAt (fun t => waitsOn t t.arg.sec = some (.recv 0 0 (.n 0) (some 1)) ∧ t.now < 1) (ev 0 .copy 0 0 .none (waits .copy (.recv 0 0 (.n 0) (some 1)) (queueUp [1] State.reset)))) :=
  ⟨by and_intros <;> decide +kernel,
   by and_intros <;> exact meetsAt_of (by decide +kernel) (by decide +kernel)⟩

/-- A request that is admitted, queued, refused and overflows, and the answers. -/
theorem wit_RemoteSemaphoreEvents :
    coordModule 0x1000 = State.reset.ownModule
    ∧ (meetsAt (fun t => t.arg.data = .sem (request .wait) ∧ (request .wait).op = .wait ∧ semAdmits (semAt t (request .wait).phys) ((request .wait).b.toNat % 2 ^ 32) = true) (ev 0 .ctl 0 0 (.sem (request .wait)) (setSem State.reset 3 { val := 2, fifo := [] }))
    ∧ meetsAt (fun t => t.arg.data = .sem (request .wait) ∧ (request .wait).op = .wait ∧ semAdmits (semAt t (request .wait).phys) ((request .wait).b.toNat % 2 ^ 32) = false ∧ remoteWaiters t < 256) (ev 0 .ctl 0 0 (.sem (request .wait)) (State.reset))
    ∧ meetsAt (fun t => t.arg.data = .sem (request .wait) ∧ (request .wait).op = .wait ∧ semAdmits (semAt t (request .wait).phys) ((request .wait).b.toNat % 2 ^ 32) = false ∧ 256 ≤ remoteWaiters t) (ev 0 .ctl 0 0 (.sem (request .wait)) (crowded State.reset))
    ∧ meetsAt (fun t => t.arg.data = .sem (request .read) ∧ (request .read).op = .read) (ev 0 .ctl 0 0 (.sem (request .read)) (State.reset))
    ∧ meetsAt (fun t => t.arg.data = .sem (request .sig) ∧ (request .sig).op = .sig ∧ 2 ^ 32 ≤ (semAt t (request .sig).phys).val.toNat + (request .sig).b.toNat % 2 ^ 32) (ev 0 .ctl 0 0 (.sem (request .sig)) (setSem State.reset 3 { val := 0xFFFFFFFE, fifo := [] }))
    ∧ meetsAt (fun t => t.arg.data = .sem (request .sig) ∧ (request .sig).op = .sig ∧ (semAt t (request .sig).phys).val.toNat + (request .sig).b.toNat % 2 ^ 32 < 2 ^ 32) (ev 0 .ctl 0 0 (.sem (request .sig)) (setSem State.reset 3 { val := 0xFFFFFFFD, fifo := [] }))
    ∧ meetsAt (fun t => t.arg.data = .sem (request .try_) ∧ (request .try_).op = .try_ ∧ (request .try_).b.toNat % 2 ^ 32 ≤ (semAt t (request .try_).phys).val.toNat) (ev 0 .ctl 0 0 (.sem (request .try_)) (setSem State.reset 3 { val := 2, fifo := [] }))
    ∧ meetsAt (fun t => t.arg.data = .sem (request .try_) ∧ (request .try_).op = .try_ ∧ (semAt t (request .try_).phys).val.toNat < (request .try_).b.toNat % 2 ^ 32) (ev 0 .ctl 0 0 (.sem (request .try_)) (setSem State.reset 3 { val := 1, fifo := [] }))
    ∧ meetsAt (fun t => t.arg.data = .sem (request .add) ∧ (request .add).op = .add ∧ 0 ≤ ((semAt t (request .add).phys).val.toNat : Int) + ((request .add).b.setWidth 32).toInt ∧ ((semAt t (request .add).phys).val.toNat : Int) + ((request .add).b.setWidth 32).toInt < 2 ^ 32) (ev 0 .ctl 0 0 (.sem (request .add)) (setSem State.reset 3 { val := 0xFFFFFFFD, fifo := [] }))
    ∧ meetsAt (fun t => t.arg.data = .sem (request .add) ∧ (request .add).op = .add ∧ (((semAt t (request .add).phys).val.toNat : Int) + ((request .add).b.setWidth 32).toInt < 0 ∨ 2 ^ 32 ≤ ((semAt t (request .add).phys).val.toNat : Int) + ((request .add).b.setWidth 32).toInt)) (ev 0 .ctl 0 0 (.sem (request .add)) (setSem State.reset 3 { val := 0xFFFFFFFE, fifo := [] }))
    ∧ meetsAt (fun t => t.arg.data = .sem (request .cas) ∧ (request .cas).op = .cas ∧ (semAt t (request .cas).phys).val.toNat = (request .cas).b.toNat % 2 ^ 32) (ev 0 .ctl 0 0 (.sem (request .cas)) (setSem State.reset 3 { val := 2, fifo := [] }))
    ∧ meetsAt (fun t => t.arg.data = .sem (request .cas) ∧ (request .cas).op = .cas ∧ (semAt t (request .cas).phys).val.toNat ≠ (request .cas).b.toNat % 2 ^ 32) (ev 0 .ctl 0 0 (.sem (request .cas)) (setSem State.reset 3 { val := 1, fifo := [] }))
    ∧ meetsAt (fun t => t.arg.data = .sem (request .wait) ∧ (semAt t (request .wait).phys).fifo = [{ coord := (request .wait).from_, sec := (request .wait).sec, n := (request .wait).b.toNat % 2 ^ 32, remote := some (request .wait).id }]) (ev 0 .ctl 0 0 (.sem (request .wait)) (setSem State.reset 3 { val := 0, fifo := [{ coord := 0x1000, sec := .mat, n := 2, remote := some 4 }] }))
    ∧ meetsAt (fun t => t.arg.data = .sem (request .wait) ∧ (semAt t (request .wait).phys).fifo = []) (ev 0 .ctl 0 0 (.sem (request .wait)) (State.reset))
    ∧ meetsAt (fun t => t.arg.data = .answer (.result 9) ∧ waitsOn t t.arg.sec = some (.remote (away false none) none) ∧ (away false none).req.id = t.arg.a ∧ t.arg.a % 2 = 0 ∧ (away false none).park = false) (ev 0 .mat 4 0 (.answer (.result 9)) (waits .mat (.remote (away false none) none) State.reset))
    ∧ meetsAt (fun t => t.arg.data = .answer .acknowledged ∧ waitsOn t t.arg.sec = some (.remote (away false none) none) ∧ (away false none).req.id = t.arg.a ∧ t.arg.a % 2 = 0) (ev 0 .mat 4 0 (.answer .acknowledged) (waits .mat (.remote (away false none) none) State.reset))
    ∧ meetsAt (fun t => t.arg.data = .answer .overflow ∧ waitsOn t t.arg.sec = some (.remote (away false none) none) ∧ (away false none).req.id = t.arg.a ∧ t.arg.a % 2 = 0 ∧ t.core.stop = false) (ev 0 .mat 4 0 (.answer .overflow) (waits .mat (.remote (away false none) none) State.reset))
    ∧ meetsAt (fun t => t.arg.data = .answer .acknowledged ∧ waitsOn t t.arg.sec = some (.remote (away false none) none) ∧ (away false none).req.id ≠ t.arg.a) (ev 0 .mat 5 0 (.answer .acknowledged) (waits .mat (.remote (away false none) none) State.reset))
    ∧ meetsAt (fun t => t.arg.data = .answer .withdrawn ∧ waitsOn t t.arg.sec = some (.remote parking none) ∧ parking.req.id = t.arg.a ∧ t.arg.a % 2 = 0 ∧ parking.park = true ∧ (t.str t.arg.sec).parked = none) (ev 0 .mat 4 0 (.answer .withdrawn) (running .mat (waits .mat (.remote parking none) State.reset)))
    ∧ meetsAt (fun t => waitsOn t t.arg.sec = some (.remote (away false (some 8)) none) ∧ (away false (some 8)).refusedAt = some 8) (ev 0 .mat 0 0 .none (waits .mat (.remote (away false (some 8)) none) State.reset))
    ∧ meetsAt (fun t => waitsOn t t.arg.sec = some (.remote (away false none) none) ∧ (away false none).acked = false ∧ t.core.stop = false) (ev 0 .mat 0 0 .none (waits .mat (.remote (away false none) none) State.reset))
    ∧ meetsAt (fun t => waitsOn t t.arg.sec = some (.remote (away true none) none) ∧ (away true none).acked = true ∧ (away true none).withdraw = false ∧ t.core.stop = false) (ev 0 .mat 0 0 .none (waits .mat (.remote (away true none) none) State.reset))) :=
  ⟨by decide +kernel,
   by and_intros <;> exact meetsAt_of (by decide +kernel) (by decide +kernel)⟩

/-- One walk with one leg in each of its states, at its due cycle and before. -/
theorem wit_ForagerEvents :
    (fun s => s.arg.core = 0 ∧ canReadLeg (walkAt s 0) = true ∧ (walkAt s 0).starting = none ∧ ((translateDie 0 s ((walkAt s 0).access false) ((walkAt s 0).base + 32 * (walkAt s 0).readNext)).result.toOption.map fun p => ((readCellAt (translateDie 0 s ((walkAt s 0).access false) ((walkAt s 0).base + 32 * (walkAt s 0).readNext)).state p).bad, tagF (readCellAt (translateDie 0 s ((walkAt s 0).access false) ((walkAt s 0).base + 32 * (walkAt s 0).readNext)).state p).data.tag,
      legMalformed (memNum (translateDie 0 s ((walkAt s 0).access false) ((walkAt s 0).base + 32 * (walkAt s 0).readNext)).state p.pa 32), (memNum (translateDie 0 s ((walkAt s 0).access false) ((walkAt s 0).base + 32 * (walkAt s 0).readNext)).state p.pa 32).testBit 188)) = some (false, 0, false, false)) (endLeg (walking .running none State.reset))
    ∧ (fun s => s.arg.core = 0 ∧ canReadLeg (walkAt s 0) = true ∧ (translateDie 0 s ((walkAt s 0).access false) ((walkAt s 0).base + 32 * (walkAt s 0).readNext)).result.toOption.isNone = true) (walking .running none State.reset)
    ∧ (fun s => s.arg.core = 0 ∧ s.arg.a = 0 ∧ 0 < 8 ∧ legAt s 0 0 = some (legJob 0 false false .read) ∧ canStartLeg s 0 (legJob 0 false false .read) = true ∧ legStartFault s (walkAt s 0) (legJob 0 false false .read).leg = none ∧ (legJob 0 false false .read).leg.listen = false ∧ (legJob 0 false false .read).leg.mc = false) (ev 0 .ctl 0 0 .none (atCycle 4 (legged (legJob 0 false false .read) State.reset)))
    ∧ (fun s => s.arg.core = 0 ∧ s.arg.a = 0 ∧ 0 < 8 ∧ legAt s 0 0 = some (legJob 0 false false .read) ∧ (s.now : Int) < (legJob 0 false false .read).dueAt - ((walkAt s 0).hop (legJob 0 false false .read).leg.hop).lead.toNat) (ev 0 .ctl 0 0 .none (atCycle 3 (legged (legJob 0 false false .read) State.reset)))
    ∧ (fun s => s.arg.core = 0 ∧ 0 < 8 ∧ (walkAt s 0).state = .running ∧ (walkAt s 0).legs.find? (·.unstarted) = some (legJob 6 false false .read) ∧ (legJob 6 false false .read).leg.hop = 6) (ev 0 .ctl 0 0 .none (atCycle 4 (legged (legJob 6 false false .read) State.reset)))
    ∧ (fun s => s.arg.core = 0 ∧ 0 < 8 ∧ (walkAt s 0).state = .running ∧ (walkAt s 0).legs.find? (·.unstarted) = some (legJob 7 false false .read) ∧ (legJob 7 false false .read).leg.hop = 7) (ev 0 .ctl 0 0 .none (atCycle 4 (legged (legJob 7 false false .read) State.reset)))
    ∧ (fun s => s.arg.core = 0 ∧ s.arg.a = 0 ∧ 0 < 8 ∧ legAt s 0 0 = some (legJob 0 true true .open_) ∧ (legJob 0 true true .open_).state = .open_ ∧ (legJob 0 true true .open_).dueAt + 2 ^ 24 ≤ (s.now : Int)) (ev 0 .ctl 0 0 .none (atCycle 0x1000004 (legged (legJob 0 true true .open_) State.reset)))
    ∧ (fun s => legAt s 0 0 = some (legJob 1 false false .moving) ∧ canMove s 0 (legJob 1 false false .moving) = true ∧ (moveCells 0 (legJob 1 false false .moving).leg 1 0 s).2 = none) (ev 0 .ctl 0 0 .none (lostCell <| diePages <| atCycle 4 (legged (legJob 1 false false .moving) State.reset)))
    ∧ (fun s => s.arg.core = 0 ∧ s.arg.a = 0 ∧ 0 < 8 ∧ legAt s 0 0 = some writtenLeg ∧ canLand s 0 writtenLeg = true) (ev 0 .ctl 0 0 .none (atCycle 4 (legged writtenLeg State.reset)))
    ∧ (fun s => s.arg.core = 0 ∧ s.arg.a = 0 ∧ 0 < 8 ∧ legAt s 0 0 = some (legJob 1 false false .signalling) ∧ (legJob 1 false false .signalling).state = .signalling) (ev 0 .ctl 0 0 .none (atCycle 4 (legged (legJob 1 false false .signalling) State.reset)))
    ∧ (fun s => s.arg.core = 0 ∧ (walkAt s 0).legs.find? (fun k => k.leg.listen && decide (k.state = .open_) && decide (k.leg.group = s.arg.a) && decide (k.leg.legno = s.arg.b)) = some (legJob 0 true true .open_)) (ev 0 .ctl 2 7 .none (atCycle 4 (legged (legJob 0 true true .open_) State.reset)))
    ∧ (fun s => s.arg.core = 0 ∧ s.arg.data = .legCell zeroCell false ∧ listening (walkAt s 0) (s.arg.a / 2 ^ 44) (s.arg.a / 2 ^ 32 % 2 ^ 12) (s.arg.a % 2 ^ 32) = none) (ev 0 .ctl 0 0 (.legCell zeroCell false) (State.reset))
    ∧ (fun s => s.arg.core = 0 ∧ s.arg.data = .legCell zeroCell false ∧ listening (walkAt s 0) (s.arg.a / 2 ^ 44) (s.arg.a / 2 ^ 32 % 2 ^ 12) (s.arg.a % 2 ^ 32) = some (legJob 0 true true .open_) ∧ s.arg.b ≠ 1) (ev 0 .ctl 0x200000007 2 (.legCell zeroCell false) (atCycle 4 (legged (legJob 0 true true .open_) State.reset)))
    ∧ (fun s => s.arg.core = 0 ∧ s.arg.data = .legCell zeroCell false ∧ listening (walkAt s 0) (s.arg.a / 2 ^ 44) (s.arg.a / 2 ^ 32 % 2 ^ 12) (s.arg.a % 2 ^ 32) = some twoCells ∧ s.arg.b = 2) (ev 0 .ctl 0x300200000007 2 (.legCell zeroCell false) (diePages <| atCycle 4 (legged twoCells State.reset)))
    ∧ (fun s => s.arg.core = 0 ∧ 0 < 8 ∧ (walkAt s 0).mark = some (0, 31, 0) ∧ markReady (walkAt s 0) = true) (marked (legged (legJob 0 false false .read) State.reset))
    ∧ (canSend (diePages (atCycle 4 (legged (legJob 1 true false .waiting) State.reset))) 0 (legJob 1 true false .waiting) = true ∧ (legAt (legged (legJob 1 true false .waiting) State.reset) 0 0) = some (legJob 1 true false .waiting) ∧ State.reset.members = []
      ∧ (readLegCells 0 (legJob 1 true false .waiting).leg 1 0 (diePages (atCycle 4 (legged (legJob 1 true false .waiting) State.reset)))).2.2 = none)
    ∧ (legAt (diePages (legged heldLeg State.reset)) 0 0 = some heldLeg ∧ heldLeg.done = false ∧ heldBack (diePages (legged heldLeg State.reset)) 0 heldLeg = false ∧ (putHeldCells 0 heldLeg.leg 0 heldLeg.held (diePages (legged heldLeg State.reset))).2 = none
      ∧ heldLeg.moved + heldLeg.held.length = heldLeg.leg.cells ∧ heldLeg.spoil = false)
    ∧ (legAt (diePages (leggedTwo State.reset)) 0 1 = some { heldLeg with order := 1 } ∧ heldBack (diePages (leggedTwo State.reset)) 0 { heldLeg with order := 1 } = true)
    ∧ (heldLeg.state = .moving ∧ heldLeg.source ≠ some 9)
    ∧ ((∀ w, w < 8 → ((2, 7) : Nat × Nat) ∉ (walkAt State.reset w).sent) ∧ State.reset.notices = [])
    ∧ ((2, 7) : Nat × Nat) ∈ (walkAt (onWalk 0 (fun x => { x with sent := [(2, 7)] }) State.reset) 0).sent
    ∧ (8 ≤ (ev 8 .ctl 0 0 .none State.reset).arg.core) :=
  by and_intros <;> decide +kernel

/-- An idle scheduler, a packet that is overdue, a job with a record, an ending job and a swarm that can emit. -/
theorem wit_SchedulerEvents :
    ((orderedHeads State.reset = [] ∧ State.reset.thermal.tripped = false ∧ State.reset.sched.jobs = [])
    ∧ (orderedHeads (packed 0 (onePacket 0)) = [(0, onePacket 0)] ∧ fits (packed 0 (onePacket 0)) (onePacket 0) (freeCores (packed 0 (onePacket 0))).length = true ∧ (packed 0 (onePacket 0)).sched.heldFor = none)
    ∧ ((launchQueue (atCycle 1 (packed 0 (onePacket 0))) 0).packets = [onePacket 0] ∧ pktDeadline (onePacket 0).data < (atCycle 1 (packed 0 (onePacket 0))).now ∧ pktDropLate (onePacket 0).data = false)
    ∧ ((launchQueue (atCycle 1 (packed 0 (onePacket dropped))) 0).packets = [onePacket dropped] ∧ pktDeadline (onePacket dropped).data < 1 ∧ pktDropLate (onePacket dropped).data = true ∧ pktCompl (onePacket dropped).data = 0)
    ∧ ((placed .running State.reset).sched.jobs = [job .running])
    ∧ (jobAt (recorded State.reset) 1 = some recordedJob ∧ (recordedJob.stages[0]?).map (·.records.length) = some 1 ∧ (targetCore (recorded State.reset) 0 (stageCores (recorded State.reset) 1 0)) = some 0)
    ∧ (waitsOn (waits .ctl (.take 0 (.n 0)) (inboxed State.reset)) .ctl = some (.take 0 (.n 0)) ∧ (waits .ctl (.take 0 (.n 0)) (inboxed State.reset)).core.inbox = [{ cell := 0, origin := 0 }])
    ∧ (let s := (placed .ending State.reset).setCore State.reset.core; jobAt s 1 = some (job .ending) ∧ jobCores s 1 = [] ∧ pktCompl (job .ending).packet = 0 ∧ ∀ w, w < 8 → (walkAt s w).job ≠ some 1)
    ∧ (∀ i : Fin 16, (State.reset.gather.rings[i]).en = false)
    ∧ (schedNum ringRead (ringed State.reset) 0 64 ≠ none ∧ (gatherRows ringRead 0x400 4 0 0 (countSched ringRead 0 64 (ringed State.reset))).1 = 0)
    ∧ (canEmit (filled 1 State.reset) (swarmAt (filled 1 State.reset) 0) = true ∧ canEmit State.reset (swarmAt State.reset 0) = false ∧ (filled 1 State.reset).gather.waiters = []))
    ∧ (((ringed State.reset).gather.rings[(0 : Fin 16)]).en = true ∧ schedNum ringRead (ringed State.reset) 0 64 = some 0x100000000000000040000000000000400
      ∧ (gatherRows ringRead 0x400 4 1 0 (countSched ringRead 0 64 (ringed State.reset))).1 = 1
      ∧ (translateBy 0 none (fun t _ => t) (gatherRows ringRead 0x400 4 1 0 (countSched ringRead 0 64 (ringed State.reset))).2 (Access.mk 0 0x4000 false true) 24).result.toOption.isSome = true)
    ∧ (let u := countSched ringRead (0x400 + 32 * (16 % 2 ^ 4)) 32 (ringed State.reset); schedNum ringRead (ringed State.reset) (0x400 + 32 * (16 % 2 ^ 4)) 32 = some 0 ∧ swarmFor u (BitVec.ofNat 256 0) = some 0 ∧ (swarmAt u 0).openRows.length < 64 * (swarmAt u 0).target) :=
  ⟨by and_intros <;> decide +kernel,
   ⟨by decide +kernel, by decide +kernel, gathered⟩,
   by
    obtain ⟨a, b, c, d, o, h⟩ := countSched_onlyCounts ringRead (0x400 + 32 * (16 % 2 ^ 4)) 32 (ringed State.reset)
    simp only [h]
    exact ⟨by decide +kernel, rfl, of_decide_eq_true rfl⟩⟩

/-- A command in each phase; promises with and without missing data; a write for a valid frame and for none. -/
theorem wit_CopyEngineEvents :
    ((frmValid ((framed State.reset).core.frames[0]) = true ∧ 0 + 1 ≤ frmSize ((framed State.reset).core.frames[0]) ∧ touchesSr (framed State.reset).core (frameBase ((framed State.reset).core.frames[0]) true) 1 = false ∧ frmValid (State.reset.core.frames[0]) = false
      ∧ touchesSr (region (framed State.reset)).core (frameBase ((framed State.reset).core.frames[0]) true) 1 = true ∧ (oneWrite 0).module = State.reset.ownModule ∧ (oneWrite 5).module ≠ State.reset.ownModule ∧ (oneWrite 0).who = .command 0 1 0)
    ∧ (mayPass { cmdAt .fetching with kind := .kvlist } [oneItem] oneItem = true ∧ mayFollow (engine [followed] [] State.reset) followed = true)
    ∧ ((fullBuffer State.reset).core.copy.queue = [delayedCmd] ∧ delayedCmd.delayed ≠ [] ∧ (if delayedCmd.timed && decide ((fullBuffer State.reset).now < delayedCmd.promise) then admitted (fullBuffer State.reset) delayedCmd.delayed else ([], [])).2 ≠ []))
    ∧ (meetsAt (fun t => canStart t = some (aligned) ∧ (aligned).cancelled = false ∧ (aligned).fault = 0 ∧ startFault t (aligned) = none) (ev 0 .copy 1 0 .none (engine [aligned] [] State.reset))
    ∧ meetsAt (fun t => canStart t = some (refusedCmd) ∧ (refusedCmd).cancelled = false ∧ (refusedCmd).fault = 0 ∧ startFault t (refusedCmd) = some 1) (ev 0 .copy 1 0 .none (engine [refusedCmd] [] State.reset))
    ∧ meetsAt (fun t => canStart t = some ({ cmdAt .queued with cancelled := true }) ∧ ({ cmdAt .queued with cancelled := true }).cancelled = true) (ev 0 .copy 1 0 .none (engine [{ cmdAt .queued with cancelled := true }] [] State.reset))
    ∧ meetsAt (fun t => t.arg.sec = .copy ∧ liveCmd t (BitVec.ofNat 16 t.arg.a) = some (cmdAt .fetching) ∧ (cmdAt .fetching).phase = .fetching ∧ (cmdAt .fetching).kind.listed = false ∧ (cmdAt .fetching).delayed = []) (ev 0 .copy 1 0 .none (engine [cmdAt .fetching] [] State.reset))
    ∧ meetsAt (fun t => t.arg.sec = .copy ∧ liveCmd t (BitVec.ofNat 16 t.arg.a) = some ({ cmdAt .fetching with delayed := [heldByte] }) ∧ ({ cmdAt .fetching with delayed := [heldByte] }).phase = .fetching ∧ ({ cmdAt .fetching with delayed := [heldByte] }).kind.listed = false ∧ ({ cmdAt .fetching with delayed := [heldByte] }).delayed ≠ []) (ev 0 .copy 1 0 .none (engine [{ cmdAt .fetching with delayed := [heldByte] }] [] State.reset))
    ∧ meetsAt (fun t => liveCmd t (BitVec.ofNat 16 t.arg.a) = some ({ cmdAt .fetching with kind := .gather, todo := [oneItem] }) ∧ ({ cmdAt .fetching with kind := .gather, todo := [oneItem] }).delayed = [] ∧ ({ cmdAt .fetching with kind := .gather, todo := [oneItem] }).todo[itemTurn t.tick ({ cmdAt .fetching with kind := .gather, todo := [oneItem] })]? = some oneItem) (ev 0 .copy 1 0 .none (engine [{ cmdAt .fetching with kind := .gather, todo := [oneItem] }] [] State.reset))
    ∧ meetsAt (fun t => liveCmd t (BitVec.ofNat 16 t.arg.a) = some ({ cmdAt .fetching with kind := .gather, delayed := [heldByte] }) ∧ ({ cmdAt .fetching with kind := .gather, delayed := [heldByte] }).delayed ≠ []) (ev 0 .copy 1 0 .none (engine [{ cmdAt .fetching with kind := .gather, delayed := [heldByte] }] [] State.reset))
    ∧ meetsAt (fun t => liveCmd t (BitVec.ofNat 16 t.arg.a) = some ({ cmdAt .fetching with kind := .gather }) ∧ ({ cmdAt .fetching with kind := .gather }).retried = false) (ev 0 .copy 1 0 .none (engine [{ cmdAt .fetching with kind := .gather }] [] State.reset))
    ∧ meetsAt (fun t => liveCmd t (BitVec.ofNat 16 t.arg.a) = some publishing ∧ publishing.phase = .landed ∧ unacked t publishing.seq = false ∧ publishing.puben = true ∧ publishing.published = false) (ev 0 .copy 1 0 .none (engine [publishing] [] State.reset))
    ∧ meetsAt (fun t => t.core.copy.queue = (cmdAt .landed) :: [] ∧ (cmdAt .landed).seq = BitVec.ofNat 16 t.arg.a ∧ (cmdAt .landed).phase = .landed ∧ unacked t (cmdAt .landed).seq = false ∧ ((cmdAt .landed).puben = false ∨ (cmdAt .landed).published = true) ∧ ((cmdAt .landed).follow = false ∨ (cmdAt .landed).fault ≠ 0 ∨ (cmdAt .landed).followed = true)) (ev 0 .copy 1 0 .none (engine [cmdAt .landed] [] State.reset))
    ∧ meetsAt (fun t => liveCmd t (BitVec.ofNat 16 t.arg.a) = some (followed) ∧ mayFollow t (followed) = true ∧ (followed).cw[14].toNat / 2 ^ 62 ≠ 3 ∧ wordReason t.core.mat ((followed).cw[14].toNat / 2 ^ 62) (followed).cw[14] = none ∧ ∀ r ∈ wordRanges t.core.mat (followed).cw[14], touchesSr t.core r.1 r.2 = false) (ev 0 .copy 1 0 .none (engine [followed] [] State.reset))
    ∧ meetsAt (fun t => liveCmd t (BitVec.ofNat 16 t.arg.a) = some (badFollow) ∧ mayFollow t (badFollow) = true ∧ (badFollow).cw[14].toNat / 2 ^ 62 ≠ 3 ∧ wordReason t.core.mat ((badFollow).cw[14].toNat / 2 ^ 62) (badFollow).cw[14] = some 2) (ev 0 .copy 1 0 .none (engine [badFollow] [] State.reset))
    ∧ meetsAt (fun t => t.arg.sec = .ctl ∧ t.core.copy.frozenSince = none) (ev 0 .ctl 0 0 .none (State.reset))
    ∧ meetsAt (fun t => (∀ c ∈ t.core.copy.queue, c.dueHeld t.now = false) ∧ missingNow t = false) (ev 0 .ctl 0 0 .none (State.reset))
    ∧ meetsAt (fun t => (∀ c ∈ t.core.copy.queue, c.dueHeld t.now = false) ∧ missingNow t = true ∧ t.core.copy.frozenSince = none ∧ t.core.copy.frzl ≠ 0) (ev 0 .ctl 0 0 .none (overdue (setFrzl 1 State.reset)))
    ∧ meetsAt (fun t => (∀ c ∈ t.core.copy.queue, c.dueHeld t.now = false) ∧ missingNow t = true ∧ t.core.copy.frozenSince = none ∧ t.core.copy.frzl = 0) (ev 0 .ctl 0 0 .none (overdue (setFrzl 0 State.reset)))
    ∧ meetsAt (fun t => t.core.copy.frozenSince ≠ none) (ev 0 .ctl 0 0 .none (State.reset.setEngine { State.reset.core.copy with frozenSince := some 0 })))
    ∧ ((canStart (engine [aligned] [] State.reset)) = some aligned ∧ aligned.ctren = false ∧ aligned.sem = none ∧ aligned.bitmap = none ∧ ∀ t : Sec, waitsOn (engine [aligned] [] State.reset) t = none) :=
  ⟨by and_intros <;> decide +kernel,
   by and_intros <;> exact meetsAt_of (by decide +kernel) (by decide +kernel),
   ⟨by decide +kernel, by decide +kernel, by decide +kernel, by decide +kernel, fun t => by cases t <;> decide +kernel⟩⟩

/-- Each kind of entry at the head of the queue, a fill that ends well and in a fault, an MMUL that ends and a sample that awaits its tap. -/
theorem wit_MatrixAndAuditEvents :
    ((leaves (residentUp (matQueue 0 State.reset)) 0 = some (matEntry 0) ∧ paceLevel (residentUp (matQueue 0 State.reset)).core.mat = 0 ∧ (residentUp (matQueue 0 State.reset)).core.mat.residentValid = true
      ∧ (residentUp (matQueue 0 State.reset)).core.mat.resident.record.samp = false)
    ∧ (multiplying State.reset).core.mat.running = [mmulJob]
    ∧ (mmulJob.entry.word.getLsbD 40 = false ∧ mmulJob.entry.word.getLsbD 41 = false)
    ∧ ((tapped State.reset).core.audit.sample.map fun x => (x.ncols, x.tap.isSome)) = some (0, true)
    ∧ ((tapped State.reset).core.audit.mode = 2 ∧ (State.reset).core.mat.mflt.pend = false))
    ∧ (meetsAt (fun t => leaves t 1 = some (matEntry 0x4000000000000000)) (matQueue 0x4000000000000000 State.reset)
    ∧ meetsAt (fun t => leaves t 2 = some (matEntry 0x8000000000000000) ∧ t.core.mat.fillState = .loaded ∧ t.core.mat.resident.record.samp = false) (loadedFill <| matQueue 0x8000000000000000 State.reset)
    ∧ meetsAt (fun t => leaves t 2 = some (matEntry 0x8000000000000000) ∧ t.core.mat.fillState ≠ .loaded) (matQueue 0x8000000000000000 State.reset)
    ∧ meetsAt (fun t => leaves t 0 = some (matEntry 0) ∧ t.core.mat.paceUntil = none ∧ (0 < paceLevel t.core.mat ∨ t.core.mat.mark = some 0)) (pacedBy 7 <| matQueue 0 State.reset)
    ∧ meetsAt (fun t => t.core.mat.fill = some (fillJob none) ∧ (fillJob none).fault = none) (filling none State.reset)
    ∧ meetsAt (fun t => t.core.mat.fill = some (fillJob (some 3)) ∧ (fillJob (some 3)).fault = some 3 ∧ t.core.mat.filling.record.samp = false) (filling (some 3) State.reset)) :=
  ⟨by and_intros <;> decide +kernel,
   by and_intros <;> exact meetsAt_of (by decide +kernel) (by decide +kernel)⟩

/-- A trap that is delegated, one of the ctl stream that is not, one of another stream, and one in supervisor mode. -/
theorem wit_TrapEntry :
    ((toJobHandler (delegates State.reset) .vec 0x20 = true ∧ ((delegates State.reset).str .vec).waiting = none ∧ (delegates State.reset).core.mat.mark = none)
    ∧ (toJobHandler (region State.reset) .ctl 0x20 = false ∧ ((region State.reset).str .ctl).priv = false ∧ (region State.reset).core.srbase.toNat < (region State.reset).core.srlim.toNat)
    ∧ toJobHandler State.reset .mat 0x20 = false
    ∧ (State.reset.core.srlim.toNat ≤ State.reset.core.srbase.toNat ∧ toJobHandler State.reset .ctl 0x20 = false)
    ∧ ((sup (region (on .ctl))).str .ctl).priv = true)
    ∧ (∀ t, remoteOf State.reset t = none) :=
  ⟨by and_intros <;> decide +kernel,
   fun t => by cases t <;> decide +kernel⟩

/-- A trap set aside at a boundary and not, each asynchronous cause, a load that lands and a walk that fills. -/
theorem wit_TrapEvents :
    meetsAt (fun t => (t.str t.arg.sec).deferred = setAside :: [] ∧ canTake t t.arg.sec setAside.record = true ∧ remoteOf t t.arg.sec = none ∧ isMatrixRec setAside.record = false) (ev 0 .vec 0 0 .none (defers .vec (running .vec State.reset)))
    ∧ meetsAt (fun t => (t.str t.arg.sec).deferred = setAside :: [] ∧ canTake t t.arg.sec setAside.record = false) (ev 0 .vec 0 0 .none (defers .vec State.reset))
    ∧ meetsAt (fun t => (t.str t.arg.sec).deferred = []) (ev 0 .vec 0 0 .none (State.reset))
    ∧ meetsAt (fun t => t.core.wdog = (5 : Word) ∧ (5 : Word) ≠ 0 ∧ (5 : Word).toNat ≤ t.now ∧ t.core.pendWatchdog = none) (ev 0 .ctl 0 0 .none (atCycle 5 (dogged 5 State.reset)))
    ∧ meetsAt (fun t => t.core.wdog = 0 ∨ t.now < t.core.wdog.toNat) (ev 0 .ctl 0 0 .none (atCycle 4 (dogged 5 State.reset)))
    ∧ meetsAt (fun t => t.core.dbe = true) (ev 0 .ctl 7 0 .none (State.reset.setCore { State.reset.core with dbe := true }))
    ∧ meetsAt (fun t => t.core.dbe = false) (ev 0 .ctl 7 0 .none (State.reset.setCore { State.reset.core with dbe := false }))
    ∧ meetsAt (fun t => waitsOn t .ctl = none ∧ (t.core.audit.pend = false ∨ t.core.audit.owner ≠ 2) ∧ canDeliver t = true ∧ t.core.pendWatchdog = some (5 : Word)) (ev 0 .ctl 0 0 .none ((running .ctl State.reset).setCore { (running .ctl State.reset).core with pendWatchdog := some 5 }))
    ∧ meetsAt (fun t => waitsOn t .ctl = none ∧ canDeliver t = true ∧ t.core.pendWatchdog = none ∧ t.core.audit.replicaPend = none ∧ parkedFirst t = none ∧ foragerPending t t.core.num = none ∧ t.core.audit.pend = false ∧ t.core.pendPreempt = false ∧ t.core.pendHost = some (5 : BitVec 32)) (ev 0 .ctl 0 0 .none ((running .ctl State.reset).setCore { (running .ctl State.reset).core with pendHost := some 5 }))
    ∧ meetsAt (fun t => (t.str .ctl).priv = true ∧ waitsOn t .ctl = none ∧ t.core.audit.pend = false) (ev 0 .ctl 0 0 .none (sup (on .ctl)))
    ∧ meetsAt (fun t => t.arg.sec = .ctl ∧ t.core.streams.ctl.flds.find? (fun flying => decide (flying.id = t.arg.a)) = some flying ∧ flying.bad = false) (ev 0 .ctl 3 0 .none (loading State.reset))
    ∧ meetsAt (fun t => t.arg.sec = .ctl ∧ t.core.streams.ctl.flds.find? (fun flyingBad => decide (flyingBad.id = t.arg.a)) = some flyingBad ∧ flyingBad.bad = true) (ev 0 .ctl 3 0 .none (loadingBad State.reset))
    ∧ meetsAt (fun t => t.arg.sec ≠ .ctl ∧ (t.str t.arg.sec).landing[t.arg.a]? = some landsAt ∧ landsAt.trap = none) (ev 0 .vec 0 0 .none (settles State.reset))
    ∧ meetsAt (fun t => t.arg.sec ≠ .ctl ∧ (t.str t.arg.sec).landing[t.arg.a]? = some landsBad ∧ landsBad.trap = some (mkTrap 0x05 0 0x40, (8 : BitVec 22))) (ev 0 .vec 0 0 .none (settlesBad State.reset))
    ∧ meetsAt (fun t => t.arg.a < 2 ^ 56 ∧ walkFrom t (dieOf t.core.num) t.core.asid t.arg.a 3 (bitsOf t.core.ptroot 14 50 * 2 ^ 14) = .leaf 0 0x40003 ∧ t.arg.b = 1) (ev 0 .ctl 0 1 .none (rooted State.reset))
    ∧ meetsAt (fun t => 2 ^ 56 ≤ t.arg.a) (ev 0 .ctl 0x100000000000000 0 .none (State.reset)) :=
  by and_intros <;> exact meetsAt_of (by decide +kernel) (by decide +kernel)

/-- Each boot state, GO with each outcome, and each mailbox command. What the host link and the cryptography answer is a free value, so their clauses are shown for the values that answer. -/
theorem wit_BootEvents :
    ((fun s => s.host.boot = .wait ∧ s.thermal.tripped = false) (State.reset)
    ∧ (fun s => s.host.boot ≠ .wait) (State.reset.setHost { State.reset.host with boot := .verify })
    ∧ (fun s => s.host.boot = .verify ∧ hostBytes s s.host.bootaddr.toNat s.host.bootlen.toNat = none) (State.reset.setHost { State.reset.host with boot := .verify, bootlen := 64 })
    ∧ (fun s => s.host.boot = .test ∧ s.host.identity = true) (State.reset.setHost { State.reset.host with boot := .test, identity := true })
    ∧ (fun s => s.host.boot = .test ∧ s.host.identity = false) (State.reset.setHost { State.reset.host with boot := .test })
    ∧ (fun s => s.host.locked = true) (linked State.reset)
    ∧ (fun s => s.host.locked = false ∧ (s.host.accept &&& ~~~s.host.offer ≠ 0 ∨ s.host.accept.getLsbD 0 = false)) (State.reset)
    ∧ (fun s => s.host.locked = false ∧ s.host.accept &&& ~~~s.host.offer = 0 ∧ s.host.accept.getLsbD 0 = true ∧ s.host.accept.getLsbD 224 = false) (State.reset.setHost { State.reset.host with offer := 7, accept := 7 })
    ∧ (fun s => mailboxServes s = true ∧ s.host.mbcmd = 1 ∧ s.host.mbarg1 = 0) (mailed 1 0 0 State.reset)
    ∧ (fun s => mailboxServes s = true ∧ s.host.mbcmd = 2 ∧ s.host.mbarg0.toNat % 64 = 0 ∧ s.host.identity = true) ((mailed 2 0x40 0 State.reset).setHost { (mailed 2 0x40 0 State.reset).host with identity := true })
    ∧ (fun s => mailboxServes s = true ∧ s.host.mbcmd = 3 ∧ s.host.mbarg1.toNat < 8112) (mailed 3 0 8111 State.reset)
    ∧ (fun s => mailboxServes s = true ∧ s.host.mbcmd = 3 ∧ 8112 ≤ s.host.mbarg1.toNat ∧ s.host.mbarg0.toNat % 64 = 0 ∧ s.host.identity = true) ((mailed 3 0x40 8112 State.reset).setHost { (mailed 3 0x40 8112 State.reset).host with identity := true })
    ∧ (fun s => mailboxServes s = true ∧ s.host.mbcmd = 5 ∧ 600 ≤ s.host.mbarg0.toNat ∧ s.host.mbarg0.toNat ≤ 1900 ∧ s.host.mbarg1 = 0) (mailed 5 1900 0 State.reset)
    ∧ (fun s => mailboxServes s = true ∧ s.host.mbcmd = 5 ∧ (s.host.mbarg0.toNat < 600 ∨ 1900 < s.host.mbarg0.toNat)) (mailed 5 1901 0 State.reset)
    ∧ (fun s => mailboxServes s = true ∧ (s.host.mbcmd = 0 ∨ 6 < s.host.mbcmd.toNat)) (mailed 7 0 0 State.reset)
    ∧ (fun s => s.host.mbresult = some (3, 0) ∧ s.host.msixMask.getLsbD 0 = false ∧ s.host.newSeed = none) (State.reset.setHost { State.reset.host with mbresult := some (3, 0), msixMask := 0 })
    ∧ (fun s => s.host.mbresult = some (0, 0) ∧ s.host.msixMask.getLsbD 0 = false ∧ s.host.newSeed = some (5, true)) (State.reset.setHost { State.reset.host with mbresult := some (0, 0), msixMask := 0, newSeed := some (5, true) })
    ∧ mailboxServes (mailed 6 0 64 (linked State.reset)) = true
    ∧ (let s := State.reset.setHost { State.reset.host with offer := BitVec.ofNat 256 (2 ^ 224 + 1), accept := BitVec.ofNat 256 (2 ^ 224 + 1) }; s.host.locked = false ∧ s.host.accept &&& ~~~s.host.offer = 0 ∧ s.host.accept.getLsbD 0 = true ∧ s.host.accept.getLsbD 224 = true))
    ∧ (fun s => s.host.boot = .verify ∧ (Config.outside 0 0 = false → hostBytes s s.host.bootaddr.toNat s.host.bootlen.toNat = some []) ∧ numOfBytes (([] : List Byte).take 4) ≠ 0x49465353) ((linked State.reset).setHost { (linked State.reset).host with boot := .verify })
    ∧ (mailboxServes (mailed 1 0 64 (linked State.reset)) = true ∧ (mailed 1 0 64 (linked State.reset)).host.identity = false ∧ (Config.outside 0 0 = false → hostReach (mailed 1 0 64 (linked State.reset)) 0 64 = true))
    ∧ (mailboxServes (mailed 2 0 64 (linked State.reset)) = true ∧ (mailed 2 0 64 (linked State.reset)).host.identity = false ∧ (Config.outside 0 0 = false → hostReach (mailed 2 0 64 (linked State.reset)) 0 64 = true))
    ∧ (mailboxServes (mailed 4 0 64 (linked State.reset)) = true ∧ (mailed 4 0 64 (linked State.reset)).host.identity = false ∧ (Config.outside 0 0 = false → hostReach (mailed 4 0 64 (linked State.reset)) 0 64 = true)) :=
  ⟨by and_intros <;> decide +kernel,
   ⟨by decide +kernel, fun h => boot_bytes h, by decide +kernel⟩,
   ⟨by decide +kernel, by decide +kernel, mail_reach 1 (by decide)⟩,
   ⟨by decide +kernel, by decide +kernel, mail_reach 2 (by decide)⟩,
   ⟨by decide +kernel, by decide +kernel, mail_reach 4 (by decide)⟩⟩

/-- A queue with room and without, addresses that decode and not, registers of each kind, and flits that are damaged, out of order and next. -/
theorem wit_HostAndFabricEvents :
    (fun s => s.arg.a < 64 ∧ s.arg.data = .cell zeroCell ∧ s.arg.b = 0 ∧ (launchQueue s s.arg.a).en = true ∧ (launchQueue s s.arg.a).packets.length < 256) (ev 0 .ctl 0 0 (.cell zeroCell) (openQueue State.reset))
    ∧ (fun s => s.arg.a < 64 ∧ s.arg.data = .cell zeroCell ∧ (launchQueue s s.arg.a).drop.toNat < 255 ∧ (s.arg.b = 1 ∨ (launchQueue s s.arg.a).en = false ∨ 256 ≤ (launchQueue s s.arg.a).packets.length)) (ev 0 .ctl 63 0 (.cell zeroCell) (State.reset))
    ∧ (fun s => s.arg.data = .cell zeroCell ∧ s.arg.b = 2 ^ 64 - 1 ∧ s.host.locked = true ∧ hostWaits s = false ∧ (inHdm s (s.arg.a / 64 * 64) = false ∨ routableLocal s (hostToLocal s (s.arg.a / 64 * 64)) = true)) (ev 0 .ctl 0x1FFFFFFFC0 (2 ^ 64 - 1) (.cell zeroCell) (linked State.reset))
    ∧ (fun s => s.arg.data = .cell zeroCell ∧ hostWaits s = false ∧ inHdm s (s.arg.a / 64 * 64) = true ∧ routableLocal s (hostToLocal s (s.arg.a / 64 * 64)) = false) (ev 0 .ctl 0x2000000000 (2 ^ 64 - 1) (.cell zeroCell) (linked State.reset))
    ∧ (fun s => s.arg.data = .cell zeroCell ∧ hostWaits s = true) (ev 0 .ctl 0 0 (.cell zeroCell) ({ linked State.reset with pending := [plainEvent .hostMemWrite] }))
    ∧ (fun s => s.arg.b = 0 ∧ hostWaits s = true) (ev 0 .ctl 0 0 .none ({ linked State.reset with pending := [plainEvent .hostMemRead] }))
    ∧ (fun s => s.arg.b = 0 ∧ hostWaits s = false ∧ inHdm s (s.arg.a / 64 * 64) = true ∧ routable s (hostPa s (s.arg.a / 64 * 64)) = true ∧ memRangeBad s (hostPa s (s.arg.a / 64 * 64)) 64 = false) (ev 0 .ctl 0x1FFFFFFFC0 0 .none (linked State.reset))
    ∧ (fun s => s.arg.b = 0 ∧ hostWaits s = false ∧ inHdm s (s.arg.a / 64 * 64) = false) (ev 0 .ctl 0 0 .none (State.reset))
    ∧ (fun s => s.arg.b = 1 ∧ s.arg.a / 8 * 8 ∈ [0x110, 0x318, 0x4008, 0x10000]) (ev 0 .ctl 0x4008 1 .none (State.reset))
    ∧ (fun s => s.arg.b = 1 ∧ s.arg.a / 8 * 8 = 0x40) (ev 0 .ctl 0x44 1 .none (State.reset))
    ∧ (fun s => s.arg.b = 1 ∧ s.arg.a / 8 * 8 = 0x100) (ev 0 .ctl 0x107 1 .none (State.reset))
    ∧ (fun s => s.arg.data = .word (5 : Word) ∧ s.arg.b = 1 ∧ s.arg.a / 4 * 4 = 0x108) (ev 0 .ctl 0x108 1 (.word 5) (State.reset))
    ∧ (fun s => s.arg.data = .word (5 : Word) ∧ s.arg.b = 0 ∧ s.arg.a / 8 * 8 = 0x40 ∧ (5 : Word).toNat % 2 = 1) (ev 0 .ctl 0x40 0 (.word 5) (State.reset))
    ∧ (fun s => s.arg.data = .word (5 : Word) ∧ s.arg.b = 1 ∧ s.arg.a / 4 * 4 = 0x300 ∧ s.host.busy = true) (ev 0 .ctl 0x300 1 (.word 5) (State.reset.setHost { State.reset.host with busy := true }))
    ∧ (fun s => s.arg.data = .word (5 : Word) ∧ s.arg.b = 1 ∧ s.arg.a / 4 * 4 = 0x88 ∧ s.host.locked = true) (ev 0 .ctl 0x88 1 (.word 5) (linked State.reset))
    ∧ (fun s => s.arg.data = .word (0x404 : Word) ∧ s.arg.a = 0) (ev 0 .ctl 0 1 (.word 0x404) (State.reset))
    ∧ (fun s => s.arg.a < 256 ∧ s.host.msixPend.getLsbD s.arg.a = true) (ev 0 .ctl 255 0 .none (State.reset.setHost { State.reset.host with msixPend := BitVec.allOnes 256 }))
    ∧ (fun s => s.arg.data = .flit (flit false 0) ∧ s.arg.b ≠ 1 ∧ s.arg.a < 16 ∧ fabricOn s = true ∧ (portAt s s.arg.a).up = true ∧ (portAt s s.arg.a).retraining = false ∧ (flit false 0).intact = false) (ev 0 .ctl 0 0 (.flit (flit false 0)) (portUp (accepted State.reset)))
    ∧ (fun s => s.arg.data = .flit (flit true 1) ∧ s.arg.b ≠ 1 ∧ s.arg.a < 16 ∧ fabricOn s = true ∧ (portAt s s.arg.a).up = true ∧ (portAt s s.arg.a).retraining = false ∧ (flit true 1).intact = true ∧ (flit true 1).seq ≠ (portAt s s.arg.a).expect) (ev 0 .ctl 0 0 (.flit (flit true 1)) (portUp (accepted State.reset)))
    ∧ (fun s => s.arg.data = .flit (flit true 0) ∧ s.arg.b ≠ 1 ∧ s.arg.a < 16 ∧ fabricOn s = true ∧ (portAt s s.arg.a).up = true ∧ (portAt s s.arg.a).retraining = false ∧ (flit true 0).intact = true ∧ (flit true 0).seq = (portAt s s.arg.a).expect) (ev 0 .ctl 0 0 (.flit (flit true 0)) (portUp (accepted State.reset)))
    ∧ (fun s => s.arg.data = .flit (flit true 0) ∧ s.arg.b = 1) (ev 0 .ctl 0 1 (.flit (flit true 0)) (State.reset))
    ∧ (fun s => s.arg.a < 16 ∧ ((portAt s s.arg.a).replay.any fun f => f.1.seq == BitVec.ofNat 16 s.arg.b) = true ∧ ∀ f ∈ (portAt s s.arg.a).replay, f.2 < 15) (ev 0 .ctl 0 1 .none (replaying State.reset))
    ∧ (fun s => s.arg.a < 16) (ev 0 .ctl 15 0 .none (State.reset))
    ∧ (fun s => s.arg.a < 16 ∧ s.arg.b = 0) (ev 0 .ctl 15 0 .none (State.reset))
    ∧ (fun s => s.arg.a < 16 ∧ s.arg.b = 1 ∧ (portAt s s.arg.a).spareUsed = true) (ev 0 .ctl 0 1 .none (sparedLane State.reset))
    ∧ (fun s => s.arg.a < 16 ∧ s.arg.b = 1 ∧ (portAt s s.arg.a).spareUsed = false) (ev 0 .ctl 15 1 .none (State.reset))
    ∧ (fun s => s.arg.a < 16 ∧ s.arg.b = 2) (ev 0 .ctl 15 2 .none (State.reset))
    ∧ (fun s => s.arg.a ∉ s.members) (ev 0 .ctl 5 0 .none (State.reset))
    ∧ (fun s => s.arg.a % 2 ^ 12 ∉ s.members) (ev 0 .ctl 5 0 .none (State.reset))
    ∧ (fun s => s.isMember s.arg.a = true) (ev 0 .ctl 5 0 .none ({ State.reset with members := [5] }))
    ∧ (inHdm (ev 0 .ctl 0x2000000000 0 .none (linked State.reset)) 0x2000000000 = true ∧ routable (linked State.reset) (hostPa (linked State.reset) 0x2000000000) = false)
    ∧ (State.reset.host.evring = none ∧ State.reset.host.evWaiting.length < 256 ∧ 256 ≤ (fullEvents State.reset).host.evWaiting.length ∧ (fullEvents State.reset).host.evring = none)
    ∧ (fabricOn (accepted State.reset) = true ∧ (accepted State.reset).isMember 5 = false) :=
  by and_intros <;> decide +kernel

/-- The first atom and the last part of the patrol, banks with and without a spare, and cores kept and lost. What sensors, back-offs and the number of rows are is a free value, so their clauses are shown for the values that answer. -/
theorem wit_RepairEvents :
    ((fun s => s.arg.a < s.tiers.stcap ∧ s.arg.b = 1 ∧ s.arg.a / 32 ∉ s.memBad ∧ s.arg.a / 32 ∉ s.memLost) (ev 0 .ctl 0 1 .none (State.reset))
    ∧ (fun s => s.arg.a < s.tiers.stcap ∧ s.arg.b = 0 ∧ s.arg.a / 32 ∉ s.memBad ∧ s.arg.a / 32 ∉ s.memLost) (ev 0 .ctl 0x1FFFFFFFFF 0 .none (State.reset))
    ∧ (fun s => s.arg.a < s.tiers.stcap ∧ (s.arg.b = 2 ∨ s.arg.a / 32 ∈ s.memBad ∨ s.arg.a / 32 ∈ s.memLost)) (ev 0 .ctl 63 0 .none ({ State.reset with memBad := [1] }))
    ∧ (fun s => s.tiers.stcap ≤ s.arg.a ∧ s.arg.a < 2 ^ 40) (ev 0 .ctl 0x2000000000 0 .none (State.reset))
    ∧ (fun s => feature s 7 0 = true ∧ ∀ c ∈ s.tiers.spares, c / 2 ^ 8 ≠ s.arg.a / 2 ^ 8) (ev 0 .ctl 0x100 0 .none (accepted State.reset))
    ∧ (fun s => feature s 7 0 = false ∨ ∃ c ∈ s.tiers.spares, c / 2 ^ 8 = s.arg.a / 2 ^ 8) (ev 0 .ctl 0x100 0 .none (State.reset))
    ∧ (fun s => s.arg.b = 1 ∧ ∀ c ∈ s.tiers.spares, c / 2 ^ 8 ≠ s.arg.a / 2 ^ 8) (ev 0 .ctl 0x100 1 .none (State.reset))
    ∧ (fun _ => True) (ev 0 .ctl 1 0 .none (State.reset))
    ∧ (fun s => s.tiers.copies = [(s.arg.a, 0)]) (ev 0 .ctl 0x100 0 .none (State.reset.setTiers { State.reset.tiers with copies := [(0x100, 0)] }))
    ∧ (fun s => s.arg.a < 2 ∧ s.arg.b < 115) (ev 0 .ctl 1 114 .none (State.reset))
    ∧ (fun s => s.thermal.cap = 7) (State.reset.setThermal { State.reset.thermal with cap := 7 })
    ∧ (fun s => s.arg.a = 191 ∧ 191 < 192 ∧ s.arg.data = .word (2 : Word) ∧ atPreemption s 191 = false) (ev 0 .ctl 191 0 (.word 2) (atWork State.reset))
    ∧ (fun s => s.arg.a = 191 ∧ 191 < 192 ∧ s.arg.data = .word (0 : Word) ∧ atPreemption s 191 = true ∧ (0 : Word) = 0) (ev 0 .ctl 191 0 (.word 0) (State.reset))
    ∧ (fun s => s.arg.a = 191 ∧ 191 < 192 ∧ s.arg.data = .word (0x1F01 : Word) ∧ atPreemption s 191 = true ∧ (0x1F01 : Word).toNat % 256 = 1 ∧ (s.columnRepairs.filter (· == (s.physical[Fin.ofNat 192 191], (0x1F01 : Word).toNat / 256 % 32))).length < 4) (ev 0 .ctl 191 255 (.word 0x1F01) (repairedTo 3 63 State.reset))
    ∧ (fun s => s.arg.a = 191 ∧ 191 < 192 ∧ s.arg.data = .word (3 : Word) ∧ atPreemption s 191 = true ∧ (3 : Word).toNat % 256 = 3 ∧ (s.rowRepairs.filter (· == s.physical[Fin.ofNat 192 191])).length < 64) (ev 0 .ctl 191 255 (.word 3) (repairedTo 4 63 State.reset))
    ∧ (ev 0 .ctl 63 0 .none State.reset).arg.a < 64
    ∧ (State.reset.thermal.cap ≠ 7)
    ∧ ((present (ev 0 .ctl 191 0 (.word 2) State.reset)).host.present.getLsbD 191 = true ∧ atPreemption (present (ev 0 .ctl 191 0 (.word 2) State.reset)) 191 = true)
    ∧ (let s := { repairedTo 4 64 (ev 0 .ctl 191 0 (.word 0x1F01) State.reset) with spares := [] }; atPreemption s 191 = true ∧ 4 ≤ (s.columnRepairs.filter (· == (s.physical[Fin.ofNat 192 191], (0x1F01 : Word).toNat / 256 % 32))).length
      ∧ (0x1F01 : Word).toNat % 256 = 1 ∧ 64 ≤ (s.rowRepairs.filter (· == s.physical[Fin.ofNat 192 191])).length ∧ s.spares = [])
    ∧ ((0 : Nat) ∈ ({ State.reset with memLost := [0] } : State).memLost)
    ∧ (State.reset.tiers.corrs.toNat < 2 ^ 32 - 1 ∧ State.reset.tiers.uncs.toNat < 2 ^ 32 - 1 ∧ nextOfStage State.reset + 1 < State.reset.tiers.stcap / 32 ∧ nextOfStage (State.reset.setTiers { State.reset.tiers with nextStage := 2 ^ 32 - 1 }) = 2 ^ 32 - 1 ∧ State.reset.tiers.stcap / 32 ≤ 2 ^ 32 - 1 + 1)
    ∧ ((State.reset.setTiers { State.reset.tiers with blocked := [(0x100, 7)] }).tiers.blocked = [(0x100, 7)]))
    ∧ (fun s => (∃ c, (s.arg.a, c) ∈ s.tiers.blocked) ∧ s.tiers.aboall.toNat < 2 ^ 32 - 1) (ev 0 .ctl 0x100 0 .none (State.reset.setTiers { State.reset.tiers with blocked := [(0x100, 7)] }))
    ∧ (fun s => (∀ c, (s.arg.a, c) ∉ s.tiers.blocked) ∧ s.tiers.aboall.toNat < 2 ^ 32 - 1 ∧ s.tiers.abomax.toNat < 2 ^ 32 - 1) (ev 0 .ctl 0x100 0 .none (State.reset))
    ∧ (fun s => (∀ c, (s.arg.a, c) ∉ s.tiers.blocked) ∧ s.tiers.aboall.toNat < 2 ^ 32 - 1) (ev 0 .ctl 0x100 0 .none (State.reset))
    ∧ (fun s => s.tiers.copies = [(s.arg.a, Config.bankRows)]) (ev 0 .ctl 0x100 0 .none (State.reset.setTiers { State.reset.tiers with copies := [(0x100, Config.bankRows)] }))
    ∧ (∃ p ∈ ({ State.reset with spares := [0x167] } : State).spares, p.toNat / 256 = dieOf 191) :=
  ⟨by and_intros <;> decide +kernel,
   ⟨⟨7, by decide +kernel⟩, by decide +kernel⟩,
   ⟨(fun c h => nomatch h), by decide +kernel, by decide +kernel⟩,
   ⟨(fun c h => nomatch h), by decide +kernel⟩,
   rfl,
   ⟨0x167, List.mem_cons_self, by decide +kernel⟩⟩

/-- The frame is of words that issue and complete. -/
theorem wit_ScalarFrame :
    (issues (.add oDABP) (useDABP oDABP) (on .ctl)
    ∧ (on .ctl).cur.bank.nest.active = false
    ∧ issues (.clz oDAP) (useDAP oDAP) (on .ctl)
    ∧ issues (.addi oDAI) (useDAI oDAI) (on .ctl)
    ∧ issues (.shli oDAH) (useDAH oDAH) (on .ctl)
    ∧ issues (.lil oDI) (useDI oDI) (on .ctl)
    ∧ issues (.cyc oDP) (useDP oDP) (on .ctl))
    ∧ (∃ t, exec (.add oDABP) (on .ctl) = .next t) :=
  ⟨by and_intros <;> first | decide +kernel | (unfold guardTrue; decide +kernel),
   ⟨_, rfl⟩⟩

/-- A stream that runs, one whose word does not decode, a forbidden fetch, a parked stream, an event that is due, and a request that waits for the streams while another event is performed. -/
theorem wit_StepRunsTheWord :
    (let s := placedWord 0x0D312345 State.reset; (∀ e ∈ s.pending, mustWait s e = true) ∧ dueEvent s = none ∧ runnable s = true ∧ fetchForbidden s = false ∧ decodeIn s.turn (fetchWord s) = .ok (.lil { s := false, d := .n 3, i := 0x12345 }))
    ∧ (let s := placedWord 0x7E000000 State.reset; (∀ e ∈ s.pending, mustWait s e = true) ∧ dueEvent s = none ∧ runnable s = true ∧ fetchForbidden s = false ∧ decodeIn s.turn (fetchWord s) = .error .unassignedMajor)
    ∧ (let s := region (placedWord 0 State.reset); (∀ e ∈ s.pending, mustWait s e = true) ∧ dueEvent s = none ∧ runnable s = true ∧ fetchForbidden s = true)
    ∧ (let s := idleOne State.reset; (∀ e ∈ s.pending, mustWait s e = true) ∧ dueEvent s = none ∧ runnable s = false)
    ∧ (let s := sleeper State.reset; (∀ e ∈ s.pending, mustWait s e = true) ∧ (dueEvent s).map (·.i) = some .sleepWake)
    ∧ (let s := idleOne State.reset; ∀ p ∈ s.core.oldWords.get s.turn, p.1 ≠ s.cur.pc.toNat)
    ∧ (let s := { idleOne State.reset with pending := [lateRequest, wakeUp] }; s.pending = [lateRequest] ++ wakeUp :: [] ∧ mustWait s lateRequest = true ∧ sameLane wakeUp lateRequest = false ∧ mustWait s wakeUp = false)
    ∧ (let s := askPark (running .copy (idleOne State.reset)) .copy; s.cur.parkAsked = true ∧ s.cur.deferred = [] ∧ isStarted s s.turn = true ∧ remoteOf s s.turn = none)
    ∧ ((idleOne State.reset).cur.parkAsked = false) :=
  by and_intros <;> decide +kernel

/-- A well-formed word and an event. -/
theorem wit_EncodeDecode :
    (wellFormed (.lil { s := false, d := .n 3, i := 0x12345 }) = true ∧ encode (.lil { s := false, d := .n 3, i := 0x12345 }) = some 0x0D312345)
    ∧ encode .moduleReset = none :=
  ⟨by decide +kernel,
   rfl⟩

/-- The reset state is canonical and steps. -/
theorem wit_CanonicalMemory :
    (State.reset.wf ∧ (∃ t, exec (.add oDABP) (on .ctl) = .next t) ∧ ∃ t, step State.reset = .next t) :=
  ⟨by unfold State.wf coreWf; decide +kernel, ⟨_, rfl⟩, step_next⟩

end Sys2Proof.Tests
end

