-- ==== Sys2Proof/Proofs/Fabric.lean ====
section
/-! What the fabric does at the end of a device cycle, said once: it touches its ports and what waits to go out. -/

namespace Sys2Proof.Machine

/-- Nothing differs but the ports, what waits to go out on them, the members without a route and the counter of free values. -/
def onlyFabric (s t : State) : Prop :=
  ∃ p o r n k, t = { s with ports := p, outbound := o, transit := r, noRoute := n, tick := k }

theorem onlyFabric_refl (s : State) : onlyFabric s s := ⟨_, _, _, _, _, rfl⟩

theorem onlyFabric_trans {s t u : State} (h : onlyFabric s t) (k : onlyFabric t u) : onlyFabric s u := by
  obtain ⟨p, o, r, n, c, rfl⟩ := h
  obtain ⟨p', o', r', n', c', rfl⟩ := k
  exact ⟨p', o', r', n', c', rfl⟩

theorem sendFlit_onlyFabric (f : Flit) (s : State) : onlyFabric s (sendFlit f s).1 := by
  unfold sendFlit
  split
  · exact onlyFabric_refl s
  · dsimp only
    split
    · exact onlyFabric_refl s
    · exact ⟨_, _, _, _, _, rfl⟩

theorem sendFlits_onlyFabric (l : List Flit) (held : List (BitVec 12)) (s : State) : onlyFabric s (sendFlits held l s).1 := by
  induction l generalizing held s with
  | nil => exact onlyFabric_refl s
  | cons f l ih =>
    refine onlyFabric_trans ?_ (ih _ _)
    split
    · exact onlyFabric_refl s
    · exact sendFlit_onlyFabric f s

theorem flushPorts_onlyFabric (s : State) : onlyFabric s (flushPorts s) := by
  unfold flushPorts
  split
  · exact onlyFabric_refl s
  · refine onlyFabric_trans (t := { s with tick := s.tick + 1 }) ⟨_, _, _, _, _, rfl⟩ ?_
    exact onlyFabric_trans (sendFlits_onlyFabric _ _ _) ⟨_, _, _, _, _, rfl⟩

theorem fabricTick_onlyFabric (s : State) : onlyFabric s (fabricTick s) :=
  onlyFabric_trans (flushPorts_onlyFabric s) ⟨_, _, _, _, _, rfl⟩

theorem fabricTick_mem (s : State) : (fabricTick s).mem = s.mem := by
  obtain ⟨_, _, _, _, _, e⟩ := fabricTick_onlyFabric s; rw [e]

theorem fabricTick_turn (s : State) : (fabricTick s).turn = s.turn := by
  obtain ⟨_, _, _, _, _, e⟩ := fabricTick_onlyFabric s; rw [e]

/-- The core in focus as the end of its cycle leaves it: a frozen one counts the cycle, any other goes on with its audit check (R19, R305). -/
def endOfCycle (s : State) : CoreState :=
  if s.core.copy.frozenSince.isSome then { s.core with frozen := s.core.frozen + 1 } else auditTick s.ccc s.core

/-- A module of one core: its cycle is the device's. -/
theorem nextCore_alone {s : State} (h : s.others = []) : nextCore s = fabricTick { s with core := endOfCycle s, now := s.now + 1 } := by
  unfold nextCore; rw [h]; rfl

/-- The first of the other cores comes into focus, and where its number is not the greater a device cycle is over. -/
theorem nextCore_cons {s : State} {d : CoreState} {rest : List CoreState} (h : s.others = d :: rest) :
    nextCore s = if d.num ≤ (endOfCycle s).num then fabricTick { s with core := d, others := rest ++ [endOfCycle s], now := s.now + 1 }
      else { s with core := d, others := rest ++ [endOfCycle s] } := by
  unfold nextCore; rw [h]; rfl

theorem nextCore_mem (s : State) : (nextCore s).mem = s.mem := by
  cases h : s.others with
  | nil => rw [nextCore_alone h, fabricTick_mem]
  | cons d rest =>
    rw [nextCore_cons h]
    split
    · rw [fabricTick_mem]
    · rfl

theorem nextCore_turn (s : State) : (nextCore s).turn = s.turn := by
  cases h : s.others with
  | nil => rw [nextCore_alone h, fabricTick_turn]
  | cons d rest =>
    rw [nextCore_cons h]
    split
    · rw [fabricTick_turn]
    · rfl

end Sys2Proof.Machine
end

