-- ==== Sys2Proof/Proofs/StepOrder.lean ====
section
/-! The order of a step (O56): pending events, what falls due, the word at the program counter, and the turn passing on. -/

namespace Sys2Proof.Machine

/-! ### The word at the program counter -/

/-- A little-endian number of n bytes is below 256^n (R4). -/
theorem numOfBytes_lt (l : List Byte) : numOfBytes l < 256 ^ l.length := by
  induction l with
  | nil => decide
  | cons b l ih =>
    have := b.isLt
    simp only [numOfBytes, List.length_cons, Nat.pow_succ]
    omega

theorem spadReadNum_lt (s : State) (a n : Nat) : spadReadNum s a n < 256 ^ n := by
  simpa [spadReadNum] using numOfBytes_lt ((List.range n).map fun i => spadRead s (a + i))

theorem fetchWord_lt (s : State) : fetchWord s < 2 ^ 32 := by
  unfold fetchWord
  split
  · split
    · exact BitVec.isLt _
    · exact spadReadNum_lt s _ 4
  · exact spadReadNum_lt s _ 4

theorem fetchWord_of_notOld {s : State} (h : ∀ p ∈ s.core.oldWords.get s.turn, p.1 ≠ s.cur.pc.toNat) :
    fetchWord s = spadReadNum s s.cur.pc.toNat 4 := by
  have hn : (s.core.oldWords.get s.turn).find? (fun p => decide (p.1 = s.cur.pc.toNat)) = none := by simpa using h
  unfold fetchWord
  rw [hn]

/-- The record of a fetched word that fails a check holds the whole word and the check's number. -/
theorem illegalRec_fetchWord (s : State) (e : DecodeError) :
    illegalRec (fetchWord s) (checkNumber e) 0 = mkTrap 0x01 (fetchWord s + checkNumber e * 2 ^ 32) 0 := by
  have hc : checkNumber e % 8 = checkNumber e := by cases e <;> rfl
  unfold illegalRec
  rw [Nat.mod_eq_of_lt (fetchWord_lt s), hc]
  rfl

theorem fetch_forbidden {s : State} (h : fetchForbidden s = true) : fetch s = .trap (mkTrap 0x02 1 s.cur.pc.toNat) := by
  unfold fetch
  rw [if_pos h]
  rfl

theorem fetch_word {s : State} {i : Instr} (h : fetchForbidden s = false) (hd : decodeIn s.turn (fetchWord s) = .ok i) : fetch s = .word i := by
  simp [fetch, h, hd]

theorem fetch_illegal {s : State} {e : DecodeError} (h : fetchForbidden s = false) (hd : decodeIn s.turn (fetchWord s) = .error e) :
    fetch s = .trap (mkTrap 0x01 (fetchWord s + checkNumber e * 2 ^ 32) 0) := by
  simp [fetch, h, hd, illegalRec_fetchWord]

/-! ### Which pending event is performed -/

/-- Events that must all wait leave none to perform. -/
theorem firstReady_none {s : State} {l : List Event} (h : ∀ e ∈ l, mustWait s e = true) (kept : List Event) : firstReady s kept l = none := by
  induction l generalizing kept with
  | nil => rfl
  | cons e l ih =>
    have he : mustWait s e = true := h e (by simp)
    simp only [firstReady, he, Bool.true_or, if_true]
    exact ih (fun x hx => h x (by simp [hx])) _

/-- The first event that need not wait is performed when none that is kept back before it shares its lane. -/
theorem firstReady_first {s : State} {l r kept : List Event} {e : Event} (hl : ∀ x ∈ l, mustWait s x = true) (he : mustWait s e = false)
    (hk : ∀ x ∈ kept ++ l, sameLane e x = false) : firstReady s kept (l ++ e :: r) = some (e, kept ++ l ++ r) := by
  induction l generalizing kept with
  | nil =>
    have hany : kept.any (sameLane e) = false := by simpa using hk
    simp [firstReady, he, hany]
  | cons x l ih =>
    have hx : mustWait s x = true := hl x (by simp)
    simp only [List.cons_append, firstReady, hx, Bool.true_or, if_true]
    rw [ih (fun y hy => hl y (by simp [hy])) (by simpa using hk)]
    simp

theorem nextPending_none {s : State} (h : ∀ e ∈ s.pending, mustWait s e = true) : nextPending s = none := by
  simp [nextPending, firstReady_none h]

theorem nextPending_first {s : State} {l r : List Event} {e : Event} (hp : s.pending = l ++ e :: r)
    (hl : ∀ x ∈ l, mustWait s x = true ∧ sameLane e x = false) (he : mustWait s e = false) :
    nextPending s = some (e, { s with pending := l ++ r }) := by
  unfold nextPending
  rw [hp, firstReady_first (fun x hx => (hl x hx).1) he (fun x hx => (hl x (by simpa using hx)).2)]
  rfl

theorem mustWait_iff (s : State) (e : Event) : mustWait s e = true ↔ bankWaits s e = true ∨
    (e.i = .remoteSemRequest ∨ e.i = .remoteWithdrawal) ∧ e.arg.b = s.now + 1 ∧ s.core.num ≤ e.arg.core := by
  simp [mustWait, and_assoc]

/-! ### A step, case by case -/

theorem step_pending {s : State} {l r : List Event} {e : Event} (hp : s.pending = l ++ e :: r)
    (hl : ∀ x ∈ l, mustWait s x = true ∧ sameLane e x = false) (he : mustWait s e = false) :
    step s = exec e.i { s with pending := l ++ r, arg := e.arg } := by
  unfold step
  rw [nextPending_first hp hl he]

theorem step_due {s : State} {e : Event} (hp : ∀ x ∈ s.pending, mustWait s x = true) (hd : dueEvent s = some e) :
    step s = exec e.i { s with arg := e.arg } := by
  unfold step
  rw [nextPending_none hp, hd]

theorem step_word {s : State} {i : Instr} (hp : ∀ x ∈ s.pending, mustWait s x = true) (hd : dueEvent s = none) (hr : runnable s = true)
    (hf : fetch s = .word i) : step s = passOn (exec i s) := by
  unfold step
  rw [nextPending_none hp, hd]
  simp [hr, hf]

theorem step_fetchTrap {s : State} {t : TrapRec} (hp : ∀ x ∈ s.pending, mustWait s x = true) (hd : dueEvent s = none) (hr : runnable s = true)
    (hf : fetch s = .trap t) : step s = .next (rotate (trapOut t s)) := by
  unfold step
  rw [nextPending_none hp, hd]
  simp [hr, hf]

theorem step_rest {s : State} (hp : ∀ x ∈ s.pending, mustWait s x = true) (hd : dueEvent s = none) (hr : runnable s = false) :
    step s = .next (rotate (restTurn s)) := by
  unfold step
  rw [nextPending_none hp, hd]
  simp [hr]

/-! ### The turn of a stream that does not issue, and the turn passing on -/

theorem restTurn_notAsked {s : State} (h : s.cur.parkAsked = false) : restTurn s = s := by
  simp [restTurn, h]

theorem restTurn_parks {s : State} (ha : s.cur.parkAsked = true) (hd : s.cur.deferred = []) (hs : isStarted s s.turn = true)
    (hr : remoteOf s s.turn = none) : restTurn s = parkStream s s.turn := by
  simp [restTurn, ha, hd, hs, hr]

/-- After any stream but vec the same core stays in focus, in the same device cycle. -/
theorem rotate_sameCore {s : State} (h : s.turn ≠ .vec) : rotate s = { s with turn := nextSec s.turn } := by
  unfold rotate
  cases ht : s.turn with
  | vec => exact absurd ht h
  | ctl => rfl
  | copy => rfl
  | mat => rfl

theorem rotate_vec {s : State} (h : s.turn = .vec) : rotate s = nextCore { s with turn := .ctl } := by
  unfold rotate; rw [h]

theorem rotate_turn (s : State) : (rotate s).turn = nextSec s.turn := by
  by_cases h : s.turn = .vec
  · rw [rotate_vec h, nextCore_turn, h]; rfl
  · rw [rotate_sameCore h]

theorem rotate_mem (s : State) : (rotate s).mem = s.mem := by
  by_cases h : s.turn = .vec
  · rw [rotate_vec h, nextCore_mem]
  · rw [rotate_sameCore h]

/-- Settles O56: each clause is the lemma of its case of `step`, `fetchWord`, `restTurn` or `rotate`. -/
theorem stepRunsTheWord : Obligations.StepRunsTheWord := by
  unfold Obligations.StepRunsTheWord
  refine ⟨fun s hp hd => ⟨fun i hr hf hi => ?_, fun e hr hf he => step_fetchTrap hp hd hr (fetch_illegal hf he),
      fun hr hf => step_fetchTrap hp hd hr (fetch_forbidden hf), step_rest hp hd⟩,
    fun s => restTurn_notAsked, fun s => restTurn_parks, fun s => fetchWord_of_notOld, fun s l r e => step_pending, mustWait_iff,
    fun s e => step_due, fun s => ?_⟩
  · exact step_word hp hd hr (fetch_word hf hi)
  · refine ⟨?_, ?_, ?_, ?_, fun h => by rw [rotate_sameCore h]; exact ⟨rfl, rfl⟩, rotate_mem s⟩
    all_goals intro h; rw [rotate_turn, h]; rfl

end Sys2Proof.Machine
end


-- ==== Sys2Proof/Proofs/CanonicalForm.lean ====
section
/-! O59, the form itself: what an effect and an outcome keep, and the folds and record updates that the model's functions are made of. In what follows a lemma
`f_wf` says that `f` keeps the canonical form of memory, tags and scratchpads; a function that calls others takes its lemma from theirs, case by case. -/

namespace Sys2Proof.Machine

/-- Every state in an effect is in canonical form. -/
inductive Eff.wf : Eff → Prop
  | done {s : State} (h : s.wf) : Eff.wf (.done s)
  | jump {s : State} (h : s.wf) : Eff.wf (.jump s)
  | hold : Eff.wf .hold
  | trap {r : TrapRec} : Eff.wf (.trap r)
  | trapIn {s : State} {r : TrapRec} (h : s.wf) : Eff.wf (.trapIn s r)

/-- An outcome's next state, where it has one, is in canonical form. -/
inductive nextWf : Host.Outcome State Fault Refusal → Prop
  | next {s : State} (h : s.wf) : nextWf (.next s)
  | fault {f : Fault} : nextWf (.fault f)
  | refused {r : Refusal} : nextWf (.refused r)

theorem nextWf.wf {t : State} : nextWf (.next t) → t.wf
  | .next h => h

theorem State.wf.core {s : State} (h : s.wf) : coreWf s.core := h.2.2.1

/-! ### Results of calls -/

theorem wf_of_fst {α : Type} {p : State × α} {t : State} {x : α} (e : p = (t, x)) (h : p.1.wf) : t.wf := by rw [e] at h; exact h

theorem wf_of_snd {α : Type} {p : α × State} {t : State} {x : α} (e : p = (x, t)) (h : p.2.wf) : t.wf := by rw [e] at h; exact h

/-- A choice between two states keeps the form where both have it. -/
theorem ite_wf {p : Prop} [Decidable p] {s t : State} (hs : s.wf) (ht : t.wf) : State.wf (if p then s else t) := by
  split
  · exact hs
  · exact ht

/-! ### Folds -/

theorem foldl_coreWf {α : Type} {f : CoreState → α → CoreState} (hf : ∀ c x, coreWf c → coreWf (f c x)) (l : List α) {c : CoreState} (h : coreWf c) :
    coreWf (l.foldl f c) := by
  induction l generalizing c with
  | nil => exact h
  | cons x l ih => exact ih (hf c x h)

theorem foldl_xferWf {α : Type} {f : Xfer → α → Xfer} (hf : ∀ x a, x.s.wf → (f x a).s.wf) (l : List α) {x : Xfer} (h : x.s.wf) : (l.foldl f x).s.wf := by
  induction l generalizing x with
  | nil => exact h
  | cons a l ih => exact ih (hf x a h)

theorem foldl_memWf {α : Type} {f : Memory → α → Memory} (hf : ∀ m x, m.wf = true → (f m x).wf = true) (l : List α) {m : Memory} (h : m.wf = true) :
    (l.foldl f m).wf = true := by
  induction l generalizing m with
  | nil => exact h
  | cons x l ih => exact ih (hf m x h)

theorem foldl_tagsWf {α : Type} {f : List (Nat × BitVec 16) → α → List (Nat × BitVec 16)} (hf : ∀ m x, sparseWf 0 0 m = true → sparseWf 0 0 (f m x) = true)
    (l : List α) {m : List (Nat × BitVec 16)} (h : sparseWf 0 0 m = true) : sparseWf 0 0 (l.foldl f m) = true := by
  induction l generalizing m with
  | nil => exact h
  | cons x l ih => exact ih (hf m x h)

/-! ### Updates of a record -/

theorem reset_wf : State.reset.wf := ⟨rfl, rfl, ⟨rfl, rfl⟩, by simp [State.reset, coreWf, CoreState.reset, Memory.wf, sparseWf]⟩

/-- The fields of the module that hold no memory. -/
theorem mk_wf {b : State} {turn now tick farLoose pending arg memBad memLost tlb0 tlb1 walk0 walk1 walks notices sched gather handles host tiers thermal ports
    members noRoute outbound awaited transit hostReads lineReports unitReports barReads physical spares columnRepairs rowRepairs suspects} (h : b.wf) :
    State.wf { b with turn, now, tick, farLoose, pending, arg, memBad, memLost, tlb0, tlb1, walk0, walk1, walks, notices, sched, gather, handles, host, tiers
                      thermal, ports, members, noRoute, outbound, awaited, transit, hostReads, lineReports, unitReports, barReads, physical, spares
                      columnRepairs, rowRepairs, suspects } := h

/-- The fields of a core that hold no scratchpad. -/
theorem coreMk_wf {b : CoreState} {num streams sync copy frames msgs mat vec trees audit spadBad srbase srlim ptroot asid smsel wdog dbe prqe stop
    pendWatchdog pendParked pendPreempt pendHost preemptReq moveReq jobEnd taskEnds place inbox frozen l1 pace farStores sections oldWords loose}
    (h : coreWf b) :
    coreWf { b with num, streams, sync, copy, frames, msgs, mat, vec, trees, audit, spadBad, srbase, srlim, ptroot, asid, smsel, wdog, dbe, prqe, stop
                    pendWatchdog, pendParked, pendPreempt, pendHost, preemptReq, moveReq, jobEnd, taskEnds, place, inbox, frozen, l1, pace, farStores
                    sections, oldWords, loose } := h

/-- An update of the core in focus, by what it does to that core. -/
theorem putCore_wf {s : State} {c : CoreState} (hc : coreWf s.core → coreWf c) (h : s.wf) : (s.setCore c).wf := setCore_wf h (hc h.core)

theorem setInbox_wf {s : State} {l} (h : s.wf) : (s.setCore { s.core with inbox := l }).wf := h

theorem setHeld_wf {s : State} {x : Option (Nat × Packet)} (h : s.wf) : ({ s with sched := { s.sched with heldFor := x } } : State).wf := h

theorem endOfCycle_wf {s : State} (h : s.wf) : coreWf (endOfCycle s) := by
  unfold endOfCycle auditTick
  split
  · exact h.core
  · split <;> exact h.core

end Sys2Proof.Machine
end

