-- ==== Sys2Proof/Proofs/CanonicalShared.lean ====
section
/-! O59: what every instruction shares: the rules of issue, the reads and writes of memory and of the scratchpad, waits, traps and events. -/

namespace Sys2Proof.Machine

/-! ### Machine/Ops.lean -/

theorem send_wf {s : State} {m : Nat} {a : FlitAct} (h : s.wf) : (State.send s m a).wf := h

theorem tagSent_wf {k : Fin 16} {who : Requester} {f : State → State} {s : State} (hf : ∀ s, s.wf → (f s).wf) (h : s.wf) : (tagSent k who f s).wf := by
  have k : (f { s with outbound := [] }).wf := hf _ h
  exact ⟨k.1, k.2⟩

/-- An event of a core keeps the form where its effect does. -/
theorem atCore_wf {n : Nat} {f : State → State} {s : State} (hf : ∀ s, s.wf → (f s).wf) (h : s.wf) : nextWf (atCore n f s) := by
  unfold atCore
  split
  · exact .fault
  · exact .next (onCore_wf h hf)

theorem dropSample_wf {c : CoreState} (hc : coreWf c) : coreWf (dropSample c) := hc
theorem markLoose_wf {t : Sec} {f : Loose → BitVec 16} {s : State} (h : s.wf) : (State.markLoose t f s).wf := h
theorem loadMade_wf {t : Sec} {k : Fin 16} {found : List Loose} {s : State} (h : s.wf) : (loadMade t k found s).wf := markLoose_wf h
theorem sawBy_wf {t : Sec} {k : Fin 16} {a n : Nat} {s : State} (h : s.wf) : (sawBy t k a n s).wf := loadMade_wf h
theorem sawScratch_wf {k : Fin 16} {a n : Nat} {s : State} (h : s.wf) : (sawScratch k a n s).wf := sawBy_wf h
theorem settleStores_wf {t : Sec} {a n : Nat} {s : State} (h : s.wf) : (settleStores t a n s).wf := setCore_wf h h.core

theorem storedBy_wf {t : Sec} {k : Fin 16} {a n : Nat} {f : CoreState → CoreState} {s : State} (hf : ∀ c, coreWf c → coreWf (f c)) (h : s.wf) :
    (storedBy t k a n f s).wf := setCore_wf h (hf _ h.core)

theorem joinClasses_wf {m : BitVec 16} {s : State} (h : s.wf) : (joinClasses m s).wf := markLoose_wf h
theorem settleStream_wf {t : Sec} {s : State} (h : s.wf) : (settleStream t s).wf := markLoose_wf h
theorem settleFrame_wf {f : Word} {s : State} (h : s.wf) : (settleFrame f s).wf := setCore_wf h h.core
theorem reportLine_wf {a : Nat} {s : State} (h : s.wf) : (reportLine a s).wf := h
theorem reportLines_wf {a n : Nat} {s : State} (h : s.wf) : (reportLines a n s).wf := foldl_wf (fun _ _ k => ite_wf (reportLine_wf k) k) _ h

theorem storeBytes_wf {k : Fin 16} {a : Nat} {bs : List Byte} {s : State} (h : s.wf) : (storeBytes k a bs s).wf :=
  storedBy_wf (fun _ k => (spadStore_only _ _ _).2 k) (reportLines_wf h)

theorem storeKeepBy_wf {t : Sec} {k : Fin 16} {a : Nat} {bs : List Byte} {s : State} (h : s.wf) : (storeKeepBy t k a bs s).wf :=
  storedBy_wf (fun _ k => (spadPutBytes_only _ _ _).2 k) h

theorem storeKeep_wf {k : Fin 16} {a : Nat} {bs : List Byte} {s : State} (h : s.wf) : (storeKeep k a bs s).wf := storeKeepBy_wf h

theorem storeCellBy_wf {t : Sec} {k : Fin 16} {a : Nat} {d : CellData} {s : State} (h : s.wf) : (storeCellBy t k a d s).wf :=
  storedBy_wf (fun _ k => (spadPutCell_only _ _ _).2 k) h

theorem storeCell_wf {k : Fin 16} {a : Nat} {d : CellData} {s : State} (h : s.wf) : (storeCell k a d s).wf := storeCellBy_wf h

theorem sawEach_wf {k : Fin 16} {n : Nat} {l : List Nat} {s : State} (h : s.wf) : (sawEach k n l s).wf :=
  ite_wf h (foldl_wf (fun _ _ => sawScratch_wf) _ h)

/-! ### Machine/Operands.lean -/

theorem misuse_wf {cause reason : Nat} : (misuse cause reason).wf := .trap
theorem misaligned_wf {a : Nat} : (misaligned a).wf := .trap
theorem forbidden_wf {a : Nat} : (forbidden a).wf := .trap

/-- A word keeps the form where its body does: the checks before it and the trap after it are `issueWord_wf`. -/
theorem issue_wf {i : Instr} {u : Use} {body : State → Eff} {s : State} (hbody : ∀ s, s.wf → (body s).wf) (h : s.wf) :
    nextWf (issue i u body s) := by
  refine .next (issueWord_wf h fun t k => ?_)
  have hb := hbody t k
  generalize body t = e at hb
  cases hb with
  | done h => exact h
  | jump h => exact h
  | hold => trivial
  | trap => trivial
  | trapIn h => exact h

/-! ### Machine/Flags.lean -/

theorem accrueTo_wf {t : Sec} {f : FlagSet} {s : State} (h : s.wf) : (accrueTo t f s).wf := onStr_wf h

/-! ### Machine/Global.lean -/

theorem hostPutPiece_wf {h : Nat} {bs : List Byte} {s : State} (hs : s.wf) : (hostPutPiece h bs s).wf := by
  unfold hostPutPiece
  split
  · exact ite_wf (putLocal_wf hs) hs
  · exact putLocal_wf hs

theorem hostPut_wf {h : Nat} {bs : List Byte} {s : State} (hs : s.wf) : (hostPut h bs s).wf := foldl_wf (fun _ _ => hostPutPiece_wf) _ hs
theorem fillWalk_wf {die : Nat} {l : List WalkEntry} {s : State} (h : s.wf) : (fillWalk die l s).wf := ite_wf h h
theorem fillDie_wf {die : Nat} {s : State} {e : TlbEntry} (h : s.wf) : (fillDie die s e).wf := ite_wf h h
theorem tlbFill_wf {s : State} {e : TlbEntry} (h : s.wf) : (tlbFill s e).wf := fillDie_wf (setCore_wf h h.core)

theorem countBad_wf {s : State} {t : Tier} (h : s.wf) : (countBad s t).wf := by
  unfold countBad
  split <;> exact h

theorem countCorrected_wf {s : State} {t : Tier} (h : s.wf) : (countCorrected s t).wf := by
  unfold countCorrected
  split <;> exact h

theorem countUnits_wf {t : Tier} {desc : Bool} {pa n : Nat} {s : State} (h : s.wf) : (countUnits t desc pa n s).wf := by
  refine foldl_wf (fun _ _ k => ?_) _ h
  split <;> exact ite_wf (countBad_wf k) (ite_wf (countCorrected_wf k) k)

theorem countRead_wf {t : Tier} {desc : Bool} {pa n : Nat} {s : State} (h : s.wf) : (countRead t desc pa n s).wf := by
  unfold countRead
  split
  · exact foldl_wf (fun _ _ => send_wf) _ h
  · exact countUnits_wf h

theorem countHost_wf {h n : Nat} {s : State} (hs : s.wf) : (countHost h n s).wf :=
  foldl_wf (fun _ _ k => ite_wf (countBad_wf k) (ite_wf (countCorrected_wf k) k)) _ hs

theorem countReach_wf {h n : Nat} {s : State} (hs : s.wf) : (countReach h n s).wf := ite_wf (countHost_wf hs) hs

theorem countPhysical_wf {pa n : Nat} {s : State} (h : s.wf) : (countPhysical pa n s).wf := by
  unfold countPhysical
  split
  · exact countRead_wf h
  · exact h

theorem walked_wf {die : Nat} {w : WalkTrace} {s : State} (h : s.wf) : (walked die w s).wf := fillWalk_wf (foldl_wf (fun _ _ => countPhysical_wf) _ h)

theorem translateBy_wf {die : Nat} {cached : Option TlbEntry} {fill : State → TlbEntry → State} {s : State} {x : Access} {va : Nat}
    (hf : ∀ s e, s.wf → (fill s e).wf) (h : s.wf) : (translateBy die cached fill s x va).state.wf := by
  unfold translateBy
  dsimp only
  split
  · exact h
  · split
    · exact h
    · split
      · exact walked_wf h
      · split
        · exact hf _ _ (walked_wf h)
        · exact walked_wf h

theorem translate_wf {s : State} {x : Access} {va : Nat} (h : s.wf) : (translate s x va).state.wf := translateBy_wf (fun _ _ => tlbFill_wf) h

theorem translateDie_wf {die : Nat} {s : State} {x : Access} {va : Nat} (h : s.wf) : (translateDie die s x va).state.wf :=
  translateBy_wf (fun _ _ => fillDie_wf) h

theorem countTag_wf {x : Xlat} {s : State} (h : s.wf) : (countTag x s).wf := ite_wf (countRead_wf h) h
theorem countCell_wf {x : Xlat} {s : State} (h : s.wf) : (countCell x s).wf := countTag_wf (countRead_wf h)

end Sys2Proof.Machine
end

