-- ==== Sys2Proof/Proofs/CanonicalWaits.lean ====
section
/-! O59: waiting, the accesses of the scratchpad and of far memory, and the copy commands. -/

namespace Sys2Proof.Machine

/-! ### Machine/Wait.lean -/

theorem suspend_wf {w : Wait} {settle : Bool} {s : State} (h : s.wf) : (suspend w settle s).wf := .jump (setCur_wf h)

theorem resumeWhere_wf {f : State → Wait → Option (Option (SDst × Word))} {s : State} (h : s.wf) : (resumeWhere f s).wf := by
  refine foldl_wf (fun _ _ k => ?_) _ h
  split
  · exact k
  · split
    · exact resume_wf k
    · exact k

theorem setSync_wf {s : State} {y : SyncFile} (h : s.wf) : (State.setSync s y).wf := setCore_wf h h.core
theorem setSem_wf {s : State} {p : Nat} {x : Semaphore} (h : s.wf) : (setSem s p x).wf := setSync_wf h

theorem sendAnswer_wf {coord : BitVec 32} {t : Sec} {id : Nat} {a : SemAnswer} {s : State} (h : s.wf) : (sendAnswer coord t id a s).wf :=
  ite_wf (raise_wf h) (send_wf h)

theorem grantSem_wf {p n : Nat} {s : State} (h : s.wf) : (grantSem p n s).wf := by
  induction n generalizing s with
  | zero => exact h
  | succ n ih =>
    unfold grantSem
    dsimp only
    split
    · exact h
    · split
      · refine ih ?_
        split
        · exact sendAnswer_wf (setSem_wf h)
        · exact resume_wf (setSem_wf h)
      · exact h

theorem putSemValue_wf {p v : Nat} {s : State} (h : s.wf) : (putSemValue p v s).wf := ite_wf (grantSem_wf (setSem_wf h)) (setSem_wf h)

theorem signalLocal_wf {p : Nat} {s t : State} (e : signalLocal p s = some t) (h : s.wf) : t.wf := by
  unfold signalLocal at e
  split at e
  · cases e
    exact putSemValue_wf h
  · cases e

theorem setFlag_wf {e : Nat} {v : Bool} {s : State} (h : s.wf) : (setFlag e v s).wf := setSync_wf h

theorem wakeFlag_wf {e : Nat} {s : State} (h : s.wf) : (wakeFlag e s).wf := by
  unfold wakeFlag
  split
  · exact h
  · dsimp only
    split
    · exact resume_wf (setFlag_wf (resumeWhere_wf h))
    · exact resumeWhere_wf h

theorem raiseFlag_wf {e : Nat} {s : State} (h : s.wf) : (raiseFlag e s).wf := wakeFlag_wf (setFlag_wf h)
theorem raiseFlags_wf {mask : BitVec 32} {s : State} (h : s.wf) : (raiseFlags mask s).wf := foldl_wf (fun _ _ k => ite_wf (raiseFlag_wf k) k) _ h
theorem setCounter_wf {c v : Nat} {s : State} (h : s.wf) : (setCounter c v s).wf := setSync_wf h
theorem counterUp_wf {c : Nat} {s : State} (h : s.wf) : (counterUp c s).wf := setCounter_wf h
theorem counterDown_wf {c : Nat} {s : State} (h : s.wf) : (counterDown c s).wf := resumeWhere_wf (setCounter_wf h)
theorem setMutex_wf {m : Nat} {x : Mutex} {s : State} (h : s.wf) : (setMutex m x s).wf := setSync_wf h

theorem freeMutex_wf {m : Nat} {s : State} (h : s.wf) : (freeMutex m s).wf := by
  unfold freeMutex
  split
  · exact setMutex_wf h
  · exact resume_wf (setMutex_wf h)

theorem setBarrier_wf {b : Nat} {x : Barrier} {s : State} (h : s.wf) : (setBarrier b x s).wf := setSync_wf h
theorem writeBart_wf {b target : Nat} {s : State} (h : s.wf) : (writeBart b target s).wf := setBarrier_wf h
theorem wakeBarrier_wf {b : Nat} {s : State} (h : s.wf) : (wakeBarrier b s).wf := resumeWhere_wf h
theorem releaseRdv_wf {s : State} (h : s.wf) : (releaseRdv s).wf := ite_wf (resumeWhere_wf (setSync_wf h)) h
theorem putRingCounter_wf {k : Fin 16} {a off v : Nat} {s : State} (h : s.wf) : (putRingCounter k a off v s).wf := storeKeep_wf h
theorem wakeRing_wf {a : Nat} {s : State} (h : s.wf) : (wakeRing a s).wf := resumeWhere_wf h
theorem setWalk_wf {w : Nat} {x : Walk} {s : State} (h : s.wf) : (setWalk w x s).wf := h
theorem onWalk_wf {w : Nat} {f : Walk → Walk} {s : State} (h : s.wf) : (onWalk w f s).wf := setWalk_wf h
theorem lostLegSignal_wf {id : Nat} {s : State} (h : s.wf) : (lostLegSignal id s).wf := onWalk_wf h

/-! ### Machine/Command.lean -/

theorem translateAll_wf {x : Access} {top : Nat} {l : List Nat} {s : State} (h : s.wf) : (translateAll x top l s).1.wf := by
  induction l generalizing s with
  | nil => exact h
  | cons va l ih =>
    unfold translateAll
    dsimp only
    split
    · exact translate_wf h
    · split
      · exact translate_wf h
      · split
        · next e => exact wf_of_fst e (ih (translate_wf h))
        · next e => exact wf_of_fst e (ih (translate_wf h))

theorem resolveEnd_wf {k : CopyAddr} {x : Int} {n : Nat} {write : Bool} {s : State} (h : s.wf) : (resolveEnd k x n write s).1.wf := by
  unfold resolveEnd
  dsimp only
  split
  · exact h
  · split
    · split
      · next e => exact wf_of_fst e (translateAll_wf h)
      · next e => exact wf_of_fst e (translateAll_wf h)
    · exact h
    · exact h
    · exact h

theorem reportUnits_wf {x : Xlat} {n : Nat} {s : State} (h : s.wf) : (reportUnits x n s).wf := h

theorem Endpoint.account_wf {n : Nat} {s : State} {y : Endpoint} (h : s.wf) : (Endpoint.account n s y).wf := by
  cases y with
  | spad a => exact reportLines_wf h
  | mem va pages =>
    unfold Endpoint.account
    split
    · exact reportLines_wf h
    · refine foldl_wf (fun _ _ k => ?_) _ h
      split
      · exact reportUnits_wf (countTag_wf (countRead_wf k))
      · exact k
    · exact h
    · exact h
  | remote _ _ _ _ => exact h
  | window _ _ => exact h

theorem applyHeld_wf {c : CoreState} {w : HeldWrite} (hc : coreWf c) : coreWf (applyHeld c w) := by
  unfold applyHeld
  split
  · exact hc
  · split
    · exact (spadPutBytes_only _ _ _).2 hc
    · exact (spadPutTag_only _ _ _).2 hc
    · exact (spadPutTag_only _ _ _).2 ((spoilSample_only _ _ _).2 hc)

theorem Xfer.put_wf {x : Xfer} {ws : List HeldWrite} (h : x.s.wf) : (Xfer.put x ws).s.wf := setCore_wf h (foldl_coreWf (fun _ _ => applyHeld_wf) _ h.core)

theorem poisonMem_wf {s : State} {x : Xlat} (h : s.wf) : (poisonMem s x).wf := by
  unfold poisonMem
  split
  · exact send_wf h
  · exact ite_wf (putTagAt_wf h) (memPoison_wf h)

theorem sendFrameWrite_wf {m : Nat} {w : RemoteWrite} {s : State} (h : s.wf) : (sendFrameWrite m w s).wf := ite_wf (raise_wf h) (send_wf h)
theorem Xfer.memWrite_wf {x : Xfer} {f : State → State} (h : x.s.wf) (hf : ∀ s, s.wf → (f s).wf) : (Xfer.memWrite x f).s.wf := tagSent_wf hf h

theorem Xfer.remoteWrite_wf {x : Xfer} {m core : Nat} {f : Fin 16} {off : Nat} {bs : List Byte} {tag : Option (BitVec 16)} {poison : Bool} (h : x.s.wf) :
    (Xfer.remoteWrite x m core f off bs tag poison).s.wf := Xfer.memWrite_wf h (fun _ => sendFrameWrite_wf)

theorem Xfer.chunk_wf {x : Xfer} {e : Endpoint} {off : Nat} {bs : List Byte} {tag : Option (BitVec 16)} {bad : Bool} (h : x.s.wf) :
    (Xfer.chunk x e off bs tag bad).s.wf := by
  unfold Xfer.chunk
  extract_lets y
  have hy : y.s.wf := by
    unfold y
    split <;> exact h
  split
  · exact Xfer.put_wf hy
  · exact Xfer.put_wf hy
  · split
    · exact hy
    · refine Xfer.memWrite_wf hy (fun s k => ?_)
      split
      · exact poisonMem_wf (writeBytesAt_wf k)
      · split
        · exact writeCellAt_wf k
        · exact writeBytesAt_wf k
  · exact Xfer.remoteWrite_wf hy

theorem Xfer.spoil_wf {x : Xfer} {e : Endpoint} {off : Nat} (h : x.s.wf) : (Xfer.spoil x e off).s.wf := by
  unfold Xfer.spoil
  split
  · exact Xfer.put_wf h
  · exact Xfer.put_wf h
  · split
    · exact h
    · exact Xfer.memWrite_wf h (fun _ => poisonMem_wf)
  · exact Xfer.remoteWrite_wf h

theorem Xfer.spoilRun_wf {x : Xfer} {k : CopyAddr} {ta : Int} {n from_ : Nat} (h : x.s.wf) : (Xfer.spoilRun x k ta n from_).s.wf := by
  refine foldl_xferWf (fun _ _ k => ?_) _ h
  split
  · next e => exact Xfer.spoil_wf (wf_of_fst e (resolveEnd_wf k))
  · next e => exact wf_of_fst e (resolveEnd_wf k)

theorem moveRun_wf {c : Cmd} {src dst : Endpoint} {fa ta n : Nat} {x : Xfer} (h : x.s.wf) : (moveRun c src dst fa ta n x).s.wf :=
  foldl_xferWf (fun _ _ => Xfer.chunk_wf) _ h

theorem fillRun_wf {c : Cmd} {dst : Endpoint} {ta n : Nat} {x : Xfer} (h : x.s.wf) : (fillRun c dst ta n x).s.wf :=
  foldl_xferWf (fun _ _ => Xfer.chunk_wf) _ h

theorem convRun_wf {c : Cmd} {src dst : Endpoint} {ta n : Nat} {x : Xfer} (h : x.s.wf) : (convRun c src dst ta n x).1.s.wf := by
  unfold convRun
  split
  · dsimp only
    exact foldl_xferWf (fun _ _ => Xfer.chunk_wf) _ h
  · exact h

/-- Whichever source a run has, its translation or none (a fill), the form is kept. -/
theorem sourceEnd_wf {α : Type} {fill : Bool} {p : State × α} {s t : State} {r y : α} (h : s.wf) (hp : p.1.wf) (e : (if fill then (s, y) else p) = (t, r)) :
    t.wf := by
  split at e
  · cases e
    exact h
  · exact wf_of_fst e hp

theorem doRun_wf {c : Cmd} {src dst : CopyAddr} {fa ta : Int} {n : Nat} {x : Xfer} (h : x.s.wf) : (doRun c src dst fa ta n x).x.s.wf := by
  unfold doRun
  extract_lets m fill
  split
  · next e => exact sourceEnd_wf h (resolveEnd_wf h) e
  · next s1 se e =>
    have h1 : s1.wf := sourceEnd_wf h (resolveEnd_wf h) e
    split
    · next e => exact wf_of_fst e (resolveEnd_wf h1)
    · next s2 de e2 =>
      have h2 : s2.wf := wf_of_fst e2 (resolveEnd_wf h1)
      extract_lets y y' r
      have hy : y'.s.wf := Endpoint.account_wf h2
      split
      · exact fillRun_wf h2
      · split
        · split
          · exact hy
          · exact convRun_wf hy
        · exact moveRun_wf hy

/-! ### Machine/CopyEngine.lean -/

theorem setEngine_wf {s : State} {e : CopyEngine} (h : s.wf) : (State.setEngine s e).wf := setCore_wf h h.core
theorem setCmd_wf {c : Cmd} {s : State} (h : s.wf) : (setCmd c s).wf := setEngine_wf h

theorem onCmd_wf {q : BitVec 16} {f : Cmd → Cmd} {s : State} (h : s.wf) : (onCmd q f s).wf := by
  unfold onCmd
  split
  · exact setCmd_wf h
  · exact h

theorem holdEngineTrap_wf {d : Cmd} {s : State} (h : s.wf) : (holdEngineTrap d s).wf := onStr_wf h

theorem recordFault_wf {q : BitVec 16} {code first : Nat} {s : State} (h : s.wf) : (recordFault q code first s).wf := by
  unfold recordFault
  split
  · exact h
  · split
    · exact h
    · dsimp only
      exact holdEngineTrap_wf (setCmd_wf h)

theorem recordLate_wf {q : BitVec 16} {code first : Nat} {s : State} (h : s.wf) : (recordLate q code first s).wf := by
  unfold recordLate
  split
  · exact recordFault_wf h
  · split
    · exact h
    · split
      · exact h
      · dsimp only
        exact holdEngineTrap_wf (setEngine_wf h)

theorem lostSignal_wf {id : Nat} {s : State} (h : s.wf) : (lostSignal id s).wf := recordLate_wf h

theorem enterCmd_wf {d : Cmd} {bitmapFault : Bool} {s : State} (h : s.wf) : (enterCmd d bitmapFault s).wf := by
  unfold enterCmd
  extract_lets p c e s1 s2 s3
  have h1 : s1.wf := setEngine_wf h
  have h2 : s2.wf := ite_wf (counterUp_wf h1) h1
  have h3 : s3.wf := ite_wf (recordFault_wf h2) h2
  exact ite_wf (onCmd_wf (recordFault_wf h3)) h3

theorem setOwner_wf {i : Fin 16} {o : BitmapState} {s : State} (h : s.wf) : (setOwner i o s).wf := setEngine_wf h

theorem issueCmd_wf {kind : CmdKind} {d : SDst} {s : State} (h : s.wf) : (issueCmd kind d s).wf := by
  unfold issueCmd
  extract_lets e cw c _ s1 promise
  have h1 : s1.wf := ite_wf (setEngine_wf h) h
  split
  · exact .hold
  · split
    · exact .hold
    · split
      · split
        · exact .done (wrD_wf (enterCmd_wf (setOwner_wf (setEngine_wf h1))))
        · split
          · exact .hold
          · exact .done (wrD_wf (enterCmd_wf h1))
      · exact .done (wrD_wf (enterCmd_wf h1))

theorem thaw_wf {s : State} (h : s.wf) : (thaw s).wf := ite_wf (setEngine_wf h) h

theorem missTrap_wf {t : Sec} {l : List LateReq} {s : State} (h : s.wf) : (missTrap t l s).wf := by
  unfold missTrap
  split
  · exact h
  · dsimp only
    refine onStr_wf ?_
    split
    · exact withdraw_wf h
    · exact h

theorem markLate_wf {s : State} (h : s.wf) : (markLate s).wf := missTrap_wf (missTrap_wf (onStr_wf (setEngine_wf h)))

theorem setBits_wf {c : Cmd} {items : List Nat} {s : State} (h : s.wf) : (setBits c items s).wf := by
  unfold setBits
  split
  · exact h
  · dsimp only
    exact setEngine_wf h

theorem underPromise_wf {q : BitVec 16} {f : Xfer → Xfer} {s : State} (hf : ∀ x, x.s.wf → (f x).s.wf) (h : s.wf) : (underPromise q f s).wf := by
  unfold underPromise
  split
  · exact h
  · extract_lets hidden s0 x _ s1 p s2
    have h0 : s0.wf := ite_wf (setCore_wf h (foldl_coreWf (fun _ _ => applyHeld_wf) _ h.core)) h
    have hx : x.s.wf := hf _ h0
    have h1 : s1.wf := ite_wf (setCore_wf hx h.core) hx
    have h2 : s2.wf := onCmd_wf h1
    split
    · exact recordFault_wf h2
    · exact h2

theorem spoilFrame_wf {c : CoreState} {f : Fin 16} (hc : coreWf c) : coreWf (spoilFrame c f) := by
  unfold spoilFrame
  split
  · split
    · exact dropSample_wf hc
    · exact hc
  · exact hc

theorem publishFrame_wf {f : Fin 16} {s : State} (h : s.wf) : (publishFrame f s).wf :=
  ite_wf (settleFrame_wf (setCore_wf h (spoilFrame_wf h.core))) (setCore_wf h (spoilFrame_wf h.core))

theorem signalEntry_wf {id : Nat} {e : Word} {s : State} (h : s.wf) : (signalEntry id e s).2.wf := by
  unfold signalEntry
  dsimp only
  split
  · exact ite_wf (sendToFile_wf h) h
  · split
    · next e => exact signalLocal_wf e h
    · exact h

/-- The signal of a finished command or item, with the record of a fault where it cannot be sent. -/
theorem signalled_wf {q : BitVec 16} {item id : Nat} {a : Word} {s : State} (h : s.wf) :
    State.wf (match signalEntry id a s with | (true, t) => t | (false, t) => recordFault q 0x09 item t) := by
  split
  · next e => exact wf_of_snd e (signalEntry_wf h)
  · next e => exact recordFault_wf (wf_of_snd e (signalEntry_wf h))

theorem completeHead_wf {s : State} (h : s.wf) : (completeHead s).wf := by
  unfold completeHead
  split
  · exact h
  · extract_lets s1 s2 s3 s4 d clear r s5 e s6
    have h2 : s2.wf := raiseFlags_wf (ite_wf (counterDown_wf h) h)
    have h3 : s3.wf := by
      unfold s3
      split
      · exact signalled_wf h2
      · exact h2
    have h4 : s4.wf := accrueTo_wf h3
    have h5 : s5.wf := by
      unfold s5
      split
      · exact setOwner_wf h4
      · exact h4
    exact resumeWhere_wf (setEngine_wf h5)

/-! ### Machine/Scratch.lean -/

theorem loadFails_wf {a : Nat} {r : TrapRec} {s : State} (h : s.wf) : (loadFails a r s).wf := by
  unfold loadFails
  split
  · exact .trapIn (reportLine_wf h)
  · exact .trap

theorem loadInto_wf {k : Fin 16} {d : SDst} {a n : Nat} {f : Nat → Word} {s : State} (h : s.wf) : (loadInto k d a n f s).wf := by
  unfold loadInto
  split
  · exact loadFails_wf h
  · exact .done (wrD_wf (sawScratch_wf h))

theorem storeAt_wf {k : Fin 16} {a : Nat} {bs : List Byte} {s : State} (h : s.wf) : (storeAt k a bs s).wf := by
  unfold storeAt
  split
  · exact .trap
  · exact .done (storeBytes_wf h)

/-! ### Machine/Far.lean -/

theorem farCheck_wf {s : State} {va n : Nat} {write : Bool} (h : s.wf) : (farCheck s va n write).1.wf := by
  unfold farCheck
  split
  · exact h
  · split
    · exact h
    · dsimp only
      split <;> exact translate_wf h

theorem sawFar_wf {k : Fin 16} {pa n : Nat} {s : State} (h : s.wf) : (sawFar k pa n s).wf := loadMade_wf h

theorem storedFar_wf {k : Fin 16} {pa n : Nat} {f : State → State} {s : State} (hf : ∀ s, s.wf → (f s).wf) (h : s.wf) : (storedFar k pa n f s).wf :=
  ite_wf (hf _ h) (mk_wf (hf _ h))

theorem fldRead_wf {k : Fin 16} {id : Nat} {x : Xlat} {n : Nat} {s : State} (h : s.wf) : (fldRead k id x n s).wf := by
  unfold fldRead
  split
  · dsimp only
    exact h
  · exact countRead_wf h

theorem fldIssue_wf {o : FldOps} {s : State} (h : s.wf) : (fldIssue o s).wf := by
  unfold fldIssue
  dsimp only
  split
  · exact .hold
  · split
    · next e => exact .trapIn (wf_of_fst e (farCheck_wf h))
    · next e => exact .done (setCur_wf (sawFar_wf (fldRead_wf (wf_of_fst e (farCheck_wf h)))))

theorem fstIssue_wf {o : FstOps} {s : State} (h : s.wf) : (fstIssue o s).wf := by
  unfold fstIssue
  extract_lets n va
  split
  · exact .hold
  · split
    · next e => exact .trapIn (wf_of_fst e (farCheck_wf h))
    · next s1 x e =>
      have h1 : s1.wf := wf_of_fst e (farCheck_wf h)
      extract_lets lost who s2 _ s3
      have h2 : s2.wf := ite_wf h1 (storedFar_wf (fun _ k => tagSent_wf (fun _ => writeBytesAt_wf) k) h1)
      have h3 : s3.wf := setCore_wf h2 h2.core
      exact .done (ite_wf h3 (raise_wf h3))

theorem fenced_wf {m : BitVec 16} {s : State} (h : s.wf) : (fenced m s).wf := by
  have k : (joinClasses m s).wf := joinClasses_wf h
  exact ite_wf (setCore_wf k k.core) k

theorem execFence_wf {o : FenceOps} {s : State} (h : s.wf) : nextWf (execFence o s) := by
  refine issue_wf (fun _ k => ?_) h
  split
  · exact .hold
  · exact .done (fenced_wf k)

end Sys2Proof.Machine
end

