-- ==== Sys2Proof/Proofs/CanonicalSync.lean ====
section
/-! O59: semaphores, mutexes, barriers, flags, counters and rings. -/

namespace Sys2Proof.Machine

theorem syncMisuse_wf {reason : Nat} : (syncMisuse reason).wf := misuse_wf
theorem sendRequest_wf {coord : BitVec 32} {r : SemReq} {s : State} (h : s.wf) : (sendRequest coord r s).wf := sendToFile_wf h

theorem remoteSem_wf {coord : BitVec 32} {phys : Nat} {op : SemOp} {b : Word} {d : Option SDst} {settle : Bool} {s : State} (h : s.wf) :
    (remoteSem coord phys op b d settle s).wf := by
  unfold remoteSem
  split
  · exact syncMisuse_wf
  · dsimp only
    exact suspend_wf (sendRequest_wf h)

theorem performSem_wf {op : SemOp} {p : Nat} {b : Word} {s : State} {x} {t : State} (e : performSem op p b s = some (x, t)) (h : s.wf) : t.wf := by
  unfold performSem at e
  split at e
  · cases e
  · cases e
    exact h
  · cases e
    exact putSemValue_wf h

theorem semInstr_wf {op : SemOp} {c : Scope} {k : Fin 16} {a b : Word} {d : Option SDst} {settle : Bool} {s : State} (h : s.wf) :
    (semInstr op c k a b d settle s).wf := by
  unfold semInstr
  dsimp only
  split
  · exact syncMisuse_wf
  · split
    · exact .hold
    · exact remoteSem_wf h
  · split
    · exact .hold
    · split
      · exact syncMisuse_wf
      · next e =>
        split
        · exact .done (wrD_wf (performSem_wf e h))
        · exact .done (performSem_wf e h)

theorem execSemwait_wf {o : YABsk} {s : State} (h : s.wf) : nextWf (execSemwait o s) := by
  refine issue_wf (fun _ k => ?_) h
  dsimp only
  split
  · exact syncMisuse_wf
  · exact remoteSem_wf k
  · split
    · exact .done (setSem_wf k)
    · exact suspend_wf (setSem_wf k)

theorem serveRequest_wf {r : SemReq} {s : State} (h : s.wf) : (serveRequest r s).wf := by
  unfold serveRequest
  split
  · exact ite_wf (sendAnswer_wf (setSem_wf h)) (ite_wf (sendAnswer_wf h) (sendAnswer_wf (setSem_wf h)))
  · split
    · exact sendAnswer_wf h
    · next e => exact sendAnswer_wf (performSem_wf e h)

theorem execRemoteSemRequest_wf {s : State} (h : s.wf) : nextWf (execRemoteSemRequest s) := by
  unfold execRemoteSemRequest
  split
  · exact atCore_wf (fun _ => serveRequest_wf) h
  · exact .fault

theorem parkAnswered_wf {park : Bool} {t : Sec} {s : State} (h : s.wf) : (parkAnswered park t s).wf := ite_wf (onStr_wf h) h
theorem endRemote_wf {t : Sec} {r : TrapRec} {s : State} (h : s.wf) : (endRemote t r s).wf := ite_wf (onStr_wf h) (endWait_wf h)

theorem takeAnswer_wf {t : Sec} {id : Nat} {a : SemAnswer} {s : State} (h : s.wf) : (takeAnswer t id a s).wf := by
  unfold takeAnswer
  split
  · exact ite_wf h (ite_wf (lostLegSignal_wf h) (lostSignal_wf h))
  · split
    · exact h
    · split
      · exact h
      · split
        · exact parkAnswered_wf (resume_wf h)
        · exact setRemote_wf h
        · exact ite_wf (parkAnswered_wf (onStr_wf h)) (setRemote_wf h)
        · exact parkAnswered_wf (onStr_wf h)
        · exact endRemote_wf h

theorem execRemoteSemAnswer_wf {s : State} (h : s.wf) : nextWf (execRemoteSemAnswer s) := by
  unfold execRemoteSemAnswer
  split
  · exact atCore_wf (fun _ => takeAnswer_wf) h
  · exact .fault

theorem execRemoteSemResend_wf {s : State} (h : s.wf) : nextWf (execRemoteSemResend s) := by
  refine atCore_wf (fun _ k => ?_) h
  split
  · exact ite_wf (sendRequest_wf (setRemote_wf k)) k
  · exact k

theorem execRemoteSemTimeout_wf {s : State} (h : s.wf) : nextWf (execRemoteSemTimeout s) := by
  refine atCore_wf (fun _ k => ?_) h
  split
  · exact endRemote_wf k
  · exact k

theorem serveWithdrawal_wf {r : SemReq} {s : State} (h : s.wf) : (serveWithdrawal r s).wf := ite_wf (sendAnswer_wf (setSem_wf h)) h

theorem execRemoteWithdrawal_wf {s : State} (h : s.wf) : nextWf (execRemoteWithdrawal s) := by
  unfold execRemoteWithdrawal
  split
  · exact atCore_wf (fun _ => serveWithdrawal_wf) h
  · exact .fault

theorem execMtxlock_wf {o : YAsk} {s : State} (h : s.wf) : nextWf (execMtxlock o s) := by
  refine issue_wf (fun _ k => ?_) h
  dsimp only
  split
  · exact syncMisuse_wf
  · split
    · exact syncMisuse_wf
    · split
      · exact .done (setMutex_wf k)
      · exact suspend_wf (setMutex_wf k)

theorem execMtxtry_wf {o : YDAsk} {s : State} (h : s.wf) : nextWf (execMtxtry o s) := by
  refine issue_wf (fun _ k => ?_) h
  dsimp only
  split
  · exact syncMisuse_wf
  · split
    · exact syncMisuse_wf
    · split
      · exact .done (wrD_wf (setMutex_wf k))
      · exact .done (wrD_wf k)

theorem execMtxfree_wf {o : YAsk} {s : State} (h : s.wf) : nextWf (execMtxfree o s) := by
  refine issue_wf (fun _ k => ?_) h
  dsimp only
  split
  · exact syncMisuse_wf
  · split
    · exact syncMisuse_wf
    · split
      · exact .hold
      · exact .done (freeMutex_wf k)

theorem execBararr_wf {o : YDABsk} {s : State} (h : s.wf) : nextWf (execBararr o s) := by
  refine issue_wf (fun _ k => ?_) h
  dsimp only
  split
  · exact syncMisuse_wf
  · split
    · exact syncMisuse_wf
    · split
      · exact syncMisuse_wf
      · split
        · exact .hold
        · exact .done (ite_wf (wakeBarrier_wf (wrD_wf (setBarrier_wf k))) (wrD_wf (setBarrier_wf k)))

theorem execBarwait_wf {o : YDABsk} {s : State} (h : s.wf) : nextWf (execBarwait o s) := by
  refine issue_wf (fun _ k => ?_) h
  dsimp only
  split
  · exact syncMisuse_wf
  · split
    · exact syncMisuse_wf
    · split
      · exact .done (wrD_wf k)
      · exact suspend_wf k

theorem execRdv_wf {o : Bare} {s : State} (h : s.wf) : nextWf (execRdv o s) := by
  refine issue_wf (fun _ k => ?_) h
  dsimp only
  split
  · split
    · exact .done (setCur_wf k)
    · exact suspend_wf (setCur_wf k)
  · split
    · exact .done (releaseRdv_wf (setSync_wf k))
    · exact suspend_wf (setSync_wf k)

theorem execEvset_wf {o : YAk} {s : State} (h : s.wf) : nextWf (execEvset o s) := by
  refine issue_wf (fun _ k => ?_) h
  dsimp only
  split
  · exact syncMisuse_wf
  · exact .done (raiseFlag_wf k)

theorem execEvclr_wf {o : YA} {s : State} (h : s.wf) : nextWf (execEvclr o s) := by
  refine issue_wf (fun _ k => ?_) h
  dsimp only
  split
  · exact syncMisuse_wf
  · exact .done (setFlag_wf k)

theorem execEvwait_wf {o : YABk} {s : State} (h : s.wf) : nextWf (execEvwait o s) := by
  refine issue_wf (fun _ k => ?_) h
  dsimp only
  split
  · exact syncMisuse_wf
  · split
    · exact .done (ite_wf (setFlag_wf k) k)
    · exact suspend_wf k

theorem clearMflt_wf {s : State} (h : s.wf) : (clearMflt s).wf := setCore_wf h h.core

theorem takeFault_wf {s : State} {otherwise : Eff} (h : s.wf) (hotherwise : otherwise.wf) : (takeFault s otherwise).wf := by
  unfold takeFault
  split
  · split
    · exact .trapIn (clearMflt_wf h)
    · exact hotherwise
  · split
    · exact .trapIn (setCur_wf h)
    · exact hotherwise

theorem execWaitlt_wf {o : YAB} {s : State} (h : s.wf) : nextWf (execWaitlt o s) := by
  refine issue_wf (fun _ k => ?_) h
  refine takeFault_wf k ?_
  dsimp only
  split
  · exact syncMisuse_wf
  · split
    · exact syncMisuse_wf
    · split
      · exact .done k
      · exact suspend_wf k

theorem ringInstr_wf {k : Fin 16} {a b : Word} {f : Nat → Ring → Nat → State → Eff} {s : State} (hf : ∀ x y z s, s.wf → (f x y z s).wf) (h : s.wf) :
    (ringInstr k a b f s).wf := by
  unfold ringInstr
  dsimp only
  split
  · exact misaligned_wf
  · split
    · exact forbidden_wf
    · split
      · exact syncMisuse_wf
      · split
        · exact syncMisuse_wf
        · exact hf _ _ _ _ (sawScratch_wf h)

theorem execClaim_wf {o : YDABk} {s : State} (h : s.wf) : nextWf (execClaim o s) := by
  refine issue_wf (fun _ k => ?_) h
  refine ringInstr_wf (fun _ _ _ _ k1 => ?_) k
  split
  · exact .done (wrD_wf (putRingCounter_wf k1))
  · exact .done (wrD_wf k1)

theorem execCommit_wf {o : YDABk} {s : State} (h : s.wf) : nextWf (execCommit o s) := by
  refine issue_wf (fun _ k => ?_) h
  refine ringInstr_wf (fun _ _ _ _ k1 => ?_) k
  split
  · exact syncMisuse_wf
  · exact .done (wakeRing_wf (wrD_wf (putRingCounter_wf k1)))

theorem execAwait_wf {o : YDABk} {s : State} (h : s.wf) : nextWf (execAwait o s) := by
  refine issue_wf (fun _ k => ?_) h
  refine ringInstr_wf (fun _ _ _ _ k1 => ?_) k
  split
  · exact .done (wrD_wf k1)
  · exact suspend_wf k1

theorem execRetire_wf {o : YDABk} {s : State} (h : s.wf) : nextWf (execRetire o s) := by
  refine issue_wf (fun _ k => ?_) h
  refine ringInstr_wf (fun _ _ _ _ k1 => ?_) k
  split
  · exact syncMisuse_wf
  · exact .done (wrD_wf (putRingCounter_wf k1))

theorem execSleepu_wf {o : YA} {s : State} (h : s.wf) : nextWf (execSleepu o s) := by
  refine issue_wf (fun _ k => ?_) h
  dsimp only
  split
  · exact .done k
  · exact suspend_wf k

theorem execSleepWake_wf {s : State} (h : s.wf) : nextWf (execSleepWake s) := by
  refine atCore_wf (fun _ k => ?_) h
  split
  · exact ite_wf (resume_wf k) k
  · exact k

theorem sawWatched_wf {t : Sec} {spad : Bool} {a : Nat} {s : State} (h : s.wf) : (sawWatched t spad a s).wf :=
  ite_wf (sawBy_wf h) (sawFar_wf (countPhysical_wf h))

theorem beginWatch_wf {spad : Bool} {a : Nat} {poll : Bool} {old : Word} {d : SDst} {settle : Bool} {s : State} (h : s.wf) :
    (beginWatch spad a poll old d settle s).wf := by
  unfold beginWatch
  dsimp only
  split
  · exact .done (wrD_wf (sawWatched_wf h))
  · exact suspend_wf (sawWatched_wf h)

theorem execWaita_wf {o : YDAB} {s : State} (h : s.wf) : nextWf (execWaita o s) := by
  refine issue_wf (fun _ k => ?_) h
  dsimp only
  split
  · split
    · exact syncMisuse_wf
    · split
      · exact misaligned_wf
      · split
        · exact forbidden_wf
        · exact beginWatch_wf k
  · split
    · exact syncMisuse_wf
    · split
      · exact misaligned_wf
      · split
        · exact .hold
        · split
          · next e => exact .trapIn (wf_of_fst e (farCheck_wf k))
          · next e => exact beginWatch_wf (wf_of_fst e (farCheck_wf k))

theorem watchAgain_wf {t : Sec} {timeout : Bool} {s : State} (h : s.wf) : (watchAgain t timeout s).wf := by
  unfold watchAgain
  split
  · dsimp only
    exact ite_wf (resume_wf (sawWatched_wf h)) (onStr_wf (sawWatched_wf h))
  · exact h

end Sys2Proof.Machine
end

