-- ==== Sys2Proof/Proofs/CanonicalCopy.lean ====
section
/-! O59: the copy words, tiles and the run of a command. -/

namespace Sys2Proof.Machine

/-! ### Machine/Copy.lean -/

theorem putCw_wf {i : Fin 16} {v : Word} {b : Nat} {s : State} (h : s.wf) : (putCw i v b s).wf := setCur_wf (setEngine_wf h)

theorem execCldc_wf {o : KRA} {s : State} (h : s.wf) : nextWf (execCldc o s) := by
  refine issue_wf (fun _ k => ?_) h
  dsimp only
  split
  · exact .trap
  · split
    · exact loadFails_wf k
    · exact .done (foldl_wf (fun _ _ k1 => sawScratch_wf (putCw_wf k1)) _ k)

theorem execCstc_wf {o : KRA} {s : State} (h : s.wf) : nextWf (execCstc o s) := by
  refine issue_wf (fun _ k => ?_) h
  dsimp only
  split
  · exact .trap
  · split
    · exact .hold
    · exact .done (foldl_wf (fun _ _ => storeKeep_wf) _ k)

theorem execFrmap_wf {o : DABP} {s : State} (h : s.wf) : nextWf (execFrmap o s) := by
  refine issue_wf (fun _ k => ?_) h
  dsimp only
  split
  · exact .done (wrD_wf k)
  · split
    · exact forbidden_wf
    · split
      · exact forbidden_wf
      · exact .done (wrD_wf (setCore_wf k (spoilFrame_wf k.core)))

theorem unsuspend_wf {q : BitVec 16} {s : State} (h : s.wf) : (unsuspend q s).wf := setEngine_wf h

theorem execCresume_wf {o : DAP} {s : State} (h : s.wf) : nextWf (execCresume o s) := by
  refine issue_wf (fun _ k => ?_) h
  split
  · exact .hold
  · split
    · exact .done (wrD_wf k)
    · dsimp only
      refine .done ?_
      refine wrD_wf ?_
      refine enterCmd_wf ?_
      split
      · exact setOwner_wf (unsuspend_wf k)
      · exact unsuspend_wf k

theorem cancelStarted_wf {c : Cmd} {s : State} (h : s.wf) : (cancelStarted c s).wf := thaw_wf (recordFault_wf (setCmd_wf h))

theorem execCcancel_wf {o : DAP} {s : State} (h : s.wf) : nextWf (execCcancel o s) := by
  refine issue_wf (fun _ k => ?_) h
  dsimp only
  split
  · split
    · exact .done (wrD_wf (recordFault_wf (setCmd_wf k)))
    · exact .done (wrD_wf (recordFault_wf k))
    · exact .done (wrD_wf (cancelStarted_wf k))
  · split
    · refine .done ?_
      refine wrD_wf ?_
      split
      · exact setOwner_wf (setEngine_wf k)
      · exact setEngine_wf k
    · exact .done (wrD_wf k)

theorem execCwait_wf {o : AP} {s : State} (h : s.wf) : nextWf (execCwait o s) := by
  refine issue_wf (fun _ k => ?_) h
  refine takeFault_wf k ?_
  dsimp only
  split
  · exact .done k
  · exact suspend_wf k

/-! ### Machine/Tile.lean -/

theorem extentPages_wf {s : State} {base size : Nat} (h : s.wf) : (extentPages s base size).1.wf := by
  unfold extentPages
  split
  · next e => exact wf_of_fst e (translateAll_wf h)
  · next e => exact wf_of_fst e (translateAll_wf h)

/-- A definition that is refused leaves the state as it is. -/
theorem refused_wf {p : Prop} [Decidable p] {s t : State} {i j : Nat} (hs : s.wf) (ht : t.wf) : State.wf (if p then (s, i) else (t, j)).1 := by
  split
  · exact hs
  · exact ht

theorem defineHandle_wf {s : State} {h b : Nat} (hs : s.wf) : (defineHandle s h b).1.wf := by
  unfold defineHandle
  extract_lets v s1 num base size rows cols f flags
  have h1 : s1.wf := sawScratch_wf hs
  split
  · exact h1
  · split
    · exact h1
    · split
      · exact h1
      · split
        · exact h1
        · split
          · next e => exact wf_of_fst e (extentPages_wf h1)
          · next t us e =>
            have ht : t.wf := wf_of_fst e (extentPages_wf h1)
            extract_lets old v'
            exact refused_wf ht (mk_wf ht)

theorem execTdef_wf {o : DABP} {s : State} (h : s.wf) : nextWf (execTdef o s) := by
  refine issue_wf (fun _ k => ?_) h
  dsimp only
  split
  · exact .hold
  · split
    · exact misaligned_wf
    · split
      · exact loadFails_wf k
      · split
        · exact .hold
        · exact .done (wrD_wf (defineHandle_wf k))

theorem countHalf_wf {h : Handle} {k i : Nat} {s : State} (hs : s.wf) : (countHalf h k i s).wf :=
  ite_wf (mk_wf (countBad_wf hs)) (ite_wf (countCorrected_wf hs) hs)

theorem countTile_wf {h : Handle} {l : List TileCell} {s : State} (hs : s.wf) : (countTile h l s).wf := by
  refine foldl_wf (fun _ _ k => ?_) _ hs
  split
  · exact countHalf_wf (countHalf_wf k)
  · exact k

theorem Xfer.fail_wf {x : Xfer} {code at_ : Nat} (h : x.s.wf) : (Xfer.fail x code at_).s.wf := by
  unfold Xfer.fail
  split <;> exact h

theorem Xfer.named_wf {k : Nat} {x : Xfer} (h : x.s.wf) : (Xfer.named k x).s.wf := h

theorem tileOutRun_wf {h : Handle} {c : Cmd} {dst : CopyAddr} {x : Xfer} {r : Nat × List TileCell} (hs : x.s.wf) : (tileOutRun h c dst x r).s.wf := by
  unfold tileOutRun
  dsimp only
  split
  · exact Xfer.spoilRun_wf (Xfer.named_wf hs)
  · split
    · next e => exact Xfer.spoilRun_wf (Xfer.fail_wf (wf_of_fst e (resolveEnd_wf (Xfer.named_wf hs))))
    · next e => split <;> exact foldl_xferWf (fun _ _ => Xfer.chunk_wf) _ (countTile_wf (wf_of_fst e (resolveEnd_wf (Xfer.named_wf hs))))

theorem setHandleCell_wf {s : State} {h k : Nat} {d : CellData} (hs : s.wf) : (setHandleCell s h k d).wf := hs

theorem tileInCell_wf {hn : Nat} {h : Handle} {run i : Nat} {src : Option Endpoint} {aligned : Bool} {x : Xfer} {t : TileCell} (hs : x.s.wf) :
    (tileInCell hn h run i src aligned x t).s.wf := by
  unfold tileInCell
  split
  · exact hs
  · extract_lets poisoned
    split
    · exact setHandleCell_wf hs
    · split
      · exact setHandleCell_wf hs
      · extract_lets bs tg tag d f good
        split
        · exact setHandleCell_wf hs
        · split
          · exact setHandleCell_wf hs
          · exact setHandleCell_wf (Xfer.fail_wf hs)

theorem tileInRun_wf {hn : Nat} {h : Handle} {c : Cmd} {src : CopyAddr} {x : Xfer} {r : Nat × List TileCell} (hs : x.s.wf) :
    (tileInRun hn h c src x r).s.wf := by
  unfold tileInRun
  dsimp only
  split
  · exact foldl_xferWf (fun _ _ => tileInCell_wf) _ hs
  · split
    · next e => exact foldl_xferWf (fun _ _ => tileInCell_wf) _ (Xfer.fail_wf (wf_of_fst e (resolveEnd_wf hs)))
    · next e => exact foldl_xferWf (fun _ _ => tileInCell_wf) _ (Endpoint.account_wf (wf_of_fst e (resolveEnd_wf hs)))

theorem scrambleExtent_wf {h : Handle} {s : State} (hs : s.wf) :
    (scrambleExtent h s).wf :=
  ⟨foldl_memWf (fun _ _ => memPutOwn_wf) _ hs.1, foldl_tagsWf (fun _ _ k => foldl_tagsWf (fun _ _ => tagPut_wf) _ k) _ hs.2.1, hs.2.2⟩

theorem tileXfer_wf {c : Cmd} {x : Xfer} (h : x.s.wf) : (tileXfer c x).s.wf := by
  unfold tileXfer
  dsimp only
  split
  · split
    · exact scrambleExtent_wf (foldl_xferWf (fun _ _ => tileInRun_wf) _ h)
    · exact foldl_xferWf (fun _ _ => tileOutRun_wf) _ h
  · split
    · exact Xfer.fail_wf h
    · exact foldl_xferWf (fun _ _ => Xfer.spoilRun_wf) _ (Xfer.fail_wf h)
  · exact Xfer.fail_wf h

/-! ### Machine/CopyRun.lean -/

theorem startCmd_wf {s : State} (h : s.wf) : (startCmd s).wf := by
  unfold startCmd
  split
  · exact h
  · split
    · exact setCmd_wf h
    · split
      · exact recordFault_wf (setCmd_wf h)
      · dsimp only
        exact mk_wf (setCmd_wf h)

theorem landedSlot_wf {q : BitVec 16} {item : Nat} {s : State} (h : s.wf) : (landedSlot q item s).wf := by
  unfold landedSlot
  split
  · exact h
  · split
    · exact h
    · extract_lets a s1 s2
      have h2 : s2.wf := onCmd_wf (ite_wf (recordFault_wf h) (putCore_wf (spadPutBytes_only _ _ _).2 h))
      split
      · exact h2
      · split
        · exact recordFault_wf h2
        · exact signalled_wf h2

theorem finishItem_wf {q : BitVec 16} {item : Nat} {s : State} (h : s.wf) : (finishItem q item s).wf := by
  unfold finishItem
  split
  · exact h
  · exact landedSlot_wf (setBits_wf h)

theorem finishAwaited_wf {q : BitVec 16} {item : Nat} {s : State} (h : s.wf) : (finishAwaited q item s).wf := by
  unfold finishAwaited
  split
  · exact h
  · exact ite_wf (finishItem_wf (setCmd_wf h)) h

theorem settleItem_wf {q : BitVec 16} {item : Nat} {s : State} (h : s.wf) : (settleItem q item s).wf := by
  unfold settleItem
  split
  · exact h
  · exact ite_wf (setCmd_wf h) (ite_wf (setCmd_wf h) (ite_wf (setCmd_wf h) (finishItem_wf h)))

theorem drainDelayed_wf {q : BitVec 16} {s : State} (h : s.wf) : (drainDelayed q s).wf := by
  unfold drainDelayed
  split
  · exact h
  · dsimp only
    split
    · exact ite_wf (foldl_wf (fun _ _ => settleItem_wf) _ (setCmd_wf h)) (setCmd_wf h)
    · split
      · exact foldl_wf (fun _ _ => settleItem_wf) _ (setCmd_wf (setCore_wf h (foldl_coreWf (fun _ _ => applyHeld_wf) _ h.core)))
      · exact setCmd_wf (setCore_wf h (foldl_coreWf (fun _ _ => applyHeld_wf) _ h.core))

theorem pageRequest_wf {q : BitVec 16} {item va : Nat} {s : State} (h : s.wf) : (pageRequest q item va s).wf := by
  unfold pageRequest
  extract_lets e a drop _ _
  have hd : drop.wf := setEngine_wf h
  split
  · exact hd
  · split
    · exact hd
    · split
      · exact hd
      · extract_lets s1
        have h1 : s1.wf := putCore_wf (spadPutCell_only _ _ _).2 h
        exact wakeRing_wf (putCore_wf (spadPutBytes_only _ _ _).2 (putCore_wf (spadPutBytes_only _ _ _).2 h1))

theorem poisonItem_wf {dst : CopyAddr} {ta : Int} {n from_ : Nat} {x : Xfer} (h : x.s.wf) : (poisonItem dst ta n from_ x).s.wf := Xfer.spoilRun_wf h

theorem runItem_wf {c : Cmd} {i : ListItem} {x : Xfer} (h : x.s.wf) : (runItem c i x).1.s.wf := by
  unfold runItem
  dsimp only
  split
  · exact Xfer.fail_wf (Xfer.named_wf h)
  · split
    · exact poisonItem_wf (Xfer.fail_wf (Xfer.named_wf h))
    · split
      · exact poisonItem_wf (Xfer.fail_wf (Xfer.named_wf h))
      · split
        · exact Xfer.named_wf h
        · split
          · exact doRun_wf (Xfer.named_wf h)
          · split
            · split
              · exact doRun_wf (Xfer.named_wf h)
              · exact Xfer.fail_wf (doRun_wf (Xfer.named_wf h))
            · exact poisonItem_wf (Xfer.fail_wf (doRun_wf (Xfer.named_wf h)))

theorem endListed_wf {q : BitVec 16} {s : State} (h : s.wf) : (endListed q s).wf := by
  unfold endListed
  split
  · exact h
  · exact ite_wf (thaw_wf (setCmd_wf h)) h

theorem doItem_wf {q : BitVec 16} {i : ListItem} {retry : Bool} {s : State} (h : s.wf) : (doItem q i retry s).wf := by
  unfold doItem
  split
  · exact h
  · dsimp only
    split
    · exact settleItem_wf (underPromise_wf (fun _ => runItem_wf) h)
    · exact underPromise_wf (fun _ => runItem_wf) h
    · exact ite_wf (underPromise_wf (fun _ => runItem_wf) h) (pageRequest_wf (onCmd_wf (underPromise_wf (fun _ => runItem_wf) h)))

theorem listedStep_wf {q : BitVec 16} {s : State} (h : s.wf) : (listedStep q s).wf := by
  unfold listedStep
  split
  · exact h
  · split
    · exact endListed_wf (drainDelayed_wf h)
    · dsimp only
      split
      · exact endListed_wf h
      · exact endListed_wf (doItem_wf (mk_wf (setCmd_wf h)))

theorem execTolerantRetry_wf {s : State} (h : s.wf) : nextWf (execTolerantRetry s) := by
  refine atCore_wf (fun _ k => ?_) h
  split
  · exact k
  · exact ite_wf k (endListed_wf (foldl_wf (fun _ _ => doItem_wf) _ (setCmd_wf k)))

theorem runLoop_wf {c : Cmd} {src dst : CopyAddr} {n i : Nat} {x : Xfer} (h : x.s.wf) : (runLoop c src dst n i x).s.wf := by
  induction n generalizing i x with
  | zero => exact h
  | succ n ih =>
    unfold runLoop
    dsimp only
    split
    · exact ih (Xfer.spoilRun_wf (Xfer.named_wf h))
    · refine ih ?_
      split
      · exact doRun_wf (Xfer.named_wf h)
      · exact Xfer.spoilRun_wf (Xfer.fail_wf (doRun_wf (Xfer.named_wf h)))

theorem wholeXfer_wf {c : Cmd} {x : Xfer} (h : x.s.wf) : (wholeXfer c x).s.wf := by
  unfold wholeXfer
  split
  · exact tileXfer_wf h
  · split
    · exact runLoop_wf h
    · exact Xfer.fail_wf h

theorem arriveCmd_wf {q : BitVec 16} {s : State} (h : s.wf) : (arriveCmd q s).wf := by
  unfold arriveCmd
  split
  · exact h
  · split
    · exact h
    · dsimp only
      exact thaw_wf (onCmd_wf (ite_wf (underPromise_wf (fun _ => wholeXfer_wf) h) (drainDelayed_wf h)))

theorem arriveFld_wf {id : Nat} {s : State} (h : s.wf) : (arriveFld id s).wf := thaw_wf (onStr_wf h)

theorem execCellArrival_wf {s : State} (h : s.wf) : nextWf (execCellArrival s) := by
  unfold execCellArrival
  split
  · exact atCore_wf (fun _ => arriveCmd_wf) h
  · exact atCore_wf (fun _ => arriveFld_wf) h

theorem landHeld_wf {q : BitVec 16} {s : State} (h : s.wf) : (landHeld q s).wf := by
  unfold landHeld
  split
  · exact h
  · dsimp only
    refine foldl_wf (fun _ _ => finishItem_wf) _ ?_
    split
    · exact recordFault_wf (setCmd_wf (setCore_wf h (foldl_coreWf (fun _ _ => applyHeld_wf) _ h.core)))
    · exact setCmd_wf (setCore_wf h (foldl_coreWf (fun _ _ => applyHeld_wf) _ h.core))

theorem promisesDue_wf {s : State} (h : s.wf) : (promisesDue s).wf := by
  unfold promisesDue
  split
  · split
    · split
      · exact markLate_wf h
      · dsimp only
        exact setEngine_wf h
    · exact h
  · exact foldl_wf (fun _ _ => landHeld_wf) _ h

theorem landFld_wf {id : Nat} {s : State} (h : s.wf) : (landFld id s).wf := by
  unfold landFld
  split
  · exact h
  · exact onStr_wf h

theorem landResult_wf {i : Nat} {t : Sec} {s : State} (h : s.wf) : (landResult i t s).wf := by
  unfold landResult
  split
  · exact h
  · exact onStr_wf h

theorem completeStep_wf {q : BitVec 16} {s : State} (h : s.wf) : (completeStep q s).wf := by
  unfold completeStep
  split
  · exact h
  · split
    · exact h
    · split
      · exact publishFrame_wf (setCmd_wf h)
      · split
        · exact h
        · split
          · exact ite_wf (completeHead_wf h) h
          · exact h

theorem incoming_wf {w : RemoteWrite} {s : State} (h : s.wf) : (incoming w s).wf := by
  refine setCore_wf h ?_
  split
  · exact applyHeld_wf ((spadPutBytes_only _ _ _).2 h.core)
  · split
    · exact applyHeld_wf ((spadPutBytes_only _ _ _).2 h.core)
    · exact (spadPutBytes_only _ _ _).2 h.core

theorem answerWrite_wf {m : Nat} {who : Requester} {code : Nat} {s : State} (h : s.wf) : (answerWrite m who code s).wf := by
  unfold answerWrite
  split
  · exact send_wf h
  · split
    · exact ite_wf h (onCore_wf h (fun _ => recordFault_wf))
    · exact h

theorem execIncomingWrite_wf {s : State} (h : s.wf) : nextWf (execIncomingWrite s) := by
  unfold execIncomingWrite
  split
  · split
    · exact .fault
    · split
      · exact .next (answerWrite_wf (onCore_wf h (fun _ => incoming_wf)))
      · exact .next (answerWrite_wf h)
  · exact .fault

end Sys2Proof.Machine
end

