-- ==== Sys2Proof/Proofs/CanonicalMessages.lean ====
section
/-! O59: the audit unit and the message queues. -/

namespace Sys2Proof.Machine

/-! ### Machine/AuditUnit.lean -/

theorem setAudit_wf {s : State} {a : Audit} (h : s.wf) : (State.setAudit s a).wf := setCore_wf h h.core
theorem discardSample_wf {s : State} (h : s.wf) : (discardSample s).wf := ite_wf (setCore_wf h (dropSample_wf h.core)) h

theorem discardUntapped_wf {s : State} (h : s.wf) : (discardUntapped s).wf := by
  unfold discardUntapped
  split
  · exact ite_wf (discardSample_wf h) h
  · exact h

theorem takeSample_wf {slot : BitVec 6} {cells : List CellData} {s : State} (h : s.wf) : (takeSample slot cells s).wf :=
  setCore_wf h (coreMk_wf ((spadRaw_only _ _ _).2 h.core))

theorem judge_wf {slot : BitVec 6} {reload : Bool} {cells : List CellData} {s : State} (h : s.wf) : (judge slot reload cells s).1.wf := by
  unfold judge
  extract_lets a forced a1 s1 f
  have h1 : s1.wf := setAudit_wf h
  split
  · exact h
  · split
    · exact h
    · split
      · exact h1
      · split
        · exact setAudit_wf h1
        · split
          · exact setAudit_wf h1
          · split
            · exact setAudit_wf h1
            · exact takeSample_wf h1

theorem makeTap_wf {cfg : BitVec 8} {half : Nat} {seq : BitVec 32} {cell : Nat → CellData} {sums : List (BitVec 32)} {s : State} (h : s.wf) :
    (makeTap cfg half seq cell sums s).1.wf := by
  unfold makeTap
  split
  · exact h
  · dsimp only
    exact setAudit_wf h

theorem handTap_wf {t : Option AuditTap} {s : State} (h : s.wf) : (handTap t s).wf := by
  unfold handTap
  split
  · exact ite_wf (setAudit_wf h) h
  · exact h

/-! ### Machine/Audit.lean -/

theorem auditMisuse_wf {reason : Nat} : (auditMisuse reason).wf := misuse_wf

theorem unlocked_wf {s : State} {e : Eff} (he : e.wf) : (unlocked s e).wf := by
  unfold unlocked
  split
  · exact forbidden_wf
  · exact he

theorem execAsamp_wf {o : ABP} {s : State} (h : s.wf) : nextWf (execAsamp o s) := by
  refine issue_wf (fun _ k => ?_) h
  refine unlocked_wf ?_
  dsimp only
  split
  · exact auditMisuse_wf
  · split
    · exact auditMisuse_wf
    · exact .done (setAudit_wf k)

theorem execAmode_wf {o : AP} {s : State} (h : s.wf) : nextWf (execAmode o s) := by
  refine issue_wf (fun _ k => ?_) h
  refine unlocked_wf ?_
  dsimp only
  split
  · exact auditMisuse_wf
  · exact .done (setAudit_wf (discardSample_wf k))

theorem execAthr_wf {o : ABP} {s : State} (h : s.wf) : nextWf (execAthr o s) := by
  refine issue_wf (fun _ k => ?_) h
  refine unlocked_wf ?_
  dsimp only
  split
  · exact auditMisuse_wf
  · exact .done (setAudit_wf k)

theorem execAown_wf {o : AP} {s : State} (h : s.wf) : nextWf (execAown o s) := by
  refine issue_wf (fun _ k => ?_) h
  refine unlocked_wf ?_
  dsimp only
  split
  · exact auditMisuse_wf
  · split
    · exact auditMisuse_wf
    · split
      · exact forbidden_wf
      · exact .done (setAudit_wf k)

theorem execAforce_wf {o : AP} {s : State} (h : s.wf) : nextWf (execAforce o s) := by
  refine issue_wf (fun _ k => ?_) h
  refine unlocked_wf ?_
  dsimp only
  split
  · exact auditMisuse_wf
  · exact .done (setAudit_wf k)

theorem execAclr_wf {o : AP} {s : State} (h : s.wf) : nextWf (execAclr o s) := by
  refine issue_wf (fun _ k => ?_) h
  refine unlocked_wf ?_
  dsimp only
  split
  · exact auditMisuse_wf
  · exact .done (setAudit_wf k)

theorem raiseMsix_wf {v : Nat} {s : State} (h : s.wf) : (raiseMsix v s).wf := ite_wf h h
theorem raiseDivergence_wf {s : State} (h : s.wf) : (raiseDivergence s).wf := ite_wf h (ite_wf (raiseMsix_wf h) (setAudit_wf h))

theorem replicaMismatch_wf {x : AuditSample} {t : AuditTap} {c : ColumnCheck} {s : State} (h : s.wf) : (replicaMismatch x t c s).wf :=
  raise_wf (mk_wf (setAudit_wf h))

theorem wideResult_wf {x : AuditSample} {t : AuditTap} {cols : List ColumnCheck} {s : State} (h : s.wf) : (wideResult x t cols s).wf := by
  unfold wideResult
  split
  · exact setAudit_wf h
  · exact ite_wf (raiseDivergence_wf (setAudit_wf (setAudit_wf h))) (setAudit_wf h)

theorem endCheck_wf {s : State} (h : s.wf) : (endCheck s).wf := by
  unfold endCheck
  split
  · exact h
  · split
    · exact h
    · extract_lets mode cols s1 _ s2
      have h1 : s1.wf := by
        unfold s1
        split
        · split
          · exact replicaMismatch_wf h
          · exact h
        · exact h
      have h2 : s2.wf := ite_wf (setAudit_wf h1) (wideResult_wf h1)
      exact setAudit_wf h2

/-! ### Machine/Message.lean -/

theorem msgMisuse_wf {reason : Nat} : (msgMisuse reason).wf := misuse_wf
theorem setMsgs_wf {s : State} {m : Messages} (h : s.wf) : (State.setMsgs s m).wf := setCore_wf h h.core
theorem setQueue_wf {q : Fin 16} {x : MsgQueue} {s : State} (h : s.wf) : (setQueue q x s).wf := setMsgs_wf h
theorem setChannel_wf {t : Sec} {c : Nat} {x : Channel} {s : State} (h : s.wf) : (setChannel t c x s).wf := setMsgs_wf h
theorem sendCredit_wf {w : Word} {n : Nat} {s : State} (h : s.wf) : (sendCredit w n s).wf := ite_wf (ite_wf (raise_wf h) h) (send_wf h)

theorem returnCredits_wf {q : Fin 16} {all : Bool} {s : State} (h : s.wf) : (returnCredits q all s).wf :=
  foldl_wf (fun _ _ => sendCredit_wf) _ (setQueue_wf h)

theorem popEntry_wf {q : Fin 16} {s : State} (h : s.wf) : (popEntry q s).wf := by
  unfold popEntry
  dsimp only
  split
  · exact h
  · exact returnCredits_wf (setQueue_wf h)

theorem landCell_wf {a : Nat} {d : CellData × Bool} {c : CoreState} (hc : coreWf c) : coreWf (landCell a d c) := by
  unfold landCell
  split
  · exact (spadPutPoisoned_only _ _ _).2 hc
  · exact (spadPutCell_only _ _ _).2 hc

theorem takeEntry_wf {t : Sec} {q : Fin 16} {a : Nat} {s : State} (h : s.wf) : (takeEntry t q a s).2.wf :=
  popEntry_wf (storedBy_wf (fun _ => landCell_wf) (ite_wf (reportLine_wf h) h))

theorem tryRecv_wf {t : Sec} {s : State} (h : s.wf) : (tryRecv t s).wf := by
  unfold tryRecv
  split
  · dsimp only
    split <;> exact ite_wf h (resume_wf (takeEntry_wf h))
  · exact h

theorem wakeRecv_wf {s : State} (h : s.wf) : (wakeRecv s).wf := tryRecv_wf (tryRecv_wf h)

theorem appendEntry_wf {q : Fin 16} {e : Entry} {s : State} (h : s.wf) : (appendEntry q e s).wf :=
  thaw_wf (wakeRecv_wf (setQueue_wf (setCore_wf h (landCell_wf h.core))))

theorem channelFault_wf {t : Sec} {c code : Nat} {s : State} (h : s.wf) : (channelFault t c code s).wf := setChannel_wf h

theorem answerSender_wf {w : Word} {code : Nat} {s : State} (h : s.wf) : (answerSender w code s).wf :=
  ite_wf h (ite_wf (ite_wf h (onCore_wf h (fun _ => channelFault_wf))) (send_wf h))

theorem arriveEntry_wf {q : Fin 16} {e : Entry} {s : State} (h : s.wf) : (arriveEntry q e s).wf :=
  ite_wf (answerSender_wf (appendEntry_wf h)) (ite_wf (setQueue_wf h) (answerSender_wf h))

theorem execQueueEntryArrival_wf {s : State} (h : s.wf) : nextWf (execQueueEntryArrival s) := by
  unfold execQueueEntryArrival
  split
  · exact atCore_wf (fun _ => arriveEntry_wf) h
  · exact .fault

theorem multicastEntry_wf {g : Nat} {e : Entry} {s : State} (h : s.wf) : (multicastEntry g e s).wf := raise_wf (foldl_wf (fun _ _ => send_wf) _ h)

theorem deliver_wf {t : Sec} {c : Nat} {ch : Channel} {e : Entry} {s : State} (h : s.wf) : (deliver t c ch e s).wf := by
  unfold deliver
  split
  · exact multicastEntry_wf h
  · dsimp only
    exact ite_wf (ite_wf (raise_wf h) (channelFault_wf h)) (ite_wf (send_wf (setChannel_wf h)) (channelFault_wf h))

theorem sendNow_wf {t : Sec} {c a : Nat} {s : State} (h : s.wf) : (sendNow t c a s).wf :=
  deliver_wf (setChannel_wf (ite_wf (reportLine_wf (loadMade_wf h)) (loadMade_wf h)))

theorem sendTrap_wf {s : State} {c a : Nat} {t : Eff} (e : sendTrap s c a = some t) : t.wf := by
  unfold sendTrap at e
  dsimp only at e
  split at e
  · cases e; exact .trap
  · split at e
    · cases e; exact .trap
    · split at e
      · cases e; exact .trap
      · split at e
        · cases e; exact .trap
        · cases e

theorem execSend_wf {o : CAH} {s : State} (h : s.wf) : nextWf (execSend o s) := by
  refine issue_wf (fun _ k => ?_) h
  dsimp only
  split
  · next e => exact sendTrap_wf e
  · split
    · exact .hold
    · split
      · exact suspend_wf k
      · exact .done (sendNow_wf k)

theorem execSends_wf {o : CPAH} {s : State} (h : s.wf) : nextWf (execSends o s) := by
  refine issue_wf (fun _ k => ?_) h
  dsimp only
  split
  · next e => exact sendTrap_wf e
  · split
    · exact .done (wrP_wf k)
    · split
      · exact .hold
      · exact .done (wrP_wf (sendNow_wf k))

theorem execCreditReturn_wf {s : State} (h : s.wf) : nextWf (execCreditReturn s) := by
  unfold execCreditReturn
  dsimp only
  refine atCore_wf (fun _ k => ?_) h
  split
  · exact ite_wf (resume_wf (sendNow_wf (setChannel_wf k))) (setChannel_wf k)
  · exact setChannel_wf k

theorem takeDelivery_wf {t : Sec} {c code : Nat} {s : State} (h : s.wf) : (takeDelivery t c code s).wf := setChannel_wf h

theorem execQcfg_wf {o : CAQ} {s : State} (h : s.wf) : nextWf (execQcfg o s) := by
  refine issue_wf (fun _ k => ?_) h
  dsimp only
  split
  · exact msgMisuse_wf
  · split
    · exact msgMisuse_wf
    · split
      · split
        · exact forbidden_wf
        · exact .done (setQueue_wf k)
      · exact .done (setQueue_wf (returnCredits_wf k))

theorem execChmap_wf {o : CAH} {s : State} (h : s.wf) : nextWf (execChmap o s) := by
  refine issue_wf (fun _ k => ?_) h
  dsimp only
  split
  · exact msgMisuse_wf
  · exact .done (setChannel_wf k)

theorem execMcast_wf {o : CAQ} {s : State} (h : s.wf) : nextWf (execMcast o s) := by
  refine issue_wf (fun _ k => ?_) h
  dsimp only
  split
  · exact msgMisuse_wf
  · split
    · exact .done (setMsgs_wf k)
    · split
      · exact msgMisuse_wf
      · split
        · exact msgMisuse_wf
        · exact .done (setMsgs_wf k)

theorem recvTrap_wf {s : State} {q : Fin 16} {a : Nat} {t : Eff} (e : recvTrap s q a = some t) : t.wf := by
  unfold recvTrap at e
  split at e
  · cases e; exact .trap
  · split at e
    · cases e; exact .trap
    · split at e
      · cases e; exact .trap
      · cases e

theorem execRecv_wf {o : CDAQ} {s : State} (h : s.wf) : nextWf (execRecv o s) := by
  refine issue_wf (fun _ k => ?_) h
  dsimp only
  split
  · next e => exact recvTrap_wf e
  · split
    · exact suspend_wf (setCur_wf k)
    · split
      · exact suspend_wf k
      · exact .done (wrD_wf (takeEntry_wf k))

theorem execRecvs_wf {o : CDAQ} {s : State} (h : s.wf) : nextWf (execRecvs o s) := by
  refine issue_wf (fun _ k => ?_) h
  dsimp only
  split
  · next e => exact recvTrap_wf e
  · split
    · exact .done (wrD_wf k)
    · exact .done (wrD_wf (takeEntry_wf k))

theorem execPeek_wf {o : CDQ} {s : State} (h : s.wf) : nextWf (execPeek o s) := by
  refine issue_wf (fun _ k => ?_) h
  dsimp only
  split
  · exact msgMisuse_wf
  · exact .done (wrD_wf k)

theorem popEntries_wf {q : Fin 16} {n : Nat} {s : State} (h : s.wf) : (popEntries q n s).wf := by
  induction n generalizing s with
  | zero => exact h
  | succ n ih => exact ih (popEntry_wf h)

theorem execQfree_wf {o : CAQ} {s : State} (h : s.wf) : nextWf (execQfree o s) := by
  refine issue_wf (fun _ k => ?_) h
  dsimp only
  split
  · exact msgMisuse_wf
  · split
    · exact msgMisuse_wf
    · split
      · exact .hold
      · exact .done (popEntries_wf k)

theorem memqRecord_wf {bytes : Nat} {s : State} (h : s.wf) : (memqRecord bytes s).wf := ite_wf h (arriveEntry_wf h)
theorem membershipRecord_wf {m code : Nat} {s : State} (h : s.wf) : (membershipRecord m code s).wf := memqRecord_wf h
theorem faultChannels_wf {m : Nat} {s : State} (h : s.wf) : (faultChannels m s).wf := setMsgs_wf h

end Sys2Proof.Machine
end

