-- ==== Sys2Proof/Proofs/CanonicalForager.lean ====
section
/-! O59: the forager and its legs. -/

namespace Sys2Proof.Machine

theorem mapCores_wf {f : CoreState → CoreState} {s : State} (hf : ∀ c, coreWf c → coreWf (f c)) (h : s.wf) :
    (mapCores f s).wf := ⟨h.1, h.2.1, hf _ h.core, fun c hc => by
  obtain ⟨d, hd, rfl⟩ := List.mem_map.mp hc
  exact hf d (h.2.2.2 d hd)⟩

theorem settleWalk_wf {w : Nat} {s : State} (h : s.wf) : (settleWalk w s).wf := by
  unfold settleWalk
  dsimp only
  split
  · refine mapCores_wf (fun _ k => ?_) (setWalk_wf h)
    split <;> exact k
  · exact h

theorem drainWalk_wf {w : Nat} {s : State} (h : s.wf) : (drainWalk w s).wf := ite_wf (settleWalk_wf (setWalk_wf h)) h
theorem stopWalk_wf {w : Nat} {s : State} (h : s.wf) : (stopWalk w s).wf := ite_wf (drainWalk_wf h) (settleWalk_wf (setWalk_wf (drainWalk_wf h)))

theorem legPage_wf {w va : Nat} {write : Bool} {t : Tier} {s : State} (h : s.wf) : (legPage w va write t s).1.wf := by
  unfold legPage
  dsimp only
  split <;> exact translateDie_wf h

theorem sfWrite_wf {to_ : Word} {f : CoreState → CoreState} {s : State} (hf : ∀ c, coreWf c → coreWf (f c)) (h : s.wf) : (sfWrite to_ f s).wf :=
  onCore_wf h (fun _ k => setCore_wf k (hf _ k.core))

theorem putLegCell_wf {w : Nat} {l : Leg} {i : Nat} {d : CellData} {bad : Bool} {s : State} (h : s.wf) : (putLegCell w l i d bad s).1.wf := by
  unfold putLegCell
  split
  · split
    · exact h
    · refine sfWrite_wf (fun _ k => ?_) h
      split
      · exact (spadPutPoisoned_only _ _ _).2 k
      · exact (spadPutCell_only _ _ _).2 k
  · split
    · next e => exact wf_of_fst e (legPage_wf h)
    · next e => exact writeCellAt_wf (wf_of_fst e (legPage_wf h))

theorem poisonLegCell_wf {w : Nat} {l : Leg} {i : Nat} {s : State} (h : s.wf) : (poisonLegCell w l i s).wf := by
  unfold poisonLegCell
  split
  · split
    · exact send_wf h
    · split
      · split
        · exact h
        · exact sfWrite_wf (fun _ k => (spadPutTag_only _ _ _).2 ((spoilSample_only _ _ _).2 k)) h
      · exact h
  · dsimp only
    split
    · exact translateDie_wf h
    · exact poisonMem_wf (translateDie_wf h)

theorem poisonLeg_wf {w : Nat} {l : Leg} {n i : Nat} {s : State} (h : s.wf) : (poisonLeg w l n i s).wf := by
  induction n generalizing i s with
  | zero => exact h
  | succ n ih => exact ih (poisonLegCell_wf h)

theorem readLegCell_wf {w : Nat} {p : Xlat} {s : State} (h : s.wf) : (readLegCell w p s).1.wf := by
  unfold readLegCell
  dsimp only
  split
  · exact onWalk_wf (reportUnits_wf (countCell_wf h))
  · exact reportUnits_wf (countCell_wf h)

theorem moveCells_wf {w : Nat} {l : Leg} {n i : Nat} {s : State} (h : s.wf) : (moveCells w l n i s).1.wf := by
  induction n generalizing i s with
  | zero => exact h
  | succ n ih =>
    unfold moveCells
    split
    · next e => exact poisonLeg_wf (wf_of_fst e (legPage_wf h))
    · next e =>
      split
      · next e1 =>
        split
        · next e3 => exact poisonLeg_wf (wf_of_fst e3 (putLegCell_wf (wf_of_fst e1 (readLegCell_wf (wf_of_fst e (legPage_wf h))))))
        · next e2 => exact ih (wf_of_fst e2 (putLegCell_wf (wf_of_fst e1 (readLegCell_wf (wf_of_fst e (legPage_wf h))))))

theorem readLegCells_wf {w : Nat} {l : Leg} {n i : Nat} {s : State} (h : s.wf) : (readLegCells w l n i s).1.wf := by
  induction n generalizing i s with
  | zero => exact h
  | succ n ih =>
    unfold readLegCells
    split
    · next e => exact wf_of_fst e (legPage_wf h)
    · next e => exact ih (readLegCell_wf (wf_of_fst e (legPage_wf h)))

theorem putHeldCells_wf {w : Nat} {l : Leg} {n : Nat} {r : List (CellData × Bool)} {s : State} (h : s.wf) : (putHeldCells w l n r s).1.wf := by
  induction r generalizing n s with
  | nil => exact h
  | cons c r ih =>
    unfold putHeldCells
    split
    · next e => exact wf_of_fst e (putLegCell_wf h)
    · next e => exact ih (wf_of_fst e (putLegCell_wf h))

theorem wroteLast_wf {w : Nat} {j : LegJob} {s : State} (h : s.wf) : (wroteLast w j s).wf := onWalk_wf h

theorem noteFault_wf {w : Nat} {j : LegJob} {e : Option Nat} {s : State} (h : s.wf) : (noteFault w j e s).wf := by
  unfold noteFault
  split
  · exact onWalk_wf h
  · exact h

theorem pumpLeg_wf {w o : Nat} {s : State} (h : s.wf) : (pumpLeg w o s).wf := by
  unfold pumpLeg
  split
  · exact h
  · split
    · exact h
    · extract_lets l
      split
      · next e => exact wroteLast_wf (poisonLeg_wf (noteFault_wf (wf_of_fst e (putHeldCells_wf h))))
      · next s1 e =>
        have h1 : s1.wf := wf_of_fst e (putHeldCells_wf h)
        exact ite_wf (wroteLast_wf (poisonLeg_wf h1)) (ite_wf (wroteLast_wf h1) (onWalk_wf h1))

theorem failLeg_wf {w : Nat} {j : LegJob} {code : Nat} {s : State} (h : s.wf) : (failLeg w j code s).wf := pumpLeg_wf (onWalk_wf (noteFault_wf h))

theorem paceCore_wf {x : Walk} {w h : Nat} {c : CoreState} (hc : coreWf c) : coreWf (paceCore x w h c) := by
  unfold paceCore
  split
  · exact hc
  · split
    · dsimp only
      exact hc
    · exact hc

theorem signalOn_wf {n p : Nat} {s t : State} (e : signalOn n p s = some t) (h : s.wf) : t.wf := by
  unfold signalOn at e
  split at e
  · cases e
    exact h
  · next s1 e1 =>
    obtain ⟨s2, e2, rfl⟩ := Option.map_eq_some_iff.mp e
    have h2 : s2.wf := signalLocal_wf e2 (focus_wf e1 h)
    cases e3 : focus s.core.num s2 with
    | none => exact h2
    | some s3 => exact focus_wf e3 h2

theorem signalAway_wf {w : Nat} {l : Leg} {s : State} (h : s.wf) : (signalAway w l s).wf := ite_wf (ite_wf (send_wf h) (onWalk_wf h)) h
theorem retireLeg_wf {w : Nat} {j : LegJob} {s : State} (h : s.wf) : (retireLeg w j s).wf := settleWalk_wf (onWalk_wf h)

theorem landLeg_wf {w : Nat} {j : LegJob} {s : State} (h : s.wf) : (landLeg w j s).wf := by
  unfold landLeg
  dsimp only
  split
  · exact onWalk_wf (signalAway_wf (mapCores_wf (fun _ => paceCore_wf) (setWalk_wf h)))
  · exact retireLeg_wf (signalAway_wf (mapCores_wf (fun _ => paceCore_wf) (setWalk_wf h)))

theorem signalLeg_wf {w : Nat} {j : LegJob} {s : State} (h : s.wf) : (signalLeg w j s).wf := by
  refine retireLeg_wf ?_
  split
  · next s1 e =>
    obtain ⟨n, _, en⟩ := Option.map_eq_some_iff.mp e
    exact signalOn_wf en h
  · exact noteFault_wf h
  · exact h

theorem atWalk_wf {w : Nat} {f : State → State} {s : State} (hf : ∀ s, s.wf → (f s).wf) (h : s.wf) : nextWf (atWalk w f s) := by
  unfold atWalk
  split
  · exact .next (hf _ h)
  · exact .fault

theorem readLeg_wf {w : Nat} {s : State} (h : s.wf) : (readLeg w s).wf := by
  unfold readLeg
  dsimp only
  split
  · exact h
  · split
    · exact drainWalk_wf (onWalk_wf (translateDie_wf h))
    · split
      · exact drainWalk_wf (onWalk_wf (reportUnits_wf (countRead_wf (translateDie_wf h))))
      · exact ite_wf (drainWalk_wf (onWalk_wf (countRead_wf (translateDie_wf h)))) (onWalk_wf (countRead_wf (translateDie_wf h)))

theorem startLeg_wf {w o : Nat} {s : State} (h : s.wf) : (startLeg w o s).wf := by
  unfold startLeg
  split
  · exact h
  · split
    · exact h
    · dsimp only
      split
      · exact failLeg_wf (mk_wf (setWalk_wf h))
      · exact ite_wf (raise_wf (foldl_wf (fun _ _ => send_wf) _ (mk_wf (setWalk_wf h)))) (mk_wf (setWalk_wf h))

theorem controlLeg_wf {w : Nat} {s : State} (h : s.wf) : (controlLeg w s).wf := by
  unfold controlLeg
  dsimp only
  split
  · exact h
  · exact ite_wf h (ite_wf (setWalk_wf h) (drainWalk_wf (setWalk_wf h)))

theorem sendLeg_wf {w o : Nat} {s : State} (h : s.wf) : (sendLeg w o s).wf := by
  unfold sendLeg
  split
  · exact h
  · split
    · exact h
    · dsimp only
      exact pumpLeg_wf (raise_wf (foldl_wf (fun _ _ => send_wf) _ (onWalk_wf (noteFault_wf (mk_wf (readLegCells_wf (mk_wf (onWalk_wf h))))))))

theorem answerGone_wf {n : Notice} {s : State} (h : s.wf) : (answerGone n s).wf := ite_wf (raise_wf h) (send_wf h)
theorem takeNotice_wf {n : Notice} {s : State} (h : s.wf) : (takeNotice n s).wf := ite_wf (answerGone_wf h) (ite_wf h h)

theorem execReadyNotice_wf {s : State} (h : s.wf) : nextWf (execReadyNotice s) := by
  unfold execReadyNotice
  split
  · exact .next (takeNotice_wf h)
  · exact .fault

theorem goneLeg_wf {w g n : Nat} {s : State} (h : s.wf) : (goneLeg w g n s).wf := by
  unfold goneLeg
  split
  · exact failLeg_wf h
  · exact h

theorem arriveCell_wf {w src g n announced : Nat} {c : CellData × Bool} {s : State} (h : s.wf) : (arriveCell w src g n announced c s).wf := by
  unfold arriveCell
  dsimp only
  split
  · exact onWalk_wf h
  · exact ite_wf (failLeg_wf h) (pumpLeg_wf (onWalk_wf h))

theorem execMulticastCellArrival_wf {s : State} (h : s.wf) : nextWf (execMulticastCellArrival s) := by
  unfold execMulticastCellArrival
  split
  · exact atWalk_wf (fun _ => arriveCell_wf) h
  · exact .fault

theorem silentLeg_wf {w o : Nat} {s : State} (h : s.wf) : (silentLeg w o s).wf := by
  unfold silentLeg
  split
  · exact ite_wf (failLeg_wf h) h
  · exact h

theorem advanceLeg_wf {w o : Nat} {s : State} (h : s.wf) : (advanceLeg w o s).wf := by
  unfold advanceLeg
  split
  · exact h
  · split
    · dsimp only
      exact wroteLast_wf (noteFault_wf (mk_wf (moveCells_wf h)))
    · exact ite_wf (pumpLeg_wf h) (ite_wf (landLeg_wf h) (ite_wf (signalLeg_wf h) h))

theorem fireMark_wf {w : Nat} {s : State} (h : s.wf) : (fireMark w s).wf := by
  unfold fireMark
  dsimp only
  split
  · exact h
  · exact ite_wf (settleWalk_wf (onCore_wf (setWalk_wf h) (fun _ => raiseFlag_wf))) h

theorem foragerDelivered_wf {w : Nat} {s : State} (h : s.wf) : (foragerDelivered w s).wf := onWalk_wf h

theorem sourceLost_wf {m : Nat} {s : State} (h : s.wf) : (sourceLost m s).wf := by
  refine foldl_wf (fun _ _ k => ?_) _ h
  refine foldl_wf (fun _ _ k1 => ?_) _ k
  split
  · exact ite_wf (failLeg_wf k1) k1
  · exact ite_wf (failLeg_wf k1) k1
  · exact ite_wf (failLeg_wf k1) k1

theorem foragerMisuse_wf {reason : Nat} : (foragerMisuse reason).wf := misuse_wf

theorem fgstartBody_wf {o : ABP} {s : State} (h : s.wf) : (fgstartBody o s).wf := by
  unfold fgstartBody
  dsimp only
  split
  · exact foragerMisuse_wf
  · split
    · exact misaligned_wf
    · split
      · exact foragerMisuse_wf
      · split
        · exact .hold
        · exact .done (setWalk_wf h)

theorem execFgstop_wf {o : AP} {s : State} (h : s.wf) : nextWf (execFgstop o s) := by
  refine issue_wf (fun _ k => ?_) h
  dsimp only
  split
  · exact foragerMisuse_wf
  · split
    · exact foragerMisuse_wf
    · exact .done (stopWalk_wf k)

theorem execFglate_wf {o : DAP} {s : State} (h : s.wf) : nextWf (execFglate o s) := by
  refine issue_wf (fun _ k => ?_) h
  dsimp only
  split
  · exact .done (wrD_wf k)
  · exact .done (wrD_wf (ite_wf (setWalk_wf k) k))

theorem execFgwin_wf {o : ABP} {s : State} (h : s.wf) : nextWf (execFgwin o s) := by
  refine issue_wf (fun _ k => ?_) h
  dsimp only
  split
  · exact foragerMisuse_wf
  · split
    · exact foragerMisuse_wf
    · exact .done (onWalk_wf k)

theorem execFgpace_wf {o : ABP} {s : State} (h : s.wf) : nextWf (execFgpace o s) := by
  refine issue_wf (fun _ k => ?_) h
  dsimp only
  split
  · exact foragerMisuse_wf
  · split
    · exact foragerMisuse_wf
    · exact .done (setCore_wf k k.core)

theorem execFgmc_wf {o : AP} {s : State} (h : s.wf) : nextWf (execFgmc o s) := by
  refine issue_wf (fun _ k => ?_) h
  dsimp only
  split
  · exact foragerMisuse_wf
  · split
    · exact foragerMisuse_wf
    · split
      · exact .done (setWalk_wf k)
      · split
        · exact foragerMisuse_wf
        · split
          · exact .done k
          · split
            · exact foragerMisuse_wf
            · exact .done (setWalk_wf k)

theorem execFgmark_wf {o : ABP} {s : State} (h : s.wf) : nextWf (execFgmark o s) := by
  refine issue_wf (fun _ k => ?_) h
  dsimp only
  split
  · exact foragerMisuse_wf
  · split
    · exact foragerMisuse_wf
    · exact .done (setWalk_wf k)

end Sys2Proof.Machine
end

