-- ==== Sys2Proof/Proofs/CanonicalMatrix.lean ====
section
/-! O59: the matrix engine. -/

namespace Sys2Proof.Machine

theorem matMisuse_wf {reason : Nat} : (matMisuse reason).wf := misuse_wf
theorem setMat_wf {s : State} {m : Matrix} (h : s.wf) : (State.setMat s m).wf := setCore_wf h h.core

theorem matFault_wf {code reason : Nat} {w : Word} {fol : Bool} {seq : BitVec 32} {s : State} (h : s.wf) : (matFault code reason w fol seq s).wf :=
  ite_wf (setMat_wf h) (ite_wf (onStr_wf (setMat_wf h)) (setMat_wf h))

theorem enterMat_wf {w : Word} {fol : Bool} {s : State} (h : s.wf) : (enterMat w fol s).wf := ite_wf (counterUp_wf (setMat_wf h)) (setMat_wf h)

theorem matCommand_wf {kind : Nat} {w : Word} {s : State} (h : s.wf) : (matCommand kind w s).wf := by
  unfold matCommand
  split
  · exact matMisuse_wf
  · split
    · exact forbidden_wf
    · split
      · exact .hold
      · exact .done (enterMat_wf h)

theorem followOn_wf {w : Word} {s : State} (h : s.wf) : (followOn w s).wf := by
  unfold followOn
  dsimp only
  split
  · exact matFault_wf h
  · exact ite_wf (matFault_wf h) (enterMat_wf h)

theorem execFollowOnArrival_wf {s : State} (h : s.wf) : nextWf (execFollowOnArrival s) := by
  refine atCore_wf (fun _ k => ?_) h
  split
  · exact ite_wf (followOn_wf (setCmd_wf k)) k
  · exact k

theorem finishEntry_wf {e : MatEntry} {s : State} (h : s.wf) : (finishEntry e s).wf := ite_wf (counterDown_wf h) h
theorem dispatchWload_wf {e : MatEntry} {s : State} (h : s.wf) : (dispatchWload e s).wf := mk_wf (setMat_wf (judge_wf (ite_wf (discardUntapped_wf h) h)))

theorem endFill_wf {s : State} (h : s.wf) : (endFill s).wf := by
  unfold endFill
  split
  · exact h
  · dsimp only
    split
    · exact finishEntry_wf (accrueTo_wf (setMat_wf h))
    · exact finishEntry_wf (matFault_wf (accrueTo_wf (setMat_wf (ite_wf (discardUntapped_wf h) h))))

theorem dispatchWflip_wf {e : MatEntry} {s : State} (h : s.wf) : (dispatchWflip e s).wf :=
  ite_wf (finishEntry_wf (setMat_wf (ite_wf (discardUntapped_wf h) h))) (finishEntry_wf (matFault_wf (setMat_wf h)))

theorem dispatchMmul_wf {e : MatEntry} {s : State} (h : s.wf) : (dispatchMmul e s).wf := by
  unfold dispatchMmul
  dsimp only
  split
  · exact setMat_wf h
  · split
    · exact finishEntry_wf (matFault_wf (setMat_wf h))
    · split
      · exact matFault_wf (setMat_wf (mk_wf (setMat_wf h)))
      · refine setMat_wf ?_
        split
        · exact makeTap_wf (mk_wf (setMat_wf h))
        · exact mk_wf (setMat_wf h)

theorem finishMmul_wf {s : State} (h : s.wf) : (finishMmul s).wf := by
  unfold finishMmul
  split
  · exact h
  · dsimp only
    exact finishEntry_wf (handTap_wf (ite_wf (accrueTo_wf (setMat_wf h)) (setMat_wf h)))

theorem execWloadDispatch_wf {s : State} (h : s.wf) : nextWf (execWloadDispatch s) := by
  refine atCore_wf (fun _ k => ?_) h
  split
  · exact dispatchWload_wf k
  · exact k

theorem execWflipDispatch_wf {s : State} (h : s.wf) : nextWf (execWflipDispatch s) := by
  refine atCore_wf (fun _ k => ?_) h
  split
  · exact dispatchWflip_wf k
  · exact k

theorem execMmulDispatch_wf {s : State} (h : s.wf) : nextWf (execMmulDispatch s) := by
  refine atCore_wf (fun _ k => ?_) h
  split
  · exact dispatchMmul_wf k
  · exact k

theorem dropCombs_wf {s : State} (h : s.wf) : (dropCombs s).wf := setMat_wf (discardUntapped_wf h)

theorem execMcfg_wf {o : AP} {s : State} (h : s.wf) : nextWf (execMcfg o s) := by
  refine issue_wf (fun _ k => ?_) h
  dsimp only
  split
  · exact matMisuse_wf
  · split
    · exact matMisuse_wf
    · split
      · exact .hold
      · exact .done (setMat_wf (ite_wf (dropCombs_wf k) k))

theorem execMrel_wf {o : GP} {s : State} (h : s.wf) : nextWf (execMrel o s) := by
  refine issue_wf (fun _ k => ?_) h
  split
  · exact .hold
  · dsimp only
    exact .done (setMat_wf (discardSample_wf (dropCombs_wf k)))

theorem drainWait_wf {s : State} (h : s.wf) : (drainWait s).wf := by
  unfold drainWait
  split
  · exact .done (setMat_wf h)
  · exact .jump (setMat_wf h)

theorem execMdrain_wf {o : GP} {s : State} (h : s.wf) : nextWf (execMdrain o s) := by
  refine issue_wf (fun _ k => ?_) h
  split
  · exact drainWait_wf k
  · exact takeFault_wf k (drainWait_wf k)

theorem marked_wf {perform : Matrix → Matrix} {s : State} (h : s.wf) : (marked perform s).wf := by
  unfold marked
  dsimp only
  split
  · exact .done (setMat_wf h)
  · exact .jump (setMat_wf h)

theorem execMclr_wf {o : AP} {s : State} (h : s.wf) : nextWf (execMclr o s) := by
  refine issue_wf (fun _ k => ?_) h
  dsimp only
  split
  · exact matMisuse_wf
  · split
    · exact matMisuse_wf
    · split
      · exact .done (setMat_wf k)
      · exact marked_wf k

theorem bankArea_wf {a b : Word} {f : Nat → Nat → Nat → Eff} {s : State} (hf : ∀ x y z, (f x y z).wf) : (bankArea a b f s).wf := by
  unfold bankArea
  dsimp only
  split
  · exact matMisuse_wf
  · split
    · exact matMisuse_wf
    · split
      · exact matMisuse_wf
      · split
        · exact forbidden_wf
        · exact hf _ _ _

theorem execMrest_wf {o : ABP} {s : State} (h : s.wf) : nextWf (execMrest o s) := by
  refine issue_wf (fun _ k => ?_) h
  refine bankArea_wf (fun _ _ _ => ?_)
  split
  · exact loadFails_wf k
  · dsimp only
    exact .done (accrueTo_wf (setMat_wf (sawScratch_wf k)))

theorem execMband_wf {o : ABP} {s : State} (h : s.wf) : nextWf (execMband o s) := by
  refine issue_wf (fun _ k => ?_) h
  dsimp only
  split
  · exact matMisuse_wf
  · exact .done (setMat_wf k)

end Sys2Proof.Machine
end

