-- ==== Sys2Proof/Proofs/CanonicalSchedule.lean ====
section
/-! O59: the scheduler, launch and control. -/

namespace Sys2Proof.Machine

/-! ### Machine/Schedule.lean -/

theorem onJob_wf {j : Nat} {f : Job → Job} {s : State} (h : s.wf) : (onJob j f s).wf := h
theorem setLaunchQueue_wf {q : Nat} {x : LaunchQueue} {s : State} (h : s.wf) : (setLaunchQueue q x s).wf := h
theorem askDecision_wf {s : State} (h : s.wf) : (askDecision s).wf := raise_wf h

theorem countSched_wf {x : Access} {va n : Nat} {s : State} (h : s.wf) : (countSched x va n s).wf := by
  refine foldl_wf (fun s a k => ?_) _ h
  extract_lets walk s1
  have h1 : s1.wf := foldl_wf (fun _ _ => countPhysical_wf) _ k
  split
  · exact countCell_wf h1
  · exact h1

theorem countRuns_wf {x : Access} {l : List (Nat × Nat)} {s : State} (h : s.wf) : (countRuns x l s).wf := foldl_wf (fun _ _ => countSched_wf) _ h
theorem countTenant_wf {t : Nat} {s : State} (h : s.wf) : (countTenant t s).wf := countReach_wf h

theorem countPlan_wf {p : BitVec 512} {s : State} (h : s.wf) : (countPlan p s).wf := by
  unfold countPlan
  split
  · exact h
  · dsimp only
    split
    · exact countTenant_wf h
    · exact countRuns_wf (countTenant_wf h)

theorem startTask_wf {image stage : Nat} {g : StageImage} {s : State} (h : s.wf) : (startTask image stage g s).wf := mk_wf (setCore_wf h h.core)

theorem loadSection_wf {x : Access} {image : Nat} {g : Section} {s : State} (h : s.wf) : (loadSection x image g s).wf := by
  unfold loadSection
  split
  · exact h
  · dsimp only
    exact setCore_wf (countSched_wf h) ((spadPutBytes_only _ _ _).2 ((countSched_wf h).core))

theorem loadScratch_wf {x : Access} {image : Nat} {g : StageImage} {s : State} (h : s.wf) : (loadScratch x image g s).wf :=
  foldl_wf (fun _ _ k => putCore_wf (spadPutCell_only _ _ _).2 k) _ (countSched_wf h)

theorem placedCore_wf {s : State} {j k : Nat} {x : Job} {g : StageImage} {c : CoreState} (hc : coreWf c) : coreWf (placedCore s j k x g c) := hc

theorem placeHere_wf {j k : Nat} {s : State} (h : s.wf) : (placeHere j k s).wf := by
  unfold placeHere
  split
  · exact h
  · split
    · exact h
    · extract_lets a old _ _ s0 s1 s2
      have h1 : s1.wf := foldl_wf (fun _ _ => loadSection_wf) _ (setCore_wf h h.core)
      have h2 : s2.wf := loadScratch_wf h1
      exact startTask_wf (setCore_wf h2 (placedCore_wf (coreMk_wf h2.core)))

theorem placeCore_wf {j k n : Nat} {s : State} (h : s.wf) : (placeCore j k n s).wf := onCore_wf h (fun _ => placeHere_wf)
theorem onStage_wf {j k : Nat} {f : Stage → Stage} {s : State} (h : s.wf) : (onStage j k f s).wf := onJob_wf h

theorem takeFromInbox_wf {a : Nat} {s : State} {x} {t : State} (e : takeFromInbox a s = some (x, t)) (h : s.wf) : t.wf := by
  unfold takeFromInbox at e
  split at e
  · cases e
  · cases e
    exact setInbox_wf (storeCellBy_wf h)

theorem serveTake_wf {s : State} (h : s.wf) : (serveTake s).wf := by
  unfold serveTake
  split
  · split
    · next e => exact resume_wf (takeFromInbox_wf e h)
    · exact h
  · exact h

theorem dispatchRecord_wf {j k : Nat} {s : State} (h : s.wf) : (dispatchRecord j k s).wf := by
  unfold dispatchRecord
  split
  · exact h
  · split
    · exact h
    · split
      · exact h
      · split
        · exact h
        · exact onCore_wf (onStage_wf h) (fun _ k2 => serveTake_wf (setCore_wf k2 k2.core))

theorem nudge_wf {s : State} (h : s.wf) : (nudge s).wf := by
  unfold nudge
  split
  · exact setCore_wf (withdraw_wf h) ((withdraw_wf h).core)
  · exact h

theorem requestPreempt_wf {s : State} (h : s.wf) : (requestPreempt s).wf := nudge_wf (setCore_wf h h.core)

theorem returnInbox_wf {s : State} (h : s.wf) : (returnInbox s).wf := by
  unfold returnInbox
  split
  · exact h
  · dsimp only
    exact onStage_wf (setCore_wf h h.core)

theorem requeue_wf {x : Job} {s : State} (h : s.wf) : (requeue x s).wf := setLaunchQueue_wf h

theorem suspendIfEmpty_wf {j : Nat} {s : State} (h : s.wf) : (suspendIfEmpty j s).wf := by
  unfold suspendIfEmpty
  split
  · exact h
  · exact ite_wf (requeue_wf (onJob_wf h)) h

theorem releaseHere_wf {s : State} (h : s.wf) : (releaseHere s).wf := by
  refine askDecision_wf ?_
  split
  · exact suspendIfEmpty_wf (setCore_wf (returnInbox_wf h) ((returnInbox_wf h).core))
  · exact setCore_wf (returnInbox_wf h) ((returnInbox_wf h).core)

theorem clearTask_wf {s : State} (h : s.wf) : (clearTask s).wf :=
  setCore_wf (foldl_wf (fun _ _ => withdraw_wf) _ h) ((foldl_wf (fun _ _ => withdraw_wf) _ h).core)

theorem restartHere_wf {j k : Nat} {s : State} (h : s.wf) : (restartHere j k s).wf := by
  unfold restartHere
  split
  · exact h
  · split
    · exact h
    · exact startTask_wf (setCore_wf h h.core)

theorem nextTask_wf {s : State} (h : s.wf) : (nextTask s).wf := by
  unfold nextTask
  split
  · exact releaseHere_wf h
  · split
    · exact releaseHere_wf h
    · split
      · exact placeHere_wf (returnInbox_wf h)
      · exact restartHere_wf h

theorem endTask_wf {s : State} (h : s.wf) : (endTask s).wf := by
  unfold endTask
  split
  · exact .hold
  · split
    · exact .jump (nextTask_wf (clearTask_wf h))
    · exact .jump (foldl_wf (fun _ _ => askWithdrawal_wf) _ h)

theorem completionLost_wf {p : BitVec 512} {queue reason status num : Nat} {s : State} (h : s.wf) : (completionLost p queue reason status num s).wf :=
  raise_wf h

theorem complete_wf {p : BitVec 512} {space : Option (Word × BitVec 16)} {queue num status code start preempts : Nat} {s : State} (h : s.wf) :
    (complete p space queue num status code start preempts s).wf := by
  unfold complete
  dsimp only
  split
  · exact h
  · split
    · exact completionLost_wf h
    · split
      · exact completionLost_wf h
      · split
        · exact completionLost_wf h
        · exact ite_wf (completionLost_wf h) (writeCellAt_wf h)

theorem placeStages_wf {j : Nat} {l : List Nat} {n : Nat} {r : List Nat} {s : State} (h : s.wf) : (placeStages j l n r s).wf := by
  induction l generalizing n r s with
  | nil => exact h
  | cons m l ih => exact ih (foldl_wf (fun _ _ => placeCore_wf) _ h)

theorem placePacket_wf {q : Nat} {p : Packet} {s : State} (h : s.wf) : (placePacket q p s).wf := by
  unfold placePacket
  dsimp only
  split
  · split
    · exact setLaunchQueue_wf h
    · exact placeStages_wf (onJob_wf (setLaunchQueue_wf h))
  · split
    · exact complete_wf (countPlan_wf (setLaunchQueue_wf h))
    · exact placeStages_wf (mk_wf (countPlan_wf (setLaunchQueue_wf h)))

theorem preemptFor_wf {q : Nat} {p : Packet} {s t : State} (e : preemptFor q p s = some t) (h : s.wf) : t.wf := by
  unfold preemptFor at e
  dsimp only at e
  split at e
  · cases e
  · cases e
    exact setHeld_wf (foldl_wf (fun _ _ k => foldl_wf (fun _ _ k1 => onCore_wf k1 (fun _ => requestPreempt_wf)) _ (ite_wf k (onJob_wf k))) _ h)

theorem placeHeld_wf {q : Nat} {p : Packet} {s : State} (h : s.wf) : (placeHeld q p s).wf := mk_wf (placePacket_wf h)

theorem decision_wf {s : State} (h : s.wf) : (decision s).wf := by
  unfold decision
  dsimp only
  split
  · exact h
  · split
    · exact h
    · split
      · exact placeHeld_wf h
      · split
        · exact h
        · split
          · next s2 e =>
            split at e
            · exact preemptFor_wf e h
            · cases e
          · split
            · exact placeHeld_wf h
            · exact h

theorem stopWalks_wf {j : Nat} {s : State} (h : s.wf) : (stopWalks j s).wf := foldl_wf (fun _ _ k => ite_wf (stopWalk_wf k) k) _ h

theorem overduePacket_wf {q : Nat} {s : State} (h : s.wf) : (overduePacket q s).wf := by
  unfold overduePacket
  dsimp only
  split
  · exact h
  · split
    · exact h
    · split
      · split
        · exact complete_wf (countTenant_wf (setLaunchQueue_wf h))
        · split
          · exact setLaunchQueue_wf h
          · exact stopWalks_wf (onJob_wf (setLaunchQueue_wf h))
      · exact mk_wf (setLaunchQueue_wf h)

theorem grantRound_wf {x : Job} {l : List Nat} {s : State} (h : s.wf) : (grantRound x l s).1.wf := by
  induction l generalizing s with
  | nil => exact h
  | cons k l ih =>
    unfold grantRound
    split
    · exact h
    · exact ih (placeCore_wf h)

theorem grantRounds_wf {x : Job} {n : Nat} {s : State} {l : List Nat} (h : s.wf) : (grantRounds x n s l).1.wf := by
  induction n generalizing s l with
  | zero => exact h
  | succ n ih =>
    unfold grantRounds
    dsimp only
    split
    · exact h
    · exact ih (grantRound_wf h)

theorem moveOne_wf {x : Job} {got : List Nat} {s : State} (h : s.wf) : (moveOne x got s).wf := by
  unfold moveOne
  dsimp only
  split
  · split
    · exact onCore_wf h (fun _ k2 => nudge_wf (setCore_wf k2 k2.core))
    · exact h
  · exact h

theorem balanceJob_wf {j : Nat} {s : State} (h : s.wf) : (balanceJob j s).wf := by
  unfold balanceJob
  split
  · exact h
  · split
    · exact h
    · dsimp only
      exact moveOne_wf (grantRounds_wf h)

theorem beginEnding_wf {j : Nat} {code : BitVec 32} {s : State} (h : s.wf) : (beginEnding j code s).wf := by
  refine foldl_wf (fun s n k => onCore_wf k ?_) _ (stopWalks_wf (onJob_wf h))
  exact fun s k => nudge_wf (setCore_wf k k.core)

theorem retireJob_wf {j : Nat} {s : State} (h : s.wf) : (retireJob j s).wf := by
  unfold retireJob
  split
  · exact h
  · split
    · exact h
    · dsimp only
      exact askDecision_wf (mk_wf (complete_wf (foldl_wf (fun _ _ k => onCore_wf k (fun _ => releaseHere_wf)) _ h)))

/-! ### Machine/Launch.lean -/

theorem launchMisuse_wf {reason : Nat} : (launchMisuse reason).wf := misuse_wf

theorem cellsTrap_wf {s : State} {a n : Nat} {reads : Bool} {t : Eff} (e : cellsTrap s a n reads = some t) (h : s.wf) : t.wf := by
  unfold cellsTrap at e
  split at e
  · cases e; exact .trap
  · split at e
    · cases e; exact .trap
    · split at e
      · cases e; exact .trap
      · split at e
        · split at e
          · cases e
            exact loadFails_wf h
          · cases e
        · cases e

theorem enqueue_wf {q : Nat} {p : BitVec 512} {s : State} (h : s.wf) : (enqueue q p s).wf := askDecision_wf (setLaunchQueue_wf h)

theorem execLaunch_wf {o : DABP} {s : State} (h : s.wf) : nextWf (execLaunch o s) := by
  refine issue_wf (fun _ k => ?_) h
  dsimp only
  split
  · next e => exact cellsTrap_wf e k
  · split
    · exact .hold
    · exact .done (wrD_wf (ite_wf (enqueue_wf (sawScratch_wf k)) (sawScratch_wf k)))

theorem postRecords_wf {j : Nat} {origin : Word} {l : List (BitVec 512)} {s : State} (h : s.wf) : (postRecords j origin l s).2.wf := by
  induction l generalizing s with
  | nil => exact h
  | cons r l ih =>
    unfold postRecords
    dsimp only
    split
    · exact h
    · split
      · exact h
      · exact ih (onStage_wf h)

theorem execPost_wf {o : DABP} {s : State} (h : s.wf) : nextWf (execPost o s) := by
  refine issue_wf (fun _ k => ?_) h
  dsimp only
  split
  · exact launchMisuse_wf
  · split
    · next e => exact cellsTrap_wf e k
    · split
      · exact launchMisuse_wf
      · split
        · exact launchMisuse_wf
        · split
          · exact .hold
          · split
            · exact .done (wrD_wf (sawScratch_wf k))
            · exact .done (wrD_wf (postRecords_wf (sawScratch_wf k)))

theorem execTake_wf {o : DAP} {s : State} (h : s.wf) : nextWf (execTake o s) := by
  refine issue_wf (fun _ k => ?_) h
  dsimp only
  split
  · next e => exact cellsTrap_wf e k
  · split
    · exact endTask_wf k
    · split
      · next e => exact .done (wrD_wf (takeFromInbox_wf e k))
      · split
        · exact endTask_wf k
        · exact suspend_wf k

theorem execYield_wf {o : AP} {s : State} (h : s.wf) : nextWf (execYield o s) := by
  refine issue_wf (fun _ k => ?_) h
  dsimp only
  split
  · exact launchMisuse_wf
  · split
    · exact .done k
    · exact endTask_wf k

theorem execDone_wf {o : AP} {s : State} (h : s.wf) : nextWf (execDone o s) := by
  refine issue_wf (fun _ k => ?_) h
  dsimp only
  split
  · exact launchMisuse_wf
  · split
    · split
      · exact endTask_wf k
      · exact .jump (beginEnding_wf k)
    · exact endTask_wf k

theorem swarmSet_wf {w : Nat} {x : Swarm} {s : State} (h : s.wf) : (setSwarm w x s).wf := h
theorem swarmApplied_wf {d : BitVec 512} {s : State} (h : s.wf) : (applySwarm d s).wf := ite_wf h (swarmSet_wf h)

theorem execSwcfg_wf {o : AP} {s : State} (h : s.wf) : nextWf (execSwcfg o s) := by
  refine issue_wf (fun _ k => ?_) h
  dsimp only
  split
  · next e => exact cellsTrap_wf e k
  · split
    · exact launchMisuse_wf
    · exact .done (swarmApplied_wf (sawScratch_wf k))

theorem gatherRows_wf {a : Access} {base log2 n i : Nat} {s : State} (h : s.wf) : (gatherRows a base log2 n i s).2.wf := by
  induction n generalizing i s with
  | zero => exact h
  | succ n ih =>
    unfold gatherRows
    dsimp only
    split
    · exact countSched_wf h
    · split
      · exact ih (countSched_wf h)
      · split
        · exact ih (countSched_wf h)
        · split
          · exact countSched_wf h
          · exact ih (swarmSet_wf (countSched_wf h))

/-- The rows taken from a ring go with its head word, where the ring can be written. -/
theorem ringHeadWritten_wf {n : Nat} {s : State} (h : s.wf) (r : Except XlatFail Xlat) (bs : List Byte) :
    State.wf (if n = 0 then s else match r with | .ok x => memPutBytes s x.pa bs | .error _ => s) := by
  split
  · exact h
  · split
    · exact memPutBytes_wf h
    · exact h

theorem pollRing_wf {i : Nat} {s : State} (h : s.wf) : (pollRing i s).wf := by
  unfold pollRing
  dsimp only
  split
  · exact h
  · split
    · exact countSched_wf h
    · split
      · exact countSched_wf h
      · exact ringHeadWritten_wf (gatherRows_wf (countSched_wf h)) _ _

theorem putBatch_wf {a : Access} {n i : Nat} {l : List Byte} {s : State} (h : s.wf) : (putBatch a n i l s).wf := by
  induction n generalizing i l s with
  | zero => exact h
  | succ n ih =>
    refine ih ?_
    split
    · exact writeCellAt_wf h
    · exact h

theorem takeBatch_wf {w a : Nat} {s : State} {x} {t : State} (e : takeBatch w a s = some (x, t)) (h : s.wf) : t.wf := by
  unfold takeBatch at e
  dsimp only at e
  split at e
  · cases e
  · cases e
    exact storeCellBy_wf (swarmSet_wf h)

theorem serveSwtake_wf {w : Nat} {s : State} (h : s.wf) : (serveSwtake w s).wf := by
  unfold serveSwtake
  split
  · split
    · split
      · next e => exact resume_wf (takeBatch_wf e h)
      · exact h
    · exact h
  · exact h

theorem serveWaiter_wf {w : Nat} {s : State} (h : s.wf) : (serveWaiter w s).wf := by
  unfold serveWaiter
  split
  · exact h
  · exact onCore_wf h (fun _ => serveSwtake_wf)

theorem emitBatch_wf {w : Nat} {s : State} (h : s.wf) : (emitBatch w s).wf := ite_wf h (serveWaiter_wf (swarmSet_wf (putBatch_wf h)))
theorem freeSlot_wf {w : Nat} {b : BitVec 32} {s : State} (h : s.wf) : (freeSlot w b s).wf := swarmSet_wf h

theorem execSwtake_wf {o : DABP} {s : State} (h : s.wf) : nextWf (execSwtake o s) := by
  refine issue_wf (fun _ k => ?_) h
  dsimp only
  split
  · exact launchMisuse_wf
  · split
    · next e => exact cellsTrap_wf e k
    · split
      · exact launchMisuse_wf
      · split
        · next e => exact .done (wrD_wf (takeBatch_wf e (ite_wf (freeSlot_wf k) k)))
        · exact suspend_wf (mk_wf (ite_wf (freeSlot_wf k) k))

/-! ### Machine/Control.lean -/

theorem setPc_wf {s : State} {pc : BitVec 22} (h : s.wf) : (setPc s pc).wf := setCur_wf h

theorem execBr_wf {o : BOps} {s : State} (h : s.wf) : nextWf (execBr o s) := by
  refine issue_wf (fun _ k => ?_) h
  split
  · exact .jump (setPc_wf k)
  · exact .done k

theorem execJmp_wf {o : AP} {s : State} (h : s.wf) : nextWf (execJmp o s) := by
  refine issue_wf (fun _ k => ?_) h
  dsimp only
  split
  · exact misaligned_wf
  · exact .jump (setPc_wf k)

theorem callTo_wf {target : BitVec 22} {s : State} (h : s.wf) : (callTo target s).wf := by
  unfold callTo
  dsimp only
  split
  · exact .hold
  · split
    · exact misaligned_wf
    · split
      · exact .trapIn (setCur_wf h)
      · split
        · exact .trapIn (setCur_wf h)
        · split
          · exact forbidden_wf
          · exact .jump (setCur_wf (ite_wf (settleStores_wf (setCore_wf h ((spadPutTag_only _ _ _).2 ((spadPutBytes_only _ _ _).2 h.core)))) h))

theorem execCall_wf {o : BOps} {s : State} (h : s.wf) : nextWf (execCall o s) := by
  refine issue_wf (fun _ k => ?_) h
  split
  · exact callTo_wf k
  · exact .done k

theorem returnFrom_wf {s : State} (h : s.wf) : (returnFrom s).wf := by
  unfold returnFrom
  dsimp only
  split
  · exact .hold
  · split
    · exact .trapIn (setCur_wf h)
    · split
      · exact misaligned_wf
      · split
        · exact forbidden_wf
        · exact .jump (setCur_wf (ite_wf h (settleStores_wf h)))

theorem execNdim_wf {o : NdimOps} {s : State} (h : s.wf) : nextWf (execNdim o s) := by
  refine issue_wf (fun _ k => ?_) h
  dsimp only
  split
  · exact misaligned_wf
  · split
    · exact forbidden_wf
    · split
      · exact .trap
      · exact .done (setCur_wf (sawScratch_wf k))

theorem execNest_wf {o : NestOps} {s : State} (h : s.wf) : nextWf (execNest o s) := by
  refine issue_wf (fun _ k => ?_) h
  dsimp only
  split
  · exact .trap
  · split <;> exact .jump (setCur_wf k)

end Sys2Proof.Machine
end

