-- ==== Sys2Proof/Proofs/CanonicalVector.lean ====
section
/-! O59: the vector engine and token trees. -/

namespace Sys2Proof.Machine

/-! ### Machine/Vector.lean -/

theorem setVec_wf {s : State} {v : VectorFile} (h : s.wf) : (State.setVec s v).wf := setCore_wf h h.core

theorem wrV_wf {d : VDst} {x b : Nat} {s : State} (h : s.wf) : (wrV d x b s).wf := by
  unfold wrV
  split <;> exact setVec_wf (setCur_wf h)

theorem wrM_wf {m : Fin 16} {x b : Nat} {s : State} (h : s.wf) : (wrM m x b s).wf := by
  unfold wrM
  split
  · exact h
  · dsimp only
    exact setVec_wf (setCur_wf h)

theorem landFlags_wf {f : FlagSet} {b : Nat} {s : State} (h : s.wf) : (landFlags f b s).wf := ite_wf h (setCur_wf h)
theorem landTrap_wf {r : TrapRec} {b : Nat} {s : State} (h : s.wf) : (landTrap r b s).wf := setCur_wf h
theorem failLoad_wf {d : VDst} {r : TrapRec} {b : Nat} {s : State} (h : s.wf) : (failLoad d r b s).wf := landTrap_wf (wrV_wf h)

theorem onEngine_wf {n : Nat} {body : State → Eff} {s : State} (hbody : ∀ s, s.wf → (body s).wf) (h : s.wf) : (onEngine n body s).wf := by
  unfold onEngine
  have hb := hbody s h
  split
  · exact .hold
  · split
    · next s1 e =>
      rw [e] at hb
      obtain ⟨hb⟩ := hb
      exact .done (setVec_wf hb)
    · exact hb

theorem vectorOp_wf {body : Shape → State → Eff} {s : State} (hbody : ∀ x s, s.wf → (body x s).wf) (h : s.wf) : (vectorOp body s).wf :=
  onEngine_wf (fun _ k => hbody _ _ k) h

theorem permit_wf {ok : Bool} {e : Eff} (he : e.wf) : (permit ok e).wf := by
  unfold permit
  split
  · exact he
  · exact misuse_wf

theorem putLanes_wf {d : VDst} {h : Shape} {m : Nat} {f : Nat → Nat} {b : Nat} {s : State} (hs : s.wf) : (putLanes d h m f b s).wf := wrV_wf hs

theorem putRounded_wf {d : VDst} {h : Shape} {m : Nat} {f : Nat → Rounded} {b : Nat} {s : State} (hs : s.wf) : (putRounded d h m f b s).wf :=
  landFlags_wf (putLanes_wf hs)

theorem execVshape_wf {o : VShapeOps} {s : State} (h : s.wf) : nextWf (execVshape o s) := by
  refine issue_wf (fun _ k => ?_) h
  dsimp only
  split
  · exact .done (setVec_wf k)
  · exact misuse_wf

theorem loadLanes_wf {d : VDst} {a : Word} {h : Shape} {m : Nat} {s : State} (hs : s.wf) : (loadLanes d a h m s).wf := by
  unfold loadLanes
  dsimp only
  split
  · split
    · exact failLoad_wf (sawEach_wf hs)
    · exact putLanes_wf (sawEach_wf hs)
  · split
    · exact failLoad_wf (sawEach_wf hs)
    · exact putRounded_wf (sawEach_wf hs)
  · split
    · exact failLoad_wf (sawEach_wf hs)
    · exact putRounded_wf (sawEach_wf hs)
  · split
    · exact failLoad_wf (sawEach_wf hs)
    · exact wrV_wf (sawEach_wf hs)

theorem execVld_wf {o : VWA} {s : State} (h : s.wf) : nextWf (execVld o s) := by
  refine issue_wf (fun _ k => ?_) h
  refine onEngine_wf (fun _ k1 => ?_) k
  split
  · exact .trap
  · exact .done (loadLanes_wf k1)

theorem storeLanes_wf {x : Nat} {a : Word} {h : Shape} {m : Nat} {s : State} (hs : s.wf) : (storeLanes x a h m s).wf := by
  unfold storeLanes
  split
  · exact foldl_wf (fun _ _ => storeBytes_wf) _ hs
  · exact landFlags_wf (foldl_wf (fun _ _ => storeCell_wf) _ hs)
  · exact foldl_wf (fun _ _ => storeCell_wf) _ hs

theorem execVst_wf {o : VSA} {s : State} (h : s.wf) : nextWf (execVst o s) := by
  refine issue_wf (fun _ k => ?_) h
  dsimp only
  refine onEngine_wf (fun _ k1 => ?_) k
  split
  · exact .trap
  · split
    · exact misuse_wf
    · exact .done (storeLanes_wf k1)

theorem execVldm_wf {o : VMA} {s : State} (h : s.wf) : nextWf (execVldm o s) := by
  refine issue_wf (fun _ k => ?_) h
  refine vectorOp_wf (fun _ _ k1 => ?_) k
  dsimp only
  split
  · exact .trap
  · split
    · exact .done (landTrap_wf (wrM_wf k1))
    · exact .done (wrM_wf (sawScratch_wf k1))

theorem execVstm_wf {o : VAM} {s : State} (h : s.wf) : nextWf (execVstm o s) := by
  refine issue_wf (fun _ k => ?_) h
  refine vectorOp_wf (fun _ _ k1 => ?_) k
  dsimp only
  split
  · exact .trap
  · exact .done (storeKeep_wf k1)

theorem execViota_wf {o : VIotaOps} {s : State} (h : s.wf) : nextWf (execViota o s) := by
  refine issue_wf (fun _ k => ?_) h
  refine vectorOp_wf (fun _ _ k1 => ?_) k
  refine permit_wf ?_
  split
  · exact .done (putRounded_wf k1)
  · exact .done (putLanes_wf k1)

theorem floatOp2_wf {o : VWXY} {b : Nat} {f : Fmt → BitVec 2 → Nat → Nat → Rounded} {s : State} (h : s.wf) : (floatOp2 o b f s).wf :=
  vectorOp_wf (fun _ _ k => permit_wf (.done (putRounded_wf k))) h

theorem floatOp1_wf {o : VWX} {b : Nat} {f : Fmt → BitVec 2 → Nat → Rounded} {s : State} (h : s.wf) : (floatOp1 o b f s).wf :=
  vectorOp_wf (fun _ _ k => permit_wf (.done (putRounded_wf k))) h

theorem intOp2_wf {o : VWXY} {all : Bool} {f : Nat → Nat → Nat → Nat} {s : State} (h : s.wf) : (intOp2 o all f s).wf :=
  vectorOp_wf (fun _ _ k => permit_wf (.done (putLanes_wf k))) h

theorem putCompare_wf {o : VCmpOps} {h : Shape} {lt eq : Nat → Nat → Bool} {s : State} (hs : s.wf) : (putCompare o h lt eq s).wf := wrM_wf (wrM_wf hs)

theorem execVcvt_wf {o : VWXB} {s : State} (h : s.wf) : nextWf (execVcvt o s) := by
  refine issue_wf (fun _ k => ?_) h
  refine vectorOp_wf (fun _ _ k1 => ?_) k
  dsimp only
  split
  · exact .done (putRounded_wf k1)
  · exact misuse_wf

theorem execVquant_wf {o : VQuantOps} {s : State} (h : s.wf) : nextWf (execVquant o s) := by
  refine issue_wf (fun _ k => ?_) h
  refine onEngine_wf (fun _ k1 => ?_) k
  dsimp only
  split
  · exact .done (landFlags_wf (wrV_wf k1))
  · exact misuse_wf

/-! ### Machine/TokenTree.lean -/

theorem setTree_wf {i : Fin 64} {t : Option Tree} {s : State} (h : s.wf) : (setTree i t s).wf := setCore_wf h h.core

theorem treeOp_wf {b : Nat} {body : State → Eff} {s : State} (hbody : ∀ s, s.wf → (body s).wf) (h : s.wf) : (treeOp b body s).wf := by
  unfold treeOp
  have hb := hbody s h
  split
  · exact .hold
  · split
    · next s1 e =>
      rw [e] at hb
      obtain ⟨hb⟩ := hb
      exact .done (setVec_wf hb)
    · exact hb

theorem holdFor_wf {n : Nat} {s : State} (h : s.wf) : (holdFor n s).wf := setCur_wf h

theorem onTree_wf {s : State} {a : Word} {ok : Bool} {f : Tree → Eff} (hf : ∀ x, (f x).wf) : (onTree s a ok f).wf := by
  unfold onTree
  split
  · exact misuse_wf
  · split
    · exact misuse_wf
    · exact hf _

theorem execTtclr_wf {o : TA} {s : State} (h : s.wf) : nextWf (execTtclr o s) := by
  refine issue_wf (fun _ k => ?_) h
  refine treeOp_wf (fun _ k1 => ?_) k
  dsimp only
  split
  · exact misuse_wf
  · exact .done (ite_wf (setCore_wf k1 k1.core) (setTree_wf k1))

theorem execTtnew_wf {o : TDAB} {s : State} (h : s.wf) : nextWf (execTtnew o s) := by
  refine issue_wf (fun _ k => ?_) h
  refine treeOp_wf (fun _ k1 => ?_) k
  dsimp only
  split
  · exact misuse_wf
  · split
    · exact misuse_wf
    · exact .done (wrD_wf (setTree_wf k1))

theorem execTtadd_wf {o : TDAB} {s : State} (h : s.wf) : nextWf (execTtadd o s) := by
  refine issue_wf (fun _ k => ?_) h
  refine treeOp_wf (fun _ k1 => ?_) k
  dsimp only
  refine onTree_wf (fun _ => ?_)
  split
  · exact misuse_wf
  · split
    · exact .done (wrD_wf k1)
    · exact .done (wrD_wf (setTree_wf k1))

theorem execTtload_wf {o : TDAB} {s : State} (h : s.wf) : nextWf (execTtload o s) := by
  refine issue_wf (fun _ k => ?_) h
  refine treeOp_wf (fun _ k1 => ?_) k
  dsimp only
  split
  · exact misuse_wf
  · split
    · exact misaligned_wf
    · split
      · exact loadFails_wf k1
      · split
        · exact .done (holdFor_wf (wrD_wf (sawScratch_wf k1)))
        · exact .done (holdFor_wf (wrD_wf (setTree_wf (sawScratch_wf k1))))

theorem execTtstore_wf {o : TAB} {s : State} (h : s.wf) : nextWf (execTtstore o s) := by
  refine issue_wf (fun _ k => ?_) h
  refine treeOp_wf (fun _ k1 => ?_) k
  dsimp only
  split
  · exact misuse_wf
  · split
    · exact misaligned_wf
    · refine onTree_wf (fun _ => ?_)
      split
      · exact .trap
      · exact .done (holdFor_wf (storeBytes_wf k1))

theorem execTtpos_wf {o : TWA} {s : State} (h : s.wf) : nextWf (execTtpos o s) := by
  refine issue_wf (fun _ k => ?_) h
  refine treeOp_wf (fun _ k1 => ?_) k
  refine onTree_wf (fun _ => ?_)
  split
  · exact .done (putRounded_wf k1)
  · split
    · exact .done (putLanes_wf k1)
    · exact misuse_wf

theorem execTtdepth_wf {o : TWAB} {s : State} (h : s.wf) : nextWf (execTtdepth o s) := by
  refine issue_wf (fun _ k => ?_) h
  refine treeOp_wf (fun _ k1 => ?_) k
  refine onTree_wf (fun _ => ?_)
  split
  · exact misuse_wf
  · exact .done (putLanes_wf k1)

theorem execTtstat_wf {o : TDA} {s : State} (h : s.wf) : nextWf (execTtstat o s) := by
  refine issue_wf (fun _ k => ?_) h
  refine treeOp_wf (fun _ k1 => ?_) k
  dsimp only
  split
  · exact misuse_wf
  · exact .done (wrD_wf k1)

theorem execTtpath_wf {o : TWA} {s : State} (h : s.wf) : nextWf (execTtpath o s) := by
  refine issue_wf (fun _ k => ?_) h
  refine treeOp_wf (fun _ k1 => ?_) k
  refine onTree_wf (fun _ => ?_)
  split
  · exact misuse_wf
  · exact .done (wrV_wf (setTree_wf k1))

theorem execTtprune_wf {o : TWA} {s : State} (h : s.wf) : nextWf (execTtprune o s) := by
  refine issue_wf (fun _ k => ?_) h
  refine treeOp_wf (fun _ k1 => ?_) k
  refine onTree_wf (fun _ => ?_)
  split
  · exact misuse_wf
  · split
    · exact misuse_wf
    · split
      · exact misuse_wf
      · exact .done (wrV_wf (setTree_wf k1))

/-! ### Machine/VectorData.lean -/

theorem execVgat_wf {o : VGatOps} {s : State} (h : s.wf) : nextWf (execVgat o s) := by
  refine issue_wf (fun _ k => ?_) h
  refine onEngine_wf (fun _ k1 => ?_) k
  split
  · exact misuse_wf
  · split
    · exact .done (failLoad_wf k1)
    · exact .done (putLanes_wf (sawEach_wf k1))

theorem execVsct_wf {o : VSctOps} {s : State} (h : s.wf) : nextWf (execVsct o s) := by
  refine issue_wf (fun _ k => ?_) h
  refine onEngine_wf (fun _ k1 => ?_) k
  split
  · exact misuse_wf
  · split
    · exact .done (landTrap_wf k1)
    · exact .done (foldl_wf (fun _ _ => storeBytes_wf) _ k1)

theorem reduce_wf {o : VWXB} {limit n k : Shape → Nat} {lane dst : Shape → Nat → Nat → Nat} {s : State} (h : s.wf) : (reduce o limit n k lane dst s).wf := by
  refine vectorOp_wf (fun _ _ k => ?_) h
  refine permit_wf ?_
  split
  · exact misuse_wf
  · exact .done (landFlags_wf (putLanes_wf k))

theorem execVscan_wf {o : VWXB} {s : State} (h : s.wf) : nextWf (execVscan o s) := by
  refine issue_wf (fun _ k => ?_) h
  refine vectorOp_wf (fun _ _ k1 => ?_) k
  refine permit_wf ?_
  split
  · exact misuse_wf
  · exact .done (landFlags_wf (putLanes_wf k1))

theorem execVhist_wf {o : VWXB} {s : State} (h : s.wf) : nextWf (execVhist o s) := by
  refine issue_wf (fun _ k => ?_) h
  refine onEngine_wf (fun _ k1 => ?_) k
  dsimp only
  split
  · exact misuse_wf
  · exact .done (wrV_wf k1)

theorem execVord_wf {o : VWXB} {s : State} (h : s.wf) : nextWf (execVord o s) := by
  refine issue_wf (fun _ k => ?_) h
  refine vectorOp_wf (fun _ _ k1 => ?_) k
  refine permit_wf ?_
  split
  · exact misuse_wf
  · exact .done (putLanes_wf k1)

theorem execVosm_wf {o : VOsmOps} {s : State} (h : s.wf) : nextWf (execVosm o s) := by
  refine issue_wf (fun _ k => ?_) h
  refine vectorOp_wf (fun _ _ k1 => ?_) k
  refine permit_wf ?_
  split
  · exact misuse_wf
  · dsimp only
    exact .done (landFlags_wf (putLanes_wf (putLanes_wf k1)))

theorem execVaccr_wf {o : VWA} {s : State} (h : s.wf) : nextWf (execVaccr o s) := by
  refine issue_wf (fun _ k => ?_) h
  refine vectorOp_wf (fun _ _ k1 => ?_) k
  refine permit_wf ?_
  split
  · exact misuse_wf
  · exact .done (putRounded_wf k1)

theorem execVaccw_wf {o : VSA} {s : State} (h : s.wf) : nextWf (execVaccw o s) := by
  refine issue_wf (fun _ k => ?_) h
  refine vectorOp_wf (fun _ _ k1 => ?_) k
  refine permit_wf ?_
  split
  · exact misuse_wf
  · exact .done (setCore_wf k1 k1.core)

end Sys2Proof.Machine
end

