-- ==== Sys2Proof/Proofs/CanonicalSystem.lean ====
section
/-! O59: CSRs, contexts and the supervisor words. -/

namespace Sys2Proof.Machine

/-! ### Machine/Csr.lean -/

theorem writeTdlg_wf {t : Sec} {x : Word} {s : State} (h : s.wf) : (writeTdlg t x s).wf := onStr_wf h

theorem csrWriteCore_wf {n : Nat} {x : Word} {s : State} (h : s.wf) : (csrWriteCore n x s).wf := by
  unfold csrWriteCore
  split
  · exact setEngine_wf h
  · exact setEngine_wf h
  · exact setMsgs_wf h
  · exact setAudit_wf h
  · exact h
  · exact setCore_wf h h.core
  · exact setCore_wf h h.core
  · exact setCore_wf h h.core
  · exact writeTdlg_wf h
  · exact writeTdlg_wf h
  · exact writeTdlg_wf h
  · exact writeTdlg_wf h
  · exact ite_wf (writeBart_wf h) h

theorem csrWrite_wf {n : Nat} {x : Word} {s : State} (h : s.wf) : (csrWrite n x s).wf := by
  unfold csrWrite
  split
  · exact setCur_wf h
  · exact csrWriteCore_wf h

theorem csrIllegal_wf {i : Instr} {s : State} (h : s.wf) : nextWf (csrIllegal i s) := .next (trapOut_wf h)

theorem execCsrr_wf {o : CsrrOps} {s : State} (h : s.wf) : nextWf (execCsrr o s) := by
  unfold execCsrr
  split
  · exact csrIllegal_wf h
  · refine issue_wf (fun _ k => ?_) h
    split
    · exact forbidden_wf
    · exact .done (wrD_wf k)

theorem execCsrw_wf {o : CsrwOps} {s : State} (h : s.wf) : nextWf (execCsrw o s) := by
  unfold execCsrw
  split
  · exact csrIllegal_wf h
  · refine issue_wf (fun _ k => ?_) h
    split
    · exact forbidden_wf
    · exact .done (csrWrite_wf k)

/-! ### Machine/Context.lean -/

theorem restoreCopy_wf {x : Nat} {s : State} (h : s.wf) : (restoreCopy x s).wf := mk_wf (setEngine_wf h)
theorem restoreMat_wf {x : Nat} {s : State} (h : s.wf) : (restoreMat x s).wf := setMat_wf (dropCombs_wf h)

theorem restoreVec_wf {x : Nat} {s : State} (h : s.wf) : (restoreVec x s).wf := by
  unfold restoreVec
  dsimp only
  exact setCore_wf h h.core

theorem restoreContext_wf {t : Sec} {x : Nat} {s : State} (h : s.wf) : (restoreContext t x s).wf := by
  unfold restoreContext
  split
  · exact settleStream_wf (onStr_wf h)
  · exact restoreCopy_wf (settleStream_wf (onStr_wf h))
  · exact restoreMat_wf (settleStream_wf (onStr_wf h))
  · exact restoreVec_wf (settleStream_wf (onStr_wf h))

theorem areaCells_wf {write : Bool} {va n : Nat} {s : State} (h : s.wf) : (areaCells write va n s).1.wf := by
  induction n generalizing va s with
  | zero => exact h
  | succ n ih =>
    unfold areaCells
    dsimp only
    split
    · exact translate_wf h
    · split
      · next e => exact wf_of_fst e (ih (translate_wf h))
      · next e => exact wf_of_fst e (ih (translate_wf h))

theorem putCells_wf {x : Nat} {l : List Xlat} {s : State} (h : s.wf) : (putCells x l s).wf := by
  induction l generalizing x s with
  | nil => exact h
  | cons p l ih => exact ih (storedFar_wf (fun _ => writeCellAt_wf) h)

theorem putSpadArea_wf {x a n : Nat} {c : CoreState} (hc : coreWf c) : coreWf (putSpadArea x a n c) := by
  induction n generalizing x a c with
  | zero => exact hc
  | succ n ih => exact ih ((spadPutCell_only _ _ _).2 hc)

/-! ### Machine/System.lean -/

theorem sysMisuse_wf {reason : Nat} : (sysMisuse reason).wf := misuse_wf

theorem execMode_wf {o : ModeOps} {s : State} (h : s.wf) : nextWf (execMode o s) := by
  refine issue_wf (fun _ k => ?_) h
  split
  · exact .hold
  · exact .done (setCur_wf k)

theorem execTret_wf {o : GP} {s : State} (h : s.wf) : nextWf (execTret o s) := by
  refine issue_wf (fun _ k => ?_) h
  dsimp only
  split
  · exact .hold
  · split
    · exact sysMisuse_wf
    · split
      · exact misaligned_wf
      · exact .jump (setCur_wf k)

theorem parkStream_wf {s : State} {t : Sec} (h : s.wf) : (parkStream s t).wf := by
  unfold parkStream
  split
  · exact h
  · dsimp only
    exact onStr_wf (withdraw_wf h)

theorem restartStream_wf {s : State} {t : Sec} (h : s.wf) : (restartStream s t).wf := onStr_wf h
theorem askPark_wf {s : State} {t : Sec} (h : s.wf) : (askPark s t).wf := onStr_wf h

theorem parkThen_wf {l : List Sec} {f : State → Eff} {s : State} (hf : ∀ s, s.wf → (f s).wf) (h : s.wf) : (parkThen l f s).wf := by
  unfold parkThen
  dsimp only
  split
  · exact .jump (foldl_wf (fun _ _ => askWithdrawal_wf) _ h)
  · split
    · exact .hold
    · split
      · exact .jump (foldl_wf (fun _ _ => askPark_wf) _ h)
      · exact hf _ (foldl_wf (fun _ _ => parkStream_wf) _ h)

theorem preemptEnd_wf {s : State} (h : s.wf) : (preemptEnd s).wf := by
  unfold preemptEnd
  dsimp only
  split
  · next s1 e =>
    have k := endTask_wf (s := s.onStr .ctl fun st => { st with priv := false, strap := { st.strap with inh := false } }) (onStr_wf h)
    rw [e] at k
    exact k
  · exact .jump h

theorem execPreempt_wf {o : AP} {s : State} (h : s.wf) : nextWf (execPreempt o s) := by
  refine issue_wf (fun _ k => ?_) h
  dsimp only
  split
  · exact sysMisuse_wf
  · split
    · exact sysMisuse_wf
    · split
      · exact .done (foldl_wf (fun _ _ => restartStream_wf) _ k)
      · refine parkThen_wf (fun _ k1 => ?_) k
        split
        · exact preemptEnd_wf k1
        · exact .done k1

theorem execHalt_wf {o : AP} {s : State} (h : s.wf) : nextWf (execHalt o s) := by
  refine issue_wf (fun _ k => ?_) h
  dsimp only
  split
  · exact sysMisuse_wf
  · refine parkThen_wf (fun _ k1 => ?_) k
    split
    · exact suspend_wf k1
    · exact .done k1

theorem contextOperands_wf {write : Bool} {a b : Word} {f : Sec → Eff} {s : State} (hf : ∀ x, (f x).wf) : (contextOperands write a b f s).wf := by
  unfold contextOperands
  extract_lets t reserved ready
  split
  · exact sysMisuse_wf
  · split
    · exact misaligned_wf
    · split
      · exact sysMisuse_wf
      · split
        · exact sysMisuse_wf
        · split
          · exact hf _
          · exact .hold

theorem execCtxsave_wf {o : ABP} {s : State} (h : s.wf) : nextWf (execCtxsave o s) := by
  refine issue_wf (fun _ k => ?_) h
  dsimp only
  refine contextOperands_wf (fun _ => ?_)
  split
  · exact .done (storedBy_wf (fun _ => putSpadArea_wf) k)
  · split
    · next e => exact .trapIn (wf_of_fst e (areaCells_wf k))
    · next e =>
      split
      · exact suspend_wf (tagSent_wf (fun _ => putCells_wf) (wf_of_fst e (areaCells_wf k)))
      · exact .done (tagSent_wf (fun _ => putCells_wf) (wf_of_fst e (areaCells_wf k)))

theorem execCtxload_wf {o : ABP} {s : State} (h : s.wf) : nextWf (execCtxload o s) := by
  refine issue_wf (fun s k => ?_) h
  extract_lets a restore
  have hr : ∀ t x s, s.wf → (restore t x s).wf := by
    intro t x s k
    unfold restore
    split
    · exact sysMisuse_wf
    · exact .done (restoreContext_wf k)
  refine contextOperands_wf (fun t => ?_)
  split
  · split
    · exact loadFails_wf k
    · exact hr _ _ _ (sawScratch_wf k)
  · split
    · next e => exact .trapIn (wf_of_fst e (areaCells_wf k))
    · next s1 l e =>
      have h1 : s1.wf := wf_of_fst e (areaCells_wf k)
      extract_lets s2
      have h2 : s2.wf := foldl_wf (fun _ _ => countCell_wf) _ h1
      split
      · exact .trapIn h2
      · exact hr _ _ _ (foldl_wf (fun _ _ => sawFar_wf) _ h2)

theorem execWflush_wf {o : AP} {s : State} (h : s.wf) : nextWf (execWflush o s) := by
  refine issue_wf (fun s k => ?_) h
  extract_lets a t st l slot
  split
  · exact sysMisuse_wf
  · split
    · exact sysMisuse_wf
    · split
      · exact .trap
      · refine .done (onStr_wf (foldl_wf (fun _ _ k => ?_) _ k))
        exact settleStores_wf (putCore_wf (fun c => (spadPutTag_only _ _ _).2 ((spadPutBytes_only _ _ _).2 c)) k)

theorem execSemmap_wf {o : ABP} {s : State} (h : s.wf) : nextWf (execSemmap o s) := by
  refine issue_wf (fun _ k => ?_) h
  dsimp only
  split
  · exact sysMisuse_wf
  · split
    · exact sysMisuse_wf
    · exact .done (setSync_wf k)

theorem dropEntries_wf {everywhere : Bool} {gone : TlbEntry → Bool} {goneWalk : WalkEntry → Bool} {s : State} (h : s.wf) :
    (dropEntries everywhere gone goneWalk s).wf :=
  ite_wf (mk_wf (mapCores_wf (fun _ k => k) h)) (ite_wf (mk_wf (setCore_wf h h.core)) (mk_wf (setCore_wf h h.core)))

theorem execTlbinv_wf {o : ABP} {s : State} (h : s.wf) : nextWf (execTlbinv o s) := by
  refine issue_wf (fun _ k => ?_) h
  dsimp only
  split
  · exact sysMisuse_wf
  · split
    · split
      · exact .hold
      · exact .done (dropEntries_wf k)
    · split
      · exact .hold
      · exact .done (dropEntries_wf k)

theorem execTlbprobe_wf {o : DABP} {s : State} (h : s.wf) : nextWf (execTlbprobe o s) := by
  refine issue_wf (fun _ k => ?_) h
  dsimp only
  split
  · exact sysMisuse_wf
  · exact .done (wrD_wf k)

theorem execHint_wf {o : ABP} {s : State} (h : s.wf) : nextWf (execHint o s) := by
  refine issue_wf (fun _ k => ?_) h
  dsimp only
  split
  · exact .done (raise_wf k)
  · exact .done k

theorem endWalk_wf {va kind : Nat} {s : State} (h : s.wf) : (endWalk va kind s).wf := by
  unfold endWalk
  split
  · exact h
  · dsimp only
    split
    · exact walked_wf h
    · exact ite_wf (tlbFill_wf (walked_wf h)) (fillDie_wf (walked_wf h))

theorem whenAnswered_wf {t : Sec} {taken : State → State} {s : State} (htaken : ∀ s, s.wf → (taken s).wf) (h : s.wf) : (whenAnswered t taken s).wf :=
  ite_wf (askWithdrawal_wf h) (htaken _ h)

theorem takeDeferred_wf {t : Sec} {s : State} (h : s.wf) : (takeDeferred t s).wf := by
  unfold takeDeferred
  split
  · exact h
  · exact ite_wf h (whenAnswered_wf (fun _ k => takeTrap_wf (ite_wf (clearMflt_wf (onStr_wf k)) (onStr_wf k))) h)

theorem nextAsync_wf {s : State} {x} {t : State} (e : nextAsync s = some (x, t)) (h : s.wf) : t.wf := by
  unfold nextAsync at e
  dsimp only at e
  split at e
  · cases e
    exact h
  · split at e
    · cases e
      exact setAudit_wf h
    · split at e
      · cases e
        exact h
      · split at e
        · cases e
          exact foragerDelivered_wf h
        · split at e
          · cases e
            exact setAudit_wf h
          · split at e
            · cases e
              exact h
            · split at e
              · cases e
                exact h
              · cases e

theorem deliverAsync_wf {s : State} (h : s.wf) : (deliverAsync s).wf := by
  unfold deliverAsync
  split
  · exact resume_wf h
  · split
    · exact raiseMsix_wf (setAudit_wf h)
    · split
      · exact h
      · split
        · exact h
        · refine whenAnswered_wf (fun _ k => ?_) h
          split
          · next e => exact takeTrap_wf (nextAsync_wf e k)
          · exact k

theorem expireWatchdog_wf {s : State} (h : s.wf) : (expireWatchdog s).wf := ite_wf (setCore_wf h h.core) h
theorem ringDoorbell_wf {v : Nat} {s : State} (h : s.wf) : (ringDoorbell v s).wf := ite_wf (setCore_wf h h.core) h

end Sys2Proof.Machine
end

