-- ==== Sys2Proof/Proofs/CanonicalHost.lean ====
section
/-! O59: the host, boot and repair. -/

namespace Sys2Proof.Machine

/-! ### Machine/Host.lean -/

theorem setHost_wf {s : State} {h : HostBlock} (hs : s.wf) : (State.setHost s h).wf := hs
theorem hostRead_wf {h : Nat} {s : State} (hs : s.wf) : (hostRead h s).wf := ite_wf hs (ite_wf hs (countPhysical_wf (ite_wf hs hs)))

theorem putAtom_wf {l k : Nat} {c : BitVec 512} {mask : Nat} {s : State} (h : s.wf) : (putAtom l k c mask s).wf :=
  ite_wf (putLocal_wf h) (foldl_wf (fun _ _ k => ite_wf (putLocal_wf k) k) _ h)

theorem hostWrite_wf {h : Nat} {c : BitVec 512} {mask : Nat} {s : State} (hs : s.wf) : (hostWrite h c mask s).wf :=
  ite_wf hs (ite_wf (setHost_wf (putAtom_wf (putAtom_wf hs))) (putAtom_wf (putAtom_wf hs)))

theorem tryLater_wf {i : Instr} {s : State} (h : s.wf) : (tryLater i s).wf := raise_wf h

theorem execHostMemWrite_wf {s : State} (h : s.wf) : nextWf (execHostMemWrite s) := by
  unfold execHostMemWrite
  split
  · exact .next (ite_wf (tryLater_wf h) (hostWrite_wf h))
  · exact .fault

theorem linkChange_wf {n : Nat} {up : Bool} {w : Word} {s : State} (h : s.wf) : (linkChange n up w s).wf := ite_wf (setHost_wf h) (setHost_wf h)

theorem execLinkStateChange_wf {s : State} (h : s.wf) : nextWf (execLinkStateChange s) := by
  unfold execLinkStateChange
  split
  · exact .fault
  · split
    · exact .next (linkChange_wf h)
    · exact .fault

theorem submit_wf {q : Nat} {p : BitVec 512} {partly : Bool} {s : State} (h : s.wf) : (submit q p partly s).wf := ite_wf (setLaunchQueue_wf h) (enqueue_wf h)

theorem execLqwin_wf {s : State} (h : s.wf) : nextWf (execLqwin s) := by
  unfold execLqwin
  split
  · exact .fault
  · split
    · exact .next (submit_wf h)
    · exact .fault

theorem writeLqcfg_wf {q : Nat} {high : Bool} {v : Nat} {s : State} (h : s.wf) : (writeLqcfg q high v s).wf := setLaunchQueue_wf h

theorem writeDword_wf {o v : Nat} {s : State} (h : s.wf) : (writeDword o v s).wf := by
  unfold writeDword
  split
  · exact writeLqcfg_wf h
  · dsimp only
    exact setHost_wf h

theorem takeCommand_wf {s : State} (h : s.wf) : (takeCommand s).wf := ite_wf h (setHost_wf h)
theorem raiseFirst_wf {s : State} {es : List Event} (h : s.wf) : (State.raiseFirst s es).wf := h

theorem writeAction_wf {o v : Nat} {s t : State} (e : writeAction o v s = some t) (h : s.wf) : t.wf := by
  unfold writeAction at e
  split at e
  · cases e
    exact ite_wf (raiseFirst_wf h) h
  · split at e
    · cases e
      exact ite_wf (raiseFirst_wf h) h
    · split at e
      · cases e
        exact ite_wf (takeCommand_wf h) h
      · split at e
        · cases e
          exact raiseFirst_wf h
        · split at e
          · cases e
            exact submit_wf h
          · cases e

theorem writeBar_wf {o v : Nat} {wide : Bool} {s : State} (h : s.wf) : (writeBar o v wide s).wf := by
  unfold writeBar
  split
  · next e => exact writeAction_wf e h
  · exact ite_wf (writeDword_wf (writeDword_wf h)) (writeDword_wf h)

theorem execRegisterWrite_wf {s : State} (h : s.wf) : nextWf (execRegisterWrite s) := by
  unfold execRegisterWrite
  split
  · refine .next ?_
    split
    · exact writeBar_wf h
    · exact writeBar_wf h
    · exact setHost_wf h
    · exact setHost_wf h
  · exact .fault

theorem readBar_wf {o : Nat} {wide : Bool} {s : State} (h : s.wf) : (readBar o wide s).wf := h

theorem execHostMemRead_wf {s : State} (h : s.wf) : nextWf (execHostMemRead s) := by
  refine .next ?_
  split
  · exact ite_wf (tryLater_wf h) (hostRead_wf h)
  · exact readBar_wf h
  · exact readBar_wf h

theorem unmask_wf {v : Nat} {s : State} (h : s.wf) : (unmask v s).wf := ite_wf (raiseMsix_wf (setHost_wf h)) (setHost_wf h)

theorem forgetLine_wf {p : Nat × BitVec 64} {s : State} (h : s.wf) : (forgetLine p s).wf := by
  refine foldl_wf (fun _ _ k => ?_) _ h
  split
  · exact ⟨Memory.put_wf k.1, k.2⟩
  · exact k

theorem reserveBanks_wf {s : State} (h : s.wf) : (reserveBanks s).wf := mk_wf (foldl_wf (fun _ _ => forgetLine_wf) _ h)

theorem lockFeatures_wf {s : State} (h : s.wf) : (lockFeatures s).wf :=
  ite_wf h (ite_wf (setHost_wf h) (ite_wf (setHost_wf (reserveBanks_wf h)) (setHost_wf h)))

theorem writeRecord_wf {r : EventRing} {e : EventRec × BitVec 32 × Nat} {rest : List (EventRec × BitVec 32 × Nat)} {s : State} (h : s.wf) :
    (writeRecord r e rest s).wf := raiseMsix_wf (setHost_wf (hostPut_wf (hostPut_wf h)))

theorem drainEvents_wf {n : Nat} {s : State} (h : s.wf) : (drainEvents n s).wf := by
  induction n generalizing s with
  | zero => exact h
  | succ n ih =>
    unfold drainEvents
    split
    · dsimp only
      exact ite_wf (ih (writeRecord_wf (countReach_wf h))) (countReach_wf h)
    · exact h

theorem findEvent_wf {e : EventRec} {s : State} (h : s.wf) : (findEvent e s).wf := setHost_wf h
theorem fieldRepair_wf {s : State} (h : s.wf) : (fieldRepair s).wf := mk_wf (raise_wf (setHost_wf h))

theorem execEventPost_wf {s : State} (h : s.wf) : nextWf (execEventPost s) := by
  unfold execEventPost
  split
  · exact .next (drainEvents_wf (findEvent_wf h))
  · exact .next (drainEvents_wf h)
  · exact .fault

/-! ### Machine/Boot.lean -/

theorem moduleReset_wf {power : Bool} {s : State} (h : s.wf) : (moduleReset power s).wf := ⟨sparseWf_filter h.1, reset_wf.2⟩
theorem startBoot_wf {s : State} (h : s.wf) : (startBoot s).wf := ite_wf (setHost_wf h) h

theorem verifyBoot_wf {s : State} (h : s.wf) : (verifyBoot s).wf := by
  unfold verifyBoot
  split
  · exact h
  · dsimp only
    split
    · exact setHost_wf (countReach_wf h)
    · split <;> exact setHost_wf (countReach_wf h)

theorem selfTest_wf {s : State} (h : s.wf) : (selfTest s).wf := by
  unfold selfTest
  split
  · exact h
  · dsimp only
    exact mk_wf (setHost_wf h)

theorem mailEnd_wf {status len : Nat} {s : State} (h : s.wf) : (mailEnd status len s).wf := setHost_wf h
theorem mailCommand_wf {code : Nat} {f : State → State} {s : State} (hf : ∀ s, s.wf → (f s).wf) (h : s.wf) : (mailCommand code f s).wf := ite_wf (hf _ h) h
theorem mailWrite_wf {bs : List Byte} {s : State} (h : s.wf) : (mailWrite bs s).wf := ite_wf (mailEnd_wf (hostPut_wf h)) (mailEnd_wf h)
theorem deriveSeed_wf {seed : BitVec 256} {isNew : Bool} {s : State} (h : s.wf) : (deriveSeed seed isNew s).wf := setHost_wf h

theorem helperCommand_wf {s : State} (h : s.wf) : (helperCommand s).wf := by
  unfold helperCommand
  dsimp only
  split
  · exact mailEnd_wf h
  · split
    · exact mailEnd_wf h
    · split
      · exact mailEnd_wf (countReach_wf h)
      · split
        · exact mailEnd_wf (countReach_wf h)
        · exact mailEnd_wf (deriveSeed_wf (countReach_wf h))

theorem enrolCommand_wf {s : State} (h : s.wf) : (enrolCommand s).wf := by
  unfold enrolCommand
  dsimp only
  split
  · exact mailEnd_wf h
  · split
    · exact mailEnd_wf h
    · split
      · exact h
      · exact ite_wf (mailEnd_wf h) (ite_wf (deriveSeed_wf (mailWrite_wf h)) (mailWrite_wf h))

theorem attestCommand_wf {s : State} (h : s.wf) : (attestCommand s).wf := ite_wf (mailEnd_wf h) (ite_wf (mailEnd_wf h) (mailWrite_wf h))

theorem evringCommand_wf {s : State} (h : s.wf) : (evringCommand s).wf := by
  unfold evringCommand
  dsimp only
  split
  · exact mailEnd_wf h
  · split
    · exact mailEnd_wf (countReach_wf h)
    · split
      · exact mailEnd_wf (countReach_wf h)
      · exact mailEnd_wf (setHost_wf (countReach_wf h))

theorem powercapCommand_wf {s : State} (h : s.wf) : (powercapCommand s).wf := ite_wf (mailEnd_wf h) (mailEnd_wf (setHost_wf h))

theorem historyCommand_wf {s : State} (h : s.wf) : (historyCommand s).wf :=
  ite_wf (mailEnd_wf h) (ite_wf (mailEnd_wf h) (ite_wf (mailEnd_wf h) (mailWrite_wf h)))

theorem unknownMail_wf {s : State} (h : s.wf) : (unknownMail s).wf := ite_wf (mailEnd_wf h) h

theorem mailboxDone_wf {s : State} (h : s.wf) : (mailboxDone s).wf := by
  unfold mailboxDone
  split
  · exact h
  · exact raiseMsix_wf (setHost_wf h)

/-! ### Machine/Repair.lean -/

theorem setTiers_wf {s : State} {t : Tiers} (h : s.wf) : (State.setTiers s t).wf := h
theorem poisonUnits_wf {us : List Nat} {s : State} (h : s.wf) : (poisonUnits us s).wf := h
theorem countPass_wf {u : Nat} {s : State} (h : s.wf) : (countPass u s).wf := ite_wf (setTiers_wf h) (ite_wf (setTiers_wf h) h)

theorem patrolLoss_wf {u : Nat} {s : State} (h : s.wf) : (patrolLoss u s).wf :=
  ite_wf (mk_wf (ite_wf h (poisonUnits_wf h))) (mk_wf (ite_wf h (poisonUnits_wf h)))

theorem patrolAtom_wf {l found : Nat} {s : State} (h : s.wf) : (patrolAtom l found s).wf := by
  unfold patrolAtom
  dsimp only
  split
  · exact h
  · refine countPass_wf ?_
    split
    · exact h
    · exact countCorrected_wf h
    · exact countBad_wf (patrolLoss_wf h)

theorem onEveryCore_wf {f : State → State} {s : State} (hf : ∀ s, s.wf → (f s).wf) (h : s.wf) : (onEveryCore f s).wf :=
  foldl_wf (fun _ _ k => onCore_wf k hf) _ h

theorem loseCell_wf {c : Nat} {s : State} (h : s.wf) : (loseCell c s).wf := ⟨h.1, tagPut_wf h.2.1, h.2.2⟩
theorem dropTop_wf {top cap : Nat} {s : State} (h : s.wf) : (dropTop top cap s).wf := ⟨sparseWf_filter h.1, sparseWf_filter h.2.1, h.2.2⟩

theorem mapOut_wf {layer : Nat} {s : State} (h : s.wf) :
    (mapOut layer s).wf :=
  raise_wf (onEveryCore_wf (fun _ => memqRecord_wf) (mk_wf (setTiers_wf (dropTop_wf (foldl_wf (fun _ _ => loseCell_wf) _ h)))))

theorem execLayerMapOut_wf {s : State} (h : s.wf) : nextWf (execLayerMapOut s) := by
  unfold execLayerMapOut
  split
  · exact .fault
  · exact .next (mapOut_wf h)

theorem takeSpare_wf {b : Nat} {copies : Bool} {s : State} (h : s.wf) : (takeSpare b copies s).wf := raise_wf (setTiers_wf h)
theorem spareStageBank_wf {b layer : Nat} {s : State} (h : s.wf) : (spareStageBank b layer s).wf := ite_wf (takeSpare_wf h) (raise_wf h)

theorem spareBulkBank_wf {b : Nat} {atBoot : Bool} {s : State} (h : s.wf) : (spareBulkBank b atBoot s).wf := by
  unfold spareBulkBank
  split
  · exact raise_wf (poisonUnits_wf h)
  · split
    · exact takeSpare_wf h
    · dsimp only
      exact takeSpare_wf (mk_wf (poisonUnits_wf h))

theorem copyRow_wf {b : Nat} {s : State} (h : s.wf) : (copyRow b s).wf := setTiers_wf h
theorem backOff_wf {b : Nat} {s : State} (h : s.wf) : (backOff b s).wf := ite_wf (setTiers_wf h) (ite_wf (mk_wf (setTiers_wf h)) (mk_wf (setTiers_wf h)))

end Sys2Proof.Machine
end

