-- ==== Sys2Proof/Proofs/CanonicalFabric.lean ====
section
/-! O59: the fabric between modules and the firmware. -/

namespace Sys2Proof.Machine

/-! ### Machine/Fabric.lean -/

theorem setPort_wf {p : Nat} {x : Port} {s : State} (h : s.wf) : (setPort p x s).wf := h

theorem atPort_wf {p : Nat} {f : State → State} {s : State} (hf : ∀ s, s.wf → (f s).wf) (h : s.wf) : nextWf (atPort p f s) := by
  unfold atPort
  split
  · exact .fault
  · exact .next (hf _ h)

theorem sendFlits_wf {held : List (BitVec 12)} {l : List Flit} {s : State} (h : s.wf) : (sendFlits held l s).1.wf := by
  obtain ⟨_, _, _, _, _, e⟩ := sendFlits_onlyFabric l held s
  rw [e]
  exact h

theorem flushPorts_wf {s : State} (h : s.wf) : (flushPorts s).wf := by
  unfold flushPorts
  split
  · exact h
  · dsimp only
    exact mk_wf (sendFlits_wf h)

theorem watchRoutes_wf {s : State} (h : s.wf) : (watchRoutes s).wf := h
theorem fabricTick_wf {s : State} (h : s.wf) : (fabricTick s).wf := watchRoutes_wf (flushPorts_wf h)

theorem putRemoteTag_wf {pa : Nat} {t : BitVec 16} {desc : Bool} {s : State} (h : s.wf) : (putRemoteTag pa t desc s).wf :=
  ite_wf ⟨h.1, tagPut_wf h.2.1, h.2.2⟩ h

theorem poisonRemote_wf {pa : Nat} {desc : Bool} {s : State} (h : s.wf) : (poisonRemote pa desc s).wf := ite_wf (putRemoteTag_wf h) (memPoison_wf h)

theorem putRemoteCell_wf {pa : Nat} {c : CellData} {desc : Bool} {s : State} (h : s.wf) : (putRemoteCell pa c desc s).wf :=
  ite_wf (poisonRemote_wf (putRemoteTag_wf (memPutBytes_wf h))) (putRemoteTag_wf (memPutBytes_wf h))

theorem remoteStore_wf {m : Nat} {who : Requester} {a : Nat} {f : State → State} {s : State} (hf : ∀ s, s.wf → (f s).wf) (h : s.wf) :
    (remoteStore m who a f s).wf := ite_wf (answerWrite_wf (hf _ h)) (answerWrite_wf h)

theorem fldData_wf {id : Nat} {c : CellData} {bad : Bool} {s : State} (h : s.wf) : (fldData id c bad s).wf := onStr_wf h

theorem itemAcknowledged_wf {core : Nat} {q : BitVec 16} {item : Nat} {s : State} (h : s.wf) : (itemAcknowledged core q item s).wf :=
  ite_wf h (onCore_wf h (fun _ => finishAwaited_wf))

theorem takeAck_wf {m : Nat} {who : Requester} {code : Nat} {s : State} (h : s.wf) : (takeAck m who code s).wf := by
  unfold takeAck
  split
  · exact h
  · dsimp only
    split
    · exact h
    · exact raise_wf h
    · exact ite_wf h (onCore_wf h (fun _ k => ite_wf (resume_wf k) k))
    · exact onCore_wf h (fun _ => fldData_wf)
    · exact itemAcknowledged_wf (ite_wf h (onCore_wf h (fun _ => recordFault_wf)))

theorem remoteRead_wf {m : Nat} {who : Requester} {a : Nat} {s : State} (h : s.wf) : (remoteRead m who a s).wf := ite_wf h (mk_wf (countPhysical_wf h))

theorem takeData_wf {m : Nat} {who : Requester} {c : CellData} {bad : Bool} {s : State} (h : s.wf) : (takeData m who c bad s).wf := by
  unfold takeData
  split
  · exact ite_wf (onCore_wf h (fun _ => fldData_wf)) h
  · exact h

theorem performAct_wf {m : Nat} {who : Requester} {act : FlitAct} {s : State} (h : s.wf) : (performAct m who act s).wf := by
  unfold performAct
  split
  · exact remoteRead_wf h
  · exact takeData_wf h
  · exact remoteStore_wf (fun _ => putRemoteCell_wf) h
  · exact remoteStore_wf (fun _ => memPutBytes_wf) h
  · exact remoteStore_wf (fun _ => poisonRemote_wf) h
  · exact ite_wf (raise_wf h) (answerWrite_wf h)
  case h_13 => exact onCore_wf h (fun _ => takeDelivery_wf)
  case h_16 => exact takeAck_wf h
  all_goals exact raise_wf h

theorem takeFlit_wf {f : Flit} {s : State} (h : s.wf) : (takeFlit f s).wf := ite_wf (raise_wf h) (performAct_wf h)

theorem receiveFlit_wf {p : Nat} {f : Flit} {s : State} (h : s.wf) : (receiveFlit p f s).wf :=
  ite_wf h (ite_wf (setPort_wf h) (ite_wf h (ite_wf (mk_wf (setPort_wf h)) (takeFlit_wf (setPort_wf h)))))

theorem execFlitReceive_wf {s : State} (h : s.wf) : nextWf (execFlitReceive s) := by
  unfold execFlitReceive
  split
  · split
    · exact .next (performAct_wf h)
    · dsimp only
      exact atPort_wf (fun _ => receiveFlit_wf) h
  · exact .fault

theorem takeNak_wf {p : Nat} {q : BitVec 16} {s : State} (h : s.wf) : (takeNak p q s).wf := ite_wf h (ite_wf (raise_wf (setPort_wf h)) (setPort_wf h))
theorem portDown_wf {p failed : Nat} {s : State} (h : s.wf) : (portDown p failed s).wf := raise_wf (setHost_wf (mk_wf (setPort_wf h)))

theorem endRetrain_wf {p outcome : Nat} {s : State} (h : s.wf) : (endRetrain p outcome s).wf := by
  unfold endRetrain
  split
  · exact setPort_wf h
  · exact ite_wf (portDown_wf h) (fieldRepair_wf (setPort_wf h))
  · exact portDown_wf h

theorem leaveDomain_wf {m : Nat} {s : State} (h : s.wf) : (leaveDomain m s).wf := by
  unfold leaveDomain
  split
  · exact h
  · dsimp only
    exact raise_wf (sourceLost_wf (onEveryCore_wf (fun _ k => membershipRecord_wf (faultChannels_wf k)) (foldl_wf (fun _ _ => takeAck_wf) _ h)))

theorem joinDomain_wf {m : Nat} {s : State} (h : s.wf) : (joinDomain m s).wf := ite_wf h (raise_wf (onEveryCore_wf (fun _ => membershipRecord_wf) h))

/-! ### Machine/Firmware.lean -/

theorem setThermal_wf {s : State} {t : Thermal} (h : s.wf) : (State.setThermal s t).wf := h
theorem setDieLevel_wf {die : Nat} {x : BitVec 3} {s : State} (h : s.wf) : (setDieLevel die x s).wf := setThermal_wf h
theorem applyTherm_wf {s : State} (h : s.wf) : (applyTherm s).wf := mapCores_wf (fun _ k => k) h

theorem stepDie_wf {die : Nat} {temp : Int} {s : State} (h : s.wf) : (stepDie die temp s).wf := by
  unfold stepDie
  split
  · exact ite_wf h (raise_wf (applyTherm_wf (setDieLevel_wf h)))
  · split <;> exact ite_wf h (raise_wf (applyTherm_wf (setDieLevel_wf h)))

theorem setDieHot_wf {die : Nat} {x : Bool} {s : State} (h : s.wf) : (setDieHot die x s).wf := setThermal_wf h
theorem thermalStep_wf {s : State} (h : s.wf) : (thermalStep s).wf := mk_wf (raise_wf (setDieHot_wf (setDieHot_wf (stepDie_wf (stepDie_wf h)))))

theorem stopAll_wf {die : Nat} {temp : Int} {s : State} (h : s.wf) : (stopAll die temp s).wf :=
  mk_wf (raise_wf (setThermal_wf (onEveryCore_wf (fun _ k => ite_wf k (coreStop_wf k)) h)))

theorem thermalTrip_wf {die : Nat} {temp : Int} {s : State} (h : s.wf) : (thermalTrip die temp s).wf := by
  unfold thermalTrip
  split
  · exact h
  · dsimp only
    split
    · exact stopAll_wf (raise_wf (applyTherm_wf (setDieHot_wf (setDieLevel_wf h))))
    · exact raise_wf (applyTherm_wf (setDieHot_wf (setDieLevel_wf h)))

theorem execThermalTrip_wf {s : State} (h : s.wf) : nextWf (execThermalTrip s) := by
  unfold execThermalTrip
  split
  · exact .fault
  · exact .next (thermalTrip_wf h)

theorem powerStep_wf {s : State} (h : s.wf) : (powerStep s).wf := by
  unfold powerStep
  split <;> exact ite_wf h (raise_wf (applyTherm_wf (setThermal_wf h)))

theorem retireTo_wf {n trigger : Nat} {s : State} (h : s.wf) : (retireTo n trigger s).wf := by
  unfold retireTo
  dsimp only
  split
  · exact mk_wf (raise_wf h)
  · exact ite_wf h (mk_wf (raise_wf (setHost_wf (onCore_wf h (fun _ => releaseHere_wf)))))

theorem retireCore_wf {n trigger outcome : Nat} {s : State} (h : s.wf) : (retireCore n trigger outcome s).wf := by
  unfold retireCore
  split
  · exact h
  · exact ite_wf (fieldRepair_wf h) (retireTo_wf h)
  · exact ite_wf (fieldRepair_wf h) (retireTo_wf h)
  · exact retireTo_wf h

theorem testCore_wf {n trigger outcome : Nat} {s : State} (h : s.wf) : (testCore n trigger outcome s).wf := ite_wf (retireCore_wf h) h

theorem execCoreRetire_wf {s : State} (h : s.wf) : nextWf (execCoreRetire s) := by
  unfold execCoreRetire
  split
  · exact .fault
  · split
    · exact .next (testCore_wf h)
    · exact .fault

end Sys2Proof.Machine
end

