-- ==== Sys2Proof/Proofs/CanonicalMemory.lean ====
section
/-! O59, settled: every instruction and event, the turn passing on, and a step. -/

namespace Sys2Proof.Machine

/-- Every instruction and event keeps the form: the words of one family by the one rule they share, each other by its own lemma. -/
theorem exec_wf {i : Instr} {s : State} (h : s.wf) : nextWf (exec i s) := by
  cases i with
  | add o | sub o | mul o | mulh o | mulhz o | div o | divz o | rem o | remz o | and o | or o | xor o | andn o | shl o | shr o | sha o | min o
  | max o | minz o | maxz o | adda o | clz o | ctz o | popc o | sext o | pick o | addi o | andi o | ori o | xori o | shli o | shri o | shai o | lil o
  | lih o | bfx o | bfi o | sel o | lidx o | cyc o | fgstat o | coord o | stgq o | ahist o | astat o | mstat o | qstat o | cstat o | cbmap o =>
    exact issue_wf (fun _ k => .done (wrD_wf k)) h
  | cmp o | cmpi o | plog o => exact issue_wf (fun _ k => .done (wrP_wf k)) h
  | br o => exact execBr_wf h
  | call o => exact execCall_wf h
  | jmp o => exact execJmp_wf h
  | callr o => exact issue_wf (fun _ => callTo_wf) h
  | ret o => exact issue_wf (fun _ => returnFrom_wf) h
  | ndim o => exact execNdim_wf h
  | nest o => exact execNest_wf h
  | ld o | ldz o | ldn o => exact issue_wf (fun _ => loadInto_wf) h
  | st o | stn o => exact issue_wf (fun _ => storeAt_wf) h
  | fld o => exact issue_wf (fun _ => fldIssue_wf) h
  | fst o => exact issue_wf (fun _ => fstIssue_wf) h
  | csrr o => exact execCsrr_wf h
  | csrw o => exact execCsrw_wf h
  | nop o => exact issue_wf (fun _ => .done) h
  | trap o => exact issue_wf (fun _ _ => .trap) h
  | fence o => exact execFence_wf h
  | semsig o | semtry o | semadd o | semcas o | semrd o => exact issue_wf (fun _ => semInstr_wf) h
  | semwait o => exact execSemwait_wf h
  | mtxlock o => exact execMtxlock_wf h
  | mtxtry o => exact execMtxtry_wf h
  | mtxfree o => exact execMtxfree_wf h
  | bararr o => exact execBararr_wf h
  | barwait o => exact execBarwait_wf h
  | rdv o => exact execRdv_wf h
  | evset o => exact execEvset_wf h
  | evclr o => exact execEvclr_wf h
  | evwait o => exact execEvwait_wf h
  | waitlt o => exact execWaitlt_wf h
  | claim o => exact execClaim_wf h
  | commit o => exact execCommit_wf h
  | await o => exact execAwait_wf h
  | retire o => exact execRetire_wf h
  | sleepu o => exact execSleepu_wf h
  | waita o => exact execWaita_wf h
  | mode o => exact execMode_wf h
  | tret o => exact execTret_wf h
  | ctxsave o => exact execCtxsave_wf h
  | ctxload o => exact execCtxload_wf h
  | preempt o => exact execPreempt_wf h
  | semmap o => exact execSemmap_wf h
  | tlbinv o => exact execTlbinv_wf h
  | tlbprobe o => exact execTlbprobe_wf h
  | hint o => exact execHint_wf h
  | halt o => exact execHalt_wf h
  | wflush o => exact execWflush_wf h
  | qcfg o => exact execQcfg_wf h
  | chmap o => exact execChmap_wf h
  | send o => exact execSend_wf h
  | sends o => exact execSends_wf h
  | recv o => exact execRecv_wf h
  | recvs o => exact execRecvs_wf h
  | peek o => exact execPeek_wf h
  | qfree o => exact execQfree_wf h
  | mcast o => exact execMcast_wf h
  | fgstart o => exact issue_wf (fun _ => fgstartBody_wf) h
  | fgstop o => exact execFgstop_wf h
  | fglate o => exact execFglate_wf h
  | fgwin o => exact execFgwin_wf h
  | fgpace o => exact execFgpace_wf h
  | fgmc o => exact execFgmc_wf h
  | fgmark o => exact execFgmark_wf h
  | launch o => exact execLaunch_wf h
  | post o => exact execPost_wf h
  | take o => exact execTake_wf h
  | yieldJob o => exact execYield_wf h
  | doneJob o => exact execDone_wf h
  | swcfg o => exact execSwcfg_wf h
  | swtake o => exact execSwtake_wf h
  | asamp o => exact execAsamp_wf h
  | amode o => exact execAmode_wf h
  | athr o => exact execAthr_wf h
  | aown o => exact execAown_wf h
  | aforce o => exact execAforce_wf h
  | aclr o => exact execAclr_wf h
  | arel o => exact issue_wf (fun _ k => unlocked_wf (.done (discardSample_wf k))) h
  | cset o | cseti o | cdim o => exact issue_wf (fun _ k => .done (putCw_wf k)) h
  | cldc o => exact execCldc_wf h
  | cstc o => exact execCstc_wf h
  | copy o | gather o | scatter o | cfill o | kvlist o | ttile o => exact issue_wf (fun _ => issueCmd_wf) h
  | cfollow o => exact issue_wf (fun _ k => .done (putCw_wf (putCw_wf k))) h
  | tdef o => exact execTdef_wf h
  | publish o => exact issue_wf (fun _ k => .done (publishFrame_wf k)) h
  | frmap o => exact execFrmap_wf h
  | cresume o => exact execCresume_wf h
  | ccancel o => exact execCcancel_wf h
  | cwait o => exact execCwait_wf h
  | mcfg o => exact execMcfg_wf h
  | mrel o => exact execMrel_wf h
  | wload o | wflip o | mmul o => exact issue_wf (fun _ => matCommand_wf) h
  | mband o => exact execMband_wf h
  | mtag o | mpace o => exact issue_wf (fun _ k => .done (setMat_wf k)) h
  | mswap o => exact issue_wf (fun _ => marked_wf) h
  | mclr o => exact execMclr_wf h
  | msave o => exact issue_wf (fun _ k => bankArea_wf (fun _ _ _ => .done (foldl_wf (fun _ _ => storeCell_wf) _ k))) h
  | mrest o => exact execMrest_wf h
  | mdrain o => exact execMdrain_wf h
  | vshape o => exact execVshape_wf h
  | vld o => exact execVld_wf h
  | vst o => exact execVst_wf h
  | vldm o => exact execVldm_wf h
  | vstm o => exact execVstm_wf h
  | vgat o => exact execVgat_wf h
  | vsct o => exact execVsct_wf h
  | vsplat o | vsel o | vtrn o | vperm o => exact issue_wf (fun _ k => vectorOp_wf (fun _ _ k1 => .done (putLanes_wf k1)) k) h
  | vmovs o | vmpop o | vmfirst o => exact issue_wf (fun _ k => vectorOp_wf (fun _ _ k1 => .done (wrD_wf k1)) k) h
  | viota o => exact execViota_wf h
  | vaccr o => exact execVaccr_wf h
  | vaccw o => exact execVaccw_wf h
  | vadd o | vsub o | vmul o | vmax o | vmin o | vclamp o | vscale o => exact issue_wf (fun _ => floatOp2_wf) h
  | vabs o | vneg o | vrcp o | vrsq o | vexp o | vlog o => exact issue_wf (fun _ => floatOp1_wf) h
  | vcvt o => exact execVcvt_wf h
  | vquant o => exact execVquant_wf h
  | viadd o | visub o | vimul o | vand o | vor o | vxor o | vshl o | vshr o | vsha o => exact issue_wf (fun _ => intOp2_wf) h
  | vcmp o | vicmp o => exact issue_wf (fun _ k => vectorOp_wf (fun _ _ k1 => permit_wf (.done (putCompare_wf k1))) k) h
  | vmlog o => exact issue_wf (fun _ k => vectorOp_wf (fun _ _ k1 => .done (wrM_wf k1)) k) h
  | vred o | vredc o => exact issue_wf (fun _ => reduce_wf) h
  | vscan o => exact execVscan_wf h
  | vpart o => exact issue_wf (fun _ k => onEngine_wf (fun _ k1 => .done (wrV_wf k1)) k) h
  | vhist o => exact execVhist_wf h
  | vord o => exact execVord_wf h
  | vosm o => exact execVosm_wf h
  | vfma o => exact issue_wf (fun _ k => vectorOp_wf (fun _ _ k1 => permit_wf (.done (putRounded_wf k1))) k) h
  | ttclr o => exact execTtclr_wf h
  | ttnew o => exact execTtnew_wf h
  | ttadd o => exact execTtadd_wf h
  | ttload o => exact execTtload_wf h
  | ttstore o => exact execTtstore_wf h
  | ttmask o => exact issue_wf (fun _ k => treeOp_wf (fun _ k1 => onTree_wf (fun _ => .done (wrM_wf k1))) k) h
  | ttpos o => exact execTtpos_wf h
  | ttdepth o => exact execTtdepth_wf h
  | ttpath o => exact execTtpath_wf h
  | ttprune o => exact execTtprune_wf h
  | ttstat o => exact execTtstat_wf h
  | bartWrite => exact atCore_wf (fun _ => writeBart_wf) h
  | sleepWake => exact execSleepWake_wf h
  | watchEvent | watchPoll | watchTimeout => exact atCore_wf (fun _ => watchAgain_wf) h
  | remoteSemRequest => exact execRemoteSemRequest_wf h
  | remoteSemAnswer => exact execRemoteSemAnswer_wf h
  | remoteSemResend => exact execRemoteSemResend_wf h
  | remoteSemTimeout => exact execRemoteSemTimeout_wf h
  | remoteWithdrawal => exact execRemoteWithdrawal_wf h
  | queueEntryArrival => exact execQueueEntryArrival_wf h
  | creditReturn => exact execCreditReturn_wf h
  | messageAckTimeout => exact atCore_wf (fun _ => takeDelivery_wf) h
  | timedRecvDue => exact atCore_wf (fun _ => tryRecv_wf) h
  | legRead => exact atWalk_wf (fun _ => readLeg_wf) h
  | legStart => exact atWalk_wf (fun _ => startLeg_wf) h
  | controlLeg => exact atWalk_wf (fun _ => controlLeg_wf) h
  | sourceLegSend => exact atWalk_wf (fun _ => sendLeg_wf) h
  | readyNotice => exact execReadyNotice_wf h
  | goneAnswer => exact atWalk_wf (fun _ => goneLeg_wf) h
  | multicastCellArrival => exact execMulticastCellArrival_wf h
  | multicastSilence => exact atWalk_wf (fun _ => silentLeg_wf) h
  | legLand => exact atWalk_wf (fun _ => advanceLeg_wf) h
  | markFire => exact atWalk_wf (fun _ => fireMark_wf) h
  | schedulerDecision => exact .next (decision_wf h)
  | packetDeadline => exact .next (overduePacket_wf h)
  | balancer => exact .next (foldl_wf (fun _ _ => balanceJob_wf) _ h)
  | recordDispatch => exact .next (dispatchRecord_wf h)
  | jobRetire => exact .next (retireJob_wf h)
  | swarmRingPoll => exact .next (foldl_wf (fun _ _ => pollRing_wf) _ h)
  | batchEmit => exact .next (emitBatch_wf h)
  | auditCheckEnd => exact atCore_wf (fun _ => endCheck_wf) h
  | commandStart => exact atCore_wf (fun _ => startCmd_wf) h
  | cellArrival => exact execCellArrival_wf h
  | promiseDue => exact atCore_wf (fun _ => promisesDue_wf) h
  | freezeLimit => exact atCore_wf (fun _ k => ite_wf (markLate_wf k) k) h
  | commandComplete => exact atCore_wf (fun _ => completeStep_wf) h
  | followOnArrival => exact execFollowOnArrival_wf h
  | listedItemFinish => exact atCore_wf (fun _ => listedStep_wf) h
  | tolerantRetry => exact execTolerantRetry_wf h
  | incomingWrite => exact execIncomingWrite_wf h
  | wloadDispatch => exact execWloadDispatch_wf h
  | wloadFillEnd => exact atCore_wf (fun _ => endFill_wf) h
  | wflipDispatch => exact execWflipDispatch_wf h
  | mmulDispatch => exact execMmulDispatch_wf h
  | mmulFinish => exact atCore_wf (fun _ => finishMmul_wf) h
  | resultLand => exact atCore_wf (fun _ k => ite_wf (landFld_wf k) (landResult_wf k)) h
  | trapEntry => exact atCore_wf (fun _ => takeDeferred_wf) h
  | asyncTrapDelivery => exact atCore_wf (fun _ => deliverAsync_wf) h
  | watchdogExpiry => exact atCore_wf (fun _ => expireWatchdog_wf) h
  | doorbell => exact atCore_wf (fun _ => ringDoorbell_wf) h
  | coreRetire => exact execCoreRetire_wf h
  | lqwin => exact execLqwin_wf h
  | hostMemRead => exact execHostMemRead_wf h
  | hostMemWrite => exact execHostMemWrite_wf h
  | linkStateChange => exact execLinkStateChange_wf h
  | moduleReset => exact .next (moduleReset_wf h)
  | bootgo => exact .next (startBoot_wf h)
  | bootVerify => exact .next (mk_wf (verifyBoot_wf h))
  | selfTestDone => exact .next (selfTest_wf h)
  | helper => exact .next (mk_wf (mailCommand_wf (fun _ => helperCommand_wf) h))
  | enrol => exact .next (mk_wf (mailCommand_wf (fun _ => enrolCommand_wf) h))
  | attest => exact .next (mk_wf (mailCommand_wf (fun _ => attestCommand_wf) h))
  | evring => exact .next (mk_wf (mailCommand_wf (fun _ => evringCommand_wf) h))
  | powercap => exact .next (mailCommand_wf (fun _ => powercapCommand_wf) h)
  | history => exact .next (mk_wf (mailCommand_wf (fun _ => historyCommand_wf) h))
  | unknownCommand => exact .next (unknownMail_wf h)
  | mailboxDone => exact .next (mailboxDone_wf h)
  | go => exact .next (lockFeatures_wf h)
  | registerWrite => exact execRegisterWrite_wf h
  | eventPost => exact execEventPost_wf h
  | flitReceive => exact execFlitReceive_wf h
  | nakReceive => exact atPort_wf (fun _ => takeNak_wf) h
  | linkRetrain => exact atPort_wf (fun _ => setPort_wf) h
  | retrainEnd => exact atPort_wf (fun _ => endRetrain_wf) h
  | routeLossTimeout | moduleLeave => exact .next (leaveDomain_wf h)
  | moduleJoin => exact .next (joinDomain_wf h)
  | patrolScrub => exact .next (patrolAtom_wf h)
  | layerMapOut => exact execLayerMapOut_wf h
  | stageBankSpare => exact .next (spareStageBank_wf h)
  | bulkBankSpare => exact .next (spareBulkBank_wf h)
  | alertBackOff => exact .next (backOff_wf h)
  | thermalStep => exact .next (thermalStep_wf (setThermal_wf h))
  | thermalTrip => exact execThermalTrip_wf h
  | powerCapStep => exact .next (powerStep_wf (setThermal_wf h))
  | farStoreAcknowledged => exact atCore_wf (fun _ k => setCore_wf k k.core) h
  | translationWalkEnd => exact atCore_wf (fun _ => endWalk_wf) h
  | spareRowCopied => exact .next (copyRow_wf h)
  | bankBlockEnd => exact .next (setTiers_wf h)
  | msixVectorUnmask => exact .next (unmask_wf h)

theorem restTurn_wf {s : State} (h : s.wf) : (restTurn s).wf := ite_wf (parkStream_wf h) h

theorem nextCore_wf {s : State} (h : s.wf) : (nextCore s).wf := by
  have hc : coreWf (endOfCycle s) := endOfCycle_wf h
  cases e : s.others with
  | nil =>
    rw [nextCore_alone e]
    exact fabricTick_wf ⟨h.1, h.2.1, hc, h.2.2.2⟩
  | cons d rest =>
    have hd : coreWf d := h.2.2.2 d (by simp [e])
    have hr : ∀ c ∈ rest ++ [endOfCycle s], coreWf c := by
      intro c m
      rcases List.mem_append.mp m with m | m
      · exact h.2.2.2 c (by simp [e, m])
      · rw [List.mem_singleton.mp m]; exact hc
    rw [nextCore_cons e]
    exact ite_wf (fabricTick_wf ⟨h.1, h.2.1, hd, hr⟩) ⟨h.1, h.2.1, hd, hr⟩

theorem rotate_wf {s : State} (h : s.wf) : (rotate s).wf := by
  unfold rotate
  split
  · exact nextCore_wf h
  · exact h

theorem passOn_wf {o : Host.Outcome State Fault Refusal} (h : nextWf o) : nextWf (passOn o) := by
  cases o with
  | next s => obtain ⟨h⟩ := h; exact .next (rotate_wf h)
  | fault f => exact .fault
  | refused r => exact .refused

theorem nextPending_wf {s : State} {x} {t : State} (e : nextPending s = some (x, t)) (h : s.wf) : t.wf := by
  obtain ⟨p, _, hp⟩ := Option.map_eq_some_iff.mp e
  cases hp
  exact h

theorem step_wf {s : State} (h : s.wf) : nextWf (step s) := by
  unfold step
  split
  · next e => exact exec_wf (mk_wf (nextPending_wf e h))
  · split
    · exact exec_wf h
    · split
      · split
        · exact passOn_wf (exec_wf h)
        · exact .next (rotate_wf (trapOut_wf h))
      · exact .next (rotate_wf (restTurn_wf h))

/-- Settles O59: `exec_wf` goes through the instructions and events, `step_wf` through what a step performs. -/
theorem canonicalMemory : Obligations.CanonicalMemory :=
  ⟨fun _ _ h e => (e ▸ step_wf h : nextWf _).wf, fun _ _ _ h e => (e ▸ exec_wf h : nextWf _).wf⟩

end Sys2Proof.Machine
end


-- ==== Sys2Proof/Proofs/Tiers.lean ====
section
/-! O54, the lemmas of layer map-out: a record for the queue that MEMQ names, sent on every core, leaves the memory tiers as they are. -/

namespace Sys2Proof.Machine

theorem foldl_tiers {α : Type} {f : State → α → State} (hf : ∀ s x, (f s x).tiers = s.tiers) (l : List α) (s : State) :
    (l.foldl f s).tiers = s.tiers := by
  induction l generalizing s with
  | nil => rfl
  | cons x l ih => exact (ih _).trans (hf s x)

theorem focus_tiers {n : Nat} {s t : State} (h : focus n s = some t) : t.tiers = s.tiers := by
  unfold focus at h
  split at h
  · cases h
    rfl
  · split at h
    · cases h
      rfl
    · cases h

/-- What keeps the tiers with a core in focus keeps them from outside. -/
theorem onCore_tiers {f : State → State} (hf : ∀ s, (f s).tiers = s.tiers) (n : Nat) (s : State) : (onCore n f s).tiers = s.tiers := by
  unfold onCore
  split
  · rfl
  · next s1 h1 =>
    split
    · next s2 h2 => rw [focus_tiers h2, hf, focus_tiers h1]
    · rfl

theorem onEveryCore_tiers {f : State → State} (hf : ∀ s, (f s).tiers = s.tiers) (s : State) : (onEveryCore f s).tiers = s.tiers :=
  foldl_tiers (fun s n => onCore_tiers hf n s) _ s

theorem resume_tiers (t : Sec) (r : Option (SDst × Word)) (s : State) : (resume t r s).tiers = s.tiers := by
  unfold resume asSec resumeCur
  dsimp only
  split
  · rfl
  · split <;> split <;> rfl

theorem sendCredit_tiers (w : Word) (n : Nat) (s : State) : (sendCredit w n s).tiers = s.tiers := by
  unfold sendCredit
  dsimp only
  split
  · split <;> rfl
  · rfl

theorem returnCredits_tiers (q : Fin 16) (all : Bool) (s : State) : (returnCredits q all s).tiers = s.tiers := by
  unfold returnCredits
  extract_lets x due s1
  refine foldl_tiers ?_ due s1
  intro t p
  exact sendCredit_tiers p.1 p.2 t

theorem popEntry_tiers (q : Fin 16) (s : State) : (popEntry q s).tiers = s.tiers := by
  unfold popEntry
  dsimp only
  split
  · rfl
  · exact returnCredits_tiers q false _

theorem takeEntry_tiers (t : Sec) (q : Fin 16) (a : Nat) (s : State) : (takeEntry t q a s).2.tiers = s.tiers := by
  refine (popEntry_tiers q _).trans ?_
  unfold storedBy
  split <;> rfl

theorem tryRecv_tiers (t : Sec) (s : State) : (tryRecv t s).tiers = s.tiers := by
  unfold tryRecv
  split
  · dsimp only
    generalize (_ || _ : Bool) = b
    cases b with
    | true => rfl
    | false => exact (resume_tiers t _ _).trans (takeEntry_tiers t _ _ s)
  · rfl

theorem thaw_tiers (s : State) : (thaw s).tiers = s.tiers := by
  unfold thaw
  split <;> rfl

theorem appendEntry_tiers (q : Fin 16) (e : Entry) (s : State) : (appendEntry q e s).tiers = s.tiers := by
  refine (thaw_tiers _).trans ?_
  exact (tryRecv_tiers .copy _).trans (tryRecv_tiers .ctl _)

theorem channelFault_tiers (t : Sec) (c code : Nat) (s : State) : (channelFault t c code s).tiers = s.tiers := rfl

theorem answerSender_tiers (w : Word) (code : Nat) (s : State) : (answerSender w code s).tiers = s.tiers := by
  unfold answerSender
  dsimp only
  split
  · rfl
  · split
    · split
      · rfl
      · exact onCore_tiers (channelFault_tiers _ _ _) _ s
    · rfl

theorem arriveEntry_tiers (q : Fin 16) (e : Entry) (s : State) : (arriveEntry q e s).tiers = s.tiers := by
  unfold arriveEntry
  dsimp only
  split
  · exact (answerSender_tiers _ _ _).trans (appendEntry_tiers q e s)
  · split
    · rfl
    · exact answerSender_tiers _ _ s

theorem memqRecord_tiers (n : Nat) (s : State) : (memqRecord n s).tiers = s.tiers := by
  unfold memqRecord
  dsimp only
  split
  · rfl
  · exact arriveEntry_tiers _ _ s

end Sys2Proof.Machine
end

