-- ==== Sys2Proof/Proofs/Repair.lean ====
section
/-! O54, the memory tiers: the patrol, layer map-out, the spares of banks and back-offs. -/

namespace Sys2Proof.Machine

theorem countUp_of_lt {x : BitVec 32} (h : x.toNat < 2 ^ 32 - 1) : countUp x = x + 1 := by
  have hx : x ≠ BitVec.allOnes 32 := by
    rintro rfl
    exact absurd h (by decide)
  exact if_neg hx

theorem countCorrected_stage {s : State} (h : s.tiers.corrs.toNat < 2 ^ 32 - 1) :
    countCorrected s .stage = s.setTiers { s.tiers with corrs := s.tiers.corrs + 1 } := by
  unfold countCorrected
  rw [countUp_of_lt h]
  rfl

theorem countBad_stage {s : State} (h : s.tiers.uncs.toNat < 2 ^ 32 - 1) : countBad s .stage = s.setTiers { s.tiers with uncs := s.tiers.uncs + 1 } := by
  unfold countBad
  rw [countUp_of_lt h]
  rfl

/-! ### The patrol (R397) -/

theorem patrolAtom_clean {l : Nat} {s : State} (h : l < s.tiers.stcap) (hb : l / 32 ∉ s.memBad) (hl : l / 32 ∉ s.memLost) :
    patrolAtom l 0 s = countPass (l / 32) s := by
  simp [patrolAtom, h, hb, hl]

theorem patrolAtom_corrected {l : Nat} {s : State} (h : l < s.tiers.stcap) (hb : l / 32 ∉ s.memBad) (hl : l / 32 ∉ s.memLost) :
    patrolAtom l 1 s = countPass (l / 32) (countCorrected s .stage) := by
  simp [patrolAtom, h, hb, hl]

theorem patrolAtom_lost {l found : Nat} {s : State} (h : l < s.tiers.stcap) (hx : found = 2 ∨ l / 32 ∈ s.memBad ∨ l / 32 ∈ s.memLost) :
    patrolAtom l found s = countPass (l / 32) (countBad (patrolLoss (l / 32) s) .stage) := by
  have h2 : (if s.memBad.contains (l / 32) || s.memLost.contains (l / 32) then 2 else found) = 2 := by
    rcases hx with rfl | hx | hx
    · simp
    · simp [hx]
    · simp [hx]
  unfold patrolAtom
  simp only [h2]
  simp [h]

theorem patrolAtom_between {l found : Nat} {s : State} (h : s.tiers.stcap ≤ l) (hl : l < 2 ^ 40) : patrolAtom l found s = s := by
  have hb : ¬ bulkLow ≤ l := by unfold bulkLow; omega
  simp [patrolAtom, Nat.not_lt.mpr h, hb]

theorem poisonUnits_one (u : Nat) (s : State) : poisonUnits [u] s = { s with memBad := s.memBad.filter (fun v => v != u) ++ [u] } := by
  have h : (fun v => !([u].contains v)) = fun v => v != u := by
    funext v
    rw [Bool.eq_iff_iff]
    simp
  unfold poisonUnits
  rw [h]

theorem patrolLoss_unsuspected {u : Nat} {s : State} (h : 192 ≤ Config.patrolSuspect s.tick u) :
    patrolLoss u s = if u ∈ s.memLost then { s with tick := s.tick + 1 }
      else { s with memBad := s.memBad.filter (fun v => v != u) ++ [u], tick := s.tick + 1 } := by
  unfold patrolLoss
  rw [if_neg (Nat.not_lt.mpr h), poisonUnits_one]
  by_cases hu : u ∈ s.memLost <;> simp [hu]

theorem patrolLoss_suspects {u : Nat} {s : State} (h : Config.patrolSuspect s.tick u < 192) : ∃ w,
    (patrolLoss u s).suspects = s.suspects ++ [(Config.patrolSuspect s.tick u, 2, w)] ∧ (u ∉ s.memLost → u ∈ (patrolLoss u s).memBad) := by
  unfold patrolLoss
  rw [if_pos h, poisonUnits_one]
  by_cases hu : u ∈ s.memLost <;> simp [hu]

theorem countPass_within {u : Nat} {s : State} (h : u = nextOfStage s) (hu : u + 1 < s.tiers.stcap / 32) :
    countPass u s = s.setTiers { s.tiers with nextStage := u + 1, lastStage := s.now } := by
  unfold countPass
  rw [if_pos h, if_pos hu]

theorem countPass_end {u : Nat} {s : State} (h : u = nextOfStage s) (hu : s.tiers.stcap / 32 ≤ u + 1) :
    countPass u s = s.setTiers { s.tiers with nextStage := 0, lastStage := s.now, pats := s.tiers.pats + 1 } := by
  unfold countPass
  rw [if_pos h, if_neg (Nat.not_lt.mpr hu)]

theorem countPass_other {u : Nat} {s : State} (h : u ≠ nextOfStage s) (hb : u ≠ 2 ^ 35 + s.tiers.nextBulk) : countPass u s = s := by
  have hl : bulkLow / 32 = 2 ^ 35 := by decide
  unfold countPass
  rw [if_neg h, hl, if_neg hb]

/-! ### Layer map-out (R398) -/

theorem loseCell_tiers (s : State) (c : Nat) : (loseCell c s).tiers = s.tiers := rfl

theorem raise_tiers (s : State) (l : List Event) : (s.raise l).tiers = s.tiers := rfl

theorem dropTop_tiers (top cap : Nat) (s : State) : (dropTop top cap s).tiers = s.tiers := rfl

theorem loseCells_tiers (l : List Nat) (s : State) : (l.foldl (fun s c => loseCell c s) s).tiers = s.tiers :=
  foldl_tiers loseCell_tiers l s

/-- The tiers after a map-out: the layer is marked and the capacity is a layer less. -/
def tiersWithout (layer : Nat) (t : Tiers) : Tiers :=
  { t with stcap := t.stcap - layerBytes, stlayr := t.stlayr ||| BitVec.ofNat 64 (2 ^ layer), retired := layer :: t.retired }

theorem tiersWithout_stcap (layer : Nat) (t : Tiers) : (tiersWithout layer t).stcap = t.stcap - 2 ^ 31 := by
  rw [tiersWithout, layerBytes]

/-- What is lost with the layer, and what the cores are told of it, changes no tier. -/
theorem mapOut_tiers (layer : Nat) (s : State) : (mapOut layer s).tiers = tiersWithout layer s.tiers := by
  rw [mapOut, raise_tiers, onEveryCore_tiers (memqRecord_tiers _), tiersWithout]
  generalize s.tiers.stcap - layerBytes = top
  rw [dropTop_tiers, loseCells_tiers]
  rfl

/-! ### Spares of banks (R401, R402) -/

theorem spareTaken_eq_false {s : State} {b : Nat} : spareTaken s b = false ↔ ∀ c ∈ s.tiers.spares, c / 2 ^ 8 ≠ b / 2 ^ 8 := by
  unfold spareTaken
  simp only [List.any_eq_false, decide_eq_true_eq]
  rfl

theorem spareTaken_eq_true {s : State} {b : Nat} : spareTaken s b = true ↔ ∃ c ∈ s.tiers.spares, c / 2 ^ 8 = b / 2 ^ 8 := by
  unfold spareTaken
  simp only [List.any_eq_true, decide_eq_true_eq]
  rfl

theorem spareStageBank_taken {b layer : Nat} {s : State} (h : feature s 7 0 = false ∨ spareTaken s b = true) :
    spareStageBank b layer s = s.raise [{ i := .layerMapOut, arg := { core := 0, sec := .ctl, a := layer, b := 0, data := .none } }] := by
  rcases h with h | h <;> simp [spareStageBank, h]

theorem spareStageBank_free {b layer : Nat} {s : State} (hf : feature s 7 0 = true) (h : spareTaken s b = false) :
    spareStageBank b layer s = takeSpare b true s := by
  simp [spareStageBank, hf, h]

theorem spareBulkBank_boot {b : Nat} {s : State} (h : spareTaken s b = false) : spareBulkBank b true s = takeSpare b false s := by
  simp [spareBulkBank, h]

theorem copyRow_only {b r : Nat} {s : State} (h : s.tiers.copies = [(b, r)]) :
    copyRow b s = s.setTiers { s.tiers with copies := if r < Config.bankRows then [(b, r + 1)] else [] } := by
  unfold copyRow
  rw [h]
  by_cases hr : r < Config.bankRows <;> simp [hr]

/-! ### Back-offs (R403) -/

theorem blocked_any {l : List (Nat × Nat)} {b : Nat} : (l.any fun p => decide (p.1 = b)) = true ↔ ∃ c, (b, c) ∈ l := by
  simp

theorem backOff_blocked {b : Nat} {s : State} (hb : ∃ c, (b, c) ∈ s.tiers.blocked) (h : s.tiers.aboall.toNat < 2 ^ 32 - 1) :
    backOff b s = s.setTiers { s.tiers with aboall := s.tiers.aboall + 1 } := by
  unfold backOff
  dsimp only
  rw [if_pos (blocked_any.mpr hb), countUp_of_lt h]

theorem backOff_blocks {b : Nat} {s : State} (hb : ∀ c, (b, c) ∉ s.tiers.blocked) (hp : Config.postponed s.tick b = true)
    (h : s.tiers.aboall.toNat < 2 ^ 32 - 1) (hm : s.tiers.abomax.toNat < 2 ^ 32 - 1) :
    backOff b s = { s.setTiers { s.tiers with aboall := s.tiers.aboall + 1, abomax := s.tiers.abomax + 1, blocked := (b, s.now) :: s.tiers.blocked } with
      tick := s.tick + 1 } := by
  unfold backOff
  dsimp only
  rw [if_neg (fun k => (blocked_any.mp k).elim hb), if_pos hp, countUp_of_lt h, countUp_of_lt hm]

theorem backOff_passes {b : Nat} {s : State} (hb : ∀ c, (b, c) ∉ s.tiers.blocked) (hp : Config.postponed s.tick b = false)
    (h : s.tiers.aboall.toNat < 2 ^ 32 - 1) :
    backOff b s = { s.setTiers { s.tiers with aboall := s.tiers.aboall + 1 } with tick := s.tick + 1 } := by
  unfold backOff
  dsimp only
  rw [if_neg (fun k => (blocked_any.mp k).elim hb), if_neg (by simp [hp]), countUp_of_lt h]

theorem blockOver_only {b c : Nat} {s : State} (h : s.tiers.blocked = [(b, c)]) : blockOver s = some b ↔ c + 6144 ≤ s.now := by
  unfold blockOver
  rw [h]
  by_cases hc : c + 6144 ≤ s.now <;> simp [hc]

end Sys2Proof.Machine
end

