-- ==== Sys2Proof/Proofs/Firmware.lean ====
section
/-! O54, temperature, power and the retirement of cores. -/

namespace Sys2Proof.Machine

/-! ### Temperature (R421) -/

theorem levelUp_eq (x : BitVec 3) : levelUp x = if x = 7 then 7 else x + 1 := by
  unfold levelUp
  split
  · assumption
  · rfl

/-- A die between 95 and 105 degrees stays at its level, and nothing is said of it. -/
theorem stepDie_keeps {die : Nat} {temp : Int} {s : State} (h : temp < 105) (hl : 95 < temp) : stepDie die temp s = s := by
  unfold stepDie
  dsimp only
  rw [if_neg (Int.not_le.mpr h), if_neg (Int.not_le.mpr hl), if_pos rfl]

/-- The first die at 105 degrees or more goes one level up, and no level but its own changes. -/
theorem stepDie_up {temp : Int} {s : State} (h : 105 ≤ temp) :
    (stepDie 0 temp s).thermal = { s.thermal with level0 := levelUp s.thermal.level0 } ∧ (stepDie 0 temp s).mem = s.mem := by
  unfold stepDie
  dsimp only
  rw [if_pos h]
  split
  · next hx => exact ⟨by rw [show levelUp s.thermal.level0 = s.thermal.level0 from hx], rfl⟩
  · exact ⟨rfl, rfl⟩

theorem tripEvents_below {die : Nat} {temp : Int} {s : State} (h : temp < 115) : tripEvents s die temp = [] :=
  if_neg fun k => absurd k.1 (Int.not_le.mpr h)

/-- A step with both dies below 115 degrees: each makes its own step, and neither trips. -/
theorem thermalStep_below {s : State} (h0 : Config.hottest s.tick 0 < 115) (h1 : Config.hottest s.tick 1 < 115) :
    thermalStep s = { setDieHot 1 false (setDieHot 0 false (stepDie 1 (Config.hottest s.tick 1) (stepDie 0 (Config.hottest s.tick 0) s))) with
      tick := s.tick + 1 } := by
  unfold thermalStep
  dsimp only
  rw [tripEvents_below h0, tripEvents_below h1, decide_eq_false (Int.not_le.mpr h0), decide_eq_false (Int.not_le.mpr h1)]
  simp [State.raise]

/-- Two dies between 95 and 105 degrees: nothing but what is remembered of them changes. -/
theorem thermalStep_keeps {s : State} (h0 : Config.hottest s.tick 0 < 105) (l0 : 95 < Config.hottest s.tick 0) (h1 : Config.hottest s.tick 1 < 105)
    (l1 : 95 < Config.hottest s.tick 1) : thermalStep s = { s.setThermal { s.thermal with hot0 := false, hot1 := false } with tick := s.tick + 1 } := by
  rw [thermalStep_below (by omega) (by omega), stepDie_keeps h0 l0, stepDie_keeps h1 l1]
  rfl

theorem thermalStep_up {s : State} (h0 : 105 ≤ Config.hottest s.tick 0) (t0 : Config.hottest s.tick 0 < 115) (h1 : Config.hottest s.tick 1 < 105)
    (l1 : 95 < Config.hottest s.tick 1) :
    (thermalStep s).thermal = { s.thermal with level0 := levelUp s.thermal.level0, hot0 := false, hot1 := false } ∧ (thermalStep s).mem = s.mem := by
  obtain ⟨ht, hm⟩ := stepDie_up (s := s) h0
  rw [thermalStep_below t0 (by omega), stepDie_keeps h1 l1]
  exact ⟨congrArg (fun t => { t with hot0 := false, hot1 := false }) ht, hm⟩

theorem thermalTrip_below {die : Nat} {temp : Int} {s : State} (h : temp < 115) : thermalTrip die temp s = s := if_pos h

theorem dieTherm_top {s : State} {die : Nat} (h : dieLevel s die = 7) : dieTherm s die = 7 := by
  unfold dieTherm
  rw [h, if_neg]
  exact Nat.not_lt.mpr (Nat.le_of_lt_succ s.thermal.cap.isLt)

theorem dieTherm_other {s : State} {die : Nat} (h : die ≠ 0) : dieTherm s die = dieTherm s 1 := by
  simp [dieTherm, dieLevel, h]

theorem dieOf_eq_zero {n : Nat} : dieOf n = 0 ↔ n < 96 := by
  unfold dieOf
  omega

/-- With the first die at level 7 its cores run at THERM 7, and every other core at that of the second. -/
theorem applyTherm_core {s : State} (h : s.thermal.level0 = 7) : (applyTherm s).core.mat.therm = if s.core.num < 96 then 7 else dieTherm s 1 := by
  show dieTherm s (dieOf s.core.num) = _
  split
  · next hn => rw [dieOf_eq_zero.mpr hn, dieTherm_top (s := s) (die := 0) h]
  · next hn => exact dieTherm_other (dieOf_eq_zero.not.mpr hn)

/-- The first die at 115 degrees and below 125: level 7 at once for its cores, and nothing stops. -/
theorem thermalTrip_first {temp : Int} {s : State} (h : 115 ≤ temp) (hs : temp < 125) :
    ∃ es, thermalTrip 0 temp s = (applyTherm (setDieHot 0 true (setDieLevel 0 7 s))).raise es := by
  unfold thermalTrip
  rw [if_neg (Int.not_lt.mpr h)]
  dsimp only
  rw [if_neg (Int.not_le.mpr hs)]
  exact ⟨_, rfl⟩

/-! ### The power cap (R421) -/

theorem powerStep_top {s : State} (ho : Config.overCap s.tick s.host.powercap.toNat = true) (h : s.thermal.cap = 7) :
    powerStep s = { s with tick := s.tick + 1 } := by
  unfold powerStep
  dsimp only
  rw [if_pos ho, levelUp, if_pos h, if_pos rfl]

theorem bv3_succ_ne (x : BitVec 3) : x + 1 ≠ x := by
  revert x
  decide

theorem powerStep_up {s : State} (ho : Config.overCap s.tick s.host.powercap.toNat = true) (h : s.thermal.cap ≠ 7) :
    ∃ es, powerStep s = (applyTherm { s.setThermal { s.thermal with cap := s.thermal.cap + 1 } with tick := s.tick + 1 }).raise es := by
  unfold powerStep
  dsimp only
  rw [if_pos ho, levelUp, if_neg h, if_neg (bv3_succ_ne _)]
  exact ⟨_, rfl⟩

/-! ### The retirement of cores (R15, R317) -/

theorem execCoreRetire_eq {s : State} {n : Nat} {w : Word} (ha : s.arg.a = n) (hn : n < 192) (hd : s.arg.data = .word w) :
    exec .coreRetire s = .next (testCore n s.arg.b w.toNat s) := by
  show execCoreRetire s = _
  unfold execCoreRetire
  rw [ha, if_neg (Nat.not_le.mpr hn), hd]

theorem testCore_later {s : State} {n b o : Nat} (h : atPreemption s n = false) :
    testCore n b o s = { s with suspects := s.suspects.filter (fun p => p.1 != n) ++ [(n, b, o)] } := by
  unfold testCore
  rw [h]
  rfl

theorem testCore_now {s : State} {n b o : Nat} (h : atPreemption s n = true) :
    testCore n b o s = retireCore n b o { s with suspects := s.suspects.filter fun p => p.1 != n } := by
  unfold testCore
  rw [if_pos h]

theorem retireCore_column {s : State} {n b o : Nat} (h : o % 256 = 1) :
    retireCore n b o s = if (s.columnRepairs.filter (· == (s.physical[Fin.ofNat 192 n], o / 256 % 32))).length < 4
      then fieldRepair { s with columnRepairs := (s.physical[Fin.ofNat 192 n], o / 256 % 32) :: s.columnRepairs } else retireTo n b s := by
  unfold retireCore
  rw [h]
  rfl

theorem retireCore_row {s : State} {n b o : Nat} (h : o % 256 = 3) :
    retireCore n b o s = if (s.rowRepairs.filter (· == s.physical[Fin.ofNat 192 n])).length < 64
      then fieldRepair { s with rowRepairs := s.physical[Fin.ofNat 192 n] :: s.rowRepairs } else retireTo n b s := by
  unfold retireCore
  rw [h]
  rfl

/-- A core that no spare column or row repairs is retired. -/
theorem retireCore_retires {s : State} {n b : Nat} {w : Word}
    (h : w = 2 ∨ (w.toNat % 256 = 1 ∧ 4 ≤ (s.columnRepairs.filter (· == (s.physical[Fin.ofNat 192 n], w.toNat / 256 % 32))).length)
      ∨ (w.toNat % 256 = 3 ∧ 64 ≤ (s.rowRepairs.filter (· == s.physical[Fin.ofNat 192 n])).length)) :
    retireCore n b w.toNat s = retireTo n b s := by
  rcases h with rfl | ⟨h, hc⟩ | ⟨h, hr⟩
  · rfl
  · rw [retireCore_column h, if_neg (Nat.not_lt.mpr hc)]
  · rw [retireCore_row h, if_neg (Nat.not_lt.mpr hr)]

theorem testCore_retires {s : State} {n b : Nat} {w : Word} (hp : atPreemption s n = true)
    (h : w = 2 ∨ (w.toNat % 256 = 1 ∧ 4 ≤ (s.columnRepairs.filter (· == (s.physical[Fin.ofNat 192 n], w.toNat / 256 % 32))).length)
      ∨ (w.toNat % 256 = 3 ∧ 64 ≤ (s.rowRepairs.filter (· == s.physical[Fin.ofNat 192 n])).length)) :
    testCore n b w.toNat s = retireTo n b { s with suspects := s.suspects.filter fun p => p.1 != n } :=
  (testCore_now hp).trans (retireCore_retires (s := { s with suspects := s.suspects.filter fun p => p.1 != n }) h)

/-- The position of a retired core moves to one of its die's spares, where one is left. -/
theorem retireTo_spare {s : State} {n b : Nat} (h : ∃ p ∈ s.spares, p.toNat / 256 = dieOf n) : ∃ p ∈ s.spares, p.toNat / 256 = dieOf n ∧
    retireTo n b s = { s.raise [retireEvent s n p b] with
      physical := s.physical.set (Fin.ofNat 192 n) p, spares := s.spares.filter (· != p), tick := s.tick + 1 } := by
  obtain ⟨q, hq, hd⟩ := h
  have hl : 0 < (s.spares.filter fun p => decide (p.toNat / 256 = dieOf n)).length :=
    List.length_pos_of_mem (List.mem_filter.mpr ⟨hq, decide_eq_true hd⟩)
  have hi := Nat.mod_lt (Config.spareChoice s.tick n) hl
  have hm := List.mem_filter.mp (List.getElem_mem hi)
  refine ⟨_, hm.1, of_decide_eq_true hm.2, ?_⟩
  unfold retireTo
  dsimp only
  rw [List.getElem?_eq_getElem hi]

/-- With no spare left on its die the position leaves the presence map. -/
theorem retireTo_absent {s : State} {n b : Nat} (h : ∀ p ∈ s.spares, p.toNat / 256 ≠ dieOf n) (hp : s.host.present.getLsbD n = true) :
    (retireTo n b s).host.present = s.host.present &&& ~~~(BitVec.ofNat 192 (2 ^ n)) := by
  have hl : (s.spares.filter fun p => decide (p.toNat / 256 = dieOf n)) = [] :=
    List.filter_eq_nil_iff.mpr fun p hm => by simpa using h p hm
  unfold retireTo
  dsimp only
  rw [hl]
  simp [hp, State.raise, State.setHost]

end Sys2Proof.Machine
end

