-- ==== Sys2Proof/Proofs/RepairEvents.lean ====
section
/-! O54, settled: the events of repair, temperature and retirement, clause by clause. -/

namespace Sys2Proof.Machine

/-! ### What the events find -/

theorem exec_thermalStep_up {s : State} (h0 : 105 ≤ Config.hottest s.tick 0) (t0 : Config.hottest s.tick 0 < 115) (h1 : Config.hottest s.tick 1 < 105)
    (l1 : 95 < Config.hottest s.tick 1) :
    ∃ t, exec .thermalStep s = .next t ∧ t.thermal.level0 = (if s.thermal.level0 = 7 then 7 else s.thermal.level0 + 1)
      ∧ t.thermal.level1 = s.thermal.level1 ∧ t.mem = s.mem := by
  obtain ⟨ht, hm⟩ := thermalStep_up (s := s.setThermal { s.thermal with lastStep := s.now / 65536 * 65536 }) h0 t0 h1 l1
  exact ⟨thermalStep _, rfl, by rw [ht]; exact levelUp_eq _, by rw [ht]; rfl, hm⟩

theorem exec_thermalTrip_below {s : State} (ha : s.arg.a < 2) (h : s.arg.b < 115) : exec .thermalTrip s = .next s := by
  show execThermalTrip s = _
  unfold execThermalTrip
  rw [if_neg (Nat.not_le.mpr ha), thermalTrip_below (Int.ofNat_lt.mpr h)]

theorem exec_thermalTrip_first {s : State} (ha : s.arg.a = 0) (h : 115 ≤ s.arg.b) (hs : s.arg.b < 125) :
    ∃ t, exec .thermalTrip s = .next t ∧ t.thermal.level0 = 7 ∧ t.thermal.level1 = s.thermal.level1
      ∧ t.core.mat.therm = (if s.core.num < 96 then 7 else dieTherm t 1) ∧ t.core.stop = s.core.stop ∧ t.thermal.tripped = s.thermal.tripped := by
  obtain ⟨es, he⟩ := thermalTrip_first (s := s) (temp := s.arg.b) (by omega) (by omega)
  refine ⟨(applyTherm (setDieHot 0 true (setDieLevel 0 7 s))).raise es, ?_, rfl, rfl, ?_, rfl, rfl⟩
  · show execThermalTrip s = _
    unfold execThermalTrip
    rw [ha, if_neg (by decide), he]
  · exact applyTherm_core (s := setDieHot 0 true (setDieLevel 0 7 s)) rfl

theorem exec_powerCapStep_up {s : State} (ho : Config.overCap s.tick s.host.powercap.toNat = true) (h : s.thermal.cap ≠ 7) :
    ∃ t, exec .powerCapStep s = .next t ∧ t.thermal.cap = s.thermal.cap + 1 ∧ t.thermal.level0 = s.thermal.level0 ∧ t.mem = s.mem := by
  obtain ⟨es, he⟩ := powerStep_up (s := s.setThermal { s.thermal with lastCap := s.now / 2 ^ 24 * 2 ^ 24 }) ho h
  exact ⟨_, congrArg Host.Outcome.next he, rfl, rfl, rfl⟩

theorem exec_layerMapOut {s : State} (h : s.arg.a < 64) :
    ∃ t, exec .layerMapOut s = .next t ∧ t.tiers.stcap = s.tiers.stcap - 2 ^ 31 ∧ t.tiers.stlayr = s.tiers.stlayr ||| BitVec.ofNat 64 (2 ^ s.arg.a) :=
  ⟨mapOut s.arg.a s, if_neg (Nat.not_le.mpr h), by rw [mapOut_tiers, tiersWithout_stcap], by rw [mapOut_tiers, tiersWithout]⟩

/-- Settles O54: each clause by the lemma about its event. -/
theorem repairEvents : Obligations.RepairEvents := by
  unfold Obligations.RepairEvents
  refine ⟨?_, ?_, ?_, ?_, ?_, ?_, ?_, ?_, ?_, ?_, ?_, ?_, ?_, ?_, ?_, ?_, ?_, ?_, ?_, ?_, ?_, ?_, ?_, ?_, ?_, ?_⟩
  · rintro s ⟨h, hf, hb, hl⟩
    exact congrArg Host.Outcome.next (hf ▸ patrolAtom_corrected h hb hl)
  · rintro s ⟨h, hf, hb, hl⟩
    exact congrArg Host.Outcome.next (hf ▸ patrolAtom_clean h hb hl)
  · rintro s ⟨h, hx⟩
    exact congrArg Host.Outcome.next (patrolAtom_lost h hx)
  · exact fun s u => patrolLoss_unsuspected
  · exact fun s u => patrolLoss_suspects
  · exact fun s => ⟨countCorrected_stage, countBad_stage⟩
  · exact fun s u => ⟨countPass_within, countPass_end, countPass_other⟩
  · rintro s ⟨h, hl⟩
    exact congrArg Host.Outcome.next (patrolAtom_between h hl)
  · exact fun s => exec_layerMapOut
  · rintro s ⟨hf, hs⟩
    exact congrArg Host.Outcome.next (spareStageBank_free hf (spareTaken_eq_false.mpr hs))
  · intro s h
    exact congrArg Host.Outcome.next (spareStageBank_taken (h.imp_right spareTaken_eq_true.mpr))
  · rintro s ⟨hb, hs⟩
    exact congrArg Host.Outcome.next ((decide_eq_true hb ▸ spareBulkBank_boot) (spareTaken_eq_false.mpr hs))
  · rintro s ⟨hb, h⟩
    exact congrArg Host.Outcome.next (backOff_blocked hb h)
  · rintro s ⟨hb, hp, h, hm⟩
    exact congrArg Host.Outcome.next (backOff_blocks hb hp h hm)
  · rintro s ⟨hb, hp, h⟩
    exact congrArg Host.Outcome.next (backOff_passes hb hp h)
  · exact fun s _ => rfl
  · exact fun s b c => blockOver_only
  · intro r hr s h
    exact congrArg Host.Outcome.next ((copyRow_only h).trans (by rw [if_pos hr]))
  · intro s h
    exact congrArg Host.Outcome.next ((copyRow_only h).trans (by rw [if_neg (Nat.lt_irrefl _)]))
  · exact fun s h0 l0 h1 l1 =>
      congrArg Host.Outcome.next (thermalStep_keeps (s := s.setThermal { s.thermal with lastStep := s.now / 65536 * 65536 }) h0 l0 h1 l1)
  · exact fun s => exec_thermalStep_up
  · exact fun s h => exec_thermalTrip_below h.1 h.2
  · exact fun s => exec_thermalTrip_first
  · exact fun s h => congrArg Host.Outcome.next (powerStep_top (s := s.setThermal { s.thermal with lastCap := s.now / 2 ^ 24 * 2 ^ 24 }) h.1 h.2)
  · exact fun s => exec_powerCapStep_up
  · intro w n rest
    refine ⟨?_, ?_, ?_, ?_, ?_⟩
    · rintro s ⟨ha, hn, hd, hp⟩
      rw [execCoreRetire_eq ha hn hd, testCore_later hp]
    · rintro s ⟨ha, hn, hd, hp, rfl⟩
      rw [execCoreRetire_eq ha hn hd, testCore_now hp]
      rfl
    · rintro s ⟨ha, hn, hd, hp, hw, hc⟩
      rw [execCoreRetire_eq ha hn hd, testCore_now hp, retireCore_column hw, if_pos hc]
    · rintro s ⟨ha, hn, hd, hp, hw, hr⟩
      rw [execCoreRetire_eq ha hn hd, testCore_now hp, retireCore_row hw, if_pos hr]
    · intro s ha hn hd hp hw
      rw [execCoreRetire_eq ha hn hd, testCore_retires hp hw]
      refine ⟨fun h => ?_, fun h hpr => ⟨_, rfl, retireTo_absent h hpr⟩⟩
      obtain ⟨p, hm, hdie, he⟩ := retireTo_spare (s := { s with suspects := rest s }) h
      exact ⟨p, hm, hdie, congrArg Host.Outcome.next he⟩

end Sys2Proof.Machine
end

