-- ==== Sys2Proof/Proofs/WordRules.lean ====
section
/-! How a statement about a word or an event follows from what its body does: one rule for each way of stating it. -/

namespace Sys2Proof.Machine

/-! ### Words -/

/-- A body that raises a trap and keeps what it wrote: the word stalls while the trap of an earlier load is on its way (R257). -/
theorem issue_trapIn {i : Instr} {u : Use} {body : State → Eff} {s t : State} {r : TrapRec} (h : issues i u s)
    (hb : body (entered i s) = .trapIn t r) : issue i u body s = .next (if s.cur.awaitsLoad then s else trapOut r t) := by
  obtain ⟨⟨h1, h2⟩, h3⟩ := h
  have h3 : rdP (startIssue s) u.guard = true := h3
  simp [issue, issueWord, h1, h2, h3, hb]

theorem performs_of_body {i : Instr} {u : Use} {body : State → Eff} {ok : State → Prop} {eff : State → State}
    (hi : ∀ s, exec i s = issue i u body s) (hb : ∀ s, ok s → body s = .done (eff s)) : performs i u ok eff :=
  fun s hs ho => (hi s).trans (issue_done hs (hb _ ho))

theorem traps_of_body {i : Instr} {u : Use} {body : State → Eff} {bad : State → Prop} {r : State → TrapRec}
    (hi : ∀ s, exec i s = issue i u body s) (hb : ∀ s, bad s → body s = .trap (r s)) : traps i u bad r :=
  fun s hs ho => (hi s).trans (issue_trap hs (hb _ ho))

theorem trapsIn_of_body {i : Instr} {u : Use} {body : State → Eff} {bad : State → Prop} {r : State → TrapRec} {eff : State → State}
    (hi : ∀ s, exec i s = issue i u body s) (hb : ∀ s, bad s → body s = .trapIn (eff s) (r s)) : trapsIn i u bad r eff :=
  fun s hs ho => (hi s).trans (issue_trapIn hs (hb _ ho))

/-! ### Events -/

/-- The core in focus is no operand of an event. -/
theorem focus_arg {n : Nat} {s t : State} (h : focus n s = some t) : t.arg = s.arg := by
  unfold focus at h
  split at h
  · cases h; rfl
  · split at h
    · cases h; rfl
    · cases h

/-- What is performed on a core depends on the state with that core in focus alone. -/
theorem onCore_eq_of_focus {n : Nat} {f : State → State} {s t u : State} (hf : focus n s = some t) (h : f t = u) :
    onCore n f s = onCore n (fun _ => u) s := by
  simp only [onCore, hf, h]

/-- An event of a core that performs `f` there, a function of its operands, happens as `f` does. -/
theorem happensAt_of_atCore {i : Instr} {ok : State → Prop} {f : EventArg → State → State} {eff : State → State}
    (hi : ∀ s, exec i s = atCore s.arg.core (f s.arg) s) (h : ∀ t, ok t → f t.arg t = eff t) : happensAt i ok eff := by
  intro s t hf ho
  have ha : f s.arg t = eff t := by rw [← focus_arg hf, h t ho]
  rw [hi, ← onCore_eq_of_focus hf ha]
  simp only [atCore, hf]

end Sys2Proof.Machine
end

