-- ==== Sys2Proof/Proofs/ScratchpadStores.lean ====
section
/-! O10: the bytes, tags and reports that a scalar store leaves, and the words ST and STN. -/

namespace Sys2Proof.Machine

/-! ### The bytes of a scratchpad -/

/-- A byte depends on the storage and the frames alone. -/
theorem spadByte_congr {c d : CoreState} (hs : d.spad = c.spad) (hf : d.frames = c.frames) (a : Nat) : spadByte d a = spadByte c a := by
  unfold spadByte spadPhys
  rw [hs, hf]

/-- A tag depends on the tags and the frames alone. -/
theorem spadTag_congr {c d : CoreState} (ht : d.spadTags = c.spadTags) (hf : d.frames = c.frames) (a : Nat) : spadTag d a = spadTag c a := by
  unfold spadTag spadPhys
  rw [ht, hf]

theorem scratchOnly_frames {c d : CoreState} (h : scratchOnly c d) : d.frames = c.frames := (congrArg CoreState.frames h.1 :)

/-- Spoiling a sample touches the audit unit and the combs alone (R304). -/
theorem spoilSample_frame (c : CoreState) (a n : Nat) : { spoilSample c a n with audit := c.audit, mat := c.mat } = c := by
  unfold spoilSample
  split
  · rfl
  · simp only
    split <;> rfl

theorem spoilSample_byte (c : CoreState) (a n b : Nat) : spadByte (spoilSample c a n) b = spadByte c b :=
  spadByte_congr (congrArg CoreState.spad (spoilSample_frame c a n) :) (congrArg CoreState.frames (spoilSample_frame c a n) :) b

/-- A byte whose storage is not written reads as before. -/
theorem spadRaw_byte_of_ne {b : Nat} (bs : List Byte) : ∀ (c : CoreState) (a : Nat),
    (∀ k : Nat, k < bs.length → spadPhys c ((a + k) % spadSize) ≠ spadPhys c (b % spadSize)) → spadByte (spadRaw c a bs) b = spadByte c b := by
  induction bs with
  | nil => exact fun _ _ _ => rfl
  | cons x bs ih =>
    intro c a h
    have hrest : spadByte (spadRaw (spadPutByte c a x) (a + 1) bs) b = spadByte (spadPutByte c a x) b := by
      refine ih _ _ fun k hk => ?_
      rw [Nat.add_assoc, Nat.add_comm 1 k]
      exact h (k + 1) (Nat.succ_lt_succ hk)
    have hfirst : spadByte (spadPutByte c a x) b = spadByte c b := Memory.get_put_ne (h 0 (Nat.succ_pos _)).symm
    exact hrest.trans hfirst

theorem spadPutBytes_byte_of_ne {c : CoreState} {a b : Nat} {bs : List Byte}
    (h : ∀ k : Nat, k < bs.length → spadPhys c ((a + k) % spadSize) ≠ spadPhys c (b % spadSize)) :
    spadByte (spadPutBytes c a bs) b = spadByte c b := by
  have hp : ∀ x, spadPhys (spoilSample c a bs.length) x = spadPhys c x := scratchOnly_phys (spoilSample_only c a _)
  rw [spadPutBytes, spadRaw_byte_of_ne bs _ _ (by simpa only [hp] using h), spoilSample_byte]

/-- The byte written into a memory in its canonical form reads back. -/
theorem spadPutBytes_byte_self {c : CoreState} {a : Nat} {x : Byte} (h : c.spad.wf = true) : spadByte (spadPutBytes c a [x]) a = x := by
  have hs : (spoilSample c a 1).spad = c.spad := (congrArg CoreState.spad (spoilSample_frame c a 1) :)
  exact Memory.get_put (hs ▸ h)

theorem foldl_putTag_spad (t : BitVec 16) (l : List Nat) (c : CoreState) : (l.foldl (fun d x => spadPutTag d x t) c).spad = c.spad :=
  List.foldlRecOn (motive := fun d : CoreState => d.spad = c.spad) l _ rfl fun _ h _ _ => h

/-- What a store does to the tags of bad lines leaves its bytes alone. -/
theorem spadStore_byte (c : CoreState) (a : Nat) (bs : List Byte) (b : Nat) : spadByte (spadStore c a bs) b = spadByte (spadPutBytes c a bs) b :=
  spadByte_congr (foldl_putTag_spad _ _ _)
    ((scratchOnly_frames (spadStore_only c a bs)).trans (scratchOnly_frames (spadPutBytes_only c a bs)).symm) b

/-! ### The tag of a line with an uncorrectable error (R34, R101) -/

/-- A key that is given another value than the default reads as that value, whatever the form of the map. -/
theorem sparseGet_put_of_ne {α : Type} [DecidableEq α] {d v : α} (hv : v ≠ d) (m : List (Nat × α)) (k : Nat) : sparseGet d (sparsePut d m k v) k = v := by
  induction m with
  | nil => simp [sparsePut, hv, sparseGet]
  | cons p m ih =>
    simp only [sparsePut, if_neg hv]
    split
    · simp [sparseGet]
    · split
      · simp [sparseGet]
      · next hne => rw [sparseGet, if_neg (Ne.symm hne), ih]

theorem spadPutTag_tag {c : CoreState} {a : Nat} {t : BitVec 16} (h : t ≠ 0) : spadTag (spadPutTag c a t) a = t := sparseGet_put_of_ne h _ _

theorem spadStore_tag_of_bad {c : CoreState} {a : Nat} {x : Byte} (h : spadIsBad c a = true) : spadTag (spadStore c a [x]) a = poisonTag := by
  have hl : spadStore c a [x] = spadPutTag (spadPutBytes c a [x]) a poisonTag := by simp [spadStore, h]
  rw [hl, spadPutTag_tag (by decide)]

/-! ### The reports of a store (R101, R190) -/

/-- Reports leave the core alone, and keep every report made before them. -/
theorem reportLines_keeps (a n : Nat) (s : State) : (reportLines a n s).core = s.core ∧ ∀ x ∈ s.lineReports, x ∈ (reportLines a n s).lineReports := by
  refine List.foldlRecOn (motive := fun t : State => t.core = s.core ∧ ∀ x ∈ s.lineReports, x ∈ t.lineReports) _ _ ⟨rfl, fun _ => id⟩ ?_
  intro t ⟨hc, hm⟩ p _
  split
  · exact ⟨hc, fun x hx => List.mem_cons_of_mem _ (hm x hx)⟩
  · exact ⟨hc, hm⟩

theorem reportLines_core (a n : Nat) (s : State) : (reportLines a n s).core = s.core := (reportLines_keeps a n s).1

theorem reportLines_one_of_bad {a : Nat} {s : State} (h : spadIsBad s.core a = true) : reportLines a 1 s = reportLine a s := by
  have hp : cellPieces (1 / 64 + 2) a 1 = [(a, 1)] := by
    have hm : min 1 (64 - a % 64) = 1 := by omega
    simp [cellPieces, hm]
  simp [reportLines, hp, h]

/-- A store is that of the scratchpad, but for the stores that its stream may still miss. -/
theorem storeBytes_core (k : Fin 16) (a : Nat) (bs : List Byte) (s : State) :
    { (storeBytes k a bs s).core with loose := (spadStore s.core a bs).loose } = spadStore s.core a bs := by
  unfold storeBytes storedBy
  rw [reportLines_core]
  rfl

theorem storeBytes_sameScratch (k : Fin 16) (a : Nat) (bs : List Byte) (s : State) : sameScratch (storeBytes k a bs s).core (spadStore s.core a bs) :=
  have h := storeBytes_core k a bs s
  ⟨(congrArg CoreState.spad h :), (congrArg CoreState.spadTags h :), (congrArg CoreState.spadBad h :)⟩

theorem storeBytes_frames (k : Fin 16) (a : Nat) (bs : List Byte) (s : State) : (storeBytes k a bs s).core.frames = (spadStore s.core a bs).frames :=
  (congrArg CoreState.frames (storeBytes_core k a bs s) :)

theorem storeBytes_reports {k : Fin 16} {a : Nat} {bs : List Byte} {s : State} {x : Nat × Nat} (h : x ∈ s.lineReports) :
    x ∈ (storeBytes k a bs s).lineReports := (reportLines_keeps a bs.length s).2 x h

theorem storeBytes_of_bad {k : Fin 16} {a : Nat} {x : Byte} {s : State} (h : spadIsBad s.core a = true) :
    spadTag (storeBytes k a [x] s).core a = poisonTag
      ∧ (s.core.num, spadPhys s.core (a % spadSize) / 64) ∈ (storeBytes k a [x] s).lineReports := by
  constructor
  · rw [spadTag_congr (storeBytes_sameScratch k a [x] s).2.1 (storeBytes_frames k a [x] s), spadStore_tag_of_bad h]
  · show _ ∈ (reportLines a 1 s).lineReports
    rw [reportLines_one_of_bad h]
    exact List.mem_cons_self

theorem storeBytes_byte_of_ne {k : Fin 16} {a b : Nat} {bs : List Byte} {s : State}
    (h : ∀ j : Nat, j < bs.length → spadPhys s.core ((a + j) % spadSize) ≠ spadPhys s.core (b % spadSize)) :
    spadByte (storeBytes k a bs s).core b = spadByte s.core b := by
  rw [spadByte_congr (storeBytes_sameScratch k a bs s).1 (storeBytes_frames k a bs s), spadStore_byte, spadPutBytes_byte_of_ne h]

/-- The boundary after a word moves no byte. -/
theorem completed_byte (u : Use) (s : State) (b : Nat) : spadByte (completed u s).core b = spadByte s.core b := by
  unfold completed endIssue
  split <;> rfl

/-! ### The body of a store (R99, R101, Table 5-4) -/

@[simp] theorem length_bytesOfNum (n x : Nat) : (bytesOfNum n x).length = n := by
  induction n generalizing x with
  | zero => rfl
  | succ n ih => simp [bytesOfNum, ih]

theorem storeAt_done {k : Fin 16} {a : Nat} {bs : List Byte} {s : State} (h : mayAccess s a bs.length) :
    storeAt k a bs s = .done (storeBytes k a bs s) := by
  obtain ⟨ha, hp | hp⟩ := h <;> simp [storeAt, storeTrap, ha, hp]

theorem storeAt_misaligned {k : Fin 16} {a : Nat} {bs : List Byte} {s : State} (h : a % bs.length ≠ 0) :
    storeAt k a bs s = .trap (mkTrap cAlignment 0 a) := by
  simp [storeAt, storeTrap, h]

theorem storeAt_forbidden {k : Fin 16} {a : Nat} {bs : List Byte} {s : State} (ha : a % bs.length = 0) (hp : s.cur.priv = false)
    (ht : touchesSr s.core a bs.length = true) : storeAt k a bs s = .trap (mkTrap cPrivilege 0 a) := by
  simp [storeAt, storeTrap, ha, hp, ht]

/-! ### A word that is one store -/

section
variable {i : Instr} {u : Use} {k : Fin 16} {addr : State → Nat} {bytes : State → List Byte} {n : Nat}
  (hi : ∀ s, exec i s = issue i u (fun s => storeAt k (addr s) (bytes s) s) s) (hn : ∀ s, (bytes s).length = n)
include hi hn

theorem store_performs : performs i u (fun s => mayAccess s (addr s) n) (fun s => storeBytes k (addr s) (bytes s) s) :=
  performs_of_body hi fun s h => storeAt_done ((hn s).symm ▸ h)

theorem store_misaligned : traps i u (fun s => addr s % n ≠ 0) (fun s => mkTrap 0x03 0 (addr s)) :=
  traps_of_body hi fun s h => storeAt_misaligned ((hn s).symm ▸ h)

theorem store_forbidden : traps i u (fun s => addr s % n = 0 ∧ s.cur.priv = false ∧ touchesSr s.core (addr s) n = true)
    (fun s => mkTrap 0x02 0 (addr s)) :=
  traps_of_body hi fun s ⟨ha, hp, ht⟩ => storeAt_forbidden ((hn s).symm ▸ ha) hp ((hn s).symm ▸ ht)

/-- Every byte whose storage is not stored to reads as before. -/
theorem store_frame {s t : State} {b : Nat} (hs : issues i u s) (hm : mayAccess (entered i s) (addr (entered i s)) n) (ht : exec i s = .next t)
    (hb : ∀ j : Nat, j < n → spadPhys (entered i s).core ((addr (entered i s) + j) % spadSize) ≠ spadPhys (entered i s).core (b % spadSize)) :
    spadByte t.core b = spadByte (entered i s).core b := by
  obtain rfl : completed u (storeBytes k (addr (entered i s)) (bytes (entered i s)) (entered i s)) = t :=
    Host.Outcome.next.inj ((store_performs hi hn s hs hm).symm.trans ht)
  rw [completed_byte, storeBytes_byte_of_ne (by rwa [hn])]

end

/-- Settles O10: ST and STN are each one store, and the scratchpad clauses are the lemmas about `storeBytes` and `spadStore`. -/
theorem scratchpadStores : Obligations.ScratchpadStores := by
  unfold Obligations.ScratchpadStores
  refine ⟨fun o => ?_, fun o => ?_, fun k a bs s => ⟨storeBytes_sameScratch k a bs s, fun x => storeBytes_reports⟩,
    fun k a x s => storeBytes_of_bad, fun c a x h => (spadStore_byte c a [x] a).trans (spadPutBytes_byte_self h)⟩
  · have hi : ∀ s, exec (.st o) s = issue (.st o) (useStOps o)
        (fun s => storeAt o.k (scratchAddr (rdS s o.b) o.o o.z) (bytesOfNum (2 ^ o.z.val) (rdS s o.x).toNat) s) s := fun _ => rfl
    have hn : ∀ s, (bytesOfNum (2 ^ o.z.val) (rdS s o.x).toNat).length = 2 ^ o.z.val := fun _ => length_bytesOfNum _ _
    exact ⟨store_performs hi hn, store_misaligned hi hn, store_forbidden hi hn, fun s t b hs hm ht => store_frame hi hn hs hm ht⟩
  · have hi : ∀ s, exec (.stn o) s = issue (.stn o) (useStnOps o) (fun s => storeAt o.k (nibbleAddr (rdS s o.b) o.o / 2)
        [putNibble (spadRead s (nibbleAddr (rdS s o.b) o.o / 2)) (nibbleAddr (rdS s o.b) o.o % 2) (rdS s o.x).toNat] s) s := fun _ => rfl
    have hn : ∀ s, [putNibble (spadRead s (nibbleAddr (rdS s o.b) o.o / 2)) (nibbleAddr (rdS s o.b) o.o % 2) (rdS s o.x).toNat].length = 1 :=
      fun _ => rfl
    refine ⟨store_performs hi hn, fun s hs h => store_forbidden hi hn s hs ⟨Nat.mod_one _, h⟩, fun s t b hs hm ht hb => ?_⟩
    refine store_frame hi hn hs hm ht fun j hj => ?_
    obtain rfl : j = 0 := by omega
    exact hb

end Sys2Proof.Machine
end

