-- ==== Sys2Proof/Proofs/CommandRegisters.lean ====
section
/-! O25: the words that build a command in the command registers, and what a store that keeps tags leaves. -/

namespace Sys2Proof.Machine

/-! ### Command registers -/

/-- A write of one command register leaves the others (R161). -/
theorem putCw_cw (i j : Fin 16) (v : Word) (b : Nat) (s : State) :
    (putCw i v b s).core.copy.cw[j] = if j = i then { val := v, ready := s.cur.clk + b } else s.core.copy.cw[j] := by
  show (s.core.copy.cw.set i { val := v, ready := s.cur.clk + b })[j.val] = _
  rw [Vector.getElem_set]
  simp only [Fin.ext_iff, eq_comm (a := i.val)]
  rfl

/-! ### The faults of CLDC and CSTC (R162, R369) -/

theorem wordsTrap_misaligned {s : State} {a : Nat} {l : List (Fin 16 × Nat)} (h : a % 8 ≠ 0) : wordsTrap s a l = some (mkTrap cAlignment 0 a) :=
  if_pos h

/-- The first word in the supervisor region is named in the privilege trap. -/
theorem wordsTrap_forbidden {s : State} {a : Nat} {l : List (Fin 16 × Nat)} {w : Fin 16 × Nat} (ha : a % 8 = 0)
    (hw : (l.find? fun p => !s.cur.priv && touchesSr s.core p.2 8) = some w) : wordsTrap s a l = some (mkTrap cPrivilege 0 w.2) := by
  simp [wordsTrap, ha, hw]

theorem wordsTrap_none {s : State} {a : Nat} {l : List (Fin 16 × Nat)} (ha : a % 8 = 0)
    (hl : ∀ p ∈ l, s.cur.priv = true ∨ touchesSr s.core p.2 8 = false) : wordsTrap s a l = none := by
  have hw : (l.find? fun p => !s.cur.priv && touchesSr s.core p.2 8) = none := by
    rw [List.find?_eq_none]
    intro p hp
    rcases hl p hp with h | h <;> simp [h]
  simp [wordsTrap, ha, hw]

/-- The low bits of a word as a number. -/
theorem bitsOf_low {w : Nat} (x : BitVec w) (n : Nat) : bitsOf x 0 n = x.toNat % 2 ^ n := by
  simp [bitsOf, fld]

theorem wordAligned_iff (x : Word) : bitsOf x 0 22 % 8 = 0 ↔ x.toNat % 8 = 0 := by
  rw [bitsOf_low, Nat.mod_mod_of_dvd _ (by decide)]

/-- CLDC and CSTC take the fault of their words before anything else. -/
theorem words_trap {o : KRA} {bad : State → Prop} {r : State → TrapRec}
    (h : ∀ s, bad s → wordsTrap s (bitsOf (rdS s o.a) 0 22) (cwSlots o.r (bitsOf (rdS s o.a) 0 22)) = some (r s)) :
    ∀ i ∈ [Instr.cldc o, .cstc o], traps i (useKRA o) bad r := by
  intro i hi
  rw [List.mem_pair] at hi
  obtain rfl | rfl := hi
  all_goals exact traps_of_body (fun _ => rfl) fun s hs => by simp only [h s hs]

theorem words_misaligned (o : KRA) : ∀ i ∈ [Instr.cldc o, .cstc o],
    traps i (useKRA o) (fun s => (rdS s o.a).toNat % 8 ≠ 0) (fun s => mkTrap 0x03 0 ((rdS s o.a).toNat % 2 ^ 22)) :=
  words_trap fun s ha => by rw [wordsTrap_misaligned (mt (wordAligned_iff _).1 ha), bitsOf_low]; rfl

theorem words_forbidden (o : KRA) (w : Fin 16 × Nat) : ∀ i ∈ [Instr.cldc o, .cstc o], traps i (useKRA o)
    (fun s => (rdS s o.a).toNat % 8 = 0 ∧ ((cwSlots o.r ((rdS s o.a).toNat % 2 ^ 22)).find? fun p => !s.cur.priv && touchesSr s.core p.2 8) = some w)
    (fun _ => mkTrap 0x02 0 w.2) :=
  words_trap fun s ⟨ha, hw⟩ => wordsTrap_forbidden ((wordAligned_iff _).2 ha) (by rw [bitsOf_low, hw])

/-- A load that meets poison in a sound line takes the trap alone (Table 5-4). -/
theorem loadFails_poison {a x y : Nat} {s : State} (h : spadIsBad s.core a = false) : loadFails a (mkTrap cPoison x y) s = .trap (mkTrap cPoison x y) := by
  simp [loadFails, h]

/-- A load that meets an uncorrectable line reports it (Table 5-4, R190). -/
theorem loadFails_bad {a x y : Nat} {s : State} (h : spadIsBad s.core a = true) :
    loadFails a (mkTrap cPoison x y) s = .trapIn (reportLine a s) (mkTrap cPoison x y) := by
  simp [loadFails, h, mkTrap]

/-! ### A store that keeps tags (R34) -/

theorem spadRaw_tags (bs : List Byte) : ∀ (c : CoreState) (a : Nat),
    (spadRaw c a bs).spadTags = c.spadTags ∧ (spadRaw c a bs).spadBad = c.spadBad := by
  induction bs with
  | nil => exact fun _ _ => ⟨rfl, rfl⟩
  | cons x bs ih => exact fun c a => ih (spadPutByte c a x) (a + 1)

theorem spadPutBytes_tags (c : CoreState) (a : Nat) (bs : List Byte) :
    (spadPutBytes c a bs).spadTags = c.spadTags ∧ (spadPutBytes c a bs).spadBad = c.spadBad := by
  have hs := spoilSample_frame c a bs.length
  obtain ⟨ht, hb⟩ := spadRaw_tags bs (spoilSample c a bs.length) a
  exact ⟨ht.trans (congrArg CoreState.spadTags hs :), hb.trans (congrArg CoreState.spadBad hs :)⟩

/-- Settles O25: CSET, CSETI, CDIM and CFOLLOW are writes of command registers, and CLDC and CSTC go by their faults in order. -/
theorem commandRegisters : Obligations.CommandRegisters := by
  unfold Obligations.CommandRegisters
  refine ⟨fun o => ⟨?_, ?_, ?_, ?_, ?_, ?_, ?_, ?_⟩, fun o => ?_, fun o => ?_, fun o => ?_, fun k a bs s => ?_, fun i j v b s => putCw_cw i j v b s⟩
  · exact performs_of_body (fun _ => rfl) fun s _ => rfl
  · refine performs_of_body (fun _ => rfl) fun s ⟨ha, hl⟩ => ?_
    rw [← bitsOf_low] at hl ⊢
    have hp : ((cwSlots o.r (bitsOf (rdS s o.a) 0 22)).find? fun p => spadPoisoned s.core p.2) = none := by
      simpa using fun x n h => (hl (x, n) h).2
    simp only [wordsTrap_none ((wordAligned_iff _).2 ha) fun p h => (hl p h).1, hp]
  · refine performs_of_body (fun _ => rfl) fun s ⟨ha, hl, hr⟩ => ?_
    rw [← bitsOf_low] at hl hr ⊢
    have hh : (s.cur.mode && !((cwSlots o.r (bitsOf (rdS s o.a) 0 22)).all fun p => decide ((s.core.copy.cw[p.1]).ready ≤ s.cur.clk))) = false := by
      simpa using hr
    simp only [wordsTrap_none ((wordAligned_iff _).2 ha) hl, hh]
    rfl
  · exact words_misaligned o _ List.mem_cons_self
  · exact words_misaligned o _ (List.mem_cons_of_mem _ List.mem_cons_self)
  · exact words_forbidden o
  · refine fun w => traps_of_body (fun _ => rfl) fun s ⟨ha, hl, hw, hb⟩ => ?_
    rw [← bitsOf_low] at hl hw
    simp only [wordsTrap_none ((wordAligned_iff _).2 ha) hl, hw, loadFails_poison hb, hb]
    rfl
  · refine fun w => trapsIn_of_body (fun _ => rfl) fun s ⟨ha, hl, hw, hb⟩ => ?_
    rw [← bitsOf_low] at hl hw
    simp only [wordsTrap_none ((wordAligned_iff _).2 ha) hl, hw, loadFails_bad hb, hb]
    rfl
  · exact performs_of_body (fun _ => rfl) fun s _ => rfl
  · refine performs_of_body (fun _ => rfl) fun s _ => ?_
    simp only [bitsOf_low]
  · exact performs_of_body (fun _ => rfl) fun s _ => rfl
  · exact ⟨⟨rfl, rfl, rfl⟩, spadPutBytes_tags _ _ _⟩

end Sys2Proof.Machine
end

