-- ==== Sys2Proof/Proofs/TrapEvents.lean ====
section
/-! O51: the events of traps, results and walks, each as its function in Machine/System.lean and Machine/CopyRun.lean performs it. -/

namespace Sys2Proof.Machine

/-! ### Traps at boundaries (R373-R376) -/

theorem remoteOf_of_notWaiting {s : State} {t : Sec} (h : waitsOn s t = none) : remoteOf s t = none := by
  unfold remoteOf
  rw [h]

/-- A trap that no remote answer holds back is taken at once (R136). -/
theorem whenAnswered_now {t : Sec} {taken : State → State} {s : State} (h : remoteOf s t = none) : whenAnswered t taken s = taken s := by
  simp [whenAnswered, h]

theorem canTake_iff (s : State) (t : Sec) (r : TrapRec) : canTake s t r = true ↔ isStarted s t = true
    ∧ ((s.str t).flds = [] ∨ (r.cause = 0x11 ∧ ∀ f ∈ (s.str t).flds, f.late = true)) := by
  simp only [canTake, atBoundary, Bool.or_eq_true, Bool.and_eq_true, List.isEmpty_iff, decide_eq_true_eq, List.all_eq_true, and_assoc, and_or_left]
  rfl

theorem takeDeferred_nil {s : State} {t : Sec} (h : (s.str t).deferred = []) : takeDeferred t s = s := by
  unfold takeDeferred
  rw [h]

theorem takeDeferred_notYet {s : State} {t : Sec} {r : Deferred} {l : List Deferred} (h : (s.str t).deferred = r :: l)
    (hc : canTake s t r.record = false) : takeDeferred t s = s := by
  simp [takeDeferred, h, hc]

/-- The oldest trap set aside is taken, at its own pc where it has one. -/
theorem takeDeferred_now {s : State} {t : Sec} {r : Deferred} {l : List Deferred} (h : (s.str t).deferred = r :: l)
    (hc : canTake s t r.record = true) (hr : remoteOf s t = none) (hm : isMatrixRec r.record = false) :
    takeDeferred t s = takeTrap t r.record (r.pc.getD (s.str t).pc) (s.onStr t fun st => { st with deferred := l }) := by
  simp [takeDeferred, h, hc, whenAnswered_now hr, hm]

theorem expireWatchdog_due {s : State} (h0 : s.core.wdog ≠ 0) (h : s.core.wdog.toNat ≤ s.now) (hp : s.core.pendWatchdog = none) :
    expireWatchdog s = s.setCore { s.core with pendWatchdog := some s.core.wdog, wdog := 0 } := by
  rw [expireWatchdog, if_pos ⟨h0, h⟩, hp]
  rfl

theorem expireWatchdog_notYet {s : State} (h : s.core.wdog = 0 ∨ s.now < s.core.wdog.toNat) : expireWatchdog s = s :=
  if_neg fun ⟨h0, hl⟩ => h.elim h0 (Nat.not_lt.mpr hl)

/-! ### Asynchronous causes (R375) -/

theorem nextAsync_watchdog {s : State} {c : Word} (h : s.core.pendWatchdog = some c) :
    nextAsync s = some (mkTrap cWatchdog 0 c.toNat, s.setCore { s.core with pendWatchdog := none }) := by
  simp [nextAsync, h]

/-- The host interrupt is delivered when no other cause pends. -/
theorem nextAsync_host {s : State} {v : BitVec 32} (hw : s.core.pendWatchdog = none) (hr : s.core.audit.replicaPend = none)
    (hp : parkedFirst s = none) (hf : foragerPending s s.core.num = none) (ha : s.core.audit.pend = false)
    (hq : s.core.pendPreempt = false) (hh : s.core.pendHost = some v) :
    nextAsync s = some (mkTrap cHost v.toNat 0, s.setCore { s.core with pendHost := none }) := by
  simp [nextAsync, hw, hr, hp, hf, ha, hq, hh]

/-- With no wait of the ctl stream, and no divergence for the host, the cause first in order is taken. -/
theorem deliverAsync_takes {s s1 : State} {r : TrapRec} (hw : waitsOn s .ctl = none) (ha : s.core.audit.pend = false ∨ s.core.audit.owner ≠ 2)
    (hc : canDeliver s = true) (hn : nextAsync s = some (r, s1)) : deliverAsync s = takeTrap .ctl r (s1.str .ctl).pc s1 := by
  have hd : (s.core.audit.pend && s.core.audit.owner == 2) = false := by simpa [Classical.or_iff_not_imp_left] using ha
  have hh : (decide (waitsOn s .ctl = some .halt) && decide (spend s ≠ 0)) = false := by simp [hw]
  simp only [deliverAsync, hh, hd, hc, hn, whenAnswered_now (remoteOf_of_notWaiting hw)]
  rfl

theorem deliverAsync_privileged {s : State} (hp : (s.str .ctl).priv = true) (hw : waitsOn s .ctl = none) (ha : s.core.audit.pend = false) :
    deliverAsync s = s := by
  simp [deliverAsync, hw, ha, canDeliver, hp]

/-! ### Results (R48, R104, R257) -/

/-- A far load whose data is sound fills the slots that wait for it. -/
theorem landFld_sound {s : State} {id : Nat} {f : Fld} (h : s.core.streams.ctl.flds.find? (fun f => decide (f.id = id)) = some f)
    (hb : f.bad = false) : landFld id s = s.onStr .ctl fun st => { st with
      job := fillBank id f.val st.clk st.job, sup := fillBank id f.val st.clk st.sup, flds := st.flds.filter fun g => g.id != id } := by
  simp [landFld, h, hb]

/-- One whose data is uncorrectable sets its poison trap aside too, at the pc of the load (log entry 21). -/
theorem landFld_bad {s : State} {id : Nat} {f : Fld} (h : s.core.streams.ctl.flds.find? (fun f => decide (f.id = id)) = some f)
    (hb : f.bad = true) : landFld id s = s.onStr .ctl fun st => { st with
      job := fillBank id f.val st.clk st.job, sup := fillBank id f.val st.clk st.sup, flds := st.flds.filter fun g => g.id != id
      deferred := st.deferred ++ [{ record := mkTrap cPoison 1 (f.va / 64 * 64), pc := some f.pc }] } := by
  simp [landFld, h, hb]

/-- What RESULT_LAND performs with its core in focus. -/
def landEvent (x : EventArg) (s : State) : State := if x.sec = .ctl then landFld x.a s else landResult x.a x.sec s

theorem landResult_lands {s : State} {t : Sec} {i : Nat} {l : Landing} (h : (s.str t).landing[i]? = some l) :
    landResult i t s = s.onStr t fun st => { st with
      ncs := st.ncs.accrue l.flags, landing := st.landing.eraseIdx i, deferred := st.deferred ++ l.setAside.toList } := by
  simp [landResult, h]

/-! ### Walks (R388, R391) -/

theorem walked_core (die : Nat) (w : WalkTrace) (s : State) : (walked die w s).core = s.core := by
  obtain ⟨_, _, _, _, _, he⟩ := foldl_onlyCounts (fun s a => countPhysical_onlyCounts a 8 s) w.reads s
  unfold walked fillWalk
  rw [he]
  split <;> rfl

theorem endWalk_beyond {s : State} {va kind : Nat} (h : 2 ^ 56 ≤ va) : endWalk va kind s = s := if_pos h

/-- A walk of kind 1 that finds a leaf fills the TLB of the die. -/
theorem endWalk_leaf {s : State} {va level : Nat} {pte : Word} (hv : va < 2 ^ 56)
    (hl : walkFrom s (dieOf s.core.num) s.core.asid va 3 (bitsOf s.core.ptroot 14 50 * 2 ^ 14) = .leaf level pte) :
    endWalk va 1 s = fillDie (dieOf s.core.num)
      (walked (dieOf s.core.num) (walkTrace s (dieOf s.core.num) s.core.asid va 3 (bitsOf s.core.ptroot 14 50 * 2 ^ 14)) s)
      { asid := s.core.asid, va := va / pageSize level * pageSize level, level := level, pte := pte } := by
  unfold endWalk
  rw [if_neg (Nat.not_le.mpr hv)]
  simp only [walkFrom] at hl
  simp only [hl, walked_core]
  rfl

/-- Settles O51: each clause is the lemma about its function, with the core of the event in focus. -/
theorem trapEvents : Obligations.TrapEvents := by
  unfold Obligations.TrapEvents
  refine ⟨fun r l => ?_, fun r l => ?_, ?_, canTake_iff, fun c => ?_, ?_, ?_, ?_, fun c => ?_, fun v => ?_, ?_, fun f => ?_, fun f => ?_,
    fun l => ⟨?_, fun r => ?_⟩, fun level pte => ?_, ?_⟩
  · exact happensAt_of_atCore (f := fun x => takeDeferred x.sec) (fun _ => rfl) fun t ⟨hd, hc, hr, hm⟩ => takeDeferred_now hd hc hr hm
  · exact happensAt_of_atCore (f := fun x => takeDeferred x.sec) (fun _ => rfl) fun t ⟨hd, hc⟩ => takeDeferred_notYet hd hc
  · exact happensAt_of_atCore (f := fun x => takeDeferred x.sec) (fun _ => rfl) fun t hd => takeDeferred_nil hd
  · refine happensAt_of_atCore (f := fun _ => expireWatchdog) (fun _ => rfl) ?_
    rintro t ⟨rfl, h0, hl, hp⟩
    exact expireWatchdog_due h0 hl hp
  · exact happensAt_of_atCore (f := fun _ => expireWatchdog) (fun _ => rfl) fun t => expireWatchdog_notYet
  · exact happensAt_of_atCore (f := fun x => ringDoorbell x.a) (fun _ => rfl) fun t h => if_pos h
  · exact happensAt_of_atCore (f := fun x => ringDoorbell x.a) (fun _ => rfl) fun t h => if_neg (by simp [h])
  · exact happensAt_of_atCore (f := fun _ => deliverAsync) (fun _ => rfl) fun t ⟨hw, ha, hc, hp⟩ =>
      deliverAsync_takes hw ha hc (nextAsync_watchdog hp)
  · exact happensAt_of_atCore (f := fun _ => deliverAsync) (fun _ => rfl) fun t ⟨hw, hc, hp, hr, hk, hf, ha, hq, hh⟩ =>
      deliverAsync_takes hw (.inl ha) hc (nextAsync_host hp hr hk hf ha hq hh)
  · exact happensAt_of_atCore (f := fun _ => deliverAsync) (fun _ => rfl) fun t ⟨hp, hw, ha⟩ => deliverAsync_privileged hp hw ha
  · exact happensAt_of_atCore (f := landEvent) (fun _ => rfl) fun t ⟨ht, hf, hb⟩ => (if_pos ht).trans (landFld_sound hf hb)
  · exact happensAt_of_atCore (f := landEvent) (fun _ => rfl) fun t ⟨ht, hf, hb⟩ => (if_pos ht).trans (landFld_bad hf hb)
  · refine happensAt_of_atCore (f := landEvent) (fun _ => rfl) fun t ⟨ht, hl, hr⟩ => (if_neg ht).trans ?_
    simp [landResult_lands hl, Landing.setAside, hr]
  · refine happensAt_of_atCore (f := landEvent) (fun _ => rfl) fun t ⟨ht, hl, hr⟩ => (if_neg ht).trans ?_
    simp [landResult_lands hl, Landing.setAside, hr]
  · refine happensAt_of_atCore (f := fun x => endWalk x.a x.b) (fun _ => rfl) fun t ⟨hv, hl, hk⟩ => ?_
    rw [hk, endWalk_leaf hv hl]
  · exact happensAt_of_atCore (f := fun x => endWalk x.a x.b) (fun _ => rfl) fun t h => endWalk_beyond h

end Sys2Proof.Machine
end

