-- ==== Sys2Proof/Proofs/OperandCodes.lean ====
section
/-! Operand codes (R54, R55, R57): a code is read as an operand exactly when it is the code of that operand, and fits its field. -/

namespace Sys2Proof

/-! ### Reading operands in sequence -/

@[simp] theorem pure_eq_ok {α : Type} (a : α) : (pure a : Except DecodeError α) = .ok a := rfl

@[simp] theorem bind_eq_ok_iff {α β : Type} {x : Except DecodeError α} {f : α → Except DecodeError β} {b : β} :
    x >>= f = .ok b ↔ ∃ a, x = .ok a ∧ f a = .ok b := by
  cases x <;> simp [bind, Except.bind]

theorem map_eq_ok_iff {α β : Type} {x : Except DecodeError α} {c : α → β} {b : β} : x.map c = .ok b ↔ ∃ a, x = .ok a ∧ c a = b := by
  cases x <;> simp [Except.map]

/-- Operands that are read and pass a check of their own. -/
theorem bind_ite_eq_ok_iff {α β : Type} {x : Except DecodeError α} {p : α → Prop} [DecidablePred p] {c : α → β} {e : DecodeError} {b : β} :
    (x.bind fun a => if p a then .ok (c a) else .error e) = .ok b ↔ ∃ a, x = .ok a ∧ p a ∧ c a = b := by
  cases x with
  | error e => simp [Except.bind]
  | ok a => by_cases h : p a <;> simp [Except.bind, h]

/-- Operands that are read and are not those that a check refuses. -/
theorem bind_ite_not_eq_ok_iff {α β : Type} {x : Except DecodeError α} {p : α → Prop} [DecidablePred p] {c : α → β} {e : DecodeError}
    {b : β} :
    (x.bind fun a => if p a then .error e else .ok (c a)) = .ok b ↔ ∃ a, x = .ok a ∧ ¬ p a ∧ c a = b := by
  simpa only [ite_not] using bind_ite_eq_ok_iff (x := x) (p := fun a => ¬ p a) (c := c) (e := e)

theorem whenZero_eq_ok_iff {α : Type} {w : Nat} {fs : List (Nat × Nat)} {x : Except DecodeError α} {a : α} :
    whenZero w fs x = .ok a ↔ (∀ g ∈ fs, fld w g.1 g.2 = 0) ∧ x = .ok a := by
  unfold whenZero
  split <;> simp_all

/-! ### Fields that hold a number -/

theorem fld_lt (w lo n : Nat) : fld w lo n < 2 ^ n := Nat.mod_lt _ (Nat.two_pow_pos n)

/-- A field of no bits. -/
theorem fld_zero (w lo : Nat) : fld w lo 0 = 0 := Nat.mod_one _

theorem ite_eq_toNat (b : Bool) : (if b then 1 else 0) = b.toNat := by cases b <;> rfl

@[simp] theorem flag_eq_iff (w lo : Nat) (b : Bool) : flag w lo = b ↔ fld w lo 1 = b.toNat := by
  have h : fld w lo 1 = 0 ∨ fld w lo 1 = 1 := Nat.mod_two_eq_zero_or_one _
  rcases h with h | h <;> cases b <;> simp [flag, h]

@[simp] theorem ofNat_fld_eq_iff {n : Nat} (w lo : Nat) (v : BitVec n) : BitVec.ofNat n (fld w lo n) = v ↔ fld w lo n = v.toNat := by
  rw [← BitVec.toNat_inj, BitVec.toNat_ofNat, Nat.mod_eq_of_lt (fld_lt w lo n)]

theorem toNat_lt_of_le {n k : Nat} (v : BitVec n) (h : 2 ^ n ≤ k) : v.toNat < k := Nat.lt_of_lt_of_le v.isLt h

@[simp] theorem lit_eq_ok_iff {n x : Nat} (i : Fin n) : lit n x = .ok i ↔ x = i.val := by
  unfold lit
  split
  · simp [Fin.ext_iff]
  · have := i.isLt
    simp
    omega

@[simp] theorem even_eq_ok_iff {n base x : Nat} (i : Fin n) (hb : base % 2 = 0) : even n base x = .ok i ↔ x = base + 2 * i.val := by
  unfold even
  split
  · simp
    omega
  · rw [lit_eq_ok_iff]
    omega

/-! ### Codes of registers and scopes -/

@[simp] theorem ssrc_eq_ok_iff {x : Nat} {a : SSrc} : ssrc x = .ok a ↔ x = ssrcCode a := by
  constructor
  · unfold ssrc
    split
    · rintro ⟨⟩; rfl
    · split
      · rintro ⟨⟩; simp only [ssrcCode]; omega
      · exact nofun
  · rintro rfl
    cases a <;> simp [ssrc, ssrcCode]

@[simp] theorem sdst_eq_ok_iff {x : Nat} {d : SDst} : sdst x = .ok d ↔ x = sdstCode d := by
  constructor
  · unfold sdst
    split
    · rintro ⟨⟩; assumption
    · split
      · exact nofun
      · split
        · rintro ⟨⟩; simp only [sdstCode]; omega
        · exact nofun
  · rintro rfl
    cases d <;> simp [sdst, sdstCode]

@[simp] theorem vsrc_eq_ok_iff {x : Nat} {a : VSrc} : vsrc x = .ok a ↔ x = vsrcCode a := by
  constructor
  · unfold vsrc
    split
    · rintro ⟨⟩; rfl
    · split
      · rintro ⟨⟩; simp only [vsrcCode]; omega
      · split
        · rintro ⟨⟩; assumption
        · split
          · rintro ⟨⟩; assumption
          · exact nofun
  · rintro rfl
    cases a <;> simp [vsrc, vsrcCode]

@[simp] theorem vdst_eq_ok_iff {x : Nat} {d : VDst} : vdst x = .ok d ↔ x = vdstCode d := by
  constructor
  · unfold vdst
    split
    · rintro ⟨⟩; assumption
    · split
      · exact nofun
      · split
        · rintro ⟨⟩; simp only [vdstCode]; omega
        · exact nofun
  · rintro rfl
    cases d <;> simp [vdst, vdstCode]

@[simp] theorem scope_scopeCode (c : Scope) : scope (scopeCode c) = .ok c := by cases c <;> rfl

@[simp] theorem scope_eq_ok_iff {x : Nat} {c : Scope} : scope x = .ok c ↔ x = scopeCode c := by
  refine ⟨?_, fun h => h ▸ scope_scopeCode c⟩
  unfold scope
  split <;> intro h <;> cases h <;> rfl

@[simp] theorem ssrcCode_lt (a : SSrc) {k : Nat} (h : 32 ≤ k) : ssrcCode a < k := by cases a <;> simp only [ssrcCode] <;> omega
@[simp] theorem sdstCode_lt (d : SDst) {k : Nat} (h : 32 ≤ k) : sdstCode d < k := by cases d <;> simp only [sdstCode] <;> omega
@[simp] theorem vsrcCode_lt (a : VSrc) : vsrcCode a < 64 := by cases a <;> simp only [vsrcCode] <;> omega
@[simp] theorem vdstCode_lt (d : VDst) : vdstCode d < 64 := by cases d <;> simp only [vdstCode] <;> omega
@[simp] theorem scopeCode_lt (c : Scope) : scopeCode c < 8 := by cases c <;> decide

end Sys2Proof
end

