-- ==== Sys2Proof/Proofs/Formats.lean ====
section
/-! The instruction formats (R52, R53): for each operand structure the layout of its fields, and that a word is made of the bits of the
operands exactly when it reads as them. -/

namespace Sys2Proof

/-! ### Words as a row of fields -/

/-- The fields of a word from bit 0 up, each as its width and its value. -/
abbrev Layout := List (Nat × Nat)

/-- The number that the fields make. -/
def Layout.value : Layout → Nat
  | [] => 0
  | (n, v) :: fs => v + 2 ^ n * Layout.value fs

/-- The bits that the fields take. -/
def Layout.width : Layout → Nat
  | [] => 0
  | (n, _) :: fs => n + Layout.width fs

/-- The bits of `w` from bit `lo` up hold the fields. -/
def Layout.heldBy (w : Nat) : Nat → Layout → Prop
  | _, [] => True
  | lo, (n, v) :: fs => fld w lo n = v ∧ Layout.heldBy w (lo + n) fs

theorem eq_add_mul_iff {x v p n : Nat} (hv : v < 2 ^ n) : x = v + 2 ^ n * p ↔ x % 2 ^ n = v ∧ x / 2 ^ n = p := by
  constructor
  · rintro rfl
    exact ⟨by rw [Nat.add_mul_mod_self_left, Nat.mod_eq_of_lt hv],
      by rw [Nat.add_mul_div_left _ _ (Nat.two_pow_pos n), Nat.div_eq_of_lt hv, Nat.zero_add]⟩
  · rintro ⟨rfl, rfl⟩
    exact (Nat.mod_add_div x (2 ^ n)).symm

/-- The bits from `lo` up are a number made of fields that fit exactly when they hold each of them, and nothing above. -/
theorem div_eq_value_iff {l : Layout} (hfit : ∀ f ∈ l, f.2 < 2 ^ f.1) (w lo : Nat) :
    w / 2 ^ lo = l.value ↔ w < 2 ^ (lo + l.width) ∧ l.heldBy w lo := by
  induction l generalizing lo with
  | nil => simp [Layout.value, Layout.width, Layout.heldBy, Nat.div_eq_zero_iff]
  | cons f l ih =>
    obtain ⟨n, v⟩ := f
    have hrest := ih (fun g hg => hfit g (List.mem_cons_of_mem _ hg)) (lo + n)
    rw [Nat.pow_add, ← Nat.div_div_eq_div_mul, Nat.add_assoc] at hrest
    simp only [Layout.value, Layout.width, Layout.heldBy, eq_add_mul_iff (hfit (n, v) List.mem_cons_self), hrest, fld]
    exact and_left_comm

theorem eq_value_iff {l : Layout} (hfit : ∀ f ∈ l, f.2 < 2 ^ f.1) (w : Nat) : w = l.value ↔ w < 2 ^ l.width ∧ l.heldBy w 0 := by
  simpa using div_eq_value_iff hfit w 0

/-! ### What it is for a reader and a writer of operands to agree -/

/-- A word of major `m`, with `f` in its function field of `n` bits at `lo` and the bits of operands `o`, is one whose major and function read so,
whose reserved fields are zero, and whose operands read as `o`. -/
def RoundTrip {α : Type} (get : Nat → Except DecodeError α) (put : α → Nat) (lo n : Nat) (reserved : List (Nat × Nat)) : Prop :=
  ∀ (o : α) (m f w : Nat), m < 64 → f < 2 ^ n →
    (w = m * 2 ^ 25 + f * 2 ^ lo + put o ↔
      w < 2 ^ 32 ∧ fld w 25 6 = m ∧ fld w lo n = f ∧ (∀ g ∈ reserved, fld w g.1 g.2 = 0) ∧ get w = .ok o)

/-- A layout that is the sum of the encoding, and that holds when the decoder reads the operands, makes the two agree. -/
theorem roundTrip_of_layout {α : Type} {get : Nat → Except DecodeError α} {put : α → Nat} {lo n : Nat} {reserved : List (Nat × Nat)}
    (layout : α → Nat → Nat → Layout)
    (hput : ∀ o m f, m * 2 ^ 25 + f * 2 ^ lo + put o = (layout o m f).value)
    (hfit : ∀ o m f, m < 64 → f < 2 ^ n → ∀ g ∈ layout o m f, g.2 < 2 ^ g.1)
    (hget : ∀ o m f w, w < 2 ^ (layout o m f).width ∧ (layout o m f).heldBy w 0 ↔
      w < 2 ^ 32 ∧ fld w 25 6 = m ∧ fld w lo n = f ∧ (∀ g ∈ reserved, fld w g.1 g.2 = 0) ∧ get w = .ok o) :
    RoundTrip get put lo n reserved := by
  intro o m f w hm hf
  rw [hput o m f, eq_value_iff (hfit o m f hm hf), hget o m f w]

section
variable {α : Type} {get : Nat → Except DecodeError α} {put : α → Nat} {lo n : Nat} {reserved : List (Nat × Nat)} {w : Nat} {o : α}

/-- The word that operands were read from. -/
theorem RoundTrip.word {m f : Nat} (R : RoundTrip get put lo n reserved) (hw : w < 2 ^ 32) (hm : fld w 25 6 = m) (hf : fld w lo n = f)
    (hr : ∀ g ∈ reserved, fld w g.1 g.2 = 0) (ho : get w = .ok o) : w = m * 2 ^ 25 + f * 2 ^ lo + put o :=
  (R o m f w (hm ▸ fld_lt w 25 6) (hf ▸ fld_lt w lo n)).2 ⟨hw, hm, hf, hr, ho⟩

/-- What is read from a word made of operands and of bits `b` of a major and a function. -/
theorem RoundTrip.read {b : Nat} (R : RoundTrip get put lo n reserved) (h : some (b + put o) = some w)
    (hb : b = b / 2 ^ 25 * 2 ^ 25 + b / 2 ^ lo % 2 ^ n * 2 ^ lo ∧ b < 2 ^ 31) :
    w < 2 ^ 32 ∧ fld w 25 6 = b / 2 ^ 25 ∧ fld w lo n = b / 2 ^ lo % 2 ^ n ∧ (∀ g ∈ reserved, fld w g.1 g.2 = 0) ∧ get w = .ok o := by
  obtain ⟨hb, hlt⟩ := hb
  refine (R o _ _ w (by omega) (Nat.mod_lt _ (Nat.two_pow_pos n))).1 ?_
  rw [← hb]
  exact (Option.some.inj h).symm

end

/-! ### The layouts of the operand structures (Table 3-1, R53) -/

theorem roundTrip_DABP : RoundTrip getDABP putDABP 0 6 [] :=
  roundTrip_of_layout (fun o m f => [(6, f), (4, o.p), (5, ssrcCode o.b), (5, ssrcCode o.a), (5, sdstCode o.d), (6, m), (1, o.s.toNat)])
    (fun o m f => by simp only [Layout.value, putDABP, ite_eq_toNat]; omega) (fun o m f hm hf => by simp_all [Bool.toNat_le])
    fun o m f w => by cases o; simp [Layout.width, Layout.heldBy, getDABP]; tauto

theorem roundTrip_DAP : RoundTrip getDAP putDAP 0 6 [(10, 5)] :=
  roundTrip_of_layout (fun o m f => [(6, f), (4, o.p), (5, 0), (5, ssrcCode o.a), (5, sdstCode o.d), (6, m), (1, o.s.toNat)])
    (fun o m f => by simp only [Layout.value, putDAP, ite_eq_toNat]; omega) (fun o m f hm hf => by simp_all [Bool.toNat_le])
    fun o m f w => by cases o; simp [Layout.width, Layout.heldBy, getDAP]; tauto

theorem roundTrip_DP : RoundTrip getDP putDP 0 6 [(10, 10)] :=
  roundTrip_of_layout (fun o m f => [(6, f), (4, o.p), (10, 0), (5, sdstCode o.d), (6, m), (1, o.s.toNat)])
    (fun o m f => by simp only [Layout.value, putDP, ite_eq_toNat]; omega) (fun o m f hm hf => by simp_all [Bool.toNat_le])
    fun o m f w => by cases o; simp [Layout.width, Layout.heldBy, getDP]; tauto

theorem roundTrip_ABP : RoundTrip getABP putABP 0 6 [(20, 5)] :=
  roundTrip_of_layout (fun o m f => [(6, f), (4, o.p), (5, ssrcCode o.b), (5, ssrcCode o.a), (5, 0), (6, m), (1, o.s.toNat)])
    (fun o m f => by simp only [Layout.value, putABP, ite_eq_toNat]; omega) (fun o m f hm hf => by simp_all [Bool.toNat_le])
    fun o m f w => by cases o; simp [Layout.width, Layout.heldBy, getABP]; tauto

theorem roundTrip_AP : RoundTrip getAP putAP 0 6 [(10, 5), (20, 5)] :=
  roundTrip_of_layout (fun o m f => [(6, f), (4, o.p), (5, 0), (5, ssrcCode o.a), (5, 0), (6, m), (1, o.s.toNat)])
    (fun o m f => by simp only [Layout.value, putAP, ite_eq_toNat]; omega) (fun o m f hm hf => by simp_all [Bool.toNat_le])
    fun o m f w => by cases o; simp [Layout.width, Layout.heldBy, getAP]; tauto

theorem roundTrip_GP : RoundTrip getGP putGP 0 6 [(10, 15)] :=
  roundTrip_of_layout (fun o m f => [(6, f), (4, o.p), (15, 0), (6, m), (1, o.s.toNat)])
    (fun o m f => by simp only [Layout.value, putGP, ite_eq_toNat]; omega) (fun o m f hm hf => by simp_all [Bool.toNat_le])
    fun o m f w => by cases o; simp [Layout.width, Layout.heldBy, getGP]; tauto

theorem roundTrip_CmpOps : RoundTrip getCmpOps putCmpOps 0 0 [(24, 1)] :=
  roundTrip_of_layout (fun o m f => [(0, f), (6, o.c), (4, o.p), (5, ssrcCode o.b), (5, ssrcCode o.a), (4, o.pd), (1, 0),
      (6, m), (1, o.s.toNat)])
    (fun o m f => by simp only [Layout.value, putCmpOps, ite_eq_toNat]; omega)
    (fun o m f hm hf => by simp_all [Bool.toNat_le, Fin.val_lt_of_le])
    fun o m f w => by cases o; simp [Layout.width, Layout.heldBy, getCmpOps]; tauto

theorem roundTrip_PlogOps : RoundTrip getPlogOps putPlogOps 4 2 [] :=
  roundTrip_of_layout (fun o m f => [(4, o.t.toNat), (2, f), (4, o.p), (5, o.pb), (5, o.pa), (5, o.pd), (6, m), (1, o.s.toNat)])
    (fun o m f => by simp only [Layout.value, putPlogOps, ite_eq_toNat]; omega)
    (fun o m f hm hf => by simp_all [Bool.toNat_le, Fin.val_lt_of_le, toNat_lt_of_le])
    fun o m f w => by cases o; simp [Layout.width, Layout.heldBy, getPlogOps]; tauto

theorem roundTrip_SelOps : RoundTrip getSelOps putSelOps 4 2 [] :=
  roundTrip_of_layout (fun o m f => [(4, o.t), (2, f), (4, o.p), (5, ssrcCode o.b), (5, ssrcCode o.a), (5, sdstCode o.d),
      (6, m), (1, o.s.toNat)])
    (fun o m f => by simp only [Layout.value, putSelOps, ite_eq_toNat]; omega) (fun o m f hm hf => by simp_all [Bool.toNat_le])
    fun o m f w => by cases o; simp [Layout.width, Layout.heldBy, getSelOps]; tauto

theorem roundTrip_TrapOps : RoundTrip getTrapOps putTrapOps 0 6 [(15, 10)] :=
  roundTrip_of_layout (fun o m f => [(6, f), (4, o.p), (5, o.n), (10, 0), (6, m), (1, o.s.toNat)])
    (fun o m f => by simp only [Layout.value, putTrapOps, ite_eq_toNat]; omega) (fun o m f hm hf => by simp_all [Bool.toNat_le])
    fun o m f w => by cases o; simp [Layout.width, Layout.heldBy, getTrapOps]; tauto

theorem roundTrip_ModeOps : RoundTrip getModeOps putModeOps 0 6 [(11, 14)] :=
  roundTrip_of_layout (fun o m f => [(6, f), (4, o.p), (1, o.l.toNat), (14, 0), (6, m), (1, o.s.toNat)])
    (fun o m f => by simp only [Layout.value, putModeOps, ite_eq_toNat]; omega) (fun o m f hm hf => by simp_all [Bool.toNat_le])
    fun o m f w => by cases o; simp [Layout.width, Layout.heldBy, getModeOps]; tauto

theorem roundTrip_DAI : RoundTrip getDAI putDAI 0 0 [] :=
  roundTrip_of_layout (fun o m f => [(0, f), (11, o.i.toNat), (4, o.p), (5, ssrcCode o.a), (5, sdstCode o.d), (6, m), (1, o.s.toNat)])
    (fun o m f => by simp only [Layout.value, putDAI, ite_eq_toNat]; omega) (fun o m f hm hf => by simp_all [Bool.toNat_le, toNat_lt_of_le])
    fun o m f w => by cases o; simp [Layout.width, Layout.heldBy, getDAI]; tauto

theorem roundTrip_DAH : RoundTrip getDAH putDAH 9 2 [(6, 3)] :=
  roundTrip_of_layout (fun o m f => [(6, o.h), (3, 0), (2, f), (4, o.p), (5, ssrcCode o.a), (5, sdstCode o.d), (6, m), (1, o.s.toNat)])
    (fun o m f => by simp only [Layout.value, putDAH, ite_eq_toNat]; omega) (fun o m f hm hf => by simp_all [Bool.toNat_le])
    fun o m f w => by cases o; simp [Layout.width, Layout.heldBy, getDAH]; tauto

theorem roundTrip_BfOps : RoundTrip getBfOps putBfOps 0 0 [] :=
  roundTrip_of_layout (fun o m f => [(0, f), (5, o.w), (6, o.o), (4, o.p), (5, ssrcCode o.a), (5, sdstCode o.d), (6, m), (1, o.s.toNat)])
    (fun o m f => by simp only [Layout.value, putBfOps, ite_eq_toNat]; omega) (fun o m f hm hf => by simp_all [Bool.toNat_le])
    fun o m f w => by cases o; simp [Layout.width, Layout.heldBy, getBfOps]; tauto

theorem roundTrip_CmpiOps : RoundTrip getCmpiOps putCmpiOps 0 0 [(24, 1)] :=
  roundTrip_of_layout (fun o m f => [(0, f), (8, o.i.toNat), (3, o.c), (4, o.p), (5, ssrcCode o.a), (4, o.pd), (1, 0), (6,
      m), (1, o.s.toNat)])
    (fun o m f => by simp only [Layout.value, putCmpiOps, ite_eq_toNat]; omega)
    (fun o m f hm hf => by simp_all [Bool.toNat_le, Fin.val_lt_of_le, toNat_lt_of_le])
    fun o m f w => by cases o; simp [Layout.width, Layout.heldBy, getCmpiOps]; tauto

theorem roundTrip_DI : RoundTrip getDI putDI 0 0 [] :=
  roundTrip_of_layout (fun o m f => [(0, f), (20, o.i.toNat), (5, sdstCode o.d), (6, m), (1, o.s.toNat)])
    (fun o m f => by simp only [Layout.value, putDI, ite_eq_toNat]; omega) (fun o m f hm hf => by simp_all [Bool.toNat_le, toNat_lt_of_le])
    fun o m f w => by cases o; simp [Layout.width, Layout.heldBy, getDI]; tauto

theorem roundTrip_FenceOps : RoundTrip getFenceOps putFenceOps 0 0 [(0, 1), (20, 5)] :=
  roundTrip_of_layout (fun o m f => [(0, f), (1, 0), (3, scopeCode o.c), (16, o.m.toNat), (5, 0), (6, m), (1, o.s.toNat)])
    (fun o m f => by simp only [Layout.value, putFenceOps, ite_eq_toNat]; omega)
    (fun o m f hm hf => by simp_all [Bool.toNat_le, toNat_lt_of_le])
    fun o m f w => by cases o; simp [Layout.width, Layout.heldBy, getFenceOps]; tauto

theorem roundTrip_BOps : RoundTrip getBOps putBOps 0 0 [] :=
  roundTrip_of_layout (fun o m f => [(0, f), (20, o.o.toNat), (1, o.n.toNat), (4, o.p), (6, m), (1, o.s.toNat)])
    (fun o m f => by simp only [Layout.value, putBOps, ite_eq_toNat]; omega)
    (fun o m f hm hf => by simp_all [Bool.toNat_le, toNat_lt_of_le])
    fun o m f w => by cases o; simp [Layout.width, Layout.heldBy, getBOps]; tauto

theorem roundTrip_NdimOps : RoundTrip getNdimOps putNdimOps 9 2 [(3, 6), (11, 4), (20, 5)] :=
  roundTrip_of_layout (fun o m f => [(3, o.l), (6, 0), (2, f), (4, 0), (5, ssrcCode o.a), (5, 0), (6, m), (1, o.s.toNat)])
    (fun o m f => by simp only [Layout.value, putNdimOps, ite_eq_toNat]; omega)
    (fun o m f hm hf => by simp_all [Bool.toNat_le, Fin.val_lt_of_le])
    fun o m f w => by cases o; simp [Layout.width, Layout.heldBy, getNdimOps]; tauto

theorem roundTrip_NestOps : RoundTrip getNestOps putNestOps 9 2 [(6, 3), (11, 14)] :=
  roundTrip_of_layout (fun o m f => [(6, o.w), (3, 0), (2, f), (14, 0), (6, m), (1, o.s.toNat)])
    (fun o m f => by simp only [Layout.value, putNestOps, ite_eq_toNat]; omega) (fun o m f hm hf => by simp_all [Bool.toNat_le])
    fun o m f w => by cases o; simp [Layout.width, Layout.heldBy, getNestOps]; tauto

theorem roundTrip_LidxOps : RoundTrip getLidxOps putLidxOps 9 2 [(3, 6), (15, 5)] :=
  roundTrip_of_layout (fun o m f => [(3, o.l), (6, 0), (2, f), (4, o.p), (5, 0), (5, sdstCode o.d), (6, m), (1, o.s.toNat)])
    (fun o m f => by simp only [Layout.value, putLidxOps, ite_eq_toNat]; omega)
    (fun o m f hm hf => by simp_all [Bool.toNat_le, Fin.val_lt_of_le])
    fun o m f w => by cases o; simp [Layout.width, Layout.heldBy, getLidxOps]; tauto

theorem roundTrip_LdOps : RoundTrip getLdOps putLdOps 0 0 [] :=
  roundTrip_of_layout (fun o m f => [(0, f), (9, o.o.toNat), (2, o.z), (4, o.k), (5, ssrcCode o.b), (5, sdstCode o.d), (6,
      m), (1, o.s.toNat)])
    (fun o m f => by simp only [Layout.value, putLdOps, ite_eq_toNat]; omega)
    (fun o m f hm hf => by simp_all [Bool.toNat_le, toNat_lt_of_le])
    fun o m f w => by cases o; simp [Layout.width, Layout.heldBy, getLdOps]; tauto

theorem roundTrip_StOps : RoundTrip getStOps putStOps 0 0 [] :=
  roundTrip_of_layout (fun o m f => [(0, f), (9, o.o.toNat), (2, o.z), (4, o.k), (5, ssrcCode o.b), (5, ssrcCode o.x), (6,
      m), (1, o.s.toNat)])
    (fun o m f => by simp only [Layout.value, putStOps, ite_eq_toNat]; omega)
    (fun o m f hm hf => by simp_all [Bool.toNat_le, toNat_lt_of_le])
    fun o m f w => by cases o; simp [Layout.width, Layout.heldBy, getStOps]; tauto

theorem roundTrip_LdnOps : RoundTrip getLdnOps putLdnOps 9 2 [] :=
  roundTrip_of_layout (fun o m f => [(9, o.o.toNat), (2, f), (4, o.k), (5, ssrcCode o.b), (5, sdstCode o.d), (6, m), (1, o.s.toNat)])
    (fun o m f => by simp only [Layout.value, putLdnOps, ite_eq_toNat]; omega)
    (fun o m f hm hf => by simp_all [Bool.toNat_le, toNat_lt_of_le])
    fun o m f w => by cases o; simp [Layout.width, Layout.heldBy, getLdnOps]; tauto

theorem roundTrip_StnOps : RoundTrip getStnOps putStnOps 9 2 [] :=
  roundTrip_of_layout (fun o m f => [(9, o.o.toNat), (2, f), (4, o.k), (5, ssrcCode o.b), (5, ssrcCode o.x), (6, m), (1, o.s.toNat)])
    (fun o m f => by simp only [Layout.value, putStnOps, ite_eq_toNat]; omega)
    (fun o m f hm hf => by simp_all [Bool.toNat_le, toNat_lt_of_le])
    fun o m f w => by cases o; simp [Layout.width, Layout.heldBy, getStnOps]; tauto

theorem roundTrip_FldOps : RoundTrip getFldOps putFldOps 0 0 [] :=
  roundTrip_of_layout (fun o m f => [(0, f), (5, o.o.toNat), (3, scopeCode o.c), (1, o.q.toNat), (2, o.z), (4, o.k), (5,
      ssrcCode o.b), (5, sdstCode o.d), (6, m), (1, o.s.toNat)])
    (fun o m f => by simp only [Layout.value, putFldOps, ite_eq_toNat]; omega)
    (fun o m f hm hf => by simp_all [Bool.toNat_le, toNat_lt_of_le])
    fun o m f w => by cases o; simp [Layout.width, Layout.heldBy, getFldOps]; tauto

theorem roundTrip_FstOps : RoundTrip getFstOps putFstOps 0 0 [] :=
  roundTrip_of_layout (fun o m f => [(0, f), (5, o.o.toNat), (3, scopeCode o.c), (1, o.q.toNat), (2, o.z), (4, o.k), (5,
      ssrcCode o.b), (5, ssrcCode o.x), (6, m), (1, o.s.toNat)])
    (fun o m f => by simp only [Layout.value, putFstOps, ite_eq_toNat]; omega)
    (fun o m f hm hf => by simp_all [Bool.toNat_le, toNat_lt_of_le])
    fun o m f w => by cases o; simp [Layout.width, Layout.heldBy, getFstOps]; tauto

theorem roundTrip_CsrrOps : RoundTrip getCsrrOps putCsrrOps 10 1 [(15, 5)] :=
  roundTrip_of_layout (fun o m f => [(10, o.c), (1, f), (4, o.p), (5, 0), (5, sdstCode o.d), (6, m), (1, o.s.toNat)])
    (fun o m f => by simp only [Layout.value, putCsrrOps, ite_eq_toNat]; omega) (fun o m f hm hf => by simp_all [Bool.toNat_le])
    fun o m f w => by cases o; simp [Layout.width, Layout.heldBy, getCsrrOps]; tauto

theorem roundTrip_CsrwOps : RoundTrip getCsrwOps putCsrwOps 10 1 [(20, 5)] :=
  roundTrip_of_layout (fun o m f => [(10, o.c), (1, f), (4, o.p), (5, ssrcCode o.a), (5, 0), (6, m), (1, o.s.toNat)])
    (fun o m f => by simp only [Layout.value, putCsrwOps, ite_eq_toNat]; omega) (fun o m f hm hf => by simp_all [Bool.toNat_le])
    fun o m f w => by cases o; simp [Layout.width, Layout.heldBy, getCsrwOps]; tauto

theorem roundTrip_YABsk : RoundTrip getYABsk putYABsk 0 3 [(20, 5)] :=
  roundTrip_of_layout (fun o m f => [(3, f), (4, o.k), (3, scopeCode o.c), (5, ssrcCode o.b), (5, ssrcCode o.a), (5, 0), (6,
      m), (1, o.s.toNat)])
    (fun o m f => by simp only [Layout.value, putYABsk, ite_eq_toNat]; omega) (fun o m f hm hf => by simp_all [Bool.toNat_le])
    fun o m f w => by cases o; simp [Layout.width, Layout.heldBy, getYABsk]; tauto

theorem roundTrip_YDABsk : RoundTrip getYDABsk putYDABsk 0 3 [] :=
  roundTrip_of_layout (fun o m f => [(3, f), (4, o.k), (3, scopeCode o.c), (5, ssrcCode o.b), (5, ssrcCode o.a), (5,
      sdstCode o.d), (6, m), (1, o.s.toNat)])
    (fun o m f => by simp only [Layout.value, putYDABsk, ite_eq_toNat]; omega) (fun o m f hm hf => by simp_all [Bool.toNat_le])
    fun o m f w => by cases o; simp [Layout.width, Layout.heldBy, getYDABsk]; tauto

theorem roundTrip_YDAsk : RoundTrip getYDAsk putYDAsk 0 3 [(10, 5)] :=
  roundTrip_of_layout (fun o m f => [(3, f), (4, o.k), (3, scopeCode o.c), (5, 0), (5, ssrcCode o.a), (5, sdstCode o.d), (6,
      m), (1, o.s.toNat)])
    (fun o m f => by simp only [Layout.value, putYDAsk, ite_eq_toNat]; omega) (fun o m f hm hf => by simp_all [Bool.toNat_le])
    fun o m f w => by cases o; simp [Layout.width, Layout.heldBy, getYDAsk]; tauto

theorem roundTrip_YAsk : RoundTrip getYAsk putYAsk 0 3 [(10, 5), (20, 5)] :=
  roundTrip_of_layout (fun o m f => [(3, f), (4, o.k), (3, scopeCode o.c), (5, 0), (5, ssrcCode o.a), (5, 0), (6, m), (1, o.s.toNat)])
    (fun o m f => by simp only [Layout.value, putYAsk, ite_eq_toNat]; omega) (fun o m f hm hf => by simp_all [Bool.toNat_le])
    fun o m f w => by cases o; simp [Layout.width, Layout.heldBy, getYAsk]; tauto

theorem roundTrip_YAk : RoundTrip getYAk putYAk 0 3 [(7, 8), (20, 5)] :=
  roundTrip_of_layout (fun o m f => [(3, f), (4, o.k), (8, 0), (5, ssrcCode o.a), (5, 0), (6, m), (1, o.s.toNat)])
    (fun o m f => by simp only [Layout.value, putYAk, ite_eq_toNat]; omega) (fun o m f hm hf => by simp_all [Bool.toNat_le])
    fun o m f w => by cases o; simp [Layout.width, Layout.heldBy, getYAk]; tauto

theorem roundTrip_YA : RoundTrip getYA putYA 0 3 [(3, 12), (20, 5)] :=
  roundTrip_of_layout (fun o m f => [(3, f), (12, 0), (5, ssrcCode o.a), (5, 0), (6, m), (1, o.s.toNat)])
    (fun o m f => by simp only [Layout.value, putYA, ite_eq_toNat]; omega) (fun o m f hm hf => by simp_all [Bool.toNat_le])
    fun o m f w => by cases o; simp [Layout.width, Layout.heldBy, getYA]; tauto

theorem roundTrip_YABk : RoundTrip getYABk putYABk 0 3 [(7, 3), (20, 5)] :=
  roundTrip_of_layout (fun o m f => [(3, f), (4, o.k), (3, 0), (5, ssrcCode o.b), (5, ssrcCode o.a), (5, 0), (6, m), (1, o.s.toNat)])
    (fun o m f => by simp only [Layout.value, putYABk, ite_eq_toNat]; omega) (fun o m f hm hf => by simp_all [Bool.toNat_le])
    fun o m f w => by cases o; simp [Layout.width, Layout.heldBy, getYABk]; tauto

theorem roundTrip_YAB : RoundTrip getYAB putYAB 0 3 [(3, 7), (20, 5)] :=
  roundTrip_of_layout (fun o m f => [(3, f), (7, 0), (5, ssrcCode o.b), (5, ssrcCode o.a), (5, 0), (6, m), (1, o.s.toNat)])
    (fun o m f => by simp only [Layout.value, putYAB, ite_eq_toNat]; omega) (fun o m f hm hf => by simp_all [Bool.toNat_le])
    fun o m f w => by cases o; simp [Layout.width, Layout.heldBy, getYAB]; tauto

theorem roundTrip_YDAB : RoundTrip getYDAB putYDAB 0 3 [(3, 7)] :=
  roundTrip_of_layout (fun o m f => [(3, f), (7, 0), (5, ssrcCode o.b), (5, ssrcCode o.a), (5, sdstCode o.d), (6, m), (1, o.s.toNat)])
    (fun o m f => by simp only [Layout.value, putYDAB, ite_eq_toNat]; omega) (fun o m f hm hf => by simp_all [Bool.toNat_le])
    fun o m f w => by cases o; simp [Layout.width, Layout.heldBy, getYDAB]; tauto

theorem roundTrip_YDABk : RoundTrip getYDABk putYDABk 0 3 [(7, 3)] :=
  roundTrip_of_layout (fun o m f => [(3, f), (4, o.k), (3, 0), (5, ssrcCode o.b), (5, ssrcCode o.a), (5, sdstCode o.d), (6,
      m), (1, o.s.toNat)])
    (fun o m f => by simp only [Layout.value, putYDABk, ite_eq_toNat]; omega) (fun o m f hm hf => by simp_all [Bool.toNat_le])
    fun o m f w => by cases o; simp [Layout.width, Layout.heldBy, getYDABk]; tauto

theorem roundTrip_Bare_six : RoundTrip getBare putBare 0 6 [(6, 19)] :=
  roundTrip_of_layout (fun o m f => [(6, f), (19, 0), (6, m), (1, o.s.toNat)])
    (fun o m f => by simp only [Layout.value, putBare, ite_eq_toNat]; omega) (fun o m f hm hf => by simp_all [Bool.toNat_le])
    fun o m f w => by cases o; simp [Layout.width, Layout.heldBy, getBare]; tauto

theorem roundTrip_Bare_three : RoundTrip getBare putBare 0 3 [(3, 22)] :=
  roundTrip_of_layout (fun o m f => [(3, f), (22, 0), (6, m), (1, o.s.toNat)])
    (fun o m f => by simp only [Layout.value, putBare, ite_eq_toNat]; omega) (fun o m f hm hf => by simp_all [Bool.toNat_le])
    fun o m f w => by cases o; simp [Layout.width, Layout.heldBy, getBare]; tauto

theorem roundTrip_CAQ : RoundTrip getCAQ putCAQ 0 4 [(4, 1), (13, 2), (20, 5)] :=
  roundTrip_of_layout (fun o m f => [(4, f), (1, 0), (4, o.p), (4, o.q), (2, 0), (5, ssrcCode o.a), (5, 0), (6, m), (1, o.s.toNat)])
    (fun o m f => by simp only [Layout.value, putCAQ, ite_eq_toNat]; omega) (fun o m f hm hf => by simp_all [Bool.toNat_le])
    fun o m f w => by cases o; simp [Layout.width, Layout.heldBy, getCAQ]; tauto

theorem roundTrip_CAH : RoundTrip getCAH putCAH 0 4 [(4, 1), (20, 5)] :=
  roundTrip_of_layout (fun o m f => [(4, f), (1, 0), (4, o.p), (6, o.h), (5, ssrcCode o.a), (5, 0), (6, m), (1, o.s.toNat)])
    (fun o m f => by simp only [Layout.value, putCAH, ite_eq_toNat]; omega) (fun o m f hm hf => by simp_all [Bool.toNat_le])
    fun o m f w => by cases o; simp [Layout.width, Layout.heldBy, getCAH]; tauto

theorem roundTrip_CPAH : RoundTrip getCPAH putCPAH 0 4 [(4, 1), (24, 1)] :=
  roundTrip_of_layout (fun o m f => [(4, f), (1, 0), (4, o.p), (6, o.h), (5, ssrcCode o.a), (4, o.pd), (1, 0), (6, m), (1, o.s.toNat)])
    (fun o m f => by simp only [Layout.value, putCPAH, ite_eq_toNat]; omega) (fun o m f hm hf => by simp_all [Bool.toNat_le])
    fun o m f w => by cases o; simp [Layout.width, Layout.heldBy, getCPAH]; tauto

theorem roundTrip_CDAQ : RoundTrip getCDAQ putCDAQ 0 4 [(4, 1), (13, 2)] :=
  roundTrip_of_layout (fun o m f => [(4, f), (1, 0), (4, o.p), (4, o.q), (2, 0), (5, ssrcCode o.a), (5, sdstCode o.d), (6,
      m), (1, o.s.toNat)])
    (fun o m f => by simp only [Layout.value, putCDAQ, ite_eq_toNat]; omega) (fun o m f hm hf => by simp_all [Bool.toNat_le])
    fun o m f w => by cases o; simp [Layout.width, Layout.heldBy, getCDAQ]; tauto

theorem roundTrip_CDQ : RoundTrip getCDQ putCDQ 0 4 [(4, 1), (13, 7)] :=
  roundTrip_of_layout (fun o m f => [(4, f), (1, 0), (4, o.p), (4, o.q), (7, 0), (5, sdstCode o.d), (6, m), (1, o.s.toNat)])
    (fun o m f => by simp only [Layout.value, putCDQ, ite_eq_toNat]; omega) (fun o m f hm hf => by simp_all [Bool.toNat_le])
    fun o m f w => by cases o; simp [Layout.width, Layout.heldBy, getCDQ]; tauto

theorem roundTrip_CDAH : RoundTrip getCDAH putCDAH 0 4 [(4, 1)] :=
  roundTrip_of_layout (fun o m f => [(4, f), (1, 0), (4, o.p), (6, o.h), (5, ssrcCode o.a), (5, sdstCode o.d), (6, m), (1, o.s.toNat)])
    (fun o m f => by simp only [Layout.value, putCDAH, ite_eq_toNat]; omega) (fun o m f hm hf => by simp_all [Bool.toNat_le])
    fun o m f w => by cases o; simp [Layout.width, Layout.heldBy, getCDAH]; tauto

theorem roundTrip_KRA : RoundTrip getKRA putKRA 18 3 [(0, 13)] :=
  roundTrip_of_layout (fun o m f => [(13, 0), (5, ssrcCode o.a), (3, f), (4, o.r), (6, m), (1, o.s.toNat)])
    (fun o m f => by simp only [Layout.value, putKRA, ite_eq_toNat]; omega) (fun o m f hm hf => by simp_all [Bool.toNat_le])
    fun o m f w => by cases o; simp [Layout.width, Layout.heldBy, getKRA]; tauto

theorem roundTrip_KRI : RoundTrip getKRI putKRI 18 3 [] :=
  roundTrip_of_layout (fun o m f => [(18, o.i.toNat), (3, f), (4, o.r), (6, m), (1, o.s.toNat)])
    (fun o m f => by simp only [Layout.value, putKRI, ite_eq_toNat]; omega) (fun o m f hm hf => by simp_all [Bool.toNat_le, toNat_lt_of_le])
    fun o m f w => by cases o; simp [Layout.width, Layout.heldBy, getKRI]; tauto

theorem roundTrip_KDim : RoundTrip getKDim putKDim 18 3 [(0, 8)] :=
  roundTrip_of_layout (fun o m f => [(8, 0), (5, ssrcCode o.b), (5, ssrcCode o.a), (3, f), (4, o.r), (6, m), (1, o.s.toNat)])
    (fun o m f => by simp only [Layout.value, putKDim, ite_eq_toNat]; omega)
    (fun o m f hm hf => by simp_all [Bool.toNat_le, Fin.val_lt_of_le])
    fun o m f w => by cases o; simp [Layout.width, Layout.heldBy, getKDim]; tauto

theorem roundTrip_VShapeOps : RoundTrip getVShapeOps putVShapeOps 0 3 [(3, 10), (19, 6)] :=
  roundTrip_of_layout (fun o m f => [(3, f), (10, 0), (6, ssrcCode o.a), (6, 0), (6, m), (1, o.s.toNat)])
    (fun o m f => by simp only [Layout.value, putVShapeOps, ite_eq_toNat]; omega) (fun o m f hm hf => by simp_all [Bool.toNat_le])
    fun o m f w => by cases o; simp [Layout.width, Layout.heldBy, getVShapeOps]; tauto

theorem roundTrip_VWA : RoundTrip getVWA putVWA 0 3 [(7, 6)] :=
  roundTrip_of_layout (fun o m f => [(3, f), (4, o.m), (6, 0), (6, ssrcCode o.a), (6, vdstCode o.v), (6, m), (1, o.s.toNat)])
    (fun o m f => by simp only [Layout.value, putVWA, ite_eq_toNat]; omega) (fun o m f hm hf => by simp_all [Bool.toNat_le])
    fun o m f w => by cases o; simp [Layout.width, Layout.heldBy, getVWA]; tauto

theorem roundTrip_VSA : RoundTrip getVSA putVSA 0 3 [(19, 6)] :=
  roundTrip_of_layout (fun o m f => [(3, f), (4, o.m), (6, vsrcCode o.x), (6, ssrcCode o.a), (6, 0), (6, m), (1, o.s.toNat)])
    (fun o m f => by simp only [Layout.value, putVSA, ite_eq_toNat]; omega) (fun o m f hm hf => by simp_all [Bool.toNat_le])
    fun o m f w => by cases o; simp [Layout.width, Layout.heldBy, getVSA]; tauto

theorem roundTrip_VMA : RoundTrip getVMA putVMA 0 3 [(3, 10)] :=
  roundTrip_of_layout (fun o m f => [(3, f), (10, 0), (6, ssrcCode o.a), (6, o.v), (6, m), (1, o.s.toNat)])
    (fun o m f => by simp only [Layout.value, putVMA, ite_eq_toNat]; omega)
    (fun o m f hm hf => by simp_all [Bool.toNat_le, Fin.val_lt_of_le])
    fun o m f w => by cases o; simp [Layout.width, Layout.heldBy, getVMA]; tauto

theorem roundTrip_VAM : RoundTrip getVAM putVAM 0 3 [(3, 4), (19, 6)] :=
  roundTrip_of_layout (fun o m f => [(3, f), (4, 0), (6, o.b), (6, ssrcCode o.a), (6, 0), (6, m), (1, o.s.toNat)])
    (fun o m f => by simp only [Layout.value, putVAM, ite_eq_toNat]; omega)
    (fun o m f hm hf => by simp_all [Bool.toNat_le, Fin.val_lt_of_le])
    fun o m f w => by cases o; simp [Layout.width, Layout.heldBy, getVAM]; tauto

theorem roundTrip_VGatOps : RoundTrip getVGatOps putVGatOps 0 3 [] :=
  roundTrip_of_layout (fun o m f => [(3, f), (4, o.m), (6, vsrcCode o.x), (6, ssrcCode o.a), (6, vdstCode o.v), (6, m), (1, o.s.toNat)])
    (fun o m f => by simp only [Layout.value, putVGatOps, ite_eq_toNat]; omega) (fun o m f hm hf => by simp_all [Bool.toNat_le])
    fun o m f w => by cases o; simp [Layout.width, Layout.heldBy, getVGatOps]; tauto

theorem roundTrip_VSctOps : RoundTrip getVSctOps putVSctOps 0 3 [] :=
  roundTrip_of_layout (fun o m f => [(3, f), (4, o.m), (6, vsrcCode o.x), (6, ssrcCode o.a), (6, vsrcCode o.v), (6, m), (1, o.s.toNat)])
    (fun o m f => by simp only [Layout.value, putVSctOps, ite_eq_toNat]; omega) (fun o m f hm hf => by simp_all [Bool.toNat_le])
    fun o m f w => by cases o; simp [Layout.width, Layout.heldBy, getVSctOps]; tauto

theorem roundTrip_VMovsOps : RoundTrip getVMovsOps putVMovsOps 0 3 [(3, 4)] :=
  roundTrip_of_layout (fun o m f => [(3, f), (4, 0), (6, ssrcCode o.b), (6, vsrcCode o.x), (6, sdstCode o.d), (6, m), (1, o.s.toNat)])
    (fun o m f => by simp only [Layout.value, putVMovsOps, ite_eq_toNat]; omega) (fun o m f hm hf => by simp_all [Bool.toNat_le])
    fun o m f w => by cases o; simp [Layout.width, Layout.heldBy, getVMovsOps]; tauto

theorem roundTrip_VIotaOps : RoundTrip getVIotaOps putVIotaOps 0 3 [] :=
  roundTrip_of_layout (fun o m f => [(3, f), (4, o.m), (6, ssrcCode o.b), (6, ssrcCode o.a), (6, vdstCode o.v), (6, m), (1, o.s.toNat)])
    (fun o m f => by simp only [Layout.value, putVIotaOps, ite_eq_toNat]; omega) (fun o m f hm hf => by simp_all [Bool.toNat_le])
    fun o m f w => by cases o; simp [Layout.width, Layout.heldBy, getVIotaOps]; tauto

theorem roundTrip_VWXY : RoundTrip getVWXY putVWXY 0 3 [] :=
  roundTrip_of_layout (fun o m f => [(3, f), (4, o.m), (6, vsrcCode o.y), (6, vsrcCode o.x), (6, vdstCode o.v), (6, m), (1, o.s.toNat)])
    (fun o m f => by simp only [Layout.value, putVWXY, ite_eq_toNat]; omega) (fun o m f hm hf => by simp_all [Bool.toNat_le])
    fun o m f w => by cases o; simp [Layout.width, Layout.heldBy, getVWXY]; tauto

theorem roundTrip_VWX : RoundTrip getVWX putVWX 0 3 [(7, 6)] :=
  roundTrip_of_layout (fun o m f => [(3, f), (4, o.m), (6, 0), (6, vsrcCode o.x), (6, vdstCode o.v), (6, m), (1, o.s.toNat)])
    (fun o m f => by simp only [Layout.value, putVWX, ite_eq_toNat]; omega) (fun o m f hm hf => by simp_all [Bool.toNat_le])
    fun o m f w => by cases o; simp [Layout.width, Layout.heldBy, getVWX]; tauto

theorem roundTrip_VWXB : RoundTrip getVWXB putVWXB 0 3 [] :=
  roundTrip_of_layout (fun o m f => [(3, f), (4, o.m), (6, ssrcCode o.b), (6, vsrcCode o.x), (6, vdstCode o.v), (6, m), (1, o.s.toNat)])
    (fun o m f => by simp only [Layout.value, putVWXB, ite_eq_toNat]; omega) (fun o m f hm hf => by simp_all [Bool.toNat_le])
    fun o m f w => by cases o; simp [Layout.width, Layout.heldBy, getVWXB]; tauto

theorem roundTrip_VQuantOps : RoundTrip getVQuantOps putVQuantOps 0 3 [(3, 4)] :=
  roundTrip_of_layout (fun o m f => [(3, f), (4, 0), (6, vsrcCode o.y), (6, vsrcCode o.x), (6, vdstCode o.v), (6, m), (1, o.s.toNat)])
    (fun o m f => by simp only [Layout.value, putVQuantOps, ite_eq_toNat]; omega) (fun o m f hm hf => by simp_all [Bool.toNat_le])
    fun o m f w => by cases o; simp [Layout.width, Layout.heldBy, getVQuantOps]; tauto

theorem roundTrip_VCmpOps : RoundTrip getVCmpOps putVCmpOps 0 3 [] :=
  roundTrip_of_layout (fun o m f => [(3, f), (4, o.m), (6, vsrcCode o.y), (6, vsrcCode o.x), (6, 2 * o.j.val), (6, m), (1, o.s.toNat)])
    (fun o m f => by simp only [Layout.value, putVCmpOps, ite_eq_toNat]; omega) (fun o m f hm hf => by simp_all [Bool.toNat_le]; omega)
    fun o m f w => by cases o; simp [Layout.width, Layout.heldBy, getVCmpOps]; tauto

theorem roundTrip_VMlogOps : RoundTrip getVMlogOps putVMlogOps 0 3 [] :=
  roundTrip_of_layout (fun o m f => [(3, f), (4, o.m), (6, ssrcCode o.b), (6, o.x), (6, o.v), (6, m), (1, o.s.toNat)])
    (fun o m f => by simp only [Layout.value, putVMlogOps, ite_eq_toNat]; omega)
    (fun o m f hm hf => by simp_all [Bool.toNat_le, Fin.val_lt_of_le])
    fun o m f w => by cases o; simp [Layout.width, Layout.heldBy, getVMlogOps]; tauto

theorem roundTrip_VMdOps : RoundTrip getVMdOps putVMdOps 0 3 [(7, 6)] :=
  roundTrip_of_layout (fun o m f => [(3, f), (4, o.m), (6, 0), (6, o.x), (6, sdstCode o.d), (6, m), (1, o.s.toNat)])
    (fun o m f => by simp only [Layout.value, putVMdOps, ite_eq_toNat]; omega)
    (fun o m f hm hf => by simp_all [Bool.toNat_le, Fin.val_lt_of_le])
    fun o m f w => by cases o; simp [Layout.width, Layout.heldBy, getVMdOps]; tauto

theorem roundTrip_VOsmOps : RoundTrip getVOsmOps putVOsmOps 0 3 [(3, 10)] :=
  roundTrip_of_layout (fun o m f => [(3, f), (10, 0), (6, 16 + 2 * o.x.val), (6, 16 + 2 * o.v.val), (6, m), (1, o.s.toNat)])
    (fun o m f => by simp only [Layout.value, putVOsmOps, ite_eq_toNat]; omega) (fun o m f hm hf => by simp_all [Bool.toNat_le]; omega)
    fun o m f w => by cases o; simp [Layout.width, Layout.heldBy, getVOsmOps]; tauto

theorem roundTrip_VFmaOps : RoundTrip getVFmaOps putVFmaOps 0 0 [] :=
  roundTrip_of_layout (fun o m f => [(0, f), (3, o.f), (4, o.m), (6, vsrcCode o.y), (6, vsrcCode o.x), (6, vdstCode o.v),
      (6, m), (1, o.s.toNat)])
    (fun o m f => by simp only [Layout.value, putVFmaOps, ite_eq_toNat]; omega)
    (fun o m f hm hf => by simp_all [Bool.toNat_le, Fin.val_lt_of_le])
    fun o m f w => by cases o; simp [Layout.width, Layout.heldBy, getVFmaOps]; tauto

theorem roundTrip_TA : RoundTrip getTA putTA 0 4 [(4, 1), (9, 5), (19, 6)] :=
  roundTrip_of_layout (fun o m f => [(4, f), (1, 0), (4, o.p), (5, 0), (5, ssrcCode o.a), (6, 0), (6, m), (1, o.s.toNat)])
    (fun o m f => by simp only [Layout.value, putTA, ite_eq_toNat]; omega) (fun o m f hm hf => by simp_all [Bool.toNat_le])
    fun o m f w => by cases o; simp [Layout.width, Layout.heldBy, getTA]; tauto

theorem roundTrip_TDAB : RoundTrip getTDAB putTDAB 0 4 [(4, 1)] :=
  roundTrip_of_layout (fun o m f => [(4, f), (1, 0), (4, o.p), (5, ssrcCode o.b), (5, ssrcCode o.a), (6, sdstCode o.d), (6,
      m), (1, o.s.toNat)])
    (fun o m f => by simp only [Layout.value, putTDAB, ite_eq_toNat]; omega) (fun o m f hm hf => by simp_all [Bool.toNat_le])
    fun o m f w => by cases o; simp [Layout.width, Layout.heldBy, getTDAB]; tauto

theorem roundTrip_TAB : RoundTrip getTAB putTAB 0 4 [(4, 1), (19, 6)] :=
  roundTrip_of_layout (fun o m f => [(4, f), (1, 0), (4, o.p), (5, ssrcCode o.b), (5, ssrcCode o.a), (6, 0), (6, m), (1, o.s.toNat)])
    (fun o m f => by simp only [Layout.value, putTAB, ite_eq_toNat]; omega) (fun o m f hm hf => by simp_all [Bool.toNat_le])
    fun o m f w => by cases o; simp [Layout.width, Layout.heldBy, getTAB]; tauto

theorem roundTrip_TMA : RoundTrip getTMA putTMA 0 4 [(4, 1), (9, 5)] :=
  roundTrip_of_layout (fun o m f => [(4, f), (1, 0), (4, o.p), (5, 0), (5, ssrcCode o.a), (6, o.v), (6, m), (1, o.s.toNat)])
    (fun o m f => by simp only [Layout.value, putTMA, ite_eq_toNat]; omega)
    (fun o m f hm hf => by simp_all [Bool.toNat_le, Fin.val_lt_of_le])
    fun o m f w => by cases o; simp [Layout.width, Layout.heldBy, getTMA]; tauto

theorem roundTrip_TWA : RoundTrip getTWA putTWA 0 4 [(4, 1), (9, 5)] :=
  roundTrip_of_layout (fun o m f => [(4, f), (1, 0), (4, o.p), (5, 0), (5, ssrcCode o.a), (6, vdstCode o.v), (6, m), (1, o.s.toNat)])
    (fun o m f => by simp only [Layout.value, putTWA, ite_eq_toNat]; omega) (fun o m f hm hf => by simp_all [Bool.toNat_le])
    fun o m f w => by cases o; simp [Layout.width, Layout.heldBy, getTWA]; tauto

theorem roundTrip_TWAB : RoundTrip getTWAB putTWAB 0 4 [(4, 1)] :=
  roundTrip_of_layout (fun o m f => [(4, f), (1, 0), (4, o.p), (5, ssrcCode o.b), (5, ssrcCode o.a), (6, vdstCode o.v), (6,
      m), (1, o.s.toNat)])
    (fun o m f => by simp only [Layout.value, putTWAB, ite_eq_toNat]; omega) (fun o m f hm hf => by simp_all [Bool.toNat_le])
    fun o m f w => by cases o; simp [Layout.width, Layout.heldBy, getTWAB]; tauto

theorem roundTrip_TDA : RoundTrip getTDA putTDA 0 4 [(4, 1), (9, 5)] :=
  roundTrip_of_layout (fun o m f => [(4, f), (1, 0), (4, o.p), (5, 0), (5, ssrcCode o.a), (6, sdstCode o.d), (6, m), (1, o.s.toNat)])
    (fun o m f => by simp only [Layout.value, putTDA, ite_eq_toNat]; omega) (fun o m f hm hf => by simp_all [Bool.toNat_le])
    fun o m f w => by cases o; simp [Layout.width, Layout.heldBy, getTDA]; tauto

end Sys2Proof
end

