-- ==== Sys2Proof/Proofs/EncodeDecode.lean ====
section
/-! O58: what the decoder reads is what the encoder writes, by one rule for each direction, used for each row of the opcode map; and O57, the words
that the spec writes out. -/

namespace Sys2Proof

/-! ### From the word to the instruction -/

/-- Whatever instruction the decoder finds in `x`, `w` is its word, and it is well formed. -/
def Means (w : Nat) (x : Except DecodeError Instr) : Prop := ∀ i, x = .ok i → wellFormed i = true ∧ encode i = some w

theorem means_error (w : Nat) (e : DecodeError) : Means w (.error e) := fun _ h => nomatch h

theorem means_ite {w : Nat} {p : Prop} [Decidable p] {x y : Except DecodeError Instr} (hx : p → Means w x) (hy : Means w y) :
    Means w (if p then x else y) := by
  split
  · next h => exact hx h
  · exact hy

theorem means_inCtl {w : Nat} {sec : Sec} {x : Except DecodeError Instr} (hx : Means w x) : Means w (inCtl sec x) :=
  means_ite (fun _ => hx) (means_error w _)

section
variable {α : Type} {get : Nat → Except DecodeError α} {put : α → Nat} {lo n : Nat} {reserved : List (Nat × Nat)} {c : α → Instr} {w : Nat}

/-- A row of the opcode map: reserved fields that must be zero, and operands of a format. -/
theorem RoundTrip.means {m f : Nat} (R : RoundTrip get put lo n reserved) (hw : w < 2 ^ 32) (hm : fld w 25 6 = m) (hf : fld w lo n = f)
    (hc : ∀ o, wellFormed (c o) = true ∧ encode (c o) = some (m * 2 ^ 25 + f * 2 ^ lo + put o)) :
    Means w (whenZero w reserved ((get w).map c)) := by
  intro i hi
  rw [whenZero_eq_ok_iff, map_eq_ok_iff] at hi
  obtain ⟨hr, o, ho, rfl⟩ := hi
  exact R.word hw hm hf hr ho ▸ hc o

end

/-! ### From the instruction to the word -/

/-- In the section where its major is assigned `w` is the word of `i`. -/
def Decodes (w : Nat) (i : Instr) : Prop := w < 2 ^ 32 ∧ decodeIn (homeSec w) w = .ok i

/-- An instruction whose bits are `b` and its operands decodes where the opcode map has the row of its major and function. -/
theorem RoundTrip.decodes {α : Type} {get : Nat → Except DecodeError α} {put : α → Nat} {lo n : Nat} {reserved : List (Nat × Nat)}
    {c : α → Instr} {b w : Nat} {o : α} (R : RoundTrip get put lo n reserved) (h : some (b + put o) = some w)
    (hb : b = b / 2 ^ 25 * 2 ^ 25 + b / 2 ^ lo % 2 ^ n * 2 ^ lo ∧ b < 2 ^ 31)
    (hd : fld w 25 6 = b / 2 ^ 25 → fld w lo n = b / 2 ^ lo % 2 ^ n → get w = .ok o →
      decodeIn (homeSec w) w = whenZero w reserved ((get w).map c)) :
    Decodes w (c o) := by
  obtain ⟨hw, hm, hf, hr, ho⟩ := R.read h hb
  refine ⟨hw, ?_⟩
  rw [hd hm hf ho, whenZero_eq_ok_iff, ho]
  exact ⟨hr, rfl⟩

/-! ### The rows whose operands pass a check of their own -/

theorem getCmpOps_condition {w : Nat} {o : CmpOps} (h : getCmpOps w = .ok o) : fld w 0 6 < 6 := by
  cases o; simp [getCmpOps] at h; omega

theorem getCmpiOps_condition {w : Nat} {o : CmpiOps} (h : getCmpiOps w = .ok o) : fld w 8 3 < 6 := by
  cases o; simp [getCmpiOps] at h; omega

theorem getVFmaOps_variant {w : Nat} {o : VFmaOps} (h : getVFmaOps w = .ok o) : fld w 0 3 < 4 := by
  cases o; simp [getVFmaOps] at h; omega

/-- A scope stands beside its mark exactly when it is not a reserved field (Table 3-3). -/
theorem scopeMarked_iff {w : Nat} {q : Bool} {c : Scope} (hq : fld w 8 1 = q.toNat) (hc : fld w 5 3 = scopeCode c) :
    scopeMarked q c = true ↔ ¬ (fld w 8 1 = 0 ∧ fld w 5 3 ≠ 0) := by
  rw [hq, hc]
  cases q <;> cases c <;> decide

theorem getFldOps_marked {w : Nat} {o : FldOps} (h : getFldOps w = .ok o) :
    scopeMarked o.q o.c = true ↔ ¬ (fld w 8 1 = 0 ∧ fld w 5 3 ≠ 0) := by
  apply scopeMarked_iff <;> cases o <;> simp [getFldOps] at h <;> simp [h]

theorem getFstOps_marked {w : Nat} {o : FstOps} (h : getFstOps w = .ok o) :
    scopeMarked o.q o.c = true ↔ ¬ (fld w 8 1 = 0 ∧ fld w 5 3 ≠ 0) := by
  apply scopeMarked_iff <;> cases o <;> simp [getFstOps] at h <;> simp [h]

theorem major08_means {w : Nat} (hw : w < 2 ^ 32) (hm : fld w 25 6 = 0x08) : Means w (major08 w) := by
  intro i hi
  obtain ⟨o, ho, hfit, rfl⟩ := bind_ite_eq_ok_iff.1 hi
  exact ⟨decide_eq_true hfit, roundTrip_BfOps.word hw hm (fld_zero w 0) nofun ho ▸ rfl⟩

theorem major09_means {w : Nat} (hw : w < 2 ^ 32) (hm : fld w 25 6 = 0x09) : Means w (major09 w) := by
  intro i hi
  obtain ⟨o, ho, hfit, rfl⟩ := bind_ite_eq_ok_iff.1 hi
  exact ⟨decide_eq_true hfit, roundTrip_BfOps.word hw hm (fld_zero w 0) nofun ho ▸ rfl⟩

theorem major12_means {w : Nat} (hw : w < 2 ^ 32) (hm : fld w 25 6 = 0x12) : Means w (major12 w) := by
  intro i hi
  obtain ⟨o, ho, hz, rfl⟩ := bind_ite_not_eq_ok_iff.1 hi
  exact ⟨decide_eq_true hz, roundTrip_LdOps.word hw hm (fld_zero w 0) nofun ho ▸ rfl⟩

theorem major15_means {w : Nat} (hw : w < 2 ^ 32) (hm : fld w 25 6 = 0x15) : Means w (major15 w) := by
  intro i hi
  unfold major15 at hi
  split at hi
  · cases hi
  · next hmark =>
    obtain ⟨o, ho, rfl⟩ := map_eq_ok_iff.1 hi
    exact ⟨(getFldOps_marked ho).2 hmark, roundTrip_FldOps.word hw hm (fld_zero w 0) nofun ho ▸ rfl⟩

theorem major16_means {w : Nat} (hw : w < 2 ^ 32) (hm : fld w 25 6 = 0x16) : Means w (major16 w) := by
  intro i hi
  unfold major16 at hi
  split at hi
  · cases hi
  · next hmark =>
    obtain ⟨o, ho, rfl⟩ := map_eq_ok_iff.1 hi
    exact ⟨(getFstOps_marked ho).2 hmark, roundTrip_FstOps.word hw hm (fld_zero w 0) nofun ho ▸ rfl⟩

theorem major19_means {w : Nat} (hw : w < 2 ^ 32) (hm : fld w 25 6 = 0x19) : Means w (major19 w) := by
  intro i hi
  obtain ⟨hr, hi⟩ := whenZero_eq_ok_iff.1 hi
  obtain ⟨o, ho, hne, rfl⟩ := bind_ite_not_eq_ok_iff.1 hi
  exact ⟨decide_eq_true hne, roundTrip_FenceOps.word hw hm (fld_zero w 0) hr ho ▸ rfl⟩

/-! ### The majors with a function field (Tables 3-3 and 3-4) -/

theorem major00_means {w : Nat} (hw : w < 2 ^ 32) (hm : fld w 25 6 = 0x00) : Means w (major00 w) := by
  unfold major00
  split <;> rename_i hf
  any_goals exact roundTrip_DABP.means hw hm hf fun _ => ⟨rfl, rfl⟩
  any_goals exact roundTrip_DAP.means hw hm hf fun _ => ⟨rfl, rfl⟩
  exact means_error w _

theorem major05_means {w : Nat} (hw : w < 2 ^ 32) (hm : fld w 25 6 = 0x05) : Means w (major05 w) := by
  unfold major05
  split <;> rename_i hf
  any_goals exact roundTrip_DAH.means hw hm hf fun _ => ⟨rfl, rfl⟩
  exact means_error w _

theorem major0C_means {w : Nat} (hw : w < 2 ^ 32) (hm : fld w 25 6 = 0x0C) : Means w (major0C w) := by
  unfold major0C
  split <;> rename_i hf
  · exact roundTrip_PlogOps.means hw hm hf fun _ => ⟨rfl, rfl⟩
  · exact roundTrip_SelOps.means hw hm hf fun _ => ⟨rfl, rfl⟩
  · exact means_error w _

theorem major0F_means {w : Nat} (hw : w < 2 ^ 32) (hm : fld w 25 6 = 0x0F) : Means w (major0F w) := by
  unfold major0F
  split <;> rename_i hf
  any_goals exact roundTrip_AP.means hw hm hf fun _ => ⟨rfl, rfl⟩
  any_goals exact roundTrip_GP.means hw hm hf fun _ => ⟨rfl, rfl⟩
  exact means_error w _

theorem major10_means {w : Nat} (hw : w < 2 ^ 32) (hm : fld w 25 6 = 0x10) : Means w (major10 w) := by
  unfold major10
  split <;> rename_i hf
  · exact roundTrip_NdimOps.means hw hm hf fun _ => ⟨rfl, rfl⟩
  · exact roundTrip_NestOps.means hw hm hf fun _ => ⟨rfl, rfl⟩
  · exact roundTrip_LidxOps.means hw hm hf fun _ => ⟨rfl, rfl⟩
  · exact means_error w _

theorem major14_means {w : Nat} (hw : w < 2 ^ 32) (hm : fld w 25 6 = 0x14) : Means w (major14 w) := by
  unfold major14
  split <;> rename_i hf
  · exact roundTrip_LdnOps.means hw hm hf fun _ => ⟨rfl, rfl⟩
  · exact roundTrip_StnOps.means hw hm hf fun _ => ⟨rfl, rfl⟩
  · exact means_error w _

theorem major17_means {w : Nat} (hw : w < 2 ^ 32) (hm : fld w 25 6 = 0x17) : Means w (major17 w) := by
  unfold major17
  split <;> rename_i hf
  · exact roundTrip_CsrrOps.means hw hm hf fun _ => ⟨rfl, rfl⟩
  · exact roundTrip_CsrwOps.means hw hm hf fun _ => ⟨rfl, rfl⟩
  · exact means_error w _

theorem major18_means {w : Nat} (hw : w < 2 ^ 32) (hm : fld w 25 6 = 0x18) : Means w (major18 w) := by
  unfold major18
  split <;> rename_i hf
  · exact roundTrip_DP.means hw hm hf fun _ => ⟨rfl, rfl⟩
  · exact roundTrip_Bare_six.means hw hm hf fun _ => ⟨rfl, rfl⟩
  · exact roundTrip_TrapOps.means hw hm hf fun _ => ⟨rfl, rfl⟩
  · exact means_error w _

theorem major1A_means {w : Nat} (hw : w < 2 ^ 32) (hm : fld w 25 6 = 0x1A) : Means w (major1A w) := by
  unfold major1A
  split <;> rename_i hf
  any_goals exact roundTrip_YABsk.means hw hm hf fun _ => ⟨rfl, rfl⟩
  any_goals exact roundTrip_YDABsk.means hw hm hf fun _ => ⟨rfl, rfl⟩
  any_goals exact roundTrip_YDAsk.means hw hm hf fun _ => ⟨rfl, rfl⟩
  exact means_error w _

theorem major1B_means {w : Nat} (hw : w < 2 ^ 32) (hm : fld w 25 6 = 0x1B) : Means w (major1B w) := by
  unfold major1B
  split <;> rename_i hf
  any_goals exact roundTrip_YAsk.means hw hm hf fun _ => ⟨rfl, rfl⟩
  any_goals exact roundTrip_YDAsk.means hw hm hf fun _ => ⟨rfl, rfl⟩
  any_goals exact roundTrip_YDABsk.means hw hm hf fun _ => ⟨rfl, rfl⟩
  any_goals exact roundTrip_Bare_three.means hw hm hf fun _ => ⟨rfl, rfl⟩
  exact means_error w _

theorem major1C_means {w : Nat} (hw : w < 2 ^ 32) (hm : fld w 25 6 = 0x1C) : Means w (major1C w) := by
  unfold major1C
  split <;> rename_i hf
  · exact roundTrip_YAk.means hw hm hf fun _ => ⟨rfl, rfl⟩
  · exact roundTrip_YA.means hw hm hf fun _ => ⟨rfl, rfl⟩
  · exact roundTrip_YABk.means hw hm hf fun _ => ⟨rfl, rfl⟩
  · exact roundTrip_YAB.means hw hm hf fun _ => ⟨rfl, rfl⟩
  · exact means_error w _

theorem major1D_means {w : Nat} (hw : w < 2 ^ 32) (hm : fld w 25 6 = 0x1D) : Means w (major1D w) := by
  unfold major1D
  split <;> rename_i hf
  any_goals exact roundTrip_YDABk.means hw hm hf fun _ => ⟨rfl, rfl⟩
  exact means_error w _

theorem major1E_means {w : Nat} (hw : w < 2 ^ 32) (hm : fld w 25 6 = 0x1E) : Means w (major1E w) := by
  unfold major1E
  split <;> rename_i hf
  · exact roundTrip_YA.means hw hm hf fun _ => ⟨rfl, rfl⟩
  · exact roundTrip_YDAB.means hw hm hf fun _ => ⟨rfl, rfl⟩
  · exact means_error w _

theorem major1F_means {sec : Sec} {w : Nat} (hw : w < 2 ^ 32) (hm : fld w 25 6 = 0x1F) : Means w (major1F sec w) := by
  unfold major1F
  split <;> rename_i hf
  any_goals refine means_inCtl ?_
  any_goals exact roundTrip_ModeOps.means hw hm hf fun _ => ⟨rfl, rfl⟩
  any_goals exact roundTrip_GP.means hw hm hf fun _ => ⟨rfl, rfl⟩
  any_goals exact roundTrip_ABP.means hw hm hf fun _ => ⟨rfl, rfl⟩
  any_goals exact roundTrip_AP.means hw hm hf fun _ => ⟨rfl, rfl⟩
  any_goals exact roundTrip_DABP.means hw hm hf fun _ => ⟨rfl, rfl⟩
  exact means_error w _

theorem major20_means {w : Nat} (hw : w < 2 ^ 32) (hm : fld w 25 6 = 0x20) : Means w (major20 w) := by
  unfold major20
  split <;> rename_i hf
  any_goals exact roundTrip_CAQ.means hw hm hf fun _ => ⟨rfl, rfl⟩
  any_goals exact roundTrip_CAH.means hw hm hf fun _ => ⟨rfl, rfl⟩
  any_goals exact roundTrip_CPAH.means hw hm hf fun _ => ⟨rfl, rfl⟩
  any_goals exact roundTrip_CDAQ.means hw hm hf fun _ => ⟨rfl, rfl⟩
  any_goals exact roundTrip_CDQ.means hw hm hf fun _ => ⟨rfl, rfl⟩
  any_goals exact roundTrip_CDAH.means hw hm hf fun _ => ⟨rfl, rfl⟩
  exact means_error w _

theorem major21_means {w : Nat} (hw : w < 2 ^ 32) (hm : fld w 25 6 = 0x21) : Means w (major21 w) := by
  unfold major21
  split <;> rename_i hf
  any_goals exact roundTrip_ABP.means hw hm hf fun _ => ⟨rfl, rfl⟩
  any_goals exact roundTrip_AP.means hw hm hf fun _ => ⟨rfl, rfl⟩
  any_goals exact roundTrip_DAP.means hw hm hf fun _ => ⟨rfl, rfl⟩
  exact means_error w _

theorem major22_means {w : Nat} (hw : w < 2 ^ 32) (hm : fld w 25 6 = 0x22) : Means w (major22 w) := by
  unfold major22
  split <;> rename_i hf
  any_goals exact roundTrip_DABP.means hw hm hf fun _ => ⟨rfl, rfl⟩
  any_goals exact roundTrip_DAP.means hw hm hf fun _ => ⟨rfl, rfl⟩
  any_goals exact roundTrip_AP.means hw hm hf fun _ => ⟨rfl, rfl⟩
  exact means_error w _

theorem major23_means {w : Nat} (hw : w < 2 ^ 32) (hm : fld w 25 6 = 0x23) : Means w (major23 w) := by
  unfold major23
  split <;> rename_i hf
  any_goals exact roundTrip_ABP.means hw hm hf fun _ => ⟨rfl, rfl⟩
  any_goals exact roundTrip_AP.means hw hm hf fun _ => ⟨rfl, rfl⟩
  any_goals exact roundTrip_DABP.means hw hm hf fun _ => ⟨rfl, rfl⟩
  any_goals exact roundTrip_DAP.means hw hm hf fun _ => ⟨rfl, rfl⟩
  any_goals exact roundTrip_GP.means hw hm hf fun _ => ⟨rfl, rfl⟩
  exact means_error w _

theorem major24_means {w : Nat} (hw : w < 2 ^ 32) (hm : fld w 25 6 = 0x24) : Means w (major24 w) := by
  unfold major24
  split <;> rename_i hf
  any_goals exact roundTrip_KRA.means hw hm hf fun _ => ⟨rfl, rfl⟩
  any_goals exact roundTrip_KRI.means hw hm hf fun _ => ⟨rfl, rfl⟩
  any_goals exact roundTrip_KDim.means hw hm hf fun _ => ⟨rfl, rfl⟩
  exact means_error w _

theorem major25_means {w : Nat} (hw : w < 2 ^ 32) (hm : fld w 25 6 = 0x25) : Means w (major25 w) := by
  unfold major25
  split <;> rename_i hf
  any_goals exact roundTrip_DP.means hw hm hf fun _ => ⟨rfl, rfl⟩
  any_goals exact roundTrip_AP.means hw hm hf fun _ => ⟨rfl, rfl⟩
  exact means_error w _

theorem major26_means {w : Nat} (hw : w < 2 ^ 32) (hm : fld w 25 6 = 0x26) : Means w (major26 w) := by
  unfold major26
  split <;> rename_i hf
  any_goals exact roundTrip_DABP.means hw hm hf fun _ => ⟨rfl, rfl⟩
  any_goals exact roundTrip_AP.means hw hm hf fun _ => ⟨rfl, rfl⟩
  any_goals exact roundTrip_DAP.means hw hm hf fun _ => ⟨rfl, rfl⟩
  exact means_error w _

theorem major28_means {w : Nat} (hw : w < 2 ^ 32) (hm : fld w 25 6 = 0x28) : Means w (major28 w) := by
  unfold major28
  split <;> rename_i hf
  any_goals exact roundTrip_AP.means hw hm hf fun _ => ⟨rfl, rfl⟩
  any_goals exact roundTrip_GP.means hw hm hf fun _ => ⟨rfl, rfl⟩
  any_goals exact roundTrip_ABP.means hw hm hf fun _ => ⟨rfl, rfl⟩
  any_goals exact roundTrip_DAP.means hw hm hf fun _ => ⟨rfl, rfl⟩
  exact means_error w _

theorem major30_means {w : Nat} (hw : w < 2 ^ 32) (hm : fld w 25 6 = 0x30) : Means w (major30 w) := by
  unfold major30
  split <;> rename_i hf
  any_goals exact roundTrip_VShapeOps.means hw hm hf fun _ => ⟨rfl, rfl⟩
  any_goals exact roundTrip_VWA.means hw hm hf fun _ => ⟨rfl, rfl⟩
  any_goals exact roundTrip_VSA.means hw hm hf fun _ => ⟨rfl, rfl⟩
  any_goals exact roundTrip_VMA.means hw hm hf fun _ => ⟨rfl, rfl⟩
  any_goals exact roundTrip_VAM.means hw hm hf fun _ => ⟨rfl, rfl⟩
  any_goals exact roundTrip_VGatOps.means hw hm hf fun _ => ⟨rfl, rfl⟩
  any_goals exact roundTrip_VSctOps.means hw hm hf fun _ => ⟨rfl, rfl⟩
  exact means_error w _

theorem major31_means {w : Nat} (hw : w < 2 ^ 32) (hm : fld w 25 6 = 0x31) : Means w (major31 w) := by
  unfold major31
  split <;> rename_i hf
  · exact roundTrip_VMovsOps.means hw hm hf fun _ => ⟨rfl, rfl⟩
  · exact roundTrip_VIotaOps.means hw hm hf fun _ => ⟨rfl, rfl⟩
  · exact roundTrip_VWA.means hw hm hf fun _ => ⟨rfl, rfl⟩
  · exact roundTrip_VSA.means hw hm hf fun _ => ⟨rfl, rfl⟩
  · exact means_error w _

theorem major32_means {w : Nat} (hw : w < 2 ^ 32) (hm : fld w 25 6 = 0x32) : Means w (major32 w) := by
  unfold major32
  split <;> rename_i hf
  any_goals exact roundTrip_VWXY.means hw hm hf fun _ => ⟨rfl, rfl⟩
  any_goals exact roundTrip_VWX.means hw hm hf fun _ => ⟨rfl, rfl⟩
  exact means_error w _

theorem major33_means {w : Nat} (hw : w < 2 ^ 32) (hm : fld w 25 6 = 0x33) : Means w (major33 w) := by
  unfold major33
  split <;> rename_i hf
  any_goals exact roundTrip_VWXY.means hw hm hf fun _ => ⟨rfl, rfl⟩
  any_goals exact roundTrip_VWX.means hw hm hf fun _ => ⟨rfl, rfl⟩
  exact means_error w _

theorem major34_means {w : Nat} (hw : w < 2 ^ 32) (hm : fld w 25 6 = 0x34) : Means w (major34 w) := by
  unfold major34
  split <;> rename_i hf
  · exact roundTrip_VWXB.means hw hm hf fun _ => ⟨rfl, rfl⟩
  · exact roundTrip_VQuantOps.means hw hm hf fun _ => ⟨rfl, rfl⟩
  · exact means_error w _

theorem major35_means {w : Nat} (hw : w < 2 ^ 32) (hm : fld w 25 6 = 0x35) : Means w (major35 w) := by
  unfold major35
  split <;> rename_i hf
  any_goals exact roundTrip_VWXY.means hw hm hf fun _ => ⟨rfl, rfl⟩
  exact means_error w _

theorem major36_means {w : Nat} (hw : w < 2 ^ 32) (hm : fld w 25 6 = 0x36) : Means w (major36 w) := by
  unfold major36
  split <;> rename_i hf
  · exact roundTrip_VWXY.means hw hm hf fun _ => ⟨rfl, rfl⟩
  · exact means_error w _

theorem major37_means {w : Nat} (hw : w < 2 ^ 32) (hm : fld w 25 6 = 0x37) : Means w (major37 w) := by
  unfold major37
  split <;> rename_i hf
  any_goals exact roundTrip_VCmpOps.means hw hm hf fun _ => ⟨rfl, rfl⟩
  any_goals exact roundTrip_VWXY.means hw hm hf fun _ => ⟨rfl, rfl⟩
  any_goals exact roundTrip_VMlogOps.means hw hm hf fun _ => ⟨rfl, rfl⟩
  any_goals exact roundTrip_VMdOps.means hw hm hf fun _ => ⟨rfl, rfl⟩
  exact means_error w _

theorem major38_means {w : Nat} (hw : w < 2 ^ 32) (hm : fld w 25 6 = 0x38) : Means w (major38 w) := by
  unfold major38
  split <;> rename_i hf
  any_goals exact roundTrip_VWXB.means hw hm hf fun _ => ⟨rfl, rfl⟩
  any_goals exact roundTrip_VWX.means hw hm hf fun _ => ⟨rfl, rfl⟩
  any_goals exact roundTrip_VWXY.means hw hm hf fun _ => ⟨rfl, rfl⟩
  exact means_error w _

theorem major39_means {w : Nat} (hw : w < 2 ^ 32) (hm : fld w 25 6 = 0x39) : Means w (major39 w) := by
  unfold major39
  split <;> rename_i hf
  · exact roundTrip_VOsmOps.means hw hm hf fun _ => ⟨rfl, rfl⟩
  · exact means_error w _

theorem major3C_means {w : Nat} (hw : w < 2 ^ 32) (hm : fld w 25 6 = 0x3C) : Means w (major3C w) := by
  unfold major3C
  split <;> rename_i hf
  any_goals exact roundTrip_TA.means hw hm hf fun _ => ⟨rfl, rfl⟩
  any_goals exact roundTrip_TDAB.means hw hm hf fun _ => ⟨rfl, rfl⟩
  any_goals exact roundTrip_TAB.means hw hm hf fun _ => ⟨rfl, rfl⟩
  any_goals exact roundTrip_TMA.means hw hm hf fun _ => ⟨rfl, rfl⟩
  any_goals exact roundTrip_TWA.means hw hm hf fun _ => ⟨rfl, rfl⟩
  any_goals exact roundTrip_TWAB.means hw hm hf fun _ => ⟨rfl, rfl⟩
  any_goals exact roundTrip_TDA.means hw hm hf fun _ => ⟨rfl, rfl⟩
  exact means_error w _

/-- Whatever word the decoder takes, in whatever section, is the word of the instruction it finds. -/
theorem decodeIn_means {sec : Sec} {w : Nat} (hw : w < 2 ^ 32) : Means w (decodeIn sec w) := by
  unfold decodeIn
  split <;> rename_i hm
  · exact major00_means hw hm
  · exact roundTrip_DAI.means hw hm (fld_zero w 0) fun _ => ⟨rfl, rfl⟩
  · exact roundTrip_DAI.means hw hm (fld_zero w 0) fun _ => ⟨rfl, rfl⟩
  · exact roundTrip_DAI.means hw hm (fld_zero w 0) fun _ => ⟨rfl, rfl⟩
  · exact roundTrip_DAI.means hw hm (fld_zero w 0) fun _ => ⟨rfl, rfl⟩
  · exact major05_means hw hm
  · exact roundTrip_DI.means hw hm (fld_zero w 0) fun _ => ⟨rfl, rfl⟩
  · exact roundTrip_DI.means hw hm (fld_zero w 0) fun _ => ⟨rfl, rfl⟩
  · exact major08_means hw hm
  · exact major09_means hw hm
  · exact means_ite (fun _ => roundTrip_CmpOps.means hw hm (fld_zero w 0) fun _ => ⟨rfl, rfl⟩) (means_error w _)
  · exact means_ite (fun _ => roundTrip_CmpiOps.means hw hm (fld_zero w 0) fun _ => ⟨rfl, rfl⟩) (means_error w _)
  · exact major0C_means hw hm
  · exact roundTrip_BOps.means hw hm (fld_zero w 0) fun _ => ⟨rfl, rfl⟩
  · exact roundTrip_BOps.means hw hm (fld_zero w 0) fun _ => ⟨rfl, rfl⟩
  · exact major0F_means hw hm
  · exact major10_means hw hm
  · exact roundTrip_LdOps.means hw hm (fld_zero w 0) fun _ => ⟨rfl, rfl⟩
  · exact major12_means hw hm
  · exact roundTrip_StOps.means hw hm (fld_zero w 0) fun _ => ⟨rfl, rfl⟩
  · exact major14_means hw hm
  · exact means_ite (fun _ => major15_means hw hm) (means_error w _)
  · exact means_ite (fun _ => major16_means hw hm) (means_error w _)
  · exact major17_means hw hm
  · exact major18_means hw hm
  · exact major19_means hw hm
  · exact major1A_means hw hm
  · exact major1B_means hw hm
  · exact major1C_means hw hm
  · exact major1D_means hw hm
  · exact major1E_means hw hm
  · exact major1F_means hw hm
  · exact means_ite (fun _ => major20_means hw hm) (means_error w _)
  · exact means_ite (fun _ => major21_means hw hm) (means_error w _)
  · exact means_ite (fun _ => major22_means hw hm) (means_error w _)
  · exact means_ite (fun _ => major23_means hw hm) (means_error w _)
  · exact means_ite (fun _ => major24_means hw hm) (means_error w _)
  · exact means_ite (fun _ => major25_means hw hm) (means_error w _)
  · exact means_ite (fun _ => major26_means hw hm) (means_error w _)
  · exact means_ite (fun _ => major28_means hw hm) (means_error w _)
  · exact means_ite (fun _ => major30_means hw hm) (means_error w _)
  · exact means_ite (fun _ => major31_means hw hm) (means_error w _)
  · exact means_ite (fun _ => major32_means hw hm) (means_error w _)
  · exact means_ite (fun _ => major33_means hw hm) (means_error w _)
  · exact means_ite (fun _ => major34_means hw hm) (means_error w _)
  · exact means_ite (fun _ => major35_means hw hm) (means_error w _)
  · exact means_ite (fun _ => major36_means hw hm) (means_error w _)
  · exact means_ite (fun _ => major37_means hw hm) (means_error w _)
  · exact means_ite (fun _ => major38_means hw hm) (means_error w _)
  · exact means_ite (fun _ => major39_means hw hm) (means_error w _)
  · exact means_ite (fun _ => means_ite (fun _ => roundTrip_VFmaOps.means hw hm (fld_zero w 0) fun _ => ⟨rfl, rfl⟩) (means_error w _))
      (means_error w _)
  · exact means_ite (fun _ => major3C_means hw hm) (means_error w _)
  · exact means_error w _

/-! ### Every instruction with a word -/

/-- The word of a well-formed instruction decodes to it: by format, for each instruction of the format in the majors that hold it. -/
theorem decodes_of_encode {i : Instr} {w : Nat} (hi : wellFormed i = true) (h : encode i = some w) : Decodes w i := by
  cases i with
  | add o | sub o | mul o | mulh o | mulhz o | div o | divz o | rem o | remz o | and o | or o | xor o | andn o | shl o | shr o
  | sha o | min o | max o | minz o | maxz o | adda o | sext o | pick o | tlbprobe o | launch o | post o | swtake o | ahist o
  | tdef o | frmap o | cbmap o =>
    exact roundTrip_DABP.decodes h (by decide) fun hm hf _ => by
      unfold decodeIn homeSec major00 major1F major22 major23 major26; rw [hm, hf]; rfl
  | clz o | ctz o | popc o | fgstat o | fglate o | take o | coord o | stgq o | astat o | cstat o | cresume o | ccancel o
  | mstat o =>
    exact roundTrip_DAP.decodes h (by decide) fun hm hf _ => by
      unfold decodeIn homeSec major00 major21 major22 major23 major26 major28; rw [hm, hf]; rfl
  | addi o | andi o | ori o | xori o =>
    exact roundTrip_DAI.decodes h (by decide) fun hm _ _ => by unfold decodeIn homeSec major01 major02 major03 major04; rw [hm]; rfl
  | shli o | shri o | shai o =>
    exact roundTrip_DAH.decodes h (by decide) fun hm hf _ => by unfold decodeIn homeSec major05; rw [hm, hf]; rfl
  | lil o | lih o =>
    exact roundTrip_DI.decodes h (by decide) fun hm _ _ => by unfold decodeIn homeSec major06 major07; rw [hm]; rfl
  | plog o =>
    exact roundTrip_PlogOps.decodes h (by decide) fun hm hf _ => by unfold decodeIn homeSec major0C; rw [hm, hf]; rfl
  | sel o =>
    exact roundTrip_SelOps.decodes h (by decide) fun hm hf _ => by unfold decodeIn homeSec major0C; rw [hm, hf]; rfl
  | br o | call o =>
    exact roundTrip_BOps.decodes h (by decide) fun hm _ _ => by unfold decodeIn homeSec major0D major0E; rw [hm]; rfl
  | jmp o | callr o | preempt o | halt o | wflush o | fgstop o | fgmc o | yieldJob o | doneJob o | swcfg o | amode o | aown o
  | aforce o | aclr o | cfollow o | publish o | cwait o | mcfg o | wload o | wflip o | mmul o | mtag o | mclr o | mpace o =>
    exact roundTrip_AP.decodes h (by decide) fun hm hf _ => by
      unfold decodeIn homeSec major0F major1F major21 major22 major23 major25 major26 major28; rw [hm, hf]; rfl
  | ret o | tret o | arel o | mrel o | mswap o | mdrain o =>
    exact roundTrip_GP.decodes h (by decide) fun hm hf _ => by unfold decodeIn homeSec major0F major1F major23 major28; rw [hm, hf]; rfl
  | ndim o =>
    exact roundTrip_NdimOps.decodes h (by decide) fun hm hf _ => by unfold decodeIn homeSec major10; rw [hm, hf]; rfl
  | nest o =>
    exact roundTrip_NestOps.decodes h (by decide) fun hm hf _ => by unfold decodeIn homeSec major10; rw [hm, hf]; rfl
  | lidx o =>
    exact roundTrip_LidxOps.decodes h (by decide) fun hm hf _ => by unfold decodeIn homeSec major10; rw [hm, hf]; rfl
  | ld o =>
    exact roundTrip_LdOps.decodes h (by decide) fun hm _ _ => by unfold decodeIn homeSec major11; rw [hm]; rfl
  | st o =>
    exact roundTrip_StOps.decodes h (by decide) fun hm _ _ => by unfold decodeIn homeSec major13; rw [hm]; rfl
  | ldn o =>
    exact roundTrip_LdnOps.decodes h (by decide) fun hm hf _ => by unfold decodeIn homeSec major14; rw [hm, hf]; rfl
  | stn o =>
    exact roundTrip_StnOps.decodes h (by decide) fun hm hf _ => by unfold decodeIn homeSec major14; rw [hm, hf]; rfl
  | csrr o =>
    exact roundTrip_CsrrOps.decodes h (by decide) fun hm hf _ => by unfold decodeIn homeSec major17; rw [hm, hf]; rfl
  | csrw o =>
    exact roundTrip_CsrwOps.decodes h (by decide) fun hm hf _ => by unfold decodeIn homeSec major17; rw [hm, hf]; rfl
  | cyc o | copy o | gather o | scatter o | cfill o | kvlist o | ttile o =>
    exact roundTrip_DP.decodes h (by decide) fun hm hf _ => by unfold decodeIn homeSec major18 major25; rw [hm, hf]; rfl
  | nop o =>
    exact roundTrip_Bare_six.decodes h (by decide) fun hm hf _ => by unfold decodeIn homeSec major18; rw [hm, hf]; rfl
  | trap o =>
    exact roundTrip_TrapOps.decodes h (by decide) fun hm hf _ => by unfold decodeIn homeSec major18; rw [hm, hf]; rfl
  | semsig o | semwait o =>
    exact roundTrip_YABsk.decodes h (by decide) fun hm hf _ => by unfold decodeIn homeSec major1A; rw [hm, hf]; rfl
  | semtry o | semadd o | semcas o | bararr o | barwait o =>
    exact roundTrip_YDABsk.decodes h (by decide) fun hm hf _ => by unfold decodeIn homeSec major1A major1B; rw [hm, hf]; rfl
  | semrd o | mtxtry o =>
    exact roundTrip_YDAsk.decodes h (by decide) fun hm hf _ => by unfold decodeIn homeSec major1A major1B; rw [hm, hf]; rfl
  | mtxlock o | mtxfree o =>
    exact roundTrip_YAsk.decodes h (by decide) fun hm hf _ => by unfold decodeIn homeSec major1B; rw [hm, hf]; rfl
  | rdv o =>
    exact roundTrip_Bare_three.decodes h (by decide) fun hm hf _ => by unfold decodeIn homeSec major1B; rw [hm, hf]; rfl
  | evset o =>
    exact roundTrip_YAk.decodes h (by decide) fun hm hf _ => by unfold decodeIn homeSec major1C; rw [hm, hf]; rfl
  | evclr o | sleepu o =>
    exact roundTrip_YA.decodes h (by decide) fun hm hf _ => by unfold decodeIn homeSec major1C major1E; rw [hm, hf]; rfl
  | evwait o =>
    exact roundTrip_YABk.decodes h (by decide) fun hm hf _ => by unfold decodeIn homeSec major1C; rw [hm, hf]; rfl
  | waitlt o =>
    exact roundTrip_YAB.decodes h (by decide) fun hm hf _ => by unfold decodeIn homeSec major1C; rw [hm, hf]; rfl
  | claim o | commit o | await o | retire o =>
    exact roundTrip_YDABk.decodes h (by decide) fun hm hf _ => by unfold decodeIn homeSec major1D; rw [hm, hf]; rfl
  | waita o =>
    exact roundTrip_YDAB.decodes h (by decide) fun hm hf _ => by unfold decodeIn homeSec major1E; rw [hm, hf]; rfl
  | mode o =>
    exact roundTrip_ModeOps.decodes h (by decide) fun hm hf _ => by unfold decodeIn homeSec major1F; rw [hm, hf]; rfl
  | ctxsave o | ctxload o | semmap o | tlbinv o | hint o | fgstart o | fgwin o | fgpace o | fgmark o | asamp o | athr o | mband o
  | msave o | mrest o =>
    exact roundTrip_ABP.decodes h (by decide) fun hm hf _ => by unfold decodeIn homeSec major1F major21 major23 major28; rw [hm, hf]; rfl
  | qcfg o | qfree o | mcast o =>
    exact roundTrip_CAQ.decodes h (by decide) fun hm hf _ => by unfold decodeIn homeSec major20; rw [hm, hf]; rfl
  | chmap o | send o =>
    exact roundTrip_CAH.decodes h (by decide) fun hm hf _ => by unfold decodeIn homeSec major20; rw [hm, hf]; rfl
  | sends o =>
    exact roundTrip_CPAH.decodes h (by decide) fun hm hf _ => by unfold decodeIn homeSec major20; rw [hm, hf]; rfl
  | recv o | recvs o =>
    exact roundTrip_CDAQ.decodes h (by decide) fun hm hf _ => by unfold decodeIn homeSec major20; rw [hm, hf]; rfl
  | peek o =>
    exact roundTrip_CDQ.decodes h (by decide) fun hm hf _ => by unfold decodeIn homeSec major20; rw [hm, hf]; rfl
  | qstat o =>
    exact roundTrip_CDAH.decodes h (by decide) fun hm hf _ => by unfold decodeIn homeSec major20; rw [hm, hf]; rfl
  | cset o | cldc o | cstc o =>
    exact roundTrip_KRA.decodes h (by decide) fun hm hf _ => by unfold decodeIn homeSec major24; rw [hm, hf]; rfl
  | cseti o =>
    exact roundTrip_KRI.decodes h (by decide) fun hm hf _ => by unfold decodeIn homeSec major24; rw [hm, hf]; rfl
  | cdim o =>
    exact roundTrip_KDim.decodes h (by decide) fun hm hf _ => by unfold decodeIn homeSec major24; rw [hm, hf]; rfl
  | vshape o =>
    exact roundTrip_VShapeOps.decodes h (by decide) fun hm hf _ => by unfold decodeIn homeSec major30; rw [hm, hf]; rfl
  | vld o | vsplat o | vaccr o =>
    exact roundTrip_VWA.decodes h (by decide) fun hm hf _ => by unfold decodeIn homeSec major30 major31; rw [hm, hf]; rfl
  | vst o | vaccw o =>
    exact roundTrip_VSA.decodes h (by decide) fun hm hf _ => by unfold decodeIn homeSec major30 major31; rw [hm, hf]; rfl
  | vldm o =>
    exact roundTrip_VMA.decodes h (by decide) fun hm hf _ => by unfold decodeIn homeSec major30; rw [hm, hf]; rfl
  | vstm o =>
    exact roundTrip_VAM.decodes h (by decide) fun hm hf _ => by unfold decodeIn homeSec major30; rw [hm, hf]; rfl
  | vgat o =>
    exact roundTrip_VGatOps.decodes h (by decide) fun hm hf _ => by unfold decodeIn homeSec major30; rw [hm, hf]; rfl
  | vsct o =>
    exact roundTrip_VSctOps.decodes h (by decide) fun hm hf _ => by unfold decodeIn homeSec major30; rw [hm, hf]; rfl
  | vmovs o =>
    exact roundTrip_VMovsOps.decodes h (by decide) fun hm hf _ => by unfold decodeIn homeSec major31; rw [hm, hf]; rfl
  | viota o =>
    exact roundTrip_VIotaOps.decodes h (by decide) fun hm hf _ => by unfold decodeIn homeSec major31; rw [hm, hf]; rfl
  | vadd o | vsub o | vmul o | vmax o | vmin o | vclamp o | vscale o | viadd o | visub o | vimul o | vand o | vor o | vxor o
  | vshl o | vshr o | vsha o | vsel o | vperm o =>
    exact roundTrip_VWXY.decodes h (by decide) fun hm hf _ => by
      unfold decodeIn homeSec major32 major33 major35 major36 major37 major38; rw [hm, hf]; rfl
  | vabs o | vneg o | vrcp o | vrsq o | vexp o | vlog o | vpart o | vtrn o =>
    exact roundTrip_VWX.decodes h (by decide) fun hm hf _ => by unfold decodeIn homeSec major32 major33 major38; rw [hm, hf]; rfl
  | vcvt o | vred o | vredc o | vscan o | vhist o | vord o =>
    exact roundTrip_VWXB.decodes h (by decide) fun hm hf _ => by unfold decodeIn homeSec major34 major38; rw [hm, hf]; rfl
  | vquant o =>
    exact roundTrip_VQuantOps.decodes h (by decide) fun hm hf _ => by unfold decodeIn homeSec major34; rw [hm, hf]; rfl
  | vcmp o | vicmp o =>
    exact roundTrip_VCmpOps.decodes h (by decide) fun hm hf _ => by unfold decodeIn homeSec major37; rw [hm, hf]; rfl
  | vmlog o =>
    exact roundTrip_VMlogOps.decodes h (by decide) fun hm hf _ => by unfold decodeIn homeSec major37; rw [hm, hf]; rfl
  | vmpop o | vmfirst o =>
    exact roundTrip_VMdOps.decodes h (by decide) fun hm hf _ => by unfold decodeIn homeSec major37; rw [hm, hf]; rfl
  | vosm o =>
    exact roundTrip_VOsmOps.decodes h (by decide) fun hm hf _ => by unfold decodeIn homeSec major39; rw [hm, hf]; rfl
  | ttclr o =>
    exact roundTrip_TA.decodes h (by decide) fun hm hf _ => by unfold decodeIn homeSec major3C; rw [hm, hf]; rfl
  | ttnew o | ttadd o | ttload o =>
    exact roundTrip_TDAB.decodes h (by decide) fun hm hf _ => by unfold decodeIn homeSec major3C; rw [hm, hf]; rfl
  | ttstore o =>
    exact roundTrip_TAB.decodes h (by decide) fun hm hf _ => by unfold decodeIn homeSec major3C; rw [hm, hf]; rfl
  | ttmask o =>
    exact roundTrip_TMA.decodes h (by decide) fun hm hf _ => by unfold decodeIn homeSec major3C; rw [hm, hf]; rfl
  | ttpos o | ttpath o | ttprune o =>
    exact roundTrip_TWA.decodes h (by decide) fun hm hf _ => by unfold decodeIn homeSec major3C; rw [hm, hf]; rfl
  | ttdepth o =>
    exact roundTrip_TWAB.decodes h (by decide) fun hm hf _ => by unfold decodeIn homeSec major3C; rw [hm, hf]; rfl
  | ttstat o =>
    exact roundTrip_TDA.decodes h (by decide) fun hm hf _ => by unfold decodeIn homeSec major3C; rw [hm, hf]; rfl
  | cmp o =>
    exact roundTrip_CmpOps.decodes h (by decide) fun hm _ ho => by unfold decodeIn homeSec major0A; rw [hm]; exact if_pos (getCmpOps_condition ho)
  | cmpi o =>
    exact roundTrip_CmpiOps.decodes h (by decide) fun hm _ ho => by unfold decodeIn homeSec major0B; rw [hm]; exact if_pos (getCmpiOps_condition ho)
  | vfma o =>
    exact roundTrip_VFmaOps.decodes h (by decide) fun hm _ ho => by unfold decodeIn homeSec major3A; rw [hm]; exact if_pos (getVFmaOps_variant ho)
  | fld o =>
    exact roundTrip_FldOps.decodes h (by decide) fun hm _ ho => by unfold decodeIn homeSec major15; rw [hm]; exact if_neg ((getFldOps_marked ho).1 hi)
  | fst o =>
    exact roundTrip_FstOps.decodes h (by decide) fun hm _ ho => by unfold decodeIn homeSec major16; rw [hm]; exact if_neg ((getFstOps_marked ho).1 hi)
  | bfx o =>
    exact roundTrip_BfOps.decodes h (by decide) fun hm _ ho => by unfold decodeIn homeSec major08; rw [hm, ho]; exact if_pos (of_decide_eq_true hi)
  | bfi o =>
    exact roundTrip_BfOps.decodes h (by decide) fun hm _ ho => by unfold decodeIn homeSec major09; rw [hm, ho]; exact if_pos (of_decide_eq_true hi)
  | ldz o =>
    exact roundTrip_LdOps.decodes h (by decide) fun hm _ ho => by unfold decodeIn homeSec major12; rw [hm, ho]; exact if_neg (of_decide_eq_true hi)
  | fence o =>
    exact roundTrip_FenceOps.decodes h (by decide) fun hm _ ho => by
      unfold decodeIn homeSec major19; rw [hm, ho]; exact congrArg (whenZero w _) (if_neg (of_decide_eq_true hi))
  | _ => exact nomatch h

/-- An event has no word, and names nothing. -/
theorem useOf_of_encode_none {i : Instr} (s : Machine.State) (h : encode i = none) : Machine.useOf s i = none := by
  cases i
  any_goals rfl
  all_goals exact nomatch h

/-! ### The sections, and the bytes of a word -/

theorem eq_ok_of_ite {p : Prop} [Decidable p] {x : Except DecodeError Instr} {e : DecodeError} {i : Instr}
    (h : (if p then x else .error e) = .ok i) : x = .ok i := by
  split at h
  · exact h
  · cases h

/-- A function of major 0x1F means the same in the ctl section (R59). -/
theorem major1F_ctl {sec : Sec} {w : Nat} {i : Instr} (h : major1F sec w = .ok i) : major1F .ctl w = .ok i := by
  unfold major1F at h ⊢
  split at h
  any_goals exact h
  all_goals exact eq_ok_of_ite h

/-- A word that a section takes means the same where its major is assigned. -/
theorem decodeIn_homeSec {sec : Sec} {w : Nat} {i : Instr} (h : decodeIn sec w = .ok i) : decodeIn (homeSec w) w = .ok i := by
  unfold decodeIn homeSec at *
  generalize fld w 25 6 = m at *
  split at h
  any_goals exact h
  any_goals exact eq_ok_of_ite h
  exact major1F_ctl h

theorem wordOfBytes_bytesOfWord {w : Nat} (hw : w < 2 ^ 32) :
    wordOfBytes (BitVec.ofNat 8 (fld w 0 8)) (BitVec.ofNat 8 (fld w 8 8)) (BitVec.ofNat 8 (fld w 16 8)) (BitVec.ofNat 8 (fld w 24 8)) = w := by
  simp only [wordOfBytes, BitVec.toNat_ofNat, fld]
  omega

theorem decodeTableWord_eq {w : Nat} {i : Instr} (h : Decodes w i) : decodeTableWord 32 w = some i := by
  obtain ⟨hw, hd⟩ := h
  simp only [decodeTableWord, bytesOfWord, decodeBytes, Nat.mod_eq_of_lt hw, wordOfBytes_bytesOfWord hw, hd]

/-- Settles O58: each direction by the rule for it, and one meaning by the section of the major. -/
theorem encodeDecode : Obligations.EncodeDecode := by
  unfold Obligations.EncodeDecode
  refine ⟨fun i w hi h => ?_, fun i => useOf_of_encode_none _, fun sec w i hw h => decodeIn_means hw i h, fun sec w i h j hj => ?_⟩
  · have hd := decodes_of_encode hi h
    exact ⟨hd.1, hd.2, decodeTableWord_eq hd⟩
  · exact Except.ok.inj (hj.symm.trans (decodeIn_homeSec h))

/-- Settles O57: the decoder is run on each word. -/
theorem decodeWords : Obligations.DecodeWords := by
  unfold Obligations.DecodeWords
  and_intros <;> rfl

end Sys2Proof
end

