-- ==== Sys2Proof/Proofs/IssueOfWords.lean ====
section
/-! O15, O16 and O6: every instruction word issues through `issue`, so that the checks before it and a false guard are the same for all; and BR and
JMP, which transfer. -/

namespace Sys2Proof.Machine

/-! ### Every word issues -/

theorem exec_csrr_of_assigned {o : CsrrOps} {s : State} (h : csrAssigned s.turn o.c.val = true) :
    exec (.csrr o) s = issue (.csrr o) (useCsrrOps o)
      (fun s => if csrSupRead o.c.val && !s.cur.priv then forbidden 0 else .done (wrD o.d (csrValue s o.c.val) 6 s)) s := by
  show execCsrr o s = _
  simp [execCsrr, h]

theorem exec_csrw_of_assigned {o : CsrwOps} {s : State} (h : csrAssigned s.turn o.c.val = true) :
    exec (.csrw o) s = issue (.csrw o) (useCsrwOps o)
      (fun s => if csrSupWrite o.c.val && !s.cur.priv then forbidden 0 else .done (csrWrite o.c.val (rdS s o.a) s)) s := by
  show execCsrw o s = _
  simp [execCsrw, h]

/-- An instruction that names locations is a word, and its meaning is `issue` of some body. -/
theorem exec_eq_issue {i : Instr} {u : Use} {s : State} (h : useOf s i = some u) : ∃ body, exec i s = issue i u body s := by
  cases i
  case csrr o =>
    obtain ⟨ha, ⟨⟩⟩ := Option.ite_none_right_eq_some.1 h
    exact ⟨_, exec_csrr_of_assigned ha⟩
  case csrw o =>
    obtain ⟨ha, ⟨⟩⟩ := Option.ite_none_right_eq_some.1 h
    exact ⟨_, exec_csrw_of_assigned ha⟩
  all_goals cases h
  all_goals exact ⟨_, rfl⟩

/-! ### The checks (R61) -/

theorem decodeTrap_of_section {i : Instr} {s : State} {k : Nat} (h : sectionCheck i s.turn = some k) :
    decodeTrap i s = some (illegalRec ((encode i).getD 0) k 0) := by
  simp [decodeTrap, h]

theorem decodeTrap_of_form {i : Instr} {s : State} (h : sectionCheck i s.turn = none) (hw : wellFormed i = false) :
    decodeTrap i s = some (illegalRec ((encode i).getD 0) (formCheck i) 0) := by
  simp [decodeTrap, h, hw]

theorem decodeTrap_of_wellFormed {i : Instr} {s : State} (h : sectionCheck i s.turn = none) (hw : wellFormed i = true) :
    decodeTrap i s = if isSupervisor i = true ∧ s.cur.priv = false then some (mkTrap cPrivilege 0 0) else none := by
  simp [decodeTrap, h, hw]

/-- Settles O15: every word is issued, and the checks are the branches of `decodeTrap`. -/
theorem issueChecks : Obligations.IssueChecks := by
  unfold Obligations.IssueChecks
  intro i u s hu
  obtain ⟨body, hi⟩ := exec_eq_issue hu
  exact ⟨fun r hr => hi.trans (issue_illegal hr), fun hd hh => hi.trans (issue_stall hd hh), fun k => decodeTrap_of_section,
    decodeTrap_of_form, decodeTrap_of_wellFormed⟩

/-! ### BR and JMP -/

theorem transfers_of_body {i : Instr} {u : Use} {body : State → Eff} {ok : State → Prop} {eff : State → State}
    (hi : ∀ s, exec i s = issue i u body s) (hb : ∀ s, ok s → body s = .jump (eff s)) : transfers i u ok eff :=
  fun s hs ho => (hi s).trans (issue_jump hs (hb _ ho))

/-- BR transfers when its predicate differs from its negate bit (R56). -/
theorem br_transfers (o : BOps) : transfers (.br o) (useBOps o) (fun s => rdP s o.p ≠ o.n) fun s => setPc s (branchTarget s.cur.pc o.o) :=
  transfers_of_body (fun _ => rfl) fun _ h => if_pos (bne_iff_ne.2 h)

/-- BR is a plain boundary when its predicate is its negate bit (R56). -/
theorem br_performs (o : BOps) : performs (.br o) (useBOps o) (fun s => rdP s o.p = o.n) id :=
  performs_of_body (fun _ => rfl) fun _ h => if_neg (mt bne_iff_ne.1 (not_not_intro h))

theorem jumpTarget_eq (a : Word) : jumpTarget a = BitVec.ofNat 22 a.toNat := (BitVec.ofNat_toNat 22 a).symm

theorem toNat_jumpTarget (a : Word) : (jumpTarget a).toNat = a.toNat % 2 ^ 22 := BitVec.toNat_setWidth 22 a

/-- The alignment of a target is that of its register (R94). -/
theorem jumpTarget_mod_four (a : Word) : (jumpTarget a).toNat % 4 = a.toNat % 4 := by
  rw [toNat_jumpTarget, Nat.mod_mod_of_dvd _ (by decide)]

theorem jmp_transfers (o : AP) :
    transfers (.jmp o) (useAP o) (fun s => (rdS s o.a).toNat % 4 = 0) fun s => setPc s (BitVec.ofNat 22 (rdS s o.a).toNat) := by
  refine transfers_of_body (fun _ => rfl) fun s h => ?_
  rw [← jumpTarget_eq]
  exact if_neg (not_not_intro ((jumpTarget_mod_four _).trans h))

theorem jmp_misaligned (o : AP) :
    traps (.jmp o) (useAP o) (fun s => (rdS s o.a).toNat % 4 ≠ 0) fun s => mkTrap cAlignment 0 ((rdS s o.a).toNat % 2 ^ 22) := by
  refine traps_of_body (fun _ => rfl) fun s h => ?_
  rw [← toNat_jumpTarget]
  exact if_pos ((jumpTarget_mod_four _).trans_ne h)

/-- Settles O6: BR by its predicate and its negate bit, JMP by the alignment of its target. -/
theorem branchesAndJumps : Obligations.BranchesAndJumps :=
  ⟨fun o => ⟨br_transfers o, br_performs o⟩, fun o => ⟨jmp_transfers o, jmp_misaligned o⟩⟩

/-! ### A false guard (R56) -/

/-- Where no vector is pushed, a word that is guarded off pushes a scalar zero or does nothing. -/
theorem guardedOff_scalar {u : Use} (s : State) (h : u.vdst ≠ some .push) :
    guardedOff u s = if u.dst = some .push then wrD .push 0 0 s else s := by
  unfold guardedOff
  rcases hd : u.dst with _ | _ | _ <;> rcases hv : u.vdst with _ | _ | _ <;> simp_all

/-- A word that pushes a vector and is guarded off pushes a zero image, readable at once. -/
theorem guardedOff_vector {u : Use} (s : State) (h : u.vdst = some .push) (hd : u.dst = none) :
    guardedOff u s = s.setCore { s.core with vec := s.core.vec.push { val := 0, ready := 0 } } := by
  simp [guardedOff, h, hd]

/-- Settles O16: a guarded word by `issue_guarded`, the branches by the two cases of BR. -/
theorem falseGuards : Obligations.FalseGuards := by
  unfold Obligations.FalseGuards
  refine ⟨fun i u s hu hs hg => ?_, fun u s hv => guardedOff_scalar s hv, fun u s => guardedOff_vector s, rdP_zero, fun o => ⟨rfl, ?_, ?_⟩⟩
  · obtain ⟨body, hi⟩ := exec_eq_issue hu
    have hoff : ¬ guardTrue u s := by simp [guardTrue, hg]
    exact hi.trans (issue_guarded hs hoff)
  · exact fun s hs ⟨hp, hn⟩ => br_transfers o s hs (by simp [hp, hn])
  · exact fun s hs ⟨hp, hn⟩ => br_performs o s hs (by simp [hp, hn])

end Sys2Proof.Machine
end

