-- ==== Sys2Proof/Proofs/ScalarFrame.lean ====
section
/-! O55: a word that writes one scalar destination, outside a nest, leaves everything else as it was. -/

namespace Sys2Proof.Machine

/-! ### What a write of a destination leaves in its stream (R64, R65) -/

/-- The bank that is not in use. -/
theorem writeD_otherBank (x : Stream) (d : SDst) (v : Word) (b : Nat) :
    if x.priv then (x.writeD d v b).job = x.job else (x.writeD d v b).sup = x.sup := by
  unfold Stream.writeD Stream.putSlot Stream.setBank
  cases d <;> cases x.priv <;> rfl

theorem writeD_bank_push (x : Stream) (v : Word) (b : Nat) :
    (x.writeD .push v b).bank = { x.bank with q := pushSlot x.bank.q { val := v, ready := x.clk + b, fld := none } } :=
  setBank_bank x _

theorem writeD_bank_n (x : Stream) (i : Fin 16) (v : Word) (b : Nat) :
    (x.writeD (.n i) v b).bank =
      { x.bank with regs := x.bank.regs.set (physReg x.groups x.bank.depth i) { val := v, ready := x.clk + b, fld := none } } :=
  setBank_bank x _

/-- Nothing of the bank in use but its registers and its queue. -/
theorem writeD_bank_frame (x : Stream) (d : SDst) (v : Word) (b : Nat) :
    { (x.writeD d v b).bank with regs := x.bank.regs, q := x.bank.q } = x.bank := by
  cases d with
  | push => rw [writeD_bank_push]
  | n i => rw [writeD_bank_n]

/-- The queue after a push: every entry moves up by one (R64). -/
theorem pushSlot_succ {α : Type} (q : Vector α 16) (x : α) (i j : Fin 16) (h : j.val = i.val + 1) : (pushSlot q x)[j] = q[i] := by
  obtain ⟨i, hi⟩ := i
  obtain ⟨j, hj⟩ := j
  obtain rfl : j = i + 1 := h
  have : i < 15 := by omega
  interval_cases i <;> rfl

theorem writeD_push_regs (x : Stream) (v : Word) (b : Nat) : (x.writeD .push v b).bank.regs = x.bank.regs := by
  rw [writeD_bank_push]

theorem writeD_push_q (x : Stream) (v : Word) (b : Nat) (i j : Fin 16) (h : j.val = i.val + 1) :
    (x.writeD .push v b).bank.q[j] = x.bank.q[i] := by
  rw [writeD_bank_push]
  exact pushSlot_succ _ _ i j h

theorem writeD_n_q (x : Stream) (i : Fin 16) (v : Word) (b : Nat) : (x.writeD (.n i) v b).bank.q = x.bank.q := by
  rw [writeD_bank_n]

theorem writeD_n_regs_ne (x : Stream) (i : Fin 16) (v : Word) (b : Nat) (r : Fin 128) (h : r ≠ physReg x.groups x.bank.depth i) :
    (x.writeD (.n i) v b).bank.regs[r] = x.bank.regs[r] := by
  rw [writeD_bank_n]
  exact Vector.getElem_set_ne (Fin.isLt _) r.isLt fun e => h (Fin.ext e.symm)

/-! ### The whole word -/

/-- The stream as its next word finds it, at that word's issue cycle (R62). -/
def Stream.atIssue (ccc : Nat) (x : Stream) : Stream := { x with clk := x.nextClk ccc, settling := false }

theorem startIssue_cur_eq (s : State) : (startIssue s).cur = s.cur.atIssue s.ccc := startIssue_cur s

theorem startIssue_str_ne {s : State} {t : Sec} (h : t ≠ s.turn) : (startIssue s).str t = s.str t := setCur_str_ne s _ h

theorem wrD_cur (d : SDst) (v : Word) (b : Nat) (s : State) : (wrD d v b s).cur = s.cur.writeD d v b := setCur_cur s _

theorem wrD_str_ne (d : SDst) (v : Word) (b : Nat) {s : State} {t : Sec} (h : t ≠ s.turn) : (wrD d v b s).str t = s.str t := setCur_str_ne s _ h

theorem completed_eq (u : Use) (s : State) :
    completed u s = s.setCur { s.cur.advance with settling := u.settle || s.cur.advance.settling } := by
  unfold completed endIssue advance
  cases u.settle <;> simp

/-- A scalar result and the plain boundary after it are a frame of one register (R62, R64, R65, R67). -/
theorem registerFrame_completed {s : State} (hn : s.cur.bank.nest.active = false) (u : Use) (d : SDst) (v : Word) (b : Nat) :
    registerFrame d s (completed u (wrD d v b (startIssue s))) := by
  have hcur : (wrD d v b (startIssue s)).cur = (s.cur.atIssue s.ccc).writeD d v b := by rw [wrD_cur, startIssue_cur_eq]
  have hframe := writeD_frame (s.cur.atIssue s.ccc) d v b
  have hbank := writeD_bank_frame (s.cur.atIssue s.ccc) d v b
  have hnest : ((s.cur.atIssue s.ccc).writeD d v b).bank.nest.active = false := (congrArg (·.nest.active) hbank :).trans hn
  rw [completed_eq, hcur, advance_plain hnest]
  unfold registerFrame
  rw [setCur_cur]
  refine ⟨⟨rfl, rfl⟩, fun t ht => ?_, ?_, ?_, writeD_otherBank (s.cur.atIssue s.ccc) d v b, hbank, ?_⟩
  · exact (setCur_str_ne (wrD d v b (startIssue s)) _ ht).trans ((wrD_str_ne d v b (s := startIssue s) ht).trans (startIssue_str_ne ht))
  · exact (congrArg (·.pc + 4) hframe :)
  · exact (congrArg (fun y : Stream => { y with pc := s.cur.pc, clk := s.cur.clk, settling := s.cur.settling }) hframe :)
  · cases d with
    | push => exact ⟨writeD_push_regs (s.cur.atIssue s.ccc) v b, writeD_push_q (s.cur.atIssue s.ccc) v b⟩
    | n i => exact ⟨writeD_n_q (s.cur.atIssue s.ccc) i v b, writeD_n_regs_ne (s.cur.atIssue s.ccc) i v b⟩

/-- A word whose body writes one scalar result. -/
def WritesScalar (i : Instr) (u : Use) (d : SDst) : Prop :=
  ∃ (v : State → Word) (b : Nat), ∀ s, entered i s = startIssue s ∧ exec i s = issue i u (fun s => .done (wrD d (v s) b s)) s

theorem WritesScalar.frame {i : Instr} {u : Use} {d : SDst} {s t : State} (hi : WritesScalar i u d) (hs : issues i u s)
    (hn : s.cur.bank.nest.active = false) (ht : exec i s = .next t) : registerFrame d s t := by
  obtain ⟨v, b, hi⟩ := hi
  obtain ⟨he, hx⟩ := hi s
  have hdone : exec i s = .next (completed u (wrD d (v (startIssue s)) b (startIssue s))) := he ▸ hx.trans (issue_done hs rfl)
  obtain rfl := Host.Outcome.next.inj (hdone.symm.trans ht)
  exact registerFrame_completed hn u d _ b

/-- Settles O55: each word of the list writes one scalar result, and memory and scratchpad lie outside the streams. -/
theorem scalarFrame : Obligations.ScalarFrame := by
  unfold Obligations.ScalarFrame
  refine ⟨fun o i s t hi => WritesScalar.frame ?_, fun o i s t hi => WritesScalar.frame ?_, fun o i s t hi => WritesScalar.frame ?_,
    fun o i s t hi => WritesScalar.frame ?_, fun o s t => WritesScalar.frame ?_, fun o s t => WritesScalar.frame ?_, fun s t a h => ?_⟩
  · fin_cases hi <;> exact ⟨_, _, fun _ => ⟨rfl, rfl⟩⟩
  · fin_cases hi <;> exact ⟨_, _, fun _ => ⟨rfl, rfl⟩⟩
  · fin_cases hi <;> exact ⟨_, _, fun _ => ⟨rfl, rfl⟩⟩
  · fin_cases hi <;> exact ⟨_, _, fun _ => ⟨rfl, rfl⟩⟩
  · exact ⟨_, _, fun _ => ⟨rfl, rfl⟩⟩
  · exact ⟨_, _, fun _ => ⟨rfl, rfl⟩⟩
  · obtain ⟨hs, hc⟩ := h
    exact ⟨(congrArg (fun x : State => Memory.get x.mem a) hs :), (congrArg (spadByte · a) hc :)⟩

end Sys2Proof.Machine
end

