-- ==== Sys2Proof/Proofs/LocalSemaphores.lean ====
section
/-! O17: the semaphore words at a semaphore of the own core, by what each operation makes of its value. -/

namespace Sys2Proof.Machine

/-! ### The value operations (R137) -/

/-- The high half of a word as a number. -/
theorem bitsOf_high (b : Word) : bitsOf b 32 32 = b.toNat / 2 ^ 32 := Nat.mod_eq_of_lt (by omega)

/-- The low half of a word as a signed number is the word narrowed to it. -/
theorem signed_low (b : Word) : signed 32 (b.toNat % 2 ^ 32) = (b.setWidth 32).toInt := by
  rw [signed, BitVec.toInt_eq_toNat_cond, BitVec.toNat_setWidth]
  split <;> split <;> omega

theorem semEffect_sig {v : Nat} {b : Word} (h : v + b.toNat % 2 ^ 32 < 2 ^ 32) : semEffect .sig v b = some (0, some (v + b.toNat % 2 ^ 32)) := by
  simp only [semEffect, bitsOf_low, if_pos h]

theorem semEffect_sig_over {v : Nat} {b : Word} (h : 2 ^ 32 ≤ v + b.toNat % 2 ^ 32) : semEffect .sig v b = none := by
  simp only [semEffect, bitsOf_low, if_neg (Nat.not_lt.mpr h)]

theorem semEffect_try {v : Nat} {b : Word} (h : b.toNat % 2 ^ 32 ≤ v) : semEffect .try_ v b = some (1, some (v - b.toNat % 2 ^ 32)) := by
  simp only [semEffect, bitsOf_low, if_pos h]

theorem semEffect_try_short {v : Nat} {b : Word} (h : v < b.toNat % 2 ^ 32) : semEffect .try_ v b = some (0, none) := by
  simp only [semEffect, bitsOf_low, if_neg (Nat.not_le.mpr h)]

theorem semEffect_add {v : Nat} {b : Word} (h0 : 0 ≤ (v : Int) + (b.setWidth 32).toInt) (h1 : (v : Int) + (b.setWidth 32).toInt < 2 ^ 32) :
    semEffect .add v b = some (BitVec.ofNat 64 v, some ((v : Int) + (b.setWidth 32).toInt).toNat) := by
  simp only [semEffect, bitsOf_low, signed_low, if_pos (And.intro h0 h1)]

/-- A sum below 0 or above 2^32 - 1 is not stored. -/
theorem semEffect_add_over {v : Nat} {b : Word} (h : (v : Int) + (b.setWidth 32).toInt < 0 ∨ 2 ^ 32 ≤ (v : Int) + (b.setWidth 32).toInt) :
    semEffect .add v b = some (BitVec.ofNat 64 (v + 2 ^ 63), none) := by
  have hn : ¬(0 ≤ (v : Int) + (b.setWidth 32).toInt ∧ (v : Int) + (b.setWidth 32).toInt < 2 ^ 32) := by omega
  simp only [semEffect, bitsOf_low, signed_low, if_neg hn]

theorem semEffect_cas {v : Nat} {b : Word} (h : v = b.toNat % 2 ^ 32) : semEffect .cas v b = some (BitVec.ofNat 64 v, some (b.toNat / 2 ^ 32)) := by
  simp only [semEffect, bitsOf_low, bitsOf_high, if_pos h]

theorem semEffect_cas_other {v : Nat} {b : Word} (h : v ≠ b.toNat % 2 ^ 32) : semEffect .cas v b = some (BitVec.ofNat 64 v, none) := by
  simp only [semEffect, bitsOf_low, if_neg h]

/-! ### A semaphore of the own core -/

section Here
variable {op : SemOp} {c : Scope} {k : Fin 16} {a b : Word} {settle : Bool} {s : State} {p : Nat}

/-- An operation that stores a value gives its result and sets the semaphore, with the grants that follow. -/
theorem semInstr_puts {d : Option SDst} {r : Word} {v : Nat} (hr : (semReleases op && releaseWaits k c s) = false) (hp : semPlace s a = .here p)
    (he : semEffect op (semAt s p).val.toNat b = some (r, some v)) :
    semInstr op c k a b d settle s = .done (d.elim id (fun x => wrD x r 10) (putSemValue p v s)) := by
  cases d <;> simp [semInstr, hr, hp, performSem, he]

/-- One that stores none gives its result alone. -/
theorem semInstr_keeps {d : SDst} {r : Word} (hr : (semReleases op && releaseWaits k c s) = false) (hp : semPlace s a = .here p)
    (he : semEffect op (semAt s p).val.toNat b = some (r, none)) : semInstr op c k a b (some d) settle s = .done (wrD d r 10 s) := by
  simp [semInstr, hr, hp, performSem, he]

theorem semInstr_overflows {d : Option SDst} (hr : (semReleases op && releaseWaits k c s) = false) (hp : semPlace s a = .here p)
    (he : semEffect op (semAt s p).val.toNat b = none) : semInstr op c k a b d settle s = .trap (mkTrap cSync 0x03 0) := by
  simp only [semInstr, hr, hp, performSem, he]
  rfl

/-- A release whose number leads to a semaphore stalls while an access that it orders is outstanding (R121, R132). -/
theorem semInstr_held {d : Option SDst} (ho : semReleases op = true) (hr : releaseWaits k c s = true) (hp : ∀ r, semPlace s a ≠ .bad r) :
    semInstr op c k a b d settle s = .hold := by
  unfold semInstr
  cases h : semPlace s a with
  | bad r => exact absurd h (hp r)
  | here p => simp [ho, hr]
  | there o p => simp [ho, hr]

end Here

/-- SEMWAIT for nothing, or of a semaphore with no queue whose value covers it. -/
theorem semAdmits_of {x : Semaphore} {n : Nat} (h : n = 0 ∨ (x.fifo = [] ∧ n ≤ x.val.toNat)) : semAdmits x n = true := by
  simpa [semAdmits] using h

/-- A semaphore that nobody waits for grants nothing (R138). -/
theorem putSemValue_of_empty {s : State} {p v : Nat} (h : (semAt s p).fifo = []) : putSemValue p v s = setSem s p { val := BitVec.ofNat 32 v, fifo := [] } := by
  simp [putSemValue, h, grantSem]

/-- SEMADD and SEMCAS are releases. -/
theorem semRelease_holds {i : Instr} {o : YDABsk} (hi : i ∈ [Instr.semadd o, .semcas o]) {s : State} (hs : issues i (useYDABsk o) s)
    (hp : ∀ r, semPlace (entered i s) (rdS (entered i s) o.a) ≠ .bad r) (hr : releaseWaits o.k o.c (entered i s) = true) : exec i s = .next s := by
  rw [List.mem_pair] at hi
  obtain rfl | rfl := hi
  all_goals exact issue_hold hs (semInstr_held rfl hr hp)

/-- Settles O17: each word is `semInstr` of its operation, and SEMWAIT is admitted where nothing queues before it. -/
theorem localSemaphores : Obligations.LocalSemaphores := by
  unfold Obligations.LocalSemaphores
  refine ⟨fun o p => ⟨?_, ?_, ?_⟩, fun o p => ⟨?_, ?_, ?_, ?_, ?_, ?_⟩, fun o p => ?_, fun p v s => putSemValue_of_empty,
    fun o s hs hp hr => issue_hold hs (semInstr_held rfl hr hp), fun o s i hi => semRelease_holds hi⟩
  · exact performs_of_body (fun _ => rfl) fun s ⟨hr, hp, hv⟩ => semInstr_puts hr hp (semEffect_sig hv)
  · exact traps_of_body (fun _ => rfl) fun s ⟨hr, hp, hv⟩ => semInstr_overflows hr hp (semEffect_sig_over hv)
  · refine performs_of_body (fun _ => rfl) fun s ⟨hp, hv⟩ => ?_
    simp only [hp, bitsOf_low, semAdmits_of hv, if_true]
  · exact performs_of_body (fun _ => rfl) fun s ⟨hp, hv⟩ => semInstr_puts rfl hp (semEffect_try hv)
  · exact performs_of_body (fun _ => rfl) fun s ⟨hp, hv⟩ => semInstr_keeps rfl hp (semEffect_try_short hv)
  · refine performs_of_body (fun _ => rfl) fun s ⟨hr, hp, h0, h1⟩ => ?_
    rw [← BitVec.ofNat_toNat 64]
    exact semInstr_puts hr hp (semEffect_add h0 h1)
  · exact performs_of_body (fun _ => rfl) fun s ⟨hr, hp, hv⟩ => semInstr_keeps hr hp (semEffect_add_over hv)
  · refine performs_of_body (fun _ => rfl) fun s ⟨hr, hp, hv⟩ => ?_
    rw [← BitVec.ofNat_toNat 64]
    exact semInstr_puts hr hp (semEffect_cas hv)
  · refine performs_of_body (fun _ => rfl) fun s ⟨hr, hp, hv⟩ => ?_
    rw [← BitVec.ofNat_toNat 64]
    exact semInstr_keeps hr hp (semEffect_cas_other hv)
  · refine performs_of_body (fun _ => rfl) fun s hp => ?_
    rw [← BitVec.ofNat_toNat 64]
    exact semInstr_keeps rfl hp rfl

end Sys2Proof.Machine
end

