-- ==== Sys2Proof/Proofs/SendAndReceive.lean ====
section
/-! O24: SEND, SENDS, RECV and RECVS, by the checks they share and by what the channel or the queue holds. -/

namespace Sys2Proof.Machine

/-- A body that stalls: the word changes nothing and is tried again. -/
theorem holds_of_body {i : Instr} {u : Use} {body : State → Eff} {ok : State → Prop} (hi : ∀ s, exec i s = issue i u body s)
    (hb : ∀ s, ok s → body s = .hold) : ∀ s, issues i u s → ok (entered i s) → exec i s = .next s :=
  fun s hs ho => (hi s).trans (issue_hold hs (hb _ ho))

/-! ### The checks of SEND and SENDS (R205, Table 10-3) -/

/-- The cell address of a message word is aligned where its register is. -/
theorem cellAligned (x : Word) : x.toNat % 2 ^ 22 % 64 = x.toNat % 64 := Nat.mod_mod_of_dvd _ (by decide)

section Checks
variable {s : State} {c a : Nat} {q : Fin 16}

theorem sendTrap_invalid (hv : (channelAt s s.turn c).valid = false) : sendTrap s c a = some (msgMisuse 0x01) := by
  simp [sendTrap, hv]

theorem sendTrap_faulted (hv : (channelAt s s.turn c).valid = true) (hf : (channelAt s s.turn c).fault ≠ 0) :
    sendTrap s c a = some (msgMisuse 0x02) := by
  simp [sendTrap, hv, hf]

theorem sendTrap_misaligned (hv : (channelAt s s.turn c).valid = true) (hf : (channelAt s s.turn c).fault = 0) (ha : a % 64 ≠ 0) :
    sendTrap s c a = some (misaligned a) := by
  simp [sendTrap, hv, hf, ha]

theorem sendTrap_forbidden (hv : (channelAt s s.turn c).valid = true) (hf : (channelAt s s.turn c).fault = 0) (ha : a % 64 = 0)
    (hp : s.cur.priv = false) (ht : touchesSr s.core a 64 = true) : sendTrap s c a = some (forbidden a) := by
  simp [sendTrap, hv, hf, ha, hp, ht]

theorem sendTrap_none {x : Word} (h : sendAllowed s c x) : sendTrap s c (x.toNat % 2 ^ 22) = none := by
  obtain ⟨hv, hf, ha, hp⟩ := h
  rw [← cellAligned] at ha
  generalize x.toNat % 2 ^ 22 = a at ha hp
  rcases hp with hp | hp <;> simp [sendTrap, hv, hf, ha, hp]

/-! ### The checks of RECV and RECVS (R208) -/

theorem recvTrap_disabled (he : (queueAt s q).en = false) : recvTrap s q a = some (msgMisuse 0x03) := by
  simp [recvTrap, he]

theorem recvTrap_misaligned (he : (queueAt s q).en = true) (ha : a % 64 ≠ 0) : recvTrap s q a = some (misaligned a) := by
  simp [recvTrap, he, ha]

theorem recvTrap_forbidden (he : (queueAt s q).en = true) (ha : a % 64 = 0) (hp : s.cur.priv = false) (ht : touchesSr s.core a 64 = true) :
    recvTrap s q a = some (forbidden a) := by
  simp [recvTrap, he, ha, hp, ht]

theorem recvTrap_none {x : Word} (he : (queueAt s q).en = true) (h : mayAccessCell s x) : recvTrap s q (x.toNat % 2 ^ 22) = none := by
  obtain ⟨ha, hp⟩ := h
  rw [← cellAligned] at ha
  generalize x.toNat % 2 ^ 22 = a at ha hp
  rcases hp with hp | hp <;> simp [recvTrap, he, ha, hp]

end Checks

/-- A word whose body answers what `sendTrap` finds takes the traps of SEND, first failing check first. -/
theorem send_traps {i : Instr} {u : Use} {body : State → Eff} {c : Nat} {a : SSrc} (hi : ∀ s, exec i s = issue i u body s)
    (hb : ∀ s e, sendTrap s c (bitsOf (rdS s a) 0 22) = some e → body s = e) :
    traps i u (fun s => (channelAt s s.turn c).valid = false) (fun _ => mkTrap 0x09 0x01 0)
    ∧ traps i u (fun s => (channelAt s s.turn c).valid = true ∧ (channelAt s s.turn c).fault ≠ 0) (fun _ => mkTrap 0x09 0x02 0)
    ∧ traps i u (fun s => (channelAt s s.turn c).valid = true ∧ (channelAt s s.turn c).fault = 0 ∧ (rdS s a).toNat % 64 ≠ 0)
      (fun s => mkTrap 0x03 0 ((rdS s a).toNat % 2 ^ 22))
    ∧ traps i u (fun s => (channelAt s s.turn c).valid = true ∧ (channelAt s s.turn c).fault = 0 ∧ (rdS s a).toNat % 64 = 0 ∧ s.cur.priv = false
        ∧ touchesSr s.core ((rdS s a).toNat % 2 ^ 22) 64 = true)
      (fun s => mkTrap 0x02 0 ((rdS s a).toNat % 2 ^ 22)) := by
  simp only [bitsOf_low] at hb
  refine ⟨traps_of_body hi fun s hv => ?_, traps_of_body hi fun s ⟨hv, hf⟩ => ?_, traps_of_body hi fun s ⟨hv, hf, ha⟩ => ?_,
    traps_of_body hi fun s ⟨hv, hf, ha, hp, ht⟩ => ?_⟩
  · exact hb s _ (sendTrap_invalid hv)
  · exact hb s _ (sendTrap_faulted hv hf)
  · exact hb s _ (sendTrap_misaligned hv hf ((cellAligned _).trans_ne ha))
  · exact hb s _ (sendTrap_forbidden hv hf ((cellAligned _).trans ha) hp ht)

/-- A word whose body answers what `recvTrap` finds takes the traps of RECV. -/
theorem recv_traps {i : Instr} {u : Use} {body : State → Eff} {q : Fin 16} {a : SSrc} (hi : ∀ s, exec i s = issue i u body s)
    (hb : ∀ s e, recvTrap s q (bitsOf (rdS s a) 0 22) = some e → body s = e) :
    traps i u (fun s => (queueAt s q).en = false) (fun _ => mkTrap 0x09 0x03 0)
    ∧ traps i u (fun s => (queueAt s q).en = true ∧ (rdS s a).toNat % 64 ≠ 0) (fun s => mkTrap 0x03 0 ((rdS s a).toNat % 2 ^ 22))
    ∧ traps i u (fun s => (queueAt s q).en = true ∧ (rdS s a).toNat % 64 = 0 ∧ s.cur.priv = false
        ∧ touchesSr s.core ((rdS s a).toNat % 2 ^ 22) 64 = true)
      (fun s => mkTrap 0x02 0 ((rdS s a).toNat % 2 ^ 22)) := by
  simp only [bitsOf_low] at hb
  refine ⟨traps_of_body hi fun s he => ?_, traps_of_body hi fun s ⟨he, ha⟩ => ?_, traps_of_body hi fun s ⟨he, ha, hp, ht⟩ => ?_⟩
  · exact hb s _ (recvTrap_disabled he)
  · exact hb s _ (recvTrap_misaligned he ((cellAligned _).trans_ne ha))
  · exact hb s _ (recvTrap_forbidden he ((cellAligned _).trans ha) hp ht)

/-! ### Credit, and the head of a queue -/

/-- A multicast channel takes no credit, and any other has one. -/
theorem mayPay {ch : Channel} (h : ch.mc = true ∨ ch.credit ≠ 0) : (!ch.mc && decide (ch.credit = 0)) = false := by
  simpa [Classical.or_iff_not_imp_left] using h

theorem cannotPay {ch : Channel} (hm : ch.mc = false) (hc : ch.credit = 0) : (!ch.mc && decide (ch.credit = 0)) = true := by
  simp [hm, hc]

/-! ### A sent entry (R205, R207) -/

/-- A channel read back after it is replaced. -/
theorem channelAt_setChannel (t : Sec) (c : Nat) (x : Channel) (s : State) : channelAt (setChannel t c x s) t c = x := by
  unfold channelAt channelTable setChannel
  split <;> exact Vector.getElem_set_self _

/-- A point-to-point entry for a core that is present goes to its queue. -/
theorem deliver_here {t : Sec} {c : Nat} {ch : Channel} {e : Entry} {s : State} (hm : ch.mc = false) (ho : coordModule ch.coord = s.ownModule)
    (hn : coordCore ch.coord < 192) (hp : s.isPresent (coordCore ch.coord) = true) :
    deliver t c ch e s = s.raise [arrivalEvent (coordCore ch.coord) ch.queue.toNat e] := by
  simp [deliver, hm, ho, hn, hp]

/-- A point-to-point channel spends one credit and counts the entry before it is delivered; host and pending events stay. -/
theorem sendNow_eq {t : Sec} {c a : Nat} {s : State} (hm : (channelAt s t c).mc = false) : ∃ s1 : State, s1.host = s.host ∧ s1.pending = s.pending
    ∧ channelAt s1 t c = { channelAt s t c with credit := (channelAt s t c).credit - 1, sent := (channelAt s t c).sent + 1 }
    ∧ sendNow t c a s = deliver t c (channelAt s t c) { cell := (movedCell s a).1, origin := originWord s t c false, bad := (movedCell s a).2 } s1 := by
  unfold sendNow
  dsimp only
  rw [hm]
  refine ⟨_, ?_, ?_, channelAt_setChannel t c _ _, rfl⟩ <;> split <;> rfl

/-- An entry sent to a core of the own module is pending there, one credit is spent, and SENT advances. -/
theorem sendNow_here {t : Sec} {c a : Nat} {s : State} (hm : (channelAt s t c).mc = false) (ho : coordModule (channelAt s t c).coord = s.ownModule)
    (hn : coordCore (channelAt s t c).coord < 192) (hp : s.isPresent (coordCore (channelAt s t c).coord) = true) :
    (sendNow t c a s).pending = s.pending ++ [arrivalEvent (coordCore (channelAt s t c).coord) (channelAt s t c).queue.toNat
        { cell := (movedCell s a).1, origin := originWord s t c false, bad := (movedCell s a).2 }]
      ∧ channelAt (sendNow t c a s) t c = { channelAt s t c with credit := (channelAt s t c).credit - 1, sent := (channelAt s t c).sent + 1 } := by
  obtain ⟨s1, hh, hpend, hch, he⟩ := sendNow_eq (a := a) hm
  have ho1 : coordModule (channelAt s t c).coord = s1.ownModule := ho.trans (congrArg (·.domid.toNat) hh.symm :)
  have hp1 : s1.isPresent (coordCore (channelAt s t c).coord) = true := (congrArg (·.present.getLsbD (coordCore (channelAt s t c).coord)) hh :).trans hp
  rw [he, deliver_here hm ho1 hn hp1]
  exact ⟨congrArg (· ++ _) hpend, hch⟩

/-- Settles O24: the checks first, then the far accesses and the credit of a SEND, or the promise and the entries of a RECV. -/
theorem sendAndReceive : Obligations.SendAndReceive := by
  unfold Obligations.SendAndReceive
  refine ⟨fun o => ⟨?_, ?_, fun s hs hok hf => ?_, ?_⟩, fun o => ⟨?_, ?_, fun s hs hok hc hf => ?_, ?_⟩, fun o => ?_,
    fun t c a s x _ hx hm _ ho hn hp => ?_⟩
  · refine performs_of_body (fun _ => rfl) fun s ⟨hok, hf, hc⟩ => ?_
    simp only [bitsOf_low, sendTrap_none hok, hf, mayPay hc]
    rfl
  · refine transfers_of_body (fun _ => rfl) fun s ⟨hok, hf, hm, hc⟩ => ?_
    simp only [bitsOf_low, sendTrap_none hok, hf, cannotPay hm hc]
    rfl
  · refine holds_of_body (ok := fun s => sendAllowed s o.h.val (rdS s o.a) ∧ farHeld (BitVec.allOnes 16) s = true) (fun _ => rfl) ?_ s hs ⟨hok, hf⟩
    intro s ⟨hok, hf⟩
    simp only [bitsOf_low, sendTrap_none hok, hf]
    rfl
  · exact send_traps (fun _ => rfl) fun s e he => by simp only [he]
  · refine performs_of_body (fun _ => rfl) fun s ⟨hok, hf, hc⟩ => ?_
    simp only [bitsOf_low, sendTrap_none hok, hf, mayPay hc]
    rfl
  · refine performs_of_body (fun _ => rfl) fun s ⟨hok, hm, hc⟩ => ?_
    simp only [bitsOf_low, sendTrap_none hok, cannotPay hm hc]
    rfl
  · refine holds_of_body (ok := fun s => sendAllowed s o.h.val (rdS s o.a) ∧ farHeld (BitVec.allOnes 16) s = true
      ∧ ((channelAt s s.turn o.h.val).mc = true ∨ (channelAt s s.turn o.h.val).credit ≠ 0)) (fun _ => rfl) ?_ s hs ⟨hok, hf, hc⟩
    intro s ⟨hok, hf, hc⟩
    simp only [bitsOf_low, sendTrap_none hok, hf, mayPay hc]
    rfl
  · exact send_traps (fun _ => rfl) fun s e he => by simp only [he]
  · obtain ⟨recvOff, recvMisaligned, recvForbidden⟩ := recv_traps (i := .recv o) (q := o.q) (a := o.a) (fun _ => rfl)
      fun s e he => by simp only [he]
    obtain ⟨recvsOff, recvsMisaligned, recvsForbidden⟩ := recv_traps (i := .recvs o) (q := o.q) (a := o.a) (fun _ => rfl)
      fun s e he => by simp only [he]
    refine ⟨?_, ?_, ?_, recvOff, ?_, ?_, recvsOff, recvMisaligned, recvForbidden, recvsMisaligned, recvsForbidden⟩
    · refine performs_of_body (fun _ => rfl) fun s ⟨he, ha, hl, hq⟩ => ?_
      simp only [bitsOf_low, recvTrap_none he ha, hl, List.isEmpty_eq_false_iff.mpr hq]
      rfl
    · refine transfers_of_body (fun _ => rfl) fun s ⟨he, ha, hl, hq⟩ => ?_
      simp only [bitsOf_low, recvTrap_none he ha, hl, hq]
      rfl
    · refine transfers_of_body (fun _ => rfl) fun s ⟨he, ha, hl⟩ => ?_
      simp only [bitsOf_low, recvTrap_none he ha, if_pos hl]
      rfl
    · refine performs_of_body (fun _ => rfl) fun s ⟨he, ha, hq⟩ => ?_
      simp only [bitsOf_low, recvTrap_none he ha, List.isEmpty_eq_false_iff.mpr hq]
      rfl
    · refine performs_of_body (fun _ => rfl) fun s ⟨he, ha, hq⟩ => ?_
      simp only [bitsOf_low, recvTrap_none he ha, hq]
      rfl
  · subst hx
    obtain ⟨hpend, hch⟩ := sendNow_here (a := a) hm ho hn hp
    exact ⟨hpend, by rw [hch], by rw [hch]⟩

end Sys2Proof.Machine
end

