-- ==== Sys2Proof/Proofs/WaitAndMessageEvents.lean ====
section
/-! O44: the events of barriers, sleeps and watches, of entries that arrive at a queue, and of what comes back to a sender. -/

namespace Sys2Proof.Machine

/-! ### Events -/

/-- An event happens as what it performs on its core, whose operands are those of the event. -/
theorem happensAt_of_performed {i : Instr} {ok : State → Prop} {eff : State → State}
    (h : ∀ s t, t.arg = s.arg → ok t → ∃ f, exec i s = atCore s.arg.core f s ∧ f t = eff t) : happensAt i ok eff := by
  intro s t hf ho
  obtain ⟨f, hi, he⟩ := h s t (focus_arg hf) ho
  rw [hi, ← onCore_eq_of_focus hf he]
  simp only [atCore, hf]

theorem atCore_noAgent {n : Nat} {f : State → State} {s : State} (h : focus n s = none) : atCore n f s = .fault .noSuchAgent := by
  simp only [atCore, h]

/-! ### A stream written back -/

theorem setStr_self (s : State) (t : Sec) : s.setStr t (s.str t) = s := by
  simp [State.setStr, State.str]

theorem onStr_fixed {s : State} {t : Sec} {f : Stream → Stream} (h : f (s.str t) = s.str t) : s.onStr t f = s := by
  rw [State.onStr, h, setStr_self]

/-! ### A completed wait (R63) -/

theorem writeD_waiting (x : Stream) (d : SDst) (v : Word) (b : Nat) : (x.writeD d v b).waiting = x.waiting :=
  (congrArg (·.waiting) (writeD_frame x d v b) :)

theorem advance_waiting (x : Stream) : x.advance.waiting = x.waiting := (congrArg (·.waiting) (advance_frame x) :)

/-- The second state is the first with the stream whose turn it is replaced by one that waits for nothing. -/
def curWakes (s u : State) : Prop := ∃ x : Stream, x.waiting = none ∧ u = s.setCur x

theorem curWakes.after {s u : State} {f : Stream → Stream} (h : curWakes s u) (hf : ∀ x, (f x).waiting = x.waiting) : curWakes s (u.setCur (f u.cur)) := by
  obtain ⟨x, hx, rfl⟩ := h
  exact ⟨f x, (hf x).trans hx, by rw [setCur_cur, setCur_setCur]⟩

/-- The settle bit, noted or not, keeps a stream awake. -/
theorem curWakes.settles {s u : State} (h : curWakes s u) (b : Bool) : curWakes s (if b then u.setCur { u.cur with settling := true } else u) := by
  split
  · exact h.after (f := fun x => { x with settling := true }) fun _ => rfl
  · exact h

theorem resumeCur_wakes {s : State} {w : Waiting} (h : s.cur.waiting = some w) (res : Option (SDst × Word)) : curWakes s (resumeCur res s) := by
  unfold resumeCur
  rw [h]
  have hclear : curWakes s (s.setCur { s.cur with waiting := none }) := ⟨_, rfl, rfl⟩
  cases res with
  | none => exact (hclear.after advance_waiting).settles w.settle
  | some r => exact ((hclear.after fun x => writeD_waiting x r.1 r.2 1).after advance_waiting).settles w.settle

/-- The waiting instruction completes in its own stream alone: that stream goes on, waiting for nothing. -/
theorem resume_eq {s : State} {t : Sec} {w : Waiting} (h : (s.str t).waiting = some w) (res : Option (SDst × Word)) :
    ∃ x : Stream, x.waiting = none ∧ resume t res s = s.setStr t x := by
  obtain ⟨x, hx, he⟩ := resumeCur_wakes (s := { s with turn := t }) h res
  exact ⟨x, hx, by rw [resume, asSec, he]; rfl⟩

/-! ### Watched words (R150, R151) -/

theorem sawWatched_str (t u : Sec) (spad : Bool) (a : Nat) (s : State) : (sawWatched t spad a s).str u = s.str u := by
  unfold sawWatched
  split
  · rfl
  · obtain ⟨_, _, _, _, _, he⟩ := countPhysical_onlyCounts a 8 s
    rw [he]
    rfl

section Watch
variable {s : State} {t : Sec} {spad : Bool} {a : Nat} {old : Word} {d : SDst} {due poll : Option Nat}

/-- The watch ends with the word it reads when the word differs, and at its timeout in any case. -/
theorem watchAgain_ends {timeout : Bool} (h : waitsOn s t = some (.watch spad a old d due poll)) (hv : timeout = true ∨ watchRead s t spad a ≠ old) :
    watchAgain t timeout s = resume t (some (d, watchRead s t spad a)) (sawWatched t spad a s) := by
  have hb : (timeout || decide (watchRead s t spad a ≠ old)) = true := by simpa using hv
  simp only [watchAgain, h, hb, if_true]

/-- A watch that is not polled waits on as before where the word is the same. -/
theorem watchAgain_waits (h : waitsOn s t = some (.watch spad a old d due none)) (hv : watchRead s t spad a = old) :
    watchAgain t false s = sawWatched t spad a s := by
  obtain ⟨w, hw, ho⟩ := Option.map_eq_some_iff.mp h
  have hd : (false || decide (old ≠ old)) = false := by simp
  simp only [watchAgain, h, hv, hd, Bool.false_eq_true, if_false]
  refine onStr_fixed ?_
  rw [sawWatched_str, hw, Option.map_some, Option.map_none, ← ho, ← hw]

end Watch

/-! ### What the messages of a core can change -/

/-- Nothing differs but the core in focus, pending events, what is to go out, and what the housekeeping processor is told. -/
def onlyCore (s t : State) : Prop := ∃ c p o l f, t = { s with core := c, pending := p, outbound := o, lineReports := l, suspects := f }

theorem onlyCore_refl (s : State) : onlyCore s s := ⟨_, _, _, _, _, rfl⟩

theorem onlyCore_trans {s t u : State} (h : onlyCore s t) (k : onlyCore t u) : onlyCore s u := by
  obtain ⟨_, _, _, _, _, rfl⟩ := h
  obtain ⟨_, _, _, _, _, rfl⟩ := k
  exact ⟨_, _, _, _, _, rfl⟩

theorem onlyCore_host {s t : State} (h : onlyCore s t) : t.host = s.host := by
  obtain ⟨_, _, _, _, _, rfl⟩ := h
  rfl

theorem foldl_onlyCore {α : Type} {f : State → α → State} (h : ∀ s x, onlyCore s (f s x)) : ∀ (l : List α) (s : State), onlyCore s (l.foldl f s)
  | [], s => onlyCore_refl s
  | x :: l, s => onlyCore_trans (h s x) (foldl_onlyCore h l (f s x))

theorem resume_onlyCore (t : Sec) (res : Option (SDst × Word)) (s : State) : onlyCore s (resume t res s) := by
  cases h : (s.str t).waiting with
  | none =>
    have hr : resumeCur res { s with turn := t } = { s with turn := t } := by
      unfold resumeCur
      rw [show ({ s with turn := t } : State).cur.waiting = none from h]
    rw [resume, asSec, hr]
    exact onlyCore_refl s
  | some w =>
    obtain ⟨x, _, he⟩ := resume_eq h res
    exact he ▸ ⟨_, _, _, _, _, rfl⟩

theorem sendCredit_onlyCore (w : Word) (n : Nat) (s : State) : onlyCore s (sendCredit w n s) := by
  unfold sendCredit
  dsimp only
  split
  · split
    · exact ⟨_, _, _, _, _, rfl⟩
    · exact onlyCore_refl s
  · exact ⟨_, _, _, _, _, rfl⟩

theorem setQueue_onlyCore (q : Fin 16) (x : MsgQueue) (s : State) : onlyCore s (setQueue q x s) := ⟨_, _, _, _, _, rfl⟩

theorem returnCredits_onlyCore (q : Fin 16) (all : Bool) (s : State) : onlyCore s (returnCredits q all s) := by
  unfold returnCredits
  extract_lets x due s1
  refine onlyCore_trans (setQueue_onlyCore q _ s) (foldl_onlyCore ?_ due s1)
  intro s p
  exact sendCredit_onlyCore p.1 p.2 s

theorem popEntry_onlyCore (q : Fin 16) (s : State) : onlyCore s (popEntry q s) := by
  unfold popEntry
  dsimp only
  split
  · exact onlyCore_refl s
  · exact onlyCore_trans (setQueue_onlyCore q _ s) (returnCredits_onlyCore q false _)

theorem takeEntry_onlyCore (t : Sec) (q : Fin 16) (a : Nat) (s : State) : onlyCore s (takeEntry t q a s).2 := by
  refine onlyCore_trans ?_ (popEntry_onlyCore q _)
  unfold storedBy
  split <;> exact ⟨_, _, _, _, _, rfl⟩

theorem tryRecv_onlyCore (t : Sec) (s : State) : onlyCore s (tryRecv t s) := by
  unfold tryRecv
  split
  · dsimp only
    generalize (_ || _ : Bool) = waits
    cases waits with
    | true => exact onlyCore_refl s
    | false => exact onlyCore_trans (takeEntry_onlyCore t _ _ s) (resume_onlyCore t _ _)
  · exact onlyCore_refl s

theorem thaw_onlyCore (s : State) : onlyCore s (thaw s) := by
  unfold thaw
  split
  · exact ⟨_, _, _, _, _, rfl⟩
  · exact onlyCore_refl s

theorem appendEntry_onlyCore (q : Fin 16) (e : Entry) (s : State) : onlyCore s (appendEntry q e s) := by
  refine onlyCore_trans ?_ (thaw_onlyCore _)
  refine onlyCore_trans ?_ (tryRecv_onlyCore .copy _)
  refine onlyCore_trans ?_ (tryRecv_onlyCore .ctl _)
  exact ⟨_, _, _, _, _, rfl⟩

/-! ### Arrival (R207, Table 10-5) -/

theorem arrivalCode_disabled {x : MsgQueue} (h : x.en = false) : arrivalCode x = 1 := by
  simp [arrivalCode, h]

theorem arrivalCode_full {x : MsgQueue} (h : x.en = true) (hl : 2 ^ x.lsize ≤ x.origins.length) : arrivalCode x = 2 := by
  simp [arrivalCode, h, MsgQueue.size, MsgQueue.occ, hl]

theorem arrivalCode_room {x : MsgQueue} (h : x.en = true) (hl : x.origins.length < 2 ^ x.lsize) : arrivalCode x = 0 := by
  simp [arrivalCode, h, MsgQueue.size, MsgQueue.occ, Nat.not_le.mpr hl]

section Arrival
variable {q : Fin 16} {e : Entry} {s : State}

/-- A queue with room takes the entry, and a sender in the own module hears nothing. -/
theorem arriveEntry_taken (h : arrivalCode (queueAt s q) = 0) (ho : coordModule (originCoord e.origin) = s.ownModule) :
    arriveEntry q e s = appendEntry q e s := by
  have hm : coordModule (originCoord e.origin) = (appendEntry q e s).ownModule :=
    ho.trans (congrArg (·.domid.toNat) (onlyCore_host (appendEntry_onlyCore q e s)).symm :)
  simp [arriveEntry, h, answerSender, hm]

/-- A multicast entry or a record that the queue does not take is counted in DROP. -/
theorem arriveEntry_dropped (h : arrivalCode (queueAt s q) ≠ 0) (hf : originFree e.origin = true) :
    arriveEntry q e s = setQueue q (dropUp (queueAt s q)) s := by
  simp [arriveEntry, h, hf]

/-- Any other sets FAULT of the sending channel, where the sender is a core of the own module. -/
theorem arriveEntry_faults {code : Nat} (h : arrivalCode (queueAt s q) = code) (h0 : code ≠ 0) (hf : originFree e.origin = false)
    (ho : coordModule (originCoord e.origin) = s.ownModule) :
    arriveEntry q e s = onCore (coordCore (originCoord e.origin)) (channelFault (originSec e.origin) (originChannel e.origin) code) s := by
  simp [arriveEntry, h, h0, hf, answerSender, ho]

/-- The module of any other sender is told. -/
theorem arriveEntry_told (h : arrivalCode (queueAt s q) ≠ 0) (hf : originFree e.origin = false)
    (ho : coordModule (originCoord e.origin) ≠ s.ownModule) :
    arriveEntry q e s = s.send (coordModule (originCoord e.origin))
      (.delivered (coordCore (originCoord e.origin)) (originSec e.origin) (originChannel e.origin) (arrivalCode (queueAt s q))) := by
  simp [arriveEntry, h, hf, answerSender, ho]

end Arrival

/-- QUEUE_ENTRY_ARRIVAL happens as the arrival of its entry. -/
theorem queueEntryArrival_happens {e : Entry} {ok : State → Prop} {eff : State → State}
    (h : ∀ t, ok t → arriveEntry (Fin.ofNat 16 t.arg.a) e t = eff t) : happensAt .queueEntryArrival (fun t => t.arg.data = .entry e ∧ ok t) eff := by
  refine happensAt_of_performed fun s t ha ⟨hd, ho⟩ => ⟨arriveEntry (Fin.ofNat 16 s.arg.a) e, ?_, ha ▸ h t ho⟩
  show execQueueEntryArrival s = _
  simp only [execQueueEntryArrival, ← ha, hd]

/-- DROP saturates at its largest number. -/
theorem dropUp_toNat (x : MsgQueue) : (dropUp x).drop.toNat = min (x.drop.toNat + 1) (2 ^ 16 - 1) := by
  have hx := x.drop.isLt
  unfold dropUp
  dsimp only
  split
  · next h => simp [h]
  · next h =>
    have hn : x.drop.toNat ≠ 2 ^ 16 - 1 := fun k => h (BitVec.eq_of_toNat_eq (k.trans BitVec.toNat_allOnes.symm))
    have hs : (x.drop + 1).toNat = x.drop.toNat + 1 := by bv_omega
    omega

/-! ### An entry at the tail of a queue that nobody waits for -/

theorem landCell_only (a : Nat) (d : CellData × Bool) (c : CoreState) : scratchOnly c (landCell a d c) := by
  unfold landCell
  split
  · exact spadPutPoisoned_only c a _
  · exact spadPutCell_only c a _

/-- The bytes of a cell are written whether its line is good or not; only its tag differs. -/
theorem landCell_spad (a : Nat) (d : CellData × Bool) (c : CoreState) : (landCell a d c).spad = (spadPutCell c a d.1).spad := by
  unfold landCell
  split <;> rfl

theorem tryRecv_notWaiting {s : State} {t : Sec} (h : waitsOn s t = none) : tryRecv t s = s := by
  simp only [tryRecv, h]

theorem thaw_notFrozen {s : State} (h : s.core.copy.frozenSince = none) : thaw s = s := by
  simp [thaw, h]

theorem appendEntry_unawaited {q : Fin 16} {e : Entry} {s : State} (hc : waitsOn s .ctl = none) (hk : waitsOn s .copy = none)
    (hf : s.core.copy.frozenSince = none) :
    appendEntry q e s = setQueue q { queueAt s q with origins := (queueAt s q).origins ++ [e.origin] }
      (s.setCore (landCell ((queueAt s q).addr (queueAt s q).occ) (e.cell, e.bad) s.core)) := by
  have hl := (landCell_only ((queueAt s q).addr (queueAt s q).occ) (e.cell, e.bad) s.core).1
  have hw : ∀ t, waitsOn (setQueue q { queueAt s q with origins := (queueAt s q).origins ++ [e.origin] }
      (s.setCore (landCell ((queueAt s q).addr (queueAt s q).occ) (e.cell, e.bad) s.core))) t = waitsOn s t :=
    fun t => (congrArg (fun c : CoreState => (c.streams.get t).waiting.map (·.on)) hl :)
  unfold appendEntry wakeRecv
  dsimp only
  rw [tryRecv_notWaiting ((hw .ctl).trans hc), tryRecv_notWaiting ((hw .copy).trans hk)]
  exact thaw_notFrozen ((congrArg (·.copy.frozenSince) hl :).trans hf)

/-- A queue read back after it is replaced. -/
theorem queueAt_setQueue (q : Fin 16) (x : MsgQueue) (s : State) : queueAt (setQueue q x s) q = x := Vector.getElem_set_self _

/-! ### What a waiting stream receives (R206, R209) -/

/-- A timed RECV takes the head entry once its promise has come. -/
theorem tryRecv_due {s : State} {t : Sec} {q a p : Nat} {d : SDst} (h : waitsOn s t = some (.recv q a d (some p))) (hp : p ≤ s.now)
    (hq : (queueAt s (Fin.ofNat 16 q)).origins ≠ []) :
    tryRecv t s = resume t (some (d, (takeEntry t (Fin.ofNat 16 q) a s).1)) (takeEntry t (Fin.ofNat 16 q) a s).2 := by
  have hb : ((queueAt s (Fin.ofNat 16 q)).origins.isEmpty || decide (s.now < p)) = false := by
    rw [List.isEmpty_eq_false_iff.mpr hq, decide_eq_false (Nat.not_lt.mpr hp), Bool.or_self]
  simp only [tryRecv, h, hb]
  rfl

theorem tryRecv_early {s : State} {t : Sec} {q a p : Nat} {d : SDst} (h : waitsOn s t = some (.recv q a d (some p))) (hp : s.now < p) :
    tryRecv t s = s := by
  simp [tryRecv, h, hp]

/-- Credits returned to a channel, at most 4096 in all. -/
theorem creditReturn_adds : happensAt .creditReturn (fun t => waitsOn t t.arg.sec = none)
    (fun t => setChannel t.arg.sec t.arg.a { channelAt t t.arg.sec t.arg.a with credit := min 4096 ((channelAt t t.arg.sec t.arg.a).credit + t.arg.b) } t) := by
  refine happensAt_of_performed fun s t ha hw => ⟨_, rfl, ?_⟩
  have hw1 : ∀ x, waitsOn (setChannel t.arg.sec t.arg.a x t) t.arg.sec = none := fun _ => hw
  simp only [← ha, hw1]

/-- A SEND that waits for credit on the channel sends and completes. -/
theorem creditReturn_sends (c a : Nat) : happensAt .creditReturn
    (fun t => waitsOn t t.arg.sec = some (.credit c a) ∧ c = t.arg.a % 64 ∧ 0 < t.arg.b ∧ (t.arg.sec = .ctl ∨ t.arg.sec = .copy))
    (fun t => resume t.arg.sec none (sendNow t.arg.sec c a
      (setChannel t.arg.sec t.arg.a { channelAt t t.arg.sec t.arg.a with credit := min 4096 ((channelAt t t.arg.sec t.arg.a).credit + t.arg.b) } t))) := by
  refine happensAt_of_performed fun s t ha ⟨hw, hc, hb, _⟩ => ⟨_, rfl, ?_⟩
  have hw1 : ∀ x, waitsOn (setChannel t.arg.sec t.arg.a x t) t.arg.sec = some (.credit c a) := fun _ => hw
  have hpay : 0 < min 4096 ((channelAt t t.arg.sec t.arg.a).credit + t.arg.b) := by omega
  simp only [← ha, hw1, channelAt_setChannel, hc, hpay, and_self, if_true]

/-! ### Sleeps (R149) -/

theorem sleepWake_due (c : Nat) :
    happensAt .sleepWake (fun t => waitsOn t t.arg.sec = some (.sleep c) ∧ c ≤ t.now) (fun t => resume t.arg.sec none t) := by
  refine happensAt_of_performed fun s t ha ⟨hw, hc⟩ => ⟨_, rfl, ?_⟩
  simp only [← ha, hw, if_pos hc]

theorem sleepWake_early (c : Nat) : happensAt .sleepWake (fun t => waitsOn t t.arg.sec = some (.sleep c) ∧ t.now < c) id := by
  refine happensAt_of_performed fun s t ha ⟨hw, hc⟩ => ⟨_, rfl, ?_⟩
  simp only [← ha, hw, if_neg (Nat.not_le.mpr hc), id]

/-- A completed wait leaves memory, the turn and the other streams alone. -/
theorem resume_frame {t : Sec} {s : State} {w : Waiting} (h : (s.str t).waiting = some w) (res : Option (SDst × Word)) :
    ((resume t res s).str t).waiting = none ∧ (resume t res s).mem = s.mem ∧ (resume t res s).turn = s.turn
      ∧ ∀ t', t' ≠ t → (resume t res s).str t' = s.str t' := by
  obtain ⟨x, hx, he⟩ := resume_eq h res
  rw [he]
  exact ⟨by rw [setStr_str, hx], rfl, rfl, fun t' ht => setStr_str_ne s x ht⟩

/-! ### O44 -/

/-- Settles O44: each event is its function in Machine/Sync.lean, Far.lean or Message.lean, performed with its core in focus. -/
theorem waitAndMessageEvents : Obligations.WaitAndMessageEvents := by
  unfold Obligations.WaitAndMessageEvents
  refine ⟨⟨?_, sleepWake_due, sleepWake_early, fun spad a old d due poll => ⟨?_, ?_, ?_, ?_, fun s t => ⟨rfl, rfl⟩⟩,
      fun t s w d v hw => resume_frame hw (some (d, v)), fun id => ?_, fun s hf => ⟨atCore_noAgent hf, atCore_noAgent hf⟩⟩,
    fun e => ⟨?_, ?_, ?_, ?_, ?_, ?_, fun x => ⟨arrivalCode_disabled, arrivalCode_full⟩, fun x => ⟨rfl, dropUp_toNat x⟩, fun s q hc hk hf => ?_⟩,
    creditReturn_adds, creditReturn_sends, ?_, fun q a d p => ⟨?_, ?_⟩⟩
  · exact happensAt_of_atCore (f := fun x => writeBart (x.a % 8) x.b) (fun _ => rfl) fun _ _ => rfl
  · exact happensAt_of_atCore (f := fun x => watchAgain x.sec false) (fun _ => rfl) fun t ⟨hw, hv⟩ => watchAgain_ends hw (.inr hv)
  · exact happensAt_of_atCore (f := fun x => watchAgain x.sec false) (fun _ => rfl) fun t ⟨hw, hv⟩ => watchAgain_waits hw hv
  · exact happensAt_of_atCore (f := fun x => watchAgain x.sec false) (fun _ => rfl) fun t ⟨hw, hv⟩ => watchAgain_ends hw (.inr hv)
  · exact happensAt_of_atCore (f := fun x => watchAgain x.sec true) (fun _ => rfl) fun t hw => watchAgain_ends hw (.inl rfl)
  · exact happensAt_of_performed fun s t ha hid => ⟨_, rfl, by rw [← ha, hid]⟩
  · exact queueEntryArrival_happens fun t ⟨he, hl, ho⟩ => arriveEntry_taken (arrivalCode_room he hl) ho
  · exact queueEntryArrival_happens fun t ⟨he, hf⟩ => arriveEntry_dropped ((arrivalCode_disabled he).trans_ne (by decide)) hf
  · exact queueEntryArrival_happens fun t ⟨he, hf, ho⟩ => arriveEntry_faults (arrivalCode_disabled he) (by decide) hf ho
  · exact queueEntryArrival_happens fun t ⟨he, hl, hf⟩ => arriveEntry_dropped ((arrivalCode_full he hl).trans_ne (by decide)) hf
  · exact queueEntryArrival_happens fun t ⟨he, hl, hf, ho⟩ => arriveEntry_faults (arrivalCode_full he hl) (by decide) hf ho
  · exact queueEntryArrival_happens fun t ⟨hc, hf, ho⟩ => arriveEntry_told hc hf ho
  · rw [appendEntry_unawaited hc hk hf]
    exact ⟨by rw [queueAt_setQueue], landCell_spad _ _ s.core⟩
  · exact happensAt_of_atCore (f := fun x => takeDelivery x.sec x.a 4) (fun _ => rfl) fun _ _ => rfl
  · exact happensAt_of_atCore (f := fun x => tryRecv x.sec) (fun _ => rfl) fun t ⟨hw, hp, hq⟩ => tryRecv_due hw hp hq
  · exact happensAt_of_atCore (f := fun x => tryRecv x.sec) (fun _ => rfl) fun t ⟨hw, hp⟩ => tryRecv_early hw hp

end Sys2Proof.Machine
end

