-- ==== Sys2Proof/Proofs/SyncRules.lean ====
section
/-! What the synchronisation words share: how a word suspends its stream, and what the semaphore file holds after a write and after a stream resumes. -/

namespace Sys2Proof.Machine

/-- What a word performs may be described otherwise where fewer states are in question. -/
theorem performs_congr {i : Instr} {u : Use} {ok ok' : State → Prop} {eff eff' : State → State} (h : performs i u ok eff)
    (hk : ∀ s, ok' s → ok s ∧ eff s = eff' s) : performs i u ok' eff' := by
  intro s hs ho
  obtain ⟨hok, he⟩ := hk _ ho
  rw [h s hs hok, he]

/-- An access that the stream may make passes the privilege check (R369). -/
theorem mayTouch {s : State} {a n : Nat} (h : s.cur.priv = true ∨ touchesSr s.core a n = false) : (!s.cur.priv && touchesSr s.core a n) = false := by
  rcases h with h | h <;> rw [h]
  · rfl
  · exact Bool.and_false _

/-! ### Suspending and resuming (R63) -/

/-- A suspended word leaves its stream waiting. -/
theorem suspend_eq (w : Wait) (settle : Bool) (s : State) : suspend w settle s = .jump (waiting w settle s) := rfl

/-- A stream that goes on leaves the semaphore file as it is. -/
theorem resume_sync {s : State} {t : Sec} {w : Waiting} (h : (s.str t).waiting = some w) (res : Option (SDst × Word)) :
    (resume t res s).core.sync = s.core.sync := by
  obtain ⟨x, _, he⟩ := resume_eq h res
  rw [he, setStr_core_sync]

theorem resumeWhere_sync (f : State → Wait → Option (Option (SDst × Word))) (s : State) : (resumeWhere f s).core.sync = s.core.sync := by
  unfold resumeWhere
  refine List.foldlRecOn (motive := fun u : State => u.core.sync = s.core.sync) _ _ rfl fun u hu t _ => ?_
  cases hw : waitsOn u t with
  | none => exact hu
  | some w =>
    obtain ⟨x, hx, _⟩ := Option.map_eq_some_iff.mp hw
    dsimp only
    split
    · exact (resume_sync hx _).trans hu
    · exact hu

/-! ### Semaphores (R128, R137) -/

@[simp] theorem setSync_sync (s : State) (y : SyncFile) : (s.setSync y).core.sync = y := rfl

/-- A semaphore read back after it is replaced. -/
@[simp] theorem semAt_setSem (s : State) (p : Nat) (x : Semaphore) : semAt (setSem s p x) p = x := Vector.getElem_set_self _

/-- Replacing a semaphore twice. -/
@[simp] theorem setSem_setSem (s : State) (p : Nat) (x y : Semaphore) : setSem (setSem s p x) p y = setSem s p y := by
  simp [setSem, State.setSync]

end Sys2Proof.Machine
end

