-- ==== Sys2Proof/Proofs/SemaphoreQueues.lean ====
section
/-! O18: a SEMWAIT that queues, the semaphore words at a semaphore of another core, and what a raised value grants. -/

namespace Sys2Proof.Machine

/-! ### Where a virtual number leads (R134, Table 7-5) -/

theorem semPlace_beyond {s : State} {a : Word} (h : 256 ≤ a.toNat) : semPlace s a = .bad 0x01 := if_pos h

theorem semPlace_mapped {s : State} {a : Word} (h : a.toNat < 256) : semPlace s a = mapPlace s s.core.sync.map[Fin.ofNat 256 a.toNat] :=
  if_neg (Nat.not_le.mpr h)

theorem mapPlace_invalid {s : State} {e : Word} (h : e.getLsbD 31 = false) : mapPlace s e = .bad 0x02 := by
  simp only [mapPlace, bitOf, h]
  rfl

theorem mapPlace_local {s : State} {e : Word} (hv : e.getLsbD 31 = true) (hr : e.getLsbD 30 = false) : mapPlace s e = .here (e.toNat % 64) := by
  simp only [mapPlace, bitOf, hv, hr, bitsOf_low]
  rfl

/-! ### A semaphore of another core (R135) -/

section Remote
variable {op : SemOp} {c : BitVec 32} {p : Nat} {b : Word} {d : Option SDst} {settle : Bool} {s : State}

theorem remoteSem_asks (h : s.isMember (coordModule c) = true) : remoteSem c p op b d settle s = .jump (asksOwner op c p b d settle s) := by
  simp only [remoteSem, h]
  rfl

theorem remoteSem_outside (h : s.isMember (coordModule c) = false) : remoteSem c p op b d settle s = .trap (mkTrap cSync 0x0D 0) := by
  simp only [remoteSem, h]
  rfl

end Remote

/-! ### A word that does not wait at a local semaphore -/

section Word
variable {i : Instr} {u : Use} {op : SemOp} {c : Scope} {k : Fin 16} {a : SSrc} {b : State → Word} {d : Option SDst} {settle : Bool}
  (hi : ∀ s, exec i s = issue i u (fun s => semInstr op c k (rdS s a) (b s) d settle s) s)
include hi

theorem sem_misnumbered (r : Nat) : traps i u (fun s => semPlace s (rdS s a) = .bad r) (fun _ => mkTrap 0x08 r 0) :=
  traps_of_body hi fun s hp => by
    simp only [semInstr, hp]
    rfl

theorem sem_asks (m : BitVec 32) (p : Nat) : transfers i u
    (fun s => (semReleases op && releaseWaits k c s) = false ∧ semPlace s (rdS s a) = .there m p ∧ s.isMember (coordModule m) = true)
    (fun s => asksOwner op m p (b s) d settle s) :=
  transfers_of_body hi fun s ⟨hr, hp, hm⟩ => by
    simp only [semInstr, hp, hr]
    exact remoteSem_asks hm

theorem sem_outside (m : BitVec 32) (p : Nat) : traps i u
    (fun s => (semReleases op && releaseWaits k c s) = false ∧ semPlace s (rdS s a) = .there m p ∧ s.isMember (coordModule m) = false)
    (fun _ => mkTrap 0x08 0x0D 0) :=
  traps_of_body hi fun s ⟨hr, hp, hm⟩ => by
    simp only [semInstr, hp, hr]
    exact remoteSem_outside hm

end Word

/-! ### SEMWAIT -/

/-- A SEMWAIT is not admitted behind other waiters, nor where the value does not cover it. -/
theorem semAdmits_not {x : Semaphore} {n : Nat} (hn : n ≠ 0) (h : x.fifo ≠ [] ∨ x.val.toNat < n) : semAdmits x n = false := by
  rcases h with h | h <;> simp [semAdmits, hn, h]

theorem semwait_queues (o : YABsk) (p : Nat) : transfers (.semwait o) (useYABsk o)
    (fun s => semPlace s (rdS s o.a) = .here p ∧ (rdS s o.b).toNat % 2 ^ 32 ≠ 0
      ∧ ((semAt s p).fifo ≠ [] ∨ (semAt s p).val.toNat < (rdS s o.b).toNat % 2 ^ 32))
    (fun s => waiting (.sem p ((rdS s o.b).toNat % 2 ^ 32)) o.s (setSem s p { semAt s p with
      fifo := (semAt s p).fifo ++ [{ coord := s.ownCoord, sec := s.turn, n := (rdS s o.b).toNat % 2 ^ 32, remote := none }] })) := by
  refine transfers_of_body (fun _ => rfl) fun s ⟨hp, hn, hv⟩ => ?_
  simp only [hp, bitsOf_low, semAdmits_not hn hv, suspend_eq]
  rfl

theorem semwait_asks (o : YABsk) (c : BitVec 32) (p : Nat) : transfers (.semwait o) (useYABsk o)
    (fun s => semPlace s (rdS s o.a) = .there c p ∧ s.isMember (coordModule c) = true) (fun s => asksOwner .wait c p (rdS s o.b) none o.s s) := by
  refine transfers_of_body (fun _ => rfl) fun s ⟨hp, hm⟩ => ?_
  simp only [hp]
  exact remoteSem_asks hm

theorem semwait_misnumbered (o : YABsk) (r : Nat) :
    traps (.semwait o) (useYABsk o) (fun s => semPlace s (rdS s o.a) = .bad r) (fun _ => mkTrap 0x08 r 0) := by
  refine traps_of_body (fun _ => rfl) fun s hp => ?_
  simp only [hp]
  rfl

theorem semwait_outside (o : YABsk) (c : BitVec 32) (p : Nat) : traps (.semwait o) (useYABsk o)
    (fun s => semPlace s (rdS s o.a) = .there c p ∧ s.isMember (coordModule c) = false) (fun _ => mkTrap 0x08 0x0D 0) := by
  refine traps_of_body (fun _ => rfl) fun s ⟨hp, hm⟩ => ?_
  simp only [hp]
  exact remoteSem_outside hm

/-! ### Grants (R138) -/

/-- The one waiter of a semaphore whose value covers it takes its units and resumes. -/
theorem grantSem_one {s : State} {p n fuel : Nat} {x : Semaphore} {c : BitVec 32} {t : Sec} (hx : semAt s p = x)
    (hf : x.fifo = [{ coord := c, sec := t, n := n, remote := none }]) (hn : n ≤ x.val.toNat) :
    grantSem p (fuel + 1) s = grantSem p fuel (resume t none (setSem s p { val := x.val - BitVec.ofNat 32 n, fifo := [] })) := by
  subst hx
  simp only [grantSem, hf, if_pos hn]

theorem putSemValue_grants {p v n : Nat} {s : State} {t : Sec} {c : BitVec 32} (hv : v < 2 ^ 32) (hup : (semAt s p).val.toNat < v) (hn : n ≤ v)
    (hf : (semAt s p).fifo = [{ coord := c, sec := t, n := n, remote := none }]) :
    putSemValue p v s = resume t none (setSem s p { val := BitVec.ofNat 32 (v - n), fifo := [] }) := by
  have hcover : n ≤ (BitVec.ofNat 32 v).toNat := hn.trans_eq (Nat.mod_eq_of_lt hv).symm
  have hlen : (semAt s p).fifo.length = 0 + 1 := by rw [hf]; rfl
  have hleft : BitVec.ofNat 32 v - BitVec.ofNat 32 n = BitVec.ofNat 32 (v - n) := (BitVec.ofNat_sub_ofNat_of_le v n (by omega) hn)
  rw [putSemValue, if_pos hup, hlen, grantSem_one (x := { semAt s p with val := BitVec.ofNat 32 v }) (semAt_setSem s p _) hf hcover, setSem_setSem,
    hleft]
  rfl

/-- A value that does not rise grants nothing. -/
theorem putSemValue_lower {p v : Nat} {s : State} (h : v ≤ (semAt s p).val.toNat) :
    putSemValue p v s = setSem s p { semAt s p with val := BitVec.ofNat 32 v } := if_neg (Nat.not_lt.mpr h)

/-! ### The five words -/

theorem exec_semsig (o : YABsk) (s : State) :
    exec (.semsig o) s = issue (.semsig o) (useYABsk o) (fun s => semInstr .sig o.c o.k (rdS s o.a) (rdS s o.b) none o.s s) s := rfl

theorem exec_semtry (o : YDABsk) (s : State) :
    exec (.semtry o) s = issue (.semtry o) (useYDABsk o) (fun s => semInstr .try_ o.c o.k (rdS s o.a) (rdS s o.b) (some o.d) o.s s) s := rfl

theorem exec_semadd (o : YDABsk) (s : State) :
    exec (.semadd o) s = issue (.semadd o) (useYDABsk o) (fun s => semInstr .add o.c o.k (rdS s o.a) (rdS s o.b) (some o.d) o.s s) s := rfl

theorem exec_semcas (o : YDABsk) (s : State) :
    exec (.semcas o) s = issue (.semcas o) (useYDABsk o) (fun s => semInstr .cas o.c o.k (rdS s o.a) (rdS s o.b) (some o.d) o.s s) s := rfl

theorem exec_semrd (o : YDAsk) (s : State) :
    exec (.semrd o) s = issue (.semrd o) (useYDAsk o) (fun s => semInstr .read o.c o.k (rdS s o.a) 0 (some o.d) o.s s) s := rfl

/-- Settles O18: the map and its entry, SEMWAIT, the other five words by their one body, and the grant to the one waiter. -/
theorem semaphoreQueues : Obligations.SemaphoreQueues := by
  unfold Obligations.SemaphoreQueues
  refine ⟨semwait_queues, semwait_asks, fun o r => ⟨semwait_misnumbered o r, sem_misnumbered (exec_semsig o) r⟩, fun s a => semPlace_beyond,
    fun s a ha hv => (semPlace_mapped ha).trans (mapPlace_invalid hv), fun s a ha hv hr => (semPlace_mapped ha).trans (mapPlace_local hv hr),
    fun p v s t n _ => putSemValue_grants, fun p v s => putSemValue_lower, fun o r i hi => ?_, fun o r => sem_misnumbered (exec_semrd o) r,
    fun o c p => ⟨sem_asks (exec_semsig o) c p, semwait_outside o c p, sem_outside (exec_semsig o) c p⟩,
    fun o c p => ⟨fun s hs h => sem_asks (exec_semtry o) c p s hs ⟨rfl, h⟩, sem_asks (exec_semadd o) c p, sem_asks (exec_semcas o) c p,
      fun s hs h => sem_outside (exec_semtry o) c p s hs ⟨rfl, h⟩, fun i hi => ?_⟩,
    fun o c p => ⟨fun s hs h => sem_asks (exec_semrd o) c p s hs ⟨rfl, h⟩, fun s hs h => sem_outside (exec_semrd o) c p s hs ⟨rfl, h⟩⟩⟩
  · fin_cases hi
    exacts [sem_misnumbered (exec_semtry o) r, sem_misnumbered (exec_semadd o) r, sem_misnumbered (exec_semcas o) r]
  · fin_cases hi
    exacts [sem_outside (exec_semadd o) c p, sem_outside (exec_semcas o) c p]

end Sys2Proof.Machine
end

