-- ==== Sys2Proof/Proofs/MutexesAndBarriers.lean ====
section
/-! O19: mutexes by their owner, barriers by what arrives, and the rendezvous by its generation. -/

namespace Sys2Proof.Machine

/-! ### Mutexes (R139) -/

/-- Another stream holds the mutex. -/
theorem mutex_held {x : Mutex} {t : Sec} (h : ∃ u, x.owner = some u ∧ u ≠ t) : x.owner ≠ some t ∧ x.owner ≠ none := by
  obtain ⟨u, hu, hne⟩ := h
  simp [hu, hne]

theorem freeMutex_empty {m : Nat} {s : State} (h : (mutexAt s m).fifo = []) : freeMutex m s = setMutex m { owner := none, fifo := [] } s := by
  simp only [freeMutex, h]

theorem freeMutex_head {m : Nat} {s : State} {t : Sec} {l : List Sec} (h : (mutexAt s m).fifo = t :: l) :
    freeMutex m s = resume t none (setMutex m { owner := some t, fifo := l } s) := by
  simp only [freeMutex, h]

section Mutex
variable {m : Nat} {s : State}

/-- What MTXLOCK and MTXTRY make of mutex `m`: `free` where they take it and `held` where another stream holds it. -/
def mutexTake (m : Nat) (free held : Eff) (s : State) : Eff :=
  if 16 ≤ m then syncMisuse 0x04
  else if (mutexAt s m).owner = some s.turn then syncMisuse 0x06
  else if (mutexAt s m).owner = none then free else held

variable {free held : Eff}

theorem mutexTake_free (hm : m < 16) (ho : (mutexAt s m).owner = none) : mutexTake m free held s = free := by
  simp [mutexTake, Nat.not_le.mpr hm, ho]

theorem mutexTake_held (hm : m < 16) (ho : ∃ t, (mutexAt s m).owner = some t ∧ t ≠ s.turn) : mutexTake m free held s = held := by
  obtain ⟨hown, hfree⟩ := mutex_held ho
  simp [mutexTake, Nat.not_le.mpr hm, hown, hfree]

theorem mutexTake_own (hm : m < 16) (ho : (mutexAt s m).owner = some s.turn) : mutexTake m free held s = .trap (mkTrap cSync 0x06 0) := by
  simp only [mutexTake, if_neg (Nat.not_le.mpr hm), if_pos ho]
  rfl

theorem mutexTake_beyond (hm : 16 ≤ m) : mutexTake m free held s = .trap (mkTrap cSync 0x04 0) := if_pos hm

end Mutex

theorem exec_mtxlock (o : YAsk) (s : State) : exec (.mtxlock o) s = issue (.mtxlock o) (useYAsk o) (fun s =>
    mutexTake (rdS s o.a).toNat (.done (setMutex (rdS s o.a).toNat { mutexAt s (rdS s o.a).toNat with owner := some s.turn } s))
      (suspend (.mutex (rdS s o.a).toNat) o.s
        (setMutex (rdS s o.a).toNat { mutexAt s (rdS s o.a).toNat with fifo := (mutexAt s (rdS s o.a).toNat).fifo ++ [s.turn] } s)) s) s := rfl

theorem exec_mtxtry (o : YDAsk) (s : State) : exec (.mtxtry o) s = issue (.mtxtry o) (useYDAsk o) (fun s =>
    mutexTake (rdS s o.a).toNat (.done (wrD o.d 1 10 (setMutex (rdS s o.a).toNat { mutexAt s (rdS s o.a).toNat with owner := some s.turn } s)))
      (.done (wrD o.d 0 10 s)) s) s := rfl

/-- MTXFREE by the owner, once nothing holds the release back (R132). -/
theorem mtxfree_performs (o : YAsk) : performs (.mtxfree o) (useYAsk o)
    (fun s => releaseWaits o.k o.c s = false ∧ (rdS s o.a).toNat < 16 ∧ (mutexAt s (rdS s o.a).toNat).owner = some s.turn)
    (fun s => freeMutex (rdS s o.a).toNat s) :=
  performs_of_body (fun _ => rfl) fun s ⟨hr, hm, ho⟩ => by simp [Nat.not_le.mpr hm, ho, hr]

theorem mtxfree_notOwner (o : YAsk) : traps (.mtxfree o) (useYAsk o)
    (fun s => (rdS s o.a).toNat < 16 ∧ (mutexAt s (rdS s o.a).toNat).owner ≠ some s.turn) (fun _ => mkTrap 0x08 0x05 0) :=
  traps_of_body (fun _ => rfl) fun s ⟨hm, ho⟩ => by
    simp only [if_neg (Nat.not_le.mpr hm), if_pos ho]
    rfl

/-! ### Barriers (R141) -/

/-- Weight `w` arrives at a barrier. -/
def Barrier.arrive (x : Barrier) (w : Nat) : Barrier :=
  { x with arrived := BitVec.ofNat 8 ((x.arrived.toNat + w) % x.target.toNat)
           phase := x.phase + BitVec.ofNat 8 ((x.arrived.toNat + w) / x.target.toNat) }

/-- Below TARGET the arrivals are counted and PHASE stays. -/
theorem Barrier.arrive_below {x : Barrier} {w : Nat} (h : x.arrived.toNat + w < x.target.toNat) :
    x.arrive w = { x with arrived := BitVec.ofNat 8 (x.arrived.toNat + w) } := by
  simp [Barrier.arrive, Nat.mod_eq_of_lt h, Nat.div_eq_of_lt h]

theorem Barrier.target_pos {x : Barrier} (h : x.target ≠ 0) : 0 < x.target.toNat :=
  Nat.pos_of_ne_zero fun k => h (BitVec.eq_of_toNat_eq k)

/-- What BARARR of weight `w` makes of barrier `b`, with PHASE as it was in `d`. -/
def barrierArrive (k : Fin 16) (c : Scope) (b w : Nat) (d : SDst) (s : State) : Eff :=
  let x := barrierAt s b
  if 8 ≤ b then syncMisuse 0x04
  else if x.target = 0 then syncMisuse 0x07
  else if w = 0 ∨ 255 < w then syncMisuse 0x08
  else if releaseWaits k c s then .hold
  else
    let s1 := wrD d (x.phase.setWidth 64) 10 (setBarrier b (x.arrive w) s)
    .done (if 0 < (x.arrived.toNat + w) / x.target.toNat then wakeBarrier b s1 else s1)

theorem exec_bararr (o : YDABsk) (s : State) : exec (.bararr o) s = issue (.bararr o) (useYDABsk o)
    (fun s => barrierArrive o.k o.c (rdS s o.a).toNat (rdS s o.b).toNat o.d s) s := rfl

section Arrival
variable {k : Fin 16} {c : Scope} {b w : Nat} {d : SDst} {s : State}

theorem barrierArrive_beyond (hb : 8 ≤ b) : barrierArrive k c b w d s = .trap (mkTrap cSync 0x04 0) := if_pos hb

/-- With no TARGET the reason is that of the target, whatever the weight (log entry 41). -/
theorem barrierArrive_noTarget (hb : b < 8) (ht : (barrierAt s b).target = 0) : barrierArrive k c b w d s = .trap (mkTrap cSync 0x07 0) := by
  simp only [barrierArrive, if_neg (Nat.not_le.mpr hb), if_pos ht]
  rfl

theorem barrierArrive_weight (hb : b < 8) (ht : (barrierAt s b).target ≠ 0) (hw : w = 0 ∨ 255 < w) :
    barrierArrive k c b w d s = .trap (mkTrap cSync 0x08 0) := by
  simp only [barrierArrive, if_neg (Nat.not_le.mpr hb), if_neg ht, if_pos hw]
  rfl

/-- Arrivals below TARGET are counted. -/
theorem barrierArrive_below (hr : releaseWaits k c s = false) (hb : b < 8) (ht : (barrierAt s b).target ≠ 0) (h0 : 0 < w) (h1 : w ≤ 255)
    (hlt : (barrierAt s b).arrived.toNat + w < (barrierAt s b).target.toNat) :
    barrierArrive k c b w d s = .done (wrD d ((barrierAt s b).phase.setWidth 64) 10
      (setBarrier b { barrierAt s b with arrived := BitVec.ofNat 8 ((barrierAt s b).arrived.toNat + w) } s)) := by
  have hw : ¬(w = 0 ∨ 255 < w) := by omega
  simp only [barrierArrive, if_neg (Nat.not_le.mpr hb), if_neg ht, if_neg hw, hr, Barrier.arrive_below hlt, Nat.div_eq_of_lt hlt]
  rfl

/-- Arrivals that reach TARGET end the phase, and the waiters wake. -/
theorem barrierArrive_reaches (hr : releaseWaits k c s = false) (hb : b < 8) (ht : (barrierAt s b).target ≠ 0) (h0 : 0 < w) (h1 : w ≤ 255)
    (hle : (barrierAt s b).target.toNat ≤ (barrierAt s b).arrived.toNat + w) :
    barrierArrive k c b w d s =
      .done (wakeBarrier b (wrD d ((barrierAt s b).phase.setWidth 64) 10 (setBarrier b ((barrierAt s b).arrive w) s))) := by
  have hw : ¬(w = 0 ∨ 255 < w) := by omega
  have hq := Nat.div_pos hle (Barrier.target_pos ht)
  simp only [barrierArrive, if_neg (Nat.not_le.mpr hb), if_neg ht, if_neg hw, hr, if_pos hq]
  rfl

end Arrival

/-! ### Rendezvous (R142) -/

/-- All four streams have arrived. -/
def allArrived : PerSec Bool := { ctl := true, copy := true, mat := true, vec := true }

theorem releaseRdv_waits {s : State} (h : s.core.sync.rdvArrived ≠ allArrived) : releaseRdv s = s := if_neg h

/-- The release advances the generation, whichever streams it wakes. -/
theorem releaseRdv_generation {s : State} (h : s.core.sync.rdvArrived = allArrived) : (releaseRdv s).core.sync.rdvGen = s.core.sync.rdvGen + 1 := by
  have hr : releaseRdv s = resumeWhere _ _ := if_pos h
  rw [hr, resumeWhere_sync, setSync_sync]

theorem rdvGen_succ_ne (g : BitVec 8) : g + 1 ≠ g := by bv_omega

/-- What RDV does where none is pending. -/
def rdvArrive (settle : Bool) (s : State) : Eff :=
  let s1 := s.setSync { s.core.sync with rdvArrived := s.core.sync.rdvArrived.set s.turn true }
  if (releaseRdv s1).core.sync.rdvGen ≠ s.core.sync.rdvGen then .done (releaseRdv s1) else suspend (.rdv s.core.sync.rdvGen) settle s1

/-- RDV, the one that pends being taken first wherever it issues (log entry 58). -/
theorem exec_rdv (o : Bare) (s : State) : exec (.rdv o) s = issue (.rdv o) (useBare o) (fun s =>
    match s.cur.rdvPending with
    | some g => if g ≠ s.core.sync.rdvGen then .done (s.setCur { s.cur with rdvPending := none })
        else suspend (.rdv g) o.s (s.setCur { s.cur with rdvPending := none })
    | none => rdvArrive o.s s) s := rfl

theorem rdvArrive_waits {settle : Bool} {s : State} (h : s.core.sync.rdvArrived.set s.turn true ≠ allArrived) :
    rdvArrive settle s = .jump (waiting (.rdv s.core.sync.rdvGen) settle
      (s.setSync { s.core.sync with rdvArrived := s.core.sync.rdvArrived.set s.turn true })) := by
  have hs := releaseRdv_waits (s := s.setSync { s.core.sync with rdvArrived := s.core.sync.rdvArrived.set s.turn true }) h
  have hg : ¬ (s.core.sync.rdvGen ≠ s.core.sync.rdvGen) := fun k => k rfl
  simp only [rdvArrive, hs, setSync_sync, if_neg hg, suspend_eq]

theorem rdvArrive_releases {settle : Bool} {s : State} (h : s.core.sync.rdvArrived.set s.turn true = allArrived) :
    rdvArrive settle s = .done (releaseRdv (s.setSync { s.core.sync with rdvArrived := s.core.sync.rdvArrived.set s.turn true })) := by
  have hg := releaseRdv_generation (s := s.setSync { s.core.sync with rdvArrived := s.core.sync.rdvArrived.set s.turn true }) h
  exact if_pos (hg.trans_ne (rdvGen_succ_ne _))

/-- Settles O19: each word is its function of the mutex, the barrier or the rendezvous, taken by what it finds there. -/
theorem mutexesBarriersAndRendezvous : Obligations.MutexesBarriersAndRendezvous := by
  unfold Obligations.MutexesBarriersAndRendezvous
  refine ⟨⟨fun o => ⟨?_, ?_, ?_, ?_, ?_, fun t l => ?_, mtxfree_notOwner o, ?_⟩, fun o => ⟨?_, ?_, ?_, ?_⟩⟩,
    fun o s hs => ⟨?_, ?_, ?_, ?_, ?_⟩, fun o => ⟨?_, ?_, ?_, ?_⟩, fun o g => ⟨?_, ?_⟩, fun o s hs hp => ?_⟩
  · exact performs_of_body (exec_mtxlock o) fun s ⟨hm, ho⟩ => mutexTake_free hm ho
  · exact transfers_of_body (exec_mtxlock o) fun s ⟨hm, ho⟩ => mutexTake_held hm ho
  · exact traps_of_body (exec_mtxlock o) fun s ⟨hm, ho⟩ => mutexTake_own hm ho
  · exact traps_of_body (exec_mtxlock o) fun s hm => mutexTake_beyond hm
  · exact performs_congr (mtxfree_performs o) fun s ⟨hr, hm, ho, hf⟩ => ⟨⟨hr, hm, ho⟩, freeMutex_empty hf⟩
  · exact performs_congr (mtxfree_performs o) fun s ⟨hr, hm, ho, hf⟩ => ⟨⟨hr, hm, ho⟩, freeMutex_head hf⟩
  · exact traps_of_body (fun _ => rfl) fun s hm => if_pos hm
  · exact performs_of_body (exec_mtxtry o) fun s ⟨hm, ho⟩ => mutexTake_free hm ho
  · exact performs_of_body (exec_mtxtry o) fun s ⟨hm, ho⟩ => mutexTake_held hm ho
  · exact traps_of_body (exec_mtxtry o) fun s ⟨hm, ho⟩ => mutexTake_own hm ho
  · exact traps_of_body (exec_mtxtry o) fun s hm => mutexTake_beyond hm
  · exact fun hr hb ht h0 h1 hlt => (exec_bararr o s).trans (issue_done hs (barrierArrive_below hr hb ht h0 h1 hlt))
  · exact fun hr hb ht h0 h1 hle => (exec_bararr o s).trans (issue_done hs (barrierArrive_reaches hr hb ht h0 h1 hle))
  · exact fun hb ht => (exec_bararr o s).trans (issue_trap hs (barrierArrive_noTarget hb ht))
  · exact fun hb ht hw => (exec_bararr o s).trans (issue_trap hs (barrierArrive_weight hb ht hw))
  · exact fun hb => (exec_bararr o s).trans (issue_trap hs (barrierArrive_beyond hb))
  · refine performs_of_body (fun _ => rfl) fun s ⟨hb, ht, hp⟩ => ?_
    have hphase := hp.trans_eq (bitsOf_low (rdS s o.b) 8).symm
    simp only [if_neg (Nat.not_le.mpr hb), if_neg ht, if_pos hphase]
  · refine transfers_of_body (fun _ => rfl) fun s ⟨hb, ht, hp⟩ => ?_
    have hphase := hp.trans (bitsOf_low (rdS s o.b) 8).symm
    simp only [if_neg (Nat.not_le.mpr hb), if_neg ht, if_neg (not_not_intro hphase), suspend_eq]
  · refine traps_of_body (fun _ => rfl) fun s ⟨hb, ht⟩ => ?_
    simp only [if_neg (Nat.not_le.mpr hb), if_pos ht]
    rfl
  · exact traps_of_body (fun _ => rfl) fun s hb => if_pos hb
  · refine performs_of_body (exec_rdv o) fun s ⟨hg, hne⟩ => ?_
    simp only [hg, if_pos hne]
  · refine transfers_of_body (exec_rdv o) fun s ⟨hg, he⟩ => ?_
    simp only [hg, if_neg (not_not_intro he), suspend_eq]
  · have hu : (entered (.rdv o) s).cur.rdvPending = none := by
      show (startIssue s).cur.rdvPending = none
      rw [startIssue_cur, hp]
    refine ⟨fun hy => (exec_rdv o s).trans (issue_jump hs ?_), fun hy => ⟨(exec_rdv o s).trans (issue_done hs ?_), releaseRdv_generation hy⟩⟩
    · simp only [hu]
      exact rdvArrive_waits hy
    · simp only [hu]
      exact rdvArrive_releases hy

end Sys2Proof.Machine
end

