-- ==== Sys2Proof/Proofs/FlagsAndCounters.lean ====
section
/-! O20: event flags by number and state, and WAITLT, which takes an engine fault of its stream first. -/

namespace Sys2Proof.Machine

/-! ### Flags (R143) -/

theorem getLsbD_flagMask {e k : Nat} (he : e < 32) : (BitVec.ofNat 32 (2 ^ e)).getLsbD k = decide (e = k) := by
  rw [BitVec.getLsbD_ofNat, Nat.testBit_two_pow]
  by_cases h : e = k
  · simp [h ▸ he, h]
  · simp [h]

/-- A flag set or cleared leaves every other as it was. -/
theorem flagSet_setFlag {e k : Nat} (v : Bool) (s : State) (he : e < 32) (hk : k < 32) :
    flagSet (setFlag e v s) k = if k = e then v else flagSet s k := by
  have hm := getLsbD_flagMask (k := k) he
  unfold flagSet setFlag
  rw [setSync_sync]
  cases v with
  | true =>
    rw [if_pos rfl, BitVec.getLsbD_or, hm]
    by_cases h : k = e <;> simp [h, eq_comm (a := e)]
  | false =>
    rw [if_neg Bool.false_ne_true, BitVec.getLsbD_and, BitVec.getLsbD_not, hm]
    by_cases h : k = e <;> simp [h, hk, eq_comm (a := e)]

/-- The words of one flag, whose number is checked first. -/
theorem flag_misnumbered {i : Instr} {u : Use} {a : SSrc} {body : State → Eff}
    (hi : ∀ s, exec i s = issue i u (fun s => if 32 ≤ (rdS s a).toNat then syncMisuse 0x04 else body s) s) :
    traps i u (fun s => 32 ≤ (rdS s a).toNat) (fun _ => mkTrap 0x08 0x04 0) := traps_of_body hi fun _ h => if_pos h

theorem flag_performs {i : Instr} {u : Use} {a : SSrc} {eff : State → State}
    (hi : ∀ s, exec i s = issue i u (fun s => if 32 ≤ (rdS s a).toNat then syncMisuse 0x04 else .done (eff s)) s) :
    performs i u (fun s => (rdS s a).toNat < 32) eff := performs_of_body hi fun _ h => if_neg (Nat.not_le.mpr h)

/-! ### Engine faults (R145, R155, R238) -/

theorem takeFault_none {s : State} {e : Eff} (h : noFault s) : takeFault s e = e := by
  unfold noFault at h
  unfold takeFault
  by_cases ht : s.turn = .mat
  · rw [if_pos ht] at h
    simp [ht, h]
  · rw [if_neg ht] at h
    simp [ht, h]

theorem takeFault_matrix {s : State} {e : Eff} (ht : s.turn = .mat) (hp : s.core.mat.mflt.pend = true) :
    takeFault s e = .trapIn (clearMflt s) (matrixRec s.core.mat.mflt) := by
  rw [takeFault, if_pos ht, if_pos hp]

/-- The oldest engine fault of the stream is taken. -/
theorem takeFault_head {s : State} {e : Eff} {r : TrapRec} {l : List TrapRec} (ht : s.turn ≠ .mat) (hf : s.cur.faults = r :: l) :
    takeFault s e = .trapIn (s.setCur { s.cur with faults := l }) r := by
  simp only [takeFault, if_neg ht, hf]

/-! ### WAITLT (R145) -/

section Counter
variable {s : State}

/-- What WAITLT of counter `c` below `t` comes to. -/
def counterWait (c t : Nat) (settle : Bool) (s : State) : Eff :=
  if 32 ≤ c then syncMisuse 0x04
  else if t = 0 then syncMisuse 0x09
  else if counterAt s c < t ∨ 100 < t then .done s
  else suspend (.counter c t) settle s

theorem exec_waitlt (o : YAB) (s : State) : exec (.waitlt o) s = issue (.waitlt o) (useYAB o)
    (fun s => takeFault s (counterWait (rdS s o.a).toNat (rdS s o.b).toNat o.s s)) s := rfl

variable {c t : Nat} {settle : Bool}

theorem counterWait_below (hc : c < 32) (ht : t ≠ 0) (h : counterAt s c < t) : counterWait c t settle s = .done s := by
  rw [counterWait, if_neg (Nat.not_le.mpr hc), if_neg ht, if_pos (.inl h)]

theorem counterWait_waits (hc : c < 32) (ht : t ≠ 0) (hl : t ≤ 100) (h : t ≤ counterAt s c) :
    counterWait c t settle s = .jump (waiting (.counter c t) settle s) := by
  have hn : ¬(counterAt s c < t ∨ 100 < t) := by omega
  rw [counterWait, if_neg (Nat.not_le.mpr hc), if_neg ht, if_neg hn, suspend_eq]

theorem counterWait_beyond (hc : 32 ≤ c) : counterWait c t settle s = .trap (mkTrap cSync 0x04 0) := if_pos hc

theorem counterWait_zero (hc : c < 32) (ht : t = 0) : counterWait c t settle s = .trap (mkTrap cSync 0x09 0) := by
  rw [counterWait, if_neg (Nat.not_le.mpr hc), if_pos ht]
  rfl

end Counter

/-- Settles O20: a flag word checks the number and sets, clears or reads its flag, and WAITLT goes by its fault, number and threshold in turn. -/
theorem flagsAndCounters : Obligations.FlagsAndCounters := by
  unfold Obligations.FlagsAndCounters
  refine ⟨fun o => ⟨flag_performs fun _ => rfl, flag_misnumbered fun _ => rfl⟩, fun o => ⟨flag_performs fun _ => rfl, flag_misnumbered fun _ => rfl⟩,
    fun o => ⟨?_, ?_, ?_, flag_misnumbered fun _ => rfl⟩, fun o => ⟨?_, ?_, ?_, ?_, fun r l => ?_, ?_⟩, fun e v s k => flagSet_setFlag v s⟩
  · refine performs_of_body (fun _ => rfl) fun s ⟨he, hf, hb⟩ => ?_
    simp only [if_neg (Nat.not_le.mpr he), hf, bitOf, hb]
    rfl
  · refine performs_of_body (fun _ => rfl) fun s ⟨he, hf, hb⟩ => ?_
    simp only [if_neg (Nat.not_le.mpr he), hf, bitOf, hb]
    rfl
  · refine transfers_of_body (fun _ => rfl) fun s ⟨he, hf⟩ => ?_
    simp only [if_neg (Nat.not_le.mpr he), hf, bitOf, suspend_eq]
    rfl
  · exact performs_of_body (exec_waitlt o) fun s ⟨hn, hc, ht, hv⟩ => (takeFault_none hn).trans (counterWait_below hc ht hv)
  · exact transfers_of_body (exec_waitlt o) fun s ⟨hn, hc, ht, hl, hv⟩ => (takeFault_none hn).trans (counterWait_waits hc ht hl hv)
  · exact traps_of_body (exec_waitlt o) fun s ⟨hn, hc⟩ => (takeFault_none hn).trans (counterWait_beyond hc)
  · exact traps_of_body (exec_waitlt o) fun s ⟨hn, hc, ht⟩ => (takeFault_none hn).trans (counterWait_zero hc ht)
  · exact trapsIn_of_body (exec_waitlt o) fun s ⟨ht, hf⟩ => takeFault_head ht hf
  · exact trapsIn_of_body (exec_waitlt o) fun s ⟨ht, hp⟩ => takeFault_matrix ht hp

end Sys2Proof.Machine
end

