-- ==== Sys2Proof/Proofs/Rings.lean ====
section
/-! O21: the four ring words, by the checks of the control block that they share and by their counts. -/

namespace Sys2Proof.Machine

/-- What a ring word with effect `f` and count `n` makes of the block it reads at `p`, poisoned or not (log entry 57). -/
def ringTake (k : Fin 16) (p n : Nat) (f : Nat → Ring → Nat → State → Eff) (s : State) : Option Ring → Eff
  | none => syncMisuse 0x0A
  | some r => if n = 0 ∨ r.size < n then syncMisuse 0x0B else f p r n (sawScratch k p 64 s)

section Checks
variable {k : Fin 16} {a b : Word} {f : Nat → Ring → Nat → State → Eff} {s : State} {r : Ring}

/-- The block that an operand names is aligned where the operand is (R147). -/
theorem ringInstr_misaligned (ha : a.toNat % 64 ≠ 0) : ringInstr k a b f s = .trap (mkTrap cAlignment 0 (a.toNat % 2 ^ 22)) := by
  have hz : bitsOf a 0 6 ≠ 0 := (bitsOf_low a 6).trans_ne ha
  simp only [ringInstr, if_pos hz]
  rw [bitsOf_low]
  rfl

theorem ringInstr_forbidden (ha : a.toNat % 64 = 0) (hp : s.cur.priv = false) (ht : touchesSr s.core (a.toNat % 2 ^ 22) 64 = true) :
    ringInstr k a b f s = .trap (mkTrap cPrivilege 0 (a.toNat % 2 ^ 22)) := by
  have hz : ¬(bitsOf a 0 6 ≠ 0) := not_not_intro ((bitsOf_low a 6).trans ha)
  rw [← bitsOf_low] at ht ⊢
  simp only [ringInstr, if_neg hz, hp, ht]
  rfl

/-- An aligned and allowed block is read. -/
theorem ringInstr_block (h : ringBlock s a) : ringInstr k a b f s =
    ringTake k (a.toNat % 2 ^ 22) b.toNat f s (readRing (s.setCore (s.viewed k)) (a.toNat % 2 ^ 22)) := by
  obtain ⟨ha, hp⟩ := h
  have hz : ¬(bitsOf a 0 6 ≠ 0) := not_not_intro ((bitsOf_low a 6).trans ha)
  rw [← bitsOf_low] at hp ⊢
  simp only [ringInstr, if_neg hz, mayTouch hp]
  cases readRing (s.setCore (s.viewed k)) (bitsOf a 0 22) <;> rfl

theorem ringInstr_malformed (h : ringBlock s a) (hr : readRing (s.setCore (s.viewed k)) (a.toNat % 2 ^ 22) = none) :
    ringInstr k a b f s = .trap (mkTrap cSync 0x0A 0) := by
  rw [ringInstr_block h, hr]
  rfl

theorem ringInstr_count (h : ringBlock s a) (hr : readRing (s.setCore (s.viewed k)) (a.toNat % 2 ^ 22) = some r) (hb : b.toNat = 0 ∨ r.size < b.toNat) :
    ringInstr k a b f s = .trap (mkTrap cSync 0x0B 0) := by
  rw [ringInstr_block h, hr]
  exact if_pos hb

/-- A block and a count that pass the checks: the word has its effect on the ring it has read. -/
theorem ringInstr_ok (h : ringOk k s a b r) : ringInstr k a b f s = f (a.toNat % 2 ^ 22) r b.toNat (ringSeen k a s) := by
  obtain ⟨hblock, hr, h0, hsize⟩ := h
  have hb : ¬(b.toNat = 0 ∨ r.size < b.toNat) := by omega
  rw [ringInstr_block hblock, hr]
  exact if_neg hb

end Checks

/-! ### The words (R148) -/

/-- CLAIM: the granules claimed, or all ones where the ring has not room. -/
def ringClaim (o : YDABk) (p : Nat) (r : Ring) (n : Nat) (s : State) : Eff :=
  if n ≤ r.size - r.used then .done (wrD o.d (r.addr r.claimed) 12 (putRingCounter o.k p 8 (r.claimed + n) s)) else .done (wrD o.d allOnes 12 s)

/-- COMMIT: the claimed granules committed, and the waiters that they serve. -/
def ringCommit (o : YDABk) (p : Nat) (r : Ring) (n : Nat) (s : State) : Eff :=
  if r.pend < n then syncMisuse 0x0B
  else .done (wakeRing p (wrD o.d (BitVec.ofNat 64 (r.occ + n)) 12 (putRingCounter o.k p 12 (r.committed + n) s)))

/-- AWAIT: the oldest committed granule, or a wait. -/
def ringAwait (o : YDABk) (p : Nat) (r : Ring) (n : Nat) (s : State) : Eff :=
  if n ≤ r.occ then .done (wrD o.d (r.addr r.retired) 1 s) else suspend (.ring p n o.d) o.s s

/-- RETIRE: the committed granules retired. -/
def ringRetire (o : YDABk) (p : Nat) (r : Ring) (n : Nat) (s : State) : Eff :=
  if r.occ < n then syncMisuse 0x0B else .done (wrD o.d (BitVec.ofNat 64 (r.occ - n)) 12 (putRingCounter o.k p 16 (r.retired + n) s))

theorem exec_claim (o : YDABk) (s : State) :
    exec (.claim o) s = issue (.claim o) (useYDABk o) (fun s => ringInstr o.k (rdS s o.a) (rdS s o.b) (ringClaim o) s) s := rfl

theorem exec_commit (o : YDABk) (s : State) :
    exec (.commit o) s = issue (.commit o) (useYDABk o) (fun s => ringInstr o.k (rdS s o.a) (rdS s o.b) (ringCommit o) s) s := rfl

theorem exec_await (o : YDABk) (s : State) :
    exec (.await o) s = issue (.await o) (useYDABk o) (fun s => ringInstr o.k (rdS s o.a) (rdS s o.b) (ringAwait o) s) s := rfl

theorem exec_retire (o : YDABk) (s : State) :
    exec (.retire o) s = issue (.retire o) (useYDABk o) (fun s => ringInstr o.k (rdS s o.a) (rdS s o.b) (ringRetire o) s) s := rfl

/-- Each of the four words issues through `ringInstr`. -/
theorem exec_ring {o : YDABk} {i : Instr} (hi : i ∈ [Instr.claim o, .commit o, .await o, .retire o]) :
    ∃ f, ∀ s, exec i s = issue i (useYDABk o) (fun s => ringInstr o.k (rdS s o.a) (rdS s o.b) f s) s := by
  fin_cases hi
  exacts [⟨_, exec_claim o⟩, ⟨_, exec_commit o⟩, ⟨_, exec_await o⟩, ⟨_, exec_retire o⟩]

/-- Settles O21: the checks shared by the four words, then each by the room, the claimed or the committed granules. -/
theorem rings : Obligations.Rings := by
  unfold Obligations.Rings
  refine fun o r => ⟨?_, ?_, ?_, ?_, ?_, ?_, ?_, ?_, fun i hi => ?_⟩
  · exact performs_of_body (exec_claim o) fun s ⟨hr, hn⟩ => (ringInstr_ok hr).trans (if_pos hn)
  · exact performs_of_body (exec_claim o) fun s ⟨hr, hn⟩ => (ringInstr_ok hr).trans (if_neg (Nat.not_le.mpr hn))
  · exact performs_of_body (exec_commit o) fun s ⟨hr, hn⟩ => (ringInstr_ok hr).trans (if_neg (Nat.not_lt.mpr hn))
  · exact performs_of_body (exec_await o) fun s ⟨hr, hn⟩ => (ringInstr_ok hr).trans (if_pos hn)
  · exact transfers_of_body (exec_await o) fun s ⟨hr, hn⟩ => (ringInstr_ok hr).trans (if_neg (Nat.not_le.mpr hn))
  · exact performs_of_body (exec_retire o) fun s ⟨hr, hn⟩ => (ringInstr_ok hr).trans (if_neg (Nat.not_lt.mpr hn))
  · exact traps_of_body (exec_commit o) fun s ⟨hr, hn⟩ => (ringInstr_ok hr).trans (if_pos hn)
  · exact traps_of_body (exec_retire o) fun s ⟨hr, hn⟩ => (ringInstr_ok hr).trans (if_pos hn)
  · obtain ⟨f, hx⟩ := exec_ring hi
    exact ⟨traps_of_body hx fun s ha => ringInstr_misaligned ha, traps_of_body hx fun s ⟨ha, hp, ht⟩ => ringInstr_forbidden ha hp ht,
      traps_of_body hx fun s ⟨hb, hr⟩ => ringInstr_malformed hb hr, traps_of_body hx fun s ⟨hb, hr, hn⟩ => ringInstr_count hb hr hn⟩

end Sys2Proof.Machine
end

