-- ==== Sys2Proof/Proofs/TimedWaits.lean ====
section
/-! O22: SLEEPU by its cycle, and WAITA by the kind of its address, the checks of that kind and the word it reads. -/

namespace Sys2Proof.Machine

/-! ### The start of a watch (R150, R151) -/

/-- Reading a watched word moves neither the turn nor the cycle. -/
theorem sawWatched_clock (t : Sec) (spad : Bool) (a : Nat) (s : State) :
    (sawWatched t spad a s).turn = s.turn ∧ (sawWatched t spad a s).now = s.now := by
  unfold sawWatched
  split
  · exact ⟨rfl, rfl⟩
  · obtain ⟨_, _, _, _, _, he⟩ := countPhysical_onlyCounts a 8 s
    rw [he]
    exact ⟨rfl, rfl⟩

theorem sawWatched_cur (t : Sec) (spad : Bool) (a : Nat) (s : State) : (sawWatched t spad a s).cur = s.cur := by
  rw [State.cur, (sawWatched_clock t spad a s).1, sawWatched_str]
  rfl

section Watch
variable {spad poll settle : Bool} {a : Nat} {old : Word} {d : SDst} {s : State}

/-- A word that differs already completes the watch. -/
theorem beginWatch_differs (h : watchRead s s.turn spad a ≠ old) :
    beginWatch spad a poll old d settle s = .done (wrD d (watchRead s s.turn spad a) 1 (sawWatched s.turn spad a s)) := if_pos h

/-- The same word is waited on, to the timeout of WATCHT and the next poll. -/
theorem beginWatch_waits (h : watchRead s s.turn spad a = old) : beginWatch spad a poll old d settle s =
    .jump (waiting (.watch spad a old d (if s.cur.watcht = 0 then none else some (s.now + s.cur.watcht.toNat))
      (if poll then some (s.now + 1024) else none)) settle (sawWatched s.turn spad a s)) := by
  simp only [beginWatch, if_neg (not_not_intro h), sawWatched_cur, (sawWatched_clock s.turn spad a s).2, suspend_eq]

end Watch

/-! ### WAITA (R150, Table 5-4) -/

/-- WAITA of a scratchpad address. -/
def waitScratch (a old : Word) (d : SDst) (settle : Bool) (s : State) : Eff :=
  if bitsOf a 22 41 ≠ 0 then syncMisuse 0x0C
  else if bitsOf a 0 22 % 8 ≠ 0 then misaligned (bitsOf a 0 22)
  else if !s.cur.priv && touchesSr s.core (bitsOf a 0 22) 8 then forbidden (bitsOf a 0 22)
  else beginWatch true (bitsOf a 0 22) false old d settle s

/-- A global watch after the check of its address. -/
def watchFar (old : Word) (d : SDst) (settle : Bool) : State × Except TrapRec Xlat → Eff
  | (s, .error r) => .trapIn s r
  | (s, .ok x) => beginWatch false x.pa (decide (x.tier ≠ .host)) old d settle s

/-- WAITA of a global address. -/
def waitFar (a old : Word) (d : SDst) (settle : Bool) (s : State) : Eff :=
  if s.turn ≠ .ctl then syncMisuse 0x0C
  else if a.toNat % 8 ≠ 0 then misaligned a.toNat
  else if accessHeld s (streamAccess s false) a.toNat 8 then .hold
  else watchFar old d settle (farCheck s a.toNat 8 false)

section Scratch
variable {a old : Word} {d : SDst} {settle : Bool} {s : State}

theorem waitScratch_reserved (h : a.toNat / 2 ^ 22 % 2 ^ 41 ≠ 0) : waitScratch a old d settle s = .trap (mkTrap cSync 0x0C 0) := if_pos h

theorem waitScratch_misaligned (h : a.toNat / 2 ^ 22 % 2 ^ 41 = 0) (ha : a.toNat % 8 ≠ 0) :
    waitScratch a old d settle s = .trap (mkTrap cAlignment 0 (a.toNat % 2 ^ 22)) := by
  have h : ¬(bitsOf a 22 41 ≠ 0) := not_not_intro h
  rw [waitScratch, if_neg h, if_pos (mt (wordAligned_iff a).1 ha), bitsOf_low]
  rfl

theorem waitScratch_forbidden (h : a.toNat / 2 ^ 22 % 2 ^ 41 = 0) (ha : a.toNat % 8 = 0) (hp : s.cur.priv = false)
    (ht : touchesSr s.core (a.toNat % 2 ^ 22) 8 = true) : waitScratch a old d settle s = .trap (mkTrap cPrivilege 0 (a.toNat % 2 ^ 22)) := by
  have h : ¬(bitsOf a 22 41 ≠ 0) := not_not_intro h
  rw [waitScratch, if_neg h, if_neg (not_not_intro ((wordAligned_iff a).2 ha)), bitsOf_low, hp, ht]
  rfl

/-- An aligned and allowed word of the scratchpad is watched. -/
theorem waitScratch_watches (h : watchesScratch s a) : waitScratch a old d settle s = beginWatch true (a.toNat % 2 ^ 22) false old d settle s := by
  obtain ⟨_, hz, ha, hp⟩ := h
  have hz : ¬(bitsOf a 22 41 ≠ 0) := not_not_intro hz
  rw [waitScratch, if_neg hz, bitsOf_low, if_neg (not_not_intro ha), mayTouch hp, if_neg Bool.false_ne_true]

end Scratch

section Far
variable {a old : Word} {d : SDst} {settle : Bool} {s : State}

theorem waitFar_section (h : s.turn ≠ .ctl) : waitFar a old d settle s = .trap (mkTrap cSync 0x0C 0) := if_pos h

theorem waitFar_misaligned (h : s.turn = .ctl) (ha : a.toNat % 8 ≠ 0) : waitFar a old d settle s = .trap (mkTrap cAlignment 0 a.toNat) := by
  rw [waitFar, if_neg (not_not_intro h), if_pos ha]
  rfl

/-- A word or a walk in a blocked bank holds the watch (R403). -/
theorem waitFar_held (h : s.turn = .ctl) (ha : a.toNat % 8 = 0) (hh : accessHeld s (streamAccess s false) a.toNat 8 = true) :
    waitFar a old d settle s = .hold := by
  rw [waitFar, if_neg (not_not_intro h), if_neg (not_not_intro ha), if_pos hh]

theorem waitFar_checked (h : s.turn = .ctl) (ha : a.toNat % 8 = 0) (hh : accessHeld s (streamAccess s false) a.toNat 8 = false) :
    waitFar a old d settle s = watchFar old d settle (farCheck s a.toNat 8 false) := by
  rw [waitFar, if_neg (not_not_intro h), if_neg (not_not_intro ha), hh]
  rfl

end Far

/-- The next poll of a global watch: host memory gives notice and is not polled. -/
theorem poll_of_tier (t : Tier) (n : Nat) : (if decide (t ≠ .host) = true then some n else none) = if t = .host then none else some n := by
  by_cases h : t = .host <;> simp [h]

/-- What WAITA comes to, by bit [63] of its address. -/
def watchBody (a old : Word) (d : SDst) (settle : Bool) (s : State) : Eff :=
  if a.getLsbD 63 then waitScratch a old d settle s else waitFar a old d settle s

theorem exec_waita (o : YDAB) (s : State) :
    exec (.waita o) s = issue (.waita o) (useYDAB o) (fun s => watchBody (rdS s o.a) (rdS s o.b) o.d o.s s) s := rfl

theorem watchBody_scratch {a old : Word} {d : SDst} {settle : Bool} {s : State} (h : a.getLsbD 63 = true) :
    watchBody a old d settle s = waitScratch a old d settle s := if_pos h

theorem watchBody_far {a old : Word} {d : SDst} {settle : Bool} {s : State} (h : a.getLsbD 63 = false) :
    watchBody a old d settle s = waitFar a old d settle s := if_neg (Bool.eq_false_iff.mp h)

/-- The issue of a word does not change what its stream may access. -/
theorem startIssue_access (s : State) (w : Bool) : streamAccess (startIssue s) w = streamAccess s w := by
  unfold streamAccess
  rw [startIssue_cur]
  rfl

/-- A global watch that nothing holds goes by what the check of its address answers. -/
theorem waita_checked {o : YDAB} {s : State} {e : State × Except TrapRec Xlat} (ht : s.turn = .ctl) (hf : (rdS (startIssue s) o.a).getLsbD 63 = false)
    (ha : (rdS (startIssue s) o.a).toNat % 8 = 0)
    (hh : accessHeld (startIssue s) (streamAccess s false) (rdS (startIssue s) o.a).toNat 8 = false)
    (hc : farCheck (startIssue s) (rdS (startIssue s) o.a).toNat 8 false = e) :
    watchBody (rdS (startIssue s) o.a) (rdS (startIssue s) o.b) o.d o.s (startIssue s) = watchFar (rdS (startIssue s) o.b) o.d o.s e := by
  rw [← startIssue_access] at hh
  rw [watchBody_far hf, waitFar_checked (s := startIssue s) ht ha hh, hc]

/-- Settles O22: SLEEPU by its cycle; WAITA by its address, and then as the watch that begins there. -/
theorem timedWaits : Obligations.TimedWaits := by
  unfold Obligations.TimedWaits
  refine ⟨fun o => ⟨?_, ?_⟩, fun o => ⟨?_, ?_, ?_, ?_, ?_, ?_, ?_⟩, fun o s s1 r hs ht hf ha hh hc => ?_, fun o s hs ht hf ha hh => ?_,
    fun o s s1 x hs ht hf ha hh hc => ⟨fun hv => ?_, fun hv => ?_⟩⟩
  · exact performs_of_body (fun _ => rfl) fun s h => if_pos h
  · exact transfers_of_body (fun _ => rfl) fun s h => if_neg (Nat.not_le.mpr h)
  · exact performs_of_body (exec_waita o) fun s ⟨hw, hv⟩ => (watchBody_scratch hw.1).trans ((waitScratch_watches hw).trans (beginWatch_differs hv))
  · exact transfers_of_body (exec_waita o) fun s ⟨hw, hv⟩ => (watchBody_scratch hw.1).trans ((waitScratch_watches hw).trans (beginWatch_waits hv))
  · exact traps_of_body (exec_waita o) fun s ⟨h63, hz⟩ => (watchBody_scratch h63).trans (waitScratch_reserved hz)
  · exact traps_of_body (exec_waita o) fun s ⟨h63, ht⟩ => (watchBody_far h63).trans (waitFar_section ht)
  · exact traps_of_body (exec_waita o) fun s ⟨h63, hz, ha⟩ => (watchBody_scratch h63).trans (waitScratch_misaligned hz ha)
  · exact traps_of_body (exec_waita o) fun s ⟨h63, hz, ha, hp, ht⟩ => (watchBody_scratch h63).trans (waitScratch_forbidden hz ha hp ht)
  · exact traps_of_body (exec_waita o) fun s ⟨h63, ht, ha⟩ => (watchBody_far h63).trans (waitFar_misaligned ht ha)
  · exact (exec_waita o s).trans (issue_trapIn hs (waita_checked ht hf ha hh hc))
  · rw [← startIssue_access] at hh
    exact (exec_waita o s).trans (issue_hold hs ((watchBody_far hf).trans (waitFar_held (s := startIssue s) ht ha hh)))
  · exact (exec_waita o s).trans (issue_done hs ((waita_checked ht hf ha hh hc).trans (beginWatch_differs hv)))
  · rw [← poll_of_tier]
    exact (exec_waita o s).trans (issue_jump hs ((waita_checked ht hf ha hh hc).trans (beginWatch_waits hv)))

end Sys2Proof.Machine
end

