-- ==== Sys2Proof/Proofs/MatrixConfiguration.lean ====
section
/-! O30: MCFG by its byte, MREL and MDRAIN by whether the array is drained, and the registers that MBAND, MTAG, MPACE and MSTAT set and read. -/

namespace Sys2Proof.Machine

/-- The low bits of a word as a field of that width. -/
theorem ofNat_bitsOf_low {w : Nat} (x : BitVec w) (n : Nat) : BitVec.ofNat n (bitsOf x 0 n) = x.setWidth n := by
  rw [bitsOf_low]
  exact BitVec.eq_of_toNat_eq (by simp)

/-! ### What dropping the combs leaves (R239, R304) -/

/-- Discarding a sample touches the combs alone of the array. -/
theorem discardSample_mat (s : State) :
    { (discardSample s).core.mat with resident := s.core.mat.resident, filling := s.core.mat.filling } = s.core.mat := by
  unfold discardSample
  split <;> rfl

theorem discardUntapped_mat (s : State) :
    { (discardUntapped s).core.mat with resident := s.core.mat.resident, filling := s.core.mat.filling } = s.core.mat := by
  unfold discardUntapped
  split
  · split
    · exact discardSample_mat s
    · rfl
  · rfl

/-- An array with both combs dropped. -/
def Matrix.noCombs (m : Matrix) : Matrix :=
  { m with residentValid := false, resident := Comb.reset, fillState := .empty, filling := Comb.reset }

theorem dropCombs_mat (s : State) : (dropCombs s).core.mat = s.core.mat.noCombs := (congrArg Matrix.noCombs (discardUntapped_mat s) :)

/-! ### MCFG (R239, Table 12-7) -/

/-- The array under configuration byte `c`: the combs go with their split or weight width. -/
def arrayConfigured (c : BitVec 8) (s : State) : State :=
  let s1 := if cfgSplit c ≠ cfgSplit s.core.mat.cfg ∨ cfgWw c ≠ cfgWw s.core.mat.cfg then dropCombs s else s
  s1.setMat { s1.core.mat with cfg := c }

/-- What MCFG of operand `a` comes to. -/
def configureArray (a : Word) (s : State) : Eff :=
  let c : BitVec 8 := BitVec.ofNat 8 (bitsOf a 0 8)
  if bitsOf a 7 57 ≠ 0 ∨ bitOf a 3 then matMisuse 0x02
  else if cfgAw c = 3 ∨ 4 < cfgSplit c ∨ (cfgAw c = 2 ∧ !cfgWw c) then matMisuse 0x03
  else if !drained s then .hold
  else .done (arrayConfigured c s)

theorem exec_mcfg (o : AP) (s : State) : exec (.mcfg o) s = issue (.mcfg o) (useAP o) (fun s => configureArray (rdS s o.a) s) s := rfl

section Configure
variable {a : Word} {c : BitVec 8} {s : State}

/-- Bits [63:7] of a word are zero below 128. -/
theorem cfgReserved_iff (a : Word) : bitsOf a 7 57 ≠ 0 ↔ 128 ≤ a.toNat := by
  have ha := a.isLt
  have hb : bitsOf a 7 57 = a.toNat / 2 ^ 7 % 2 ^ 57 := rfl
  omega

theorem configureArray_reserved (h : 128 ≤ a.toNat ∨ a.getLsbD 3 = true) : configureArray a s = .trap (mkTrap cMatrix 0x02 0) :=
  if_pos (h.imp_left (cfgReserved_iff a).2)

/-- An operand with no reserved bit is judged by its byte. -/
theorem configureArray_byte (ha : a.toNat < 128) (h3 : a.getLsbD 3 = false) (hc : a.setWidth 8 = c) : configureArray a s =
    if cfgAw c = 3 ∨ 4 < cfgSplit c ∨ (cfgAw c = 2 ∧ !cfgWw c) then matMisuse 0x03 else if !drained s then .hold else .done (arrayConfigured c s) := by
  have hz : ¬(bitsOf a 7 57 ≠ 0 ∨ bitOf a 3 = true) := by
    rw [cfgReserved_iff, bitOf, h3]
    simp [ha]
  rw [← hc, ← ofNat_bitsOf_low]
  exact if_neg hz

theorem configureArray_refused (ha : a.toNat < 128) (h3 : a.getLsbD 3 = false) (hc : a.setWidth 8 = c)
    (h : cfgAw c = 3 ∨ 4 < cfgSplit c ∨ (cfgAw c = 2 ∧ cfgWw c = false)) : configureArray a s = .trap (mkTrap cMatrix 0x03 0) := by
  rw [configureArray_byte ha h3 hc]
  exact if_pos (by simpa using h)

/-- A byte that the array can take, at an array that is drained or not. -/
theorem configureArray_allowed (ha : a.toNat < 128) (h3 : c.getLsbD 3 = false) (hc : a.setWidth 8 = c) (haw : cfgAw c ≠ 3) (hs : cfgSplit c ≤ 4)
    (hww : cfgAw c ≠ 2 ∨ cfgWw c = true) : configureArray a s = if drained s then .done (arrayConfigured c s) else .hold := by
  have h3 : a.getLsbD 3 = false := by simpa [← hc] using h3
  have hn : ¬(cfgAw c = 3 ∨ 4 < cfgSplit c ∨ (cfgAw c = 2 ∧ (!cfgWw c) = true)) := by
    rintro (h | h | ⟨h, hw⟩)
    · exact haw h
    · exact Nat.not_lt.mpr hs h
    · rcases hww with k | k
      · exact k h
      · simp [k] at hw
  rw [configureArray_byte ha h3 hc, if_neg hn]
  cases drained s <;> rfl

theorem arrayConfigured_same (hs : cfgSplit c = cfgSplit s.core.mat.cfg) (hw : cfgWw c = cfgWw s.core.mat.cfg) :
    (arrayConfigured c s).core.mat = { s.core.mat with cfg := c } := by
  have hn : ¬(cfgSplit c ≠ cfgSplit s.core.mat.cfg ∨ cfgWw c ≠ cfgWw s.core.mat.cfg) := by simp [hs, hw]
  simp only [arrayConfigured, if_neg hn]
  rfl

theorem arrayConfigured_changed (h : cfgSplit c ≠ cfgSplit s.core.mat.cfg ∨ cfgWw c ≠ cfgWw s.core.mat.cfg) :
    (arrayConfigured c s).core.mat = { s.core.mat.noCombs with cfg := c } := by
  simp only [arrayConfigured, if_pos h]
  exact congrArg (fun m : Matrix => { m with cfg := c }) (dropCombs_mat s)

/-- MCFG sets CFG and leaves the banks in either case. -/
theorem arrayConfigured_banks (c : BitVec 8) (s : State) : (arrayConfigured c s).core.mat.cfg = c
    ∧ (arrayConfigured c s).core.mat.bank0 = s.core.mat.bank0 ∧ (arrayConfigured c s).core.mat.bank1 = s.core.mat.bank1 := by
  by_cases h : cfgSplit c ≠ cfgSplit s.core.mat.cfg ∨ cfgWw c ≠ cfgWw s.core.mat.cfg
  · rw [arrayConfigured_changed h]
    exact ⟨rfl, rfl, rfl⟩
  · obtain ⟨hs, hw⟩ := not_or.mp h
    rw [arrayConfigured_same (not_not.mp hs) (not_not.mp hw)]
    exact ⟨rfl, rfl, rfl⟩

end Configure

/-! ### MREL and MDRAIN (R239) -/

/-- The array after MREL: the combs and the held sample go, and the banks read +0. -/
def arrayReleased (s : State) : State :=
  let s1 := discardSample (dropCombs s)
  s1.setMat { s1.core.mat with bank0 := [], bank1 := [] }

/-- What MREL comes to. -/
def releaseArray (s : State) : Eff := if !drained s then .hold else .done (arrayReleased s)

theorem exec_mrel (o : GP) (s : State) : exec (.mrel o) s = issue (.mrel o) (useGP o) releaseArray s := rfl

theorem releaseArray_drained {s : State} (h : drained s = true) : releaseArray s = .done (arrayReleased s) := by
  rw [releaseArray, h]
  rfl

theorem releaseArray_busy {s : State} (h : drained s = false) : releaseArray s = .hold := by
  rw [releaseArray, h]
  rfl

/-- But for what the combs hold, the array is empty under the CFG it had. -/
theorem arrayReleased_mat (s : State) : { (arrayReleased s).core.mat with resident := Comb.reset, filling := Comb.reset }
    = { s.core.mat.noCombs with bank0 := [], bank1 := [] } := by
  have h := discardSample_mat (dropCombs s)
  rw [dropCombs_mat] at h
  exact congrArg (fun m : Matrix => { m with bank0 := [], bank1 := [] }) h

/-- What MDRAIN comes to. -/
def drainArray (s : State) : Eff := if s.core.mat.checked then drainWait s else takeFault s (drainWait s)

theorem exec_mdrain (o : GP) (s : State) : exec (.mdrain o) s = issue (.mdrain o) (useGP o) drainArray s := rfl

/-- An MDRAIN that has checked, or finds no fault, waits for the array. -/
theorem drainArray_waits {s : State} (h : s.core.mat.checked = true ∨ noFault s) : drainArray s = drainWait s := by
  rcases h with h | h
  · exact if_pos h
  · rw [drainArray, takeFault_none h, ite_self]

/-- One that has not checked takes the fault that pends. -/
theorem drainArray_faults {s : State} (hk : s.core.mat.checked = false) (ht : s.turn = .mat) (hp : s.core.mat.mflt.pend = true) :
    drainArray s = .trapIn (clearMflt s) (matrixRec s.core.mat.mflt) := by
  rw [drainArray, hk]
  exact takeFault_matrix ht hp

/-- Settles O30: MCFG by its byte, MREL and MDRAIN by the drained array, the other words by the register each names. -/
theorem matrixConfiguration : Obligations.MatrixConfiguration := by
  unfold Obligations.MatrixConfiguration
  refine ⟨fun o s hs => ?_, fun o => ⟨?_, ?_, fun s hs => ?_⟩, fun o s hs hd => ?_, fun o => ?_, fun o => ?_, fun o s hs hd => ?_,
    fun o s hs ht hk hp ha => ?_, fun o => ⟨?_, ?_⟩, fun o => ?_, fun o => ?_, fun o => ?_, fun m => ⟨rfl, rfl, fun k hk => ?_⟩⟩
  · intro c old ha h3 haw hsplit hww hd
    obtain ⟨hcfg, hb0, hb1⟩ := arrayConfigured_banks c (startIssue s)
    refine ⟨arrayConfigured c (startIssue s), (exec_mcfg o s).trans (issue_done hs ((configureArray_allowed ha h3 rfl haw hsplit hww).trans (if_pos hd))),
      hcfg, hb0, hb1, arrayConfigured_same (s := startIssue s), fun hne => ?_⟩
    rw [arrayConfigured_changed (s := startIssue s) hne]
    exact ⟨rfl, rfl, rfl, rfl⟩
  · exact traps_of_body (exec_mcfg o) fun s => configureArray_reserved
  · exact traps_of_body (exec_mcfg o) fun s ⟨ha, h3, h⟩ => configureArray_refused ha h3 rfl h
  · intro c ha h3 haw hsplit hww hd
    exact (exec_mcfg o s).trans (issue_hold hs ((configureArray_allowed ha h3 rfl haw hsplit hww).trans (if_neg (Bool.eq_false_iff.mp hd))))
  · have hm := arrayReleased_mat (startIssue s)
    exact ⟨arrayReleased (startIssue s), (exec_mrel o s).trans (issue_done hs (releaseArray_drained hd)), (congrArg Matrix.bank0 hm :),
      (congrArg Matrix.bank1 hm :), (congrArg Matrix.residentValid hm :), (congrArg Matrix.fillState hm :), (congrArg Matrix.cfg hm :)⟩
  · exact performs_of_body (exec_mdrain o) fun s ⟨hk, hd⟩ => (drainArray_waits hk).trans (if_pos hd)
  · exact transfers_of_body (exec_mdrain o) fun s ⟨hk, hd⟩ => (drainArray_waits hk).trans (if_neg (Bool.eq_false_iff.mp hd))
  · exact (exec_mrel o s).trans (issue_hold hs (releaseArray_busy hd))
  · exact ((exec_mdrain o s).trans (issue_trapIn hs (drainArray_faults (s := startIssue s) hk ht hp))).trans (by rw [ha]; rfl)
  · refine performs_of_body (fun _ => rfl) fun s ⟨ha, hb⟩ => ?_
    have hn : ¬(bitsOf (rdS s o.a) 0 22 % 2 ≠ 0 ∨ bitsOf (rdS s o.b) 0 22 % 2 ≠ 0) := by simp only [bitsOf_low]; omega
    simp only [if_neg hn, ofNat_bitsOf_low]
  · refine traps_of_body (fun _ => rfl) fun s h => ?_
    have hy : bitsOf (rdS s o.a) 0 22 % 2 ≠ 0 ∨ bitsOf (rdS s o.b) 0 22 % 2 ≠ 0 := by simp only [bitsOf_low]; omega
    exact if_pos hy
  · refine performs_of_body (fun _ => rfl) fun s _ => ?_
    simp only [ofNat_bitsOf_low]
  · refine performs_of_body (fun _ => rfl) fun s _ => ?_
    simp only [ofNat_bitsOf_low]
  · refine performs_of_body (fun _ => rfl) fun s _ => ?_
    simp only [bitsOf_low]
    rfl
  · obtain ⟨k, rfl⟩ := Nat.exists_eq_add_of_le' hk
    rfl

end Sys2Proof.Machine
end

