-- ==== Sys2Proof/Proofs/RemoteSemaphores.lean ====
section
/-! O45: a request as its owner serves it, and an answer, a refusal or a silence as the waiting stream takes it. -/

namespace Sys2Proof.Machine

/-! ### What happens at the owner and at the waiting stream -/

theorem remoteSemRequest_happens {r : SemReq} {ok : State → Prop} {eff : State → State} (h : ∀ t, ok t → serveRequest r t = eff t) :
    happensAt .remoteSemRequest (fun t => t.arg.data = .sem r ∧ ok t) eff := by
  refine happensAt_of_performed fun s t ha ⟨hd, ho⟩ => ⟨serveRequest r, ?_, h t ho⟩
  show execRemoteSemRequest s = _
  simp only [execRemoteSemRequest, ← ha, hd]

theorem remoteWithdrawal_happens {r : SemReq} {ok : State → Prop} {eff : State → State} (h : ∀ t, ok t → serveWithdrawal r t = eff t) :
    happensAt .remoteWithdrawal (fun t => t.arg.data = .sem r ∧ ok t) eff := by
  refine happensAt_of_performed fun s t ha ⟨hd, ho⟩ => ⟨serveWithdrawal r, ?_, h t ho⟩
  show execRemoteWithdrawal s = _
  simp only [execRemoteWithdrawal, ← ha, hd]

theorem remoteSemAnswer_happens {x : SemAnswer} {ok : State → Prop} {eff : State → State}
    (h : ∀ t, ok t → takeAnswer t.arg.sec t.arg.a x t = eff t) : happensAt .remoteSemAnswer (fun t => t.arg.data = .answer x ∧ ok t) eff := by
  refine happensAt_of_performed fun s t ha ⟨hd, ho⟩ => ⟨takeAnswer s.arg.sec s.arg.a x, ?_, ha ▸ h t ho⟩
  show execRemoteSemAnswer s = _
  simp only [execRemoteSemAnswer, ← ha, hd]

/-! ### A request at the owning file (R135, R137) -/

section Serve
variable {r : SemReq} {s : State}

/-- A value operation that stores a value answers its result after the grants that follow. -/
theorem serveRequest_puts {v : Word} {n : Nat} (hop : r.op ≠ .wait) (he : semEffect r.op (semAt s r.phys).val.toNat r.b = some (v, some n)) :
    serveRequest r s = sendAnswer r.from_ r.sec r.id (.result v) (putSemValue r.phys n s) := by
  simp only [serveRequest, performSem, he]

/-- One that stores none answers its result alone. -/
theorem serveRequest_keeps {v : Word} (hop : r.op ≠ .wait) (he : semEffect r.op (semAt s r.phys).val.toNat r.b = some (v, none)) :
    serveRequest r s = sendAnswer r.from_ r.sec r.id (.result v) s := by
  simp only [serveRequest, performSem, he]

theorem serveRequest_overflows (hop : r.op ≠ .wait) (he : semEffect r.op (semAt s r.phys).val.toNat r.b = none) :
    serveRequest r s = sendAnswer r.from_ r.sec r.id .overflow s := by
  simp only [serveRequest, performSem, he]

/-- A SEMWAIT that the value covers takes its units. -/
theorem serveRequest_admits (hop : r.op = .wait) (ha : semAdmits (semAt s r.phys) (r.b.toNat % 2 ^ 32) = true) :
    serveRequest r s = sendAnswer r.from_ r.sec r.id (.result 0)
      (setSem s r.phys { semAt s r.phys with val := (semAt s r.phys).val - BitVec.ofNat 32 (r.b.toNat % 2 ^ 32) }) := by
  simp only [serveRequest, hop, bitsOf_low, if_pos ha]

theorem serveRequest_queues (hop : r.op = .wait) (ha : semAdmits (semAt s r.phys) (r.b.toNat % 2 ^ 32) = false) (hn : remoteWaiters s < 256) :
    serveRequest r s = sendAnswer r.from_ r.sec r.id .acknowledged (setSem s r.phys { semAt s r.phys with
      fifo := (semAt s r.phys).fifo ++ [{ coord := r.from_, sec := r.sec, n := r.b.toNat % 2 ^ 32, remote := some r.id }] }) := by
  simp only [serveRequest, hop, bitsOf_low, ha, if_neg (Nat.not_le.mpr hn)]
  rfl

/-- A file that holds 256 remote waiters refuses the next (R135). -/
theorem serveRequest_refuses (hop : r.op = .wait) (ha : semAdmits (semAt s r.phys) (r.b.toNat % 2 ^ 32) = false) (hn : 256 ≤ remoteWaiters s) :
    serveRequest r s = sendAnswer r.from_ r.sec r.id .refused s := by
  simp only [serveRequest, hop, bitsOf_low, ha, if_pos hn]
  rfl

/-! ### A withdrawal (R136) -/

theorem serveWithdrawal_removes {n : Nat} (h : (semAt s r.phys).fifo = [{ coord := r.from_, sec := r.sec, n := n, remote := some r.id }]) :
    serveWithdrawal r s = sendAnswer r.from_ r.sec r.id .withdrawn (setSem s r.phys { semAt s r.phys with fifo := [] }) := by
  simp [serveWithdrawal, h]

/-- A request granted before is not withdrawn. -/
theorem serveWithdrawal_granted (h : (semAt s r.phys).fifo = []) : serveWithdrawal r s = s := by
  simp [serveWithdrawal, h]

end Serve

/-! ### An answer at the waiting stream (R135, R136) -/

theorem remoteOf_of_waits {s : State} {t : Sec} {r : RemoteWait} {d : Option SDst} (h : waitsOn s t = some (.remote r d)) :
    remoteOf s t = some (r, d) := by
  simp only [remoteOf, h]

/-- A stream changed twice. -/
theorem onStr_onStr (s : State) (t : Sec) (f g : Stream → Stream) : (s.onStr t f).onStr t g = s.onStr t fun x => g (f x) := by
  rw [State.onStr, onStr_str]
  simp [State.onStr, State.setStr]

/-- The remote operation ends in a trap where the core runs. -/
theorem endRemote_running {s : State} (t : Sec) (x : TrapRec) (h : s.core.stop = false) : endRemote t x s = endWait t x s := by
  simp [endRemote, h]

section Answer
variable {s : State} {t : Sec} {id : Nat} {a : SemAnswer} {r : RemoteWait} {d : Option SDst}

/-- What a stream that waits with `r` makes of an answer to it. -/
def remoteAnswered (t : Sec) (r : RemoteWait) (d : Option SDst) (s : State) : SemAnswer → State
  | .result v => parkAnswered r.park t (resume t (d.map fun x => (x, v)) s)
  | .acknowledged => setRemote t { r with acked := true } d s
  | .refused => if r.withdraw then parkAnswered r.park t (s.onStr t fun st => { st with waiting := none }) else setRemote t { r with refusedAt := some s.now } d s
  | .withdrawn => parkAnswered r.park t (s.onStr t fun st => { st with waiting := none })
  | .overflow => endRemote t (mkTrap cSync 0x03 0) s

/-- An answer to the request that the stream awaits. -/
theorem takeAnswer_awaited (hw : waitsOn s t = some (.remote r d)) (hid : r.req.id = id) (he : id % 2 = 0) : takeAnswer t id a s = remoteAnswered t r d s a := by
  have hodd : ¬ id % 2 = 1 := by omega
  simp only [takeAnswer, if_neg hodd, remoteOf_of_waits hw, if_neg (not_not_intro hid)]
  cases a <;> rfl

/-- Any other acknowledgement is discarded. -/
theorem takeAnswer_other (hw : waitsOn s t = some (.remote r d)) (hid : r.req.id ≠ id) : takeAnswer t id .acknowledged s = s := by
  unfold takeAnswer
  split
  · rfl
  · simp only [remoteOf_of_waits hw, if_pos hid]

theorem remoteAnswered_result {v : Word} (hp : r.park = false) : remoteAnswered t r d s (.result v) = resume t (d.map fun x => (x, v)) s := by
  simp only [remoteAnswered, parkAnswered, hp]
  rfl

theorem parkAnswered_parks (hk : (s.str t).parked = none) : parkAnswered true t s = s.onStr t fun st => st.parkAt none st.pc := by
  simp [parkAnswered, hk]

/-- The stream that was asked to park parks with the answer. -/
theorem remoteAnswered_parks (hp : r.park = true) (hk : (s.str t).parked = none) :
    remoteAnswered t r d s .withdrawn = s.onStr t fun st => { st with waiting := none }.parkAt none st.pc := by
  have hn : ((s.onStr t fun st => { st with waiting := none }).str t).parked = none := by rw [onStr_str, hk]
  rw [remoteAnswered, hp, parkAnswered_parks hn]
  exact onStr_onStr s t _ _

end Answer

/-! ### A refusal and a silence (R135) -/

/-- REMOTE_SEM_RESEND of a stream that waits with `r`. -/
theorem remoteSemResend_happens {r : RemoteWait} {d : Option SDst} {n : Nat} :
    happensAt .remoteSemResend (fun t => waitsOn t t.arg.sec = some (.remote r d) ∧ r.refusedAt = some n)
      (fun t => sendRequest r.owner r.req (setRemote t.arg.sec { r with refusedAt := none } d t)) := by
  refine happensAt_of_performed fun s t ha ⟨hw, hr⟩ => ⟨_, rfl, ?_⟩
  simp only [← ha, remoteOf_of_waits hw, hr]
  rfl

/-- REMOTE_SEM_TIMEOUT of a stream that waits with `r` on a core that runs. -/
theorem remoteSemTimeout_happens {r : RemoteWait} {d : Option SDst} {bit : Bool} (hb : (r.acked && !r.withdraw) = bit) :
    happensAt .remoteSemTimeout (fun t => waitsOn t t.arg.sec = some (.remote r d) ∧ t.core.stop = false)
      (fun t => endWait t.arg.sec (noAnswerRec bit) t) := by
  refine happensAt_of_performed fun s t ha ⟨hw, hs⟩ => ⟨_, rfl, ?_⟩
  simp only [← ha, remoteOf_of_waits hw, hb, endRemote_running _ _ hs]

/-- Settles O45: each request is served by its operation, and each answer, resending and timeout is that of the request awaited. -/
theorem remoteSemaphoreEvents : Obligations.RemoteSemaphoreEvents := by
  unfold Obligations.RemoteSemaphoreEvents
  refine ⟨fun r => ⟨?_, ?_, ?_, ?_, ?_, ?_, ?_, ?_, ?_, ?_, ?_, ?_, ?_, ?_⟩,
    fun r d => ⟨fun v => ?_, ?_, ?_, ?_, ?_, fun n => remoteSemResend_happens, ?_, ?_⟩, fun c t id x s hc => if_pos hc⟩
  · exact remoteSemRequest_happens fun t ⟨hop, ha⟩ => serveRequest_admits hop ha
  · exact remoteSemRequest_happens fun t ⟨hop, ha, hn⟩ => serveRequest_queues hop ha hn
  · exact remoteSemRequest_happens fun t ⟨hop, ha, hn⟩ => serveRequest_refuses hop ha hn
  · refine remoteSemRequest_happens fun t hop => serveRequest_keeps (hop.trans_ne (by decide)) ?_
    rw [hop, ← BitVec.ofNat_toNat 64]
    rfl
  · exact remoteSemRequest_happens fun t ⟨hop, hv⟩ => serveRequest_overflows (hop.trans_ne (by decide)) (hop ▸ semEffect_sig_over hv)
  · exact remoteSemRequest_happens fun t ⟨hop, hv⟩ => serveRequest_puts (hop.trans_ne (by decide)) (hop ▸ semEffect_sig hv)
  · exact remoteSemRequest_happens fun t ⟨hop, hv⟩ => serveRequest_puts (hop.trans_ne (by decide)) (hop ▸ semEffect_try hv)
  · exact remoteSemRequest_happens fun t ⟨hop, hv⟩ => serveRequest_keeps (hop.trans_ne (by decide)) (hop ▸ semEffect_try_short hv)
  · refine remoteSemRequest_happens fun t ⟨hop, h0, h1⟩ => serveRequest_puts (hop.trans_ne (by decide)) ?_
    rw [hop, ← BitVec.ofNat_toNat 64]
    exact semEffect_add h0 h1
  · exact remoteSemRequest_happens fun t ⟨hop, hv⟩ => serveRequest_keeps (hop.trans_ne (by decide)) (hop ▸ semEffect_add_over hv)
  · refine remoteSemRequest_happens fun t ⟨hop, hv⟩ => serveRequest_puts (hop.trans_ne (by decide)) ?_
    rw [hop, ← BitVec.ofNat_toNat 64]
    exact semEffect_cas hv
  · refine remoteSemRequest_happens fun t ⟨hop, hv⟩ => serveRequest_keeps (hop.trans_ne (by decide)) ?_
    rw [hop, ← BitVec.ofNat_toNat 64]
    exact semEffect_cas_other hv
  · exact remoteWithdrawal_happens fun t => serveWithdrawal_removes
  · exact remoteWithdrawal_happens fun t => serveWithdrawal_granted
  · exact remoteSemAnswer_happens fun t ⟨hw, hid, he, hp⟩ => (takeAnswer_awaited hw hid he).trans (remoteAnswered_result hp)
  · exact remoteSemAnswer_happens fun t ⟨hw, hid, he⟩ => takeAnswer_awaited hw hid he
  · exact remoteSemAnswer_happens fun t ⟨hw, hid, he, hs⟩ => (takeAnswer_awaited hw hid he).trans (endRemote_running _ _ hs)
  · exact remoteSemAnswer_happens fun t ⟨hw, hid⟩ => takeAnswer_other hw hid
  · exact remoteSemAnswer_happens fun t ⟨hw, hid, he, hp, hk⟩ => (takeAnswer_awaited hw hid he).trans (remoteAnswered_parks hp hk)
  · exact fun s t hf ⟨hw, ha, hs⟩ => remoteSemTimeout_happens (bit := false) (by simp [ha]) s t hf ⟨hw, hs⟩
  · exact fun s t hf ⟨hw, ha, hd, hs⟩ => remoteSemTimeout_happens (bit := true) (by simp [ha, hd]) s t hf ⟨hw, hs⟩

end Sys2Proof.Machine
end

