-- ==== Sys2Proof/Proofs/CommandIssue.lean ====
section
/-! O26: a command enters the queue as its newest entry, with its faults of issue, and what else an issue leaves as it was. -/

namespace Sys2Proof.Machine

/-- A word whose body stalls has not happened. -/
theorem exec_of_hold {i : Instr} {u : Use} {body : State → Eff} {s : State} (hi : ∀ s, exec i s = issue i u body s) (h : issues i u s)
    (hb : body (entered i s) = .hold) : exec i s = .next s :=
  (hi s).trans (issue_hold h hb)

@[simp] theorem setEngine_copy (s : State) (e : CopyEngine) : (s.setEngine e).core.copy = e := rfl

/-! ### What the bookkeeping of commands leaves as it was -/

/-- Commands may have changed, but neither their numbers nor the command registers, the scratchpad and global memory. -/
def cmdsChange (s t : State) : Prop :=
  t.core.copy.seq = s.core.copy.seq ∧ t.core.copy.queue.map (·.seq) = s.core.copy.queue.map (·.seq) ∧ t.core.copy.cw = s.core.copy.cw
    ∧ sameScratch t.core s.core ∧ t.mem = s.mem

theorem sameScratch_refl (c : CoreState) : sameScratch c c := ⟨rfl, rfl, rfl⟩

theorem sameScratch_trans {c d e : CoreState} (h : sameScratch d c) (k : sameScratch e d) : sameScratch e c :=
  ⟨k.1.trans h.1, k.2.1.trans h.2.1, k.2.2.trans h.2.2⟩

theorem cmdsChange_refl (s : State) : cmdsChange s s := ⟨rfl, rfl, rfl, sameScratch_refl _, rfl⟩

theorem cmdsChange_trans {s t u : State} (h : cmdsChange s t) (k : cmdsChange t u) : cmdsChange s u := by
  obtain ⟨h1, h2, h3, h4, h5⟩ := h
  obtain ⟨k1, k2, k3, k4, k5⟩ := k
  exact ⟨k1.trans h1, k2.trans h2, k3.trans h3, sameScratch_trans h4 k4, k5.trans h5⟩

theorem setCmd_cmdsChange (c : Cmd) (s : State) : cmdsChange s (setCmd c s) := by
  refine ⟨rfl, ?_, rfl, sameScratch_refl _, rfl⟩
  simp only [setCmd, setEngine_copy, List.map_map]
  refine List.map_congr_left fun d _ => ?_
  by_cases h : d.seq = c.seq <;> simp [h]

theorem onCmd_cmdsChange (q : BitVec 16) (f : Cmd → Cmd) (s : State) : cmdsChange s (onCmd q f s) := by
  unfold onCmd
  split
  · exact setCmd_cmdsChange _ s
  · exact cmdsChange_refl s

theorem recordFault_cmdsChange (q : BitVec 16) (code first : Nat) (s : State) : cmdsChange s (recordFault q code first s) := by
  unfold recordFault
  split
  · exact cmdsChange_refl s
  · split
    · exact cmdsChange_refl s
    · exact cmdsChange_trans (setCmd_cmdsChange _ s) ⟨rfl, rfl, rfl, sameScratch_refl _, rfl⟩

theorem counterUp_cmdsChange (c : Nat) (s : State) : cmdsChange s (counterUp c s) := ⟨rfl, rfl, rfl, sameScratch_refl _, rfl⟩

/-! ### The newest command of a queue -/

/-- The queue ends in `c`, of number `q`, which no earlier entry has. -/
def newest (l : List Cmd) (q : BitVec 16) (c : Cmd) (s : State) : Prop :=
  s.core.copy.queue = l ++ [c] ∧ c.seq = q ∧ ∀ d ∈ l, d.seq ≠ q

/-- A command with a fault at its issue: the first one stands (R155). -/
def Cmd.faulted (code : Nat) (c : Cmd) : Cmd := if c.fault ≠ 0 then c else { c with fault := code, first := 0 }

section Newest
variable {l : List Cmd} {q : BitVec 16} {c : Cmd} {s : State}

theorem liveCmd_newest (h : newest l q c s) : liveCmd s q = some c := by
  obtain ⟨hq, hc, hl⟩ := h
  have hn : l.find? (fun d => decide (d.seq = q)) = none := by simpa using hl
  simp [liveCmd, hq, hn, hc]

/-- The newest command changed stays the newest. -/
theorem setCmd_newest {d : Cmd} (h : newest l q c s) (hd : d.seq = q) : newest l q d (setCmd d s) := by
  obtain ⟨hq, hc, hl⟩ := h
  have hm : l.map (fun e => if e.seq = q then d else e) = l :=
    (List.map_congr_left fun e he => if_neg (hl e he)).trans (List.map_id' l)
  refine ⟨?_, hd, hl⟩
  simp only [setCmd, setEngine_copy, hq, hd, List.map_append, hm, List.map_singleton, hc, if_true]

theorem onCmd_newest {f : Cmd → Cmd} (h : newest l q c s) (hf : (f c).seq = c.seq) : newest l q (f c) (onCmd q f s) := by
  unfold onCmd
  rw [liveCmd_newest h]
  exact setCmd_newest h (hf.trans h.2.1)

theorem recordFault_newest (h : newest l q c s) (code : Nat) : newest l q (c.faulted code) (recordFault q code 0 s) := by
  unfold recordFault Cmd.faulted
  rw [liveCmd_newest h]
  dsimp only
  split
  · exact h
  · exact setCmd_newest h h.2.1

end Newest

/-! ### Entering the queue (R144, R152, R163, R168, R181) -/

/-- The command that enters for `d`: its semaphores translated, and its promise. -/
def enteredCmd (d : Cmd) (s : State) : Cmd :=
  { d with sem := if d.semen then semEntry s (d.get 0 32 8) else none
           lsem := if d.kind = .kvlist ∧ bitOf d.cw[7] 55 then semEntry s (d.get 7 56 8) else none
           timed := isTimed d
           promise := ((cmdPromise s d).map (·.2)).getD 0 }

/-- A command whose semaphore is not valid records 0x09 at its issue (R163). -/
def semFaulted (c : Cmd) : Cmd := if c.semen && c.sem.isNone then c.faulted 0x09 else c

/-- The queue of a command that has just entered, its counter counted. -/
def queued (d : Cmd) (s : State) : State :=
  let c := enteredCmd d s
  let e := s.core.copy
  let t := s.setEngine { e with queue := e.queue ++ [c], seq := c.seq, records := keepRecords c.seq e.records
                                eprev := ((cmdPromise s d).map (·.1)).getD e.eprev }
  if c.ctren then counterUp c.ctr t else t

/-- The command that an entry leaves in the queue: one that gets no bitmap completes at once, with 0x0D where it has no fault yet (R181, log entry
60). -/
def leftCmd (d : Cmd) (noBitmap : Bool) (s : State) : Cmd :=
  let c := semFaulted (enteredCmd d s)
  if noBitmap then { c.faulted 0x0D with phase := .landed } else c

/-- An entry as its two possible faults after the queue has taken the command. -/
theorem enterCmd_eq (d : Cmd) (noBitmap : Bool) (s : State) :
    enterCmd d noBitmap s =
      let c := enteredCmd d s
      let t := if c.semen && c.sem.isNone then recordFault c.seq 0x09 0 (queued d s) else queued d s
      if noBitmap then onCmd c.seq (fun x => { x with phase := .landed }) (recordFault c.seq 0x0D 0 t) else t := rfl

/-- What an entry leaves as it was, but for the numbers of the queue. -/
theorem queued_frame (d : Cmd) (s : State) :
    (queued d s).core.copy.seq = d.seq ∧ (queued d s).core.copy.queue = s.core.copy.queue ++ [enteredCmd d s]
      ∧ (queued d s).core.copy.cw = s.core.copy.cw ∧ sameScratch (queued d s).core s.core ∧ (queued d s).mem = s.mem := by
  unfold queued
  dsimp only
  split <;> exact ⟨rfl, rfl, rfl, sameScratch_refl _, rfl⟩

theorem enterCmd_cmdsChange (d : Cmd) (noBitmap : Bool) (s : State) : cmdsChange (queued d s) (enterCmd d noBitmap s) := by
  rw [enterCmd_eq]
  extract_lets c t
  have ht : cmdsChange (queued d s) t := by
    unfold t
    split
    · exact recordFault_cmdsChange _ _ _ _
    · exact cmdsChange_refl _
  split
  · exact cmdsChange_trans ht (cmdsChange_trans (recordFault_cmdsChange _ _ _ _) (onCmd_cmdsChange _ _ _))
  · exact ht

/-- What every entry leaves: the next number at the end of the queue, and registers, scratchpad and memory as they were. -/
theorem enterCmd_frame (d : Cmd) (noBitmap : Bool) (s : State) :
    (enterCmd d noBitmap s).core.copy.seq = d.seq
      ∧ (enterCmd d noBitmap s).core.copy.queue.map (·.seq) = s.core.copy.queue.map (·.seq) ++ [d.seq]
      ∧ (enterCmd d noBitmap s).core.copy.cw = s.core.copy.cw
      ∧ sameScratch (enterCmd d noBitmap s).core s.core ∧ (enterCmd d noBitmap s).mem = s.mem := by
  obtain ⟨h1, h2, h3, h4, h5⟩ := enterCmd_cmdsChange d noBitmap s
  obtain ⟨k1, k2, k3, k4, k5⟩ := queued_frame d s
  refine ⟨h1.trans k1, h2.trans ?_, h3.trans k3, sameScratch_trans k4 h4, h5.trans k5⟩
  rw [k2, List.map_append]
  rfl

/-- A command whose number is fresh is the newest afterwards, with its faults of issue. -/
theorem enterCmd_newest {d : Cmd} {s : State} (hl : ∀ e ∈ s.core.copy.queue, e.seq ≠ d.seq) (noBitmap : Bool) :
    newest s.core.copy.queue d.seq (leftCmd d noBitmap s) (enterCmd d noBitmap s) := by
  rw [enterCmd_eq]
  extract_lets c t
  have hq : newest s.core.copy.queue d.seq c (queued d s) := ⟨(queued_frame d s).2.1, rfl, hl⟩
  have ht : newest s.core.copy.queue d.seq (semFaulted c) t := by
    unfold t semFaulted
    split
    · exact recordFault_newest hq 0x09
    · exact hq
  unfold leftCmd
  split
  · exact onCmd_newest (recordFault_newest ht 0x0D) rfl
  · exact ht

/-- The phase and the fault of a command may have changed, and nothing else of it. -/
def onlyFaults (c d : Cmd) : Prop := ∃ p f g, d = { c with phase := p, fault := f, first := g }

theorem onlyFaults_trans {c d e : Cmd} (h : onlyFaults c d) (k : onlyFaults d e) : onlyFaults c e := by
  obtain ⟨_, _, _, rfl⟩ := h
  obtain ⟨_, _, _, rfl⟩ := k
  exact ⟨_, _, _, rfl⟩

theorem faulted_onlyFaults (code : Nat) (c : Cmd) : onlyFaults c (c.faulted code) := by
  unfold Cmd.faulted
  split <;> exact ⟨_, _, _, rfl⟩

theorem semFaulted_onlyFaults (c : Cmd) : onlyFaults c (semFaulted c) := by
  unfold semFaulted
  split
  · exact faulted_onlyFaults 0x09 c
  · exact ⟨_, _, _, rfl⟩

theorem leftCmd_onlyFaults (d : Cmd) (noBitmap : Bool) (s : State) : onlyFaults (enteredCmd d s) (leftCmd d noBitmap s) := by
  refine onlyFaults_trans (semFaulted_onlyFaults _) ?_
  unfold leftCmd
  split
  · exact onlyFaults_trans (faulted_onlyFaults 0x0D _) ⟨_, _, _, rfl⟩
  · exact ⟨_, _, _, rfl⟩

theorem semFaulted_phase (c : Cmd) : (semFaulted c).phase = c.phase := by
  unfold semFaulted Cmd.faulted
  split
  · split <;> rfl
  · rfl

theorem leftCmd_phase (d : Cmd) (noBitmap : Bool) (s : State) : (leftCmd d noBitmap s).phase = if noBitmap then .landed else d.phase := by
  unfold leftCmd
  cases noBitmap
  · exact semFaulted_phase _
  · rfl

theorem leftCmd_fault {d : Cmd} (hf : d.fault = 0) (s : State) :
    (leftCmd d true s).fault = if (enteredCmd d s).semen && (enteredCmd d s).sem.isNone then 0x09 else 0x0D := by
  have hc : (enteredCmd d s).fault = 0 := hf
  show ((semFaulted (enteredCmd d s)).faulted 0x0D).fault = _
  unfold semFaulted
  split <;> simp [Cmd.faulted, hc]

/-! ### Issue (R152, R156, R163, R181) -/

/-- The command that an issue makes of the command registers. -/
def issuedCmd (kind : CmdKind) (s : State) : Cmd :=
  { newCmd kind (captureCw s) s with bitmap := if kind.listed then freeBitmap s.core.copy else none }

/-- An issue finds no bitmap for a command that needs one. -/
def wantsBitmap (kind : CmdKind) (s : State) : Bool := kind.listed && (freeBitmap s.core.copy).isNone

/-- The promise of command `q` as its issue gives it. -/
def promiseGiven (q : BitVec 16) (s : State) : Word := match liveCmd s q with
  | some x => BitVec.ofNat 64 x.promise
  | none => 0

/-- The end of an issue: the promise of its command in the destination. -/
def issueDone (d : SDst) (q : BitVec 16) (s : State) : Eff := .done (wrD d (promiseGiven q s) 16 s)

/-- The FOLLOW bit of cw0 and the bitmaps and their owners may have changed. -/
def preparesIssue (s w : State) : Prop :=
  w.core.copy.queue = s.core.copy.queue ∧ (∀ j : Fin 16, j ≠ 0 → w.core.copy.cw[j] = s.core.copy.cw[j]) ∧ sameScratch w.core s.core ∧ w.mem = s.mem

/-- An issue of a command with FOLLOW clears the bit in cw0 (R166). -/
def followCleared (c : Cmd) (s : State) : State :=
  let e := s.core.copy
  if c.follow then s.setEngine { e with cw := e.cw.set 0 { e.cw[0] with val := (e.cw[0]).val &&& ~~~(BitVec.ofNat 64 (2 ^ 24)) } } else s

theorem followCleared_prepares (c : Cmd) (s : State) : preparesIssue s (followCleared c s) := by
  unfold followCleared
  dsimp only
  split
  · refine ⟨rfl, fun j hj => ?_, sameScratch_refl _, rfl⟩
    exact Vector.getElem_set_ne (by decide) j.isLt fun h => hj (Fin.ext h.symm)
  · exact ⟨rfl, fun _ _ => rfl, sameScratch_refl _, rfl⟩

/-- The lowest free bitmap is cleared and taken by a listed command (R181). -/
def bitmapTaken (i : Fin 16) (q : BitVec 16) (s : State) : State :=
  setOwner i (.running q) (s.setEngine { s.core.copy with bitmaps := s.core.copy.bitmaps.set i 0 })

theorem bitmapTaken_prepares {s w : State} (i : Fin 16) (q : BitVec 16) (h : preparesIssue s w) : preparesIssue s (bitmapTaken i q w) := h

section Issue
variable {kind : CmdKind} {d : SDst} {s : State} (hq : s.core.copy.queue.length < 64) (hr : s.cur.mode = true → cwReady s = true)
include hq hr

/-- An issue that finds room and registers goes by its kind and the bitmaps. -/
theorem issueCmd_ready : issueCmd kind d s =
    let c := newCmd kind (captureCw s) s
    if kind.listed then ((freeBitmap s.core.copy).map fun i =>
        issueDone d c.seq (enterCmd { c with bitmap := some i } false (bitmapTaken i c.seq (followCleared c s)))).getD
      (if bitmapRunning s.core.copy then .hold else issueDone d c.seq (enterCmd c true (followCleared c s)))
    else issueDone d c.seq (enterCmd c false (followCleared c s)) := by
  have hw : ¬(s.cur.mode && !cwReady s) = true := by cases hm : s.cur.mode <;> simp_all
  unfold issueCmd
  dsimp only
  rw [if_neg (Nat.not_le.mpr hq : ¬ maxCmds ≤ _), if_neg hw]
  cases kind.listed with
  | false => rfl
  | true => cases freeBitmap s.core.copy <;> rfl

/-- Where it need not wait, an issue enters its command after it has prepared registers and bitmap. -/
theorem issueCmd_enters (hb : kind.listed = true → freeBitmap s.core.copy ≠ none ∨ bitmapRunning s.core.copy = false) :
    ∃ w, preparesIssue s w ∧ issueCmd kind d s = issueDone d (issuedCmd kind s).seq (enterCmd (issuedCmd kind s) (wantsBitmap kind s) w) := by
  have hp := followCleared_prepares (newCmd kind (captureCw s) s) s
  rw [issueCmd_ready hq hr]
  cases hl : kind.listed with
  | false =>
    have hc : issuedCmd kind s = newCmd kind (captureCw s) s := by simp [issuedCmd, hl, newCmd]
    have hn : wantsBitmap kind s = false := by simp [wantsBitmap, hl]
    exact ⟨_, hp, by rw [hc, hn]; rfl⟩
  | true =>
    cases hf : freeBitmap s.core.copy with
    | some i =>
      have hc : issuedCmd kind s = { newCmd kind (captureCw s) s with bitmap := some i } := by simp [issuedCmd, hl, hf]
      have hn : wantsBitmap kind s = false := by simp [wantsBitmap, hf]
      exact ⟨_, bitmapTaken_prepares i _ hp, by rw [hc, hn]; rfl⟩
    | none =>
      have hc : issuedCmd kind s = newCmd kind (captureCw s) s := by simp [issuedCmd, hf, newCmd]
      have hn : wantsBitmap kind s = true := by simp [wantsBitmap, hl, hf]
      exact ⟨_, hp, by rw [hc, hn, (hb hl).resolve_left (not_not_intro hf)]; rfl⟩

end Issue

theorem wantsBitmap_iff (kind : CmdKind) (s : State) : wantsBitmap kind s = true ↔ kind.listed = true ∧ freeBitmap s.core.copy = none := by
  simp [wantsBitmap]

/-- The phase and the fault of a command at its issue (R155, R181, log entry 60). -/
theorem leftCmd_issued (kind : CmdKind) (s w : State) :
    let c := leftCmd (issuedCmd kind s) (wantsBitmap kind s) w
    if kind.listed = true ∧ freeBitmap s.core.copy = none then c.phase = .landed ∧ c.fault = (if c.semen && c.sem.isNone then 0x09 else 0x0D)
    else c.phase = .queued := by
  intro c
  have hp : c.phase = _ := leftCmd_phase (issuedCmd kind s) (wantsBitmap kind s) w
  by_cases h : wantsBitmap kind s = true
  · have hf := leftCmd_fault (d := issuedCmd kind s) rfl w
    obtain ⟨_, _, _, he⟩ := leftCmd_onlyFaults (issuedCmd kind s) true w
    rw [if_pos ((wantsBitmap_iff kind s).1 h)]
    rw [h] at hp
    refine ⟨hp, ?_⟩
    unfold c
    rw [h, hf, he]
    rfl
  · rw [if_neg (mt (wantsBitmap_iff kind s).2 h)]
    rwa [if_neg h] at hp

/-- The issue of a command of each kind. -/
theorem issuesCommand_of_issue {kind : CmdKind} {o : DP} {i : Instr} (hi : ∀ s, exec i s = issue i (useDP o) (issueCmd kind o.d) s)
    (he : ∀ s, entered i s = startIssue s) : issuesCommand i kind o := by
  intro s hs hq hr hb
  have hm : (startIssue s).cur.mode = s.cur.mode := by rw [startIssue_cur]
  obtain ⟨w, ⟨hwq, hwc, hws, hwm⟩, hd⟩ := issueCmd_enters (d := o.d) (s := startIssue s) (kind := kind) hq (hm ▸ hr) hb
  have hframe := enterCmd_frame (issuedCmd kind (startIssue s)) (wantsBitmap kind (startIssue s)) w
  obtain ⟨hseq, hseqs, hcw, hscr, hmem⟩ := hframe
  refine ⟨_, _, (hi s).trans (issue_done hs ((congrArg _ (he s)).trans hd)), hseq, ?_, fun j hj => ?_, sameScratch_trans hws hscr, hmem.trans hwm,
    fun hfresh => ?_⟩
  · rw [hseqs, hwq]
    rfl
  · rw [hcw]
    exact hwc j hj
  · have hnew := enterCmd_newest (d := issuedCmd kind (startIssue s)) (s := w) (hwq ▸ hfresh) (wantsBitmap kind (startIssue s))
    obtain ⟨_, _, _, hc⟩ := leftCmd_onlyFaults (issuedCmd kind (startIssue s)) (wantsBitmap kind (startIssue s)) w
    refine ⟨_, hnew.1.trans (by rw [hwq]; rfl), ?_, ?_, leftCmd_issued kind (startIssue s) w, ?_, fun hl => ?_⟩
    · rw [hc]; rfl
    · rw [hc]; rfl
    · rw [promiseGiven, liveCmd_newest hnew]
    · rw [hc]
      exact if_pos hl

/-- Settles O26: each of the six words is the issue of its kind. -/
theorem commandIssue : Obligations.CommandIssue := by
  unfold Obligations.CommandIssue
  intro o
  refine ⟨?_, ?_, ?_, ?_, ?_, ?_⟩
  all_goals exact issuesCommand_of_issue (fun _ => rfl) fun _ => rfl

end Sys2Proof.Machine
end

