-- ==== Sys2Proof/Proofs/CommandStatus.lean ====
section
/-! O28 fails: CRESUME stalls while the copy queue is full (R193), also where its number names no suspended command. -/

namespace Sys2Proof.Machine

/-- A full queue stalls CRESUME, whatever command it names (R193). -/
theorem cresume_stalls {o : DAP} {s : State} (h : issues (.cresume o) (useDAP o) s) (hq : 64 ≤ s.core.copy.queue.length) :
    exec (.cresume o) s = .next s :=
  exec_of_hold (fun _ => rfl) h (if_pos hq)

/-- The state after reset with 64 commands queued, numbered from 1, and the turn of the copy stream. -/
def fullCopyQueue : State :=
  { State.reset with turn := .copy }.setEngine { State.reset.core.copy with
    queue := (List.range 64).map fun k => { newCmd .copy (Vector.replicate 16 0) State.reset with seq := BitVec.ofNat 16 (k + 1) }
    seq := 64 }

/-- CRESUME n0, n1 under p0. -/
def resumeN1 : DAP := { s := false, d := .n 0, a := .n 1, p := 0 }

theorem resumeN1_issues : issues (.cresume resumeN1) (useDAP resumeN1) fullCopyQueue :=
  ⟨⟨by decide +kernel, by decide +kernel⟩, by unfold guardTrue; decide +kernel⟩

/-- Refutes O28: CRESUME of a number that no suspended command has does not give all ones where the queue is full; it stalls (R193). In
`fullCopyQueue` the word leaves its stream where it was, and the completed word of the statement would leave it four bytes on. -/
theorem not_commandStatus : ¬ Obligations.CommandStatus := by
  unfold Obligations.CommandStatus
  intro h
  obtain ⟨-, -, hnone, -⟩ := h.1 resumeN1
  have hdone := hnone fullCopyQueue resumeN1_issues rfl
  have hstall := cresume_stalls resumeN1_issues (by decide)
  have hpc := congrArg (fun s : State => s.cur.pc) (Host.Outcome.next.inj (hstall.symm.trans hdone))
  exact absurd hpc (by decide +kernel)

end Sys2Proof.Machine
end

