-- ==== Sys2Proof/Proofs/HandlesAndFrames.lean ====
section
/-! O27: TDEF by its checks in order, FRMAP by its value, PUBLISH, and that none of them moves a byte. -/

namespace Sys2Proof.Machine

/-! ### What moves no byte -/

/-- Global memory with its tags, and the scratchpad, are as they were. -/
def movesNothing (s t : State) : Prop := t.mem = s.mem ∧ t.memTags = s.memTags ∧ sameScratch t.core s.core

theorem movesNothing_refl (s : State) : movesNothing s s := ⟨rfl, rfl, sameScratch_refl _⟩

theorem movesNothing_trans {s t u : State} (h : movesNothing s t) (k : movesNothing t u) : movesNothing s u :=
  ⟨k.1.trans h.1, k.2.1.trans h.2.1, sameScratch_trans h.2.2 k.2.2⟩

theorem sawScratch_movesNothing (k : Fin 16) (a n : Nat) (s : State) : movesNothing s (sawScratch k a n s) := ⟨rfl, rfl, sameScratch_refl _⟩

theorem walked_movesNothing (die : Nat) (w : WalkTrace) (s : State) : movesNothing s (walked die w s) := by
  obtain ⟨_, _, _, _, _, he⟩ := foldl_onlyCounts (fun s a => countPhysical_onlyCounts a 8 s) w.reads s
  unfold walked fillWalk
  rw [he]
  split <;> exact ⟨rfl, rfl, sameScratch_refl _⟩

theorem tlbFill_movesNothing (s : State) (e : TlbEntry) : movesNothing s (tlbFill s e) := by
  unfold tlbFill fillDie
  dsimp only
  split <;> exact ⟨rfl, rfl, sameScratch_refl _⟩

/-- A translation fills caches and counts the reads of its walk (R388, R395). -/
theorem translate_movesNothing (s : State) (x : Access) (va : Nat) : movesNothing s (translate s x va).state := by
  unfold translate translateBy
  dsimp only
  split
  · exact movesNothing_refl s
  · split
    · exact movesNothing_refl s
    · split
      · exact walked_movesNothing _ _ s
      · split
        · exact movesNothing_trans (walked_movesNothing _ _ s) (tlbFill_movesNothing _ _)
        · exact walked_movesNothing _ _ s

theorem translateAll_movesNothing (x : Access) (top : Nat) (l : List Nat) (s : State) : movesNothing s (translateAll x top l s).1 := by
  induction l generalizing s with
  | nil => exact movesNothing_refl s
  | cons va l ih =>
    have ht := translate_movesNothing s x va
    unfold translateAll
    dsimp only
    split
    · exact ht
    · split
      · exact ht
      · have hr := movesNothing_trans ht (ih (translate s x va).state)
        split
        · next e => rwa [e] at hr
        · next e => rwa [e] at hr

theorem extentPages_movesNothing (s : State) (base size : Nat) : movesNothing s (extentPages s base size).1 := by
  have ht := translateAll_movesNothing (jobAccess s true) (base + size) (granules base size) s
  unfold extentPages
  split
  · next e => rwa [e] at ht
  · next e => rwa [e] at ht

theorem ite_movesNothing {s : State} {p : Prop} [Decidable p] {x y : State × Nat} (hx : movesNothing s x.1) (hy : movesNothing s y.1) :
    movesNothing s (if p then x else y).1 := by
  split
  · exact hx
  · exact hy

/-- The definition of a handle reads its descriptor and translates its extent (R187). -/
theorem defineHandle_movesNothing (s : State) (h b : Nat) : movesNothing s (defineHandle s h b).1 := by
  have hs := sawScratch_movesNothing 0 b 64 s
  unfold defineHandle
  extract_lets v u num base size rows cols f flags
  refine ite_movesNothing hs (ite_movesNothing hs (ite_movesNothing hs (ite_movesNothing hs ?_)))
  have ht := movesNothing_trans hs (extentPages_movesNothing u base size)
  split
  · next e => rwa [e] at ht
  · next e =>
    rw [e] at ht
    exact ite_movesNothing ht ht

theorem extentHeld_of_unblocked {s : State} (h : s.tiers.blocked = []) (b : Nat) : extentHeld s b = false := by
  simp [extentHeld, h]

/-! ### The traps of a load (Table 5-4) -/

theorem spadPoisoned_iff (c : CoreState) (a : Nat) : spadPoisoned c a = true ↔ tagF (spadTag c a) = 0xFF ∨ spadIsBad c a = true := by
  simp [spadPoisoned]

section Load
variable {s : State} {a n : Nat}

theorem loadTrap_none (h : mayAccess s a n) (hp : spadPoisoned s.core a = false) : loadTrap s a n = none := by
  obtain ⟨ha, hr⟩ := h
  simp [loadTrap, ha, mayTouch hr, hp]

theorem loadTrap_forbidden (ha : a % n = 0) (hp : s.cur.priv = false) (ht : touchesSr s.core a n = true) :
    loadTrap s a n = some (mkTrap cPrivilege 0 a) := by
  simp [loadTrap, ha, hp, ht]

theorem loadTrap_poisoned (h : mayAccess s a n) (hp : spadPoisoned s.core a = true) :
    loadTrap s a n = some (mkTrap cPoison (bit (spadIsBad s.core a)) (a / 64 * 64)) := by
  obtain ⟨ha, hr⟩ := h
  simp [loadTrap, ha, mayTouch hr, hp]

end Load

/-! ### TDEF (R187) -/

/-- What TDEF of handle `h` by the descriptor at `b` comes to. -/
def defineBody (h b : Nat) (d : SDst) (s : State) : Eff :=
  if maxCmds ≤ s.core.copy.queue.length then .hold
  else if b % 64 ≠ 0 then misaligned b
  else match loadTrap s b 64 with
    | some r => loadFails b r s
    | none => if extentHeld s b then .hold else .done (wrD d (BitVec.ofNat 64 (defineHandle s h b).2) 1024 (defineHandle s h b).1)

theorem exec_tdef (o : DABP) (s : State) : exec (.tdef o) s = issue (.tdef o) (useDABP o)
    (fun s => defineBody (rdS s o.a).toNat ((rdS s o.b).toNat % 2 ^ 22) o.d s) s := by
  show issue _ _ _ s = _
  simp only [bitsOf_low]
  rfl

section Define
variable {h b : Nat} {d : SDst} {s : State}

theorem defineBody_full (hq : 64 ≤ s.core.copy.queue.length) : defineBody h b d s = .hold := if_pos hq

theorem defineBody_misaligned (hq : s.core.copy.queue.length < 64) (hb : b % 64 ≠ 0) : defineBody h b d s = .trap (mkTrap cAlignment 0 b) := by
  rw [defineBody, if_neg (Nat.not_le.mpr hq : ¬ maxCmds ≤ _), if_pos hb]
  rfl

/-- With room in the queue an aligned descriptor is loaded, or its load fails. -/
theorem defineBody_loads (hq : s.core.copy.queue.length < 64) (hb : b % 64 = 0) : defineBody h b d s = match loadTrap s b 64 with
    | some r => loadFails b r s
    | none => if extentHeld s b then .hold else .done (wrD d (BitVec.ofNat 64 (defineHandle s h b).2) 1024 (defineHandle s h b).1) := by
  rw [defineBody, if_neg (Nat.not_le.mpr hq : ¬ maxCmds ≤ _), if_neg (not_not_intro hb)]

theorem defineBody_forbidden (hq : s.core.copy.queue.length < 64) (hb : b % 64 = 0) (hp : s.cur.priv = false)
    (ht : touchesSr s.core b 64 = true) : defineBody h b d s = .trap (mkTrap cPrivilege 0 b) := by
  rw [defineBody_loads hq hb, loadTrap_forbidden hb hp ht]
  rfl

theorem defineBody_poisoned (hq : s.core.copy.queue.length < 64) (hm : mayAccess s b 64) (hp : spadPoisoned s.core b = true) :
    defineBody h b d s = loadFails b (mkTrap cPoison (bit (spadIsBad s.core b)) b) s := by
  rw [defineBody_loads hq hm.1, loadTrap_poisoned hm hp, Nat.div_mul_cancel (Nat.dvd_of_mod_eq_zero hm.1)]

theorem defineBody_walkHeld (hm : mayAccess s b 64) (hp : spadPoisoned s.core b = false) (hh : extentHeld s b = true) :
    defineBody h b d s = .hold := by
  by_cases hq : s.core.copy.queue.length < 64
  · rw [defineBody_loads hq hm.1, loadTrap_none hm hp]
    exact if_pos hh
  · exact defineBody_full (Nat.not_lt.mp hq)

theorem defineBody_done (hq : s.core.copy.queue.length < 64) (hm : mayAccess s b 64) (hp : spadPoisoned s.core b = false)
    (hh : extentHeld s b = false) :
    defineBody h b d s = .done (wrD d (BitVec.ofNat 64 (defineHandle s h b).2) 1024 (defineHandle s h b).1) := by
  rw [defineBody_loads hq hm.1, loadTrap_none hm hp]
  exact if_neg (ne_true_of_eq_false hh)

end Define

/-! ### FRMAP and PUBLISH (R174, R175) -/

/-- Spoiling the sample of a frame touches the audit unit and the combs alone (R304). -/
theorem spoilFrame_frame (c : CoreState) (f : Fin 16) : { spoilFrame c f with audit := c.audit, mat := c.mat } = c := by
  unfold spoilFrame
  split
  · split <;> rfl
  · rfl

theorem spoilFrame_frames (c : CoreState) (f : Fin 16) : (spoilFrame c f).frames = c.frames := (congrArg CoreState.frames (spoilFrame_frame c f) :)

theorem spoilFrame_scratch (c : CoreState) (f : Fin 16) : sameScratch (spoilFrame c f) c :=
  have h := spoilFrame_frame c f
  ⟨(congrArg CoreState.spad h :), (congrArg CoreState.spadTags h :), (congrArg CoreState.spadBad h :)⟩

/-- The frame register exchanged for `v`, or cleared where `v` is not valid. -/
def frameMapped (f : Fin 16) (v : Word) (s : State) : State :=
  s.setCore { spoilFrame s.core f with frames := (spoilFrame s.core f).frames.set f (if frmValid v then v else 0) }

/-- What FRMAP of frame `f` to `v` comes to. -/
def mapBody (f : Fin 16) (v : Word) (d : SDst) (s : State) : Eff :=
  if frameRefused v then .done (wrD d (BitVec.allOnes 64) 8 s)
  else if !s.cur.priv && frmValid v && touchesSr s.core (frmVb v) (frmSize v) then forbidden (firstInSr s.core (frmVb v))
  else if !s.cur.priv && frmValid v && frmShen v && touchesSr s.core (frmSb v) (frmSize v) then forbidden (firstInSr s.core (frmSb v))
  else .done (wrD d (spoilFrame s.core f).frames[f] 8 (frameMapped f v s))

/-- The frame register that a word names. -/
def frameNamed (a : Word) : Fin 16 := Fin.ofNat 16 (a.toNat % 16)

theorem exec_frmap (o : DABP) (s : State) : exec (.frmap o) s = issue (.frmap o) (useDABP o)
    (fun s => mapBody (frameNamed (rdS s o.a)) (rdS s o.b) o.d s) s := by
  show issue _ _ _ s = _
  simp only [bitsOf_low]
  rfl

theorem exec_publish (o : AP) (s : State) : exec (.publish o) s = issue (.publish o) (useAP o)
    (fun s => .done (publishFrame (frameNamed (rdS s o.a)) s)) s := by
  show issue _ _ _ s = _
  simp only [bitsOf_low]
  rfl

section Map
variable {f : Fin 16} {v : Word} {d : SDst} {s : State}

theorem mapBody_visible (hr : frameRefused v = false) (hp : s.cur.priv = false) (hv : frmValid v = true)
    (ht : touchesSr s.core (frmVb v) (frmSize v) = true) : mapBody f v d s = .trap (mkTrap cPrivilege 0 (max (frmVb v) (srLow s.core))) := by
  simp only [mapBody, hr, hp, hv, ht]
  rfl

theorem mapBody_shadow (hr : frameRefused v = false) (hp : s.cur.priv = false) (hv : frmValid v = true)
    (ht : touchesSr s.core (frmVb v) (frmSize v) = false) (hs : frmShen v = true) (hu : touchesSr s.core (frmSb v) (frmSize v) = true) :
    mapBody f v d s = .trap (mkTrap cPrivilege 0 (max (frmSb v) (srLow s.core))) := by
  simp only [mapBody, hr, hp, hv, ht, hs, hu]
  rfl

theorem mapBody_maps (hr : frameRefused v = false) (ha : frameAllowed s v) :
    mapBody f v d s = .done (wrD d s.core.frames[f] 8 (frameMapped f v s)) := by
  unfold mapBody
  rw [spoilFrame_frames]
  rcases ha with hp | hv | ⟨ht, hs | hu⟩
  · simp [hr, hp]
  · simp [hr, hv]
  · simp [hr, ht, hs]
  · simp [hr, ht, hu]

theorem frameMapped_frames (f : Fin 16) (v : Word) (s : State) :
    (frameMapped f v s).core.frames = s.core.frames.set f (if v.getLsbD 0 then v else 0) := by
  rw [frameMapped, spoilFrame_frames]
  rfl

theorem frameMapped_scratch (f : Fin 16) (v : Word) (s : State) : sameScratch (frameMapped f v s).core s.core := spoilFrame_scratch s.core f

theorem publishFrame_frames (f : Fin 16) (s : State) : (publishFrame f s).core.frames =
    if (s.core.frames[f]).getLsbD 0 && (s.core.frames[f]).getLsbD 2 then s.core.frames.set f (s.core.frames[f] ^^^ 2) else s.core.frames := by
  have hf := spoilFrame_frames s.core f
  unfold publishFrame
  dsimp only
  rw [apply_ite (fun t : State => t.core.frames)]
  simp only [settleFrame, setCore_core, hf]
  rfl

theorem publishFrame_movesNothing (f : Fin 16) (s : State) : movesNothing s (publishFrame f s) := by
  unfold publishFrame
  dsimp only
  split <;> exact ⟨rfl, rfl, spoilFrame_scratch s.core f⟩

end Map

/-- Settles O27: TDEF and FRMAP by the branches of their bodies, PUBLISH by its one effect, and every effect moves nothing. -/
theorem handlesAndFrames : Obligations.HandlesAndFrames := by
  unfold Obligations.HandlesAndFrames
  have hlow : ∀ x : Word, x.toNat % 2 ^ 22 % 64 = x.toNat % 64 := fun x => Nat.mod_mod_of_dvd _ (by decide)
  refine ⟨fun o => ⟨?_, ?_, ?_, ?_, ?_, ?_, ?_, ?_, ?_, ?_, ?_⟩, ?_, ?_, ?_, defineHandle_movesNothing, fun s b hb => extentHeld_of_unblocked hb b⟩
  · exact performs_of_body (exec_tdef o) fun s ⟨hq, hm, hp, hh⟩ => defineBody_done hq hm hp hh
  · exact fun s hs hq => exec_of_hold (exec_tdef o) hs (defineBody_full hq)
  · exact fun s hs hm hp hh => exec_of_hold (exec_tdef o) hs (defineBody_walkHeld hm hp hh)
  · exact traps_of_body (exec_tdef o) fun s ⟨hq, hb⟩ => defineBody_misaligned hq ((hlow _).trans_ne hb)
  · exact traps_of_body (exec_tdef o) fun s ⟨hq, hb, hp, ht⟩ => defineBody_forbidden hq ((hlow _).trans hb) hp ht
  · refine traps_of_body (exec_tdef o) fun s ⟨hq, hm, hb, ht⟩ => ?_
    rw [defineBody_poisoned hq hm ((spadPoisoned_iff _ _).2 (.inl ht)), hb]
    exact loadFails_poison hb
  · refine trapsIn_of_body (exec_tdef o) fun s ⟨hq, hm, hb⟩ => ?_
    rw [defineBody_poisoned hq hm ((spadPoisoned_iff _ _).2 (.inr hb)), hb]
    exact loadFails_bad hb
  · exact traps_of_body (exec_frmap o) fun s ⟨hr, hp, hv, ht⟩ => mapBody_visible hr hp hv ht
  · exact traps_of_body (exec_frmap o) fun s ⟨hr, hp, hv, ht, hs, hu⟩ => mapBody_shadow hr hp hv ht hs hu
  · exact performs_of_body (exec_frmap o) fun s hr => if_pos hr
  · intro s hs u f hr ha
    exact ⟨frameMapped f (rdS u o.b) u, (exec_frmap o s).trans (issue_done hs (mapBody_maps hr ha)), frameMapped_frames f _ u,
      frameMapped_scratch f _ u, rfl⟩
  · intro o s hs f
    obtain ⟨hm, -, hc⟩ := publishFrame_movesNothing f (startIssue s)
    exact ⟨publishFrame f (startIssue s), (exec_publish o s).trans (issue_done hs rfl), publishFrame_frames f (startIssue s), hc, hm⟩
  · exact fun s h b hh => if_pos hh
  · intro s h b hh hb
    unfold defineHandle
    dsimp only
    rw [if_neg (Nat.not_le.mpr hh : ¬ maxHandles ≤ h), if_pos hb]

end Sys2Proof.Machine
end

