-- ==== Sys2Proof/Proofs/CopyEngineEvents.lean ====
section
/-! O48: the events of the copy engine, each as its function in Machine/CopyRun.lean or Machine/Matrix.lean performs it. -/

namespace Sys2Proof.Machine

/-! ### Start (R152, R153, R155) -/

section Start
variable {c : Cmd} {s : State}

theorem startCmd_cancelled (h : canStart s = some c) (hc : c.cancelled = true) : startCmd s = setCmd { c with phase := .landed } s := by
  simp [startCmd, h, hc]

theorem startCmd_faults {k : Nat} (h : canStart s = some c) (hc : c.cancelled = false) (hf : c.fault = 0) (hk : startFault s c = some k) :
    startCmd s = recordFault c.seq k 0 (setCmd { c with phase := .landed } s) := by
  simp [startCmd, h, hc, hf, hk]

theorem handle_named (c : Cmd) : c.get 7 50 14 = c.cw[7].toNat / 2 ^ 50 := Nat.mod_eq_of_lt (by have := c.cw[7].isLt; omega)

theorem startCmd_starts (h : canStart s = some c) (hc : c.cancelled = false) (hf : c.fault = 0) (hk : startFault s c = none) :
    startCmd s = { setCmd { c with
        phase := .fetching, arrive := s.now + Config.fetchLatency s.tick, todo := if c.kind.listed then openItems s c else []
        fmt := ((handleAt s (c.cw[7].toNat / 2 ^ 50)).map fun h => h.fmt.toNat).getD 0 } s with tick := s.tick + 1 } := by
  rw [← handle_named]
  unfold startCmd
  simp only [h, hc, hf, hk]
  cases handleAt s (c.get 7 50 14) <;> rfl

/-- The next command starts only where it is queued, the core is not frozen and its wait flags are set (R153, R170). -/
theorem canStart_some (h : canStart s = some c) : c.phase = .queued ∧ s.core.copy.frozenSince = none
    ∧ ∀ i, i < 32 → c.cw[4].getLsbD i = true → s.core.sync.flags.getLsbD i = true := by
  unfold canStart at h
  split at h
  · next d hd =>
    obtain ⟨hc, he⟩ := Option.ite_none_right_eq_some.1 h
    cases he
    simp only [Bool.and_eq_true, Option.isNone_iff_eq_none, decide_eq_true_eq] at hc
    obtain ⟨hz, hm⟩ := hc
    refine ⟨by simpa using List.find?_some hd, hz, fun i hi hb => ?_⟩
    have hg : (BitVec.ofNat 32 (c.get 4 0 32)).getLsbD i = true := by
      rw [show c.get 4 0 32 = c.cw[4].toNat % 2 ^ 32 from bitsOf_low _ _, BitVec.getLsbD_ofNat, Nat.testBit_mod_two_pow, BitVec.testBit_toNat, hb]
      simp [hi]
    rw [← hm, BitVec.getLsbD_and] at hg
    exact (Bool.and_eq_true_iff.1 hg).1
  · cases h

end Start

/-! ### Arrival and the landing buffer (R169) -/

section Arrival
variable {c : Cmd} {q : BitVec 16} {s : State}

/-- The phase of a command after its last cell has arrived. -/
def phaseAfter (c : Cmd) (now : Nat) (d : Cmd) : Cmd :=
  { d with phase := if d.delayed.isEmpty then (if c.timed && decide (now < c.promise) then .held else .landed) else d.phase }

theorem arriveCmd_fetching (h : liveCmd s q = some c) (hp : c.phase = .fetching) (hk : c.kind.listed = false) :
    arriveCmd q s = thaw (onCmd q (phaseAfter c s.now) (if c.delayed.isEmpty then underPromise q (wholeXfer c) s else drainDelayed q s)) := by
  have hn : ¬(c.phase ≠ .fetching ∨ c.kind.listed = true) := by simp [hp, hk]
  unfold arriveCmd
  rw [h]
  exact if_neg hn

theorem firstCell_append_drop (l : List HeldWrite) : firstCell l ++ l.drop (firstCell l).length = l := by
  cases l with
  | nil => rfl
  | cons w l => exact List.prefix_iff_eq_append.1 (List.takeWhile_prefix _)

/-- The cells admitted and those delayed are the cells of the list, in its order. -/
theorem admitCells_append (fuel room : Nat) (l : List HeldWrite) : (admitCells fuel room l).1 ++ (admitCells fuel room l).2 = l := by
  induction fuel generalizing room l with
  | zero => rfl
  | succ fuel ih =>
    unfold admitCells
    extract_lets cell n r
    split
    · rfl
    · rw [List.append_assoc, ih, firstCell_append_drop]

/-- The bytes admitted fit the room. -/
theorem admitCells_bytes (fuel room : Nat) (l : List HeldWrite) : ((admitCells fuel room l).1.filter (·.isByte)).length ≤ room := by
  induction fuel generalizing room l with
  | zero => exact Nat.zero_le _
  | succ fuel ih =>
    unfold admitCells
    extract_lets cell n r
    split
    · exact Nat.zero_le _
    · next hc =>
      have hn : n ≤ room := by
        simp only [Bool.or_eq_true, decide_eq_true_eq, not_or, Nat.not_lt] at hc
        exact hc.2
      have hr := ih (room - n) (l.drop cell.length)
      rw [List.filter_append, List.length_append]
      exact (Nat.add_le_add_left hr n).trans (by omega)

theorem admitted_mem {l : List HeldWrite} {d : HeldWrite} (h : d ∈ (admitted s l).1) : d ∈ l := by
  rw [← admitCells_append l.length (landingSize - landingBytes s.core) l]
  exact List.mem_append_left _ h

theorem admitted_bytes (s : State) (l : List HeldWrite) :
    landingBytes s.core + ((admitted s l).1.filter (·.isByte)).length ≤ max (landingBytes s.core) 524288 := by
  have h : _ ≤ 524288 - landingBytes s.core := admitCells_bytes l.length (landingSize - landingBytes s.core) l
  unfold admitted
  omega

/-- Cells for which there is still no room wait on (R169). -/
theorem drainDelayed_waits (h : liveCmd s c.seq = some c) :
    let p := if c.timed && decide (s.now < c.promise) then admitted s c.delayed else ([], [])
    p.2 ≠ [] → drainDelayed c.seq s = setCmd { c with held := c.held ++ p.1, delayed := p.2 } s := by
  intro p hp
  have hw : c.waits s.now = true := by
    by_contra hw
    exact hp (by unfold p; rw [show (c.timed && decide (s.now < c.promise)) = false from eq_false_of_ne_true hw]; rfl)
  have he : p = admitted s c.delayed := if_pos hw
  unfold drainDelayed
  rw [h]
  rw [he] at hp ⊢
  simp [hw, hp]

end Arrival

/-! ### The items of a list (R179, R180, R184) -/

section Listed
variable {c : Cmd} {q : BitVec 16} {s : State}

theorem listedStep_item {i : ListItem} (h : liveCmd s q = some c) (hd : c.delayed = []) (hi : c.todo[itemTurn s.tick c]? = some i) :
    listedStep q s = endListed q (doItem q i false
      { setCmd { c with todo := c.todo.eraseIdx (itemTurn s.tick c), arrive := s.now + Config.fetchLatency s.tick } s with tick := s.tick + 1 }) := by
  unfold listedStep
  simp only [h, hd, hi]
  rfl

theorem listedStep_delayed (h : liveCmd s q = some c) (hd : c.delayed ≠ []) : listedStep q s = endListed q (drainDelayed q s) := by
  simp [listedStep, h, hd]

theorem mem_nextItems {c : Cmd} {l : List ListItem} {k : Nat} (h : k ∈ nextItems c l) :
    k < l.length ∧ ∃ i, l[k]? = some i ∧ mayPass c (l.take k) i = true := by
  obtain ⟨hk, hp⟩ := List.mem_filter.1 h
  refine ⟨List.mem_range.1 hk, ?_⟩
  split at hp
  · next i hi => exact ⟨i, hi, hp⟩
  · cases hp

/-- The turn is the first item's, or that of one that may come next. -/
theorem itemTurn_cases (tick : Nat) (c : Cmd) : itemTurn tick c = 0 ∨ itemTurn tick c ∈ nextItems c c.todo := by
  unfold itemTurn
  split
  · exact .inl rfl
  · next k hk => exact .inr (hk ▸ List.mem_singleton_self k)
  · next hne _ =>
    right
    have hlt : Config.itemOrder tick % (nextItems c c.todo).length < (nextItems c c.todo).length := Nat.mod_lt _ (List.length_pos_iff.2 hne)
    rw [List.getElem?_eq_getElem hlt]
    exact List.getElem_mem hlt

theorem itemTurn_spec (tick : Nat) (h : c.todo ≠ []) : itemTurn tick c < c.todo.length
    ∧ (itemTurn tick c ≠ 0 → ∃ i, c.todo[itemTurn tick c]? = some i ∧ mayPass c (c.todo.take (itemTurn tick c)) i = true) := by
  rcases itemTurn_cases tick c with h0 | hm
  · exact ⟨h0 ▸ List.length_pos_iff.2 h, fun hn => absurd h0 hn⟩
  · obtain ⟨hlt, hi⟩ := mem_nextItems hm
    exact ⟨hlt, fun _ => hi⟩

end Listed

/-! ### Completion (R154) -/

section Complete
variable {c : Cmd} {q : BitVec 16} {s : State}

theorem performedAll_iff (s : State) (c : Cmd) : performedAll s c = true ↔ c.phase = .landed ∧ unacked s c.seq = false := by
  simp [performedAll]

theorem completeStep_publishes (h : liveCmd s q = some c) (hp : performedAll s c = true) (he : c.puben = true) (hn : c.published = false) :
    completeStep q s = publishFrame c.pubfrm (setCmd { c with published := true } s) := by
  simp [completeStep, h, hp, he, hn]

theorem liveCmd_head {rest : List Cmd} (h : s.core.copy.queue = c :: rest) : liveCmd s c.seq = some c := by
  simp [liveCmd, h]

theorem completeStep_head {rest : List Cmd} (h : s.core.copy.queue = c :: rest) (hp : performedAll s c = true)
    (hb : c.puben = false ∨ c.published = true) (hf : c.follow = false ∨ c.fault ≠ 0 ∨ c.followed = true) :
    completeStep c.seq s = completeHead s := by
  have hpub : (c.puben && !c.published) = false := by rcases hb with hb | hb <;> simp [hb]
  have hfol : (c.follow && decide (c.fault = 0) && !c.followed) = false := by rcases hf with hf | hf | hf <;> simp [hf]
  simp [completeStep, liveCmd_head h, hp, hpub, hfol, h]

/-- Where no stream waits, none is resumed. -/
theorem resumeWhere_nobody (f : State → Wait → Option (Option (SDst × Word))) (h : ∀ t, waitsOn s t = none) : resumeWhere f s = s :=
  List.foldl_fixed' (fun t => by simp only [h t]) allSecs

theorem raiseFlags_none (s : State) : raiseFlags 0 s = s := List.foldl_fixed' (fun e => by simp) (List.range 32)

theorem accrueTo_waitsOn (t u : Sec) (f : FlagSet) (s : State) : waitsOn (accrueTo t f s) u = waitsOn s u := by
  unfold waitsOn accrueTo
  by_cases h : u = t
  · rw [h, onStr_str]
  · rw [onStr_str_ne s _ h]

/-- The oldest command leaves the queue for the records, and its flags accrue, where nothing hangs on its completion. -/
theorem completeHead_quiet {rest : List Cmd} (h : s.core.copy.queue = c :: rest) (hc : c.ctren = false) (hf : c.cw[4].toNat / 2 ^ 32 = 0)
    (hs : c.sem = none) (hb : c.bitmap = none) (hw : ∀ t, waitsOn s t = none) :
    completeHead s = (accrueTo .copy c.flags s).setEngine { s.core.copy with queue := rest, records := c :: s.core.copy.records } := by
  have hflags : raiseFlags (BitVec.ofNat 32 (c.get 4 32 32)) s = s := by
    rw [show c.get 4 32 32 = 0 from (bitsOf_high _).trans hf]
    exact raiseFlags_none s
  have hq : (accrueTo .copy c.flags s).core.copy = s.core.copy := rfl
  unfold completeHead
  simp only [h, hc, hflags, hs, hq, hb, Bool.false_eq_true, if_false, List.drop_succ_cons, List.drop_zero]
  exact resumeWhere_nobody _ fun t => (accrueTo_waitsOn .copy t c.flags s).trans (hw t)

end Complete

/-! ### The follow-on record (R154, R237) -/

section Follow
variable {c : Cmd} {s : State} {w : Word}

theorem mayFollow_iff (s : State) (c : Cmd) : mayFollow s c = true ↔ c.follow = true ∧ c.fault = 0 ∧ c.followed = false
    ∧ (c.puben = false ∨ c.published = true) ∧ (c.phase = .landed ∧ unacked s c.seq = false)
    ∧ (∀ d ∈ earlierCmds s c, d.phase = .landed ∧ unacked s d.seq = false) ∧ s.core.mat.queue.length < 32 := by
  rw [show (32 : Nat) = matQueueSize from rfl]
  simp [mayFollow, performedAll_iff, and_assoc]

/-- The kind of a record that is one of the three commands. -/
theorem followKind (h : w.toNat / 2 ^ 62 ≠ 3) : (if bitsOf w 62 2 = 3 then 0 else bitsOf w 62 2) = w.toNat / 2 ^ 62 := by
  have hk : bitsOf w 62 2 = w.toNat / 2 ^ 62 := Nat.mod_eq_of_lt (by have := w.isLt; omega)
  rw [hk, if_neg h]

theorem followOn_refused {r : Nat} (h : w.toNat / 2 ^ 62 ≠ 3) (hr : wordReason s.core.mat (w.toNat / 2 ^ 62) w = some r) :
    followOn w s = matFault 0x01 r w true s.core.mat.mseq s := by
  simp only [followOn, followKind h, hr]

theorem followOn_enters (h : w.toNat / 2 ^ 62 ≠ 3) (hr : wordReason s.core.mat (w.toNat / 2 ^ 62) w = none)
    (ht : ∀ r ∈ wordRanges s.core.mat w, touchesSr s.core r.1 r.2 = false) : followOn w s = enterMat w true s := by
  have hn : rangesInSr s.core (wordRanges s.core.mat w) = none := by
    rw [rangesInSr, List.find?_eq_none.2 fun r hm => ne_true_of_eq_false (ht r hm)]
    rfl
  simp only [followOn, followKind h, hr, hn]
  rfl

end Follow

/-! ### Promises and the freeze (R170) -/

section Freeze
variable {s : State}

theorem thaw_unfrozen (h : s.core.copy.frozenSince = none) : thaw s = s := by
  simp [thaw, h]

/-- Where no arrived cell waits for a promise that has come, missing data freezes the core or is late. -/
theorem promisesDue_noneHeld (h : ∀ c ∈ s.core.copy.queue, c.dueHeld s.now = false) : promisesDue s =
    if missingNow s && s.core.copy.frozenSince.isNone then
      if s.core.copy.frzl = 0 then markLate s
      else s.setEngine { s.core.copy with frozenSince := some s.now
                                          frzc := if s.core.copy.frzc = BitVec.allOnes 32 then s.core.copy.frzc else s.core.copy.frzc + 1 }
    else s := by
  have hf : (s.core.copy.queue.filter fun c => c.dueHeld s.now) = [] := List.filter_eq_nil_iff.2 fun c hc => ne_true_of_eq_false (h c hc)
  unfold promisesDue
  rw [hf]

theorem withdraw_copy (t : Sec) (s : State) : (withdraw t s).core.copy = s.core.copy := by
  unfold withdraw
  extract_lets _ _ u
  have hu : u.core.copy = s.core.copy := by
    unfold u
    split <;> rfl
  rw [← hu]
  split
  · rfl
  · dsimp only
    split <;> rfl

theorem missTrap_copy (t : Sec) (l : List LateReq) (s : State) : (missTrap t l s).core.copy = s.core.copy := by
  unfold missTrap
  split
  · rfl
  · dsimp only
    rw [onStr_core_copy]
    split
    · exact withdraw_copy t s
    · rfl

/-- What is late no longer freezes the core. -/
theorem markLate_thaws (s : State) : (markLate s).core.copy.frozenSince = none := by
  unfold markLate
  rw [missTrap_copy, missTrap_copy]
  rfl

end Freeze

/-! ### Writes into frames (R159) -/

section Incoming
variable {w : RemoteWrite} {s t : State}

theorem focus_ownModule {n : Nat} (h : focus n s = some t) : t.ownModule = s.ownModule := by
  unfold focus at h
  split at h
  · cases h; rfl
  · split at h
    · cases h; rfl
    · cases h

theorem onCore_ownModule {f : State → State} (hf : ∀ s, (f s).ownModule = s.ownModule) (n : Nat) (s : State) :
    (onCore n f s).ownModule = s.ownModule := by
  unfold onCore
  split
  · rfl
  · next s1 h1 =>
    split
    · next s2 h2 => exact (focus_ownModule h2).trans ((hf s1).trans (focus_ownModule h1))
    · rfl

/-- The frame that a write names takes it (R159). -/
def frameFits (w : RemoteWrite) (c : CoreState) : Prop :=
  frmValid c.frames[w.frame] = true ∧ w.off + max 1 w.bytes.length ≤ frmSize c.frames[w.frame]

/-- The bytes that a write names meet the supervisor region. -/
def frameForbids (w : RemoteWrite) (c : CoreState) : Bool :=
  touchesSr c (frameBase c.frames[w.frame] true + w.off) (max 1 w.bytes.length)

theorem frameRefuses_fits (h : frameFits w s.core) : frameRefuses w s = if frameForbids w s.core then some 0x03 else none := by
  obtain ⟨hv, hn⟩ := h
  unfold frameRefuses frameForbids
  generalize s.core.frames[w.frame] = f at *
  simp [hv, Nat.not_lt.mpr hn]

theorem frameRefuses_unfit (h : ¬ frameFits w s.core) : frameRefuses w s = some 0x02 := by
  unfold frameFits at h
  unfold frameRefuses
  generalize s.core.frames[w.frame] = f at *
  refine if_pos ?_
  by_cases hv : frmValid f = true
  · simpa [hv] using h
  · simp [hv]

theorem exec_incomingWrite (hd : s.arg.data = .write w) (hf : focus w.core s = some t) : exec .incomingWrite s =
    match frameRefuses w t with
    | none => .next (answerWrite w.module w.who 0 (onCore w.core (incoming w) s))
    | some k => .next (answerWrite w.module w.who k s) := by
  show execIncomingWrite s = _
  simp only [execIncomingWrite, hd, hf] <;> rfl

/-- The bytes of a write in the write window of its frame. -/
def landed (w : RemoteWrite) (s : State) : State :=
  s.setCore (spadPutBytes s.core (frameBase s.core.frames[w.frame] true + w.off) w.bytes)

theorem incoming_plain (hp : w.poison = false) (ht : w.tag = none) (s : State) : incoming w s = landed w s := by
  simp only [incoming, hp, ht]
  rfl

/-- Nobody in the module hears of a write that was not refused (R118, R154). -/
theorem answerWrite_own {m : Nat} {who : Requester} (h : m = s.ownModule) : answerWrite m who 0 s = s := by
  unfold answerWrite
  rw [if_neg (not_not_intro h)]
  cases who <;> rfl

theorem answerWrite_command {m n k i : Nat} {q : BitVec 16} (h : m = s.ownModule) (hk : k ≠ 0) :
    answerWrite m (.command n q i) k s = onCore n (recordFault q k i) s := by
  unfold answerWrite
  rw [if_neg (not_not_intro h)]
  exact if_neg hk

theorem answerWrite_other {m k : Nat} {who : Requester} (h : m ≠ s.ownModule) : answerWrite m who k s = s.send m (.acked who k) := if_pos h

theorem incoming_ownModule (w : RemoteWrite) (s : State) : (incoming w s).ownModule = s.ownModule := rfl

/-- A write that its frame takes lands, and a sender in another module is answered. -/
theorem incomingWrite_lands (hd : s.arg.data = .write w) (hf : focus w.core s = some t) (h : frameFits w t.core) (hr : frameForbids w t.core = false)
    (hp : w.poison = false) (ht : w.tag = none) : exec .incomingWrite s =
      .next (answerWrite w.module w.who 0 (onCore w.core (fun _ => landed w t) s)) := by
  rw [exec_incomingWrite hd hf, frameRefuses_fits h, hr, onCore_eq_of_focus hf (incoming_plain hp ht t)]
  rfl

theorem incomingWrite_refused (hd : s.arg.data = .write w) (hf : focus w.core s = some t) {k : Nat} (h : frameRefuses w t = some k) :
    exec .incomingWrite s = .next (answerWrite w.module w.who k s) := by
  rw [exec_incomingWrite hd hf, h]

end Incoming

/-! ### O48 -/

/-- What CELL_ARRIVAL performs with its core in focus. -/
def arriveEvent (x : EventArg) (s : State) : State := if x.sec = .copy then arriveCmd (BitVec.ofNat 16 x.a) s else arriveFld x.a s

theorem exec_cellArrival (s : State) : exec .cellArrival s = atCore s.arg.core (arriveEvent s.arg) s := by
  show execCellArrival s = _
  unfold execCellArrival
  rcases s.arg with ⟨n, _ | _ | _ | _, a, b, d⟩ <;> rfl

theorem commandStart_happens {ok : State → Prop} {eff : State → State} (h : ∀ t, ok t → startCmd t = eff t) : happensAt .commandStart ok eff :=
  happensAt_of_atCore (f := fun _ => startCmd) (fun _ => rfl) h

theorem cellArrival_happens {ok : State → Prop} {eff : State → State} (h : ∀ t, ok t → arriveEvent t.arg t = eff t) : happensAt .cellArrival ok eff :=
  happensAt_of_atCore (f := arriveEvent) exec_cellArrival h

theorem listedItemFinish_happens {ok : State → Prop} {eff : State → State} (h : ∀ t, ok t → listedStep (BitVec.ofNat 16 t.arg.a) t = eff t) :
    happensAt .listedItemFinish ok eff :=
  happensAt_of_atCore (f := fun x => listedStep (BitVec.ofNat 16 x.a)) (fun _ => rfl) h

theorem commandComplete_happens {ok : State → Prop} {eff : State → State} (h : ∀ t, ok t → completeStep (BitVec.ofNat 16 t.arg.a) t = eff t) :
    happensAt .commandComplete ok eff :=
  happensAt_of_atCore (f := fun x => completeStep (BitVec.ofNat 16 x.a)) (fun _ => rfl) h

theorem promiseDue_happens {ok : State → Prop} {eff : State → State} (h : ∀ t, ok t → promisesDue t = eff t) : happensAt .promiseDue ok eff :=
  happensAt_of_atCore (f := fun _ => promisesDue) (fun _ => rfl) h

/-- Settles O48: each event is its function with its core in focus, and each clause the lemma about that function. -/
theorem copyEngineEvents : Obligations.CopyEngineEvents := by
  unfold Obligations.CopyEngineEvents
  refine ⟨fun c => ⟨?_, ?_, ?_, ?_, ?_, ?_, ?_, ?_, ?_, ?_, ?_, ?_, ?_, ?_, ?_, ?_, ?_⟩, ?_, ?_, ?_, ?_, ?_, markLate_thaws, ?_⟩
  · exact commandStart_happens fun t ⟨h, hc, hf, hk⟩ => startCmd_starts h hc hf hk
  · exact fun k => commandStart_happens fun t ⟨h, hc, hf, hk⟩ => startCmd_faults h hc hf hk
  · exact commandStart_happens fun t ⟨h, hc⟩ => startCmd_cancelled h hc
  · exact fun s => canStart_some
  · refine cellArrival_happens fun t ⟨hs, h, hp, hk, hd⟩ => ?_
    rw [arriveEvent, if_pos hs, arriveCmd_fetching h hp hk, hd]
    rfl
  · refine cellArrival_happens fun t ⟨hs, h, hp, hk, hd⟩ => ?_
    rw [arriveEvent, if_pos hs, arriveCmd_fetching h hp hk, if_neg (mt List.isEmpty_iff.1 hd)]
    rfl
  · exact fun s hq hd => ⟨drainDelayed_waits (liveCmd_head hq), fun d => admitted_mem, admitted_bytes s c.delayed⟩
  · exact fun i => listedItemFinish_happens fun t ⟨h, hd, hi⟩ => listedStep_item h hd hi
  · exact listedItemFinish_happens fun t ⟨h, hd⟩ => listedStep_delayed h hd
  · exact fun tick => itemTurn_spec tick
  · refine happensAt_of_performed fun s t ha ⟨h, hr⟩ => ⟨_, rfl, ?_⟩
    simp [← ha, h, hr]
  · exact commandComplete_happens fun t ⟨h, hp, hu, he, hn⟩ => completeStep_publishes h ((performedAll_iff t c).2 ⟨hp, hu⟩) he hn
  · refine fun rest => commandComplete_happens fun t ⟨h, hq, hp, hu, hb, hf⟩ => ?_
    rw [← hq]
    exact completeStep_head h ((performedAll_iff t c).2 ⟨hp, hu⟩) hb hf
  · intro s rest h hc hf hs hb hw
    rw [completeHead_quiet h hc hf hs hb hw]
    exact ⟨rfl, rfl, rfl, sameScratch_refl _⟩
  · exact fun s => mayFollow_iff s c
  · refine happensAt_of_performed fun s t ha ⟨h, hm, hk, hr, ht⟩ => ⟨_, rfl, ?_⟩
    simp only [← ha, h, hm, if_true]
    exact followOn_enters hk hr ht
  · refine fun r => happensAt_of_performed fun s t ha ⟨h, hm, hk, hr⟩ => ⟨_, rfl, ?_⟩
    simp only [← ha, h, hm, if_true]
    exact followOn_refused hk hr
  · refine cellArrival_happens fun t ⟨hs, hz⟩ => ?_
    rw [arriveEvent, hs]
    exact thaw_unfrozen hz
  · refine promiseDue_happens fun t ⟨hh, hm⟩ => ?_
    rw [promisesDue_noneHeld hh, hm]
    rfl
  · refine promiseDue_happens fun t ⟨hh, hm, hz, hl⟩ => ?_
    rw [promisesDue_noneHeld hh, hm, hz, if_neg hl]
    rfl
  · refine promiseDue_happens fun t ⟨hh, hm, hz, hl⟩ => ?_
    rw [promisesDue_noneHeld hh, hm, hz, if_pos hl]
    rfl
  · exact happensAt_of_atCore (f := fun _ s => if s.core.copy.frozenSince.isSome then markLate s else s) (fun _ => rfl)
      fun t hz => if_pos (Option.isSome_iff_ne_none.2 hz)
  · intro w s t hd hf f a n fits
    refine ⟨fun h hr hp ht => ?_, fun k hk => ?_⟩
    · have hown : (onCore w.core (fun _ => landed w t) s).ownModule = s.ownModule := by
        rw [← onCore_eq_of_focus hf (incoming_plain hp ht t)]
        exact onCore_ownModule (incoming_ownModule w) w.core s
      have he := incomingWrite_lands hd hf h hr hp ht
      exact ⟨fun hm => by rw [he, answerWrite_own (hm.trans hown.symm)]; rfl, fun hm => by rw [he, answerWrite_other (hown ▸ hm)]; rfl⟩
    · have hr : frameRefuses w t = some k := by
        rcases hk with ⟨h, rfl⟩ | ⟨h, hr, rfl⟩
        · exact frameRefuses_unfit h
        · rw [frameRefuses_fits h]
          exact if_pos hr
      have h0 : k ≠ 0 := by rcases hk with ⟨_, rfl⟩ | ⟨_, _, rfl⟩ <;> decide
      have he := incomingWrite_refused hd hf hr
      refine ⟨fun m q i hm hw => ?_, fun hm => ?_⟩
      · rw [he, hw, answerWrite_command hm h0]
      · rw [he, answerWrite_other hm]

end Sys2Proof.Machine
end

