-- ==== Sys2Proof/Proofs/QueuesAndChannels.lean ====
section
/-! O23: the words that configure queues, channels and groups, and those that read and free what a queue holds. -/

namespace Sys2Proof.Machine

/-! ### What a queue holds (R197, R206) -/

/-- A queue that may be configured: disabled, or without entries (R202). -/
theorem queueIdle {x : MsgQueue} (h : x.en = false ∨ x.origins = []) : (x.en && !x.origins.isEmpty) = false := by
  rcases h with h | h <;> simp [h]

theorem queueInUse {x : MsgQueue} (he : x.en = true) (ho : x.origins ≠ []) : (x.en && !x.origins.isEmpty) = true := by
  simp [he, ho]

/-- The address of the head entry. -/
theorem headAddr (x : MsgQueue) : x.addr 0 = x.base.toNat * 64 + 64 * (x.head % 2 ^ x.lsize) := rfl

theorem sendCredit_core (w : Word) (n : Nat) (s : State) : (sendCredit w n s).core = s.core := by
  unfold sendCredit
  dsimp only
  split
  · split <;> rfl
  · rfl

/-- Returning credits takes no entry from a queue. -/
theorem returnCredits_origins (q : Fin 16) (all : Bool) (s : State) : (queueAt (returnCredits q all s) q).origins = (queueAt s q).origins := by
  unfold returnCredits
  extract_lets x due s1
  have hcore : (due.foldl (fun t p => sendCredit p.1 p.2 t) s1).core = s1.core :=
    List.foldlRecOn (motive := fun t : State => t.core = s1.core) _ _ rfl fun t ht p _ => (sendCredit_core p.1 p.2 t).trans ht
  calc (queueAt (due.foldl (fun t p => sendCredit p.1 p.2 t) s1) q).origins
      = (queueAt s1 q).origins := (congrArg (·.msgs.queues[q].origins) hcore :)
    _ = (queueAt s q).origins := by rw [queueAt_setQueue]

/-- The head entry leaves its queue. -/
theorem popEntry_origins (q : Fin 16) (s : State) : (queueAt (popEntry q s) q).origins = (queueAt s q).origins.tail := by
  unfold popEntry
  dsimp only
  split
  · next h => rw [h, List.tail_nil]
  · next w rest h => rw [returnCredits_origins, queueAt_setQueue, h, List.tail_cons]

theorem popEntries_origins (q : Fin 16) (n : Nat) (s : State) : (queueAt (popEntries q n s) q).origins = (queueAt s q).origins.drop n := by
  induction n generalizing s with
  | zero => rfl
  | succ n ih => rw [popEntries, ih, popEntry_origins, List.drop_tail]

section Words
variable {o : CAQ}

/-! ### QFREE (R208) -/

/-- The queue holds the entries that a count names. -/
theorem countHeld {x : MsgQueue} {n : Nat} (h0 : 0 < n) (hn : n ≤ x.origins.length) : ¬(n = 0 ∨ x.occ < n) := by
  unfold MsgQueue.occ
  omega

/-- A load is in flight where not every one has arrived. -/
theorem loadInFlight {s : State} {b : Bool} (h : s.cur.flds.all (·.arrived) = !b) : (s.cur.flds.any fun f => !f.arrived) = b := by
  rw [List.all_eq_not_any_not] at h
  exact Bool.not_inj h

/-- QFREE names entries that its queue, enabled, holds. -/
def freesHeld (o : CAQ) (s : State) : Prop :=
  (queueAt s o.q).en = true ∧ 0 < (rdS s o.a).toNat ∧ (rdS s o.a).toNat ≤ (queueAt s o.q).origins.length

theorem qfree_performs : performs (.qfree o) (useCAQ o) (fun s => freesHeld o s ∧ s.cur.flds.all (·.arrived) = true)
    (fun s => popEntries o.q (rdS s o.a).toNat s) := by
  refine performs_of_body (fun _ => rfl) fun s ⟨⟨he, h0, hn⟩, hl⟩ => ?_
  simp only [he, if_neg (countHeld h0 hn), loadInFlight (b := false) hl]
  rfl

theorem qfree_holds : ∀ s, issues (.qfree o) (useCAQ o) s →
    freesHeld o (entered (.qfree o) s) ∧ (entered (.qfree o) s).cur.flds.all (·.arrived) = false → exec (.qfree o) s = .next s := by
  refine holds_of_body (ok := fun s => freesHeld o s ∧ s.cur.flds.all (·.arrived) = false) (fun _ => rfl) fun s ⟨⟨he, h0, hn⟩, hl⟩ => ?_
  simp only [he, if_neg (countHeld h0 hn), loadInFlight (b := true) hl]
  rfl

/-! ### MCAST (R204) -/

/-- A value that leaves its group: no bit above the group is set. -/
theorem leaves_fields {a : Word} (h : a.toNat / 2 ^ 12 = 0) : bitsOf a 12 51 = 0 ∧ bitOf a 63 = false := by
  refine ⟨by rw [bitsOf, fld, h, Nat.zero_mod], ?_⟩
  rw [bitOf, BitVec.getLsbD, Nat.testBit_eq_decide_div_mod_eq]
  exact decide_eq_false (by omega)

/-- A value that joins its group: bit 63 alone is set above the group. -/
theorem joins_fields {a : Word} (h : a.toNat / 2 ^ 12 = 2 ^ 51) : bitsOf a 12 51 = 0 ∧ bitOf a 63 = true := by
  refine ⟨by rw [bitsOf, fld, h, Nat.mod_self], ?_⟩
  rw [bitOf, BitVec.getLsbD, Nat.testBit_eq_decide_div_mod_eq]
  exact decide_eq_true (by omega)

/-- In a domain of one every group is known. -/
theorem groupKnown_of {s : State} {g : Nat} (h : s.members = [] ∨ groupKnown s g = true) : groupKnown s g = true := by
  rcases h with h | h
  · simp [groupKnown, h]
  · exact h

theorem mcast_refused : traps (.mcast o) (useCAQ o)
    (fun s => (rdS s o.a).toNat / 2 ^ 12 = 2 ^ 51 ∧ (groupKnown s ((rdS s o.a).toNat % 2 ^ 12) = false
      ∨ 16 ≤ (s.core.msgs.members.filter fun p => p.1 != (rdS s o.a).toNat % 2 ^ 12).length)) (fun _ => mkTrap 0x09 0x07 0) := by
  refine traps_of_body (fun _ => rfl) fun s ⟨h, hk⟩ => ?_
  simp only [joins_fields h, bitsOf_low]
  cases hg : groupKnown s ((rdS s o.a).toNat % 2 ^ 12) with
  | false => rfl
  | true => exact if_pos (hk.resolve_left (ne_false_of_eq_true hg))

end Words

/-! ### O23 -/

/-- Settles O23: each word by the checks of Table 10-3 in their order, and QFREE by its count. -/
theorem queuesAndChannels : Obligations.QueuesAndChannels := by
  unfold Obligations.QueuesAndChannels
  refine ⟨fun o => ⟨?_, ?_, ?_, ?_, fun s hs he h0 hn hl => ?_, ?_, ?_, ?_, ?_, ?_, ?_,
      fun s hs he h0 hn hl => qfree_holds s hs ⟨⟨he, h0, hn⟩, hl⟩, ?_, mcast_refused⟩,
    fun o => ⟨?_, ?_⟩, fun o => ⟨?_, ?_, ?_⟩, fun o => ⟨?_, ?_, ?_⟩⟩
  · refine performs_of_body (fun _ => rfl) fun s ⟨hm, he, hv, hp⟩ => ?_
    simp only [hm, queueIdle he, bitOf, hv]
    exact if_neg (Bool.eq_false_iff.1 (mayTouch hp))
  · exact traps_of_body (fun _ => rfl) fun s hm => if_pos hm
  · refine traps_of_body (fun _ => rfl) fun s ⟨hm, he, ho⟩ => ?_
    simp only [hm, queueInUse he ho]
    rfl
  · refine performs_congr qfree_performs fun s ⟨he, hn, ho, hl⟩ => ?_
    exact ⟨⟨⟨he, hn ▸ Nat.one_pos, hn ▸ List.length_pos_iff.2 ho⟩, hl⟩, by rw [hn]; rfl⟩
  · exact ⟨_, qfree_performs s hs ⟨⟨he, h0, hn⟩, hl⟩, popEntries_origins o.q _ _⟩
  · refine performs_of_body (fun _ => rfl) fun s h => ?_
    simp only [leaves_fields h, bitsOf_low]
    rfl
  · refine performs_of_body (fun _ => rfl) fun s ⟨h, hk, hn⟩ => ?_
    simp only [joins_fields h, bitsOf_low, groupKnown_of hk, if_neg (Nat.not_le.2 hn)]
    rfl
  · refine performs_of_body (fun _ => rfl) fun s ⟨hm, he, hv⟩ => ?_
    simp only [hm, queueIdle he, bitOf, hv]
    rfl
  · refine traps_of_body (fun _ => rfl) fun s ⟨hm, he, hv, hp, ht⟩ => ?_
    simp only [hm, queueIdle he, bitOf, hv, hp]
    exact if_pos ht
  · refine traps_of_body (fun _ => rfl) fun s he => ?_
    simp only [he]
    rfl
  · refine traps_of_body (fun _ => rfl) fun s ⟨he, hn⟩ => ?_
    simp only [he]
    exact if_pos hn
  · exact traps_of_body (fun _ => rfl) fun s h => if_pos h
  · refine performs_of_body (fun _ => rfl) fun s h => ?_
    simp only [h, bitsOf_high, bitsOf_low]
    rfl
  · exact traps_of_body (fun _ => rfl) fun s h => if_pos h
  · refine performs_of_body (fun _ => rfl) fun s ⟨he, ho⟩ => ?_
    simp only [he, ho]
    rfl
  · refine performs_of_body (fun _ => rfl) fun s ⟨he, ho⟩ => ?_
    simp only [he, List.isEmpty_eq_false_iff.2 ho, headAddr]
    rfl
  · refine traps_of_body (fun _ => rfl) fun s he => ?_
    simp only [he]
    rfl
  · refine performs_of_body (fun _ => rfl) fun s h => ?_
    simp only [bitOf, h]
    rfl
  · refine performs_of_body (fun _ => rfl) fun s ⟨h, hn⟩ => ?_
    simp only [bitOf, h, if_pos hn]
    rfl
  · refine performs_of_body (fun _ => rfl) fun s ⟨h, hn⟩ => ?_
    simp only [bitOf, h, if_neg (Nat.not_lt.2 hn)]
    rfl

end Sys2Proof.Machine
end

