-- ==== Sys2Proof/Proofs/DomainMembers.lean ====
section
/-! The members of the domain (R418): what an entry that arrives, a leg that fails and an action of every core leave as they are. -/

namespace Sys2Proof.Machine

/-! ### Folds, and a core in focus -/

theorem ite_members {p : Prop} [Decidable p] {s t u : State} (ht : t.members = s.members) (hu : u.members = s.members) :
    (if p then t else u).members = s.members := by
  split
  · exact ht
  · exact hu

theorem raise_members (s : State) (es : List Event) : (s.raise es).members = s.members := rfl

theorem foldl_members {α : Type} {f : State → α → State} (hf : ∀ s x, (f s x).members = s.members) (l : List α) (s : State) :
    (l.foldl f s).members = s.members :=
  List.foldlRecOn (motive := fun t : State => t.members = s.members) l f rfl fun t ht x _ => (hf t x).trans ht

theorem focus_members {n : Nat} {s t : State} (h : focus n s = some t) : t.members = s.members := by
  unfold focus at h
  split at h
  · cases h; rfl
  · split at h
    · cases h; rfl
    · cases h

theorem onCore_members {f : State → State} (hf : ∀ s, (f s).members = s.members) (n : Nat) (s : State) : (onCore n f s).members = s.members := by
  unfold onCore
  split
  · rfl
  · next s1 h1 =>
    split
    · next s2 h2 => exact (focus_members h2).trans ((hf s1).trans (focus_members h1))
    · rfl

theorem onEveryCore_members {f : State → State} (hf : ∀ s, (f s).members = s.members) (s : State) : (onEveryCore f s).members = s.members :=
  foldl_members (fun s n => onCore_members hf n s) _ s

/-! ### Membership records (R207, R210) -/

theorem onlyCore_members {s t : State} (h : onlyCore s t) : t.members = s.members := by
  obtain ⟨_, _, _, _, _, rfl⟩ := h
  rfl

theorem channelFault_members (t : Sec) (c code : Nat) (s : State) : (channelFault t c code s).members = s.members := rfl

theorem answerSender_members (w : Word) (code : Nat) (s : State) : (answerSender w code s).members = s.members := by
  unfold answerSender
  dsimp only
  split
  · rfl
  · split
    · exact ite_members rfl (onCore_members (channelFault_members _ _ code) _ s)
    · rfl

theorem arriveEntry_members (q : Fin 16) (e : Entry) (s : State) : (arriveEntry q e s).members = s.members := by
  unfold arriveEntry
  dsimp only
  split
  · exact (answerSender_members _ _ _).trans (onlyCore_members (appendEntry_onlyCore q e s))
  · exact ite_members rfl (answerSender_members _ _ s)

theorem membershipRecord_members (m code : Nat) (s : State) : (membershipRecord m code s).members = s.members :=
  ite_members rfl (arriveEntry_members _ _ s)

/-! ### Memory that a walk reads and writes (R37, R388) -/

theorem onlyCounts_members {s t : State} (h : onlyCounts s t) : t.members = s.members := by
  obtain ⟨_, _, _, _, _, rfl⟩ := h
  rfl

theorem walked_members (die : Nat) (w : WalkTrace) (s : State) : (walked die w s).members = s.members := by
  have hc := onlyCounts_members (foldl_onlyCounts (fun s a => countPhysical_onlyCounts a 8 s) w.reads s)
  unfold walked fillWalk
  exact ite_members hc hc

theorem fillDie_members (die : Nat) (s : State) (e : TlbEntry) : (fillDie die s e).members = s.members := ite_members rfl rfl

theorem translateDie_members (die : Nat) (s : State) (x : Access) (va : Nat) : (translateDie die s x va).state.members = s.members := by
  unfold translateDie translateBy
  dsimp only
  split
  · rfl
  · split
    · rfl
    · split
      · exact walked_members _ _ s
      · split
        · exact (fillDie_members _ _ _).trans (walked_members _ _ s)
        · exact walked_members _ _ s

theorem memPutBytes_members (s : State) (pa : Nat) (bs : List Byte) : (memPutBytes s pa bs).members = s.members :=
  (congrArg (·.members) (memPutBytes_frame s pa bs) :)

theorem memPoison_members (s : State) (pa n : Nat) : (memPoison s pa n).members = s.members :=
  (congrArg (·.members) (memPoison_frame s pa n) :)

theorem putTagAt_members (s : State) (x : Xlat) (t : BitVec 16) : (putTagAt s x t).members = s.members := by
  unfold putTagAt
  split
  · rfl
  · split
    · rfl
    · rfl
    · rfl
    · exact memPutBytes_members s _ _

theorem dropTags_members (x : Xlat) (n : Nat) (s : State) : (dropTags x n s).members = s.members := ite_members rfl rfl

theorem writeCellAt_members (s : State) (x : Xlat) (d : CellData) : (writeCellAt s x d).members = s.members := by
  have hput : ∀ y z, (dropTags y 64 (putTagAt (memPutBytes s z (bytesOfNum 64 d.bytes.toNat)) x d.tag)).members = s.members :=
    fun _ _ => (dropTags_members _ _ _).trans ((putTagAt_members _ _ _).trans (memPutBytes_members _ _ _))
  unfold writeCellAt
  dsimp only
  split
  · rfl
  · exact ite_members ((memPoison_members _ _ _).trans (hput _ _)) (hput _ _)

theorem poisonMem_members (s : State) (x : Xlat) : (poisonMem s x).members = s.members := by
  unfold poisonMem
  split
  · rfl
  · exact ite_members (putTagAt_members s x _) (memPoison_members s _ _)

/-! ### A leg that fails (R330) -/

theorem sfWrite_members (a : Word) (f : CoreState → CoreState) (s : State) : (sfWrite a f s).members = s.members :=
  onCore_members (f := fun t => t.setCore (f t.core)) (fun _ => rfl) _ s

theorem legPage_members (w va : Nat) (write : Bool) (t : Tier) (s : State) : (legPage w va write t s).1.members = s.members := by
  unfold legPage
  dsimp only
  split <;> exact translateDie_members _ s _ va

theorem putLegCell_members (w : Nat) (l : Leg) (i : Nat) (d : CellData) (bad : Bool) (s : State) : (putLegCell w l i d bad s).1.members = s.members := by
  have hp := legPage_members w (l.dst.toNat + 64 * i) true (hopTarget l.hop) s
  unfold putLegCell
  split
  · split
    · rfl
    · exact sfWrite_members _ _ s
  · split
    · next e => rwa [e] at hp
    · next e =>
      rw [e] at hp
      exact (writeCellAt_members _ _ d).trans hp

theorem poisonLegCell_members (w : Nat) (l : Leg) (i : Nat) (s : State) : (poisonLegCell w l i s).members = s.members := by
  have ht := translateDie_members (w / 4) s ((walkAt s w).access true) (l.dst.toNat + 64 * i)
  unfold poisonLegCell
  dsimp only
  split
  · split
    · rfl
    · split
      · split
        · rfl
        · exact sfWrite_members _ _ s
      · rfl
  · split
    · exact ht
    · exact (poisonMem_members _ _).trans ht

theorem poisonLeg_members (w : Nat) (l : Leg) (n i : Nat) (s : State) : (poisonLeg w l n i s).members = s.members := by
  induction n generalizing i s with
  | zero => rfl
  | succ n ih => exact (ih _ _).trans (poisonLegCell_members w l i s)

theorem putHeldCells_members (w : Nat) (l : Leg) (i : Nat) (cs : List (CellData × Bool)) (s : State) :
    (putHeldCells w l i cs s).1.members = s.members := by
  induction cs generalizing i s with
  | nil => rfl
  | cons c cs ih =>
    have hc := putLegCell_members w l i c.1 c.2 s
    unfold putHeldCells
    split
    · next e => rwa [e] at hc
    · next e =>
      rw [e] at hc
      exact (ih _ _).trans hc

theorem noteFault_members (w : Nat) (j : LegJob) (e : Option Nat) (s : State) : (noteFault w j e s).members = s.members := by
  cases e <;> rfl

theorem pumpLeg_members (w o : Nat) (s : State) : (pumpLeg w o s).members = s.members := by
  unfold pumpLeg
  split
  · rfl
  · next j _ =>
    have hput := putHeldCells_members w j.leg j.moved j.held s
    split
    · rfl
    · dsimp only
      split
      · next e =>
        rw [e] at hput
        exact (poisonLeg_members w _ _ _ _).trans ((noteFault_members w _ _ _).trans hput)
      · next e =>
        rw [e] at hput
        split
        · exact (poisonLeg_members w _ _ _ _).trans hput
        · split <;> exact hput

theorem failLeg_members (w : Nat) (j : LegJob) (code : Nat) (s : State) : (failLeg w j code s).members = s.members :=
  (pumpLeg_members w _ _).trans (noteFault_members w j (some code) s)

theorem sourceLost_members (m : Nat) (s : State) : (sourceLost m s).members = s.members := by
  refine foldl_members (fun s w => foldl_members (fun s j => ?_) _ s) _ s
  dsimp only
  split <;> exact ite_members (failLeg_members w j 7 s) rfl

/-! ### Leaving and joining (R210, R418) -/

/-- A member without an awaited acknowledgement leaves, and nothing else of the domain changes. -/
theorem leaveDomain_members {m : Nat} {s : State} (hm : m ∈ s.members) (ha : ∀ p ∈ s.awaited, p.1 ≠ m) :
    (leaveDomain m s).members = s.members.filter (· != m) := by
  have hl : (s.awaited.filter fun p => decide (p.1 = m)) = [] := List.filter_eq_nil_iff.2 fun p hp => by simpa using ha p hp
  have hin : ¬(!s.members.contains m) = true := by simpa using hm
  rw [leaveDomain, if_neg hin]
  dsimp only
  rw [raise_members, sourceLost_members, onEveryCore_members fun t => membershipRecord_members m 1 (faultChannels m t), hl, List.foldl_nil]

theorem leaveDomain_outside {m : Nat} {s : State} (hm : m ∉ s.members) : leaveDomain m s = s := by
  simp [leaveDomain, hm]

theorem joinDomain_members {m : Nat} {s : State} (hf : fabricOn s = true) (hm : s.isMember m = false) (hn : m < 2 ^ 12) :
    (joinDomain m s).members = m :: s.members := by
  have hj : (!fabricOn s || s.isMember m || decide (2 ^ 12 ≤ m)) = false := by simpa [hf, hm] using hn
  rw [joinDomain, if_neg (Bool.eq_false_iff.1 hj), raise_members, onEveryCore_members (membershipRecord_members m 2)]

theorem joinDomain_member {m : Nat} {s : State} (hm : s.isMember m = true) : joinDomain m s = s := by
  simp [joinDomain, hm]

end Sys2Proof.Machine
end

