-- ==== Sys2Proof/Proofs/HostPort.lean ====
section
/-! The host port (R405-R408, R414): what its accesses do, one lemma for each way they end. -/

namespace Sys2Proof.Machine

/-! ### Submission (R408) -/

theorem exec_lqwin {s : State} {c : CellData} (ha : s.arg.a < 64) (hd : s.arg.data = .cell c) :
    exec .lqwin s = .next (submit s.arg.a c.bytes (decide (s.arg.b = 1)) s) := by
  show execLqwin s = _
  rw [execLqwin, if_neg (Nat.not_le.2 ha), hd]

theorem submit_accepted {q : Nat} {p : BitVec 512} {s : State} (he : (launchQueue s q).en = true) (hl : (launchQueue s q).packets.length < 256) :
    submit q p false s = enqueue q p s := by
  simp [submit, he, hl]

/-- A partial write, and one to a queue that is disabled or full, counts in DROP below its largest number. -/
theorem submit_dropped {q : Nat} {p : BitVec 512} {partly : Bool} {s : State} (hn : (launchQueue s q).drop.toNat < 255)
    (h : partly = true ∨ (launchQueue s q).en = false ∨ 256 ≤ (launchQueue s q).packets.length) :
    submit q p partly s = setLaunchQueue q { launchQueue s q with drop := (launchQueue s q).drop + 1 } s := by
  have hd : (partly || !(launchQueue s q).en || decide (256 ≤ (launchQueue s q).packets.length)) = true := by simpa [or_assoc] using h
  have hs : (launchQueue s q).drop ≠ BitVec.allOnes 8 := fun e => by simp [e] at hn
  simp only [submit, hd, if_true, if_neg hs]

/-! ### Writes of the host (R405) -/

theorem exec_hostMemWrite {s : State} {c : CellData} (hd : s.arg.data = .cell c) :
    exec .hostMemWrite s = .next (if hostWaits s then tryLater .hostMemWrite s else hostWrite s.arg.a c.bytes s.arg.b s) := by
  show execHostMemWrite s = _
  rw [execHostMemWrite, hd]

/-- A half of a line whose mask is all ones is written whole. -/
theorem putAtom_whole {l k : Nat} {c : BitVec 512} {s : State} (hk : k < 2) :
    putAtom l k c (2 ^ 64 - 1) s = putLocal s (l + 32 * k) (bytesOfNum 32 (bitsOf c (256 * k) 256)) := by
  have hm : fld (2 ^ 64 - 1) (32 * k) 32 = 2 ^ 32 - 1 := by interval_cases k <;> decide
  rw [putAtom, if_pos hm]

theorem hostWrite_whole {h : Nat} {c : BitVec 512} {s : State} (hl : s.host.locked = true)
    (hr : inHdm s (h / 64 * 64) = false ∨ routableLocal s (hostToLocal s (h / 64 * 64)) = true) :
    hostWrite h c (2 ^ 64 - 1) s = putLocal (putLocal s (hostToLocal s (h / 64 * 64)) (bytesOfNum 32 (bitsOf c 0 256)))
      (hostToLocal s (h / 64 * 64) + 32) (bytesOfNum 32 (bitsOf c 256 256)) := by
  have hin : (inHdm s (h / 64 * 64) && !routableLocal s (hostToLocal s (h / 64 * 64))) = false := by
    rcases hr with hr | hr <;> simp [hr]
  simp only [hostWrite, hin, hl, putAtom_whole (k := 0) Nat.two_pos, putAtom_whole (k := 1) Nat.one_lt_two]
  rfl

/-- A write to an unmapped address of the decoder's range is discarded. -/
theorem hostWrite_unmapped {h m : Nat} {c : BitVec 512} {s : State} (hi : inHdm s (h / 64 * 64) = true)
    (hr : routableLocal s (hostToLocal s (h / 64 * 64)) = false) : hostWrite h c m s = s := by
  simp [hostWrite, hi, hr]

/-! ### Reads of the host (R405) -/

theorem exec_hostMemRead_line {s : State} (hb : s.arg.b = 0) :
    exec .hostMemRead s = .next (if hostWaits s then tryLater .hostMemRead s else hostRead s.arg.a s) := by
  show execHostMemRead s = _
  simp only [execHostMemRead, hb]

theorem hostRead_good {h : Nat} {s : State} (hi : inHdm s (h / 64 * 64) = true) (hr : routable s (hostPa s (h / 64 * 64)) = true)
    (hg : memRangeBad s (hostPa s (h / 64 * 64)) 64 = false) :
    hostRead h s = countPhysical (hostPa s (h / 64 * 64)) 64
      { s with hostReads := { bytes := BitVec.ofNat 512 (memNum s (hostPa s (h / 64 * 64)) 64), tag := 0 } :: s.hostReads } := by
  simp [hostRead, hi, hr, hg]

/-- The host gets data-poison for a line that is mapped nowhere. -/
theorem hostRead_lost {h : Nat} {s : State} (hi : inHdm s (h / 64 * 64) = true) (hr : routable s (hostPa s (h / 64 * 64)) = false) :
    hostRead h s = { s with hostReads := { bytes := Config.freeCell s.tick (h / 64 * 64), tag := poisonTag } :: s.hostReads, tick := s.tick + 1 } := by
  simp [hostRead, hi, hr]

theorem hostRead_outside {h : Nat} {s : State} (hi : inHdm s (h / 64 * 64) = false) : hostRead h s = s := by
  simp [hostRead, hi]

/-! ### Reads of the register block (R407, Table 21-2) -/

/-- Eight bytes read at an offset: both fld_halves of the register there. -/
theorem barRead {s : State} {o lo hi : Nat} (hb : s.arg.b = 1) (ho : s.arg.a / 8 * 8 = o) (hl : barDword s o = lo) (hh : barDword s (o + 4) = hi) :
    exec .hostMemRead s = .next { s with barReads := BitVec.ofNat 64 (lo + 2 ^ 32 * hi) :: s.barReads } := by
  show execHostMemRead s = _
  rw [execHostMemRead, hb]
  simp only [readBar, if_true, ho, hl, hh]

/-- The two fld_halves of a doubleword. -/
theorem fld_halves {v : Nat} (h : v < 2 ^ 64) : fld v 0 32 + 2 ^ 32 * fld v 32 32 = v := by
  unfold fld
  omega

theorem barRead_writeOnly {s : State} (hb : s.arg.b = 1) (ho : s.arg.a / 8 * 8 ∈ [0x110, 0x318, 0x4008, 0x10000]) :
    exec .hostMemRead s = .next { s with barReads := 0 :: s.barReads } := by
  have hz : barDword s (s.arg.a / 8 * 8) = 0 ∧ barDword s (s.arg.a / 8 * 8 + 4) = 0 := by
    simp only [List.mem_cons, List.not_mem_nil, or_false] at ho
    rcases ho with ho | ho | ho | ho <;> rw [ho] <;> exact ⟨rfl, rfl⟩
  exact barRead hb rfl hz.1 hz.2

theorem fctlWord_eq (h : HostBlock) : fctlWord h = 4 * h.fail.toNat + 2 * h.locked.toNat := by
  unfold fctlWord
  cases h.fail <;> cases h.locked <;> rfl

theorem barRead_fctl {s : State} (hb : s.arg.b = 1) (ho : s.arg.a / 8 * 8 = 0x40) :
    exec .hostMemRead s = .next { s with barReads := BitVec.ofNat 64 (4 * s.host.fail.toNat + 2 * s.host.locked.toNat) :: s.barReads } := by
  have hlt : fctlWord s.host < 2 ^ 64 := by
    rw [fctlWord_eq]
    have := s.host.fail.toNat_le
    have := s.host.locked.toNat_le
    omega
  rw [barRead (lo := fld (fctlWord s.host) 0 32) (hi := fld (fctlWord s.host) 32 32) hb ho rfl rfl, fld_halves hlt, fctlWord_eq]

theorem barRead_bootaddr {s : State} (hb : s.arg.b = 1) (ho : s.arg.a / 8 * 8 = 0x100) :
    exec .hostMemRead s = .next { s with barReads := s.host.bootaddr :: s.barReads } := by
  rw [barRead (lo := fld s.host.bootaddr.toNat 0 32) (hi := fld s.host.bootaddr.toNat 32 32) hb ho rfl rfl, fld_halves s.host.bootaddr.isLt,
    BitVec.ofNat_toNat, BitVec.setWidth_eq]

/-! ### Writes of the register block (R407, R412) -/

/-- A write of eight bytes to a register that acts when written does what it asks. -/
theorem barWrite_acts {s t : State} {v : Word} {o : Nat} (hd : s.arg.data = .word v) (hb : s.arg.b = 0) (ho : s.arg.a / 8 * 8 = o)
    (ha : writeAction o v.toNat s = some t) : exec .registerWrite s = .next t := by
  show execRegisterWrite s = _
  rw [execRegisterWrite, hd]
  simp only [hb, writeBar, ho, if_true, ha]

/-- A write of four bytes to any other register changes that register. -/
theorem barWrite_dword {s : State} {v : Word} {o : Nat} (hd : s.arg.data = .word v) (hb : s.arg.b = 1) (ho : s.arg.a / 4 * 4 = o)
    (ha : writeAction o (v.toNat % 2 ^ 32) s = none) : exec .registerWrite s = .next (writeDword o (v.toNat % 2 ^ 32) s) := by
  show execRegisterWrite s = _
  rw [execRegisterWrite, hd]
  simp only [hb, writeBar, ho, Bool.false_eq_true, if_false, ha]

theorem writeDword_bootlen (v : Word) (s : State) : writeDword 0x108 (v.toNat % 2 ^ 32) s = s.setHost { s.host with bootlen := BitVec.ofNat 32 v.toNat } := by
  have hf : ∀ h, writeFrozen 0x108 (v.toNat % 2 ^ 32) h = h := fun _ => rfl
  have hm : ∀ h, writeMailbox 0x108 (v.toNat % 2 ^ 32) h = h := fun _ => rfl
  have hv : BitVec.ofNat 32 (v.toNat % 2 ^ 32) = BitVec.ofNat 32 v.toNat := BitVec.eq_of_toNat_eq (by simp)
  rw [← hv]
  simp only [writeDword, hf, hm, ite_self]
  rfl

/-- A busy mailbox ignores a write of MBCMD. -/
theorem writeDword_mbcmd_busy {v : Nat} {s : State} (h : s.host.busy = true) : writeDword 0x300 v s = s := by
  have hf : ∀ h, writeFrozen 0x300 v h = h := fun _ => rfl
  simp only [writeDword, hf, ite_self, h]
  rfl

/-- The lock freezes DOMID. -/
theorem writeDword_domid_locked {v : Nat} {s : State} (h : s.host.locked = true) : writeDword 0x88 v s = s := by
  have hm : ∀ h, writeMailbox 0x88 v h = h := fun _ => rfl
  simp only [writeDword, hm, ite_self, h]
  rfl

/-! ### The host link, events and interrupts (R310, R405, R414) -/

theorem exec_hostLink {s : State} {v : Word} (hd : s.arg.data = .word v) (ha : s.arg.a = 0) :
    exec .linkStateChange s = .next (s.setHost { s.host with
      hostUp := decide (s.arg.b = 1), linkst := BitVec.ofNat 64 (v.toNat % 32 + v.toNat / 2 ^ 8 % 16 * 2 ^ 8) }) := by
  show execLinkStateChange s = _
  simp only [execLinkStateChange, ha, hd, linkChange, bitsOf_low]
  rfl

/-- Without a ring no waiting event is written. -/
theorem drainEvents_noRing {s : State} (h : s.host.evring = none) (n : Nat) : drainEvents n s = s := by
  cases n with
  | zero => rfl
  | succ n => simp only [drainEvents, h]

theorem findEvent_evring (e : EventRec) (s : State) : (findEvent e s).host.evring = s.host.evring := by
  unfold findEvent State.setHost
  dsimp only
  split <;> rfl

/-- A record posted where there is no ring waits, or is lost. -/
theorem exec_eventPost {s : State} {e : EventRec} (hd : s.arg.data = .record e) (hr : s.host.evring = none) : exec .eventPost s = .next (findEvent e s) := by
  show execEventPost s = _
  simp only [execEventPost, hd, drainEvents_noRing ((findEvent_evring e s).trans hr)]

/-- A vector that is not masked is sent. -/
theorem raiseMsix_unmasked {v : Nat} {s : State} (h : s.host.msixMask.getLsbD v = false) :
    raiseMsix v s = s.setHost { s.host with msixSent := v :: s.host.msixSent } := by
  simp [raiseMsix, h, State.setHost]

/-- Clearing a bit clears it. -/
theorem getLsbD_cleared {w v : Nat} (x : BitVec w) (h : v < w) : (x &&& ~~~(BitVec.ofNat w (2 ^ v))).getLsbD v = false := by
  rw [BitVec.getLsbD_and, BitVec.getLsbD_not, BitVec.getLsbD_ofNat, Nat.testBit_two_pow_self]
  simp [h]

/-- Unmasking a vector sends what is held for it. -/
theorem unmask_held {v : Nat} {s : State} (hv : v < 256) (hp : s.host.msixPend.getLsbD v = true) :
    unmask v s = s.setHost { s.host with
      msixMask := s.host.msixMask &&& ~~~(BitVec.ofNat 256 (2 ^ v)), msixPend := s.host.msixPend &&& ~~~(BitVec.ofNat 256 (2 ^ v))
      msixSent := v :: s.host.msixSent } := by
  simp only [unmask, Nat.mod_eq_of_lt hv, hp, if_true]
  exact raiseMsix_unmasked (getLsbD_cleared _ hv)

end Sys2Proof.Machine
end

