-- ==== Sys2Proof/Proofs/HostAndFabricEvents.lean ====
section
/-! O53: the events of the host port and of the fabric. -/

namespace Sys2Proof.Machine

/-! ### Ports (R419, R420) -/

theorem atPort_of_lt {p : Nat} {f : State → State} {s : State} (h : p < 16) : atPort p f s = .next (f s) := if_neg (Nat.not_le.2 h)

/-- An event of a port that the module has happens as what it performs there. -/
theorem happens_of_atPort {i : Instr} {f : EventArg → State → State} {ok : State → Prop} {eff : State → State}
    (hi : ∀ s, exec i s = atPort s.arg.a (f s.arg) s) (h : ∀ s, ok s → f s.arg s = eff s) : happens i (fun s => s.arg.a < 16 ∧ ok s) eff := by
  intro s ⟨ha, ho⟩
  rw [hi, atPort_of_lt ha, h s ho]

theorem retrainEnd_happens {ok : State → Prop} {eff : State → State} (h : ∀ s, ok s → endRetrain s.arg.a s.arg.b s = eff s) :
    happens .retrainEnd (fun s => s.arg.a < 16 ∧ ok s) eff :=
  happens_of_atPort (f := fun x => endRetrain x.a x.b) (fun _ => rfl) h

/-! ### Flits (R419) -/

section Flits
variable {p : Nat} {f : Flit} {s : State}

theorem exec_flitReceive (hd : s.arg.data = .flit f) (hb : s.arg.b ≠ 1) (ha : s.arg.a < 16) : exec .flitReceive s = .next (receiveFlit s.arg.a f s) := by
  show execFlitReceive s = _
  simp only [execFlitReceive, hd, if_neg hb, atPort_of_lt ha]

/-- The port takes flits: the fabric is accepted, and the link is up and not retraining. -/
def portOpen (s : State) (p : Nat) : Prop := fabricOn s = true ∧ (portAt s p).up = true ∧ (portAt s p).retraining = false

theorem portOpen_iff : portOpen s p ↔ (!fabricOn s || !(portAt s p).up || (portAt s p).retraining) = false := by
  simp [portOpen, and_assoc]

/-- A flit that fails its check is answered with a NAK for the SEQ that is expected, once for each failure of that SEQ. -/
theorem receiveFlit_damaged (h : portOpen s p) (hi : f.intact = false) :
    receiveFlit p f s = setPort p { portAt s p with
      nakFor := some (portAt s p).expect
      sent := if (portAt s p).nakFor = some (portAt s p).expect ∧ f.seq ≠ (portAt s p).expect then (portAt s p).sent
        else nakBytes (portAt s p).nextSeq (portAt s p).expect :: (portAt s p).sent } s := by
  simp [receiveFlit, portOpen_iff.1 h, hi]

theorem receiveFlit_disordered (h : portOpen s p) (hi : f.intact = true) (hq : f.seq ≠ (portAt s p).expect) : receiveFlit p f s = s := by
  simp [receiveFlit, portOpen_iff.1 h, hi, hq]

/-- The port after the flit that it expected. -/
def expectsNext (p : Nat) (f : Flit) (s : State) : State :=
  setPort p { portAt s p with expect := (portAt s p).expect + 1, nakFor := none, replay := acknowledge f.ack (portAt s p).replay } s

theorem receiveFlit_expected (h : portOpen s p) (hi : f.intact = true) (hq : f.seq = (portAt s p).expect) :
    receiveFlit p f s = if f.dst.toNat ≠ s.ownModule then { expectsNext p f s with transit := f :: (expectsNext p f s).transit }
      else takeFlit f (expectsNext p f s) := by
  have hgood : ¬(!f.intact) = true := by simp [hi]
  unfold receiveFlit
  dsimp only
  rw [if_neg (Bool.eq_false_iff.1 (portOpen_iff.1 h)), if_neg hgood, if_neg (not_not_intro hq)]
  rfl

/-- A NAK resends its flit and the later ones, and none of them for the sixteenth time. -/
theorem takeNak_resends {q : BitVec 16} (hq : ((portAt s p).replay.any fun f => f.1.seq == q) = true) (hn : ∀ f ∈ (portAt s p).replay, f.2 < 15) :
    takeNak p q s = setPort p { portAt s p with
      replay := ((portAt s p).replay.dropWhile fun f => f.1.seq != q).map fun f => (f.1, f.2 + 1)
      sent := (((portAt s p).replay.dropWhile fun f => f.1.seq != q).map fun f => flitBytes s.tick f.1).reverse ++ (portAt s p).sent } s := by
  have hfew : ((((portAt s p).replay.dropWhile fun f => f.1.seq != q).map fun f => (f.1, f.2 + 1)).any fun f => decide (16 ≤ f.2)) = false := by
    rw [List.any_map, List.any_eq_false]
    intro f hf
    have := hn f (List.dropWhile_sublist _ |>.subset hf)
    simp only [Function.comp_apply, decide_eq_true_eq]
    omega
  simp only [takeNak, hq, hfew, List.map_map]
  rfl

end Flits

/-! ### O53 -/

/-- Settles O53: each event is its function in Machine/Host.lean or Machine/Fabric.lean, and each clause the lemma about that function. -/
theorem hostAndFabricEvents : Obligations.HostAndFabricEvents := by
  unfold Obligations.HostAndFabricEvents
  refine ⟨fun c => ⟨?_, ?_, ?_, ?_, ?_⟩, ?_, ?_, ?_, ?_, ?_, ?_, ?_, fun v => ⟨?_, ?_, ?_, ?_, ?_⟩, fun e s hd hr => ⟨?_, ?_⟩, ?_,
    fun f => ⟨?_, ?_, ?_, ?_⟩, ?_, ?_, ?_, ?_, ?_, ?_, ?_, ?_, ?_, ?_, ?_⟩
  · intro s ⟨ha, hd, hb, he, hl⟩
    rw [exec_lqwin ha hd, hb]
    exact congrArg _ (submit_accepted he hl)
  · intro s ⟨ha, hd, hn, h⟩
    rw [exec_lqwin ha hd, submit_dropped hn (by simpa using h)]
  · intro s ⟨hd, hb, hl, hw, hr⟩
    rw [exec_hostMemWrite hd, hw, hb, if_neg Bool.false_ne_true, hostWrite_whole hl hr]
  · intro s ⟨hd, hw, hi, hr⟩
    rw [exec_hostMemWrite hd, hw, if_neg Bool.false_ne_true, hostWrite_unmapped hi hr, id]
  · intro s ⟨hd, hw⟩
    rw [exec_hostMemWrite hd, hw]
    rfl
  · intro s ⟨hb, hw⟩
    rw [exec_hostMemRead_line hb, hw]
    rfl
  · intro s ⟨hb, hw, hi, hr, hg⟩
    rw [exec_hostMemRead_line hb, hw, if_neg Bool.false_ne_true, hostRead_good hi hr hg]
  · intro s hb hw hi hr
    rw [exec_hostMemRead_line hb, hw, if_neg Bool.false_ne_true, hostRead_lost hi hr]
    exact ⟨_, rfl⟩
  · intro s ⟨hb, hw, hi⟩
    rw [exec_hostMemRead_line hb, hw, if_neg Bool.false_ne_true, hostRead_outside hi, id]
  · exact fun s ⟨hb, ho⟩ => barRead_writeOnly hb ho
  · exact fun s ⟨hb, ho⟩ => barRead_fctl hb ho
  · exact fun s ⟨hb, ho⟩ => barRead_bootaddr hb ho
  · intro s ⟨hd, hb, ho⟩
    rw [barWrite_dword hd hb ho rfl, writeDword_bootlen]
  · exact fun s ⟨hd, hb, ho, hv⟩ => barWrite_acts hd hb ho (congrArg some (if_pos hv))
  · intro s ⟨hd, hb, ho, h⟩
    rw [barWrite_dword hd hb ho rfl, writeDword_mbcmd_busy h, id]
  · intro s ⟨hd, hb, ho, h⟩
    rw [barWrite_dword hd hb ho rfl, writeDword_domid_locked h, id]
  · exact fun s ⟨hd, ha⟩ => exec_hostLink hd ha
  · intro hl
    rw [exec_eventPost hd hr, findEvent, if_neg (Nat.not_le.2 hl)]
  · intro hl
    rw [exec_eventPost hd hr, findEvent, if_pos hl]
  · exact fun s ⟨hv, hp⟩ => congrArg _ (unmask_held hv hp)
  · intro s ⟨hd, hb, ha, hon, hup, hre, hi⟩
    rw [exec_flitReceive hd hb ha, receiveFlit_damaged ⟨hon, hup, hre⟩ hi]
  · intro s ⟨hd, hb, ha, hon, hup, hre, hi, hq⟩
    rw [exec_flitReceive hd hb ha, receiveFlit_disordered ⟨hon, hup, hre⟩ hi hq, id]
  · intro s ⟨hd, hb, ha, hon, hup, hre, hi, hq⟩
    rw [exec_flitReceive hd hb ha, receiveFlit_expected ⟨hon, hup, hre⟩ hi hq]
    rfl
  · intro s ⟨hd, hb⟩
    show execFlitReceive s = _
    simp only [execFlitReceive, hd, if_pos hb]
  · exact happens_of_atPort (f := fun x => takeNak x.a (BitVec.ofNat 16 x.b)) (fun _ => rfl) fun s ⟨hq, hn⟩ => takeNak_resends hq hn
  · exact fun s ha => atPort_of_lt ha
  · refine retrainEnd_happens fun s hb => ?_
    rw [hb]
    rfl
  · refine retrainEnd_happens fun s ⟨hb, hu⟩ => ?_
    rw [hb]
    exact if_pos hu
  · refine retrainEnd_happens fun s ⟨hb, hu⟩ => ?_
    rw [hb]
    exact if_neg (Bool.eq_false_iff.1 hu)
  · refine retrainEnd_happens fun s hb => ?_
    rw [hb]
    rfl
  · exact fun s hm => congrArg _ (leaveDomain_outside hm)
  · exact fun s hm => congrArg _ (leaveDomain_outside hm)
  · refine fun s hm hn => ⟨_, rfl, ?_, leaveDomain_members hm⟩
    show execRouteLossTimeout s = _
    rw [execRouteLossTimeout, Nat.mod_eq_of_lt hn]
  · exact fun s hf hm hn => ⟨_, rfl, joinDomain_members hf hm hn⟩
  · exact fun s hm => congrArg _ (joinDomain_member hm)

end Sys2Proof.Machine
end

