-- ==== Sys2Proof/Proofs/MatrixQueue.lean ====
section
/-! O29: the checks of a command word in their order, then the queue it enters and the counter it adds to. -/

namespace Sys2Proof.Machine

/-! ### Completion counters (R144) -/

theorem setCounter_counters (c v : Nat) (s : State) :
    (setCounter c v s).core.sync.counters = s.core.sync.counters.set (Fin.ofNat 32 c) (BitVec.ofNat 16 v) := rfl

/-- A command that is issued adds one to its counter, modulo 2^16, and to no other. -/
theorem counterUp_counters (c : Nat) (d : Fin 32) (s : State) :
    (counterUp c s).core.sync.counters[d] = if d.val = c % 32 then s.core.sync.counters[d] + 1 else s.core.sync.counters[d] := by
  have hv : BitVec.ofNat 16 (counterAt s c + 1) = s.core.sync.counters[Fin.ofNat 32 c] + 1 := by
    rw [counterAt, BitVec.ofNat_add, BitVec.ofNat_toNat, BitVec.setWidth_eq]
    rfl
  rw [counterUp, setCounter_counters, hv]
  by_cases h : d.val = c % 32
  · obtain rfl : d = Fin.ofNat 32 c := Fin.ext h
    rw [if_pos h]
    exact Vector.getElem_set_self _
  · rw [if_neg h]
    exact Vector.getElem_set_ne _ _ (Ne.symm h)

/-! ### The checks of a word (R231, R232) -/

section Word
variable {m : Matrix} {kind : Nat} {w : Word}

/-- The kind of a command word is its top two bits. -/
theorem bitsOf_kind (w : Word) : bitsOf w 62 2 = w.toNat / 2 ^ 62 := Nat.mod_eq_of_lt (by have := w.isLt; omega)

theorem wordReason_kind (h : w.toNat / 2 ^ 62 ≠ kind) : wordReason m kind w = some 0x01 := if_pos ((bitsOf_kind w).trans_ne h)

theorem wordReason_reserved (h : w.toNat / 2 ^ 62 = kind) (hr : wordReserved w = true) : wordReason m kind w = some 0x02 :=
  (if_neg (not_not_intro ((bitsOf_kind w).trans h))).trans (if_pos hr)

end Word

/-! ### The supervisor region (R230, R369) -/

theorem rangesInSr_none {c : CoreState} {l : List (Nat × Nat)} (h : ∀ r ∈ l, touchesSr c r.1 r.2 = false) : rangesInSr c l = none := by
  rw [rangesInSr, List.find?_eq_none.2 fun r hr => ne_true_of_eq_false (h r hr)]
  rfl

/-- The command of word `w` reads nothing that its stream may not (R230). -/
def mayRead (w : Word) (s : State) : Prop := s.cur.priv = true ∨ ∀ r ∈ wordRanges s.core.mat w, touchesSr s.core r.1 r.2 = false

/-- The start of an issue moves neither the region nor the privilege. -/
theorem mayRead_startIssue {w : Word} {s : State} (h : mayRead w s) : mayRead w (startIssue s) := by
  rw [mayRead, startIssue_cur]
  exact h

/-! ### What a command comes to (R224, R232) -/

section Command
variable {kind : Nat} {w : Word} {s : State}

theorem matCommand_refused {r : Nat} (h : wordReason s.core.mat kind w = some r) : matCommand kind w s = .trap (mkTrap cMatrix r 0) := by
  rw [matCommand, h]
  rfl

theorem matCommand_forbidden {a : Nat} (h : wordReason s.core.mat kind w = none) (hp : s.cur.priv = false)
    (ha : rangesInSr s.core (wordRanges s.core.mat w) = some a) : matCommand kind w s = .trap (mkTrap cPrivilege 0 a) := by
  simp only [matCommand, h, hp, ha, Bool.false_eq_true, if_false, forbidden]

/-- A word in order that reads what it may goes by the room in the queue. -/
theorem matCommand_allowed (h : wordReason s.core.mat kind w = none) (hr : mayRead w s) : matCommand kind w s =
    if matQueueSize ≤ s.core.mat.queue.length then .hold else .done (enterMat w false s) := by
  have hn : (if s.cur.priv = true then none else rangesInSr s.core (wordRanges s.core.mat w)) = none := by
    rcases hr with hp | hr
    · exact if_pos hp
    · rw [rangesInSr_none hr, ite_self]
  simp only [matCommand, h, hn]

theorem matCommand_waits (h : wordReason s.core.mat kind w = none) (hr : mayRead w s) (hq : 32 ≤ s.core.mat.queue.length) :
    matCommand kind w s = .hold := (matCommand_allowed h hr).trans (if_pos hq)

theorem matCommand_enters (h : wordReason s.core.mat kind w = none) (hr : mayRead w s) (hq : s.core.mat.queue.length < 32) :
    matCommand kind w s = .done (enterMat w false s) := (matCommand_allowed h hr).trans (if_neg (Nat.not_le.2 hq))

end Command

/-! ### What entering the queue leaves (R232) -/

section Enter
variable (w : Word) (fol : Bool) (s : State)

theorem enterMat_mat : (enterMat w fol s).core.mat = { s.core.mat with queue := s.core.mat.queue ++
    [{ word := w, abv := s.core.mat.abv, bbv := s.core.mat.bbv, slot := s.core.mat.slot, fol := fol, reload := false }] } := by
  unfold enterMat
  dsimp only
  split <;> rfl

theorem enterMat_sameScratch : sameScratch (enterMat w fol s).core s.core := by
  unfold enterMat
  dsimp only
  split <;> exact sameScratch_refl s.core

/-- The counter that the word names, where it names one, counts the entry. -/
theorem enterMat_counters (c : Fin 32) : (enterMat w fol s).core.sync.counters[c] =
    if w.getLsbD 61 = true ∧ c.val = w.toNat / 2 ^ 56 % 32 then s.core.sync.counters[c] + 1 else s.core.sync.counters[c] := by
  have hc : bitsOf w 56 5 % 32 = w.toNat / 2 ^ 56 % 32 := Nat.mod_mod _ 32
  unfold enterMat
  by_cases h : w.getLsbD 61 = true
  · simp only [bitOf, h, if_true, true_and, counterUp_counters, hc]
    rfl
  · rw [bitOf, if_neg h, if_neg fun hc => h hc.1]
    rfl

end Enter

/-- The three command words issue through `matCommand`, each with its kind. -/
theorem exec_matCommand {o : AP} {i : Instr} {kind : Nat} (h : (i = .mmul o ∧ kind = 0) ∨ (i = .wload o ∧ kind = 1) ∨ (i = .wflip o ∧ kind = 2)) :
    (∀ s, exec i s = issue i (useAP o) (fun s => matCommand kind (rdS s o.a) s) s) ∧ ∀ s, entered i s = startIssue s := by
  rcases h with ⟨rfl, rfl⟩ | ⟨rfl, rfl⟩ | ⟨rfl, rfl⟩
  all_goals exact ⟨fun _ => rfl, fun _ => rfl⟩

/-- Settles O29: the three words share `matCommand`, whose checks come in the order of R232 and end in the queue or in a wait. -/
theorem matrixQueue : Obligations.MatrixQueue := by
  unfold Obligations.MatrixQueue
  intro o i kind hk
  obtain ⟨hi, he⟩ := exec_matCommand hk
  refine ⟨fun s hs => ?_, fun r => ?_, fun a => ?_, fun s hs hw hp hq => ?_, fun m w => wordReason_kind, fun m w => wordReason_reserved⟩
  · intro u w hw hp hq
    have hbody : matCommand kind (rdS (entered i s) o.a) (entered i s) = .done (enterMat w false u) := by
      rw [he]
      exact matCommand_enters hw (mayRead_startIssue hp) hq
    exact ⟨_, (hi s).trans (issue_done hs hbody), enterMat_mat w false u, enterMat_counters w false u, enterMat_sameScratch w false u⟩
  · exact traps_of_body hi fun s hr => matCommand_refused hr
  · exact traps_of_body hi fun s ⟨hw, hp, ha⟩ => matCommand_forbidden hw hp ha
  · have hbody : matCommand kind (rdS (entered i s) o.a) (entered i s) = .hold := by
      rw [he]
      exact matCommand_waits hw (mayRead_startIssue hp) hq
    exact (hi s).trans (issue_hold hs hbody)

end Sys2Proof.Machine
end

