-- ==== Sys2Proof/Proofs/MatrixAndAuditEvents.lean ====
section
/-! O49 fails at one corner: a counter at 0 that counts down stays at 0, and the statement has it wrap round to 2^16 - 1. -/

namespace Sys2Proof.Machine

/-- A counter counts down to 0 and no further. -/
theorem counterDown_counters (c : Nat) (s : State) :
    (counterDown c s).core.sync.counters = s.core.sync.counters.set (Fin.ofNat 32 c) (BitVec.ofNat 16 (counterAt s c - 1)) :=
  congrArg SyncFile.counters (resumeWhere_sync _ (setCounter c (counterAt s c - 1) s))

theorem reset_waitsOn (t : Sec) : waitsOn State.reset t = none := by cases t <;> rfl

theorem counterAt_reset : counterAt State.reset 0 = 0 := rfl

/-- Refutes O49: where no stream waits on a counter, the statement gives the difference modulo 2^16, and the model never counts below 0 (R144).
After reset no stream waits and counter 0 is 0; it stays at 0 in the model, and the statement puts it at 2^16 - 1. -/
theorem not_matrixAndAuditEvents : ¬ Obligations.MatrixAndAuditEvents := by
  unfold Obligations.MatrixAndAuditEvents
  intro h
  obtain ⟨-, -, -, -, -, -, hdown, -⟩ := h
  have hset := hdown 0 State.reset fun t n => (reset_waitsOn t).trans_ne (Option.some_ne_none _).symm
  have hwraps : (counterDown 0 State.reset).core.sync.counters[0] = 0xFFFF := congrArg (fun s : State => s.core.sync.counters[0]) hset
  have hstays : (counterDown 0 State.reset).core.sync.counters[0] = 0 := by
    rw [counterDown_counters, counterAt_reset]
    rfl
  exact absurd (hstays.symm.trans hwraps) (by decide)

end Sys2Proof.Machine
end

