-- ==== Sys2Proof/Proofs/AccumulatorBanks.lean ====
section
/-! O31: MSWAP and MCLR by the queue mark, MSAVE and MREST by the checks that they share; an MREST visits the elements of its area in order, each
at a place of the bank of its own. -/

namespace Sys2Proof.Machine

/-! ### The two banks (R228) -/

@[simp] theorem visBank_setVis (m : Matrix) (b : List (Nat × BitVec 32)) : visBank (setVis m b) = b := by
  rcases h : m.wsel <;> simp [visBank, setVis, h]

@[simp] theorem workBank_setVis (m : Matrix) (b : List (Nat × BitVec 32)) : workBank (setVis m b) = workBank m := by
  rcases h : m.wsel <;> simp [workBank, setVis, h]

/-! ### The queue mark (R240) -/

section Mark
variable {perform : Matrix → Matrix} {s : State}

/-- The test at the queue mark: nothing runs, and no MMUL stands before the mark. -/
theorem mmulsDone_iff (s : State) : (s.core.mat.running.isEmpty
    && (s.core.mat.queue.take (s.core.mat.mark.getD s.core.mat.queue.length)).all fun e => decide (bitsOf e.word 62 2 ≠ 0)) = true ↔ mmulsDone s := by
  simp only [mmulsDone, Bool.and_eq_true, List.isEmpty_iff, List.all_eq_true, decide_eq_true_eq, bitsOf_kind]

theorem marked_done (h : mmulsDone s) : marked perform s = .done (s.setMat { perform s.core.mat with mark := none }) := if_pos ((mmulsDone_iff s).2 h)

theorem marked_waits (h : ¬ mmulsDone s) :
    marked perform s = .jump (s.setMat { s.core.mat with mark := some (s.core.mat.mark.getD s.core.mat.queue.length) }) :=
  if_neg (mt (mmulsDone_iff s).1 h)

end Mark

/-! ### MCLR (R241) -/

/-- What MCLR of operand `a` comes to. -/
def clearBank (a : Word) (s : State) : Eff :=
  let c0 := 128 * bitsOf a 0 3
  let n := 128 * (bitsOf a 3 3 + 1)
  if bitsOf a 9 55 ≠ 0 ∨ bitsOf a 6 2 ≠ 0 then matMisuse 0x02
  else if 1024 < c0 + n then matMisuse 0x07
  else if bitOf a 8 then .done (s.setMat (setVis s.core.mat (clearCols c0 n (visBank s.core.mat))))
  else marked (fun m => setWork m (clearCols c0 n (workBank m))) s

theorem exec_mclr (o : AP) (s : State) : exec (.mclr o) s = issue (.mclr o) (useAP o) (fun s => clearBank (rdS s o.a) s) s := rfl

section Clear
variable {a : Word} {s : State}

theorem clearReserved_iff (a : Word) : bitsOf a 9 55 ≠ 0 ∨ bitsOf a 6 2 ≠ 0 ↔ a.toNat / 2 ^ 9 ≠ 0 ∨ a.toNat / 2 ^ 6 % 4 ≠ 0 := by
  have hlt : a.toNat / 2 ^ 9 < 2 ^ 55 := by omega
  have htop : bitsOf a 9 55 = a.toNat / 2 ^ 9 := Nat.mod_eq_of_lt hlt
  rw [htop]
  rfl

theorem clearBank_reserved (h : a.toNat / 2 ^ 9 ≠ 0 ∨ a.toNat / 2 ^ 6 % 4 ≠ 0) : clearBank a s = .trap (mkTrap cMatrix 0x02 0) :=
  if_pos ((clearReserved_iff a).2 h)

/-- An operand with no reserved bit is judged by its columns, then its bank bit. -/
theorem clearBank_columns (h9 : a.toNat / 2 ^ 9 = 0) (h6 : a.toNat / 2 ^ 6 % 4 = 0) : clearBank a s =
    if 8 < a.toNat % 8 + (a.toNat / 8 % 8 + 1) then matMisuse 0x07
    else if a.getLsbD 8 then
      .done (s.setMat (setVis s.core.mat (clearCols (128 * (a.toNat % 8)) (128 * (a.toNat / 8 % 8 + 1)) (visBank s.core.mat))))
    else marked (fun m => setWork m (clearCols (128 * (a.toNat % 8)) (128 * (a.toNat / 8 % 8 + 1)) (workBank m))) s := by
  have hz : ¬(bitsOf a 9 55 ≠ 0 ∨ bitsOf a 6 2 ≠ 0) := by rw [clearReserved_iff]; omega
  have hfirst : bitsOf a 0 3 = a.toNat % 8 := bitsOf_low a 3
  have hcount : bitsOf a 3 3 = a.toNat / 8 % 8 := rfl
  have hend : 1024 < 128 * (a.toNat % 8) + 128 * (a.toNat / 8 % 8 + 1) ↔ 8 < a.toNat % 8 + (a.toNat / 8 % 8 + 1) := by omega
  simp only [clearBank, if_neg hz, hfirst, hcount, hend, bitOf]

theorem clearBank_beyond (h9 : a.toNat / 2 ^ 9 = 0) (h6 : a.toNat / 2 ^ 6 % 4 = 0) (hc : 8 < a.toNat % 8 + (a.toNat / 8 % 8 + 1)) :
    clearBank a s = .trap (mkTrap cMatrix 0x07 0) := (clearBank_columns h9 h6).trans (if_pos hc)

theorem clearBank_visible (h9 : a.toNat / 2 ^ 9 = 0) (h6 : a.toNat / 2 ^ 6 % 4 = 0) (h8 : a.getLsbD 8 = true)
    (hc : a.toNat % 8 + (a.toNat / 8 % 8 + 1) ≤ 8) : clearBank a s =
    .done (s.setMat (setVis s.core.mat (clearCols (128 * (a.toNat % 8)) (128 * (a.toNat / 8 % 8 + 1)) (visBank s.core.mat)))) := by
  rw [clearBank_columns h9 h6, if_neg (Nat.not_lt.2 hc), if_pos h8]

theorem clearBank_working (h6 : a.toNat / 2 ^ 6 = 0) (hc : a.toNat % 8 + (a.toNat / 8 % 8 + 1) ≤ 8) :
    clearBank a s = marked (fun m => setWork m (clearCols (128 * (a.toNat % 8)) (128 * (a.toNat / 8 % 8 + 1)) (workBank m))) s := by
  have h8 : a.getLsbD 8 = false := Nat.testBit_lt_two_pow (by omega)
  rw [clearBank_columns (by omega) (by omega), if_neg (Nat.not_lt.2 hc), h8, if_neg Bool.false_ne_true]

end Clear

/-! ### The checks of MSAVE and MREST (R230, R242) -/

section Area
variable {a b : Word} {f : Nat → Nat → Nat → Eff} {s : State}

theorem areaReserved_iff (a b : Word) :
    bitsOf b 6 58 ≠ 0 ∨ bitsOf a 22 42 ≠ 0 ∨ bitsOf a 0 6 ≠ 0 ↔ a.toNat % 64 ≠ 0 ∨ 2 ^ 22 ≤ a.toNat ∨ 64 ≤ b.toNat := by
  have hb : bitsOf b 6 58 = b.toNat / 2 ^ 6 % 2 ^ 58 := rfl
  have ha : bitsOf a 22 42 = a.toNat / 2 ^ 22 % 2 ^ 42 := rfl
  rw [hb, ha, bitsOf_low]
  omega

theorem bankArea_reserved (h : a.toNat % 64 ≠ 0 ∨ 2 ^ 22 ≤ a.toNat ∨ 64 ≤ b.toNat) : bankArea a b f s = .trap (mkTrap cMatrix 0x02 0) :=
  if_pos ((areaReserved_iff a b).2 h)

/-- Operands with no reserved bit name the area itself, the first column and the number of columns. -/
theorem bankArea_fields (ha : a.toNat < 2 ^ 22) (hal : a.toNat % 64 = 0) (hb : b.toNat < 64) : bankArea a b f s =
    if 2 ^ 22 < a.toNat + 256 * (128 * (b.toNat / 8 + 1)) then matMisuse 0x05
    else if 1024 < 128 * (b.toNat % 8) + 128 * (b.toNat / 8 + 1) then matMisuse 0x07
    else if !s.cur.priv && touchesSr s.core a.toNat (256 * (128 * (b.toNat / 8 + 1))) then forbidden (firstInSr s.core a.toNat)
    else f a.toNat (128 * (b.toNat % 8)) (128 * (b.toNat / 8 + 1)) := by
  have hz : ¬(bitsOf b 6 58 ≠ 0 ∨ bitsOf a 22 42 ≠ 0 ∨ bitsOf a 0 6 ≠ 0) := by
    rw [areaReserved_iff]
    omega
  have hbase : bitsOf a 6 16 * 64 = a.toNat := by
    have h : bitsOf a 6 16 = a.toNat / 2 ^ 6 % 2 ^ 16 := rfl
    omega
  have hfirst : bitsOf b 0 3 = b.toNat % 8 := bitsOf_low b 3
  have hcount : bitsOf b 3 3 = b.toNat / 8 := Nat.mod_eq_of_lt (by omega)
  have hsize : spadSize = 2 ^ 22 := rfl
  simp only [bankArea, if_neg hz, hbase, hfirst, hcount, hsize]

section Aligned
variable (ha : a.toNat < 2 ^ 22) (hal : a.toNat % 64 = 0) (hb : b.toNat < 64)
include ha hal hb

theorem bankArea_beyond (he : 2 ^ 22 < a.toNat + 256 * (128 * (b.toNat / 8 + 1))) : bankArea a b f s = .trap (mkTrap cMatrix 0x05 0) :=
  (bankArea_fields ha hal hb).trans (if_pos he)

theorem bankArea_columns (he : a.toNat + 256 * (128 * (b.toNat / 8 + 1)) ≤ 2 ^ 22) (hc : 1024 < 128 * (b.toNat % 8) + 128 * (b.toNat / 8 + 1)) :
    bankArea a b f s = .trap (mkTrap cMatrix 0x07 0) := by
  rw [bankArea_fields ha hal hb, if_neg (Nat.not_lt.2 he), if_pos hc]
  rfl

theorem bankArea_forbidden (he : a.toNat + 256 * (128 * (b.toNat / 8 + 1)) ≤ 2 ^ 22) (hc : 128 * (b.toNat % 8) + 128 * (b.toNat / 8 + 1) ≤ 1024)
    (hp : s.cur.priv = false) (ht : touchesSr s.core a.toNat (256 * (128 * (b.toNat / 8 + 1))) = true) :
    bankArea a b f s = .trap (mkTrap cPrivilege 0 (max a.toNat (srLow s.core))) := by
  rw [bankArea_fields ha hal hb, if_neg (Nat.not_lt.2 he), if_neg (Nat.not_lt.2 hc), hp, ht]
  rfl

end Aligned

/-- An allowed area is handed on with its base, its first column and its number of columns. -/
theorem bankArea_allowed (h : bankAreaOk s a b) : bankArea a b f s = f (a.toNat % 2 ^ 22) (128 * (b.toNat % 8)) (128 * (b.toNat / 8 + 1)) := by
  obtain ⟨ha, hal, hb, he, hc, hr⟩ := h
  rw [Nat.mod_eq_of_lt ha] at he hr ⊢
  rw [bankArea_fields ha hal hb, if_neg (Nat.not_lt.2 he), if_neg (Nat.not_lt.2 hc), mayTouch hr, if_neg Bool.false_ne_true]

end Area

/-! ### The elements that MREST reads (R242) -/

/-- What holds of the start and passes from each index to the next holds at the end of a fold over a range. -/
theorem foldl_range_induction {β : Type} {f : β → Nat → β} {P : Nat → β → Prop} {n : Nat} {b : β} (h0 : P 0 b)
    (hs : ∀ i b, i < n → P i b → P (i + 1) (f b i)) : P n ((List.range n).foldl f b) := by
  induction n with
  | zero => exact h0
  | succ n ih =>
    rw [List.range_succ, List.foldl_append]
    exact hs n _ n.lt_succ_self (ih fun i b hi => hs i b (hi.trans n.lt_succ_self))

/-- The place in the bank of element `q` of an area (R242). -/
def areaKey (cb nc q : Nat) : Nat := bankKey (q / nc) (cb + q % nc)

/-- Two elements of an area have two places, where its columns lie in the bank. -/
theorem areaKey_injective {cb nc : Nat} (hn : 0 < nc) (hc : cb + nc ≤ 1024) : Function.Injective (areaKey cb nc) := by
  intro p q h
  have hp := Nat.mod_lt p hn
  have hq := Nat.mod_lt q hn
  have h : 1024 * (p / nc) + (cb + p % nc) = 1024 * (q / nc) + (cb + q % nc) := h
  have hrow : p / nc = q / nc := by omega
  have hcol : p % nc = q % nc := by omega
  rw [← Nat.div_add_mod p nc, ← Nat.div_add_mod q nc, hrow, hcol]

/-- Element `q` of the area at `base`, as MREST reads it: 16 elements lie in each cell. -/
def areaElement (v : CoreState) (base q : Nat) : F32 := restoreElement (spadCell v (base + 64 * (q / 16))) (q % 16)

/-- The first `q` elements of an area stand in bank `b`. -/
def restoredTo (v : CoreState) (base cb nc q : Nat) (b : List (Nat × BitVec 32)) : Prop :=
  sparseWf (0 : BitVec 32) 0 b = true ∧ ∀ p < q, sparseGet 0 b (areaKey cb nc p) = (areaElement v base p).code

section Restore
variable {v : CoreState} {base cb nc q : Nat} {b : List (Nat × BitVec 32)}

/-- The next element goes to a place of its own and keeps those before it. -/
theorem restoredTo_succ (hn : 0 < nc) (hc : cb + nc ≤ 1024) (h : restoredTo v base cb nc q b) :
    restoredTo v base cb nc (q + 1) (sparsePut 0 b (areaKey cb nc q) (areaElement v base q).code) := by
  obtain ⟨hwf, hget⟩ := h
  refine ⟨sparsePut_wf hwf (Nat.zero_le _), fun p hp => ?_⟩
  rcases Nat.lt_succ_iff_lt_or_eq.1 hp with hlt | rfl
  · rw [sparseGet_put_ne ((areaKey_injective hn hc).ne hlt.ne)]
    exact hget p hlt
  · exact sparseGet_put hwf

/-- The bank and the flags after cell `i` of the area is read. -/
def restoreCell (v : CoreState) (base cb nc : Nat) (acc : List (Nat × BitVec 32) × FlagSet) (i : Nat) : List (Nat × BitVec 32) × FlagSet :=
  ((List.range 16).zip (areaKeys cb nc i)).foldl (fun acc p =>
    let e := restoreElement (spadCell v (base + 64 * i)) p.1
    (sparsePut 0 acc.1 p.2 e.code, acc.2 ||| e.flags)) acc

/-- A cell is its 16 elements in order. -/
theorem restoreCell_eq (acc : List (Nat × BitVec 32) × FlagSet) (i : Nat) : restoreCell v base cb nc acc i =
    (List.range 16).foldl (fun acc u =>
      let e := restoreElement (spadCell v (base + 64 * i)) u
      (sparsePut 0 acc.1 (areaKey cb nc (16 * i + u)) e.code, acc.2 ||| e.flags)) acc := by
  have hzip : (List.range 16).zip (areaKeys cb nc i) = (List.range 16).map fun u => (u, areaKey cb nc (16 * i + u)) := rfl
  rw [restoreCell, hzip, List.foldl_map]

theorem areaElement_cell {i u : Nat} (hu : u < 16) : areaElement v base (16 * i + u) = restoreElement (spadCell v (base + 64 * i)) u := by
  have hcell : (16 * i + u) / 16 = i := by omega
  have helem : (16 * i + u) % 16 = u := by omega
  rw [areaElement, hcell, helem]

/-- A cell read after the first `i` cells leaves the first `i + 1` restored. -/
theorem restoreCell_restored (hn : 0 < nc) (hc : cb + nc ≤ 1024) {acc : List (Nat × BitVec 32) × FlagSet} {i : Nat}
    (h : restoredTo v base cb nc (16 * i) acc.1) : restoredTo v base cb nc (16 * (i + 1)) (restoreCell v base cb nc acc i).1 := by
  rw [restoreCell_eq]
  refine foldl_range_induction (P := fun u (acc : List (Nat × BitVec 32) × FlagSet) => restoredTo v base cb nc (16 * i + u) acc.1) h fun u acc hu h => ?_
  have hnext := restoredTo_succ hn hc h
  rwa [areaElement_cell hu] at hnext

/-- The bank and the flags after the `n` cells of an area are read. -/
def restoreCells (v : CoreState) (base cb nc n : Nat) (b : List (Nat × BitVec 32)) : List (Nat × BitVec 32) × FlagSet :=
  (List.range n).foldl (restoreCell v base cb nc) (b, 0)

theorem restoreCells_restored (hn : 0 < nc) (hc : cb + nc ≤ 1024) (hb : sparseWf (0 : BitVec 32) 0 b = true) (n : Nat) :
    restoredTo v base cb nc (16 * n) (restoreCells v base cb nc n b).1 :=
  foldl_range_induction (P := fun i (acc : List (Nat × BitVec 32) × FlagSet) => restoredTo v base cb nc (16 * i) acc.1)
    ⟨hb, fun _ hp => absurd hp (Nat.not_lt_zero _)⟩ fun _ _ _ => restoreCell_restored hn hc

end Restore

/-! ### MREST (R242) -/

/-- The state after the area is restored into the visible bank. -/
def bankRestored (base cb nc : Nat) (s : State) : State :=
  let t := sawScratch 0 base (256 * nc) s
  let r := restoreCells (s.viewed 0) base cb nc (4 * nc) (visBank t.core.mat)
  accrueTo .mat r.2 (t.setMat (setVis t.core.mat r.1))

/-- What MREST of an allowed area comes to. -/
def restoreBank (s : State) (base cb nc : Nat) : Eff :=
  match restoreTrap s base (4 * nc) with
  | some r => loadFails r.addr.toNat r s
  | none => .done (bankRestored base cb nc s)

theorem exec_mrest (o : ABP) (s : State) :
    exec (.mrest o) s = issue (.mrest o) (useABP o) (fun s => bankArea (rdS s o.a) (rdS s o.b) (restoreBank s) s) s := rfl

theorem restoreBank_none {s : State} {base cb nc : Nat} (h : restoreTrap s base (4 * nc) = none) :
    restoreBank s base cb nc = .done (bankRestored base cb nc s) := by simp only [restoreBank, h]

theorem restoreBank_some {s : State} {base cb nc : Nat} {r : TrapRec} (h : restoreTrap s base (4 * nc) = some r) :
    restoreBank s base cb nc = loadFails r.addr.toNat r s := by simp only [restoreBank, h]

theorem bankRestored_mat (base cb nc : Nat) (s : State) : (bankRestored base cb nc s).core.mat =
    setVis s.core.mat (restoreCells (s.viewed 0) base cb nc (4 * nc) (visBank s.core.mat)).1 := rfl

theorem bankRestored_sameScratch (base cb nc : Nat) (s : State) : sameScratch (bankRestored base cb nc s).core s.core := ⟨rfl, rfl, rfl⟩

/-- A load that fails in a sound line, or of another cause than poison, takes the trap alone (Table 5-4). -/
theorem loadFails_sound {a : Nat} {r : TrapRec} {s : State} (h : r.cause ≠ cPoison ∨ spadIsBad s.core a = false) : loadFails a r s = .trap r := by
  refine if_neg fun hc => ?_
  rw [Bool.and_eq_true, decide_eq_true_eq] at hc
  rcases h with h | h
  · exact h hc.1
  · exact ne_true_of_eq_false h hc.2

/-- One that meets poison in an uncorrectable line reports the line (Table 5-4, R190). -/
theorem loadFails_reports {a : Nat} {r : TrapRec} {s : State} (hr : r.cause = cPoison) (hb : spadIsBad s.core a = true) :
    loadFails a r s = .trapIn (reportLine a s) r := by simp [loadFails, hr, hb]

/-- An area of `128 n` columns has four cells for each of them. -/
theorem cells_of_columns (n : Nat) : 512 * n = 4 * (128 * n) := Nat.mul_assoc 4 128 n

section Allowed
variable {a b : Word} {s : State} (h : bankAreaOk s a b)
include h

theorem mrest_restores (hr : restoreTrap s (a.toNat % 2 ^ 22) (512 * (b.toNat / 8 + 1)) = none) : bankArea a b (restoreBank s) s =
    .done (bankRestored (a.toNat % 2 ^ 22) (128 * (b.toNat % 8)) (128 * (b.toNat / 8 + 1)) s) := by
  rw [bankArea_allowed h]
  rw [cells_of_columns] at hr
  exact restoreBank_none hr

theorem mrest_fails {r : TrapRec} (hr : restoreTrap s (a.toNat % 2 ^ 22) (512 * (b.toNat / 8 + 1)) = some r) :
    bankArea a b (restoreBank s) s = loadFails r.addr.toNat r s := by
  rw [bankArea_allowed h]
  rw [cells_of_columns] at hr
  exact restoreBank_some hr

/-- Every element of the area stands at its place of the visible bank. -/
theorem bankRestored_element (hb : sparseWf (0 : BitVec 32) 0 (visBank s.core.mat) = true) {i u : Nat} (hi : i < 512 * (b.toNat / 8 + 1)) (hu : u < 16) :
    sparseGet 0 (visBank (bankRestored (a.toNat % 2 ^ 22) (128 * (b.toNat % 8)) (128 * (b.toNat / 8 + 1)) s).core.mat)
        (areaKey (128 * (b.toNat % 8)) (128 * (b.toNat / 8 + 1)) (16 * i + u))
      = (restoreElement (spadCell (s.viewed 0) (a.toNat % 2 ^ 22 + 64 * i)) u).code := by
  obtain ⟨-, -, -, -, hc, -⟩ := h
  obtain ⟨-, hget⟩ := restoreCells_restored (v := s.viewed 0) (base := a.toNat % 2 ^ 22) (by omega) hc hb (4 * (128 * (b.toNat / 8 + 1)))
  rw [bankRestored_mat, visBank_setVis, hget (16 * i + u) (by omega), areaElement_cell hu]

end Allowed

/-- MSAVE and MREST judge their area before all else. -/
theorem exec_bankArea {o : ABP} {i : Instr} (h : i ∈ [Instr.msave o, .mrest o]) : ∃ f : State → Nat → Nat → Nat → Eff,
    ∀ s, exec i s = issue i (useABP o) (fun s => bankArea (rdS s o.a) (rdS s o.b) (f s) s) s := by
  simp only [List.mem_cons, List.not_mem_nil, or_false] at h
  rcases h with rfl | rfl
  all_goals exact ⟨_, fun _ => rfl⟩

/-- Settles O31: the words of the queue mark by `marked`, the words of an area by `bankArea`, and MREST by the elements that it has restored. -/
theorem accumulatorBanks : Obligations.AccumulatorBanks := by
  unfold Obligations.AccumulatorBanks
  refine ⟨fun o => ⟨?_, ?_⟩, fun o => ⟨?_, ?_, ?_, ?_, ?_⟩, fun o => ⟨?_, fun s hs ha hr hb => ?_, fun r => ?_, fun r => ?_, fun i hi => ?_⟩,
    fun d u _ hf => congrArg F32.code (if_pos (Or.inl hf))⟩
  · exact performs_of_body (fun _ => rfl) fun s => marked_done
  · exact transfers_of_body (fun _ => rfl) fun s => marked_waits
  · exact performs_of_body (exec_mclr o) fun s ⟨h9, h6, h8, hc⟩ => clearBank_visible h9 h6 h8 hc
  · exact performs_of_body (exec_mclr o) fun s ⟨h6, hc, hd⟩ => (clearBank_working h6 hc).trans (marked_done hd)
  · exact transfers_of_body (exec_mclr o) fun s ⟨h6, hc, hd⟩ => (clearBank_working h6 hc).trans (marked_waits hd)
  · exact traps_of_body (exec_mclr o) fun s => clearBank_reserved
  · exact traps_of_body (exec_mclr o) fun s ⟨h9, h6, hc⟩ => clearBank_beyond h9 h6 hc
  · exact performs_of_body (fun _ => rfl) fun s h => bankArea_allowed h
  · exact ⟨_, (exec_mrest o s).trans (issue_done hs (mrest_restores ha hr)), (congrArg workBank (bankRestored_mat ..)).trans (workBank_setVis ..),
      bankRestored_sameScratch _ _ _ (startIssue s), fun i u hi hu => bankRestored_element ha hb hi hu⟩
  · exact traps_of_body (exec_mrest o) fun s ⟨ha, hr, hs⟩ => (mrest_fails ha hr).trans (loadFails_sound hs)
  · exact trapsIn_of_body (exec_mrest o) fun s ⟨ha, hr, hc, hb⟩ => (mrest_fails ha hr).trans (loadFails_reports hc hb)
  · obtain ⟨f, hf⟩ := exec_bankArea hi
    exact ⟨traps_of_body hf fun s => bankArea_reserved, traps_of_body hf fun s ⟨ha, hal, hb, he⟩ => bankArea_beyond ha hal hb he,
      traps_of_body hf fun s ⟨ha, hal, hb, he, hc⟩ => bankArea_columns ha hal hb he hc,
      traps_of_body hf fun s ⟨ha, hal, hb, he, hc, hp, ht⟩ => bankArea_forbidden ha hal hb he hc hp ht⟩

end Sys2Proof.Machine
end

