-- ==== Sys2Proof/Proofs/VectorRules.lean ====
section
/-! How a statement about a word of the vector engine follows from its body, and what the lanes and masks of an image read as: the layer that
the statements of chapter 13 share. -/

namespace Sys2Proof.Machine

/-! ### The engine (R250) -/

section Engine
variable {n : Nat} {f : State → Eff} {s t : State} {r : TrapRec}

theorem onEngine_busy (h : s.cur.clk < s.core.vec.busy) : onEngine n f s = .hold := if_pos h

theorem onEngine_done (h : s.core.vec.busy ≤ s.cur.clk) (hf : f s = .done t) : onEngine n f s = .done (occupied n s t) := by
  rw [onEngine, if_neg (Nat.not_lt.2 h), hf]
  rfl

theorem onEngine_trap (h : s.core.vec.busy ≤ s.cur.clk) (hf : f s = .trap r) : onEngine n f s = .trap r := by
  rw [onEngine, if_neg (Nat.not_lt.2 h), hf]

end Engine

section OverShape
variable {body : Shape → State → Eff} {s t : State} {r : TrapRec}

theorem vectorOp_busy (h : s.cur.clk < s.core.vec.busy) : vectorOp body s = .hold := onEngine_busy h

theorem vectorOp_done (h : s.core.vec.busy ≤ s.cur.clk) (hb : body (shapeOf s) s = .done t) :
    vectorOp body s = .done (occupied (occupancy (shapeOf s)) s t) := onEngine_done h hb

theorem vectorOp_trap (h : s.core.vec.busy ≤ s.cur.clk) (hb : body (shapeOf s) s = .trap r) : vectorOp body s = .trap r := onEngine_trap h hb

end OverShape

theorem entered_startIssue {i : Instr} (h : acquires i = none) (s : State) : entered i s = startIssue s := by rw [entered, h]

section Word
variable {i : Instr} {u : Use} {body : State → Eff}

/-- A word that is no acquire stalls where its body does. -/
theorem stallsBusy_of_body (ha : acquires i = none) (hi : ∀ s, exec i s = issue i u body s)
    (hb : ∀ s, s.cur.clk < s.core.vec.busy → body s = .hold) : stallsBusy i u := by
  intro s hs
  rw [← entered_startIssue ha]
  exact fun hc => (hi s).trans (issue_hold hs (hb _ hc))

theorem vectorDoesFor_of_body {n : Shape → State → Nat} {ok : Shape → State → Prop} {eff : Shape → State → State}
    (hi : ∀ s, exec i s = issue i u body s)
    (hb : ∀ s, s.core.vec.busy ≤ s.cur.clk → ok (shapeOf s) s → body s = .done (occupied (n (shapeOf s) s) s (eff (shapeOf s) s))) :
    vectorDoesFor i u n ok eff := performs_of_body hi fun s ⟨hf, ho⟩ => hb s hf ho

theorem vectorDoes_of_body {n : Shape → Nat} {ok : Shape → State → Prop} {eff : Shape → State → State} (hi : ∀ s, exec i s = issue i u body s)
    (hb : ∀ s, s.core.vec.busy ≤ s.cur.clk → ok (shapeOf s) s → body s = .done (occupied (n (shapeOf s)) s (eff (shapeOf s) s))) :
    vectorDoes i u n ok eff := vectorDoesFor_of_body hi hb

/-- A trap that the free engine raises. -/
theorem vectorTraps_of_body {bad : State → Prop} {r : State → TrapRec} (hi : ∀ s, exec i s = issue i u body s)
    (hb : ∀ s, s.core.vec.busy ≤ s.cur.clk → bad s → body s = .trap (r s)) : traps i u (fun s => s.core.vec.busy ≤ s.cur.clk ∧ bad s) r :=
  traps_of_body hi fun s ⟨hf, hs⟩ => hb s hf hs

end Word

/-! ### The type check (Table 13-4) -/

theorem permit_ok {ok : Bool} (e : Eff) (h : ok = true) : permit ok e = e := if_pos h

theorem permit_refused {ok : Bool} (e : Eff) (h : ok = false) : permit ok e = .trap (mkTrap 0x0B 0x02 0) := if_neg (ne_true_of_eq_false h)

theorem vtFloat_iff {t : Nat} : vtFloat t = true ↔ t ≤ 2 := decide_eq_true_iff

theorem vtFloat_false_iff {t : Nat} : vtFloat t = false ↔ 2 < t := by rw [vtFloat, decide_eq_false_iff_not, Nat.not_le]

section Check
variable {ok : Bool} {c r : Nat} {e : Eff}

/-- A word that passes the check of its control word goes on. -/
theorem checked_ok (h : ok = true) : (if !ok then misuse c r else e) = e := by
  rw [h]
  rfl

theorem checked_refused (h : ok = false) : (if !ok then misuse c r else e) = .trap (mkTrap c r 0) := by
  rw [h]
  rfl

end Check

/-! ### Fields of a word, and bits of a mask (R249) -/

/-- A field of a word kept in a register of its width. -/
theorem ofNat_bitsOf {w : Nat} (x : BitVec w) (lo n : Nat) : BitVec.ofNat n (bitsOf x lo n) = BitVec.ofNat n (x.toNat / 2 ^ lo) :=
  BitVec.eq_of_toNat_eq (Nat.mod_mod _ _)

/-- The bit of a number is that of the library. -/
theorem flag_eq_testBit : flag = Nat.testBit := by
  funext x l
  rw [Nat.testBit_eq_decide_div_mod_eq]
  rfl

theorem selected_eq_testBit : selected = Nat.testBit := flag_eq_testBit

/-- The length of a list of lanes is their number. -/
theorem length_filter_range {n : Nat} {p : Nat → Bool} {q : Nat → Prop} [DecidablePred q] (h : ∀ l, p l = true ↔ q l) :
    ((List.range n).filter p).length = ((Finset.range n).filter q).card := by
  rw [← List.toFinset_card_of_nodup (List.nodup_range.filter p)]
  congr 1
  ext l
  simp [h]

/-! ### Lanes of an image (R248) -/

section Lanes
variable (w c x l : Nat)

theorem two_pow_lane_succ : 2 ^ (w * (l + 1)) = 2 ^ w * 2 ^ (w * l) := by
  rw [Nat.mul_succ, Nat.add_comm, Nat.pow_add]

theorem laneOf_first : laneOf (c % 2 ^ w + 2 ^ w * x) w 0 = c % 2 ^ w := by
  simp [laneOf, fld]

theorem laneOf_next : laneOf (c % 2 ^ w + 2 ^ w * x) w (l + 1) = laneOf x w l := by
  have hrest : (c % 2 ^ w + 2 ^ w * x) / 2 ^ w = x := by
    rw [Nat.add_mul_div_left _ _ (Nat.two_pow_pos w), Nat.div_eq_of_lt (Nat.mod_lt _ (Nat.two_pow_pos w)), Nat.zero_add]
  rw [laneOf, fld, two_pow_lane_succ, ← Nat.div_div_eq_div_mul, hrest]
  rfl

theorem laneOf_zero : laneOf 0 w l = 0 := by simp [laneOf, fld]

theorem laneOf_mod : laneOf x w l % 2 ^ w = laneOf x w l := Nat.mod_mod _ _

end Lanes

/-- Packed lanes fit in their bits. -/
theorem packLanes_lt (w : Nat) (f : Nat → Nat) : ∀ n k, packLanes w f n k < 2 ^ (w * n)
  | 0, _ => Nat.two_pow_pos _
  | n + 1, k => calc
      f k % 2 ^ w + 2 ^ w * packLanes w f n (k + 1)
        < 2 ^ w * (packLanes w f n (k + 1) + 1) := by
          rw [Nat.mul_succ, Nat.add_comm]
          exact Nat.add_lt_add_left (Nat.mod_lt _ (Nat.two_pow_pos w)) _
      _ ≤ 2 ^ w * 2 ^ (w * n) := Nat.mul_le_mul_left _ (packLanes_lt w f n (k + 1))
      _ = 2 ^ (w * (n + 1)) := (two_pow_lane_succ w n).symm

/-- Lane l of packed lanes, whatever stands above them. -/
theorem laneOf_packLanes (w : Nat) (f : Nat → Nat) (t : Nat) : ∀ {n l} (k : Nat), l < n →
    laneOf (packLanes w f n k + t * 2 ^ (w * n)) w l = f (k + l) % 2 ^ w
  | n + 1, l, k, h => by
    have hcons : packLanes w f (n + 1) k + t * 2 ^ (w * (n + 1)) = f k % 2 ^ w + 2 ^ w * (packLanes w f n (k + 1) + t * 2 ^ (w * n)) := by
      rw [packLanes, two_pow_lane_succ]
      ring
    rw [hcons]
    cases l with
    | zero => exact laneOf_first w (f k) _
    | succ l =>
      rw [laneOf_next, laneOf_packLanes w f t (k + 1) (Nat.lt_of_succ_lt_succ h), Nat.add_right_comm, Nat.add_assoc]

/-- What stands above packed lanes. -/
theorem packLanes_above (w : Nat) (f : Nat → Nat) (n k t : Nat) : (packLanes w f n k + t * 2 ^ (w * n)) / 2 ^ (w * n) = t := by
  rw [Nat.add_mul_div_right _ _ (Nat.two_pow_pos _), Nat.div_eq_of_lt (packLanes_lt w f n k), Nat.zero_add]

end Sys2Proof.Machine
end

