-- ==== Sys2Proof/Proofs/LaneResults.lean ====
section
/-! O33: a result is its packed lanes under the tail of the old image, and a write changes one register or moves the queue. -/

namespace Sys2Proof.Machine

/-- The image that a result is written over (R249): zero for a push. -/
def oldImage (s : State) : VDst → Nat
  | .push => 0
  | .v i => (s.core.vec.v[i]).val.toNat

theorem laneResult_eq (d : VDst) (h : Shape) (m : Nat) (f : Nat → Nat) (s : State) : laneResult d h m f s =
    packLanes h.w (fun l => if m.testBit l then f l else laneOf (oldImage s d) h.w l) h.lanes 0
      + oldImage s d / 2 ^ (h.w * h.lanes) * 2 ^ (h.w * h.lanes) := by
  rw [← selected_eq_testBit]
  cases d <;> rfl

/-- Lane l of a result is new where the mask selects it and old elsewhere. -/
theorem laneOf_laneResult {d : VDst} {h : Shape} {m l : Nat} {f : Nat → Nat} {s : State} (hl : l < h.lanes) :
    laneOf (laneResult d h m f s) h.w l = if m.testBit l then f l % 2 ^ h.w else laneOf (oldImage s d) h.w l := by
  rw [laneResult_eq, laneOf_packLanes _ _ _ _ hl, Nat.zero_add]
  split
  · rfl
  · exact laneOf_mod _ _ _

theorem wrV_v (i : Fin 24) (x b : Nat) (s : State) :
    (wrV (.v i) x b s).core.vec.v = s.core.vec.v.set i { val := BitVec.ofNat 131072 x, ready := s.cur.clk + b } := rfl

theorem wrV_push (x b : Nat) (s : State) :
    (wrV .push x b s).core.vec.vq = pushSlot s.core.vec.vq { val := BitVec.ofNat 131072 x, ready := s.cur.clk + b } := rfl

/-- The entry after entry k of the queue. -/
theorem succ_of_queue (k : Fin 15) : (Fin.ofNat 16 (k.val + 1)).val = (Fin.ofNat 16 k.val).val + 1 := by
  rw [Fin.val_ofNat, Fin.val_ofNat]
  omega

/-- Settles O33: the lanes and the tail of `laneResult`, then the register or the queue that `wrV` writes. -/
theorem laneResults : Obligations.LaneResults := by
  unfold Obligations.LaneResults
  refine ⟨fun d h m f s l hl => ?_, fun i h m f s => ?_, fun i j x b s hij => ?_, fun x b s k => ⟨?_, ?_⟩, fun m x b s => ⟨fun hm => if_pos hm, rfl⟩⟩
  · rw [laneOf_laneResult hl]
    cases d with
    | push => rw [oldImage, laneOf_zero]
    | v i => rfl
  · rw [laneResult_eq]
    exact packLanes_above ..
  · rw [wrV_v]
    exact Vector.getElem_set_ne _ _ (Fin.val_ne_of_ne hij)
  · rw [wrV_push]
    exact pushSlot_succ _ _ _ _ (succ_of_queue k)
  · rw [wrV_push]
    rfl

end Sys2Proof.Machine
end

