-- ==== Sys2Proof/Proofs/VectorArithmetic.lean ====
section
/-! O32 and O34: the elementwise words are `floatOp2`, `floatOp1` or `intOp2` of their operation on the engine. -/

namespace Sys2Proof.Machine

/-! ### Float words (R260, R261) -/

section Float
variable {i : Instr} {b : Nat}

theorem floatTwo_of_word {o : VWXY} {f : Fmt → BitVec 2 → Nat → Nat → Rounded} (hi : ∀ s, exec i s = issue i (useVWXY o) (floatOp2 o b f) s) : floatTwo i o b f :=
  vectorDoes_of_body hi fun _ hf ht => vectorOp_done hf (permit_ok _ (vtFloat_iff.2 ht))

theorem floatOne_of_word {o : VWX} {f : Fmt → BitVec 2 → Nat → Rounded} (hi : ∀ s, exec i s = issue i (useVWX o) (floatOp1 o b f) s) : floatOne i o b f :=
  vectorDoes_of_body hi fun _ hf ht => vectorOp_done hf (permit_ok _ (vtFloat_iff.2 ht))

/-- The float words of two sources. -/
theorem exec_floatOp2 {o : VWXY} (h : i ∈ [Instr.vadd o, .vsub o, .vmul o, .vmax o, .vmin o, .vclamp o, .vscale o]) :
    ∃ b f, acquires i = none ∧ ∀ s, exec i s = issue i (useVWXY o) (floatOp2 o b f) s := by
  simp only [List.mem_cons, List.not_mem_nil, or_false] at h
  rcases h with rfl | rfl | rfl | rfl | rfl | rfl | rfl
  all_goals exact ⟨_, _, rfl, fun _ => rfl⟩

/-- The float words of one source. -/
theorem exec_floatOp1 {o : VWX} (h : i ∈ [Instr.vabs o, .vneg o, .vrcp o, .vrsq o, .vexp o, .vlog o]) :
    ∃ b f, acquires i = none ∧ ∀ s, exec i s = issue i (useVWX o) (floatOp1 o b f) s := by
  simp only [List.mem_cons, List.not_mem_nil, or_false] at h
  rcases h with rfl | rfl | rfl | rfl | rfl | rfl
  all_goals exact ⟨_, _, rfl, fun _ => rfl⟩

end Float

/-- Settles O32: each word is `floatOp2`, `floatOp1` or VFMA's body, which judges the type before its one effect. -/
theorem vectorFloats : Obligations.VectorFloats := by
  unfold Obligations.VectorFloats
  refine ⟨fun o => ⟨?_, ?_, ?_, ?_, ?_, ?_, ?_⟩, fun o => ⟨?_, ?_, ?_, ?_, ?_, ?_⟩, fun o => ?_, fun o i hi => ?_, fun o i hi => ?_, fun o => ?_,
    fun o i hi => ?_, fun o i hi => ?_, fun o => ?_, fun f a _ => ⟨fun hn => ?_, fun hn => ?_⟩⟩
  iterate 7 exact floatTwo_of_word fun _ => rfl
  iterate 6 exact floatOne_of_word fun _ => rfl
  · exact vectorDoes_of_body (fun _ => rfl) fun s hf ht => vectorOp_done hf (permit_ok _ (vtFloat_iff.2 ht))
  · obtain ⟨b, f, ha, hw⟩ := exec_floatOp2 hi
    exact vectorTraps_of_body hw fun s hf ht => vectorOp_trap hf (permit_refused _ (vtFloat_false_iff.2 ht))
  · obtain ⟨b, f, ha, hw⟩ := exec_floatOp1 hi
    exact vectorTraps_of_body hw fun s hf ht => vectorOp_trap hf (permit_refused _ (vtFloat_false_iff.2 ht))
  · exact vectorTraps_of_body (fun _ => rfl) fun s hf ht => vectorOp_trap hf (permit_refused _ (vtFloat_false_iff.2 ht))
  · obtain ⟨b, f, ha, hw⟩ := exec_floatOp2 hi
    exact stallsBusy_of_body ha hw fun s => vectorOp_busy
  · obtain ⟨b, f, ha, hw⟩ := exec_floatOp1 hi
    exact stallsBusy_of_body ha hw fun s => vectorOp_busy
  · exact stallsBusy_of_body rfl (fun _ => rfl) fun s => vectorOp_busy
  · exact ⟨if_pos hn, if_pos hn⟩
  · exact ⟨if_neg (ne_true_of_eq_false hn), if_neg (ne_true_of_eq_false hn)⟩

/-! ### Integer and bitwise words (R262) -/

section Integer
variable {i : Instr} {o : VWXY}

theorem integerTwo_of_word {all : Bool} {f : Nat → Nat → Nat → Nat} (hi : ∀ s, exec i s = issue i (useVWXY o) (intOp2 o all f) s) : integerTwo i o all f :=
  vectorDoes_of_body hi fun _ hf ht => vectorOp_done hf (permit_ok _ ((Bool.or_eq_true _ _).mpr ht))

/-- The integer and bitwise words. -/
theorem exec_intOp2 (h : i ∈ [Instr.viadd o, .visub o, .vimul o, .vand o, .vor o, .vxor o, .vshl o, .vshr o, .vsha o]) :
    ∃ all f, acquires i = none ∧ ∀ s, exec i s = issue i (useVWXY o) (intOp2 o all f) s := by
  simp only [List.mem_cons, List.not_mem_nil, or_false] at h
  rcases h with rfl | rfl | rfl | rfl | rfl | rfl | rfl | rfl | rfl
  all_goals exact ⟨_, _, rfl, fun _ => rfl⟩

/-- Those of an integer type alone. -/
theorem exec_integers (h : i ∈ [Instr.viadd o, .visub o, .vimul o, .vshl o, .vshr o, .vsha o]) :
    ∃ f, acquires i = none ∧ ∀ s, exec i s = issue i (useVWXY o) (intOp2 o false f) s := by
  simp only [List.mem_cons, List.not_mem_nil, or_false] at h
  rcases h with rfl | rfl | rfl | rfl | rfl | rfl
  all_goals exact ⟨_, rfl, fun _ => rfl⟩

end Integer

/-- The integer types of Table 13-2. -/
theorem vtInt_iff (t : Nat) : vtInt t = true ↔ t = 4 ∨ t = 5 ∨ t = 6 ∨ t = 8 ∨ t = 9 ∨ t = 10 := by
  simp only [vtInt, vtSigned, vtUnsigned, Bool.or_eq_true, Bool.and_eq_true, decide_eq_true_eq]
  omega

/-- Settles O34: each word is `intOp2` of its operation, which judges the type before its one effect. -/
theorem vectorIntegers : Obligations.VectorIntegers := by
  unfold Obligations.VectorIntegers
  refine ⟨fun o => ⟨?_, ?_, ?_, ?_, ?_, ?_, ?_, ?_, ?_⟩, fun o i hi => ?_, fun o i hi => ?_, vtInt_iff⟩
  iterate 9 exact integerTwo_of_word fun _ => rfl
  · obtain ⟨f, ha, hw⟩ := exec_integers hi
    exact vectorTraps_of_body hw fun s hf ht => vectorOp_trap hf (permit_refused _ ht)
  · obtain ⟨all, f, ha, hw⟩ := exec_intOp2 hi
    exact stallsBusy_of_body ha hw fun s => vectorOp_busy

end Sys2Proof.Machine
end

