-- ==== Sys2Proof/Proofs/VectorCompares.lean ====
section
/-! O35: the compares and VSEL are lane results, VMPOP and VMFIRST go by the list of selected one bits, and VCVT and VQUANT by their one check. -/

namespace Sys2Proof.Machine

/-! ### The selected one bits (R264) -/

section Masks
variable {E m x : Nat}

theorem maskLanes_eq (E m x : Nat) : maskLanes E m x = (List.range E).filter fun l => m.testBit l && x.testBit l := by
  rw [maskLanes, selected_eq_testBit, flag_eq_testBit]

theorem mem_maskLanes {l : Nat} : l ∈ maskLanes E m x ↔ l < E ∧ m.testBit l = true ∧ x.testBit l = true := by
  rw [maskLanes_eq, List.mem_filter, List.mem_range, Bool.and_eq_true]

/-- There are as many as lanes with both bits. -/
theorem length_maskLanes (E m x : Nat) :
    (maskLanes E m x).length = ((Finset.range E).filter fun l => m.testBit l = true ∧ x.testBit l = true).card := by
  rw [maskLanes_eq]
  exact length_filter_range fun l => Bool.and_eq_true_iff

/-- None is listed where no lane has both bits. -/
theorem maskLanes_nil (h : ∀ l < E, m.testBit l = false ∨ x.testBit l = false) : maskLanes E m x = [] := by
  refine List.eq_nil_iff_forall_not_mem.2 fun l hl => ?_
  obtain ⟨hlt, hm, hx⟩ := mem_maskLanes.1 hl
  rcases h l hlt with h | h
  · exact absurd hm (ne_true_of_eq_false h)
  · exact absurd hx (ne_true_of_eq_false h)

/-- The lanes are listed from the lowest on. -/
theorem head?_maskLanes {k : Nat} (hk : k < E) (hm : m.testBit k = true) (hx : x.testBit k = true)
    (hl : ∀ l < k, m.testBit l = false ∨ x.testBit l = false) : (maskLanes E m x).head? = some k := by
  rw [maskLanes_eq, List.head?_filter, List.find?_range_eq_some]
  refine ⟨by rw [hm, hx]; rfl, List.mem_range.2 hk, fun j hj => ?_⟩
  rw [Bool.not_eq_true', Bool.and_eq_false_iff]
  exact hl j hj

end Masks

/-- The index into the truth table of VMLOG. -/
theorem truthIndex (a b : Bool) : 2 * bit a + bit b = (if a then 2 else 0) + (if b then 1 else 0) := by
  cases a <;> rfl

/-! ### VQUANT (R266) -/

/-- The 64 rows that VQUANT quantises: 64 lanes of each of its sources. -/
def quantRows (o : VQuantOps) (s : State) : List QuantRow :=
  (List.range 64).map fun r => quantRow ((List.range 128).map fun c =>
    vtValue (shapeOf s).t (if c < 64 then laneOf (rdV s o.x) (shapeOf s).w (64 * r + c) else laneOf (rdV s o.y) (shapeOf s).w (64 * r + (c - 64))))

theorem getElem_quantRows {o : VQuantOps} {s : State} {r : Nat} (hr : r < (quantRows o s).length) :
    (quantRows o s)[r] = quantRow ((List.range 128).map fun c => vtValue (shapeOf s).t
      (if c < 64 then laneOf (rdV s o.x) (shapeOf s).w (64 * r + c) else laneOf (rdV s o.y) (shapeOf s).w (64 * r + (c - 64)))) := by
  simp [quantRows]

/-! ### Words that share their operands (R250) -/

/-- The two compares act over the shape. -/
theorem exec_compare {o : VCmpOps} {i : Instr} (h : i ∈ [Instr.vicmp o, .vcmp o]) :
    acquires i = none ∧ ∃ body, ∀ s, exec i s = issue i (useVCmpOps o) (vectorOp body) s := by
  simp only [List.mem_cons, List.not_mem_nil, or_false] at h
  rcases h with rfl | rfl
  all_goals exact ⟨rfl, _, fun _ => rfl⟩

/-- So do the two words that look for one bits. -/
theorem exec_maskCount {o : VMdOps} {i : Instr} (h : i ∈ [Instr.vmpop o, .vmfirst o]) :
    acquires i = none ∧ ∃ body, ∀ s, exec i s = issue i (useVMdOps o) (vectorOp body) s := by
  simp only [List.mem_cons, List.not_mem_nil, or_false] at h
  rcases h with rfl | rfl
  all_goals exact ⟨rfl, _, fun _ => rfl⟩

/-- Settles O35: each word by its one result on the free engine, the mask words by the list of selected one bits, VQUANT by its 64 rows. -/
theorem vectorComparesAndConversions : Obligations.VectorComparesAndConversions := by
  unfold Obligations.VectorComparesAndConversions
  refine ⟨fun o => ⟨?_, ?_⟩, fun o => ?_, fun o => ?_, fun o => ⟨?_, fun k => ?_, ?_⟩, fun o => ?_, fun o i hi => ?_, fun o => ?_, fun o => ?_,
    fun o i hi => ?_, fun o => ?_, fun o => ?_, fun o s hs => ?_⟩
  · exact vectorDoes_of_body (fun _ => rfl) fun s hf ht => vectorOp_done hf (permit_ok _ ht)
  · exact vectorDoes_of_body (fun _ => rfl) fun s hf ht => vectorOp_done hf (permit_ok _ (vtFloat_iff.2 ht))
  · rw [← selected_eq_testBit]
    exact vectorDoes_of_body (fun _ => rfl) fun s hf _ => vectorOp_done hf rfl
  · simp only [← truthIndex]
    rw [← flag_eq_testBit]
    exact vectorDoes_of_body (fun _ => rfl) fun s hf _ => vectorOp_done hf rfl
  · simp only [← length_maskLanes]
    exact vectorDoes_of_body (fun _ => rfl) fun s hf _ => vectorOp_done hf rfl
  · exact vectorDoes_of_body (fun _ => rfl) fun s hf ⟨hk, hm, hx, hl⟩ => vectorOp_done hf (by simp only [head?_maskLanes hk hm hx hl])
  · exact vectorDoes_of_body (fun _ => rfl) fun s hf hl => vectorOp_done hf (by simp only [maskLanes_nil hl]; rfl)
  · refine vectorDoes_of_body (fun _ => rfl) fun s hf hb => vectorOp_done hf ?_
    simp only [hb, if_true, ofNat_bitsOf, bitsOf_low]
    rfl
  · obtain ⟨ha, body, hw⟩ := exec_compare hi
    exact stallsBusy_of_body ha hw fun s => vectorOp_busy
  · exact stallsBusy_of_body rfl (fun _ => rfl) fun s => vectorOp_busy
  · exact stallsBusy_of_body rfl (fun _ => rfl) fun s => vectorOp_busy
  · obtain ⟨ha, body, hw⟩ := exec_maskCount hi
    exact stallsBusy_of_body ha hw fun s => vectorOp_busy
  · exact stallsBusy_of_body rfl (fun _ => rfl) fun s => vectorOp_busy
  · exact stallsBusy_of_body rfl (fun _ => rfl) fun s => onEngine_busy
  · intro u hf hr hc ht
    exact ⟨quantRows o u, _, List.length_map .., fun r => getElem_quantRows, issue_done hs (onEngine_done hf (if_pos ⟨hr, hc, ht⟩))⟩

end Sys2Proof.Machine
end

