-- ==== Sys2Proof/Proofs/VectorMemory.lean ====
section
/-! O36: each access by its check at issue, and the lanes of a load or gather by the first trap that a selected lane meets. -/

namespace Sys2Proof.Machine

/-! ### The shape word (R253) -/

/-- A shape word is read by its three fields. -/
theorem shapeOfWord_eq (a : Word) : shapeOfWord a =
    { type := BitVec.ofNat 4 (a.toNat / 2 ^ 24), rowsM1 := BitVec.ofNat 6 (a.toNat / 2 ^ 16), colsM1 := BitVec.ofNat 12 a.toNat } := by
  simp only [shapeOfWord, ofNat_bitsOf, Nat.pow_zero, Nat.div_one]

/-! ### The traps of lanes (R257) -/

/-- No selected lane meets a trap. -/
theorem laneTrap_none {h : Shape} {m : Nat} {f : Nat → Option TrapRec} (hf : ∀ l < h.lanes, m.testBit l = true → f l = none) :
    laneTrap h m f = none := by
  rw [laneTrap, selected_eq_testBit, List.findSome?_eq_none_iff]
  intro l hl
  obtain ⟨hlt, hm⟩ := List.mem_filter.1 hl
  exact hf l (List.mem_range.1 hlt) hm

/-- What a cell raises does not depend on which of its own stores the stream has found. -/
theorem cellTrap_viewed (s : State) (k : Fin 16) : cellTrap (s.viewed k) = cellTrap s.core := rfl

/-- A raw load whose cells raise nothing gives each lane its bytes (R255). -/
theorem loadLanes_raw {d : VDst} {a : Word} {h : Shape} {m : Nat} {s : State} (ha : awMode a = 0)
    (hc : ∀ l < h.lanes, m.testBit l = true →
      cellTrap s.core (fun _ => true) (awAddr a + l / h.cols * awStride a h + l % h.cols * (h.w / 8)) = none) :
    loadLanes d a h m s = putLanes d h m (fun l => spadNum (s.viewed 0) (awAddr a + l / h.cols * awStride a h + l % h.cols * (h.w / 8)) (h.w / 8)) 24
      (sawEach 0 (h.w / 8) (((List.range h.lanes).filter fun l => m.testBit l).map
        fun l => awAddr a + l / h.cols * awStride a h + l % h.cols * (h.w / 8)) s) := by
  rw [← cellTrap_viewed s 0] at hc
  simp only [loadLanes, ha, laneTrap_none hc, loadPlaces, selected_eq_testBit]

/-- A raw store stores each selected lane (R256). -/
theorem storeLanes_raw {x : Nat} {a : Word} {h : Shape} {m : Nat} {s : State} (ha : awMode a = 0) :
    storeLanes x a h m s = ((List.range h.lanes).filter fun l => m.testBit l).foldl
      (fun t l => storeBytes 0 (awAddr a + l / h.cols * awStride a h + l % h.cols * (h.w / 8)) (bytesOfNum (h.w / 8) (laneOf x h.w l)) t) s := by
  simp only [storeLanes, ha, selected_eq_testBit]

/-! ### VST of an image (R256) -/

section Tags
variable {f x : Nat}

/-- Every tag of the image in register image `x` fits its format. -/
def imageTagsOk (f x : Nat) : Bool :=
  (List.range (imageCells f)).all fun j => imageTagOk f (imageCells f) j (fld x (512 * imageCells f + 16 * j) 16)

theorem imageTagsOk_of (h : ∀ j < imageCells f, imageTagOk f (imageCells f) j (fld x (512 * imageCells f + 16 * j) 16) = true) :
    imageTagsOk f x = true := List.all_eq_true.2 fun j hj => h j (List.mem_range.1 hj)

theorem imageTagsOk_not {j : Nat} (hj : j < imageCells f) (h : imageTagOk f (imageCells f) j (fld x (512 * imageCells f + 16 * j) 16) = false) :
    imageTagsOk f x = false := List.all_eq_false.2 ⟨j, List.mem_range.2 hj, ne_true_of_eq_false h⟩

end Tags

/-- What VST of the operands `a`, `x` and mask `m` comes to on the free engine. -/
def storeBody (a : Word) (h : Shape) (m : Fin 16) (x : VSrc) (s : State) : Eff :=
  match accessTrap a h true m s with
  | some r => .trap r
  | none =>
    if awMode a = 3 ∧ !imageTagsOk (awFmt a) (rdV s x) then misuse cVector 0x07
    else .done (storeLanes (rdV s x) a h (rdM s m) s)

theorem exec_vst (o : VSA) (s : State) : exec (.vst o) s = issue (.vst o) (useVSA o)
    (fun s => onEngine (accessCycles (rdS s o.a) (shapeOf s)) (storeBody (rdS s o.a) (shapeOf s) o.m o.x) s) s := rfl

section Store
variable {a : Word} {h : Shape} {m : Fin 16} {x : VSrc} {s : State}

theorem storeBody_refused {r : TrapRec} (ht : accessTrap a h true m s = some r) : storeBody a h m x s = .trap r := by
  simp only [storeBody, ht]

/-- An access that passes its checks is judged by the tags of its image. -/
theorem storeBody_allowed (ht : accessTrap a h true m s = none) : storeBody a h m x s =
    if awMode a = 3 ∧ !imageTagsOk (awFmt a) (rdV s x) then misuse cVector 0x07 else .done (storeLanes (rdV s x) a h (rdM s m) s) := by
  simp only [storeBody, ht]

theorem storeBody_stores (ht : accessTrap a h true m s = none) (hi : awMode a = 3 → imageTagsOk (awFmt a) (rdV s x) = true) :
    storeBody a h m x s = .done (storeLanes (rdV s x) a h (rdM s m) s) := by
  rw [storeBody_allowed ht, if_neg]
  rintro ⟨hm, hn⟩
  rw [hi hm] at hn
  exact Bool.false_ne_true hn

theorem storeBody_badTag (ht : accessTrap a h true m s = none) (hm : awMode a = 3) (hi : imageTagsOk (awFmt a) (rdV s x) = false) :
    storeBody a h m x s = .trap (mkTrap 0x0B 0x07 0) := by
  rw [storeBody_allowed ht, hi]
  exact if_pos ⟨hm, rfl⟩

end Store

/-- Settles O36: each word by its checks at issue, then by the traps of the lanes it selects, the raw accesses by the lemmas about `loadLanes` and
`storeLanes`. -/
theorem vectorMemory : Obligations.VectorMemory := by
  unfold Obligations.VectorMemory
  refine ⟨fun o => ⟨?_, ?_⟩, fun o => ⟨?_, fun r => ?_⟩, fun o => ?_, fun o => ⟨?_, fun r => ?_, ?_⟩, fun o => ⟨?_, fun r => ?_⟩, fun o => ⟨?_, fun r => ?_⟩,
    fun o => ⟨?_, ?_⟩, fun o => ⟨?_, ?_⟩, fun o => ?_, fun o => ?_, fun o => ?_, fun o => ?_, fun o => ?_, fun o => ?_,
    fun d a h m s => loadLanes_raw, fun x a h m s => storeLanes_raw⟩
  · simp only [← shapeOfWord_eq]
    exact performs_of_body (fun _ => rfl) fun s ha => if_pos ha
  · exact traps_of_body (fun _ => rfl) fun s ha => if_neg (ne_true_of_eq_false ha)
  · exact vectorDoesFor_of_body (fun _ => rfl) fun s hf ht => onEngine_done hf (by simp only [ht])
  · exact vectorTraps_of_body (fun _ => rfl) fun s hf ht => onEngine_trap hf (by simp only [ht])
  · exact vectorDoesFor_of_body (exec_vst o) fun s hf ⟨ht, hm⟩ => onEngine_done hf (storeBody_stores ht fun h3 => absurd h3 hm)
  · exact vectorDoesFor_of_body (exec_vst o) fun s hf ⟨ht, _, hi⟩ => onEngine_done hf (storeBody_stores ht fun _ => imageTagsOk_of hi)
  · exact vectorTraps_of_body (exec_vst o) fun s hf ht => onEngine_trap hf (storeBody_refused ht)
  · exact vectorTraps_of_body (exec_vst o) fun s hf ⟨ht, hm, j, hj, hi⟩ => onEngine_trap hf (storeBody_badTag ht hm (imageTagsOk_not hj hi))
  · refine vectorDoes_of_body (fun _ => rfl) fun s hf ⟨ht, hc⟩ => vectorOp_done hf ?_
    have hn : ((List.range 8).findSome? fun j => cellTrap s.core (fun _ => true) ((rdS s o.a).toNat + 64 * j)) = none :=
      List.findSome?_eq_none_iff.2 fun j hj => hc j (List.mem_range.1 hj)
    simp only [ht, hn]
  · exact vectorTraps_of_body (fun _ => rfl) fun s hf ht => vectorOp_trap hf (by simp only [ht])
  · exact vectorDoes_of_body (fun _ => rfl) fun s hf ht => vectorOp_done hf (by simp only [ht])
  · exact vectorTraps_of_body (fun _ => rfl) fun s hf ht => vectorOp_trap hf (by simp only [ht])
  · refine vectorDoesFor_of_body (fun _ => rfl) fun s hf ⟨hw, hl⟩ => onEngine_done hf ?_
    rw [checked_ok hw]
    simp only [laneTrap_none fun l h hm => (hl l h hm).1, laneTrap_none fun l h hm => (hl l h hm).2, Option.or, selected_eq_testBit]
  · exact vectorTraps_of_body (fun _ => rfl) fun s hf hw => onEngine_trap hf (checked_refused hw)
  · refine vectorDoesFor_of_body (fun _ => rfl) fun s hf ⟨hw, hl⟩ => onEngine_done hf ?_
    rw [checked_ok hw]
    simp only [laneTrap_none hl, selected_eq_testBit]
  · exact vectorTraps_of_body (fun _ => rfl) fun s hf hw => onEngine_trap hf (checked_refused hw)
  · exact stallsBusy_of_body rfl (fun _ => rfl) fun s => onEngine_busy
  · exact stallsBusy_of_body rfl (fun _ => rfl) fun s => onEngine_busy
  · exact stallsBusy_of_body rfl (fun _ => rfl) fun s => vectorOp_busy
  · exact stallsBusy_of_body rfl (fun _ => rfl) fun s => vectorOp_busy
  · exact stallsBusy_of_body rfl (fun _ => rfl) fun s => onEngine_busy
  · exact stallsBusy_of_body rfl (fun _ => rfl) fun s => onEngine_busy

end Sys2Proof.Machine
end

