-- ==== Sys2Proof/Proofs/VectorMoves.lean ====
section
/-! O37: each move is one result of its lanes, and the counts of VHIST are packed under the tail of what they are added to. -/

namespace Sys2Proof.Machine

/-! ### Types (Table 13-2) -/

theorem vtByte_of_float {t : Nat} (h : t ≤ 2) : vtByte t = false := by
  simp only [vtByte, Bool.or_eq_false_iff, decide_eq_false_iff_not]
  omega

/-! ### VHIST (R277) -/

/-- Digit `i` stands in the list as often as there are selected lanes that are taken and have it. -/
theorem count_digits {n i : Nat} {m takes : Nat → Bool} {lane digit : Nat → Nat} :
    (((((List.range n).filter m).map lane).filter takes).map digit).count i
      = ((Finset.range n).filter fun l => m l = true ∧ takes (lane l) = true ∧ digit (lane l) = i).card := by
  rw [List.count, List.countP_map, List.countP_filter, List.countP_map, List.countP_filter, List.countP_eq_length_filter]
  refine length_filter_range fun l => ?_
  simp only [Function.comp_apply, Bool.and_eq_true, beq_iff_eq]
  tauto

/-! ### Words that share their operands (R250) -/

/-- VSPLAT and VACCR act over the shape. -/
theorem exec_vsplat_vaccr {o : VWA} {i : Instr} (h : i ∈ [Instr.vsplat o, .vaccr o]) :
    acquires i = none ∧ ∃ body, ∀ s, exec i s = issue i (useVWA o) (vectorOp body) s := by
  simp only [List.mem_cons, List.not_mem_nil, or_false] at h
  rcases h with rfl | rfl
  all_goals exact ⟨rfl, _, fun _ => rfl⟩

theorem stallsBusy_vtrn_vpart {o : VWX} {i : Instr} (h : i ∈ [Instr.vtrn o, .vpart o]) : stallsBusy i (useVWX o) := by
  simp only [List.mem_cons, List.not_mem_nil, or_false] at h
  rcases h with rfl | rfl
  · exact stallsBusy_of_body rfl (fun _ => rfl) fun s => vectorOp_busy
  · exact stallsBusy_of_body rfl (fun _ => rfl) fun s => onEngine_busy

/-- Settles O37: each word by its type and control word, then its one result; VHIST by the lanes of its packed counts. -/
theorem vectorMoves : Obligations.VectorMoves := by
  unfold Obligations.VectorMoves
  refine ⟨fun o => ⟨?_, ?_, ?_⟩, fun o => ?_, fun o i hi => ?_, fun o => ?_, fun o => ?_, fun o => ?_, fun o i hi => ?_, fun o => ?_, fun o => ?_,
    fun o s hs hb => ?_, fun o => ?_, fun o => ⟨?_, ?_⟩, fun o => ⟨?_, ?_⟩, fun o => ?_, fun o => ⟨?_, fun s hs hb hc => ?_⟩⟩
  · exact vectorDoes_of_body (fun _ => rfl) fun s hf _ => vectorOp_done hf rfl
  · refine vectorDoes_of_body (fun _ => rfl) fun s hf ⟨ht, hw⟩ => vectorOp_done hf ?_
    refine (permit_ok _ (vtFloat_iff.2 (by omega))).trans ((checked_ok hw).trans ?_)
    simp only [ht, if_true]
  · refine vectorDoes_of_body (fun _ => rfl) fun s hf ⟨ht, hw⟩ => vectorOp_done hf ?_
    refine (permit_ok _ (vtFloat_iff.2 (by omega))).trans ((checked_ok hw).trans ?_)
    have h0 : (shapeOf s).t ≠ 0 := by omega
    simp only [h0, if_false]
  · rw [← selected_eq_testBit]
    exact vectorDoes_of_body (fun _ => rfl) fun s hf ⟨ht, hw⟩ => vectorOp_done hf ((permit_ok _ (vtFloat_iff.2 ht)).trans (checked_ok hw))
  · obtain ⟨ha, body, hw⟩ := exec_vsplat_vaccr hi
    exact stallsBusy_of_body ha hw fun s => vectorOp_busy
  · exact stallsBusy_of_body rfl (fun _ => rfl) fun s => vectorOp_busy
  · exact stallsBusy_of_body rfl (fun _ => rfl) fun s => vectorOp_busy
  · exact stallsBusy_of_body rfl (fun _ => rfl) fun s => vectorOp_busy
  · exact stallsBusy_vtrn_vpart hi
  · exact stallsBusy_of_body rfl (fun _ => rfl) fun s => vectorOp_busy
  · exact stallsBusy_of_body rfl (fun _ => rfl) fun s => vectorOp_busy
  · exact issue_hold hs (onEngine_busy hb)
  · exact vectorDoes_of_body (fun _ => rfl) fun s hf _ => vectorOp_done hf rfl
  · refine vectorDoes_of_body (fun _ => rfl) fun s hf ht => vectorOp_done hf ((permit_ok _ ?_).trans (if_pos (vtFloat_iff.2 ht)))
    rw [vtByte_of_float ht]
    rfl
  · refine vectorDoes_of_body (fun _ => rfl) fun s hf ⟨ht, hb⟩ => vectorOp_done hf ((permit_ok _ ?_).trans (if_neg ?_))
    · rw [hb]
      rfl
    · exact ne_true_of_eq_false (vtFloat_false_iff.2 ht)
  · exact vectorDoes_of_body (fun _ => rfl) fun s hf _ => vectorOp_done hf rfl
  · rw [← selected_eq_testBit]
    exact vectorDoes_of_body (fun _ => rfl) fun s hf _ => onEngine_done hf rfl
  · exact vectorDoes_of_body (fun _ => rfl) fun s hf _ => vectorOp_done hf rfl
  · refine vectorDoes_of_body (fun _ => rfl) fun s hf ⟨ht, hb⟩ => vectorOp_done hf ((permit_ok _ ?_).trans (if_neg ?_))
    · rwa [Bool.or_eq_true, vtFloat_iff]
    · omega
  · refine ⟨_, issue_done hs (onEngine_done hb (checked_ok hc)), fun i hi => ?_⟩
    refine (laneOf_packLanes 32 _ _ 0 hi).trans ?_
    simp only [Nat.zero_add, count_digits]
    simp only [selected_eq_testBit, bitsOf_high, bitsOf_low, histTakes]
    rfl

end Sys2Proof.Machine
end

