-- ==== Sys2Proof/Proofs/ScalarArithmetic.lean ====
section
/-! O1, O3 and O4: each scalar result of the base class is the one of Table 5-1, so that the word, which writes it in its destination, does what the
statement says. -/

namespace Sys2Proof.Machine

/-! ### Words that write one scalar result -/

/-- A word whose body writes the result `r` does what is stated of `v` where the two agree. -/
theorem scalarDoes_of_result {i : Instr} {u : Use} {d : SDst} {r v : State → Word} {b : Nat}
    (hi : ∀ s, exec i s = issue i u (fun s => .done (wrD d (r s) b s)) s) (h : ∀ s, r s = v s) : scalarDoes i u d v b :=
  performs_of_body hi fun s _ => by rw [h]

/-- The same where the result is the stated one by definition. -/
theorem scalarDoes_of_body {i : Instr} {u : Use} {d : SDst} {v : State → Word} {b : Nat}
    (hi : ∀ s, exec i s = issue i u (fun s => .done (wrD d (v s) b s)) s) : scalarDoes i u d v b :=
  scalarDoes_of_result hi fun _ => rfl

/-! ### Results of Table 5-1 (R86) -/

theorem smaller_eq_min (a b : Word) : (if a.sle b then a else b) = BitVec.ofInt 64 (min a.toInt b.toInt) := by
  simp only [BitVec.sle, decide_eq_true_eq]
  split
  next h => rw [min_eq_left h, BitVec.ofInt_toInt]
  next h => rw [min_eq_right (not_le.1 h).le, BitVec.ofInt_toInt]

theorem larger_eq_max (a b : Word) : (if a.sle b then b else a) = BitVec.ofInt 64 (max a.toInt b.toInt) := by
  simp only [BitVec.sle, decide_eq_true_eq]
  split
  next h => rw [max_eq_right h, BitVec.ofInt_toInt]
  next h => rw [max_eq_left (not_le.1 h).le, BitVec.ofInt_toInt]

theorem smaller_eq_min_unsigned (a b : Word) : (if a ≤ b then a else b) = BitVec.ofNat 64 (min a.toNat b.toNat) := by
  split
  next h => rw [min_eq_left (BitVec.le_def.1 h), BitVec.ofNat_toNat, BitVec.setWidth_eq]
  next h => rw [min_eq_right (le_of_not_ge (mt BitVec.le_def.2 h)), BitVec.ofNat_toNat, BitVec.setWidth_eq]

theorem larger_eq_max_unsigned (a b : Word) : (if a ≤ b then b else a) = BitVec.ofNat 64 (max a.toNat b.toNat) := by
  split
  next h => rw [max_eq_right (BitVec.le_def.1 h), BitVec.ofNat_toNat, BitVec.setWidth_eq]
  next h => rw [max_eq_left (le_of_not_ge (mt BitVec.le_def.2 h)), BitVec.ofNat_toNat, BitVec.setWidth_eq]

/-- The address sum is taken modulo 2^56, which divides 2^64. -/
theorem addressSum_eq (a b : Word) : bitsOf (a + b) 0 56 = (a.toNat + b.toNat) % 2 ^ 56 := by
  rw [bitsOf_low, BitVec.toNat_add, Nat.mod_mod_of_dvd _ (pow_dvd_pow 2 (by decide))]

/-- A low field, read as signed, is the integer of the word cut to its width (R49). -/
theorem signed_lowField (x : Word) (n : Nat) : signed (n + 1) (bitsOf x 0 (n + 1)) = (x.setWidth (n + 1)).toInt := by
  rw [bitsOf_low, BitVec.toInt_eq_msb_cond, BitVec.msb_eq_decide, BitVec.toNat_setWidth, signed]
  simp only [decide_eq_true_eq, Nat.cast_pow, Nat.cast_ofNat]

theorem byte_eq (x : Word) (j : Nat) : bitsOf x (8 * j) 8 = x.toNat / 2 ^ (8 * j) % 256 := rfl

/-! ### Counts of bits -/

theorem zerosDown_le (x : Word) : ∀ n, zerosDown x n ≤ n
  | 0 => le_rfl
  | n + 1 => by
    have := zerosDown_le x n
    unfold zerosDown
    split <;> omega

/-- The bits above the first one bit are zero. -/
theorem zerosDown_clear (x : Word) : ∀ n j, j < zerosDown x n → x.getLsbD (n - 1 - j) = false
  | n + 1, j, h => by
    unfold zerosDown at h
    split at h
    next => omega
    next hz =>
      cases j with
      | zero => simpa [bitOf] using hz
      | succ j =>
        have := zerosDown_clear x n j (by omega)
        rwa [show n + 1 - 1 - (j + 1) = n - 1 - j by omega]

/-- Where there is a one bit, it follows the zeros. -/
theorem zerosDown_set (x : Word) : ∀ n, zerosDown x n < n → x.getLsbD (n - 1 - zerosDown x n) = true
  | n + 1, h => by
    unfold zerosDown at h ⊢
    split
    next ho => simpa [bitOf] using ho
    next hz =>
      rw [if_neg hz] at h
      have := zerosDown_set x n (by omega)
      rwa [show n + 1 - 1 - (1 + zerosDown x n) = n - 1 - zerosDown x n by omega]

/-- The first one bit from the bottom, or 64 where there is none. -/
theorem trailingZeros_spec (x : Word) :
    trailingZeros x ≤ 64 ∧ (∀ j < trailingZeros x, x.getLsbD j = false) ∧ (trailingZeros x < 64 → x.getLsbD (trailingZeros x) = true) := by
  unfold trailingZeros
  cases h : (List.range 64).find? fun i => bitOf x i with
  | none =>
    refine ⟨le_rfl, fun j hj => ?_, fun hj => absurd hj (lt_irrefl 64)⟩
    simpa [bitOf] using List.find?_eq_none.1 h j (List.mem_range.2 hj)
  | some n =>
    rw [List.find?_range_eq_some] at h
    obtain ⟨hx, hn, hz⟩ := h
    refine ⟨?_, fun j hj => ?_, fun _ => hx⟩
    · exact (List.mem_range.1 hn).le
    · simpa [bitOf] using hz j hj

theorem onesCount_eq_card (x : Word) : onesCount x = ((Finset.range 64).filter fun i => x.getLsbD i = true).card :=
  length_filter_range fun _ => Iff.rfl

/-- Settles O1: each word writes its result, which is the one of Table 5-1; the counts by the bits that they pass over. -/
theorem registerArithmetic : Obligations.RegisterArithmetic := by
  unfold Obligations.RegisterArithmetic
  refine ⟨fun o => ⟨?_, ?_, ?_, ?_, ?_, ?_, ?_, ?_, ?_, ?_, ?_, ?_, ?_, ?_, ?_, ?_, ?_, ?_, ?_⟩, fun o s => ⟨fun hs => ?_, fun hs => ?_, fun hs => ?_⟩⟩
  iterate 9 exact scalarDoes_of_body fun _ => rfl
  · exact scalarDoes_of_result (fun _ => rfl) fun s => congrArg (rdS s o.a <<< ·) (bitsOf_low _ 6)
  · exact scalarDoes_of_result (fun _ => rfl) fun s => congrArg (rdS s o.a >>> ·) (bitsOf_low _ 6)
  · exact scalarDoes_of_result (fun _ => rfl) fun s => congrArg (rdS s o.a).sshiftRight (bitsOf_low _ 6)
  · exact scalarDoes_of_result (fun _ => rfl) fun s => smaller_eq_min _ _
  · exact scalarDoes_of_result (fun _ => rfl) fun s => larger_eq_max _ _
  · exact scalarDoes_of_result (fun _ => rfl) fun s => smaller_eq_min_unsigned _ _
  · exact scalarDoes_of_result (fun _ => rfl) fun s => larger_eq_max_unsigned _ _
  · exact scalarDoes_of_result (fun _ => rfl) fun s => congrArg _ (addressSum_eq _ _)
  · refine scalarDoes_of_result (fun _ => rfl) fun s => ?_
    rw [resultSext, signed_lowField, bitsOf_low]
    rfl
  · refine scalarDoes_of_result (fun _ => rfl) fun s => ?_
    rw [resultPick, bitsOf_low]
    rfl
  · exact ⟨_, issue_done hs rfl, zerosDown_le _ 64, zerosDown_clear _ 64, zerosDown_set _ 64⟩
  · exact ⟨_, issue_done hs rfl, trailingZeros_spec _⟩
  · rw [← onesCount_eq_card]
    exact issue_done hs rfl

/-! ### Immediates and fields (R88-R90) -/

theorem signExtend_eq_ofInt {w : Nat} (x : BitVec w) : x.signExtend 64 = BitVec.ofInt 64 x.toInt := rfl

/-- Settles O3: a sign-extended immediate is its integer as a word. -/
theorem immediateForms : Obligations.ImmediateForms := by
  unfold Obligations.ImmediateForms
  refine ⟨fun o => ?_, fun o => ?_⟩
  · simp only [← signExtend_eq_ofInt]
    exact ⟨scalarDoes_of_body fun _ => rfl, scalarDoes_of_body fun _ => rfl, scalarDoes_of_body fun _ => rfl, scalarDoes_of_body fun _ => rfl⟩
  · exact ⟨scalarDoes_of_body fun _ => rfl, scalarDoes_of_body fun _ => rfl, scalarDoes_of_body fun _ => rfl⟩

/-- LIH adds its constant below the old value (R89). -/
theorem shiftedConstant_eq (x : Word) (i : BitVec 20) : x * 2 ^ 20 + i.setWidth 64 = BitVec.ofNat 64 (x.toNat * 2 ^ 20 + i.toNat) := by
  rw [BitVec.ofNat_add, BitVec.ofNat_mul, BitVec.ofNat_toNat, BitVec.ofNat_toNat, BitVec.setWidth_eq]
  rfl

/-- The bits of a mask are those of its field. -/
theorem fieldMask_bit (pos width k : Nat) (hk : k < 64) : (fieldMask pos width).getLsbD k = decide (pos ≤ k ∧ k < pos + width) := by
  unfold fieldMask
  rw [BitVec.getLsbD_ofNat, Nat.testBit_mul_two_pow, Nat.testBit_two_pow_sub_one]
  simp only [hk, decide_true, Bool.true_and, ← Bool.decide_and, decide_eq_decide]
  omega

/-- BFI takes the bits of its field from A, and the others from the old destination (R90). -/
theorem resultBfi_bit (o : BfOps) (s : State) (k : Nat) (hk : k < 64) : (resultBfi o s).getLsbD k =
    if o.o.val ≤ k ∧ k < o.o.val + (o.w.val + 1) then (rdS s o.a).getLsbD (k - o.o.val) else (rdS s (destOld o.d)).getLsbD k := by
  unfold resultBfi
  simp only [BitVec.getLsbD_or, BitVec.getLsbD_and, BitVec.getLsbD_not, BitVec.getLsbD_shiftLeft, fieldMask_bit _ _ _ hk, hk]
  split
  next h => simp [h]
  next h => simp [h]

/-- Settles O4: the constants as words, the fields as bits; the old value of a push is q0. -/
theorem constantsAndBitFields : Obligations.ConstantsAndBitFields := by
  unfold Obligations.ConstantsAndBitFields
  refine ⟨fun o => ⟨?_, ?_⟩, ⟨rfl, fun i => rfl⟩, fun o => ⟨?_, fun s hs => ?_⟩⟩
  · exact scalarDoes_of_body fun _ => rfl
  · exact scalarDoes_of_result (fun _ => rfl) fun s => shiftedConstant_eq _ _
  · exact scalarDoes_of_body fun _ => rfl
  · exact ⟨_, issue_done hs rfl, resultBfi_bit o _⟩

end Sys2Proof.Machine
end

