-- ==== Sys2Proof/Proofs/TrapEntryAndReturn.lean ====
section
/-! O14 and O50: what the entry to a handler saves and what a core stop leaves, and the return from a handler. -/

namespace Sys2Proof.Machine

/-! ### TRET (R377) -/

theorem startIssue_levelTrap (s : State) : (startIssue s).cur.levelTrap = s.cur.levelTrap := by
  rw [startIssue_cur]
  rfl

/-- A return goes to EPC in the issue mode that its level saved. -/
theorem trapReturn_pc_mode (x : Stream) : x.trapReturn.pc = x.levelTrap.epc ∧ x.trapReturn.mode = x.levelTrap.pmode := by
  unfold Stream.trapReturn Stream.levelTrap
  split <;> exact ⟨rfl, rfl⟩

theorem trapReturn_job {x : Stream} (h : x.priv = false) :
    x.trapReturn.trap.inh = false ∧ x.trapReturn.priv = false ∧ x.trapReturn.job = x.job.resumeNest x.trap.nact x.trap.epc := by
  have he : x.trapReturn = { x with trap := { x.trap with inh := false }, mode := x.trap.pmode, pc := x.trap.epc
                                    job := x.job.resumeNest x.trap.nact x.trap.epc } := if_neg (ne_true_of_eq_false h)
  rw [he]
  exact ⟨rfl, h, rfl⟩

theorem trapReturn_supervisor {x : Stream} (h : x.priv = true) : x.trapReturn.strap.inh = false ∧ x.trapReturn.priv = x.strap.ppriv
    ∧ (x.strap.ppriv = false → x.trapReturn.job = x.job.resumeNest x.strap.nact x.strap.epc) := by
  unfold Stream.trapReturn
  rw [h]
  exact ⟨rfl, rfl, fun hp => by simp [hp]⟩

/-- Settles O14: TRET at its handler's level, by what `trapReturn` restores there. -/
theorem trapReturn : Obligations.TrapReturn := by
  unfold Obligations.TrapReturn
  intro o s hs hl
  refine ⟨fun hi => issue_trap hs ?_, fun hi he => ⟨(startIssue s).setCur (startIssue s).cur.trapReturn, issue_jump hs ?_, ?_⟩⟩
  · simp [entered, acquires, hl, hi, sysMisuse, misuse, cSystem]
  · simp [entered, acquires, hl, hi, he]
  · rw [setCur_cur]
    obtain ⟨hpc, hmode⟩ := trapReturn_pc_mode (startIssue s).cur
    rw [hpc, hmode, startIssue_levelTrap]
    rw [startIssue_cur]
    exact ⟨rfl, rfl, fun hp => trapReturn_job hp, fun hp => trapReturn_supervisor hp⟩

/-! ### A wait withdrawn (R133) -/

/-- A withdrawal changes the stream, the synchronisation file, the queue mark and the waiters of the gatherer, and nothing else; of a stream
that does not wait it changes nothing. -/
theorem withdraw_eq (t : Sec) (s : State) : ∃ x y m g,
    withdraw t s = { s with core := { s.core with streams := s.core.streams.set t x, sync := y, mat := m }, gather := g }
      ∧ x.waiting = none ∧ ((s.str t).waiting = none → x = s.str t) := by
  unfold withdraw
  extract_lets _ _ u
  have hu : ∃ m, u = s.setCore { s.core with mat := m } := by
    unfold u
    split <;> exact ⟨_, rfl⟩
  clear_value u
  obtain ⟨m, rfl⟩ := hu
  split
  next h =>
    refine ⟨s.str t, s.core.sync, m, s.gather, ?_, h, fun _ => rfl⟩
    unfold State.str
    rw [PerSec.set_get]
    rfl
  next w h =>
    have hw : (s.str t).waiting ≠ none := ne_of_eq_of_ne h (Option.some_ne_none w)
    dsimp only
    cases w.on
    case rdv g =>
      exact ⟨_, _, _, _, onStr_onStr _ t _ _, rfl, fun h => absurd h hw⟩
    all_goals exact ⟨_, _, _, _, rfl, rfl, fun h => absurd h hw⟩

/-- A state whose memory, pending events and core number stand as in `s`, and in which no stream awaits another core. -/
def stoppedFrom (s t : State) : Prop :=
  t.mem = s.mem ∧ t.pending = s.pending ∧ t.core.num = s.core.num ∧ sameScratch t.core s.core ∧ ∀ x, remoteOf t x = none

theorem withdraw_stoppedFrom {s t : State} (x : Sec) (h : stoppedFrom s t) : stoppedFrom s (withdraw x t) := by
  obtain ⟨hm, hp, hn, hs, hr⟩ := h
  obtain ⟨y, f, m, g, he, hw, _⟩ := withdraw_eq x t
  rw [he]
  refine ⟨hm, hp, hn, hs, fun z => ?_⟩
  unfold remoteOf waitsOn State.str
  by_cases hz : z = x
  · subst hz
    rw [PerSec.get_set, hw]
    rfl
  · rw [PerSec.get_set_ne _ _ hz]
    exact hr z

/-- Where no stream awaits another core, a core stop withdraws every wait (R374). -/
theorem foldl_stopWaits_stoppedFrom {s : State} : ∀ (l : List Sec) {t : State}, stoppedFrom s t → stoppedFrom s (l.foldl stopWaits t)
  | [], _, h => h
  | x :: l, t, h => by
    have hx : stopWaits t x = withdraw x t := if_neg (by obtain ⟨-, -, -, -, hr⟩ := h; simp [hr x])
    rw [List.foldl_cons, hx]
    exact foldl_stopWaits_stoppedFrom l (withdraw_stoppedFrom x h)

theorem stopHere_parked (x : Stream) : x.stopHere.parked.isSome = true ∧ x.stopHere.pc = x.pc := by
  unfold Stream.stopHere
  split
  next h => exact ⟨by simpa using h, rfl⟩
  next h => exact ⟨rfl, rfl⟩

theorem coreStop_stops {r : TrapRec} {pc : BitVec 22} {s : State} (h : ∀ x, remoteOf s x = none) :
    let u := coreStop .ctl r pc s
    u.core.stop = true ∧ (∀ x, (u.str x).parked.isSome = true) ∧ (u.str .ctl).pc = pc ∧ u.pending = s.pending ++ [coreStopEvent s.core.num r]
      ∧ u.mem = s.mem ∧ sameScratch u.core s.core := by
  obtain ⟨hm, hp, hn, hs, -⟩ := foldl_stopWaits_stoppedFrom allSecs (s := s) (t := s) ⟨rfl, rfl, rfl, ⟨rfl, rfl, rfl⟩, h⟩
  unfold coreStop
  generalize allSecs.foldl stopWaits s = t at *
  refine ⟨rfl, fun x => ?_, ?_, ?_, hm, hs⟩
  · cases x <;> exact (stopHere_parked _).1
  · exact (stopHere_parked _).2
  · rw [← hp, ← hn]
    rfl

/-! ### Routing (R372) -/

theorem delegable_iff (c : Nat) : delegable c = true ↔
    c ∈ [0x01, 0x03, 0x04, 0x05, 0x07, 0x08, 0x09, 0x0A, 0x0B, 0x0C, 0x0D, 0x0E, 0x0F, 0x11, 0x12, 0x1A] ∨ (0x20 ≤ c ∧ c ≤ 0x3F) := by
  rw [delegable, Bool.or_eq_true, List.contains_iff_mem, Bool.and_eq_true, decide_eq_true_eq, decide_eq_true_eq, Nat.lt_succ_iff]

theorem toJobHandler_iff (s : State) (t : Sec) (c : Nat) : toJobHandler s t c = true ↔
    (s.str t).priv = false ∧ (s.str t).trap.inh = false ∧ (s.str t).trap.vec ≠ 0
      ∧ ((delegable c = true ∧ (s.str t).tdlg.getLsbD c = true) ∨ (c = 0x18 ∧ s.core.audit.owner = 0)) := by
  simp only [toJobHandler, bitOf, Bool.and_eq_true, Bool.or_eq_true, Bool.not_eq_true', bne_iff_ne, beq_iff_eq, decide_eq_true_eq, and_assoc]
  rfl

/-- A supervisor entry goes to the vector with its low bits clear (R51, R373). -/
theorem pcOf_setWidth (v : BitVec 22) : pcOf (v.setWidth 64) = v / 4 * 4 := by
  apply BitVec.eq_of_toNat_eq
  have hv := v.isLt
  have hd : (v / 4 * 4).toNat = v.toNat / 4 * 4 % 2 ^ 22 := rfl
  rw [hd, pcOf, BitVec.toNat_ofNat, bitsOf, fld, BitVec.toNat_setWidth]
  omega

theorem noRegion_iff (c : CoreState) : noRegion c = true ↔ c.srlim.toNat ≤ c.srbase.toNat := by
  rw [noRegion, decide_eq_true_eq, srHigh, srLow]
  omega

/-! ### Entry (R373) -/

section
variable {t : Sec} {r : TrapRec} {pc : BitVec 22} {s : State}

/-- Nothing but the mat engine differs: the queue mark that a trap drops. -/
theorem withdraw_idle (h : (s.str t).waiting = none) : ∃ y m g,
    withdraw t s = { s with core := { s.core with sync := y, mat := m }, gather := g } := by
  obtain ⟨x, y, m, g, he, -, hx⟩ := withdraw_eq t s
  refine ⟨y, m, g, ?_⟩
  rw [he, hx h, State.str, PerSec.set_get]

theorem takeTrap_job (hw : (s.str t).waiting = none) (h : toJobHandler s t r.cause = true) : ∃ y m g,
    takeTrap t r pc s = ({ s with core := { s.core with sync := y, mat := m }, gather := g } : State).onStr t fun st => st.enterJob r pc := by
  obtain ⟨y, m, g, he⟩ := withdraw_idle hw
  refine ⟨y, m, g, ?_⟩
  unfold takeTrap
  rw [he]
  exact if_pos h

theorem takeTrap_supervisor (hw : (s.str .ctl).waiting = none) (h : toJobHandler s .ctl r.cause = false) (hp : (s.str .ctl).priv = false)
    (hr : s.core.srbase.toNat < s.core.srlim.toNat) : ∃ y m g,
    takeTrap .ctl r pc s = ({ s with core := { s.core with sync := y, mat := m }, gather := g } : State).onStr .ctl fun st => st.enterSup r pc := by
  obtain ⟨y, m, g, he⟩ := withdraw_idle hw
  refine ⟨y, m, g, ?_⟩
  have hn : ¬ ((s.str .ctl).priv || noRegion s.core) = true := by
    rw [hp, Bool.false_or, noRegion_iff]
    exact Nat.not_le.2 hr
  unfold takeTrap
  rw [he]
  exact (if_neg (ne_true_of_eq_false h)).trans (if_neg hn)

theorem takeTrap_park (ht : t ≠ .ctl) (hw : (s.str t).waiting = none) (h : toJobHandler s t r.cause = false) : ∃ y m g,
    let u := ({ s with core := { s.core with sync := y, mat := m }, gather := g } : State).onStr t fun st => st.parkAt (some r) pc
    takeTrap t r pc s = u.setCore { u.core with pendParked := u.core.pendParked.set t true } := by
  obtain ⟨y, m, g, he⟩ := withdraw_idle hw
  refine ⟨y, m, g, ?_⟩
  unfold takeTrap
  rw [he]
  refine (if_neg (ne_true_of_eq_false h)).trans ?_
  cases t
  case ctl => exact absurd rfl ht
  all_goals rfl

theorem takeTrap_stop (hw : (s.str .ctl).waiting = none) (h : toJobHandler s .ctl r.cause = false)
    (hp : (s.str .ctl).priv = true ∨ s.core.srlim.toNat ≤ s.core.srbase.toNat) : takeTrap .ctl r pc s = coreStop .ctl r pc s := by
  have he : withdraw .ctl s = s := by
    unfold withdraw
    simp only [reduceCtorEq, if_false, hw]
  have hn : ((s.str .ctl).priv || noRegion s.core) = true := by rwa [Bool.or_eq_true, noRegion_iff]
  unfold takeTrap
  rw [he]
  exact (if_neg (ne_true_of_eq_false h)).trans (if_pos hn)

end

/-- Settles O50: the route by `takeTrap_job` to `takeTrap_stop`, and what each entry leaves read off its stream. -/
theorem trapEntry : Obligations.TrapEntry := by
  unfold Obligations.TrapEntry
  refine ⟨fun t r pc s hw _ => ⟨fun h => ?_, ?_, fun ht h => ?_, ?_⟩, toJobHandler_iff, delegable_iff⟩
  · obtain ⟨y, m, g, he⟩ := takeTrap_job (pc := pc) hw h
    simp only [he, onStr_str]
    exact ⟨rfl, rfl, rfl, rfl, rfl, rfl, rfl, rfl, rfl, rfl, rfl, rfl, rfl, rfl, rfl, ⟨rfl, rfl, rfl⟩, fun t' ht => onStr_str_ne _ _ ht⟩
  · rintro rfl h hp hr
    obtain ⟨y, m, g, he⟩ := takeTrap_supervisor (pc := pc) hw h hp hr
    simp only [he, onStr_str, ← pcOf_setWidth]
    exact ⟨rfl, rfl, rfl, rfl, rfl, rfl, rfl, rfl, rfl, rfl, rfl, rfl, rfl, rfl, ⟨rfl, rfl, rfl⟩, fun t' ht => onStr_str_ne _ _ ht⟩
  · obtain ⟨y, m, g, he⟩ := takeTrap_park (pc := pc) ht hw h
    have hstr : ∀ t', (takeTrap t r pc s).str t' =
        (({ s with core := { s.core with sync := y, mat := m }, gather := g } : State).onStr t fun st => st.parkAt (some r) pc).str t' := by
      rw [he]
      exact fun _ => rfl
    simp only [hstr, onStr_str]
    rw [he]
    exact ⟨rfl, rfl, rfl, PerSec.get_set _ _ _, rfl, rfl, ⟨rfl, rfl, rfl⟩, fun t' ht => onStr_str_ne _ _ ht⟩
  · rintro rfl h hq hp
    rw [takeTrap_stop hw h hp]
    exact coreStop_stops hq

end Sys2Proof.Machine
end

