-- ==== Sys2Proof/Proofs/ResetState.lean ====
section
/-! O60: the state after reset, by the reset values of its parts; the form of its memory by `reset_wf`. -/

namespace Sys2Proof.Machine

theorem reset_str (t : Sec) : State.reset.str t = Stream.reset := by
  cases t <;> rfl

theorem reset_trees (i : Fin 64) : State.reset.core.trees[i] = none := Vector.getElem_replicate i.isLt

theorem reset_frames (i : Fin 16) : State.reset.core.frames[i] = 0 := Vector.getElem_replicate i.isLt

/-- Settles O60: every stream stands at its reset value, and so does every register that the tables list. -/
theorem resetState : Obligations.ResetState := by
  unfold Obligations.ResetState
  refine ⟨reset_wf, rfl, rfl, rfl, rfl, rfl, rfl, rfl, rfl, fun t => ?_, rfl, rfl, rfl, rfl, reset_trees, reset_frames, rfl, rfl, fun _ => rfl⟩
  rw [reset_str]
  exact ⟨rfl, rfl, rfl, rfl, rfl, rfl⟩

end Sys2Proof.Machine
end

