-- ==== Sys2Proof/Proofs/AuditWords.lean ====
section
/-! O40: every audit word passes the lock first (R297), then the checks of R299 in their order, and then sets its fields. -/

namespace Sys2Proof.Machine

/-! ### Fields of the operands -/

/-- The field at the top of a word is zero where the word lies below it. -/
theorem bitsOf_top_eq_zero {w lo n : Nat} (x : BitVec w) (h : w ≤ lo + n) : bitsOf x lo n = 0 ↔ x.toNat < 2 ^ lo := by
  have hx : x.toNat / 2 ^ lo < 2 ^ n := by
    rw [Nat.div_lt_iff_lt_mul (Nat.two_pow_pos lo), ← pow_add, add_comm]
    exact x.isLt.trans_le (Nat.pow_le_pow_right (by decide) h)
  rw [bitsOf, fld, Nat.mod_eq_of_lt hx, Nat.div_eq_zero_iff]
  simp

theorem bitsOf_top_ne_zero {w lo n : Nat} (x : BitVec w) (h : w ≤ lo + n) : bitsOf x lo n ≠ 0 ↔ 2 ^ lo ≤ x.toNat := by
  rw [Ne, bitsOf_top_eq_zero x h, Nat.not_lt]

theorem setWidth_eq_zero_iff {w : Nat} (x : BitVec w) (n : Nat) : x.setWidth n = 0 ↔ x.toNat % 2 ^ n = 0 := by
  rw [BitVec.toNat_eq, BitVec.toNat_setWidth]
  rfl

/-- An operand below four is its low field. -/
theorem bitsOf_owner {a : Word} (h : a.toNat < 4) : bitsOf a 2 62 = 0 ∧ bitsOf a 0 2 = a.toNat :=
  ⟨(bitsOf_top_eq_zero a (by decide)).2 h, (bitsOf_low a 2).trans (Nat.mod_eq_of_lt h)⟩

/-! ### The lock (R297) -/

section
variable {s : State} {e : Eff}

theorem unlocked_open (h : auditOpen s) : unlocked s e = e := by
  unfold unlocked
  rcases h with h | h <;> simp [h]

theorem unlocked_locked (h : s.core.audit.lock = true ∧ s.cur.priv = false) : unlocked s e = .trap (mkTrap 0x02 0 0) := by
  unfold unlocked
  obtain ⟨hl, hp⟩ := h
  rw [hl, hp]
  rfl

end

/-- A word that only an open configuration lets pass. -/
theorem traps_locked {i : Instr} {u : Use} {body : State → Eff} (hi : ∀ s, exec i s = issue i u (fun s => unlocked s (body s)) s) :
    traps i u (fun s => s.core.audit.lock = true ∧ s.cur.priv = false) (fun _ => mkTrap 0x02 0 0) :=
  traps_of_body hi fun _ h => unlocked_locked h

/-! ### The sample (R316) -/

theorem discardSample_none {s : State} (h : s.core.audit.sample = none) : discardSample s = s := by
  unfold discardSample
  rw [h]
  rfl

theorem discardSample_some {s : State} (h : s.core.audit.sample ≠ none) : discardSample s =
    s.setCore (dropSample { s.core with audit := { s.core.audit with discard := min (s.core.audit.discard + 1) (2 ^ 32 - 1) } }) :=
  if_pos (Option.isSome_iff_ne_none.2 h)

theorem discardSample_sample (s : State) : (discardSample s).core.audit.sample = none := by
  unfold discardSample
  split
  next => rfl
  next h => simpa using h

theorem dropSample_spec (c : CoreState) : (dropSample c).audit = { c.audit with sample := none }
    ∧ (dropSample c).mat.resident.record.samp = false ∧ (dropSample c).mat.filling.record.samp = false ∧ sameScratch (dropSample c) c :=
  ⟨rfl, rfl, rfl, rfl, rfl, rfl⟩

/-! ### What ATHR and ACLR leave (R314, R315) -/

/-- The thresholds and enables that ATHR sets, of one slot or of all. -/
def thresholdsSet (a b : Word) (u : Audit) : Audit :=
  let t : BitVec 4 := BitVec.ofNat 4 (bitsOf b 0 4)
  let m : BitVec 64 := BitVec.ofNat 64 (2 ^ bitsOf a 0 6)
  if bitOf a 63 then { u with en := if bitOf b 4 then BitVec.allOnes 64 else 0, thresholds := Vector.replicate 64 t }
  else { u with en := if bitOf b 4 then u.en ||| m else u.en &&& ~~~m, thresholds := u.thresholds.set (Fin.ofNat 64 (bitsOf a 0 6)) t }

theorem thresholdsSet_all {a b : Word} {u : Audit} (ha : a.getLsbD 63 = true) (k : Fin 64) :
    (thresholdsSet a b u).thresholds[k] = b.setWidth 4 ∧ (thresholdsSet a b u).en.getLsbD k.val = b.getLsbD 4 := by
  have he : thresholdsSet a b u = { u with en := if b.getLsbD 4 then BitVec.allOnes 64 else 0, thresholds := Vector.replicate 64 (b.setWidth 4) } :=
    (if_pos ha).trans (by rw [ofNat_bitsOf_low]; rfl)
  rw [he]
  refine ⟨Vector.getElem_replicate k.isLt, ?_⟩
  cases b.getLsbD 4
  · exact BitVec.getLsbD_zero
  · exact BitVec.getLsbD_allOnes.trans (decide_eq_true k.isLt)

/-- The enables after one of them takes the value `x`. -/
theorem enable_getLsbD (e : BitVec 64) (x : Bool) (j : Nat) (k : Fin 64) :
    (if x then e ||| BitVec.ofNat 64 (2 ^ j) else e &&& ~~~BitVec.ofNat 64 (2 ^ j)).getLsbD k.val = if k.val = j then x else e.getLsbD k.val := by
  have hj : (BitVec.ofNat 64 (2 ^ j)).getLsbD k.val = decide (k.val = j) := by
    rw [BitVec.getLsbD_ofNat, Nat.testBit_two_pow, decide_eq_true k.isLt, Bool.true_and]
    exact decide_eq_decide.2 eq_comm
  cases x <;> simp only [Bool.false_eq_true, if_false, if_true, BitVec.getLsbD_and, BitVec.getLsbD_not, BitVec.getLsbD_or, hj]
  all_goals by_cases hk : k.val = j <;> simp [hk]

theorem thresholdsSet_one {a b : Word} {u : Audit} (ha : a.getLsbD 63 = false) (k : Fin 64) :
    (thresholdsSet a b u).thresholds[k] = (if k.val = a.toNat % 64 then b.setWidth 4 else u.thresholds[k])
      ∧ (thresholdsSet a b u).en.getLsbD k.val = if k.val = a.toNat % 64 then b.getLsbD 4 else u.en.getLsbD k.val := by
  have he : thresholdsSet a b u = { u with
      en := if b.getLsbD 4 then u.en ||| BitVec.ofNat 64 (2 ^ bitsOf a 0 6) else u.en &&& ~~~BitVec.ofNat 64 (2 ^ bitsOf a 0 6)
      thresholds := u.thresholds.set (Fin.ofNat 64 (bitsOf a 0 6)) (b.setWidth 4) } :=
    (if_neg (ne_true_of_eq_false ha)).trans (by rw [ofNat_bitsOf_low]; rfl)
  have hk : bitsOf a 0 6 = a.toNat % 64 := bitsOf_low a 6
  have hv : (Fin.ofNat 64 (bitsOf a 0 6)).val = a.toNat % 64 := by rw [hk, Fin.val_ofNat, Nat.mod_mod]
  rw [he]
  refine ⟨(Vector.getElem_set (Fin.isLt _) k.isLt).trans ?_, ?_⟩
  · rw [hv]
    exact if_congr eq_comm rfl rfl
  · rw [← hk]
    exact enable_getLsbD _ _ _ _

theorem thresholdsSet_named {a b : Word} {u : Audit} {k : Fin 64} (h : a.getLsbD 63 = true ∨ k.val = a.toNat % 64) :
    (thresholdsSet a b u).thresholds[k] = b.setWidth 4 ∧ (thresholdsSet a b u).en.getLsbD k.val = b.getLsbD 4 := by
  cases ha : a.getLsbD 63 with
  | true => exact thresholdsSet_all ha k
  | false =>
    have hk := h.resolve_left (ne_true_of_eq_false ha)
    have hs := thresholdsSet_one (b := b) (u := u) ha k
    rwa [if_pos hk, if_pos hk] at hs

theorem thresholdsSet_other {a b : Word} {u : Audit} {k : Fin 64} (ha : a.getLsbD 63 = false) (hk : k.val ≠ a.toNat % 64) :
    (thresholdsSet a b u).thresholds[k] = u.thresholds[k] ∧ (thresholdsSet a b u).en.getLsbD k.val = u.en.getLsbD k.val := by
  have hs := thresholdsSet_one (b := b) (u := u) ha k
  rwa [if_neg hk, if_neg hk] at hs

/-- The records and histograms that ACLR leaves: FLUSH, POP, HIST and ALLH in this order. -/
def auditCleared (a : Word) (u : Audit) : Audit :=
  let u1 := if bitOf a 11 then { u with records := [] } else u
  let u2 := if bitOf a 10 then { u1 with records := u1.records.drop 1 } else u1
  let u3 := if bitOf a 8 then { u2 with histograms := u2.histograms.filter fun p => !(p.1 / 16 == bitsOf a 0 6) } else u2
  if bitOf a 9 then { u3 with histograms := [] } else u3

theorem auditCleared_spec (a : Word) (u : Audit) :
    (auditCleared a u).records = (if a.getLsbD 11 then [] else if a.getLsbD 10 then u.records.drop 1 else u.records)
      ∧ (auditCleared a u).histograms = (if a.getLsbD 9 then [] else if a.getLsbD 8 then u.histograms.filter (fun p => !(p.1 / 16 == a.toNat % 64))
          else u.histograms) := by
  unfold auditCleared bitOf
  rw [bitsOf_low]
  constructor
  · cases a.getLsbD 8 <;> cases a.getLsbD 9 <;> cases a.getLsbD 10 <;> cases a.getLsbD 11 <;> simp
  · cases a.getLsbD 8 <;> cases a.getLsbD 9 <;> cases a.getLsbD 10 <;> cases a.getLsbD 11 <;> simp

/-- Settles O40: each word by the lock, its checks and its fields. -/
theorem auditWords : Obligations.AuditWords := by
  unfold Obligations.AuditWords
  refine ⟨fun o => ⟨?_, ?_, ?_, traps_locked fun _ => rfl, fun s hs hl => ?_⟩, fun o => ⟨fun s hs hl h1 h2 => ?_, ?_, ?_, ?_, ?_, fun s hs hl h1 h2 => ?_⟩,
    fun o => ?_, fun o => ?_, fun o => ⟨?_, ?_⟩, dropSample_spec, fun o => ⟨fun i hi => ?_, ?_, ?_, ?_, ?_⟩, fun o => ⟨traps_locked fun _ => rfl, ?_⟩,
    fun o => traps_locked fun _ => rfl, fun u => ⟨rfl, rfl⟩⟩
  · refine performs_of_body (fun _ => rfl) fun s ⟨hl, h1, h2⟩ => (unlocked_open hl).trans ((if_neg (not_not_intro h1)).trans ((if_neg (Nat.not_lt.2 h2)).trans ?_))
    rw [ofNat_bitsOf_low]
    simp only [setWidth_eq_zero_iff]
    rfl
  · exact traps_of_body (fun _ => rfl) fun s ⟨hl, h⟩ => (unlocked_open hl).trans (if_pos h)
  · exact traps_of_body (fun _ => rfl) fun s ⟨hl, h, h2⟩ => (unlocked_open hl).trans ((if_neg (not_not_intro h)).trans (if_pos h2))
  · intro a b h1 h2
    refine ⟨(startIssue s).setAudit (thresholdsSet a b s.core.audit), issue_done hs ((unlocked_open hl).trans (if_neg (not_or.2 ⟨?_, ?_⟩))), ⟨rfl, rfl, rfl⟩,
      fun k => ⟨thresholdsSet_named, thresholdsSet_other⟩⟩
    · exact not_not_intro h1
    · exact not_not_intro ((bitsOf_top_eq_zero _ (by decide)).2 h2)
  · have hr := not_or.2 ⟨not_not_intro ((bitsOf_top_eq_zero (lo := 8) (n := 56) _ (by decide)).2 h1), not_not_intro h2⟩
    refine ⟨_, issue_done hs ((unlocked_open hl).trans (if_neg hr)), ofNat_bitsOf_low _ 2, ofNat_bitsOf _ 4 4, discardSample_sample _⟩
  · refine performs_of_body (fun _ => rfl) fun s ⟨hl, h3, hp⟩ => (unlocked_open hl).trans ?_
    obtain ⟨hr, hw⟩ := bitsOf_owner (h3.trans (by decide))
    refine (if_neg (not_not_intro hr)).trans ((if_neg (by omega)).trans ((if_neg ?_).trans ?_))
    · rw [hw]
      rcases hp with hp | hp <;> simp [hp]
    · rw [ofNat_bitsOf_low]
  · refine traps_of_body (fun _ => rfl) fun s ⟨hl, h3⟩ => (unlocked_open hl).trans ?_
    obtain ⟨hr, hw⟩ := bitsOf_owner (h3.trans_lt (by decide))
    exact (if_neg (not_not_intro hr)).trans (if_pos (hw.trans h3))
  · refine traps_of_body (fun _ => rfl) fun s ⟨hl, h12, hp⟩ => (unlocked_open hl).trans ?_
    obtain ⟨hr, hw⟩ := bitsOf_owner (a := rdS s o.a) (by omega)
    exact (if_neg (not_not_intro hr)).trans ((if_neg (by omega)).trans (if_pos ⟨by omega, by simp [hp]⟩))
  · refine performs_of_body (fun _ => rfl) fun s ⟨hl, h1⟩ => (unlocked_open hl).trans ((if_neg (not_not_intro h1)).trans ?_)
    rw [ofNat_bitsOf_low]
    rfl
  · intro a
    have hr := not_or.2 ⟨not_not_intro h2, not_not_intro ((bitsOf_top_eq_zero (lo := 12) (n := 52) _ (by decide)).2 h1)⟩
    exact ⟨(startIssue s).setAudit (auditCleared a s.core.audit), issue_done hs ((unlocked_open hl).trans (if_neg hr)), auditCleared_spec a s.core.audit⟩
  · refine scalarDoes_of_result (fun _ => rfl) fun s => ?_
    rw [histKey, bitsOf_low, bitsOf_low]
    rfl
  · refine scalarDoes_of_result (fun _ => rfl) fun s => ?_
    rw [bitsOf_low]
    rfl
  · exact performs_of_body (fun _ => rfl) fun s ⟨hl, hn⟩ => (unlocked_open hl).trans (congrArg Eff.done (discardSample_none hn))
  · exact performs_of_body (fun _ => rfl) fun s ⟨hl, hn⟩ => (unlocked_open hl).trans (congrArg Eff.done (discardSample_some hn))
  · fin_cases hi
    all_goals exact traps_locked fun _ => rfl
  · exact traps_of_body (fun _ => rfl) fun s ⟨hl, h⟩ => (unlocked_open hl).trans (if_pos (h.imp_left (bitsOf_top_ne_zero _ (by decide)).2))
  · exact traps_of_body (fun _ => rfl) fun s ⟨hl, h⟩ => (unlocked_open hl).trans (if_pos ((bitsOf_top_ne_zero _ (by decide)).2 h))
  · exact traps_of_body (fun _ => rfl) fun s ⟨hl, h⟩ => (unlocked_open hl).trans (if_pos h)
  · exact traps_of_body (fun _ => rfl) fun s ⟨hl, h⟩ => (unlocked_open hl).trans (if_pos (h.symm.imp_right (bitsOf_top_ne_zero _ (by decide)).2))
  · exact traps_of_body (fun _ => rfl) fun s ⟨hl, h⟩ => (unlocked_open hl).trans (if_pos (h.imp_right (bitsOf_top_ne_zero _ (by decide)).2))

end Sys2Proof.Machine
end

