-- ==== Sys2Proof/Proofs/VectorReductions.lean ====
section
/-! O38: the results of a reduction and of a scan stand under one lane each, so that the lane that is named finds its own. -/

namespace Sys2Proof.Machine

/-! ### Results by lane -/

/-- A lane with one result finds it. -/
theorem find?_lane {β : Type} {L : List (Nat × β)} {l : Nat} {y : β} (hm : (l, y) ∈ L) (hu : ∀ q ∈ L, q.1 = l → q.2 = y) :
    L.find? (fun q => decide (q.1 = l)) = some (l, y) := by
  cases hf : L.find? fun q => decide (q.1 = l) with
  | none => exact absurd rfl (of_decide_eq_false (Bool.eq_false_iff.2 (List.find?_eq_none.1 hf _ hm)))
  | some q =>
    have hl : q.1 = l := by simpa using List.find?_some hf
    exact congrArg some (Prod.ext hl (hu q (List.mem_of_find?_eq_some hf) hl))

/-- The mask of the lanes that have a result. -/
def laneMask {β : Type} (L : List (Nat × β)) : Nat := L.foldl (fun g q => g ||| 2 ^ q.1) 0

theorem testBit_foldl_lanes {β : Type} (L : List (Nat × β)) (g l : Nat) :
    (L.foldl (fun g q => g ||| 2 ^ q.1) g).testBit l = true ↔ g.testBit l = true ∨ ∃ q ∈ L, q.1 = l := by
  induction L generalizing g with
  | nil => simp
  | cons q L ih =>
    rw [List.foldl_cons, ih, Nat.testBit_or, Bool.or_eq_true, Nat.testBit_two_pow, decide_eq_true_eq, List.exists_mem_cons_iff, or_assoc]

theorem testBit_laneMask {β : Type} (L : List (Nat × β)) (l : Nat) : (laneMask L).testBit l = true ↔ ∃ q ∈ L, q.1 = l := by
  rw [laneMask, testBit_foldl_lanes, Nat.zero_testBit]
  simp

/-! ### Reductions (R273, R274) -/

section Reduce
variable (o : VWXB) (limit n k : Shape → Nat) (lane dst : Shape → Nat → Nat → Nat) (s : State)

/-- The result of position `p` of a reduction. -/
def reduced (p : Nat) : Rounded :=
  redResult (shapeOf s).t (rdS s o.b) s.cur.ncs.rm ((List.range (k (shapeOf s))).map fun i =>
    if (rdM s o.m).testBit (lane (shapeOf s) p i) then some (redIn (shapeOf s).t (rdS s o.b) (laneOf (rdV s o.x) (shapeOf s).w (lane (shapeOf s) p i))) else none)

/-- The results of a reduction, each with the lane that takes it. -/
def reductions : List (Nat × Rounded) :=
  (List.range (n (shapeOf s))).map fun p => (dst (shapeOf s) (redPos (rdS s o.b)) p, reduced o k lane s p)

/-- What a lane finds of the results. -/
def reductionAt (l : Nat) : Nat :=
  match (reductions o n k lane dst s).find? fun r => decide (r.1 = l) with
  | some r => r.2.code
  | none => 0

variable {o limit n k lane dst s}

theorem reduce_done (hb : s.core.vec.busy ≤ s.cur.clk) (ht : redTypeOk (shapeOf s).t (rdS s o.b) = true) (hr : redOk (rdS s o.b) false = true)
    (hp : redPos (rdS s o.b) < limit (shapeOf s)) : ∃ f, reduce o limit n k lane dst s = .done (occupied (occupancy (shapeOf s)) s
      (landFlags f 40 (putLanes o.v (shapeOf s) (laneMask (reductions o n k lane dst s)) (reductionAt o n k lane dst s) 40 s))) := by
  refine ⟨(reductions o n k lane dst s).foldl (fun g r => g ||| r.2.flags) 0, ?_⟩
  refine vectorOp_done hb ((permit_ok _ ht).trans ((if_neg ?_).trans ?_))
  · simp [hr, hp]
  · unfold reductionAt reductions reduced
    rw [← selected_eq_testBit]
    rfl

theorem mem_reductions {q : Nat × Rounded} : q ∈ reductions o n k lane dst s ↔
    ∃ p < n (shapeOf s), (dst (shapeOf s) (redPos (rdS s o.b)) p, reduced o k lane s p) = q := by
  simp only [reductions, List.mem_map, List.mem_range]

/-- Where positions have lanes of their own, the lane of a position takes its result. -/
theorem reductionAt_dst {p : Nat} (hp : p < n (shapeOf s))
    (hinj : ∀ p p', dst (shapeOf s) (redPos (rdS s o.b)) p = dst (shapeOf s) (redPos (rdS s o.b)) p' → p = p') :
    reductionAt o n k lane dst s (dst (shapeOf s) (redPos (rdS s o.b)) p) = (reduced o k lane s p).code := by
  unfold reductionAt
  rw [find?_lane (mem_reductions.2 ⟨p, hp, rfl⟩)]
  intro q hq hl
  obtain ⟨p', -, rfl⟩ := mem_reductions.1 hq
  rw [hinj p' p hl]

theorem testBit_reductions (l : Nat) : (laneMask (reductions o n k lane dst s)).testBit l = true ↔
    ∃ p < n (shapeOf s), l = dst (shapeOf s) (redPos (rdS s o.b)) p := by
  rw [testBit_laneMask]
  constructor
  · rintro ⟨q, hq, rfl⟩
    obtain ⟨p, hp, rfl⟩ := mem_reductions.1 hq
    exact ⟨p, hp, rfl⟩
  · rintro ⟨p, hp, rfl⟩
    exact ⟨_, mem_reductions.2 ⟨p, hp, rfl⟩, rfl⟩

theorem reduce_badWord (hb : s.core.vec.busy ≤ s.cur.clk) (ht : redTypeOk (shapeOf s).t (rdS s o.b) = true)
    (h : redOk (rdS s o.b) false = false ∨ limit (shapeOf s) ≤ redPos (rdS s o.b)) : reduce o limit n k lane dst s = .trap (mkTrap 0x0B 0x0A 0) :=
  vectorOp_trap hb ((permit_ok _ ht).trans (if_pos (by simpa using h)))

theorem reduce_badType (hb : s.core.vec.busy ≤ s.cur.clk) (ht : redTypeOk (shapeOf s).t (rdS s o.b) = false) :
    reduce o limit n k lane dst s = .trap (mkTrap 0x0B 0x02 0) :=
  vectorOp_trap hb (permit_refused _ ht)

end Reduce

/-! ### Scans (R275) -/

theorem elim_eq_match (a : Rounded) (f : Nat → Rounded) : (fun v : Option Nat => v.elim a f) = fun v => match v with
    | none => a
    | some c => f c := by
  funext v
  cases v <;> rfl

theorem length_scanRow (f : Nat → Nat → Rounded) (excl : Bool) (out : Option Nat → Rounded) :
    ∀ (l : List Nat) (run held : Option Nat) (g : FlagSet), (scanRow f excl out run held g l).length = l.length
  | [], _, _, _ => rfl
  | _ :: l, _, _, _ => congrArg (· + 1) (length_scanRow f excl out l _ _ _)

section Scan
variable (o : VWXB) (s : State)

/-- The selected lanes of row `r`. -/
def scanLanes (r : Nat) : List Nat :=
  ((List.range (shapeOf s).cols).map fun c => r * (shapeOf s).cols + c).filter fun l => (rdM s o.m).testBit l

/-- The running results of row `r`. -/
def scanned (r : Nat) : List Rounded :=
  scanRow (redCombine (shapeOf s).t (rdS s o.b) s.cur.ncs.rm) (redExcl (rdS s o.b))
    (fun v => v.elim (exact (redIdentity (shapeOf s).t (rdS s o.b))) (redOut (shapeOf s).t (rdS s o.b) s.cur.ncs.rm)) none none 0
    ((scanLanes o s r).map fun l => redIn (shapeOf s).t (rdS s o.b) (laneOf (rdV s o.x) (shapeOf s).w l))

/-- The results of a scan, each with its lane. -/
def scans : List (Nat × Rounded) := ((List.range (shapeOf s).rows).map fun r => (scanLanes o s r).zip (scanned o s r)).flatten

/-- What a lane finds of the results. -/
def scanAt (l : Nat) : Nat :=
  match (scans o s).find? fun r => decide (r.1 = l) with
  | some r => r.2.code
  | none => 0

variable {o s}

theorem nodup_scanLanes (r : Nat) : (scanLanes o s r).Nodup :=
  (List.nodup_range.map fun _ _ h => Nat.add_left_cancel h).filter _

theorem row_of_mem_scanLanes {r l : Nat} (h : l ∈ scanLanes o s r) : l / (shapeOf s).cols = r := by
  obtain ⟨c, hc, rfl⟩ := List.mem_map.1 (List.mem_filter.1 h).1
  have hpos : 0 < (shapeOf s).cols := Nat.succ_pos _
  rw [Nat.mul_comm, Nat.mul_add_div hpos, Nat.div_eq_of_lt (List.mem_range.1 hc), Nat.add_zero]

theorem mem_scans {q : Nat × Rounded} : q ∈ scans o s ↔
    ∃ r < (shapeOf s).rows, ∃ j : Nat, (scanLanes o s r)[j]? = some q.1 ∧ (scanned o s r)[j]? = some q.2 := by
  simp only [scans, List.mem_flatten, List.mem_map, List.mem_range, exists_exists_and_eq_and]
  refine exists_congr fun r => and_congr_right fun _ => ?_
  rw [List.mem_iff_getElem?]
  simp only [List.getElem?_zip_eq_some]

/-- Lane `j` of a row takes result `j` of it. -/
theorem scanAt_lane {r j l : Nat} (hr : r < (shapeOf s).rows) (hj : (scanLanes o s r)[j]? = some l) :
    ((scanned o s r)[j]?).map (·.code) = some (scanAt o s l) := by
  obtain ⟨y, hy⟩ : ∃ y, (scanned o s r)[j]? = some y := by
    have hlt := (List.getElem?_eq_some_iff.1 hj).1
    refine ⟨_, List.getElem?_eq_getElem ?_⟩
    rwa [scanned, length_scanRow, List.length_map]
  have hu : ∀ q ∈ scans o s, q.1 = l → q.2 = y := by
    intro q hq hl
    obtain ⟨r', -, j', hj', hy'⟩ := mem_scans.1 hq
    rw [hl] at hj'
    obtain rfl : r' = r := (row_of_mem_scanLanes (List.mem_of_getElem? hj')).symm.trans (row_of_mem_scanLanes (List.mem_of_getElem? hj))
    obtain rfl : j' = j := (List.getElem?_inj (List.getElem?_eq_some_iff.1 hj').1 (nodup_scanLanes r')).1 (hj'.trans hj.symm)
    exact Option.some.inj (hy'.symm.trans hy)
  unfold scanAt
  rw [hy, find?_lane (mem_scans.2 ⟨r, hr, j, hj, hy⟩) hu]
  rfl

theorem vscan_done (hs : issues (.vscan o) (useVWXB o) s) (hb : (startIssue s).core.vec.busy ≤ (startIssue s).cur.clk)
    (ht : redTypeOk (shapeOf s).t (rdS (startIssue s) o.b) = true) (hr : redOk (rdS (startIssue s) o.b) true = true) :
    ∃ f, exec (.vscan o) s = .next (completed (useVWXB o) (occupied (occupancy (shapeOf s)) (startIssue s)
      (landFlags f 40 (putLanes o.v (shapeOf s) (rdM (startIssue s) o.m) (scanAt o (startIssue s)) 40 (startIssue s))))) := by
  refine ⟨(scans o (startIssue s)).foldl (fun g r => g ||| r.2.flags) 0, issue_done hs (vectorOp_done hb ((permit_ok _ ht).trans ((checked_ok hr).trans ?_)))⟩
  unfold scanAt scans scanned scanLanes
  rw [← selected_eq_testBit, elim_eq_match]
  rfl

end Scan

/-! ### VOSM (R280) -/

/-- The merge of the rows of output, maximum and sum in which lane `l` stands. -/
def osmAt (o : VOsmOps) (s : State) (l : Nat) : OsmRow :=
  let r := l / (shapeOf s).cols * (shapeOf s).cols
  osmRow s.cur.ncs.rm (laneOf (rdV s (.v (oddReg o.v))) 32 r) (laneOf (rdV s (.v (oddReg o.v))) 32 (r + 1))
    (laneOf (rdV s (.v (oddReg o.x))) 32 r) (laneOf (rdV s (.v (oddReg o.x))) 32 (r + 1))

/-- The lane of the merged statistics: the maximum, the sum, and the old lanes. -/
def osmStat (o : VOsmOps) (s : State) (l : Nat) : Nat :=
  if l % (shapeOf s).cols = 0 then (osmAt o s l).m
  else if l % (shapeOf s).cols = 1 then (osmAt o s l).s.code else laneOf (rdV s (.v (oddReg o.v))) 32 l

/-- The lane of the merged output. -/
def osmCol (o : VOsmOps) (s : State) (l : Nat) : Nat :=
  ((osmAt o s l).o (laneOf (rdV s (.v (evenReg o.v))) 32 l) (laneOf (rdV s (.v (evenReg o.x))) 32 l)).code

theorem vosm_done {o : VOsmOps} {s : State} (hs : issues (.vosm o) (useVOsmOps o) s) (hb : (startIssue s).core.vec.busy ≤ (startIssue s).cur.clk)
    (ht : (shapeOf s).t = 0) (hc : 2 ≤ (shapeOf s).cols) : ∃ f, exec (.vosm o) s = .next (completed (useVOsmOps o)
      (occupied (occupancy (shapeOf s)) (startIssue s) (landFlags f 40 (putLanes (.v (oddReg o.v)) (shapeOf s) (2 ^ (shapeOf s).lanes - 1) (osmStat o (startIssue s)) 40
        (putLanes (.v (evenReg o.v)) (shapeOf s) (2 ^ (shapeOf s).lanes - 1) (osmCol o (startIssue s)) 40 (startIssue s)))))) :=
  ⟨_, issue_done hs (vectorOp_done hb ((permit_ok _ (decide_eq_true ht)).trans (if_neg (Nat.not_lt.2 hc))))⟩

/-! ### The combination of a signed type -/

theorem redCombine_int32 (b : Word) (rm : BitVec 2) (x y : Nat) : redCombine 8 b rm x y =
    exact (if redOp b = 0 then (x + y) % 2 ^ 32 else if redOp b = 2 then (if vtIntOf 8 y < vtIntOf 8 x then y else x)
      else (if vtIntOf 8 x < vtIntOf 8 y then y else x)) := by
  unfold redCombine
  rw [show vtFloat 8 = false from rfl]
  simp only [Bool.false_eq_true, if_false]
  split
  next h => rw [if_pos h]; rfl
  next h => rw [h]; rfl
  next h0 h2 => rw [if_neg h0, if_neg h2]

/-- Settles O38: a reduction and a scan by the one result of each lane, VOSM by the merge of its row. -/
theorem vectorReductions : Obligations.VectorReductions := by
  unfold Obligations.VectorReductions
  refine ⟨fun o i byRow hi s hs => ?_, fun o s hs => ?_, fun o => ⟨?_, ?_, ?_, fun i hi => ?_⟩, fun o => ?_, fun o s hs => ?_, fun o i hi => ?_, fun o => ?_,
    fun t b rm => rfl, redCombine_int32⟩
  · intro u h b hb ht hr hp
    rcases hi with ⟨rfl, rfl⟩ | ⟨rfl, rfl⟩
    · obtain ⟨f, hd⟩ := reduce_done (o := o) (limit := Shape.cols) (n := Shape.rows) (k := Shape.cols) (lane := fun h p i => p * h.cols + i)
        (dst := fun h d p => p * h.cols + d) (s := u) hb ht hr hp
      refine ⟨_, _, f, issue_done hs hd, fun p hp => ?_⟩
      refine ⟨(testBit_reductions _).2 ⟨p, hp, rfl⟩, reductionAt_dst hp fun p p' he => ?_, fun l => (testBit_reductions l).1⟩
      exact Nat.eq_of_mul_eq_mul_right (Nat.succ_pos _) (Nat.add_right_cancel he)
    · obtain ⟨f, hd⟩ := reduce_done (o := o) (limit := Shape.rows) (n := Shape.cols) (k := Shape.rows) (lane := fun h p i => i * h.cols + p)
        (dst := fun h d p => d * h.cols + p) (s := u) hb ht hr hp
      refine ⟨_, _, f, issue_done hs hd, fun p hp => ?_⟩
      refine ⟨(testBit_reductions _).2 ⟨p, hp, rfl⟩, reductionAt_dst hp fun p p' he => ?_, fun l => (testBit_reductions l).1⟩
      exact Nat.add_left_cancel he
  · intro u hb ht hr
    obtain ⟨f, hd⟩ := vscan_done hs hb ht hr
    exact ⟨_, f, hd, fun r hrow j l => scanAt_lane hrow⟩
  · exact traps_of_body (fun _ => rfl) fun s ⟨hb, ht, h⟩ => reduce_badWord hb ht h
  · exact traps_of_body (fun _ => rfl) fun s ⟨hb, ht, h⟩ => reduce_badWord hb ht h
  · exact traps_of_body (fun _ => rfl) fun s ⟨hb, ht, h⟩ => vectorOp_trap hb ((permit_ok _ ht).trans (checked_refused h))
  · simp only [List.mem_cons, List.not_mem_nil, or_false] at hi
    rcases hi with rfl | rfl | rfl
    · exact vectorTraps_of_body (fun _ => rfl) fun s hb ht => reduce_badType hb ht
    · exact vectorTraps_of_body (fun _ => rfl) fun s hb ht => reduce_badType hb ht
    · exact vectorTraps_of_body (fun _ => rfl) fun s hb ht => vectorOp_trap hb (permit_refused _ ht)
  · exact vectorTraps_of_body (fun _ => rfl) fun s hb ht => vectorOp_trap hb (permit_refused _ (decide_eq_false ht))
  · intro u h hb ht hc
    obtain ⟨f, hd⟩ := vosm_done hs hb ht hc
    refine ⟨_, _, f, hd, fun l _ => ⟨rfl, fun h0 => if_pos h0, fun h1 => ?_, fun h2 => ?_⟩⟩
    · exact (if_neg (ne_of_eq_of_ne h1 one_ne_zero)).trans (if_pos h1)
    · have hne : ∀ n < 2, l % h.cols ≠ n := fun n hn => (hn.trans_le h2).ne'
      exact (if_neg (hne 0 (by decide))).trans (if_neg (hne 1 (by decide)))
  · simp only [List.mem_cons, List.not_mem_nil, or_false] at hi
    rcases hi with rfl | rfl | rfl
    all_goals exact stallsBusy_of_body rfl (fun _ => rfl) fun s => vectorOp_busy
  · exact stallsBusy_of_body rfl (fun _ => rfl) fun s => vectorOp_busy

end Sys2Proof.Machine
end

