-- ==== Sys2Proof/Proofs/ForagerWords.lean ====
section
/-! O41: each forager word by its reserved bits, then by the walk that it names, then by its fields. -/

namespace Sys2Proof.Machine

/-! ### Fields of the operands -/

theorem bitOf_eq {w : Nat} (x : BitVec w) (i : Nat) : bitOf x i = decide (x.toNat / 2 ^ i % 2 = 1) :=
  Nat.testBit_eq_decide_div_mod_eq

theorem fgstartReserved_iff (a b : Word) :
    (decide (bitsOf a 56 8 ≠ 0) || decide (bitsOf b 58 6 ≠ 0)) = true ↔ 2 ^ 56 ≤ a.toNat ∨ 2 ^ 58 ≤ b.toNat := by
  rw [Bool.or_eq_true, decide_eq_true_eq, decide_eq_true_eq, bitsOf_top_ne_zero a (by decide), bitsOf_top_ne_zero b (by decide)]

theorem fgstartReserved_clear {a b : Word} (ha : a.toNat < 2 ^ 56) (hb : b.toNat < 2 ^ 58) :
    ¬ (decide (bitsOf a 56 8 ≠ 0) || decide (bitsOf b 58 6 ≠ 0)) = true := by
  rw [fgstartReserved_iff]
  omega

theorem fgwinReserved_iff (a b : Word) : (decide (bitsOf a 4 60 ≠ 0) || decide (bitsOf b 24 8 ≠ 0) || decide (bitsOf a 2 2 = 3)) = true ↔
    12 ≤ a.toNat ∨ b.toNat / 2 ^ 24 % 256 ≠ 0 := by
  rw [Bool.or_eq_true, Bool.or_eq_true, decide_eq_true_eq, decide_eq_true_eq, decide_eq_true_eq, bitsOf_top_ne_zero a (by decide)]
  unfold bitsOf fld
  omega

theorem fgmcReserved_iff (a : Word) : (decide (bitsOf a 2 6 ≠ 0) || decide (bitsOf a 9 7 ≠ 0) || decide (bitsOf a 28 36 ≠ 0)) = true ↔
    2 ^ 28 ≤ a.toNat ∨ a.toNat / 4 % 64 ≠ 0 ∨ a.toNat / 512 % 128 ≠ 0 := by
  rw [Bool.or_eq_true, Bool.or_eq_true, decide_eq_true_eq, decide_eq_true_eq, decide_eq_true_eq, bitsOf_top_ne_zero (lo := 28) a (by decide)]
  unfold bitsOf fld
  omega

theorem fgmarkReserved_iff (a b : Word) :
    (decide (bitsOf a 2 62 ≠ 0) || decide (bitsOf b 29 35 ≠ 0)) = true ↔ 4 ≤ a.toNat ∨ 2 ^ 29 ≤ b.toNat := by
  rw [Bool.or_eq_true, decide_eq_true_eq, decide_eq_true_eq, bitsOf_top_ne_zero a (by decide), bitsOf_top_ne_zero b (by decide)]
  rfl

/-- The hop that FGWIN names. -/
theorem fgwinHop {a : Word} (h : a.toNat < 12) : bitsOf a 2 2 = a.toNat / 4 := Nat.mod_eq_of_lt (by omega)

/-- The leg wrap count that FGMARK names. -/
theorem fgmarkLeg {b : Word} (h : b.toNat < 2 ^ 29) : bitsOf b 24 5 = b.toNat / 2 ^ 24 := Nat.mod_eq_of_lt (by omega)

/-- The group that FGMC names. -/
theorem fgmcGroup {a : Word} (h : a.toNat < 2 ^ 28) : bitsOf a 16 12 = a.toNat / 2 ^ 16 := Nat.mod_eq_of_lt (by omega)

theorem fgmc_joins {a : Word} (h : a.toNat / 256 % 2 = 1) : bitOf a 8 = true := (bitOf_eq a 8).trans (decide_eq_true h)

theorem fgmc_leaves {a : Word} (h : a.toNat / 256 % 2 = 0) : bitOf a 8 = false :=
  (bitOf_eq a 8).trans (decide_eq_false (ne_of_eq_of_ne h zero_ne_one))

/-! ### FGPACE (R337) -/

/-- What FGPACE subscribes the core to. -/
def paceOf (s : State) (a b : Word) : Pace :=
  { walk := walkOf s a, th := BitVec.ofNat 32 (bitsOf b 0 32), step := BitVec.ofNat 32 (bitsOf b 32 32), hops := BitVec.ofNat 3 (bitsOf a 8 3) }

theorem paceOf_eq {s : State} {a b : Word} : paceOf s a b =
    { walk := walkOf s a, th := b.setWidth 32, step := BitVec.ofNat 32 (b.toNat / 2 ^ 32), hops := BitVec.ofNat 3 (a.toNat / 256) } := by
  unfold paceOf
  rw [ofNat_bitsOf_low, ofNat_bitsOf, ofNat_bitsOf]
  rfl

theorem fgpace_subscribes {a : Word} (h : a.toNat / 128 % 2 = 1) : bitOf a 7 = true := (bitOf_eq a 7).trans (decide_eq_true h)

theorem fgpace_ends {a : Word} (h : a.toNat / 128 % 2 = 0) : bitOf a 7 = false :=
  (bitOf_eq a 7).trans (decide_eq_false (ne_of_eq_of_ne h zero_ne_one))

theorem ofNat_bitsOf_eq_zero {w : Nat} (x : BitVec w) (lo n : Nat) : BitVec.ofNat n (bitsOf x lo n) = 0 ↔ bitsOf x lo n = 0 :=
  ofNat_fld_eq_iff _ _ 0

theorem fgpaceReserved_iff (s : State) (a b : Word) : (decide (bitsOf a 2 5 ≠ 0) || decide (bitsOf a 11 53 ≠ 0)
      || (bitOf a 7 && (decide ((paceOf s a b).step = 0) || decide ((paceOf s a b).hops = 0)))) = true ↔
    a.toNat / 4 % 32 ≠ 0 ∨ 2 ^ 11 ≤ a.toNat ∨ (a.toNat / 128 % 2 = 1 ∧ (a.toNat / 256 % 8 = 0 ∨ b.toNat / 2 ^ 32 = 0)) := by
  simp only [Bool.or_eq_true, Bool.and_eq_true, decide_eq_true_eq, bitOf_eq, bitsOf_top_ne_zero a (show 64 ≤ 11 + 53 by decide), paceOf, ofNat_bitsOf_eq_zero,
    or_assoc]
  rw [bitsOf_high, or_comm (a := b.toNat / 2 ^ 32 = 0)]
  rfl

/-- FGLATE of a hop of a walk that the stream's job owns. -/
theorem fglateReads {s : State} {a : Word} (h3 : a.toNat / 4 % 4 ≠ 3) (ho : ownedHere s (walkAt s (walkOf s a)) = true) :
    ¬ (decide (bitsOf a 2 2 = 3) || !ownedHere s (walkAt s (walkOf s a))) = true := by
  rw [ho, Bool.not_true, Bool.or_false, decide_eq_true_eq]
  exact h3

/-- Settles O41: the reserved bits by the lemmas above, then the walk and the fields. -/
theorem foragerWords : Obligations.ForagerWords := by
  unfold Obligations.ForagerWords
  refine ⟨fun o => ⟨?_, ?_, ?_, ?_, ?_, ?_, ?_, ?_, ?_, ?_, ?_, ?_, ?_, ?_, ?_⟩, fun o => ⟨?_, ?_, ?_, ?_, ?_, ?_, ?_, ?_, ?_⟩, fun o => ⟨?_, ?_, ?_, ?_⟩, fun s a h => ?_⟩
  · refine performs_of_body (fun _ => rfl) fun s ⟨ha, hb, h32, hi, hf⟩ => ?_
    refine (if_neg (fgstartReserved_clear ha hb)).trans ((if_neg (not_not_intro h32)).trans ((if_neg (not_not_intro hi)).trans
      ((if_neg (ne_true_of_eq_false hf)).trans ?_)))
    rw [bitsOf_low]
    rfl
  · intro s hs ha hb h32 hi hf
    exact issue_hold hs ((if_neg (fgstartReserved_clear ha hb)).trans ((if_neg (not_not_intro h32)).trans ((if_neg (not_not_intro hi)).trans (if_pos hf))))
  · exact traps_of_body (fun _ => rfl) fun s ⟨ha, hb, h32⟩ => (if_neg (fgstartReserved_clear ha hb)).trans (if_pos h32)
  · exact traps_of_body (fun _ => rfl) fun s ⟨ha, hb, h32, hi⟩ =>
      (if_neg (fgstartReserved_clear ha hb)).trans ((if_neg (not_not_intro h32)).trans (if_pos hi))
  · refine performs_of_body (fun _ => rfl) fun s ⟨ha, hb, hu⟩ => ?_
    refine (if_neg (mt (fgwinReserved_iff _ _).1 (by omega))).trans ((if_neg (ne_true_of_eq_false hu)).trans ?_)
    rw [fgwinHop ha, bitsOf_high, bitsOf_low]
  · refine performs_of_body (fun _ => rfl) fun s ⟨he, ha, hl⟩ => ?_
    have hen : bitOf (rdS s o.a) 7 = false := fgpace_ends he
    refine (if_neg (mt (fgpaceReserved_iff s _ (rdS s o.b)).1 (by omega))).trans ((if_neg ?_).trans ?_)
    · simp [hen]
    · simp only [hen]
      rfl
  · refine performs_of_body (fun _ => rfl) fun s ⟨he, ha, hl, hh, hb, hu⟩ => ?_
    have hen : bitOf (rdS s o.a) 7 = true := fgpace_subscribes he
    refine (if_neg (mt (fgpaceReserved_iff s _ _).1 (by omega))).trans ((if_neg ?_).trans ?_)
    · simp [hu]
    · rw [← paceOf_eq]
      simp only [hen]
      rfl
  · refine performs_of_body (fun _ => rfl) fun s ⟨ha, hb, hu⟩ => ?_
    refine (if_neg (mt (fgmarkReserved_iff _ _).1 (by omega))).trans ((if_neg (ne_true_of_eq_false hu)).trans ?_)
    rw [bitsOf_low, fgmarkLeg hb]
  · exact traps_of_body (fun _ => rfl) fun s h => if_pos ((fgstartReserved_iff _ _).2 h)
  · exact traps_of_body (fun _ => rfl) fun s h => if_pos ((fgwinReserved_iff _ _).2 h)
  · exact traps_of_body (fun _ => rfl) fun s h => if_pos ((fgpaceReserved_iff s _ _).2 h)
  · exact traps_of_body (fun _ => rfl) fun s h => if_pos ((fgmarkReserved_iff _ _).2 h)
  · exact traps_of_body (fun _ => rfl) fun s ⟨ha, hb, hu⟩ => (if_neg (mt (fgwinReserved_iff _ _).1 (by omega))).trans (if_pos hu)
  · refine traps_of_body (fun _ => rfl) fun s ⟨he, ha, hl, hh, hb, hu⟩ => ?_
    exact (if_neg (mt (fgpaceReserved_iff s _ _).1 (by omega))).trans (if_pos (by rw [fgpace_subscribes he, hu]; rfl))
  · exact traps_of_body (fun _ => rfl) fun s ⟨ha, hb, hu⟩ => (if_neg (mt (fgmarkReserved_iff _ _).1 (by omega))).trans (if_pos hu)
  · refine performs_of_body (fun _ => rfl) fun s ⟨ha, hf⟩ => ?_
    exact (if_neg (not_not_intro ((bitsOf_top_eq_zero _ (by decide)).2 ha))).trans (if_neg (ne_true_of_eq_false hf))
  · refine traps_of_body (fun _ => rfl) fun s ⟨ha, hf⟩ => ?_
    exact (if_neg (not_not_intro ((bitsOf_top_eq_zero _ (by decide)).2 ha))).trans (if_pos hf)
  · refine performs_of_body (fun _ => rfl) fun s ⟨hl, h4, h256, hu⟩ => ?_
    refine (if_neg (mt (fgmcReserved_iff _).1 (by omega))).trans ((if_neg (ne_true_of_eq_false hu)).trans ((if_pos ?_).trans ?_))
    · rw [fgmc_leaves (by omega)]
      rfl
    · rw [fgmcGroup hl]
  · refine performs_of_body (fun _ => rfl) fun s ⟨hl, h4, h256, hk, hu, hm, hn⟩ => ?_
    have hg := fgmcGroup hl
    refine (if_neg (mt (fgmcReserved_iff _).1 (by omega))).trans ((if_neg (ne_true_of_eq_false hu)).trans ((if_neg ?_).trans
      ((checked_ok (by rw [hg]; exact groupKnown_of hk)).trans ((if_neg ?_).trans ((if_neg (Nat.not_le.2 hn)).trans ?_)))))
    · simp [fgmc_joins (a := rdS s o.a) (by omega)]
    · rwa [hg, List.contains_iff_mem]
    · rw [hg]
  · refine performs_of_body (fun _ => rfl) fun s ⟨hl, h4, h256, hk, hu, hm⟩ => ?_
    have hg := fgmcGroup hl
    refine (if_neg (mt (fgmcReserved_iff _).1 (by omega))).trans ((if_neg (ne_true_of_eq_false hu)).trans ((if_neg ?_).trans
      ((checked_ok (by rw [hg]; exact groupKnown_of hk)).trans (if_pos ?_))))
    · simp [fgmc_joins (a := rdS s o.a) (by omega)]
    · rwa [hg, List.contains_iff_mem]
  · exact traps_of_body (fun _ => rfl) fun s h => if_pos ((bitsOf_top_ne_zero _ (by decide)).2 h)
  · exact traps_of_body (fun _ => rfl) fun s h => if_pos ((fgmcReserved_iff _).2 h)
  · exact traps_of_body (fun _ => rfl) fun s ⟨hl, h4, h512, hu⟩ => (if_neg (mt (fgmcReserved_iff _).1 (by omega))).trans (if_pos hu)
  · refine traps_of_body (fun _ => rfl) fun s ⟨hl, h4, h512, h256, hu, hg⟩ => ?_
    refine (if_neg (mt (fgmcReserved_iff _).1 (by omega))).trans ((if_neg (ne_true_of_eq_false hu)).trans ((if_neg (by simp [fgmc_joins h256])).trans ?_))
    rw [← fgmcGroup hl] at hg
    by_cases hk : groupKnown s (bitsOf (rdS s o.a) 16 12) = true
    · obtain ⟨hm, hn⟩ := hg.resolve_left (ne_false_of_eq_true hk)
      exact (checked_ok hk).trans ((if_neg (mt List.contains_iff_mem.1 hm)).trans (if_pos hn))
    · exact checked_refused (Bool.eq_false_iff.2 hk)
  · exact scalarDoes_of_body fun _ => rfl
  · refine performs_of_body (fun _ => rfl) fun s h => if_pos ?_
    rw [Bool.or_eq_true, decide_eq_true_eq, Bool.not_eq_true']
    exact h
  · refine performs_of_body (fun _ => rfl) fun s ⟨h3, ho, hc⟩ => (if_neg (fglateReads h3 ho)).trans ?_
    simp only [bitOf, hc]
    rfl
  · refine performs_of_body (fun _ => rfl) fun s ⟨h3, ho, hc⟩ => (if_neg (fglateReads h3 ho)).trans ?_
    simp only [bitOf, hc]
    rfl
  · have hv : ¬ (decide ((walkAt s (walkOf s a)).state ≠ .idle) && !ownedHere s (walkAt s (walkOf s a))) = true := by
      unfold ownedHere
      rcases h with h | h <;> simp [h]
    have hf : bitsOf a 4 4 = a.toNat / 16 % 16 := rfl
    refine ⟨fun hn => ?_, fun hn => ?_, fun hn => ?_⟩
    all_goals
      refine (if_neg hv).trans ?_
      rw [hf, hn]
      rfl

end Sys2Proof.Machine
end

