-- ==== Sys2Proof/Proofs/ForagerEvents.lean ====
section
/-! O46: the events of a walk and its legs, each as its function in Machine/Forager.lean performs it. -/

namespace Sys2Proof.Machine

/-! ### Events on a walk -/

theorem atWalk_of_lt {w : Nat} (f : State → State) (s : State) (h : w < 8) : atWalk w f s = .next (f s) := if_pos h

/-- An event of a walk that performs `f` there happens as `f` does. -/
theorem happens_of_atWalk {i : Instr} {w : Nat} {ok : State → Prop} {eff : State → State} (f : Nat → EventArg → State → State)
    (hi : ∀ s, exec i s = atWalk s.arg.core (f s.arg.core s.arg) s) (hw : ∀ s, ok s → s.arg.core = w ∧ w < 8)
    (h : ∀ s, ok s → f w s.arg s = eff s) : happens i ok eff := by
  intro s hs
  obtain ⟨rfl, hl⟩ := hw s hs
  rw [hi s, atWalk_of_lt _ _ hl, h s hs]

section
variable {s : State} {w o : Nat} {j : LegJob}

/-! ### Reading legs (R322) -/

theorem readLeg_unreadable {e : XlatFail} (hc : canReadLeg (walkAt s w) = true)
    (he : (translateDie (w / 4) s ((walkAt s w).access false) ((walkAt s w).base + 32 * (walkAt s w).readNext)).result = .error e) :
    readLeg w s = drainWalk w (onWalk w (fun x => x.fail 1 x.readNext)
      (translateDie (w / 4) s ((walkAt s w).access false) ((walkAt s w).base + 32 * (walkAt s w).readNext)).state) := by
  unfold readLeg
  simp only [hc, he]
  rfl

/-- A walk that has started, and reads a sound leg of no group, appends it. -/
theorem readLeg_reads {p : Xlat} {r : Translated} (hr : translateDie (w / 4) s ((walkAt s w).access false) ((walkAt s w).base + 32 * (walkAt s w).readNext) = r)
    (hc : canReadLeg (walkAt s w) = true) (hst : (walkAt s w).starting = none) (hp : r.result = .ok p) (hb : (readCellAt r.state p).bad = false)
    (ht : tagF (readCellAt r.state p).data.tag ≠ 0xFF) (hm : legMalformed (memNum r.state p.pa 32) = false)
    (hmc : (memNum r.state p.pa 32).testBit 188 = false) :
    readLeg w s = onWalk w (fun x => { x with
        legs := x.legs ++ [{ leg := legOf (walkAt s w).readNext (memNum r.state p.pa 32), order := (walkAt s w).order
                             dueAt := (walkAt s w).origin.toInt + (legOf (walkAt s w).readNext (memNum r.state p.pa 32)).due, state := .read, moved := 0, arrive := 0
                             held := [], spoil := false, source := none }]
        order := x.order + 1, readNext := x.readNext + 1, readAt := s.now, origin := (walkAt s w).origin, starting := none : Walk }.touchMark)
      (countRead p.tier p.desc p.pa 32 r.state) := by
  have hno : (legOf (walkAt s w).readNext (memNum r.state p.pa 32)).mc = false := hmc
  unfold readLeg
  simp only [hr, hc, hst, hp, hb, hm, ht, hno, decide_false]
  rfl

/-! ### Starting legs (R323) -/

theorem startLeg_started (hj : legAt s w o = some j) (hc : canStartLeg s w j = true) (hf : legStartFault s (walkAt s w) j.leg = none)
    (hl : j.leg.listen = false) (hm : j.leg.mc = false) : startLeg w o s =
      { setWalk w (((walkAt s w).setHop j.leg.hop { (walkAt s w).hop j.leg.hop with infc := ((walkAt s w).hop j.leg.hop).infc + j.leg.cells }).setLeg
          { j with state := .moving, arrive := s.now + Config.fetchLatency s.tick }).touchMark s with tick := s.tick + 1 } := by
  unfold startLeg
  simp only [hj, hc, hf, hl, hm]
  rfl

theorem canStartLeg_early (h : (s.now : Int) < j.dueAt - ((walkAt s w).hop j.leg.hop).lead.toNat) : canStartLeg s w j = false := by
  have hd : decide (j.dueAt - (((walkAt s w).hop j.leg.hop).lead.toNat : Int) ≤ (s.now : Int)) = false := decide_eq_false (Int.not_le.2 h)
  unfold canStartLeg
  simp only [hd, Bool.and_false, Bool.false_and]

theorem startLeg_waits (hj : legAt s w o = some j) (hc : canStartLeg s w j = false) : startLeg w o s = s := by
  unfold startLeg
  simp only [hj, hc]
  rfl

theorem controlLeg_wraps (hs : (walkAt s w).state = .running) (hj : (walkAt s w).legs.find? (·.unstarted) = some j) (hh : j.leg.hop = 6) :
    controlLeg w s = setWalk w { walkAt s w with
      legs := (walkAt s w).legs.filter fun k => k.order != j.order, origin := (walkAt s w).origin + BitVec.ofNat 64 j.leg.due, readNext := 0
      wraps := (walkAt s w).wraps + 1 : Walk }.touchMark s := by
  unfold controlLeg Leg.isControl
  simp only [hj, hs, hh]
  rfl

theorem controlLeg_ends (hs : (walkAt s w).state = .running) (hj : (walkAt s w).legs.find? (·.unstarted) = some j) (hh : j.leg.hop = 7) :
    controlLeg w s = drainWalk w (setWalk w { walkAt s w with legs := (walkAt s w).legs.filter fun k => k.order != j.order } s) := by
  unfold controlLeg Leg.isControl
  simp only [hj, hs, hh]
  rfl

/-! ### Writing what a leg holds (R324) -/

theorem pumpLeg_held (hj : legAt s w o = some j) (h : heldBack s w j = true ∨ legWriteHeld s w j.leg = true) : pumpLeg w o s = s := by
  unfold pumpLeg
  simp only [hj]
  refine if_pos ?_
  rcases h with h | h <;> simp [h]

theorem pumpLeg_last {t : State} (hj : legAt s w o = some j) (hd : j.done = false) (hh : heldBack s w j = false) (hw : legWriteHeld s w j.leg = false)
    (hp : putHeldCells w j.leg j.moved j.held s = (t, none)) (hm : j.moved + j.held.length = j.leg.cells) (hs : j.spoil = false) :
    pumpLeg w o s = wroteLast w j t := by
  unfold pumpLeg
  simp only [hj, hd, hh, hw, hp, hm, hs]
  rfl

/-- Where no bank is blocked, none holds a leg back (R403). -/
theorem walkSpanHeld_of_none (h : s.tiers.blocked = []) (va n : Nat) (b : Bool) : walkSpanHeld s w va n b = false := by
  unfold walkSpanHeld
  rw [h]
  rfl

/-! ### Multicast legs (R328) -/

theorem sendLeg_waits (hj : legAt s w o = some j) (hc : canSend s w j = false) : sendLeg w o s = s := by
  unfold sendLeg
  simp only [hj, hc]
  rfl

/-- A source leg whose group lies in this module sends each cell that it has read to every walk of the group. -/
theorem sendLeg_sends {m : State × List (CellData × Bool) × Option Nat} (hj : legAt s w o = some j) (hc : canSend s w j = true) (hs : s.members = [])
    (hm : readLegCells w j.leg j.leg.cells 0 { onWalk w (fun x => { x with sent := (j.leg.group, j.leg.legno) :: x.sent }) s with
      notices := s.notices.filter fun n => !(decide (n.group = j.leg.group) && decide (n.legno = j.leg.legno)) } = m) (he : m.2.2 = none) :
    sendLeg w o s = pumpLeg w o ((onWalk w (fun x => x.setLeg { j with state := .moving, held := m.2.1, spoil := false })
      { m.1 with tick := m.1.tick + 1 }).raise
        (m.2.1.map fun c => (groupWalks s j.leg.group).map (legCellEvent (s.ownModule * 8 + w) j.leg.group j.leg.legno j.leg.cells c)).flatten) := by
  have haway : (m.2.1.flatMap fun c => s.members.map fun x => (x, FlitAct.legCell j.leg.group j.leg.legno w j.leg.cells c.1 c.2)) = [] := by
    rw [hs]
    exact List.flatMap_eq_nil_iff.2 fun _ _ => rfl
  unfold sendLeg
  simp only [hj, hc, hm, haway, he]
  rfl

theorem silentLeg_faults (hj : legAt s w o = some j) (hs : j.state = .open_) (hd : j.dueAt + 2 ^ 24 ≤ (s.now : Int)) :
    silentLeg w o s = failLeg w j 7 s := by
  unfold silentLeg
  simp only [hj]
  refine if_pos ?_
  rw [isSilent, decide_eq_true hs, decide_eq_true hd]
  rfl

/-- No leg that has taken a cell of another source takes this one. -/
theorem listening_other {x : Walk} {src g n : Nat} (hs : j.state = .moving) (hn : j.source ≠ some src) : listening x src g n ≠ some j := by
  intro h
  have hp := List.find?_some h
  simp [hs, hn] at hp

/-! ### Landings (R325, R326) -/

theorem canMove_of_state (h : j.state ≠ .moving) : canMove s w j = false := by
  unfold canMove
  simp [h]

theorem canPump_of_state (h : j.state ≠ .moving) : canPump s w j = false := by
  unfold canPump
  simp [h]

theorem canLand_iff : canLand s w j = true ↔ j.state = .written ∧ j.arrive < s.now
    ∧ ∀ k ∈ (walkAt s w).legs, k.state = .written → ¬ (k.arrive < j.arrive ∨ (k.arrive = j.arrive ∧ k.order < j.order)) := by
  simp only [canLand, Bool.and_eq_true, decide_eq_true_eq, List.all_eq_true, Bool.not_eq_true', ← Bool.not_eq_true, Bool.or_eq_true, not_and, and_assoc]

theorem advanceLeg_moves (hj : legAt s w o = some j) (hc : canMove s w j = true) (hm : (moveCells w j.leg (j.leg.cells - j.moved) j.moved s).2 = none) :
    advanceLeg w o s = wroteLast w j { (moveCells w j.leg (j.leg.cells - j.moved) j.moved s).1 with
      tick := (moveCells w j.leg (j.leg.cells - j.moved) j.moved s).1.tick + 1 } := by
  unfold advanceLeg
  simp only [hj, hc, hm]
  rfl

theorem advanceLeg_lands (hj : legAt s w o = some j) (hc : canLand s w j = true) : advanceLeg w o s = landLeg w j s := by
  have hs : j.state ≠ .moving := by simp [(canLand_iff.1 hc).1]
  unfold advanceLeg
  simp only [hj, canMove_of_state hs, canPump_of_state hs, hc]
  rfl

theorem advanceLeg_signals (hj : legAt s w o = some j) (hs : j.state = .signalling) : advanceLeg w o s = signalLeg w j s := by
  have hm : j.state ≠ .moving := by simp [hs]
  have hl : canLand s w j = false := by simp [canLand, hs]
  unfold advanceLeg
  simp only [hj, canMove_of_state hm, canPump_of_state hm, hl, hs]
  rfl

theorem landLeg_silent (h : j.leg.semen = false) :
    let x := (walkAt s w).shrink j
    let y := x.setHop j.leg.hop ((x.hop j.leg.hop).landed j.arrive j.dueAt)
    landLeg w j s = retireLeg w j (mapCores (paceCore y w j.leg.hop) (setWalk w y s)) := by
  unfold landLeg signalAway signalCore
  simp only [h]
  rfl

/-! ### Marks (R337) -/

theorem fireMark_fires {c e n : Nat} (hm : (walkAt s w).mark = some (c, e, n)) (hr : markReady (walkAt s w) = true) :
    fireMark w s = settleWalk w (onCore c (raiseFlag e) (setWalk w { walkAt s w with mark := none, markHit := none } s)) := by
  unfold fireMark
  simp only [hm, hr]
  rfl

end

/-! ### Notices and cells (R328) -/

theorem takeNotice_holds {n : Notice} {s : State} (hs : ∀ w, w < 8 → (n.group, n.legno) ∉ (walkAt s w).sent) (hn : n ∉ s.notices) :
    takeNotice n s = { s with notices := s.notices ++ [n] } := by
  unfold takeNotice
  rw [if_neg (by simpa using hs), if_neg (by simpa using hn)]

theorem takeNotice_gone {n : Notice} {s : State} (h : ∃ w, w < 8 ∧ (n.group, n.legno) ∈ (walkAt s w).sent) : takeNotice n s = answerGone n s :=
  if_pos (by simpa using h)

section
variable {s : State} {w src g n a : Nat} {c : CellData × Bool} {j : LegJob}

/-- The ready notices that a cell of a leg leaves: those of other legs. -/
def noticesLeft (g n : Nat) (s : State) : State := { s with notices := s.notices.filter fun m => !(decide (m.group = g) && decide (m.legno = n)) }

theorem arriveCell_dropped (h : listening (walkAt s w) src g n = none) :
    arriveCell w src g n a c s = onWalk w (fun x => { x with drop := min (x.drop + 1) (2 ^ 32 - 1) }) (noticesLeft g n s) := by
  have hl : listening (walkAt (noticesLeft g n s) w) src g n = none := h
  unfold noticesLeft at hl
  unfold arriveCell
  simp only [hl]
  rfl

theorem arriveCell_refused (h : listening (walkAt s w) src g n = some j) (ha : a ≠ j.leg.cells) :
    arriveCell w src g n a c s = failLeg w j 6 (noticesLeft g n s) := by
  have hl : listening (walkAt (noticesLeft g n s) w) src g n = some j := h
  unfold noticesLeft at hl
  unfold arriveCell
  simp only [hl]
  exact if_pos ha

theorem arriveCell_taken (h : listening (walkAt s w) src g n = some j) (ha : a = j.leg.cells) : arriveCell w src g n a c s =
    pumpLeg w j.order (onWalk w (fun x => x.setLeg { j with state := .moving, source := some src, held := j.held ++ [c] }) (noticesLeft g n s)) := by
  have hl : listening (walkAt (noticesLeft g n s) w) src g n = some j := h
  unfold noticesLeft at hl
  unfold arriveCell
  simp only [hl]
  exact if_neg (not_not_intro ha)

/-- An arriving cell is taken to its walk. -/
theorem exec_multicastCellArrival {d : CellData} {b : Bool} (hw : s.arg.core < 8) (hd : s.arg.data = .legCell d b) : exec .multicastCellArrival s =
    .next (arriveCell s.arg.core (s.arg.a / 2 ^ 44) (s.arg.a / 2 ^ 32 % 2 ^ 12) (s.arg.a % 2 ^ 32) s.arg.b (d, b) s) := by
  show execMulticastCellArrival s = _
  unfold execMulticastCellArrival
  rw [hd]
  exact atWalk_of_lt _ s hw

theorem exec_readyNotice {m : Word} (hd : s.arg.data = .word m) :
    exec .readyNotice s = .next (takeNotice { group := s.arg.a, legno := s.arg.b, module := m.toNat, walk := s.arg.core } s) := by
  show execReadyNotice s = _
  unfold execReadyNotice
  rw [hd]

theorem goneLeg_faults (h : (walkAt s w).legs.find? (fun j => j.leg.listen && decide (j.state = .open_) && decide (j.leg.group = g) && decide (j.leg.legno = n)) = some j) :
    goneLeg w g n s = failLeg w j 6 s := by
  unfold goneLeg
  rw [h]

end

theorem landed_spec (h : Hop) (now : Nat) (d : Int) (hl : -(2 ^ 31) ≤ (now : Int) - d) (hu : (now : Int) - d < 2 ^ 31) :
    (h.landed now d).late = (now : Int) - d ∧ (h.landed now d).infc = h.infc
      ∧ ((now : Int) ≤ d → (h.landed now d).lcnt = h.lcnt) ∧ (d < (now : Int) → h.lcnt.toNat < 2 ^ 32 - 1 → (h.landed now d).lcnt = h.lcnt + 1) := by
  refine ⟨?_, rfl, fun hd => if_neg ?_, fun hd hc => if_pos ?_⟩
  · show max (-(2 ^ 31)) (min (2 ^ 31 - 1) ((now : Int) - d)) = (now : Int) - d
    rw [min_eq_right (by omega), max_eq_right hl]
  · rw [Bool.and_eq_true, decide_eq_true_eq]
    omega
  · rw [Bool.and_eq_true, decide_eq_true_eq, bne_iff_ne]
    refine ⟨by omega, fun he => ?_⟩
    rw [he, BitVec.toNat_allOnes] at hc
    exact absurd hc (lt_irrefl _)

/-- Settles O46: each event by what its function does where the clause says. -/
theorem foragerEvents : Obligations.ForagerEvents := by
  unfold Obligations.ForagerEvents
  refine ⟨fun p w => ⟨?_, fun e => ?_⟩, fun w o j => ⟨?_, ?_, ?_, ?_, fun s => ?_, ?_, ?_, fun s => pumpLeg_held, ?_, ?_, ?_, ?_, ?_, fun s => landLeg_silent, fun s k hc hk hw ha => ?_⟩, ?_, ?_, ?_, landed_spec, fun s hs => if_neg (Nat.not_lt.2 hs)⟩
  · exact happens_of_atWalk (fun w _ => readLeg w) (fun _ => rfl) (fun s ⟨hc, hw, _⟩ => ⟨hc, hw⟩)
      fun s ⟨_, _, hc, hst, hp, hb, ht, hm, hmc⟩ => readLeg_reads rfl hc hst hp hb ht hm hmc
  · exact happens_of_atWalk (fun w _ => readLeg w) (fun _ => rfl) (fun s ⟨hc, hw, _⟩ => ⟨hc, hw⟩) fun s ⟨_, _, hc, he⟩ => readLeg_unreadable hc he
  · refine happens_of_atWalk (fun w x => startLeg w x.a) (fun _ => rfl) (fun s ⟨hc, _, hw, _⟩ => ⟨hc, hw⟩) ?_
    rintro s ⟨-, rfl, -, hj, hc, hf, hl, hm⟩
    exact startLeg_started hj hc hf hl hm
  · refine happens_of_atWalk (fun w x => startLeg w x.a) (fun _ => rfl) (fun s ⟨hc, _, hw, _⟩ => ⟨hc, hw⟩) ?_
    rintro s ⟨-, rfl, -, hj, hd⟩
    exact startLeg_waits hj (canStartLeg_early hd)
  · exact happens_of_atWalk (fun w _ => controlLeg w) (fun _ => rfl) (fun s ⟨hc, hw, _⟩ => ⟨hc, hw⟩) fun s ⟨_, _, hs, hj, hh⟩ => controlLeg_wraps hs hj hh
  · exact happens_of_atWalk (fun w _ => controlLeg w) (fun _ => rfl) (fun s ⟨hc, hw, _⟩ => ⟨hc, hw⟩) fun s ⟨_, _, hs, hj, hh⟩ => controlLeg_ends hs hj hh
  · rintro rfl rfl hw hj hc s1 m he hs
    exact (atWalk_of_lt _ s hw).trans (congrArg _ (sendLeg_sends hj hc hs rfl he))
  · rintro s rfl rfl hw hj hc
    exact (atWalk_of_lt _ s hw).trans (congrArg _ (sendLeg_waits hj hc))
  · exact fun s t => pumpLeg_last
  · intro s h
    exact ⟨by rw [legReadHeld, walkSpanHeld_of_none h, Bool.and_false], by rw [legWriteHeld, walkSpanHeld_of_none h, Bool.and_false]⟩
  · refine happens_of_atWalk (fun w x => silentLeg w x.a) (fun _ => rfl) (fun s ⟨hc, _, hw, _⟩ => ⟨hc, hw⟩) ?_
    rintro s ⟨-, rfl, -, hj, hs, hd⟩
    exact silentLeg_faults hj hs hd
  · refine happens_of_atWalk (fun w x => advanceLeg w x.a) (fun _ => rfl) (fun s ⟨hc, _, hw, _⟩ => ⟨hc, hw⟩) ?_
    rintro s ⟨-, rfl, -, hj, hc, hm⟩
    exact advanceLeg_moves hj hc hm
  · refine happens_of_atWalk (fun w x => advanceLeg w x.a) (fun _ => rfl) (fun s ⟨hc, _, hw, _⟩ => ⟨hc, hw⟩) ?_
    rintro s ⟨-, rfl, -, hj, hc⟩
    exact advanceLeg_lands hj hc
  · refine happens_of_atWalk (fun w x => advanceLeg w x.a) (fun _ => rfl) (fun s ⟨hc, _, hw, _⟩ => ⟨hc, hw⟩) ?_
    rintro s ⟨-, rfl, -, hj, hs⟩
    exact advanceLeg_signals hj hs
  · obtain ⟨-, hl, hall⟩ := canLand_iff.1 hc
    have hk := hall k hk hw
    omega
  · intro m s hd n
    rw [exec_readyNotice hd]
    exact ⟨fun hs hn => congrArg _ (takeNotice_holds hs hn), fun h => congrArg _ (takeNotice_gone h)⟩
  · refine fun w j => ⟨happens_of_atWalk (fun w x => goneLeg w x.a x.b) (fun _ => rfl) (fun s ⟨hc, hw, _⟩ => ⟨hc, hw⟩) fun s ⟨_, _, hj⟩ => goneLeg_faults hj,
      fun c bad => ⟨?_, ?_, ?_, fun x src hs hn => listening_other hs hn⟩⟩
    · rintro s ⟨rfl, hw, hd, hl⟩
      exact (exec_multicastCellArrival hw hd).trans (congrArg _ (arriveCell_dropped hl))
    · rintro s ⟨rfl, hw, hd, hl, ha⟩
      exact (exec_multicastCellArrival hw hd).trans (congrArg _ (arriveCell_refused hl ha))
    · rintro s ⟨rfl, hw, hd, hl, ha⟩
      exact (exec_multicastCellArrival hw hd).trans (congrArg _ (arriveCell_taken hl ha))
  · exact fun w c e n => happens_of_atWalk (fun w _ => fireMark w) (fun _ => rfl) (fun s ⟨hc, hw, _⟩ => ⟨hc, hw⟩) fun s ⟨_, _, hm, hr⟩ => fireMark_fires hm hr

end Sys2Proof.Machine
end

