-- ==== Sys2Proof/Proofs/LaunchWords.lean ====
section
/-! O42: each launch and task word by its checks in order; a cell that a word only reads leaves the scheduler as it was. -/

namespace Sys2Proof.Machine

/-! ### The cores of a state -/

theorem swapCore_fst (n : Nat) (c : CoreState) : ∀ l, (swapCore n c l).map Prod.fst = l.find? fun d => decide (d.num = n)
  | [] => rfl
  | d :: rest => by
    have ih := swapCore_fst n c rest
    rw [swapCore, List.find?_cons]
    by_cases h : d.num = n
    · simp [h]
    · rw [if_neg h, decide_eq_false h, ← ih]
      cases swapCore n c rest <;> rfl

theorem coreAt_eq_find (n : Nat) (s : State) : coreAt n s = (s.core :: s.others).find? fun d => decide (d.num = n) := by
  rw [coreAt, focus, List.find?_cons]
  by_cases h : s.core.num = n
  · simp [h]
  · rw [if_neg h, decide_eq_false h, ← swapCore_fst n s.core]
    cases swapCore n s.core s.others <;> rfl

/-- What every core of the module shows of itself is unchanged when the core in focus shows the same. -/
theorem coreAt_map_congr {α : Type} {f : CoreState → α} {s t : State} (hn : t.core.num = s.core.num) (hf : f t.core = f s.core)
    (ho : t.others = s.others) (n : Nat) : (coreAt n t).map f = (coreAt n s).map f := by
  rw [coreAt_eq_find, coreAt_eq_find, ho, List.find?_cons, List.find?_cons, hn]
  cases decide (s.core.num = n) with
  | true => exact congrArg some hf
  | false => rfl

theorem coresWhere_congr {α : Type} {f : CoreState → α} {s t : State} (hf : ∀ n, (coreAt n t).map f = (coreAt n s).map f) (g : α → Bool) :
    coresWhere t (fun c => g (f c)) = coresWhere s fun c => g (f c) := by
  unfold coresWhere
  refine List.filter_congr fun n _ => ?_
  have h := congrArg (fun x => x.any g) (hf n)
  simpa [Option.any_map] using h

/-! ### Cells that a word reads (R358) -/

theorem stageOccupancy_sawScratch (s : State) (k : Fin 16) (a n j i : Nat) : stageOccupancy (sawScratch k a n s) j i = stageOccupancy s j i := by
  have hp := coreAt_map_congr (f := CoreState.place) (s := s) (t := sawScratch k a n s) rfl rfl rfl
  have hx := coreAt_map_congr (f := fun c => c.inbox.length) (s := s) (t := sawScratch k a n s) rfl rfl rfl
  have hc : stageCores (sawScratch k a n s) j i = stageCores s j i := coresWhere_congr hp fun p => decide (p = some (j, i))
  unfold stageOccupancy
  rw [hc]
  refine congrArg₂ (· + ·) rfl (congrArg List.sum (List.map_congr_left fun m _ => ?_))
  have h := congrArg (Option.getD · 0) (hx m)
  revert h
  cases coreAt m (sawScratch k a n s) <;> cases coreAt m s <;> exact id

theorem cellsTrap_misaligned {s : State} {a n : Nat} {reads : Bool} (h : a % 64 ≠ 0) : cellsTrap s a n reads = some (.trap (mkTrap 0x03 0 a)) :=
  if_pos h

theorem cellsTrap_forbidden {s : State} {a n : Nat} {reads : Bool} (h : a % 64 = 0) (hp : s.cur.priv = false)
    (ht : touchesSr s.core a (64 * n) = true) : cellsTrap s a n reads = some (.trap (mkTrap 0x02 0 (max a (srLow s.core)))) :=
  (if_neg (not_not_intro h)).trans (if_pos (by simp [hp, ht]))

theorem cellsTrap_wraps {s : State} {a n : Nat} {reads : Bool} (h : a % 64 = 0) (hp : s.cur.priv = false)
    (ht : touchesSr s.core a (64 * n) = false) (hw : touchesSr s.core 0 (a + 64 * n - 2 ^ 22) = true) :
    cellsTrap s a n reads = some (.trap (mkTrap 0x02 0 (srLow s.core))) :=
  (if_neg (not_not_intro h)).trans ((if_neg (by simp [ht])).trans (if_pos (by rw [hp]; exact hw)))

theorem cellsTrap_writes {s : State} {a n : Nat} (h : a % 64 = 0)
    (hp : s.cur.priv = true ∨ (touchesSr s.core a (64 * n) = false ∧ touchesSr s.core 0 (a + 64 * n - 2 ^ 22) = false)) :
    cellsTrap s a n false = none := by
  refine (if_neg (not_not_intro h)).trans ((if_neg ?_).trans ((if_neg ?_).trans (if_neg Bool.false_ne_true)))
  · rcases hp with hp | ⟨hp, -⟩ <;> simp [hp]
  · rcases hp with hp | ⟨-, hp⟩
    · simp [hp]
    · exact ne_true_of_eq_false (by rw [show touchesSr s.core 0 (a + 64 * n - spadSize) = false from hp, Bool.and_false])

/-! ### Queues and swarms -/

theorem launchQueue_enqueue (q : Nat) (p : BitVec 512) (s : State) :
    (launchQueue (enqueue q p s) q).packets = (launchQueue s q).packets ++ [{ data := p, job := none, late := false }] := by
  show ((s.sched.queues.set (Fin.ofNat 64 q) _)[Fin.ofNat 64 q]).packets = _
  simp

theorem launchQueue_enqueue_ne {q r : Nat} (p : BitVec 512) (s : State) (hq : q < 64) (hr : r < 64) (h : r ≠ q) :
    launchQueue (enqueue q p s) r = launchQueue s r := by
  show (s.sched.queues.set (Fin.ofNat 64 q) _)[Fin.ofNat 64 r] = s.sched.queues[Fin.ofNat 64 r]
  have hne : (Fin.ofNat 64 q : Nat) ≠ (Fin.ofNat 64 r : Nat) := by
    show q % 64 ≠ r % 64
    omega
  exact Vector.getElem_set_ne _ _ hne

theorem launchStatus_disabled {s : State} {q : Nat} {p : BitVec 512} (h : (launchQueue s q).en = false) : launchStatus s q p = 2 :=
  if_pos (by simp [h])

theorem launchStatus_closed {s : State} {q : Nat} {p : BitVec 512} (hp : s.cur.priv = false) (h : (launchQueue s q).devok = false) :
    launchStatus s q p = 2 := if_pos (by simp [h, hp])

/-- Supervisor code is answered by the room of the queue alone. -/
theorem launchStatus_supervisor {s : State} {q : Nat} (p : BitVec 512) (h : (launchQueue s q).en = true) (hp : s.cur.priv = true) :
    launchStatus s q p = if 256 ≤ (launchQueue s q).packets.length then 1 else 0 := by
  simp [launchStatus, h, hp]

theorem takeBatch_empty {s : State} {w : Nat} (a : Nat) (h : (swarmAt s w).emitted = []) : takeBatch w a s = none := by
  simp [takeBatch, h]

theorem takeBatch_oldest {s : State} {w : Nat} (a : Nat) {b : Batch} {rest : List Batch} (h : (swarmAt s w).emitted = b :: rest) :
    takeBatch w a s = some (BitVec.ofNat 64 b.rows, storeCellBy .ctl 0 a { bytes := batchDescriptor b, tag := 0 }
      (setSwarm w { swarmAt s w with emitted := rest, taken := (swarmAt s w).taken ++ [b.num] } s)) := by
  simp [takeBatch, h]

/-! ### Words that name a cell -/

/-- The cell that an operand names. -/
theorem cellField (x : Word) : bitsOf x 0 22 = x.toNat % 2 ^ 22 := bitsOf_low x 22

/-- An effect, unless a check of the cells of its word traps. -/
def unlessTrap (t : Option Eff) (e : Eff) : Eff :=
  match t with
  | some t => t
  | none => e

section
variable {i : Instr} {u : Use} {x : SSrc} {n : Nat} {reads : Bool} {rest : State → Eff}
  (hi : ∀ s, exec i s = issue i u (fun s => unlessTrap (cellsTrap s (bitsOf (rdS s x) 0 22) n reads) (rest s)) s)
include hi

theorem cellWord_traps (r : TrapRec) : traps i u (fun s => cellsTrap s ((rdS s x).toNat % 2 ^ 22) n reads = some (.trap r)) fun _ => r :=
  traps_of_body hi fun s h => by rw [cellField, h]; rfl

theorem cellWord_trapsIn (r : TrapRec) :
    trapsIn i u (fun s => cellsTrap s ((rdS s x).toNat % 2 ^ 22) n reads = some (.trapIn (reportLine r.addr.toNat s) r)) (fun _ => r)
      fun s => reportLine r.addr.toNat s :=
  trapsIn_of_body hi fun s h => by rw [cellField, h]; rfl

theorem cellWord_misaligned : traps i u (fun s => (rdS s x).toNat % 64 ≠ 0) fun s => mkTrap 0x03 0 ((rdS s x).toNat % 2 ^ 22) :=
  traps_of_body hi fun s h => by rw [cellField, cellsTrap_misaligned (by omega)]; rfl

end

/-! ### LAUNCH (R359) -/

/-- The packet that LAUNCH reads. -/
def packetAt (s : State) (a : Nat) : BitVec 512 := BitVec.ofNat 512 (spadNum (s.viewed 0) a 64)

theorem launchStatus_sawScratch (s : State) (k : Fin 16) (a n q : Nat) (p : BitVec 512) :
    launchStatus (sawScratch k a n s) q p = launchStatus s q p := rfl

theorem queueField (x : Word) : bitsOf x 0 6 = x.toNat % 64 := bitsOf_low x 6

theorem launch_refuses (o : DABP) : performs (.launch o) (useDABP o)
    (fun s => cellsTrap s ((rdS s o.a).toNat % 2 ^ 22) 1 true = none ∧ farHeld (BitVec.allOnes 16) s = false
      ∧ launchStatus s ((rdS s o.b).toNat % 64) (packetAt s ((rdS s o.a).toNat % 2 ^ 22)) ≠ 0)
    (fun s => wrD o.d (BitVec.ofNat 64 (launchStatus s ((rdS s o.b).toNat % 64) (packetAt s ((rdS s o.a).toNat % 2 ^ 22)))) 64
      (sawScratch 0 ((rdS s o.a).toNat % 2 ^ 22) 64 s)) :=
  performs_of_body (fun _ => rfl) fun s ⟨hc, hf, hl⟩ => by
    simp only [cellField, queueField, hc, hf, launchStatus_sawScratch]
    exact (if_neg Bool.false_ne_true).trans (congrArg (fun t => Eff.done (wrD o.d _ 64 t)) (if_neg hl))

theorem launch_queues (o : DABP) : performs (.launch o) (useDABP o)
    (fun s => cellsTrap s ((rdS s o.a).toNat % 2 ^ 22) 1 true = none ∧ farHeld (BitVec.allOnes 16) s = false
      ∧ launchStatus s ((rdS s o.b).toNat % 64) (packetAt s ((rdS s o.a).toNat % 2 ^ 22)) = 0)
    (fun s => wrD o.d 0 64 (enqueue ((rdS s o.b).toNat % 64) (packetAt s ((rdS s o.a).toNat % 2 ^ 22))
      (sawScratch 0 ((rdS s o.a).toNat % 2 ^ 22) 64 s))) :=
  performs_of_body (fun _ => rfl) fun s ⟨hc, hf, hl⟩ => by
    rw [packetAt] at hl
    simp only [cellField, queueField, hc, hf, launchStatus_sawScratch, hl]
    rfl

theorem launch_waits {o : DABP} {s : State} (h : issues (.launch o) (useDABP o) s)
    (hc : cellsTrap (startIssue s) ((rdS (startIssue s) o.a).toNat % 2 ^ 22) 1 true = none) (hf : farHeld (BitVec.allOnes 16) (startIssue s) = true) :
    exec (.launch o) s = .next s :=
  issue_hold h (by
    simp only [entered_startIssue (i := .launch o) rfl, cellField, hc, hf]
    rfl)

/-! ### POST (R360) -/

section
variable {s : State} {a n c : Nat}

/-- The records that POST reads. -/
def recordsAt (s : State) (a n : Nat) : List (BitVec 512) := (List.range n).map fun i => BitVec.ofNat 512 (spadNum (s.viewed 0) (a + 64 * i) 64)

theorem anyMalformed_iff (s : State) (a n c : Nat) : ((recordsAt s a n).any fun r => recordMalformed r c) = true ↔
    ∃ i < n, recordMalformed (BitVec.ofNat 512 (spadNum (s.viewed 0) (a + 64 * i) 64)) c = true := by
  simp [recordsAt]

theorem noneMalformed (h : ∀ i < n, recordMalformed (BitVec.ofNat 512 (spadNum (s.viewed 0) (a + 64 * i) 64)) c = false) :
    ((recordsAt s a n).any fun r => recordMalformed r c) = false := by
  rw [Bool.eq_false_iff, Ne, anyMalformed_iff]
  rintro ⟨i, hi, h'⟩
  exact Bool.false_ne_true ((h i hi).symm.trans h')

end

theorem postCount {n : Nat} (h0 : 0 < n) (h8 : n ≤ 8) : ¬ (n = 0 ∨ 8 < n) := by omega

theorem post_count (o : DABP) : traps (.post o) (useDABP o) (fun s => (rdS s o.b).toNat = 0 ∨ 8 < (rdS s o.b).toNat) fun _ => mkTrap 0x0F 0x02 0 :=
  traps_of_body (fun _ => rfl) fun _ h => if_pos h

theorem post_cells (o : DABP) (r : TrapRec) : traps (.post o) (useDABP o) (fun s => 0 < (rdS s o.b).toNat ∧ (rdS s o.b).toNat ≤ 8
    ∧ cellsTrap s ((rdS s o.a).toNat % 2 ^ 22) (rdS s o.b).toNat true = some (.trap r)) fun _ => r :=
  traps_of_body (fun _ => rfl) fun s ⟨h0, h8, hc⟩ => (if_neg (postCount h0 h8)).trans (by simp only [cellField, hc])

theorem post_poisoned (o : DABP) (r : TrapRec) : trapsIn (.post o) (useDABP o) (fun s => 0 < (rdS s o.b).toNat ∧ (rdS s o.b).toNat ≤ 8
    ∧ cellsTrap s ((rdS s o.a).toNat % 2 ^ 22) (rdS s o.b).toNat true = some (.trapIn (reportLine r.addr.toNat s) r)) (fun _ => r)
    (fun s => reportLine r.addr.toNat s) :=
  trapsIn_of_body (fun _ => rfl) fun s ⟨h0, h8, hc⟩ => (if_neg (postCount h0 h8)).trans (by simp only [cellField, hc])

theorem ownJob_sawScratch (s : State) (k : Fin 16) (a n : Nat) : ownJob (sawScratch k a n s) = ownJob s := rfl

theorem post_malformed (o : DABP) : traps (.post o) (useDABP o)
    (fun s => 0 < (rdS s o.b).toNat ∧ (rdS s o.b).toNat ≤ 8 ∧ cellsTrap s ((rdS s o.a).toNat % 2 ^ 22) (rdS s o.b).toNat true = none
      ∧ (ownJob s = none ∨ ∃ x k, ownJob s = some (x, k) ∧ ∃ i < (rdS s o.b).toNat,
        recordMalformed (BitVec.ofNat 512 (spadNum (s.viewed 0) ((rdS s o.a).toNat % 2 ^ 22 + 64 * i) 64)) x.stages.length = true))
    fun _ => mkTrap 0x0F 0x03 0 :=
  traps_of_body (fun _ => rfl) fun s ⟨h0, h8, hc, hj⟩ => (if_neg (postCount h0 h8)).trans (by
    simp only [cellField, hc, ownJob_sawScratch]
    rcases hj with hj | ⟨x, k, hj, hm⟩
    · simp only [hj]; rfl
    · simp only [hj]
      exact if_pos ((anyMalformed_iff ..).2 hm))

/-- The records of a job that is Ending go nowhere. -/
theorem post_ending (o : DABP) : performs (.post o) (useDABP o)
    (fun s => 0 < (rdS s o.b).toNat ∧ (rdS s o.b).toNat ≤ 8 ∧ cellsTrap s ((rdS s o.a).toNat % 2 ^ 22) (rdS s o.b).toNat true = none
      ∧ farHeld (BitVec.allOnes 16) s = false ∧ ∃ x k, ownJob s = some (x, k) ∧ x.state = .ending ∧ ∀ i, i < (rdS s o.b).toNat →
        recordMalformed (BitVec.ofNat 512 (spadNum (s.viewed 0) ((rdS s o.a).toNat % 2 ^ 22 + 64 * i) 64)) x.stages.length = false)
    fun s => wrD o.d 0 64 (sawScratch 0 ((rdS s o.a).toNat % 2 ^ 22) (64 * (rdS s o.b).toNat) s) :=
  performs_of_body (fun _ => rfl) fun s ⟨h0, h8, hc, hf, x, k, hj, he, hm⟩ => (if_neg (postCount h0 h8)).trans (by
    simp only [cellField, hc, ownJob_sawScratch, hj]
    exact (if_neg (ne_true_of_eq_false (noneMalformed hm))).trans ((if_neg (ne_true_of_eq_false hf)).trans (if_pos he)))

/-- One record that its queue has room for. -/
theorem postRecords_one {s : State} {x : Job} {g : Stage} {r : BitVec 512} (origin : Word) (hj : jobAt s x.num = some x)
    (hg : x.stages[r.toNat % 16]? = some g) (hr : stageOccupancy s x.num (r.toNat % 16) < g.inq) :
    postRecords x.num origin [r] s = (1, onStage x.num (r.toNat % 16) (fun g => { g with records := g.records ++ [{ cell := r, origin := origin }] }) s) := by
  have hk : bitsOf r 0 4 = r.toNat % 16 := bitsOf_low r 4
  simp only [postRecords, hk, hj, Option.bind_some, hg]
  exact if_neg (Nat.not_le.2 hr)

theorem post_appends {o : DABP} {s : State} {x : Job} {k : Nat} {g : Stage} {r : BitVec 512} (hs : issues (.post o) (useDABP o) s) {u : State}
    (hu : startIssue s = u) {a : Nat} (ha : (rdS u o.a).toNat % 2 ^ 22 = a) (hr : BitVec.ofNat 512 (spadNum (u.viewed 0) a 64) = r)
    (h1 : (rdS u o.b).toNat = 1) (hc : cellsTrap u a 1 true = none) (hf : farHeld (BitVec.allOnes 16) u = false) (hj : ownJob u = some (x, k))
    (he : x.state = .running) (hm : recordMalformed r x.stages.length = false) (hg : x.stages[r.toNat % 16]? = some g)
    (hx : jobAt u x.num = some x) (ho : stageOccupancy u x.num (r.toNat % 16) < g.inq) :
    exec (.post o) s = .next (completed (useDABP o) (wrD o.d 1 64 (onStage x.num (r.toNat % 16)
      (fun g => { g with records := g.records ++ [{ cell := r, origin := (coordWord u.ownModule u.core.num k).setWidth 64 }] }) (sawScratch 0 a 64 u)))) := by
  subst hu ha hr
  refine issue_done hs ((if_neg (postCount (h1 ▸ one_pos) (h1 ▸ by decide))).trans ?_)
  have hn : x.state ≠ .ending := by rw [he]; decide
  simp only [entered_startIssue (i := .post o) rfl, cellField, h1, hc, ownJob_sawScratch, hj]
  refine (if_neg (ne_true_of_eq_false ?_)).trans ((if_neg (ne_true_of_eq_false hf)).trans ((if_neg hn).trans ?_))
  · exact (Bool.or_false _).trans hm
  · have hp := postRecords_one (s := sawScratch 0 ((rdS (startIssue s) o.a).toNat % 2 ^ 22) 64 (startIssue s))
      ((coordWord (startIssue s).ownModule (startIssue s).core.num k).setWidth 64) hx hg (lt_of_eq_of_lt (stageOccupancy_sawScratch ..) ho)
    exact congrArg (fun m : Nat × State => Eff.done (wrD o.d (BitVec.ofNat 64 m.1) 64 m.2)) hp

theorem post_waits {o : DABP} {s : State} {x : Job} {k : Nat} (hs : issues (.post o) (useDABP o) s) {u : State} (hu : startIssue s = u) {a : Nat}
    (ha : (rdS u o.a).toNat % 2 ^ 22 = a) (h1 : (rdS u o.b).toNat = 1) (hc : cellsTrap u a 1 true = none)
    (hf : farHeld (BitVec.allOnes 16) u = true) (hj : ownJob u = some (x, k))
    (hm : recordMalformed (BitVec.ofNat 512 (spadNum (u.viewed 0) a 64)) x.stages.length = false) : exec (.post o) s = .next s := by
  subst hu ha
  refine issue_hold hs ((if_neg (postCount (h1 ▸ one_pos) (h1 ▸ by decide))).trans ?_)
  simp only [entered_startIssue (i := .post o) rfl, cellField, h1, hc, ownJob_sawScratch, hj]
  exact (if_neg (ne_true_of_eq_false ((Bool.or_false _).trans hm))).trans (if_pos hf)

/-! ### TAKE, COORD and STGQ (R361, R364, R367) -/

theorem take_record (o : DAP) : performs (.take o) (useDAP o)
    (fun s => cellsTrap s ((rdS s o.a).toNat % 2 ^ 22) 1 false = none ∧ s.core.taskEnds = false ∧ s.core.inbox ≠ [])
    (fun s => match s.core.inbox with
      | [] => s
      | r :: rest =>
        let t := storeCellBy .ctl 0 ((rdS s o.a).toNat % 2 ^ 22) { bytes := r.cell, tag := 0 } s
        wrD o.d r.origin 1 (t.setCore { t.core with inbox := rest })) :=
  performs_of_body (fun _ => rfl) fun s ⟨hc, ht, hi⟩ => by
    simp only [cellField, hc, ht, takeFromInbox]
    cases hx : s.core.inbox with
    | nil => exact absurd hx hi
    | cons r rest => rfl

theorem take_waits (o : DAP) : transfers (.take o) (useDAP o)
    (fun s => cellsTrap s ((rdS s o.a).toNat % 2 ^ 22) 1 false = none ∧ s.core.taskEnds = false ∧ s.core.inbox = [] ∧ boundaryPending s = false)
    (fun s => waiting (.take ((rdS s o.a).toNat % 2 ^ 22) o.d) o.s s) :=
  transfers_of_body (fun _ => rfl) fun s ⟨hc, ht, hi, hb⟩ => by
    simp only [cellField, hc, ht, takeFromInbox, hi, hb]
    rfl

/-- A quiet task whose streams nobody asks for ends. -/
theorem endTask_quiet {s : State} (hq : taskQuiet s = true) (ha : awaitingStreams s = []) : endTask s = .jump (nextTask (clearTask s)) := by
  simp [endTask, hq, ha]

theorem endTask_holds {s : State} (hq : taskQuiet s = false) : endTask s = .hold := by
  simp [endTask, hq]

theorem take_ends (o : DAP) : transfers (.take o) (useDAP o)
    (fun s => cellsTrap s ((rdS s o.a).toNat % 2 ^ 22) 1 false = none ∧ s.core.taskEnds = true ∧ taskQuiet s = true ∧ awaitingStreams s = [])
    (fun s => nextTask (clearTask s)) :=
  transfers_of_body (fun _ => rfl) fun s ⟨hc, ht, hq, ha⟩ => by
    simp only [cellField, hc, ht, endTask_quiet hq ha]
    rfl

theorem take_holds {o : DAP} {s : State} (hs : issues (.take o) (useDAP o) s)
    (hc : cellsTrap (startIssue s) ((rdS (startIssue s) o.a).toNat % 2 ^ 22) 1 false = none) (ht : (startIssue s).core.taskEnds = true)
    (hq : taskQuiet (startIssue s) = false) : exec (.take o) s = .next s :=
  issue_hold hs (by
    simp only [entered_startIssue (i := .take o) rfl, cellField, hc, ht, endTask_holds hq]
    rfl)

/-! ### YIELD and DONE (R362, R363) -/

theorem yield_nothing (o : AP) : performs (.yieldJob o) (useAP o) (fun s => rdS s o.a = 0 ∧ boundaryPending s = false) id :=
  performs_of_body (fun _ => rfl) fun s ⟨h0, hb⟩ => by
    simp only [h0, hb]
    rfl

/-- YIELD that ends its task. -/
theorem yield_endTask {o : AP} {s : State} (h : rdS s o.a = 1 ∨ (rdS s o.a = 0 ∧ boundaryPending s = true)) :
    (if bitsOf (rdS s o.a) 1 63 ≠ 0 then launchMisuse 0x01 else if !bitOf (rdS s o.a) 0 && !boundaryPending s then .done s else endTask s) = endTask s := by
  rcases h with h | ⟨h, hb⟩
  · rw [h]
    rfl
  · rw [h, hb]
    rfl

theorem yield_ends (o : AP) : transfers (.yieldJob o) (useAP o)
    (fun s => (rdS s o.a = 1 ∨ (rdS s o.a = 0 ∧ boundaryPending s = true)) ∧ taskQuiet s = true ∧ awaitingStreams s = [])
    (fun s => nextTask (clearTask s)) :=
  transfers_of_body (fun _ => rfl) fun _ ⟨h, hq, ha⟩ => (yield_endTask h).trans (endTask_quiet hq ha)

theorem yield_holds {o : AP} {s : State} (hs : issues (.yieldJob o) (useAP o) s) (h : rdS (startIssue s) o.a = 1)
    (hq : taskQuiet (startIssue s) = false) : exec (.yieldJob o) s = .next s :=
  issue_hold hs ((yield_endTask (s := startIssue s) (.inl h)).trans (endTask_holds hq))

theorem yield_operand (o : AP) : traps (.yieldJob o) (useAP o) (fun s => 2 ≤ (rdS s o.a).toNat) fun _ => mkTrap 0x0F 0x01 0 :=
  traps_of_body (fun _ => rfl) fun s h => if_pos ((bitsOf_top_ne_zero (rdS s o.a) (by decide)).2 h)

theorem doneField {x : Word} (h : x.toNat < 2 ^ 32) : ¬ bitsOf x 32 32 ≠ 0 :=
  not_not_intro ((bitsOf_top_eq_zero x (by decide)).2 h)

theorem done_first {o : AP} {s : State} {x : Job} {k : Nat} (hs : issues (.doneJob o) (useAP o) s) (h : (rdS (startIssue s) o.a).toNat < 2 ^ 32)
    (hj : ownJob (startIssue s) = some (x, k)) (hn : x.state ≠ .ending) :
    exec (.doneJob o) s = .next (endIssue (useAP o) (beginEnding x.num ((rdS (startIssue s) o.a).setWidth 32) (startIssue s))) :=
  issue_jump hs ((if_neg (doneField h)).trans (by
    simp only [entered_startIssue (i := .doneJob o) rfl, hj, ofNat_bitsOf_low]
    exact if_neg hn))

theorem done_endTask {s : State} (h : ownJob s = none ∨ ∃ x k, ownJob s = some (x, k) ∧ x.state = .ending) (f : Job → Eff) :
    (match ownJob s with
      | some (x, _) => if x.state = .ending then endTask s else f x
      | none => endTask s) = endTask s := by
  rcases h with h | ⟨x, k, h, he⟩
  · rw [h]
  · rw [h]
    exact if_pos he

theorem done_ends (o : AP) : transfers (.doneJob o) (useAP o)
    (fun s => (rdS s o.a).toNat < 2 ^ 32 ∧ (ownJob s = none ∨ ∃ x k, ownJob s = some (x, k) ∧ x.state = .ending) ∧ taskQuiet s = true
      ∧ awaitingStreams s = [])
    (fun s => nextTask (clearTask s)) :=
  transfers_of_body (fun _ => rfl) fun _ ⟨h, hj, hq, ha⟩ => (if_neg (doneField h)).trans ((done_endTask hj _).trans (endTask_quiet hq ha))

theorem done_holds {o : AP} {s : State} {x : Job} {k : Nat} (hs : issues (.doneJob o) (useAP o) s) (h : (rdS (startIssue s) o.a).toNat < 2 ^ 32)
    (hj : ownJob (startIssue s) = some (x, k)) (he : x.state = .ending) (hq : taskQuiet (startIssue s) = false) :
    exec (.doneJob o) s = .next s :=
  issue_hold hs ((if_neg (doneField h)).trans ((done_endTask (.inr ⟨x, k, hj, he⟩) _).trans (endTask_holds hq)))

theorem done_operand (o : AP) : traps (.doneJob o) (useAP o) (fun s => 2 ^ 32 ≤ (rdS s o.a).toNat) fun _ => mkTrap 0x0F 0x01 0 :=
  traps_of_body (fun _ => rfl) fun s h => if_pos ((bitsOf_top_ne_zero (rdS s o.a) (by decide)).2 h)

/-! ### SWCFG (R365) -/

theorem exec_swcfg (o : AP) (s : State) : exec (.swcfg o) s = issue (.swcfg o) (useAP o) (fun s =>
    unlessTrap (cellsTrap s (bitsOf (rdS s o.a) 0 22) 1 true) (
      if swarmMalformed (packetAt s (bitsOf (rdS s o.a) 0 22)) then launchMisuse 0x05
      else .done (applySwarm (packetAt s (bitsOf (rdS s o.a) 0 22)) (sawScratch 0 (bitsOf (rdS s o.a) 0 22) 64 s)))) s := rfl

theorem swcfg_applies (o : AP) : performs (.swcfg o) (useAP o)
    (fun s => cellsTrap s ((rdS s o.a).toNat % 2 ^ 22) 1 true = none ∧ swarmMalformed (packetAt s ((rdS s o.a).toNat % 2 ^ 22)) = false)
    (fun s => applySwarm (packetAt s ((rdS s o.a).toNat % 2 ^ 22)) (sawScratch 0 ((rdS s o.a).toNat % 2 ^ 22) 64 s)) :=
  performs_of_body (exec_swcfg o) fun s ⟨hc, hm⟩ => by
    rw [cellField, hc]
    exact if_neg (ne_true_of_eq_false hm)

theorem swcfg_malformed (o : AP) : traps (.swcfg o) (useAP o)
    (fun s => cellsTrap s ((rdS s o.a).toNat % 2 ^ 22) 1 true = none ∧ swarmMalformed (packetAt s ((rdS s o.a).toNat % 2 ^ 22)) = true)
    fun _ => mkTrap 0x0F 0x05 0 :=
  traps_of_body (exec_swcfg o) fun s ⟨hc, hm⟩ => by
    rw [cellField, hc]
    exact if_pos hm

/-! ### SWTAKE (R366) -/

/-- The swarm that SWTAKE names. -/
theorem swarmField (x : Word) : bitsOf x 48 4 = x.toNat / 2 ^ 48 % 16 := rfl

/-- The bits of SWTAKE's operands that must be clear. -/
theorem swtakeReserved_iff (a b : Word) : (bitsOf a 22 26 ≠ 0 ∨ bitsOf a 52 12 ≠ 0 ∨ bitsOf b 32 31 ≠ 0) ↔
    (a.toNat / 2 ^ 22 % 2 ^ 26 ≠ 0 ∨ 2 ^ 52 ≤ a.toNat ∨ b.toNat / 2 ^ 32 % 2 ^ 31 ≠ 0) := by
  rw [bitsOf_top_ne_zero (lo := 52) a (by decide)]
  rfl

theorem swtakeReserved_clear {a b : Word} (h1 : a.toNat / 2 ^ 22 % 2 ^ 26 = 0) (h2 : a.toNat < 2 ^ 52) (h3 : b.toNat / 2 ^ 32 % 2 ^ 31 = 0) :
    ¬ (bitsOf a 22 26 ≠ 0 ∨ bitsOf a 52 12 ≠ 0 ∨ bitsOf b 32 31 ≠ 0) := by
  rw [swtakeReserved_iff]
  rintro (h | h | h)
  · exact h h1
  · exact Nat.not_le.2 h2 h
  · exact h h3

theorem swtake_reserved (o : DABP) : traps (.swtake o) (useDABP o)
    (fun s => (rdS s o.a).toNat / 2 ^ 22 % 2 ^ 26 ≠ 0 ∨ 2 ^ 52 ≤ (rdS s o.a).toNat ∨ (rdS s o.b).toNat / 2 ^ 32 % 2 ^ 31 ≠ 0)
    fun _ => mkTrap 0x0F 0x01 0 :=
  traps_of_body (fun _ => rfl) fun _ h => if_pos ((swtakeReserved_iff ..).2 h)

theorem swtake_cell (o : DABP) (r : TrapRec) : traps (.swtake o) (useDABP o)
    (fun s => (rdS s o.a).toNat / 2 ^ 22 % 2 ^ 26 = 0 ∧ (rdS s o.a).toNat < 2 ^ 52 ∧ (rdS s o.b).toNat / 2 ^ 32 % 2 ^ 31 = 0
      ∧ cellsTrap s ((rdS s o.a).toNat % 2 ^ 22) 1 false = some (.trap r)) fun _ => r :=
  traps_of_body (fun _ => rfl) fun s ⟨h1, h2, h3, hc⟩ => (if_neg (swtakeReserved_clear h1 h2 h3)).trans (by simp only [cellField, hc])

/-- The swarm is enabled and of the issuing job's tenant. -/
theorem swarmOpen_iff (s : State) (x : Swarm) : (!x.en || !(ownJob s).any (fun j => decide (pktTenant j.1.packet = x.tenant.toNat))) = false ↔
    x.en = true ∧ ∃ j k, ownJob s = some (j, k) ∧ pktTenant j.packet = x.tenant.toNat := by
  cases hj : ownJob s with
  | none => simp
  | some p =>
    obtain ⟨j, k⟩ := p
    simp

theorem swarmClosed {s : State} {x : Swarm} (h : x.en = false ∨ ∀ j k, ownJob s = some (j, k) → pktTenant j.packet ≠ x.tenant.toNat) :
    (!x.en || !(ownJob s).any (fun j => decide (pktTenant j.1.packet = x.tenant.toNat))) = true := by
  rw [← Bool.not_eq_false, swarmOpen_iff]
  rintro ⟨he, j, k, hj, ht⟩
  rcases h with h | h
  · exact Bool.false_ne_true (h.symm.trans he)
  · exact h j k hj ht

theorem swtake_closed (o : DABP) : traps (.swtake o) (useDABP o)
    (fun s => (rdS s o.a).toNat / 2 ^ 22 % 2 ^ 26 = 0 ∧ (rdS s o.a).toNat < 2 ^ 52 ∧ (rdS s o.b).toNat / 2 ^ 32 % 2 ^ 31 = 0
      ∧ cellsTrap s ((rdS s o.a).toNat % 2 ^ 22) 1 false = none
      ∧ ((swarmAt s ((rdS s o.a).toNat / 2 ^ 48 % 16)).en = false
        ∨ ∀ x k, ownJob s = some (x, k) → pktTenant x.packet ≠ (swarmAt s ((rdS s o.a).toNat / 2 ^ 48 % 16)).tenant.toNat))
    fun _ => mkTrap 0x0F 0x04 0 :=
  traps_of_body (fun _ => rfl) fun s ⟨h1, h2, h3, hc, hx⟩ => (if_neg (swtakeReserved_clear h1 h2 h3)).trans (by
    simp only [cellField, hc]
    exact if_pos (swarmClosed hx))

/-- SWTAKE as it begins: the slot of the batch that its second operand names is freed where bit 63 is set. -/
def freed (o : DABP) (s : State) : State :=
  if (rdS s o.b).getLsbD 63 then freeSlot ((rdS s o.a).toNat / 2 ^ 48 % 16) ((rdS s o.b).setWidth 32) s else s

/-- SWTAKE that passes its checks. -/
def swtakeReady (o : DABP) (s : State) : Prop :=
  (rdS s o.a).toNat / 2 ^ 22 % 2 ^ 26 = 0 ∧ (rdS s o.a).toNat < 2 ^ 52 ∧ (rdS s o.b).toNat / 2 ^ 32 % 2 ^ 31 = 0
    ∧ cellsTrap s ((rdS s o.a).toNat % 2 ^ 22) 1 false = none ∧ (swarmAt s ((rdS s o.a).toNat / 2 ^ 48 % 16)).en = true
    ∧ ∃ x k, ownJob s = some (x, k) ∧ pktTenant x.packet = (swarmAt s ((rdS s o.a).toNat / 2 ^ 48 % 16)).tenant.toNat

/-- What a SWTAKE that passes its checks does. -/
def swtakeEff (o : DABP) (s : State) : Eff :=
  match takeBatch ((rdS s o.a).toNat / 2 ^ 48 % 16) ((rdS s o.a).toNat % 2 ^ 22) (freed o s) with
  | some (n, t) => .done (wrD o.d n 1 t)
  | none => suspend (.swtake ((rdS s o.a).toNat / 2 ^ 48 % 16) ((rdS s o.a).toNat % 2 ^ 22) o.d) o.s
    { freed o s with gather := { (freed o s).gather with waiters := (freed o s).gather.waiters ++ [((rdS s o.a).toNat / 2 ^ 48 % 16, s.core.num)] } }

theorem exec_swtake (o : DABP) : ∃ body, (∀ s, exec (.swtake o) s = issue (.swtake o) (useDABP o) body s)
    ∧ ∀ s, swtakeReady o s → body s = swtakeEff o s :=
  ⟨_, fun _ => rfl, fun s ⟨h1, h2, h3, hc, he, hj⟩ => (if_neg (swtakeReserved_clear h1 h2 h3)).trans (by
    simp only [cellField, hc, ofNat_bitsOf_low]
    exact if_neg (ne_true_of_eq_false ((swarmOpen_iff ..).2 ⟨he, hj⟩)))⟩

theorem swtake_takes (o : DABP) (n : Word) (t : State) : performs (.swtake o) (useDABP o)
    (fun s => swtakeReady o s ∧ takeBatch ((rdS s o.a).toNat / 2 ^ 48 % 16) ((rdS s o.a).toNat % 2 ^ 22) (freed o s) = some (n, t))
    fun _ => wrD o.d n 1 t := by
  obtain ⟨body, hi, hb⟩ := exec_swtake o
  exact performs_of_body hi fun s ⟨hr, ht⟩ => (hb s hr).trans (by rw [swtakeEff, ht])

theorem swtake_waits (o : DABP) : transfers (.swtake o) (useDABP o)
    (fun s => swtakeReady o s ∧ takeBatch ((rdS s o.a).toNat / 2 ^ 48 % 16) ((rdS s o.a).toNat % 2 ^ 22) (freed o s) = none)
    fun s => waiting (.swtake ((rdS s o.a).toNat / 2 ^ 48 % 16) ((rdS s o.a).toNat % 2 ^ 22) o.d) o.s
      { freed o s with gather := { (freed o s).gather with waiters := (freed o s).gather.waiters ++ [((rdS s o.a).toNat / 2 ^ 48 % 16, s.core.num)] } } := by
  obtain ⟨body, hi, hb⟩ := exec_swtake o
  exact transfers_of_body hi fun s ⟨hr, ht⟩ => (hb s hr).trans (by rw [swtakeEff, ht]; rfl)

theorem freed_nothing {o : DABP} {s : State} (h : (rdS s o.b).toNat < 2 ^ 32) : freed o s = s :=
  if_neg (by rw [BitVec.getLsbD, Nat.testBit_lt_two_pow (h.trans_le (by decide))]; decide)

/-- SWTAKE that frees no slot, of a swarm with an emitted batch. -/
theorem swtake_oldest (o : DABP) : performs (.swtake o) (useDABP o)
    (fun s => (rdS s o.a).toNat / 2 ^ 22 % 2 ^ 26 = 0 ∧ (rdS s o.a).toNat < 2 ^ 52 ∧ (rdS s o.b).toNat < 2 ^ 32
      ∧ cellsTrap s ((rdS s o.a).toNat % 2 ^ 22) 1 false = none ∧ (swarmAt s ((rdS s o.a).toNat / 2 ^ 48 % 16)).en = true
      ∧ (∃ x k, ownJob s = some (x, k) ∧ pktTenant x.packet = (swarmAt s ((rdS s o.a).toNat / 2 ^ 48 % 16)).tenant.toNat)
      ∧ (swarmAt s ((rdS s o.a).toNat / 2 ^ 48 % 16)).emitted ≠ [])
    (fun s =>
      let w := (rdS s o.a).toNat / 2 ^ 48 % 16
      let x := swarmAt s w
      match x.emitted with
      | [] => s
      | b :: rest =>
        let t := setSwarm w { x with emitted := rest, taken := x.taken ++ [b.num] } s
        wrD o.d (BitVec.ofNat 64 b.rows) 1 (storeCellBy .ctl 0 ((rdS s o.a).toNat % 2 ^ 22) { bytes := batchDescriptor b, tag := 0 } t)) := by
  obtain ⟨body, hi, hb⟩ := exec_swtake o
  refine performs_of_body hi fun s ⟨h1, h2, h3, hc, he, hj, hx⟩ => (hb s ⟨h1, h2, ?_, hc, he, hj⟩).trans ?_
  · rw [Nat.div_eq_of_lt h3, Nat.zero_mod]
  · rw [swtakeEff, freed_nothing h3]
    cases hm : (swarmAt s ((rdS s o.a).toNat / 2 ^ 48 % 16)).emitted with
    | nil => exact absurd hm hx
    | cons b rest => simp only [takeBatch_oldest _ hm, hm]

/-! ### The obligation -/

/-- Settles O42: the words in the order of their checks, a task end by `endTask`. -/
theorem launchWords : Obligations.LaunchWords := by
  refine ⟨fun o => ⟨launch_refuses o, launch_queues o, fun s => launch_waits, cellWord_misaligned fun _ => rfl, post_ending o, post_count o,
      swtake_oldest o, cellWord_traps fun _ => rfl, cellWord_trapsIn fun _ => rfl, post_cells o, post_poisoned o, post_malformed o,
      swtake_reserved o, swtake_cell o, swtake_closed o, ?_, ?_⟩, ?_, ?_,
    fun o => ⟨take_record o, take_waits o, take_ends o, fun s => take_holds, cellWord_traps fun _ => rfl, ?_, ?_⟩,
    fun o => ⟨yield_nothing o, yield_ends o, fun s => yield_holds, yield_operand o, fun s x k => done_first, done_ends o, fun s x k => done_holds,
      done_operand o, swcfg_applies o, swcfg_malformed o, cellWord_traps (exec_swcfg o), cellWord_trapsIn (exec_swcfg o)⟩,
    fun s a n reads => ⟨cellsTrap_misaligned, cellsTrap_forbidden, cellsTrap_wraps, fun h hp hr => hr ▸ cellsTrap_writes h hp⟩,
    fun s w a => takeBatch_empty a, fun s w a b rest => takeBatch_oldest a,
    fun q p s hq => ⟨launchQueue_enqueue q p s, fun r hr hn => launchQueue_enqueue_ne p s hq hr hn, rfl, rfl⟩,
    fun s q p => ⟨launchStatus_disabled, fun he hp hl => ?_, fun he hp hl => ?_, launchStatus_closed⟩⟩
  · exact fun n t s hs ⟨h1, h2, h3, hc, he, hj, ht⟩ => swtake_takes o n t s hs ⟨⟨h1, h2, h3, hc, he, hj⟩, ht⟩
  · exact fun s hs ⟨h1, h2, h3, hc, he, hj, ht⟩ => swtake_waits o s hs ⟨⟨h1, h2, h3, hc, he, hj⟩, ht⟩
  · intro o s x k g hs u a r v h1 hc hf hj he hm hg hx ho
    exact post_appends hs rfl rfl rfl h1 hc hf hj he hm hg hx ho
  · intro o s x k hs u a h1 hc hf hj hm
    exact post_waits hs rfl rfl h1 hc hf hj hm
  · exact scalarDoes_of_result (fun _ => rfl) fun s => congrArg (fun i => BitVec.ofNat 64 (coordSelected s i)) (bitsOf_low _ 3)
  · exact scalarDoes_of_result (fun _ => rfl) fun s => congrArg (fun i => BitVec.ofNat 64 (stageWord s i)) (bitsOf_low _ 4)
  · rw [launchStatus_supervisor p he hp, if_neg (Nat.not_le.2 hl)]
  · rw [launchStatus_supervisor p he hp, if_pos hl]

end Sys2Proof.Machine
end

