-- ==== Sys2Proof/Proofs/SchedulerEvents.lean ====
section
/-! O47: a decision by its first head, an overdue packet, the balancer job by job, dispatch and retirement, and the gatherer ring by ring. -/

namespace Sys2Proof.Machine

/-! ### The decision (R344, R346) -/

/-- The state of a decision: its time is noted. -/
def timed (s : State) : State := { s with sched := { s.sched with lastDecision := s.now } }

/-- A state whose hold is the live one. -/
def holding (s : State) : State := { s with sched := { s.sched with heldFor := liveHold s } }

section
variable {s : State} {q : Nat} {p : Packet}

theorem decision_eq (s : State) : decision s =
    if s.thermal.tripped then timed s
    else match orderedHeads (timed s) with
      | [] => { timed s with sched := { (timed s).sched with heldFor := none } }
      | (q, p) :: rest =>
        if fitsFree (holding (timed s)) q p then placeHeld q p (holding (timed s))
        else if (holding (timed s)).sched.heldFor.isSome && requestsPending (holding (timed s)) then holding (timed s)
        else match if (holding (timed s)).sched.heldFor.isNone || isHeldFor (holding (timed s)) q p then preemptFor q p (holding (timed s)) else none with
          | some t => t
          | none => match rest.find? fun x => fitsFree (holding (timed s)) x.1 x.2 with
            | some x => placeHeld x.1 x.2 (holding (timed s))
            | none => holding (timed s) := rfl

theorem decision_idle (ho : orderedHeads s = []) (ht : s.thermal.tripped = false) :
    decision s = { s with sched := { s.sched with lastDecision := s.now, heldFor := none } } := by
  have ho : orderedHeads (timed s) = [] := ho
  rw [decision_eq, if_neg (ne_true_of_eq_false ht), ho]
  rfl

section
variable {rest : List (Nat × Packet)} (ho : orderedHeads (timed s) = (q, p) :: rest) (ht : s.thermal.tripped = false)
include ho ht

theorem decision_places (hf : fitsFree (holding (timed s)) q p = true) : decision s = placeHeld q p (holding (timed s)) := by
  rw [decision_eq, if_neg (ne_true_of_eq_false ht), ho]
  exact if_pos hf

/-- Requests that are on their way to free cores are waited for. -/
theorem decision_waits (hf : fitsFree (holding (timed s)) q p = false) (hh : (holding (timed s)).sched.heldFor ≠ none)
    (hr : requestsPending (holding (timed s)) = true) : decision s = holding (timed s) := by
  rw [decision_eq, if_neg (ne_true_of_eq_false ht), ho]
  exact (if_neg (ne_true_of_eq_false hf)).trans (if_pos (by rw [hr, Option.isSome_iff_ne_none.2 hh]; rfl))

/-- Nobody's requests stand in the way of the first head: pre-emption, or the first later head that fits. -/
theorem decision_preempts (hf : fitsFree (holding (timed s)) q p = false)
    (hh : (holding (timed s)).sched.heldFor = none ∨ (isHeldFor (holding (timed s)) q p = true ∧ requestsPending (holding (timed s)) = false)) :
    decision s = match preemptFor q p (holding (timed s)) with
      | some t => t
      | none => match rest.find? fun x => fitsFree (holding (timed s)) x.1 x.2 with
        | some x => placeHeld x.1 x.2 (holding (timed s))
        | none => holding (timed s) := by
  have hw : ¬ ((holding (timed s)).sched.heldFor.isSome && requestsPending (holding (timed s))) = true := by
    rcases hh with h | ⟨-, h⟩ <;> simp [h]
  have hp : ((holding (timed s)).sched.heldFor.isNone || isHeldFor (holding (timed s)) q p) = true := by
    rcases hh with h | ⟨h, -⟩ <;> simp [h]
  rw [decision_eq, if_neg (ne_true_of_eq_false ht), ho]
  refine (if_neg (ne_true_of_eq_false hf)).trans ((if_neg hw).trans ?_)
  rw [if_pos hp]

end

theorem isHeldFor_none (h : s.sched.heldFor = none) : isHeldFor s q p = false := by simp [isHeldFor, h]

theorem isHeldFor_self (h : s.sched.heldFor = some (q, p)) : isHeldFor s q p = true := by simp [isHeldFor, h]

theorem isHeldFor_other {h : Nat × Packet} (hh : s.sched.heldFor = some h) (hn : h ≠ (q, { p with late := h.2.late })) : isHeldFor s q p = false := by
  obtain ⟨k, d, j, l⟩ := h
  rw [isHeldFor, hh]
  by_contra hc
  simp only [Option.any_some, Bool.not_eq_false, Bool.and_eq_true, decide_eq_true_eq] at hc
  obtain ⟨⟨rfl, rfl⟩, rfl⟩ := hc
  exact hn rfl

theorem fitsFree_noHold (h : s.sched.heldFor = none) : fitsFree s q p = fits s p (freeCores s).length := by
  simp [fitsFree, heldFrom, h]

theorem fitsFree_other {h : Nat × Packet} (hh : s.sched.heldFor = some h) (hn : h ≠ (q, { p with late := h.2.late })) :
    fitsFree s q p = fits s p ((freeCores s).length - (needs s h.2).1) := by
  simp [fitsFree, heldFrom, hh, isHeldFor_other hh hn]

theorem fitsFree_self (h : s.sched.heldFor = some (q, p)) : fitsFree s q p = fits s p (freeCores s).length := by
  simp [fitsFree, heldFrom, h, isHeldFor_self h]

theorem placeHeld_self (h : s.sched.heldFor = some (q, p)) : (placeHeld q p s).sched.heldFor = none := by
  simp [placeHeld, isHeldFor_self h]

theorem placeHeld_noHold (h : s.sched.heldFor = none) :
    placeHeld q p s = { placePacket q p s with sched := { (placePacket q p s).sched with heldFor := none } } := by
  simp [placeHeld, h]

/-- A hold ends when its packet no longer heads its queue. -/
theorem liveHold_gone {h : Nat × Packet} (hh : s.sched.heldFor = some h) (hg : (headPacket s h.1).isNone = true) : liveHold s = none := by
  rw [Option.isNone_iff_eq_none] at hg
  simp [liveHold, hh, hg]

theorem holding_noHold (h : s.sched.heldFor = none) : holding s = s := by
  have hl : liveHold s = s.sched.heldFor := by simp [liveHold, h]
  rw [holding, hl]

theorem preemptFor_holds {t : State} (h : preemptFor q p s = some t) : t.sched.heldFor = some (q, p) := by
  unfold preemptFor at h
  dsimp only at h
  split at h
  · simp at h
  · rw [← Option.some.inj h]

end

/-! ### Overdue packets (R347) -/

section
variable {s : State} {q : Nat} {p : Packet}

theorem launchQueue_set (q : Nat) (x : LaunchQueue) (s : State) : launchQueue (setLaunchQueue q x s) q = x :=
  Vector.getElem_set_self _

theorem launchQueue_counts {s t : State} (h : onlyCounts s t) (q : Nat) : launchQueue t q = launchQueue s q := by
  obtain ⟨_, _, _, _, _, rfl⟩ := h
  rfl

theorem overdue_first (hl : p.late = false) (hd : pktDeadline p.data < s.now) :
    [p].findIdx? (fun p => isOverdue s p) = some 0 := by
  simp [isOverdue, hl, hd]

/-- A late packet without DROPLATE is marked and counted. -/
theorem overduePacket_counts (hq : (launchQueue s q).packets = [p]) (hl : p.late = false) (hd : pktDeadline p.data < s.now) (hk : pktDropLate p.data = false)
    {t : State} (ht : overduePacket q s = t) : (launchQueue t q).packets = [{ p with late := true }] ∧ t.mem = s.mem ∧ t.core = s.core
      ∧ (s.sched.latec.toNat < 2 ^ 32 - 1 → t.sched.latec = s.sched.latec + 1) := by
  have h0 : [p][0]? = some p := rfl
  simp only [overduePacket, overdue_first hl hd, hq, h0, hk] at ht
  subst ht
  refine ⟨congrArg LaunchQueue.packets (launchQueue_set q _ s), rfl, rfl, fun hc => if_neg fun e => ?_⟩
  rw [e] at hc
  exact absurd hc (by decide)

/-- A late packet with DROPLATE of a job not yet begun leaves its queue. -/
theorem overduePacket_drops (hq : (launchQueue s q).packets = [p]) (hl : p.late = false) (hd : pktDeadline p.data < s.now) (hk : pktDropLate p.data = true)
    (hj : p.job = none) (hc : pktCompl p.data = 0) {t : State} (ht : overduePacket q s = t) :
    (launchQueue t q).packets = [] ∧ t.mem = s.mem ∧ t.core = s.core ∧ t.sched.latec = s.sched.latec := by
  have h0 : [p][0]? = some p := rfl
  simp only [overduePacket, overdue_first hl hd, hq, h0, hk, hj, complete, hc] at ht
  subst ht
  have hcount := countReach_onlyCounts (s.host.tentab.toNat + 16 * pktTenant p.data) 16 (setLaunchQueue q { launchQueue s q with packets := [] } s)
  refine ⟨congrArg LaunchQueue.packets ((launchQueue_counts hcount q).trans (launchQueue_set q _ s)), ?_⟩
  obtain ⟨_, _, _, _, _, he⟩ := hcount
  exact ⟨(congrArg State.mem he :), (congrArg State.core he :), (congrArg (fun u : State => u.sched.latec) he :)⟩

end

/-! ### The balancer (R350) -/

section
variable {s : State} {x : Job}

theorem balanceJob_idle (hj : jobAt s x.num = some x) (h : x.state ≠ .running) : balanceJob x.num s = s := by
  simp [balanceJob, hj, h]

/-- A running job with a core that is not asked for gets its grants, then its move. -/
theorem balanceJob_running {n : Nat} (hj : jobAt s x.num = some x) (h : x.state = .running) (hn : n ∈ jobCores s x.num)
    (hp : ((coreAt n s).any fun c => c.preemptReq) = false) :
    balanceJob x.num s = moveOne x (grantRounds x 192 s []).2 (grantRounds x 192 s []).1 := by
  simp only [balanceJob, hj]
  refine if_neg ?_
  rintro (hr | ha)
  · exact hr h
  · exact Bool.false_ne_true (hp.symm.trans (List.all_eq_true.1 ha n hn))

theorem grantRounds_noneFree (h : (freeCores s).length ≤ reservedCores s) : grantRounds x 192 s [] = (s, []) := by
  have hg : (grantable s).isEmpty = true := by rw [grantable, List.drop_eq_nil_of_le h]; rfl
  rw [grantRounds]
  exact if_pos (by rw [hg, Bool.or_true])

theorem stagesWhere_none {f : Nat → Bool} (h : ∀ k < x.stages.length, f k = false) : stagesWhere x f = [] :=
  List.filter_eq_nil_iff.2 fun k hk => ne_true_of_eq_false (h k (List.mem_range.1 hk))

theorem grantRounds_noneAsks (h : ∀ k < x.stages.length, isNeedy s x k = false ∧ isBackedUp s x k = false) : grantRounds x 192 s [] = (s, []) := by
  rw [grantRounds, stagesWhere_none fun k hk => (h k hk).1, stagesWhere_none fun k hk => (h k hk).2]
  rfl

end

/-! ### Dispatch and retirement (R343, R353) -/

section
variable {s : State} {x : Job}

theorem dispatchRecord_sends {j k n : Nat} {g : Stage} {r : TaskRec} {l : List TaskRec} (hj : jobAt s j = some x) (hg : x.stages[k]? = some g)
    (hr : g.records = r :: l) (ht : targetCore s r.cell (stageCores s j k) = some n) :
    dispatchRecord j k s = onCore n (fun t => serveTake (t.setCore { t.core with inbox := t.core.inbox ++ [r] })) (onStage j k (fun g => { g with records := l }) s) := by
  simp [dispatchRecord, hj, hg, hr, ht]

theorem serveTake_takes {a : Nat} {d : SDst} {r : TaskRec} {l : List TaskRec} (hw : waitsOn s .ctl = some (.take a d)) (hi : s.core.inbox = r :: l) :
    serveTake s = resume .ctl (some (d, r.origin)) ((storeCellBy .ctl 0 a { bytes := r.cell, tag := 0 } s).setCore
      { (storeCellBy .ctl 0 a { bytes := r.cell, tag := 0 } s).core with inbox := l }) := by
  simp [serveTake, hw, takeFromInbox, hi]

/-- An ending job without cores or walks, and without a completion record to write. -/
theorem retireJob_retires {j : Nat} (hj : jobAt s j = some x) (hc : jobCores s j = []) (he : x.state = .ending) (hp : pktCompl x.packet = 0)
    (hw : ∀ w, w < 8 → (walkAt s w).job ≠ some x.num) :
    retireJob j s = askDecision { s with sched := { s.sched with jobs := s.sched.jobs.filter fun y => y.num != j } } := by
  have hn : x.num = j := of_decide_eq_true (List.find?_some (p := fun x : Job => decide (x.num = j)) hj)
  have hidle : ((List.range 8).all fun w => (walkAt s w).job != some x.num) = true :=
    List.all_eq_true.2 fun w hm => bne_iff_ne.2 (hw w (List.mem_range.1 hm))
  have hr : canRetire s x = true := by
    rw [canRetire, hidle, hn, hc, he]
    rfl
  simp only [retireJob, hj, hr, hc, complete, hp]
  rfl

end

/-! ### Rings (R354) -/

section
variable {s : State}

/-- The ring that a poll reads. -/
theorem ringAt (i : Fin 16) : s.gather.rings[Fin.ofNat 16 i.val] = s.gather.rings[i] :=
  congrArg (fun j : Fin 16 => s.gather.rings[j]) (Fin.ofNat_val_eq_self i)

theorem pollRing_disabled {i : Fin 16} (h : (s.gather.rings[i]).en = false) : pollRing i s = s := by
  unfold pollRing
  rw [ringAt]
  exact if_pos (by rw [h]; rfl)

theorem pollRings_disabled (h : ∀ i : Fin 16, (s.gather.rings[i]).en = false) : ∀ l : List Nat, (∀ i ∈ l, i < 16) → l.foldl (fun t i => pollRing i t) s = s
  | [], _ => rfl
  | i :: l, hl => by
    rw [List.foldl_cons, show pollRing i s = s from pollRing_disabled (i := ⟨i, hl i List.mem_cons_self⟩) (h _)]
    exact pollRings_disabled h l fun k hk => hl k (List.mem_cons_of_mem i hk)

/-- The descriptor of a ring has no bit that must be clear, and from 16 to 2^20 rows. -/
theorem ringFields {v : Nat} (h0 : v % 64 = 0) (h4 : 4 ≤ v / 2 ^ 64 % 2 ^ 8) (h20 : v / 2 ^ 64 % 2 ^ 8 ≤ 20) (h1 : v / 2 ^ 72 % 2 ^ 56 = 0)
    (h2 : v / 2 ^ 256 % 2 ^ 256 = 0) : ¬ (fld v 0 6 ≠ 0 ∨ fld v 64 8 < 4 ∨ 20 < fld v 64 8 ∨ fld v 72 56 ≠ 0 ∨ fld v 256 256 ≠ 0) := by
  have hf : fld v 0 6 = v % 64 := by rw [fld, pow_zero, Nat.div_one]; rfl
  rw [hf]
  rintro (h | h | h | h | h)
  · exact h h0
  · exact Nat.not_lt.2 h4 h
  · exact Nat.not_lt.2 h20 h
  · exact h h1
  · exact h h2

/-- What the rows of a ring that can be read come to: HEAD is written where a row was consumed. -/
theorem pollRing_reads {i : Fin 16} {v : Nat} {a : Access} {m : Nat × State}
    (ha : a = { asid := (s.gather.rings[i]).asid, root := (s.gather.rings[i]).root, job := false, write := false })
    (hm : m = gatherRows a (v % 2 ^ 64) (v / 2 ^ 64 % 2 ^ 8) (min ((v / 2 ^ 128 % 2 ^ 64 + 2 ^ 64 - v / 2 ^ 192 % 2 ^ 64) % 2 ^ 64) (2 ^ (v / 2 ^ 64 % 2 ^ 8)))
      (v / 2 ^ 192 % 2 ^ 64) (countSched a (s.gather.rings[i]).desc 64 s))
    (he : (s.gather.rings[i]).en = true) (hv : schedNum a s (s.gather.rings[i]).desc 64 = some v) (h0 : v % 64 = 0) (h4 : 4 ≤ v / 2 ^ 64 % 2 ^ 8)
    (h20 : v / 2 ^ 64 % 2 ^ 8 ≤ 20) (h1 : v / 2 ^ 72 % 2 ^ 56 = 0) (h2 : v / 2 ^ 256 % 2 ^ 256 = 0) :
    pollRing i s = if m.1 = 0 then m.2
      else match (translateBy 0 none (fun t _ => t) m.2 { a with write := true } ((s.gather.rings[i]).desc + 24)).result with
        | .ok x => memPutBytes m.2 x.pa (bytesOfNum 8 (v / 2 ^ 192 % 2 ^ 64 + m.1))
        | .error _ => m.2 := by
  have hb : fld v 0 64 = v % 2 ^ 64 := by rw [fld, pow_zero, Nat.div_one]
  subst ha hm
  unfold pollRing
  rw [ringAt]
  refine (if_neg (by rw [he]; exact Bool.false_ne_true)).trans ?_
  simp only [hv, hb]
  exact if_neg (ringFields h0 h4 h20 h1 h2)

theorem rowReserved {v : Nat} (h : v < 2 ^ 208) : ¬ bitsOf (BitVec.ofNat 256 v) 208 48 ≠ 0 := by
  rw [Ne, bitsOf_top_eq_zero (BitVec.ofNat 256 v) (by decide), BitVec.toNat_ofNat, Nat.mod_eq_of_lt (h.trans (by decide))]
  exact not_not_intro h

/-- A row for a swarm with room joins its open batch. -/
theorem gatherRows_row {a : Access} {base log2 x v w : Nat} {u : State} (hu : countSched a (base + 32 * (x % 2 ^ log2)) 32 s = u)
    (hs : schedNum a s (base + 32 * (x % 2 ^ log2)) 32 = some v) (hv : v < 2 ^ 208) (hw : swarmFor u (BitVec.ofNat 256 v) = some w)
    (hr : (swarmAt u w).openRows.length < 64 * (swarmAt u w).target) :
    gatherRows a base log2 1 x s = (1, setSwarm w { swarmAt u w with openRows := (swarmAt u w).openRows ++ [BitVec.ofNat 256 v] } u) := by
  simp only [gatherRows, hu, hs, hw]
  exact (if_neg (rowReserved hv)).trans (if_neg (Nat.not_le.2 hr))

end

/-! ### Batches (R355) -/

section
variable {s : State} {w : Nat}

theorem memPutBytes_gather (s : State) (pa : Nat) (bs : List Byte) : (memPutBytes s pa bs).gather = s.gather :=
  (congrArg State.gather (memPutBytes_frame s pa bs) :)

theorem writeCellAt_gather (s : State) (x : Xlat) (d : CellData) : (writeCellAt s x d).gather = s.gather := by
  have htag : (putTagAt (memPutBytes s x.cell.pa (bytesOfNum 64 d.bytes.toNat)) x d.tag).gather = s.gather := by
    refine Eq.trans ?_ (memPutBytes_gather s x.cell.pa (bytesOfNum 64 d.bytes.toNat))
    unfold putTagAt
    split
    · rfl
    · split
      · rfl
      · rfl
      · rfl
      · exact memPutBytes_gather ..
  have hput : (dropTags x.cell 64 (putTagAt (memPutBytes s x.cell.pa (bytesOfNum 64 d.bytes.toNat)) x d.tag)).gather = s.gather :=
    (apply_ite State.gather ..).trans ((ite_self _).trans htag)
  unfold writeCellAt
  dsimp only
  split
  · rfl
  · exact (apply_ite State.gather ..).trans ((congrArg₂ (ite _) ((congrArg State.gather (memPoison_frame ..) :).trans hput) hput).trans (ite_self _))

theorem putBatch_gather (a : Access) (n va : Nat) (bs : List Byte) (s : State) : (putBatch a n va bs s).gather = s.gather := by
  induction n generalizing va bs s with
  | zero => rfl
  | succ n ih =>
    refine (ih ..).trans ?_
    split
    · exact writeCellAt_gather ..
    · rfl

theorem serveWaiter_nobody (h : ∀ p ∈ s.gather.waiters, p.1 ≠ w) : serveWaiter w s = s := by
  have hf : s.gather.waiters.find? (fun p => decide (p.1 = w)) = none :=
    List.find?_eq_none.2 fun p hp => by simpa using h p hp
  rw [serveWaiter, hf]

theorem swarmAt_setSwarm (w : Nat) (x : Swarm) (s : State) : swarmAt (setSwarm w x s) w = x := Vector.getElem_set_self _

theorem emitBatch_not (h : canEmit s (swarmAt s w) = false) : emitBatch w s = s :=
  if_pos (by rw [h]; rfl)

/-- The batch that a swarm emits (Table 18-12). -/
def emittedBatch (s : State) (w : Nat) : Batch :=
  let x := swarmAt s w
  { num := x.nextBatch, rows := x.openRows.length, deadline := BitVec.ofNat 64 (earliestDeadline x.openRows), full := decide (x.full ≤ x.openRows.length)
    slack := decide ((earliestDeadline x.openRows : Int) - (x.slack.toNat : Int) ≤ (s.now : Int)), late := decide (earliestDeadline x.openRows < s.now)
    addr := slotAddr x x.nextBatch.toNat, model := x.model }

/-- A batch that nobody waits for stands emitted in its swarm. -/
theorem emitBatch_emits (h : canEmit s (swarmAt s w) = true) (hw : ∀ p ∈ s.gather.waiters, p.1 ≠ w) :
    swarmAt (emitBatch w s) w =
      { swarmAt s w with openRows := [], nextBatch := (swarmAt s w).nextBatch + 1, emitted := (swarmAt s w).emitted ++ [emittedBatch s w] } := by
  have he : emitBatch w s = serveWaiter w (setSwarm w _ (putBatch _ _ _ _ s)) := if_neg (by rw [h]; decide)
  rw [he, serveWaiter_nobody, swarmAt_setSwarm]
  · rfl
  · intro p hp
    refine hw p ?_
    rwa [← putBatch_gather]

end

/-! ### The obligation -/

/-- Settles O47: one lemma per event, the decision by the heads in their order. -/
theorem schedulerEvents : Obligations.SchedulerEvents := by
  refine ⟨fun s => ⟨decision s, rfl, rfl, fun ho ht => ?_⟩, ?_, ?_, fun s q p => ⟨fitsFree_noHold, fun h => fitsFree_other, fun h => ⟨fitsFree_self h, placeHeld_self h⟩⟩,
    fun s h => liveHold_gone, ?_, fun s hj => ⟨_, rfl, ?_⟩, fun s x hj hr => ⟨_, rfl, ?_⟩, fun s x y l hj => ?_,
    fun s x hj => ⟨balanceJob_idle hj, ?_⟩, fun s x g r l n hj hg hr ht => congrArg Host.Outcome.next (dispatchRecord_sends hj hg hr ht),
    fun s a d r l => serveTake_takes, fun s x hj hc he hp hw => ⟨_, congrArg Host.Outcome.next (retireJob_retires hj hc he hp hw), rfl, rfl, rfl⟩,
    fun s => rfl, fun s h => ?_, ?_, ?_, ?_⟩
  · rw [decision_idle ho ht]
    exact ⟨rfl, rfl, rfl, rfl⟩
  · intro s q p u ho ht hf hh
    have hu : holding (timed s) = u := holding_noHold hh
    have hfit : fitsFree (holding (timed s)) q p = true := by rw [hu, fitsFree_noHold hh, hf]
    refine congrArg Host.Outcome.next ((decision_places ho ht hfit).trans ?_)
    rw [hu, placeHeld_noHold hh]
  · intro s q p rest u v ho ht
    refine ⟨fun hf => congrArg Host.Outcome.next (decision_places ho ht hf), fun hf hh hr => congrArg Host.Outcome.next (decision_waits ho ht hf hh hr),
      fun hf hh => ⟨fun t hp => ⟨congrArg Host.Outcome.next ((decision_preempts ho ht hf hh).trans ?_), preemptFor_holds hp⟩,
        fun hp hrest => congrArg Host.Outcome.next ((decision_preempts ho ht hf hh).trans ?_)⟩⟩
    · rw [show preemptFor q p (holding (timed s)) = some t from hp]
    · have hn : rest.find? (fun x => fitsFree (holding (timed s)) x.1 x.2) = none :=
        List.find?_eq_none.2 fun x hx => ne_true_of_eq_false (hrest x hx)
      rw [show preemptFor q p (holding (timed s)) = none from hp, hn]
      rfl
  · intro s q p hq ha hp hl hd
    subst ha
    exact ⟨fun hk => ⟨_, rfl, overduePacket_counts hp hl hd hk rfl⟩, fun hk hj hc => ⟨_, rfl, overduePacket_drops hp hl hd hk hj hc rfl⟩⟩
  · rw [hj]
    rfl
  · rw [hj]
    rfl
  · show Host.Outcome.next ((s.sched.jobs.map _).foldl _ _) = _
    rw [hj]
    rfl
  · intro n hr hn hp r
    exact ⟨balanceJob_running hj hr hn hp, grantRounds_noneFree, grantRounds_noneAsks⟩
  · exact congrArg Host.Outcome.next (pollRings_disabled (s := { s with gather := { s.gather with lastPoll := s.now } }) h _ fun i => List.mem_range.1)
  · intro i v s r a log2 tail head m he hv h0 h4 h20 h1 h2
    have h := pollRing_reads (m := m) rfl rfl he hv h0 h4 h20 h1 h2
    refine ⟨fun hm => h.trans (if_pos hm), fun x hm hx => h.trans ((if_neg hm).trans ?_)⟩
    rw [hx]
  · intro a base log2 x v s w u hs hv hw hr
    exact gatherRows_row rfl hs hv hw hr
  · intro s w ha hw
    subst ha
    refine ⟨fun h => congrArg Host.Outcome.next (emitBatch_not h), fun h hn => ?_⟩
    have ht := emitBatch_emits h hn
    exact ⟨_, emittedBatch s s.arg.a, rfl, congrArg Swarm.openRows ht, congrArg Swarm.nextBatch ht, congrArg Swarm.emitted ht, rfl, rfl, rfl, rfl,
      decide_eq_true_iff⟩

end Sys2Proof.Machine
end

