-- ==== Sys2Proof/Proofs/ContextWords.lean ====
section
/-! O43: the checks of a context area once for both of its words, parking once for both of its words, then each word. -/

namespace Sys2Proof.Machine

/-! ### The checks of a context area (R383) -/

/-- The stream that the low bits of an operand name. -/
theorem secField {b : Word} {t : Sec} (h : b.toNat = secNum t) : secOfNum (bitsOf b 0 2) = t := by
  rw [bitsOf_low, h]
  cases t <;> rfl

theorem secNum_lt (t : Sec) : secNum t < 4 := by
  cases t <;> decide

/-- No bit above the number of a stream. -/
theorem secField_clear {b : Word} (h : b.toNat < 4) : bitsOf b 2 62 = 0 := (bitsOf_top_eq_zero b (by decide)).2 h

theorem top63 {a : Word} (h : a.getLsbD 63 = false) : a.toNat < 2 ^ 63 := by
  have hd : ¬ a.toNat / 2 ^ 63 % 2 = 1 := of_decide_eq_false ((bitOf_eq a 63).symm.trans h)
  have := a.isLt
  omega

theorem contextReserved_iff (a : Word) : (if bitOf a 63 then bitsOf a 22 41 else bitsOf a 56 7) ≠ 0 ↔ contextReserved a = true := by
  unfold contextReserved
  cases h : a.getLsbD 63 with
  | true =>
    rw [if_pos rfl, if_pos (show bitOf a 63 = true from h), decide_eq_true_eq]
    rfl
  | false =>
    have := top63 h
    rw [if_neg Bool.false_ne_true, if_neg (ne_true_of_eq_false (show bitOf a 63 = false from h)), decide_eq_true_eq]
    unfold bitsOf fld
    omega

/-- The address of an area in global memory. -/
theorem areaField {a : Word} (h63 : a.getLsbD 63 = false) (hr : contextReserved a = false) : bitsOf a 0 56 = a.toNat := by
  rw [contextReserved, if_neg (ne_true_of_eq_false h63), decide_eq_false_iff_not] at hr
  rw [bitsOf_low, Nat.mod_eq_of_lt (Nat.lt_of_not_le hr)]

section
variable {write : Bool} {a b : Word} {f : Sec → Eff} {s : State} {t : Sec}

theorem contextOperands_reserved (h : 4 ≤ b.toNat ∨ contextReserved a = true) : contextOperands write a b f s = .trap (mkTrap 0x10 0x01 0) :=
  if_pos (h.imp (fun h => (bitsOf_top_ne_zero b (by decide)).2 h) (contextReserved_iff a).2)

theorem contextOperands_unreserved (hb : b.toNat < 4) (hr : contextReserved a = false) :
    ¬ (bitsOf b 2 62 ≠ 0 ∨ (if bitOf a 63 then bitsOf a 22 41 else bitsOf a 56 7) ≠ 0) := by
  rw [contextReserved_iff, secField_clear hb, hr]
  simp

theorem contextOperands_misaligned (hb : b.toNat < 4) (hr : contextReserved a = false) (ha : a.toNat % 64 ≠ 0) :
    contextOperands write a b f s = .trap (mkTrap 0x03 0 a.toNat) :=
  (if_neg (contextOperands_unreserved hb hr)).trans (if_pos (by rwa [bitsOf_low]))

theorem contextOperands_running (hb : b.toNat = secNum t) (hr : contextReserved a = false) (ha : a.toNat % 64 = 0) (ht : t ≠ .ctl)
    (hp : (s.str t).parked = none) : contextOperands write a b f s = .trap (mkTrap 0x10 0x03 0) := by
  refine (if_neg (contextOperands_unreserved (hb ▸ secNum_lt t) hr)).trans ((if_neg ?_).trans (if_pos ?_))
  · rw [bitsOf_low]
    exact not_not_intro ha
  · rw [secField hb, hp]
    exact ⟨ht, rfl⟩

theorem notRunning (hp : t = .ctl ∨ (s.str t).parked.isSome = true) : ¬ (t ≠ .ctl ∧ (s.str t).parked.isNone = true) := by
  rintro ⟨ht, hn⟩
  rcases hp with hp | hp
  · exact ht hp
  · rw [Option.isNone_iff_eq_none] at hn
    rw [hn] at hp
    exact Bool.false_ne_true hp

/-- The checks after the three that every area has. -/
theorem contextOperands_area (hb : b.toNat = secNum t) (hr : contextReserved a = false) (ha : a.toNat % 64 = 0)
    (hp : t = .ctl ∨ (s.str t).parked.isSome = true) : contextOperands write a b f s =
      if a.getLsbD 63 = true ∧ 2 ^ 22 < a.toNat % 2 ^ 22 + areaSize t then .trap (mkTrap 0x10 0x05 0)
      else if contextReady s t && !(!a.getLsbD 63 && spanHeld s (streamAccess s write) (bitsOf a 0 56) (areaSize t)) then f t else .hold := by
  have h6 : ¬ bitsOf a 0 6 ≠ 0 := by
    rw [bitsOf_low]
    exact not_not_intro ha
  have hn : ¬ (secOfNum (bitsOf b 0 2) ≠ .ctl ∧ (s.str (secOfNum (bitsOf b 0 2))).parked.isNone = true) := by
    rw [secField hb]
    exact notRunning hp
  refine (if_neg (contextOperands_unreserved (hb ▸ secNum_lt t) hr)).trans ((if_neg h6).trans ((if_neg hn).trans ?_))
  rw [secField hb, cellField]
  rfl

theorem contextOperands_pastEnd (hb : b.toNat = secNum t) (hr : contextReserved a = false) (ha : a.toNat % 64 = 0)
    (hp : t = .ctl ∨ (s.str t).parked.isSome = true) (h63 : a.getLsbD 63 = true) (hl : 2 ^ 22 < a.toNat % 2 ^ 22 + areaSize t) :
    contextOperands write a b f s = .trap (mkTrap 0x10 0x05 0) :=
  (contextOperands_area hb hr ha hp).trans (if_pos ⟨h63, hl⟩)

/-- Operands that pass: the word goes on once the engine of the stream is ready and no blocked bank stands in the way. -/
theorem contextOperands_passed (h : contextOk s a b t) : contextOperands write a b f s =
    if contextReady s t && !(!a.getLsbD 63 && spanHeld s (streamAccess s write) (bitsOf a 0 56) (areaSize t)) then f t else .hold := by
  obtain ⟨hb, hr, ha, hp, hl⟩ := h
  refine (contextOperands_area hb hr ha hp).trans (if_neg ?_)
  rintro ⟨h63, hlt⟩
  exact Nat.not_lt.2 (hl h63) hlt

theorem contextOperands_spad (h : contextOk s a b t) (h63 : a.getLsbD 63 = true) (hr : contextReady s t = true) : contextOperands write a b f s = f t :=
  (contextOperands_passed h).trans (if_pos (by rw [hr, h63]; rfl))

theorem contextOperands_memory (h : contextOk s a b t) (h63 : a.getLsbD 63 = false) (hr : contextReady s t = true)
    (hh : spanHeld s (streamAccess s write) a.toNat (areaSize t) = false) : contextOperands write a b f s = f t :=
  (contextOperands_passed h).trans (if_pos (by rw [hr, h63, areaField h63 h.2.1, hh]; rfl))

theorem contextOperands_blocked (h : contextOk s a b t) (h63 : a.getLsbD 63 = false)
    (hh : spanHeld s (streamAccess s write) a.toNat (areaSize t) = true) : contextOperands write a b f s = .hold :=
  (contextOperands_passed h).trans (if_neg (by rw [h63, areaField h63 h.2.1, hh]; simp))

theorem contextOperands_waits (h : contextOk s a b t) (hr : contextReady s t = false) : contextOperands write a b f s = .hold :=
  (contextOperands_passed h).trans (if_neg (by rw [hr]; exact Bool.false_ne_true))

end

/-! ### What both words of an area have in common -/

section
variable {i : Instr} {o : ABP} {write : Bool} {f : State → Sec → Eff}
  (hi : ∀ s, exec i s = issue i (useABP o) (fun s => contextOperands write (rdS s o.a) (rdS s o.b) (f s) s) s)
include hi

theorem contextWord_reserved : traps i (useABP o) (fun s => 4 ≤ (rdS s o.b).toNat ∨ contextReserved (rdS s o.a) = true) fun _ => mkTrap 0x10 0x01 0 :=
  traps_of_body hi fun _ h => contextOperands_reserved h

theorem contextWord_misaligned : traps i (useABP o)
    (fun s => (rdS s o.b).toNat < 4 ∧ contextReserved (rdS s o.a) = false ∧ (rdS s o.a).toNat % 64 ≠ 0) fun s => mkTrap 0x03 0 (rdS s o.a).toNat :=
  traps_of_body hi fun _ ⟨hb, hr, ha⟩ => contextOperands_misaligned hb hr ha

theorem contextWord_running (t : Sec) : traps i (useABP o) (fun s => (rdS s o.b).toNat = secNum t ∧ contextReserved (rdS s o.a) = false
    ∧ (rdS s o.a).toNat % 64 = 0 ∧ t ≠ .ctl ∧ (s.str t).parked = none) fun _ => mkTrap 0x10 0x03 0 :=
  traps_of_body hi fun _ ⟨hb, hr, ha, ht, hp⟩ => contextOperands_running hb hr ha ht hp

theorem contextWord_pastEnd (t : Sec) : traps i (useABP o) (fun s => (rdS s o.b).toNat = secNum t ∧ contextReserved (rdS s o.a) = false
    ∧ (rdS s o.a).toNat % 64 = 0 ∧ (t = .ctl ∨ (s.str t).parked.isSome = true) ∧ (rdS s o.a).getLsbD 63 = true
    ∧ 2 ^ 22 < (rdS s o.a).toNat % 2 ^ 22 + areaSize t) fun _ => mkTrap 0x10 0x05 0 :=
  traps_of_body hi fun _ ⟨hb, hr, ha, hp, h63, hl⟩ => contextOperands_pastEnd hb hr ha hp h63 hl

variable (he : acquires i = none)
include he

theorem contextWord_waits (t : Sec) (s : State) (hs : issues i (useABP o) s) (h : contextOk (startIssue s) (rdS (startIssue s) o.a) (rdS (startIssue s) o.b) t)
    (hr : contextReady (startIssue s) t = false) : exec i s = .next s :=
  (hi s).trans (issue_hold hs (by rw [entered_startIssue he]; exact contextOperands_waits h hr))

theorem contextWord_blocked (t : Sec) (s : State) (hs : issues i (useABP o) s) (h : contextOk (startIssue s) (rdS (startIssue s) o.a) (rdS (startIssue s) o.b) t)
    (h63 : (rdS (startIssue s) o.a).getLsbD 63 = false)
    (hh : spanHeld (startIssue s) (streamAccess (startIssue s) write) (rdS (startIssue s) o.a).toNat (areaSize t) = true) : exec i s = .next s :=
  (hi s).trans (issue_hold hs (by rw [entered_startIssue he]; exact contextOperands_blocked h h63 hh))

end

/-! ### CTXSAVE (R383) -/

theorem exec_ctxsave (o : ABP) : ∃ f : State → Sec → Eff, ∀ s,
    exec (.ctxsave o) s = issue (.ctxsave o) (useABP o) (fun s => contextOperands true (rdS s o.a) (rdS s o.b) (f s) s) s := ⟨_, fun _ => rfl⟩

section
variable {o : ABP} {t : Sec} {s s1 : State}

theorem ctxsave_spad (o : ABP) (t : Sec) : performs (.ctxsave o) (useABP o)
    (fun s => contextOk s (rdS s o.a) (rdS s o.b) t ∧ (rdS s o.a).getLsbD 63 = true ∧ contextReady s t = true)
    (fun s => storedBy s.turn 0 ((rdS s o.a).toNat % 2 ^ 22) (areaSize t) (putSpadArea (contextOf t s) ((rdS s o.a).toNat % 2 ^ 22) (areaSize t / 64)) s) :=
  performs_of_body (fun _ => rfl) fun s ⟨h, h63, hr⟩ => (contextOperands_spad h h63 hr).trans ((if_pos h63).trans (by rw [cellField]))

/-- CTXSAVE in memory goes on with the cells of its area. -/
def savesTo (o : ABP) (t : Sec) (u : State) : State × Except TrapRec (List Xlat) → Eff
  | (s1, .error r) => .trapIn s1 r
  | (s1, .ok l) =>
    let t1 := tagSent 0 (.context u.core.num) (putCells (contextOf t u) l) s1
    if t1.awaits (.context u.core.num) then suspend .saved o.s t1 else .done t1

theorem ctxsave_memory (o : ABP) : ∃ body, (∀ s, exec (.ctxsave o) s = issue (.ctxsave o) (useABP o) body s)
    ∧ ∀ (t : Sec) (u : State), contextOk u (rdS u o.a) (rdS u o.b) t → (rdS u o.a).getLsbD 63 = false → contextReady u t = true →
      spanHeld u (streamAccess u true) (rdS u o.a).toNat (areaSize t) = false →
      body u = savesTo o t u (areaCells true (rdS u o.a).toNat (areaSize t / 64) u) :=
  ⟨_, fun _ => rfl, fun t u h h63 hr hh => (contextOperands_memory h h63 hr hh).trans ((if_neg (ne_true_of_eq_false h63)).trans (by
    rw [areaField h63 h.2.1]
    rcases areaCells true (rdS u o.a).toNat (areaSize t / 64) u with ⟨s1, r | l⟩ <;> rfl))⟩

section
variable (hs : issues (.ctxsave o) (useABP o) s) (h : contextOk (startIssue s) (rdS (startIssue s) o.a) (rdS (startIssue s) o.b) t)
  (h63 : (rdS (startIssue s) o.a).getLsbD 63 = false) (hr : contextReady (startIssue s) t = true)
  (hh : spanHeld (startIssue s) (streamAccess (startIssue s) true) (rdS (startIssue s) o.a).toNat (areaSize t) = false)
include hs h h63 hr hh

theorem ctxsave_unreachable {r : TrapRec} (hc : areaCells true (rdS (startIssue s) o.a).toNat (areaSize t / 64) (startIssue s) = (s1, .error r)) :
    exec (.ctxsave o) s = .next (if s.cur.awaitsLoad then s else trapOut r s1) := by
  obtain ⟨body, hi, hb⟩ := ctxsave_memory o
  exact (hi s).trans (issue_trapIn hs ((hb t (startIssue s) h h63 hr hh).trans (by rw [hc]; rfl)))

section
variable {l : List Xlat} (hc : areaCells true (rdS (startIssue s) o.a).toNat (areaSize t / 64) (startIssue s) = (s1, .ok l)) {t1 : State}
  (ht : tagSent 0 (.context (startIssue s).core.num) (putCells (contextOf t (startIssue s)) l) s1 = t1)
include hc ht

theorem ctxsave_writes (hw : t1.awaits (.context (startIssue s).core.num) = false) : exec (.ctxsave o) s = .next (completed (useABP o) t1) := by
  obtain ⟨body, hi, hb⟩ := ctxsave_memory o
  subst ht
  exact (hi s).trans (issue_done hs ((hb t (startIssue s) h h63 hr hh).trans (by rw [hc]; exact if_neg (ne_true_of_eq_false hw))))

/-- Cells of other modules are waited for. -/
theorem ctxsave_awaits (hw : t1.awaits (.context (startIssue s).core.num) = true) :
    exec (.ctxsave o) s = .next (endIssue (useABP o) (waiting .saved o.s t1)) := by
  obtain ⟨body, hi, hb⟩ := ctxsave_memory o
  subst ht
  exact (hi s).trans (issue_jump hs ((hb t (startIssue s) h h63 hr hh).trans (by rw [hc]; exact if_pos hw)))

end
end
end

/-! ### CTXLOAD (R384) -/

theorem exec_ctxload (o : ABP) : ∃ f : State → Sec → Eff, ∀ s,
    exec (.ctxload o) s = issue (.ctxload o) (useABP o) (fun s => contextOperands false (rdS s o.a) (rdS s o.b) (f s) s) s := ⟨_, fun _ => rfl⟩

/-- CTXLOAD goes on with the area that it has read. -/
def loads (t : Sec) (x : Nat) (s : State) : Eff := if areaMalformed t x then sysMisuse 0x04 else .done (restoreContext t x s)

/-- CTXLOAD in memory goes on with the cells of its area. -/
def loadsFrom (t : Sec) (va : Nat) : State × Except TrapRec (List Xlat) → Eff
  | (s1, .error r) => .trapIn s1 r
  | (s1, .ok l) => match readCells (s1.farViewed 0) va l with
    | .error r => .trapIn (l.foldl (fun s y => countCell y s) s1) r
    | .ok x => loads t x (l.foldl (fun s y => sawFar 0 y.pa 64 s) (l.foldl (fun s y => countCell y s) s1))

/-- CTXLOAD in scratchpad goes on with what it has read. -/
def loadsSpad (t : Sec) (seen u : State) : Except TrapRec Nat → Eff
  | .error r => loadFails r.addr.toNat r u
  | .ok x => loads t x seen

theorem ctxload_body (o : ABP) : ∃ body, (∀ s, exec (.ctxload o) s = issue (.ctxload o) (useABP o) body s)
    ∧ ∀ (t : Sec) (u : State), contextOk u (rdS u o.a) (rdS u o.b) t → contextReady u t = true →
      ((rdS u o.a).getLsbD 63 = true → body u = loadsSpad t (sawScratch 0 ((rdS u o.a).toNat % 2 ^ 22) (areaSize t) u) u
        (readSpadArea (u.viewed 0) ((rdS u o.a).toNat % 2 ^ 22) (areaSize t / 64)))
      ∧ ((rdS u o.a).getLsbD 63 = false → spanHeld u (streamAccess u false) (rdS u o.a).toNat (areaSize t) = false →
        body u = loadsFrom t (rdS u o.a).toNat (areaCells false (rdS u o.a).toNat (areaSize t / 64) u)) :=
  ⟨_, fun _ => rfl, fun t u h hr => ⟨
    fun h63 => (contextOperands_spad h h63 hr).trans ((if_pos h63).trans (by
      rw [cellField]
      cases readSpadArea (u.viewed 0) ((rdS u o.a).toNat % 2 ^ 22) (areaSize t / 64) <;> rfl)),
    fun h63 hh => (contextOperands_memory h h63 hr hh).trans ((if_neg (ne_true_of_eq_false h63)).trans (by
      rw [areaField h63 h.2.1]
      rcases areaCells false (rdS u o.a).toNat (areaSize t / 64) u with ⟨s1, r | l⟩
      · rfl
      · dsimp only [loadsFrom]
        cases readCells (s1.farViewed 0) (rdS u o.a).toNat l <;> rfl))⟩⟩

section
variable {o : ABP} {t : Sec} {s : State} (hs : issues (.ctxload o) (useABP o) s)
  (h : contextOk (startIssue s) (rdS (startIssue s) o.a) (rdS (startIssue s) o.b) t) (hr : contextReady (startIssue s) t = true)
include hs h hr

theorem ctxload_spad (h63 : (rdS (startIssue s) o.a).getLsbD 63 = true) :
    (∀ x, readSpadArea ((startIssue s).viewed 0) ((rdS (startIssue s) o.a).toNat % 2 ^ 22) (areaSize t / 64) = .ok x →
      (areaMalformed t x = false → exec (.ctxload o) s = .next (completed (useABP o)
        (restoreContext t x (sawScratch 0 ((rdS (startIssue s) o.a).toNat % 2 ^ 22) (areaSize t) (startIssue s)))))
      ∧ (areaMalformed t x = true → exec (.ctxload o) s = .next (trapOut (mkTrap 0x10 0x04 0) s)))
    ∧ ∀ r, readSpadArea ((startIssue s).viewed 0) ((rdS (startIssue s) o.a).toNat % 2 ^ 22) (areaSize t / 64) = .error r →
      (r.cause ≠ 0x05 ∨ spadIsBad (startIssue s).core r.addr.toNat = false) → exec (.ctxload o) s = .next (trapOut r s) := by
  obtain ⟨body, hi, hb⟩ := ctxload_body o
  have hb := (hb t (startIssue s) h hr).1 h63
  refine ⟨fun x hx => ⟨fun hm => (hi s).trans (issue_done hs (hb.trans ?_)), fun hm => (hi s).trans (issue_trap hs (hb.trans ?_))⟩,
    fun r hx hc => (hi s).trans (issue_trap hs (hb.trans ?_))⟩ <;> rw [hx]
  · exact if_neg (ne_true_of_eq_false hm)
  · exact if_pos hm
  · refine if_neg ?_
    rcases hc with hc | hc
    · simp [show r.cause ≠ cPoison from hc]
    · simp [hc]

theorem ctxload_memory (h63 : (rdS (startIssue s) o.a).getLsbD 63 = false)
    (hh : spanHeld (startIssue s) (streamAccess (startIssue s) false) (rdS (startIssue s) o.a).toNat (areaSize t) = false) (s1 : State) :
    (∀ r, areaCells false (rdS (startIssue s) o.a).toNat (areaSize t / 64) (startIssue s) = (s1, .error r) →
      exec (.ctxload o) s = .next (if s.cur.awaitsLoad then s else trapOut r s1))
    ∧ (∀ l r, areaCells false (rdS (startIssue s) o.a).toNat (areaSize t / 64) (startIssue s) = (s1, .ok l) →
      readCells (s1.farViewed 0) (rdS (startIssue s) o.a).toNat l = .error r →
      exec (.ctxload o) s = .next (if s.cur.awaitsLoad then s else trapOut r (l.foldl (fun s y => countCell y s) s1)))
    ∧ ∀ l x, areaCells false (rdS (startIssue s) o.a).toNat (areaSize t / 64) (startIssue s) = (s1, .ok l) →
      readCells (s1.farViewed 0) (rdS (startIssue s) o.a).toNat l = .ok x →
      (areaMalformed t x = false → exec (.ctxload o) s = .next (completed (useABP o)
        (restoreContext t x (l.foldl (fun s y => sawFar 0 y.pa 64 s) (l.foldl (fun s y => countCell y s) s1)))))
      ∧ (areaMalformed t x = true → exec (.ctxload o) s = .next (trapOut (mkTrap 0x10 0x04 0) s)) := by
  obtain ⟨body, hi, hb⟩ := ctxload_body o
  have hb := (hb t (startIssue s) h hr).2 h63 hh
  refine ⟨fun r hc => (hi s).trans (issue_trapIn hs (hb.trans ?_)), fun l r hc hx => (hi s).trans (issue_trapIn hs (hb.trans ?_)),
    fun l x hc hx => ⟨fun hm => (hi s).trans (issue_done hs (hb.trans ?_)), fun hm => (hi s).trans (issue_trap hs (hb.trans ?_))⟩⟩ <;> rw [hc]
  · rfl
  · rw [loadsFrom, hx]
  · rw [loadsFrom, hx]
    exact if_neg (ne_true_of_eq_false hm)
  · rw [loadsFrom, hx]
    exact if_pos hm

end

/-! ### SEMMAP, TLBPROBE and HINT (R390-R392) -/

theorem semField {x : Word} (h : x.toNat < 256) : bitsOf x 0 8 = x.toNat := (bitsOf_low x 8).trans (Nat.mod_eq_of_lt h)

theorem semField_clear {x : Word} (h : x.toNat < 256) : ¬ bitsOf x 8 56 ≠ 0 := not_not_intro ((bitsOf_top_eq_zero x (by decide)).2 h)

theorem semmap_sets (o : ABP) : performs (.semmap o) (useABP o) (fun s => (rdS s o.a).toNat < 256 ∧ semEntryMalformed (rdS s o.b) = false)
    (fun s => s.setSync { s.core.sync with
      map := s.core.sync.map.set (Fin.ofNat 256 (rdS s o.a).toNat) (if (rdS s o.b).getLsbD 31 then rdS s o.b else 0) }) :=
  performs_of_body (fun _ => rfl) fun s ⟨ha, hb⟩ => (if_neg (semField_clear ha)).trans ((if_neg (ne_true_of_eq_false hb)).trans
    (congrArg (fun i : Fin 256 => Eff.done (s.setSync { s.core.sync with map := s.core.sync.map.set i (semEntryKept (rdS s o.b)) }))
      (congrArg (Fin.ofNat 256) (semField ha))))

theorem semmap_malformed (o : ABP) : traps (.semmap o) (useABP o) (fun s => (rdS s o.a).toNat < 256 ∧ semEntryMalformed (rdS s o.b) = true)
    fun _ => mkTrap 0x10 0x06 0 :=
  traps_of_body (fun _ => rfl) fun _ ⟨ha, hb⟩ => (if_neg (semField_clear ha)).trans (if_pos hb)

theorem semmap_reserved (o : ABP) : traps (.semmap o) (useABP o) (fun s => 256 ≤ (rdS s o.a).toNat) fun _ => mkTrap 0x10 0x01 0 :=
  traps_of_body (fun _ => rfl) fun s h => if_pos ((bitsOf_top_ne_zero (rdS s o.a) (by decide)).2 h)

theorem tlbprobe_reads (o : DABP) : performs (.tlbprobe o) (useDABP o) (fun s => (rdS s o.b).toNat < 2 ^ 16)
    (fun s => wrD o.d (if 2 ^ 56 ≤ (rdS s o.a).toNat then 0
      else ((cachedLeaf s ((rdS s o.b).setWidth 16) (rdS s o.a).toNat).map (·.pte)).getD 0) 16 s) :=
  performs_of_body (fun _ => rfl) fun s h => (if_neg (not_not_intro ((bitsOf_top_eq_zero (rdS s o.b) (by decide)).2 h))).trans (by
    rw [ofNat_bitsOf_low]
    cases cachedLeaf s ((rdS s o.b).setWidth 16) (rdS s o.a).toNat <;> rfl)

theorem tlbprobe_reserved (o : DABP) : traps (.tlbprobe o) (useDABP o) (fun s => 2 ^ 16 ≤ (rdS s o.b).toNat) fun _ => mkTrap 0x10 0x01 0 :=
  traps_of_body (fun _ => rfl) fun s h => if_pos ((bitsOf_top_ne_zero (rdS s o.b) (by decide)).2 h)

theorem hintField (x : Word) : bitsOf x 0 4 = x.toNat % 16 := bitsOf_low x 4

theorem hint_nothing (o : ABP) : performs (.hint o) (useABP o) (fun s => (rdS s o.b).toNat % 16 ≠ 1 ∧ (rdS s o.b).toNat % 16 ≠ 2) id :=
  performs_of_body (fun _ => rfl) fun s ⟨h1, h2⟩ => if_neg (by rw [hintField]; exact not_or.2 ⟨h1, h2⟩)

theorem hint_walks (o : ABP) : performs (.hint o) (useABP o) (fun s => (rdS s o.b).toNat % 16 = 1 ∨ (rdS s o.b).toNat % 16 = 2)
    (fun s => s.raise [walkEndEvent s.core.num (rdS s o.a).toNat ((rdS s o.b).toNat % 16)]) :=
  performs_of_body (fun _ => rfl) fun s h => (if_pos (by rwa [hintField])).trans (by rw [hintField])

/-! ### TLBINV (R389) -/

section
variable {b : Word}

theorem tlbinvReserved_iff (b : Word) : (bitsOf b 0 2 = 3 ∨ 2 ≤ bitsOf b 2 2 ∨ bitsOf b 4 12 ≠ 0 ∨ bitsOf b 32 32 ≠ 0) ↔
    (b.toNat % 4 = 3 ∨ 2 ≤ b.toNat / 4 % 4 ∨ b.toNat / 16 % 2 ^ 12 ≠ 0 ∨ 2 ^ 32 ≤ b.toNat) := by
  rw [bitsOf_low, bitsOf_top_ne_zero (lo := 32) b (by decide)]
  rfl

theorem tlbinvReserved_clear (h0 : b.toNat % 4 ≠ 3) (h2 : b.toNat / 4 % 4 < 2) (h4 : b.toNat / 16 % 2 ^ 12 = 0) (h32 : b.toNat < 2 ^ 32) :
    ¬ (bitsOf b 0 2 = 3 ∨ 2 ≤ bitsOf b 2 2 ∨ bitsOf b 4 12 ≠ 0 ∨ bitsOf b 32 32 ≠ 0) := by
  rw [tlbinvReserved_iff]
  rintro (h | h | h | h)
  · exact h0 h
  · exact Nat.not_le.2 h2 h
  · exact h h4
  · exact Nat.not_le.2 h32 h

/-- TLBINV reaches every core where bit 2 of its second operand is set. -/
theorem tlbinvReach (h2 : b.toNat / 4 % 4 < 2) : bitsOf b 2 2 = 1 ↔ b.getLsbD 2 = true := by
  rw [show b.getLsbD 2 = decide (b.toNat / 2 ^ 2 % 2 = 1) from bitOf_eq b 2, decide_eq_true_eq]
  unfold bitsOf fld
  omega

theorem tlbinvSpace (b : Word) : BitVec.ofNat 16 (bitsOf b 16 16) = BitVec.ofNat 16 (b.toNat / 2 ^ 16) :=
  BitVec.eq_of_toNat_eq (Nat.mod_mod _ _)

end

theorem tlbinv_drops (o : ABP) : performs (.tlbinv o) (useABP o)
    (fun s => (rdS s o.b).toNat % 4 ≠ 3 ∧ (rdS s o.b).toNat / 4 % 4 < 2 ∧ (rdS s o.b).toNat / 16 % 2 ^ 12 = 0 ∧ (rdS s o.b).toNat < 2 ^ 32
      ∧ farHeld (BitVec.allOnes 16) s = false
      ∧ ∀ c ∈ (if (rdS s o.b).getLsbD 2 then s.core :: s.others else [s.core]), stillTranslating s c = false)
    (fun s => dropEntries ((rdS s o.b).getLsbD 2) (invalidates ((rdS s o.b).toNat % 4) (BitVec.ofNat 16 ((rdS s o.b).toNat / 2 ^ 16)) (rdS s o.a).toNat)
      (invalidatesWalk ((rdS s o.b).toNat % 4) (BitVec.ofNat 16 ((rdS s o.b).toNat / 2 ^ 16)) (rdS s o.a).toNat) s) :=
  performs_of_body (fun _ => rfl) fun s ⟨h0, h2, h4, h32, hf, hc⟩ => by
    have hany : ((if bitsOf (rdS s o.b) 2 2 = 1 then s.core :: s.others else [s.core]).any (stillTranslating s)) = false := by
      simp only [tlbinvReach h2]
      exact List.any_eq_false.2 fun c hm => ne_true_of_eq_false (hc c hm)
    refine (if_neg (tlbinvReserved_clear h0 h2 h4 h32)).trans ((if_neg (by rw [hf, hany]; exact Bool.false_ne_true)).trans ?_)
    simp only [tlbinvReach h2, tlbinvSpace, Bool.decide_eq_true]
    rw [show bitsOf (rdS s o.b) 0 2 = (rdS s o.b).toNat % 4 from bitsOf_low _ 2]

theorem tlbinv_waits {o : ABP} {s : State} (hs : issues (.tlbinv o) (useABP o) s) (h0 : (rdS (startIssue s) o.b).toNat % 4 ≠ 3)
    (h2 : (rdS (startIssue s) o.b).toNat / 4 % 4 < 2) (h4 : (rdS (startIssue s) o.b).toNat / 16 % 2 ^ 12 = 0) (h32 : (rdS (startIssue s) o.b).toNat < 2 ^ 32)
    (h : farHeld (BitVec.allOnes 16) (startIssue s) = true
      ∨ ∃ c ∈ (if (rdS (startIssue s) o.b).getLsbD 2 then (startIssue s).core :: s.others else [(startIssue s).core]), stillTranslating (startIssue s) c = true) :
    exec (.tlbinv o) s = .next s := by
  refine issue_hold hs ((if_neg (tlbinvReserved_clear h0 h2 h4 h32)).trans (if_pos ?_))
  rw [entered_startIssue (i := .tlbinv o) rfl]
  rcases h with h | ⟨c, hm, hc⟩
  · rw [h, Bool.true_or]
  · simp only [tlbinvReach h2]
    rw [Bool.or_eq_true]
    exact .inr (List.any_eq_true.2 ⟨c, hm, hc⟩)

theorem tlbinv_reserved (o : ABP) : traps (.tlbinv o) (useABP o) (fun s => (rdS s o.b).toNat % 4 = 3 ∨ 2 ≤ (rdS s o.b).toNat / 4 % 4
    ∨ (rdS s o.b).toNat / 16 % 2 ^ 12 ≠ 0 ∨ 2 ^ 32 ≤ (rdS s o.b).toNat) fun _ => mkTrap 0x10 0x08 0 :=
  traps_of_body (fun _ => rfl) fun s h => if_pos ((tlbinvReserved_iff (rdS s o.b)).2 h)


/-! ### Parking (R133, R136, R379) -/

theorem mem_maskSecs (a : Word) (t : Sec) : t ∈ maskSecs a ↔ t ≠ .ctl ∧ a.getLsbD (secNum t) = true := by
  rw [maskSecs, List.mem_filter]
  refine and_congr ?_ Iff.rfl
  cases t <;> simp

section
variable {s : State} {l : List Sec} {f : State → Eff}

/-- The streams of a list that run. -/
def runningOf (s : State) (l : List Sec) : List Sec := l.filter fun t => (s.str t).parked.isNone

theorem mem_runningOf {t : Sec} : t ∈ runningOf s l ↔ t ∈ l ∧ (s.str t).parked = none := by
  rw [runningOf, List.mem_filter, Option.isNone_iff_eq_none]

/-- A stream that awaits another core is asked back first. -/
theorem parkThen_remote (h : ∃ t ∈ l, (s.str t).parked = none ∧ (remoteOf s t).isSome = true) : parkThen l f s =
    .jump (((runningOf s l).filter fun t => (remoteOf s t).isSome).foldl (fun s t => askWithdrawal true t s) s) := by
  obtain ⟨t, ht, hp, hr⟩ := h
  have hm : t ∈ (runningOf s l).filter fun t => (remoteOf s t).isSome := List.mem_filter.2 ⟨mem_runningOf.2 ⟨ht, hp⟩, hr⟩
  refine if_pos ?_
  rw [Bool.not_eq_true', List.isEmpty_eq_false_iff]
  exact List.ne_nil_of_mem hm

/-- No stream of the list awaits another core. -/
theorem noneRemote (h : ∀ t ∈ l, (s.str t).parked = none → remoteOf s t = none) :
    ¬ (!((runningOf s l).filter fun t => (remoteOf s t).isSome).isEmpty) = true := by
  rw [Bool.not_eq_true', List.isEmpty_eq_false_iff, not_not, List.filter_eq_nil_iff]
  intro t ht
  obtain ⟨hl, hp⟩ := mem_runningOf.1 ht
  rw [h t hl hp]
  exact Bool.false_ne_true

theorem parkThen_holds (h : parkHolds s l) : parkThen l f s = .hold := by
  obtain ⟨hr, t, ht, hp, hd⟩ := h
  refine (if_neg (noneRemote hr)).trans (if_pos (List.any_eq_true.2 ⟨t, mem_runningOf.2 ⟨ht, hp⟩, ?_⟩))
  rcases hd with hd | hd
  · rw [hd, Bool.true_or]
  · rw [List.isEmpty_eq_false_iff.2 hd, Bool.not_false, Bool.or_true]

/-- No trap is on its way to a stream of the list. -/
theorem noneTrapping (h : ∀ t ∈ l, (s.str t).parked = none → (s.str t).awaitsLoad = false ∧ (s.str t).deferred = []) :
    ¬ ((runningOf s l).any fun t => (s.str t).awaitsLoad || !(s.str t).deferred.isEmpty) = true := by
  rw [Bool.not_eq_true, List.any_eq_false]
  intro t ht
  obtain ⟨hl, hp⟩ := mem_runningOf.1 ht
  obtain ⟨ha, hd⟩ := h t hl hp
  rw [ha, hd]
  exact Bool.false_ne_true

/-- A stream that waits parks at its own turn. -/
theorem parkThen_atTurn (h : parksAtTurn s l) : parkThen l f s = .jump ((runningOf s l).foldl askPark s) := by
  obtain ⟨ho, t, ht, hp, hw⟩ := h
  refine (if_neg (noneRemote fun t hl hp => (ho t hl hp).1)).trans ((if_neg (noneTrapping fun t hl hp => (ho t hl hp).2)).trans
    (if_pos (List.any_eq_true.2 ⟨t, mem_runningOf.2 ⟨ht, hp⟩, ?_⟩)))
  rw [Bool.or_eq_true]
  exact hw

theorem remoteOf_notWaiting {t : Sec} (h : (s.str t).waiting = none) : remoteOf s t = none := by
  rw [remoteOf, waitsOn, h]
  rfl

theorem parkThen_parks (h : mayPark s l) : parkThen l f s = f (l.foldl parkStream s) := by
  refine (if_neg (noneRemote fun t hl hp => remoteOf_notWaiting (h t hl hp).1)).trans ((if_neg (noneTrapping fun t hl hp => (h t hl hp).2.2)).trans (if_neg ?_))
  rw [Bool.not_eq_true, List.any_eq_false]
  intro t ht
  obtain ⟨hl, hp⟩ := mem_runningOf.1 ht
  obtain ⟨hw, ha, -, -⟩ := h t hl hp
  rw [hw, ha]
  exact Bool.false_ne_true

end

/-- A word whose operand, where it is good, parks the streams of its mask. -/
theorem parkWord {i : Instr} {o : AP} {good : Word → Prop} {body : State → Eff} {f : Word → State → Eff} (hi : ∀ s, exec i s = issue i (useAP o) body s)
    (hb : ∀ s, good (rdS s o.a) → body s = parkThen (maskSecs (rdS s o.a)) (f (rdS s o.a)) s) (he : acquires i = none) :
    (∀ s, issues i (useAP o) s → good (rdS (startIssue s) o.a) → parkHolds (startIssue s) (maskSecs (rdS (startIssue s) o.a)) → exec i s = .next s)
    ∧ transfers i (useAP o) (fun s => good (rdS s o.a) ∧ parksAtTurn s (maskSecs (rdS s o.a)))
      (fun s => ((maskSecs (rdS s o.a)).filter fun t => (s.str t).parked.isNone).foldl askPark s)
    ∧ transfers i (useAP o) (fun s => good (rdS s o.a) ∧ ∃ t ∈ maskSecs (rdS s o.a), (s.str t).parked = none ∧ (remoteOf s t).isSome = true)
      (fun s => (((maskSecs (rdS s o.a)).filter fun t => (s.str t).parked.isNone).filter fun t => (remoteOf s t).isSome).foldl
        (fun s t => askWithdrawal true t s) s) :=
  ⟨fun s hs hg hp => (hi s).trans (issue_hold hs (by rw [entered_startIssue he, hb _ hg, parkThen_holds hp])),
    transfers_of_body hi fun s ⟨hg, hp⟩ => (hb s hg).trans (parkThen_atTurn hp), transfers_of_body hi fun s ⟨hg, hp⟩ => (hb s hg).trans (parkThen_remote hp)⟩

/-! ### PREEMPT (R380) -/

section
variable {a : Word}

theorem preemptReserved_iff (a : Word) : (bitOf a 0 || decide (bitsOf a 4 4 ≠ 0) || decide (bitsOf a 10 54 ≠ 0)) = true ↔
    (a.toNat % 2 = 1 ∨ a.toNat / 16 % 16 ≠ 0 ∨ 1024 ≤ a.toNat) := by
  rw [Bool.or_eq_true, Bool.or_eq_true, decide_eq_true_eq, decide_eq_true_eq, bitOf_eq, decide_eq_true_eq, bitsOf_top_ne_zero (lo := 10) a (by decide),
    pow_zero, Nat.div_one, or_assoc]
  rfl

theorem preemptReserved_clear (h0 : a.toNat % 2 = 0) (h4 : a.toNat / 16 % 16 = 0) (h10 : a.toNat < 1024) :
    ¬ (bitOf a 0 || decide (bitsOf a 4 4 ≠ 0) || decide (bitsOf a 10 54 ≠ 0)) = true := by
  rw [preemptReserved_iff]
  omega

theorem bit_of_lt {i : Nat} (h : a.toNat < 2 ^ i) : bitOf a i = false := Nat.testBit_lt_two_pow h

/-- Requests that contradict each other. -/
theorem preemptContrary_iff (a : Word) : ((bitOf a 8 && bitOf a 9) || (bitOf a 9 && decide (bitsOf a 1 3 ≠ 7))) = true ↔
    bitOf a 9 = true ∧ (bitOf a 8 = true ∨ a.toNat / 2 % 8 ≠ 7) := by
  rw [Bool.or_eq_true, Bool.and_eq_true, Bool.and_eq_true, decide_eq_true_eq, and_comm (a := bitOf a 8 = true), ← and_or_left]
  rfl

end

theorem preempt_reserved (o : AP) : traps (.preempt o) (useAP o)
    (fun s => (rdS s o.a).toNat % 2 = 1 ∨ (rdS s o.a).toNat / 16 % 16 ≠ 0 ∨ 1024 ≤ (rdS s o.a).toNat) fun _ => mkTrap 0x10 0x01 0 :=
  traps_of_body (fun _ => rfl) fun s h => if_pos ((preemptReserved_iff (rdS s o.a)).2 h)

theorem preempt_contrary (o : AP) : traps (.preempt o) (useAP o)
    (fun s => (rdS s o.a).toNat % 2 = 0 ∧ (rdS s o.a).toNat / 16 % 16 = 0 ∧ (rdS s o.a).toNat < 1024 ∧ (rdS s o.a).getLsbD 9 = true
      ∧ ((rdS s o.a).getLsbD 8 = true ∨ (rdS s o.a).toNat / 2 % 8 ≠ 7)) fun _ => mkTrap 0x10 0x07 0 :=
  traps_of_body (fun _ => rfl) fun s ⟨h0, h4, h10, h9, h⟩ =>
    (if_neg (preemptReserved_clear h0 h4 h10)).trans (if_pos ((preemptContrary_iff (rdS s o.a)).2 ⟨h9, h⟩))

theorem preempt_restarts (o : AP) : performs (.preempt o) (useAP o)
    (fun s => (rdS s o.a).toNat % 2 = 0 ∧ (rdS s o.a).toNat < 512 ∧ (rdS s o.a).toNat / 16 % 16 = 0 ∧ (rdS s o.a).getLsbD 8 = true)
    (fun s => (maskSecs (rdS s o.a)).foldl (fun s t => s.onStr t fun st => { st with parked := none }) s) :=
  performs_of_body (fun _ => rfl) fun s ⟨h0, h9, h4, h8⟩ => by
    have hb : bitOf (rdS s o.a) 9 = false := bit_of_lt (i := 9) h9
    have hc : ¬ ((bitOf (rdS s o.a) 8 && bitOf (rdS s o.a) 9) || (bitOf (rdS s o.a) 9 && decide (bitsOf (rdS s o.a) 1 3 ≠ 7))) = true := by
      rw [preemptContrary_iff, hb]
      exact fun h => Bool.false_ne_true h.1
    exact (if_neg (preemptReserved_clear h0 h4 (h9.trans (by decide)))).trans ((if_neg hc).trans (if_pos h8))

/-- What PREEMPT does once its streams stand parked. -/
def preemptThen (a : Word) (s : State) : Eff := if bitOf a 9 then preemptEnd s else .done s

theorem preempt_parkThen (o : AP) : ∃ body, (∀ s, exec (.preempt o) s = issue (.preempt o) (useAP o) body s)
    ∧ ∀ s, (((rdS s o.a).toNat % 2 = 0 ∧ (rdS s o.a).toNat < 16) ∨ rdS s o.a = 0x20E) →
      body s = parkThen (maskSecs (rdS s o.a)) (preemptThen (rdS s o.a)) s := by
  refine ⟨_, fun _ => rfl, fun s h => ?_⟩
  dsimp only
  generalize rdS s o.a = a at h ⊢
  rcases h with ⟨h0, h4⟩ | rfl
  · have h9 : bitOf a 9 = false := bit_of_lt (h4.trans (by decide))
    have h8 : bitOf a 8 = false := bit_of_lt (h4.trans (by decide))
    refine (if_neg (preemptReserved_clear h0 (by omega) (by omega))).trans ((if_neg ?_).trans (if_neg (ne_true_of_eq_false h8)))
    rw [preemptContrary_iff, h9]
    exact fun h => Bool.false_ne_true h.1
  · rfl

theorem preempt_parks (o : AP) : performs (.preempt o) (useAP o)
    (fun s => (rdS s o.a).toNat % 2 = 0 ∧ (rdS s o.a).toNat < 16 ∧ mayPark s (maskSecs (rdS s o.a)))
    (fun s => (maskSecs (rdS s o.a)).foldl parkStream s) := by
  obtain ⟨body, hi, hb⟩ := preempt_parkThen o
  exact performs_of_body hi fun s ⟨h0, h4, hm⟩ => (hb s (.inl ⟨h0, h4⟩)).trans ((parkThen_parks hm).trans
    (if_neg (ne_true_of_eq_false (bit_of_lt (h4.trans (by decide))))))

section
variable {s : State}

theorem preemptEnd_quiet (hq : taskQuiet (leavesSupervisor s) = true) (ha : awaitingStreams (leavesSupervisor s) = []) :
    preemptEnd s = .jump (nextTask (clearTask (leavesSupervisor s))) := by
  have h : endTask (leavesSupervisor s) = _ := endTask_quiet hq ha
  rw [leavesSupervisor] at h
  simp only [preemptEnd, h]
  rfl

theorem preemptEnd_busy (hq : taskQuiet (leavesSupervisor s) = false) : preemptEnd s = .jump s := by
  have h : endTask (leavesSupervisor s) = _ := endTask_holds hq
  rw [leavesSupervisor] at h
  simp only [preemptEnd, h]

end

theorem preempt_ends (o : AP) : transfers (.preempt o) (useAP o)
    (fun s => rdS s o.a = 0x20E ∧ mayPark s (maskSecs (rdS s o.a)) ∧ taskQuiet (leavesSupervisor ((maskSecs (rdS s o.a)).foldl parkStream s)) = true
      ∧ awaitingStreams (leavesSupervisor ((maskSecs (rdS s o.a)).foldl parkStream s)) = [])
    (fun s => nextTask (clearTask (leavesSupervisor ((maskSecs (rdS s o.a)).foldl parkStream s)))) := by
  obtain ⟨body, hi, hb⟩ := preempt_parkThen o
  refine transfers_of_body hi fun s ⟨h, hm, hq, ha⟩ => (hb s (.inr h)).trans ((parkThen_parks hm).trans ((if_pos ?_).trans (preemptEnd_quiet hq ha)))
  rw [h]
  rfl

theorem preempt_busy (o : AP) : transfers (.preempt o) (useAP o)
    (fun s => rdS s o.a = 0x20E ∧ mayPark s (maskSecs (rdS s o.a)) ∧ taskQuiet (leavesSupervisor ((maskSecs (rdS s o.a)).foldl parkStream s)) = false)
    (fun s => (maskSecs (rdS s o.a)).foldl parkStream s) := by
  obtain ⟨body, hi, hb⟩ := preempt_parkThen o
  refine transfers_of_body hi fun s ⟨h, hm, hq⟩ => (hb s (.inr h)).trans ((parkThen_parks hm).trans ((if_pos ?_).trans (preemptEnd_busy hq)))
  rw [h]
  rfl

/-! ### HALT (R381) -/

/-- What HALT does once its streams stand parked. -/
def haltThen (o : AP) (a : Word) (s : State) : Eff := if bitOf a 0 && decide (spend s = 0) then suspend .halt o.s s else .done s

theorem halt_parkThen (o : AP) : ∃ body, (∀ s, exec (.halt o) s = issue (.halt o) (useAP o) body s)
    ∧ ∀ s, (rdS s o.a).toNat < 16 → body s = parkThen (maskSecs (rdS s o.a)) (haltThen o (rdS s o.a)) s :=
  ⟨_, fun _ => rfl, fun s h => if_neg (not_not_intro ((bitsOf_top_eq_zero (rdS s o.a) (by decide)).2 h))⟩

theorem halt_reserved (o : AP) : traps (.halt o) (useAP o) (fun s => 16 ≤ (rdS s o.a).toNat) fun _ => mkTrap 0x10 0x01 0 :=
  traps_of_body (fun _ => rfl) fun s h => if_pos ((bitsOf_top_ne_zero (rdS s o.a) (by decide)).2 h)

theorem halt_goesOn (o : AP) : performs (.halt o) (useAP o) (fun s => (rdS s o.a).toNat < 16 ∧ mayPark s (maskSecs (rdS s o.a))
      ∧ ((rdS s o.a).getLsbD 0 = false ∨ spend ((maskSecs (rdS s o.a)).foldl parkStream s) ≠ 0))
    (fun s => (maskSecs (rdS s o.a)).foldl parkStream s) := by
  obtain ⟨body, hi, hb⟩ := halt_parkThen o
  refine performs_of_body hi fun s ⟨h, hm, hp⟩ => (hb s h).trans ((parkThen_parks hm).trans (if_neg ?_))
  rw [Bool.and_eq_true, decide_eq_true_eq]
  rintro ⟨h0, hz⟩
  rcases hp with hp | hp
  · exact Bool.false_ne_true (hp.symm.trans h0)
  · exact hp hz

theorem halt_waits (o : AP) : transfers (.halt o) (useAP o) (fun s => (rdS s o.a).toNat < 16 ∧ mayPark s (maskSecs (rdS s o.a))
      ∧ (rdS s o.a).getLsbD 0 = true ∧ spend ((maskSecs (rdS s o.a)).foldl parkStream s) = 0)
    (fun s => waiting .halt o.s ((maskSecs (rdS s o.a)).foldl parkStream s)) := by
  obtain ⟨body, hi, hb⟩ := halt_parkThen o
  refine transfers_of_body hi fun s ⟨h, hm, h0, hz⟩ => (hb s h).trans ((parkThen_parks hm).trans (if_pos ?_))
  rw [Bool.and_eq_true, decide_eq_true_eq]
  exact ⟨h0, hz⟩

/-! ### WFLUSH (R385) -/

section
variable {s : State} {w : Sec}

/-- A group written to its slot. -/
def flushGroup (w : Sec) (a : Nat) (bs : List Byte) (s : State) : State := settleStores w a 64 (s.setCore (spadPutTag (spadPutBytes s.core a bs) a 0))

theorem flushGroup_streams (w : Sec) (a : Nat) (bs : List Byte) (s : State) : (flushGroup w a bs s).core.streams = s.core.streams :=
  (congrArg CoreState.streams (spadPutBytes_only s.core a bs).1 :)

/-- The groups of a bank written to their slots. -/
def flushed (w : Sec) (st : Stream) (l : List (Nat × Nat)) (s : State) : State :=
  l.foldl (fun s p => flushGroup w (st.spb.toNat * 64 + 64 * p.2) (groupBytes st.job p.1) s) s

theorem flushed_keeps (w : Sec) (st : Stream) (l : List (Nat × Nat)) (s : State) :
    (flushed w st l s).core.streams = s.core.streams ∧ (flushed w st l s).mem = s.mem := by
  induction l generalizing s with
  | nil => exact ⟨rfl, rfl⟩
  | cons p l ih =>
    obtain ⟨hs, hm⟩ := ih (flushGroup w (st.spb.toNat * 64 + 64 * p.2) (groupBytes st.job p.1) s)
    exact ⟨hs.trans (flushGroup_streams ..), hm⟩

/-- The window map without the groups below the depth. -/
def unheld (b : Bank) : Bank := { b with holds := b.holds.map fun h => if h.any fun g => decide (g < b.depth) then none else h }

theorem flushSlots (st : Stream) (h : ∀ p ∈ flushGroups st.job, st.spb.toNat * 64 + 64 * p.2 + 64 ≤ st.spl.toNat * 64) :
    (flushGroups st.job).find? (fun p => decide (st.spl.toNat * 64 < st.spb.toNat * 64 + 64 * p.2 + 64)) = none :=
  List.find?_eq_none.2 fun p hp => by simpa using h p hp

/-- A stream whose window stands empty below its depth. -/
def emptied (w : Sec) (s : State) : State :=
  (flushed w (s.str w) (flushGroups (s.str w).job) s).onStr w fun st => { st with job := { st.job with holds := (unheld (s.str w).job).holds } }

theorem flushed_str (w : Sec) (st : Stream) (l : List (Nat × Nat)) (s : State) (t : Sec) : (flushed w st l s).str t = s.str t :=
  congrArg (PerSec.get · t) (flushed_keeps w st l s).1

theorem emptied_str (w : Sec) (s : State) : (emptied w s).str w = { s.str w with job := unheld (s.str w).job } := by
  rw [emptied, onStr_str, flushed_str]
  rfl

theorem emptied_str_ne {w t : Sec} (h : t ≠ w) (s : State) : (emptied w s).str t = s.str t := by
  rw [emptied, onStr_str_ne _ _ h, flushed_str]

theorem wflush_body (o : AP) : ∃ body, (∀ s, exec (.wflush o) s = issue (.wflush o) (useAP o) body s)
    ∧ ∀ (s : State) (w : Sec), (rdS s o.a).toNat = secNum w → (w = .ctl ∨ (s.str w).parked.isSome = true) →
      body s = match (flushGroups (s.str w).job).find? fun p => decide ((s.str w).spl.toNat * 64 < (s.str w).spb.toNat * 64 + 64 * p.2 + 64) with
        | some p => .trap (mkTrap 0x07 1 ((s.str w).spb.toNat * 64 + 64 * p.2))
        | none => .done (emptied w s) :=
  ⟨_, fun _ => rfl, fun s w h hp => (if_neg (not_not_intro (secField_clear (h ▸ secNum_lt w)))).trans (by
    rw [secField h]
    exact (if_neg (notRunning hp)).trans rfl)⟩

theorem wflush_empties {o : AP} {s : State} {w : Sec} (hs : issues (.wflush o) (useAP o) s) (h : (rdS (startIssue s) o.a).toNat = secNum w)
    (hp : w = .ctl ∨ ((startIssue s).str w).parked.isSome = true) {st : Stream} (hst : (startIssue s).str w = st)
    (hl : ∀ p ∈ flushGroups st.job, st.spb.toNat * 64 + 64 * p.2 + 64 ≤ st.spl.toNat * 64) :
    ∃ t, exec (.wflush o) s = .next (completed (useAP o) t)
      ∧ (t.str w).job.regs = st.job.regs ∧ (t.str w).job.depth = st.job.depth
      ∧ (∀ g : Fin 16, (t.str w).job.holds[g] = if (st.job.holds[g]).any (fun l => decide (l < st.job.depth)) then none else st.job.holds[g])
      ∧ (∀ t', t' ≠ w → t.str t' = (startIssue s).str t') ∧ t.mem = s.mem := by
  obtain ⟨body, hi, hb⟩ := wflush_body o
  subst hst
  refine ⟨emptied w (startIssue s), (hi s).trans (issue_done hs ((hb (startIssue s) w h hp).trans ?_)), ?_, ?_, fun g => ?_,
    fun t ht => emptied_str_ne ht _, (flushed_keeps w _ _ (startIssue s)).2⟩
  · rw [flushSlots _ hl]
  · rw [emptied_str]
    rfl
  · rw [emptied_str]
    rfl
  · rw [emptied_str]
    exact Vector.getElem_map _ _

theorem wflush_reserved (o : AP) : traps (.wflush o) (useAP o) (fun s => 4 ≤ (rdS s o.a).toNat) fun _ => mkTrap 0x10 0x01 0 :=
  traps_of_body (fun _ => rfl) fun s h => if_pos ((bitsOf_top_ne_zero (rdS s o.a) (by decide)).2 h)

theorem wflush_running (o : AP) (w : Sec) : traps (.wflush o) (useAP o) (fun s => (rdS s o.a).toNat = secNum w ∧ w ≠ .ctl ∧ (s.str w).parked = none)
    fun _ => mkTrap 0x10 0x03 0 :=
  traps_of_body (fun _ => rfl) fun s ⟨h, hw, hp⟩ => (if_neg (not_not_intro (secField_clear (h ▸ secNum_lt w)))).trans (if_pos (by
    rw [secField h, hp]
    exact ⟨hw, rfl⟩))

theorem wflush_limit (o : AP) (w : Sec) (p : Nat × Nat) : traps (.wflush o) (useAP o)
    (fun s => (rdS s o.a).toNat = secNum w ∧ (w = .ctl ∨ (s.str w).parked.isSome = true)
      ∧ ((flushGroups (s.str w).job).find? fun p => decide ((s.str w).spl.toNat * 64 < (s.str w).spb.toNat * 64 + 64 * p.2 + 64)) = some p)
    fun s => mkTrap 0x07 1 ((s.str w).spb.toNat * 64 + 64 * p.2) := by
  obtain ⟨body, hi, hb⟩ := wflush_body o
  exact traps_of_body hi fun s ⟨h, hp, hf⟩ => (hb s w h hp).trans (by rw [hf])

end

/-! ### The obligation -/

/-- Settles O43: each word by its checks in order. -/
theorem contextWords : Obligations.ContextWords := by
  refine ⟨fun o => ⟨ctxsave_spad o, ?_, ?_, ?_, ?_, ?_, semmap_sets o, semmap_malformed o, semmap_reserved o, tlbinv_drops o, fun s => tlbinv_waits,
      tlbinv_reserved o, hint_nothing o, hint_walks o⟩,
    fun o => ⟨tlbprobe_reads o, tlbprobe_reserved o⟩,
    fun o => ⟨preempt_restarts o, preempt_parks o, preempt_ends o, preempt_busy o, preempt_reserved o, preempt_contrary o, halt_goesOn o, halt_waits o, ?_,
      halt_reserved o, ?_, wflush_reserved o, wflush_running o, wflush_limit o⟩,
    mem_maskSecs⟩
  · intro t s s1 hs u h h63 hr hh
    refine ⟨fun l hc => ?_, fun r => ctxsave_unreachable hs h h63 hr hh⟩
    intro t1
    exact ⟨ctxsave_writes hs h h63 hr hh hc rfl, ctxsave_awaits hs h h63 hr hh hc rfl⟩
  · obtain ⟨f, hsave⟩ := exec_ctxsave o
    obtain ⟨g, hload⟩ := exec_ctxload o
    refine List.forall_mem_cons.2 ⟨?_, List.forall_mem_cons.2 ⟨?_, fun _ hm => absurd hm List.not_mem_nil⟩⟩
    · exact contextWord_blocked hsave rfl
    · exact contextWord_blocked hload rfl
  · intro t s hs u seen h h63 hr
    exact ctxload_spad hs h hr h63
  · intro t s s1 hs u h h63 hr hh
    exact ctxload_memory hs h hr h63 hh s1
  · obtain ⟨f, hsave⟩ := exec_ctxsave o
    obtain ⟨g, hload⟩ := exec_ctxload o
    refine List.forall_mem_cons.2 ⟨?_, List.forall_mem_cons.2 ⟨?_, fun _ hm => absurd hm List.not_mem_nil⟩⟩
    · exact ⟨contextWord_waits hsave rfl, contextWord_reserved hsave, contextWord_misaligned hsave, contextWord_running hsave,
        contextWord_pastEnd hsave⟩
    · exact ⟨contextWord_waits hload rfl, contextWord_reserved hload, contextWord_misaligned hload, contextWord_running hload,
        contextWord_pastEnd hload⟩
  · obtain ⟨bp, hip, hbp⟩ := preempt_parkThen o
    obtain ⟨bh, hih, hbh⟩ := halt_parkThen o
    exact List.forall_mem_cons.2 ⟨parkWord hip hbp rfl, List.forall_mem_cons.2 ⟨parkWord hih hbh rfl, fun _ hm => absurd hm List.not_mem_nil⟩⟩
  · intro s w hs h hp st hl
    exact wflush_empties hs h hp rfl hl

end Sys2Proof.Machine
end

