-- ==== Sys2Proof/Proofs/BootEvents.lean ====
section
/-! O52: reset, the boot states in their order, GO, and each mailbox command by its checks. -/

namespace Sys2Proof.Machine

/-- What a count of reads leaves of the host block. -/
theorem countReach_host (h n : Nat) (s : State) : (countReach h n s).host = s.host := by
  obtain ⟨_, _, _, _, _, he⟩ := countReach_onlyCounts h n s
  exact (congrArg State.host he :)

/-! ### Reset and boot (R409, R411) -/

theorem moduleReset_mem {power : Bool} {s : State} {p : Nat × Byte} (h : p ∈ (moduleReset power s).mem) : 2 ^ 50 ≤ p.1 ∧ p ∈ s.mem := by
  obtain ⟨hm, hp⟩ := List.mem_filter.1 (show p ∈ outsideMem 1 s.mem from h)
  exact ⟨(of_decide_eq_true hp).trans_eq (Nat.mul_one _), hm⟩

section
variable {s : State}

theorem startBoot_waits (hb : s.host.boot = .wait) (ht : s.thermal.tripped = false) :
    startBoot s = s.setHost { s.host with bootst := 1, boot := .verify } :=
  if_pos ⟨hb, by rw [ht]; rfl⟩

theorem startBoot_other (hb : s.host.boot ≠ .wait) : startBoot s = s := if_neg fun h => hb h.1

theorem verifyBoot_unread (hb : s.host.boot = .verify) (hr : hostBytes s s.host.bootaddr.toNat s.host.bootlen.toNat = none) :
    verifyBoot s = (countReach s.host.bootaddr.toNat s.host.bootlen.toNat s).setHost { s.host with bootst := 6, boot := .wait } := by
  simp only [verifyBoot, hr]
  exact if_neg (not_not_intro hb)

/-- What the mask ROM makes of the image that it has fetched. -/
theorem verifyBoot_read {img : List Byte} (hb : s.host.boot = .verify) (hr : hostBytes s s.host.bootaddr.toNat s.host.bootlen.toNat = some img) :
    verifyBoot s = match verifyImage img with
      | .error c => (countReach s.host.bootaddr.toNat s.host.bootlen.toNat s).setHost { s.host with bootst := BitVec.ofNat 8 c, boot := .wait }
      | .ok m => (countReach s.host.bootaddr.toNat s.host.bootlen.toNat s).setHost { s.host with
          meas := m, bootst := 2, boot := .test, history := img.drop (0x1EE0 + numOfBytes ((img.drop 8).take 4)) } := by
  simp only [verifyBoot, hr]
  exact if_neg (not_not_intro hb)

theorem verifyImage_magic {img : List Byte} (h : numOfBytes (img.take 4) ≠ 0x49465353) : verifyImage img = .error 3 := if_pos (.inl h)

theorem selfTest_waits (h : s.host.identity = false) : selfTest s = s := if_pos (.inr (by rw [h]; rfl))

theorem selfTest_publishes (hb : s.host.boot = .test) (hi : s.host.identity = true) : selfTest s =
    { s.setHost { s.host with
      offer := 7 + BitVec.ofNat 256 (2 ^ 224), present := Config.selfTestPresent s.tick
      counts := countsWord (Config.selfTestPresent s.tick) ((Config.selfTestCounts s.tick).toNat / 2 ^ 16 % 2 ^ 5)
      bootst := 7, boot := .negotiate, history := soundHistory s.host, map := Config.repairMap s.tick (soundHistory s.host) } with
      physical := bootCores s.tick (Config.selfTestPresent s.tick), spares := bootSpares s.tick (Config.selfTestPresent s.tick)
      columnRepairs := [], rowRepairs := [], tick := s.tick + 1 } :=
  if_neg (by simp [hb, hi])

/-! ### GO (R416, R417) -/

theorem lockFeatures_locked (h : s.host.locked = true) : lockFeatures s = s := if_pos h

theorem lockFeatures_refused (h : s.host.locked = false) (hr : s.host.accept &&& ~~~s.host.offer ≠ 0 ∨ s.host.accept.getLsbD 0 = false) :
    lockFeatures s = s.setHost { s.host with fail := true, accept := 0 } :=
  (if_neg (ne_true_of_eq_false h)).trans (if_pos (hr.imp_right fun h => congrArg not h))

/-- What GO does with bits that it accepts. -/
theorem lockFeatures_accepted (h : s.host.locked = false) (ho : s.host.accept &&& ~~~s.host.offer = 0) (h0 : s.host.accept.getLsbD 0 = true) :
    lockFeatures s = if s.host.accept.getLsbD 224
      then (reserveBanks s).setHost { s.host with fail := false, locked := true, bootst := 8, boot := .ready, earlyWrites := [] }
      else s.setHost { s.host with fail := false, locked := true, bootst := 8, boot := .ready, earlyWrites := [] } := by
  have h0 : bitOf s.host.accept 0 = true := h0
  exact (if_neg (ne_true_of_eq_false h)).trans (if_neg (by simp [ho, h0]))

/-! ### The mailbox (R412, R413) -/

theorem bootState_iff (x : BitVec 8) : [2, 7, 8].contains x.toNat = true ↔ x = 2 ∨ x = 7 ∨ x = 8 := by
  simp [← BitVec.toNat_inj]

theorem mailboxServes_iff : mailboxServes s = true ↔
    s.host.busy = true ∧ s.host.mbresult = none ∧ (s.host.bootst = 2 ∨ s.host.bootst = 7 ∨ s.host.bootst = 8) := by
  rw [mailboxServes, Bool.and_eq_true, Bool.and_eq_true, Option.isNone_iff_eq_none, bootState_iff, and_assoc]

theorem mailCommand_serves {code : Nat} {f : State → State} (h : mailboxServes s = true) (hc : s.host.mbcmd.toNat = code) : mailCommand code f s = f s :=
  if_pos (by rw [h, decide_eq_true hc]; rfl)

theorem mailAligned_true (h : s.host.mbarg0.toNat % 64 = 0) : mailAligned s = true := decide_eq_true h

end
/-! ### What each command does (R410, R411, R413-R415) -/

section
variable {s : State}

theorem helper_empty (h : s.host.mbarg1 = 0) : helperCommand s = mailEnd 2 0 s :=
  if_pos (.inr (.inl (by rw [h]; rfl)))

theorem helper_identifies {bs : List Byte} {seed : BitVec 256} (ha : s.host.mbarg0.toNat % 64 = 0) (h0 : 0 < s.host.mbarg1.toNat)
    (hl : s.host.mbarg1.toNat ≤ 65536) (hi : s.host.identity = false) (hr : hostBytes s s.host.mbarg0.toNat s.host.mbarg1.toNat = some bs)
    (hs : Config.identityFrom bs = some seed) :
    helperCommand s = (countReach s.host.mbarg0.toNat s.host.mbarg1.toNat s).setHost { s.host with newSeed := some (seed, false), mbresult := some (0, 0) } := by
  have hb : ¬ ((!mailAligned s) = true ∨ s.host.mbarg1.toNat = 0 ∨ 65536 < s.host.mbarg1.toNat) := by
    rw [mailAligned_true ha]
    simp
    omega
  unfold helperCommand
  refine (if_neg hb).trans ((if_neg (ne_true_of_eq_false hi)).trans ?_)
  simp only [hr, hs]
  rw [mailEnd, deriveSeed, countReach_host]
  rfl

theorem enrol_known (ha : s.host.mbarg0.toNat % 64 = 0) (hi : s.host.identity = true) : enrolCommand s = mailEnd 4 0 s := by
  unfold enrolCommand
  exact (if_neg (by rw [mailAligned_true ha]; exact Bool.false_ne_true)).trans (if_pos hi)

theorem freshSeed_new {h : HostBlock} {d : List Byte} {seed : BitVec 256} (hs : Config.identityFrom d = some seed) (hn : Config.publicKey seed ∉ h.enrolled) :
    freshSeed h d = some seed := by
  rw [freshSeed, hs]
  exact if_neg (by rwa [List.contains_iff_mem])

theorem mailWrite_reaches {bs : List Byte} (h : hostReach s s.host.mbarg0.toNat bs.length = true) :
    mailWrite bs s = mailEnd 0 bs.length (hostPut s.host.mbarg0.toNat bs s) := if_pos h

theorem enrol_enrols {d : List Byte} {seed : BitVec 256} (hd : (Config.enrolData s.tick).take 65536 = d) (ha : s.host.mbarg0.toNat % 64 = 0)
    (hi : s.host.identity = false) (hs : Config.identityFrom d = some seed) (hn : Config.publicKey seed ∉ s.host.enrolled)
    (hl : d.length ≤ s.host.mbarg1.toNat) (hr : hostReach s s.host.mbarg0.toNat d.length = true) :
    enrolCommand s = deriveSeed seed true (mailEnd 0 d.length (hostPut s.host.mbarg0.toNat d s)) := by
  subst hd
  unfold enrolCommand
  refine (if_neg (by rw [mailAligned_true ha]; exact Bool.false_ne_true)).trans ((if_neg (ne_true_of_eq_false hi)).trans ?_)
  rw [freshSeed_new hs hn]
  refine (if_neg (Nat.not_lt.2 hl)).trans ((if_pos hr).trans ?_)
  rw [mailWrite_reaches hr]

theorem attest_short (h : s.host.mbarg1.toNat < 8112) : attestCommand s = mailEnd 2 0 s := if_pos (.inr h)

theorem attest_reports (h : 8112 ≤ s.host.mbarg1.toNat) (ha : s.host.mbarg0.toNat % 64 = 0) (hi : s.host.identity = true) :
    attestCommand s = mailWrite (reportMessage s ++ signature s (reportMessage s)) s := by
  have hb : ¬ ((!mailAligned s) = true ∨ s.host.mbarg1.toNat < 8112) := by
    rw [mailAligned_true ha]
    simpa using h
  exact (if_neg hb).trans (if_neg (by rw [hi]; exact Bool.false_ne_true))

theorem evring_sets {bs : List Byte} {r : EventRing} (ha : s.host.mbarg0.toNat % 64 = 0) (h1 : s.host.mbarg1 = 0)
    (hr : hostBytes s s.host.mbarg0.toNat 64 = some bs) (hd : ringOf s.host.mbarg0.toNat (numOfBytes bs) = some r) :
    evringCommand s = (countReach s.host.mbarg0.toNat 64 s).setHost { s.host with evring := some r, mbresult := some (0, 0) } := by
  have hb : ¬ ((!mailAligned s) = true ∨ s.host.mbarg1 ≠ 0) := by
    rw [mailAligned_true ha, h1]
    simp
  unfold evringCommand
  refine (if_neg hb).trans ?_
  simp only [hr, hd]
  rfl

theorem powercap_sets (hl : 600 ≤ s.host.mbarg0.toNat) (hh : s.host.mbarg0.toNat ≤ 1900) (h1 : s.host.mbarg1 = 0) :
    powercapCommand s = mailEnd 0 0 (s.setHost { s.host with powercap := s.host.mbarg0.setWidth 16 }) := by
  have hb : ¬ (s.host.mbarg0.toNat < 600 ∨ 1900 < s.host.mbarg0.toNat ∨ s.host.mbarg1 ≠ 0) := by
    rw [not_or, not_or]
    exact ⟨Nat.not_lt.2 hl, Nat.not_lt.2 hh, not_not_intro h1⟩
  refine (if_neg hb).trans ?_
  rw [BitVec.ofNat_toNat]

theorem powercap_range (h : s.host.mbarg0.toNat < 600 ∨ 1900 < s.host.mbarg0.toNat) : powercapCommand s = mailEnd 2 0 s := if_pos (h.imp_right .inl)

theorem history_writes (ha : s.host.mbarg0.toNat % 64 = 0) (hi : s.host.identity = true)
    (hl : (Config.sealedHistory s.host.seed s.host.history s.host.repairs).length ≤ s.host.mbarg1.toNat) :
    historyCommand s = mailWrite (Config.sealedHistory s.host.seed s.host.history s.host.repairs) s := by
  unfold historyCommand
  exact (if_neg (by rw [mailAligned_true ha]; exact Bool.false_ne_true)).trans ((if_neg (by rw [hi]; exact Bool.false_ne_true)).trans
    (if_neg (Nat.not_lt.2 hl)))

theorem unknownMail_ends (h : mailboxServes s = true) (hc : s.host.mbcmd = 0 ∨ 6 < s.host.mbcmd.toNat) : unknownMail s = mailEnd 1 0 s := by
  refine if_pos ?_
  rw [h, Bool.true_and, Bool.or_eq_true, decide_eq_true_eq, decide_eq_true_eq]
  exact hc.imp_left fun h => congrArg BitVec.toNat h

theorem mailboxDone_ends {st : BitVec 16} {n : BitVec 32} (h : s.host.mbresult = some (st, n)) (hm : s.host.msixMask.getLsbD 0 = false)
    {k : HostBlock} (hk : takeSeed s.host = k) (hkm : k.msixMask = s.host.msixMask) :
    mailboxDone s = s.setHost { k with mbstatus := st, mblen := n, busy := false, mbresult := none, msixSent := 0 :: k.msixSent } := by
  subst hk
  rw [mailboxDone, h]
  exact if_neg (ne_true_of_eq_false ((congrArg (·.getLsbD 0) hkm :).trans hm))

theorem takeSeed_none {h : HostBlock} (hn : h.newSeed = none) : takeSeed h = h := by
  rw [takeSeed, hn]

theorem takeSeed_some {h : HostBlock} {seed : BitVec 256} {new : Bool} (hn : h.newSeed = some (seed, new)) : takeSeed h =
    { h with identity := true, idNew := new, seed := seed, idpub := Config.publicKey seed, newSeed := none, enrolled := Config.publicKey seed :: h.enrolled } := by
  rw [takeSeed, hn]

end

/-! ### The obligation -/

/-- A command that firmware serves, with the counter of free values moved on. -/
theorem happens_mail {i : Instr} {code : Nat} {c : BitVec 16} {f eff : State → State} {ok : State → Prop}
    (hi : ∀ s, exec i s = .next { mailCommand code f s with tick := s.tick + 1 }) (hc : c.toNat = code) (hf : ∀ s, ok s → f s = eff s) :
    happens i (fun s => mailboxServes s = true ∧ s.host.mbcmd = c ∧ ok s) fun s => { eff s with tick := s.tick + 1 } :=
  fun s ⟨hs, hm, ho⟩ => (hi s).trans (by rw [mailCommand_serves hs (hm ▸ hc), hf s ho])

/-- Settles O52: each event by the state that boot, the lock or the mailbox stands in. -/
theorem bootEvents : Obligations.BootEvents := by
  refine ⟨fun s => ⟨_, rfl, rfl, rfl, rfl, rfl, rfl, rfl, rfl, fun p => moduleReset_mem, fun h => ?_, fun h => ?_⟩,
    fun s ⟨hb, ht⟩ => congrArg Host.Outcome.next (startBoot_waits hb ht), fun s hb => congrArg Host.Outcome.next (startBoot_other hb),
    fun s ⟨hb, hr⟩ => ?_,
    fun img => ⟨fun s ⟨hb, hr, hm⟩ => ?_, fun m s ⟨hb, hr, hv⟩ => ?_⟩,
    fun s ⟨hb, hi⟩ => congrArg Host.Outcome.next (selfTest_publishes hb hi), fun s ⟨_, hi⟩ => congrArg Host.Outcome.next (selfTest_waits hi),
    fun s h => congrArg Host.Outcome.next (lockFeatures_locked h), fun s ⟨h, hr⟩ => congrArg Host.Outcome.next (lockFeatures_refused h hr),
    fun s ⟨h, ho, h0, hk⟩ => congrArg Host.Outcome.next ((lockFeatures_accepted h ho h0).trans (if_neg (ne_true_of_eq_false hk))),
    fun s h ho h0 hk => ⟨_, congrArg Host.Outcome.next ((lockFeatures_accepted h ho h0).trans (if_pos hk)), rfl, rfl⟩,
    fun s => mailboxServes_iff,
    happens_mail (fun _ => rfl) rfl fun s => helper_empty,
    fun bs seed => ?_, happens_mail (fun _ => rfl) rfl fun s ⟨ha, hi⟩ => enrol_known ha hi,
    fun seed => ?_,
    happens_mail (fun _ => rfl) rfl fun s => attest_short, happens_mail (fun _ => rfl) rfl fun s ⟨h, ha, hi⟩ => attest_reports h ha hi,
    fun bs r => ?_,
    fun s ⟨hs, hc, h⟩ => ?_, fun s ⟨hs, hc, h⟩ => ?_,
    happens_mail (fun _ => rfl) rfl fun s ⟨ha, hi, hl⟩ => history_writes ha hi hl,
    fun s ⟨hs, hc⟩ => congrArg Host.Outcome.next (unknownMail_ends hs hc),
    fun st n => ⟨fun s ⟨h, hm, hn⟩ => congrArg Host.Outcome.next (mailboxDone_ends h hm (takeSeed_none hn) rfl),
      fun seed new s ⟨h, hm, hn⟩ => congrArg Host.Outcome.next (mailboxDone_ends h hm (takeSeed_some hn) rfl)⟩⟩
  · show (s.thermal.tripped && !decide (s.arg.b = 1)) = false
    rw [decide_eq_true h, Bool.not_true, Bool.and_false]
  · show (s.thermal.tripped && !decide (s.arg.b = 1)) = s.thermal.tripped
    rw [decide_eq_false h, Bool.not_false, Bool.and_true]
  · show Host.Outcome.next { verifyBoot s with tick := s.tick + 1 } = _
    rw [verifyBoot_unread hb hr]
  · show Host.Outcome.next { verifyBoot s with tick := s.tick + 1 } = _
    rw [verifyBoot_read hb hr, verifyImage_magic hm]
    rfl
  · show Host.Outcome.next { verifyBoot s with tick := s.tick + 1 } = _
    rw [verifyBoot_read hb hr, hv]
  · exact happens_mail (fun _ => rfl) rfl fun s ⟨ha, h0, hl, hi, hr, hs⟩ => helper_identifies ha h0 hl hi hr hs
  · exact happens_mail (fun _ => rfl) rfl fun s ⟨ha, hi, hs, hn, hl, hr⟩ => enrol_enrols rfl ha hi hs hn hl hr
  · exact happens_mail (fun _ => rfl) rfl fun s ⟨ha, h1, hr, hd⟩ => evring_sets ha h1 hr hd
  · obtain ⟨hl, hh, h1⟩ := h
    exact congrArg Host.Outcome.next ((mailCommand_serves hs (congrArg BitVec.toNat hc)).trans (powercap_sets hl hh h1))
  · exact congrArg Host.Outcome.next ((mailCommand_serves hs (congrArg BitVec.toNat hc)).trans (powercap_range h))

end Sys2Proof.Machine
end

