-- ==== Sys2Proof/Proofs/TokenTrees.lean ====
section
/-! O39: the unit once for every word, the checks of a tree word once, then each word by what it does with its tree. -/

namespace Sys2Proof.Machine

/-! ### The token-tree unit (R288) -/

section
variable {i : Instr} {u : Use} {b : Nat} {body : State → Eff}

theorem treeOp_busy {s : State} (h : s.cur.clk < s.core.vec.treeBusy) : treeOp b body s = .hold := if_pos h

theorem treeOp_done {s t : State} (h : s.core.vec.treeBusy ≤ s.cur.clk) (hb : body s = .done t) : treeOp b body s = .done (treeTaken b s t) := by
  rw [treeOp, if_neg (Nat.not_lt.2 h), hb]
  rfl

theorem treeOp_trap {s : State} {r : TrapRec} (h : s.core.vec.treeBusy ≤ s.cur.clk) (hb : body s = .trap r) : treeOp b body s = .trap r := by
  rw [treeOp, if_neg (Nat.not_lt.2 h), hb]

theorem treeOp_trapIn {s t : State} {r : TrapRec} (h : s.core.vec.treeBusy ≤ s.cur.clk) (hb : body s = .trapIn t r) : treeOp b body s = .trapIn t r := by
  rw [treeOp, if_neg (Nat.not_lt.2 h), hb]

variable (hi : ∀ s, exec i s = issue i u (treeOp b body) s)
include hi

theorem treeDoes_of_body {ok : State → Prop} {eff : State → State} (hb : ∀ s, ok s → body s = .done (eff s)) : treeDoes i u b ok eff :=
  performs_of_body hi fun s ⟨hf, ho⟩ => treeOp_done hf (hb s ho)

theorem treeTraps_of_body {reason : Nat} {bad : State → Prop} (hb : ∀ s, bad s → body s = misuse cTree reason) : treeTraps i u reason bad :=
  traps_of_body hi fun s ⟨hf, ho⟩ => treeOp_trap hf (hb s ho)

theorem freeTreeTraps_of_body {bad : State → Prop} {r : State → TrapRec} (hb : ∀ s, bad s → body s = .trap (r s)) :
    traps i u (fun s => s.core.vec.treeBusy ≤ s.cur.clk ∧ bad s) r :=
  traps_of_body hi fun s ⟨hf, ho⟩ => treeOp_trap hf (hb s ho)

theorem freeTreeTrapsIn_of_body {bad : State → Prop} {r : State → TrapRec} {eff : State → State} (hb : ∀ s, bad s → body s = .trapIn (eff s) (r s)) :
    trapsIn i u (fun s => s.core.vec.treeBusy ≤ s.cur.clk ∧ bad s) r eff :=
  trapsIn_of_body hi fun s ⟨hf, ho⟩ => treeOp_trapIn hf (hb s ho)

theorem stallsTree_of_body (ha : acquires i = none) : stallsTree i u := by
  intro s hs
  rw [← entered_startIssue ha]
  exact fun hc => (hi s).trans (issue_hold hs (treeOp_busy hc))

end

/-! ### Tree words (R286) -/

section
variable {s : State} {a : Word} {ok : Bool} {f : Tree → Eff}

theorem onTree_refused (h : ok = false) : onTree s a ok f = misuse cTree 0x01 := if_pos (by rw [h]; rfl)

theorem onTree_invalid (h : ok = true) (ht : s.core.trees[twTree a] = none) : onTree s a ok f = misuse cTree 0x02 := by
  rw [onTree, if_neg (by rw [h]; exact Bool.false_ne_true), ht]

theorem onTree_valid {t : Tree} (h : ok = true) (ht : s.core.trees[twTree a] = some t) : onTree s a ok f = f t := by
  rw [onTree, if_neg (by rw [h]; exact Bool.false_ne_true), ht]

end

section
variable {i : Instr} {u : Use} {b : Nat} {a : State → Word} {ok : State → Bool} {f : State → Tree → Eff}
  (hi : ∀ s, exec i s = issue i u (treeOp b fun s => onTree s (a s) (ok s) (f s)) s)
include hi

theorem treeChecked_of_body : treeChecked i u a ok :=
  ⟨treeTraps_of_body hi fun _ => onTree_refused, treeTraps_of_body hi fun _ ⟨h, ht⟩ => onTree_invalid h ht⟩

/-- A word of a valid tree does what it does with the tree. -/
theorem treeWord_does {t : Tree} {p : State → Prop} {eff : State → State} (hb : ∀ s, p s → f s t = .done (eff s)) :
    treeDoes i u b (fun s => ok s = true ∧ s.core.trees[twTree (a s)] = some t ∧ p s) eff :=
  treeDoes_of_body hi fun s ⟨h, ht, hp⟩ => (onTree_valid h ht).trans (hb s hp)

theorem treeWord_traps {t : Tree} {reason : Nat} {p : State → Prop} (hb : ∀ s, p s → f s t = misuse cTree reason) :
    treeTraps i u reason (fun s => ok s = true ∧ s.core.trees[twTree (a s)] = some t ∧ p s) :=
  treeTraps_of_body hi fun s ⟨h, ht, hp⟩ => (onTree_valid h ht).trans (hb s hp)

end

/-! ### TTCLR, TTNEW and TTADD (R289) -/

theorem ttclr_one (o : TA) : treeDoes (.ttclr o) (useTA o) 8 (fun s => twOk (rdS s o.a) false false false true = true ∧ twAll (rdS s o.a) = false)
    fun s => setTree (twTree (rdS s o.a)) none s :=
  treeDoes_of_body (fun _ => rfl) fun _ ⟨h, ha⟩ => (checked_ok h).trans (congrArg Eff.done (if_neg (ne_true_of_eq_false ha)))

theorem ttclr_all (o : TA) : treeDoes (.ttclr o) (useTA o) 8 (fun s => twOk (rdS s o.a) false false false true = true ∧ twAll (rdS s o.a) = true)
    fun s => s.setCore { s.core with trees := Vector.replicate 64 none } :=
  treeDoes_of_body (fun _ => rfl) fun _ ⟨h, ha⟩ => (checked_ok h).trans (congrArg Eff.done (if_pos ha))

theorem ttclr_word (o : TA) : treeTraps (.ttclr o) (useTA o) 0x01 fun s => twOk (rdS s o.a) false false false true = false :=
  treeTraps_of_body (fun _ => rfl) fun _ h => checked_refused h

/-- A tree word that is good, with another operand in its range. -/
theorem wordChecked {p : Prop} [Decidable p] {ok : Bool} (h : ok = true) (hp : ¬ p) : ¬ (!ok || decide p) = true := by
  rw [h, decide_eq_false hp]
  exact Bool.false_ne_true

theorem wordRefused {p : Prop} [Decidable p] {ok : Bool} (h : ok = false ∨ p) : (!ok || decide p) = true := by
  rcases h with h | h
  · rw [h]; rfl
  · rw [decide_eq_true h, Bool.or_true]

theorem highHalf {x : Nat} (h : x < 2 ^ 32) : ¬ x / 2 ^ 32 ≠ 0 := not_not_intro (Nat.div_eq_of_lt h)

theorem ttnew_makes (o : TDAB) : treeDoes (.ttnew o) (useTDAB o) 8
    (fun s => twOk (rdS s o.a) false false false false = true ∧ (rdS s o.b).toNat ≤ maxBase ∧ (rdS s o.b).toNat < 2 ^ 32)
    (fun s => wrD o.d (BitVec.ofNat 64 (treeFree (setTree (twTree (rdS s o.a)) (some { base := (rdS s o.b).setWidth 32, nodes := [] }) s))) 8
      (setTree (twTree (rdS s o.a)) (some { base := (rdS s o.b).setWidth 32, nodes := [] }) s)) :=
  treeDoes_of_body (fun _ => rfl) fun s ⟨h, hb, h32⟩ => (if_neg (wordChecked h (highHalf h32))).trans ((if_neg (Nat.not_lt.2 hb)).trans (by
    rw [BitVec.ofNat_toNat]))

theorem ttnew_word (o : TDAB) : treeTraps (.ttnew o) (useTDAB o) 0x01
    fun s => twOk (rdS s o.a) false false false false = false ∨ 2 ^ 32 ≤ (rdS s o.b).toNat :=
  treeTraps_of_body (fun _ => rfl) fun s h => if_pos (wordRefused (h.imp_right fun h => by omega))

theorem ttnew_base (o : TDAB) : treeTraps (.ttnew o) (useTDAB o) 0x06
    fun s => twOk (rdS s o.a) false false false false = true ∧ (rdS s o.b).toNat < 2 ^ 32 ∧ maxBase < (rdS s o.b).toNat :=
  treeTraps_of_body (fun _ => rfl) fun _ ⟨h, h32, hb⟩ => (if_neg (wordChecked h (highHalf h32))).trans (if_pos hb)

/-- No parent, or a node that is not settled. -/
theorem goodParent {t : Tree} {p : Nat} (h : p = 255 ∨ (p < t.count ∧ t.isSet p = false)) : ¬ (p ≠ 0xFF ∧ (t.count ≤ p ∨ t.isSet p = true)) := by
  rintro ⟨hn, hb⟩
  rcases h with h | ⟨hl, hs⟩
  · exact hn h
  · rcases hb with hb | hb
    · exact Nat.not_le.2 hl hb
    · exact Bool.false_ne_true (hs.symm.trans hb)

theorem ttadd_appends (o : TDAB) (t : Tree) : treeDoes (.ttadd o) (useTDAB o) 8
    (fun s => twOk (rdS s o.a) true false false false = true ∧ s.core.trees[twTree (rdS s o.a)] = some t
      ∧ (twNode (rdS s o.a) = 255 ∨ (twNode (rdS s o.a) < t.count ∧ t.isSet (twNode (rdS s o.a)) = false)) ∧ t.count ≠ 256 ∧ treeFree s ≠ 0)
    (fun s => wrD o.d (BitVec.ofNat 64 t.count) 8 (setTree (twTree (rdS s o.a)) (some { t with nodes := t.nodes ++
      [{ token := (rdS s o.b).setWidth 32, parent := BitVec.ofNat 8 (twNode (rdS s o.a)), acc := false, set := false }] }) s)) :=
  treeWord_does (fun _ => rfl) fun s ⟨hp, hc, hf⟩ => (if_neg (goodParent hp)).trans ((if_neg (not_or.2 ⟨hc, hf⟩)).trans (by
    rw [BitVec.ofNat_toNat]))

theorem ttadd_full (o : TDAB) (t : Tree) : treeDoes (.ttadd o) (useTDAB o) 8
    (fun s => twOk (rdS s o.a) true false false false = true ∧ s.core.trees[twTree (rdS s o.a)] = some t
      ∧ (twNode (rdS s o.a) = 255 ∨ (twNode (rdS s o.a) < t.count ∧ t.isSet (twNode (rdS s o.a)) = false)) ∧ (t.count = 256 ∨ treeFree s = 0))
    (fun s => wrD o.d (BitVec.ofNat 64 (2 ^ 64 - 1)) 8 s) :=
  treeWord_does (fun _ => rfl) fun _ ⟨hp, hf⟩ => (if_neg (goodParent hp)).trans (if_pos hf)

theorem ttadd_parent (o : TDAB) (t : Tree) : treeTraps (.ttadd o) (useTDAB o) 0x04
    fun s => twOk (rdS s o.a) true false false false = true ∧ s.core.trees[twTree (rdS s o.a)] = some t
      ∧ twNode (rdS s o.a) ≠ 255 ∧ (t.count ≤ twNode (rdS s o.a) ∨ t.isSet (twNode (rdS s o.a)) = true) :=
  treeWord_traps (fun _ => rfl) fun _ h => if_pos h

/-! ### TTLOAD, TTSTORE and TTSTAT (R290) -/

/-- An address in scratchpad under a good tree word. -/
theorem imageWord {b : Word} {a : Nat} (h : twOk b false false false false = true) (ha : a < 2 ^ 22) :
    ¬ (!twOk b false false false false || decide (spadSize ≤ a)) = true := wordChecked h (Nat.not_le.2 ha)

theorem ttload_word (o : TDAB) : treeTraps (.ttload o) (useTDAB o) 0x01
    fun s => twOk (rdS s o.b) false false false false = false ∨ 2 ^ 22 ≤ (rdS s o.a).toNat :=
  treeTraps_of_body (fun _ => rfl) fun _ h => if_pos (wordRefused h)

theorem ttload_misaligned (o : TDAB) : traps (.ttload o) (useTDAB o)
    (fun s => s.core.vec.treeBusy ≤ s.cur.clk ∧ twOk (rdS s o.b) false false false false = true ∧ (rdS s o.a).toNat < 2 ^ 22 ∧ (rdS s o.a).toNat % 16 ≠ 0)
    fun s => mkTrap 0x03 0 (rdS s o.a).toNat :=
  freeTreeTraps_of_body (fun _ => rfl) fun _ ⟨h, ha, hm⟩ => (if_neg (imageWord h ha)).trans (if_pos hm)

/-- TTLOAD goes on with what it finds in an image. -/
def loadsTree (o : TDAB) (s : State) : Except TrapRec Tree → Eff
  | .error r => loadFails r.addr.toNat r s
  | .ok t =>
    if treeFree s + treeCount s (twTree (rdS s o.b)) < t.count then
      .done (holdFor 320 (wrD o.d allOnes 320 (sawScratch 0 (rdS s o.a).toNat (16 + 16 * t.count) s)))
    else .done (holdFor 320 (wrD o.d (BitVec.ofNat 64 t.count) 320
      (setTree (twTree (rdS s o.b)) (some t) (sawScratch 0 (rdS s o.a).toNat (16 + 16 * t.count) s))))

/-- TTLOAD of an aligned image. -/
def loadsImage (o : TDAB) (s : State) (x : Except TrapRec Tree) : Prop :=
  twOk (rdS s o.b) false false false false = true ∧ (rdS s o.a).toNat < 2 ^ 22 ∧ (rdS s o.a).toNat % 16 = 0 ∧ readTree s (rdS s o.a).toNat = x

theorem ttload_body (o : TDAB) : ∃ body, (∀ s, exec (.ttload o) s = issue (.ttload o) (useTDAB o) (treeOp 320 body) s)
    ∧ ∀ s x, loadsImage o s x → body s = loadsTree o s x :=
  ⟨_, fun _ => rfl, fun s x ⟨h, ha, hm, hx⟩ => (if_neg (imageWord h ha)).trans ((if_neg (not_not_intro hm)).trans (by
    rw [hx]
    cases x <;> rfl))⟩

theorem ttload_fails (o : TDAB) (r : TrapRec) : traps (.ttload o) (useTDAB o)
    (fun s => s.core.vec.treeBusy ≤ s.cur.clk ∧ twOk (rdS s o.b) false false false false = true ∧ (rdS s o.a).toNat < 2 ^ 22 ∧ (rdS s o.a).toNat % 16 = 0
      ∧ readTree s (rdS s o.a).toNat = .error r ∧ (r.cause ≠ 0x05 ∨ spadIsBad s.core r.addr.toNat = false)) fun _ => r := by
  obtain ⟨body, hi, hb⟩ := ttload_body o
  refine freeTreeTraps_of_body hi fun s ⟨h, ha, hm, hx, hr⟩ => (hb s _ ⟨h, ha, hm, hx⟩).trans (if_neg ?_)
  rcases hr with hr | hr
  · simp [show r.cause ≠ cPoison from hr]
  · simp [hr]

theorem ttload_reports (o : TDAB) (r : TrapRec) : trapsIn (.ttload o) (useTDAB o)
    (fun s => s.core.vec.treeBusy ≤ s.cur.clk ∧ twOk (rdS s o.b) false false false false = true ∧ (rdS s o.a).toNat < 2 ^ 22 ∧ (rdS s o.a).toNat % 16 = 0
      ∧ readTree s (rdS s o.a).toNat = .error r ∧ r.cause = 0x05 ∧ spadIsBad s.core r.addr.toNat = true) (fun _ => r)
    (fun s => reportLine r.addr.toNat s) := by
  obtain ⟨body, hi, hb⟩ := ttload_body o
  refine freeTreeTrapsIn_of_body hi fun s ⟨h, ha, hm, hx, hr, hs⟩ => (hb s _ ⟨h, ha, hm, hx⟩).trans (if_pos ?_)
  rw [hs, decide_eq_true (show r.cause = cPoison from hr)]
  rfl

theorem ttload_noRoom (o : TDAB) (t : Tree) : treeDoes (.ttload o) (useTDAB o) 320
    (fun s => twOk (rdS s o.b) false false false false = true ∧ (rdS s o.a).toNat < 2 ^ 22 ∧ (rdS s o.a).toNat % 16 = 0
      ∧ readTree s (rdS s o.a).toNat = .ok t ∧ treeFree s + treeCount s (twTree (rdS s o.b)) < t.count)
    (fun s => holdFor 320 (wrD o.d (BitVec.allOnes 64) 320 (sawScratch 0 (rdS s o.a).toNat (16 + 16 * t.count) s))) := by
  obtain ⟨body, hi, hb⟩ := ttload_body o
  exact treeDoes_of_body hi fun s ⟨h, ha, hm, hx, hr⟩ => (hb s _ ⟨h, ha, hm, hx⟩).trans (if_pos hr)

theorem ttload_loads (o : TDAB) (t : Tree) : treeDoes (.ttload o) (useTDAB o) 320
    (fun s => twOk (rdS s o.b) false false false false = true ∧ (rdS s o.a).toNat < 2 ^ 22 ∧ (rdS s o.a).toNat % 16 = 0
      ∧ readTree s (rdS s o.a).toNat = .ok t ∧ t.count ≤ treeFree s + treeCount s (twTree (rdS s o.b)))
    (fun s => holdFor 320 (wrD o.d (BitVec.ofNat 64 t.count) 320
      (setTree (twTree (rdS s o.b)) (some t) (sawScratch 0 (rdS s o.a).toNat (16 + 16 * t.count) s)))) := by
  obtain ⟨body, hi, hb⟩ := ttload_body o
  exact treeDoes_of_body hi fun s ⟨h, ha, hm, hx, hr⟩ => (hb s _ ⟨h, ha, hm, hx⟩).trans (if_neg (Nat.not_lt.2 hr))

theorem ttstore_word (o : TAB) : treeTraps (.ttstore o) (useTAB o) 0x01
    fun s => twOk (rdS s o.b) false false false false = false ∨ 2 ^ 22 ≤ (rdS s o.a).toNat :=
  treeTraps_of_body (fun _ => rfl) fun _ h => if_pos (wordRefused h)

theorem ttstore_misaligned (o : TAB) : traps (.ttstore o) (useTAB o)
    (fun s => s.core.vec.treeBusy ≤ s.cur.clk ∧ twOk (rdS s o.b) false false false false = true ∧ (rdS s o.a).toNat < 2 ^ 22 ∧ (rdS s o.a).toNat % 16 ≠ 0)
    fun s => mkTrap 0x03 0 (rdS s o.a).toNat :=
  freeTreeTraps_of_body (fun _ => rfl) fun _ ⟨h, ha, hm⟩ => (if_neg (imageWord h ha)).trans (if_pos hm)

theorem ttstore_invalid (o : TAB) : treeTraps (.ttstore o) (useTAB o) 0x02
    fun s => twOk (rdS s o.b) false false false false = true ∧ (rdS s o.a).toNat < 2 ^ 22 ∧ (rdS s o.a).toNat % 16 = 0
      ∧ s.core.trees[twTree (rdS s o.b)] = none :=
  treeTraps_of_body (fun _ => rfl) fun _ ⟨h, ha, hm, ht⟩ => (if_neg (imageWord h ha)).trans ((if_neg (not_not_intro hm)).trans (onTree_invalid rfl ht))

theorem ttstore_stores (o : TAB) (t : Tree) : treeDoes (.ttstore o) (useTAB o) 320
    (fun s => twOk (rdS s o.b) false false false false = true ∧ (rdS s o.a).toNat < 2 ^ 22 ∧ (rdS s o.a).toNat % 16 = 0
      ∧ s.core.trees[twTree (rdS s o.b)] = some t ∧ treeExtent s (rdS s o.a).toNat (16 + 16 * t.count) = none)
    (fun s => holdFor 320 (storeBytes 0 (rdS s o.a).toNat (treeImage t) s)) :=
  treeDoes_of_body (fun _ => rfl) fun _ ⟨h, ha, hm, ht, hx⟩ => (if_neg (imageWord h ha)).trans ((if_neg (not_not_intro hm)).trans
    ((onTree_valid rfl ht).trans (by rw [hx])))

theorem ttstore_extent (o : TAB) (t : Tree) (r : TrapRec) : traps (.ttstore o) (useTAB o)
    (fun s => s.core.vec.treeBusy ≤ s.cur.clk ∧ twOk (rdS s o.b) false false false false = true ∧ (rdS s o.a).toNat < 2 ^ 22 ∧ (rdS s o.a).toNat % 16 = 0
      ∧ s.core.trees[twTree (rdS s o.b)] = some t ∧ treeExtent s (rdS s o.a).toNat (16 + 16 * t.count) = some r) fun _ => r :=
  freeTreeTraps_of_body (fun _ => rfl) fun _ ⟨h, ha, hm, ht, hx⟩ => (if_neg (imageWord h ha)).trans ((if_neg (not_not_intro hm)).trans
    ((onTree_valid rfl ht).trans (by rw [hx])))

theorem ttstat_reads (o : TDA) : treeDoes (.ttstat o) (useTDA o) 24 (fun s => twOk (rdS s o.a) false false false false = true)
    (fun s => wrD o.d (match s.core.trees[twTree (rdS s o.a)] with
      | none => BitVec.ofNat 64 (treeFree s * 2 ^ 50)
      | some t => BitVec.ofNat 64 (2 ^ 63 + treeFree s * 2 ^ 50 + t.settled * 2 ^ 41 + t.count * 2 ^ 32 + t.base.toNat)) 24 s) :=
  treeDoes_of_body (fun _ => rfl) fun s h => (checked_ok h).trans (by
    cases s.core.trees[twTree (rdS s o.a)] <;> rfl)

theorem ttstat_word (o : TDA) : treeTraps (.ttstat o) (useTDA o) 0x01 fun s => twOk (rdS s o.a) false false false false = false :=
  treeTraps_of_body (fun _ => rfl) fun _ h => checked_refused h

/-! ### TTMASK, TTPOS and TTDEPTH (R291-R293) -/

theorem ttmask_marks (o : TMA) (t : Tree) : treeDoes (.ttmask o) (useTMA o) 24
    (fun s => twOk (rdS s o.a) true true false false = true ∧ s.core.trees[twTree (rdS s o.a)] = some t)
    (fun s => wrM o.v (packLanes 1 (fun l => if t.anc (twNode (rdS s o.a) + l / 64) (twKey (rdS s o.a) + l % 64) then 1 else 0) 4096 0) 24 s) :=
  treeDoes_of_body (fun _ => rfl) fun _ ⟨h, ht⟩ => onTree_valid h ht

/-- Positions in the lanes of nodes, all ones beyond COUNT. -/
theorem treeLane_pos (t : Tree) (i p : Nat) : (treeLane t i fun _ => p) = if i < t.nodes.length then p else 2 ^ 32 - 1 := by
  by_cases h : i < t.nodes.length
  · rw [treeLane, List.getElem?_eq_getElem h, if_pos h]
  · rw [treeLane, List.getElem?_eq_none (Nat.le_of_not_lt h), if_neg h]

theorem ttpos_lanes (o : TWA) (t : Tree) : treeDoes (.ttpos o) (useTWA o) 24
    (fun s => twOk (rdS s o.a) true false false false = true ∧ s.core.trees[twTree (rdS s o.a)] = some t ∧ ((shapeOf s).t = 4 ∨ (shapeOf s).t = 8))
    (fun s => putLanes o.v (shapeOf s) (2 ^ (shapeOf s).lanes - 1)
      (fun l => if twNode (rdS s o.a) + l < t.nodes.length then t.pos (twNode (rdS s o.a) + l) else 2 ^ 32 - 1) 24 s) :=
  treeWord_does (fun _ => rfl) fun s h => by
    have h0 : (shapeOf s).t ≠ 0 := by omega
    refine (if_neg h0).trans ((if_pos h).trans ?_)
    simp only [treeLane_pos]

theorem ttpos_type (o : TWA) (t : Tree) : treeTraps (.ttpos o) (useTWA o) 0x08
    fun s => twOk (rdS s o.a) true false false false = true ∧ s.core.trees[twTree (rdS s o.a)] = some t
      ∧ (shapeOf s).t ≠ 0 ∧ (shapeOf s).t ≠ 4 ∧ (shapeOf s).t ≠ 8 :=
  treeWord_traps (fun _ => rfl) fun _ ⟨h0, h4, h8⟩ => (if_neg h0).trans (if_neg (not_or.2 ⟨h4, h8⟩))

/-- The positions in FP32. -/
def floatPositions (o : TWA) (t : Tree) (s : State) : State :=
  putRounded o.v (shapeOf s) (2 ^ (shapeOf s).lanes - 1) (fun l =>
    if twNode (rdS s o.a) + l < t.count then roundTo .fp32 0 (Num.ofInt (t.pos (twNode (rdS s o.a) + l))) else exact 0x7FC00000) 24 s

theorem ttpos_float (o : TWA) (t : Tree) : treeDoes (.ttpos o) (useTWA o) 24
    (fun s => twOk (rdS s o.a) true false false false = true ∧ s.core.trees[twTree (rdS s o.a)] = some t ∧ (shapeOf s).t = 0) (floatPositions o t) :=
  treeWord_does (fun _ => rfl) fun _ h => if_pos h

theorem putLanes_trees (d : VDst) (h : Shape) (m : Nat) (f : Nat → Nat) (b : Nat) (s : State) : (putLanes d h m f b s).core.trees = s.core.trees := by
  cases d <;> rfl

theorem putRounded_trees (d : VDst) (h : Shape) (m : Nat) (f : Nat → Rounded) (b : Nat) (s : State) : (putRounded d h m f b s).core.trees = s.core.trees := by
  refine Eq.trans ?_ (putLanes_trees d h m (fun l => (f l).code) b s)
  unfold putRounded landFlags
  split <;> rfl

theorem ttpos_completes {o : TWA} {t : Tree} {s : State} (hs : issues (.ttpos o) (useTWA o) s) (hf : s.core.vec.treeBusy ≤ (startIssue s).cur.clk)
    (h : twOk (rdS (startIssue s) o.a) true false false false = true) (ht : s.core.trees[twTree (rdS (startIssue s) o.a)] = some t)
    (h0 : (shapeOf s).t = 0) : ∃ u, exec (.ttpos o) s = .next (completed (useTWA o) u) ∧ u.core.trees = s.core.trees := by
  have htree : (treeTaken 24 (startIssue s) (floatPositions o t (startIssue s))).core.trees = (floatPositions o t (startIssue s)).core.trees := rfl
  exact ⟨_, ttpos_float o t s hs ⟨hf, h, ht, h0⟩, htree.trans (putRounded_trees ..)⟩

/-- The field of node i that TTDEPTH reads with selector `b`. -/
def depthField (t : Tree) (i b : Nat) (x : TreeNode) : Nat :=
  match b with
  | 0 => t.depth i
  | 1 => x.parent.toNat
  | 2 => x.token.toNat
  | _ => nodeFlags x

theorem treeLane_depth {b : Nat} (h : b < 4) (t : Tree) (i : Nat) : treeLane t i (depthField t i b) =
    match t.nodes[i]? with
    | none => 2 ^ 32 - 1
    | some x => if b = 0 then t.depth i else if b = 1 then x.parent.toNat else if b = 2 then x.token.toNat else nodeFlags x := by
  rw [treeLane]
  cases t.nodes[i]? with
  | none => rfl
  | some x => interval_cases b <;> rfl

theorem depthWord {ok : Bool} {b : Nat} (h : ok = true) (hb : b < 4) : (ok && decide (b < 4)) = true := by
  rw [h, decide_eq_true hb]
  rfl

theorem ttdepth_lanes (o : TWAB) (t : Tree) : treeDoes (.ttdepth o) (useTWAB o) 24
    (fun s => twOk (rdS s o.a) true false false false = true ∧ s.core.trees[twTree (rdS s o.a)] = some t ∧ (rdS s o.b).toNat < 4 ∧ vtInt (shapeOf s).t = true)
    (fun s => putLanes o.v (shapeOf s) (2 ^ (shapeOf s).lanes - 1) (fun l => match t.nodes[twNode (rdS s o.a) + l]? with
      | none => 2 ^ 32 - 1
      | some x =>
        if (rdS s o.b).toNat = 0 then t.depth (twNode (rdS s o.a) + l) else if (rdS s o.b).toNat = 1 then x.parent.toNat
        else if (rdS s o.b).toNat = 2 then x.token.toNat else nodeFlags x) 24 s) :=
  treeDoes_of_body (fun _ => rfl) fun s ⟨h, ht, hb, hv⟩ => (onTree_valid (depthWord h hb) ht).trans
    ((if_neg (ne_true_of_eq_false (congrArg not hv))).trans
      (congrArg (fun f => Eff.done (putLanes o.v (shapeOf s) (2 ^ (shapeOf s).lanes - 1) f 24 s)) (funext fun l => treeLane_depth hb t (twNode (rdS s o.a) + l))))

theorem ttdepth_type (o : TWAB) (t : Tree) : treeTraps (.ttdepth o) (useTWAB o) 0x08
    fun s => twOk (rdS s o.a) true false false false = true ∧ s.core.trees[twTree (rdS s o.a)] = some t ∧ (rdS s o.b).toNat < 4 ∧ vtInt (shapeOf s).t = false :=
  treeTraps_of_body (fun _ => rfl) fun _ ⟨h, ht, hb, hv⟩ => (onTree_valid (depthWord h hb) ht).trans (if_pos (by rw [hv]; rfl))

/-! ### TTPATH and TTPRUNE (R294, R295) -/

/-- A tree with the nodes of a path accepted. -/
def acceptedTree (t : Tree) (p : List Nat) : Tree :=
  { t with nodes := t.nodes.zipIdx.map fun x => if p.contains x.2 then { x.1 with acc := true } else x.1 }

theorem acceptedTree_length (t : Tree) (p : List Nat) : (acceptedTree t p).nodes.length = t.nodes.length := by
  simp [acceptedTree]

theorem acceptedTree_node (t : Tree) (p : List Nat) (k : Nat) :
    (acceptedTree t p).nodes[k]? = (t.nodes[k]?).map fun x => if k ∈ p then { x with acc := true } else x := by
  rw [acceptedTree, List.getElem?_map, List.getElem?_zipIdx, Option.map_map]
  simp [Function.comp_def]

theorem ttpath_reads (o : TWA) (t : Tree) : treeDoes (.ttpath o) (useTWA o) 24
    (fun s => twOk (rdS s o.a) true false true false = true ∧ s.core.trees[twTree (rdS s o.a)] = some t ∧ twNode (rdS s o.a) < t.count ∧ twMark (rdS s o.a) = false)
    (fun s => wrV o.v (pathImage t (twNode (rdS s o.a))) 24 (setTree (twTree (rdS s o.a)) (some t) s)) :=
  treeWord_does (fun _ => rfl) fun s ⟨hl, hm⟩ => (if_neg (Nat.not_le.2 hl)).trans
    (congrArg (fun u => Eff.done (wrV o.v (pathImage t (twNode (rdS s o.a))) 24 (setTree (twTree (rdS s o.a)) (some u) s))) (if_neg (ne_true_of_eq_false hm)))

theorem ttpath_accepts (o : TWA) (t : Tree) : treeDoes (.ttpath o) (useTWA o) 24
    (fun s => twOk (rdS s o.a) true false true false = true ∧ s.core.trees[twTree (rdS s o.a)] = some t ∧ twNode (rdS s o.a) < t.count ∧ twMark (rdS s o.a) = true)
    (fun s => wrV o.v (pathImage t (twNode (rdS s o.a))) 24 (setTree (twTree (rdS s o.a)) (some (acceptedTree t (t.path (twNode (rdS s o.a))))) s)) :=
  treeWord_does (fun _ => rfl) fun s ⟨hl, hm⟩ => (if_neg (Nat.not_le.2 hl)).trans
    (congrArg (fun u => Eff.done (wrV o.v (pathImage t (twNode (rdS s o.a))) 24 (setTree (twTree (rdS s o.a)) (some u) s))) (if_pos hm))

theorem ttpath_node (o : TWA) (t : Tree) : treeTraps (.ttpath o) (useTWA o) 0x03
    fun s => twOk (rdS s o.a) true false true false = true ∧ s.core.trees[twTree (rdS s o.a)] = some t ∧ t.count ≤ twNode (rdS s o.a) :=
  treeWord_traps (fun _ => rfl) fun _ h => if_pos h

theorem ttprune_node (o : TWA) (t : Tree) : treeTraps (.ttprune o) (useTWA o) 0x03
    fun s => twOk (rdS s o.a) true false false false = true ∧ s.core.trees[twTree (rdS s o.a)] = some t ∧ t.count ≤ twNode (rdS s o.a) :=
  treeWord_traps (fun _ => rfl) fun _ h => if_pos h

theorem ttprune_unaccepted (o : TWA) (t : Tree) : treeTraps (.ttprune o) (useTWA o) 0x05
    fun s => twOk (rdS s o.a) true false false false = true ∧ s.core.trees[twTree (rdS s o.a)] = some t
      ∧ twNode (rdS s o.a) < t.count ∧ (t.isAcc (twNode (rdS s o.a)) = false ∨ t.isSet (twNode (rdS s o.a)) = true) :=
  treeWord_traps (fun _ => rfl) fun _ ⟨hl, hp⟩ => (if_neg (Nat.not_le.2 hl)).trans (if_pos (by
    rw [Bool.or_eq_true, Bool.not_eq_true']
    exact hp))

/-- A node that may be settled. -/
theorem prunable {t : Tree} {i : Nat} (ha : t.isAcc i = true) (hs : t.isSet i = false) : ¬ (!t.isAcc i || t.isSet i) = true := by
  rw [ha, hs]
  exact Bool.false_ne_true

theorem ttprune_prunes (o : TWA) (t : Tree) : treeDoes (.ttprune o) (useTWA o) 600
    (fun s => twOk (rdS s o.a) true false false false = true ∧ s.core.trees[twTree (rdS s o.a)] = some t ∧ twNode (rdS s o.a) < t.count
      ∧ t.isAcc (twNode (rdS s o.a)) = true ∧ t.isSet (twNode (rdS s o.a)) = false ∧ t.base.toNat + (t.path (twNode (rdS s o.a))).length ≤ maxBase)
    (fun s => wrV o.v (pathImage t (twNode (rdS s o.a))) 600 (setTree (twTree (rdS s o.a)) (some (prunedTree t (twNode (rdS s o.a)))) s)) :=
  treeWord_does (fun _ => rfl) fun _ ⟨hl, ha, hs, hb⟩ => (if_neg (Nat.not_le.2 hl)).trans ((if_neg (prunable ha hs)).trans (if_neg (Nat.not_lt.2 hb)))

theorem ttprune_base (o : TWA) (t : Tree) : treeTraps (.ttprune o) (useTWA o) 0x06
    fun s => twOk (rdS s o.a) true false false false = true ∧ s.core.trees[twTree (rdS s o.a)] = some t ∧ twNode (rdS s o.a) < t.count
      ∧ t.isAcc (twNode (rdS s o.a)) = true ∧ t.isSet (twNode (rdS s o.a)) = false ∧ maxBase < t.base.toNat + (t.path (twNode (rdS s o.a))).length :=
  treeWord_traps (fun _ => rfl) fun _ ⟨hl, ha, hs, hb⟩ => (if_neg (Nat.not_le.2 hl)).trans ((if_neg (prunable ha hs)).trans (if_pos hb))

theorem prunedTree_settled {t : Tree} {i : Nat} {x : TreeNode} (h : x ∈ (prunedTree t i).nodes) : x.acc = true ∧ x.set = true := by
  obtain ⟨p, -, rfl⟩ := List.mem_map.1 h
  exact ⟨rfl, rfl⟩

theorem prunedTree_length (t : Tree) (i : Nat) : (prunedTree t i).nodes.length = (t.path i).length := by
  simp [prunedTree]

/-! ### The obligation -/

/-- Settles O39: each word on a unit that is free, by its checks in order. -/
theorem tokenTrees : Obligations.TokenTrees := by
  refine ⟨⟨fun o => ⟨ttclr_one o, ttclr_all o, ttclr_word o⟩,
      fun o => ⟨ttnew_makes o, ttadd_appends o, ttadd_full o, ttnew_word o, ttnew_base o, treeChecked_of_body fun _ => rfl, ttadd_parent o, ttload_word o,
        ttload_fails o, ttload_reports o, ttload_noRoom o, ttload_loads o, ttload_misaligned o⟩,
      fun o t => ⟨ttstore_stores o t, ttstore_word o, ttstore_misaligned o, ttstore_invalid o, ttstore_extent o t⟩,
      fun o => ⟨ttstat_reads o, ttstat_word o⟩⟩,
    fun o t => ttmask_marks o t,
    fun o t => ⟨ttpos_lanes o t, fun s => ttpos_completes, ttpath_reads o t, fun s hs hf h ht hl hm => ?_, ttprune_prunes o t,
      treeChecked_of_body fun _ => rfl, ttpos_type o t, treeChecked_of_body fun _ => rfl, ttpath_node o t, treeChecked_of_body fun _ => rfl,
      ttprune_node o t, ttprune_unaccepted o t, ttprune_base o t⟩,
    fun o => treeChecked_of_body fun _ => rfl, fun o => ⟨treeChecked_of_body fun _ => rfl, ttdepth_type o⟩, fun o t => ttdepth_lanes o t,
    fun o => stallsTree_of_body (fun _ => rfl) rfl, fun o => ?_, fun o => stallsTree_of_body (fun _ => rfl) rfl,
    fun o => stallsTree_of_body (fun _ => rfl) rfl, fun o => stallsTree_of_body (fun _ => rfl) rfl, fun o => ?_,
    fun o => stallsTree_of_body (fun _ => rfl) rfl, fun t i => ⟨prunedTree_length t i, rfl, fun x => prunedTree_settled⟩⟩
  · exact ⟨acceptedTree t (t.path (twNode (rdS (startIssue s) o.a))), ttpath_accepts o t s hs ⟨hf, h, ht, hl, hm⟩, rfl, acceptedTree_length _ _,
      acceptedTree_node _ _⟩
  · exact List.forall_mem_cons.2 ⟨stallsTree_of_body (fun _ => rfl) rfl, List.forall_mem_cons.2 ⟨stallsTree_of_body (fun _ => rfl) rfl,
      List.forall_mem_cons.2 ⟨stallsTree_of_body (fun _ => rfl) rfl, fun _ hm => absurd hm List.not_mem_nil⟩⟩⟩
  · exact List.forall_mem_cons.2 ⟨stallsTree_of_body (fun _ => rfl) rfl, List.forall_mem_cons.2 ⟨stallsTree_of_body (fun _ => rfl) rfl,
      List.forall_mem_cons.2 ⟨stallsTree_of_body (fun _ => rfl) rfl, fun _ hm => absurd hm List.not_mem_nil⟩⟩⟩

end Sys2Proof.Machine
end
